-- ==== Sys2Proof/Word.lean ====
section
/-! DEFINITION. Word sizes of the manual (R1, R5), and the one sparse table the whole state is built from. -/

namespace Sys2Proof

/-- One byte. -/
abbrev Byte := BitVec 8
/-- A 32-bit word, the width of a lane register. -/
abbrev W32 := BitVec 32
/-- A 64-bit word, the width of a scalar register. -/
abbrev W64 := BitVec 64
/-- A 48-bit logical time (R308). -/
abbrev W48 := BitVec 48

/-- A sparse table: pairs of a key and a value, keys strictly rising. -/
abbrev SMap (α : Type) := List (Nat × α)

namespace SMap

/-- The value listed under a key, if any. -/
def find {α : Type} : SMap α → Nat → Option α
  | [], _ => none
  | (k, v) :: m, x => if x = k then some v else find m x

/-- List a value under a key, keeping the keys rising. -/
def insert {α : Type} : SMap α → Nat → α → SMap α
  | [], x, v => [(x, v)]
  | (k, w) :: m, x, v =>
    if x < k then (x, v) :: (k, w) :: m
    else if x = k then (x, v) :: m
    else (k, w) :: insert m x v

/-- List nothing under a key. -/
def erase {α : Type} : SMap α → Nat → SMap α
  | [], _ => []
  | (k, w) :: m, x => if x = k then erase m x else (k, w) :: erase m x

/-- The value under a key, where an unlisted key stands for `d`. -/
def get {α : Type} (d : α) (m : SMap α) (x : Nat) : α := (m.find x).getD d

/-- Write a value where an unlisted key stands for `d`: writing `d` removes the entry. -/
def put {α : Type} [DecidableEq α] (d : α) (m : SMap α) (x : Nat) (v : α) : SMap α :=
  if v = d then m.erase x else m.insert x v

/-- The entries whose key lies in `[lo, lo + n)`. -/
def slice {α : Type} (m : SMap α) (lo n : Nat) : SMap α :=
  m.filter fun p => decide (lo ≤ p.1) && decide (p.1 < lo + n)

/-- The table without the entries whose key lies in `[lo, lo + n)`. -/
def drop {α : Type} (m : SMap α) (lo n : Nat) : SMap α :=
  m.filter fun p => !(decide (lo ≤ p.1) && decide (p.1 < lo + n))

/-- Write every entry of `src` into `dst`, its key moved by `f`. -/
def paste {α : Type} (f : Nat → Nat) : SMap α → SMap α → SMap α
  | [], dst => dst
  | (k, v) :: src, dst => paste f src (dst.insert (f k) v)

/-- The keys strictly rise. -/
def sorted {α : Type} : SMap α → Bool
  | [] => true
  | [_] => true
  | (a, _) :: (b, w) :: m => decide (a < b) && sorted ((b, w) :: m)

/-- The canonical form of a table whose unlisted keys stand for `d`. -/
def wf {α : Type} [DecidableEq α] (d : α) (m : SMap α) : Bool :=
  sorted m && m.all fun p => decide (p.2 ≠ d)

end SMap
end Sys2Proof
end

