-- ==== Sys2Proof/Syntax.lean ====
section
/-! DEFINITION. The instruction set: one constructor for each row of spec/opcode_table.json, in the table's order.
Scalar words (R21 to R29), lane words (R30 to R44) and device events. -/

namespace Sys2Proof

/-! ## Codes of the scalar words -/

/-- Conditions of SCMP and SCMPI (Table 9-3). -/
inductive SCond where
  | eq | ne | lt | le | ltn | len | tst | ntst
deriving DecidableEq, Repr

/-- Access sizes of SLD, SLDX and SST (Table 2-1). -/
inductive Size where
  | b8 | b16 | b32 | b64
deriving DecidableEq, Repr

/-- Atomic operations (Table 6-4). -/
inductive AOp where
  | add | min | max | and | or | xor | exch | inc | dec
deriving DecidableEq, Repr

/-- Operations of FATOM (Table 15-2). -/
inductive FOp where
  | op (o : AOp) | cas
deriving DecidableEq, Repr

/-- Scopes (Table 17-1). -/
inductive Scope where
  | grp | team | gang | dev | sys
deriving DecidableEq, Repr

/-- Kinds of FENCE (R28). -/
inductive FKind where
  | acq | rel | full
deriving DecidableEq, Repr

/-- Global-side policies of bulk commands (Table 15-2). -/
inductive BPol where
  | ca | nl | cs
deriving DecidableEq, Repr

/-! ## Codes of the lane words -/

/-- END codes (R30, Table 2-10). -/
inductive EndC where
  | none | fall | next | exit
deriving DecidableEq, Repr

/-- Source selectors (Table 2-8). -/
inductive Src where
  | t (n : Fin 48) | latch (i : Fin 3) | alatch | arg (i : Fin 4) | argHi (i : Fin 4) | zero | imm
deriving DecidableEq, Repr

/-- Destination selectors (Table 2-9). -/
inductive Dst where
  | t (n : Fin 48) | p (n : Fin 8) | discard
deriving DecidableEq, Repr

/-- Hold fields (R30). -/
inductive Hold where
  | none | l0 | l1 | l2
deriving DecidableEq, Repr

/-- The fields every lane word has, less LOP and MOD (R30). -/
structure Lane where
  fin : EndC := .none
  w : Bool := false
  u : Bool := false
  gn : Bool := false
  gp : Fin 8 := 0
  d : Dst := .discard
  a : Src := .zero
  b : Src := .zero
  c : Src := .zero
  ha : Hold := .none
  hb : Hold := .none
  hc : Hold := .none
  imm : W32 := 0
deriving DecidableEq, Repr

/-- Integer types, codes 0 to 7 (Table 2-11a). -/
inductive ITy where
  | i32 | n32 | i64 | n64 | i16 | n16 | i8 | n8
deriving DecidableEq, Repr

/-- Raw types, codes 11 and 3 (R207). -/
inductive BTy where
  | b32 | n64
deriving DecidableEq, Repr

/-- Float types, codes 8 to 10 (Table 2-11a). -/
inductive FTy where
  | f32 | f16 | bf16
deriving DecidableEq, Repr

/-- Half types (R235). -/
inductive HTy where
  | f16 | bf16
deriving DecidableEq, Repr

/-- Rounding codes (Table 2-11a). -/
inductive Rnd where
  | rn | rz | ru | rd | ra | rs
deriving DecidableEq, Repr

/-- Conditions of ISET (R212). -/
inductive ICond where
  | eq | ne | lt | le | gt | ge
deriving DecidableEq, Repr

/-- Conditions of FSET (Table 12-3). -/
inductive FCond where
  | eq | ne | lt | le | gt | ge | un | ord
deriving DecidableEq, Repr

/-- Special registers (Table 11-3). -/
inductive Spr where
  | tid | qid | gidx | team | gang | devid | timeNs | rngseed | fpstat | xexited | helper | split | ctxid
deriving DecidableEq, Repr

/-- Narrow element formats 0 to 6 (Table 10-6). -/
inductive NFmt where
  | e2m1 | e3m2 | e2m3 | e4m3 | e5m2 | i4x | i8
deriving DecidableEq, Repr

/-- Forms of FPACK (R236, R237). -/
inductive PackForm where
  | half (ty : HTy) (r : Rnd) | nib | twoLo | twoHi
deriving DecidableEq, Repr

/-- Forms of FUNPK (R236, R237). -/
inductive UnpackForm where
  | half (ty : HTy) (hi : Bool) | lo | hi
deriving DecidableEq, Repr

/-- Combining operations (Table 13-3). -/
inductive XOp where
  | add | min | max | and | or | xor
deriving DecidableEq, Repr

/-- Types of the combining exchanges (Table 13-3). -/
inductive XTy where
  | i32 | n32 | i64 | n64 | f32 | b32
deriving DecidableEq, Repr

/-- Modes of XSHF (Table 13-2). -/
inductive Shf where
  | idx | up | down | xor
deriving DecidableEq, Repr

/-- Patterns of QSWP (Table 13-2). -/
inductive QPat where
  | x | y | diag
deriving DecidableEq, Repr

/-- Types of MBXW (R164). -/
inductive MbTy where
  | b32 | i32 | n64
deriving DecidableEq, Repr

/-- Access types of the memory opcodes (R116). -/
inductive MTy where
  | i8 | n8 | i16 | n16 | i32 | n32 | b32 | i64 | n64
deriving DecidableEq, Repr

/-- Cache policies (Table 6-2). -/
inductive Pol where
  | ca | cg | cs
deriving DecidableEq, Repr

/-- Types of the atomics (R131). -/
inductive ATy where
  | i32 | n32 | b32 | i64 | n64 | f32
deriving DecidableEq, Repr

/-! ## What a device event carries -/

/-- Who an answer from the fabric or the pager is for: a packet of a transfer, a single access, a packet of an Eland
chunk. -/
inductive PktRef where
  | xfer (n pkt : Nat) | req (n : Nat) | chunk (job num pkt : Nat)
deriving DecidableEq, Repr

/-- An acknowledgement or reply of a peer (R301, R306, R308): done with the home's wts (and whether watched bytes were
dropped); a line with wts and rts; an atomic's old value; or a fabric status code with an offset. -/
inductive AckIn where
  | ok (wts : W48) (watch : Bool) | line (data : BitVec 1024) (wts rts : W48) | value (v : W64) (wts : W48)
  | fail (code off : Nat)
deriving DecidableEq, Repr

/-- A put packet that arrives (R296, R297, R318): bytes for a window, with the transfer's OFFSET and their place in the transfer, or pieces at device
addresses, with the counter's tag for an Eland packet that counts; `loop`: a packet of this device's own transfer. -/
inductive PutIn where
  | window (src ftag wtag offset off : Nat) (bytes : List Byte)
  | addr (src : Nat) (rt : W48) (pieces : List (Nat × List Byte)) (count : Option (Nat × Nat))
  | loop (n pkt : Nat)
deriving DecidableEq, Repr

/-- The route tables firmware installs (R283, R289, R291): `links`: by group, the usable group links to it; `mids`: by group, the groups with
usable links to it; `absent`: the ids that name no installed device. -/
structure RouteTables where
  links : List (Nat × List Nat) := []
  mids : List (Nat × List Nat) := []
  absent : List Nat := []
deriving DecidableEq, Repr

/-- An access a peer asks for (R306, R308). -/
inductive PeerOp where
  | read | write (bytes : List Byte) | atom (op : AOp) (ty : ATy) (b : W64) | cas (wide : Bool) (cmp new : W64)
deriving DecidableEq, Repr

/-- What the host answers (R79, R421). -/
inductive HostAns where
  | line (data : BitVec 1024) | value (v : W64) | ack
  | grant (hpage bytes : Nat) (write : Bool) | noTranslation | refused
deriving DecidableEq, Repr

/-- PRI responses (R79). -/
inductive PriResp where
  | success | failure | invalid
deriving DecidableEq, Repr

/-- The header of a packet that passes through (R285, R287, R289): its source and target, the group a Valiant route goes through
first, how many flits it takes. -/
structure PktHead where
  src : Nat
  dst : Nat
  via : Option Nat
  flits : Nat
deriving DecidableEq, Repr

/-- A flit as the link receiver sees it (R285, Table 15-1); `head`: the header of the packet that it begins. -/
structure Flit where
  good : Bool
  seq : BitVec 16
  ack : BitVec 16
  vc : Fin 8
  start : Bool
  mark : Bool
  init : Bool
  rets : List (BitVec 16)
  head : Option PktHead
deriving DecidableEq, Repr

/-- A configuration record (R428): its bytes, the certificate chain and the chain's own signature, the record's signature,
the fields its bytes spell. -/
structure CfgRec where
  raw : List Byte
  chain : List Byte
  chainSig : List Byte
  sig : List Byte
  devKey : BitVec 512
  cert : BitVec 512
  operator : BitVec 512
  devid : Nat
  linkMap : List (Nat × Nat)
  repair : List (Nat × Nat)
  failed : List Nat
  park : Nat
  power : Nat
  tokens : List Nat
deriving DecidableEq, Repr

/-- A Chamois command record (R430): eight header words, payload, signature. -/
structure ChRec where
  hdr : List W64
  payload : List Byte
  sig : List Byte
deriving DecidableEq, Repr

/-- The core instruction set of the opcode table: scalar words, lane words, device events. -/
inductive Instr where
  -- scalar words
  | sadd (d a b : BitVec 6)
  | ssub (d a b : BitVec 6)
  | smul (d a b : BitVec 6)
  | smulh (d a b : BitVec 6)
  | smulhn (d a b : BitVec 6)
  | sdiv (d a b : BitVec 6)
  | sdivn (d a b : BitVec 6)
  | srem (d a b : BitVec 6)
  | sremn (d a b : BitVec 6)
  | sand (d a b : BitVec 6)
  | sor (d a b : BitVec 6)
  | sxor (d a b : BitVec 6)
  | sandn (d a b : BitVec 6)
  | sshl (d a b : BitVec 6)
  | sshr (d a b : BitVec 6)
  | ssar (d a b : BitVec 6)
  | smin (d a b : BitVec 6)
  | smax (d a b : BitVec 6)
  | sminn (d a b : BitVec 6)
  | smaxn (d a b : BitVec 6)
  | sclz (d a : BitVec 6)
  | sctz (d a : BitVec 6)
  | spopc (d a : BitVec 6)
  | ssel (d a b : BitVec 6) (c : Fin 8)
  | smbr (d : BitVec 6) (s : Fin 4)
  | scmp (n : Fin 8) (a b : BitVec 6) (c : SCond)
  | saddi (d a : BitVec 6) (i : BitVec 14)
  | sandi (d a : BitVec 6) (i : BitVec 14)
  | sori (d a : BitVec 6) (i : BitVec 14)
  | sxori (d a : BitVec 6) (i : BitVec 14)
  | sshli (d a : BitVec 6) (n : BitVec 6)
  | sshri (d a : BitVec 6) (n : BitVec 6)
  | ssari (d a : BitVec 6) (n : BitVec 6)
  | scmpi (k : SCond) (n : Fin 8) (a : BitVec 6) (i : BitVec 14)
  | sli (d : BitVec 6) (i : BitVec 20)
  | slis (d : BitVec 6) (i : BitVec 20)
  | sld (d a : BitVec 6) (z : Size) (o : BitVec 12)
  | sldx (d a : BitVec 6) (z : Size) (o : BitVec 12)
  | sst (r a : BitVec 6) (z : Size) (o : BitVec 12)
  | satom (d a b : BitVec 6) (o : AOp)
  | sbr (c : Fin 8) (n : Bool) (o : BitVec 22)
  | sjmp (o : BitVec 26)
  | scall (o : BitVec 26)
  | sjr (a : BitVec 6)
  | sjrl (a : BitVec 6)
  | sret
  | sloop (d : BitVec 6) (i : BitVec 14)
  | lrun (d : BitVec 6) (i : BitVec 20)
  | lrunr (d a : BitVec 6)
  | lquiet
  | cpyc (a d : BitVec 6)
  | cpyclose (d : BitVec 6)
  | fput (a d : BitVec 6) (p : BPol) (f n : Bool)
  | fget (a d : BitVec 6) (p : BPol) (n : Bool)
  | fatom (a d : BitVec 6) (n : Bool) (o : FOp)
  | fmcast (a d : BitVec 6) (p : BPol) (n : Bool)
  | fstat (a d : BitVec 6)
  | reshard (a d : BitVec 6)
  | rswait (a d : BitVec 6)
  | pfh (a d : BitVec 6)
  | pfdrop (a d : BitVec 6)
  | persist (a d : BitVec 6)
  | persistAll (d : BitVec 6)
  | dlaunch (a d : BitVec 6)
  | bara (d : BitVec 6) (b : Fin 16)
  | barw (a d : BitVec 6) (b : Fin 16)
  | bar (d : BitVec 6) (b : Fin 16)
  | acset (a d : BitVec 6)
  | acwait (a d : BitVec 6)
  | rinit (a d : BitVec 6)
  | rawait (a d : BitVec 6)
  | rrel (a d : BitVec 6)
  | fence (s : Scope) (k : FKind)
  | sleeps (a d : BitVec 6) (e : Bool)
  | srd (d i : BitVec 6)
  | swr (a i : BitVec 6)
  | tlbiVa (a d : BitVec 6)
  | tlbiCtx (a d : BitVec 6)
  | tlbiPasid (a d : BitVec 6)
  | tlbiAll (a d : BitVec 6)
  | pgctlPin (a d : BitVec 6)
  | pgctlUnpin (a d : BitVec 6)
  | pgctlEvict (a d : BitVec 6)
  | pgctlWb (a d : BitVec 6)
  | pgctlCarve (a d : BitVec 6)
  | pgctlUncarve (a d : BitVec 6)
  | leaseopRead (a d : BitVec 6)
  | leaseopGrant (a d : BitVec 6)
  | leaseopRenew (a d : BitVec 6)
  | leaseopRelease (a d : BitVec 6)
  | leaseopRevoke (a d : BitVec 6)
  | leaseopLost (a d : BitVec 6)
  | leaseopHint (a d : BitVec 6)
  | stret
  | stretSkip
  | stretPark
  | shalt (a d : BitVec 6)
  | keyopLoad (a d : BitVec 6)
  | keyopUnload (a d : BitVec 6)
  | strap (i : BitVec 20)
  -- lane words
  | nop (l : Lane)
  | iadd (l : Lane) (ty : ITy) (sat : Bool)
  | isub (l : Lane) (ty : ITy) (sat : Bool)
  | imul (l : Lane) (ty : ITy)
  | imulh (l : Lane) (ty : ITy)
  | imad (l : Lane) (ty : ITy)
  | imadw (l : Lane) (ty : ITy)
  | idiv (l : Lane) (ty : ITy)
  | irem (l : Lane) (ty : ITy)
  | iabs (l : Lane) (ty : ITy)
  | imin (l : Lane) (ty : ITy)
  | imax (l : Lane) (ty : ITy)
  | and (l : Lane) (ty : BTy)
  | or (l : Lane) (ty : BTy)
  | xor (l : Lane) (ty : BTy)
  | andn (l : Lane) (ty : BTy)
  | shl (l : Lane) (ty : BTy)
  | shr (l : Lane) (ty : BTy)
  | sar (l : Lane) (ty : ITy)
  | rotl (l : Lane) (ty : BTy)
  | clz (l : Lane) (ty : BTy)
  | popc (l : Lane) (ty : BTy)
  | brev (l : Lane) (ty : BTy)
  | bfe (l : Lane) (ty : ITy)
  | bfi (l : Lane) (ty : BTy)
  | iset (l : Lane) (ty : ITy) (c : ICond)
  | sel (l : Lane) (ty : BTy) (p : Fin 8) (neg : Bool)
  | mov (l : Lane) (ty : BTy)
  | movsp (l : Lane) (s : Spr)
  | movspW (l : Lane) (s : Spr)
  | cvti (l : Lane) (dt st : ITy) (sat : Bool)
  | lea (l : Lane) (ty : ITy) (n : Fin 8)
  | idot4 (l : Lane) (as bs : Bool)
  | fadd (l : Lane) (ty : FTy) (r : Rnd) (na nb : Bool)
  | fsub (l : Lane) (ty : FTy) (r : Rnd) (na nb : Bool)
  | fmul (l : Lane) (ty : FTy) (r : Rnd) (na nb : Bool)
  | ffma (l : Lane) (ty : FTy) (r : Rnd) (na nb nc : Bool)
  | fmin (l : Lane) (ty : FTy) (na nb : Bool)
  | fmax (l : Lane) (ty : FTy) (na nb : Bool)
  | fset (l : Lane) (ty : FTy) (c : FCond)
  | fdiv (l : Lane) (ty : FTy) (r : Rnd)
  | fsqrt (l : Lane) (ty : FTy) (r : Rnd)
  | frcp (l : Lane) (ty : FTy) (r : Rnd)
  | frsq (l : Lane)
  | fexp2 (l : Lane)
  | flog2 (l : Lane)
  | fsin (l : Lane)
  | fcos (l : Lane)
  | frnd (l : Lane) (ty : FTy) (r : Rnd)
  | fcvti (l : Lane) (dt : ITy) (st : FTy) (r : Rnd)
  | icvtf (l : Lane) (dt : FTy) (st : ITy) (r : Rnd)
  | fclass (l : Lane) (ty : FTy)
  | fscale (l : Lane) (ty : FTy) (r : Rnd)
  | fdot2 (l : Lane) (ty : HTy) (r : Rnd)
  | hadd2 (l : Lane) (ty : HTy) (r : Rnd) (na nb : Bool)
  | hmul2 (l : Lane) (ty : HTy) (r : Rnd) (na nb : Bool)
  | hfma2 (l : Lane) (ty : HTy) (r : Rnd) (na nb nc : Bool)
  | hmin2 (l : Lane) (ty : HTy) (na nb : Bool)
  | hmax2 (l : Lane) (ty : HTy) (na nb : Bool)
  | fpack (l : Lane) (f : PackForm)
  | funpk (l : Lane) (f : UnpackForm)
  | ncvt (l : Lane) (fmt : NFmt) (r : Rnd) (inf : Bool)
  | ncvtFrom (l : Lane) (fmt : NFmt)
  | nexp (l : Lane) (ty : FTy)
  | i4xpk (l : Lane) (r : Rnd) (half : Bool)
  | i4xunp (l : Lane)
  | mxscl (l : Lane) (fmt : NFmt)
  | rng (l : Lane) (ty : BTy)
  | plop3 (l : Lane) (pa pb pc : Fin 8)
  | pmov (l : Lane)
  | pmovToPreds (l : Lane)
  | xscan (l : Lane) (op : XOp) (ty : XTy) (excl : Bool)
  | xred (l : Lane) (op : XOp) (ty : XTy)
  | xshf (l : Lane) (m : Shf) (ty : BTy)
  | xbal (l : Lane) (p : Fin 8) (neg : Bool)
  | xmatch (l : Lane) (ty : BTy)
  | xfirst (l : Lane) (ty : BTy)
  | xbcst (l : Lane) (ty : BTy)
  | qswp (l : Lane) (q : QPat) (ty : BTy)
  | qred (l : Lane) (op : XOp) (ty : XTy)
  | qbcst (l : Lane) (ty : BTy)
  | mbxw (l : Lane) (s : Fin 4) (ty : MbTy)
  | ld (l : Lane) (ty : MTy) (pol : Pol)
  | st (l : Lane) (ty : MTy) (pol : Pol)
  | lds (l : Lane) (ty : MTy)
  | sts (l : Lane) (ty : MTy)
  | ldfeKeep (l : Lane) (ty : MTy)
  | ldfeClear (l : Lane) (ty : MTy)
  | stfe (l : Lane) (ty : MTy)
  | ldc (l : Lane) (ty : MTy)
  | cstore (l : Lane) (ty : MTy) (pol : Pol)
  | xload (l : Lane) (ty : MTy) (pol : Pol)
  | prefl (l : Lane) (pol : Pol)
  | zline (l : Lane) (pol : Pol)
  | atom (l : Lane) (op : AOp) (ty : ATy) (acq rel : Bool)
  | acas (l : Lane) (ty : ATy) (acq rel : Bool)
  | atoms (l : Lane) (op : AOp) (ty : ATy) (acq rel : Bool)
  | acass (l : Lane) (ty : ATy) (acq rel : Bool)
  | red (l : Lane) (op : AOp) (ty : ATy) (rel : Bool)
  | brl (l : Lane)
  | join (l : Lane)
  | call (l : Lane) (f : BitVec 4)
  | callr (l : Lane) (f : BitVec 4)
  | ret (l : Lane)
  | trap (l : Lane)
  | tret (l : Lane)
  | tretSkip (l : Lane)
  | tretVal (l : Lane)
  | tretPark (l : Lane)
  | bpt (l : Lane)
  | sleep (l : Lane) (ev : Bool)
  | yield (l : Lane)
  | mxloop (l : Lane) (tile : Fin 16) (n : Fin 4) (za : Bool)
  | mxzero (l : Lane)
  | mxst (l : Lane) (tile : Fin 16) (fmt : BitVec 4)
  | mxld (l : Lane) (tile : Fin 16)
  | mxwaitSt (l : Lane) (tile : Fin 16) (clr : Bool)
  | mxwaitStall (l : Lane) (clr : Bool)
  | mxrel (l : Lane)
  | lsrd (l : Lane) (i : BitVec 8) (wide : Bool)
  | lswr (l : Lane) (i : BitVec 8) (wide : Bool)
  | spillwWin (l : Lane)
  | spillwStk (l : Lane)
  | fillwWin (l : Lane)
  | fillwStk (l : Lane)
  | ctxsv (l : Lane) (team : Bool)
  | ctxrs (l : Lane) (team : Bool)
  -- device events
  | runStart (core lp ln : Nat)
  | decisionQueuePop (g : Nat)
  | nextMerge (g : Nat)
  | farResultArrival (g i : Nat)
  | heldTrapEntry (g : Nat)
  | barrierRelease (g : Nat)
  | ldfeResume (g s : Nat)
  | lquietComplete (g : Nat)
  | lrunEnqueue (g : Nat)
  | fenceComplete (g : Nat)
  | rawaitRelease (g : Nat)
  | acwaitRelease (g : Nat)
  | fstatRelease (g : Nat)
  | rswaitRelease (g : Nat)
  | tagStallEnd (g : Nat)
  | elandJobSlotFree (g : Nat)
  | sleepsWake (g : Nat)
  | sleepWake (g s : Nat)
  | shaltWake (g : Nat)
  | persistComplete (g : Nat)
  | scalarAccessComplete (g : Nat)
  | mxCommandStart (core : Nat)
  | mxCommandComplete (core : Nat)
  | mxQueueReissue (g s : Nat)
  | alatchAcquire (g s : Nat)
  | tokenArrival (die cl : Nat)
  | tokenHoldTimeout (die cl : Nat)
  | copyUnitMove (team copy grp : Nat)
  | copyComplete (team copy : Nat)
  | bankReservationTimeout (i : Nat)
  | springbokFill (slot : Nat)
  | frameFillComplete (f : Nat)
  | relayoutComplete (f : Nat)
  | counterHalving
  | leaseExpiry (slot : Nat)
  | leaseDue (slot : Nat)
  | graceEnd (slot : Nat)
  | revocationNotice (slot : Nat) (grace : W64)
  | revocationWritebackDone (slot : Nat)
  | poolNodeLost (node : Nat)
  | leaseValidClear (slot recv : Nat)
  | storeAccepted
  | backInvalidationSnoop (addr : Nat)
  | atsInvalidation (pasid page bytes : Nat)
  | priResponse (tag : Nat) (r : PriResp)
  | pagerRecordPost (g s : Nat)
  | pgrespResume (w : W64)
  | pgrespFail (w : W64)
  | pgrespFatal (w : W64)
  | preempt (h : W64)
  | kick (q off : Nat) (bytes : List Byte)
  | heartbeat
  | heartbeatTimeout
  | replayComplete
  | hostDeadline
  | hostResponse (tag : Nat) (a : HostAns)
  | registerWrite (off : Nat) (v : W64)
  | commandStart
  | nopCommand (n : Nat)
  | launch (n : Nat)
  | copy (n : Nat)
  | signal (n : Nat)
  | wait (n : Nat)
  | waitRelease (q : Nat)
  | map (n : Nat)
  | unmap (n : Nat)
  | leaseGrant (n : Nat)
  | leaseRenew (n : Nat)
  | leaseRelease (n : Nat)
  | keyLoad (n : Nat)
  | keyUnload (n : Nat)
  | contextCreate (n : Nat)
  | contextDestroy (n : Nat)
  | contextUpdate (n : Nat)
  | contextBindQueue (n : Nat)
  | contextUnbindQueue (n : Nat)
  | contextQueryContext (n : Nat)
  | contextQueryQueue (n : Nat)
  | teamPlacement (n : Nat)
  | reserveState (g : Nat)
  | groupExchange (g : Nat)
  | teamEnd (t : Nat)
  | launchComplete (n : Nat)
  | coreFailure (core spare : Nat)
  | thermalThrottle
  | thermalShutdown
  | flitReceive (link : Nat) (f : Flit)
  | flitSend (link : Nat) (vc : Fin 8)
  | retryRequest (link : Nat) (seq : BitVec 16)
  | linkDown (link : Nat)
  | putPacketArrival (p : PutIn)
  | fgetRequest (src addr len : Nat) (rt : W48)
  | fgetResponse (n pkt : Nat) (bytes : List Byte) (wts : W48)
  | fatomRequest (src addr : Nat) (op : FOp) (b cmp : W64) (rt : W48)
  | remoteAccessRequest (src addr : Nat) (op : PeerOp) (rt : W48)
  | packetAck (r : PktRef) (a : AckIn)
  | retryLater (r : PktRef)
  | resendTimer (r : PktRef)
  | notPresentTimeout (r : PktRef)
  | fabricTimeout (r : PktRef)
  | remoteAccessTimeout (n : Nat)
  | reconfigDrain (links : List Nat)
  | linkDark (link : Nat)
  | initHeader (link : Nat) (rets : List (BitVec 16))
  | routeTableInstall (routes : RouteTables) (up : List (Nat × Bool))
  | chunkIssue (job : Nat)
  | chunkAck (job num : Nat)
  | powerOnReset
  | configRecord (r : CfgRec)
  | getVersion
  | getCapabilities
  | negotiateAlgorithms (mldsa87 sha3 other : Bool)
  | getDigests
  | getCertificate
  | challenge (nonce : List Byte)
  | getMeasurements (i : Nat) (nonce : List Byte)
  | status (r : ChRec)
  | take (r : ChRec)
  | handback (r : ChRec)
  | kill (r : ChRec)
  | discard (r : ChRec)
  | privcmd (r : ChRec)
  | power (r : ChRec)
  | readyBitSet (b : Fin 21)
  | hbmStackFailure (b : Fin 21)
  | supplyDroop (die count : Nat)
  | unusedFeatureMessage (die : Fin 2)
deriving DecidableEq, Repr

end Sys2Proof
end

