-- ==== Sys2Proof/WellFormed.lean ====
section
/-! DEFINITION. Which instructions an encoding may stand for: the static field checks of R24, R31 to R36, R41, R42 and
each opcode's own rule. What depends on the state (the W position, run length, `.tiles`, `.barriers`, the trap slot)
is checked when the instruction executes. -/

namespace Sys2Proof

/-- The operand kinds an opcode may give a source field: unused; a 32-bit or 64-bit source, with or without IMM32; a
register block or the A-latch (R264). -/
inductive SK where
  | no | r32 | r32n | r64 | r64n | blk (steps : Nat)
deriving DecidableEq, Repr

/-- The destination kinds an opcode accepts (R32): none; t or discard, single or pair; t alone; t, predicate or
discard; predicate alone. -/
inductive DK where
  | no | t | tt | only | onlyPair | tp | p
deriving DecidableEq, Repr

/-- What an opcode asks of the fields every lane word has. `own`: its description uses IMM32. `free`: hold fields may
be used. -/
structure Shape where
  d : DK := .no
  a : SK := .no
  b : SK := .no
  c : SK := .no
  own : Bool := false
  free : Bool := true
deriving DecidableEq, Repr

/-- A selector names a t register. -/
def Src.isT : Src → Bool
  | .t _ => true
  | _ => false

/-- A source field with its hold is legal for its kind (R31, R33 to R35). -/
def srcOk : SK → Src → Hold → Bool
  | .no, s, h => decide (s = .zero) && decide (h = .none)
  | .r32, s, h => decide (s ≠ .alatch) && (decide (h = .none) || s.isT)
  | .r32n, s, h => decide (s ≠ .alatch) && decide (s ≠ .imm) && (decide (h = .none) || s.isT)
  | .r64, s, h => decide (h = .none) && (match s with
      | .t n => n.val % 2 == 0 | .arg _ | .zero | .imm => true | _ => false)
  | .r64n, s, h => decide (h = .none) && (match s with
      | .t n => n.val % 2 == 0 | .arg _ | .zero => true | _ => false)
  | .blk n, s, h => decide (h = .none) && (match s with
      | .t a => decide (a.val + 9 * n ≤ 48) | .alatch => true | _ => false)

/-- A destination field is legal for its kind (R32, R34). -/
def dstOk : DK → Dst → Bool
  | .no, d => decide (d = .discard)
  | .t, d => (match d with | .p _ => false | _ => true)
  | .tt, d => (match d with | .t n => n.val % 2 == 0 | .discard => true | .p _ => false)
  | .only, d => (match d with | .t _ => true | _ => false)
  | .onlyPair, d => (match d with | .t n => n.val % 2 == 0 | _ => false)
  | .tp, _ => true
  | .p, d => (match d with | .p _ => true | _ => false)

/-- No two holds name one latch entry (R35). -/
def holdsApart (x y z : Hold) : Bool :=
  (decide (x = .none) || (decide (x ≠ y) && decide (x ≠ z))) && (decide (y = .none) || decide (y ≠ z))

/-- The fields of a lane word fit an opcode's shape. -/
def Lane.fits (l : Lane) (s : Shape) : Bool :=
  dstOk s.d l.d && srcOk s.a l.a l.ha && srcOk s.b l.b l.hb && srcOk s.c l.c l.hc && holdsApart l.ha l.hb l.hc
    && (s.free || (decide (l.ha = .none) && decide (l.hb = .none) && decide (l.hc = .none)))
    && (s.own || decide (l.a = .imm) || decide (l.b = .imm) || decide (l.c = .imm) || decide (l.imm = 0))

/-- The guard is p0 unnegated and U is 0 (R377, R401). -/
def Lane.plain (l : Lane) : Bool := !l.gn && decide (l.gp = 0) && !l.u

/-- END is 00 (R41). -/
def Lane.noEnd (l : Lane) : Bool := decide (l.fin = .none)

/-- The width of an integer type in bits (R205). -/
def ITy.width : ITy → Nat
  | .i32 | .n32 => 32 | .i64 | .n64 => 64 | .i16 | .n16 => 16 | .i8 | .n8 => 8

/-- The type is signed (R5). -/
def ITy.signed : ITy → Bool
  | .i32 | .i64 | .i16 | .i8 => true
  | _ => false

/-- The type takes a register pair (R205). -/
def ITy.wide (t : ITy) : Bool := decide (t.width = 64)

/-- The type takes a register pair. -/
def BTy.wide : BTy → Bool
  | .b32 => false | .n64 => true

/-- The type takes a register pair. -/
def XTy.wide : XTy → Bool
  | .i64 | .n64 => true
  | _ => false

/-- The type takes a register pair. -/
def MTy.wide : MTy → Bool
  | .i64 | .n64 => true
  | _ => false

/-- The type takes a register pair. -/
def ATy.wide : ATy → Bool
  | .i64 | .n64 => true
  | _ => false

/-- LDFE and STFE accept the 32-bit and 64-bit types only (R116). -/
def MTy.full : MTy → Bool
  | .i32 | .n32 | .b32 | .i64 | .n64 => true
  | _ => false

/-- A source of one register or a pair. -/
def SK.of (wide : Bool) : SK := if wide then .r64 else .r32
/-- A source of one register or a pair, never IMM32. -/
def SK.ofN (wide : Bool) : SK := if wide then .r64n else .r32n
/-- A destination of one register or a pair. -/
def DK.of (wide : Bool) : DK := if wide then .tt else .t
/-- A register destination of one register or a pair. -/
def DK.onlyOf (wide : Bool) : DK := if wide then .onlyPair else .only

/-- The types each atomic operation accepts (Table 6-4). -/
def AOp.accepts : AOp → ATy → Bool
  | .add, t | .min, t | .max, t => decide (t ≠ .b32)
  | .and, t | .or, t | .xor, t => decide (t ≠ .f32)
  | .exch, _ => true
  | .inc, t | .dec, t => decide (t = .n32)

/-- The types each combining operation accepts (Table 13-3). -/
def XOp.accepts : XOp → XTy → Bool
  | .add, t | .min, t | .max, t => decide (t ≠ .b32)
  | .and, t | .or, t | .xor, t => decide (t = .b32) || decide (t = .n64)

/-- A special register is 64 bits wide (Table 11-3). -/
def Spr.wide : Spr → Bool
  | .timeNs | .rngseed => true
  | _ => false

/-- A special register can be written (Table 11-3). -/
def Spr.writable : Spr → Bool
  | .fpstat | .xexited => true
  | _ => false

/-- Width of a lane system register: 64, 32, or none for a reserved index (Table 20-3). -/
def lsrWidth (i : BitVec 8) : Option Nat :=
  match i.toNat with
  | 3 | 6 | 13 => some 64
  | 0 | 1 | 2 | 4 | 5 | 8 | 9 | 10 | 11 | 12 | 14 => some 32
  | _ => none

/-- The width bit of LSRD and LSWR matches the register (R411); a reserved index has no width to match. -/
def lsrFits (i : BitVec 8) (wide : Bool) : Bool :=
  match lsrWidth i with
  | some n => decide (n = 64) == wide
  | none => true

/-- An MXST control word is one of R275's combinations. -/
def mxstOk (fmt : BitVec 4) (imm : W32) : Bool :=
  let rnd := (imm.extractLsb' 0 3).toNat
  let inf := imm.getLsbD 3
  let scl := imm.getLsbD 4
  let int := imm.getLsbD 6
  let f := fmt.toNat
  decide (imm.extractLsb' 8 24 = 0) &&
    (if int then decide (f = 6 ∨ f = 10) && decide (rnd = 0) && !scl && !inf
     else if f = 10 then decide (rnd = 0) && !scl && !inf
     else decide (f = 0 ∨ f = 3 ∨ f = 4 ∨ f = 6 ∨ f = 8 ∨ f = 9) && decide (rnd ≤ 5)
       && (!scl || decide (f = 0 ∨ f = 3 ∨ f = 4)) && (!inf || decide (f = 4)))

/-- Not two IMM32 sources in one exchange (R252). -/
def Lane.oneImm (l : Lane) : Bool :=
  !((decide (l.a = .imm) && decide (l.b = .imm)) || (decide (l.a = .imm) && decide (l.c = .imm))
    || (decide (l.b = .imm) && decide (l.c = .imm)))

/-- A register number lies in a range. -/
def regIn (a : BitVec 6) (lo hi : Nat) : Bool := decide (lo ≤ a.toNat) && decide (a.toNat ≤ hi)

/-- The slot number of NCVT fits its format (R238). -/
def slotOk (fmt : NFmt) (imm : W32) (frm : Bool) : Bool :=
  decide (imm.toNat < (match fmt, frm with | .e2m1, false => 4 | .e2m1, true => 8 | _, false => 2 | _, true => 4))

/-- The static checks of one instruction. Which types ACAS and ACASS take: log entry 105 (DESIGN CHOICE); LSRD, CTXSV and CTXRS with a
discard destination: log entry 106 (DESIGN CHOICE). -/
def wellFormed : Instr → Bool
  | .scmp n _ _ _ => decide (n ≠ 0)
  | .scmpi _ n _ _ => decide (n ≠ 0)
  | .sldx _ _ z _ => decide (z ≠ .b64)
  | .lrun d _ => regIn d 0 60
  | .lrunr d _ => regIn d 0 60
  | .cpyc a _ => regIn a 1 60
  | .fput a _ _ _ _ => regIn a 1 61
  | .fget a _ _ _ => regIn a 1 61
  | .fatom a _ _ _ => regIn a 1 60
  | .fmcast a _ _ _ => regIn a 1 60
  | .reshard a _ => regIn a 1 60
  | .pfh a _ => regIn a 1 61
  | .persist a _ => regIn a 1 62
  | .dlaunch a _ => regIn a 1 62
  | .acset a _ => regIn a 1 61
  | .rinit a _ => regIn a 1 61
  | .sleeps a _ e => decide (a ≠ 0) || e
  | .tlbiVa a _ | .tlbiCtx a _ | .tlbiPasid a _ => regIn a 1 62
  | .tlbiAll a _ => regIn a 0 62
  | .pgctlPin a _ | .pgctlUnpin a _ | .pgctlEvict a _ | .pgctlWb a _ | .pgctlCarve a _ | .pgctlUncarve a _ =>
    regIn a 1 62
  | .leaseopRead a _ | .leaseopGrant a _ | .leaseopRenew a _ | .leaseopRelease a _ | .leaseopRevoke a _
  | .leaseopLost a _ | .leaseopHint a _ => regIn a 1 61
  | .keyopLoad a _ | .keyopUnload a _ => regIn a 1 62
  | .nop l => l.fits {}
  | .iadd l ty _ | .isub l ty _ | .imul l ty | .imulh l ty | .idiv l ty | .irem l ty | .imin l ty | .imax l ty =>
    l.fits { d := .of ty.wide, a := .of ty.wide, b := .of ty.wide }
  | .imad l ty => l.fits { d := .of ty.wide, a := .of ty.wide, b := .of ty.wide, c := .of ty.wide }
  | .imadw l ty => decide (ty = .i32 ∨ ty = .n32) && l.fits { d := .tt, a := .r32, b := .r32, c := .r64 }
  | .iabs l ty => ty.signed && l.fits { d := .of ty.wide, a := .of ty.wide }
  | .and l ty | .or l ty | .xor l ty | .andn l ty =>
    l.fits { d := .of ty.wide, a := .of ty.wide, b := .of ty.wide }
  | .shl l ty | .shr l ty | .rotl l ty => l.fits { d := .of ty.wide, a := .of ty.wide, b := .r32 }
  | .sar l ty => decide (ty = .i32 ∨ ty = .i64) && l.fits { d := .of ty.wide, a := .of ty.wide, b := .r32 }
  | .clz l ty | .popc l ty => l.fits { d := .t, a := .of ty.wide }
  | .brev l ty | .mov l ty => l.fits { d := .of ty.wide, a := .of ty.wide }
  | .bfe l ty => decide (32 ≤ ty.width) && l.fits { d := .of ty.wide, a := .of ty.wide, b := .r32 }
  | .bfi l ty => l.fits { d := .of ty.wide, a := .of ty.wide, b := .r32, c := .of ty.wide }
  | .iset l ty _ => l.fits { d := .tp, a := .of ty.wide, b := .of ty.wide }
  | .sel l ty _ _ => l.fits { d := .of ty.wide, a := .of ty.wide, b := .of ty.wide }
  | .movsp l s => l.fits { d := .of s.wide }
  | .movspW l s => s.writable && l.fits { a := .r32 }
  | .cvti l dt st _ => l.fits { d := .of dt.wide, a := .of st.wide }
  | .lea l ty _ => decide (ty = .i32 ∨ ty = .n32) && l.fits { d := .tt, a := .r64, b := .r32 }
  | .idot4 l _ _ => l.fits { d := .t, a := .r32, b := .r32, c := .r32 }
  | .fadd l _ _ _ _ | .fsub l _ _ _ _ | .fmul l _ _ _ _ => l.fits { d := .t, a := .r32, b := .r32 }
  | .ffma l _ _ _ _ _ => l.fits { d := .t, a := .r32, b := .r32, c := .r32 }
  | .fmin l _ _ _ | .fmax l _ _ _ => l.fits { d := .t, a := .r32, b := .r32 }
  | .fset l _ _ => l.fits { d := .tp, a := .r32, b := .r32 }
  | .fdiv l _ _ => l.fits { d := .t, a := .r32, b := .r32 }
  | .fsqrt l _ _ | .frcp l _ _ => l.fits { d := .t, a := .r32 }
  | .frsq l | .fexp2 l | .flog2 l | .fsin l | .fcos l => l.fits { d := .t, a := .r32 }
  | .frnd l _ _ => l.fits { d := .t, a := .r32 }
  | .fcvti l dt _ _ => l.fits { d := .of dt.wide, a := .r32 }
  | .icvtf l _ st _ => l.fits { d := .t, a := .of st.wide }
  | .fclass l _ => (match l.d with
      | .p _ => l.fits { d := .p, a := .r32, b := .r32 }
      | _ => l.fits { d := .t, a := .r32 })
  | .fscale l _ _ => l.fits { d := .t, a := .r32, b := .r32 }
  | .fdot2 l _ _ => l.fits { d := .t, a := .r32, b := .r32, c := .r32 }
  | .hadd2 l _ _ _ _ | .hmul2 l _ _ _ _ => l.fits { d := .t, a := .r32, b := .r32 }
  | .hfma2 l _ _ _ _ _ => l.fits { d := .t, a := .r32, b := .r32, c := .r32 }
  | .hmin2 l _ _ _ | .hmax2 l _ _ _ => l.fits { d := .t, a := .r32, b := .r32 }
  | .fpack l f => (match f with
      | .half _ _ => l.fits { d := .t, a := .r32, b := .r32 }
      | .nib => l.fits { d := .t, a := .r64 }
      | .twoLo | .twoHi => l.fits { d := .t, a := .r64, c := .r32 })
  | .funpk l f => (match f with
      | .half _ _ => l.fits { d := .t, a := .r32 }
      | .lo | .hi => l.fits { d := .tt, a := .r32, b := .r32 })
  | .ncvt l fmt _ inf => decide (fmt ≠ .i4x) && (!inf || decide (fmt = .e5m2)) && slotOk fmt l.imm false
      && l.fits { d := .t, a := .r32n, b := .r32n, c := .r32n, own := true }
  | .ncvtFrom l fmt => decide (fmt ≠ .i4x) && slotOk fmt l.imm true && l.fits { d := .t, a := .r32n, own := true }
  | .nexp l _ => l.fits { d := .t, a := .r32 }
  | .i4xpk l _ _ => l.fits { d := .t, a := .r32, c := .r32 }
  | .i4xunp l => decide (l.imm.toNat < 8) && l.fits { d := .t, a := .r32, own := true }
  | .mxscl l _ => l.fits { d := .t, a := .r32 }
  | .rng l ty => l.fits { d := .of ty.wide }
  | .plop3 l _ _ _ => decide (l.imm.toNat < 256) && l.fits { d := .p, own := true }
  | .pmov l => l.fits { d := .only }
  | .pmovToPreds l => decide (l.imm.toNat < 256) && !l.imm.getLsbD 0 && l.fits { a := .r32n, own := true }
  | .xscan l op ty _ | .xred l op ty =>
    op.accepts ty && l.oneImm && l.fits { d := .of ty.wide, a := .of ty.wide, c := .r32 }
  | .xshf l _ ty | .xbcst l ty =>
    l.oneImm && l.fits { d := .of ty.wide, a := .of ty.wide, b := .r32, c := .r32 }
  | .xbal l _ _ => l.fits { d := .t, c := .r32 }
  | .xmatch l ty => l.oneImm && l.fits { d := .t, a := .of ty.wide, c := .r32 }
  | .xfirst l ty => l.oneImm && l.fits { d := .of ty.wide, a := .of ty.wide, c := .r32 }
  | .qswp l _ ty => l.fits { d := .of ty.wide, a := .of ty.wide }
  | .qred l op ty => op.accepts ty && l.fits { d := .of ty.wide, a := .of ty.wide }
  | .qbcst l ty => l.oneImm && l.fits { d := .of ty.wide, a := .of ty.wide, b := .r32 }
  | .mbxw l _ ty => l.fits { a := .of (decide (ty = .n64)) }
  | .ld l ty _ => l.fits { d := .onlyOf ty.wide, a := .r64n, own := true }
  | .st l ty _ => l.fits { a := .r64n, b := .ofN ty.wide, own := true }
  | .lds l ty => l.fits { d := .onlyOf ty.wide, a := .r32n, own := true }
  | .sts l ty => l.fits { a := .r32n, b := .ofN ty.wide, own := true }
  | .ldfeKeep l ty | .ldfeClear l ty => ty.full && l.fits { d := .onlyOf ty.wide, a := .r32n, own := true }
  | .stfe l ty => ty.full && l.fits { a := .r32n, b := .ofN ty.wide, own := true }
  | .ldc l ty => l.fits { d := .onlyOf ty.wide, a := .r32n, own := true }
  | .cstore l ty _ => !l.u && l.fits { d := .t, a := .r64n, b := .ofN ty.wide, own := true }
  | .xload l ty _ => !l.u && l.fits { d := .onlyOf ty.wide, a := .r64n, own := true }
  | .prefl l _ | .zline l _ => l.fits { a := .r64n, own := true }
  | .atom l op ty _ _ => op.accepts ty && l.fits { d := .of ty.wide, a := .r64n, b := .ofN ty.wide, own := true }
  | .acas l ty _ _ =>
    l.fits { d := .of ty.wide, a := .r64n, b := .ofN ty.wide, c := .ofN ty.wide, own := true }
  | .atoms l op ty _ _ => op.accepts ty && l.fits { d := .of ty.wide, a := .r32n, b := .ofN ty.wide, own := true }
  | .acass l ty _ _ =>
    l.fits { d := .of ty.wide, a := .r32n, b := .ofN ty.wide, c := .ofN ty.wide, own := true }
  | .red l op ty _ => op.accepts ty && l.fits { a := .r64n, b := .ofN ty.wide, own := true }
  | .brl l => l.noEnd && l.fits { own := true }
  | .join l => l.noEnd && l.plain && l.fits { own := true }
  | .call l f => l.noEnd && l.plain && decide (2 ≤ f.toNat) && decide (f.toNat ≤ 10) && l.fits { own := true }
  | .callr l f => l.noEnd && l.plain && decide (2 ≤ f.toNat) && decide (f.toNat ≤ 10)
      && l.fits { a := .r32, free := false }
  | .ret l => l.noEnd && l.plain && l.fits {}
  | .trap l => l.fits { own := true }
  | .bpt l => l.fits {}
  | .tret l | .tretSkip l | .tretPark l => l.noEnd && l.plain && l.fits {}
  | .tretVal l => l.noEnd && l.plain && l.fits { a := .r32 }
  | .sleep l _ => l.fits { own := true }
  | .yield l => l.fits {}
  | .mxloop l _ n _ => l.u && l.fits { a := .blk (n.val + 1), b := .r32, c := .r32, free := false }
  | .mxzero l => l.u && decide (l.imm.toNat < 65536) && l.fits { own := true }
  | .mxst l _ fmt => l.u && mxstOk fmt l.imm && l.fits { a := .r32n, b := .r32n, own := true, free := false }
  | .mxld l _ => l.u && l.fits { a := .r32, b := .r32, free := false }
  | .mxwaitSt l _ _ => l.u && l.fits { d := .only }
  | .mxwaitStall l _ => l.u && l.fits { d := .onlyPair }
  | .mxrel l => l.u && l.fits {}
  | .lsrd l i wide => lsrFits i wide && l.fits { d := .onlyOf wide }
  | .lswr l i wide => lsrFits i wide && l.fits { a := .of wide }
  | .spillwWin l | .spillwStk l | .fillwWin l | .fillwStk l => l.u && l.fits { own := true }
  | .ctxsv l _ | .ctxrs l _ => l.u && l.fits { d := .only, a := .r32, b := .r64 }
  | .sadd .. | .ssub .. | .smul .. | .smulh .. | .smulhn .. | .sdiv .. | .sdivn .. | .srem .. | .sremn ..
  | .sand .. | .sor .. | .sxor .. | .sandn .. | .sshl .. | .sshr .. | .ssar .. | .smin .. | .smax ..
  | .sminn .. | .smaxn .. | .sclz .. | .sctz .. | .spopc .. | .ssel .. | .smbr .. | .saddi .. | .sandi ..
  | .sori .. | .sxori .. | .sshli .. | .sshri .. | .ssari .. | .sli .. | .slis .. | .sld .. | .sst ..
  | .satom .. | .sbr .. | .sjmp .. | .scall .. | .sjr .. | .sjrl .. | .sret | .sloop .. | .lquiet
  | .cpyclose .. | .fstat .. | .rswait .. | .pfdrop .. | .persistAll .. | .bara .. | .barw .. | .bar ..
  | .acwait .. | .rawait .. | .rrel .. | .fence .. | .srd .. | .swr .. | .stret | .stretSkip | .stretPark
  | .shalt .. | .strap .. | .runStart .. | .decisionQueuePop .. | .nextMerge .. | .farResultArrival ..
  | .heldTrapEntry .. | .barrierRelease .. | .ldfeResume .. | .lquietComplete .. | .lrunEnqueue ..
  | .fenceComplete .. | .rawaitRelease .. | .acwaitRelease .. | .fstatRelease .. | .rswaitRelease ..
  | .tagStallEnd .. | .elandJobSlotFree .. | .sleepsWake .. | .sleepWake .. | .shaltWake ..
  | .persistComplete .. | .scalarAccessComplete .. | .mxCommandStart .. | .mxCommandComplete ..
  | .mxQueueReissue .. | .alatchAcquire .. | .tokenArrival .. | .tokenHoldTimeout .. | .copyUnitMove ..
  | .copyComplete .. | .bankReservationTimeout .. | .springbokFill .. | .frameFillComplete ..
  | .relayoutComplete .. | .counterHalving | .leaseExpiry .. | .leaseDue .. | .graceEnd ..
  | .revocationNotice .. | .revocationWritebackDone .. | .poolNodeLost .. | .leaseValidClear ..
  | .storeAccepted | .backInvalidationSnoop .. | .atsInvalidation .. | .priResponse .. | .pagerRecordPost ..
  | .pgrespResume .. | .pgrespFail .. | .pgrespFatal .. | .preempt .. | .kick .. | .heartbeat
  | .heartbeatTimeout | .replayComplete | .hostDeadline | .hostResponse .. | .registerWrite .. | .commandStart
  | .nopCommand .. | .launch .. | .copy .. | .signal .. | .wait .. | .waitRelease .. | .map .. | .unmap ..
  | .leaseGrant .. | .leaseRenew .. | .leaseRelease .. | .keyLoad .. | .keyUnload .. | .contextCreate ..
  | .contextDestroy .. | .contextUpdate .. | .contextBindQueue .. | .contextUnbindQueue ..
  | .contextQueryContext .. | .contextQueryQueue .. | .teamPlacement .. | .reserveState .. | .groupExchange ..
  | .teamEnd .. | .launchComplete .. | .coreFailure .. | .thermalThrottle | .thermalShutdown | .flitReceive ..
  | .flitSend .. | .retryRequest .. | .linkDown .. | .putPacketArrival .. | .fgetRequest .. | .fgetResponse ..
  | .fatomRequest .. | .remoteAccessRequest .. | .packetAck .. | .retryLater .. | .resendTimer ..
  | .notPresentTimeout .. | .fabricTimeout .. | .remoteAccessTimeout .. | .reconfigDrain .. | .linkDark ..
  | .initHeader .. | .routeTableInstall .. | .chunkIssue .. | .chunkAck .. | .powerOnReset | .configRecord ..
  | .getVersion | .getCapabilities | .negotiateAlgorithms .. | .getDigests | .getCertificate | .challenge ..
  | .getMeasurements .. | .status .. | .take .. | .handback .. | .kill .. | .discard .. | .privcmd ..
  | .power .. | .readyBitSet .. | .hbmStackFailure .. | .supplyDroop .. | .unusedFeatureMessage .. => true

end Sys2Proof
end

