-- ==== Sys2Proof/Decode.lean ====
section
/-! DEFINITION. The two instruction words (R21, R30), bit by bit: encoders and decoders. A word decodes when its
fields name an instruction, the instruction passes its static checks, and the word is exactly that instruction's
encoding, so every bit a format does not use is zero (R24, R33). -/

namespace Sys2Proof

/-! ## Fields of the words -/

/-- The fields of a scalar word (Table 2-1, format S.R). -/
structure SRaw where
  sop : BitVec 6
  d : BitVec 6
  a : BitVec 6
  b : BitVec 6
  f : BitVec 8
deriving DecidableEq, Repr

/-- The word of its fields: SOP in [31:26], then [25:20], [19:14], [13:8], [7:0]. -/
def SRaw.pack (r : SRaw) : BitVec 32 := r.sop ++ r.d ++ r.a ++ r.b ++ r.f

/-- The fields of a word. -/
def SRaw.unpack (w : BitVec 32) : SRaw :=
  { sop := w.extractLsb' 26 6, d := w.extractLsb' 20 6, a := w.extractLsb' 14 6, b := w.extractLsb' 8 6,
    f := w.extractLsb' 0 8 }

/-- The fields of a lane word (Table 2-7). -/
structure LRaw where
  lop : BitVec 8
  fin : BitVec 2
  w : BitVec 1
  u : BitVec 1
  gn : BitVec 1
  gp : BitVec 3
  d : BitVec 8
  a : BitVec 8
  b : BitVec 8
  c : BitVec 8
  ha : BitVec 2
  hb : BitVec 2
  hc : BitVec 2
  md : BitVec 10
  imm : BitVec 32
deriving DecidableEq, Repr

/-- The 96-bit word of its fields, highest first. -/
def LRaw.pack (r : LRaw) : BitVec 96 :=
  r.lop ++ r.fin ++ r.w ++ r.u ++ r.gn ++ r.gp ++ r.d ++ r.a ++ r.b ++ r.c ++ r.ha ++ r.hb ++ r.hc ++ r.md ++ r.imm

/-- The fields of a 96-bit word. -/
def LRaw.unpack (w : BitVec 96) : LRaw :=
  { lop := w.extractLsb' 88 8, fin := w.extractLsb' 86 2, w := w.extractLsb' 85 1, u := w.extractLsb' 84 1,
    gn := w.extractLsb' 83 1, gp := w.extractLsb' 80 3, d := w.extractLsb' 72 8, a := w.extractLsb' 64 8,
    b := w.extractLsb' 56 8, c := w.extractLsb' 48 8, ha := w.extractLsb' 46 2, hb := w.extractLsb' 44 2,
    hc := w.extractLsb' 42 2, md := w.extractLsb' 32 10, imm := w.extractLsb' 0 32 }

/-! ## Codes -/

/-- Condition codes (Table 9-3). -/
def SCond.code : SCond → BitVec 3
  | .eq => 0
  | .ne => 1
  | .lt => 2
  | .le => 3
  | .ltn => 4
  | .len => 5
  | .tst => 6
  | .ntst => 7

/-- The inverse of `SCond.code`. -/
def SCond.ofCode (x : BitVec 3) : Option SCond :=
  match x.toNat with
  | 0 => some .eq
  | 1 => some .ne
  | 2 => some .lt
  | 3 => some .le
  | 4 => some .ltn
  | 5 => some .len
  | 6 => some .tst
  | _ => some .ntst

/-- Size codes (Table 2-1). -/
def Size.code : Size → BitVec 2
  | .b8 => 0
  | .b16 => 1
  | .b32 => 2
  | .b64 => 3

/-- The inverse of `Size.code`. -/
def Size.ofCode (x : BitVec 2) : Option Size :=
  match x.toNat with
  | 0 => some .b8
  | 1 => some .b16
  | 2 => some .b32
  | _ => some .b64

/-- Atomic operation codes (Table 6-4). -/
def AOp.code : AOp → BitVec 4
  | .add => 0
  | .min => 1
  | .max => 2
  | .and => 3
  | .or => 4
  | .xor => 5
  | .exch => 6
  | .inc => 7
  | .dec => 8

/-- The inverse of `AOp.code`. -/
def AOp.ofCode (x : BitVec 4) : Option AOp :=
  match x.toNat with
  | 0 => some .add
  | 1 => some .min
  | 2 => some .max
  | 3 => some .and
  | 4 => some .or
  | 5 => some .xor
  | 6 => some .exch
  | 7 => some .inc
  | 8 => some .dec
  | _ => none

/-- Scope codes (R28). -/
def Scope.code : Scope → BitVec 3
  | .grp => 0
  | .team => 1
  | .gang => 2
  | .dev => 3
  | .sys => 4

/-- The inverse of `Scope.code`. -/
def Scope.ofCode (x : BitVec 3) : Option Scope :=
  match x.toNat with
  | 0 => some .grp
  | 1 => some .team
  | 2 => some .gang
  | 3 => some .dev
  | 4 => some .sys
  | _ => none

/-- FENCE kind codes (R28). -/
def FKind.code : FKind → BitVec 3
  | .acq => 0
  | .rel => 1
  | .full => 2

/-- The inverse of `FKind.code`. -/
def FKind.ofCode (x : BitVec 3) : Option FKind :=
  match x.toNat with
  | 0 => some .acq
  | 1 => some .rel
  | 2 => some .full
  | _ => none

/-- POL codes (Table 7-2). -/
def BPol.code : BPol → BitVec 2
  | .ca => 0
  | .nl => 1
  | .cs => 2

/-- The inverse of `BPol.code`. -/
def BPol.ofCode (x : BitVec 2) : Option BPol :=
  match x.toNat with
  | 0 => some .ca
  | 1 => some .nl
  | 2 => some .cs
  | _ => none

/-- END codes (Table 2-7). -/
def EndC.code : EndC → BitVec 2
  | .none => 0
  | .fall => 1
  | .next => 2
  | .exit => 3

/-- The inverse of `EndC.code`. -/
def EndC.ofCode (x : BitVec 2) : Option EndC :=
  match x.toNat with
  | 0 => some .none
  | 1 => some .fall
  | 2 => some .next
  | _ => some .exit

/-- Hold codes (Table 2-7). -/
def Hold.code : Hold → BitVec 2
  | .none => 0
  | .l0 => 1
  | .l1 => 2
  | .l2 => 3

/-- The inverse of `Hold.code`. -/
def Hold.ofCode (x : BitVec 2) : Option Hold :=
  match x.toNat with
  | 0 => some .none
  | 1 => some .l0
  | 2 => some .l1
  | _ => some .l2

/-- Integer type codes (Table 2-11a). -/
def ITy.code : ITy → BitVec 4
  | .i32 => 0
  | .n32 => 1
  | .i64 => 2
  | .n64 => 3
  | .i16 => 4
  | .n16 => 5
  | .i8 => 6
  | .n8 => 7

/-- The inverse of `ITy.code`. -/
def ITy.ofCode (x : BitVec 4) : Option ITy :=
  match x.toNat with
  | 0 => some .i32
  | 1 => some .n32
  | 2 => some .i64
  | 3 => some .n64
  | 4 => some .i16
  | 5 => some .n16
  | 6 => some .i8
  | 7 => some .n8
  | _ => none

/-- Raw type codes (Table 2-11a). -/
def BTy.code : BTy → BitVec 4
  | .b32 => 11
  | .n64 => 3

/-- The inverse of `BTy.code`. -/
def BTy.ofCode (x : BitVec 4) : Option BTy :=
  match x.toNat with
  | 11 => some .b32
  | 3 => some .n64
  | _ => none

/-- Float type codes (Table 2-11a). -/
def FTy.code : FTy → BitVec 4
  | .f32 => 8
  | .f16 => 9
  | .bf16 => 10

/-- The inverse of `FTy.code`. -/
def FTy.ofCode (x : BitVec 4) : Option FTy :=
  match x.toNat with
  | 8 => some .f32
  | 9 => some .f16
  | 10 => some .bf16
  | _ => none

/-- Half type codes (Table 2-11a). -/
def HTy.code : HTy → BitVec 4
  | .f16 => 9
  | .bf16 => 10

/-- The inverse of `HTy.code`. -/
def HTy.ofCode (x : BitVec 4) : Option HTy :=
  match x.toNat with
  | 9 => some .f16
  | 10 => some .bf16
  | _ => none

/-- Rounding codes (Table 2-11a). -/
def Rnd.code : Rnd → BitVec 3
  | .rn => 0
  | .rz => 1
  | .ru => 2
  | .rd => 3
  | .ra => 4
  | .rs => 5

/-- The inverse of `Rnd.code`. -/
def Rnd.ofCode (x : BitVec 3) : Option Rnd :=
  match x.toNat with
  | 0 => some .rn
  | 1 => some .rz
  | 2 => some .ru
  | 3 => some .rd
  | 4 => some .ra
  | 5 => some .rs
  | _ => none

/-- ISET conditions (R212). -/
def ICond.code : ICond → BitVec 3
  | .eq => 0
  | .ne => 1
  | .lt => 2
  | .le => 3
  | .gt => 4
  | .ge => 5

/-- The inverse of `ICond.code`. -/
def ICond.ofCode (x : BitVec 3) : Option ICond :=
  match x.toNat with
  | 0 => some .eq
  | 1 => some .ne
  | 2 => some .lt
  | 3 => some .le
  | 4 => some .gt
  | 5 => some .ge
  | _ => none

/-- FSET conditions (Table 12-3). -/
def FCond.code : FCond → BitVec 3
  | .eq => 0
  | .ne => 1
  | .lt => 2
  | .le => 3
  | .gt => 4
  | .ge => 5
  | .un => 6
  | .ord => 7

/-- The inverse of `FCond.code`. -/
def FCond.ofCode (x : BitVec 3) : Option FCond :=
  match x.toNat with
  | 0 => some .eq
  | 1 => some .ne
  | 2 => some .lt
  | 3 => some .le
  | 4 => some .gt
  | 5 => some .ge
  | 6 => some .un
  | _ => some .ord

/-- Special register indices (Table 11-3). -/
def Spr.code : Spr → BitVec 5
  | .tid => 0
  | .qid => 1
  | .gidx => 2
  | .team => 3
  | .gang => 4
  | .devid => 5
  | .timeNs => 6
  | .rngseed => 7
  | .fpstat => 8
  | .xexited => 9
  | .helper => 10
  | .split => 11
  | .ctxid => 12

/-- The inverse of `Spr.code`. -/
def Spr.ofCode (x : BitVec 5) : Option Spr :=
  match x.toNat with
  | 0 => some .tid
  | 1 => some .qid
  | 2 => some .gidx
  | 3 => some .team
  | 4 => some .gang
  | 5 => some .devid
  | 6 => some .timeNs
  | 7 => some .rngseed
  | 8 => some .fpstat
  | 9 => some .xexited
  | 10 => some .helper
  | 11 => some .split
  | 12 => some .ctxid
  | _ => none

/-- Element format codes (Table 10-6). -/
def NFmt.code : NFmt → BitVec 4
  | .e2m1 => 0
  | .e3m2 => 1
  | .e2m3 => 2
  | .e4m3 => 3
  | .e5m2 => 4
  | .i4x => 5
  | .i8 => 6

/-- The inverse of `NFmt.code`. -/
def NFmt.ofCode (x : BitVec 4) : Option NFmt :=
  match x.toNat with
  | 0 => some .e2m1
  | 1 => some .e3m2
  | 2 => some .e2m3
  | 3 => some .e4m3
  | 4 => some .e5m2
  | 5 => some .i4x
  | 6 => some .i8
  | _ => none

/-- Combining operations (Table 13-3). -/
def XOp.code : XOp → BitVec 3
  | .add => 0
  | .min => 1
  | .max => 2
  | .and => 3
  | .or => 4
  | .xor => 5

/-- The inverse of `XOp.code`. -/
def XOp.ofCode (x : BitVec 3) : Option XOp :=
  match x.toNat with
  | 0 => some .add
  | 1 => some .min
  | 2 => some .max
  | 3 => some .and
  | 4 => some .or
  | 5 => some .xor
  | _ => none

/-- Exchange type codes (Table 2-11a). -/
def XTy.code : XTy → BitVec 4
  | .i32 => 0
  | .n32 => 1
  | .i64 => 2
  | .n64 => 3
  | .f32 => 8
  | .b32 => 11

/-- The inverse of `XTy.code`. -/
def XTy.ofCode (x : BitVec 4) : Option XTy :=
  match x.toNat with
  | 0 => some .i32
  | 1 => some .n32
  | 2 => some .i64
  | 3 => some .n64
  | 8 => some .f32
  | 11 => some .b32
  | _ => none

/-- XSHF modes (Table 13-2). -/
def Shf.code : Shf → BitVec 2
  | .idx => 0
  | .up => 1
  | .down => 2
  | .xor => 3

/-- The inverse of `Shf.code`. -/
def Shf.ofCode (x : BitVec 2) : Option Shf :=
  match x.toNat with
  | 0 => some .idx
  | 1 => some .up
  | 2 => some .down
  | _ => some .xor

/-- QSWP patterns (Table 13-2). -/
def QPat.code : QPat → BitVec 2
  | .x => 0
  | .y => 1
  | .diag => 2

/-- The inverse of `QPat.code`. -/
def QPat.ofCode (x : BitVec 2) : Option QPat :=
  match x.toNat with
  | 0 => some .x
  | 1 => some .y
  | 2 => some .diag
  | _ => none

/-- MBXW type codes (R164). -/
def MbTy.code : MbTy → BitVec 4
  | .b32 => 11
  | .i32 => 0
  | .n64 => 3

/-- The inverse of `MbTy.code`. -/
def MbTy.ofCode (x : BitVec 4) : Option MbTy :=
  match x.toNat with
  | 11 => some .b32
  | 0 => some .i32
  | 3 => some .n64
  | _ => none

/-- Access type codes (R116). -/
def MTy.code : MTy → BitVec 4
  | .i8 => 6
  | .n8 => 7
  | .i16 => 4
  | .n16 => 5
  | .i32 => 0
  | .n32 => 1
  | .b32 => 11
  | .i64 => 2
  | .n64 => 3

/-- The inverse of `MTy.code`. -/
def MTy.ofCode (x : BitVec 4) : Option MTy :=
  match x.toNat with
  | 6 => some .i8
  | 7 => some .n8
  | 4 => some .i16
  | 5 => some .n16
  | 0 => some .i32
  | 1 => some .n32
  | 11 => some .b32
  | 2 => some .i64
  | 3 => some .n64
  | _ => none

/-- Cache policy codes (Table 6-2). -/
def Pol.code : Pol → BitVec 3
  | .ca => 0
  | .cg => 1
  | .cs => 2

/-- The inverse of `Pol.code`. -/
def Pol.ofCode (x : BitVec 3) : Option Pol :=
  match x.toNat with
  | 0 => some .ca
  | 1 => some .cg
  | 2 => some .cs
  | _ => none

/-- Atomic type codes (R131). -/
def ATy.code : ATy → BitVec 4
  | .i32 => 0
  | .n32 => 1
  | .b32 => 11
  | .i64 => 2
  | .n64 => 3
  | .f32 => 8

/-- The inverse of `ATy.code`. -/
def ATy.ofCode (x : BitVec 4) : Option ATy :=
  match x.toNat with
  | 0 => some .i32
  | 1 => some .n32
  | 11 => some .b32
  | 2 => some .i64
  | 3 => some .n64
  | 8 => some .f32
  | _ => none

/-- FATOM operation codes: 0 to 8, and 15 for .cas (Table 15-2). -/
def FOp.code : FOp → BitVec 4
  | .op o => o.code
  | .cas => 15

/-- The inverse of `FOp.code`. -/
def FOp.ofCode (x : BitVec 4) : Option FOp :=
  if x = 15 then some .cas else (AOp.ofCode x).map .op

/-- Source selector codes (Table 2-8). -/
def Src.code : Src → BitVec 8
  | .t n => BitVec.ofNat 8 n.val
  | .latch i => BitVec.ofNat 8 (0x40 + i.val)
  | .alatch => 0x43
  | .arg i => BitVec.ofNat 8 (0x48 + i.val)
  | .argHi i => BitVec.ofNat 8 (0x4C + i.val)
  | .zero => 0xFE
  | .imm => 0xFF

/-- The source a selector code names (Table 2-8). -/
def Src.ofCode (x : BitVec 8) : Option Src :=
  let n := x.toNat
  if h : n < 48 then some (.t ⟨n, h⟩)
  else if h : 0x40 ≤ n ∧ n < 0x43 then some (.latch ⟨n - 0x40, by omega⟩)
  else if n = 0x43 then some .alatch
  else if h : 0x48 ≤ n ∧ n < 0x4C then some (.arg ⟨n - 0x48, by omega⟩)
  else if h : 0x4C ≤ n ∧ n < 0x50 then some (.argHi ⟨n - 0x4C, by omega⟩)
  else if n = 0xFE then some .zero
  else if n = 0xFF then some .imm
  else none

/-- Destination selector codes (Table 2-9). -/
def Dst.code : Dst → BitVec 8
  | .t n => BitVec.ofNat 8 n.val
  | .p n => BitVec.ofNat 8 (0x30 + n.val)
  | .discard => 0xFE

/-- The destination a selector code names (Table 2-9). -/
def Dst.ofCode (x : BitVec 8) : Option Dst :=
  let n := x.toNat
  if h : n < 48 then some (.t ⟨n, h⟩)
  else if h : 0x30 ≤ n ∧ n < 0x38 then some (.p ⟨n - 0x30, by omega⟩)
  else if n = 0xFE then some .discard
  else none

/-- One bit. -/
def bit (b : Bool) : BitVec 1 := if b then 1 else 0

/-- A bit as a truth value. -/
def isOne (b : BitVec 1) : Bool := decide (b = 1)

/-- The fields of a lane word from its parts. -/
def Lane.raw (l : Lane) (lop : BitVec 8) (md : BitVec 10) : LRaw :=
  { lop := lop, fin := l.fin.code, w := bit l.w, u := bit l.u, gn := bit l.gn, gp := BitVec.ofNat 3 l.gp.val,
    d := l.d.code, a := l.a.code, b := l.b.code, c := l.c.code, ha := l.ha.code, hb := l.hb.code, hc := l.hc.code,
    md := md, imm := l.imm }

/-- The common fields a lane word names; none when a selector names nothing. -/
def LRaw.lane (r : LRaw) : Option Lane := do
  let fin ← EndC.ofCode r.fin
  let d ← Dst.ofCode r.d
  let a ← Src.ofCode r.a
  let b ← Src.ofCode r.b
  let c ← Src.ofCode r.c
  let ha ← Hold.ofCode r.ha
  let hb ← Hold.ofCode r.hb
  let hc ← Hold.ofCode r.hc
  pure { fin := fin, w := isOne r.w, u := isOne r.u, gn := isOne r.gn, gp := r.gp.toFin,
         d := d, a := a, b := b, c := c, ha := ha, hb := hb, hc := hc, imm := r.imm }

/-- A 6-bit field of a word of a fixed number. -/
def n6 (n : Nat) : BitVec 6 := BitVec.ofNat 6 n

/-- Three bits of a small number. -/
def n3 (n : Fin 8) : BitVec 3 := BitVec.ofNat 3 n.val

/-! ## Scalar words -/

/-- The fields of a scalar instruction's word (Tables 2-1 to 2-6); none for the others. -/
def scalarParts : Instr → Option SRaw
  | .sadd d a b => some ⟨0, d, a, b, 0⟩
  | .ssub d a b => some ⟨0, d, a, b, 1⟩
  | .smul d a b => some ⟨0, d, a, b, 2⟩
  | .smulh d a b => some ⟨0, d, a, b, 3⟩
  | .smulhn d a b => some ⟨0, d, a, b, 4⟩
  | .sdiv d a b => some ⟨0, d, a, b, 5⟩
  | .sdivn d a b => some ⟨0, d, a, b, 6⟩
  | .srem d a b => some ⟨0, d, a, b, 7⟩
  | .sremn d a b => some ⟨0, d, a, b, 8⟩
  | .sand d a b => some ⟨0, d, a, b, 9⟩
  | .sor d a b => some ⟨0, d, a, b, 10⟩
  | .sxor d a b => some ⟨0, d, a, b, 11⟩
  | .sandn d a b => some ⟨0, d, a, b, 12⟩
  | .sshl d a b => some ⟨0, d, a, b, 13⟩
  | .sshr d a b => some ⟨0, d, a, b, 14⟩
  | .ssar d a b => some ⟨0, d, a, b, 15⟩
  | .smin d a b => some ⟨0, d, a, b, 16⟩
  | .smax d a b => some ⟨0, d, a, b, 17⟩
  | .sminn d a b => some ⟨0, d, a, b, 18⟩
  | .smaxn d a b => some ⟨0, d, a, b, 19⟩
  | .sclz d a => some ⟨0, d, a, 0, 20⟩
  | .sctz d a => some ⟨0, d, a, 0, 21⟩
  | .spopc d a => some ⟨0, d, a, 0, 22⟩
  | .ssel d a b c => some ⟨0, d, a, b, 3#5 ++ n3 c⟩
  | .smbr d s => some ⟨0, d, 0, BitVec.ofNat 6 s.val, 0x20⟩
  | .scmp n a b c => some ⟨1, 0#3 ++ n3 n, a, b, 0#5 ++ c.code⟩
  | .saddi d a i => some ⟨2, d, a, i.extractLsb' 8 6, i.extractLsb' 0 8⟩
  | .sandi d a i => some ⟨3, d, a, i.extractLsb' 8 6, i.extractLsb' 0 8⟩
  | .sori d a i => some ⟨4, d, a, i.extractLsb' 8 6, i.extractLsb' 0 8⟩
  | .sxori d a i => some ⟨5, d, a, i.extractLsb' 8 6, i.extractLsb' 0 8⟩
  | .sshli d a n => some ⟨6, d, a, 0, 0#2 ++ n⟩
  | .sshri d a n => some ⟨6, d, a, 16, 0#2 ++ n⟩
  | .ssari d a n => some ⟨6, d, a, 32, 0#2 ++ n⟩
  | .scmpi k n a i => some ⟨7, k.code ++ n3 n, a, i.extractLsb' 8 6, i.extractLsb' 0 8⟩
  | .sli d i => some ⟨8, d, i.extractLsb' 14 6, i.extractLsb' 8 6, i.extractLsb' 0 8⟩
  | .slis d i => some ⟨9, d, i.extractLsb' 14 6, i.extractLsb' 8 6, i.extractLsb' 0 8⟩
  | .sld d a z o => some ⟨10, d, a, z.code ++ o.extractLsb' 8 4, o.extractLsb' 0 8⟩
  | .sldx d a z o => some ⟨11, d, a, z.code ++ o.extractLsb' 8 4, o.extractLsb' 0 8⟩
  | .sst d a z o => some ⟨12, d, a, z.code ++ o.extractLsb' 8 4, o.extractLsb' 0 8⟩
  | .satom d a b o => some ⟨13, d, a, b, 0#4 ++ o.code⟩
  | .sbr c n o => some ⟨16, n3 c ++ bit n ++ o.extractLsb' 20 2, o.extractLsb' 14 6, o.extractLsb' 8 6, o.extractLsb' 0 8⟩
  | .sjmp o => some ⟨17, o.extractLsb' 20 6, o.extractLsb' 14 6, o.extractLsb' 8 6, o.extractLsb' 0 8⟩
  | .scall o => some ⟨18, o.extractLsb' 20 6, o.extractLsb' 14 6, o.extractLsb' 8 6, o.extractLsb' 0 8⟩
  | .sjr a => some ⟨19, 0, a, 0, 0⟩
  | .sjrl a => some ⟨19, 0, a, 0, 1⟩
  | .sret => some ⟨20, 0, 0, 0, 0⟩
  | .sloop d i => some ⟨21, d, 0, i.extractLsb' 8 6, i.extractLsb' 0 8⟩
  | .lrun d i => some ⟨24, d, i.extractLsb' 14 6, i.extractLsb' 8 6, i.extractLsb' 0 8⟩
  | .lrunr d a => some ⟨25, d, a, 0, 0⟩
  | .lquiet => some ⟨26, 0, 0, 0, 0⟩
  | .cpyc a d => some ⟨32, a, d, 0, 0⟩
  | .cpyclose d => some ⟨32, 0, d, 0, 1⟩
  | .fput a d p f n => some ⟨32, a, d, 0#2 ++ p.code ++ bit f ++ bit n, 8⟩
  | .fget a d p n => some ⟨32, a, d, 0#2 ++ p.code ++ 0#1 ++ bit n, 9⟩
  | .fatom a d n o => some ⟨32, a, d, 0#1 ++ bit n ++ o.code, 10⟩
  | .fmcast a d p n => some ⟨32, a, d, 0#2 ++ p.code ++ 0#1 ++ bit n, 11⟩
  | .fstat a d => some ⟨32, a, d, 0, 12⟩
  | .reshard a d => some ⟨32, a, d, 0, 16⟩
  | .rswait a d => some ⟨32, a, d, 0, 17⟩
  | .pfh a d => some ⟨32, a, d, 0, 24⟩
  | .pfdrop a d => some ⟨32, a, d, 0, 25⟩
  | .persist a d => some ⟨32, a, d, 0, 26⟩
  | .persistAll d => some ⟨32, 0, d, 0, 26⟩
  | .dlaunch a d => some ⟨32, a, d, 0, 32⟩
  | .bara d b => some ⟨33, 0, d, 0#2 ++ BitVec.ofNat 4 b.val, 0⟩
  | .barw a d b => some ⟨33, a, d, 0#2 ++ BitVec.ofNat 4 b.val, 1⟩
  | .bar d b => some ⟨33, 0, d, 0#2 ++ BitVec.ofNat 4 b.val, 2⟩
  | .acset a d => some ⟨33, a, d, 0, 3⟩
  | .acwait a d => some ⟨33, a, d, 0, 4⟩
  | .rinit a d => some ⟨33, a, d, 0, 5⟩
  | .rawait a d => some ⟨33, a, d, 0, 6⟩
  | .rrel a d => some ⟨33, a, d, 0, 7⟩
  | .fence s k => some ⟨33, 0, 0, s.code ++ k.code, 8⟩
  | .sleeps a d e => some ⟨33, a, d, 0#5 ++ bit e, 9⟩
  | .srd d i => some ⟨48, 0, d, i, 0⟩
  | .swr a i => some ⟨48, a, 0, i, 1⟩
  | .tlbiVa a d => some ⟨48, a, d, 0, 2⟩
  | .tlbiCtx a d => some ⟨48, a, d, 1, 2⟩
  | .tlbiPasid a d => some ⟨48, a, d, 2, 2⟩
  | .tlbiAll a d => some ⟨48, a, d, 3, 2⟩
  | .pgctlPin a d => some ⟨48, a, d, 0, 3⟩
  | .pgctlUnpin a d => some ⟨48, a, d, 1, 3⟩
  | .pgctlEvict a d => some ⟨48, a, d, 2, 3⟩
  | .pgctlWb a d => some ⟨48, a, d, 3, 3⟩
  | .pgctlCarve a d => some ⟨48, a, d, 4, 3⟩
  | .pgctlUncarve a d => some ⟨48, a, d, 5, 3⟩
  | .leaseopRead a d => some ⟨48, a, d, 0, 4⟩
  | .leaseopGrant a d => some ⟨48, a, d, 1, 4⟩
  | .leaseopRenew a d => some ⟨48, a, d, 2, 4⟩
  | .leaseopRelease a d => some ⟨48, a, d, 3, 4⟩
  | .leaseopRevoke a d => some ⟨48, a, d, 4, 4⟩
  | .leaseopLost a d => some ⟨48, a, d, 5, 4⟩
  | .leaseopHint a d => some ⟨48, a, d, 6, 4⟩
  | .stret => some ⟨48, 0, 0, 0, 5⟩
  | .stretSkip => some ⟨48, 0, 0, 1, 5⟩
  | .stretPark => some ⟨48, 0, 0, 2, 5⟩
  | .shalt a d => some ⟨48, a, d, 0, 6⟩
  | .keyopLoad a d => some ⟨48, a, d, 0, 7⟩
  | .keyopUnload a d => some ⟨48, a, d, 1, 7⟩
  | .strap i => some ⟨49, 0, i.extractLsb' 14 6, i.extractLsb' 8 6, i.extractLsb' 0 8⟩
  | .nop .. | .iadd .. | .isub .. | .imul .. | .imulh .. | .imad .. | .imadw .. | .idiv .. | .irem ..
  | .iabs .. | .imin .. | .imax .. | .and .. | .or .. | .xor .. | .andn .. | .shl .. | .shr .. | .sar ..
  | .rotl .. | .clz .. | .popc .. | .brev .. | .bfe .. | .bfi .. | .iset .. | .sel .. | .mov .. | .movsp ..
  | .movspW .. | .cvti .. | .lea .. | .idot4 .. | .fadd .. | .fsub .. | .fmul .. | .ffma .. | .fmin ..
  | .fmax .. | .fset .. | .fdiv .. | .fsqrt .. | .frcp .. | .frsq .. | .fexp2 .. | .flog2 .. | .fsin ..
  | .fcos .. | .frnd .. | .fcvti .. | .icvtf .. | .fclass .. | .fscale .. | .fdot2 .. | .hadd2 .. | .hmul2 ..
  | .hfma2 .. | .hmin2 .. | .hmax2 .. | .fpack .. | .funpk .. | .ncvt .. | .ncvtFrom .. | .nexp .. | .i4xpk ..
  | .i4xunp .. | .mxscl .. | .rng .. | .plop3 .. | .pmov .. | .pmovToPreds .. | .xscan .. | .xred .. | .xshf ..
  | .xbal .. | .xmatch .. | .xfirst .. | .xbcst .. | .qswp .. | .qred .. | .qbcst .. | .mbxw .. | .ld ..
  | .st .. | .lds .. | .sts .. | .ldfeKeep .. | .ldfeClear .. | .stfe .. | .ldc .. | .cstore .. | .xload ..
  | .prefl .. | .zline .. | .atom .. | .acas .. | .atoms .. | .acass .. | .red .. | .brl .. | .join ..
  | .call .. | .callr .. | .ret .. | .trap .. | .tret .. | .tretSkip .. | .tretVal .. | .tretPark .. | .bpt ..
  | .sleep .. | .yield .. | .mxloop .. | .mxzero .. | .mxst .. | .mxld .. | .mxwaitSt .. | .mxwaitStall ..
  | .mxrel .. | .lsrd .. | .lswr .. | .spillwWin .. | .spillwStk .. | .fillwWin .. | .fillwStk .. | .ctxsv ..
  | .ctxrs .. | .runStart .. | .decisionQueuePop .. | .nextMerge .. | .farResultArrival .. | .heldTrapEntry ..
  | .barrierRelease .. | .ldfeResume .. | .lquietComplete .. | .lrunEnqueue .. | .fenceComplete ..
  | .rawaitRelease .. | .acwaitRelease .. | .fstatRelease .. | .rswaitRelease .. | .tagStallEnd ..
  | .elandJobSlotFree .. | .sleepsWake .. | .sleepWake .. | .shaltWake .. | .persistComplete ..
  | .scalarAccessComplete .. | .mxCommandStart .. | .mxCommandComplete .. | .mxQueueReissue ..
  | .alatchAcquire .. | .tokenArrival .. | .tokenHoldTimeout .. | .copyUnitMove .. | .copyComplete ..
  | .bankReservationTimeout .. | .springbokFill .. | .frameFillComplete .. | .relayoutComplete ..
  | .counterHalving | .leaseExpiry .. | .leaseDue .. | .graceEnd .. | .revocationNotice ..
  | .revocationWritebackDone .. | .poolNodeLost .. | .leaseValidClear .. | .storeAccepted
  | .backInvalidationSnoop .. | .atsInvalidation .. | .priResponse .. | .pagerRecordPost .. | .pgrespResume ..
  | .pgrespFail .. | .pgrespFatal .. | .preempt .. | .kick .. | .heartbeat | .heartbeatTimeout
  | .replayComplete | .hostDeadline | .hostResponse .. | .registerWrite .. | .commandStart | .nopCommand ..
  | .launch .. | .copy .. | .signal .. | .wait .. | .waitRelease .. | .map .. | .unmap .. | .leaseGrant ..
  | .leaseRenew .. | .leaseRelease .. | .keyLoad .. | .keyUnload .. | .contextCreate .. | .contextDestroy ..
  | .contextUpdate .. | .contextBindQueue .. | .contextUnbindQueue .. | .contextQueryContext ..
  | .contextQueryQueue .. | .teamPlacement .. | .reserveState .. | .groupExchange .. | .teamEnd ..
  | .launchComplete .. | .coreFailure .. | .thermalThrottle | .thermalShutdown | .flitReceive .. | .flitSend ..
  | .retryRequest .. | .linkDown .. | .putPacketArrival .. | .fgetRequest .. | .fgetResponse ..
  | .fatomRequest .. | .remoteAccessRequest .. | .packetAck .. | .retryLater .. | .resendTimer ..
  | .notPresentTimeout .. | .fabricTimeout .. | .remoteAccessTimeout .. | .reconfigDrain .. | .linkDark ..
  | .initHeader .. | .routeTableInstall .. | .chunkIssue .. | .chunkAck .. | .powerOnReset | .configRecord ..
  | .getVersion | .getCapabilities | .negotiateAlgorithms .. | .getDigests | .getCertificate | .challenge ..
  | .getMeasurements .. | .status .. | .take .. | .handback .. | .kill .. | .discard .. | .privcmd ..
  | .power .. | .readyBitSet .. | .hbmStackFailure .. | .supplyDroop .. | .unusedFeatureMessage .. => none

/-- The instruction a scalar word's fields name, before the static checks and the zero bits are looked at. -/
def scalarParse (r : SRaw) : Option Instr :=
  let imm14 : BitVec 14 := r.b ++ r.f
  let imm20 : BitVec 20 := r.a ++ r.b ++ r.f
  match r.sop.toNat with
  | 0x00 => (match r.f.toNat with
    | 0 => some (.sadd r.d r.a r.b)
    | 1 => some (.ssub r.d r.a r.b)
    | 2 => some (.smul r.d r.a r.b)
    | 3 => some (.smulh r.d r.a r.b)
    | 4 => some (.smulhn r.d r.a r.b)
    | 5 => some (.sdiv r.d r.a r.b)
    | 6 => some (.sdivn r.d r.a r.b)
    | 7 => some (.srem r.d r.a r.b)
    | 8 => some (.sremn r.d r.a r.b)
    | 9 => some (.sand r.d r.a r.b)
    | 10 => some (.sor r.d r.a r.b)
    | 11 => some (.sxor r.d r.a r.b)
    | 12 => some (.sandn r.d r.a r.b)
    | 13 => some (.sshl r.d r.a r.b)
    | 14 => some (.sshr r.d r.a r.b)
    | 15 => some (.ssar r.d r.a r.b)
    | 16 => some (.smin r.d r.a r.b)
    | 17 => some (.smax r.d r.a r.b)
    | 18 => some (.sminn r.d r.a r.b)
    | 19 => some (.smaxn r.d r.a r.b)
    | 20 => some (.sclz r.d r.a)
    | 21 => some (.sctz r.d r.a)
    | 22 => some (.spopc r.d r.a)
    | 0x20 => some (.smbr r.d (r.b.extractLsb' 0 2).toFin)
    | n => if 0x18 ≤ n ∧ n < 0x20 then some (.ssel r.d r.a r.b (r.f.extractLsb' 0 3).toFin) else none)
  | 0x01 => (SCond.ofCode (r.f.extractLsb' 0 3)).map fun c => .scmp (r.d.extractLsb' 0 3).toFin r.a r.b c
  | 0x02 => some (.saddi r.d r.a imm14)
  | 0x03 => some (.sandi r.d r.a imm14)
  | 0x04 => some (.sori r.d r.a imm14)
  | 0x05 => some (.sxori r.d r.a imm14)
  | 0x06 => (match (r.b.extractLsb' 4 2).toNat with
    | 0 => some (.sshli r.d r.a (r.f.extractLsb' 0 6))
    | 1 => some (.sshri r.d r.a (r.f.extractLsb' 0 6))
    | 2 => some (.ssari r.d r.a (r.f.extractLsb' 0 6))
    | _ => none)
  | 0x07 => (SCond.ofCode (r.d.extractLsb' 3 3)).map fun k => .scmpi k (r.d.extractLsb' 0 3).toFin r.a imm14
  | 0x08 => some (.sli r.d imm20)
  | 0x09 => some (.slis r.d imm20)
  | 0x0A => (Size.ofCode (r.b.extractLsb' 4 2)).map fun z => .sld r.d r.a z (r.b.extractLsb' 0 4 ++ r.f)
  | 0x0B => (Size.ofCode (r.b.extractLsb' 4 2)).map fun z => .sldx r.d r.a z (r.b.extractLsb' 0 4 ++ r.f)
  | 0x0C => (Size.ofCode (r.b.extractLsb' 4 2)).map fun z => .sst r.d r.a z (r.b.extractLsb' 0 4 ++ r.f)
  | 0x0D => (AOp.ofCode (r.f.extractLsb' 0 4)).map fun o => .satom r.d r.a r.b o
  | 0x10 => some (.sbr (r.d.extractLsb' 3 3).toFin (isOne (r.d.extractLsb' 2 1))
      (r.d.extractLsb' 0 2 ++ r.a ++ r.b ++ r.f))
  | 0x11 => some (.sjmp (r.d ++ r.a ++ r.b ++ r.f))
  | 0x12 => some (.scall (r.d ++ r.a ++ r.b ++ r.f))
  | 0x13 => (match r.f.toNat with
    | 0 => some (.sjr r.a)
    | 1 => some (.sjrl r.a)
    | _ => none)
  | 0x14 => some .sret
  | 0x15 => some (.sloop r.d imm14)
  | 0x18 => some (.lrun r.d imm20)
  | 0x19 => some (.lrunr r.d r.a)
  | 0x1A => some .lquiet
  | 0x20 => (match r.f.toNat with
    | 0x00 => some (.cpyc r.d r.a)
    | 0x01 => some (.cpyclose r.a)
    | 0x08 => (BPol.ofCode (r.b.extractLsb' 2 2)).map fun p =>
        .fput r.d r.a p (isOne (r.b.extractLsb' 1 1)) (isOne (r.b.extractLsb' 0 1))
    | 0x09 => (BPol.ofCode (r.b.extractLsb' 2 2)).map fun p => .fget r.d r.a p (isOne (r.b.extractLsb' 0 1))
    | 0x0A => (FOp.ofCode (r.b.extractLsb' 0 4)).map fun o => .fatom r.d r.a (isOne (r.b.extractLsb' 4 1)) o
    | 0x0B => (BPol.ofCode (r.b.extractLsb' 2 2)).map fun p => .fmcast r.d r.a p (isOne (r.b.extractLsb' 0 1))
    | 0x0C => some (.fstat r.d r.a)
    | 0x10 => some (.reshard r.d r.a)
    | 0x11 => some (.rswait r.d r.a)
    | 0x18 => some (.pfh r.d r.a)
    | 0x19 => some (.pfdrop r.d r.a)
    | 0x1A => if r.d = 0 then some (.persistAll r.a) else some (.persist r.d r.a)
    | 0x20 => some (.dlaunch r.d r.a)
    | _ => none)
  | 0x21 => (match r.f.toNat with
    | 0x00 => some (.bara r.a (r.b.extractLsb' 0 4).toFin)
    | 0x01 => some (.barw r.d r.a (r.b.extractLsb' 0 4).toFin)
    | 0x02 => some (.bar r.a (r.b.extractLsb' 0 4).toFin)
    | 0x03 => some (.acset r.d r.a)
    | 0x04 => some (.acwait r.d r.a)
    | 0x05 => some (.rinit r.d r.a)
    | 0x06 => some (.rawait r.d r.a)
    | 0x07 => some (.rrel r.d r.a)
    | 0x08 => (match Scope.ofCode (r.b.extractLsb' 3 3), FKind.ofCode (r.b.extractLsb' 0 3) with
      | some s, some k => some (.fence s k)
      | _, _ => none)
    | 0x09 => some (.sleeps r.d r.a (isOne (r.b.extractLsb' 0 1)))
    | _ => none)
  | 0x30 => (match r.f.toNat with
    | 0x00 => some (.srd r.a r.b)
    | 0x01 => some (.swr r.d r.b)
    | 0x02 => (match r.b.toNat with
      | 0 => some (.tlbiVa r.d r.a)
      | 1 => some (.tlbiCtx r.d r.a)
      | 2 => some (.tlbiPasid r.d r.a)
      | 3 => some (.tlbiAll r.d r.a)
      | _ => none)
    | 0x03 => (match r.b.toNat with
      | 0 => some (.pgctlPin r.d r.a)
      | 1 => some (.pgctlUnpin r.d r.a)
      | 2 => some (.pgctlEvict r.d r.a)
      | 3 => some (.pgctlWb r.d r.a)
      | 4 => some (.pgctlCarve r.d r.a)
      | 5 => some (.pgctlUncarve r.d r.a)
      | _ => none)
    | 0x04 => (match r.b.toNat with
      | 0 => some (.leaseopRead r.d r.a)
      | 1 => some (.leaseopGrant r.d r.a)
      | 2 => some (.leaseopRenew r.d r.a)
      | 3 => some (.leaseopRelease r.d r.a)
      | 4 => some (.leaseopRevoke r.d r.a)
      | 5 => some (.leaseopLost r.d r.a)
      | 6 => some (.leaseopHint r.d r.a)
      | _ => none)
    | 0x05 => (match r.b.toNat with
      | 0 => some .stret
      | 1 => some .stretSkip
      | 2 => some .stretPark
      | _ => none)
    | 0x06 => some (.shalt r.d r.a)
    | 0x07 => (match r.b.toNat with
      | 0 => some (.keyopLoad r.d r.a)
      | 1 => some (.keyopUnload r.d r.a)
      | _ => none)
    | _ => none)
  | 0x31 => some (.strap imm20)
  | _ => none

/-- The opcode check of R45 passes: SOP with its func8 or eop is listed (Tables 2-2 to 2-6). -/
def scalarOpcode (r : SRaw) : Bool :=
  let f := r.f.toNat
  match r.sop.toNat with
  | 0x00 => decide (f ≤ 0x16) || (decide (0x18 ≤ f) && decide (f ≤ 0x20))
  | 0x01 | 0x02 | 0x03 | 0x04 | 0x05 | 0x06 | 0x07 | 0x08 | 0x09 | 0x0A | 0x0B | 0x0C | 0x0D
  | 0x10 | 0x11 | 0x12 | 0x13 | 0x14 | 0x15 | 0x18 | 0x19 | 0x1A | 0x31 => true
  | 0x20 => [0x00, 0x01, 0x08, 0x09, 0x0A, 0x0B, 0x0C, 0x10, 0x11, 0x18, 0x19, 0x1A, 0x20].contains f
  | 0x21 => decide (f ≤ 9)
  | 0x30 => decide (f ≤ 7)
  | _ => false

/-! ## Lane words -/

/-- LOP, MOD and the common fields of a lane instruction's word (Table 2-11 and each opcode's MOD layout). -/
def laneParts : Instr → Option (BitVec 8 × BitVec 10 × Lane)
  | .nop l => some (0x0, 0, l)
  | .iadd l ty sat => some (0x1, 0#2 ++ bit sat ++ 0#3 ++ ty.code, l)
  | .isub l ty sat => some (0x2, 0#2 ++ bit sat ++ 0#3 ++ ty.code, l)
  | .imul l ty => some (0x3, 0#6 ++ ty.code, l)
  | .imulh l ty => some (0x4, 0#6 ++ ty.code, l)
  | .imad l ty => some (0x5, 0#6 ++ ty.code, l)
  | .imadw l ty => some (0x6, 0#6 ++ ty.code, l)
  | .idiv l ty => some (0x7, 0#6 ++ ty.code, l)
  | .irem l ty => some (0x8, 0#6 ++ ty.code, l)
  | .iabs l ty => some (0x9, 0#6 ++ ty.code, l)
  | .imin l ty => some (0xa, 0#6 ++ ty.code, l)
  | .imax l ty => some (0xb, 0#6 ++ ty.code, l)
  | .and l ty => some (0xc, 0#6 ++ ty.code, l)
  | .or l ty => some (0xd, 0#6 ++ ty.code, l)
  | .xor l ty => some (0xe, 0#6 ++ ty.code, l)
  | .andn l ty => some (0xf, 0#6 ++ ty.code, l)
  | .shl l ty => some (0x10, 0#6 ++ ty.code, l)
  | .shr l ty => some (0x11, 0#6 ++ ty.code, l)
  | .sar l ty => some (0x12, 0#6 ++ ty.code, l)
  | .rotl l ty => some (0x13, 0#6 ++ ty.code, l)
  | .clz l ty => some (0x14, 0#6 ++ ty.code, l)
  | .popc l ty => some (0x15, 0#6 ++ ty.code, l)
  | .brev l ty => some (0x16, 0#6 ++ ty.code, l)
  | .bfe l ty => some (0x17, 0#6 ++ ty.code, l)
  | .bfi l ty => some (0x18, 0#6 ++ ty.code, l)
  | .iset l ty c => some (0x19, c.code ++ 0#3 ++ ty.code, l)
  | .sel l ty p neg => some (0x1a, n3 p ++ bit neg ++ 0#2 ++ ty.code, l)
  | .mov l ty => some (0x1b, 0#6 ++ ty.code, l)
  | .movsp l s => some (0x1c, 0#1 ++ s.code ++ (if s.wide then 3#4 else 11#4), l)
  | .movspW l s => some (0x1c, 1#1 ++ s.code ++ (if s.wide then 3#4 else 11#4), l)
  | .cvti l dt st sat => some (0x1d, 0#1 ++ bit sat ++ st.code ++ dt.code, l)
  | .lea l ty n => some (0x1e, n3 n ++ 0#3 ++ ty.code, l)
  | .idot4 l as bs => some (0x1f, 0#1 ++ bit bs ++ bit as ++ 0#7, l)
  | .fadd l ty r na nb => some (0x20, 0#1 ++ bit nb ++ bit na ++ r.code ++ ty.code, l)
  | .fsub l ty r na nb => some (0x21, 0#1 ++ bit nb ++ bit na ++ r.code ++ ty.code, l)
  | .fmul l ty r na nb => some (0x22, 0#1 ++ bit nb ++ bit na ++ r.code ++ ty.code, l)
  | .ffma l ty r na nb nc => some (0x23, bit nc ++ bit nb ++ bit na ++ r.code ++ ty.code, l)
  | .fmin l ty na nb => some (0x24, 0#1 ++ bit nb ++ bit na ++ 0#3 ++ ty.code, l)
  | .fmax l ty na nb => some (0x25, 0#1 ++ bit nb ++ bit na ++ 0#3 ++ ty.code, l)
  | .fset l ty c => some (0x26, c.code ++ 0#3 ++ ty.code, l)
  | .fdiv l ty r => some (0x27, 0#3 ++ r.code ++ ty.code, l)
  | .fsqrt l ty r => some (0x28, 0#3 ++ r.code ++ ty.code, l)
  | .frcp l ty r => some (0x29, 0#3 ++ r.code ++ ty.code, l)
  | .frsq l => some (0x2a, 8, l)
  | .fexp2 l => some (0x2b, 8, l)
  | .flog2 l => some (0x2c, 8, l)
  | .fsin l => some (0x2d, 8, l)
  | .fcos l => some (0x2e, 8, l)
  | .frnd l ty r => some (0x2f, 0#3 ++ r.code ++ ty.code, l)
  | .fcvti l dt st r => some (0x30, (st.code - 8).extractLsb' 0 3 ++ r.code ++ dt.code, l)
  | .icvtf l dt st r => some (0x31, st.code.extractLsb' 0 3 ++ r.code ++ dt.code, l)
  | .fclass l ty => some (0x32, 0#6 ++ ty.code, l)
  | .fscale l ty r => some (0x33, 0#3 ++ r.code ++ ty.code, l)
  | .fdot2 l ty r => some (0x34, 0#3 ++ r.code ++ ty.code, l)
  | .hadd2 l ty r na nb => some (0x40, 0#1 ++ bit nb ++ bit na ++ r.code ++ ty.code, l)
  | .hmul2 l ty r na nb => some (0x41, 0#1 ++ bit nb ++ bit na ++ r.code ++ ty.code, l)
  | .hfma2 l ty r na nb nc => some (0x42, bit nc ++ bit nb ++ bit na ++ r.code ++ ty.code, l)
  | .hmin2 l ty na nb => some (0x43, 0#1 ++ bit nb ++ bit na ++ 0#3 ++ ty.code, l)
  | .hmax2 l ty na nb => some (0x44, 0#1 ++ bit nb ++ bit na ++ 0#3 ++ ty.code, l)
  | .fpack l f => some (0x45, (match f with
      | .half ty r => 0#3 ++ r.code ++ ty.code
      | .nib => 11 | .twoLo => 0#1 ++ 1#2 ++ 0#3 ++ 11#4 | .twoHi => 0#1 ++ 3#2 ++ 0#3 ++ 11#4), l)
  | .funpk l f => some (0x46, (match f with
      | .half ty hi => 0#1 ++ bit hi ++ 0#4 ++ ty.code
      | .lo => 11 | .hi => 0#1 ++ 2#2 ++ 0#3 ++ 11#4), l)
  | .ncvt l fmt r inf => some (0x47, 0#1 ++ bit inf ++ 0#1 ++ r.code ++ fmt.code, l)
  | .ncvtFrom l fmt => some (0x47, 0#2 ++ 1#1 ++ 0#3 ++ fmt.code, l)
  | .nexp l ty => some (0x48, 0#6 ++ ty.code, l)
  | .i4xpk l r half => some (0x49, 0#2 ++ bit half ++ r.code ++ 11#4, l)
  | .i4xunp l => some (0x4a, 8, l)
  | .mxscl l fmt => some (0x4b, 0#6 ++ fmt.code, l)
  | .rng l ty => some (0x4c, 0#6 ++ ty.code, l)
  | .plop3 l pa pb pc => some (0x50, 0#1 ++ n3 pc ++ n3 pb ++ n3 pa, l)
  | .pmov l => some (0x51, 0, l)
  | .pmovToPreds l => some (0x51, 1, l)
  | .xscan l op ty excl => some (0x60, op.code ++ 0#2 ++ bit excl ++ ty.code, l)
  | .xred l op ty => some (0x61, op.code ++ 0#3 ++ ty.code, l)
  | .xshf l m ty => some (0x62, 0#1 ++ m.code ++ 0#3 ++ ty.code, l)
  | .xbal l p neg => some (0x63, n3 p ++ bit neg ++ 0#2 ++ 11#4, l)
  | .xmatch l ty => some (0x64, 0#6 ++ ty.code, l)
  | .xfirst l ty => some (0x65, 0#6 ++ ty.code, l)
  | .xbcst l ty => some (0x66, 0#6 ++ ty.code, l)
  | .qswp l q ty => some (0x67, 0#1 ++ q.code ++ 0#3 ++ ty.code, l)
  | .qred l op ty => some (0x68, op.code ++ 0#3 ++ ty.code, l)
  | .qbcst l ty => some (0x69, 0#6 ++ ty.code, l)
  | .mbxw l s ty => some (0x6a, 0#4 ++ BitVec.ofNat 2 s.val ++ ty.code, l)
  | .ld l ty pol => some (0x70, 0#3 ++ pol.code ++ ty.code, l)
  | .st l ty pol => some (0x71, 0#3 ++ pol.code ++ ty.code, l)
  | .lds l ty => some (0x72, 0#6 ++ ty.code, l)
  | .sts l ty => some (0x73, 0#6 ++ ty.code, l)
  | .ldfeKeep l ty => some (0x74, 0#6 ++ ty.code, l)
  | .ldfeClear l ty => some (0x74, 0#2 ++ 1#1 ++ 0#3 ++ ty.code, l)
  | .stfe l ty => some (0x75, 0#6 ++ ty.code, l)
  | .ldc l ty => some (0x76, 0#6 ++ ty.code, l)
  | .cstore l ty pol => some (0x77, 0#3 ++ pol.code ++ ty.code, l)
  | .xload l ty pol => some (0x78, 0#3 ++ pol.code ++ ty.code, l)
  | .prefl l pol => some (0x79, 0#3 ++ pol.code ++ 0#4, l)
  | .zline l pol => some (0x7a, 0#3 ++ pol.code ++ 0#4, l)
  | .atom l op ty acq rel => some (0x90, bit rel ++ bit acq ++ op.code ++ ty.code, l)
  | .acas l ty acq rel => some (0x91, bit rel ++ bit acq ++ 0#4 ++ ty.code, l)
  | .atoms l op ty acq rel => some (0x92, bit rel ++ bit acq ++ op.code ++ ty.code, l)
  | .acass l ty acq rel => some (0x93, bit rel ++ bit acq ++ 0#4 ++ ty.code, l)
  | .red l op ty rel => some (0x94, bit rel ++ 0#1 ++ op.code ++ ty.code, l)
  | .brl l => some (0xa0, 0, l)
  | .join l => some (0xa1, 0, l)
  | .call l f => some (0xa2, 0#6 ++ f, l)
  | .callr l f => some (0xa3, 0#6 ++ f, l)
  | .ret l => some (0xa4, 0, l)
  | .trap l => some (0xa5, 0, l)
  | .tret l => some (0xa6, 0, l)
  | .tretSkip l => some (0xa6, 1, l)
  | .tretVal l => some (0xa6, 2, l)
  | .tretPark l => some (0xa6, 3, l)
  | .bpt l => some (0xa7, 0, l)
  | .sleep l ev => some (0xa8, 0#9 ++ bit ev, l)
  | .yield l => some (0xa9, 0, l)
  | .mxloop l tile n za => some (0xb0, 0#3 ++ bit za ++ BitVec.ofNat 2 n.val ++ BitVec.ofNat 4 tile.val, l)
  | .mxzero l => some (0xb1, 0, l)
  | .mxst l tile fmt => some (0xb2, 0#2 ++ fmt ++ BitVec.ofNat 4 tile.val, l)
  | .mxld l tile => some (0xb3, 0#6 ++ BitVec.ofNat 4 tile.val, l)
  | .mxwaitSt l tile clr => some (0xb4, 0#4 ++ bit clr ++ 0#1 ++ BitVec.ofNat 4 tile.val, l)
  | .mxwaitStall l clr => some (0xb4, 0#4 ++ bit clr ++ 1#1 ++ 0#4, l)
  | .mxrel l => some (0xb5, 0, l)
  | .lsrd l i wide => some (0xd0, 0#1 ++ bit wide ++ i, l)
  | .lswr l i wide => some (0xd1, 0#1 ++ bit wide ++ i, l)
  | .spillwWin l => some (0xd2, 0, l)
  | .spillwStk l => some (0xd2, 1, l)
  | .fillwWin l => some (0xd3, 0, l)
  | .fillwStk l => some (0xd3, 1, l)
  | .ctxsv l team => some (0xd4, 0#9 ++ bit team, l)
  | .ctxrs l team => some (0xd5, 0#9 ++ bit team, l)
  | .sadd .. | .ssub .. | .smul .. | .smulh .. | .smulhn .. | .sdiv .. | .sdivn .. | .srem .. | .sremn ..
  | .sand .. | .sor .. | .sxor .. | .sandn .. | .sshl .. | .sshr .. | .ssar .. | .smin .. | .smax ..
  | .sminn .. | .smaxn .. | .sclz .. | .sctz .. | .spopc .. | .ssel .. | .smbr .. | .scmp .. | .saddi ..
  | .sandi .. | .sori .. | .sxori .. | .sshli .. | .sshri .. | .ssari .. | .scmpi .. | .sli .. | .slis ..
  | .sld .. | .sldx .. | .sst .. | .satom .. | .sbr .. | .sjmp .. | .scall .. | .sjr .. | .sjrl .. | .sret
  | .sloop .. | .lrun .. | .lrunr .. | .lquiet | .cpyc .. | .cpyclose .. | .fput .. | .fget .. | .fatom ..
  | .fmcast .. | .fstat .. | .reshard .. | .rswait .. | .pfh .. | .pfdrop .. | .persist .. | .persistAll ..
  | .dlaunch .. | .bara .. | .barw .. | .bar .. | .acset .. | .acwait .. | .rinit .. | .rawait .. | .rrel ..
  | .fence .. | .sleeps .. | .srd .. | .swr .. | .tlbiVa .. | .tlbiCtx .. | .tlbiPasid .. | .tlbiAll ..
  | .pgctlPin .. | .pgctlUnpin .. | .pgctlEvict .. | .pgctlWb .. | .pgctlCarve .. | .pgctlUncarve ..
  | .leaseopRead .. | .leaseopGrant .. | .leaseopRenew .. | .leaseopRelease .. | .leaseopRevoke ..
  | .leaseopLost .. | .leaseopHint .. | .stret | .stretSkip | .stretPark | .shalt .. | .keyopLoad ..
  | .keyopUnload .. | .strap .. | .runStart .. | .decisionQueuePop .. | .nextMerge .. | .farResultArrival ..
  | .heldTrapEntry .. | .barrierRelease .. | .ldfeResume .. | .lquietComplete .. | .lrunEnqueue ..
  | .fenceComplete .. | .rawaitRelease .. | .acwaitRelease .. | .fstatRelease .. | .rswaitRelease ..
  | .tagStallEnd .. | .elandJobSlotFree .. | .sleepsWake .. | .sleepWake .. | .shaltWake ..
  | .persistComplete .. | .scalarAccessComplete .. | .mxCommandStart .. | .mxCommandComplete ..
  | .mxQueueReissue .. | .alatchAcquire .. | .tokenArrival .. | .tokenHoldTimeout .. | .copyUnitMove ..
  | .copyComplete .. | .bankReservationTimeout .. | .springbokFill .. | .frameFillComplete ..
  | .relayoutComplete .. | .counterHalving | .leaseExpiry .. | .leaseDue .. | .graceEnd ..
  | .revocationNotice .. | .revocationWritebackDone .. | .poolNodeLost .. | .leaseValidClear ..
  | .storeAccepted | .backInvalidationSnoop .. | .atsInvalidation .. | .priResponse .. | .pagerRecordPost ..
  | .pgrespResume .. | .pgrespFail .. | .pgrespFatal .. | .preempt .. | .kick .. | .heartbeat
  | .heartbeatTimeout | .replayComplete | .hostDeadline | .hostResponse .. | .registerWrite .. | .commandStart
  | .nopCommand .. | .launch .. | .copy .. | .signal .. | .wait .. | .waitRelease .. | .map .. | .unmap ..
  | .leaseGrant .. | .leaseRenew .. | .leaseRelease .. | .keyLoad .. | .keyUnload .. | .contextCreate ..
  | .contextDestroy .. | .contextUpdate .. | .contextBindQueue .. | .contextUnbindQueue ..
  | .contextQueryContext .. | .contextQueryQueue .. | .teamPlacement .. | .reserveState .. | .groupExchange ..
  | .teamEnd .. | .launchComplete .. | .coreFailure .. | .thermalThrottle | .thermalShutdown | .flitReceive ..
  | .flitSend .. | .retryRequest .. | .linkDown .. | .putPacketArrival .. | .fgetRequest .. | .fgetResponse ..
  | .fatomRequest .. | .remoteAccessRequest .. | .packetAck .. | .retryLater .. | .resendTimer ..
  | .notPresentTimeout .. | .fabricTimeout .. | .remoteAccessTimeout .. | .reconfigDrain .. | .linkDark ..
  | .initHeader .. | .routeTableInstall .. | .chunkIssue .. | .chunkAck .. | .powerOnReset | .configRecord ..
  | .getVersion | .getCapabilities | .negotiateAlgorithms .. | .getDigests | .getCertificate | .challenge ..
  | .getMeasurements .. | .status .. | .take .. | .handback .. | .kill .. | .discard .. | .privcmd ..
  | .power .. | .readyBitSet .. | .hbmStackFailure .. | .supplyDroop .. | .unusedFeatureMessage .. => none

/-- The instruction a lane word's LOP and MOD name over its common fields, before the static checks and the zero bits
are looked at. -/
def laneParse (lop : BitVec 8) (md : BitVec 10) (l : Lane) : Option Instr :=
  let t4 := md.extractLsb' 0 4
  let r3 := md.extractLsb' 4 3
  let x3 := md.extractLsb' 7 3
  let b7 := isOne (md.extractLsb' 7 1)
  let b8 := isOne (md.extractLsb' 8 1)
  let b9 := isOne (md.extractLsb' 9 1)
  let ity := ITy.ofCode t4
  let bty := BTy.ofCode t4
  let fty := FTy.ofCode t4
  let hty := HTy.ofCode t4
  let mty := MTy.ofCode t4
  let rnd := Rnd.ofCode r3
  let pol := Pol.ofCode r3
  let tile := t4.toFin
  match lop.toNat with
  | 0x00 => some (.nop l)
  | 0x01 => ity.map fun ty => .iadd l ty b7
  | 0x02 => ity.map fun ty => .isub l ty b7
  | 0x3 => ity.map fun ty => .imul l ty
  | 0x4 => ity.map fun ty => .imulh l ty
  | 0x5 => ity.map fun ty => .imad l ty
  | 0x6 => ity.map fun ty => .imadw l ty
  | 0x7 => ity.map fun ty => .idiv l ty
  | 0x8 => ity.map fun ty => .irem l ty
  | 0x9 => ity.map fun ty => .iabs l ty
  | 0xa => ity.map fun ty => .imin l ty
  | 0xb => ity.map fun ty => .imax l ty
  | 0xc => bty.map fun ty => .and l ty
  | 0xd => bty.map fun ty => .or l ty
  | 0xe => bty.map fun ty => .xor l ty
  | 0xf => bty.map fun ty => .andn l ty
  | 0x10 => bty.map fun ty => .shl l ty
  | 0x11 => bty.map fun ty => .shr l ty
  | 0x12 => ity.map fun ty => .sar l ty
  | 0x13 => bty.map fun ty => .rotl l ty
  | 0x14 => bty.map fun ty => .clz l ty
  | 0x15 => bty.map fun ty => .popc l ty
  | 0x16 => bty.map fun ty => .brev l ty
  | 0x17 => ity.map fun ty => .bfe l ty
  | 0x18 => bty.map fun ty => .bfi l ty
  | 0x19 => (match ity, ICond.ofCode x3 with
    | some ty, some c => some (.iset l ty c)
    | _, _ => none)
  | 0x1a => bty.map fun ty => .sel l ty x3.toFin (isOne (md.extractLsb' 6 1))
  | 0x1b => bty.map fun ty => .mov l ty
  | 0x1c => (Spr.ofCode (md.extractLsb' 4 5)).map fun s => if b9 then .movspW l s else .movsp l s
  | 0x1d => (match ity, ITy.ofCode (md.extractLsb' 4 4) with
    | some dt, some st => some (.cvti l dt st b8)
    | _, _ => none)
  | 0x1e => ity.map fun ty => .lea l ty x3.toFin
  | 0x1f => some (.idot4 l b7 b8)
  | 0x20 => (match fty, rnd with
    | some ty, some r => some (.fadd l ty r b7 b8)
    | _, _ => none)
  | 0x21 => (match fty, rnd with
    | some ty, some r => some (.fsub l ty r b7 b8)
    | _, _ => none)
  | 0x22 => (match fty, rnd with
    | some ty, some r => some (.fmul l ty r b7 b8)
    | _, _ => none)
  | 0x23 => (match fty, rnd with
    | some ty, some r => some (.ffma l ty r b7 b8 b9)
    | _, _ => none)
  | 0x24 => fty.map fun ty => .fmin l ty b7 b8
  | 0x25 => fty.map fun ty => .fmax l ty b7 b8
  | 0x26 => (match fty, FCond.ofCode x3 with
    | some ty, some c => some (.fset l ty c)
    | _, _ => none)
  | 0x27 => (match fty, rnd with
    | some ty, some r => some (.fdiv l ty r)
    | _, _ => none)
  | 0x28 => (match fty, rnd with
    | some ty, some r => some (.fsqrt l ty r)
    | _, _ => none)
  | 0x29 => (match fty, rnd with
    | some ty, some r => some (.frcp l ty r)
    | _, _ => none)
  | 0x2a => some (.frsq l)
  | 0x2b => some (.fexp2 l)
  | 0x2c => some (.flog2 l)
  | 0x2d => some (.fsin l)
  | 0x2e => some (.fcos l)
  | 0x2f => (match fty, rnd with
    | some ty, some r => some (.frnd l ty r)
    | _, _ => none)
  | 0x30 => (match ity, FTy.ofCode (1#1 ++ x3), rnd with
    | some dt, some st, some r => some (.fcvti l dt st r)
    | _, _, _ => none)
  | 0x31 => (match fty, ITy.ofCode (0#1 ++ x3), rnd with
    | some dt, some st, some r => some (.icvtf l dt st r)
    | _, _, _ => none)
  | 0x32 => fty.map fun ty => .fclass l ty
  | 0x33 => (match fty, rnd with
    | some ty, some r => some (.fscale l ty r)
    | _, _ => none)
  | 0x34 => (match hty, rnd with
    | some ty, some r => some (.fdot2 l ty r)
    | _, _ => none)
  | 0x40 => (match hty, rnd with
    | some ty, some r => some (.hadd2 l ty r b7 b8)
    | _, _ => none)
  | 0x41 => (match hty, rnd with
    | some ty, some r => some (.hmul2 l ty r b7 b8)
    | _, _ => none)
  | 0x42 => (match hty, rnd with
    | some ty, some r => some (.hfma2 l ty r b7 b8 b9)
    | _, _ => none)
  | 0x43 => hty.map fun ty => .hmin2 l ty b7 b8
  | 0x44 => hty.map fun ty => .hmax2 l ty b7 b8
  | 0x45 => if t4 = 11 then (match (md.extractLsb' 7 2).toNat with
      | 0 => some (.fpack l .nib)
      | 1 => some (.fpack l .twoLo)
      | 3 => some (.fpack l .twoHi)
      | _ => none)
    else (match hty, rnd with
      | some ty, some r => some (.fpack l (.half ty r))
      | _, _ => none)
  | 0x46 => if t4 = 11 then (if b8 then some (.funpk l .hi) else some (.funpk l .lo))
    else hty.map fun ty => .funpk l (.half ty b8)
  | 0x47 => (match NFmt.ofCode t4, rnd with
    | some fmt, some r => if b7 then some (.ncvtFrom l fmt) else some (.ncvt l fmt r b8)
    | _, _ => none)
  | 0x48 => fty.map fun ty => .nexp l ty
  | 0x49 => rnd.map fun r => .i4xpk l r b7
  | 0x4a => some (.i4xunp l)
  | 0x4b => (NFmt.ofCode t4).map fun fmt => .mxscl l fmt
  | 0x4c => bty.map fun ty => .rng l ty
  | 0x50 => some (.plop3 l (md.extractLsb' 0 3).toFin (md.extractLsb' 3 3).toFin (md.extractLsb' 6 3).toFin)
  | 0x51 => if isOne (md.extractLsb' 0 1) then some (.pmovToPreds l) else some (.pmov l)
  | 0x60 => (match XOp.ofCode x3, XTy.ofCode t4 with
    | some op, some ty => some (.xscan l op ty (isOne (md.extractLsb' 4 1)))
    | _, _ => none)
  | 0x61 => (match XOp.ofCode x3, XTy.ofCode t4 with
    | some op, some ty => some (.xred l op ty)
    | _, _ => none)
  | 0x62 => (match Shf.ofCode (md.extractLsb' 7 2), bty with
    | some m, some ty => some (.xshf l m ty)
    | _, _ => none)
  | 0x63 => some (.xbal l x3.toFin (isOne (md.extractLsb' 6 1)))
  | 0x64 => bty.map fun ty => .xmatch l ty
  | 0x65 => bty.map fun ty => .xfirst l ty
  | 0x66 => bty.map fun ty => .xbcst l ty
  | 0x67 => (match QPat.ofCode (md.extractLsb' 7 2), bty with
    | some q, some ty => some (.qswp l q ty)
    | _, _ => none)
  | 0x68 => (match XOp.ofCode x3, XTy.ofCode t4 with
    | some op, some ty => some (.qred l op ty)
    | _, _ => none)
  | 0x69 => bty.map fun ty => .qbcst l ty
  | 0x6a => (MbTy.ofCode t4).map fun ty => .mbxw l (md.extractLsb' 4 2).toFin ty
  | 0x70 => (match mty, pol with
    | some ty, some p => some (.ld l ty p)
    | _, _ => none)
  | 0x71 => (match mty, pol with
    | some ty, some p => some (.st l ty p)
    | _, _ => none)
  | 0x77 => (match mty, pol with
    | some ty, some p => some (.cstore l ty p)
    | _, _ => none)
  | 0x78 => (match mty, pol with
    | some ty, some p => some (.xload l ty p)
    | _, _ => none)
  | 0x72 => mty.map fun ty => .lds l ty
  | 0x73 => mty.map fun ty => .sts l ty
  | 0x75 => mty.map fun ty => .stfe l ty
  | 0x76 => mty.map fun ty => .ldc l ty
  | 0x74 => mty.map fun ty => if b7 then .ldfeClear l ty else .ldfeKeep l ty
  | 0x79 => pol.map fun p => .prefl l p
  | 0x7a => pol.map fun p => .zline l p
  | 0x90 => (match AOp.ofCode (md.extractLsb' 4 4), ATy.ofCode t4 with
    | some op, some ty => some (.atom l op ty b8 b9)
    | _, _ => none)
  | 0x92 => (match AOp.ofCode (md.extractLsb' 4 4), ATy.ofCode t4 with
    | some op, some ty => some (.atoms l op ty b8 b9)
    | _, _ => none)
  | 0x91 => (ATy.ofCode t4).map fun ty => .acas l ty b8 b9
  | 0x93 => (ATy.ofCode t4).map fun ty => .acass l ty b8 b9
  | 0x94 => (match AOp.ofCode (md.extractLsb' 4 4), ATy.ofCode t4 with
    | some op, some ty => some (.red l op ty b9)
    | _, _ => none)
  | 0xa0 => some (.brl l)
  | 0xa1 => some (.join l)
  | 0xa2 => some (.call l t4)
  | 0xa3 => some (.callr l t4)
  | 0xa4 => some (.ret l)
  | 0xa5 => some (.trap l)
  | 0xa6 => (match (md.extractLsb' 0 2).toNat with
    | 0 => some (.tret l)
    | 1 => some (.tretSkip l)
    | 2 => some (.tretVal l)
    | _ => some (.tretPark l))
  | 0xa7 => some (.bpt l)
  | 0xa8 => some (.sleep l (isOne (md.extractLsb' 0 1)))
  | 0xa9 => some (.yield l)
  | 0xb0 => some (.mxloop l tile (md.extractLsb' 4 2).toFin (isOne (md.extractLsb' 6 1)))
  | 0xb1 => some (.mxzero l)
  | 0xb2 => some (.mxst l tile (md.extractLsb' 4 4))
  | 0xb3 => some (.mxld l tile)
  | 0xb4 => if isOne (md.extractLsb' 4 1) then some (.mxwaitStall l (isOne (md.extractLsb' 5 1)))
    else some (.mxwaitSt l tile (isOne (md.extractLsb' 5 1)))
  | 0xb5 => some (.mxrel l)
  | 0xd0 => some (.lsrd l (md.extractLsb' 0 8) b8)
  | 0xd1 => some (.lswr l (md.extractLsb' 0 8) b8)
  | 0xd2 => if isOne (md.extractLsb' 0 1) then some (.spillwStk l) else some (.spillwWin l)
  | 0xd3 => if isOne (md.extractLsb' 0 1) then some (.fillwStk l) else some (.fillwWin l)
  | 0xd4 => some (.ctxsv l (isOne (md.extractLsb' 0 1)))
  | 0xd5 => some (.ctxrs l (isOne (md.extractLsb' 0 1)))
  | _ => none

/-- The LOP is listed (Table 2-11). -/
def laneOpcode (lop : BitVec 8) : Bool :=
  let n := lop.toNat
  let rng := fun (lo hi : Nat) => decide (lo ≤ n) && decide (n ≤ hi)
  rng 0x00 0x34 || rng 0x40 0x4C || rng 0x50 0x51 || rng 0x60 0x6A || rng 0x70 0x7A || rng 0x90 0x94
    || rng 0xA0 0xA9 || rng 0xB0 0xB5 || rng 0xD0 0xD5

/-! ## Encoding and decoding -/

/-- The 32-bit word of a scalar instruction. -/
def encodeScalar (i : Instr) : Option (BitVec 32) := (scalarParts i).map SRaw.pack

/-- The 96-bit word of a lane instruction. -/
def encodeLane (i : Instr) : Option (BitVec 96) :=
  (laneParts i).map fun p => (p.2.2.raw p.1 p.2.1).pack

/-- What decoding a word gives: an instruction, or a rejection that names the check that failed (R45). A field that is
wrong under a privileged opcode is kept apart, because in user mode privilege is checked before it. -/
inductive Decoded where
  | ok (i : Instr)
  | illegalOpcode
  | illegalField
  | illegalPrivField
deriving DecidableEq, Repr

/-- Decode a scalar word. Log entry 39 (DEDUCED). -/
def decodeScalar (w : BitVec 32) : Decoded :=
  let r := SRaw.unpack w
  if !scalarOpcode r then .illegalOpcode
  else
    match scalarParse r with
    | some i => if wellFormed i && decide (encodeScalar i = some w) then .ok i
      else if r.sop = 0x30 then .illegalPrivField else .illegalField
    | none => if r.sop = 0x30 then .illegalPrivField else .illegalField

/-- The lane opcodes that are privileged whatever their fields (R392); TRET has a rule of its own. -/
def lanePriv (lop : BitVec 8) : Bool := decide (0xD0 ≤ lop.toNat) && decide (lop.toNat ≤ 0xD5)

/-- TRET's LOP. -/
def laneTret (lop : BitVec 8) : Bool := decide (lop = 0xA6)

/-- Decode a lane word. Log entry 74 (DEDUCED). -/
def decodeLane (w : BitVec 96) : Decoded :=
  let r := LRaw.unpack w
  let bad := if lanePriv r.lop || laneTret r.lop then Decoded.illegalPrivField else .illegalField
  if !laneOpcode r.lop then .illegalOpcode
  else
    match r.lane with
    | none => bad
    | some l =>
      match laneParse r.lop r.md l with
      | some i => if wellFormed i && decide (encodeLane i = some w) then .ok i else bad
      | none => bad

/-- The instruction a rejection or an answer carries. -/
def Decoded.instr? : Decoded → Option Instr
  | .ok i => some i
  | _ => none

/-- The host's entry: the instruction whose bits are `w`, numbered as the opcode table numbers them. A row of at most
32 bits is a scalar word, a longer one a lane word. -/
def decodeTableWord (nbits w : Nat) : Option Instr :=
  if nbits ≤ 32 then (decodeScalar (BitVec.ofNat 32 w)).instr? else (decodeLane (BitVec.ofNat 96 w)).instr?

end Sys2Proof
end

