-- ==== Sys2Proof/Config.lean ====
section
/-! DEFINITION. What the manual leaves to a random source, to an implementation, or open: constants with no body. -/

namespace Sys2Proof.Config
open Sys2Proof

/-- The free values (log entry 7): the machine draws the next one by advancing a counter. -/
opaque freeValue : Nat → W64

/-- The free values of 512 bits: keys, digests and identities drawn from the random source (R84, R425, R427). -/
opaque freeBlock : Nat → BitVec 512

/-- Reading a 128-byte line under another key than it was stored under (R86): a function of the key it is read under,
the key it was stored under, the tweak and the stored plaintext. -/
opaque xtsCross : BitVec 512 → BitVec 512 → Nat → BitVec 1024 → BitVec 1024

/-- The L2 set of a physical line key (R101 states no index function). -/
opaque l2Set : Nat → Nat

/-- The set of a core TLB or die TLB for a page (R81 states no index function). -/
opaque tlbSet : Nat → Nat

/-- The link die, of two, whose ATC serves a host page (R78 does not say). -/
opaque linkDie : Nat → Nat

/-- The L1 set of a physical line key (R105 states no index function). -/
opaque l1Set : Nat → Nat

/-- The approximate functions (R231): operation, operand bits, result bits. -/
opaque approx : Nat → W32 → W32

/-- SHA3-512 (R428), over bytes. -/
opaque sha3 : List Byte → BitVec 512

/-- The SHA3-512 digest of the mask ROM image (R428). -/
opaque romDigest : BitVec 512

/-- The root key's SHA3-512 digest that the ROM holds, which names the root key (R428). -/
opaque rootDigest : BitVec 512

/-- The ML-DSA-87 signature that the holder of a key makes of a message (R428, R431; log entry 9). -/
opaque signature : BitVec 512 → List Byte → List Byte

/-- Other bytes that verify as a signature: key, message, signature (log entry 9). -/
opaque verifiesToo : BitVec 512 → List Byte → List Byte → Bool

/-- ML-DSA-87 verification: key, message bytes, signature bytes (R428, R431): the holder's signature verifies. -/
def verify (key : BitVec 512) (msg sig : List Byte) : Bool := decide (sig = signature key msg) || verifiesToo key msg sig

/-- ML-DSA-87 signing with the identity key (R429, R430). -/
opaque sign : BitVec 512 → List Byte → BitVec 512

/-- The fixed hash by which a source chooses a global link for the ordered class (R290). -/
opaque routeHash : Nat → Nat → Nat

end Sys2Proof.Config
end

