-- ==== Sys2Proof/Machine/State.lean ====
section
/-! DEFINITION. The state of a Sweren X4 as plain data: every piece of state INVENTORY.md lists, the reasons a step
can stop, and the state after reset. -/

namespace Sys2Proof.Machine

/-! ## Memory, page cache, leases (chapters 3 to 5) -/

/-- The states of a lease table entry (Table 3-3). -/
inductive LeaseState where
  | free | active | expired | revoking | revoked | lost
deriving DecidableEq, Repr

/-- One lease table entry (R55, Table 3-2). DIRTY is computed from the frames. `dueSent`: the LEASE_DUE record has
been posted (R57). `stale`: the slices (0 to 3) and cores (4 + core index) that have not yet received the
lease-valid clear (R58). `cleared`: TIME_NS at which the lease left ACTIVE. -/
structure Lease where
  id : W32 := 0
  node : BitVec 16 := 0
  loss : Bool := false
  shared : Bool := false
  st : LeaseState := .free
  base : W64 := 0
  len : W64 := 0
  expiry : W64 := 0
  warn : W64 := 0
  graceEnd : W64 := 0
  dueSent : Bool := false
  stale : List Nat := []
  cleared : W64 := 0
deriving DecidableEq, Repr

/-- A page-cache frame's tag (R88 to R95). `carved`: a space-3 carve-out (R92). `filling`: a fill is in flight;
`refetch`: the fill was overtaken by a snoop and is reissued (R64). `relaying`: the layout a relayout is moving to. -/
structure Frame where
  pfn : Nat := 0
  valid : Bool := false
  pinned : Bool := false
  carved : Bool := false
  layout : Nat := 0
  dirty : BitVec 256 := 0
  counter : BitVec 16 := 0
  filling : Bool := false
  refetch : Bool := false
  relaying : Option Nat := none
  poisoned : Bool := false
deriving DecidableEq, Repr

/-- A bank-group reservation of a bulk stream (R95): stack, channel, bank group, owning team and copy, start. -/
structure BankRes where
  stack : Nat
  channel : Nat
  group : Nat
  team : Nat
  copy : Nat
  since : W64
deriving DecidableEq, Repr

/-- A leaf as a translation holds it (Table 4-2). -/
structure Leaf where
  key : Nat := 0
  size : Nat := 0
  space : Nat := 0
  index : Nat := 0
  pd : Bool := false
  nc : Bool := false
  sro : Bool := false
  layout : Nat := 0
  glob : Bool := false
  user : Bool := false
  exec : Bool := false
  write : Bool := false
deriving DecidableEq, Repr

/-- A cached translation (R81): the page's first virtual address, its context tag, its leaf; `holder`: the core whose TLB
holds it, or 288 + d for the die TLB of compute die d. -/
structure TlbEntry where
  ctx : Nat
  page : Nat
  leaf : Leaf
  holder : Nat := 0
deriving DecidableEq, Repr

/-- A pointing entry in the walk cache of a compute die (R81): the level it was read at, the bits of the address it was read
for, and the table it points to. -/
structure WalkEntry where
  die : Nat
  ctx : Nat
  level : Nat
  tag : Nat
  table : Nat
deriving DecidableEq, Repr

/-- A host translation that ATS has granted (R78): the host page in 4 KiB units, and whether it may be written. -/
structure AtsGrant where
  hpage : Nat
  write : Bool
deriving DecidableEq, Repr

/-- An ATC entry: PASID, host page (4 KiB units of the virtual address), size in bytes, the grant. -/
structure AtcEntry where
  pasid : Nat
  page : Nat
  bytes : Nat
  ans : AtsGrant
deriving DecidableEq, Repr

/-- A Springbok group slot (R97 to R99). `priv`: it was taken in privileged mode; `core`: by a group of this core; `next`: number of the next 64 KiB frame
to look at. -/
structure Spring where
  live : Bool := false
  priv : Bool := false
  gen : Nat := 0
  ctx : Nat := 0
  base : W64 := 0
  pitch : W64 := 0
  rows : Nat := 0
  cols : Nat := 0
  size : Nat := 0
  core : Nat := 0
  prio : Nat := 0
  order : Nat := 0
  next : Nat := 0
  skipped : Nat := 0
deriving DecidableEq, Repr

/-- A line of L2 (R101 to R103, R308): the key id it was filled under, plaintext data, dirty, zero flag, the
owning core with its mask of owned words, the timestamps, and when it was last used. `remote`: a cached copy of a
peer's line, valid while RT ≤ rts. -/
structure L2Line where
  key : Nat := 0
  data : BitVec 1024 := 0
  dirty : Bool := false
  zero : Bool := false
  owner : Option Nat := none
  mask : BitVec 32 := 0
  wts : W48 := 0
  rts : W48 := 0
  remote : Bool := false
  use : Nat := 0
deriving DecidableEq, Repr

/-- A line of a core's L1 (R105): per-word valid, dirty and owned bits. `nc`: it came through a mapping with NC = 1. -/
structure L1Line where
  valid : BitVec 32 := 0
  dirty : BitVec 32 := 0
  owned : BitVec 32 := 0
  data : BitVec 1024 := 0
  key : Nat := 0
  nc : Bool := false
  use : Nat := 0
deriving DecidableEq, Repr

/-- Everything between a translated address and the pool. -/
structure Mem where
  /-- Pool bytes by pool physical address (R53). -/
  pool : SMap Byte := []
  /-- HBM bytes by device address: frame `f` at `f * 65536` (R92). -/
  hbm : SMap Byte := []
  /-- The key material each 128-byte line of the pool was written under (R85). -/
  poolKey : SMap (BitVec 512) := []
  /-- The key material each 128-byte line of HBM was written under (R85). -/
  hbmKey : SMap (BitVec 512) := []
  /-- Loaded keys (R84); key 0 is the device key. -/
  keys : SMap (BitVec 512) := []
  leases : SMap Lease := []
  /-- The hints of pool pages that LEASEOP has read last (R54). -/
  hints : SMap (BitVec 2) := []
  /-- Pool nodes lost (R57), and nodes that do not acknowledge a persistent flush (R67). -/
  lostNodes : List Nat := []
  deafNodes : List Nat := []
  /-- Page-cache frames by device frame number: set + 393,216 * way (R87, R92). -/
  frames : SMap Frame := []
  noframe : SMap W64 := []
  relayout : SMap W64 := []
  poolErr : SMap W64 := []
  bankRes : List BankRes := []
  tlb : List TlbEntry := []
  walks : List WalkEntry := []
  atc : List AtcEntry := []
  spring : SMap Spring := []
  springOrder : Nat := 0
  /-- L2 lines by physical line key. -/
  l2 : SMap L2Line := []
  /-- The largest rts evicted from each L2 slice (R308). -/
  evmax : SMap W48 := []
  /-- L1 lines by core * 2^90 + physical line key. -/
  l1 : SMap L1Line := []
  /-- Write-backs the pool has not yet accepted (R65, R88): pool address and length. -/
  unaccepted : List (Nat × Nat) := []
  /-- Counter halvings done (R89). -/
  halvings : Nat := 0
  /-- Recency clock of the caches. -/
  tick : Nat := 0
deriving DecidableEq, Repr

/-! ## Groups (chapters 2, 8, 9, 13, 19, 20) -/

/-- The mode a group runs both of its streams in (R392). -/
inductive Mode where
  | user | priv
deriving DecidableEq, Repr

/-- The state of a thread (R250). -/
inductive Life where
  | live | helper | retired
deriving DecidableEq, Repr

/-- A thread's trap bank (R396, Table 20-3). -/
structure TBank where
  cause : W32 := 0
  pc : W32 := 0
  val : W64 := 0
deriving DecidableEq, Repr

/-- What a group keeps per thread outside the register stack (R156, R250, R396). -/
structure Thr where
  life : Life := .retired
  preds : BitVec 8 := 0
  fpstat : W32 := 0
  xexited : Bool := false
  gen : W64 := 0
  tlevel : Nat := 0
  t1 : TBank := {}
  t2 : TBank := {}
  tlin : W32 := 0
deriving DecidableEq, Repr

/-- A reconvergence stack entry (R376, Table 19-2). -/
inductive RKind where
  | stk | div | call
deriving DecidableEq, Repr

/-- A reconvergence stack entry (R376, Table 19-2). -/
structure REntry where
  kind : RKind
  ja : W32
  fa : W32
  pm : W32
  am : W32
  id : BitVec 8
deriving DecidableEq, Repr

/-- What a suspended split waits for (R108, R270, R271, R79). -/
inductive Susp where
  | granule (team gran : Nat) | mxQueue | aLatch | translation
deriving DecidableEq, Repr

/-- Why a split does not run, or that it may (R375, Table 19-1). `trapped`: its handler runs; `held`: its trap waits
for the trap slot (R399). -/
inductive SMode where
  | ready | running | waitJoin | waitNext | sleeping
  | suspended (why : Susp) | parked (cause : Nat) | trapped | held (cause : Nat) (val : W64)
deriving DecidableEq, Repr

/-- An operand latch entry: who wrote it, how many more instructions it lives, one value per thread, and the cycle of the write
(R35 to R37). -/
structure Latch where
  gid : Nat := 0
  split : Nat := 0
  life : Nat := 0
  vals : SMap W32 := []
  cyc : Nat := 0
deriving DecidableEq, Repr

/-- The state of one split, or of one level of the trap slot (R375, R396, R416). `pos`: instructions of the current
run already done. `resuming`: the next instruction resumes at thread `rix`; `skipping`: and passes over it (R401).
`count`: the slot count of R128. `lat`: latch entries saved while the split is stopped. `args`: run arguments of a
trap slot. `inRom`: it stands at the ROM vector. `age`: when its next run became ready. `wake`: SLEEP's deadline;
`ev`: SLEEP's EV; `evSeen`: its event has come. Of an instruction that stopped: `part`: the hold copies the threads below
`rix` have made, `gmask`: which threads' guards were true, `ins`: the instruction, where its fetch succeeded, and
`whole`: it acted for the whole split (R398). -/
structure Split where
  pc : W32 := 0
  mask : W32 := 0
  wb : BitVec 8 := 0
  rd : Nat := 0
  spill : Nat := 0
  wsp : Nat := 0
  stack : List REntry := []
  mode : SMode := .ready
  pos : Nat := 0
  rix : Nat := 0
  resuming : Bool := false
  skipping : Bool := false
  count : Nat := 0
  lat : SMap Latch := []
  args : List W64 := []
  inRom : Bool := false
  age : Nat := 0
  sleeping : Bool := false
  wake : Option Nat := none
  ev : Bool := false
  evSeen : Bool := false
  yielded : Bool := false
  part : SMap (SMap W32) := []
  gmask : W32 := 0
  ins : Option Instr := none
  whole : Bool := false
deriving DecidableEq, Repr

/-- The trap slot (R398 to R400): the thread it serves and its levels, the current one first; `since`: the cycle it was taken in. -/
structure TSlot where
  thr : Nat
  levels : List Split
  since : Nat := 0
deriving DecidableEq, Repr

/-- A 32-bit register a far result goes to: thread and stack entry; `high`: it takes bits [63:32]. -/
structure FarDst where
  thr : Nat
  ent : Nat
  high : Bool := false
deriving DecidableEq, Repr

/-- How a loaded value is widened (R117). -/
inductive Ext where
  | zero | sign
deriving DecidableEq, Repr

/-- What a far result waits for (R122, R249). -/
inductive FarSrc where
  /-- The value is on its way. -/
  | value (v : W64)
  /-- The value is on its way straight from the pool, with no frame (R17, R91). -/
  | slow (v : W64)
  /-- A frame fill: read the bytes of physical line `line` under key id `key` when frame `f` is filled. -/
  | fill (f line key off bytes : Nat) (ext : Ext) (pol : Nat)
  /-- A tether request (space 1). -/
  | host (tag : Nat) (bytes : Nat) (ext : Ext)
  /-- A peer request (space 2). -/
  | peer (tag : Nat) (bytes : Nat) (ext : Ext)
  /-- An MXWAIT, in the command queue of the core. -/
  | matrix (tag : Nat)
deriving DecidableEq, Repr

/-- A far result in flight to lane registers. -/
structure Far where
  dsts : List FarDst
  src : FarSrc
deriving DecidableEq, Repr

/-- An entry of the decision queue (R158). -/
structure Run where
  start : W32
  args : List W64
deriving DecidableEq, Repr

/-- A mailbox slot: its value, its value at the last completed LQUIET, the values written since (R164, R165). -/
structure Mbox where
  cur : W64 := 0
  quiet : W64 := 0
  since : List W64 := []
deriving DecidableEq, Repr

/-- A bank of the scalar trap state (R397, R402). -/
structure SBank where
  cause : W64 := 0
  pc : W64 := 0
  val : W64 := 0
  saved : List W64 := []
deriving DecidableEq, Repr

/-- A scalar instruction that waits: the instruction, what it has captured, and an event it has seen. `tok`: a token
or operation number it waits on; `aux`: further captured words; `seen`: an event bit mask. `arrived`: a BAR's
arrival has been made (R343). -/
structure SWait where
  instr : Instr
  tok : Nat := 0
  aux : List W64 := []
  seen : W64 := 0
  arrived : Bool := false
deriving DecidableEq, Repr

/-- A fabric tag of a group (R292). -/
structure FTag where
  xfer : Nat
  nost : Bool
deriving DecidableEq, Repr

/-- Where CTXSV has written an image (R413): its address, and the context and core it was written for. -/
structure ImageAt where
  va : W64
  ctx : Nat
  core : Nat
deriving DecidableEq, Repr

/-- One group (R52, R152 to R166, R375, R392 to R403). `slot`: 0 to 7 active, 8 to 15 pending, none when off its
core. `jobs`: JOB numbers with their Eland job; `loaded`: CTXRS has loaded its image (R415); `snap`: the
registers of the saved image, `img`: where that stands; `runs`: how many runs it has enqueued. Of a pending group (R363, R368):
`readySince`: since when it has been ready, `waitSince`: since when its block has not fitted although enough granules are free.
`killed`: an illegal instruction has ended it, and it keeps its slot and registers until its team ends; `dying`: it is killed but for
the split that another lane still streams (R46). `slotFrom`: the first cycle a trap may enter the trap slot in (R399); `slotsHeld`: the
split slots in use when the cycle began (R391). -/
structure Group where
  team : Nat := 0
  idx : Nat := 0
  lp : Nat := 0
  slot : Option Nat := none
  granule : Option Nat := none
  ended : Bool := false
  mode : Mode := .user
  sreg : SMap W64 := []
  cond : BitVec 8 := 0
  spc : W64 := 0
  swait : Option SWait := none
  sparked : Option Nat := none
  srom : Bool := false
  stlevel : Nat := 0
  st1 : SBank := {}
  st2 : SBank := {}
  regs : SMap W32 := []
  dirty : BitVec 256 := 0
  thr : SMap Thr := []
  queue : List Run := []
  args : List W64 := []
  mbox : SMap Mbox := []
  splits : SMap Split := []
  tslot : Option TSlot := none
  divid : BitVec 8 := 0
  far : List Far := []
  ctximg : W64 := 0
  copies : Nat := 0
  tags : SMap FTag := []
  jobs : SMap Nat := []
  readySince : Option Nat := none
  waitSince : Option Nat := none
  loaded : Bool := false
  snap : SMap W32 := []
  runs : Nat := 0
  killed : Bool := false
  dying : Bool := false
  img : Option ImageAt := none
  slotFrom : Nat := 0
  slotsHeld : List Nat := []
deriving DecidableEq, Repr

/-! ## Teams, copies, tiles (chapters 5, 7, 14) -/

/-- The kinds of watched object (R112). -/
inductive WatchKind where
  | control | ring (n : Nat) | counter
deriving DecidableEq, Repr

/-- A watch-table entry of a team: its kind, data offset and length in bytes (R112). -/
structure Watch where
  kind : WatchKind
  off : Nat
  len : Nat
deriving DecidableEq, Repr

/-- A slice of a copy (R137, R139): its group and captured block; how far it has moved; how it ended. -/
structure Slice where
  grp : Nat
  blk : List W64 := []
  empty : Bool := false
  rejected : Bool := false
  unit : Nat := 0
  ended : Bool := false
  code : Nat := 0
  dropped : Bool := false
  parked : Option Nat := none
  /-- The outstanding host or peer request of the unit being moved, and when the unit was first refused. -/
  pend : Option Nat := none
deriving DecidableEq, Repr

/-- A team's copy (R139): number, and once open its ring, slot, STREAM and CLOSE. `due`: granules (team and number) with FE = 1 that
the copy still writes to, and which are set full with the last byte it writes there (R107). -/
structure Copy where
  num : Nat
  opened : Bool := false
  ring : Nat := 0
  slot : Nat := 0
  stream : Bool := false
  close : Bool := false
  slices : List Slice := []
  due : List (Nat × Nat) := []
deriving DecidableEq, Repr

/-- An accumulator tile: 32 x 128 elements by 128 * i + j, and its status word (R260, R267). -/
structure Tile where
  el : SMap W32 := []
  status : W32 := 0
deriving DecidableEq, Repr

/-- A kernel descriptor as LAUNCH decoded it (Table 18-7). -/
structure Kernel where
  sentry : W64 := 0
  lbase : W64 := 0
  pbytes : Nat := 0
  lunits : Nat := 0
  rings : Nat := 0
  bars : Nat := 1
  tiles : Nat := 0
  copyq : Nat := 1
  scrb : Nat := 1
  team : Nat := 1
  regs16 : Nat := 3
  gangf : Nat := 1
  gangp : Nat := 1
deriving DecidableEq, Repr

/-- Rows and scales of A held in an A-latch or captured by a command: byte `36 * (32 * step + row) + q`, the data
bytes first, then the four scales (R264, R271). -/
structure ARows where
  steps : Nat := 0
  bytes : SMap Byte := []
deriving DecidableEq, Repr

/-- A team (R361, R366). `stopping`: PREEMPT has been written; `stopped`: it has stopped; `saved`: it is off its core
(R414); `again`: the distributor has placed it again; `loaded`: CTXRS has loaded its team image (R415);
`snap`: the scratchpad of the saved image, `img`: where that stands. `const`: the
parameter bytes in the constant store (R126). `rows`: the A-latch image saved with its holder (R282). -/
structure Team where
  launch : Nat := 0
  ctx : Nat := 0
  lin : Nat := 0
  core : Nat := 0
  tslot : Nat := 0
  gang : Nat := 0
  gidx : Nat := 0
  first : Nat := 0
  size : Nat := 1
  kernel : Kernel := {}
  nthreads : Nat := 0
  teams : Nat := 0
  param : W64 := 0
  seed : W64 := 0
  const : SMap Byte := []
  scratch : SMap Byte := []
  full : SMap Bool := []
  watch : List Watch := []
  ringsFree : Nat := 0
  copies : List Copy := []
  tiles : SMap Tile := []
  gm : W64 := 0
  mxstall : W64 := 0
  rows : Option (Nat × ARows) := none
  stopping : Bool := false
  stopped : Bool := false
  saved : Bool := false
  again : Bool := false
  loaded : Bool := false
  snap : SMap Byte := []
  lost : Bool := false
  sysTeam : Bool := false
  img : Option ImageAt := none
deriving DecidableEq, Repr

/-- What a queued matrix command does (R270 to R278). -/
inductive MxOp where
  | loop (tile n : Nat) (za : Bool) (fmt : List W64) (bp : Nat) (rows : ARows) (lz : Bool)
  | zero (mask : BitVec 16)
  | ld (tile addr pitch : Nat)
  | st (tile nfmt rnd : Nat) (inf scl clr int fe : Bool) (addr pitch : Nat)
  | wait (stall : Bool) (tile : Nat) (clr : Bool) (tag : Nat)
  | rel (gid : Nat)
deriving DecidableEq, Repr

/-- A command of an MXE queue (R279). `latch`: it reads the A-latch of its group. `left`: steps of a started MXLOOP that have not
started. `due`: the cycle from which it may start; once started, the first cycle after the last engine cycle of what has started. -/
structure MxCmd where
  team : Nat
  gid : Nat
  op : MxOp
  latch : Bool := false
  started : Bool := false
  left : Nat := 0
  due : Nat := 0
deriving DecidableEq, Repr

/-- The A-latch of a core (R271). -/
structure ALatch where
  gid : Nat
  rows : ARows
deriving DecidableEq, Repr

/-- A lane pair (R246, R362, R363): the run in each lane (group and split), its latch entries, the waiting group
of a reserve state, the run served last. `claim`: the launch whose team being placed waits for a block, since when, and whether the
reserve state is for it. -/
structure LanePair where
  lane0 : Option (Nat × Nat) := none
  lane1 : Option (Nat × Nat) := none
  latch : SMap Latch := []
  reserve : Option Nat := none
  claim : Option (Nat × Nat × Bool) := none
  last : Nat := 0
deriving DecidableEq, Repr

/-- A core (R11, R454): whether it has failed or been spent as a spare, the physical core that serves it where the repair map has said (die × 72 +
physical core), its MXE. -/
structure Core where
  failed : Bool := false
  phys : Option Nat := none
  mxq : List MxCmd := []
  alatch : Option ALatch := none
deriving DecidableEq, Repr

/-- A die's power-token ring (R280): the count firmware set, the cluster and arrival cycle of each token. -/
structure Ring where
  count : Nat := 0
  tokens : List (Nat × Nat) := []
deriving DecidableEq, Repr

/-! ## Contexts, queues, launches (chapter 18) -/

/-- A context (Table 18-6) with its status (R397), logical times (R308). `torn`: it has been destroyed (R355). -/
structure Context where
  root : W64 := 0
  fpen : BitVec 6 := 0
  pasid : Nat := 0
  tvecUs : W64 := 0
  tvecUl : W64 := 0
  mcnt : Nat := 0
  mfirst : Nat := 0
  ftag : Nat := 0
  bstore : W64 := 0
  bsize : W64 := 0
  illegal : Bool := false
  latch : Bool := false
  fabric : Bool := false
  killed : Bool := false
  torn : Bool := false
  cause : BitVec 6 := 0
  sigfault : W32 := 0
  rt : W48 := 0
  maxw : W48 := 0
deriving DecidableEq, Repr

/-- A work queue (Table 18-1). `wait`: the number of the WAIT command that holds it. -/
structure Queue where
  v : Bool := false
  base : W64 := 0
  ctx : Nat := 0
  log2n : Nat := 0
  weight : Nat := 0
  prio : Nat := 0
  devq : Bool := false
  priv : Bool := false
  rpaddr : W64 := 0
  rptr : W32 := 0
  wptr : W32 := 0
  overrun : W32 := 0
  wait : Option Nat := none
deriving DecidableEq, Repr

/-- A command in flight (R352): its queue (none for PRIVCMD), whether it is privileged (R457), its eight words, its progress,
the teams it has stopped (R414), and its status once it has one and its signal is still to be written. -/
structure Cmd where
  num : Nat
  queue : Option Nat
  ctx : Nat
  words : List W64
  priv : Bool := false
  launch : Option Nat := none
  pos : Nat := 0
  stops : List Nat := []
  fin : Option Nat := none
deriving DecidableEq, Repr

/-- A gang cut from a launch (R365). -/
structure Gang where
  first : Nat
  size : Nat
  pref : Bool
deriving DecidableEq, Repr

/-- A launch in progress (R358 to R366): `next`: the first team not yet placed; `redo`: teams to start again (R418);
`tabBad`: the gang table cannot be written. -/
structure Launch where
  cmd : Nat
  ctx : Nat
  prio : Nat
  kernel : Kernel
  param : W64
  bytes : SMap Byte
  seed : W64
  restart : Bool
  nthreads : Nat
  teams : Nat
  gangtab : W64
  next : Nat := 0
  gangs : List Gang := []
  fallback : Bool := false
  nofit : Bool := false
  tabBad : Bool := false
  lost : Bool := false
  redo : List Nat := []
deriving DecidableEq, Repr

/-- A read pointer that is still to be written to its RPADDR (R349): its queue's context and privilege, the address, the value. -/
structure RptrWrite where
  ctx : Nat
  priv : Bool
  addr : W64
  val : W32
deriving DecidableEq, Repr

/-- The command processor's turns (R360): at each level the queue served last and the commands left of its turn; `due`: the read
pointers to write, oldest first. -/
structure CmdProc where
  last : SMap Nat := []
  left : SMap Nat := []
  due : List RptrWrite := []
deriving DecidableEq, Repr

/-- The pager queue (R61, R397): base, records posted, records taken; records that wait for a place. -/
structure Pager where
  base : W64 := 0
  put : W32 := 0
  take : W32 := 0
  waiting : List (List W64) := []
deriving DecidableEq, Repr

/-! ## Fabric, Eland (chapters 15, 16) -/

/-- The direction state of a link (R285 to R288, R311). -/
inductive LinkPhase where
  | up | draining | dark | relock | down
deriving DecidableEq, Repr

/-- A message handed to the links: its destination device, virtual channel, how many flits are left, what it carries
(`words`: for a request 1 and a transfer and packet, 2 and an access, 3 and a job, chunk and packet, each with RT; for a reply 0, a
status, offset and times; none for a packet that only passes through), the bytes. `started`: its first flit has left. `src`: the
device it comes from; `via`: the group its Valiant route goes through first; `holds`: the link and channel whose slots a passing
packet still keeps (R288, R311); `all`: its flits. -/
structure OutMsg where
  num : Nat
  dst : Nat
  vc : Nat
  flits : Nat
  started : Bool := false
  words : List W64 := []
  body : SMap Byte := []
  src : Nat := 0
  via : Option Nat := none
  holds : Option (Nat × Nat) := none
  all : Nat := 0
deriving DecidableEq, Repr

/-- A link of the device (R285 to R288): sent and received sequence numbers, retry count for one SEQ and that SEQ, the last 512
flits kept (SEQ and virtual channel), flits sent and slots returned per virtual channel, slots returned to the far end,
the messages queued on it, the drain markers received and (`marksOut`) sent, and when the last valid flit came. `asked`: the
retry requests it has sent; `resend`: flits to send again; `through`: of a packet that passes through, by channel, how many flits are
still to come and its message; `initDue`: its own INIT header is still to be sent (R311). -/
structure Link where
  phase : LinkPhase := .down
  seq : BitVec 16 := 0
  ack : BitVec 16 := 0
  discarding : Bool := false
  retries : Nat := 0
  retrySeq : BitVec 16 := 0
  kept : List (BitVec 16 × Nat) := []
  sent : SMap (BitVec 16) := []
  ret : SMap (BitVec 16) := []
  mine : SMap (BitVec 16) := []
  marks : List Nat := []
  marksOut : List Nat := []
  queue : List OutMsg := []
  lastValid : W64 := 0
  asked : List (BitVec 16) := []
  resend : List (BitVec 16 × Nat) := []
  through : SMap (Nat × OutMsg) := []
  initDue : Bool := false
deriving DecidableEq, Repr

/-- The state of a packet (R295 to R301). `sent`: on its way since t. `retry`: refused, for the first time at `first` and n times in
all; it is sent again at `due`. `again`: on its way once more since t. `got`: what it asked for has come, and waits for a
translation of its local side. `gone`: discarded unsent when its context was killed (R310). -/
inductive PktState where
  | gone | unsent | sent (t : W64) | retry (first due : W64) (n : Nat) | again (t first : W64) (n : Nat) | got
  | acked (watch : Bool) | failed (code off : Nat)
deriving DecidableEq, Repr

/-- A packet of a transfer: member it goes to, its offset and length in the transfer; once it is sent, the device it
went to and the bytes it carries. -/
structure Pkt where
  member : Nat
  off : Nat
  len : Nat
  st : PktState := .unsent
  dst : Nat := 0
  body : List Byte := []
deriving DecidableEq, Repr

/-- The bulk commands (R292). -/
inductive XferKind where
  | put (addr : Bool) | get | atom (op : Nat) | mcast
deriving DecidableEq, Repr

/-- A fabric transfer (R292 to R302): issuer, captured operand block, policy, members, packets. `old`: an FATOM's old value
once it is known; for an FMCAST, that its status array has been written, 1 where watched bytes were dropped. `after`: the runs of its
group that come before its fork (R309). -/
structure Xfer where
  gid : Nat
  team : Nat
  ctx : Nat
  mode : Mode
  kind : XferKind
  pol : Nat
  ops : List W64
  members : List Nat
  pkts : List Pkt
  nost : Bool
  old : Option W64 := none
  after : Nat := 0
deriving DecidableEq, Repr

/-- Who waits for a host or peer request (R306, R423). `prefl`: a prefetch of a group with a policy (R129). -/
inductive Waiter where
  | far (gid : Nat) | store (ctx : Nat) | scalar (gid : Nat) | copy (team copy grp : Nat)
  | xfer (n : Nat) | eland (job : Nat) | xlat (gid slot : Nat) | cmd (n : Nat) | engine | prefl (gid pol : Nat)
deriving DecidableEq, Repr

/-- An access that waits for a translation request (R82): whose it is, of which context, on which core, its address, whether it writes. -/
structure Joined where
  waiter : Waiter
  ctx : Nat
  core : Nat
  va : W64
  write : Bool
deriving DecidableEq, Repr

/-- What a host or peer request asks for. -/
inductive ReqKind where
  | read | write | atom (op : Nat) (ty : ATy) | ats | pri
deriving DecidableEq, Repr

/-- An outstanding request to a peer's memory (R306, R456) or over the host tether (R421). `ans`: the value that came
back, `line`: a whole line that came back; `refusedAt`: the first retry-later refusal; `due`: when it is sent again;
`tries`; `body`: the bytes of a write; `pol`: the cache policy of a read. `pasid` and `die`: the PASID a translation was asked
for under and the die whose TLB asked, `joined`: the accesses that wait for it (R82). `stale`: a later store of the device has written the line a read asks for
(R120); `l1`: the core whose L1 the line goes to as well; `acq`: the lane thread whose acquire follows an atomic (R134);
`rt`: the context's RT when the request left (R308). -/
structure Req where
  kind : ReqKind
  waiter : Waiter
  ctx : Nat
  peer : Nat := 0
  va : W64 := 0
  addr : Nat := 0
  bytes : Nat := 0
  data : W64 := 0
  cmp : W64 := 0
  sent : W64 := 0
  refusedAt : Option W64 := none
  due : W64 := 0
  tries : Nat := 0
  ans : Option W64 := none
  line : Option (BitVec 1024) := none
  body : List Byte := []
  parked : Bool := false
  pol : Nat := 0
  pasid : Nat := 0
  die : Nat := 0
  joined : List Joined := []
  stale : Bool := false
  l1 : Option Nat := none
  acq : Option Nat := none
  rt : W48 := 0
deriving DecidableEq, Repr

/-- An entry of the window table (R303). -/
structure Window where
  ftag : Nat
  wtag : Nat
  team : Nat
  counter : Nat
  base : Nat
  len : Nat
deriving DecidableEq, Repr

/-- The fabric of the device. -/
structure Fabric where
  devid : Nat := 0
  linkMap : SMap Nat := []
  links : SMap Link := []
  /-- Usable group links by fabric group, and local links up by member (R289). -/
  routes : SMap (List Nat) := []
  localUp : SMap Bool := []
  /-- By target group, the groups with usable links to it (R289), and the device ids that name no installed device (R283). -/
  mids : SMap (List Nat) := []
  absent : List Nat := []
  windows : List Window := []
  mcast : SMap (Nat × List Nat) := []
  xfers : SMap Xfer := []
  nextXfer : Nat := 0
  reqs : SMap Req := []
  nextReq : Nat := 0
  nextMsg : Nat := 0
deriving DecidableEq, Repr

/-- A device entry of a layout record (Table 16-2). -/
structure LDev where
  cnt : Bool
  wtag : Nat
  dev : Nat
  base : W64
deriving DecidableEq, Repr

/-- A captured layout record (Table 16-1). -/
structure Layout where
  esize : Nat
  dims : List Nat
  axes : List Nat
  maps : List (Option Nat)
  devs : List LDev
deriving DecidableEq, Repr

/-- The state of a chunk Eland has issued: the next packet to send, packets not yet acknowledged, its failure. -/
structure Chunk where
  num : Nat
  pkts : List Pkt
deriving DecidableEq, Repr

/-- An Eland job (R320 to R327). `wfail`: the status of a write of the progress block that has failed; `block`: the
block's address; `after`: the runs of its group that come before its fork (R324); `pend`: block images not yet written, oldest first;
`closed`: its last change has been made, and only the writes are left. -/
structure Job where
  gid : Nat
  team : Nat
  ctx : Nat
  mode : Mode
  src : Layout
  dst : Layout
  block : W64
  fp : W64
  total : Nat
  acked : Nat
  above : W64
  failed : Nat
  st : Nat
  status : Nat
  bytes : W64
  chunks : List Chunk := []
  watched : Bool := false
  stopping : Bool := false
  wfail : Option Nat := none
  final : Bool := false
  after : Nat := 0
  pend : List (List W64) := []
  closed : Bool := false
deriving DecidableEq, Repr

/-! ## Host, boot, management (chapter 21) -/

/-- The tether state (R422). -/
inductive Tether where
  | attached | lost | replay
deriving DecidableEq, Repr

/-- A write parked while the host is lost (R424). -/
structure Parked where
  ctx : Nat
  addr : W64
  bytes : List Byte
  req : Nat
  sent : Bool := false
deriving DecidableEq, Repr

/-- An answer a party has still to see (R79, R142, R423): the party, the context and 4 KiB page it used, whether to write it, and the
cause its access takes. -/
structure Denial where
  waiter : Waiter
  ctx : Nat
  page : Nat
  write : Bool
  cause : Nat
deriving DecidableEq, Repr

/-- An ATS invalidation (R80): its range, and the requests its completion waits for until they have reached the tether. -/
structure Inval where
  pasid : Nat
  page : Nat
  bytes : Nat
  tags : List Nat
deriving DecidableEq, Repr

/-- Host tether state (R420 to R424). `invals`: invalidations without their completion yet, `completed`: the ranges of the
Invalidation Completions sent (R80). -/
structure HostLink where
  tether : Tether := .attached
  lastBeat : W64 := 0
  deadline : W64 := 0
  parked : List Parked := []
  parkFrames : Nat := 0
  reqs : SMap Req := []
  nextTag : Nat := 0
  waiting : List Nat := []
  denials : List Denial := []
  invals : List Inval := []
  completed : List (Nat × Nat × Nat) := []
deriving DecidableEq, Repr

/-- The SPDM responder (R429): version read, algorithms negotiated, responses sent (a code and words). -/
structure Spdm where
  version : Bool := false
  caps : Bool := false
  algos : Bool := false
  failed : Bool := false
  sent : List (Nat × List W64) := []
deriving DecidableEq, Repr

/-- Boot logic and Chamois (R425 to R433). -/
structure Boot where
  /-- The power-on reset has been taken. -/
  on : Bool := false
  ready : BitVec 21 := 0
  taken : Bool := false
  bootid : W64 := 0
  meas0 : BitVec 512 := 0
  meas1 : BitVec 512 := 0
  idKey : BitVec 512 := 0
  operKey : BitVec 512 := 0
  cert : BitVec 512 := 0
  spdm : Spdm := {}
  lastSeq : W64 := 0
  /-- Chamois responses sent: command, status, payload. -/
  responses : List (Nat × Nat × List W64) := []
  powerLimit : Nat := 2000
  throttled : Bool := false
  coreOff : Bool := false
deriving DecidableEq, Repr

/-! ## The whole machine -/

/-- Who takes a turn: a group's scalar stream, a lane of a lane pair, or a device event. -/
inductive Who where
  | scalar (gid : Nat)
  | lane (core lp ln : Nat)
  | event (e : Instr)
deriving DecidableEq, Repr

/-- A turn: how far device time and the core clock advance before it, and who takes it. -/
structure Turn where
  dns : Nat
  dcyc : Nat
  who : Who
deriving DecidableEq, Repr

/-- The machine. `agenda`, `cur` and `free` are the model's own fields: whose steps come next, the group and split
exec acts for (split 4 is the trap slot), and the counter of free values. -/
structure State where
  agenda : List Turn := []
  curGid : Nat := 0
  curSlot : Nat := 0
  free : Nat := 0
  timeNs : W64 := 0
  cycle : Nat := 0
  mem : Mem := {}
  groups : SMap Group := []
  nextGid : Nat := 0
  teams : SMap Team := []
  nextTeam : Nat := 0
  lanePairs : SMap LanePair := []
  cores : SMap Core := []
  rings : SMap Ring := []
  contexts : SMap Context := []
  queues : SMap Queue := []
  cmds : List Cmd := []
  nextCmd : Nat := 0
  launches : SMap Launch := []
  nextLaunch : Nat := 0
  cp : CmdProc := {}
  pager : Pager := {}
  fabric : Fabric := {}
  jobs : SMap Job := []
  nextJob : Nat := 0
  host : HostLink := {}
  boot : Boot := {}
deriving DecidableEq, Repr

/-- Why the machine stops. -/
inductive Fault where
  /-- STRET or TRET at trap level 0 in privileged mode (R401, R403): there is no bank to return from, and the manual
  gives no effect. Raised by the return instructions. Safe: the run stops where the manual says nothing. -/
  | returnAtLevelZero
deriving DecidableEq, Repr

/-- Why a step has no meaning. -/
inductive Refusal where
  /-- No meaning has been written for the instruction. Raised by an arm of exec. Safe. -/
  | notModelled (mnemonic : String)
  /-- A turn of the agenda names an encoded instruction as if it were a device event. Raised by step. Safe: no
  hardware behaviour corresponds to such a turn. -/
  | notAnEvent
deriving DecidableEq, Repr

/-- The machine right after reset: no context, no team, no queue, no lease, nothing in memory, READY 0. What the
manual gives no value for is as log entries 2, 3 and 4 say. -/
def State.reset : State := {}

end Sys2Proof.Machine
end

