-- ==== Sys2Proof/Machine/Ops.lean ====
section
/-! DEFINITION. The named operations over the state: tables, scalar and lane registers, scratchpad and watched
objects, barriers, ending and killing groups and contexts, taking a trap and returning from one. -/

namespace Sys2Proof.Machine

/-- The outcome of a meaning. -/
abbrev Out := Host.Outcome State Fault Refusal

/-! ## Tables of the state -/

/-- A group; an unlisted number reads as a group with nothing in it. -/
def State.group (s : State) (g : Nat) : Group := s.groups.get {} g
/-- Replace a group. -/
def State.setGroup (s : State) (g : Nat) (x : Group) : State := { s with groups := s.groups.insert g x }
/-- Change a group. -/
def State.modGroup (s : State) (g : Nat) (f : Group → Group) : State := s.setGroup g (f (s.group g))
/-- A team. -/
def State.team (s : State) (t : Nat) : Team := s.teams.get {} t
/-- Replace a team. -/
def State.setTeam (s : State) (t : Nat) (x : Team) : State := { s with teams := s.teams.insert t x }
/-- Change a team. -/
def State.modTeam (s : State) (t : Nat) (f : Team → Team) : State := s.setTeam t (f (s.team t))
/-- A context. -/
def State.context (s : State) (c : Nat) : Context := s.contexts.get {} c
/-- Replace a context. -/
def State.setContext (s : State) (c : Nat) (x : Context) : State := { s with contexts := s.contexts.insert c x }
/-- Change a context. -/
def State.modContext (s : State) (c : Nat) (f : Context → Context) : State := s.setContext c (f (s.context c))
/-- A core. -/
def State.core (s : State) (c : Nat) : Core := s.cores.get {} c
/-- Replace a core. -/
def State.setCore (s : State) (c : Nat) (x : Core) : State := { s with cores := s.cores.insert c x }
/-- Change a core. -/
def State.modCore (s : State) (c : Nat) (f : Core → Core) : State := s.setCore c (f (s.core c))
/-- A lane pair of a core. -/
def State.lanePair (s : State) (c lp : Nat) : LanePair := s.lanePairs.get {} (c * 16 + lp)
/-- Replace a lane pair. -/
def State.setLanePair (s : State) (c lp : Nat) (x : LanePair) : State :=
  { s with lanePairs := s.lanePairs.insert (c * 16 + lp) x }
/-- A queue. -/
def State.queue (s : State) (q : Nat) : Queue := s.queues.get {} q
/-- Replace a queue. -/
def State.setQueue (s : State) (q : Nat) (x : Queue) : State := { s with queues := s.queues.insert q x }

/-- The group exec acts for. -/
def State.cur (s : State) : Group := s.group s.curGid
/-- Change the group exec acts for. -/
def State.modCur (s : State) (f : Group → Group) : State := s.modGroup s.curGid f
/-- The team of the group exec acts for. -/
def State.curTeam (s : State) : Team := s.team s.cur.team
/-- The context of a group. -/
def State.ctxOf (s : State) (g : Nat) : Nat := (s.team (s.group g).team).ctx
/-- The core of a group. -/
def State.coreOf (s : State) (g : Nat) : Nat := (s.team (s.group g).team).core

/-- The next free value (log entry 7): the counter moves on. -/
def State.draw (s : State) : W64 × State := (Config.freeValue s.free, { s with free := s.free + 1 })

/-- The compute die of a core index (R10, R454): user cores 0 to 255 and spares by their physical place, system core
256 + d on die d. -/
def dieOf (core : Nat) : Nat := if core < 256 then core / 64 else if core < 260 then core - 256 else (core - 260) / 7

/-- The physical core that serves a core index, as die × 72 + physical core (R454): as the repair map says; without one,
a die's 64 user cores, its system core and its 7 spares in this order (log entry 16). -/
def State.physOf (s : State) (core : Nat) : Nat :=
  ((s.core core).phys).getD
    (if core < 256 then core / 64 * 72 + core % 64 else if core < 260 then (core - 256) * 72 + 64
     else (core - 260) / 7 * 72 + 65 + (core - 260) % 7)

/-! ## Scalar registers (R22, R152) -/

/-- Read a scalar register; s0 reads zero. -/
def Group.sread (g : Group) (r : BitVec 6) : W64 := if r = 0 then 0 else g.sreg.get 0 r.toNat
/-- Write a scalar register; a write to s0 is discarded. -/
def Group.swrite (g : Group) (r : BitVec 6) (v : W64) : Group :=
  if r = 0 then g else { g with sreg := g.sreg.put 0 r.toNat v }
/-- Read a condition bit; c0 is true. -/
def Group.cread (g : Group) (n : Fin 8) : Bool := decide (n = 0) || g.cond.getLsbD n.val
/-- Write a condition bit; c0 keeps reading true. -/
def Group.cwrite (g : Group) (n : Fin 8) (b : Bool) : Group :=
  if n = 0 then g
  else { g with cond := (g.cond &&& ~~~(1#8 <<< n.val)) ||| (if b then 1#8 <<< n.val else 0) }

/-- A group executes: it is in an active slot of its core, and its team has not been stopped (R367, R414). -/
def State.executes (s : State) (gid : Nat) : Bool :=
  let g := s.group gid
  let t := s.team g.team
  !g.ended && !g.dying && !t.stopped && !t.saved && ((g.slot.map fun n => decide (n < 8)).getD false)

/-- The scalar instruction the current group waits in, while its wait can end (R367). -/
def State.waiting (s : State) : Option SWait := if s.executes s.curGid then s.cur.swait else none

/-- Read a scalar register of the current group. -/
def State.sread (s : State) (r : BitVec 6) : W64 := s.cur.sread r
/-- The register a fixed distance above another, as operand blocks use it. -/
def State.sreadAt (s : State) (r : BitVec 6) (i : Nat) : W64 := s.cur.sread (r + BitVec.ofNat 6 i)
/-- Write a scalar register of the current group. -/
def State.swrite (s : State) (r : BitVec 6) (v : W64) : State := s.modCur fun g => g.swrite r v
/-- The scalar stream goes on with the next word. -/
def State.bump (s : State) : State := s.modCur fun g => { g with spc := g.spc + 4, swait := none }
/-- A scalar instruction that writes one register and goes on. -/
def State.sput (s : State) (r : BitVec 6) (v : W64) : State := (s.swrite r v).bump
/-- The scalar stream jumps. -/
def State.sjump (s : State) (pc : W64) : State := s.modCur fun g => { g with spc := pc, swait := none }
/-- The scalar stream stays at its instruction and waits (R371). -/
def State.swaitOn (s : State) (w : SWait) : State := s.modCur fun g => { g with swait := some w }

/-! ## Bytes -/

/-- The little-endian bytes of a number (R1). -/
def leBytes : Nat → Nat → List Byte
  | 0, _ => []
  | n + 1, v => BitVec.ofNat 8 v :: leBytes n (v / 256)

/-- The number little-endian bytes spell (R1). -/
def ofLeBytes : List Byte → Nat
  | [] => 0
  | b :: bs => b.toNat + 256 * ofLeBytes bs

/-- `n` bytes of a sparse memory from an address up; an unlisted byte reads as zero (log entry 2). -/
def rdBytes (m : SMap Byte) (a : Nat) : Nat → List Byte
  | 0 => []
  | n + 1 => m.get 0 a :: rdBytes m (a + 1) n

/-- Write bytes into a sparse memory from an address up. -/
def wrBytes (m : SMap Byte) (a : Nat) : List Byte → SMap Byte
  | [] => m
  | b :: bs => wrBytes (m.put 0 a b) (a + 1) bs

/-- Read a little-endian number. -/
def rdNat (m : SMap Byte) (a n : Nat) : Nat := ofLeBytes (rdBytes m a n)
/-- Write a little-endian number. -/
def wrNat (m : SMap Byte) (a n v : Nat) : SMap Byte := wrBytes m a (leBytes n v)

/-- Bits `[hi:lo]` of a word, as a number. -/
def wbits (x : W64) (lo n : Nat) : Nat := x.toNat / 2 ^ lo % 2 ^ n

/-- A word as a signed number. -/
def sext (x : W64) (n : Nat) : Int :=
  let v := x.toNat % 2 ^ n
  if 2 * v < 2 ^ n then v else (v : Int) - 2 ^ n

/-! ## Scratchpad and its watched objects (R106 to R114) -/

/-- Bytes of a team's allocation (R104). -/
def Team.size' (t : Team) : Nat := t.kernel.scrb * 65536
/-- Read a number of a team's scratchpad. -/
def Team.rd (t : Team) (off n : Nat) : Nat := rdNat t.scratch off n
/-- Write a number into a team's scratchpad. -/
def Team.wr (t : Team) (off n v : Nat) : Team := { t with scratch := wrNat t.scratch off n v }
/-- A byte lies in a watched object (R113). -/
def Team.watched (t : Team) (off : Nat) : Bool :=
  t.watch.any fun w => decide (w.off ≤ off) && decide (off < w.off + w.len)
/-- Some byte of an extent is watched. -/
def Team.touches (t : Team) (off n : Nat) : Bool :=
  t.watch.any fun w => decide (w.off < off + n) && decide (off < w.off + w.len)
/-- An extent overlaps a watched object other than the one of the same kind at the same offset (R112). Log entry 40 (DEDUCED). -/
def Team.clashes (t : Team) (mine : Watch → Bool) (off n : Nat) : Bool :=
  t.watch.any fun w => !mine w && decide (w.off < off + n) && decide (off < w.off + w.len)
/-- The granule of an offset is full (R107). -/
def Team.isFull (t : Team) (gran : Nat) : Bool := t.full.get false gran
/-- Set or clear a granule's full/empty bit. -/
def Team.setFull (t : Team) (gran : Nat) (b : Bool) : Team := { t with full := t.full.put false gran b }
/-- The offset of a ring's header, once initialised. -/
def Team.ring? (t : Team) (n : Nat) : Option Nat := (t.watch.find? fun w => decide (w.kind = .ring n)).map (·.off)
/-- An arrival counter of the team starts at an offset. -/
def Team.hasCounter (t : Team) (off : Nat) : Bool :=
  t.watch.any fun w => decide (w.kind = .counter) && decide (w.off = off)

/-- What a scalar wait sees of an event at the scratchpad: SLEEPS.ev does not see one that comes once its deadline has
been reached (R347). Log entry 86 (DEDUCED). -/
def SWait.see (w : SWait) (now : W64) : SWait :=
  match w.instr, w.aux with
  | .sleeps _ _ _, [d] => if d ≠ 0 ∧ d.toNat ≤ now.toNat then w else { w with seen := w.seen ||| 1 }
  | .sleeps _ _ _, _ => { w with seen := w.seen ||| 1 }
  | _, _ => w

/-! ### Waits on rings and counters (R147, R304) -/

/-- RPTR of the ring whose header is at an offset. -/
def Team.rptr (t : Team) (h : Nat) : Nat := t.rd h 4
/-- WPTR. -/
def Team.wptr (t : Team) (h : Nat) : Nat := t.rd (h + 4) 4
/-- SLOTS. -/
def Team.slots (t : Team) (h : Nat) : Nat := t.rd (h + 11) 1 + 1
/-- STATUS of a slot. -/
def Team.slotStatus (t : Team) (h i : Nat) : Nat := t.rd (h + 32 + 4 * i) 1
/-- Slots completed and not released. -/
def Team.ringUsed (t : Team) (h : Nat) : Nat := (t.wptr h + 2 ^ 32 - t.rptr h) % 2 ^ 32

/-- What RAWAIT returns once slot RPTR + n has completed (R147). -/
def Team.rawait (t : Team) (h n : Nat) : Option W64 :=
  if n < t.ringUsed h then
    let q := (t.rptr h + n) % 2 ^ 32
    let i := q % t.slots h
    some (BitVec.ofNat 64 (q * 2 ^ 32 + i * 256 + t.slotStatus h i))
  else none

/-- What ACWAIT returns once COUNT has reached TARGET or ERR is set. -/
def Team.acwait (t : Team) (off : Nat) : Option W64 :=
  if t.rd (off + 16) 8 % 2 = 1 then some 0x20 else if t.rd (off + 8) 8 ≤ t.rd off 8 then some 0 else none

/-- A wait on a ring or a counter of the team takes its result in the first moment its condition holds (R147, R149, R304, R305). -/
def SWait.takes (w : SWait) (t : Team) : SWait :=
  match w.instr, w.aux with
  | .rawait _ _, [n] => match (t.ring? w.tok).bind fun h => t.rawait h n.toNat with
    | some v => { w with aux := [n, v] }
    | none => w
  | .acwait _ _, [] => match t.acwait w.tok with
    | some v => { w with aux := [v] }
    | none => w
  | _, _ => w

/-- A group's wait on a ring or a counter takes its result. -/
def Group.takes (g : Group) (t : Team) : Group := { g with swait := g.swait.map fun w => w.takes t }

/-- A watched object was updated or a full/empty bit of the team changed: SLEEPS.ev streams and SLEEP.ev splits of
its groups have seen an event (R347, R390). Log entry 86 (DEDUCED). -/
def wakeGroup (now : W64) (g : Group) : Group :=
  let see := fun (x : Split) => if x.ev then { x with evSeen := true } else x
  { g with
    swait := g.swait.map fun w => w.see now,
    splits := g.splits.map (fun p => (p.1, see p.2)),
    tslot := g.tslot.map (fun t => { t with levels := t.levels.map see }) }

/-- Tell every group of a team of an event at its scratchpad: one update ends every wait on the object whose condition now holds.
Log entries 47 (DEDUCED), 86 (DEDUCED). -/
def State.teamEvent (s : State) (t : Nat) : State :=
  { s with groups := s.groups.map fun p => if p.2.team = t then (p.1, wakeGroup s.timeNs (p.2.takes (s.team t))) else p }

/-- Replace a team whose scratchpad has been written: a full/empty bit that has changed wakes its SLEEPS (R347). Log entry 86 (DEDUCED). -/
def State.setTeamFe (s : State) (i : Nat) (t : Team) : State :=
  if t.full = (s.team i).full then s.setTeam i t else (s.setTeam i t).teamEvent i

/-- Write bytes that leave watched bytes out (R113): the team after it, and whether a watched byte was dropped. -/
def Team.putBytes (t : Team) (off : Nat) (bytes : List Byte) : Team × Bool :=
  if t.touches off bytes.length then
    ((bytes.zipIdx).foldl (fun t p => if t.watched (off + p.2) then t
      else { t with scratch := t.scratch.put 0 (off + p.2) p.1 }) t, true)
  else ({ t with scratch := wrBytes t.scratch off bytes }, false)

/-- The granules an extent touches (R107). -/
def granules (off n : Nat) : List Nat := if n = 0 then [] else (List.range ((off + n - 1) / 16 - off / 16 + 1)).map (off / 16 + ·)

/-- Set the full/empty bits of the granules an extent touches; those of watched granules stay (R113). -/
def Team.fillGranules (t : Team) (off n : Nat) : Team :=
  (granules off n).foldl (fun t g => if t.touches (16 * g) 16 then t else t.setFull g true) t

/-! ### Barrier words (Table 5-2) -/

/-- PHASE of barrier word b. -/
def Team.phase (t : Team) (b : Nat) : Nat := t.rd (16 * b + 4) 4
/-- EXPECTED of barrier word b. -/
def Team.expected (t : Team) (b : Nat) : Nat := t.rd (16 * b + 2) 2 % 64
/-- ARRIVED of barrier word b. -/
def Team.arrived (t : Team) (b : Nat) : Nat := t.rd (16 * b) 2 % 64
/-- MASK of barrier word b. -/
def Team.bmask (t : Team) (b : Nat) : W32 := BitVec.ofNat 32 (t.rd (16 * b + 8) 4)
/-- Write a barrier word. -/
def Team.setBar (t : Team) (b phase expected arrived : Nat) (mask : W32) : Team :=
  let bytes := leBytes 2 arrived ++ leBytes 2 expected ++ leBytes 4 phase ++ leBytes 8 mask.toNat
  { t with scratch := wrBytes t.scratch (16 * b) bytes }

/-- A phase completes (R345): PHASE advances, ARRIVED and MASK clear, EXPECTED stays. -/
def Team.completePhase (t : Team) (b : Nat) : Team :=
  t.setBar b ((t.phase b + 1) % 2 ^ 32) (t.expected b) 0 0

/-- A group arrives (R341): its MASK bit sets, ARRIVED counts it, and the last arrival completes the phase. -/
def Team.arrive (t : Team) (b g : Nat) : Team :=
  let t' := t.setBar b (t.phase b) (t.expected b) (t.arrived b + 1) (t.bmask b ||| (1#32 <<< g))
  if t'.arrived b = t'.expected b then t'.completePhase b else t'

/-- A group leaves a barrier (R344). -/
def Team.leave (t : Team) (b g : Nat) : Team :=
  let here := (t.bmask b).getLsbD g
  let t' := t.setBar b (t.phase b) (t.expected b - 1) (if here then t.arrived b - 1 else t.arrived b)
    (t.bmask b &&& ~~~(1#32 <<< g))
  if 1 ≤ t'.expected b ∧ t'.arrived b = t'.expected b then t'.completePhase b else t'

/-- A group leaves every barrier below `.barriers`. -/
def Team.leaveAll (t : Team) (g : Nat) : Nat → Team
  | 0 => t
  | b + 1 => (t.leaveAll g b).leave b g

/-! ## Lane registers, predicates, splits -/

/-- d, the entries of a thread's register stack (R153). -/
def Team.d (t : Team) : Nat := t.kernel.regs16 * 16
/-- The stack entry of t_n under a window base (R154); a stack has at most 256 entries (R153). Log entry 75 (DEDUCED). -/
def stackEntry (d : Nat) (wb : BitVec 8) (n : Nat) : Nat := if d = 0 then 0 else (wb.toNat + n) % d % 256
/-- Read a stack entry of a thread. -/
def Group.rget (g : Group) (k e : Nat) : W32 := g.regs.get 0 (k * 256 + e)
/-- Write a stack entry of a thread and set its dirty bit (R157). -/
def Group.rset (g : Group) (k e : Nat) (v : W32) : Group :=
  { g with regs := g.regs.put 0 (k * 256 + e) v, dirty := g.dirty ||| (1#256 <<< e) }
/-- What a group keeps of a thread. -/
def Group.thread (g : Group) (k : Nat) : Thr := g.thr.get {} k
/-- Change what a group keeps of a thread. -/
def Group.modThr (g : Group) (k : Nat) (f : Thr → Thr) : Group := { g with thr := g.thr.insert k (f (g.thread k)) }
/-- Read a predicate; p0 is true (R38). -/
def Thr.pget (t : Thr) (n : Nat) : Bool := decide (n = 0) || t.preds.getLsbD n
/-- Write a predicate; a write to p0 is discarded (R32). -/
def Thr.pset (t : Thr) (n : Nat) (b : Bool) : Thr :=
  if n = 0 then t
  else { t with preds := (t.preds &&& ~~~(1#8 <<< n)) ||| (if b then 1#8 <<< n else 0) }
/-- A thread that has not exited. -/
def Group.isLive (g : Group) (k : Nat) : Bool := decide ((g.thread k).life = .live)
/-- A helper thread (R250). -/
def Group.isHelper (g : Group) (k : Nat) : Bool := decide ((g.thread k).life = .helper)
/-- A live thread remains in the group. -/
def Group.anyLive (g : Group) : Bool := g.thr.any fun p => decide (p.2.life = .live)
/-- The threads of a mask, ascending (R6, Active()). -/
def threadsOf (m : W32) : List Nat := (List.range 32).filter fun k => m.getLsbD k
/-- The mask of a list of threads. -/
def maskOf (ks : List Nat) : W32 := ks.foldl (fun m k => m ||| (1#32 <<< k)) 0
/-- The live threads of a mask. -/
def Group.liveIn (g : Group) (m : W32) : Bool := (threadsOf m).any g.isLive
/-- A mask without the retired threads. -/
def Group.unretired (g : Group) (m : W32) : W32 :=
  maskOf ((threadsOf m).filter fun k => decide ((g.thread k).life ≠ .retired))

/-- A split of the group; slot 4 is the trap slot's current level. -/
def Group.split? (g : Group) (n : Nat) : Option Split :=
  if n < 4 then g.splits.find n else g.tslot.bind fun t => t.levels.head?
/-- Replace a split. -/
def Group.setSplit (g : Group) (n : Nat) (x : Split) : Group :=
  if n < 4 then { g with splits := g.splits.insert n x }
  else { g with tslot := g.tslot.map fun t => { t with levels := x :: t.levels.tail } }
/-- Change a split, if it is there. -/
def Group.modSplit (g : Group) (n : Nat) (f : Split → Split) : Group :=
  match g.split? n with
  | some x => g.setSplit n (f x)
  | none => g
/-- The current split of exec; where there is none, one with nothing in it. -/
def State.split (s : State) : Split := (s.cur.split? s.curSlot).getD {}
/-- Change the current split. -/
def State.modSplit (s : State) (f : Split → Split) : State := s.modCur fun g => g.modSplit s.curSlot f

/-- Set or clear which run a lane of a lane pair holds. -/
def LanePair.setLane (p : LanePair) (ln : Nat) (r : Option (Nat × Nat)) : LanePair :=
  if ln = 0 then { p with lane0 := r } else { p with lane1 := r }
/-- A lane pair without any run for which `f` holds. -/
def LanePair.freeLanes (p : LanePair) (f : Nat × Nat → Bool) : LanePair :=
  { p with lane0 := p.lane0.filter (fun r => !f r), lane1 := p.lane1.filter (fun r => !f r) }
/-- Free the lanes that hold a run for which `f` holds. -/
def State.freeLanes (s : State) (f : Nat × Nat → Bool) : State :=
  { s with lanePairs := s.lanePairs.map fun p => (p.1, p.2.freeLanes f) }
/-- Free the lane that holds the current split. -/
def State.offLane (s : State) : State := s.freeLanes fun r => decide (r = (s.curGid, s.curSlot))

/-! ### Operand latches of stopped splits (R35, R36, R108) -/

/-- The lane pair of the current group. -/
def State.curPair (s : State) : LanePair := s.lanePair s.curTeam.core s.cur.lp
/-- Replace the lane pair of the current group. -/
def State.setCurPair (s : State) (p : LanePair) : State := s.setLanePair s.curTeam.core s.cur.lp p

/-- An entry is live for a split (R36). -/
def Latch.liveFor (e : Latch) (g n : Nat) : Bool := decide (0 < e.life) && decide (e.gid = g) && decide (e.split = n)

/-- Move the current split's live latch entries from the lane pair into the split (R108, R398). -/
def State.saveLatches (s : State) : State :=
  let p := s.curPair
  let mine := p.latch.filter fun e => e.2.liveFor s.curGid s.curSlot
  (s.setCurPair { p with latch := p.latch.filter fun e => !e.2.liveFor s.curGid s.curSlot }).modSplit
    fun x => { x with lat := mine }

/-- Put saved latch entries back into the lane pair. -/
def State.loadLatches (s : State) : State :=
  let p := s.curPair
  let saved := s.split.lat
  (s.setCurPair { p with latch := saved.foldl (fun m e => SMap.insert m e.1 e.2) p.latch }).modSplit
    fun x => { x with lat := [] }

/-- The current split's latch entries expire: its run ends (R36). -/
def State.dropLatches (s : State) : State :=
  let p := s.curPair
  s.setCurPair { p with latch := p.latch.filter fun e => !e.2.liveFor s.curGid s.curSlot }

/-! ## Ending and killing groups and contexts (R46, R162, R344, R408) -/

/-- A group with both streams stopped: its splits, queue and far results are gone. -/
def Group.stop (g : Group) : Group :=
  { g with ended := true, splits := [], tslot := none, queue := [], swait := none, sparked := none, far := [],
           tags := [], jobs := [] }

/-- The A-latch of a core is freed once its holder has ended and no queued command of the holder is left (R271). -/
def Core.freeLatch (c : Core) (gone : Nat → Bool) : Core :=
  match c.alatch with
  | some a => if gone a.gid && !(c.mxq.any fun q => decide (q.gid = a.gid)) then { c with alatch := none } else c
  | none => c

/-- End a group: engine operations it issued go on, its far results are discarded, its lanes are freed; with
`leave`, it is no longer counted by its team's barriers (R344). Log entry 86 (DEDUCED). -/
def State.endGroup (s : State) (g : Nat) (leave : Bool) : State :=
  let x := s.group g
  if x.ended then s
  else
    let s := s.setGroup g x.stop
    let s := s.freeLanes fun r => decide (r.1 = g)
    let t := (s.team x.team).leaveAll x.idx (s.team x.team).kernel.bars
    let s := if leave && decide (t ≠ s.team x.team) then (s.setTeam x.team t).teamEvent x.team else s
    s.modCore (s.team x.team).core fun c => c.freeLatch fun h => decide (h = g)

/-- The split is in the middle of an instruction in a lane (R46). -/
def Split.midway (x : Split) : Bool := decide (x.mode = .running) && x.resuming

/-- A lane holds the run of a split. -/
def State.inLane (s : State) (gid n : Nat) : Bool :=
  s.lanePairs.any fun p => decide (p.2.lane0 = some (gid, n)) || decide (p.2.lane1 = some (gid, n))

/-- A lane is in the middle of an instruction of the group. -/
def State.midway (s : State) (gid : Nat) : Bool :=
  let g := s.group gid
  (g.splits.any fun p => p.2.midway && s.inLane gid p.1) || ((g.tslot.map fun z => z.levels.any Split.midway).getD false && s.inLane gid 4)

/-- What is left of a killed group while a lane completes its instruction (R46): that split. -/
def Group.dies (g : Group) : Group :=
  { g with dying := true, queue := [], swait := none, sparked := none, splits := g.splits.filter (fun p => p.2.midway) }

/-- A killed group has ended (R46): its registers and its slot are held until its team ends. With its context it ends without the
release of R344 (R408). -/
def State.killEnd (s : State) (g : Nat) : State :=
  (s.endGroup g (!(s.context (s.ctxOf g)).killed)).modGroup g fun x => { x with killed := true, dying := false }

/-- Kill(group) (R6, R46): the context's sticky ILLEGAL bit is set and the group ends, once a lane that is in the middle of another
instruction of the group has completed it. -/
def State.killGroup (s : State) (g : Nat) : State :=
  let t := if s.midway g then s.modGroup g Group.dies else s.killEnd g
  t.modContext (s.ctxOf g) fun c => { c with illegal := true }

/-- The killed groups whose last instruction has completed end (R46). -/
def State.reapDying (s : State) : State :=
  (s.groups.filter fun p => p.2.dying && !s.midway p.1).foldl (fun s p => s.killEnd p.1) s

/-- The current group is killed by an illegal instruction of its scalar stream (R46). -/
def State.kill (s : State) : Out := .next (s.killGroup s.curGid)

/-- The current group is killed by an illegal instruction of the current split, which ends with it (R46). -/
def State.killCur (s : State) : State := (s.modSplit fun x => { x with resuming := false }).offLane.killGroup s.curGid

/-- The current group is killed by an illegal lane instruction. -/
def State.killLane (s : State) : Out := .next s.killCur

/-- The engine operations of a context end (R151, R282, R310, R327): parked copies are cancelled, matrix commands
not started are discarded, unsent packets and chunks are discarded. -/
def State.killEngines (s : State) (c : Nat) : State :=
  let mine := fun (t : Nat) => decide ((s.team t).ctx = c)
  { s with
    teams := s.teams.map (fun p => if p.2.ctx = c then
        (p.1, { p.2 with copies := p.2.copies.filter fun x => x.slices.all fun y => decide (y.parked = none) })
      else p),
    cores := s.cores.map (fun p =>
      (p.1, ({ p.2 with mxq := p.2.mxq.filter fun q => q.started || !mine q.team } : Core).freeLatch fun h =>
        (s.group h).ended && mine (s.group h).team)),
    fabric := { s.fabric with
      xfers := s.fabric.xfers.map (fun p => if p.2.ctx = c then
          (p.1, { p.2 with pkts := p.2.pkts.map fun k => if k.st = .unsent then { k with st := .gone } else k })
        else p) },
    jobs := s.jobs.filter (fun p => decide (p.2.ctx ≠ c)),
    mem := { s.mem with
      spring := s.mem.spring.map (fun p => if p.2.ctx = c then (p.1, { p.2 with live := false }) else p) } }

/-- A group of a killed context stops at its next instruction boundary and ends without the release of R344 (R408). -/
def State.stopGroup (s : State) (g : Nat) : State := if s.midway g then s.modGroup g Group.dies else s.endGroup g false

/-- A context is killed (R408): CTXSTAT gains KILLED and the cause, its groups end without the release of R344, its
engine operations end. A later kill has no effect. Its commands complete with CONTEXT_DEAD as they are reached. -/
def State.killContext (s : State) (c : Nat) (cause : Nat) : State :=
  if (s.context c).killed then s
  else
    let s := s.modContext c fun x => { x with killed := true, cause := BitVec.ofNat 6 cause }
    let s := (s.groups.filter fun p => decide ((s.team p.2.team).ctx = c)).foldl
      (fun s p => s.stopGroup p.1) s
    s.killEngines c

/-! ## Taking a trap (R393 to R402) -/

/-- The user-class causes (Table 20-1). -/
def userClass (cause : Nat) : Bool :=
  decide (cause = 0x03 ∨ cause = 0x04 ∨ cause = 0x05 ∨ cause = 0x10 ∨ cause = 0x14 ∨ cause = 0x15)

/-- TCAUSE (Table 20-2). -/
def tcause (cause rix split : Nat) (scl priv : Bool) : Nat :=
  cause % 64 + rix * 256 + split * 8192 + (if scl then 65536 else 0) + (if priv then 131072 else 0)

/-- A trap goes to the user vector: user class, raised in user mode (R393). -/
def toUser (m : Mode) (cause : Nat) : Bool := userClass cause && decide (m = .user)

/-- Deliver a scalar trap (R402): the bank of the next level takes cause, address, value and s57 to s60, which then
hold the trap arguments; the stream goes on at the vector of R393. At level 2, or for a user vector of 0, the
context is killed. -/
def State.scalarTrapIn (s : State) (gid : Nat) (cause : Nat) (val : W64) : State :=
  let g := s.group gid
  let c := s.ctxOf gid
  let n := g.stlevel
  let usr := toUser g.mode cause
  let vec := (s.context c).tvecUs
  if 2 ≤ n then s.killContext c cause
  else if usr && decide (vec = 0) then s.killContext c cause
  else
    let cw := BitVec.ofNat 64 (tcause cause 0 0 true (decide (g.mode = .priv)))
    let bank : SBank := { cause := cw, pc := g.spc, val := val,
                          saved := [g.sread 57, g.sread 58, g.sread 59, g.sread 60] }
    let g := if n = 0 then { g with st1 := bank } else { g with st2 := bank }
    let pc := g.spc
    let g := (((g.swrite 57 cw).swrite 58 val).swrite 59 pc).swrite 60 (BitVec.ofNat 64 (n + 1))
    s.setGroup gid { g with stlevel := n + 1, mode := if usr then g.mode else .priv, srom := !usr,
                            spc := if usr then vec else 0, swait := none }

/-- A scalar instruction of the current group traps (R168). -/
def State.scalarTrap (s : State) (cause : Nat) (val : W64) : Out := .next (s.scalarTrapIn s.curGid cause val)

/-- A privileged scalar instruction in user mode (R45). -/
def privTrap (s : State) : Out := s.scalarTrap 0x02 0

/-- The meaning of a privileged scalar instruction: it runs in privileged mode and raises PRIV_VIOLATION in user mode
(R45, R392). -/
def privileged (s : State) (m : Out) : Out := if s.cur.mode = .priv then m else privTrap s

/-- Enter the trap slot for thread k of a split (R398). The split has stopped with its resume index; the handler's first run is ready
12 cycles later. -/
def State.enterTrap (s : State) (gid slot k cause : Nat) (val : W64) : State :=
  let g := s.group gid
  let c := s.ctxOf gid
  let th := g.thread k
  let n := th.tlevel
  let usr := toUser g.mode cause
  let vec := (s.context c).tvecUl
  if 2 ≤ n then s.killContext c cause
  else if usr && decide (vec = 0) then s.killContext c cause
  else
    let sp := (g.split? slot).getD {}
    let cw := BitVec.ofNat 32 (tcause cause sp.rix slot false (decide (g.mode = .priv)))
    let bank : TBank := { cause := cw, pc := sp.pc, val := val }
    let g := g.modThr k fun t => if n = 0 then { t with tlevel := 1, t1 := bank } else { t with tlevel := 2, t2 := bank }
    let g := g.modSplit slot fun x => { x with mode := .trapped }
    let lvl : Split :=
      { pc := if usr then vec.setWidth 32 else 0, mask := 1#32 <<< k, wb := sp.wb, rd := sp.rd, wsp := sp.wsp,
        args := [cw.setWidth 64, val, sp.pc.setWidth 64, BitVec.ofNat 64 (n + 1)], inRom := !usr, age := s.cycle + 12 }
    let lvls := match g.tslot with
      | some t => lvl :: t.levels
      | none => [lvl]
    s.setGroup gid { g with tslot := some { thr := k, levels := lvls, since := s.cycle }, mode := if usr then g.mode else .priv }

/-- The split the trap slot was entered for, at its current level. -/
def Group.trappedSplit (g : Group) (t : TSlot) : Nat := ((g.thread t.thr).t1.cause.toNat / 8192) % 8

/-- A trap that took the slot in this cycle gives it up to a lower split that traps in the same cycle, and is held (R399, R419). -/
def State.displace (s : State) (gid : Nat) (t : TSlot) : State :=
  let g := s.group gid
  let b := (g.thread t.thr).t1
  let g := g.modThr t.thr fun x => { x with tlevel := 0 }
  let g := { g with tslot := none, mode := if b.cause.getLsbD 17 then .priv else .user }
  s.setGroup gid (g.modSplit (g.trappedSplit t) fun x => { x with mode := .held (b.cause.toNat % 64) b.val })

/-- The trap slot is free for a split that traps now: no trap is held, and it was not freed in this cycle (R399, R419). -/
def State.slotOpen (s : State) (g : Group) : Bool :=
  decide (g.slotFrom ≤ s.cycle) && g.splits.all fun p => match p.2.mode with
    | .held _ _ => false
    | _ => true

/-- Trap(k, cause, val) in the current split (R6, R398, R399): the split stops with resume index k and its live latch
entries; the trap is delivered, held behind another thread's trap, or kills the context at level 2. Of splits that trap in one cycle
the lowest takes the slot. -/
def State.laneTrap (s : State) (k cause : Nat) (val : W64) : State :=
  let gid := s.curGid
  let slot := s.curSlot
  let s := s.saveLatches
  let s := s.modSplit fun x => { x with rix := k, resuming := true, skipping := false }
  let s := s.offLane
  let g := s.group gid
  if 2 ≤ (g.thread k).tlevel then s.killContext (s.ctxOf gid) cause
  else
    match g.tslot with
    | some t => if t.thr = k then s.enterTrap gid slot k cause val
      else if t.since = s.cycle ∧ t.levels.length = 1 ∧ slot < g.trappedSplit t then (s.displace gid t).enterTrap gid slot k cause val
      else s.setGroup gid (g.modSplit slot fun x => { x with mode := .held cause val })
    | none => if s.slotOpen g then s.enterTrap gid slot k cause val
      else s.setGroup gid (g.modSplit slot fun x => { x with mode := .held cause val })

/-- The current split suspends at thread k until a condition holds (R108). -/
def State.suspend (s : State) (k : Nat) (why : Susp) : State :=
  let s := s.saveLatches
  (s.modSplit fun x => { x with rix := k, resuming := true, mode := .suspended why }).offLane

/-! ## Returning from a trap (R401, R403) -/

/-- How a lane trap returns. -/
inductive Return where
  | retry | skip | park
deriving DecidableEq, Repr

/-- STRET (R403): s57 to s60 and the mode come back from the bank, the level falls, the stream goes on at STPC, after
it under skip, or parks. -/
def State.scalarReturn (s : State) (gid : Nat) (how : Return) : State :=
  let g := s.group gid
  let n := g.stlevel
  let bank := if n = 1 then g.st1 else g.st2
  let sv := fun (i : Nat) => (bank.saved[i]?).getD 0
  let g := (((g.swrite 57 (sv 0)).swrite 58 (sv 1)).swrite 59 (sv 2)).swrite 60 (sv 3)
  let cause := bank.cause.toNat % 64
  s.setGroup gid { g with
    stlevel := n - 1, srom := false, swait := none,
    mode := if bank.cause.getLsbD 17 then .priv else .user,
    spc := if how = .skip then bank.pc + 4 else bank.pc,
    sparked := if how = .park then some cause else none }

/-- The bank of a thread's current level. -/
def Thr.bank (t : Thr) : TBank := if t.tlevel = 2 then t.t2 else t.t1

/-- TRET (R401) of the thread the trap slot serves, past the value write of TRET.val: the slot's level ends, the mode
comes back, and the trapped split goes on as `how` says; a TPC the handler changed starts a new run there. -/
def State.laneReturn (s : State) (gid : Nat) (how : Return) : State :=
  let g := s.group gid
  match g.tslot with
  | none => s
  | some ts =>
    let k := ts.thr
    let th := g.thread k
    let bank := th.bank
    let slot := bank.cause.toNat / 8192 % 8
    let lvls := ts.levels.tail
    let g := g.modThr k fun t => { t with tlevel := t.tlevel - 1 }
    let g := { g with tslot := if lvls = [] then none else some { ts with levels := lvls },
                      slotFrom := if lvls = [] then s.cycle + 1 else g.slotFrom,
                      mode := if bank.cause.getLsbD 17 then .priv else .user }
    let cause := bank.cause.toNat % 64
    let g := g.modSplit slot fun x =>
      let moved := decide (x.pc ≠ bank.pc)
      { x with
        pc := bank.pc,
        pos := if moved then 0 else x.pos,
        lat := if moved then [] else x.lat,
        part := if moved then [] else x.part,
        gmask := if moved then 0 else x.gmask,
        ins := if moved then none else x.ins,
        whole := !moved && x.whole,
        count := if moved then 0 else x.count,
        rix := if moved then 0 else x.rix,
        resuming := !moved,
        skipping := !moved && decide (how = .skip),
        age := s.cycle,
        mode := if how = .park then .parked cause else .ready }
    (s.setGroup gid g).freeLanes fun r => decide (r = (gid, 4))

/-! ## Teams that are to stop (R327, R414) -/

/-- The words of the progress block (Table 16-3): FAILED and STATUS are told once the job is over. -/
def Job.image (j : Job) : List W64 :=
  let failed := if j.closed then j.failed else j.total
  let status := if j.closed then j.status else 0xFF
  [j.fp, BitVec.ofNat 64 (j.total * 2 ^ 32 + j.acked), j.above,
   BitVec.ofNat 64 (failed * 2 ^ 32 + j.st * 256 + status), j.bytes, 0, 0, 0]

/-- A job has changed: its block is to be written with what it holds now (R320). -/
def Job.note (j : Job) : Job := { j with pend := j.pend ++ [j.image] }

/-- A write of the block has failed (R320): the first failure stops the job; at the final write it decides the status. -/
def Job.blockLost (j : Job) (c : Nat) : Job :=
  if j.wfail.isSome then j
  else if j.closed then { j with st := 3, status := c, failed := j.total, wfail := some c }
  else { j with stopping := true, wfail := some c }

/-- A team is to stop (R414): its jobs are suspended, and their blocks say so (R327). -/
def State.haltTeam (s : State) (tid : Nat) : State :=
  let susp := fun (j : Job) => if j.team = tid ∧ j.st = 1 ∧ !j.closed then ({ j with st := 4 } : Job).note else j
  { (s.modTeam tid fun x => { x with stopping := true }) with jobs := s.jobs.map fun p => (p.1, susp p.2) }

end Sys2Proof.Machine
end

