-- ==== Sys2Proof/Machine/Flags.lean ====
section
/-! DEFINITION. Number formats, Round and Sat, the arithmetic on them, and the exception flags of FPSTAT
(chapter 10, R225 to R243). -/

namespace Sys2Proof.Machine

/-! ## Flags (Table 10-8) -/

/-- The flags an operation raises, laid out as FPSTAT [5:0]. -/
abbrev FFlags := BitVec 6
/-- Invalid. -/
def fIV : FFlags := 0x01
/-- A finite nonzero value divided by zero, or a pole. -/
def fDZ : FFlags := 0x02
/-- Overflow. -/
def fOF : FFlags := 0x04
/-- Underflow. -/
def fUF : FFlags := 0x08
/-- Inexact. -/
def fIX : FFlags := 0x10
/-- I4X quad malformed or marker misplaced. -/
def fFE : FFlags := 0x20
/-- A flag when a condition holds. -/
def flagIf (b : Bool) (f : FFlags) : FFlags := if b then f else 0

/-! ## Formats (Table 10-1) -/

/-- The floating-point formats. -/
inductive Fmt where
  | f32 | f16 | bf16 | e5m2 | e4m3 | e3m2 | e2m3 | e2m1
deriving DecidableEq, Repr

/-- Exponent field width E. -/
def Fmt.ew : Fmt → Nat
  | .f32 | .bf16 => 8 | .f16 | .e5m2 => 5 | .e4m3 => 4 | .e3m2 => 3 | .e2m3 | .e2m1 => 2
/-- Mantissa field width M. -/
def Fmt.mw : Fmt → Nat
  | .f32 => 23 | .f16 => 10 | .bf16 => 7 | .e5m2 | .e3m2 => 2 | .e4m3 | .e2m3 => 3 | .e2m1 => 1
/-- Bias. -/
def Fmt.bias : Fmt → Nat
  | .f32 | .bf16 => 127 | .f16 | .e5m2 => 15 | .e4m3 => 7 | .e3m2 => 3 | .e2m3 | .e2m1 => 1
/-- The format has infinities and NaNs at the top exponent. -/
def Fmt.ieee : Fmt → Bool
  | .f32 | .f16 | .bf16 | .e5m2 => true | _ => false
/-- The format tells signalling NaNs from quiet ones (R187). -/
def Fmt.signals : Fmt → Bool
  | .f32 | .f16 | .bf16 => true | _ => false
/-- The position of the sign bit. -/
def Fmt.signPos (f : Fmt) : Nat := f.ew + f.mw
/-- The magnitude bits of the largest finite value. -/
def Fmt.top (f : Fmt) : Nat :=
  if f.ieee then (2 ^ f.ew - 1) * 2 ^ f.mw - 1 else if f = .e4m3 then 0x7E else 2 ^ (f.ew + f.mw) - 1
/-- The magnitude bits of infinity. -/
def Fmt.infBits (f : Fmt) : Nat := (2 ^ f.ew - 1) * 2 ^ f.mw
/-- The canonical NaN (R187). -/
def Fmt.nanBits : Fmt → Nat
  | .f32 => 0x7FC00000 | .f16 => 0x7E00 | .bf16 => 0x7FC0 | .e5m2 => 0x7E | .e4m3 => 0x7F | _ => 0
/-- A sign and magnitude bits as an encoding. -/
def Fmt.pack (f : Fmt) (neg : Bool) (mag : Nat) : Nat := (if neg then 2 ^ f.signPos else 0) + mag

/-- The value of an encoding: a NaN, an infinity, or `± n * 2 ^ x`. -/
inductive FV where
  | nan (sig : Bool) | inf (neg : Bool) | fin (neg : Bool) (n : Nat) (x : Int)
deriving DecidableEq, Repr

/-- Read an encoding (R186). -/
def Fmt.read (f : Fmt) (w : Nat) : FV :=
  let neg := (w / 2 ^ f.signPos) % 2 == 1
  let e := w / 2 ^ f.mw % 2 ^ f.ew
  let m := w % 2 ^ f.mw
  if f.ieee && e == 2 ^ f.ew - 1 then
    if m = 0 then .inf neg else .nan (f.signals && m < 2 ^ (f.mw - 1))
  else if f = .e4m3 && e == 15 && m == 7 then .nan false
  else if e = 0 then .fin neg m (1 - (f.bias : Int) - f.mw)
  else .fin neg (2 ^ f.mw + m) ((e : Int) - f.bias - f.mw)

/-- Flip the sign bit exactly (R227). -/
def Fmt.flip (f : Fmt) (neg : Bool) (w : Nat) : Nat :=
  if !neg then w else if (w / 2 ^ f.signPos) % 2 = 1 then w - 2 ^ f.signPos else w + 2 ^ f.signPos

/-- A value is a signalling NaN. -/
def FV.sig : FV → Bool
  | .nan s => s | _ => false
/-- A value is a NaN. -/
def FV.isNan : FV → Bool
  | .nan _ => true | _ => false
/-- The sign of a number. -/
def FV.neg : FV → Bool
  | .nan _ => false | .inf s => s | .fin s _ _ => s
/-- A value is a zero. -/
def FV.isZero : FV → Bool
  | .fin _ n _ => n == 0 | _ => false

/-! ## Round (R197, R198) -/

/-- floor(log2 (n / d)) of positive numbers. -/
def log2Frac (n d : Nat) : Int :=
  let l : Int := (Nat.log2 n : Int) - Nat.log2 d
  let below := if 0 ≤ l then n < d * 2 ^ l.toNat else n * 2 ^ (-l).toNat < d
  if below then l - 1 else l

/-- Numerator and denominator of n / d * 2 ^ x. -/
def scaleFrac (n d : Nat) (x : Int) : Nat × Nat :=
  if 0 ≤ x then (n * 2 ^ x.toNat, d) else (n, d * 2 ^ (-x).toNat)

/-- The rounding decision at a quotient of `lo` with remainder `r` over `d`. -/
def roundsUp (mode : Rnd) (draw : Nat) (neg : Bool) (lo r d : Nat) : Bool :=
  match mode with
  | .rn => decide (d < 2 * r) || (decide (2 * r = d) && decide (lo % 2 = 1))
  | .ra => decide (d ≤ 2 * r)
  | .rz => false
  | .ru => decide (0 < r) && !neg
  | .rd => decide (0 < r) && neg
  | .rs => decide (65536 ≤ r * 65536 / d + draw)

/-- The magnitude an overflow gives, and whether it is infinity (R198). `sat`: a saturating conversion. -/
def overflowMag (f : Fmt) (sat : Bool) (mode : Rnd) (neg : Bool) : Nat :=
  if sat || !f.ieee then f.top
  else match mode with
    | .rn | .ra | .rs => f.infBits
    | .rz => f.top
    | .ru => if neg then f.top else f.infBits
    | .rd => if neg then f.infBits else f.top

/-- Round the finite nonzero ± n / d * 2 ^ x to a format: its encoding and flags. Log entry 44 (DEDUCED). -/
def roundTo (f : Fmt) (sat : Bool) (mode : Rnd) (draw : Nat) (neg : Bool) (n d : Nat) (x : Int) : Nat × FFlags :=
  let emin : Int := 1 - (f.bias : Int)
  let lg := log2Frac n d + x
  let t := if lg < emin then emin else lg
  let q := scaleFrac n d (x - (t - f.mw))
  let lo := q.1 / q.2
  let r := q.1 % q.2
  let y := if roundsUp mode draw neg lo r q.2 then lo + 1 else lo
  let mag := if y < 2 ^ f.mw then y else (t + f.bias).toNat * 2 ^ f.mw + (y - 2 ^ f.mw)
  if f.top < mag then (f.pack neg (overflowMag f sat mode neg), fOF ||| fIX)
  else (f.pack neg mag, flagIf (decide (r ≠ 0)) fIX ||| flagIf (decide (r ≠ 0) && decide (lg < emin)) fUF)

/-- Round ± n / d * 2 ^ x to an integer (R232, R233): the value and whether it is inexact. -/
def roundInt (mode : Rnd) (draw : Nat) (neg : Bool) (n d : Nat) (x : Int) : Int × Bool :=
  let q := scaleFrac n d x
  let lo := q.1 / q.2
  let r := q.1 % q.2
  let y := if roundsUp mode draw neg lo r q.2 then lo + 1 else lo
  (if neg then -(y : Int) else y, decide (r ≠ 0))

/-! ## Exact results -/

/-- The exact result of an operation before rounding. -/
inductive Exact where
  | nan | inf (neg : Bool) | zero (neg : Bool) | val (neg : Bool) (n d : Nat) (x : Int)
deriving DecidableEq, Repr

/-- An exact result with the flags the operation itself raises. -/
abbrev ExactF := Exact × FFlags

/-- Round an exact result into a format. -/
def ExactF.round (e : ExactF) (f : Fmt) (mode : Rnd) (draw : Nat) : Nat × FFlags :=
  match e.1 with
  | .nan => (f.nanBits, e.2)
  | .inf s => (f.pack s f.infBits, e.2)
  | .zero s => (f.pack s 0, e.2)
  | .val s n d x => let r := roundTo f false mode draw s n d x; (r.1, r.2 ||| e.2)

/-- A finite product or term as an exact result. -/
def Exact.ofFin (neg : Bool) (n d : Nat) (x : Int) : Exact := if n = 0 then .zero neg else .val neg n d x

/-- A term of a sum: a NaN, an infinity or a signed number. -/
def FV.mul : FV → FV → FV × Bool
  | .nan _, .inf _ => (.nan false, false)
  | .nan _, _ => (.nan false, false)
  | _, .nan _ => (.nan false, false)
  | .inf s, .inf t => (.inf (s != t), false)
  | .inf s, .fin t n _ => if n = 0 then (.nan false, true) else (.inf (s != t), false)
  | .fin s n _, .inf t => if n = 0 then (.nan false, true) else (.inf (s != t), false)
  | .fin s n x, .fin t m y => (.fin (s != t) (n * m) (x + y), false)

/-- The smallest exponent of the finite terms. -/
def minExp : List FV → Int
  | [] => 0
  | [.fin _ _ x] => x
  | .fin _ _ x :: ts => if x < minExp ts then x else minExp ts
  | _ :: ts => minExp ts

/-- A finite term in units of 2 ^ e. -/
def FV.units (e : Int) : FV → Int
  | .fin s n x => let v : Int := (n * 2 ^ (x - e).toNat : Nat); if s then -v else v
  | _ => 0

/-- The exact sum of terms (R226): NaN for a NaN term; NaN and IV for infinities of both signs; an exactly zero sum
keeps the sign all its terms share, when every term is a zero of that sign, and is otherwise +0, or −0 under rd. -/
def sumTerms (ts : List FV) (mode : Rnd) : ExactF :=
  if ts.any FV.isNan then (.nan, 0)
  else
    let infs := ts.filter fun t => match t with
      | .inf _ => true | _ => false
    match infs with
    | i :: _ => if infs.any fun j => j.neg != i.neg then (.nan, fIV) else (.inf i.neg, 0)
    | [] =>
      let e := minExp ts
      let v := (ts.map (FV.units e)).foldl (· + ·) 0
      if v = 0 then
        if ts.all fun t => t.isZero && t.neg then (.zero true, 0)
        else if ts.all fun t => t.isZero && !t.neg then (.zero false, 0)
        else (.zero (decide (mode = .rd)), 0)
      else (.val (decide (v < 0)) v.natAbs 1 e, 0)

/-- Signalling NaN operands set IV. -/
def sigFlag (vs : List FV) : FFlags := flagIf (vs.any FV.sig) fIV

/-- a + b. -/
def fAdd (a b : FV) (mode : Rnd) : ExactF := let r := sumTerms [a, b] mode; (r.1, r.2 ||| sigFlag [a, b])
/-- The negation of a value. -/
def FV.negate : FV → FV
  | .nan s => .nan s | .inf s => .inf (!s) | .fin s n x => .fin (!s) n x
/-- a − b. -/
def fSub (a b : FV) (mode : Rnd) : ExactF := fAdd a b.negate mode
/-- a × b. -/
def fMul (a b : FV) : ExactF :=
  let p := a.mul b
  let fl := sigFlag [a, b] ||| flagIf p.2 fIV
  match p.1 with
  | .nan _ => (.nan, fl)
  | .inf s => (.inf s, fl)
  | .fin s n x => (Exact.ofFin s n 1 x, fl)
/-- a × b + c, exact. -/
def fMulAdd (a b c : FV) (mode : Rnd) : ExactF :=
  let p := a.mul b
  let r := sumTerms [p.1, c] mode
  (r.1, r.2 ||| sigFlag [a, b, c] ||| flagIf p.2 fIV)
/-- a × b + a' × b' + c, exact (FDOT2). -/
def fDot2 (a b a' b' c : FV) (mode : Rnd) : ExactF :=
  let p := a.mul b
  let p' := a'.mul b'
  let r := sumTerms [p.1, p'.1, c] mode
  (r.1, r.2 ||| sigFlag [a, b, a', b', c] ||| flagIf (p.2 || p'.2) fIV)
/-- a ÷ b (R226, R227). -/
def fDiv (a b : FV) : ExactF :=
  let fl := sigFlag [a, b]
  match a, b with
  | .nan _, _ => (.nan, fl)
  | _, .nan _ => (.nan, fl)
  | .inf _, .inf _ => (.nan, fl ||| fIV)
  | .inf s, .fin t _ _ => (.inf (s != t), fl)
  | .fin s _ _, .inf t => (.zero (s != t), fl)
  | .fin s n x, .fin t m y =>
    if m = 0 then if n = 0 then (.nan, fl ||| fIV) else (.inf (s != t), fl ||| fDZ)
    else (Exact.ofFin (s != t) n m (x - y), fl)

/-- The integer square root, from bit `i − 1` down. -/
def isqrtFrom (n : Nat) : Nat → Nat → Nat
  | 0, acc => acc
  | i + 1, acc => if (acc + 2 ^ i) * (acc + 2 ^ i) ≤ n then isqrtFrom n i (acc + 2 ^ i) else isqrtFrom n i acc

/-- The integer square root of a number below 2 ^ 160. -/
def isqrt (n : Nat) : Nat := isqrtFrom n 80 0

/-- √a: 48 bits below the unit and a sticky bit decide every rounding. -/
def fSqrt (a : FV) : ExactF :=
  match a with
  | .nan s => (.nan, flagIf s fIV)
  | .inf s => if s then (.nan, fIV) else (.inf false, 0)
  | .fin s n x =>
    if n = 0 then (.zero s, 0)
    else if s then (.nan, fIV)
    else
      let odd := x % 2 != 0
      let n' := (if odd then 2 * n else n) * 4 ^ 48
      let x' := if odd then x - 1 else x
      let r := isqrt n'
      (.val false (2 * r + (if r * r = n' then 0 else 1)) 1 (x' / 2 - 49), 0)

/-- a × 2 ^ b (FSCALE): an exponent beyond every format's range rounds as its clamp does. -/
def fScale (a : FV) (b : Int) : ExactF :=
  match a with
  | .nan s => (.nan, flagIf s fIV)
  | .inf s => (.inf s, 0)
  | .fin s n x => (Exact.ofFin s n 1 (x + (if b < -2000 then -2000 else if 2000 < b then 2000 else b)), 0)

/-- An encoding ordered as a number, −0 below +0. -/
def Fmt.order (f : Fmt) (w : Nat) : Int :=
  let mag := w % 2 ^ f.signPos
  if (w / 2 ^ f.signPos) % 2 = 1 then -(mag : Int) - 1 else mag

/-- FMIN and FMAX (R228): the smaller (or larger) of two encodings; a NaN yields to the other operand. -/
def fMinMax (f : Fmt) (big : Bool) (a b : Nat) : Nat × FFlags :=
  let va := f.read a
  let vb := f.read b
  let fl := sigFlag [va, vb]
  if va.isNan then (if vb.isNan then f.nanBits else b, fl)
  else if vb.isNan then (a, fl)
  else (if (f.order a < f.order b) == big then b else a, fl)

/-- A format-independent comparison of two numbers: −0 equals +0. -/
def Fmt.value (f : Fmt) (w : Nat) : Int :=
  let mag := w % 2 ^ f.signPos
  if (w / 2 ^ f.signPos) % 2 = 1 then -(mag : Int) else mag

/-- FSET (Table 12-3). -/
def fCompare (f : Fmt) (c : FCond) (a b : Nat) : Bool × FFlags :=
  let va := f.read a
  let vb := f.read b
  if va.isNan || vb.isNan then
    let ord := decide (c = .lt ∨ c = .le ∨ c = .gt ∨ c = .ge)
    (decide (c = .ne ∨ c = .un), flagIf (va.sig || vb.sig || ord) fIV)
  else
    let x := f.value a
    let y := f.value b
    (match c with
      | .eq => decide (x = y) | .ne => decide (x ≠ y) | .lt => decide (x < y) | .le => decide (x ≤ y)
      | .gt => decide (y < x) | .ge => decide (y ≤ x) | .un => false | .ord => true, 0)

/-- The class number of an encoding (R230). -/
def fClass (f : Fmt) (w : Nat) : Nat :=
  match f.read w with
  | .nan s => if s then 0 else 1
  | .inf s => if s then 2 else 9
  | .fin s n _ =>
    if n = 0 then if s then 5 else 6
    else if n < 2 ^ f.mw then if s then 4 else 7
    else if s then 3 else 8

/-- Convert a value to a format by Round and Table 10-7; `inf`: E5M2 keeps infinities on overflow. -/
def FV.convert (v : FV) (to_ : Fmt) (mode : Rnd) (draw : Nat) (inf : Bool) : Nat × FFlags :=
  match v with
  | .nan s => if to_.ieee || to_ = .e4m3 then (to_.nanBits, flagIf s fIV) else (0, fIV)
  | .inf s => if to_.ieee then (to_.pack s to_.infBits, 0) else (to_.pack s to_.top, fIV)
  | .fin s n x => if n = 0 then (to_.pack s 0, 0) else roundTo to_ (to_ = .e5m2 && !inf) mode draw s n 1 x

/-- Convert an encoding between formats. -/
def fConvert (from_ to_ : Fmt) (mode : Rnd) (draw : Nat) (inf : Bool) (w : Nat) : Nat × FFlags :=
  (from_.read w).convert to_ mode draw inf

/-! ## Integers (R205, R208) -/

end Sys2Proof.Machine
namespace Sys2Proof
open Machine

/-- The value of a w-bit operand under a type's signedness. -/
def ITy.val (t : ITy) (v : Nat) : Int :=
  let u := v % 2 ^ t.width
  if t.signed && decide (2 ^ (t.width - 1) ≤ u) then (u : Int) - 2 ^ t.width else u

/-- The bits of a result taken modulo 2 ^ w and written at 32 or 64 bits: extended by the type's signedness. -/
def ITy.bits (t : ITy) (v : Int) : Nat :=
  let full := if t.wide then 64 else 32
  let u := (v % 2 ^ t.width).toNat
  if t.signed && decide (2 ^ (t.width - 1) ≤ u) then u + (2 ^ full - 2 ^ t.width) else u

/-- The least value of a type. -/
def ITy.lo (t : ITy) : Int := if t.signed then -(2 ^ (t.width - 1) : Nat) else 0
/-- The greatest value of a type. -/
def ITy.hi (t : ITy) : Int := if t.signed then (2 ^ (t.width - 1) : Nat) - 1 else (2 ^ t.width : Nat) - 1
/-- The nearest value of a type. -/
def ITy.clamp (t : ITy) (v : Int) : Int := if v < t.lo then t.lo else if t.hi < v then t.hi else v

end Sys2Proof
namespace Sys2Proof.Machine

/-- Convert an encoding to an integer type (R233). -/
def fToInt (f : Fmt) (t : ITy) (mode : Rnd) (draw : Nat) (w : Nat) : Int × FFlags :=
  match f.read w with
  | .nan _ => (0, fIV)
  | .inf s => (if s then t.lo else t.hi, fIV)
  | .fin s n x =>
    let r := roundInt mode draw s n 1 x
    if r.1 < t.lo then (t.lo, fIV) else if t.hi < r.1 then (t.hi, fIV) else (r.1, flagIf r.2 fIX)

/-- Convert an integer to a format (R234). -/
def intToF (f : Fmt) (mode : Rnd) (draw : Nat) (v : Int) : Nat × FFlags :=
  if v = 0 then (0, 0) else roundTo f false mode draw (decide (v < 0)) v.natAbs 1 0

/-- Round to an integral value of the same format, with no flag but IV (R232). -/
def fRnd (f : Fmt) (mode : Rnd) (draw : Nat) (w : Nat) : Nat × FFlags :=
  match f.read w with
  | .nan s => (f.nanBits, flagIf s fIV)
  | .inf _ => (w % 2 ^ (f.signPos + 1), 0)
  | .fin s n x =>
    let r := roundInt mode draw s n 1 x
    if r.2 then
      if r.1 = 0 then (f.pack s 0, 0) else ((roundTo f false .rz 0 s r.1.natAbs 1 0).1, 0)
    else (w % 2 ^ (f.signPos + 1), 0)

/-! ## I4X quads and scales (R191, R195, R239 to R241) -/

/-- An E4M3 code as an FP32 encoding. -/
def e4m3ToF32 (c : Nat) : Nat := (fConvert .e4m3 .f32 .rn 0 false c).1

/-- The elements of an I4X quad as FP32 encodings, and whether it sets FE (Table 10-5). -/
def i4xQuad (q : Nat) : List Nat × Bool :=
  let slot := fun (i : Nat) => q / 2 ^ (4 * i) % 16
  let payload := q / 16 % 256
  let int := fun (v : Nat) => (intToF .f32 .rn 0 (if v < 8 then (v : Int) else (v : Int) - 16)).1
  if slot 0 = 8 then
    if q / 2 ^ 14 = 0 ∧ payload % 128 ≠ 0x7F then
      ((List.range 4).map fun i => if i = q / 2 ^ 12 % 4 then e4m3ToF32 payload else 0, false)
    else ([0, 0, 0, 0], true)
  else if slot 1 = 8 ∨ slot 2 = 8 ∨ slot 3 = 8 then
    ((List.range 4).map fun i => if slot i = 8 then 0 else int (slot i), true)
  else ((List.range 4).map fun i => int (slot i), false)

/-- Pack four signed bytes as an I4X quad (R241). -/
def i4xPack (mode : Rnd) (draw : Nat) (a : Nat) : Nat × FFlags :=
  let e := fun (i : Nat) => ITy.val .i8 (a / 2 ^ (8 * i))
  let best := (List.range 4).foldl (fun p i => if (e p).natAbs < (e i).natAbs then i else p) 0
  if (e best).natAbs ≤ 7 then
    ((List.range 4).foldl (fun q i => q + (e i % 16).toNat * 2 ^ (4 * i)) 0, 0)
  else
    let v := roundTo .e4m3 true mode draw (decide (e best < 0)) (e best).natAbs 1 0
    let others := (List.range 4).any fun i => decide (i ≠ best) && decide (e i ≠ 0)
    (8 + v.1 * 16 + best * 4096, flagIf (decide (v.2 &&& fIX ≠ 0) || others) fIX)

/-- NEXP (R239). Log entry 44 (DEDUCED). -/
def nexp (f : Fmt) (w : Nat) : Nat :=
  match f.read w with
  | .fin _ n x =>
    if n = 0 then 0
    else
      let e : Int := (Nat.log2 n : Int) + x + 127
      if e < 0 then 0 else if 254 < e then 254 else e.toNat
  | _ => 0xFF

end Sys2Proof.Machine
namespace Sys2Proof
open Machine

/-- emax of the element formats (R240). -/
def NFmt.emax : NFmt → Nat
  | .e2m1 => 2 | .e3m2 => 4 | .e2m3 => 2 | .e4m3 => 8 | .e5m2 => 15 | .i4x => 2 | .i8 => 6

end Sys2Proof
namespace Sys2Proof.Machine

/-- MXSCL (R240). -/
def mxscl (f : NFmt) (a : Nat) : Nat := if a % 256 = 0xFF then 0xFF else if a % 256 < f.emax then 0 else a % 256 - f.emax

end Sys2Proof.Machine
namespace Sys2Proof
open Machine

/-- The floating-point format of a narrow format, if it has one. -/
def NFmt.fmt? : NFmt → Option Fmt
  | .e2m1 => some .e2m1 | .e3m2 => some .e3m2 | .e2m3 => some .e2m3 | .e4m3 => some .e4m3 | .e5m2 => some .e5m2
  | .i4x | .i8 => none

/-- The format of a float type. -/
def FTy.fmt : FTy → Fmt
  | .f32 => .f32 | .f16 => .f16 | .bf16 => .bf16
/-- The format of a half type. -/
def HTy.fmt : HTy → Fmt
  | .f16 => .f16 | .bf16 => .bf16

end Sys2Proof
namespace Sys2Proof.Machine

/-- The three steps of the generator (R200). -/
def advanceG (g : W64) : W64 :=
  let a := g ^^^ (g <<< 13)
  let b := a ^^^ (a >>> 7)
  b ^^^ (b <<< 17)

end Sys2Proof.Machine
end

