-- ==== Sys2Proof/Machine/Home.lean ====
section
/-! DEFINITION. From the pool to L2: stored lines under their keys, the lease checks, page-cache frames and their
directory, L2 lines with zero flags, ownership and timestamps. -/

namespace Sys2Proof.Machine

/-- The canonical form of memory: the pool and HBM list addresses strictly rising, and no byte that reads as an unlisted one does
(log entry 2), so that equal memories are equal data. -/
def Mem.wf (m : Mem) : Bool := m.pool.wf 0 && m.hbm.wf 0

/-! ## Lines of 128 bytes -/

/-- `n` bytes of a line from a byte offset, as a number. -/
def lget (d : BitVec 1024) (off n : Nat) : Nat := d.toNat / 2 ^ (8 * off) % 2 ^ (8 * n)
/-- A line with `n` bytes from a byte offset replaced. -/
def lset (d : BitVec 1024) (off n v : Nat) : BitVec 1024 :=
  let m := BitVec.ofNat 1024 ((2 ^ (8 * n) - 1) * 2 ^ (8 * off))
  (d &&& ~~~m) ||| BitVec.ofNat 1024 (v % 2 ^ (8 * n) * 2 ^ (8 * off))
/-- The 4-byte words an extent of a line touches. -/
def wordMask (off n : Nat) : BitVec 32 := BitVec.ofNat 32 ((2 ^ ((off % 4 + n + 3) / 4) - 1) * 2 ^ (off / 4))
/-- The bits of the words a mask names. -/
def wordBits (m : BitVec 32) : BitVec 1024 :=
  (threadsOf m).foldl (fun d w => d ||| BitVec.ofNat 1024 (0xFFFFFFFF * 2 ^ (32 * w))) 0
/-- A line with the words a mask names taken from another. -/
def mergeWords (old new : BitVec 1024) (m : BitVec 32) : BitVec 1024 := (old &&& ~~~wordBits m) ||| (new &&& wordBits m)

/-- A physical line: its space, the peer it is at, the byte address of the line divided by 128. -/
def lineKey (space peer addr : Nat) : Nat := (space * 2 ^ 20 + peer) * 2 ^ 60 + addr / 128
/-- The space of a physical line. -/
def lineSpace (k : Nat) : Nat := k / 2 ^ 80
/-- The peer of a physical line. -/
def linePeer (k : Nat) : Nat := k / 2 ^ 60 % 2 ^ 20
/-- The byte address of a physical line. -/
def lineAddr (k : Nat) : Nat := k % 2 ^ 60 * 128

/-- The key of a line in a core's L1. -/
def l1Key (core k : Nat) : Nat := core * 2 ^ 90 + k

/-! ## Stored bytes and their keys (R84 to R86) -/

/-- The material of a key id. -/
def Mem.keyMat (m : Mem) (id : Nat) : BitVec 512 := m.keys.get 0 id

/-- Stored data read under key material: the plaintext under the material it was written with (or where nothing was
ever written), and otherwise the XTS function of both keys, the tweak and the data (R85, R86, log entry 8). -/
def underKey (data : BitVec 1024) (stored mat : BitVec 512) (addr : Nat) : BitVec 1024 :=
  if stored = 0 then data else if stored = mat then data else Config.xtsCross mat stored (addr / 128) data

/-- Read a line of HBM under a key id; `phys`: the physical address its tweak comes from, the pool's for a line of a frame and
the device's for space 3 (R85). Log entries 2 (DESIGN CHOICE), 8 (DESIGN CHOICE). -/
def Mem.hbmLine (m : Mem) (a key phys : Nat) : BitVec 1024 :=
  underKey (BitVec.ofNat 1024 (rdNat m.hbm (a / 128 * 128) 128)) (m.hbmKey.get 0 (a / 128)) (m.keyMat key) phys
/-- Write a line of HBM under a key id. -/
def Mem.setHbmLine (m : Mem) (a key : Nat) (d : BitVec 1024) : Mem :=
  { m with hbm := wrNat m.hbm (a / 128 * 128) 128 d.toNat, hbmKey := m.hbmKey.put 0 (a / 128) (m.keyMat key) }
/-- Read a line of the pool under a key id. Log entry 8 (DESIGN CHOICE). -/
def Mem.poolLine (m : Mem) (a key : Nat) : BitVec 1024 :=
  underKey (BitVec.ofNat 1024 (rdNat m.pool (a / 128 * 128) 128)) (m.poolKey.get 0 (a / 128)) (m.keyMat key) a
/-- Write a line of the pool under a key id; the write is not yet accepted (R65). -/
def Mem.setPoolLine (m : Mem) (a key : Nat) (d : BitVec 1024) : Mem :=
  { m with pool := wrNat m.pool (a / 128 * 128) 128 d.toNat, poolKey := m.poolKey.put 0 (a / 128) (m.keyMat key),
           unaccepted := m.unaccepted ++ [(a / 128 * 128, 128)] }

/-! ## Leases (R55 to R60) -/

/-- The slot and entry that govern a pool address: the entry that is not FREE and whose range holds it (R56). -/
def Mem.leaseAt (m : Mem) (a : Nat) : Option (Nat × Lease) :=
  m.leases.find? fun p => decide (p.2.st ≠ .free) && decide (p.2.base.toNat ≤ a) && decide (a < p.2.base.toNat + p.2.len.toNat)

/-- The fault of a lease check (R16, R56, R60). -/
def leaseFault (now : W64) : Option (Nat × Lease) → Option Nat
  | none => some 0x08
  | some (_, l) =>
    match l.st with
    | .active => if l.expiry.toNat ≤ now.toNat then some 0x08 else none
    | .expired | .free => some 0x08
    | .revoking | .revoked => some 0x09
    | .lost => some 0x0A

/-- The id of the lease that governs a pool address, or 0. -/
def Mem.leaseIdAt (m : Mem) (a : Nat) : W32 := ((m.leaseAt a).map fun p => p.2.id).getD 0
/-- The lease that governs a pool address is EXPIRED. -/
def Mem.expiredAt (m : Mem) (a : Nat) : Bool := ((m.leaseAt a).map fun p => decide (p.2.st = .expired)).getD false
/-- The pool takes writes of the range: the governing lease is ACTIVE or REVOKING (R57, R61). -/
def Mem.writable (m : Mem) (a : Nat) : Bool :=
  ((m.leaseAt a).map fun p => decide (p.2.st = .active ∨ p.2.st = .revoking)).getD false

/-! ## Page-cache frames (R87 to R95) -/

/-- Sets of the page cache. -/
def numSets : Nat := 393216
/-- Device frames. -/
def numFrames : Nat := 6291456
/-- The device frame of a way of a set. -/
def frameOf (set way : Nat) : Nat := way * numSets + set
/-- A frame's tag. -/
def Mem.frame (m : Mem) (f : Nat) : Frame := m.frames.get {} f
/-- Replace a frame's tag. -/
def Mem.setFrame (m : Mem) (f : Nat) (x : Frame) : Mem := { m with frames := m.frames.put {} f x }
/-- Change a frame's tag. -/
def Mem.modFrame (m : Mem) (f : Nat) (g : Frame → Frame) : Mem := m.setFrame f (g (m.frame f))
/-- The directory slice, and the HBM stack, of a frame. -/
def sliceOf (f : Nat) : Nat := f % numSets % 8
/-- Add one to a counter of a directory slice. Log entry 23 (DEDUCED). -/
def bumpCount (c : SMap W64) (i : Nat) : SMap W64 := c.put 0 i (c.get 0 i + 1)

/-- The frame that holds or is filling with a pool frame number. -/
def Mem.hit (m : Mem) (pfn : Nat) : Option Nat :=
  ((List.range 16).map (frameOf (pfn % numSets))).find? fun f =>
    let x := m.frame f
    (x.valid || x.filling) && !x.carved && decide (x.pfn = pfn)

/-- The frame whose bytes a pool frame number stands in: one that holds it and is not still being filled. Log entry 24 (DEDUCED). -/
def Mem.standing (m : Mem) (pfn : Nat) : Option Nat :=
  match m.hit pfn with
  | some f => if (m.frame f).filling then none else some f
  | none => none

/-- The channel and bank group of unit u of a frame in a set (R93). -/
def unitPlace (layout set u : Nat) : Nat × Nat :=
  match layout with
  | 1 => ((u % 32) ^^^ (u / 32 % 8), u / 32 % 4)
  | 2 => (set / 8 % 32, set / 256 % 4)
  | _ => (u % 32, u / 32 % 4)

/-- A reservation holds the bank group that a unit of a frame sits in. -/
def BankRes.holds (r : BankRes) (layout set u : Nat) : Bool :=
  decide (r.stack = set % 8) && decide ((r.channel, r.group) = unitPlace layout set u)

/-- A frame in use by a bulk stream's reserved bank group (R90, R93, R95): a bank-private frame of the group.
Log entry 37 (DESIGN CHOICE). -/
def Mem.reserved (m : Mem) (f : Nat) : Bool :=
  let x := m.frame f
  decide (x.layout = 2) && m.bankRes.any fun r => r.holds 2 (f % numSets) 0

/-- An access to a frame's bytes waits: a bulk stream of another copy holds the bank group they sit in (R95). -/
def Mem.bankHeld (m : Mem) (own : Option (Nat × Nat)) (f a : Nat) : Bool :=
  m.bankRes.any fun r => decide (own ≠ some (r.team, r.copy)) && r.holds (m.frame f).layout (f % numSets) (a % 65536 / 256)

/-- A line lies in a pool frame or in a device frame. -/
def lineIn (space first : Nat) (k : Nat) : Bool :=
  decide (lineSpace k = space) && decide (first * 65536 ≤ lineAddr k) && decide (lineAddr k < first * 65536 + 65536)

/-- A frame holds bytes the pool does not have: dirty units, or dirty lines of it in L2. -/
def Mem.dirtyFrame (m : Mem) (f : Nat) : Bool :=
  let x := m.frame f
  decide (x.dirty ≠ 0) || m.l2.any fun p => p.2.dirty && lineIn 0 x.pfn p.1

/-- A way may be a victim (R90). -/
def Mem.eligible (m : Mem) (f : Nat) : Bool :=
  let x := m.frame f
  !x.pinned && !x.carved && !x.filling && decide (x.relaying = none) && !(m.expiredAt (x.pfn * 65536) && m.dirtyFrame f)
    && !m.reserved f

/-- A frame is invalid: it holds nothing and nothing is on its way. -/
def Frame.isInvalid (x : Frame) : Bool := !x.valid && !x.filling && !x.carved

/-- The victim way of a set (R90): the lowest invalid way, else the eligible way with the lowest counter, ties to the
lowest way. -/
def Mem.victim (m : Mem) (set : Nat) : Option Nat :=
  let ways := (List.range 16).map (frameOf set)
  match ways.find? fun f => (m.frame f).isInvalid with
  | some f => some f
  | none => (ways.filter m.eligible).foldl (fun b f =>
      match b with
      | none => some f
      | some g => if (m.frame f).counter.toNat < (m.frame g).counter.toNat then some f else b) none

/-- Copy `n` bytes from one store to another, keys with them: a frame holds ciphertext as the pool stores it (R85). -/
def copyBytes (src dst : SMap Byte) (from_ to_ n : Nat) : SMap Byte :=
  SMap.paste (fun k => k - from_ + to_) (src.slice from_ n) (dst.drop to_ n)

/-- As `copyBytes`, for the keys of whole lines. -/
def copyKeys (src dst : SMap (BitVec 512)) (from_ to_ n : Nat) : SMap (BitVec 512) :=
  SMap.paste (fun k => k - from_ / 128 + to_ / 128) (src.slice (from_ / 128) (n / 128)) (dst.drop (to_ / 128) (n / 128))

/-- Send one dirty 256-byte unit of a frame to the pool unchanged (R85). -/
def Mem.unitBack (m : Mem) (f u : Nat) : Mem :=
  let x := m.frame f
  let d := f * 65536 + u * 256
  let p := x.pfn * 65536 + u * 256
  { m with pool := copyBytes m.hbm m.pool d p 256, poolKey := copyKeys m.hbmKey m.poolKey d p 256,
           unaccepted := m.unaccepted ++ [(p, 256)] }

/-- Write back the dirty units of a frame, which becomes clean (R88). -/
def Mem.writeBack (m : Mem) (f : Nat) : Mem :=
  let dirty := (List.range 256).filter fun u => (m.frame f).dirty.getLsbD u
  (dirty.foldl (fun m u => m.unitBack f u) m).modFrame f fun x => { x with dirty := 0 }

/-- The bytes of a frame's place are gone. -/
def Mem.wipe (m : Mem) (f : Nat) : Mem :=
  { m with hbm := m.hbm.drop (f * 65536) 65536, hbmKey := m.hbmKey.drop (f * 512) 512 }

/-! ## L2 lines (R101 to R103, R308) -/

/-- The home die of a line (R101). -/
def homeDie (k : Nat) : Nat :=
  let a := lineAddr k
  if lineSpace k = 0 then a / 65536 % numSets % 8 / 2
  else if lineSpace k = 3 then a / 65536 % numSets % 8 / 2
  else a / 128 % 4

/-- The largest rts a slice has evicted. -/
def Mem.evm (m : Mem) (k : Nat) : W48 := m.evmax.get 0 (homeDie k)

/-- A loss notice for a line reaches a core: it clears that line's owned bits in its L1 (R103). -/
def Mem.loss (m : Mem) (k : Nat) : Option Nat → Mem
  | none => m
  | some c =>
    let i := l1Key c k
    match m.l1.find i with
    | some l => { m with l1 := m.l1.insert i { l with owned := 0 } }
    | none => m

/-- Put a dirty line's data where it belongs: HBM for a carved-out frame of space 3; for space 0 the resident frame, else (no frame, or one whose fill
is still in flight) the pool when it takes writes, else nowhere (log entry 14). Log entries 24 (DEDUCED), 79 (DEDUCED). -/
def Mem.lineHome (m : Mem) (k : Nat) (l : L2Line) : Mem :=
  let a := lineAddr k
  if lineSpace k = 3 then (if (m.frame (a / 65536)).carved then m.setHbmLine a l.key l.data else m)
  else if lineSpace k = 0 then
    match m.standing (a / 65536) with
    | some f => if (m.frame f).poisoned then m else (m.setHbmLine (f * 65536 + a % 65536) l.key l.data).modFrame f fun x =>
        { x with dirty := x.dirty ||| (1#256 <<< (a % 65536 / 256)) }
    | none => if m.writable a then m.setPoolLine a l.key l.data else m
  else m

/-- Evict a line from L2: a dirty line is written back in full, its registration ends, EVMAX takes its rts.
Log entries 14 (DEDUCED), 15 (DEDUCED). -/
def Mem.evictLine (m : Mem) (k : Nat) : Mem :=
  match m.l2.find k with
  | none => m
  | some l =>
    let m := if l.dirty then m.lineHome k l else m
    let m := m.loss k l.owner
    { m with l2 := m.l2.erase k,
             evmax := if l.remote then m.evmax else if (m.evm k).toNat < l.rts.toNat then m.evmax.put 0 (homeDie k) l.rts else m.evmax }

/-- Evict every line for which `f` holds. -/
def Mem.evictLines (m : Mem) (f : Nat → L2Line → Bool) : Mem :=
  (m.l2.filter fun p => f p.1 p.2).foldl (fun m p => m.evictLine p.1) m

/-- Drop every line for which `f` holds, unwritten: its registration ends with a loss notice (R103). -/
def Mem.discardLines (m : Mem) (f : Nat → Bool) : Mem :=
  let gone := m.l2.filter fun p => f p.1
  let m := gone.foldl (fun m p => m.loss p.1 p.2.owner) m
  { m with l2 := m.l2.filter fun p => !f p.1 }

/-- Write the lines of a frame back from L2 and drop them (R410). Log entry 24 (DEDUCED). -/
def Mem.flushFrameLines (m : Mem) (f : Nat) : Mem :=
  let x := m.frame f
  if x.carved then m.evictLines fun k _ => lineIn 3 f k else m.evictLines fun k _ => lineIn 0 x.pfn k

/-- Evict a frame: its L2 lines and dirty units are written back, and the way is free (R88, R410). Log entry 24 (DEDUCED). -/
def Mem.evictFrame (m : Mem) (f : Nat) : Mem :=
  let m := m.flushFrameLines f
  let x := m.frame f
  let m := if x.valid && !x.carved && !x.poisoned && m.writable (x.pfn * 65536) then m.writeBack f else m
  (m.wipe f).setFrame f {}

/-- Drop a frame, its L2 lines and its L1 lines without write-back (R57, R64). -/
def Mem.dropFrame (m : Mem) (f : Nat) : Mem :=
  let pfn := (m.frame f).pfn
  let m := m.discardLines (lineIn 0 pfn)
  ({ m with l1 := m.l1.filter (fun p => !lineIn 0 pfn (p.1 % 2 ^ 90)) }.wipe f).setFrame f {}

/-- Start filling a way with a pool frame (R88 to R90): the victim is evicted, the counter is 1. Log entry 24 (DEDUCED). -/
def Mem.startFill (m : Mem) (f pfn layout : Nat) : Mem :=
  (m.evictFrame f).setFrame f { pfn := pfn, filling := true, counter := 1, layout := layout }

/-- The bytes of a fill arrive: the whole frame from the pool; writes of the frame still on their way are accepted
first (R88). -/
def Mem.fillBytes (m : Mem) (f : Nat) : Mem :=
  let x := m.frame f
  let p := x.pfn * 65536
  ({ m with hbm := copyBytes m.pool m.hbm p (f * 65536) 65536, hbmKey := copyKeys m.poolKey m.hbmKey p (f * 65536) 65536,
            unaccepted := m.unaccepted.filter (fun u => !(decide (p ≤ u.1) && decide (u.1 < p + 65536))) }).modFrame f
    fun x => { x with filling := false, refetch := false, valid := true }

/-- A relayout ends: dirty units of a pool frame have been written back, where the pool takes them (R57), and the frame stands in the
new layout (R94). -/
def Mem.relaid (m : Mem) (f : Nat) : Mem :=
  let x := m.frame f
  match x.relaying with
  | none => m
  | some l => (if x.carved || x.poisoned || !m.writable (x.pfn * 65536) then m else m.writeBack f).modFrame f fun x =>
      { x with layout := l, relaying := none }

/-- Whatever a frame waits for is done at once. -/
def Mem.settle (m : Mem) (f : Nat) : Mem :=
  let m := if (m.frame f).filling then m.fillBytes f else m
  m.relaid f

/-- What the directory answers: the frame that holds the bytes, the pool itself (NC or no frame), a fault, a frame
whose fill or relayout is in flight, or an HBM stack that is not yet trained. -/
inductive Home where
  | frame (f : Nat) | pool | fault (cause : Nat) | pending (f : Nat) | stall
deriving DecidableEq, Repr

/-- An access reaches a resident frame: the counter adds 1, saturating (R89). Log entry 23 (DEDUCED). -/
def Mem.touch (m : Mem) (f : Nat) : Mem :=
  m.modFrame f fun x => { x with counter := if x.counter = 0xFFFF then x.counter else x.counter + 1 }

/-- Bring a frame to the layout of the mapping: a differing layout starts a relayout, which is counted; an access that comes
during one completes under its layout (R94). Log entries 23 (DEDUCED), 82 (DEDUCED). -/
def Mem.layoutTo (m : Mem) (f layout : Nat) : Mem :=
  if (m.frame f).layout = layout ∨ (m.frame f).relaying ≠ none then m
  else { m with relayout := bumpCount m.relayout (sliceOf f) }.modFrame f fun x => { x with relaying := some layout }

/-- A lookup that found its frame: bytes in a bank group held by a bulk stream are waited for (R95); fills and relayouts in
flight are waited for (`wait`), or finish at once. -/
def Mem.onFrame (m : Mem) (own : Option (Nat × Nat)) (f a layout : Nat) (wait : Bool) : Home × Mem :=
  if m.bankHeld own f a then (.stall, m)
  else
    let m := m.touch f
    let m := m.layoutTo f layout
    if wait && ((m.frame f).filling || decide ((m.frame f).relaying ≠ none)) then (.pending f, m)
    else (.frame f, m.settle f)

/-- The fault of the lease checks for a pool address (R16, R56, R60): a poisoned frame answers POISON unless its lease is LOST, and
otherwise the lease's state decides. Log entry 94 (DEDUCED). -/
def Mem.poolFault (m : Mem) (now : W64) (a : Nat) : Option Nat :=
  let lease := m.leaseAt a
  if ((m.hit (a / 65536)).map fun f => (m.frame f).poisoned).getD false
    then some (if (lease.map fun p => decide (p.2.st = .lost)).getD false then 0x0A else 0x0B)
  else leaseFault now lease

/-- The page-cache directory, reached by a demand access of space 0 or 3 (R16, R60, R63, R88 to R94). `ready`: which
stacks are trained (R426); `own`: the copy that asks. Log entries 22 (DEDUCED), 23 (DEDUCED). -/
def Mem.directory (m : Mem) (now : W64) (ready : Nat → Bool) (own : Option (Nat × Nat)) (l : Leaf) (a : Nat) (write wait : Bool) :
    Home × Mem :=
  if l.space = 3 then
    let f := a / 65536
    if numFrames ≤ f then (.fault 0x06, m)
    else if !ready (sliceOf f) then (.stall, m)
    else if !(m.frame f).carved then (.fault 0x06, m)
    else if write && l.sro then (.fault 0x07, m)
    else m.onFrame own f a l.layout wait
  else
    match m.poolFault now a with
    | some c => (.fault c, m)
    | none =>
      if l.sro && (write || !(((m.leaseAt a).map fun p => p.2.shared).getD false)) then (.fault 0x07, m)
      else if l.nc then (.pool, m)
      else
        let pfn := a / 65536
        if !ready (pfn % numSets % 8) then (.stall, m)
        else
          match m.hit pfn with
          | some f => m.onFrame own f a l.layout wait
          | none =>
            match m.victim (pfn % numSets) with
            | none => (.pool, { m with noframe := bumpCount m.noframe (pfn % numSets % 8) })
            | some f =>
              let m := m.startFill f pfn l.layout
              if wait then (.pending f, m) else (.frame f, m.fillBytes f)

/-! ### Filling and changing L2 lines -/

/-- The recency clock moves on. -/
def Mem.tock (m : Mem) : Mem := { m with tick := m.tick + 1 }

/-- A line's data is all zero (R102). -/
def L2Line.zeroed (l : L2Line) : L2Line := { l with zero := decide (l.data = 0) }

/-- The least recently used of some lines. -/
def oldest : SMap L2Line → Option Nat
  | [] => none
  | (k, l) :: r => match oldest r with
    | none => some k
    | some j => if (SMap.get {} r j).use < l.use then some j else some k

/-- The set of a line in its slice of 36,864 sets (R101). -/
def l2SetOf (k : Nat) : Nat := Config.l2Set k % 36864

/-- Make room in a slice for a line (R101, R102, log entry 12): a set holds at most 16 data lines and 24 lines in all; a data
line takes a data way. With fewer than 16 lines in L2 no set can be full. -/
def Mem.roomFor (m : Mem) (k : Nat) (zero : Bool) : Mem :=
  if m.l2.length < 16 then m
  else
    let set := m.l2.filter fun p => decide (p.1 ≠ k) && decide (homeDie p.1 = homeDie k) && decide (l2SetOf p.1 = l2SetOf k)
    let data := set.filter fun p => !p.2.zero
    if !zero && decide (16 ≤ data.length) then ((oldest data).map m.evictLine).getD m
    else if 24 ≤ set.length then ((oldest set).map m.evictLine).getD m
    else m

/-- Install a line in L2. -/
def Mem.install (m : Mem) (k : Nat) (l : L2Line) : Mem :=
  let m := (m.roomFor k (decide (l.data = 0))).tock
  { m with l2 := m.l2.insert k { l.zeroed with use := m.tick } }

/-- A line that stands in L2 changes: a zero line that becomes a data line takes a data way (R102). -/
def Mem.setLine (m : Mem) (k : Nat) (l : L2Line) : Mem :=
  let m := if ((m.l2.find k).map (·.zero)).getD false && decide (l.data ≠ 0) then m.roomFor k false else m
  { m with l2 := m.l2.insert k l.zeroed }

/-- The stored data of a line, whatever its lease: the frame it stands in, else the pool (spaces 0 and 3). Log entry 22 (DEDUCED). -/
def Mem.rawLine (m : Mem) (k key : Nat) : BitVec 1024 :=
  let a := lineAddr k
  if lineSpace k = 3 then m.hbmLine a key a
  else if lineSpace k = 0 then
    match m.standing (a / 65536) with
    | some f => m.hbmLine (f * 65536 + a % 65536) key a
    | none => m.poolLine a key
  else 0

/-- A line held under another key id is written back and dropped first (R86). -/
def Mem.rekey (m : Mem) (k key : Nat) : Mem :=
  match m.l2.find k with
  | some l => if l.key = key then m else m.evictLine k
  | none => m

/-- The directory access of a line that is past its checks: the frame's counter counts it (R89), and a pool frame that is not
resident is filled first (R88), but for a mapping with NC = 1, a range that takes no writes, or a set with no eligible way (R91).
Log entries 22 (DEDUCED), 23 (DEDUCED). -/
def Mem.homeFrame (m : Mem) (k : Nat) (nc : Bool) : Mem :=
  let a := lineAddr k
  if lineSpace k = 3 then (if (m.frame (a / 65536)).carved then m.touch (a / 65536) else m)
  else if lineSpace k ≠ 0 || nc then m
  else
    match m.hit (a / 65536) with
    | some f => if (m.frame f).poisoned then m else (m.touch f).settle f
    | none =>
      if !m.writable a then m
      else
        match m.victim (a / 65536 % numSets) with
        | none => { m with noframe := bumpCount m.noframe (a / 65536 % numSets % 8) }
        | some f => (m.startFill f (a / 65536) 0).fillBytes f

/-- Have a line of space 0 or 3 in L2, with no check (write-backs from an L1, engine writes past their checks).
Log entries 20 (DEDUCED), 22 (DEDUCED). -/
def Mem.bring (m : Mem) (k key : Nat) (nc : Bool := false) : Mem :=
  let m := m.rekey k key
  match m.l2.find k with
  | some _ => m
  | none =>
    let m := m.homeFrame k nc
    m.install k { key := key, data := m.rawLine k key, wts := m.evm k, rts := m.evm k }

/-- Bytes written at the home slice by anyone but a release (R103, R308): the data change, the words lose their
owner, the timestamps advance. `rt`: the writer's RT, 0 for a local one. Log entry 20 (DEDUCED). -/
def Mem.homeWrite (m : Mem) (k off n v : Nat) (rt : W48) : Mem :=
  match m.l2.find k with
  | none => m
  | some l =>
    let w := wordMask off n
    let m := if l.mask &&& w = 0 then m else m.loss k l.owner
    let ts := BitVec.ofNat 48 (Nat.max rt.toNat (l.rts.toNat + 1))
    let m := m.tock
    m.setLine k { l with data := lset l.data off n v, dirty := true, mask := l.mask &&& ~~~w, wts := ts, rts := ts, use := m.tick }

/-- Words written by an L1: registered to the core at a release (R103), or unregistered from every owner on an L1
eviction (log entry 15). -/
def Mem.wordsIn (m : Mem) (core k key : Nat) (nc : Bool) (words : BitVec 32) (data : BitVec 1024) (register : Bool) : Mem :=
  if words = 0 then m
  else
    let m := m.bring k key nc
    match m.l2.find k with
    | none => m
    | some l =>
      let mine := decide (l.owner = some core)
      let m := if mine || decide (l.owner = none) then m
        else if register || decide (l.mask &&& words ≠ 0) then m.loss k l.owner else m
      let ts := l.rts + 1
      let l := { l with data := mergeWords l.data data words, dirty := true, wts := ts, rts := ts }
      let l := if register then { l with owner := some core, mask := if mine then l.mask ||| words else words }
        else if mine then l else { l with mask := l.mask &&& ~~~words }
      m.setLine k l

end Sys2Proof.Machine
end

