-- ==== Sys2Proof/Machine/Remote.lean ====
section
/-! DEFINITION. Requests that leave the package: over the host tether (R420 to R424) and over the fabric's links to
peers (R283 to R291, R306 to R308). -/

namespace Sys2Proof.Machine

/-! ## Host tether -/

/-- The host is lost and the deadline has passed: reads, atomics and translation requests fault at issue (R423). -/
def State.hostGone (s : State) : Bool := decide (s.host.tether = .lost) && decide (s.host.deadline.toNat ≤ s.timeNs.toNat)

/-- Bytes a request counts for (R421). -/
def Req.weight (r : Req) : Nat := r.bytes
/-- A request writes: a write, or a command's signal (R353, R424). -/
def Req.isWrite (r : Req) : Bool :=
  match r.kind, r.waiter with
  | .write, _ => true
  | .atom _ _, .cmd _ => true
  | _, _ => false
/-- A request has its answer. -/
def Req.answered (r : Req) : Bool := r.ans.isSome || r.line.isSome
/-- Requests on the tether, those that wait at the link die and those already answered left out. -/
def HostLink.flying (h : HostLink) : SMap Req := h.reqs.filter fun p => !h.waiting.contains p.1 && !p.2.answered
/-- A request fits the limits of R421: in its direction at most 4,096 requests and 8 MiB. -/
def HostLink.fits (h : HostLink) (r : Req) : Bool :=
  let out := h.flying.filter fun p => decide (p.2.isWrite = r.isWrite)
  decide (out.length < 4096) && decide ((out.foldl (fun n p => n + p.2.weight) 0) + r.weight ≤ 8388608)
/-- Bytes held in the park area (R424). Log entry 67 (DESIGN CHOICE). -/
def HostLink.parkBytes (h : HostLink) : Nat := h.parked.foldl (fun n p => n + p.bytes.length) 0
/-- Park frames in use. Log entry 67 (DESIGN CHOICE). -/
def HostLink.parkUse (h : HostLink) : Nat := (h.parkBytes + 65535) / 65536

/-- Issue a request on the tether; it gets a tag. A write issued while the host is lost or replay runs is parked
(R424); what passes a limit waits at the link die (R421). -/
def State.askHost (s : State) (r : Req) : Nat × State :=
  let h := s.host
  let tag := h.nextTag
  let r := { r with sent := s.timeNs }
  let h := { h with nextTag := tag + 1 }
  let h :=
    if r.isWrite && decide (h.tether ≠ .attached) then
      if h.parkBytes + r.body.length ≤ h.parkFrames * 65536 then
        { h with reqs := h.reqs.insert tag { r with parked := true },
                 parked := h.parked ++ [{ ctx := r.ctx, addr := BitVec.ofNat 64 r.addr, bytes := r.body, req := tag }] }
      else { h with reqs := h.reqs.insert tag r, waiting := h.waiting ++ [tag] }
    else if h.fits r && decide (h.waiting = []) then { h with reqs := h.reqs.insert tag r }
    else { h with reqs := h.reqs.insert tag r, waiting := h.waiting ++ [tag] }
  (tag, { s with host := h })

/-- Requests that waited at the link die leave, in issue order, as far as they fit. -/
def HostLink.release (h : HostLink) : Nat → HostLink
  | 0 => h
  | n + 1 =>
    match h.waiting with
    | [] => h
    | t :: rest =>
      let r := h.reqs.get { kind := .read, waiter := .engine, ctx := 0 } t
      if r.isWrite && decide (h.tether ≠ .attached) then
        if h.parkBytes + r.body.length ≤ h.parkFrames * 65536 then
          ({ h with waiting := rest, reqs := h.reqs.insert t { r with parked := true },
                    parked := h.parked ++ [{ ctx := r.ctx, addr := BitVec.ofNat 64 r.addr, bytes := r.body, req := t }] } : HostLink).release n
        else h
      else if h.fits r then ({ h with waiting := rest } : HostLink).release n
      else h

/-- A request has reached the tether, or has left the list: it neither waits at the link die nor is parked. -/
def HostLink.reached (h : HostLink) (tag : Nat) : Bool :=
  !h.waiting.contains tag && !h.parked.any fun p => decide (p.req = tag) && !p.sent

/-- The completions of the ATS invalidations whose accesses have all reached the tether are sent (R80). -/
def HostLink.completeInvals (h : HostLink) : HostLink :=
  let done := fun (i : Inval) => i.tags.all h.reached
  if h.invals = [] then h
  else { h with invals := h.invals.filter fun i => !done i,
                completed := h.completed ++ (h.invals.filter done).map fun i => (i.pasid, i.page, i.bytes) }

/-- Take an answered request off the tether; others that waited may leave. -/
def State.dropHost (s : State) (tag : Nat) : State :=
  let h := { s.host with reqs := s.host.reqs.erase tag, parked := s.host.parked.filter (fun p => decide (p.req ≠ tag)) }
  { s with host := h.release h.waiting.length }

/-- A write of bytes to host memory (space 1, RPTR, signal, pager-free engine writes). Log entry 65 (DEDUCED). -/
def State.hostWrite (s : State) (w : Waiter) (ctx : Nat) (a : Nat) (bytes : List Byte) : Nat × State :=
  s.askHost { kind := .write, waiter := w, ctx := ctx, addr := a, bytes := bytes.length, body := bytes }

/-! ## Links and routes -/

/-- The fabric group of a device id (R283). -/
def devGroup (d : Nat) : Nat := d / 32
/-- The member number of a device id. -/
def devMember (d : Nat) : Nat := d % 32

/-- The local link to a member of the own group (R284). -/
def Fabric.localLink (f : Fabric) (m : Nat) : Nat := if m < devMember f.devid then m else m - 1

/-- The first own link of the way over a group link (R284, R289): the own global link, or the local link to the member
that has it, when that is up. Global link l of the device is link 31 + l. -/
def Fabric.toGroupLink (f : Fabric) (g : Nat) : Option Nat :=
  if g / 256 = devMember f.devid then some (31 + g % 256)
  else if f.localUp.get false (g / 256) then some (f.localLink (g / 256)) else none

/-- The first links of the routes to a group (R289). -/
def Fabric.toGroup (f : Fabric) (g : Nat) : List Nat := (f.routes.get [] g).filterMap f.toGroupLink

/-- The first links of the minimal routes to a device (R289): none to one that is not installed (R283). -/
def Fabric.minimal (f : Fabric) (dst : Nat) : List Nat :=
  if f.absent.contains dst then []
  else if devGroup dst = devGroup f.devid then
    if f.localUp.get false (devMember dst) then [f.localLink (devMember dst)] else []
  else f.toGroup (devGroup dst)

/-- A peer is reachable (R291); a device reaches itself. Log entry 77 (DEDUCED). -/
def Fabric.reach (f : Fabric) (dst : Nat) : Bool := decide (dst = f.devid) || !(f.minimal dst).isEmpty

/-- A peer is reachable from the device (R291), once the links to its group's kind are ready (R426). -/
def State.reach (s : State) (dst : Nat) : Bool :=
  s.fabric.reach dst && (decide (dst = s.fabric.devid)
    || s.boot.ready.getLsbD (if devGroup dst = devGroup s.fabric.devid then 18 else 19))

/-- A link. -/
def Fabric.link (f : Fabric) (l : Nat) : Link := f.links.get {} l
/-- Change a link. -/
def Fabric.modLink (f : Fabric) (l : Nat) (g : Link → Link) : Fabric := { f with links := f.links.insert l (g (f.link l)) }
/-- Flits queued on a link. -/
def Link.backlog (l : Link) : Nat := l.queue.foldl (fun n m => n + m.flits) 0

/-- The links of some that take new packets (R311): those that are up; where none is, those a packet waits for. -/
def Fabric.open_ (f : Fabric) (ls : List Nat) : List Nat :=
  let up := ls.filter fun l => decide ((f.link l).phase = .up)
  let waits := ls.filter fun l => decide ((f.link l).phase ≠ .down)
  if up ≠ [] then up else if waits ≠ [] then waits else ls

/-- The link that the fixed hash of source and target picks of some (R290); an ordered packet follows one of the same source and
target that still waits at this device. Log entry 25 (DESIGN CHOICE). -/
def Fabric.hashed (f : Fabric) (src dst : Nat) (ordered : Bool) (ls : List Nat) : Option Nat :=
  let before := ls.find? fun l => (f.link l).queue.any fun m => decide (m.src = src) && decide (m.dst = dst)
  if ordered && before.isSome then before
  else
    let o := f.open_ ls
    o[Config.routeHash src dst % o.length]?

/-- The groups a Valiant route to a group may go through (R289): those with usable links from the own group and to the target's. -/
def Fabric.between (f : Fabric) (g : Nat) : List Nat :=
  (f.mids.get [] g).filter fun m => decide (m ≠ g) && decide (m ≠ devGroup f.devid) && !(f.toGroup m).isEmpty

/-- The first link of a packet, and the group its route goes through first (R289, R290): the ordered class takes the minimal route its
hash picks; an unordered packet takes the Valiant route through a drawn group when the minimal queue is longer than twice the other
plus 16. Log entry 25 (DESIGN CHOICE). -/
def Fabric.pick (f : Fabric) (dst : Nat) (ordered : Bool) (draw : Nat) : Option (Nat × Option Nat) :=
  match f.hashed f.devid dst ordered (f.minimal dst) with
  | none => none
  | some m =>
    let mids := f.between (devGroup dst)
    if ordered || decide (devGroup dst = devGroup f.devid) then some (m, none)
    else
      match (mids[draw % mids.length]?).bind fun g => (f.hashed f.devid dst false (f.toGroup g)).map fun v => (v, some g) with
      | none => some (m, none)
      | some v => if (f.link v.1).backlog * 2 + 16 < (f.link m).backlog then some v else some (m, none)

/-- The first links of the ways a packet may take from here (R289): toward the group its route goes through, until it is there, and
then toward its target. -/
def Fabric.ways (f : Fabric) (m : OutMsg) : List Nat :=
  match m.via.filter fun g => decide (g ≠ devGroup f.devid) with
  | some g => f.toGroup g
  | none => f.minimal m.dst

/-- The link on which a router passes a packet on (R289); packets of one source to one target keep their order. -/
def Fabric.next (f : Fabric) (m : OutMsg) : Option Nat := f.hashed m.src m.dst true (f.ways m)

/-- A message joins the queue of a link. -/
def Fabric.enqueue (f : Fabric) (l : Nat) (m : OutMsg) : Fabric :=
  { (f.modLink l fun k => { k with queue := k.queue ++ [{ m with num := f.nextMsg, all := m.flits }] }) with nextMsg := f.nextMsg + 1 }

/-- Hand a packet to the links: it waits in the queue of its first link as ceil((64 + p) / 224) flits on its virtual
channel (R285, R287). A packet to the own device uses no link. -/
def State.sendMsg (s : State) (dst vc payload : Nat) (ordered : Bool) (words : List W64) (body : SMap Byte := []) : State :=
  if dst = s.fabric.devid then s
  else
    let n := s.draw
    match s.fabric.pick dst ordered n.1.toNat with
    | none => s
    | some (l, via) =>
      let s := if ordered then s else n.2
      let fl := (64 + payload + 223) / 224
      { s with fabric := s.fabric.enqueue l { num := 0, dst := dst, vc := vc, flits := fl, words := words, body := body, src := s.fabric.devid, via := via } }

/-- A packet of the device still waits in a queue, by the words it begins with. -/
def State.queued (s : State) (ws : List W64) : Bool :=
  s.fabric.links.any fun p => p.2.queue.any fun m => decide (m.words.take ws.length = ws)

/-- The request of an access to a peer leaves: it carries RT (R308). -/
def State.sendReq (s : State) (n : Nat) (r : Req) : State :=
  let rt := (s.context r.ctx).rt
  let s := { s with fabric := { s.fabric with reqs := s.fabric.reqs.insert n { r with sent := s.timeNs, rt := rt } } }
  s.sendMsg r.peer 0 r.body.length true [2, BitVec.ofNat 64 n, rt.setWidth 64]

/-- Issue an access to a peer's memory (R306): it gets a number, and its packet is handed to the links. Log entry 77 (DEDUCED). -/
def State.askPeer (s : State) (r : Req) : Nat × State :=
  let n := s.fabric.nextReq
  (n, ({ s with fabric := { s.fabric with nextReq := n + 1 } } : State).sendReq n r)

/-- Take an answered access off the list. -/
def State.dropPeer (s : State) (n : Nat) : State :=
  { s with fabric := { s.fabric with reqs := s.fabric.reqs.erase n } }

/-! ## Logical times (R308) -/

/-- A reply or an acknowledgement with a write time arrives for a context: MAXW rises. -/
def State.sawWts (s : State) (c : Nat) (w : W48) : State :=
  s.modContext c fun x => { x with maxw := if x.maxw.toNat < w.toNat then w else x.maxw }
/-- A release or an acquire at .sys: RT rises to MAXW. -/
def State.raiseRt (s : State) (c : Nat) : State :=
  s.modContext c fun x => { x with rt := if x.rt.toNat < x.maxw.toNat then x.maxw else x.rt }
/-- The context's sticky FABRIC bit (R306, R423, R456). -/
def State.stickyFabric (s : State) (c : Nat) : State := s.modContext c fun x => { x with fabric := true }

end Sys2Proof.Machine
end

