-- ==== Sys2Proof/Machine/Memory.lean ====
section
/-! DEFINITION. Global memory as an access sees it: translation (R70 to R84), L1 (R105), loads, stores and atomics
(R115 to R134), releases and acquires (R336, R337), and the scratchpad through a scratch address (R118). -/

namespace Sys2Proof.Machine

/-! ## Translation -/

/-- The kinds of access (Table 4-4). -/
inductive AKind where
  | read | write | fetch
deriving DecidableEq, Repr

/-- Bits [63:57] all equal bit 56 (R70). -/
def canonical (va : W64) : Bool := decide (va.toNat / 2 ^ 56 = 0) || decide (va.toNat / 2 ^ 56 = 255)

/-- Page sizes (Table 4-3). -/
def pageBytes (code : Nat) : Nat :=
  [4096, 16384, 65536, 262144, 1048576, 2097152, 16777216, 67108864, 268435456, 1073741824].getD code 4096

/-- The size codes a level's leaf may hold (Table 4-1). -/
def sizeAt (level code : Nat) : Bool :=
  match level with
  | 1 => decide (code ≤ 4)
  | 2 => decide (5 ≤ code) && decide (code ≤ 8)
  | 3 => decide (code = 9)
  | _ => false

/-- A leaf entry's fields (Table 4-2). -/
def leafOf (w : W64) : Leaf :=
  { key := wbits w 56 8, size := wbits w 52 4, space := wbits w 48 4, index := wbits w 12 36, pd := w.getLsbD 10,
    nc := w.getLsbD 9, sro := w.getLsbD 8, layout := wbits w 6 2, glob := w.getLsbD 5, user := w.getLsbD 4,
    exec := w.getLsbD 3, write := w.getLsbD 2 }

/-- Steps 3 and 4 of Table 4-4 at a level. -/
def leafOk (level : Nat) (l : Leaf) : Bool :=
  sizeAt level l.size && decide (l.space < 4) && decide (l.layout < 3)
    && (!(decide (l.space = 0) || decide (l.space = 3)) || decide (l.index * 4096 % pageBytes l.size = 0))
    && (!decide (l.space = 1) || decide (l.index = 0))
    && (match l.space with
      | 0 => decide (1 ≤ l.key)
      | 3 => true
      | _ => decide (l.key = 0))

/-- Read an 8-byte table entry in device memory under key 0, where the frame is carved out (R71, R92). -/
def Mem.entry (m : Mem) (a : Nat) : Option W64 :=
  if numFrames ≤ a / 65536 then none
  else if !(m.frame (a / 65536)).carved then none
  else
    let k := lineKey 3 0 a
    let d := match m.l2.find k with
      | some l => underKey l.data (m.keyMat l.key) (m.keyMat 0) a
      | none => m.hbmLine a 0 a
    some (BitVec.ofNat 64 (lget d (a % 128) 8))

/-- What a walk has read (R71): the level, address and word of the leaf, and the pointing entries above it, each with its level
and the table it points to. -/
structure Walked where
  level : Nat
  addr : Nat
  word : W64
  ptrs : List (Nat × Nat)
deriving DecidableEq, Repr

/-- Walk from a table of level n down (R71, R72); `ptrs`: the pointing entries read so far. -/
def Mem.walk (m : Mem) (va : W64) (ptrs : List (Nat × Nat)) : Nat → Nat → Option Walked
  | 0, _ => none
  | n + 1, table =>
    let a := table + 8 * (va.toNat / 2 ^ (12 + 9 * n) % 512)
    match m.entry a with
    | none => none
    | some w =>
      if !w.getLsbD 0 then none
      else if w.getLsbD 1 then if 3 ≤ n then none else some { level := n + 1, addr := a, word := w, ptrs := ptrs }
      else if n = 0 then none
      else if w.toNat ≠ wbits w 12 36 * 4096 + 1 then none
      else m.walk va ((n + 1, wbits w 12 36 * 4096) :: ptrs) n (wbits w 12 36 * 4096)

/-- The bits of an address that a pointing entry of a level is read for (Table 4-1). -/
def walkTag (level : Nat) (va : W64) : Nat := va.toNat % 2 ^ 57 / 2 ^ (3 + 9 * level)

/-- Where a walk starts (R81): at the table of the lowest pointing entry that the die's walk cache holds, else at the root. -/
def Mem.walkStart (m : Mem) (die ctx : Nat) (va : W64) (root : Nat) : Nat × Nat :=
  let at_ := fun (n : Nat) => m.walks.find? fun e => decide (e.die = die) && decide (e.ctx = ctx) && decide (e.level = n)
    && decide (e.tag = walkTag n va)
  match [2, 3, 4, 5].findSome? at_ with
  | some e => (e.level - 1, e.table)
  | none => (5, root)

/-- Set the A bit of a leaf entry by an atomic OR (R77). -/
def Mem.setA (m : Mem) (a : Nat) (w : W64) : Mem :=
  if w.getLsbD 11 then m
  else
    let m := m.bring (lineKey 3 0 a) 0
    m.homeWrite (lineKey 3 0 a) (a % 128) 8 (w.toNat + 2048) 0

/-- Steps 5 and 6 of Table 4-4, checked on every use. -/
def Mem.useFault (m : Mem) (l : Leaf) (mode : Mode) (k : AKind) : Option Nat :=
  if l.key ≠ 0 ∧ (m.keys.find l.key).isNone then some 0x16
  else if !l.user && decide (mode = .user) then some 0x07
  else if decide (k = .write) && !l.write then some 0x07
  else if decide (k = .fetch) && !l.exec then some 0x07
  else if decide (k = .fetch) && decide (l.space = 1 ∨ l.space = 2) then some 0x07
  else none

/-- What a translation gives: the leaf and the address in its space; a fault; or a host translation to ask for. -/
inductive Xl where
  | ok (l : Leaf) (a : Nat) | fault (cause : Nat) | ats
deriving DecidableEq, Repr

/-- The entry of an address in the TLB of a core (0 to 287) or of a die (288 + d) (R81, R83). -/
def Mem.tlbHit (m : Mem) (holder ctx : Nat) (va : W64) : Option TlbEntry :=
  m.tlb.find? fun e => decide (e.holder = holder) && (e.leaf.glob || decide (e.ctx = ctx)) && decide (e.page ≤ va.toNat)
    && decide (va.toNat < e.page + pageBytes e.leaf.size)

/-- Sets and ways of a TLB (Table 4-5). -/
def tlbSize (holder : Nat) : Nat × Nat := if holder < 288 then (256, 8) else (2048, 16)

/-- Put a translation into a TLB: where its set is full, the entry that `pick` names leaves. Log entry 13 (DESIGN CHOICE). -/
def Mem.tlbPut (m : Mem) (e : TlbEntry) (pick : Nat) : Mem :=
  let (sets, ways) := tlbSize e.holder
  let same := fun (x : TlbEntry) => decide (x.holder = e.holder) && decide (Config.tlbSet x.page % sets = Config.tlbSet e.page % sets)
  let set := m.tlb.filter same
  let out := if ways ≤ set.length then set[pick % set.length]? else none
  { m with tlb := e :: m.tlb.filter fun x => decide (some x ≠ out) }

/-- Put a pointing entry into a die's walk cache of 1,024 entries (R81). Log entry 13 (DESIGN CHOICE). -/
def Mem.walkPut (m : Mem) (e : WalkEntry) (pick : Nat) : Mem :=
  let mine := m.walks.filter fun x => decide (x.die = e.die)
  let out := if 1024 ≤ mine.length then mine[pick % mine.length]? else none
  { m with walks := e :: m.walks.filter fun x => decide (some x ≠ out) && !(decide (x.die = e.die) && decide (x.ctx = e.ctx)
      && decide (x.level = e.level) && decide (x.tag = e.tag)) }

/-- The ATC entry of an address (R78). -/
def Mem.atcHit (m : Mem) (pasid : Nat) (va : W64) : Option AtcEntry :=
  m.atc.find? fun e => decide (e.pasid = pasid) && decide (e.page * 4096 ≤ va.toNat)
    && decide (va.toNat < e.page * 4096 + e.bytes)

/-- The address a leaf gives in its space (R74); for space 1 the host address of an ATS grant. -/
def Leaf.addr (l : Leaf) (va : W64) : Nat :=
  let off := va.toNat % pageBytes l.size
  if l.space = 2 then l.index % 2 ^ 18 * pageBytes l.size + off else l.index * 4096 + off
/-- The peer of a space-2 leaf (Table 4-2). -/
def Leaf.peer (l : Leaf) : Nat := if l.space = 2 then l.index / 2 ^ 18 else 0

/-- Who makes an access: core, context and mode, the group to tell; `copy`: the team and number of the copy it is made for. -/
structure Acc where
  core : Nat
  ctx : Nat
  mode : Mode
  gid : Nat
  copy : Option (Nat × Nat) := none

/-- Step 7 of Table 4-4 for a host page (R79): a grant translates it; without one the host is asked. -/
def State.viaAts (s : State) (ctx : Nat) (va : W64) (l : Leaf) (k : AKind) : Xl :=
  let ask := if s.hostGone then Xl.fault 0x13 else .ats
  match s.mem.atcHit (s.context ctx).pasid va with
  | none => ask
  | some e => if decide (k = .write) && !e.ans.write then ask else .ok l (e.ans.hpage * 4096 + (va.toNat - e.page * 4096))

/-- Where a translation comes from: the core's TLB, its die's TLB, or a walk. -/
inductive Source where
  | core | die | walk (w : Walked)
deriving DecidableEq, Repr

/-- The die whose TLB, walk cache and walkers serve a core (R81, R454). -/
def State.tlbDie (s : State) (core : Nat) : Nat := s.physOf core / 72

/-- The leaf of an address for an access, steps 1 to 6 of Table 4-4 passed, and where it comes from; or the fault. A cached leaf
serves every address of its page, and a walk takes the entry on its own path, where the entries of a run differ (R75).
Log entries 81 (DEDUCED), 95 (DESIGN CHOICE). -/
def State.leafFor (s : State) (x : Acc) (va : W64) (k : AKind) : Except Nat (Leaf × Source) :=
  if !canonical va then .error 0x06
  else
    let use := fun (l : Leaf) (f : Source) =>
      match s.mem.useFault l x.mode k with
      | some c => Except.error c
      | none => .ok (l, f)
    match s.mem.tlbHit x.core x.ctx va with
    | some e => use e.leaf .core
    | none =>
      match s.mem.tlbHit (288 + s.tlbDie x.core) x.ctx va with
      | some e => use e.leaf .die
      | none =>
        let start := s.mem.walkStart (s.tlbDie x.core) x.ctx va (s.context x.ctx).root.toNat
        match s.mem.walk va [] start.1 start.2 with
        | none => .error 0x06
        | some w => if leafOk w.level (leafOf w.word) then use (leafOf w.word) (.walk w) else .error 0x06

/-- The translation enters the TLB of a core or die. -/
def State.tlbKeep (s : State) (holder ctx : Nat) (va : W64) (l : Leaf) : State :=
  let n := s.draw
  let e : TlbEntry := { ctx := ctx, page := va.toNat / pageBytes l.size * pageBytes l.size, leaf := l, holder := holder }
  { (if (s.mem.tlb.filter fun x => decide (x.holder = holder)).length < 8 then s else n.2) with mem := s.mem.tlbPut e n.1.toNat }

/-- A translation that has passed every check is cached where it was not; a walk sets A first (R77). Log entry 81 (DEDUCED). -/
def State.cacheLeaf (s : State) (x : Acc) (va : W64) (l : Leaf) : Source → State
  | .core => s
  | .die => s.tlbKeep x.core x.ctx va l
  | .walk w =>
    let die := s.tlbDie x.core
    let m := s.mem.setA w.addr w.word
    let n := s.draw
    let m := w.ptrs.foldl (fun m p => m.walkPut { die := die, ctx := x.ctx, level := p.1, tag := walkTag p.1 va, table := p.2 } n.1.toNat) m
    let s := if s.mem.walks.length < 1024 then s else n.2
    (({ s with mem := m } : State).tlbKeep (288 + die) x.ctx va l).tlbKeep x.core x.ctx va l

/-- Translate an address for an access (Table 4-4, R76 to R79). Log entries 13 (DESIGN CHOICE), 81 (DEDUCED). -/
def State.xlate (s : State) (x : Acc) (va : W64) (k : AKind) : Xl × State :=
  match s.leafFor x va k with
  | .error c => (.fault c, s)
  | .ok (l, f) =>
    match (if l.space = 1 then s.viaAts x.ctx va l k else .ok l (l.addr va)) with
    | .ok l a => (.ok l a, s.cacheLeaf x va l f)
    | r => (r, s)

/-! ## L2 as an access reaches it -/

/-- An HBM stack is trained (R425, R426). -/
def State.stackReady (s : State) (i : Nat) : Bool := s.boot.ready.getLsbD (8 + i)

/-- A slice's or core's valid bit of a lease stands: the lease is ACTIVE, or the clear has not reached it (R58). -/
def Lease.validIn (l : Lease) (recv : Nat) : Bool := decide (l.st = .active) || l.stale.contains recv

/-- A receiver's valid bit stands for a pool line's lease (R58): 0 to 3 the home slices, 4 + core the cores. -/
def Mem.validAt (m : Mem) (recv k : Nat) : Bool :=
  if lineSpace k = 0 then ((m.leaseAt (lineAddr k)).map fun p => p.2.validIn recv).getD false else true

/-- What having a line in L2 comes to: `here`, or `slow` where the pool supplied it with no frame; the frame, or the pool, that
is to supply it; a fault; a fill to wait for; not yet. -/
inductive Got where
  | here | slow | frame (f : Nat) | pool | fault (cause : Nat) | pending (f : Nat) | stall
deriving DecidableEq, Repr

/-- The fault of a store or an atomic to an SRO page (R63): the lease checks come before it (R119). Log entry 96 (DESIGN CHOICE). -/
def State.sroFault (s : State) (l : Leaf) (a : Nat) : Nat :=
  if l.space = 0 then (s.mem.poolFault s.timeNs a).getD 0x07 else 0x07

/-- Look a space-0 or space-3 line up in L2 and then at the directory (stages 4 to 6 of Table 1-5). A hit on a pool line takes
both the slice's and the core's valid bit (R58). -/
def State.l2Find (s : State) (x : Acc) (l : Leaf) (a : Nat) (write wait : Bool) : Got × State :=
  let k := lineKey l.space 0 a
  let m := s.mem.rekey k l.key
  if write && l.sro then (.fault (s.sroFault l a), { s with mem := m })
  else
    match m.l2.find k with
    | some y =>
      if m.validAt (homeDie k) k && m.validAt (4 + x.core) k then
        let m := m.tock
        (.here, { s with mem := { m with l2 := m.l2.insert k { y with use := m.tick } } })
      else
        match m.directory s.timeNs s.stackReady x.copy l a write wait with
        | (.fault c, m) => (.fault c, { s with mem := m })
        | (.stall, m) => (.stall, { s with mem := m })
        | (_, m) => (.here, { s with mem := m })
    | none =>
      match m.directory s.timeNs s.stackReady x.copy l a write wait with
      | (.fault c, m) => (.fault c, { s with mem := m })
      | (.pending f, m) => (.pending f, { s with mem := m })
      | (.stall, m) => (.stall, { s with mem := m })
      | (.frame f, m) => (.frame f, { s with mem := m })
      | (.pool, m) => (.pool, { s with mem := m })

/-! ## L1 (R104, R105) -/

/-- Banks of a core's SRAM that form its L1 (R104). -/
def State.l1Banks (s : State) (core : Nat) : Nat :=
  16 - (s.teams.filter fun p => decide (p.2.core = core) && !p.2.saved).foldl (fun n p => n + p.2.kernel.scrb) 0

/-- The data of a line that stands in L2. -/
def Mem.l2Data (m : Mem) (k : Nat) : BitVec 1024 := ((m.l2.find k).map (·.data)).getD 0

/-- Write the dirty words of an L1 line to their L2 home; `register`: at a release (R103). -/
def Mem.l1Clean (m : Mem) (core k : Nat) (register : Bool) : Mem :=
  match m.l1.find (l1Key core k) with
  | none => m
  | some x =>
    let m := m.wordsIn core k x.key x.nc x.dirty x.data register
    let y := { x with dirty := 0, owned := if register then x.owned ||| x.dirty else x.owned }
    { m with l1 := m.l1.insert (l1Key core k) y }

/-- Take a line out of an L1, its dirty words written back. Log entry 15 (DEDUCED). -/
def Mem.l1Evict (m : Mem) (core k : Nat) : Mem :=
  let m := m.l1Clean core k false
  { m with l1 := m.l1.erase (l1Key core k) }

/-- Take a line out of an L1 that stands there under another key id. Log entry 15 (DEDUCED). -/
def Mem.l1Rekey (m : Mem) (core k key : Nat) : Mem :=
  match m.l1.find (l1Key core k) with
  | some x => if x.key = key then m else m.l1Evict core k
  | none => m

/-- Lines of one core's L1. -/
def Mem.l1Of (m : Mem) (core : Nat) : SMap L1Line := m.l1.filter fun p => decide (p.1 / 2 ^ 90 = core)

/-- The least recently used L1 line of some. -/
def oldestL1 : SMap L1Line → Option Nat
  | [] => none
  | (k, l) :: r => match oldestL1 r with
    | none => some k
    | some j => if (SMap.get ({} : L1Line) r j).use < l.use then some j else some k

/-- The lines of a core's L1 in the set of a line, which has 64 sets a bank (R105). -/
def Mem.l1SetOf (m : Mem) (core banks k : Nat) : SMap L1Line :=
  (m.l1Of core).filter fun p => decide (Config.l1Set (p.1 % 2 ^ 90) % (banks * 64) = Config.l1Set k % (banks * 64))

/-- Keep an L1 set of a line below a number of lines: the least recently used one leaves (R105, log entry 12). -/
def Mem.l1Limit (m : Mem) (core banks k most : Nat) : Mem :=
  if (m.l1Of core).length < most then m
  else if most ≤ (m.l1SetOf core banks k).length then ((oldestL1 (m.l1SetOf core banks k)).map fun j => m.l1Evict core (j % 2 ^ 90)).getD m
  else m

/-- Make room in an L1 set of 8 ways (R105, log entry 12). With fewer than 8 lines no set can be full. -/
def Mem.l1Room (m : Mem) (core banks k : Nat) : Mem := m.l1Limit core banks k 8

/-- The L1 of a core goes from `old` banks to `new` ones (R104): the sets in the banks it loses are written back and dropped, and no
set of what is left keeps more than 8 lines. Log entry 12 (DESIGN CHOICE). -/
def Mem.l1Resize (m : Mem) (core old new : Nat) : Mem :=
  if old = new then m
  else
    let lost := (m.l1Of core).filter fun p => decide (new * 64 ≤ Config.l1Set (p.1 % 2 ^ 90) % (old * 64))
    let m := lost.foldl (fun m p => m.l1Evict core (p.1 % 2 ^ 90)) m
    (m.l1Of core).foldl (fun m p => m.l1Limit core new (p.1 % 2 ^ 90) 9) m

/-- Fill the invalid words of a line in an L1 from its data at L2; `cs`: as least recently used (Table 6-2). A core whose valid bit
of the line's lease is clear keeps no copy (R58). -/
def Mem.l1Fill (m : Mem) (core banks k key : Nat) (nc : Bool) (d : BitVec 1024) (cs : Bool) : Mem :=
  if !m.validAt (4 + core) k then m
  else
    let m := m.l1Rekey core k key
    let m := if (m.l1.find (l1Key core k)).isSome then m else m.l1Room core banks k
    let x := m.l1.get ({} : L1Line) (l1Key core k)
    let m := m.tock
    let x := { x with valid := 0xFFFFFFFF, data := mergeWords d x.data x.valid, key := key, nc := nc, use := if cs then 0 else m.tick }
    { m with l1 := m.l1.insert (l1Key core k) x }

/-- A line becomes least recently used in L2 and in a core's L1 (Table 6-2, .cs). -/
def Mem.demote (m : Mem) (core k : Nat) : Mem :=
  { m with l2 := (m.l2.find k).elim m.l2 fun x => m.l2.insert k { x with use := 0 },
           l1 := (m.l1.find (l1Key core k)).elim m.l1 fun x => m.l1.insert (l1Key core k) { x with use := 0 } }

/-- The words an access needs stand valid in the core's L1, under the access's key. -/
def Mem.l1Has (m : Mem) (core k key off n : Nat) : Bool :=
  match m.l1.find (l1Key core k) with
  | some x => decide (x.key = key) && decide (x.valid &&& wordMask off n = wordMask off n)
  | none => false

/-- The bytes of a core's L1 line. -/
def Mem.l1Data (m : Mem) (core k : Nat) : BitVec 1024 := (m.l1.get ({} : L1Line) (l1Key core k)).data

/-- A line at L2 as a core reads it past its L1: with the words that are dirty there (R120, R335). -/
def Mem.coreView (m : Mem) (core k : Nat) : BitVec 1024 :=
  mergeWords (m.l2Data k) (m.l1Data core k) (m.l1.get ({} : L1Line) (l1Key core k)).dirty

/-- Write bytes in a line that stands in L1; the words become dirty. -/
def Mem.l1Store (m : Mem) (core k off n v : Nat) : Mem :=
  let x := m.l1.get ({} : L1Line) (l1Key core k)
  let x := { x with data := lset x.data off n v, dirty := x.dirty ||| wordMask off n }
  { m with l1 := m.l1.insert (l1Key core k) x }

/-- Words of a line leave an L1: they were changed at the home (R134). -/
def Mem.l1Forget (m : Mem) (core k off n : Nat) : Mem :=
  match m.l1.find (l1Key core k) with
  | none => m
  | some x =>
    let w := ~~~wordMask off n
    let x := { x with valid := x.valid &&& w, dirty := x.dirty &&& w, owned := x.owned &&& w }
    { m with l1 := m.l1.insert (l1Key core k) x }

/-! ## Lane loads that wait for a frame (R18, R88) -/

/-- Widen a loaded value to 32 or 64 bits (R117). -/
def widen (ext : Ext) (n : Nat) (v : Nat) : Nat :=
  if ext = .sign ∧ n < 4 ∧ 2 ^ (8 * n - 1) ≤ v then v + (2 ^ 32 - 2 ^ (8 * n)) else v

/-- A core's L1 takes a line that stands in L2, under a policy (Table 6-2): .cg keeps no copy there, and .cs leaves the line least
recently used in both. -/
def State.keepLine (s : State) (core k key pol : Nat) (nc : Bool) (d : BitVec 1024) : State :=
  if pol = 1 then s
  else
    let m := s.mem.l1Fill core (s.l1Banks core) k key nc d (decide (pol = 2))
    { s with mem := if pol = 2 then m.demote core k else m }

/-- A waiting lane load reads its line now that the frame stands (R18, R88). -/
def State.fillDone (s : State) (gid : Nat) (f : Nat) (r : Far) : Far × State :=
  match r.src with
  | .fill f' k key off n ext pol =>
    if f' ≠ f then (r, s)
    else
      let core := s.coreOf gid
      let m := (s.mem.l1Rekey core k key).bring k key
      let d := m.coreView core k
      ({ r with src := .value (BitVec.ofNat 64 (widen ext n (lget d off n))) },
        ({ s with mem := m } : State).keepLine core k key pol false (m.l2Data k))
  | _ => (r, s)

/-- Every far result of a group that waits for a frame. -/
def State.fillGroup (s : State) (gid f : Nat) : State :=
  let r := (s.group gid).far.foldl (fun (a : List Far × State) x => let q := a.2.fillDone gid f x; (a.1 ++ [q.1], q.2)) ([], s)
  r.2.modGroup gid fun g => { g with far := r.1 }

/-- A group waits for a frame. -/
def Group.waitsFrame (g : Group) (f : Nat) : Bool :=
  g.far.any fun r => match r.src with
    | .fill f' .. => decide (f' = f)
    | _ => false

/-- The accesses that waited for a frame go on. -/
def State.frameReady (s : State) (f : Nat) : State :=
  (s.groups.filter fun p => p.2.waitsFrame f).foldl (fun s p => s.fillGroup p.1 f) s

/-- The loads that wait for the frame of a line are served, before the line is written (R120). -/
def State.lineReady (s : State) (k : Nat) : State :=
  let n := lineAddr k / 65536
  match (if lineSpace k = 3 then some n else s.mem.hit n) with
  | some f => s.frameReady f
  | none => s

/-- Have the line of a space-0 or space-3 address in L2 (stages 4 to 7 of Table 1-5). `wait`: a lane load, which waits
for the frame; every other access takes its time inside the step, and the loads that wait for its frame are served first, from
the one fill (R18, R120). `blank`: the line is to be written whole, so that nothing is read (R130). Log entry 22 (DEDUCED). -/
def State.l2Get (s : State) (x : Acc) (l : Leaf) (a : Nat) (write wait : Bool) (blank : Bool := false) : Got × State :=
  let k := lineKey l.space 0 a
  let put := fun (s : State) (d : BitVec 1024) =>
    { s with mem := s.mem.install k { key := l.key, data := if blank then 0 else d, wts := s.mem.evm k, rts := s.mem.evm k } }
  match s.l2Find x l a write wait with
  | (.frame f, s) =>
    let s := s.frameReady f
    (.here, if (s.mem.l2.find k).isSome then s else put s (s.mem.hbmLine (f * 65536 + a % 65536) l.key a))
  | (.pool, s) => (if wait then .slow else .here, put s (s.mem.poolLine a l.key))
  | (.here, s) => (.here, if write then s.lineReady k else s)
  | o => o

/-! ## How an access ends -/

/-- How an access ends: with a value, with a far result to wait for, with a fault, with a host translation to ask
for, or not yet (an HBM stack that is not trained, writes to wait for). -/
inductive Res where
  | val (v : Nat) | far (src : FarSrc) | fault (cause : Nat) | ats | stall
deriving DecidableEq, Repr

/-- A cached line of a peer that may still be read (R307, R308). -/
def State.leased (s : State) (ctx k : Nat) : Bool :=
  match s.mem.l2.find k with
  | some l => decide ((s.context ctx).rt.toNat ≤ l.rts.toNat)
  | none => false

/-- The read of a line for a host or peer request under a policy: .ca and .cs go to the L1 of a core too, for a host line. -/
def readReq (x : Acc) (w : Waiter) (l : Leaf) (va : W64) (a n pol : Nat) : Req :=
  { kind := .read, waiter := w, ctx := x.ctx, peer := l.peer, va := va, addr := a, bytes := n, pol := pol,
    l1 := if l.space = 1 ∧ pol ≠ 1 then some x.core else none }

/-- A load of n aligned bytes (R15, R119, R123). `pol`: 0 .ca, 1 .cg, 2 .cs. `wait`: a lane load, whose frame miss
leaves a far result. Log entry 6 (DESIGN CHOICE). -/
def State.load (s : State) (x : Acc) (w : Waiter) (va : W64) (n pol : Nat) (ext : Ext) (wait : Bool) : Res × State :=
  match s.xlate x va .read with
  | (.fault c, s) => (.fault c, s)
  | (.ats, s) => (.ats, s)
  | (.ok l a, s) =>
    let k := lineKey l.space l.peer a
    let off := a % 128
    let last := fun (s : State) => if pol = 2 then { s with mem := s.mem.demote x.core k } else s
    if l.space = 2 then
      if !s.reach l.peer then (.fault 0x11, s)
      else if pol ≠ 1 ∧ s.leased x.ctx k then (.val (lget (s.mem.l2Data k) off n), last s)
      else
        let r := s.askPeer (readReq x w l va a n pol)
        (.far (.peer r.1 n ext), r.2)
    else
      let s : State := { s with mem := s.mem.l1Rekey x.core k l.key }
      if pol ≠ 1 ∧ s.mem.l1Has x.core k l.key off n then (.val (lget (s.mem.l1Data x.core k) off n), last s)
      else if l.space = 1 then
        if (s.mem.l2.find k).isSome then
          (.val (lget (s.mem.l2Data k) off n), s.keepLine x.core k l.key pol l.nc (s.mem.l2Data k))
        else if s.hostGone then (.fault 0x13, s)
        else
          let r := s.askHost (readReq x w l va a n pol)
          (.far (.host r.1 n ext), r.2)
      else
        let v := fun (s : State) => lget (s.mem.coreView x.core k) off n
        let t := fun (s : State) => s.keepLine x.core k l.key pol l.nc (s.mem.l2Data k)
        match s.l2Get x l a false wait with
        | (.fault c, s) => (.fault c, s)
        | (.pending f, s) => (.far (.fill f k l.key off n ext pol), s)
        | (.slow, s) => (.far (.slow (BitVec.ofNat 64 (widen ext n (v s)))), t s)
        | (.here, s) => (.val (v s), t s)
        | (_, s) => (.stall, s)

/-- A later store of the device has written a line: reads of it still on their way bring no copy of it (R120). -/
def State.overtake (s : State) (k : Nat) : State :=
  let old := fun (j : Nat) (r : Req) => if r.kind = .read ∧ j = k then { r with stale := true } else r
  { s with host := { s.host with reqs := s.host.reqs.map fun p => (p.1, old (lineKey 1 0 p.2.addr) p.2) },
           fabric := { s.fabric with reqs := s.fabric.reqs.map fun p => (p.1, old (lineKey 2 p.2.peer p.2.addr) p.2) } }

/-- Write bytes of a host line where copies of it stand: in L2, and in a core's L1. -/
def Mem.hostCopies (m : Mem) (core : Option Nat) (k off n v : Nat) : Mem :=
  let m := match m.l2.find k with
    | some y => m.setLine k { y with data := lset y.data off n v }
    | none => m
  match core with
  | none => m
  | some c =>
    match m.l1.find (l1Key c k) with
    | some y => { m with l1 := m.l1.insert (l1Key c k) { y with data := lset y.data off n v } }
    | none => m

/-- A store of n aligned bytes (R119, R123). A space-1 or space-2 store leaves at once as a request; `held`: the
issuer waits for a peer's acknowledgement (Table 9-1, R306). Log entries 6 (DESIGN CHOICE), 20 (DEDUCED), 96 (DESIGN CHOICE). -/
def State.store (s : State) (x : Acc) (w : Waiter) (held : Bool) (va : W64) (n v pol : Nat) : Res × State :=
  match s.xlate x va .write with
  | (.fault c, s) => (.fault c, s)
  | (.ats, s) => (.ats, s)
  | (.ok l a, s) =>
    let k := lineKey l.space l.peer a
    let off := a % 128
    if l.sro then (.fault (s.sroFault l a), s)
    else if l.space = 2 then
      if !s.reach l.peer then (.fault 0x11, s)
      else
        let s := ({ s with mem := { s.mem with l2 := s.mem.l2.erase k } } : State).overtake k
        let r := s.askPeer { kind := .write, waiter := w, ctx := x.ctx, peer := l.peer, va := va, addr := a,
                             bytes := n, body := leBytes n v }
        (if held then .far (.peer r.1 n .zero) else .val 0, r.2)
    else if l.space = 1 then
      let s := ({ s with mem := s.mem.hostCopies (some x.core) k off n v } : State).overtake k
      let r := s.hostWrite (.store x.ctx) x.ctx a (leBytes n v)
      (.val 0, r.2)
    else if pol = 1 then
      let s := { s with mem := s.mem.l1Evict x.core k }
      match s.l2Get x l a true false with
      | (.here, s) => (.val 0, { s with mem := s.mem.homeWrite k off n v 0 })
      | (.fault c, s) => (.fault c, s)
      | (_, s) => (.stall, s)
    else
      let last := fun (m : Mem) => if pol = 2 then m.demote x.core k else m
      let s : State := { s with mem := s.mem.l1Rekey x.core k l.key }
      if s.mem.l1Has x.core k l.key off n then (.val 0, { s with mem := last (s.mem.l1Store x.core k off n v) })
      else
        match s.l2Get x l a true false with
        | (.here, s) =>
          let m := s.mem.l1Fill x.core (s.l1Banks x.core) k l.key l.nc (s.mem.l2Data k) (decide (pol = 2))
          (.val 0, { s with mem := last (m.l1Store x.core k off n v) })
        | (.fault c, s) => (.fault c, s)
        | (_, s) => (.stall, s)

/-! ## Atomics (R131 to R134) -/

/-- What an atomic does to its target. -/
inductive AtomF where
  | op (o : AOp) (ty : ATy) (b : Nat) | cas (wide : Bool) (cmp new : Nat)
deriving DecidableEq, Repr

/-- A 32-bit or 64-bit operand as its type reads it. Log entry 19 (DEDUCED). -/
def atomVal (ty : ATy) (v : Nat) : Int :=
  match ty with
  | .i32 => ITy.val .i32 v | .i64 => ITy.val .i64 v | _ => v

/-- The new value of Table 6-4. Log entry 19 (DEDUCED). -/
def aopNew (o : AOp) (ty : ATy) (old b : Nat) : Nat :=
  let w := if ty.wide then 64 else 32
  if ty = .f32 then
    match o with
    | .add => ((fAdd (Fmt.read .f32 old) (Fmt.read .f32 b) .rn).round .f32 .rn 0).1
    | .min => (fMinMax .f32 false old b).1
    | .max => (fMinMax .f32 true old b).1
    | _ => b
  else
    match o with
    | .add => (old + b) % 2 ^ w
    | .min => if atomVal ty b < atomVal ty old then b else old
    | .max => if atomVal ty old < atomVal ty b then b else old
    | .and => old &&& b
    | .or => old ||| b
    | .xor => old ^^^ b
    | .exch => b
    | .inc => if b ≤ old then 0 else old + 1
    | .dec => if old = 0 ∨ b < old then b else old - 1

/-- The value an atomic leaves. Log entry 19 (DEDUCED). -/
def AtomF.new : AtomF → Nat → Nat
  | .op o ty b, old => aopNew o ty old b
  | .cas _ cmp new, old => if old = cmp then new else old

/-- Width of an atomic in bytes. -/
def AtomF.bytes : AtomF → Nat
  | .op _ ty _ => if ty.wide then 8 else 4
  | .cas wide _ _ => if wide then 8 else 4

/-- The scope of an atomic's REL and ACQ at a global target (R134). -/
def atomScope (space : Nat) : Scope := if space = 1 ∨ space = 2 then .sys else .dev

/-! ### Releases and acquires -/

/-- Every dirty word of a core's L1 goes to its L2 home and is registered to the core (R103, R336). -/
def Mem.l1Publish (m : Mem) (core : Nat) : Mem :=
  ((m.l1Of core).filter fun p => decide (p.2.dirty ≠ 0)).foldl (fun m p => m.l1Clean core (p.1 % 2 ^ 90) true) m

/-- Pool lines dirty in L2, and dirty frames, go to the pool (R336 at .sys); a lease that takes no writes keeps its
own (R57). -/
def Mem.poolPublish (m : Mem) : Mem :=
  let m := (m.l2.filter fun p => p.2.dirty && decide (lineSpace p.1 = 0)).foldl (fun m p =>
    { (m.lineHome p.1 p.2) with l2 := m.l2.insert p.1 { p.2 with dirty := false } }) m
  (m.frames.filter fun p => decide (p.2.dirty ≠ 0) && p.2.valid && !p.2.carved && !p.2.poisoned
    && m.writable (p.2.pfn * 65536)).foldl (fun m p => m.writeBack p.1) m

/-- A request of a context that a .sys release waits for: a host or peer write on its way, an atomic of its groups (R336, R424). -/
def Req.publishes (r : Req) (ctx : Nat) : Bool :=
  match r.kind, r.waiter with
  | _, .store c => decide (c = ctx)
  | .write, .cmd _ => decide (r.ctx = ctx)
  | .atom _ _, .far _ | .atom _ _, .scalar _ => decide (r.ctx = ctx)
  | _, _ => false

/-- Requests of a context that a .sys release waits for. -/
def State.storesOut (s : State) (ctx : Nat) : Bool :=
  (s.host.reqs.any fun p => p.2.publishes ctx) || (s.fabric.reqs.any fun p => p.2.publishes ctx)

/-- A lane thread's acquire has still to follow an atomic of it that is performed at the host or at a peer (R134, R330). -/
def State.acqWaits (s : State) (gid k : Nat) : Bool :=
  let out := fun (p : Nat × Req) => decide (p.2.waiter = .far gid) && decide (p.2.acq = some k)
  s.host.reqs.any out || s.fabric.reqs.any out

/-- Lane atomics of a group are still on their way to the host or to a peer (R339). -/
def State.atomsOut (s : State) (gid : Nat) : Bool :=
  let out := fun (p : Nat × Req) => decide (p.2.waiter = .far gid) && decide (p.2.kind ≠ .read)
  s.host.reqs.any out || s.fabric.reqs.any out

/-- A release at a scope begins (Table 17-2). -/
def State.releaseAt (s : State) (core : Nat) (sc : Scope) : State :=
  match sc with
  | .grp | .team => s
  | .gang | .dev => { s with mem := s.mem.l1Publish core }
  | .sys => { s with mem := (s.mem.l1Publish core).poolPublish }

/-- What a release at a scope waits for has been acknowledged. -/
def State.releaseDone (s : State) (ctx : Nat) (sc : Scope) : Bool :=
  decide (sc ≠ .sys) || (!s.storesOut ctx && decide (s.mem.unaccepted = []))

/-- The last step of a release: at .sys RT rises to MAXW (R308). -/
def State.releaseEnd (s : State) (ctx : Nat) (sc : Scope) : State := if sc = .sys then s.raiseRt ctx else s

/-- Every word of a core's L1 that is neither owned nor dirty is invalidated (R337). -/
def Mem.l1Acquire (m : Mem) (core : Nat) : Mem :=
  { m with l1 := m.l1.map fun p => if p.1 / 2 ^ 90 = core then
      (p.1, { p.2 with valid := p.2.valid &&& (p.2.owned ||| p.2.dirty) }) else p }

/-- An acquire at a scope (R337). -/
def State.acquireAt (s : State) (core ctx : Nat) (sc : Scope) : State :=
  match sc with
  | .grp | .team => s
  | .gang | .dev => { s with mem := s.mem.l1Acquire core }
  | .sys =>
    let m := s.mem.l1Acquire core
    ({ s with mem := { m with l2 := m.l2.filter fun p => !(decide (lineSpace p.1 = 1) && !p.2.dirty) } } : State).raiseRt ctx

/-- The acquire that follows an atomic performed at the host or at a peer, now that its answer has come (R134, R330). -/
def State.acquired (s : State) (r : Req) : State :=
  match r.acq, r.waiter with
  | some _, .far gid => s.acquireAt (s.coreOf gid) r.ctx .sys
  | _, _ => s

/-- An answer is the one a scalar stream waits for in an access of its own. -/
def State.ownWait (s : State) (gid : Nat) (code : W64) (tok : Nat) : Bool :=
  match (s.group gid).swait with
  | some w => decide (w.aux = [code]) && decide (w.tok = tok)
  | none => false

/-- A party has an access that has failed still to see (R142, R306, R423, R456). -/
def State.deny (s : State) (r : Req) (cause : Nat) : State :=
  let d : Denial := { waiter := r.waiter, ctx := r.ctx, page := r.va.toNat / 4096, write := decide (r.kind ≠ .read), cause := cause }
  { s with host := { s.host with denials := s.host.denials ++ [d] } }

/-- Writes of an engine are still on their way to the host or to a peer (R338). -/
def State.sideOut (s : State) (w : Waiter) : Bool :=
  let out := fun (p : Nat × Req) => decide (p.2.waiter = w) && decide (p.2.kind = .write)
  s.host.reqs.any out || s.fabric.reqs.any out

/-- The code of an atomic operation in a request. -/
def AtomF.code : AtomF → Nat
  | .op o _ _ => match o with
    | .add => 0 | .min => 1 | .max => 2 | .and => 3 | .or => 4 | .xor => 5 | .exch => 6 | .inc => 7 | .dec => 8
  | .cas _ _ _ => 15

/-- The type of an atomic operation in a request. -/
def AtomF.type : AtomF → ATy
  | .op _ t _ => t
  | .cas wide _ _ => if wide then .n64 else .n32

/-- A release that comes before an access (R133, R336), and what follows it once what it waits for has come. -/
def State.releaseThen (s : State) (x : Acc) (sc : Scope) (rel : Bool) (k : State → Res × State) : Res × State :=
  if !rel then k s
  else
    let s := s.releaseAt x.core sc
    if s.releaseDone x.ctx sc then k (s.releaseEnd x.ctx sc) else (.stall, s)

/-- A global atomic (R133, R134): performed at the L2 home for spaces 0 and 3, at the host or the peer otherwise, whose answer
makes the acquire. `thr`: the lane thread, whose later accesses wait for it. Log entries 6 (DESIGN CHOICE), 96 (DESIGN CHOICE). -/
def State.atomic (s : State) (x : Acc) (w : Waiter) (va : W64) (f : AtomF) (acq rel : Bool) (thr : Nat := 0) : Res × State :=
  match s.xlate x va .write with
  | (.fault c, s) => (.fault c, s)
  | (.ats, s) => (.ats, s)
  | (.ok l a, s) =>
    let k := lineKey l.space l.peer a
    let off := a % 128
    let n := f.bytes
    let sc := atomScope l.space
    let opnd := match f with
      | .op _ _ b => (b, 0) | .cas _ c v => (v, c)
    let req : Req := { kind := .atom f.code f.type, waiter := w, ctx := x.ctx, peer := l.peer, va := va, addr := a, bytes := n,
                       data := BitVec.ofNat 64 opnd.1, cmp := BitVec.ofNat 64 opnd.2, acq := if acq then some thr else none }
    if l.sro then (.fault (s.sroFault l a), s)
    else if l.space = 2 then
      if !s.reach l.peer then (.fault 0x11, s)
      else s.releaseThen x sc rel fun s =>
        let r := (({ s with mem := { s.mem with l2 := s.mem.l2.erase k } } : State).overtake k).askPeer req
        (.far (.peer r.1 n .zero), r.2)
    else if l.space = 1 then
      if s.hostGone then (.fault 0x13, s)
      else s.releaseThen x sc rel fun s =>
        let m := s.mem
        let r := (({ s with mem := { m with l2 := m.l2.erase k, l1 := m.l1.erase (l1Key x.core k) } } : State).overtake k).askHost req
        (.far (.host r.1 n .zero), r.2)
    else
      match ({ s with mem := s.mem.l1Evict x.core k } : State).l2Get x l a true false with
      | (.fault c, s) => (.fault c, s)
      | (.here, s) => s.releaseThen x sc rel fun s =>
        match s.l2Get x l a true false with
        | (.here, s) =>
          let old := lget (s.mem.l2Data k) off n
          let s : State := { s with mem := s.mem.homeWrite k off n (f.new old) 0 }
          (.val old, if acq then s.acquireAt x.core x.ctx sc else s)
        | (.fault c, s) => (.fault c, s)
        | (_, s) => (.stall, s)
      | (_, s) => (.stall, s)

/-! ## Accesses of engines at the home slice (R140, R141, R335) -/

/-- A leaf of pool memory while the pool ports are not up (R426). -/
def State.poolDown (s : State) (l : Leaf) : Bool := decide (l.space = 0) && !s.boot.ready.getLsbD 17

/-- Write bytes of one line at the home slice for an engine; before the pool ports are up there is no lease for pool memory (R426). -/
def State.homeStore (s : State) (x : Acc) (w : Waiter) (va : W64) (bytes : List Byte) : Res × State :=
  match s.xlate x va .write with
  | (.fault c, s) => (.fault c, s)
  | (.ats, s) => (.ats, s)
  | (.ok l a, s) =>
    let k := lineKey l.space l.peer a
    let n := bytes.length
    if s.poolDown l then (.fault 0x09, s)
    else if l.sro then (.fault (s.sroFault l a), s)
    else if l.space = 2 then
      if !s.reach l.peer then (.fault 0x11, s)
      else
        let s := ({ s with mem := { s.mem with l2 := s.mem.l2.erase k } } : State).overtake k
        let r := s.askPeer { kind := .write, waiter := w, ctx := x.ctx, peer := l.peer, va := va, addr := a, bytes := n, body := bytes }
        (.far (.peer r.1 n .zero), r.2)
    else if l.space = 1 then
      let s := ({ s with mem := s.mem.hostCopies none k (a % 128) n (ofLeBytes bytes) } : State).overtake k
      let r := s.hostWrite w x.ctx a bytes
      (.far (.host r.1 n .zero), r.2)
    else
      match s.l2Get x l a true false with
      | (.here, s) => (.val 0, { s with mem := s.mem.homeWrite k (a % 128) n (ofLeBytes bytes) 0 })
      | (.fault c, s) => (.fault c, s)
      | (_, s) => (.stall, s)

/-! ## Scratch addresses (R118) -/

/-- A team of the same gang by its place, if it is there (R366, R418). -/
def State.gangTeam (s : State) (t : Team) (i : Nat) : Option Nat :=
  (s.teams.find? fun p => decide (p.2.launch = t.launch) && decide (p.2.gang = t.gang) && decide (p.2.gidx = i)
    && !p.2.lost).map (·.1)

/-- The team and offset a scratch address names for a team, or none where it raises PERMISSION_FAULT (R106, R118).
Log entry 33 (DEDUCED). -/
def State.scratchAt (s : State) (tid : Nat) (a : Nat) : Option (Nat × Nat) :=
  let t := s.team tid
  let win := a / 2 ^ 20 % 512
  let off := a % 2 ^ 20
  if a / 2 ^ 29 ≠ 0 then none
  else
    let tgt := if win = 0 then some tid else if win ≤ t.size then s.gangTeam t (win - 1) else none
    match tgt with
    | none => none
    | some u => if off < (s.team u).size' then some (u, off) else none

end Sys2Proof.Machine
end

