-- ==== Sys2Proof/Machine/Fetch.lean ====
section
/-! DEFINITION. Fetching instructions of both streams (R23, R379). -/

namespace Sys2Proof.Machine

/-- What a fetch gives: the bytes as a number, a fault with its TVAL, or not yet (an HBM stack that is not trained). -/
inductive Fetched where
  | ok (v : Nat) | fault (cause : Nat) (tval : W64) | stall
deriving DecidableEq, Repr

/-- The parts of an instruction on each 128-byte line it touches. -/
def fetchParts (va : W64) (n : Nat) : List (W64 × Nat) :=
  let r := 128 - va.toNat % 128
  if n ≤ r then [(va, n)] else [(va, r), (va + BitVec.ofNat 64 r, n - r)]

/-- Translate the parts as kind fetch (Table 4-4), in order. -/
def State.fetchXlate (s : State) (x : Acc) : List (W64 × Nat) → (Except (Nat × W64) (List (W64 × Leaf × Nat × Nat))) × State
  | [] => (.ok [], s)
  | (va, n) :: r =>
    match s.xlate x va .fetch with
    | (.fault c, s) => (.error (c, va), s)
    | (.ats, s) => (.error (0x07, va), s)
    | (.ok l a, s) =>
      match s.fetchXlate x r with
      | (.error e, s) => (.error e, s)
      | (.ok ps, s) => (.ok ((va, l, a, n) :: ps), s)

/-- Read a part: a hit in the core's L1 is taken as it stands, and any other read takes the directory checks of a
demand read. -/
def State.fetchPart (s : State) (x : Acc) (l : Leaf) (a n : Nat) : Res × State :=
  let k := lineKey l.space 0 a
  let off := a % 128
  let s : State := { s with mem := s.mem.l1Rekey x.core k l.key }
  if s.mem.l1Has x.core k l.key off n then (.val (lget (s.mem.l1Data x.core k) off n), s)
  else
    match s.l2Get x l a false false with
    | (.here, s) => (.val (lget (s.mem.coreView x.core k) off n), s)
    | (.fault c, s) => (.fault c, s)
    | (_, s) => (.stall, s)

/-- Read the translated parts; `va0` is the first byte of the instruction. -/
def State.fetchRead (s : State) (x : Acc) (va0 : W64) : List (W64 × Leaf × Nat × Nat) → Fetched × State
  | [] => (.ok 0, s)
  | (va, l, a, n) :: r =>
    match s.fetchPart x l a n with
    | (.fault c, s) => (.fault c (if va.toNat / 4096 = va0.toNat / 4096 then va0 else va), s)
    | (.val v, s) =>
      (match s.fetchRead x va0 r with
       | (.ok w, s) => (.ok (v + w * 2 ^ (8 * n)), s)
       | o => o)
    | (_, s) => (.stall, s)

/-- Fetch n bytes. Log entry 26 (DEDUCED). -/
def State.fetchAt (s : State) (x : Acc) (va : W64) (n : Nat) : Fetched × State :=
  match s.fetchXlate x (fetchParts va n) with
  | (.error (c, a), s) => (.fault c a, s)
  | (.ok ps, s) => s.fetchRead x va ps

/-- A group as an accessor. -/
def State.accOf (s : State) (g : Nat) : Acc :=
  let t := s.team (s.group g).team
  { core := t.core, ctx := t.ctx, mode := (s.group g).mode, gid := g }

/-- Fetch the word at the scalar PC of a group (R23). Log entry 26 (DEDUCED). -/
def State.fetchScalar (s : State) (g : Nat) : Fetched × State := s.fetchAt (s.accOf g) (s.group g).spc 4

/-- Fetch the lane instruction at unit u of a group's kernel (R379). Log entry 26 (DEDUCED). -/
def State.fetchLane (s : State) (g : Nat) (u : W32) : Fetched × State :=
  let k := (s.team (s.group g).team).kernel
  if k.lunits ≤ u.toNat then (.fault 0x07 (u.setWidth 64), s)
  else s.fetchAt (s.accOf g) (k.lbase + BitVec.ofNat 64 (12 * u.toNat)) 12

/-- The first instruction of a split's run carries W (R40): looked at without effect. -/
def State.peekW (s : State) (g : Nat) (u : W32) : Bool :=
  match (s.fetchLane g u).1 with
  | .ok v => v.testBit 85
  | _ => false

end Sys2Proof.Machine
end

