-- ==== Sys2Proof/Machine/Splits.lean ====
section
/-! DEFINITION. Splits between runs (R375, R376, R381 to R386): joins, merges, the ends FALL, NEXT and EXIT, quads that
retire (R250), the decision queue's pops (R158) and the events that start runs (R370). -/

namespace Sys2Proof.Machine

/-! ## Stack entries and merging -/

/-- Two entries match (R376). -/
def REntry.matches (e f : REntry) : Bool := decide (e.kind = f.kind) && decide (e.ja = f.ja) && decide (e.id = f.id)
/-- Corresponding entries agree for R383. -/
def REntry.agrees (e f : REntry) : Bool := e.matches f && (decide (e.kind ≠ .stk) || decide (e.fa = f.fa))
/-- Two stacks agree entry by entry (R383). -/
def stacksAgree : List REntry → List REntry → Bool
  | [], [] => true
  | e :: a, f :: b => e.agrees f && stacksAgree a b
  | _, _ => false
/-- Corresponding entries joined (R382, R383). -/
def mergeStacks : List REntry → List REntry → List REntry
  | e :: a, f :: b => { e with am := e.am ||| f.am, pm := e.pm ||| f.pm } :: mergeStacks a b
  | a, _ => a
/-- The lower split takes in the other (R382, R383). -/
def Split.absorb (x y : Split) : Split :=
  { x with mask := x.mask ||| y.mask, stack := mergeStacks x.stack y.stack, age := min x.age y.age }

/-- A split becomes ready for a new run: its age is the cycle, later than every other's after YIELD (R370, R390); one
that sleeps stays asleep. Log entry 110 (DEDUCED). -/
def Split.ready (x : Split) (cyc : Nat) : Split :=
  { x with mode := if x.sleeping then .sleeping else .ready, age := if x.yielded then cyc + 1 else cyc, yielded := false,
           pos := 0, rix := 0, resuming := false, skipping := false, count := 0, lat := [], part := [], gmask := 0,
           ins := none, whole := false }

/-- The other split slots, lowest first. -/
def Group.splitNums (g : Group) : List Nat := g.splits.map (·.1)

/-- Free a split slot. -/
def Group.freeSplit (g : Group) (n : Nat) : Group := { g with splits := g.splits.erase n }

/-- Merge split b into split a. Log entry 34 (DEDUCED). -/
def Group.merge (g : Group) (a b : Nat) : Group :=
  match g.splits.find a, g.splits.find b with
  | some x, some y => ({ g with splits := g.splits.insert a (x.absorb y) } : Group).freeSplit b
  | _, _ => g

/-! ## Joins (R381, R382) -/

/-- Two splits wait at one join with matching top entries. -/
def sameJoin (x y : Split) : Bool :=
  decide (x.mode = .waitJoin) && decide (y.mode = .waitJoin) && decide (x.pc = y.pc) &&
  (match x.stack, y.stack with
   | e :: _, f :: _ => e.matches f
   | _, _ => false)

/-- Every pair of split slots, the lower first. -/
def splitPairs : List (Nat × Nat) := [(0, 1), (0, 2), (0, 3), (1, 2), (1, 3), (2, 3)]

/-- Merge the splits that wait at one join. -/
def Group.mergeWaiting (g : Group) : Group :=
  splitPairs.foldl (fun g p =>
    match g.splits.find p.1, g.splits.find p.2 with
    | some x, some y => if sameJoin x y then g.merge p.1 p.2 else g
    | _, _ => g) g

/-- Two ready splits at a run start agree in everything R383 asks for. -/
def sameStart (x y : Split) : Bool :=
  decide (x.mode = .ready) && decide (y.mode = .ready) && decide (x.pos = 0) && decide (y.pos = 0) && !x.resuming
    && !y.resuming && decide (x.pc = y.pc) && decide (x.wb = y.wb) && decide (x.rd = y.rd)
    && decide (x.spill = y.spill) && stacksAgree x.stack y.stack

/-- Merge the splits that stand at one run start (R383). Log entry 34 (DEDUCED). -/
def Group.mergeStarts (g : Group) : Group :=
  splitPairs.foldl (fun g p =>
    match g.splits.find p.1, g.splits.find p.2 with
    | some x, some y => if sameStart x y then g.merge p.1 p.2 else g
    | _, _ => g) g

/-- The join check at a run start (R381): the split after it, and whether it waits at a DIV join. -/
def Group.atJoin (g : Group) : Nat → Split → Split × Bool
  | 0, x => (x, false)
  | n + 1, x =>
    match x.stack with
    | [] => (x, false)
    | e :: rest =>
      if e.ja ≠ x.pc then (x, false)
      else
        match e.kind with
        | .call => (x, false)
        | .div => (x, true)
        | .stk =>
          if e.pm ≠ 0 then
            g.atJoin n { x with stack := { e with am := e.am ||| x.mask, pm := 0 } :: rest, mask := e.pm, pc := e.fa }
          else ({ x with mask := g.unretired (e.am ||| x.mask), stack := rest }, false)

/-- A waiting split whose join is complete is released: every live thread of W is in its MASK or AM (R382). The run at
JA starts, and a join is checked at every run start (R381), so the split may wait again at an outer join of the same
unit. Log entry 29 (DEDUCED). -/
def Group.releaseOne (g : Group) (cyc n : Nat) : Group :=
  match g.splits.find n with
  | none => g
  | some x =>
    match x.mode, x.stack with
    | .waitJoin, e :: rest =>
      if (threadsOf e.pm).all fun k => !g.isLive k || (x.mask ||| e.am).getLsbD k then
        match g.atJoin 9 { x with mask := g.unretired (x.mask ||| e.am), stack := rest } with
        | (y, true) => { g with splits := g.splits.insert n { (y.ready cyc) with mode := .waitJoin } }
        | (y, false) => { g with splits := g.splits.insert n (y.ready cyc) }.mergeStarts
      else g
    | _, _ => g

/-- One round of merges and releases at the joins. Log entry 29 (DEDUCED). -/
def Group.joinRound (g : Group) (cyc : Nat) : Group := [0, 1, 2, 3].foldl (fun g n => g.releaseOne cyc n) g.mergeWaiting

/-- Merge and release at the joins: a round for each entry that a stack can hold, since every merge and every release
may complete the next join. Log entry 29 (DEDUCED). -/
def Group.joins (g : Group) (cyc : Nat) : Group := (List.range 12).foldl (fun g _ => g.joinRound cyc) g

/-- A split arrives at a run start (R381 to R383). Log entries 29 (DEDUCED), 34 (DEDUCED). -/
def Group.arrive (g : Group) (cyc n : Nat) (x : Split) : Group :=
  match g.atJoin 9 x with
  | (x, true) => (g.setSplit n { (x.ready cyc) with mode := .waitJoin }).joins cyc
  | (x, false) => (g.setSplit n (x.ready cyc)).mergeStarts

/-! ## NEXT and EXIT (R384 to R386, R250) -/

/-- What unwinding comes to: the split goes on at a run start; it waits at NEXT; it waits at its join; it starts the run
at its PC with no further check; it ends; the group is killed; the stack is empty while entries are spilled. -/
inductive Unwound where
  | goOn (x : Split) | next (x : Split) | join (x : Split) | run (x : Split) | gone | killed | spilled
deriving DecidableEq, Repr

/-- Unwind at NEXT (R384), the entries given apart. -/
def Group.unwindNext (g : Group) (x : Split) : List REntry → Unwound
  | [] => if 0 < x.spill then .spilled else .next { x with stack := [] }
  | e :: rest =>
    match e.kind with
    | .call => .killed
    | .div => g.unwindNext { x with mask := g.unretired (x.mask ||| e.am) } rest
    | .stk =>
      if e.pm ≠ 0 then
        .goOn { x with stack := { e with am := e.am ||| x.mask, pm := 0 } :: rest, mask := e.pm, pc := e.fa }
      else g.unwindNext { x with mask := g.unretired (x.mask ||| e.am) } rest

/-- Unwind at EXIT once no live thread is left (R385). -/
def Group.unwindExit (g : Group) (d : Nat) (x : Split) : List REntry → Unwound
  | [] => if 0 < x.spill then .spilled else .gone
  | e :: rest =>
    match e.kind with
    | .call =>
      let f := e.fa.toNat % 64
      g.unwindExit d { x with wb := BitVec.ofNat 8 ((x.wb.toNat + d - f) % d), rd := (x.rd + d - f) % d } rest
    | .div => .join { x with stack := e :: rest, pc := e.ja }
    | .stk =>
      if e.pm ≠ 0 then
        .goOn { x with stack := { e with am := e.am ||| x.mask, pm := 0 } :: rest, mask := e.pm, pc := e.fa }
      else
        let m := g.unretired (e.am ||| x.mask)
        if g.liveIn m then .run { x with mask := m, stack := rest, pc := e.ja }
        else g.unwindExit d { x with mask := m } rest

/-- The threads of a quad leave every mask (R250, R375). -/
def Group.retireQuad (g : Group) (q : Nat) : Group :=
  let keep := ~~~(0xF#32 <<< (4 * q))
  let g := [0, 1, 2, 3].foldl (fun g i => g.modThr (4 * q + i) fun t => { t with life := .retired }) g
  { g with splits := g.splits.map fun p => (p.1, { p.2 with
      mask := p.2.mask &&& keep,
      stack := p.2.stack.map fun e => if e.kind = .call then e else { e with pm := e.pm &&& keep, am := e.am &&& keep } }) }

/-- A thread takes EXIT with a true guard (R250). -/
def Group.exitThread (g : Group) (k : Nat) : Group :=
  if !g.isLive k then g
  else
    let q := k / 4
    if ([0, 1, 2, 3].map (4 * q + ·)).any fun j => decide (j ≠ k) && g.isLive j then
      g.modThr k fun t => { t with life := .helper }
    else g.retireQuad q

/-- The group as it would be once the threads of a mask have exited. -/
def Group.exits (g : Group) (m : W32) : Group := (threadsOf m).foldl Group.exitThread g

/-- A run end would have to unwind past spilled entries (R386): checked before the instruction has any effect. -/
def Group.unwindSpilled (g : Group) (d n : Nat) (fin : EndC) (ex : W32) : Bool :=
  match g.split? n with
  | none => false
  | some x =>
    match fin with
    | .next => decide (g.unwindNext x x.stack = .spilled)
    | .exit =>
      let h := g.exits ex
      let y := (h.split? n).getD {}
      !h.liveIn y.mask && decide (h.unwindExit d y y.stack = .spilled)
    | _ => false

/-- Act on an unwound split; none where the group is killed. A split that meets spilled entries here (after TRET.skip
of its own RECONV_OVERFLOW) stands ready at its instruction again. -/
def Group.settleUnwound (g : Group) (cyc n : Nat) (x : Split) : Unwound → Option Group
  | .goOn y => some ((g.arrive cyc n y).joins cyc)
  | .next y => some ((g.setSplit n { (y.ready cyc) with mode := .waitNext }).joins cyc)
  | .join y => some ((g.setSplit n { (y.ready cyc) with mode := .waitJoin }).joins cyc)
  | .run y => some ((g.setSplit n (y.ready cyc)).joins cyc)
  | .gone => some ((g.freeSplit n).joins cyc)
  | .killed => none
  | .spilled => some (g.setSplit n (x.ready cyc))

/-- A run of a split ends with an END code (Table 2-10); its PC names the unit of the instruction. `ex`: the threads
whose own guard is true. None where the group is killed. -/
def Group.endRun (g : Group) (d cyc n : Nat) (fin : EndC) (ex : W32) : Option Group :=
  match g.split? n with
  | none => some g
  | some x =>
    match fin with
    | .none => some g
    | .fall => some (g.arrive cyc n { x with pc := x.pc + 1 })
    | .next => if 4 ≤ n then none else g.settleUnwound cyc n x (g.unwindNext x x.stack)
    | .exit =>
      if 4 ≤ n then none
      else
        let h := g.exits ex
        let y := (h.split? n).getD {}
        if h.liveIn y.mask then some ((h.arrive cyc n { y with pc := y.pc + 1 }).joins cyc)
        else h.settleUnwound cyc n x (h.unwindExit d y y.stack)

/-! ## The decision queue's pops (R158, R384) -/

/-- Every split waits at NEXT or has ended, and no trap handler runs. -/
def Group.atNext (g : Group) : Bool :=
  decide (g.tslot = none) && g.splits.all fun p => decide (p.2.mode = .waitNext)

/-- All splits merge into split 0, whose mask is every thread that has not retired (R384). -/
def Group.mergeNext (g : Group) : Group :=
  let x := ((g.splits.head?).map (·.2)).getD {}
  let y : Split := { x with mask := g.unretired 0xFFFFFFFF, stack := [], mode := .waitNext }
  { g with splits := [(0, y)] }

/-- Pop the decision queue: entries are discarded while no live thread remains (R158). -/
def Group.popQueue (g : Group) (cyc : Nat) : Group :=
  match g.queue with
  | [] => g
  | r :: rest =>
    if g.anyLive then
      let x := (g.splits.find 0).getD {}
      let g := { g with queue := rest, args := r.args }
      g.arrive cyc 0 { x with pc := r.start }
    else { g with queue := [] }

/-- DECISION_QUEUE_POP (R158): an idle lane stream with an entry waiting pops it. -/
def execDecisionQueuePop (g : Nat) (s : State) : Out :=
  let x := s.group g
  let t := s.team x.team
  .next (if x.ended || t.stopping || decide (x.queue = []) || !x.atNext then s
    else s.setGroup g (x.mergeNext.popQueue s.cycle))

/-- NEXT_MERGE (R384): every split waits at NEXT; all merge into split 0, which pops the queue. -/
def execNextMerge (g : Nat) (s : State) : Out :=
  let x := s.group g
  let t := s.team x.team
  .next (if x.ended || !x.atNext then s
    else s.setGroup g (if t.stopping then x.mergeNext else x.mergeNext.popQueue s.cycle))

/-! ## Starting runs (R370) -/

/-- The run a split stands at has not begun: no instruction of it has been fetched (R379). -/
def Split.unbegun (x : Split) : Bool := decide (x.pos = 0) && (!x.resuming || x.whole)

/-- A split's run is ready to start: not a W run that has not begun, while far results are on their way (R249, R370), nor a handler's
before its time (R398). -/
def State.runReady (s : State) (gid n : Nat) (x : Split) : Bool :=
  let g := s.group gid
  decide (x.mode = .ready) && (!x.unbegun || decide (g.far = []) || !s.peekW gid x.pc)
    && (decide (n < 4) || (decide (n = 4) && decide (x.age ≤ s.cycle)))

/-- The ready runs of a lane pair: age, rank (group slot, split number), group, split. -/
def State.readyRuns (s : State) (c lp : Nat) : List (Nat × Nat × Nat × Nat) :=
  s.groups.flatMap fun p =>
    let g := p.2
    let t := s.team g.team
    match g.slot with
    | none => []
    | some sl =>
      if t.core = c ∧ g.lp = lp ∧ sl < 8 ∧ !t.saved ∧ !t.stopping ∧ !g.ended ∧ !g.dying then
        let top : List (Nat × Split) := ((g.tslot.bind fun z => z.levels.head?).map fun y => (4, y)).toList
        (g.splits ++ top).filterMap fun (q : Nat × Split) =>
          if s.runReady p.1 q.1 q.2 then some (q.2.age, sl * 5 + q.1, p.1, q.1) else none
      else []

/-- The oldest of the ready runs; ties go round robin after the rank served last. -/
def pickRun (last : Nat) : List (Nat × Nat × Nat × Nat) → Option (Nat × Nat × Nat × Nat)
  | [] => none
  | r :: rest =>
    match pickRun last rest with
    | none => some r
    | some q =>
      let key := fun (z : Nat) => (z + 40 - (last + 1) % 40) % 40
      if r.1 < q.1 ∨ (r.1 = q.1 ∧ key r.2.1 ≤ key q.2.1) then some r else some q

/-- RUN_START (R370): a free lane takes the oldest ready run of an active group. -/
def execRunStart (core lp ln : Nat) (s : State) : Out :=
  let p := s.lanePair core lp
  let busy := if ln = 0 then p.lane0 else p.lane1
  if decide (busy ≠ none) || decide (2 ≤ ln) then .next s
  else
    match pickRun p.last (s.readyRuns core lp) with
    | none => .next s
    | some (_, rank, gid, n) =>
      let s := s.setLanePair core lp { (p.setLane ln (some (gid, n))) with last := rank }
      let s := s.modGroup gid fun g => g.modSplit n fun x => { x with mode := .running }
      .next ({ s with curGid := gid, curSlot := n } : State).loadLatches

/-- HELD_TRAP_ENTRY (R399): the trap slot has been free since an earlier cycle; the lowest held split's trap enters it. -/
def execHeldTrapEntry (g : Nat) (s : State) : Out :=
  let x := s.group g
  if x.ended || decide (x.tslot ≠ none) || decide (s.cycle < x.slotFrom) then .next s
  else
    match x.splits.find? fun p => match p.2.mode with | .held _ _ => true | _ => false with
    | some (n, { mode := .held c v, rix := k, .. }) => .next (s.enterTrap g n k c v)
    | _ => .next s

/-- SLEEP_WAKE (R390): the deadline has passed, or with EV an event has come: the split's next run becomes ready. -/
def execSleepWake (g n : Nat) (s : State) : Out :=
  let x := s.group g
  match x.split? n with
  | none => .next s
  | some y =>
    let due := (y.wake.map fun w => decide (w ≤ s.cycle)).getD false
    if y.sleeping && (due || (y.ev && y.evSeen)) then
      let y' := { y with sleeping := false, wake := none, ev := false, evSeen := false,
                         mode := if y.mode = .sleeping then .ready else y.mode,
                         age := if y.mode = .sleeping then s.cycle else y.age }
      let x := x.setSplit n y'
      .next (s.setGroup g (if y'.mode = .ready ∧ n < 4 then x.mergeStarts else x))
    else .next s

end Sys2Proof.Machine
end

