-- ==== Sys2Proof/Machine/Operands.lean ====
section
/-! DEFINITION. Operands of lane instructions (R31 to R39), and how an instruction passes the threads of its split
through the lane: guards, U, hold copies, stops and resumption, the latch lifetimes, the run end (R35 to R41, R108,
R398, R401). -/

namespace Sys2Proof.Machine

/-! ## Reading sources -/

/-- The stack entry of t_n for the current split (R154). Log entry 75 (DEDUCED). -/
def State.entry (s : State) (n : Nat) : Nat := stackEntry s.curTeam.d s.split.wb n
/-- The run arguments in force: a handler in the trap slot reads the trap arguments (R159, R400). -/
def State.runArg (s : State) (i : Nat) : W64 := ((if s.curSlot = 4 then s.split.args else s.cur.args)[i]?).getD 0
/-- The live latch entry a selector names, for the current split (R36). -/
def State.latch? (s : State) (i : Nat) : Option Latch :=
  (s.curPair.latch.find i).filter fun e => e.liveFor s.curGid s.curSlot

/-- Read a 32-bit source of thread k (Table 2-8). -/
def State.reg32 (s : State) (imm : W32) (x : Src) (k : Nat) : W32 :=
  match x with
  | .t n => s.cur.rget k (s.entry n.val)
  | .latch i => match s.latch? i.val with
    | some e => e.vals.get 0 k
    | none => 0
  | .alatch => 0
  | .arg i => (s.runArg i.val).setWidth 32
  | .argHi i => (s.runArg i.val >>> 32).setWidth 32
  | .zero => 0
  | .imm => imm

/-- Read a 64-bit source of thread k (R34). -/
def State.reg64 (s : State) (imm : W32) (x : Src) (k : Nat) : W64 :=
  match x with
  | .t n => s.cur.rget k (s.entry (n.val + 1)) ++ s.cur.rget k (s.entry n.val)
  | .arg i => s.runArg i.val
  | .imm => imm.signExtend 64
  | .latch _ | .alatch | .argHi _ | .zero => 0

/-- Read a source at an operand's width, as a number. -/
def State.src (s : State) (l : Lane) (wide : Bool) (x : Src) (k : Nat) : Nat :=
  if wide then (s.reg64 l.imm x k).toNat else (s.reg32 l.imm x k).toNat

/-- A predicate of thread k. -/
def State.pred (s : State) (k n : Nat) : Bool := (s.cur.thread k).pget n

/-! ## Writing destinations -/

/-- Write a destination of thread k (Table 2-9): a t register or pair, a predicate from bit 0, or nothing. -/
def State.setDst (s : State) (d : Dst) (wide : Bool) (k : Nat) (v : W64) : State :=
  match d with
  | .discard => s
  | .p n => s.modCur fun g => g.modThr k fun t => t.pset n.val (v.getLsbD 0)
  | .t n =>
    let e := s.entry n.val
    let e' := s.entry (n.val + 1)
    s.modCur fun g =>
      let g := g.rset k e (v.setWidth 32)
      if wide then g.rset k e' ((v >>> 32).setWidth 32) else g

/-- Write one value into a destination of several threads (U). -/
def State.setDsts (s : State) (d : Dst) (wide : Bool) (v : W64) (ks : List Nat) : State :=
  ks.foldl (fun s k => s.setDst d wide k v) s

/-! ## Guards and hold copies -/

/-- The guard of thread k (R38). -/
def State.guard (s : State) (l : Lane) (k : Nat) : Bool := s.pred k l.gp.val != l.gn
/-- The guard !p0, which is never true and suppresses the hold copies too (R38). -/
def never (l : Lane) : Bool := l.gn && decide (l.gp = 0)

/-- The latch entry a hold names. -/
def Hold.entry : Hold → Option Nat
  | .none => none | .l0 => some 0 | .l1 => some 1 | .l2 => some 2

/-- One hold copy of thread k (R35). -/
def State.holdOne (s : State) (k : Nat) (h : Hold) (x : Src) : State :=
  match Hold.entry h with
  | none => s
  | some i =>
    let v := s.reg32 0 x k
    s.modSplit fun y => { y with part := y.part.insert i (SMap.put 0 (SMap.get [] y.part i) k v) }

/-- The hold copies of thread k (R35). -/
def State.copyHolds (s : State) (l : Lane) (k : Nat) : State :=
  ((s.holdOne k l.ha l.a).holdOne k l.hb l.b).holdOne k l.hc l.c

/-- Any source of the instruction is a latch entry that is not live (R36). -/
def State.staleLatch (s : State) (l : Lane) : Bool :=
  [l.a, l.b, l.c].any fun x => match x with
    | .latch i => decide (s.latch? i.val = none)
    | _ => false

/-- A thread reads the sources: an expired latch read sets the context's sticky LATCH bit (R36). -/
def State.markLatch (s : State) (l : Lane) : State :=
  if s.staleLatch l then s.modContext s.curTeam.ctx fun c => { c with latch := true } else s

/-! ## What one thread does -/

/-- What an instruction does in one thread: a value for the destination, no value, a trap, a suspension, or not yet. -/
inductive TOut where
  | val (v : W64) (s : State) | done (s : State) | trap (cause : Nat) (v : W64) (s : State)
  | suspend (why : Susp) (s : State) | stall (s : State)

/-- The instruction has passed its threads, or has stopped. -/
inductive Flow where
  | fin (s : State) | out (s : State)

/-- The instruction stays in its lane and goes on at thread k in a later turn. -/
def State.holdAt (s : State) (k : Nat) : State := s.modSplit fun x => { x with rix := k, resuming := true, skipping := false }

/-- Pass threads through the lane in ascending order (R244, R6). -/
def laneThreads (l : Lane) (wide : Bool) (f : Nat → State → TOut) : List Nat → State → Flow
  | [], s => .fin s
  | k :: ks, s =>
    if s.guard l k then
      match f k (s.markLatch l) with
      | .val v s => laneThreads l wide f ks ((s.copyHolds l k).setDst l.d wide k v)
      | .done s => laneThreads l wide f ks (s.copyHolds l k)
      | .trap c v s => .out (s.laneTrap k c v)
      | .suspend why s => .out (s.suspend k why)
      | .stall s => .out (s.holdAt k)
    else laneThreads l wide f ks (if never l then s else s.copyHolds l k)

/-- Hold copies of several threads. -/
def State.copyAll (s : State) (l : Lane) (ks : List Nat) : State :=
  if never l then s else ks.foldl (fun s k => s.copyHolds l k) s

/-- A U instruction (R39): Lowest() alone decides and computes; its result goes to every active thread. -/
def laneUniform (l : Lane) (wide : Bool) (f : Nat → State → TOut) (ks : List Nat) (s : State) : Flow :=
  match ks with
  | [] => .fin s
  | k :: _ =>
    if s.guard l k then
      match f k (s.markLatch l) with
      | .val v s => .fin ((s.copyAll l ks).setDsts l.d wide v ks)
      | .done s => .fin (s.copyAll l ks)
      | .trap c v s => .out (s.laneTrap k c v)
      | .suspend why s => .out (s.suspend k why)
      | .stall s => .out (s.holdAt k)
    else .fin (s.copyAll l ks)

/-! ## Beginning and ending an instruction -/

/-- Active() of the current split. -/
def State.active (s : State) : List Nat := threadsOf s.split.mask
/-- Lowest() of the current split. -/
def State.lowest (s : State) : Nat := s.active.headD 0

/-- The threads an instruction still has to pass: from the resume index, or above it where the thread is passed over
(R401). Log entry 27 (DEDUCED). -/
def State.toPass (s : State) : List Nat :=
  let x := s.split
  if !x.resuming then s.active
  else s.active.filter fun k => if x.skipping then decide (x.rix < k) else decide (x.rix ≤ k)

/-- The instructions that end their run (R41). -/
def branchClass : Instr → Bool
  | .brl _ | .join _ | .call _ _ | .callr _ _ | .ret _ | .tret _ | .tretSkip _ | .tretVal _ | .tretPark _ => true
  | _ => false

/-- The position and trap-slot checks that make an instruction illegal where it stands (R40, R41, R400). -/
def State.misplaced (s : State) (i : Instr) (l : Lane) : Bool :=
  let x := s.split
  (l.w && decide (x.pos ≠ 0)) || (decide (23 ≤ x.pos) && decide (l.fin = .none) && !branchClass i)
    || (decide (s.curSlot = 4) && decide (l.fin = .next ∨ l.fin = .exit))

/-- The guards of the active threads; those below the resume point keep what they were when they streamed. -/
def State.guards (s : State) (l : Lane) : W32 :=
  let x := s.split
  maskOf (s.active.filter fun k =>
    if x.resuming && (decide (k < x.rix) || (x.skipping && decide (k = x.rix))) then x.gmask.getLsbD k else s.guard l k)

/-- Begin an instruction: the state it starts from, or what became of it instead (illegal, RECONV_OVERFLOW). -/
def State.laneBegin (s : State) (i : Instr) (l : Lane) : Except State State :=
  if s.misplaced i l then .error s.killCur
  else
    let gm := s.guards l
    if s.cur.unwindSpilled s.curTeam.d s.curSlot l.fin gm then
      .error ((s.modSplit fun x => { x with ins := some i, whole := true }).laneTrap s.lowest 0x0E 1)
    else .ok (s.modSplit fun x => { x with gmask := gm, ins := some i, whole := l.u })

/-- The latch entries after an instruction of the current split: those it held are new and live for two more, the
others of the split have one less to live (R36). Of two splits that write an entry in one cycle the lower one keeps it (R37). -/
def State.ageLatches (s : State) : State :=
  let p := s.curPair
  let part := s.split.part
  let aged := p.latch.filterMap fun e =>
    if e.2.liveFor s.curGid s.curSlot then
      if e.2.life = 1 then none else some (e.1, { e.2 with life := e.2.life - 1 })
    else some e
  let lower := fun (i : Nat) => (p.latch.find i).any fun e =>
    decide (e.gid = s.curGid) && decide (e.split < s.curSlot) && decide (e.cyc = s.cycle) && decide (0 < e.life)
  let put := part.foldl (fun m e => if lower e.1 then m else
    SMap.insert m e.1 { gid := s.curGid, split := s.curSlot, life := 2, vals := e.2, cyc := s.cycle }) aged
  s.setCurPair { p with latch := put }

/-- The current split's run has ended: its group after it, its latch entries gone, its lane free; none where the
group is killed. -/
def State.runOver (s : State) : Option Group → State
  | none => s.killCur
  | some g => s.dropLatches.offLane.setGroup s.curGid g

/-- An instruction has passed every thread: one more position of the run, or the run's end (R36, R41). -/
def State.laneEnd (s : State) (fin : EndC) : State :=
  let ex := s.split.gmask
  let s := s.ageLatches
  let s := s.modSplit fun x => { x with pos := x.pos + 1, rix := 0, resuming := false, skipping := false, part := [],
                                        gmask := 0, count := 0, ins := none, whole := false,
                                        pc := if fin = .none then x.pc + 1 else x.pc }
  if fin = .none then s else s.runOver (s.cur.endRun s.curTeam.d s.cycle s.curSlot fin ex)

/-- A lane instruction that acts thread by thread (R225): `f` is what it does in one thread. -/
def State.lane (s : State) (i : Instr) (l : Lane) (wide : Bool) (f : Nat → State → TOut) : Out :=
  match s.laneBegin i l with
  | .error s => .next s
  | .ok s =>
    match (if l.u then laneUniform l wide f s.active s else laneThreads l wide f s.toPass s) with
    | .out s => .next s
    | .fin s => .next (s.laneEnd l.fin)

/-- A lane instruction that acts once for the whole split (R398): `f` gives the state after it, or where it stopped. -/
def State.laneOnce (s : State) (i : Instr) (l : Lane) (f : State → Flow) : Out :=
  match s.laneBegin i l with
  | .error s => .next s
  | .ok s =>
    match f (s.modSplit fun x => { x with whole := true }) with
    | .out s => .next s
    | .fin s => .next (s.laneEnd l.fin)

/-! ## Flags and draws (R200 to R203) -/

/-- Thread k's result of a flag-raising instruction: FPSTAT gains the flags; an enabled flag traps unless k is a
helper (R203). -/
def State.withFlags (s : State) (k : Nat) (r : Nat × FFlags) : TOut :=
  let s' := s.modCur fun g => g.modThr k fun t => { t with fpstat := t.fpstat ||| r.2.setWidth 32 }
  if (r.2 &&& (s.context s.curTeam.ctx).fpen) ≠ 0 ∧ !s.cur.isHelper k then .trap 0x04 (r.2.setWidth 64) s'
  else .val (BitVec.ofNat 64 r.1) s'

/-- One draw of thread k's generator (R200). -/
def State.drawOf (s : State) (k : Nat) : Nat × State :=
  let g := advanceG (s.cur.thread k).gen
  (wbits g 48 16, s.modCur fun x => x.modThr k fun t => { t with gen := g })

/-- The draw a rounding under a mode consumes (R201). -/
def State.drawFor (s : State) (mode : Rnd) (k : Nat) : Nat × State := if mode = .rs then s.drawOf k else (0, s)

end Sys2Proof.Machine
end

