-- ==== Sys2Proof/Machine/Control.lean ====
section
/-! DEFINITION. Lane control flow (R377 to R390), software traps (R404), the return from a lane trap (R401) and the
privilege check of lane instructions (R45, R392). -/

namespace Sys2Proof.Machine

/-! ## Branch-class instructions -/

/-- What a branch-class instruction does: it traps in Lowest() with nothing changed, kills its group, or ends the run
with the group as given. -/
inductive Branch where
  | trap (cause : Nat) (v : W64) | kill | go (g : Group)

/-- A branch-class instruction (R377): acts once for the whole split and ends its run. Log entry 28 (DEDUCED). -/
def State.branch (s : State) (i : Instr) (l : Lane) (f : State → Branch) : Out :=
  match s.laneBegin i l with
  | .error s => .next s
  | .ok s =>
    let s := s.modSplit fun x => { x with whole := true }
    match f s with
    | .trap c v => .next (s.laneTrap s.lowest c v)
    | .kill => .next (s.runOver none)
    | .go g => .next (s.runOver (some g))

/-- A target unit is outside the lane section (R378). -/
def State.badUnit (s : State) (u : Int) : Bool := decide (u < 0) || decide ((s.curTeam.kernel.lunits : Int) ≤ u)
/-- A target fault's TVAL. -/
def unitVal (u : Int) : W64 := BitVec.ofInt 64 u
/-- Go to a unit, checked (R378). Log entry 28 (DEDUCED). -/
def State.goto (s : State) (x : Split) (u : Int) : Branch :=
  if s.badUnit u then .trap 0x07 (unitVal u)
  else .go (s.cur.arrive s.cycle s.curSlot { x with pc := BitVec.ofInt 32 u })

/-- The lowest free split slot; one that is freed counts as free from the next cycle (R391). -/
def Group.freeSlot (g : Group) : Option Nat := (List.range 4).find? fun n => decide (g.splits.find n = none) && !g.slotsHeld.contains n

/-- A signed 16-bit field. -/
def s16 (v : Nat) : Int := (BitVec.ofNat 16 v).toInt

/-- BRL's division, fold or push (R380), the targets already checked. Log entry 28 (DEDUCED). -/
def State.divide (s : State) (x : Split) (tk : W32) (t j : Int) : Branch :=
  let g := s.cur
  let b := x.pc
  let nk := x.mask &&& ~~~tk
  let tu := BitVec.ofInt 32 t
  let ju := BitVec.ofInt 32 j
  let push :=
    if 8 ≤ x.stack.length then Branch.trap 0x0E 0
    else
      match (if s.curSlot < 4 then g.freeSlot else none) with
      | some n =>
        let id := g.divid + 1
        let e : REntry := { kind := .div, ja := ju, fa := 0, pm := x.mask, am := 0, id := id }
        let y : Split := { pc := b + 1, mask := nk, wb := x.wb, rd := x.rd, spill := x.spill, wsp := x.wsp, stack := e :: x.stack }
        let g := { g with divid := id }
        let g := g.arrive s.cycle s.curSlot { x with mask := tk, pc := tu, stack := e :: x.stack }
        .go (g.arrive s.cycle n y)
      | none =>
        let e : REntry := { kind := .stk, ja := ju, fa := b + 1, pm := nk, am := 0, id := 0 }
        .go (g.arrive s.cycle s.curSlot { x with mask := tk, pc := tu, stack := e :: x.stack })
  match x.stack with
  | e :: rest =>
    if e.kind ≠ .call ∧ e.ja = ju ∧ (t = j ∨ b.toNat + 1 = j) then
      let head := if t = j then tk else nk
      let other := if t = j then nk else tk
      let pc := if t = j then b + 1 else tu
      .go (g.arrive s.cycle s.curSlot { x with stack := { e with am := e.am ||| head } :: rest, mask := other, pc := pc })
    else push
  | [] => push

/-- BRL (R380). -/
def execBrl (l : Lane) (s : State) : Out :=
  s.branch (.brl l) l fun s =>
    let x := s.split
    let b : Int := x.pc.toNat
    let t := b + s16 (l.imm.toNat % 65536)
    let j := b + s16 (l.imm.toNat / 65536)
    let tk := if l.u then (if s.guard l s.lowest then x.mask else 0) else maskOf (s.active.filter fun k => s.guard l k)
    if tk = 0 then s.goto x (b + 1)
    else if x.mask &&& ~~~tk = 0 ∨ t = b + 1 then s.goto x t
    else if s.badUnit t then .trap 0x07 (unitVal t)
    else if s.badUnit (b + 1) then .trap 0x07 (unitVal (b + 1))
    else if s.badUnit j then .trap 0x07 (unitVal j)
    else s.divide x tk t j

/-- JOIN (R387). -/
def execJoin (l : Lane) (s : State) : Out :=
  s.branch (.join l) l fun s => s.goto s.split ((s.split.pc.toNat : Int) + l.imm.toInt)

/-- CALL and CALLR past their target (R388). Log entry 28 (DEDUCED). -/
def State.callTo (s : State) (u : Int) (f : Nat) : Branch :=
  let x := s.split
  let d := s.curTeam.d
  if s.badUnit u then .trap 0x07 (unitVal u)
  else if d < x.rd + f + 48 then .trap 0x0C (BitVec.ofNat 64 f)
  else if 8 ≤ x.stack.length then .trap 0x0E 0
  else
    let e : REntry := { kind := .call, ja := x.pc + 1, fa := BitVec.ofNat 32 f, pm := 0, am := 0, id := 0 }
    s.goto { x with stack := e :: x.stack, wb := BitVec.ofNat 8 (stackEntry d x.wb f), rd := x.rd + f } u

/-- CALL (R388). -/
def execCall (l : Lane) (f : BitVec 4) (s : State) : Out :=
  s.branch (.call l f) l fun s => s.callTo ((s.split.pc.toNat : Int) + l.imm.toInt) (4 * f.toNat)
/-- CALLR (R388): one target, from Lowest(). -/
def execCallr (l : Lane) (f : BitVec 4) (s : State) : Out :=
  s.branch (.callr l f) l fun s =>
    let s := s.markLatch l
    s.callTo ((s.reg32 l.imm l.a s.lowest).toNat : Int) (4 * f.toNat)
/-- RET (R389). -/
def execRet (l : Lane) (s : State) : Out :=
  s.branch (.ret l) l fun s =>
    let x := s.split
    let d := s.curTeam.d
    match x.stack with
    | [] => if 0 < x.spill then .trap 0x0E 1 else .kill
    | e :: rest =>
      if e.kind ≠ .call then .kill
      else
        let f := e.fa.toNat % 64
        if s.badUnit (e.ja.toNat : Int) then .trap 0x07 (e.ja.setWidth 64)
        else if x.rd < f then .trap 0x0D (BitVec.ofNat 64 f)
        else s.goto { x with stack := rest, wb := BitVec.ofNat 8 ((x.wb.toNat + d - f) % d), rd := x.rd - f } (e.ja.toNat : Int)

/-! ## SLEEP and YIELD (R390) -/

/-- SLEEP: the split sleeps once its run has ended. -/
def execSleep (l : Lane) (ev : Bool) (s : State) : Out :=
  s.laneOnce (.sleep l ev) l fun s =>
    let n := l.imm.toNat
    if s.guard l s.lowest && (decide (0 < n) || ev) then
      .fin (s.modSplit fun x => { x with sleeping := true, wake := if n = 0 then none else some (s.cycle + n), ev := ev,
                                         evSeen := false })
    else .fin s
/-- YIELD: the split's next run goes behind the runs that are ready when this run ends. -/
def execYield (l : Lane) (s : State) : Out :=
  s.laneOnce (.yield l) l fun s =>
    .fin (if s.guard l s.lowest then s.modSplit fun x => { x with yielded := true } else s)

/-! ## Software traps (R404) -/

/-- TRAP: SOFTWARE_TRAP in each thread whose guard is true, helpers left out. -/
def execTrap (l : Lane) (s : State) : Out :=
  s.lane (.trap l) l false fun k s => if s.cur.isHelper k then .done s else .trap 0x14 (l.imm.setWidth 64) s
/-- BPT: BREAKPOINT, its TVAL the own unit. -/
def execBpt (l : Lane) (s : State) : Out :=
  s.lane (.bpt l) l false fun k s => if s.cur.isHelper k then .done s else .trap 0x15 (s.split.pc.setWidth 64) s

/-! ## Privilege (R45, R392) -/

/-- PRIV_VIOLATION of a lane instruction, raised in Lowest() (R45). -/
def State.lanePrivTrap (s : State) (i : Option Instr) : State :=
  (s.modSplit fun x => { x with ins := i, whole := true }).laneTrap s.lowest 0x02 0

/-- A privileged lane instruction (R392). -/
def State.lanePrivileged (s : State) (i : Instr) (m : Out) : Out :=
  if s.cur.mode = .priv then m else .next (s.lanePrivTrap (some i))

/-! ## TRET (R401) -/

/-- The trap bank of the thread the trap slot serves. -/
def Group.slotBank (g : Group) : TBank := ((g.tslot.map fun t => (g.thread t.thr).bank).getD {})

/-- A bank was entered through a user vector (R393). -/
def TBank.viaUser (b : TBank) : Bool := userClass (b.cause.toNat % 64) && !b.cause.getLsbD 17

/-- The destination of an instruction and whether it is a pair. -/
def dstOf : Instr → Option (Dst × Bool)
  | .iadd l t _ | .isub l t _ | .imul l t | .imulh l t | .imad l t | .idiv l t | .irem l t | .iabs l t | .imin l t
  | .imax l t | .sar l t | .bfe l t => some (l.d, t.wide)
  | .imadw l _ | .lea l _ _ => some (l.d, true)
  | .and l t | .or l t | .xor l t | .andn l t | .shl l t | .shr l t | .rotl l t | .brev l t | .bfi l t | .sel l t _ _
  | .mov l t | .rng l t | .xshf l _ t | .xfirst l t | .xbcst l t | .qswp l _ t | .qbcst l t => some (l.d, t.wide)
  | .clz l _ | .popc l _ | .iset l _ _ | .idot4 l _ _ | .xmatch l _ | .xbal l _ _ => some (l.d, false)
  | .movsp l x => some (l.d, x.wide)
  | .cvti l t _ _ | .fcvti l t _ _ => some (l.d, t.wide)
  | .xscan l _ t _ | .xred l _ t | .qred l _ t => some (l.d, t.wide)
  | .ld l t _ | .lds l t | .ldfeKeep l t | .ldfeClear l t | .ldc l t | .xload l t _ => some (l.d, t.wide)
  | .atom l _ t _ _ | .acas l t _ _ | .atoms l _ t _ _ | .acass l t _ _ => some (l.d, t.wide)
  | .funpk l f => some (l.d, match f with | .half _ _ => false | _ => true)
  | .lsrd l _ w => some (l.d, w)
  | .mxwaitStall l _ => some (l.d, true)
  | i => (laneParts i).map fun p => (p.2.2.d, false)

/-- The lane fields of an instruction. -/
def laneOf (i : Instr) : Option Lane := (laneParts i).map fun p => p.2.2

/-- TRET.val's source may be read at the width of the trapped destination (R401). -/
def tretSrcOk (wide : Bool) (x : Src) : Bool :=
  !wide || (match x with | .t n => n.val % 2 == 0 | .arg _ | .zero | .imm => true | _ => false)

/-- The trapped instruction's own part in the thread passed over: its hold copies are made, and under .val its
destination is written there (R35, R401). Log entry 27 (DEDUCED). -/
def State.passThread (s : State) (k : Nat) (v : Option W64) : State :=
  match s.split.ins with
  | none => s
  | some i =>
    let s := match laneOf i with
      | some l => if never l then s else s.copyHolds l k
      | none => s
    match v, dstOf i with
    | some v, some (d, w) => s.setDst d w k v
    | _, _ => s

/-- The trapped split passes over an instruction that acted for the whole split (R401): it counts as performed by no
thread, and a run end on it takes effect; a branch-class one continues as FALL. Of a latch entry it holds only the thread passed over
has made a copy, and the others keep their values from before (R35). Log entries 26 (DEDUCED), 27 (DEDUCED). -/
def State.passOver (s : State) : State :=
  let x := s.split
  let fin := match x.ins with
    | some i => if branchClass i then EndC.fall else ((laneOf i).map (·.fin)).getD .none
    | none => .none
  let aged := x.lat.filterMap fun e => if e.2.life ≤ 1 then none else some (e.1, { e.2 with life := e.2.life - 1 })
  let kept := fun (i : Nat) (v : SMap W32) => SMap.put 0 (((x.lat.find i).map (·.vals)).getD []) x.rix (v.get 0 x.rix)
  let lat := x.part.foldl (fun m e =>
    SMap.insert m e.1 { gid := s.curGid, split := s.curSlot, life := 2, vals := kept e.1 e.2, cyc := s.cycle }) aged
  if fin = .none then
    s.modSplit fun x => { x with pc := x.pc + 1, pos := x.pos + 1, rix := 0, resuming := false, skipping := false,
                                 lat := lat, part := [], gmask := 0, count := 0, ins := none, whole := false }
  else
    match s.cur.endRun s.curTeam.d s.cycle s.curSlot fin x.gmask with
    | some g => s.setGroup s.curGid g
    | none => s.killCur

/-- TRET (R401): `how` and, under .val, the value source. Log entry 27 (DEDUCED). -/
def State.tret (s : State) (i : Instr) (l : Lane) (how : Return) (val : Bool) : Out :=
  let g := s.cur
  let bank := g.slotBank
  let here := decide (s.curSlot = 4) && decide (g.tslot ≠ none)
  if g.mode = .user ∧ !(here && bank.viaUser) then .next (s.lanePrivTrap (some i))
  else if g.mode = .user ∧ how = .park then s.killLane
  else if s.misplaced i l then s.killLane
  else if !here then .fault .returnAtLevelZero
  else
    let t := bank.cause.toNat / 8192 % 8
    let k := bank.cause.toNat / 256 % 32
    let below := (g.tslot.map fun z => { z with levels := z.levels.tail }).getD { thr := 0, levels := [] }
    let x := if t < 4 then (g.splits.find t).getD {} else below.levels.headD {}
    let wide := ((x.ins.bind dstOf).map (·.2)).getD false
    if val && !tretSrcOk wide l.a then s.killLane
    else
      let s := s.markLatch l
      let v := BitVec.ofNat 64 (s.src l wide l.a s.lowest)
      let moved := decide (x.pc ≠ bank.pc)
      let s := (s.dropLatches.laneReturn s.curGid how)
      let s := if moved && decide (how ≠ .park) && decide (t < 4) then s.modGroup s.curGid fun g => g.arrive s.cycle t ((g.splits.find t).getD {}) else s
      if how = .skip ∧ !moved then
        let s : State := { s with curSlot := t }
        let s := s.passThread k (if val then some v else none)
        .next (if x.whole || decide (x.ins = none) then s.passOver else s)
      else if val && moved then
        .next (match x.ins.bind dstOf with
          | some (d, w) => ({ s with curSlot := t } : State).setDst d w k v
          | none => s)
      else .next s

/-- TRET (R401). -/
def execTret (l : Lane) (s : State) : Out := s.tret (.tret l) l .retry false
/-- TRET.skip (R401). -/
def execTretSkip (l : Lane) (s : State) : Out := s.tret (.tretSkip l) l .skip false
/-- TRET.val (R401). -/
def execTretVal (l : Lane) (s : State) : Out := s.tret (.tretVal l) l .skip true
/-- TRET.park (R401): only in privileged mode (R392). -/
def execTretPark (l : Lane) (s : State) : Out := s.tret (.tretPark l) l .park false

end Sys2Proof.Machine
end

