-- ==== Sys2Proof/Machine/Scalar.lean ====
section
/-! DEFINITION. The scalar stream's own instructions (chapter 9): SALU, comparisons, immediates, constants, branches. -/

namespace Sys2Proof.Machine

/-! ## Helpers -/

/-- Leading zero bits of a w-bit number. -/
def clzBits (w v : Nat) : Nat := if v = 0 then w else w - 1 - Nat.log2 v
/-- Trailing zero bits below bit `w`, counted up from bit `i`. -/
def ctzFrom (v : Nat) : Nat → Nat → Nat
  | 0, i => i
  | n + 1, i => if v.testBit i then i else ctzFrom v n (i + 1)
/-- One bits among the lowest `n`. -/
def popBits (v : Nat) : Nat → Nat
  | 0 => 0
  | n + 1 => popBits v n + (if v.testBit n then 1 else 0)

/-- A 14-bit immediate, sign-extended (R22). -/
def imm14 (i : BitVec 14) : W64 := i.signExtend 64

/-- Bits [127:64] of the signed product. -/
def mulHigh (a b : W64) : W64 := ((a.signExtend 128 * b.signExtend 128) >>> 64).setWidth 64
/-- Bits [127:64] of the unsigned product. -/
def mulHighU (a b : W64) : W64 := ((a.setWidth 128 * b.setWidth 128) >>> 64).setWidth 64

/-- The shift amount [5:0] of a register (Table 9-2). -/
def shAmt (b : W64) : Nat := b.toNat % 64

/-- A SALU function of two registers. -/
def State.salu (s : State) (d a b : BitVec 6) (f : W64 → W64 → W64) : Out := .next (s.sput d (f (s.sread a) (s.sread b)))

/-- A division: b = 0 raises INT_DIV_ZERO (R171). -/
def State.sdivide (s : State) (d a b : BitVec 6) (f : W64 → W64 → W64) : Out :=
  if s.sread b = 0 then s.scalarTrap 0x03 0 else .next (s.sput d (f (s.sread a) (s.sread b)))

/-- The conditions of Table 9-3. -/
def scond (c : SCond) (a b : W64) : Bool :=
  match c with
  | .eq => decide (a = b)
  | .ne => decide (a ≠ b)
  | .lt => a.slt b
  | .le => a.sle b
  | .ltn => a.ult b
  | .len => a.ule b
  | .tst => decide (a &&& b ≠ 0)
  | .ntst => decide (a &&& b = 0)

/-- Write a condition and go on. -/
def State.cput (s : State) (n : Fin 8) (b : Bool) : State := (s.modCur fun g => g.cwrite n b).bump

/-- The PC of the current scalar instruction. -/
def State.spc (s : State) : W64 := s.cur.spc
/-- The target of a word offset (R23). -/
def State.starget (s : State) (o : W64) : W64 := s.spc + (o <<< 2)
/-- A jump to a register's value: bits [1:0] must be zero (R181). -/
def State.sjumpReg (s : State) (t : W64) (link : Bool) : Out :=
  if t.toNat % 4 ≠ 0 then s.scalarTrap 0x05 t
  else .next ((if link then s.swrite 61 (s.spc + 4) else s).sjump t)

/-! ## SALU (Table 9-2) -/

/-- SADD (R170). -/
def execSadd (d a b : BitVec 6) (s : State) : Out := s.salu d a b fun x y => x + y
/-- SSUB (R170). -/
def execSsub (d a b : BitVec 6) (s : State) : Out := s.salu d a b fun x y => x - y
/-- SMUL (R170). -/
def execSmul (d a b : BitVec 6) (s : State) : Out := s.salu d a b fun x y => x * y
/-- SMULH (R170). -/
def execSmulh (d a b : BitVec 6) (s : State) : Out := s.salu d a b mulHigh
/-- SMULHN (R170). -/
def execSmulhn (d a b : BitVec 6) (s : State) : Out := s.salu d a b mulHighU
/-- SDIV (R170, R171). -/
def execSdiv (d a b : BitVec 6) (s : State) : Out := s.sdivide d a b BitVec.sdiv
/-- SDIVN (R170, R171). -/
def execSdivn (d a b : BitVec 6) (s : State) : Out := s.sdivide d a b BitVec.udiv
/-- SREM (R170, R171). -/
def execSrem (d a b : BitVec 6) (s : State) : Out := s.sdivide d a b BitVec.srem
/-- SREMN (R170, R171). -/
def execSremn (d a b : BitVec 6) (s : State) : Out := s.sdivide d a b BitVec.umod
/-- SAND (R170). -/
def execSand (d a b : BitVec 6) (s : State) : Out := s.salu d a b fun x y => x &&& y
/-- SOR (R170). -/
def execSor (d a b : BitVec 6) (s : State) : Out := s.salu d a b fun x y => x ||| y
/-- SXOR (R170). -/
def execSxor (d a b : BitVec 6) (s : State) : Out := s.salu d a b fun x y => x ^^^ y
/-- SANDN (R170). -/
def execSandn (d a b : BitVec 6) (s : State) : Out := s.salu d a b fun x y => x &&& ~~~y
/-- SSHL (R170). -/
def execSshl (d a b : BitVec 6) (s : State) : Out := s.salu d a b fun x y => x <<< shAmt y
/-- SSHR (R170). -/
def execSshr (d a b : BitVec 6) (s : State) : Out := s.salu d a b fun x y => x >>> shAmt y
/-- SSAR (R170). -/
def execSsar (d a b : BitVec 6) (s : State) : Out := s.salu d a b fun x y => x.sshiftRight (shAmt y)
/-- SMIN (R170). -/
def execSmin (d a b : BitVec 6) (s : State) : Out := s.salu d a b fun x y => if x.slt y then x else y
/-- SMAX (R170). -/
def execSmax (d a b : BitVec 6) (s : State) : Out := s.salu d a b fun x y => if x.slt y then y else x
/-- SMINN (R170). -/
def execSminn (d a b : BitVec 6) (s : State) : Out := s.salu d a b fun x y => if x.ult y then x else y
/-- SMAXN (R170). -/
def execSmaxn (d a b : BitVec 6) (s : State) : Out := s.salu d a b fun x y => if x.ult y then y else x
/-- SCLZ (R170). -/
def execSclz (d a : BitVec 6) (s : State) : Out := .next (s.sput d (BitVec.ofNat 64 (clzBits 64 (s.sread a).toNat)))
/-- SCTZ (R170). -/
def execSctz (d a : BitVec 6) (s : State) : Out := .next (s.sput d (BitVec.ofNat 64 (ctzFrom (s.sread a).toNat 64 0)))
/-- SPOPC (R170). -/
def execSpopc (d a : BitVec 6) (s : State) : Out := .next (s.sput d (BitVec.ofNat 64 (popBits (s.sread a).toNat 64)))
/-- SSEL (R26, R170). -/
def execSsel (d a b : BitVec 6) (c : Fin 8) (s : State) : Out :=
  .next (s.sput d (if s.cur.cread c then s.sread a else s.sread b))

/-- The values SMBR may return (R165): the value at the last completed LQUIET and those written since, or the slot's
one value when nothing was written since. Log entry 45 (DESIGN CHOICE). -/
def Mbox.options (m : Mbox) : List W64 := if m.since = [] then [m.cur] else m.quiet :: m.since

/-- SMBR (R165): where the manual leaves the choice, a free value makes it. Log entry 45 (DESIGN CHOICE). -/
def execSmbr (d : BitVec 6) (n : Fin 4) (s : State) : Out :=
  let o := (s.cur.mbox.get {} n.val).options
  let r := s.draw
  .next (r.2.sput d (o.getD (r.1.toNat % o.length) 0))

/-! ## Comparisons, immediates, constants -/

/-- SCMP (R172). -/
def execScmp (n : Fin 8) (a b : BitVec 6) (c : SCond) (s : State) : Out := .next (s.cput n (scond c (s.sread a) (s.sread b)))
/-- SCMPI (R173). -/
def execScmpi (k : SCond) (n : Fin 8) (a : BitVec 6) (i : BitVec 14) (s : State) : Out :=
  .next (s.cput n (scond k (s.sread a) (imm14 i)))
/-- SADDI (R174). -/
def execSaddi (d a : BitVec 6) (i : BitVec 14) (s : State) : Out := .next (s.sput d (s.sread a + imm14 i))
/-- SANDI (R174). -/
def execSandi (d a : BitVec 6) (i : BitVec 14) (s : State) : Out := .next (s.sput d (s.sread a &&& i.setWidth 64))
/-- SORI (R174). -/
def execSori (d a : BitVec 6) (i : BitVec 14) (s : State) : Out := .next (s.sput d (s.sread a ||| i.setWidth 64))
/-- SXORI (R174). -/
def execSxori (d a : BitVec 6) (i : BitVec 14) (s : State) : Out := .next (s.sput d (s.sread a ^^^ i.setWidth 64))
/-- SSHLI (R175). -/
def execSshli (d a : BitVec 6) (n : BitVec 6) (s : State) : Out := .next (s.sput d (s.sread a <<< n.toNat))
/-- SSHRI (R175). -/
def execSshri (d a : BitVec 6) (n : BitVec 6) (s : State) : Out := .next (s.sput d (s.sread a >>> n.toNat))
/-- SSARI (R175). -/
def execSsari (d a : BitVec 6) (n : BitVec 6) (s : State) : Out := .next (s.sput d ((s.sread a).sshiftRight n.toNat))
/-- SLI (R176). -/
def execSli (d : BitVec 6) (i : BitVec 20) (s : State) : Out := .next (s.sput d (i.signExtend 64))
/-- SLIS (R176). -/
def execSlis (d : BitVec 6) (i : BitVec 20) (s : State) : Out := .next (s.sput d ((s.sread d <<< 20) ||| i.setWidth 64))

/-! ## Branches, calls and loops (R181 to R185) -/

/-- SBR (R182). -/
def execSbr (c : Fin 8) (n : Bool) (o : BitVec 22) (s : State) : Out :=
  .next (if s.cur.cread c != n then s.sjump (s.starget (o.signExtend 64)) else s.bump)
/-- SJMP (R183). -/
def execSjmp (o : BitVec 26) (s : State) : Out := .next (s.sjump (s.starget (o.signExtend 64)))
/-- SCALL (R183). -/
def execScall (o : BitVec 26) (s : State) : Out :=
  .next ((s.swrite 61 (s.spc + 4)).sjump (s.starget (o.signExtend 64)))
/-- SJR (R184). -/
def execSjr (a : BitVec 6) (s : State) : Out := s.sjumpReg (s.sread a) false
/-- SJRL (R184). -/
def execSjrl (a : BitVec 6) (s : State) : Out := s.sjumpReg (s.sread a) true
/-- SRET (R184). -/
def execSret (s : State) : Out := s.sjumpReg (s.sread 61) false
/-- SLOOP (R185). -/
def execSloop (d : BitVec 6) (i : BitVec 14) (s : State) : Out :=
  let v := s.sread d - 1
  let s' := s.swrite d v
  .next (if v ≠ 0 then s'.sjump (s.starget (imm14 i)) else s'.bump)

end Sys2Proof.Machine
end

