-- ==== Sys2Proof/Machine/ScalarMem.lean ====
section
/-! DEFINITION. The scalar stream's memory accesses (R177 to R180), the decision queue's commands (R158 to R162), and
the events that end their waits. -/

namespace Sys2Proof.Machine

/-! ## Who accesses, and waiting -/

/-- The current group's scalar stream as an accessor. -/
def State.sacc (s : State) : Acc := { core := s.curTeam.core, ctx := s.curTeam.ctx, mode := s.cur.mode, gid := s.curGid }

/-- Wait codes of a scalar access: host data, peer data, a host translation. -/
def onHost : W64 := 0
/-- The access waits for a peer. -/
def onPeer : W64 := 1
/-- The access waits for a host translation. -/
def onXlat : W64 := 2

/-- A request for a translation. -/
def Req.isXlat (r : Req) : Bool := decide (r.kind = .ats ∨ r.kind = .pri)

/-- What asking for a host translation comes to: a request to wait for, a cause the host's answer has given the access, or a core
miss queue that is full. -/
inductive Asked where
  | wait (tag : Nat) | fault (cause : Nat) | full
deriving DecidableEq, Repr

/-- The answer a party has still to see for an address. -/
def State.denial? (s : State) (w : Waiter) (ctx : Nat) (va : W64) (write : Bool) : Option Denial :=
  s.host.denials.find? fun d => decide (d.waiter = w) && decide (d.ctx = ctx) && decide (d.page = va.toNat / 4096) && decide (d.write = write)

/-- A party has seen its answer. -/
def State.seeDenial (s : State) (d : Denial) : State := { s with host := { s.host with denials := s.host.denials.filter fun e => decide (e ≠ d) } }

/-- The translation request an access needs (R78, R79, R82): an answer that the host has given the access ends it; a miss on a page
that its die already asks for under the context's PASID joins that request, and a core has at most 64 pages missing. -/
def State.askXlat (s : State) (w : Waiter) (x : Acc) (va : W64) (write : Bool) : Asked × State :=
  match s.denial? w x.ctx va write with
  | some d => (.fault d.cause, s.seeDenial d)
  | none =>
    let j : Joined := { waiter := w, ctx := x.ctx, core := x.core, va := va, write := write }
    let pasid := (s.context x.ctx).pasid
    let die := s.tlbDie x.core
    let same := fun (r : Req) => r.isXlat && decide (r.pasid = pasid) && decide (r.die = die) && decide (r.va.toNat / 4096 = va.toNat / 4096)
    let mine := fun (r : Req) => r.joined.any fun i => decide (i.core = x.core)
    let full := decide (64 ≤ s.host.reqs.countP fun p => p.2.isXlat && mine p.2)
    match s.host.reqs.find? fun p => same p.2 with
    | some (n, r) =>
      if r.joined.contains j then (.wait n, s)
      else if full && !mine r then (.full, s)
      else (.wait n, { s with host := { s.host with reqs := s.host.reqs.insert n { r with joined := r.joined ++ [j] } } })
    | none =>
      if full then (.full, s)
      else
        let q := s.askHost { kind := .ats, waiter := w, ctx := x.ctx, va := va, data := if write then 1 else 0, pasid := pasid, die := die, joined := [j] }
        (.wait q.1, q.2)

/-- What a scalar access does with its outcome: a fault traps with TVAL the address, a far result or a translation is
waited for, and a stall tries again. -/
def State.saccess (s : State) (i : Instr) (va : W64) (write : Bool) (r : Res × State) (k : Nat → State → State) : Out :=
  match r with
  | (.val v, s') => .next (k v s')
  | (.fault c, s') => s'.scalarTrap c va
  | (.far (.host t _ _), s') => .next (s'.swaitOn { instr := i, tok := t, aux := [onHost] })
  | (.far (.peer t _ _), s') => .next (s'.swaitOn { instr := i, tok := t, aux := [onPeer] })
  | (.far _, s') => .next s'
  | (.ats, s') =>
    match s'.askXlat (.scalar s.curGid) s'.sacc va write with
    | (.wait n, s') => .next (s'.swaitOn { instr := i, tok := n, aux := [onXlat] })
    | (.fault c, s') => s'.scalarTrap c va
    | (.full, s') => .next s'
  | (.stall, s') => .next s'

/-! ## Scratchpad accesses of the scalar stream and the lanes (R106, R113, R118) -/

/-- The scratch aperture of a scalar address (R177). -/
def inAperture (va : W64) : Bool := decide (va.toNat / 2 ^ 32 = 0xFFFFFFFF)

/-- A scratch access: a value, or the cause it raises. -/
inductive SRes where
  | ok (v : Nat) | fault (cause : Nat)
deriving DecidableEq, Repr

/-- A scratch load of n aligned bytes. -/
def State.scratchLoad (s : State) (tid a n : Nat) : SRes :=
  match s.scratchAt tid a with
  | none => .fault 0x07
  | some (t, off) => .ok ((s.team t).rd off n)

/-- A scratch store of n aligned bytes: a watched byte raises WATCH_WORD_WRITE (R113). -/
def State.scratchStore (s : State) (tid a n v : Nat) : SRes × State :=
  match s.scratchAt tid a with
  | none => (.fault 0x07, s)
  | some (t, off) =>
    if (s.team t).touches off n then (.fault 0x0F, s)
    else (.ok 0, s.modTeam t fun x => x.wr off n v)

/-- A 64-bit add as an arrival counts it. -/
def AtomF.isAdd64 : AtomF → Bool
  | .op .add .i64 _ => true
  | .op .add .n64 _ => true
  | _ => false

/-- A scratch atomic (R113, R133): an add of 64 bits at a counter's COUNT is an arrival; any other atomic on a watched
byte raises WATCH_WORD_WRITE. The old value comes back. -/
def State.scratchAtomic (s : State) (tid a : Nat) (f : AtomF) : SRes × State :=
  match s.scratchAt tid a with
  | none => (.fault 0x07, s)
  | some (t, off) =>
    let n := f.bytes
    let old := (s.team t).rd off n
    if (s.team t).touches off n then
      if f.isAdd64 && (s.team t).hasCounter off then
        (.ok old, (s.modTeam t fun x => x.wr off n (f.new old)).teamEvent t)
      else (.fault 0x0F, s)
    else (.ok old, s.modTeam t fun x => x.wr off n (f.new old))

/-! ## SLD, SLDX, SST, SATOM -/

/-- Bytes of an access size (Table 2-1). -/
def Size.bytes' : Size → Nat
  | .b8 => 1 | .b16 => 2 | .b32 => 4 | .b64 => 8

/-- n bytes sign-extended to 64 bits. -/
def sext64 (n v : Nat) : W64 := BitVec.ofInt 64 (sext (BitVec.ofNat 64 v) (8 * n))

/-- The address of an S.M instruction (R178). -/
def State.smAddr (s : State) (a : BitVec 6) (z : Size) (o : BitVec 12) : W64 :=
  s.sread a + o.signExtend 64 * BitVec.ofNat 64 (Size.bytes' z)

/-- The checks and the access of a scalar load (R178), its value given to `k`. -/
def State.sloadWith (s : State) (i : Instr) (va : W64) (n : Nat) (k : Nat → State → State) : Out :=
  if va.toNat % n ≠ 0 then s.scalarTrap 0x05 va
  else if inAperture va then
    match s.scratchLoad s.cur.team (va.toNat % 2 ^ 32) n with
    | .ok v => .next (k v s)
    | .fault c => s.scalarTrap c (va.setWidth 32 |>.setWidth 64)
  else s.saccess i va false (s.load s.sacc (.scalar s.curGid) va n 0 .zero false) k

/-- SLD (R178). -/
def execSld (d a : BitVec 6) (z : Size) (o : BitVec 12) (s : State) : Out :=
  s.sloadWith (.sld d a z o) (s.smAddr a z o) (Size.bytes' z) fun v s' => s'.sput d (BitVec.ofNat 64 v)

/-- SLDX (R178). -/
def execSldx (d a : BitVec 6) (z : Size) (o : BitVec 12) (s : State) : Out :=
  s.sloadWith (.sldx d a z o) (s.smAddr a z o) (Size.bytes' z) fun v s' => s'.sput d (sext64 (Size.bytes' z) v)

/-- SST (R178). -/
def execSst (r a : BitVec 6) (z : Size) (o : BitVec 12) (s : State) : Out :=
  let va := s.smAddr a z o
  let n := Size.bytes' z
  let v := (s.sread r).toNat % 2 ^ (8 * n)
  if va.toNat % n ≠ 0 then s.scalarTrap 0x05 va
  else if inAperture va then
    match s.scratchStore s.cur.team (va.toNat % 2 ^ 32) n v with
    | (.ok _, s') => .next s'.bump
    | (.fault c, s') => s'.scalarTrap c (va.setWidth 32 |>.setWidth 64)
  else s.saccess (.sst r a z o) va true (s.store s.sacc (.scalar s.curGid) true va n v 0) fun _ s' => s'.bump

/-- SATOM (R180): 64 bits, min and max signed. -/
def execSatom (d a b : BitVec 6) (o : AOp) (s : State) : Out :=
  let va := s.sread a
  let f : AtomF := .op o .i64 (s.sread b).toNat
  if va.toNat % 8 ≠ 0 then s.scalarTrap 0x05 va
  else if inAperture va then
    match s.scratchAtomic s.cur.team (va.toNat % 2 ^ 32) f with
    | (.ok old, s') => .next (s'.sput d (BitVec.ofNat 64 old))
    | (.fault c, s') => s'.scalarTrap c (va.setWidth 32 |>.setWidth 64)
  else s.saccess (.satom d a b o) va true (s.atomic s.sacc (.scalar s.curGid) va f false false) fun old s' =>
    s'.sput d (BitVec.ofNat 64 old)

/-- Go on after a waiting scalar access has its answer. -/
def State.finishAccess (s : State) (i : Instr) (v : Nat) : State :=
  match i with
  | .sld d _ z _ => s.sput d (BitVec.ofNat 64 (v % 2 ^ (8 * Size.bytes' z)))
  | .sldx d _ z _ => s.sput d (sext64 (Size.bytes' z) v)
  | .satom d _ _ _ => s.sput d (BitVec.ofNat 64 v)
  | _ => s.bump

/-- Act for a group's scalar stream. -/
def State.asGroup (s : State) (g : Nat) : State := { s with curGid := g }

/-! ## The decision queue (R158 to R162) -/

/-- The lane stream of a group is idle (R158): every split that is left waits at NEXT, and no trap handler runs. -/
def Group.laneIdle (g : Group) : Bool := decide (g.tslot = none) && g.splits.all fun p => decide (p.2.mode = .waitNext)

/-- Enqueue a run, or wait while the queue holds 8 entries (R160). -/
def State.enqueue (s : State) (i : Instr) (r : Run) : State :=
  if 8 ≤ s.cur.queue.length then s.swaitOn { instr := i, tok := r.start.toNat, aux := r.args }
  else (s.modCur fun g => { g with queue := g.queue ++ [r], runs := g.runs + 1 }).bump

/-- The runs of a group that have ended: all it has enqueued, but for those in the queue and the one its lanes are in. -/
def Group.runsEnded (g : Group) : Nat := g.runs - g.queue.length - (if g.laneIdle then 0 else 1)

/-- A fork that comes after so many runs of a group may begin: they have ended and their atomics have been performed (R309, R324). -/
def State.forkReady (s : State) (gid after : Nat) : Bool :=
  let g := s.group gid
  g.ended || (decide (after ≤ g.runsEnded) && !s.atomsOut gid)

/-- LRUN and LRUNR (R160) for a run start. -/
def State.runCommand (s : State) (i : Instr) (d : BitVec 6) (start : W64) : Out :=
  if s.curTeam.kernel.lunits ≤ start.toNat then s.scalarTrap 0x07 start
  else if !s.cur.anyLive && s.cur.laneIdle then .next (s.endGroup s.curGid true)
  else
    let args := if d = 0 then [0, 0, 0, 0] else (List.range 4).map fun j => s.sreadAt d j
    .next (s.enqueue i { start := start.setWidth 32, args := args })

/-- LRUN (R160). -/
def execLrun (d : BitVec 6) (i : BitVec 20) (s : State) : Out := s.runCommand (.lrun d i) d (i.setWidth 64)
/-- LRUNR (R160): bits [63:20] of the start must be zero, which no start below LUNITS has set otherwise. -/
def execLrunr (d a : BitVec 6) (s : State) : Out :=
  if (s.sread a).toNat / 2 ^ 20 ≠ 0 then s.scalarTrap 0x07 (s.sread a) else s.runCommand (.lrunr d a) d (s.sread a)

/-- LRUN_ENQUEUE (R160): a place has come free, and the waiting LRUN or LRUNR enters its captured run. -/
def execLrunEnqueue (g : Nat) (s : State) : Out :=
  let s := s.asGroup g
  match s.waiting with
  | some { instr := .lrun d i, tok := t, aux := a, .. } =>
    .next (s.enqueue (.lrun d i) { start := BitVec.ofNat 32 t, args := a })
  | some { instr := .lrunr d i, tok := t, aux := a, .. } =>
    .next (s.enqueue (.lrunr d i) { start := BitVec.ofNat 32 t, args := a })
  | _ => .next s

/-- An LQUIET completes (R161, R165): each mailbox's value becomes the value at the last completed LQUIET. -/
def Group.quieten (g : Group) : Group :=
  { g with mbox := g.mbox.map fun p => (p.1, { p.2 with quiet := p.2.cur, since := [] }) }

/-- LQUIET, at issue and at each re-check (R161, R162). -/
def State.lquiet (s : State) : State :=
  if s.cur.laneIdle && decide (s.cur.queue = []) then
    if s.cur.anyLive then (s.modCur Group.quieten).bump else s.endGroup s.curGid true
  else s.swaitOn { instr := .lquiet }

/-- LQUIET (R161). -/
def execLquiet (s : State) : Out := .next s.lquiet

/-- LQUIET_COMPLETE (R161): the lane stream has become idle. -/
def execLquietComplete (g : Nat) (s : State) : Out :=
  let s := s.asGroup g
  match s.waiting with
  | some { instr := .lquiet, .. } => .next s.lquiet
  | _ => .next s

end Sys2Proof.Machine
end

