-- ==== Sys2Proof/Machine/Engine.lean ====
section
/-! DEFINITION. How engines, firmware and the command processor reach memory at the L2 home slices (R140, R413), the
pager queue (R61) and the events SHALT sees (R410). -/

namespace Sys2Proof.Machine

/-! ## Engine accesses -/

/-- An address cut at the 128-byte lines. -/
def lineParts (va : W64) (n : Nat) : Nat → List (W64 × Nat)
  | 0 => []
  | fuel + 1 =>
    if n = 0 then []
    else
      let r := min n (128 - va.toNat % 128)
      (va, r) :: lineParts (va + BitVec.ofNat 64 r) (n - r) fuel

/-- What an engine access comes to: bytes (none for a write), a fault, or not yet. -/
inductive ERes where
  | ok (bytes : List Byte) | fault (cause : Nat) | wait
deriving DecidableEq, Repr

/-- The read of a line that a waiter has asked for. -/
def lineReq (reqs : SMap Req) (w : Waiter) (a : Nat) : Option Req :=
  (reqs.find? fun p => decide (p.2.kind = .read) && decide (p.2.waiter = w) && decide (p.2.addr / 128 = a / 128)).map (·.2)

/-- An engine access asks for a host translation: it waits, or ends as the host has answered. -/
def State.engAsk (s : State) (w : Waiter) (x : Acc) (va : W64) (write : Bool) : ERes × State :=
  match s.askXlat w x va write with
  | (.fault c, s) => (.fault c, s)
  | (_, s) => (.wait, s)

/-- Read a part of a line that L2 does not hold: it is asked for once, and read from its answer; an access that has failed ends. -/
def State.engFetch (s : State) (w : Waiter) (x : Acc) (va : W64) (n a : Nat) (reqs : SMap Req) (ask : State → State) : ERes × State :=
  match s.denial? w x.ctx va false with
  | some d => (.fault d.cause, s.seeDenial d)
  | none =>
    match lineReq reqs w a with
    | none => (.wait, ask s)
    | some r =>
      match r.line with
      | some d => (.ok (leBytes n (lget d (a % 128) n)), s)
      | none => (.wait, s)

/-- Read a part of one line, under a policy (Table 7-2): 1 keeps no copy of a host or peer line in L2. Before the pool ports are up an
access of an engine to pool memory has no lease (R426). Log entry 32 (DEDUCED). -/
def State.engPart (s : State) (x : Acc) (w : Waiter) (va : W64) (n : Nat) (pol : Nat := 1) : ERes × State :=
  match s.xlate x va .read with
  | (.fault c, s) => (.fault c, s)
  | (.ats, s) => s.engAsk w x va false
  | (.ok l a, s) =>
    let k := lineKey l.space l.peer a
    let bytes := fun (s : State) => leBytes n (lget (s.mem.l2Data k) (a % 128) n)
    if s.poolDown l then (.fault 0x09, s)
    else if l.space = 2 then
      if !s.reach l.peer then (.fault 0x11, s)
      else if s.leased x.ctx k then (.ok (bytes s), s)
      else s.engFetch w x va n a s.fabric.reqs fun s => (s.askPeer { readReq x w l va a n pol with l1 := none }).2
    else if l.space = 1 then
      if (s.mem.l2.find k).isSome then (.ok (bytes s), s)
      else if s.hostGone then (.fault 0x13, s)
      else s.engFetch w x va n a s.host.reqs fun s => (s.askHost { readReq x w l va a n pol with l1 := none }).2
    else
      match s.l2Get x l a false false with
      | (.here, s) => (.ok (bytes s), s)
      | (.fault c, s) => (.fault c, s)
      | (_, s) => (.wait, s)

/-- Read parts in order; the first that fails or is not there decides. -/
def State.engParts (s : State) (x : Acc) (w : Waiter) : List (W64 × Nat) → ERes × State
  | [] => (.ok [], s)
  | (va, n) :: r =>
    match s.engPart x w va n with
    | (.ok b, s) =>
      (match s.engParts x w r with
       | (.ok c, s) => (.ok (b ++ c), s)
       | o => o)
    | o => o

/-- The requests of a waiter for some lines are over: their answers have been used, or are not wanted any more. Log entry 32 (DEDUCED). -/
def State.dropFetched (s : State) (w : Waiter) (ps : List (W64 × Nat)) : State :=
  let past := fun (r : Req) => decide (r.kind = .read) && decide (r.waiter = w) && ps.any fun p => decide (p.1.toNat / 128 = r.va.toNat / 128)
  let h := s.host
  { s with host := { h with reqs := h.reqs.filter fun p => !past p.2,
                            waiting := h.waiting.filter fun n => !((h.reqs.find n).map past).getD false },
           fabric := { s.fabric with reqs := s.fabric.reqs.filter fun p => !past p.2 } }

/-- Read n bytes for an engine. Log entry 32 (DEDUCED). -/
def State.engRead (s : State) (x : Acc) (w : Waiter) (va : W64) (n : Nat) : ERes × State :=
  let ps := lineParts va n (n / 64 + 2)
  match s.engParts x w ps with
  | (.wait, s) => (.wait, s)
  | (r, s) => (r, s.dropFetched w ps)

/-- Read n bytes of one line for an engine under a policy. -/
def State.engLine (s : State) (x : Acc) (w : Waiter) (va : W64) (n pol : Nat) : ERes × State :=
  match s.engPart x w va n pol with
  | (.wait, s) => (.wait, s)
  | (r, s) => (r, s.dropFetched w [(va, n)])

/-- Write the parts of some bytes, in order. -/
def State.engWriteParts (s : State) (x : Acc) (w : Waiter) : List (W64 × Nat) → List Byte → ERes × State
  | [], _ => (.ok [], s)
  | (va, n) :: r, b =>
    match s.homeStore x w va (b.take n) with
    | (.fault c, s) => (.fault c, s)
    | (.ats, s) => s.engAsk w x va true
    | (.stall, s) => (.wait, s)
    | (_, s) => s.engWriteParts x w r (b.drop n)

/-- Write bytes for an engine; host and peer writes leave as requests. -/
def State.engWrite (s : State) (x : Acc) (w : Waiter) (va : W64) (b : List Byte) : ERes × State :=
  s.engWriteParts x w (lineParts va b.length (b.length / 64 + 2)) b

/-- Every part of a range can be read (or written): none, or the first failing part's address and cause. -/
def State.engCheck (s : State) (x : Acc) (va : W64) (n : Nat) (write : Bool) : Option (W64 × Nat) × State :=
  (lineParts va n (n / 64 + 2)).foldl (fun r p =>
    match r with
    | (some e, s) => (some e, s)
    | (none, s) =>
      match s.xlate x p.1 (if write then .write else .read) with
      | (.fault c, s) => (some (p.1, c), s)
      | (.ats, s) => (none, s)
      | (.ok l a, s) =>
        if l.space = 0 ∨ l.space = 3 then
          match s.l2Get x l a write false with
          | (.fault c, s) => (some (p.1, c), s)
          | (_, s) => (none, s)
        else (none, s)) (none, s)

/-- The bytes of 64-bit words. -/
def wordBytes (ws : List W64) : List Byte := ws.flatMap fun w => leBytes 8 w.toNat
/-- Word i of a byte list. -/
def wordAt (b : List Byte) (i : Nat) : W64 := BitVec.ofNat 64 (ofLeBytes ((b.drop (8 * i)).take 8))

/-- The system context's number: no user context id reaches it. -/
def sysCtx : Nat := 2 ^ 32
/-- Firmware of the system cores as an accessor (R392). Which of the four system cores runs it, R10 leaves open: the model takes
core 256. Log entry 21 (DESIGN CHOICE). -/
def sysAcc : Acc := { core := 256, ctx := sysCtx, mode := .priv, gid := 2 ^ 40 }

/-! ## Events SHALT sees (R410) -/

/-- What a waiting SHALT sees of an event: nothing once its deadline has been reached. -/
def SWait.shaltSee (w : SWait) (now : W64) (bit : Nat) : SWait :=
  match w.instr, w.aux with
  | .shalt _ _, [d] => if d ≠ 0 ∧ d.toNat ≤ now.toNat then w else { w with seen := w.seen ||| (1#64 <<< bit) }
  | _, _ => w

/-- An event that SHALT reports arrives. -/
def State.shaltEvent (s : State) (bit : Nat) : State :=
  let see := fun (g : Group) => { g with swait := g.swait.map fun w => w.shaltSee s.timeNs bit }
  { s with groups := s.groups.map fun p => (p.1, see p.2) }

/-! ## The pager queue (R61, R397, R406) -/

/-- A pager fault record (Table 3-4). -/
def pagerRecord (lease : W32) (source cause : Nat) (va : W64) (pool ctx core grp thr : Nat) : List W64 :=
  [BitVec.ofNat 64 (lease.toNat * 2 ^ 32 + source * 65536 + cause), va, BitVec.ofNat 64 pool,
   BitVec.ofNat 64 (ctx % 2 ^ 32 * 2 ^ 32 + core * 65536 + grp * 256 + thr)]

/-- Records in the queue. -/
def Pager.used (p : Pager) : Nat := (p.put - p.take).toNat

/-- Write a record at PUT and advance it; SHALT sees it. A record whose place cannot be written yet waits, first in line.
Log entry 21 (DESIGN CHOICE). -/
def State.putRecord (s : State) (r : List W64) : State :=
  let p := s.pager
  match s.engWrite sysAcc .engine (p.base + BitVec.ofNat 64 (32 * (p.put.toNat % 4096))) (wordBytes r) with
  | (.wait, s) => { s with pager := { s.pager with waiting := r :: s.pager.waiting } }
  | (_, s) => ({ s with pager := { s.pager with put := s.pager.put + 1 } } : State).shaltEvent 1

/-- Post a record, or keep it until a place is free (R61). -/
def State.postRecord (s : State) (r : List W64) : State :=
  if s.pager.waiting = [] ∧ s.pager.used < 4096 then s.putRecord r
  else { s with pager := { s.pager with waiting := s.pager.waiting ++ [r] } }

/-- Post the first record that waits, where there is a place. Log entry 21 (DESIGN CHOICE). -/
def State.postWaiting (s : State) : State :=
  match s.pager.waiting with
  | [] => s
  | r :: rest =>
    if s.pager.used < 4096 then ({ s with pager := { s.pager with waiting := rest } } : State).putRecord r else s

/-- Post as many of the n oldest records that wait as there are places for (R61). -/
def State.postAll (s : State) : Nat → State
  | 0 => s
  | n + 1 => s.postWaiting.postAll n

/-- The pool address of a virtual address of a group, if it has one. -/
def State.poolOf (s : State) (gid : Nat) (va : W64) : Option Nat :=
  match (s.xlate { s.accOf gid with mode := .priv } va .read).1 with
  | .ok l a => if l.space = 0 then some a else none
  | _ => none

/-- The GROUP field of a record: lane pair × 16 + slot. -/
def Group.place (g : Group) : Nat := g.lp * 16 + g.slot.getD 0

/-- Post the record of a fault of a group (R406). -/
def State.postFault (s : State) (gid source cause : Nat) (va : W64) (thr : Nat) : State :=
  let pool := s.poolOf gid va
  s.postRecord (pagerRecord ((pool.map s.mem.leaseIdAt).getD 0) source cause va (pool.getD 0) (s.ctxOf gid) (s.coreOf gid)
    (s.group gid).place thr)

end Sys2Proof.Machine
end

