-- ==== Sys2Proof/Machine/SysLane.lean ====
section
/-! DEFINITION. Privileged lane instructions LSRD, LSWR, SPILLW and FILLW (R411, R412), the ROM handlers' actions
(Table 20-1, R406) and the pager's answers (R407). -/

namespace Sys2Proof.Machine

/-! ## LSRD and LSWR (R396, R411) -/

/-- The split indices 8 to 12 name: the trapped split in a trap slot, else the executing one. -/
def Group.named (g : Group) (slot : Nat) : Split :=
  if slot < 4 then (g.splits.find slot).getD {}
  else
    let t := g.slotBank.cause.toNat / 8192 % 8
    if t < 4 then (g.splits.find t).getD {} else ((g.tslot.map fun z => z.levels.tail.headD {})).getD {}

/-- Read a lane system register of thread k (Table 20-3). -/
def State.lsr (s : State) (i k : Nat) : W64 :=
  let g := s.cur
  let t := g.thread k
  let x := g.named s.curSlot
  match i with
  | 0 => BitVec.ofNat 64 t.tlevel
  | 1 => t.t1.cause.setWidth 64
  | 2 => t.t1.pc.setWidth 64
  | 3 => t.t1.val
  | 4 => t.t2.cause.setWidth 64
  | 5 => t.t2.pc.setWidth 64
  | 6 => t.t2.val
  | 8 => x.wb.setWidth 64
  | 9 => BitVec.ofNat 64 x.rd
  | 10 => BitVec.ofNat 64 x.wsp
  | 11 => BitVec.ofNat 64 x.spill
  | 12 => x.mask.setWidth 64
  | 13 => g.ctximg
  | 14 => t.tlin.setWidth 64
  | _ => 0

/-- Write a lane system register of thread k; read-only and reserved ones ignore it (R4). -/
def Group.lsw (g : Group) (i k : Nat) (v : W64) : Group :=
  match i with
  | 2 => g.modThr k fun t => { t with t1 := { t.t1 with pc := v.setWidth 32 } }
  | 3 => g.modThr k fun t => { t with t1 := { t.t1 with val := v } }
  | 5 => g.modThr k fun t => { t with t2 := { t.t2 with pc := v.setWidth 32 } }
  | 6 => g.modThr k fun t => { t with t2 := { t.t2 with val := v } }
  | 13 => { g with ctximg := v }
  | _ => g

/-- LSRD (R411). -/
def execLsrd (l : Lane) (i : BitVec 8) (wide : Bool) (s : State) : Out :=
  s.lanePrivileged (.lsrd l i wide) (s.lane (.lsrd l i wide) l wide fun k s => .val (s.lsr i.toNat k) s)
/-- LSWR (R411). Log entry 35 (DEDUCED). -/
def execLswr (l : Lane) (i : BitVec 8) (wide : Bool) (s : State) : Out :=
  s.lanePrivileged (.lswr l i wide) (s.lane (.lswr l i wide) l false fun k s =>
    let v := BitVec.ofNat 64 (s.src l wide l.a k)
    .done (s.modCur fun g => g.lsw i.toNat k v))

/-! ## SPILLW and FILLW (R412) -/

/-- What a spill or fill comes to: how many entries moved; a fault; or not yet. -/
inductive Moved where
  | ok (n : Nat) (s : State) | fault (cause : Nat) (va : W64) (s : State) | wait (s : State)

/-- The largest multiple of 4 not above a number. -/
def down4 (n : Nat) : Nat := n / 4 * 4

/-- Replace the split that a trap slot's handler serves. -/
def Group.setNamed (g : Group) (f : Split → Split) : Group :=
  let t := g.slotBank.cause.toNat / 8192 % 8
  if t < 4 then g.modSplit t f
  else { g with tslot := g.tslot.map fun z => { z with levels := match z.levels with
      | a :: b :: r => a :: f b :: r
      | ls => ls } }

/-- The group's privileged accessor. -/
def State.privAcc (s : State) : Acc := { s.sacc with mode := .priv }
/-- Who waits for the handler's own accesses. -/
def State.slotWaiter (s : State) : Waiter := .xlat s.curGid 4

/-- Check ranges of the same length for a read or a write before anything moves. -/
def State.checkAll (s : State) (as : List W64) (n : Nat) (write : Bool) : Option (W64 × Nat) × State :=
  as.foldl (fun r a => match r with
    | (some e, s) => (some e, s)
    | (none, s) => s.engCheck s.privAcc a n write) (none, s)

/-- Write several pieces for an accessor. -/
def State.writeAllAs (s : State) (x : Acc) (w : Waiter) : List (W64 × List Byte) → ERes × State
  | [] => (.ok [], s)
  | (a, b) :: r =>
    match s.engWrite x w a b with
    | (.ok _, s) => s.writeAllAs x w r
    | o => o

/-- Write several pieces for the group's privileged code. -/
def State.writeAll (s : State) (w : Waiter) (ps : List (W64 × List Byte)) : ERes × State := s.writeAllAs s.privAcc w ps

/-- Read several pieces of n bytes. -/
def State.readAll (s : State) (w : Waiter) (n : Nat) : List W64 → Except (Option Nat × State) (List (List Byte)) × State
  | [] => (.ok [], s)
  | a :: r =>
    match s.engRead s.privAcc w a n with
    | (.ok b, s) =>
      (match s.readAll w n r with
       | (.ok bs, s) => (.ok (b :: bs), s)
       | o => o)
    | (.fault c, s) => (.error (some c, s), s)
    | (.wait, s) => (.error (none, s), s)

/-- Where thread j's spilled entries begin: BSTORE + L × BSIZE + 4 × position. -/
def State.spillAt (s : State) (j pos : Nat) : W64 :=
  let c := s.context s.curTeam.ctx
  c.bstore + (s.cur.thread j).tlin.setWidth 64 * c.bsize + BitVec.ofNat 64 (4 * pos)

/-- A stack entry position counted up from the oldest resident one. -/
def oldEntry (d : Nat) (x : Split) (i : Nat) : Nat := (x.wb.toNat + 2 * d - x.rd + i) % d

/-- SPILLW.win n (R412). -/
def State.spillWin (s : State) (n : Nat) : Moved :=
  let g := s.cur
  let x := g.named 4
  let d := s.curTeam.d
  let bs := (s.context s.curTeam.ctx).bsize.toNat
  let n := down4 (min n (min x.rd (bs / 4 - x.wsp)))
  let js := threadsOf x.mask
  match s.checkAll (js.map fun j => s.spillAt j x.wsp) (4 * n) true with
  | (some (a, c), s) => .fault c a s
  | (none, s) =>
    let bytes := fun (j : Nat) => (List.range n).flatMap fun i => leBytes 4 (g.rget j (oldEntry d x i)).toNat
    match s.writeAll s.slotWaiter (js.map fun j => (s.spillAt j x.wsp, bytes j)) with
    | (.ok _, s) => .ok n (s.modCur fun g => g.setNamed fun x => { x with rd := x.rd - n, wsp := x.wsp + n })
    | (.fault c, s) => .fault c (s.spillAt (js.headD 0) x.wsp) s
    | (.wait, s) => .wait s

/-- FILLW.win n (R412). -/
def State.fillWin (s : State) (n : Nat) : Moved :=
  let x := s.cur.named 4
  let d := s.curTeam.d
  let n := down4 (min n (min x.wsp (d - 48 - x.rd)))
  let js := threadsOf x.mask
  let at_ := fun (j : Nat) => s.spillAt j (x.wsp - n)
  match s.checkAll (js.map at_) (4 * n) false with
  | (some (a, c), s) => .fault c a s
  | (none, s) =>
    match s.readAll s.slotWaiter (4 * n) (js.map at_) with
    | (.error (some c, s), _) => .fault c (at_ (js.headD 0)) s
    | (.error (none, s), _) => .wait s
    | (.ok bs, s) =>
      let put := fun (g : Group) (j : Nat) (b : List Byte) => (List.range n).foldl (fun g i =>
        g.rset j (oldEntry d { x with rd := x.rd + n } i) (BitVec.ofNat 32 (ofLeBytes ((b.drop (4 * i)).take 4)))) g
      let g := (js.zip bs).foldl (fun g p => put g p.1 p.2) s.cur
      let s := s.setGroup s.curGid g
      .ok n (s.modCur fun g => g.setNamed fun x => { x with rd := x.rd + n, wsp := x.wsp - n })

/-- The stack spill region of the trapped split (R416). -/
def State.stackRegion (s : State) : W64 :=
  s.cur.ctximg + BitVec.ofNat 64 (6400 + 1536 * (s.cur.slotBank.cause.toNat / 8192 % 8))

/-- A reconvergence entry's 24-byte image (Table 19-2). -/
def REntry.image (e : REntry) : List W64 :=
  [e.ja ++ e.fa, e.pm ++ e.am,
   BitVec.ofNat 64 (e.id.toNat * 256 + (match e.kind with | .stk => 0 | .div => 1 | .call => 2))]
/-- The entry an image stands for. -/
def REntry.ofImage (b : List Byte) : REntry :=
  let w := wordAt b
  { kind := match wbits (w 2) 0 2 with | 0 => .stk | 1 => .div | _ => .call,
    ja := BitVec.ofNat 32 (wbits (w 0) 32 32), fa := BitVec.ofNat 32 (wbits (w 0) 0 32),
    pm := BitVec.ofNat 32 (wbits (w 1) 32 32), am := BitVec.ofNat 32 (wbits (w 1) 0 32),
    id := BitVec.ofNat 8 (wbits (w 2) 8 8) }

/-- SPILLW.stk n (R412): the bottom entries go out, the oldest first. -/
def State.spillStk (s : State) (n : Nat) : Moved :=
  let x := s.cur.named 4
  let n := min n (min x.stack.length (64 - x.spill))
  let a := s.stackRegion + BitVec.ofNat 64 (24 * x.spill)
  match s.engCheck s.privAcc a (24 * n) true with
  | (some (a, c), s) => .fault c a s
  | (none, s) =>
    let es := (x.stack.drop (x.stack.length - n)).reverse
    match s.engWrite s.privAcc s.slotWaiter a (wordBytes (es.flatMap REntry.image)) with
    | (.ok _, s) => .ok n (s.modCur fun g => g.setNamed fun x =>
        { x with stack := x.stack.take (x.stack.length - n), spill := x.spill + n })
    | (.fault c, s) => .fault c a s
    | (.wait, s) => .wait s

/-- FILLW.stk n (R412): entries return beneath the bottom. -/
def State.fillStk (s : State) (n : Nat) : Moved :=
  let x := s.cur.named 4
  let n := min n (min x.spill (8 - x.stack.length))
  let a := s.stackRegion + BitVec.ofNat 64 (24 * (x.spill - n))
  match s.engCheck s.privAcc a (24 * n) false with
  | (some (a, c), s) => .fault c a s
  | (none, s) =>
    match s.engRead s.privAcc s.slotWaiter a (24 * n) with
    | (.ok b, s) =>
      let es := (List.range n).map fun i => REntry.ofImage (b.drop (24 * i))
      .ok n (s.modCur fun g => g.setNamed fun x => { x with stack := x.stack ++ es.reverse, spill := x.spill - n })
    | (.fault c, s) => .fault c a s
    | (.wait, s) => .wait s

/-- A SPILLW or FILLW instruction: illegal outside a trap slot; guarded as a U instruction. -/
def State.mover (s : State) (i : Instr) (l : Lane) (f : State → Moved) : Out :=
  s.lanePrivileged i
    (if s.curSlot ≠ 4 then s.killLane
     else s.lane i l false fun _ s =>
      match f s with
      | .ok _ s => .done s
      | .fault c a s => .trap c a s
      | .wait s => .stall s)

/-- SPILLW.win (R412). -/
def execSpillwWin (l : Lane) (s : State) : Out := s.mover (.spillwWin l) l fun s => s.spillWin l.imm.toNat
/-- SPILLW.stk (R412). -/
def execSpillwStk (l : Lane) (s : State) : Out := s.mover (.spillwStk l) l fun s => s.spillStk l.imm.toNat
/-- FILLW.win (R412). -/
def execFillwWin (l : Lane) (s : State) : Out := s.mover (.fillwWin l) l fun s => s.fillWin l.imm.toNat
/-- FILLW.stk (R412). -/
def execFillwStk (l : Lane) (s : State) : Out := s.mover (.fillwStk l) l fun s => s.fillStk l.imm.toNat

/-! ## The ROM handlers' actions (Table 20-1, log entry 11) -/

/-- Causes for which the ROM posts a pager record. -/
def pagerCause (c : Nat) : Bool :=
  decide (c = 0x02 ∨ (0x06 ≤ c ∧ c ≤ 0x0B) ∨ c = 0x0F ∨ (0x11 ≤ c ∧ c ≤ 0x13) ∨ c = 0x16)

/-- The ROM handler in a group's trap slot posts its record and parks the split (R406). -/
def State.romPark (s : State) (gid : Nat) : State :=
  let b := (s.group gid).slotBank
  let s := s.postFault gid 0 (b.cause.toNat % 64) b.val (b.cause.toNat / 256 % 32)
  s.laneReturn gid .park

/-- The scalar ROM handler posts its record and parks the stream (R406). -/
def State.romScalarPark (s : State) (gid : Nat) : State :=
  let g := s.group gid
  let b := if g.stlevel = 1 then g.st1 else g.st2
  (s.postFault gid 1 (b.cause.toNat % 64) b.val 0).scalarReturn gid .park

/-- The handler's split stands at the ROM vector. Log entry 11 (DESIGN CHOICE). -/
def Group.romLane (g : Group) : Bool := ((g.split? 4).map (·.inRom)).getD false

/-- A handler's move of entries, and TRET; a move of nothing is fatal (Table 20-1), and a failing one traps in the
thread the slot serves. Log entry 30 (DESIGN CHOICE). -/
def Moved.rom (m : Moved) (gid thr cause : Nat) : State :=
  match m with
  | .ok n z => if n = 0 then z.killContext (z.ctxOf gid) cause else z.laneReturn gid .retry
  | .fault c a z => z.laneTrap thr c a
  | .wait z => z

/-- What the ROM lane handler does in its turn. Log entries 11 (DESIGN CHOICE), 30 (DESIGN CHOICE). -/
def State.romLaneTurn (s : State) (gid : Nat) : State :=
  let s : State := { s with curGid := gid, curSlot := 4 }
  let b := s.cur.slotBank
  let c := b.cause.toNat % 64
  let f := b.val.toNat
  let thr := (s.cur.tslot.map (·.thr)).getD 0
  if pagerCause c then s.romPark gid
  else if c = 0x0C then (s.spillWin f).rom gid thr c
  else if c = 0x0D then (s.fillWin f).rom gid thr c
  else if c = 0x0E then (if f = 0 then s.spillStk 4 else s.fillStk 4).rom gid thr c
  else s.killContext (s.ctxOf gid) c

/-- What the ROM scalar handler does in its turn. Log entry 11 (DESIGN CHOICE). -/
def State.romScalarTurn (s : State) (gid : Nat) : State :=
  let g := s.group gid
  let c := (if g.stlevel = 1 then g.st1 else g.st2).cause.toNat % 64
  if pagerCause c then s.romScalarPark gid else s.killContext (s.ctxOf gid) c

/-- PAGER_RECORD_POST (R61): the ROM handler of a group's lane stream (n = 4) or scalar stream (n = 5) posts its record
and parks; for any other n a record that waits for a place is posted. -/
def execPagerRecordPost (g n : Nat) (s : State) : Out :=
  let x := s.group g
  if n = 4 then .next (if x.romLane && pagerCause (x.slotBank.cause.toNat % 64) then s.romPark g else s)
  else if n = 5 then
    .next (if x.srom && pagerCause ((if x.stlevel = 1 then x.st1 else x.st2).cause.toNat % 64) then s.romScalarPark g else s)
  else .next s.postWaiting

/-! ## The pager's answers (R407) -/

/-- A split of a group parked with a resume index. -/
def Group.parkedAt (g : Group) (k : Nat) : Option (Nat × Nat) :=
  let top := ((g.split? 4).map fun x => (4, x)).toList
  ((g.splits ++ top).filterMap fun (p : Nat × Split) =>
    match p.2.mode with
    | .parked c => if p.2.rix = k then some (p.1, c) else none
    | _ => none).head?

/-- A parked copy slice of a group: team, copy index in the team's list, slice index, cause. Log entry 60 (DEDUCED). -/
def State.parkedSlice (s : State) (gid : Nat) : Option (Nat × Nat × Nat × Nat) :=
  let t := (s.group gid).team
  ((s.team t).copies.zipIdx.flatMap fun (c, i) => c.slices.zipIdx.filterMap fun (x, j) =>
    if x.grp = gid then x.parked.map fun p => (t, i, j, p) else none).head?

/-- Change one slice of a team's copy. -/
def Team.modSlice (t : Team) (i j : Nat) (f : Slice → Slice) : Team :=
  { t with copies := t.copies.mapIdx fun a c => if a = i then
      { c with slices := c.slices.mapIdx fun b x => if b = j then f x else x } else c }

/-- A ring slot's STATE byte (Table 5-3). -/
def Team.setSlotState (t : Team) (hdr slot st : Nat) : Team := t.wr (hdr + 32 + 4 * slot + 1) 1 st

/-- A slice is no longer parked: the slot's STATE is issued again when no other slice of the copy is parked (R143). -/
def Team.unpark (t : Team) (i j : Nat) : Team :=
  let t := t.modSlice i j fun x => { x with parked := none }
  match t.copies[i]? with
  | some c => if c.slices.any fun x => decide (x.parked ≠ none) then t
    else match t.ring? c.ring with
      | some h => t.setSlotState h c.slot 1
      | none => t
  | none => t

/-- The completion code a fault gives a copy slice (Table 7-4). -/
def copyCode (cause : Nat) : Nat :=
  match cause with
  | 0x08 | 0x09 => 0x02 | 0x0A | 0x0B => 0x03 | 0x11 => 0x07 | 0x12 => 0x08 | 0x13 => 0x06 | _ => 0x01

end Sys2Proof.Machine
end

