-- ==== Sys2Proof/Machine/Copy.lean ====
section
/-! DEFINITION. The copy unit and completion rings (chapter 7). -/

namespace Sys2Proof.Machine

/-! ## Rings (R110, R144 to R148) -/

/-- FLAGS.PARK. -/
def Team.parks (t : Team) (h : Nat) : Bool := decide (t.rd (h + 13) 1 % 2 = 1)
/-- STATE of a slot. -/
def Team.slotState (t : Team) (h i : Nat) : Nat := t.rd (h + 32 + 4 * i + 1) 1
/-- Step 2 of R144: WPTR passes the slots in STATE 2. Log entry 47 (DEDUCED). -/
def Team.advanceWptr (t : Team) (h : Nat) : Nat → Team
  | 0 => t
  | n + 1 =>
    if t.ringUsed h < t.slots h ∧ t.slotState h (t.wptr h % t.slots h) = 2 then
      (t.wr (h + 4) 4 ((t.wptr h + 1) % 2 ^ 32)).advanceWptr h n
    else t

/-- Bytes of a ring's extent, in whole granules (R110, R112). -/
def ringLen (slots : Nat) : Nat := (32 + 4 * slots + 15) / 16 * 16

/-- A slot of a ring has its copy issued or parked (Table 5-3). -/
def Team.ringBusy (t : Team) (h : Nat) : Bool := (List.range (t.slots h)).any fun i => decide (t.slotState h i = 1 ∨ t.slotState h i = 3)

/-- A watch entry that an RINIT takes: that of the ring's number, and that of a ring at the same offset (R112). Log entry 40 (DEDUCED). -/
def Watch.reinit (w : Watch) (n off : Nat) : Bool :=
  match w.kind with
  | .ring m => decide (m = n) || decide (w.off = off)
  | _ => false

/-- The status RINIT writes, before anything changes (R146, Table 7-3). Log entry 40 (DEDUCED). -/
def Team.rinitStatus (t : Team) (w0 w1 : W64) : Nat :=
  let off := wbits w0 0 20
  let n := wbits w0 20 4
  let slots := wbits w1 24 8 + 1
  let len := ringLen slots
  let bad := decide (wbits w0 24 40 ≠ 0) || decide (off % 16 ≠ 0) || decide (off < 256) || decide (wbits w1 0 24 = 0)
    || decide (wbits w1 32 8 ≠ 0) || decide (wbits w1 41 23 ≠ 0)
  let busy := t.watch.any fun w => w.reinit n off && t.ringBusy w.off
  let mine := fun (w : Watch) => (match w.kind with | .ring _ => true | _ => false) && decide (w.off = off)
  if bad then 0x10
  else if t.kernel.rings ≤ n then 0x11
  else if busy then 0x17
  else if t.size' < off + len then 0x10
  else if t.clashes mine off len then 0x14
  else 0

/-- RINIT's effect on the team. Log entry 40 (DEDUCED). -/
def Team.rinit (t : Team) (w0 w1 w2 : W64) : Team :=
  let off := wbits w0 0 20
  let n := wbits w0 20 4
  let slots := wbits w1 24 8 + 1
  let kept := t.watch.filter fun w => !w.reinit n off
  let watch := kept ++ [{ kind := .ring n, off := off, len := ringLen slots }]
  let bytes := wordBytes [0, w1, w2, 0] ++ List.replicate (4 * slots) 0
  { t with watch := watch, ringsFree := t.ringsFree + (t.watch.length - kept.length) - 1, scratch := wrBytes t.scratch off bytes }

/-- RINIT (R146). -/
def execRinit (a d : BitVec 6) (s : State) : Out :=
  let w0 := s.sreadAt a 0
  let w1 := s.sreadAt a 1
  let st := s.curTeam.rinitStatus w0 w1
  if st ≠ 0 then .next (s.sput d (BitVec.ofNat 64 st))
  else
    let t := s.cur.team
    .next (((s.modTeam t fun x => x.rinit w0 w1 (s.sreadAt a 2)).teamEvent t).sput d 0)

/-- The checks of RAWAIT and RREL: the ring's header, or the status. -/
def Team.ringOp (t : Team) (w : W64) : Except Nat Nat :=
  if w.toNat % 256 / 16 ≠ 0 ∨ 2 ^ 16 ≤ w.toNat then .error 0x10
  else if t.kernel.rings ≤ wbits w 0 4 then .error 0x11
  else
    match t.ring? (wbits w 0 4) with
    | none => .error 0x11
    | some h => if t.slots h ≤ wbits w 8 8 then .error 0x10 else .ok h

/-- RAWAIT at issue. -/
def State.rawait (s : State) (a d : BitVec 6) (ring n : Nat) : State :=
  let t := s.curTeam
  match (t.ring? ring).bind fun h => t.rawait h n with
  | some v => s.sput d v
  | none => s.swaitOn { instr := .rawait a d, tok := ring, aux := [BitVec.ofNat 64 n] }

/-- RAWAIT (R147). -/
def execRawait (a d : BitVec 6) (s : State) : Out :=
  let w := s.sread a
  match s.curTeam.ringOp w with
  | .error e => .next (s.sput d (BitVec.ofNat 64 e))
  | .ok _ => .next (s.rawait a d (wbits w 0 4) (wbits w 8 8))

/-- RAWAIT_RELEASE (R147): the wait ends with the result taken when its condition first held. -/
def execRawaitRelease (g : Nat) (s : State) : Out :=
  let s := s.asGroup g
  match s.waiting with
  | some { instr := .rawait _ d, aux := [_, v], .. } => .next (s.sput d v)
  | _ => .next s

/-- RREL's effect (R148). -/
def Team.rrel (t : Team) (h c : Nat) : Team :=
  let t := (List.range c).foldl (fun t j => t.wr (h + 32 + 4 * ((t.rptr h + j) % t.slots h)) 4 0) t
  (t.wr h 4 ((t.rptr h + c) % 2 ^ 32)).advanceWptr h 256

/-- RREL (R148). Log entry 47 (DEDUCED). -/
def execRrel (a d : BitVec 6) (s : State) : Out :=
  let w := s.sread a
  match s.curTeam.ringOp w with
  | .error e => .next (s.sput d (BitVec.ofNat 64 e))
  | .ok h =>
    let c := wbits w 8 8 + 1
    if s.curTeam.ringUsed h < c then .next (s.sput d 0x16)
    else .next (((s.modTeam s.cur.team fun t => t.rrel h c).teamEvent s.cur.team).sput d 0)

/-! ## CPYC (R136 to R140) -/

/-- SLOT of a slice block. -/
def blkSlot (b : List W64) : Nat := wbits (b.getD 3 0) 0 8
/-- RING of a slice block. -/
def blkRing (b : List W64) : Nat := wbits (b.getD 3 0) 8 4
/-- A flag of a slice block. -/
def blkBit (b : List W64) (i : Nat) : Bool := (b.getD 3 0).getLsbD i
/-- ROWS, and the units of a row. -/
def blkRows (b : List W64) : Nat := wbits (b.getD 2 0) 0 16
/-- ROW_UNITS. -/
def blkRowUnits (b : List W64) : Nat := wbits (b.getD 2 0) 16 24
/-- PITCH in bytes, signed. -/
def blkPitch (b : List W64) : Int := (sext ((b.getD 2 0) >>> 40) 24) * 16

/-- The checks of R138 in their order: the first that fails, or 0. `c`: the copy, when it is open. -/
def Team.cpycStatus (t : Team) (b : List W64) (c : Option Copy) : Nat :=
  let w3 := b.getD 3 0
  let src := b.getD 0 0
  let dst := b.getD 1 0
  let bad := decide (wbits w3 21 43 ≠ 0) || blkBit b 12 || decide (wbits w3 16 2 = 3) || decide (src.toNat % 16 ≠ 0)
    || decide (dst.toNat % 16 ≠ 0) || (blkBit b 18 && decide (2 ^ 32 ≤ src.toNat)) || (blkBit b 19 && decide (2 ^ 32 ≤ dst.toNat))
    || (decide (0 < blkRows b) && decide (blkRowUnits b = 0))
  if bad then 0x10
  else if t.kernel.rings ≤ blkRing b then 0x11
  else
    match t.ring? (blkRing b) with
    | none => 0x11
    | some h =>
      if t.slots h ≤ blkSlot b then 0x10
      else
        match c with
        | none => if t.slotState h (blkSlot b) ≠ 0 then 0x12 else 0
        | some c =>
          if c.ring ≠ blkRing b ∨ c.slot ≠ blkSlot b ∨ c.stream ≠ blkBit b 14 ∨ c.close ≠ blkBit b 15 then 0x13 else 0

/-- A team's copy n. -/
def Team.copy? (t : Team) (n : Nat) : Option Copy := t.copies.find? fun c => decide (c.num = n)
/-- Replace a copy of a team, or add it. -/
def Team.setCopy (t : Team) (c : Copy) : Team :=
  { t with copies := if (t.copy? c.num).isSome then t.copies.map (fun x => if x.num = c.num then c else x) else t.copies ++ [c] }
/-- Entries of the team in use (R135). -/
def Team.openCopies (t : Team) : Nat := (t.copies.filter (·.opened)).length

/-- A slice is counted (R139): its group's status, and the team after it. -/
def Team.addSlice (t : Team) (n gid : Nat) (b : List W64) : Nat × Team :=
  let open_ := (t.copy? n).filter (·.opened)
  let st := t.cpycStatus b open_
  let c := (t.copy? n).getD { num := n }
  let slice : Slice := { grp := gid, blk := b, empty := decide (blkRows b = 0) || decide (st ≠ 0), rejected := decide (st ≠ 0),
                         ended := decide (blkRows b = 0) || decide (st ≠ 0) }
  let c := { c with slices := c.slices ++ [slice] }
  if st ≠ 0 then (st, t.setCopy c)
  else if open_.isSome then (0, t.setCopy c)
  else
    let t := t.setCopy { c with opened := true, ring := blkRing b, slot := blkSlot b, stream := blkBit b 14, close := blkBit b 15 }
    (0, match t.ring? (blkRing b) with
      | some h => t.setSlotState h (blkSlot b) 1
      | none => t)

/-- A group's slice of copy n has been counted: issued, or empty because the group has ended (R139). -/
def State.counted (s : State) (t n : Nat) (c : Copy) : Bool :=
  s.groups.all fun p => decide (p.2.team ≠ t) || (c.slices.any fun x => decide (x.grp = p.1))
    || (p.2.ended && decide (p.2.copies ≤ n))

/-- Copies that never opened are closed once every slice is counted. -/
def State.closeUnopened (s : State) (t : Nat) : State :=
  s.modTeam t fun x => { x with copies := x.copies.filter fun c => c.opened || !s.counted t c.num c }

/-- A CPYC of the current group is taken: its status, the team's copy. Log entry 47 (DEDUCED). -/
def State.cpycTake (s : State) (d : BitVec 6) (b : List W64) : State :=
  let t := s.cur.team
  let n := s.cur.copies
  let r := (s.team t).addSlice n s.curGid b
  let s := s.setTeam t r.2
  let s := if r.1 = 0 then s.teamEvent t else s
  let s := s.modCur fun g => { g with copies := g.copies + 1 }
  (s.closeUnopened t).sput d (BitVec.ofNat 64 r.1)

/-- The group's next copy can be taken: it is open, or an entry is free (R135). -/
def State.cpycReady (s : State) : Bool :=
  let t := s.curTeam
  ((t.copy? s.cur.copies).map (·.opened)).getD false || decide (t.openCopies < t.kernel.copyq)

/-- CPYC (R136). -/
def execCpyc (a d : BitVec 6) (s : State) : Out :=
  let b := (List.range 4).map fun i => s.sreadAt a i
  .next (if s.cpycReady then s.cpycTake d b else s.swaitOn { instr := .cpyc a d, aux := b })

/-- The groups of a team whose CPYC waits, by copy number and group index (R135). -/
def State.cpycWaiters (s : State) (t : Nat) : List (Nat × Nat × Nat) :=
  s.groups.filterMap fun p =>
    match p.2.swait with
    | some { instr := .cpyc _ _, .. } => if p.2.team = t then some (p.2.copies, p.2.idx, p.1) else none
    | _ => none

/-- Insert by copy number, then group index. -/
def insertWaiter (x : Nat × Nat × Nat) : List (Nat × Nat × Nat) → List (Nat × Nat × Nat)
  | [] => [x]
  | y :: r => if x.1 < y.1 ∨ (x.1 = y.1 ∧ x.2.1 ≤ y.2.1) then x :: y :: r else y :: insertWaiter x r

/-- An entry has freed: waiting slices are taken in order (R135). -/
def State.cpycAdmit (s : State) (t : Nat) : State :=
  ((s.cpycWaiters t).foldl (fun l x => insertWaiter x l) []).foldl (fun s w =>
    let z := s.asGroup w.2.2
    match z.cur.swait with
    | some { instr := .cpyc _ d, aux := b, .. } => if z.cpycReady then z.cpycTake d b else s
    | _ => s) s

/-- End the bank reservations of a team (R95, R145); the copies move on as ordinary accesses. -/
def State.endReservations (s : State) (t : Nat) : State :=
  let held := fun (n : Nat) => s.mem.bankRes.any fun r => decide (r.team = t) && decide (r.copy = n)
  let s := s.modTeam t fun x => { x with copies := x.copies.map fun c => if held c.num then { c with stream := false } else c }
  { s with mem := { s.mem with bankRes := s.mem.bankRes.filter fun r => decide (r.team ≠ t) } }

/-- CPYCLOSE (R145). -/
def execCpyclose (d : BitVec 6) (s : State) : Out :=
  let t := s.cur.team
  let n := (s.mem.bankRes.filter fun r => decide (r.team = t)).length
  .next ((s.endReservations t).sput d (BitVec.ofNat 64 (n * 256)))

/-- BANK_RESERVATION_TIMEOUT (R95): 4 µs after it began a reservation ends. Log entry 37 (DESIGN CHOICE). -/
def execBankReservationTimeout (i : Nat) (s : State) : Out :=
  match s.mem.bankRes[i]? with
  | some r =>
    if r.since.toNat + 4000 ≤ s.timeNs.toNat then
      let s := s.modTeam r.team fun x => { x with copies := x.copies.map fun c => if c.num = r.copy then { c with stream := false } else c }
      .next { s with mem := { s.mem with bankRes := s.mem.bankRes.eraseIdx i } }
    else .next s
  | none => .next s

/-! ## Moving units (R141 to R143) -/

/-- A unit's address on a side of a slice (R137): `pitched`: the side PITCH applies to. -/
def unitAddr (b : List W64) (base : W64) (pitched scratch : Bool) (u : Nat) : W64 :=
  let ru := blkRowUnits b
  let delta : Int := if pitched then (u / ru : Nat) * blkPitch b + (u % ru * 16 : Nat) else (u * 16 : Nat)
  if scratch then
    let off : Int := (base.toNat % 2 ^ 20 : Nat) + delta
    if off < 0 ∨ 2 ^ 20 ≤ off then 2 ^ 63 else BitVec.ofNat 64 (base.toNat / 2 ^ 20 * 2 ^ 20 + off.toNat)
  else base + BitVec.ofInt 64 delta
/-- A unit's source address. -/
def unitSrc (b : List W64) (u : Nat) : W64 := unitAddr b (b.getD 0 0) (!blkBit b 20) (blkBit b 18) u
/-- A unit's destination address. -/
def unitDst (b : List W64) (u : Nat) : W64 := unitAddr b (b.getD 1 0) (blkBit b 20) (blkBit b 19) u

/-- The place of a slice in its team's list: copy and slice index. -/
def Team.sliceAt (t : Team) (n gid : Nat) : Option (Nat × Nat × Copy × Slice) :=
  (t.copies.zipIdx.flatMap fun (c, i) => if c.num = n then c.slices.zipIdx.filterMap fun (x, j) =>
    if x.grp = gid then some (i, j, c, x) else none else []).head?

/-- Change a slice of a team's copy n. -/
def State.modSliceOf (s : State) (t n gid : Nat) (f : Slice → Slice) : State :=
  match (s.team t).sliceAt n gid with
  | some (i, j, _, _) => s.modTeam t fun x => x.modSlice i j f
  | none => s

/-- A slice has a unit, from the next one on, to write in a granule of a team's scratchpad. -/
def State.writesAgain (s : State) (t : Nat) (x : Slice) (tt gran : Nat) : Bool :=
  let base := (x.blk.getD 1 0).toNat
  let ru := blkRowUnits x.blk
  let in_ := fun (r : Nat) =>
    let row : Int := (base % 2 ^ 20 : Nat) + if blkBit x.blk 20 then (r : Int) * blkPitch x.blk else ((r * ru * 16 : Nat) : Int)
    let d : Int := (16 * gran : Nat) - row
    decide (0 ≤ d) && decide (d < (ru * 16 : Nat)) && decide (x.unit ≤ r * ru + d.toNat / 16)
  !x.ended && blkBit x.blk 19 && decide (s.scratchAt t (base / 2 ^ 20 * 2 ^ 20 + 16 * gran) = some (tt, 16 * gran))
    && (List.range (blkRows x.blk)).any in_

/-- The granules that a team's copies have written with FE = 1 and write no more are set full (R107). -/
def State.settleFe (s : State) (t : Nat) : State :=
  let later := fun (c : Copy) (g : Nat × Nat) => c.slices.any fun x => s.writesAgain t x g.1 g.2
  let now := (s.team t).copies.flatMap fun c => c.due.filter fun g => !later c g
  if now = [] then s
  else
    let s := s.modTeam t fun x => { x with copies := x.copies.map fun c => { c with due := c.due.filter (later c) } }
    now.foldl (fun s g => s.setTeamFe g.1 ((s.team g.1).fillGranules (16 * g.2) 16)) s

/-- A slice ends with a code (R142). -/
def State.endSlice (s : State) (t n gid code : Nat) : State :=
  (s.modSliceOf t n gid fun x => { x with ended := true, code := code, pend := none }).settleFe t

/-- The failures the pager can resolve (R143). -/
def pagerMends (cause : Nat) : Bool := decide (cause = 0x06 ∨ cause = 0x08 ∨ cause = 0x09 ∨ cause = 0x16)

/-- A unit's access has failed (R142, R143): the slice ends, or parks with a pager record; what would park after its context has been
killed is cancelled (R151). -/
def State.sliceFault (s : State) (t n gid cause : Nat) (va : W64) : State :=
  match (s.team t).sliceAt n gid with
  | none => s
  | some (_, _, c, _) =>
    match (s.team t).ring? c.ring with
    | some h =>
      if (s.team t).parks h && pagerMends cause then
        if (s.context (s.team t).ctx).killed then
          s.modTeam t fun x => { x with copies := x.copies.filter fun y => decide (y.num ≠ n) }
        else
        let s := s.modSliceOf t n gid fun x => { x with parked := some cause, pend := none }
        let s := (s.modTeam t fun x => x.setSlotState h c.slot 3).teamEvent t
        s.postFault gid 2 cause va 0
      else s.endSlice t n gid (copyCode cause)
    | none => s.endSlice t n gid (copyCode cause)

/-- A unit has been written: the slice goes on, or ends. -/
def State.unitDone (s : State) (t n gid : Nat) (dropped : Bool) : State :=
  s.modSliceOf t n gid fun x =>
    let u := x.unit + 1
    { x with unit := u, pend := none, dropped := x.dropped || dropped,
             ended := decide (blkRows x.blk * blkRowUnits x.blk ≤ u) }

/-- A copy has written a granule with FE = 1: it is set full now, or with the last byte the copy writes there (R107). -/
def State.granuleDue (s : State) (t n tt gran : Nat) : State :=
  let add := fun (c : Copy) => if c.num = n ∧ !c.due.contains (tt, gran) then { c with due := c.due ++ [(tt, gran)] } else c
  (s.modTeam t fun x => { x with copies := x.copies.map add }).settleFe t

/-- The bank-private frame a global address of a stream reaches (R95). -/
def State.bankFrame (s : State) (x : Acc) (va : W64) : Option Nat :=
  match (s.xlate x va .read).1 with
  | .ok l a =>
    let f := if l.space = 3 then some (a / 65536) else if l.space = 0 then s.mem.hit (a / 65536) else none
    f.filter fun f => decide ((s.mem.frame f).layout = 2)
  | _ => none

/-- Reserve the bank group of a frame for a copy; none: the reservation waits. Log entry 37 (DESIGN CHOICE). -/
def State.reserve (s : State) (t n f : Nat) : Option State :=
  let set := f % numSets
  let r : BankRes := { stack := set % 8, channel := set / 8 % 32, group := set / 256 % 4, team := t, copy := n, since := s.timeNs }
  let same := fun (q : BankRes) => decide (q.stack = r.stack) && decide (q.channel = r.channel)
  match s.mem.bankRes.find? fun q => same q && decide (q.group = r.group) with
  | some q => if q.team = t ∧ q.copy = n then some s else none
  | none =>
    if 2 ≤ (s.mem.bankRes.filter same).length then none
    else some { s with mem := { s.mem with bankRes := s.mem.bankRes ++ [r] } }

/-- The reservations of a stream's unit. -/
def State.streamUnit (s : State) (x : Acc) (t n : Nat) (vas : List W64) : Option State :=
  vas.foldl (fun r va => r.bind fun s => match s.bankFrame x va with
    | some f => s.reserve t n f
    | none => some s) (some s)

/-- A line an engine has used under .nl leaves L2, and under .cs is the first to go (Table 7-2). `was`: it stood there
before. -/
def State.enginePolicy (s : State) (x : Acc) (va : W64) (pol : Nat) (was : Bool) : State :=
  if was || decide (pol = 0) then s
  else
    match (s.xlate x va .read).1 with
    | .ok l a =>
      let k := lineKey l.space l.peer a
      if pol = 1 then { s with mem := s.mem.evictLine k }
      else { s with mem := { s.mem with l2 := (s.mem.l2.find k).elim s.mem.l2 fun y => s.mem.l2.insert k { y with use := 0 } } }
    | _ => s

/-- The line of an address stands in L2. -/
def State.inL2 (s : State) (x : Acc) (va : W64) : Bool :=
  match (s.xlate x va .read).1 with
  | .ok l a => (s.mem.l2.find (lineKey l.space l.peer a)).isSome
  | _ => false

/-- Write a unit at its destination. -/
def State.unitWrite (s : State) (x : Acc) (t n gid : Nat) (b : List W64) (u : Nat) (bytes : List Byte) : State :=
  let dst := unitDst b u
  if blkBit b 19 then
    match s.scratchAt t dst.toNat with
    | none => s.endSlice t n gid 0x01
    | some (tt, off) =>
      let r := (s.team tt).putBytes off bytes
      let s := (s.setTeam tt r.1).unitDone t n gid r.2
      if blkBit b 13 then s.granuleDue t n tt (off / 16) else s.settleFe t
  else
    let was := s.inL2 x dst
    match s.homeStore x (.copy t n gid) dst bytes with
    | (.val _, s) => (s.enginePolicy x dst (wbits (b.getD 3 0) 16 2) was).unitDone t n gid false
    | (.far (.peer q _ _), s) => s.modSliceOf t n gid fun y => { y with pend := some q }
    | (.far (.host q _ _), s) => s.modSliceOf t n gid fun y => { y with pend := some q }
    | (.fault c, s) => s.sliceFault t n gid c dst
    | (.ats, s) => (match s.engAsk (.copy t n gid) x dst true with
      | (.fault c, s) => s.sliceFault t n gid c dst
      | (_, s) => s)
    | (_, s) => s

/-- Move the next unit of a slice. -/
def State.unitMove (s : State) (t n gid : Nat) (x : Acc) (b : List W64) (u : Nat) : State :=
  let src := unitSrc b u
  if blkBit b 18 then
    match s.scratchAt t src.toNat with
    | none => s.endSlice t n gid 0x01
    | some (tt, off) => s.unitWrite x t n gid b u (rdBytes (s.team tt).scratch off 16)
  else
    let was := s.inL2 x src
    match s.engLine x (.copy t n gid) src 16 (wbits (b.getD 3 0) 16 2) with
    | (.ok bytes, s) => (s.enginePolicy x src (wbits (b.getD 3 0) 16 2) was).unitWrite x t n gid b u bytes
    | (.fault c, s) => s.sliceFault t n gid c src
    | (.wait, s) => s

/-- COPY_UNIT_MOVE (R141): a slice whose copy has started moves one unit, while its team has not been stopped (R151). -/
def execCopyUnitMove (team copy grp : Nat) (s : State) : Out :=
  match (s.team team).sliceAt copy grp with
  | none => .next s
  | some (_, _, c, x) =>
    if !c.opened || !s.counted team copy c || x.ended || decide (x.parked ≠ none) || decide (x.pend ≠ none) || (s.team team).stopped then .next s
    else
      let acc := { s.accOf grp with core := (s.team team).core, ctx := (s.team team).ctx, copy := some (team, copy) }
      let vas := (if blkBit x.blk 18 then [] else [unitSrc x.blk x.unit]) ++ (if blkBit x.blk 19 then [] else [unitDst x.blk x.unit])
      match (if c.stream then s.streamUnit acc team copy vas else some s) with
      | none => .next s
      | some s => .next (s.unitMove team copy grp acc x.blk x.unit)

/-! ## Completion (R142, R144) -/

/-- The status of a copy whose slices have all ended. -/
def State.copyStatus (s : State) (c : Copy) : Nat :=
  let bad := (c.slices.filter fun x => x.ended && decide (x.code ≠ 0)).foldl (fun (b : Option (Nat × Nat)) x =>
    let i := (s.group x.grp).idx
    match b with
    | some (j, _) => if i < j then some (i, x.code) else b
    | none => some (i, x.code)) none
  match bad with
  | some (_, code) => code
  | none => if c.slices.any (·.rejected) then 0x05 else if c.slices.any (·.dropped) then 0x04 else 0

/-- COPY_COMPLETE (R144, R151). -/
def execCopyComplete (team copy : Nat) (s : State) : Out :=
  match (s.team team).copy? copy with
  | none => .next s
  | some c =>
    if !c.opened || !s.counted team copy c || !c.slices.all (·.ended) || (s.team team).stopped then .next s
    else
      let st := s.copyStatus c
      let s := s.modTeam team fun t =>
        let t := { t with copies := t.copies.filter fun x => decide (x.num ≠ copy) }
        match t.ring? c.ring with
        | some h => ((t.wr (h + 32 + 4 * c.slot) 1 st).setSlotState h c.slot 2).advanceWptr h 256
        | none => t
      let s := if c.close then s.endReservations team else s
      .next ((s.teamEvent team).cpycAdmit team)

/-! ## The pager's answers (R143, R407) -/

/-- The group a PGRESP value names; a copy slice is there although its group has ended (R151). -/
def State.pgrespGroup (s : State) (w : W64) : Option Nat :=
  (s.groups.find? fun p =>
    let t := s.team p.2.team
    decide (t.ctx = wbits w 32 32) && decide (t.core = wbits w 20 12) && decide (p.2.place = wbits w 12 8) && p.2.slot.isSome
      && !t.saved && (decide (wbits w 5 2 = 2) || !p.2.ended)).map (·.1)

/-- PGRESP with ACTION resume (R407). -/
def execPgrespResume (w : W64) (s : State) : Out :=
  match s.pgrespGroup w with
  | none => .next s
  | some g =>
    let x := s.group g
    .next (match wbits w 5 2 with
      | 0 => match x.parkedAt (wbits w 7 5) with
        | some (n, _) => s.setGroup g (x.modSplit n fun y => { y with mode := .ready, age := s.cycle })
        | none => s
      | 1 => if x.sparked = none then s else s.setGroup g { x with sparked := none }
      | 2 => match s.parkedSlice g with
        | some (t, i, j, _) => (s.modTeam t fun z => z.unpark i j).teamEvent t
        | none => s
      | _ => s)

/-- PGRESP with ACTION fail (R407): a parked copy slice ends with the code of its record's cause. -/
def execPgrespFail (w : W64) (s : State) : Out :=
  match s.pgrespGroup w with
  | none => .next s
  | some g =>
    if wbits w 5 2 ≠ 2 then .next s
    else
      match s.parkedSlice g with
      | some (t, i, j, c) => .next ((s.modTeam t fun z =>
          (z.unpark i j).modSlice i j fun x => { x with ended := true, code := copyCode c }).settleFe t |>.teamEvent t)
      | none => .next s

/-- PGRESP with ACTION fatal (R407): the context is killed with the record's cause. -/
def execPgrespFatal (w : W64) (s : State) : Out :=
  match s.pgrespGroup w with
  | none => .next s
  | some g =>
    let x := s.group g
    let cause : Option Nat := match wbits w 5 2 with
      | 0 => (x.parkedAt (wbits w 7 5)).map (·.2)
      | 1 => x.sparked
      | 2 => (s.parkedSlice g).map fun p => p.2.2.2
      | _ => none
    .next (match cause with
      | some c => s.killContext (wbits w 32 32) c
      | none => s)

end Sys2Proof.Machine
end

