-- ==== Sys2Proof/Machine/Sync.lean ====
section
/-! DEFINITION. FENCE, barriers, SLEEPS (chapter 17), arrival counters and windows (R303, R304), PERSIST (R67) and
Springbok (R97 to R100). -/

namespace Sys2Proof.Machine

/-! ## FENCE (R339) -/

/-- Every run enqueued before has ended and its atomics have been performed (R339): the stream waits, so none has come after. -/
def State.runsDone (s : State) : Bool := s.cur.laneIdle && decide (s.cur.queue = []) && !s.atomsOut s.curGid

/-- The end of a FENCE: its acquire, and the next instruction. -/
def State.fenceEnd (s : State) (sc : Scope) (k : FKind) : State :=
  (if k = .rel then s else s.acquireAt s.curTeam.core s.curTeam.ctx sc).bump

/-- A release has begun: go on once it is acknowledged. -/
def State.fenceAck (s : State) (sc : Scope) (k : FKind) : State :=
  let c := s.curTeam.ctx
  if s.releaseDone c sc then (s.releaseEnd c sc).fenceEnd sc k
  else s.swaitOn { instr := .fence sc k, aux := [1] }

/-- FENCE before its release: wait for the earlier runs, then release. -/
def State.fenceRel (s : State) (sc : Scope) (k : FKind) : State :=
  if s.runsDone then (s.releaseAt s.curTeam.core sc).fenceAck sc k
  else s.swaitOn { instr := .fence sc k }

/-- FENCE (R339). Log entry 6 (DESIGN CHOICE). -/
def execFence (sc : Scope) (k : FKind) (s : State) : Out :=
  .next (if k = .acq then s.fenceEnd sc k else s.fenceRel sc k)

/-! ## Barriers (R340 to R345) -/

/-- BARW past its token (R342). -/
def State.barwTry (s : State) (i : Instr) (d : BitVec 6) (b : Nat) (tok : Nat) (bar : Bool) : State :=
  let ph := s.curTeam.phase b
  let diff := (ph + 2 ^ 32 - tok) % 2 ^ 32
  if 1 ≤ diff ∧ diff < 2 ^ 31 then s.sput d (BitVec.ofNat 64 ph)
  else s.swaitOn { instr := i, tok := tok, arrived := bar }

/-- The arrival of BARA and BAR, past its waits (R341). -/
def State.barArrive (s : State) (b : Nat) : State :=
  (s.modTeam s.cur.team fun t => t.arrive b s.cur.idx).teamEvent s.cur.team

/-- The arriving part of BARA and BAR: earlier runs, then an earlier phase of this group, are waited for; `after` is what
follows the arrival, given the token. `held`: the phase it waits to see changed. -/
def State.baraTry (s : State) (i : Instr) (b : Nat) (held : Option W64) (after : Nat → State → State) : State :=
  let ph := s.curTeam.phase b
  if !s.runsDone then s.swaitOn { instr := i }
  else if (match held with
      | some p => decide (p.toNat = ph)
      | none => (s.curTeam.bmask b).getLsbD s.cur.idx) then
    s.swaitOn { instr := i, aux := [BitVec.ofNat 64 ph] }
  else after ph (s.barArrive b)

/-- BARA at issue and at each re-check. -/
def State.bara (s : State) (d : BitVec 6) (b : Fin 16) (held : Option W64) : State :=
  s.baraTry (.bara d b) b.val held fun tok s => s.sput d (BitVec.ofNat 64 tok)
/-- BAR at issue and at each re-check before its arrival. -/
def State.bar (s : State) (d : BitVec 6) (b : Fin 16) (held : Option W64) : State :=
  s.baraTry (.bar d b) b.val held fun tok s => s.barwTry (.bar d b) d b.val tok true

/-- A barrier the kernel does not have is illegal (R340). -/
def State.hasBar (s : State) (b : Fin 16) (m : Out) : Out := if b.val < s.curTeam.kernel.bars then m else s.kill

/-- BARA (R341). -/
def execBara (d : BitVec 6) (b : Fin 16) (s : State) : Out := s.hasBar b (.next (s.bara d b none))
/-- BARW (R342). -/
def execBarw (a d : BitVec 6) (b : Fin 16) (s : State) : Out :=
  s.hasBar b (.next (s.barwTry (.barw a d b) d b.val ((s.sread a).toNat % 2 ^ 32) false))
/-- BAR (R343). -/
def execBar (d : BitVec 6) (b : Fin 16) (s : State) : Out := s.hasBar b (.next (s.bar d b none))

/-- The re-check of a waiting BARA, BARW, BAR or FENCE; a DLAUNCH that waited for earlier runs starts again (R373). -/
def State.syncAgain (s : State) : State :=
  match s.waiting with
  | some { instr := .bara d b, aux := a, .. } => s.bara d b a.head?
  | some { instr := .barw a d b, tok := t, .. } => s.barwTry (.barw a d b) d b.val t false
  | some { instr := .bar d b, tok := t, aux := a, arrived := ar, .. } =>
    if ar then s.barwTry (.bar d b) d b.val t true else s.bar d b a.head?
  | some { instr := .fence sc k, aux := a, .. } => if a = [] then s.fenceRel sc k else s.fenceAck sc k
  | some { instr := .dlaunch _ _, aux := [], .. } => if s.runsDone then s.modCur fun g => { g with swait := none } else s
  | _ => s

/-- BARRIER_RELEASE (R342): the phase a group waits for has completed. -/
def execBarrierRelease (g : Nat) (s : State) : Out := .next (s.asGroup g).syncAgain
/-- FENCE_COMPLETE (R339): the runs before a FENCE, or a barrier's release, have ended, or its writes are accepted. -/
def execFenceComplete (g : Nat) (s : State) : Out := .next (s.asGroup g).syncAgain

/-! ## SLEEPS (R347) -/

/-- SLEEPS at issue and at each re-check. -/
def State.sleeps (s : State) (a d : BitVec 6) (e : Bool) (due : W64) (seen : W64) : State :=
  if e ∧ seen ≠ 0 then s.sput d 1
  else if due ≠ 0 ∧ due.toNat ≤ s.timeNs.toNat then s.sput d 0
  else s.swaitOn { instr := .sleeps a d e, aux := [due], seen := seen }

/-- SLEEPS (R347). -/
def execSleeps (a d : BitVec 6) (e : Bool) (s : State) : Out :=
  let due := s.sread a
  .next (if due = 0 ∧ !e then s.sput d 2 else s.sleeps a d e due 0)

/-- SLEEPS_WAKE (R347). -/
def execSleepsWake (g : Nat) (s : State) : Out :=
  let s := s.asGroup g
  match s.waiting with
  | some { instr := .sleeps a d e, aux := [due], seen := v, .. } => .next (s.sleeps a d e due v)
  | _ => .next s

/-! ## Arrival counters and windows (R303, R304) -/

/-- Watch entries of a core in use (R112). -/
def State.watchUsed (s : State) (core : Nat) : Nat :=
  (s.teams.filter fun p => decide (p.2.core = core) && !p.2.saved).foldl (fun n p => n + p.2.watch.length + p.2.ringsFree) 0

/-- The operand block of ACSET is malformed or leaves the allocation. -/
def acsetBad (size : Nat) (w0 w2 : W64) : Bool :=
  let off := wbits w0 0 20
  let win := w0.getLsbD 36
  let base := wbits w2 0 20
  let len := wbits w2 20 20
  decide (wbits w0 37 27 ≠ 0) || decide (off % 16 ≠ 0) || decide (off < 256) || decide (size < off + 32)
    || (win && (decide (wbits w2 40 24 ≠ 0) || decide (base % 16 ≠ 0) || decide (len % 16 ≠ 0) || decide (len < 16)
      || decide (917504 < len) || decide (size < base + len)))

/-- ACSET (R303). -/
def execAcset (a d : BitVec 6) (s : State) : Out :=
  let w0 := s.sreadAt a 0
  let w1 := s.sreadAt a 1
  let w2 := s.sreadAt a 2
  let tid := s.cur.team
  let t := s.curTeam
  let off := wbits w0 0 20
  let mine := fun (w : Watch) => decide (w.kind = .counter) && decide (w.off = off)
  let old := t.hasCounter off
  let ftag := (s.context t.ctx).ftag
  let wtag := wbits w0 20 16
  let key := s.fabric.windows.find? fun w => decide (w.ftag = ftag) && decide (w.wtag = wtag)
  let win := w0.getLsbD 36
  let put : Nat → Out := fun c => .next (s.sput d (BitVec.ofNat 64 c))
  let held := s.modTeam tid fun t => if old then t else { t with watch := t.watch ++ [{ kind := .counter, off := off, len := 32 }] }
  if acsetBad t.size' w0 w2 then put 0x10
  else if t.clashes mine off 32 then put 0x14
  else if !old && decide (64 ≤ s.watchUsed t.core) then put 0x15
  else if win && ((key.map fun w => decide (w.team ≠ tid)).getD false) then .next (held.sput d 0x1A)
  else if win && key.isNone && decide (4096 ≤ s.fabric.windows.length) then .next (held.sput d 0x1B)
  else
    let entry : Window := { ftag := ftag, wtag := wtag, team := tid, counter := off, base := wbits w2 0 20, len := wbits w2 20 20 }
    let windows := if win then
        (s.fabric.windows.filter fun w => !(decide (w.ftag = ftag) && decide (w.wtag = wtag))) ++ [entry]
      else s.fabric.windows
    let s : State := { held with fabric := { s.fabric with windows := windows } }
    let s := s.modTeam tid fun t => { t with scratch := wrBytes t.scratch off (wordBytes [0, w1, 0, 0]) }
    .next ((s.teamEvent tid).sput d 0)

/-- ACWAIT at issue. -/
def State.acwait (s : State) (a d : BitVec 6) (off : Nat) : State :=
  match s.curTeam.acwait off with
  | some v => s.sput d v
  | none => s.swaitOn { instr := .acwait a d, tok := off }

/-- ACWAIT (R304). -/
def execAcwait (a d : BitVec 6) (s : State) : Out :=
  let w := s.sread a
  .next (if 2 ^ 20 ≤ w.toNat ∨ !s.curTeam.hasCounter w.toNat then s.sput d 0x10 else s.acwait a d w.toNat)

/-- ACWAIT_RELEASE (R304): the wait ends with the result taken at the update that released it. -/
def execAcwaitRelease (g : Nat) (s : State) : Out :=
  let s := s.asGroup g
  match s.waiting with
  | some { instr := .acwait _ d, aux := [v], .. } => .next (s.sput d v)
  | _ => .next s

/-! ## PERSIST (R67, R68) -/

/-- Write back everything dirty in a pool range (R67): L1 words, L2 lines, frames. -/
def Mem.flushRange (m : Mem) (p n : Nat) : Mem :=
  let mine := fun (k : Nat) => decide (lineSpace k = 0) && decide (lineAddr k < p + n) && decide (p < lineAddr k + 128)
  let m := (m.l1.filter fun e => mine (e.1 % 2 ^ 90) && decide (e.2.dirty ≠ 0)).foldl
    (fun m e => m.l1Clean (e.1 / 2 ^ 90) (e.1 % 2 ^ 90) false) m
  let m := (m.l2.filter fun e => mine e.1 && e.2.dirty).foldl
    (fun m e => { (m.lineHome e.1 e.2) with l2 := m.l2.insert e.1 { e.2 with dirty := false } }) m
  (m.frames.filter fun e => e.2.valid && !e.2.carved && decide (e.2.dirty ≠ 0) && decide (e.2.pfn * 65536 < p + n)
    && decide (p < e.2.pfn * 65536 + 65536)).foldl (fun m e => m.writeBack e.1) m

/-- The check of a pool range for PERSIST: its status, or the nodes of its leases. -/
def Mem.persistCheck (m : Mem) (p n : Nat) : Except Nat (List Nat) :=
  let starts := p :: ((List.range (n / 65536 + 1)).map fun i => (p / 65536 + 1 + i) * 65536).filter fun a => decide (a < p + n)
  let ls := starts.map m.leaseAt
  if ls.any fun l => match l with | some (_, x) => decide (x.st = .lost) | none => false then .error 0x04
  else if ls.any fun l => match l with | some (_, x) => decide (x.st ≠ .active) | none => true then .error 0x03
  else if starts.any fun a => match m.hit (a / 65536) with | some f => (m.frame f).poisoned | none => false then .error 0x05
  else .ok (ls.filterMap fun l => l.map fun x => x.2.node.toNat)

/-- The pages of a PERSIST, ascending: the status word once flushing succeeds, the nodes to flush, the state. Log entry 18 (DEDUCED). -/
def State.persistPages (s : State) (base len : Nat) (off : Nat) (nodes : List Nat) : Nat → W64 × List Nat × State
  | 0 => (0, nodes, s)
  | fuel + 1 =>
    if len ≤ off then (0, nodes, s)
    else
      let fail := fun (s : State) (c : Nat) => (BitVec.ofNat 64 (off * 65536 + c), if off = 0 then [] else nodes, s)
      let va := BitVec.ofNat 64 (base + off)
      match s.leafFor s.sacc va .read with
      | .error _ => fail s 0x02
      | .ok (l, _) =>
        let s := (s.xlate s.sacc va .read).2
        if l.space ≠ 0 ∨ !l.pd then fail s 0x01
        else
          let a := l.addr va
          let page := pageBytes l.size
          let n := min (page - (base + off) % page) (len - off)
          match s.mem.persistCheck a n with
          | .error c => fail s c
          | .ok ns => ({ s with mem := s.mem.flushRange a n } : State).persistPages base len (off + n) (nodes ++ ns) fuel

/-- A pool node acknowledges a persistent flush (R67); a lost one does not. Log entry 78 (DESIGN CHOICE). -/
def Mem.answers (m : Mem) (n : Nat) : Bool := !m.deafNodes.contains n && !m.lostNodes.contains n

/-- The end of a PERSIST: writes accepted, the persistent flush acknowledged, or not within 10 ms. Log entry 78 (DESIGN CHOICE). -/
def State.persistEnd (s : State) (i : Instr) (d : BitVec 6) (status start : W64) (nodes : List W64) : State :=
  let deaf := nodes.any fun n => !s.mem.answers n.toNat
  if s.mem.unaccepted = [] ∧ (!deaf ∨ start.toNat + 10000000 ≤ s.timeNs.toNat) then
    s.sput d (if deaf then 0x06 else status)
  else s.swaitOn { instr := i, aux := status :: start :: nodes }

/-- PERSIST (R67). -/
def execPersist (a d : BitVec 6) (s : State) : Out :=
  let base := s.sreadAt a 0
  let len := s.sreadAt a 1
  let last := base + len - 1
  if len = 0 then .next (s.sput d 0)
  else if 2 ^ 46 < len.toNat ∨ !canonical last ∨ last.toNat < base.toNat then .next (s.sput d 0x07)
  else
    let r := s.persistPages base.toNat len.toNat 0 [] (len.toNat / 4096 + 2)
    .next (r.2.2.persistEnd (.persist a d) d r.1 s.timeNs (r.2.1.map (BitVec.ofNat 64)))

/-- The leaves that a table of level n and the tables below it hold, where a walk of Table 4-4 accepts them (R71). -/
def Mem.leavesIn (m : Mem) : Nat → Nat → List Leaf
  | 0, _ => []
  | n + 1, table => (List.range 512).flatMap fun i =>
    match m.entry (table + 8 * i) with
    | none => []
    | some w =>
      if !w.getLsbD 0 then []
      else if w.getLsbD 1 then if n < 3 ∧ leafOk (n + 1) (leafOf w) then [leafOf w] else []
      else if w.toNat ≠ wbits w 12 36 * 4096 + 1 then []
      else m.leavesIn n (wbits w 12 36 * 4096)

/-- A lease of a context: one that is not FREE and governs bytes which a space-0 page of the context maps. Log entry 18 (DEDUCED). -/
def State.leasesOf (s : State) (ctx : Nat) : List Lease :=
  let pages := (s.mem.leavesIn 5 (s.context ctx).root.toNat).filter fun l => decide (l.space = 0)
  let maps := fun (x : Lease) => pages.any fun l =>
    decide (l.index * 4096 < x.base.toNat + x.len.toNat) && decide (x.base.toNat < l.index * 4096 + pageBytes l.size)
  (s.mem.leases.map (·.2)).filter fun x => decide (x.st ≠ .free) && maps x

/-- PERSIST.all (R67): a flush of every pool node that holds a lease of the context. Log entry 18 (DEDUCED). -/
def execPersistAll (d : BitVec 6) (s : State) : Out :=
  .next (s.persistEnd (.persistAll d) d 0 s.timeNs ((s.leasesOf s.curTeam.ctx).map fun x => x.node.setWidth 64))

/-- PERSIST_COMPLETE (R67). -/
def execPersistComplete (g : Nat) (s : State) : Out :=
  let s := s.asGroup g
  match s.waiting with
  | some { instr := .persist a d, aux := st :: t0 :: nodes, .. } => .next (s.persistEnd (.persist a d) d st t0 nodes)
  | some { instr := .persistAll d, aux := st :: t0 :: nodes, .. } => .next (s.persistEnd (.persistAll d) d st t0 nodes)
  | _ => .next s

/-! ## Springbok (R97 to R100) -/

/-- PFH (R99). -/
def execPfh (a d : BitVec 6) (s : State) : Out :=
  let base := s.sreadAt a 0
  let pitch := s.sreadAt a 1
  let w := s.sreadAt a 2
  let code := wbits w 6 4
  let page := pageBytes code
  let ctx := s.curTeam.ctx
  if wbits w 12 52 ≠ 0 ∨ code < 2 ∨ 9 < code ∨ base.toNat % page ≠ 0 ∨ pitch = 0 ∨ pitch.toNat % page ≠ 0 then .next (s.sput d 1)
  else
    let free := (List.range 256).find? fun n => !(s.mem.spring.get {} n).live
    let held := (s.mem.spring.filter fun p => p.2.live && decide (p.2.ctx = ctx)).length
    match free with
    | none => .next (s.sput d 2)
    | some n =>
      if 64 ≤ held then .next (s.sput d 2)
      else
        let gen := (s.mem.spring.get {} n).gen % 255 + 1
        let x : Spring := { live := true, priv := decide (s.cur.mode = .priv), gen := gen, ctx := ctx, base := base, pitch := pitch,
                            rows := wbits w 0 3 + 1, cols := wbits w 3 3 + 1, size := code, core := s.curTeam.core, prio := wbits w 10 2,
                            order := s.mem.springOrder }
        let s : State := { s with mem := { s.mem with spring := s.mem.spring.insert n x, springOrder := s.mem.springOrder + 1 } }
        .next (s.sput d (BitVec.ofNat 64 ((gen * 256 + n) * 65536)))

/-- Frames of a page of a group. -/
def Spring.perPage (x : Spring) : Nat := pageBytes x.size / 65536
/-- Frames of a whole group. -/
def Spring.total (x : Spring) : Nat := x.rows * x.cols * x.perPage
/-- The virtual address of frame n of a group. -/
def Spring.va (x : Spring) (n : Nat) : W64 :=
  let p := n / x.perPage
  x.base + BitVec.ofNat 64 (p / x.cols) * x.pitch + BitVec.ofNat 64 (p % x.cols * pageBytes x.size + n % x.perPage * 65536)

/-- Where frame n of a group is, as a read would find it: leaf and address. -/
def State.springAt (s : State) (x : Spring) (n : Nat) : Option (Leaf × Nat) × State :=
  match s.xlate { core := x.core, ctx := x.ctx, mode := if x.priv then .priv else .user, gid := 2 ^ 40 } (x.va n) .read with
  | (.ok l a, s) => (if l.space = 0 ∨ l.space = 3 then some (l, a) else none, s)
  | (_, s) => (none, s)

/-- The resident frame an address of space 0 or 3 lies in; one whose fill is in flight counts as resident. Log entry 97 (DESIGN CHOICE). -/
def Mem.residentAt (m : Mem) (l : Leaf) (a : Nat) : Option Nat :=
  if l.space = 3 then if (m.frame (a / 65536)).carved then some (a / 65536) else none else m.hit (a / 65536)

/-- PFDROP (R99). Log entry 80 (DEDUCED). -/
def execPfdrop (a d : BitVec 6) (s : State) : Out :=
  let h := (s.sread a).toNat
  let n := h % 256
  let x := s.mem.spring.get {} n
  if 65536 ≤ h ∨ !x.live ∨ x.gen ≠ h / 256 ∨ x.ctx ≠ s.curTeam.ctx then .next (s.sput d 3)
  else
    let s := (List.range x.total).foldl (fun s i =>
      match s.springAt x i with
      | (some (l, p), s) => (match s.mem.residentAt l p with
        | some f => if (s.mem.frame f).pinned then s else { s with mem := s.mem.modFrame f fun y => { y with counter := 0 } }
        | none => s)
      | (none, s) => s) s
    let s : State := { s with mem := { s.mem with spring := s.mem.spring.insert n { x with live := false } } }
    .next (s.sput d (BitVec.ofNat 64 (x.skipped % 2 ^ 48 * 65536)))

/-- Springbok looks at one frame (R99), once the HBM stack it would stand in is trained (R426). A space-3 frame that is not carved out is
skipped, and not counted. Log entry 97 (DESIGN CHOICE). -/
def State.springFrame (s : State) (slot : Nat) (x : Spring) : State :=
  let init := 16 ^ x.prio
  let done := fun (s : State) (skip : Nat) =>
    { s with mem := { s.mem with spring := s.mem.spring.insert slot { x with next := x.next + 1, skipped := x.skipped + skip } } }
  match s.springAt x x.next with
  | (none, s) => done s 0
  | (some (l, a), s) =>
    let m := s.mem
    let leased := decide (l.space = 3) || (leaseFault s.timeNs (m.leaseAt a)).isNone
    if l.nc || !leased then done s 0
    else
      match m.residentAt l a with
      | some f =>
        if (m.frame f).relaying ≠ none then done s 0
        else
          let up := fun (y : Frame) => if y.counter.toNat < init then { y with counter := BitVec.ofNat 16 init } else y
          done { s with mem := m.modFrame f up } 0
      | none =>
        if l.space = 3 then done s 0
        else
          let pfn := a / 65536
          if !s.stackReady (pfn % numSets % 8) then s
          else match m.victim (pfn % numSets) with
          | some f =>
            if (m.frame f).isInvalid || decide ((m.frame f).counter.toNat < init) then
              done { s with mem := (m.startFill f pfn l.layout).modFrame f fun y => { y with counter := BitVec.ofNat 16 init } } 0
            else done s 1
          | none => done s 1

/-- SPRINGBOK_FILL (R99): by descending priority, first come first within one. -/
def execSpringbokFill (slot : Nat) (s : State) : Out :=
  let x := s.mem.spring.get {} slot
  let before := s.mem.spring.any fun p => p.2.live && decide (p.2.next < p.2.total) && decide (p.1 ≠ slot)
    && (decide (x.prio < p.2.prio) || (decide (x.prio = p.2.prio) && decide (p.2.order < x.order)))
  .next (if !x.live || decide (x.total ≤ x.next) || before then s else s.springFrame slot x)

end Sys2Proof.Machine
end

