-- ==== Sys2Proof/Machine/Firmware.lean ====
section
/-! DEFINITION. What the privileged operations do to translations, page-cache frames, leases and keys (R410), shared by the
SYS instructions, the queue commands and the lease events (R55 to R62). -/

namespace Sys2Proof.Machine

/-! ## TLBI (R83, R410) -/

/-- A translation covers an address. -/
def TlbEntry.covers (e : TlbEntry) (va : W64) : Bool :=
  decide (e.page ≤ va.toNat) && decide (va.toNat < e.page + pageBytes e.leaf.size)
/-- An ATC entry covers an address. -/
def AtcEntry.covers (e : AtcEntry) (va : W64) : Bool :=
  decide (e.page * 4096 ≤ va.toNat) && decide (va.toNat < e.page * 4096 + e.bytes)

/-- TLBI by address: the context's entries and the G entries that cover it. -/
def State.tlbiVa (s : State) (ctx : Nat) (va : W64) : State :=
  let pasid := (s.context ctx).pasid
  { s with mem := { s.mem with
      tlb := s.mem.tlb.filter (fun e => !(e.covers va && (e.leaf.glob || decide (e.ctx = ctx)))),
      walks := s.mem.walks.filter (fun e => !(decide (e.ctx = ctx) && decide (e.tag = walkTag e.level va))),
      atc := s.mem.atc.filter (fun e => !(e.covers va && decide (e.pasid = pasid))) } }
/-- TLBI of a context; G entries stay. -/
def State.tlbiCtx (s : State) (ctx : Nat) : State :=
  let pasid := (s.context ctx).pasid
  { s with mem := { s.mem with
      tlb := s.mem.tlb.filter (fun e => e.leaf.glob || decide (e.ctx ≠ ctx)),
      walks := s.mem.walks.filter (fun e => decide (e.ctx ≠ ctx)),
      atc := s.mem.atc.filter (fun e => decide (e.pasid ≠ pasid)) } }
/-- TLBI of a PASID: its ATC entries, and the entries of its contexts; G entries stay. -/
def State.tlbiPasid (s : State) (pasid : Nat) : State :=
  { s with mem := { s.mem with
      tlb := s.mem.tlb.filter (fun e => e.leaf.glob || decide ((s.context e.ctx).pasid ≠ pasid)),
      walks := s.mem.walks.filter (fun e => decide ((s.context e.ctx).pasid ≠ pasid)),
      atc := s.mem.atc.filter (fun e => decide (e.pasid ≠ pasid)) } }
/-- TLBI of the whole device. -/
def State.tlbiAll (s : State) : State := { s with mem := { s.mem with tlb := [], walks := [], atc := [] } }

/-! ## PGCTL (R92, R410) -/

/-- The operations of PGCTL. -/
inductive PgOp where
  | pin | unpin | evict | wb | carve | uncarve
deriving DecidableEq, Repr

/-- Pinned ways of the set of a frame, the frame itself left out. -/
def Mem.pins (m : Mem) (f : Nat) : Nat :=
  ((List.range 16).filter fun w => let g := frameOf (f % numSets) w; decide (g ≠ f) && ((m.frame g).pinned || (m.frame g).carved)).length

/-- PGCTL.pin of a pool frame: a status, or the memory after it. -/
def Mem.pin (m : Mem) (now : W64) (pfn : Nat) : Except Nat Mem :=
  match m.hit pfn with
  | some f =>
    let m := m.settle f
    if (m.frame f).pinned then .ok m
    else if 15 ≤ m.pins f then .error 0x54
    else .ok (m.modFrame f fun x => { x with pinned := true })
  | none =>
    if (leaseFault now (m.leaseAt (pfn * 65536))).isSome then .error 0x50
    else if 15 ≤ m.pins (pfn % numSets) + (if (m.frame (pfn % numSets)).pinned || (m.frame (pfn % numSets)).carved then 1 else 0) then
      .error 0x54
    else
      match m.victim (pfn % numSets) with
      | none => .error 0x50
      | some f => .ok (((m.startFill f pfn 0).fillBytes f).modFrame f fun x => { x with pinned := true })

/-- One frame of PGCTL. Log entry 38 (DEDUCED). -/
def Mem.pgctl (m : Mem) (now : W64) (op : PgOp) (n : Nat) : Except Nat Mem :=
  match op with
  | .pin => m.pin now n
  | .unpin => match m.hit n with
    | some f => .ok (m.modFrame f fun x => { x with pinned := false })
    | none => .error 0x53
  | .evict => match m.hit n with
    | some f =>
      let m := m.settle f
      if m.dirtyFrame f ∧ m.expiredAt (n * 65536) then .error 0x50 else .ok (m.evictFrame f)
    | none => .ok m
  | .wb => match m.hit n with
    | some f =>
      let m := m.settle f
      if (m.frame f).dirty ≠ 0 ∧ m.expiredAt (n * 65536) then .error 0x50 else .ok (m.writeBack f)
    | none => .error 0x53
  | .carve =>
    if numFrames ≤ n then .error 0x10
    else if 15 ≤ m.pins n then .error 0x54
    else
      let m := m.settle n
      if (m.frame n).valid ∧ !(m.frame n).carved ∧ m.dirtyFrame n ∧ m.expiredAt ((m.frame n).pfn * 65536) then .error 0x50
      else .ok ((m.evictFrame n).setFrame n { valid := true, pinned := true, carved := true })
  | .uncarve =>
    if numFrames ≤ n then .error 0x10
    else if !(m.frame n).carved then .error 0x50
    else .ok (((m.discardLines (lineIn 3 n)).wipe n).setFrame n {})

/-- count frames in ascending order, stopping at the first failure: the status word and the memory after it. Log entry 38 (DEDUCED). -/
def Mem.pgctlRun (m : Mem) (now : W64) (op : PgOp) (first : Nat) (i : Nat) : Nat → Nat × Mem
  | 0 => (0, m)
  | n + 1 =>
    match m.pgctl now op (first + i) with
    | .error c => (i * 65536 + c, m)
    | .ok m => m.pgctlRun now op first (i + 1) n

/-! ## Leases (R55 to R64) -/

/-- Insert a frame by its pool frame number. -/
def insertFrame (p : Nat × Frame) : List (Nat × Frame) → List (Nat × Frame)
  | [] => [p]
  | q :: r => if p.2.pfn ≤ q.2.pfn then p :: q :: r else q :: insertFrame p r

/-- The frames of a pool range, by ascending pool address. -/
def Mem.framesIn (m : Mem) (base len : Nat) : List Nat :=
  ((m.frames.filter fun p => !p.2.carved && (p.2.valid || p.2.filling) && decide (base ≤ p.2.pfn * 65536)
    && decide (p.2.pfn * 65536 < base + len)).foldr insertFrame []).map (·.1)

/-- DIRTY of a lease (Table 3-2). -/
def Mem.dirtyCount (m : Mem) (l : Lease) : Nat :=
  ((m.framesIn l.base.toNat l.len.toNat).filter fun f => decide ((m.frame f).dirty ≠ 0)).length

/-- The state's code (Table 3-3). -/
def LeaseState.code : LeaseState → Nat
  | .free => 0 | .active => 1 | .expired => 2 | .revoking => 3 | .revoked => 4 | .lost => 5

/-- The image of an entry (Table 3-2). -/
def Mem.leaseImage (m : Mem) (l : Lease) : List W64 :=
  [BitVec.ofNat 64 (l.id.toNat * 2 ^ 32 + l.node.toNat * 65536 + (if l.loss then 256 else 0) + (if l.shared then 16 else 0) + l.st.code),
   l.base, l.len, l.expiry, l.warn, l.graceEnd, BitVec.ofNat 64 (m.dirtyCount l), 0]

/-- The receivers of a lease-valid clear (R58): the 4 home dies' slices and the 288 cores. -/
def receivers : List Nat := List.range 292

/-- A lease entry. -/
def Mem.lease (m : Mem) (slot : Nat) : Lease := m.leases.get {} slot
/-- Replace a lease entry. -/
def Mem.setLease (m : Mem) (slot : Nat) (l : Lease) : Mem := { m with leases := m.leases.put {} slot l }
/-- A lease leaves ACTIVE, or moves on from a state that is not: the clear starts on its way (R58). Log entry 79 (DEDUCED). -/
def Mem.leaveActive (m : Mem) (slot : Nat) (l : Lease) (now : W64) (to_ : LeaseState) : Mem :=
  let l := if l.st = .active then { l with stale := receivers, cleared := now } else l
  m.setLease slot { l with st := to_ }

/-- A lease-valid clear reaches a slice or a core (R58): a core writes the lease's dirty L1 words home and drops its lines. -/
def Mem.clearValid (m : Mem) (slot recv : Nat) : Mem :=
  let l := m.lease slot
  let m := m.setLease slot { l with stale := l.stale.filter fun r => decide (r ≠ recv) }
  if recv < 4 then m
  else
    let mine := (m.l1Of (recv - 4)).filter fun p =>
      let k := p.1 % 2 ^ 90
      decide (lineSpace k = 0) && decide (l.base.toNat ≤ lineAddr k) && decide (lineAddr k < l.base.toNat + l.len.toNat)
    mine.foldl (fun m p => m.l1Evict (recv - 4) (p.1 % 2 ^ 90)) m

/-- A frame is poisoned: a fill that has passed its check completes (R59), and nothing of the frame is written to the pool (R62). -/
def Mem.poison (m : Mem) (f : Nat) : Mem :=
  let m := if (m.frame f).filling then m.fillBytes f else m
  (m.discardLines (lineIn 0 (m.frame f).pfn)).modFrame f fun x => { x with poisoned := true, dirty := 0, relaying := none }

/-- Every frame of a lease, dirty ones written back (`wb`), is dropped, and the L2 lines of the range with them. -/
def Mem.dropRange (m : Mem) (l : Lease) (wb : Bool) : Mem :=
  let base := l.base.toNat
  let len := l.len.toNat
  let m := if wb then m.evictLines fun k _ => decide (lineSpace k = 0) && decide (base ≤ lineAddr k) && decide (lineAddr k < base + len)
    else m.discardLines fun k => decide (lineSpace k = 0) && decide (base ≤ lineAddr k) && decide (lineAddr k < base + len)
  let m := (m.framesIn base len).foldl (fun m f => if wb then m.evictFrame f else (m.wipe f).setFrame f {}) m
  { m with unaccepted := m.unaccepted.filter fun u => !(decide (base ≤ u.1) && decide (u.1 < base + len)) }

/-- A clear of a lease that is still on its way reaches every receiver (R58). -/
def Mem.clearAll (m : Mem) (slot : Nat) : Mem := (m.lease slot).stale.foldl (fun m r => m.clearValid slot r) m

/-- A frame is written back whole, with its lines in L2, which are dropped. -/
def Mem.backWhole (m : Mem) (f : Nat) : Mem := (m.flushFrameLines f).writeBack f

/-- The revocation write-back (R62): the frames by ascending pool address, then what stands in L2 with no frame. -/
def Mem.revokeBack (m : Mem) (l : Lease) : Mem :=
  let base := l.base.toNat
  let len := l.len.toNat
  let m := (m.framesIn base len).foldl Mem.backWhole m
  m.evictLines fun k _ => decide (lineSpace k = 0) && decide (base ≤ lineAddr k) && decide (lineAddr k < base + len)

/-- The frames of a lease that hold bytes the pool does not have, by ascending pool address. -/
def Mem.leftOf (m : Mem) (l : Lease) : List Nat := (m.framesIn l.base.toNat l.len.toNat).filter m.dirtyFrame

/-- Time passes for a revocation under way: its next dirty frame, by ascending pool address, has been written back or is still to be
(R62). Log entry 101 (DESIGN CHOICE). -/
def State.revokeStep (s : State) (slot : Nat) : State :=
  match s.mem.leftOf (s.mem.lease slot) with
  | [] => s
  | f :: _ => if s.draw.1.getLsbD 0 then { s.draw.2 with mem := s.mem.backWhole f } else s.draw.2

/-- Time passes for every revocation under way. -/
def State.revokeSteps (s : State) : State :=
  (s.mem.leases.filter fun p => decide (p.2.st = .revoking)).foldl (fun s p => s.revokeStep p.1) s

/-- Post an event record of a lease (Table 3-4): SOURCE 3. -/
def State.leaseRecord (s : State) (l : Lease) (cause : Nat) : State :=
  s.postRecord (pagerRecord l.id 3 cause 0 l.base.toNat 0 0 0 0)

/-- TIME_NS reaches EXPIRY (R57). -/
def State.expireLease (s : State) (slot : Nat) : State :=
  let l := s.mem.lease slot
  if l.st = .active ∧ l.expiry.toNat ≤ s.timeNs.toNat then
    ({ s with mem := s.mem.leaveActive slot l s.timeNs .expired } : State).leaseRecord l 0x08
  else s

/-- A revocation notice with a grace end (R57). -/
def State.revokeLease (s : State) (slot : Nat) (grace : W64) : Option State :=
  let l := s.mem.lease slot
  if l.st = .active ∨ l.st = .expired then
    some { s with mem := s.mem.leaveActive slot { l with graceEnd := grace } s.timeNs .revoking }
  else none

/-- A node is lost (R57): the lease's frames are poisoned. -/
def State.loseLease (s : State) (slot : Nat) : Option State :=
  let l := s.mem.lease slot
  if l.st = .free then none
  else
    let m := (s.mem.framesIn l.base.toNat l.len.toNat).foldl Mem.poison s.mem
    some { s with mem := m.leaveActive slot { l with loss := true } s.timeNs .lost }

/-- The range of a grant breaks R55. -/
def Mem.leaseRule (m : Mem) (id : Nat) (base len : Nat) : Bool :=
  let held := m.leases.filter fun p => decide (p.2.st ≠ .free)
  decide (id = 0) || decide (base % 65536 ≠ 0) || decide (len % 65536 ≠ 0) || decide (len < 65536) || decide (2 ^ 46 < len)
    || held.any (fun p => decide (p.2.base.toNat < base + len) && decide (base < p.2.base.toNat + p.2.len.toNat))
    || decide (2 ^ 46 < held.foldl (fun n p => n + p.2.len.toNat) len)

/-- LEASEOP.grant of an entry image: a status, and the state after it. -/
def State.grantLease (s : State) (slot : Nat) (img : List Byte) : Nat × State :=
  let w := wordAt img
  if (s.mem.lease slot).st ≠ .free then (0x50, s)
  else if s.mem.leaseRule (wbits (w 0) 32 32) (w 1).toNat (w 2).toNat then (0x51, s)
  else
    let l : Lease := { id := BitVec.ofNat 32 (wbits (w 0) 32 32), node := BitVec.ofNat 16 (wbits (w 0) 16 16),
                       shared := (w 0).getLsbD 4, st := .active, base := w 1, len := w 2, expiry := w 3, warn := w 4 }
    (0, { s with mem := s.mem.setLease slot l })

/-- LEASEOP.renew: the expiry applies first (R59); the new WARN has its own LEASE_DUE record. Log entry 99 (DESIGN CHOICE). -/
def State.renewLease (s : State) (slot : Nat) (expiry warn : W64) : Nat × State :=
  let s := s.expireLease slot
  let l := s.mem.lease slot
  if l.st = .revoking then (0x52, s)
  else if (l.st = .active ∨ l.st = .expired) ∧ s.timeNs.toNat < expiry.toNat then
    (0, { s with mem := s.mem.setLease slot { l with st := .active, expiry := expiry, warn := warn, dueSent := false, stale := [] } })
  else (0x50, s)

/-- LEASEOP.release: the cores drop the range's lines, as on any lease that leaves ACTIVE (R58), then the frames go, and every field
of the entry is 0. Log entries 79 (DEDUCED), 98 (DESIGN CHOICE). -/
def State.releaseLease (s : State) (slot : Nat) : Nat × State :=
  let l := s.mem.lease slot
  match l.st with
  | .free | .revoking => (0x50, s)
  | st =>
    let m := (if st = .active then receivers else l.stale).foldl (fun m r => m.clearValid slot r) s.mem
    (0, { s with mem := (m.dropRange l (decide (st = .active))).setLease slot {} })

/-! ## Keys (R84, R86) -/

/-- Load a key. -/
def Mem.loadKey (m : Mem) (id : Nat) (mat : BitVec 512) : Mem := { m with keys := m.keys.insert id mat }

/-- Unload a key (R86): its dirty lines and frames are written back and dropped, pinned ones too, and the key is erased; a dirty frame of
an EXPIRED lease stays as it is (R57). -/
def Mem.unloadKey (m : Mem) (id : Nat) : Mem :=
  let mat := m.keyMat id
  let m := (m.l1.filter fun p => decide (p.2.key = id)).foldl (fun m p => m.l1Evict (p.1 / 2 ^ 90) (p.1 % 2 ^ 90)) m
  let m := m.evictLines fun _ l => decide (l.key = id)
  let m := (m.frames.filter fun p => p.2.valid && !p.2.carved && !(m.dirtyFrame p.1 && m.expiredAt (p.2.pfn * 65536))
    && (m.hbmKey.slice (p.1 * 512) 512).any fun q => decide (q.2 = mat)).foldl (fun m p => m.evictFrame p.1) m
  { m with keys := m.keys.erase id }

/-! ## Lease events -/

/-- LEASE_EXPIRY (R57). -/
def execLeaseExpiry (slot : Nat) (s : State) : Out := .next (s.expireLease slot)

/-- LEASE_DUE (R57): once. -/
def execLeaseDue (slot : Nat) (s : State) : Out :=
  let l := s.mem.lease slot
  if l.st = .active ∧ l.warn ≠ 0 ∧ l.warn.toNat ≤ s.timeNs.toNat ∧ !l.dueSent then
    .next (({ s with mem := s.mem.setLease slot { l with dueSent := true } } : State).leaseRecord l 0)
  else .next s

/-- REVOCATION_NOTICE (R57): SHALT sees it. -/
def execRevocationNotice (slot : Nat) (grace : W64) (s : State) : Out :=
  .next (((s.revokeLease slot grace).getD s).shaltEvent 2)

/-- REVOCATION_WRITEBACK_DONE (R57, R62). -/
def execRevocationWritebackDone (slot : Nat) (s : State) : Out :=
  let l := s.mem.lease slot
  if l.st = .revoking then
    let m := (s.mem.clearAll slot).revokeBack l
    let l := m.lease slot
    .next { s with mem := m.setLease slot { l with st := .revoked } }
  else .next s

/-- GRACE_END (R57): frames still dirty are poisoned. -/
def execGraceEnd (slot : Nat) (s : State) : Out :=
  let l := s.mem.lease slot
  if l.st = .revoking ∧ l.graceEnd.toNat ≤ s.timeNs.toNat then
    let m := s.mem.clearAll slot
    let left := m.leftOf l
    let m := left.foldl Mem.poison m
    let l := m.lease slot
    .next { s with mem := m.setLease slot { l with st := .revoked, loss := l.loss || decide (left ≠ []) } }
  else .next s

/-- POOL_NODE_LOST (R57): every lease of the node; SHALT sees it. -/
def execPoolNodeLost (node : Nat) (s : State) : Out :=
  let s : State := { s with mem := { s.mem with lostNodes := if s.mem.lostNodes.contains node then s.mem.lostNodes else s.mem.lostNodes ++ [node] } }
  let slots := (s.mem.leases.filter fun p => decide (p.2.node.toNat = node)).map (·.1)
  .next ((slots.foldl (fun s i => (s.loseLease i).getD s) s).shaltEvent 2)

/-- LEASE_VALID_CLEAR (R58). -/
def execLeaseValidClear (slot recv : Nat) (s : State) : Out :=
  .next (if (s.mem.lease slot).stale.contains recv then { s with mem := s.mem.clearValid slot recv } else s)

/-- Clears that have been on their way for 2 µs have arrived (R58). Log entries 79 (DEDUCED), 90 (DESIGN CHOICE). -/
def State.overdueClears (s : State) : State :=
  (s.mem.leases.filter fun p => decide (p.2.stale ≠ []) && decide (p.2.cleared.toNat + 2000 ≤ s.timeNs.toNat)).foldl
    (fun s p => { s with mem := p.2.stale.foldl (fun m r => m.clearValid p.1 r) s.mem }) s

/-- The L2 and L1 lines of a pool frame are dropped (R64). Log entry 83 (DEDUCED). -/
def Mem.dropLines (m : Mem) (pfn : Nat) : Mem :=
  let m := m.discardLines (lineIn 0 pfn)
  { m with l1 := m.l1.filter fun p => !lineIn 0 pfn (p.1 % 2 ^ 90) }

/-- BACK_INVALIDATION_SNOOP (R64): the frame goes, its lines with it; a fill in flight is taken again. Log entry 83 (DEDUCED). -/
def execBackInvalidationSnoop (addr : Nat) (s : State) : Out :=
  let m := s.mem.dropLines (addr / 65536)
  match s.mem.hit (addr / 65536) with
  | some f =>
    if (s.mem.frame f).filling then .next { s with mem := m.modFrame f fun x => { x with refetch := true } }
    else .next { s with mem := s.mem.dropFrame f }
  | none => .next { s with mem := m }

/-- STORE_ACCEPTED (R65): the oldest write is accepted. -/
def execStoreAccepted (s : State) : Out := .next { s with mem := { s.mem with unaccepted := s.mem.unaccepted.tail } }

/-! ## Page-cache events -/

/-- FRAME_FILL_COMPLETE (R88). Where another access has already had the fill finished inside its own step, the loads that
still wait for the frame go on. -/
def execFrameFillComplete (f : Nat) (s : State) : Out :=
  if (s.mem.frame f).filling then
    .next (({ s with mem := s.mem.settle f } : State).frameReady f)
  else if (s.mem.frame f).relaying = none then .next (s.frameReady f)
  else .next s

/-- RELAYOUT_COMPLETE (R94). Log entry 82 (DEDUCED). -/
def execRelayoutComplete (f : Nat) (s : State) : Out :=
  if (s.mem.frame f).relaying ≠ none ∧ !(s.mem.frame f).filling then
    .next (({ s with mem := s.mem.settle f } : State).frameReady f)
  else .next s

/-- COUNTER_HALVING (R89): at a multiple of 65,536,000 ns. -/
def execCounterHalving (s : State) : Out :=
  if s.mem.halvings < s.timeNs.toNat / 65536000 then
    let frames := s.mem.frames.map fun p => (p.1, { p.2 with counter := p.2.counter / 2 })
    .next { s with mem := { s.mem with frames := frames, halvings := s.mem.halvings + 1 } }
  else .next s

/-- ATS_INVALIDATION (R80): the ATC entries of a range go, and the TLB entries that lead to them; the completion waits for the
requests that used them and have not reached the tether. -/
def execAtsInvalidation (pasid page bytes : Nat) (s : State) : Out :=
  let hit := fun (lo n : Nat) => decide (lo < page * 4096 + bytes) && decide (page * 4096 < lo + n)
  let gone := fun (e : AtcEntry) => decide (e.pasid = pasid) && hit (e.page * 4096) e.bytes
  let uses := fun (r : Req) => decide (r.kind ≠ .ats) && decide (r.kind ≠ .pri) && s.mem.atc.any fun e =>
    gone e && decide (e.ans.hpage * 4096 ≤ r.addr) && decide (r.addr < e.ans.hpage * 4096 + e.bytes)
  let tags := (s.host.reqs.filter fun p => !s.host.reached p.1 && uses p.2).map (·.1)
  let h : HostLink := { s.host with invals := s.host.invals ++ [{ pasid := pasid, page := page, bytes := bytes, tags := tags }] }
  .next { s with
    host := h.completeInvals,
    mem := { s.mem with
      atc := s.mem.atc.filter (fun e => !gone e),
      tlb := s.mem.tlb.filter (fun e => !(decide (e.leaf.space = 1) && decide ((s.context e.ctx).pasid = pasid)
        && hit e.page (pageBytes e.leaf.size))) } }

end Sys2Proof.Machine
end

