-- ==== Sys2Proof/Machine/Fabric.lean ====
section
/-! DEFINITION. The scale-up fabric (chapter 15): FPUT, FGET, FATOM, FMCAST, FSTAT; packets sent and served; accesses to
peers; links. -/

namespace Sys2Proof.Machine

/-! ## Local sides of a transfer (R177, R295) -/

/-- The code a fault gives a transfer (Table 15-4). -/
def fabCode (cause : Nat) : Nat :=
  match cause with
  | 0x08 | 0x09 => 0x02 | 0x0A | 0x0B => 0x03 | 0x11 => 0x07 | 0x12 => 0x24 | 0x13 => 0x06 | _ => 0x01

/-- What a local side comes to: bytes (and whether watched ones were dropped), a failure at an offset, or not yet. -/
inductive Side where
  | ok (bytes : List Byte) (watch : Bool) | fail (code off : Nat) | wait

/-- A transfer's engine as an accessor. -/
def State.xferAcc (s : State) (x : Xfer) : Acc := { core := (s.team x.team).core, ctx := x.ctx, mode := x.mode, gid := x.gid }

/-- Read the parts of a global range, the failing offset told. -/
def State.sideParts (s : State) (x : Acc) (w : Waiter) (pol off : Nat) : List (W64 × Nat) → Side × State
  | [] => (.ok [] false, s)
  | (va, n) :: r =>
    let was := s.inL2 x va
    match s.engPart x w va n pol with
    | (.ok b, s) =>
      (match (s.enginePolicy x va pol was).sideParts x w pol (off + n) r with
       | (.ok c f, s) => (.ok (b ++ c) f, s)
       | o => o)
    | (.fault c, s) => (.fail (fabCode c) off, s)
    | (.wait, s) => (.wait, s)

/-- Read n bytes of a local side. -/
def State.sideRead (s : State) (x : Acc) (tid : Nat) (w : Waiter) (va : W64) (n pol : Nat) : Side × State :=
  if inAperture va then
    match s.scratchAt tid (va.toNat % 2 ^ 32) with
    | none => (.fail 0x01 0, s)
    | some (t, off) =>
      if (s.team t).size' < off + n then (.fail 0x01 ((s.team t).size' - off), s) else (.ok (rdBytes (s.team t).scratch off n) false, s)
  else
    let ps := lineParts va n (n / 64 + 2)
    match s.sideParts x w pol 0 ps with
    | (.wait, s) => (.wait, s)
    | (r, s) => (r, s.dropFetched w ps)

/-- Write the parts of a global range; `w` waits for a host translation, and for the writes that leave the package (R338). -/
def State.sidePut (s : State) (x : Acc) (w : Waiter) (pol off : Nat) : List (W64 × Nat) → List Byte → Side × State
  | [], _ => (.ok [] false, s)
  | (va, n) :: r, b =>
    let was := s.inL2 x va
    match s.homeStore x w va (b.take n) with
    | (.fault c, s) => (.fail (fabCode c) off, s)
    | (.ats, s) => (match s.engAsk w x va true with
      | (.fault c, s) => (.fail (fabCode c) off, s)
      | (_, s) => (.wait, s))
    | (.stall, s) => (.wait, s)
    | (_, s) => (s.enginePolicy x va pol was).sidePut x w pol (off + n) r (b.drop n)

/-- Write bytes at a local side; `fill`: scratch granules are set full, as for a put (Table 5-1, R298). -/
def State.sideWrite (s : State) (x : Acc) (tid : Nat) (w : Waiter) (va : W64) (bytes : List Byte) (pol : Nat) (fill : Bool) : Side × State :=
  if inAperture va then
    match s.scratchAt tid (va.toNat % 2 ^ 32) with
    | none => (.fail 0x01 0, s)
    | some (t, off) =>
      let room := (s.team t).size' - off
      let b := bytes.take room
      let r := (s.team t).putBytes off b
      let s := s.setTeamFe t (if fill then r.1.fillGranules off b.length else r.1)
      if room < bytes.length then (.fail 0x01 room, s) else (.ok [] r.2, s)
  else s.sidePut x w pol 0 (lineParts va bytes.length (bytes.length / 64 + 2)) bytes

/-! ## The peer's side (R296 to R299, R308) -/

/-- A read at the home renews the lease of the line (R308). -/
def Mem.homeRead (m : Mem) (k : Nat) (rt : W48) : Mem :=
  match m.l2.find k with
  | none => m
  | some l =>
    let r := max l.rts.toNat (max l.wts.toNat rt.toNat + 64)
    { m with l2 := m.l2.insert k { l with rts := BitVec.ofNat 48 r } }

/-- The wts of a line. -/
def Mem.wtsOf (m : Mem) (k : Nat) : W48 := ((m.l2.find k).map (·.wts)).getD 0
/-- The frames of a device range are carved out (R92). -/
def Mem.present (m : Mem) (a n : Nat) : Bool :=
  (List.range ((a + n - 1) / 65536 - a / 65536 + 1)).all fun i => (m.frame (a / 65536 + i)).carved

/-- Write bytes at device addresses at their homes: the memory and the largest wts. Log entry 43 (DEDUCED). -/
def Mem.devWrite (m : Mem) (rt : W48) : List (W64 × Nat) → List Byte → W48 → Mem × W48
  | [], _, w => (m, w)
  | (a, n) :: r, b, w =>
    let k := lineKey 3 0 a.toNat
    let m := (m.bring k 0).homeWrite k (a.toNat % 128) n (ofLeBytes (b.take n)) rt
    let t := m.wtsOf k
    m.devWrite rt r (b.drop n) (if w.toNat < t.toNat then t else w)

/-- Read bytes at device addresses at their homes: also the largest wts. Log entry 43 (DEDUCED). -/
def Mem.devRead (m : Mem) (rt : W48) : List (W64 × Nat) → List Byte × W48 × Mem
  | [] => ([], 0, m)
  | (a, n) :: r =>
    let k := lineKey 3 0 a.toNat
    let m := (m.bring k 0).homeRead k rt
    let b := leBytes n (lget (m.l2Data k) (a.toNat % 128) n)
    let q := m.devRead rt r
    (b ++ q.1, (if q.2.1.toNat < (m.wtsOf k).toNat then m.wtsOf k else q.2.1), q.2.2)

/-- The bytes of a message, as a sparse memory. -/
def bodyMap (b : List Byte) : SMap Byte := b.zipIdx.filterMap fun p => if p.1 = 0 then none else some (p.2, p.1)

/-- A reply to a peer: 0, status, offset, wts, rts; its bytes. -/
def State.reply (s : State) (dst : Nat) (code off : Nat) (wts rts : W48) (bytes : List Byte) : State :=
  s.sendMsg dst 4 bytes.length true [0, BitVec.ofNat 64 code, BitVec.ofNat 64 off, wts.setWidth 64, rts.setWidth 64]
    (bodyMap bytes)

/-- The status a refusal with retry-later goes out with. -/
def retryCode : Nat := 0x100

/-- Bytes count at a window's counter (R296): one watched update. Log entry 85 (DEDUCED). -/
def State.countBytes (s : State) (team off n : Nat) : State :=
  if n = 0 then s else (s.modTeam team fun t => t.wr off 8 ((t.rd off 8 + n) % 2 ^ 64)).teamEvent team

/-- A window-form packet is written (R296): its status, and the transfer offset of the first byte that failed. `offset`: the
transfer's OFFSET; `o`: the packet's place in the transfer. Log entries 73 (DEDUCED), 85 (DEDUCED). -/
def State.windowPut (s : State) (ftag wtag offset o : Nat) (bytes : List Byte) : Nat × Nat × State :=
  match s.fabric.windows.find? fun w => decide (w.ftag = ftag) && decide (w.wtag = wtag) with
  | none => (0x22, o, s)
  | some w =>
    let off := offset + o
    let b := bytes.take (w.len - off)
    let t := s.team w.team
    let dropped := ((List.range b.length).filter fun i => t.watched (w.base + off + i)).length
    let t := if b = [] then t else ((t.putBytes (w.base + off) b).1).fillGranules (w.base + off) b.length
    let past := decide (w.len < off + bytes.length)
    let s := s.setTeamFe w.team t
    let s := if past then (s.modTeam w.team fun t => t.wr (w.counter + 16) 8 1).teamEvent w.team else s
    let s := s.countBytes w.team w.counter (b.length - dropped)
    (if past then 0x20 else if 0 < dropped then 0x04 else 0, if past then w.len - offset else o, s)

/-- Bytes cut past the pieces of a range at a peer. -/
def cutPieces (ps : List (Nat × Nat × Nat)) (b : List Byte) : List (Nat × List Byte) :=
  (ps.foldl (fun (q : List (Nat × List Byte) × List Byte) z => (q.1 ++ [(z.2.1, q.2.take z.2.2)], q.2.drop z.2.2)) ([], b)).1

/-- An address-form packet is written at its homes (R297): none where a frame is absent. -/
def State.addrPut (s : State) (rt : W48) (pieces : List (Nat × List Byte)) : Option (W48 × State) :=
  if pieces.all fun p => p.2 = [] || s.mem.present p.1 p.2.length then
    let r := pieces.foldl (fun (q : Mem × W48) p => q.1.devWrite rt (lineParts (BitVec.ofNat 64 p.1) p.2.length (p.2.length / 64 + 2)) p.2 q.2)
      (s.mem, 0)
    some (r.2, { s with mem := r.1 })
  else none

/-! ## Transfers (R292 to R302) -/

/-- A transfer. -/
def State.xfer? (s : State) (n : Nat) : Option Xfer := s.fabric.xfers.find n
/-- Replace a transfer. -/
def State.setXfer (s : State) (n : Nat) (x : Xfer) : State := { s with fabric := { s.fabric with xfers := s.fabric.xfers.insert n x } }

/-- A packet has its final status. -/
def PktState.final : PktState → Bool
  | .acked _ | .failed _ _ | .gone => true
  | _ => false

/-- A packet is on its way. -/
def PktState.inFlight : PktState → Bool
  | .sent _ | .again _ _ _ => true
  | _ => false

/-- The status and the offset of some packets (R301). -/
def pktStatus (ps : List Pkt) : Nat × Nat :=
  let bad := ps.foldl (fun (b : Option (Nat × Nat)) p =>
    match p.st, b with
    | .failed c o, some (_, o') => if o < o' then some (c, o) else b
    | .failed c o, none => some (c, o)
    | _, b => b) none
  match bad with
  | some r => r
  | none => (if ps.any fun p => p.st = .acked true then 0x04 else 0, 0)

/-- Member i's status. -/
def Xfer.member (x : Xfer) (i : Nat) : Nat × Nat := pktStatus (x.pkts.filter fun p => decide (p.member = i))

/-- Every packet has its final status. -/
def Xfer.done (x : Xfer) : Bool := x.pkts.all fun p => p.st.final

/-- The word FSTAT returns (R302). -/
def Xfer.word (x : Xfer) : W64 :=
  let r := pktStatus x.pkts
  match x.kind with
  | .mcast =>
    let bad := ((List.range x.members.length).filter fun i => decide ((x.member i).1 ≠ 0)).length
    if bad = 0 then (if x.old = some 1 then 0x04 else 0) else BitVec.ofNat 64 ((if r.1 = 4 then 0 else r.2) * 65536 + bad * 256 + 0x23)
  | .atom _ => BitVec.ofNat 64 r.1
  | _ => BitVec.ofNat 64 ((if r.1 = 4 then 0 else r.2) * 65536 + r.1)

/-- The status array an FMCAST writes (R300), or 0. -/
def Xfer.array (x : Xfer) : W64 := if x.kind = .mcast then x.ops.getD 3 0 else 0

/-- A transfer's status is final (R301): every packet's is, and the status array is written. -/
def Xfer.complete (x : Xfer) : Bool := x.done && (decide (x.array = 0) || x.old.isSome)

/-- Write the status array of a transfer whose packets are all final; whether the transfer is complete. Log entry 87 (DEDUCED). -/
def State.writeArray (s : State) (n : Nat) (x : Xfer) : Bool × State :=
  if x.complete then (true, s)
  else
    match s.sideWrite (s.xferAcc x) x.team (.xfer n) x.array ((List.range x.members.length).map fun i => BitVec.ofNat 8 (x.member i).1) 0 false with
    | (.wait, s) => (false, s)
    | (.ok _ true, s) => (true, s.setXfer n { x with old := some 1 })
    | (_, s) => (true, s.setXfer n { x with old := some 0 })

/-- A transfer whose packets are all final ends: an FMCAST's status array, and the tag of NOST (R292, R300), once what it has written
to the host or to a peer has been acknowledged (R338). -/
def State.settleXfer (s : State) (n : Nat) : State :=
  match s.xfer? n with
  | none => s
  | some x =>
    if !x.done then s
    else
      let r := s.writeArray n x
      let s := r.2
      let held := (s.group x.gid).tags.any fun t => decide (t.2.xfer = n)
      if r.1 && (x.nost || !held) && !s.sideOut (.xfer n) then
        let s := s.modGroup x.gid fun g => { g with tags := g.tags.filter fun t => decide (t.2.xfer ≠ n) }
        { s with fabric := { s.fabric with xfers := s.fabric.xfers.erase n } }
      else s

/-- Give packet i of a transfer a state, and settle the transfer. -/
def State.setPkt (s : State) (n i : Nat) (st : PktState) : State :=
  match s.xfer? n with
  | none => s
  | some x => (s.setXfer n { x with pkts := x.pkts.mapIdx fun j p => if j = i then { p with st := st } else p }).settleXfer n

/-- Translate a remote range page by page as an access to space 2 (R295): pieces at the peer, the peer; `only`: the one peer the leaves
may name (R314). Log entry 73 (DEDUCED). -/
def State.remotePieces (s : State) (x : Acc) (kind : AKind) (va : W64) (n off fuel : Nat) (only : Option Nat := none) :
    (Except (Nat × Nat) (List (Nat × Nat × Nat))) × State :=
  match fuel with
  | 0 => (.ok [], s)
  | fuel + 1 =>
    if n = 0 then (.ok [], s)
    else
      match s.leafFor x va kind with
      | .error c => (.error (fabCode c, off), s)
      | .ok (l, _) =>
        let s := (s.xlate x va kind).2
        if l.space ≠ 2 || decide (only.getD l.peer ≠ l.peer) then (.error (0x01, off), s)
        else if !s.reach l.peer then (.error (0x07, off), s)
        else
          let a := l.addr va
          let m := min n (4096 - va.toNat % 4096)
          match s.remotePieces x kind (va + BitVec.ofNat 64 m) (n - m) (off + m) fuel only with
          | (.ok r, s) => (.ok ((l.peer, a, m) :: r), s)
          | o => o

/-- The old value of an FATOM comes back (R299): it is written to the local result. -/
def State.atomResult (s : State) (n : Nat) (x : Xfer) (v : W64) : State :=
  let s := s.setXfer n { x with old := some v }
  let res := x.ops.getD 3 0
  if res = 0 then s.setPkt n 0 (.acked false)
  else
    match s.sideWrite (s.xferAcc x) x.team (.xfer n) res (leBytes 8 v.toNat) 0 false with
    | (.ok _ w, s) => s.setPkt n 0 (.acked w)
    | (.fail _ _, s) => s.setPkt n 0 (.failed 0x01 0)
    | (.wait, s) => s.setPkt n 0 .got

/-- The bytes of an FGET packet have come (R298). -/
def State.getResult (s : State) (n i : Nat) (x : Xfer) (p : Pkt) (bytes : List Byte) : State :=
  match s.sideWrite (s.xferAcc x) x.team (.xfer n) (x.ops.getD 0 0 + BitVec.ofNat 64 p.off) (bytes.take p.len) x.pol true with
  | (.ok _ w, s) => s.setPkt n i (.acked w)
  | (.fail c o, s) => s.setPkt n i (.failed c (p.off + o))
  | (.wait, s) => s.setXfer n { x with pkts := x.pkts.mapIdx fun j q => if j = i then { q with st := .got, body := bytes } else q }

/-- An FATOM at a home of this device (R299). -/
def Mem.fatomAt (m : Mem) (a : Nat) (f : AtomF) (rt : W48) : W64 × W48 × Mem :=
  let k := lineKey 3 0 a
  let m := m.bring k 0
  let old := lget (m.l2Data k) (a % 128) f.bytes
  let m := m.homeWrite k (a % 128) f.bytes (f.new old) rt
  (BitVec.ofNat 64 old, m.wtsOf k, m)

/-- The atomic an FATOM asks for: codes of Table 9-5, 15 .cas. -/
def fopOf (op : Nat) (b cmp : W64) : AtomF :=
  match op with
  | 0 => .op .add .i64 b.toNat | 1 => .op .min .i64 b.toNat | 2 => .op .max .i64 b.toNat | 3 => .op .and .i64 b.toNat
  | 4 => .op .or .i64 b.toNat | 5 => .op .xor .i64 b.toNat | 6 => .op .exch .i64 b.toNat | 7 => .op .inc .i64 b.toNat
  | 8 => .op .dec .i64 b.toNat | _ => .cas true cmp.toNat b.toNat

/-- Send packet i of a transfer to a device with its bytes; it keeps both. Log entry 42 (DEDUCED). -/
def State.sendPkt (s : State) (n i dst : Nat) (body : List Byte) (payload : Nat) (ordered : Bool) : State :=
  let put := fun (j : Nat) (p : Pkt) => if j = i then { p with st := .sent s.timeNs, dst := dst, body := body } else p
  match s.xfer? n with
  | some x => (s.setXfer n { x with pkts := x.pkts.mapIdx put }).sendMsg dst 0 payload ordered
      [1, BitVec.ofNat 64 n, BitVec.ofNat 64 i, (s.context x.ctx).rt.setWidth 64] (bodyMap body)
  | none => s

/-- A refused packet's next state (R297): 1, 2, 4, 8, 16 µs after each refusal, counted from the first. -/
def backoff (n : Nat) : Nat := if n < 4 then 1000 * 2 ^ n else 16000
/-- A packet is refused with retry-later. -/
def PktState.refused (st : PktState) (now : W64) : PktState :=
  match st with
  | .sent _ => .retry now (now + BitVec.ofNat 64 (backoff 0)) 1
  | .again _ first n => .retry first (now + BitVec.ofNat 64 (backoff n)) (n + 1)
  | st => st

/-- An FGET packet from this device itself (R298): its bytes, unless a frame is absent. -/
def State.getHere (s : State) (n i : Nat) (x : Xfer) (p : Pkt) (ps : List (Nat × Nat × Nat)) : State :=
  if ps.all fun q => s.mem.present q.2.1 q.2.2 then
    let r := ps.foldl (fun (q : List Byte × W48 × Mem) z =>
      let d := q.2.2.devRead 0 (lineParts (BitVec.ofNat 64 z.2.1) z.2.2 (z.2.2 / 64 + 2))
      (q.1 ++ d.1, (if q.2.1.toNat < d.2.1.toNat then d.2.1 else q.2.1), d.2.2)) ([], 0, s.mem)
    (({ s with mem := r.2.2 } : State).sawWts x.ctx r.2.1).getResult n i x p r.1
  else s.setPkt n i (p.st.refused s.timeNs)

/-- An FATOM at this device itself (R299), unless its frame is absent. -/
def State.atomHere (s : State) (n : Nat) (x : Xfer) (p : Pkt) (op addr : Nat) : State :=
  if s.mem.present addr 8 then
    let r := s.mem.fatomAt addr (fopOf op (x.ops.getD 1 0) (x.ops.getD 2 0)) 0
    (({ s with mem := r.2.2 } : State).sawWts x.ctx r.2.1).atomResult n x r.1
  else s.setPkt n 0 (p.st.refused s.timeNs)

/-- A request of this device to itself is performed (R298, R299). Log entry 77 (DEDUCED). -/
def State.requestHere (s : State) (n i : Nat) (x : Xfer) (p : Pkt) : State :=
  match x.kind with
  | .get =>
    (match s.remotePieces (s.xferAcc x) .read (x.ops.getD 1 0 + BitVec.ofNat 64 p.off) p.len 0 3 with
     | (.error (c, o), s) => s.setPkt n i (.failed c (p.off + o))
     | (.ok ps, s) => s.getHere n i x p ps)
  | .atom op =>
    (match s.remotePieces (s.xferAcc x) .write (x.ops.getD 0 0) 8 0 2 with
     | (.error (c, _), s) => s.setPkt n i (.failed c 0)
     | (.ok ps, s) => s.atomHere n x p op ((ps.headD (0, 0, 0)).2.1))
  | _ => s

/-- The first peer of some pieces, and how many bytes lie at it before another peer's begin. -/
def firstPeer : List (Nat × Nat × Nat) → Nat × Nat
  | [] => (0, 0)
  | (d, _, n) :: r => (d, n + ((r.takeWhile fun q => decide (q.1 = d)).foldl (fun t q => t + q.2.2) 0))

/-- A packet whose pages lie at two peers goes to each with its own bytes (R295): what is past the first peer's becomes a packet of
its own. Log entry 73 (DEDUCED). -/
def State.splitPkt (s : State) (n i : Nat) (p : Pkt) (len : Nat) : State :=
  match s.xfer? n with
  | some x => if p.len ≤ len then s else
      let rest : Pkt := { member := p.member, off := p.off + len, len := p.len - len }
      s.setXfer n { x with pkts := x.pkts.mapIdx (fun j q => if j = i then { q with len := len } else q) ++ [rest] }
  | none => s

/-- Send packet i of a transfer (R295): its source is read and its target translated; it may fail here. A request to this device itself
is performed at once. Log entries 42 (DEDUCED), 73 (DEDUCED). -/
def State.launchPkt (s : State) (n i : Nat) (x : Xfer) (p : Pkt) : State :=
  let acc := s.xferAcc x
  let fail := fun (s : State) (c o : Nat) => s.setPkt n i (.failed c (p.off + o))
  let own := s.fabric.devid
  let ask := fun (s : State) (dst payload : Nat) (ordered : Bool) =>
    let t := s.sendPkt n i dst [] payload ordered
    if dst = own then (match t.xfer? n with
      | some y => t.requestHere n i y ((y.pkts[i]?).getD p)
      | none => t) else t
  match x.kind with
  | .put false | .mcast =>
    let dst := x.members.getD p.member 0
    if !s.reach dst then fail s 0x07 0
    else
      match s.sideRead acc x.team (.xfer n) (x.ops.getD 0 0 + BitVec.ofNat 64 p.off) p.len x.pol with
      | (.wait, s) => s
      | (.fail c o, s) => fail s c o
      | (.ok b _, s) => s.sendPkt n i dst b p.len false
  | .put true =>
    match s.sideRead acc x.team (.xfer n) (x.ops.getD 0 0 + BitVec.ofNat 64 p.off) p.len x.pol with
    | (.wait, s) => s
    | (.fail c o, s) => fail s c o
    | (.ok b _, s) =>
      match s.remotePieces acc .write (x.ops.getD 1 0 + BitVec.ofNat 64 p.off) p.len 0 3 with
      | (.error (c, o), s) => fail s c o
      | (.ok ps, s) =>
        let f := firstPeer ps
        (s.splitPkt n i p f.2).sendPkt n i f.1 (b.take f.2) (min p.len f.2) false
  | .get =>
    match s.remotePieces acc .read (x.ops.getD 1 0 + BitVec.ofNat 64 p.off) p.len 0 3 with
    | (.error (c, o), s) => fail s c o
    | (.ok ps, s) => let f := firstPeer ps; ask (s.splitPkt n i p f.2) f.1 0 false
  | .atom _ =>
    match s.remotePieces acc .write (x.ops.getD 0 0) 8 0 2 with
    | (.error (c, _), s) => fail s c 0
    | (.ok ps, s) => ask s ((ps.headD (own, 0, 0)).1) 8 true

/-- What packet i brought is written where it goes, now that its translation may be known (R298, R299). -/
def State.landPkt (s : State) (n i : Nat) (x : Xfer) (p : Pkt) : State :=
  match x.kind, x.old with
  | .get, _ => s.getResult n i x p p.body
  | .atom _, some v => s.atomResult n x v
  | _, _ => s

/-- Packet i goes on: what is not sent is sent once the runs before its fork are over (R309), unless pre-emption stops the team (R310);
what has come is written. -/
def State.pumpPkt (s : State) (n i : Nat) : State :=
  match s.xfer? n with
  | none => s
  | some x =>
    match x.pkts[i]? with
    | none => s
    | some p =>
      match p.st with
      | .unsent => if (s.team x.team).stopping || !s.forkReady x.gid x.after then s else s.launchPkt n i x p
      | .got => s.landPkt n i x p
      | _ => s

/-- Every packet of a transfer goes on. -/
def State.pump (s : State) (n : Nat) : State :=
  match s.xfer? n with
  | none => s
  | some x => (List.range x.pkts.length).foldl (fun s i => s.pumpPkt n i) s

/-- A transfer goes on, with the packets that splitting has added, and ends where it can. -/
def State.resumeXfer (s : State) (n : Nat) : State := ((s.pump n).pump n).settleXfer n

/-- Every transfer goes on as far as it can. -/
def State.pumpAll (s : State) : State := s.fabric.xfers.foldl (fun s p => s.resumeXfer p.1) s

/-- The transfers of a team go on from their first unsent packet (R310). -/
def State.pumpTeam (s : State) (tid : Nat) : State :=
  (s.fabric.xfers.filter fun p => decide (p.2.team = tid)).foldl (fun s p => s.resumeXfer p.1) s

/-- The packets of a transfer to one member (R295). -/
def packetsOf (len member : Nat) : List Pkt :=
  (List.range ((len + 1023) / 1024)).map fun q => { member := member, off := 1024 * q, len := min 1024 (len - 1024 * q) }

/-- The lowest free tag of a group (R292). -/
def Group.freeTag (g : Group) : Option Nat := (List.range 16).find? fun t => decide (g.tags.find t = none)

/-- A fabric command past its operand checks (R292): it takes a tag and starts, or waits for one. -/
def State.fabTake (s : State) (i : Instr) (d : BitVec 6) (ops : List W64) (x : Xfer) : State :=
  match s.cur.freeTag with
  | none => s.swaitOn { instr := i, aux := ops }
  | some t =>
    let n := s.fabric.nextXfer
    let s := s.modCur fun g => { g with tags := g.tags.insert t { xfer := n, nost := x.nost } }
    let s : State := { s with fabric := { s.fabric with nextXfer := n + 1, xfers := s.fabric.xfers.insert n x } }
    (s.sput d (BitVec.ofNat 64 (t * 256))).resumeXfer n

/-- A transfer of the current group. -/
def State.newXfer (s : State) (kind : XferKind) (pol : Nat) (nost : Bool) (ops : List W64) (members : List Nat) (pkts : List Pkt) : Xfer :=
  { gid := s.curGid, team := s.cur.team, ctx := s.curTeam.ctx, mode := s.cur.mode, kind := kind, pol := pol, ops := ops,
    members := members, pkts := pkts, nost := nost, after := s.cur.runs }

/-- The code of a policy (Table 15-2). -/
def bpol : BPol → Nat
  | .ca => 0 | .nl => 1 | .cs => 2

/-- FPUT with its operands (R294). Window packets carry OFFSET in the transfer's fifth word. -/
def State.fput (s : State) (i : Instr) (d : BitVec 6) (p : BPol) (f n : Bool) (o : List W64) : State :=
  let w1 := o.getD 1 0
  let w2 := o.getD 2 0
  let len := wbits w2 0 32
  let off := wbits w2 32 20
  let bad := decide ((o.getD 0 0).toNat % 16 ≠ 0) || decide (len % 16 ≠ 0) || decide (wbits w2 52 12 ≠ 0)
    || (if f then decide (w1.toNat % 16 ≠ 0) || decide (off ≠ 0)
        else decide (wbits w1 34 30 ≠ 0) || decide (off % 16 ≠ 0) || decide (2 ^ 20 < off + len))
  if bad then s.sput d 0x10
  else s.fabTake i d o (s.newXfer (.put f) (bpol p) n o (if f then [] else [wbits w1 0 18]) (packetsOf len 0))
/-- FPUT (R295). -/
def execFput (a d : BitVec 6) (p : BPol) (f n : Bool) (s : State) : Out :=
  .next (s.fput (.fput a d p f n) d p f n ((List.range 3).map fun i => s.sreadAt a i))

/-- FGET with its operands. -/
def State.fget (s : State) (i : Instr) (d : BitVec 6) (p : BPol) (n : Bool) (o : List W64) : State :=
  let w2 := o.getD 2 0
  if (o.getD 0 0).toNat % 16 ≠ 0 ∨ (o.getD 1 0).toNat % 16 ≠ 0 ∨ 2 ^ 32 ≤ w2.toNat ∨ w2.toNat % 16 ≠ 0 then s.sput d 0x10
  else s.fabTake i d o (s.newXfer .get (bpol p) n o [] (packetsOf w2.toNat 0))
/-- FGET (R298). -/
def execFget (a d : BitVec 6) (p : BPol) (n : Bool) (s : State) : Out :=
  .next (s.fget (.fget a d p n) d p n ((List.range 3).map fun i => s.sreadAt a i))

/-- The code of an FATOM operation. -/
def fopCode : FOp → Nat
  | .op o => match o with
    | .add => 0 | .min => 1 | .max => 2 | .and => 3 | .or => 4 | .xor => 5 | .exch => 6 | .inc => 7 | .dec => 8
  | .cas => 15

/-- FATOM with its operands. -/
def State.fatom (s : State) (i : Instr) (d : BitVec 6) (n : Bool) (op : FOp) (o : List W64) : State :=
  if (o.getD 0 0).toNat % 8 ≠ 0 ∨ (o.getD 3 0).toNat % 8 ≠ 0 then s.sput d 0x10
  else s.fabTake i d o (s.newXfer (.atom (fopCode op)) 0 n o [] [{ member := 0, off := 0, len := 8 }])
/-- FATOM (R299). Log entry 19 (DEDUCED). -/
def execFatom (a d : BitVec 6) (n : Bool) (o : FOp) (s : State) : Out :=
  .next (s.fatom (.fatom a d n o) d n o ((List.range 4).map fun i => s.sreadAt a i))

/-- FMCAST with its operands (R300). Log entry 41 (DEDUCED). -/
def State.fmcast (s : State) (i : Instr) (d : BitVec 6) (p : BPol) (n : Bool) (o : List W64) : State :=
  let w1 := o.getD 1 0
  let w2 := o.getD 2 0
  let len := wbits w2 0 32
  let off := wbits w2 32 20
  let grp := wbits w1 0 12
  let c := s.context s.curTeam.ctx
  let entry := (s.fabric.mcast.find grp).filter fun e => decide (e.1 = c.ftag) && decide (c.mfirst ≤ grp) && decide (grp < c.mfirst + c.mcnt)
  if (o.getD 0 0).toNat % 16 ≠ 0 ∨ len % 16 ≠ 0 ∨ wbits w2 52 12 ≠ 0 ∨ wbits w1 28 36 ≠ 0 ∨ off % 16 ≠ 0 ∨ 2 ^ 20 < off + len
    ∨ (o.getD 3 0).toNat % 16 ≠ 0 then s.sput d 0x10
  else
    match entry with
    | none => s.sput d 0x18
    | some (_, ms) => s.fabTake i d o (s.newXfer .mcast (bpol p) n o ms
        ((List.range ms.length).flatMap fun m => packetsOf len m))
/-- FMCAST (R300). -/
def execFmcast (a d : BitVec 6) (p : BPol) (n : Bool) (s : State) : Out :=
  .next (s.fmcast (.fmcast a d p n) d p n ((List.range 4).map fun i => s.sreadAt a i))

/-- TAG_STALL_END (R292): a tag has freed. -/
def execTagStallEnd (g : Nat) (s : State) : Out :=
  let s := s.asGroup g
  if s.cur.freeTag = none then .next s
  else
    match s.waiting with
    | some { instr := .fput a d p f n, aux := o, .. } => .next (s.fput (.fput a d p f n) d p f n o)
    | some { instr := .fget a d p n, aux := o, .. } => .next (s.fget (.fget a d p n) d p n o)
    | some { instr := .fatom a d n f, aux := o, .. } => .next (s.fatom (.fatom a d n f) d n f o)
    | some { instr := .fmcast a d p n, aux := o, .. } => .next (s.fmcast (.fmcast a d p n) d p n o)
    | _ => .next s

/-- FSTAT at issue and at each re-check (R302). -/
def State.fstat (s : State) (a d : BitVec 6) (w : W64) : State :=
  let tag := wbits w 0 4
  match (s.cur.tags.find tag).filter fun t => !t.nost with
  | none => s.sput d 0x10
  | some t =>
    match s.xfer? t.xfer with
    | none => s.sput d 0x10
    | some x =>
      if x.complete && !s.sideOut (.xfer t.xfer) then
        let s := s.modCur fun g => { g with tags := g.tags.erase tag }
        ({ s with fabric := { s.fabric with xfers := s.fabric.xfers.erase t.xfer } } : State).sput d x.word
      else if w.getLsbD 8 then s.swaitOn { instr := .fstat a d, aux := [w] }
      else s.sput d 0xFF

/-- FSTAT (R302). -/
def execFstat (a d : BitVec 6) (s : State) : Out :=
  let w := s.sread a
  .next (if w.toNat % 256 / 16 ≠ 0 ∨ 512 ≤ w.toNat then s.sput d 0x10 else s.fstat a d w)

/-- FSTAT_RELEASE (R302). -/
def execFstatRelease (g : Nat) (s : State) : Out :=
  let s := s.asGroup g
  match s.waiting with
  | some { instr := .fstat a d, aux := [w], .. } => .next (s.fstat a d w)
  | _ => .next s

/-! ## Packets at the target -/

/-- Acknowledge a window put to its source. -/
def ackPut (src : Nat) (r : Nat × Nat × State) : State := r.2.2.reply src r.1 r.2.1 0 0 []

/-- A packet of this device to itself arrives: a put with its bytes, or a request sent again. Log entry 77 (DEDUCED). -/
def State.loopPut (s : State) (n i : Nat) (x : Xfer) (p : Pkt) : State :=
  match x.kind with
  | .put true =>
    (match s.remotePieces (s.xferAcc x) .write (x.ops.getD 1 0 + BitVec.ofNat 64 p.off) p.len 0 3 with
     | (.error (c, o), s) => s.setPkt n i (.failed c (p.off + o))
     | (.ok ps, s) =>
      match s.addrPut 0 (cutPieces ps p.body) with
      | some (w, s) => (s.sawWts x.ctx w).setPkt n i (.acked false)
      | none => s.setPkt n i (p.st.refused s.timeNs))
  | .get | .atom _ => s.requestHere n i x p
  | _ =>
    let wtag := if x.kind = .mcast then wbits (x.ops.getD 1 0) 12 16 else wbits (x.ops.getD 1 0) 18 16
    let off := wbits (x.ops.getD 2 0) 32 20
    let r := s.windowPut (s.context x.ctx).ftag wtag off p.off p.body
    if r.1 = 0 then r.2.2.setPkt n i (.acked false)
    else if r.1 = 4 then r.2.2.setPkt n i (.acked true)
    else r.2.2.setPkt n i (.failed r.1 r.2.1)

/-- PUT_PACKET_ARRIVAL (R296, R297). Log entry 73 (DEDUCED). -/
def execPutPacketArrival (p : PutIn) (s : State) : Out :=
  match p with
  | .window src ftag wtag offset off bytes => .next (ackPut src (s.windowPut ftag wtag offset off bytes))
  | .addr src rt pieces count =>
    let win := count.bind fun c => s.fabric.windows.find? fun x => decide (x.ftag = c.1) && decide (x.wtag = c.2)
    if count ≠ none ∧ win = none then .next (s.reply src 0x22 0 0 0 [])
    else
      match s.addrPut rt pieces with
      | none => .next (s.reply src retryCode 0 0 0 [])
      | some (w, s) =>
        let n := pieces.foldl (fun n q => n + q.2.length) 0
        let s := match win with
          | some x => s.countBytes x.team x.counter n
          | none => s
        .next (s.reply src 0 0 w 0 [])
  | .loop n i =>
    match s.xfer? n with
    | none => .next s
    | some x =>
      match x.pkts[i]? with
      | some q => .next (if q.st.inFlight && decide (q.dst = s.fabric.devid) then s.loopPut n i x q else s)
      | none => .next s

/-- FGET_REQUEST (R298). -/
def execFgetRequest (src addr len : Nat) (rt : W48) (s : State) : Out :=
  if len = 0 ∨ s.mem.present addr len then
    let r := s.mem.devRead rt (lineParts (BitVec.ofNat 64 addr) len (len / 64 + 2))
    .next (({ s with mem := r.2.2 } : State).reply src 0 0 r.2.1 0 r.1)
  else .next (s.reply src retryCode 0 0 0 [])

/-- FATOM_REQUEST (R299). -/
def execFatomRequest (src addr : Nat) (op : FOp) (b cmp : W64) (rt : W48) (s : State) : Out :=
  if s.mem.present addr 8 then
    let r := s.mem.fatomAt addr (fopOf (fopCode op) b cmp) rt
    .next (({ s with mem := r.2.2 } : State).reply src 0 0 r.2.1 0 (leBytes 8 r.1.toNat))
  else .next (s.reply src retryCode 0 0 0 [])

/-- REMOTE_ACCESS_REQUEST (R306 to R308, R456). Log entry 43 (DEDUCED). -/
def execRemoteAccessRequest (src addr : Nat) (op : PeerOp) (rt : W48) (s : State) : Out :=
  if !s.mem.present addr 1 then .next (s.reply src retryCode 0 0 0 [])
  else
    let k := lineKey 3 0 addr
    match op with
    | .read =>
      let m := (s.mem.bring k 0).homeRead k rt
      let l := m.l2.get {} k
      .next (({ s with mem := m } : State).reply src 0 0 l.wts l.rts (leBytes 128 l.data.toNat))
    | .write bytes =>
      let r := s.mem.devWrite rt (lineParts (BitVec.ofNat 64 addr) bytes.length (bytes.length / 64 + 2)) bytes 0
      .next (({ s with mem := r.1 } : State).reply src 0 0 r.2 0 [])
    | .atom o ty b =>
      let r := s.mem.fatomAt addr (.op o ty b.toNat) rt
      .next (({ s with mem := r.2.2 } : State).reply src 0 0 r.2.1 0 (leBytes 8 r.1.toNat))
    | .cas wide cmp new =>
      let r := s.mem.fatomAt addr (.cas wide cmp.toNat new.toNat) rt
      .next (({ s with mem := r.2.2 } : State).reply src 0 0 r.2.1 0 (leBytes 8 r.1.toNat))

/-! ## Answers at the sender -/

/-- A far result of a group that waits for peer request n gets its value. -/
def State.peerFar (s : State) (gid n : Nat) (val : Nat → Ext → W64) : State :=
  let land := fun (f : Far) => match f.src with
    | .peer t b e => if t = n then { f with src := FarSrc.value (val b e) } else f
    | _ => f
  s.modGroup gid fun g => { g with far := g.far.map land }

/-- The answer of an access to a peer (R306, R308): a load keeps its line in L2 but where a later store has overtaken it (R120); a line
an engine has asked for stands ready for it. -/
def State.peerAnswer (s : State) (n : Nat) (r : Req) (a : AckIn) : State :=
  let s := match a with
    | .ok w _ | .line _ w _ | .value _ w => s.sawWts r.ctx w
    | .fail _ _ => s
  let keepReq := fun (s : State) (r : Req) => { s with fabric := { s.fabric with reqs := s.fabric.reqs.insert n r } }
  let give := fun (s : State) (v : Nat → Ext → W64) =>
    match r.waiter with
    | .far gid => ((s.peerFar gid n v).dropPeer n).acquired r
    | .scalar gid => if s.ownWait gid onPeer n then keepReq s { r with ans := some (v r.bytes .zero) } else s.dropPeer n
    | .copy t c g => if r.kind = .write then (s.dropPeer n).unitDone t c g false else s.dropPeer n
    | .xfer x => (s.dropPeer n).resumeXfer x
    | _ => s.dropPeer n
  match a with
  | .line data w rts =>
    let k := lineKey 2 r.peer r.addr
    let keep := decide (r.pol ≠ 1) && decide (r.kind = .read) && !r.stale
    let s := if keep then { s with mem := s.mem.install k { data := data, wts := w, rts := rts, remote := true } } else s
    let s := if keep && decide (r.pol = 2) then { s with mem := s.mem.demote 0 k } else s
    let near := match r.waiter with
      | .far _ | .prefl _ _ => true
      | .scalar gid => s.ownWait gid onPeer n
      | _ => false
    if near then give s fun b e => BitVec.ofNat 64 (widen e b (lget data (r.addr % 128) b))
    else
      match r.waiter with
      | .xfer x => (keepReq s { r with line := some data }).resumeXfer x
      | _ => keepReq s { r with line := some data }
  | .value v _ => give s fun b _ => BitVec.ofNat 64 (v.toNat % 2 ^ (8 * b))
  | .ok _ _ => give s fun _ _ => 0
  | .fail _ _ => give s fun _ _ => 0

/-- A write of a transfer's local side is lost at a peer: the packet that it is a part of fails (R301). Log entry 88 (DEDUCED). -/
def State.sideLost (s : State) (n : Nat) (va : W64) (code : Nat) : State :=
  match s.xfer? n with
  | none => s
  | some x =>
    match x.kind with
    | .get =>
      let o := (va - x.ops.getD 0 0).toNat
      (match x.pkts.zipIdx.find? fun p => decide (p.1.off ≤ o) && decide (o < p.1.off + p.1.len) with
       | some (_, i) => s.setPkt n i (.failed code o)
       | none => s)
    | .atom _ => s.setPkt n 0 (.failed 0x01 0)
    | _ => s

/-- An access to a peer ends without an answer (R306, R456): what its issuer sees; an engine sees the failure when it looks for the
answer. Log entry 88 (DEDUCED). -/
def State.peerGone (s : State) (n : Nat) (r : Req) (cause copy fab : Nat) : State :=
  let own := match r.waiter with
    | .scalar gid => s.ownWait gid onPeer n
    | _ => false
  let s := s.dropPeer n
  match r.waiter with
  | .far gid => ((s.peerFar gid n fun _ _ => 0).stickyFabric r.ctx).acquired r
  | .store c => s.stickyFabric c
  | .scalar gid => if own then s.scalarTrapIn gid cause r.va else s.deny r cause
  | .copy t c g => s.endSlice t c g copy
  | .xfer x => if r.kind = .read then (s.deny r cause).resumeXfer x else (s.sideLost x r.va fab).settleXfer x
  | .prefl _ _ => s
  | .cmd _ => if r.kind = .read ∨ r.kind = .write then s.deny r cause else s.stickyFabric r.ctx
  | .eland j => (match s.jobs.find j with
    | some k => { s with jobs := s.jobs.insert j (k.blockLost 0x01) }
    | none => s)
  | _ => s.deny r cause

/-- PACKET_ACK (R301, R306). -/
def execPacketAck (r : PktRef) (a : AckIn) (s : State) : Out :=
  match r with
  | .req n => (match s.fabric.reqs.find n with
    | some q => .next (s.peerAnswer n q a)
    | none => .next s)
  | .xfer n i =>
    (match s.xfer? n with
    | none => .next s
    | some x =>
      match x.pkts[i]? with
      | none => .next s
      | some p =>
        if !p.st.inFlight then .next s
        else
          match a with
          | .ok w f => .next ((s.sawWts x.ctx w).setPkt n i (.acked f))
          | .value v w => .next ((s.sawWts x.ctx w).atomResult n x v)
          | .line _ _ _ => .next s
          | .fail c o => .next (s.setPkt n i (.failed c o)))
  | .chunk job num i =>
    (match s.jobs.find job with
    | none => .next s
    | some j =>
      let st := match a with
        | .fail c o => PktState.failed c o
        | .ok _ f => .acked f
        | _ => .acked false
      let s := match a with
        | .ok w _ => s.sawWts j.ctx w
        | _ => s
      let upd := fun (c : Chunk) => if c.num = num then { c with pkts := c.pkts.mapIdx fun k p => if k = i ∧ !p.st.final then { p with st := st } else p } else c
      .next { s with jobs := s.jobs.insert job { j with chunks := j.chunks.map upd } })

/-- FGET_RESPONSE (R298, R308). -/
def execFgetResponse (n pkt : Nat) (bytes : List Byte) (wts : W48) (s : State) : Out :=
  match s.xfer? n with
  | none => .next s
  | some x =>
    match x.pkts[pkt]? with
    | some p => .next (if p.st.inFlight && decide (x.kind = .get) then (s.sawWts x.ctx wts).getResult n pkt x p bytes else s)
    | none => .next s

/-- An access on its way again. -/
def inFlight : W64 := 0xFFFFFFFFFFFFFFFF

/-- A packet refused for 100 µs (R297). -/
def PktState.absent (st : PktState) (now : W64) (off : Nat) : PktState :=
  match st with
  | .retry first _ _ => if first.toNat + 100000 ≤ now.toNat then .failed 0x21 off else st
  | st => st
/-- A packet with no acknowledgement for 1 ms (R301). -/
def PktState.timedOut (st : PktState) (now : W64) (off : Nat) : PktState :=
  match st with
  | .sent t | .again t _ _ => if t.toNat + 1000000 ≤ now.toNat then .failed 0x24 off else st
  | st => st

/-- Change the state of a packet of a transfer or a chunk. -/
def State.onPkt (s : State) (r : PktRef) (f : PktState → Nat → PktState) : State :=
  match r with
  | .xfer n i => (match (s.xfer? n).bind fun x => x.pkts[i]? with
    | some p => s.setPkt n i (f p.st p.off)
    | none => s)
  | .chunk job num i => (match s.jobs.find job with
    | some j =>
      let upd := fun (c : Chunk) => if c.num = num then { c with pkts := c.pkts.mapIdx fun k p => if k = i then { p with st := f p.st p.off } else p } else c
      { s with jobs := s.jobs.insert job { j with chunks := j.chunks.map upd } }
    | none => s)
  | .req _ => s

/-- The team of a packet is stopped or to stop, so that the packet's timers rest (R310). -/
def State.pktHeld (s : State) (r : PktRef) : Bool :=
  let t := match r with
    | .xfer n _ => (s.xfer? n).map fun (x : Xfer) => x.team
    | .chunk job _ _ => (s.jobs.find job).map fun (j : Job) => j.team
    | .req _ => none
  (t.map fun t => (s.team t).stopping || (s.team t).saved).getD false

/-- RT as the request of a packet carries it (R308), and whether the packet is of the ordered class (R290). -/
def State.pktClass (s : State) (r : PktRef) : W64 × Bool :=
  match r with
  | .xfer n _ => (match s.xfer? n with
    | some x => ((s.context x.ctx).rt.setWidth 64, match x.kind with | .atom _ => true | _ => false)
    | none => (0, false))
  | .chunk job _ _ => (match s.jobs.find job with
    | some j => ((s.context j.ctx).rt.setWidth 64, false)
    | none => (0, false))
  | .req _ => (0, true)

/-- A packet of a transfer or a chunk, and the words its message begins with. -/
def State.pktOf (s : State) (r : PktRef) : Option (Pkt × List W64) :=
  match r with
  | .xfer n i => ((s.xfer? n).bind fun x => x.pkts[i]?).map fun p => (p, [1, BitVec.ofNat 64 n, BitVec.ofNat 64 i])
  | .chunk job num i =>
    (((s.jobs.find job).bind fun j => j.chunks.find? fun c => decide (c.num = num)).bind fun c => c.pkts[i]?).map fun p =>
      (p, [3, BitVec.ofNat 64 job, BitVec.ofNat 64 num, BitVec.ofNat 64 i])
  | .req _ => none

/-- RETRY_LATER (R297, R456). -/
def execRetryLater (r : PktRef) (s : State) : Out :=
  match r with
  | .req n => (match s.fabric.reqs.find n with
    | some q =>
      let q := { q with refusedAt := some (q.refusedAt.getD s.timeNs), due := s.timeNs + BitVec.ofNat 64 (backoff q.tries), tries := q.tries + 1 }
      .next { s with fabric := { s.fabric with reqs := s.fabric.reqs.insert n q } }
    | none => .next s)
  | r => .next (s.onPkt r fun st _ => st.refused s.timeNs)

/-- A refused access is sent again when its delay is over, up to 100 µs after the first refusal (R456); a peer that has become
unreachable ends it (R311). Log entry 88 (DEDUCED). -/
def State.resendReq (s : State) (n : Nat) (q : Req) : State :=
  match q.refusedAt with
  | none => s
  | some first =>
    if q.due = inFlight ∨ s.timeNs.toNat < q.due.toNat ∨ first.toNat + 100000 ≤ s.timeNs.toNat then s
    else if !s.reach q.peer then s.peerGone n q 0x11 0x07 0x07
    else s.sendReq n { q with due := inFlight }

/-- RESEND_TIMER (R297, R456). -/
def execResendTimer (r : PktRef) (s : State) : Out :=
  match r with
  | .req n => (match s.fabric.reqs.find n with
    | some q => .next (s.resendReq n q)
    | none => .next s)
  | r =>
    match s.pktOf r with
    | some (p, words) =>
      (match p.st with
       | .retry first due n =>
         let c := s.pktClass r
         if s.pktHeld r ∨ s.timeNs.toNat < due.toNat ∨ first.toNat + 100000 ≤ s.timeNs.toNat then .next s
         else if !s.reach p.dst then .next (s.onPkt r fun _ o => .failed 0x07 o)
         else .next ((s.onPkt r fun _ _ => .again s.timeNs first n).sendMsg p.dst 0 p.body.length c.2 (words ++ [c.1]) (bodyMap p.body))
       | _ => .next s)
    | none => .next s

/-- NOT_PRESENT_TIMEOUT (R297, R456): 100 µs after the first refusal, with nothing on its way. -/
def execNotPresentTimeout (r : PktRef) (s : State) : Out :=
  match r with
  | .req n => (match s.fabric.reqs.find n with
    | some q =>
      let late := (q.refusedAt.map fun t => decide (t.toNat + 100000 ≤ s.timeNs.toNat)).getD false && decide (q.due ≠ inFlight)
      .next (if late then s.peerGone n q 0x06 0x01 0x21 else s)
    | none => .next s)
  | r => .next (if s.pktHeld r then s else s.onPkt r fun st o => st.absent s.timeNs o)

/-- FABRIC_TIMEOUT (R301): 1 ms after the packet's last send; one that still waits in a queue has not been sent. -/
def execFabricTimeout (r : PktRef) (s : State) : Out :=
  let waits := match s.pktOf r with
    | some (_, ws) => s.queued ws
    | none => false
  .next (if waits then s else s.onPkt r fun st o => st.timedOut s.timeNs o)

/-- REMOTE_ACCESS_TIMEOUT (R306): 1 ms after the last send. -/
def execRemoteAccessTimeout (n : Nat) (s : State) : Out :=
  match s.fabric.reqs.find n with
  | some q => .next (if !q.answered ∧ !s.queued [2, BitVec.ofNat 64 n] ∧ q.sent.toNat + 1000000 ≤ s.timeNs.toNat then s.peerGone n q 0x12 0x08 0x24 else s)
  | none => .next s

/-! ## Links (R285 to R288, R311) -/

/-- Depth of a virtual channel of a link (R288): links 0 to 30 are local. -/
def vcDepth (l : Nat) : Nat := if l < 31 then 64 else 256

/-- The return counts of a valid header are taken (R288). -/
def Link.takeRets (k : Link) (depth : Nat) (rets : List (BitVec 16)) : Link :=
  (rets.take 8).zipIdx.foldl (fun k p =>
    if (p.1 - k.ret.get 0 p.2).toNat ≤ depth then { k with ret := k.ret.put 0 p.2 p.1 } else k) k

/-- Slots of a virtual channel are returned to the far end (R288). -/
def Link.returns (k : Link) (v n : Nat) : Link := { k with mine := k.mine.put 0 v (k.mine.get 0 v + BitVec.ofNat 16 n) }

/-- The slots a passing packet still keeps are returned, n of them (R288, R311). -/
def Fabric.freeSlots (f : Fabric) (m : OutMsg) (n : Nat) : Fabric :=
  match m.holds with
  | some (l, v) => f.modLink l fun k => k.returns v n
  | none => f

/-- A message left without a route is dropped (R291, R311): its packet completes PEER_UNREACHABLE, and an access ends
unperformed. Log entry 88 (DEDUCED). -/
def State.dropMsg (s : State) (m : OutMsg) : State :=
  let at_ := fun (i : Nat) => ((m.words[i]?).getD 0).toNat
  let s : State := { s with fabric := s.fabric.freeSlots m m.flits }
  match at_ 0 with
  | 1 => s.onPkt (.xfer (at_ 1) (at_ 2)) fun st o => if st.final then st else .failed 0x07 o
  | 2 => (match s.fabric.reqs.find (at_ 1) with
    | some q => s.peerGone (at_ 1) q 0x11 0x07 0x07
    | none => s)
  | 3 => s.onPkt (.chunk (at_ 1) (at_ 2) (at_ 3)) fun st o => if st.final then st else .failed 0x07 o
  | _ => s

/-- A message goes to the link its route takes next (R289, R291); with none that could carry it, it is dropped. -/
def State.route (s : State) (m : OutMsg) : State :=
  match (s.fabric.next m).filter fun l => decide ((s.fabric.link l).phase ≠ .down) with
  | some l => { s with fabric := s.fabric.enqueue l m }
  | none => s.dropMsg m

/-- The virtual channel on which a packet that came in on channel v leaves this device (R287): its phase rises by one where it came
over a global link; management traffic stays on VC 3. -/
def passVc (link v : Nat) : Nat := if link < 31 ∨ v = 3 then v else v / 4 * 4 + min (v % 4 + 1) 2

/-- A valid flit of a packet arrives: that of a packet for this device is consumed; that of another waits until the packet is whole and
is passed on (R287 to R289). Log entry 76 (DEDUCED). -/
def State.takeFlit (s : State) (link v : Nat) (f : Flit) : State :=
  let k := s.fabric.link link
  let passing := if f.start then
      (f.head.filter fun h => decide (h.dst ≠ s.fabric.devid)).map fun h =>
        (h.flits - 1, ({ num := 0, dst := h.dst, vc := passVc link v, flits := h.flits, src := h.src, via := h.via,
                         holds := some (link, v) } : OutMsg))
    else (k.through.find v).map fun t => (t.1 - 1, t.2)
  let put := fun (k : Link) => ({ s with fabric := { s.fabric with links := s.fabric.links.insert link k } } : State)
  match passing with
  | none => put (k.returns v 1)
  | some (0, m) => (put { k with through := k.through.erase v }).route m
  | some (n, m) => put { k with through := k.through.insert v (n, m) }

/-- FLIT_RECEIVE (R286 to R288): a flit that is bad or out of order is discarded, and a retry request for the expected SEQ is sent, once
for each bad flit. Log entry 76 (DEDUCED). -/
def execFlitReceive (link : Nat) (f : Flit) (s : State) : Out :=
  let k := s.fabric.link link
  if k.phase ≠ .up ∧ k.phase ≠ .draining then .next s
  else if !f.good || decide (f.seq ≠ k.ack + 1) then
    let asks := if !f.good || !k.discarding then [k.ack + 1] else []
    .next { s with fabric := s.fabric.modLink link fun k => { k with discarding := true, asked := k.asked ++ asks } }
  else
    let v := f.vc.val
    let k := (k.takeRets (vcDepth link) f.rets)
    let k := { k with ack := f.seq, discarding := false, lastValid := s.timeNs }
    let k := if f.mark && decide (v ≠ 7) then { k with marks := if k.marks.contains v then k.marks else k.marks ++ [v] } else k
    let s : State := { s with fabric := { s.fabric with links := s.fabric.links.insert link k } }
    .next (if v = 7 ∨ f.init then s
      else if f.mark then { s with fabric := s.fabric.modLink link fun k => k.returns v 1 }
      else s.takeFlit link v f)

/-- The first message of a virtual channel loses a flit; sent whole, it leaves the queue. -/
def dropFlit (vc : Nat) : List OutMsg → List OutMsg
  | [] => []
  | m :: r => if m.vc = vc then (if m.flits ≤ 1 then r else { m with flits := m.flits - 1, started := true } :: r) else m :: dropFlit vc r

/-- The link after a flit of a channel has left. Log entry 76 (DEDUCED). -/
def Link.sends (k : Link) (v : Nat) : Link :=
  let kept := k.kept ++ [(k.seq + 1, v)]
  { k with seq := k.seq + 1, sent := k.sent.put 0 v (k.sent.get 0 v + 1), kept := kept.drop (kept.length - 512) }

/-- A packet's time on its way begins anew, as its last flit leaves (R301, R306). -/
def PktState.leaves (st : PktState) (now : W64) : PktState :=
  match st with
  | .sent _ => .sent now
  | .again _ first n => .again now first n
  | st => st

/-- A message has left whole: what it carries counts as sent from now on (R301, R306, R456). -/
def State.stampMsg (s : State) (m : OutMsg) : State :=
  let at_ := fun (i : Nat) => ((m.words[i]?).getD 0).toNat
  match at_ 0 with
  | 1 => s.onPkt (.xfer (at_ 1) (at_ 2)) fun st _ => st.leaves s.timeNs
  | 2 => (match s.fabric.reqs.find (at_ 1) with
    | some q => { s with fabric := { s.fabric with reqs := s.fabric.reqs.insert (at_ 1) { q with sent := s.timeNs } } }
    | none => s)
  | 3 => s.onPkt (.chunk (at_ 1) (at_ 2) (at_ 3)) fun st _ => st.leaves s.timeNs
  | _ => s

/-- FLIT_SEND (R286 to R288, R311): after a relock the INIT flit goes first, and what a retry request named goes again; then a flit
leaves while the allowance has room; a draining link sends what has started, then a drain marker on each channel that carries
packets. Log entry 76 (DEDUCED). -/
def execFlitSend (link : Nat) (vc : Fin 8) (s : State) : Out :=
  let k := s.fabric.link link
  let v := vc.val
  let room := decide ((k.sent.get 0 v - k.ret.get 0 v).toNat < vcDepth link)
  let first := k.queue.find? fun m => decide (m.vc = v)
  let put := fun (k : Link) => ({ s with fabric := { s.fabric with links := s.fabric.links.insert link k } } : State)
  if k.phase ≠ .up ∧ k.phase ≠ .draining then .next s
  else if k.initDue then .next (put { k with seq := k.seq + 1, initDue := false })
  else if k.resend ≠ [] then .next (put { k with resend := k.resend.drop 1 })
  else if !room then .next s
  else
    match first.filter fun m => decide (k.phase = .up) || m.started with
    | some m =>
      let s := put { k.sends v with queue := dropFlit v k.queue }
      let s : State := { s with fabric := s.fabric.freeSlots m 1 }
      .next (if m.flits ≤ 1 then s.stampMsg m else s)
    | none =>
      .next (if k.phase = .draining ∧ v < 7 ∧ !k.marksOut.contains v then put { k.sends v with marksOut := k.marksOut ++ [v] } else s)

/-- RETRY_REQUEST (R286): flits from the named SEQ are sent again, in order; the sender counts requests for one SEQ. -/
def execRetryRequest (link : Nat) (seq : BitVec 16) (s : State) : Out :=
  .next { s with fabric := s.fabric.modLink link fun k =>
    { k with retries := if k.retrySeq = seq then k.retries + 1 else 1, retrySeq := seq,
             resend := k.kept.dropWhile fun p => decide (p.1 ≠ seq) } }

/-- A message that waits on link l must find another way (R291, R311): its link is down; or it has not started, and its link is not up
or on no way to its device any more. -/
def Fabric.stuck (f : Fabric) (l : Nat) (k : Link) (m : OutMsg) : Bool :=
  decide (k.phase = .down) || (!m.started && (decide (k.phase ≠ .up) || !(f.ways m).contains l))

/-- Messages whose way is gone are rerouted whole, or dropped; accesses that wait to be sent again to a device without a route end
(R291, R311). Log entry 88 (DEDUCED). -/
def State.rerouteAll (s : State) : State :=
  let f := s.fabric
  let stuck := f.links.flatMap fun p => (p.2.queue.filter (f.stuck p.1 p.2)).map fun m => { m with flits := m.all, started := false }
  let links := f.links.map fun p => (p.1, { p.2 with queue := p.2.queue.filter fun m => !f.stuck p.1 p.2 m })
  let s : State := { s with fabric := { f with links := links } }
  let s := stuck.foldl State.route s
  (s.fabric.reqs.filter fun p => decide (p.2.refusedAt ≠ none) && decide (p.2.due ≠ inFlight) && !s.reach p.2.peer).foldl
    (fun s p => s.peerGone p.1 p.2 0x11 0x07 0x07) s

/-- Messages that stand on a link that is down are rerouted or dropped at once (R291). -/
def State.rerouteDown (s : State) : State :=
  if s.fabric.links.any (fun p => decide (p.2.phase = .down) && decide (p.2.queue ≠ [])) then s.rerouteAll else s

/-- LINK_DOWN (R286, R291): after 16 retry requests for one SEQ, or 1 ms without a valid flit; what waits on the link is rerouted. -/
def execLinkDown (link : Nat) (s : State) : Out :=
  let k := s.fabric.link link
  if k.phase ≠ .down ∧ (16 ≤ k.retries ∨ k.lastValid.toNat + 1000000 ≤ s.timeNs.toNat) then
    .next ({ s with fabric := s.fabric.modLink link fun k =>
      { k with phase := .down, retries := 0, resend := [], through := [] } } : State).rerouteAll
  else .next s

/-- RECONFIG_DRAIN (R311): the named links take no new packet and send their markers. Log entry 76 (DEDUCED). -/
def execReconfigDrain (links : List Nat) (s : State) : Out :=
  .next (links.foldl (fun s l => { s with fabric := s.fabric.modLink l fun k =>
    if k.phase = .up then { k with phase := .draining, marks := [], marksOut := [] } else k }) s)

/-- LINK_DARK (R311): the markers of the seven channels have come back. Log entry 76 (DEDUCED). -/
def execLinkDark (link : Nat) (s : State) : Out :=
  let k := s.fabric.link link
  if k.phase = .draining ∧ (List.range 7).all fun v => k.marks.contains v then
    .next { s with fabric := s.fabric.modLink link fun k => { k with phase := .dark } }
  else .next s

/-- INIT_HEADER (R288, R311): after training or relock both counts are the far end's returns, with nothing outstanding; this end's own
INIT flit is due. -/
def execInitHeader (link : Nat) (rets : List (BitVec 16)) (s : State) : Out :=
  let counts := (rets.take 8).zipIdx.foldl (fun (m : SMap (BitVec 16)) p => m.put 0 p.2 p.1) []
  let k := s.fabric.link link
  if k.phase = .dark ∨ k.phase = .relock ∨ k.phase = .down then
    .next { s with fabric := s.fabric.modLink link fun k =>
      { k with phase := .up, sent := counts, ret := counts, discarding := false, retries := 0, resend := [], initDue := true, lastValid := s.timeNs } }
  else .next s

/-- ROUTE_TABLE_INSTALL (R283, R289, R291, R311): `up`: the local links that are up. -/
def execRouteTableInstall (routes : RouteTables) (up : List (Nat × Bool)) (s : State) : Out :=
  let table := fun (l : List (Nat × List Nat)) => l.foldl (fun (m : SMap (List Nat)) p => m.insert p.1 p.2) []
  let lu := up.foldl (fun (m : SMap Bool) p => m.insert p.1 p.2) []
  .next ({ s with fabric := { s.fabric with routes := table routes.links, localUp := lu, mids := table routes.mids, absent := routes.absent } } : State).rerouteAll

end Sys2Proof.Machine
end

