-- ==== Sys2Proof/Machine/SysScalar.lean ====
section
/-! DEFINITION. Scalar system instructions (R402 to R410): SRD and SWR, TLBI, PGCTL, LEASEOP, KEYOP, SHALT, STRAP, STRET. -/

namespace Sys2Proof.Machine

/-! ## SRD and SWR (R397, R409) -/

/-- CTXSTAT of a context (Table 20-4). -/
def Context.stat (c : Context) : Nat :=
  (if c.illegal then 1 else 0) + (if c.latch then 2 else 0) + (if c.fabric then 4 else 0) + (if c.killed then 8 else 0) + c.cause.toNat * 256

/-- Read a scalar system register. -/
def State.srd (s : State) (i : Nat) : W64 :=
  let g := s.cur
  match i with
  | 0 => BitVec.ofNat 64 g.stlevel
  | 1 => g.st1.cause
  | 2 => g.st1.pc
  | 3 => g.st1.val
  | 4 => g.st2.cause
  | 5 => g.st2.pc
  | 6 => g.st2.val
  | 8 => BitVec.ofNat 64 (s.context s.curTeam.ctx).stat
  | 9 => s.pager.base
  | 10 => s.pager.put ++ s.pager.take
  | _ => 0

/-- Each 1 written to CTXSTAT clears its bit (R4). Log entry 46 (DEDUCED). -/
def Context.clear (c : Context) (v : W64) : Context :=
  { c with illegal := c.illegal && !v.getLsbD 0, latch := c.latch && !v.getLsbD 1, fabric := c.fabric && !v.getLsbD 2,
           killed := c.killed && !v.getLsbD 3, cause := c.cause &&& ~~~((v >>> 8).setWidth 6) }

/-- The team a handle names (R413): core and team slot. -/
def State.teamOf (s : State) (h : W64) : Option Nat :=
  (s.teams.find? fun p => decide (p.2.core = wbits h 16 9) && decide (p.2.tslot = wbits h 0 4) && !p.2.saved && !p.2.lost).map (·.1)

/-- A write to PREEMPT (R414): the team stops. -/
def State.stopTeam (s : State) (h : W64) : State :=
  match s.teamOf h with
  | some t => if (s.team t).stopping then s else s.haltTeam t
  | none => s

/-- A write to PGRESP (R407). -/
def State.pgresp (s : State) (v : W64) : Out :=
  match wbits v 0 2 with
  | 1 => execPgrespResume v s
  | 2 => execPgrespFail v s
  | 3 => execPgrespFatal v s
  | _ => .next s

/-- Write a scalar system register. -/
def State.swr (s : State) (i : Nat) (v : W64) : Out :=
  match i with
  | 2 => .next (s.modCur fun g => { g with st1 := { g.st1 with pc := v } })
  | 3 => .next (s.modCur fun g => { g with st1 := { g.st1 with val := v } })
  | 5 => .next (s.modCur fun g => { g with st2 := { g.st2 with pc := v } })
  | 6 => .next (s.modCur fun g => { g with st2 := { g.st2 with val := v } })
  | 8 => .next (s.modContext s.curTeam.ctx fun c => c.clear v)
  | 10 => .next (({ s with pager := { s.pager with take := v.setWidth 32 } } : State).postAll s.pager.waiting.length)
  | 11 => s.pgresp v
  | 12 => .next (s.stopTeam v)
  | _ => .next s

/-- SRD (R409). -/
def execSrd (d i : BitVec 6) (s : State) : Out := privileged s (.next (s.sput d (s.srd i.toNat)))
/-- SWR (R409): the stream has gone on before the register acts. -/
def execSwr (a i : BitVec 6) (s : State) : Out := privileged s (s.bump.swr i.toNat (s.sread a))

/-! ## TLBI -/

/-- A SYS instruction's status. -/
def State.sysStatus (s : State) (d : BitVec 6) (c : Nat) : Out := .next (s.sput d (BitVec.ofNat 64 c))

/-- TLBI.va. -/
def execTlbiVa (a d : BitVec 6) (s : State) : Out :=
  privileged s (if !canonical (s.sreadAt a 0) then s.sysStatus d 0x10
    else (s.tlbiVa ((s.sreadAt a 1).toNat % 2 ^ 32) (s.sreadAt a 0)).sysStatus d 0)
/-- TLBI.ctx. -/
def execTlbiCtx (a d : BitVec 6) (s : State) : Out :=
  privileged s ((s.tlbiCtx ((s.sread a).toNat % 2 ^ 32)).sysStatus d 0)
/-- TLBI.pasid. -/
def execTlbiPasid (a d : BitVec 6) (s : State) : Out :=
  privileged s ((s.tlbiPasid ((s.sread a).toNat % 2 ^ 20)).sysStatus d 0)
/-- TLBI.all. -/
def execTlbiAll (_ d : BitVec 6) (s : State) : Out := privileged s (s.tlbiAll.sysStatus d 0)

/-! ## PGCTL -/

/-- PGCTL over its run of frames. -/
def State.pgctl (s : State) (op : PgOp) (a d : BitVec 6) : Out :=
  let n := (s.sreadAt a 1).toNat
  privileged s
    (if n = 0 ∨ 4096 < n then s.sysStatus d 0x10
     else
      let r := s.mem.pgctlRun s.timeNs op (s.sreadAt a 0).toNat 0 n
      ({ s with mem := r.2 } : State).sysStatus d r.1)

/-- PGCTL.pin. -/
def execPgctlPin (a d : BitVec 6) (s : State) : Out := s.pgctl .pin a d
/-- PGCTL.unpin. -/
def execPgctlUnpin (a d : BitVec 6) (s : State) : Out := s.pgctl .unpin a d
/-- PGCTL.evict. -/
def execPgctlEvict (a d : BitVec 6) (s : State) : Out := s.pgctl .evict a d
/-- PGCTL.wb. -/
def execPgctlWb (a d : BitVec 6) (s : State) : Out := s.pgctl .wb a d
/-- PGCTL.carve. -/
def execPgctlCarve (a d : BitVec 6) (s : State) : Out := s.pgctl .carve a d
/-- PGCTL.uncarve. -/
def execPgctlUncarve (a d : BitVec 6) (s : State) : Out := s.pgctl .uncarve a d

/-! ## LEASEOP and KEYOP -/

/-- The stream waits for host or peer data, and then does its instruction again. Log entry 89 (DEDUCED). -/
def State.sagain (s : State) (i : Instr) : State := s.swaitOn { instr := i, tok := 2 ^ 64, aux := [onXlat] }

/-- A privileged instruction that reads n bytes through an address. -/
def State.sysRead (s : State) (i : Instr) (va : W64) (n : Nat) (k : List Byte → State → Out) : Out :=
  match s.engRead s.sacc (.scalar s.curGid) va n with
  | (.ok b, s) => k b s
  | (.fault c, s) => s.scalarTrap c va
  | (.wait, s) => .next (s.sagain i)
/-- A privileged instruction that writes bytes through an address. -/
def State.sysWrite (s : State) (i : Instr) (va : W64) (b : List Byte) (k : State → Out) : Out :=
  match s.engWrite s.sacc (.store s.curTeam.ctx) va b with
  | (.ok _, s) => k s
  | (.fault c, s) => s.scalarTrap c va
  | (.wait, s) => .next (s.sagain i)

/-- A slot of the lease table. -/
def State.leaseSlot (s : State) (a d : BitVec 6) (k : Nat → Out) : Out :=
  privileged s (if 4096 ≤ (s.sread a).toNat then s.sysStatus d 0x10 else k (s.sread a).toNat)

/-- LEASEOP.read. -/
def execLeaseopRead (a d : BitVec 6) (s : State) : Out :=
  s.leaseSlot a d fun n =>
    s.sysWrite (.leaseopRead a d) (s.sreadAt a 1) (wordBytes (s.mem.leaseImage (s.mem.lease n))) fun s => s.sysStatus d 0
/-- LEASEOP.grant. -/
def execLeaseopGrant (a d : BitVec 6) (s : State) : Out :=
  s.leaseSlot a d fun n =>
    s.sysRead (.leaseopGrant a d) (s.sreadAt a 1) 64 fun b s => let r := s.grantLease n b; r.2.sysStatus d r.1
/-- LEASEOP.renew. -/
def execLeaseopRenew (a d : BitVec 6) (s : State) : Out :=
  s.leaseSlot a d fun n => let r := s.renewLease n (s.sreadAt a 1) (s.sreadAt a 2); r.2.sysStatus d r.1
/-- LEASEOP.release. -/
def execLeaseopRelease (a d : BitVec 6) (s : State) : Out :=
  s.leaseSlot a d fun n => let r := s.releaseLease n; r.2.sysStatus d r.1
/-- LEASEOP.revoke. -/
def execLeaseopRevoke (a d : BitVec 6) (s : State) : Out :=
  s.leaseSlot a d fun n => match s.revokeLease n (s.sreadAt a 1) with
    | some s => s.sysStatus d 0
    | none => s.sysStatus d 0x50
/-- LEASEOP.lost. -/
def execLeaseopLost (a d : BitVec 6) (s : State) : Out :=
  s.leaseSlot a d fun n => match s.loseLease n with
    | some s => s.sysStatus d 0
    | none => s.sysStatus d 0x50
/-- LEASEOP.hint (R54): the hint of a page is the pool controller's own, any of 0 to 3 each time it is read. Log entry 100 (DESIGN CHOICE). -/
def execLeaseopHint (a d : BitVec 6) (s : State) : Out :=
  let page := (s.sread a).toNat / 65536
  let hint : BitVec 2 := s.draw.1.setWidth 2
  let t : State := { s.draw.2 with mem := { s.mem with hints := s.mem.hints.put 0 page hint } }
  privileged s (.next (t.sput d (BitVec.ofNat 64 (hint.toNat * 256))))

/-- A key id of KEYOP is 1 to 255. -/
def badKey (w : W64) : Bool := decide (w = 0) || decide (255 < w.toNat)

/-- KEYOP.load (R84, R410). Log entry 89 (DEDUCED). -/
def execKeyopLoad (a d : BitVec 6) (s : State) : Out :=
  let n := s.sread a
  let va := s.sreadAt a 1
  privileged s
    (if badKey n then s.sysStatus d 0x10
     else if (s.mem.keys.find n.toNat).isSome then s.sysStatus d 0x55
     else s.sysRead (.keyopLoad a d) va 64 fun b s =>
      s.sysWrite (.keyopLoad a d) va (List.replicate 64 0) fun s =>
        ({ s with mem := s.mem.loadKey n.toNat (BitVec.ofNat 512 (ofLeBytes b)) } : State).sysStatus d 0)
/-- KEYOP.unload (R86, R410). -/
def execKeyopUnload (a d : BitVec 6) (s : State) : Out :=
  privileged s
    (if badKey (s.sread a) then s.sysStatus d 0x10
     else if (s.mem.keys.find (s.sread a).toNat).isNone then s.sysStatus d 0x56
     else ({ s with mem := s.mem.unloadKey (s.sread a).toNat } : State).sysStatus d 0)

/-! ## The end of a scalar access's wait (R167, R168) -/

/-- A stream does its waiting instruction again: an access whose translation has come is made at once, and so completes or traps
although its team is to stop (R168). -/
def State.redo (s : State) (i : Instr) : Out :=
  let s := s.modCur fun x => { x with swait := none }
  match i with
  | .sld d a z o => execSld d a z o s
  | .sldx d a z o => execSldx d a z o s
  | .sst r a z o => execSst r a z o s
  | .satom d a b o => execSatom d a b o s
  | .leaseopRead a d => execLeaseopRead a d s
  | .leaseopGrant a d => execLeaseopGrant a d s
  | .keyopLoad a d => execKeyopLoad a d s
  | _ => .next s

/-- SCALAR_ACCESS_COMPLETE (R167): the answer to the access a scalar stream waits for has come; a stream that waited
for a translation executes its instruction again. -/
def execScalarAccessComplete (g : Nat) (s : State) : Out :=
  let s := s.asGroup g
  match s.waiting with
  | none => .next s
  | some w =>
    match w.aux with
    | [code] =>
      if code = onXlat then if (s.host.reqs.find w.tok).isSome then .next s else s.redo w.instr
      else
        let reqs := if code = onHost then s.host.reqs else s.fabric.reqs
        match (reqs.find w.tok).bind (·.ans) with
        | none => .next s
        | some v =>
          let s := if code = onHost then s.dropHost w.tok else s.dropPeer w.tok
          .next (s.finishAccess w.instr v.toNat)
    | _ => .next s

/-! ## SHALT -/

/-- SHALT at issue and at each re-check. -/
def State.shalt (s : State) (a d : BitVec 6) (due seen : W64) : State :=
  if seen ≠ 0 then s.sput d seen
  else if due ≠ 0 ∧ due.toNat ≤ s.timeNs.toNat then s.sput d 0
  else s.swaitOn { instr := .shalt a d, aux := [due], seen := seen }

/-- SHALT (R410). -/
def execShalt (a d : BitVec 6) (s : State) : Out := privileged s (.next (s.shalt a d (s.sread a) 0))

/-- SHALT_WAKE (R410). -/
def execShaltWake (g : Nat) (s : State) : Out :=
  let s := s.asGroup g
  match s.waiting with
  | some { instr := .shalt a d, aux := [due], seen := v, .. } => .next (s.shalt a d due v)
  | _ => .next s

/-! ## STRAP and STRET (R403, R405) -/

/-- STRAP (R405). -/
def execStrap (i : BitVec 20) (s : State) : Out := s.scalarTrap 0x14 (i.setWidth 64)

/-- The current level was entered through the user vector (R393). -/
def Group.sviaUser (g : Group) : Bool :=
  let b := if g.stlevel = 1 then g.st1 else g.st2
  decide (0 < g.stlevel) && userClass (b.cause.toNat % 64) && !b.cause.getLsbD 17

/-- STRET (R403): in user mode only at a level entered through the user vector, and never with PARK there. -/
def State.stret (s : State) (how : Return) : Out :=
  if s.cur.mode = .user ∧ !s.cur.sviaUser then privTrap s
  else if s.cur.mode = .user ∧ how = .park then s.kill
  else if s.cur.stlevel = 0 then .fault .returnAtLevelZero
  else .next (s.scalarReturn s.curGid how)

/-- STRET. -/
def execStret (s : State) : Out := s.stret .retry
/-- STRET.skip. -/
def execStretSkip (s : State) : Out := s.stret .skip
/-- STRET.park. -/
def execStretPark (s : State) : Out := s.stret .park

end Sys2Proof.Machine
end

