-- ==== Sys2Proof/Machine/Eland.lean ====
section
/-! DEFINITION. Eland, the layout transfer engine (chapter 16): layout records, the plan, RESHARD and RSWAIT, chunks and
the progress block. -/

namespace Sys2Proof.Machine

/-! ## Layout records (R312 to R315) -/

/-- The product of some numbers. -/
def prod (l : List Nat) : Nat := l.foldl (· * ·) 1

/-- Dimension d of a header. -/
def hdrDim (w : Nat → W64) (d : Nat) : Nat := wbits (w (1 + d / 2)) (32 * (d % 2)) 32
/-- Axis a of a header. -/
def hdrAxis (w : Nat → W64) (a : Nat) : Nat := wbits (w 5) (16 * a) 16
/-- Map byte d of a header. -/
def hdrMap (w : Nat → W64) (d : Nat) : Nat := wbits (w 6) (8 * d) 8
/-- NDEV of a header, or 0 where it is out of range. -/
def hdrNdev (w : Nat → W64) : Nat := if wbits (w 0) 32 32 ≤ 262144 then wbits (w 0) 32 32 else 0
/-- The axis a map byte names, when it is sharded. -/
def mapAxis (b : Nat) : Option Nat := if b / 128 = 1 then some (b % 4) else none

/-- No number occurs twice. -/
def distinct : List Nat → Bool
  | [] => true
  | x :: r => !r.contains x && distinct r

/-- The header's fields are in range (Table 16-1). -/
def headerOk (w : Nat → W64) : Bool :=
  let es := wbits (w 0) 8 8
  let mr := wbits (w 0) 4 4
  let tr := wbits (w 0) 0 4
  let maps := (List.range 8).map (hdrMap w)
  decide (wbits (w 0) 16 16 = 0) && decide (w 7 = 0) && [1, 2, 4, 8, 16].contains es && decide (1 ≤ mr) && decide (mr ≤ 4)
    && decide (1 ≤ tr) && decide (tr ≤ 8) && decide (1 ≤ hdrNdev w) && decide (hdrNdev w = prod ((List.range mr).map (hdrAxis w)))
    && ((List.range 8).all fun d => if d < tr then decide (1 ≤ hdrDim w d) else decide (hdrDim w d = 0))
    && ((List.range 4).all fun a => if a < mr then decide (1 ≤ hdrAxis w a) else decide (hdrAxis w a = 0))
    && ((List.range 8).all fun d =>
      let b := hdrMap w d
      decide (b / 4 % 32 = 0) && (if b / 128 = 0 then decide (b = 0) else decide (d < tr) && decide (b % 4 < mr)))
    && distinct (maps.filterMap mapAxis)

/-- A record as its bytes spell it, whatever they hold. -/
def layoutOf (b : List Byte) : Layout :=
  let w := wordAt b
  let tr := wbits (w 0) 0 4
  let dev := fun (e : Nat) =>
    let x := w (8 + 2 * e)
    ({ cnt := x.getLsbD 34, wtag := wbits x 18 16, dev := wbits x 0 18, base := w (9 + 2 * e) } : LDev)
  { esize := wbits (w 0) 8 8, dims := (List.range tr).map (hdrDim w), axes := (List.range (wbits (w 0) 4 4)).map (hdrAxis w),
    maps := (List.range tr).map fun d => mapAxis (hdrMap w d), devs := (List.range (hdrNdev w)).map dev }

/-- A BASE Eland may use (R314, R315). -/
def baseOk (esize : Nat) (b : W64) : Bool := !inAperture b && decide (b.toNat % esize = 0)

/-- A record on its own is in range: the source's (R315: CNT and WTAG ignored, its own entries' BASEs), or the
destination's. -/
def recordOk (b : List Byte) (own : Nat) (isDst : Bool) : Bool :=
  let w := wordAt b
  let l := layoutOf b
  headerOk w && l.devs.zipIdx.all fun p =>
    let x := w (8 + 2 * p.2)
    decide (wbits x 35 29 = 0) && (!isDst || p.1.cnt || decide (p.1.wtag = 0))
      && ((!isDst && decide (p.1.dev ≠ own)) || baseOk l.esize p.1.base)

/-! ## The plan (R313, R316, R317) -/

/-- A box: a first index and an extent per dimension. -/
structure Box where
  lo : List Nat
  ext : List Nat
deriving DecidableEq, Repr

/-- The coordinate of entry e on axis a (R312). -/
def Layout.coord (l : Layout) (e a : Nat) : Nat := e / prod (l.axes.drop (a + 1)) % l.axes.getD a 1

/-- The shard box of entry e (R313), with extent 0 where the range is empty. -/
def Layout.box (l : Layout) (e : Nat) : Box :=
  let r := (l.dims.zip l.maps).map fun p =>
    match p.2 with
    | none => (0, p.1)
    | some a =>
      let n := l.axes.getD a 1
      let b := (p.1 + n - 1) / n
      let c := l.coord e a
      (c * b, min ((c + 1) * b) p.1 - c * b)
  { lo := r.map (·.1), ext := r.map (·.2) }

/-- The replication axes of a layout (R312). -/
def Layout.freeAxes (l : Layout) : List Nat := (List.range l.axes.length).filter fun a => !l.maps.contains (some a)
/-- R: how many replicas an entry has (R313). -/
def Layout.replicas (l : Layout) : Nat := prod (l.freeAxes.map fun a => l.axes.getD a 1)
/-- r: an entry's rank among its replicas, in ascending entry order (R313). -/
def Layout.rank (l : Layout) (e : Nat) : Nat := l.freeAxes.foldl (fun n a => n * l.axes.getD a 1 + l.coord e a) 0

/-- The intersection of two boxes. -/
def Box.meet (a b : Box) : Box :=
  let r := (a.lo.zip a.ext).zip (b.lo.zip b.ext) |>.map fun p =>
    let lo := max p.1.1 p.2.1
    (lo, min (p.1.1 + p.1.2) (p.2.1 + p.2.2) - lo)
  { lo := r.map (·.1), ext := r.map (·.2) }

/-- A plan row (R316). -/
structure PRow where
  src : Nat
  dst : Nat
  box : Box
deriving DecidableEq, Repr

/-- The plan of a device (R316). -/
def planOf (src dst : Layout) (own : Nat) : List PRow :=
  (src.devs.zipIdx.filter fun p => decide (p.1.dev = own)).flatMap fun p =>
    (List.range dst.devs.length).filterMap fun j =>
      let b := (src.box p.2).meet (dst.box j)
      if j % src.replicas ≠ src.rank p.2 ∨ b.ext.contains 0 then none else some { src := p.2, dst := j, box := b }

/-- s_d of a box (R317). -/
def Box.stride (b : Box) (esize d : Nat) : Nat := esize * prod (b.ext.drop (d + 1))
/-- The cut dimension (R317). -/
def Box.cut (b : Box) (esize : Nat) : Nat :=
  ((List.range b.ext.length).find? fun d => decide (b.stride esize d ≤ 1048576)).getD 0
/-- Indices of the cut dimension per chunk (R317). -/
def Box.per (b : Box) (esize : Nat) : Nat := 1048576 / b.stride esize (b.cut esize)
/-- Chunks along the cut dimension. -/
def Box.along (b : Box) (esize : Nat) : Nat := (b.ext.getD (b.cut esize) 0 + b.per esize - 1) / b.per esize
/-- Chunks of a row (R317). -/
def Box.chunks (b : Box) (esize : Nat) : Nat := prod (b.ext.take (b.cut esize)) * b.along esize

/-- TOTAL (R317). -/
def planTotal (p : List PRow) (esize : Nat) : Nat := p.foldl (fun n r => n + r.box.chunks esize) 0

/-- Chunk m of a box (R317). -/
def Box.chunk (b : Box) (esize m : Nat) : Box :=
  let c := b.cut esize
  let outer := m / b.along esize
  let start := m % b.along esize * b.per esize
  let r := (b.lo.zip b.ext).zipIdx.map fun p =>
    if p.2 < c then (p.1.1 + outer / prod ((b.ext.take c).drop (p.2 + 1)) % p.1.2, 1)
    else if p.2 = c then (p.1.1 + start, min (b.per esize) (p.1.2 - start))
    else p.1
  { lo := r.map (·.1), ext := r.map (·.2) }

/-- Chunk n of a plan: its row and its box. -/
def planChunk (esize : Nat) : List PRow → Nat → Option (PRow × Box)
  | [], _ => none
  | r :: rest, n => if n < r.box.chunks esize then some (r, r.box.chunk esize n) else planChunk esize rest (n - r.box.chunks esize)

/-- Bytes of a box. -/
def Box.bytes (b : Box) (esize : Nat) : Nat := esize * prod b.ext

/-- The tensor index of element i of a box, row-major. -/
def Box.index (b : Box) (i : Nat) : List Nat :=
  (b.lo.zip b.ext).zipIdx.map fun p => p.1.1 + i / prod (b.ext.drop (p.2 + 1)) % p.1.2
/-- The row-major place of a tensor index in a shard box (R313). -/
def Box.place (b : Box) (x : List Nat) : Nat :=
  ((b.lo.zip b.ext).zip x).foldl (fun n p => n * p.1.2 + (p.2 - p.1.1)) 0

/-- Add an element to the runs of a packet: source offset, destination offset, bytes. -/
def addRun (e : Nat) (rs : List (Nat × Nat × Nat)) (a b : Nat) : List (Nat × Nat × Nat) :=
  match rs with
  | (x, y, n) :: r => if x + n = a ∧ y + n = b then (x, y, n + e) :: r else (a, b, e) :: (x, y, n) :: r
  | [] => [(a, b, e)]

/-- The runs of bytes of transfer offset `off` and up in a chunk's box (R318), as offsets in the two shards. -/
def chunkRuns (esize : Nat) (src dst chunk : Box) (off len : Nat) : List (Nat × Nat × Nat) :=
  ((List.range (len / esize)).foldl (fun rs i =>
    let x := chunk.index (off / esize + i)
    addRun esize rs (esize * src.place x) (esize * dst.place x)) []).reverse

/-! ## The fingerprint and the block (R320, R321) -/

/-- FNV-1a over some bytes (R321). -/
def fnv (h : W64) : List Byte → W64
  | [] => h
  | b :: r => fnv ((h ^^^ b.setWidth 64) * 0x00000100000001B3) r
/-- FP of a record pair (R321). -/
def fingerprint (src dst : List Byte) : W64 := fnv (fnv 0xCBF29CE484222325 src) dst

/-- A job's engine as an accessor. -/
def State.jobAcc (s : State) (j : Job) : Acc := { core := (s.team j.team).core, ctx := j.ctx, mode := j.mode, gid := j.gid }
/-- Write an image of the block of a job, as one write at the L2 home (R320). Log entry 87 (DEDUCED). -/
def State.writeBlock (s : State) (j : Job) (w : Waiter) (image : List W64) : ERes × State :=
  s.engWrite (s.jobAcc j) w j.block (wordBytes image)

/-- A job. -/
def State.job? (s : State) (n : Nat) : Option Job := s.jobs.find n
/-- Replace a job. -/
def State.setJob (s : State) (n : Nat) (j : Job) : State := { s with jobs := s.jobs.insert n j }

/-- A chunk of a job. -/
def State.chunkOf (s : State) (j : Job) (num : Nat) : Option (PRow × Box) :=
  planChunk j.src.esize (planOf j.src j.dst s.fabric.devid) num
/-- Bytes of a chunk of a job. -/
def State.chunkBytes (s : State) (j : Job) (num : Nat) : Nat := ((s.chunkOf j num).map fun p => p.2.bytes j.src.esize).getD 0

/-- Chunk n counts as acknowledged in a job. -/
def Job.marked (j : Job) (n : Nat) : Bool := decide (n < j.acked) || (decide (j.acked < n) && j.above.getLsbD (n - j.acked - 1))

/-- ACKED passes one chunk and every chunk whose ABOVE bit is set (R320). -/
def Job.advance (j : Job) : Nat → Job
  | 0 => j
  | n + 1 =>
    let up := j.above.getLsbD 0
    let j := { j with acked := j.acked + 1, above := j.above >>> 1 }
    if up then j.advance n else j

/-- Chunk n is acknowledged (R320). -/
def Job.ack (j : Job) (n size : Nat) : Job :=
  let j := { j with bytes := j.bytes + BitVec.ofNat 64 size }
  if n = j.acked then j.advance 65 else { j with above := j.above ||| (1#64 <<< (n - j.acked - 1)) }

/-- A job is over but for its final write: no chunk is outstanding, and all are acknowledged or no more is issued. -/
def Job.ended (j : Job) : Bool := decide (j.chunks = []) && (j.stopping || decide (j.total ≤ j.acked))

/-- The final STATE and STATUS of a job (R319, R320). -/
def Job.close (j : Job) : Job :=
  match j.wfail with
  | some c => { j with st := 3, status := c, failed := j.total, closed := true }
  | none =>
    if j.failed < j.total then { j with st := 3, closed := true }
    else { j with st := 2, status := if j.watched then 0x04 else 0, closed := true }

/-- A job's group still holds its number. -/
def State.jobHeld (s : State) (n : Nat) (j : Job) : Bool := (s.group j.gid).jobs.any fun p => decide (p.2 = n)

/-- A job whose last write has been performed is final (R325, R338); one that no group can wait for goes. -/
def State.endJob (s : State) (n : Nat) (j : Job) : State :=
  if s.jobHeld n j then s.setJob n { j with final := true } else { s with jobs := s.jobs.erase n }

/-- Eland writes what a job's block still lacks, one image after another; when a job is over it closes and is written once more, and
after that write it is final (R320, R325). Log entry 72 (DEDUCED). -/
def State.pumpJob (s : State) (n : Nat) : Nat → State
  | 0 => s
  | fuel + 1 =>
    match s.job? n with
    | none => s
    | some j =>
      match j.pend with
      | w :: rest =>
        (match s.writeBlock j (.eland n) w with
         | (.wait, s) => s
         | (.ok _, s) => (s.setJob n { j with pend := rest }).pumpJob n fuel
         | (.fault c, s) => (s.setJob n (({ j with pend := rest } : Job).blockLost (fabCode c))).pumpJob n fuel)
      | [] =>
        if j.ended && !j.closed then (s.setJob n j.close.note).pumpJob n fuel
        else if j.closed && !j.final && !s.sideOut (.eland n) then s.endJob n j
        else s

/-- Eland has changed a job: it writes the block (R320), and the job ends where it is over. -/
def State.changeJob (s : State) (n : Nat) (j : Job) : State :=
  let j := if j.ended then j.close else j
  (s.setJob n j.note).pumpJob n (j.pend.length + 4)

/-- Every job's block is written as far as it can be, and jobs that are over become final. -/
def State.pumpJobs (s : State) : State :=
  (s.jobs.filter fun p => decide (p.2.pend ≠ []) || (p.2.closed && !p.2.final)).foldl (fun s p => s.pumpJob p.1 (p.2.pend.length + 4)) s

/-- The retry state of a packet is saved with its team (R310): the time since its first refusal, and until it is to be sent again. -/
def PktState.hold (now : W64) : PktState → PktState
  | .retry first due n => .retry (now - first) (if now.toNat < due.toNat then due - now else 0) n
  | st => st
/-- The retry state of a packet of a team that goes on (R310). -/
def PktState.rise (now : W64) : PktState → PktState
  | .retry first due n => .retry (now - first) (now + due) n
  | st => st
/-- Change the state of every packet of a team's transfers and jobs. -/
def State.mapPkts (s : State) (tid : Nat) (f : PktState → PktState) : State :=
  let pkt := fun (p : Pkt) => { p with st := f p.st }
  let chunk := fun (c : Chunk) => { c with pkts := c.pkts.map pkt }
  { s with
    fabric := { s.fabric with xfers := s.fabric.xfers.map fun p => if p.2.team = tid then (p.1, { p.2 with pkts := p.2.pkts.map pkt }) else p },
    jobs := s.jobs.map fun p => if p.2.team = tid then (p.1, { p.2 with chunks := p.2.chunks.map chunk }) else p }

/-- The suspended jobs of some teams go on with STATE 1 (R327). -/
def State.wakeJobs (s : State) (teams : List Nat) : State :=
  (s.jobs.filter fun p => teams.contains p.2.team && decide (p.2.st = 4)).foldl (fun s p =>
    s.changeJob p.1 { p.2 with st := 1 }) s

/-! ## RESHARD (R322, R323) -/

/-- A RESHARD past its checks and its wait for a job, whose block is being written for the first time. -/
def SWait.starting (w : SWait) : Bool :=
  match w.instr with
  | .reshard _ _ => w.arrived && decide (w.seen = 1)
  | _ => false

/-- Jobs that count toward the device limit (R323). -/
def State.liveJobs (s : State) : Nat :=
  (s.jobs.filter fun p => !p.2.final).length + s.groups.countP fun p => !p.2.ended && (p.2.swait.map SWait.starting).getD false

/-- Read a layout record: the header, then as many entries as NDEV names. -/
def State.readRecord (s : State) (x : Acc) (w : Waiter) (va : W64) : ERes × State :=
  match s.engParts x w (lineParts va 64 3) with
  | (.ok h, s) =>
    let n := 16 * hdrNdev (wordAt h)
    (match s.engParts x w (lineParts (va + 64) n (n / 64 + 2)) with
     | (.ok e, s) => (.ok (h ++ e), s)
     | o => o)
  | o => o

/-- The checks of RESHARD that need no memory. -/
def Group.reshardStatus (g : Group) (o : List W64) : Nat :=
  let w3 := o.getD 3 0
  let job := wbits w3 0 16
  if wbits w3 17 47 ≠ 0 ∨ job = 0 ∨ (o.take 3).any (fun a => decide (a.toNat % 64 ≠ 0)) then 0x10
  else if (g.jobs.find job).isSome then 0x33
  else if 4 ≤ g.jobs.length then 0x34
  else 0

/-- RESHARD waits with the records and the block it has captured; `seen` 1: it has its place among the jobs (R323). -/
def State.reshardWait (s : State) (i : Instr) (o : List W64) (src dst blk : List Byte) (placed : Bool) : State :=
  let words := fun (b : List Byte) => (List.range (b.length / 8)).map (wordAt b)
  s.swaitOn { instr := i, tok := src.length, aux := o ++ words blk ++ words src ++ words dst, arrived := true, seen := if placed then 1 else 0 }

/-- RESHARD past its checks (R323): the wait for a job, and the start. A new job's block is written first, and a write that fails is
the result; a resumed job starts from the block it has captured. Log entry 72 (DEDUCED). -/
def State.reshardGo (s : State) (i : Instr) (d : BitVec 6) (o : List W64) (src dst blk : List Byte) (placed : Bool) : State :=
  if !placed && decide (64 ≤ s.liveJobs) then s.reshardWait i o src dst blk false
  else
    let ls := layoutOf src
    let ld := layoutOf dst
    let total := planTotal (planOf ls ld s.fabric.devid) ls.esize
    let resume := (o.getD 3 0).getLsbD 16
    let done := resume && decide (wbits (wordAt blk 3) 8 8 = 2)
    let acked := if done then total else if resume then min (wbits (wordAt blk 1) 0 32) total else 0
    let above := if resume && !done then wordAt blk 2 else 0
    let j : Job := { gid := s.curGid, team := s.cur.team, ctx := s.curTeam.ctx, mode := s.cur.mode, src := ls, dst := ld, block := o.getD 2 0,
                     fp := fingerprint src dst, total := total, acked := acked, above := above, failed := total, st := 1, status := 0xFF,
                     bytes := 0, after := s.cur.runs }
    let marks := (List.range acked) ++ ((List.range 64).filter fun b => above.getLsbD b && decide (acked + 1 + b < total)).map (acked + 1 + ·)
    let j := { j with bytes := BitVec.ofNat 64 (marks.foldl (fun n m => n + s.chunkBytes j m) 0) }
    let n := s.nextJob
    let start := fun (s : State) (j : Job) =>
      let s := s.modCur fun g => { g with jobs := g.jobs.insert (wbits (o.getD 3 0) 0 16) n }
      ((({ s with nextJob := n + 1 } : State).sput d 0).setJob n j).pumpJob n 4
    if resume then start s j.note
    else
      match s.writeBlock j (.store j.ctx) j.image with
      | (.wait, s) => s.reshardWait i o src dst blk true
      | (.fault c, s) => s.sput d (BitVec.ofNat 64 (fabCode c))
      | (.ok _, s) => start s j

/-- The checks of RESHARD on the records and the block it has captured (R323): 0, or the status. -/
def State.reshardBad (s : State) (o : List W64) (src dst blk : List Byte) : Nat :=
  let own := s.fabric.devid
  let ls := layoutOf src
  let ld := layoutOf dst
  let busy := s.jobs.any fun p => !p.2.final && decide (p.2.ctx = s.curTeam.ctx) && decide (p.2.block = o.getD 2 0)
  if !recordOk src own false || !recordOk dst own true || decide (ls.dims ≠ ld.dims) || decide (ls.esize ≠ ld.esize)
      || decide (2 ^ 32 - 1 < planTotal (planOf ls ld own) ls.esize) then 0x30
  else if busy then 0x32
  else if (o.getD 3 0).getLsbD 16 ∧ wordAt blk 0 ≠ fingerprint src dst then 0x31
  else 0

/-- RESHARD with its captured records and block. -/
def State.reshardStart (s : State) (i : Instr) (d : BitVec 6) (o : List W64) (src dst blk : List Byte) : State :=
  let c := s.reshardBad o src dst blk
  if c ≠ 0 then s.sput d (BitVec.ofNat 64 c) else s.reshardGo i d o src dst blk false

/-- The lines RESHARD reads: both records and, on RESUME, the block. -/
def reshardLines (o : List W64) (src dst : Nat) : List (W64 × Nat) :=
  lineParts (o.getD 0 0) src (src / 64 + 2) ++ lineParts (o.getD 1 0) dst (dst / 64 + 2) ++ lineParts (o.getD 2 0) 64 3

/-- Read both records and, on RESUME, the block. -/
def State.reshardRead (s : State) (x : Acc) (w : Waiter) (o : List W64) : Except (Option Nat) (List Byte × List Byte × List Byte) × State :=
  match s.readRecord x w (o.getD 0 0) with
  | (.wait, s) => (.error none, s)
  | (.fault c, s) => (.error (some c), s)
  | (.ok src, s) =>
    match s.readRecord x w (o.getD 1 0) with
    | (.wait, s) => (.error none, s)
    | (.fault c, s) => (.error (some c), s)
    | (.ok dst, s) =>
      if !(o.getD 3 0).getLsbD 16 then (.ok (src, dst, []), s)
      else
        match s.engParts x w (lineParts (o.getD 2 0) 64 3) with
        | (.wait, s) => (.error none, s)
        | (.fault c, s) => (.error (some c), s)
        | (.ok blk, s) => (.ok (src, dst, blk), s)

/-- RESHARD with its operands: both records and, on RESUME, the block are captured once (R140, R323). -/
def State.reshard (s : State) (i : Instr) (d : BitVec 6) (o : List W64) : State :=
  let c := s.cur.reshardStatus o
  let w := Waiter.scalar s.curGid
  if c ≠ 0 then s.sput d (BitVec.ofNat 64 c)
  else
    match s.reshardRead s.sacc w o with
    | (.error none, s) => s.sagain i
    | (.error (some c), s) => (s.dropFetched w (reshardLines o 4194368 4194368)).sput d (BitVec.ofNat 64 (fabCode c))
    | (.ok (src, dst, blk), s) => (s.dropFetched w (reshardLines o src.length dst.length)).reshardStart i d o src dst blk

/-- RESHARD (R323). -/
def execReshard (a d : BitVec 6) (s : State) : Out :=
  .next (s.reshard (.reshard a d) d ((List.range 4).map fun i => s.sreadAt a i))

/-- ELAND_JOB_SLOT_FREE (R323): a RESHARD that waits for a job, or for its first block write, goes on from what it captured. Log entry 89 (DEDUCED). -/
def execElandJobSlotFree (g : Nat) (s : State) : Out :=
  let s := s.asGroup g
  match s.waiting with
  | some { instr := .reshard a d, tok := n, aux := aux, arrived := true, seen := seen } =>
    let b := wordBytes (aux.drop 4)
    let k := if (aux.getD 3 0).getLsbD 16 then 64 else 0
    let placed := decide (seen = 1)
    .next (if !placed && decide (64 ≤ s.liveJobs) then s
      else s.reshardGo (.reshard a d) d (aux.take 4) ((b.drop k).take n) (b.drop (k + n)) (b.take k) placed)
  | _ => .next s

/-! ## RSWAIT (R325) -/

/-- RSWAIT at issue and at each re-check. -/
def State.rswait (s : State) (a d : BitVec 6) (w : W64) : State :=
  let job := wbits w 0 16
  match (s.cur.jobs.find job).bind fun n => (s.job? n).map fun j => (n, j) with
  | none => s.sput d 0x35
  | some (n, j) =>
    if j.final then
      let s := s.modCur fun g => { g with jobs := g.jobs.erase job }
      ({ s with jobs := s.jobs.erase n } : State).sput d (BitVec.ofNat 64 (j.failed * 2 ^ 32 + j.status))
    else if w.getLsbD 16 then s.swaitOn { instr := .rswait a d, aux := [w] }
    else s.sput d (BitVec.ofNat 64 (j.acked * 2 ^ 32 + 0xFF))

/-- RSWAIT (R325). -/
def execRswait (a d : BitVec 6) (s : State) : Out :=
  let w := s.sread a
  .next (if 2 ^ 17 ≤ w.toNat then s.sput d 0x10 else s.rswait a d w)

/-- RSWAIT_RELEASE (R325). -/
def execRswaitRelease (g : Nat) (s : State) : Out :=
  let s := s.asGroup g
  match s.waiting with
  | some { instr := .rswait a d, aux := [w], .. } => .next (s.rswait a d w)
  | _ => .next s

/-! ## Chunks (R318, R319) -/

/-- The lines of the runs of a packet in one shard: at `base`, the offset of each told by `at_`. -/
def runLines (base : W64) (at_ : Nat × Nat × Nat → Nat) (runs : List (Nat × Nat × Nat)) : List (W64 × Nat) :=
  runs.flatMap fun r => lineParts (base + BitVec.ofNat 64 (at_ r)) r.2.2 (r.2.2 / 64 + 2)

/-- Gather the source bytes of a packet, which may not be in space 2 (R314); `off`: how many came before. -/
def State.gather (s : State) (x : Acc) (w : Waiter) (off : Nat) : List (W64 × Nat) → Side × State
  | [] => (.ok [] false, s)
  | (va, n) :: r =>
    let seen := s.xlate x va .read
    let peer := match seen.1 with
      | .ok l _ => decide (l.space = 2)
      | _ => false
    if peer then (.fail 0x01 off, seen.2)
    else
      match seen.2.engPart x w va n 0 with
      | (.ok b, s) =>
        (match s.gather x w (off + n) r with
         | (.ok c f, s) => (.ok (b ++ c) f, s)
         | o => o)
      | (.fault c, s) => (.fail (fabCode c) off, s)
      | (.wait, s) => (.wait, s)

/-- What a part of a destination shard of this device comes to before it is written (R297, R314, R318). -/
inductive Dest where
  | ok | absent | wait | fail (code off : Nat)

/-- The first failure counts; where there is none, something that waits, and then an absent frame. -/
def Dest.and (a b : Dest) : Dest :=
  match a, b with
  | .fail c o, _ | _, .fail c o => .fail c o
  | .wait, _ | _, .wait => .wait
  | .absent, _ | _, .absent => .absent
  | .ok, .ok => .ok

/-- A part of a destination shard of this device, looked at as a write. -/
def State.destPart (s : State) (x : Acc) (w : Waiter) (va : W64) (n off : Nat) : Dest × State :=
  match s.xlate x va .write with
  | (.fault c, s) => (.fail (fabCode c) off, s)
  | (.ats, s) => (match s.engAsk w x va true with
    | (.fault c, s) => (.fail (fabCode c) off, s)
    | (_, s) => (.wait, s))
  | (.ok l a, s) =>
    if l.space = 2 then (.fail 0x01 off, s)
    else if l.sro then (.fail (fabCode (s.sroFault l a)) off, s)
    else if l.space = 1 then (.ok, s)
    else if l.space = 3 && !s.mem.present a n then (.absent, s)
    else
      match s.l2Get x l a true false with
      | (.here, s) => (.ok, s)
      | (.fault c, s) => (.fail (fabCode c) off, s)
      | (_, s) => (.wait, s)

/-- The parts of a destination shard of this device. -/
def State.destParts (s : State) (x : Acc) (w : Waiter) (off : Nat) : List (W64 × Nat) → Dest × State
  | [] => (.ok, s)
  | (va, n) :: r =>
    let a := s.destPart x w va n off
    let b := a.2.destParts x w (off + n) r
    (a.1.and b.1, b.2)

/-- The pieces of a packet's runs at a peer, which must be the entry's device (R314): none, or the failure and its offset. -/
def State.runPieces (s : State) (x : Acc) (dev : Nat) (base : W64) (off : Nat) : List (Nat × Nat × Nat) → Option (Nat × Nat) × State
  | [] => (none, s)
  | (_, a, n) :: r =>
    match s.remotePieces x .write (base + BitVec.ofNat 64 a) n off 3 (some dev) with
    | (.error e, s) => (some e, s)
    | (.ok _, s) => s.runPieces x dev base (off + n) r

/-- Change a packet of a chunk. -/
def State.modChunkPkt (s : State) (job num i : Nat) (f : Pkt → Pkt) : State :=
  match s.job? job with
  | none => s
  | some j =>
    let upd := fun (c : Chunk) => if c.num = num then { c with pkts := c.pkts.mapIdx fun k p => if k = i then f p else p } else c
    s.setJob job { j with chunks := j.chunks.map upd }

/-- The runs of a packet of a chunk. -/
def Job.runs (j : Job) (row : PRow) (box : Box) (p : Pkt) : List (Nat × Nat × Nat) :=
  chunkRuns j.src.esize (j.src.box row.src) (j.dst.box row.dst) box p.off p.len
/-- An entry of a layout. -/
def Layout.dev (l : Layout) (e : Nat) : LDev := l.devs.getD e { cnt := false, wtag := 0, dev := 0, base := 0 }

/-- A packet for this device itself is written (R318), or refused while a frame of it is absent (R297). -/
def State.chunkLand (s : State) (job num i : Nat) (j : Job) (row : PRow) (box : Box) (p : Pkt) : State :=
  let x := s.jobAcc j
  let w := Waiter.eland job
  let de := j.dst.dev row.dst
  let parts := runLines de.base (fun r => r.2.1) (j.runs row box p)
  let set := fun (s : State) (st : PktState) => s.modChunkPkt job num i fun q => { q with st := st }
  let win := s.fabric.windows.find? fun z => decide (z.ftag = (s.context j.ctx).ftag) && decide (z.wtag = de.wtag)
  match s.destParts x w 0 parts with
  | (.fail c o, s) => set s (.failed c (p.off + o))
  | (.wait, s) => s
  | (r, s) =>
    if de.cnt && win.isNone then set s (.failed 0x22 p.off)
    else
      match r with
      | .absent => set s (p.st.refused s.timeNs)
      | _ =>
        match s.engWriteParts x w parts p.body with
        | (.wait, s) => s
        | (.fault c, s) => set s (.failed (fabCode c) p.off)
        | (.ok _, s) =>
          let s := match win with
            | some z => if de.cnt then s.countBytes z.team z.counter p.len else s
            | none => s
          set s (.acked false)

/-- Send packet i of a chunk (R318): its bytes are gathered, and it goes to the entry's device, or is written here.
Log entries 42 (DEDUCED), 72 (DEDUCED). -/
def State.chunkPkt (s : State) (job num i : Nat) (j : Job) (row : PRow) (box : Box) (p : Pkt) : State :=
  let x := s.jobAcc j
  let w := Waiter.eland job
  let de := j.dst.dev row.dst
  let runs := j.runs row box p
  let parts := runLines (j.src.dev row.src).base (fun r => r.1) runs
  let set := fun (s : State) (q : Pkt) => s.modChunkPkt job num i fun _ => q
  match s.gather x w 0 parts with
  | (.wait, s) => s
  | (.fail c o, s) => set (s.dropFetched w parts) { p with st := .failed c (p.off + o) }
  | (.ok b _, s) =>
    let s := s.dropFetched w parts
    let q := { p with st := .sent s.timeNs, dst := de.dev, body := b }
    if de.dev = s.fabric.devid then (set s q).chunkLand job num i j row box q
    else
      match s.runPieces x de.dev de.base 0 runs with
      | (some (c, o), s) => set s { p with st := .failed c (p.off + o) }
      | (none, s) =>
        (set s q).sendMsg de.dev 0 p.len false [3, BitVec.ofNat 64 job, BitVec.ofNat 64 num, BitVec.ofNat 64 i, (s.context j.ctx).rt.setWidth 64]
          (bodyMap b)

/-- Send what a chunk has not sent, and write what is on its way to this device itself. -/
def State.pumpChunk (s : State) (job num : Nat) : State :=
  match s.job? job with
  | none => s
  | some j0 =>
    match s.chunkOf j0 num, j0.chunks.find? (fun c => decide (c.num = num)) with
    | some (row, box), some c0 => (List.range c0.pkts.length).foldl (fun s i =>
        match s.job? job with
        | none => s
        | some j =>
          match (j.chunks.find? fun c => decide (c.num = num)).bind fun c => c.pkts[i]? with
          | some p => if p.st = .unsent then s.chunkPkt job num i j row box p
              else if p.st.inFlight && decide (p.dst = s.fabric.devid) then s.chunkLand job num i j row box p else s
          | none => s) s
    | _, _ => s

/-- The next chunk Eland may issue (R319): at most 64 beyond the first unacknowledged one. -/
def Job.next (j : Job) : Option Nat :=
  ((List.range 65).map (j.acked + ·)).find? fun n =>
    decide (n < j.total) && !j.marked n && !(j.chunks.any fun c => decide (c.num = n))

/-- A packet of a chunk goes on when Eland takes a turn: it has not been sent, or it is on its way to this device itself. -/
def Pkt.goesOn (p : Pkt) (own : Nat) : Bool := decide (p.st = .unsent) || (p.st.inFlight && decide (p.dst = own))

/-- CHUNK_ISSUE (R319): the block is brought up to date, packets that waited are sent, or the next chunk is issued, once the runs before
the job's fork are over (R324); nothing is sent while the team is to stop (R327). -/
def execChunkIssue (job : Nat) (s : State) : Out :=
  let s := s.pumpJob job 8
  match s.job? job with
  | none => .next s
  | some j =>
    let held := (s.team j.team).stopping
    match j.chunks.find? fun c => c.pkts.any fun p => p.goesOn s.fabric.devid && !(held && decide (p.st = .unsent)) with
    | some c => .next (s.pumpChunk job c.num)
    | none =>
      if held || j.closed || j.stopping || decide (j.st ≠ 1) || !s.forkReady j.gid j.after then .next s
      else
        match j.next with
        | none => .next s
        | some n => .next ((s.setJob job { j with chunks := j.chunks ++ [{ num := n, pkts := packetsOf (s.chunkBytes j n) 0 }] }).pumpChunk job n)

/-- CHUNK_ACK (R319, R320): every packet of a chunk has its final status, and what it wrote has been performed (R338). -/
def execChunkAck (job num : Nat) (s : State) : Out :=
  match s.job? job with
  | none => .next s
  | some j =>
    match j.chunks.find? fun c => decide (c.num = num) with
    | none => .next s
    | some c =>
      if !(c.pkts.all fun p => p.st.final) || s.sideOut (.eland job) then .next s
      else
        let r := pktStatus c.pkts
        let size := s.chunkBytes j num
        let j := { j with chunks := j.chunks.filter fun c => decide (c.num ≠ num) }
        if r.1 = 0 ∨ r.1 = 4 then .next (s.changeJob job { (j.ack num size) with watched := j.watched || decide (r.1 = 4) })
        else
          let first := decide (num < j.failed)
          let failed := if first then num else j.failed
          let j := { j with stopping := true, failed := failed, status := if first then r.1 else j.status }
          .next ((s.setJob job j).pumpJob job (j.pend.length + 4))

end Sys2Proof.Machine
end

