-- ==== Sys2Proof/Machine/LaneMem.lean ====
section
/-! DEFINITION. Lane memory and atomic instructions (chapter 6), the arrival of far results (R249) and the resumption of
suspended accesses. -/

namespace Sys2Proof.Machine

/-! ## Types and addresses -/

/-- Width of an access type in bytes (R116). -/
def mbytes : MTy → Nat
  | .i8 | .n8 => 1 | .i16 | .n16 => 2 | .i32 | .n32 | .b32 => 4 | .i64 | .n64 => 8
/-- How a loaded value is widened (R117). -/
def mext : MTy → Ext
  | .i8 | .i16 => .sign | _ => .zero
/-- The code of a cache policy. -/
def polCode : Pol → Nat
  | .ca => 0 | .cg => 1 | .cs => 2
/-- The global address of thread k (R117). -/
def State.gaddr (s : State) (l : Lane) (k : Nat) : W64 := s.reg64 l.imm l.a k + l.imm.signExtend 64
/-- The scratch address of thread k (R118). Log entry 33 (DEDUCED). -/
def State.saddr (s : State) (l : Lane) (k : Nat) : Nat := (s.reg32 l.imm l.a k + l.imm).toNat

/-! ## Far results (R122, R249) -/

/-- The register entries a result of thread k goes to: every active thread's under U. -/
def State.farDsts (s : State) (l : Lane) (wide : Bool) (ks : List Nat) : List FarDst :=
  match l.d with
  | .t n => ks.flatMap fun j =>
    { thr := j, ent := s.entry n.val } :: if wide then [{ thr := j, ent := s.entry (n.val + 1), high := true }] else []
  | _ => []

/-- A far result is on its way to the destination. -/
def State.pushFar (s : State) (l : Lane) (wide : Bool) (ks : List Nat) (src : FarSrc) : State :=
  match s.farDsts l wide ks with
  | [] => s
  | ds => s.modCur fun g => { g with far := g.far ++ [{ dsts := ds, src := src }] }

/-- The threads a result of thread k goes to (R39). -/
def State.dstThreads (s : State) (l : Lane) (k : Nat) : List Nat := if l.u then s.active else [k]

/-- Deliver a far result of thread k that is known, or wait for it. -/
def State.farVal (s : State) (l : Lane) (wide : Bool) (k : Nat) (v : Nat) : TOut :=
  .done (s.pushFar l wide (s.dstThreads l k) (.value (BitVec.ofNat 64 v)))

/-- An access of thread k needs a host translation (R79, R82): it is asked for, and the split suspends; while the core's miss queue is
full it tries again; an answer the host has given the access is its fault. -/
def State.needXlat (s : State) (va : W64) (write : Bool) (fail : Nat → State → TOut) : TOut :=
  match s.askXlat (.xlat s.curGid s.curSlot) s.sacc va write with
  | (.wait _, s) => .suspend .translation s
  | (.fault c, s) => fail c s
  | (.full, s) => .stall s

/-- What a global access of thread k comes to (R119, R121): a helper's failing load returns zero; `w` widens a value. -/
def State.afterGlobal (s0 : State) (l : Lane) (wide write : Bool) (k : Nat) (va : W64) (r : Res × State) (load : Bool)
    (w : Nat → Nat := id) : TOut :=
  let fail := fun (c : Nat) (s : State) => if load && s0.cur.isHelper k then s.farVal l wide k 0 else .trap c va s
  match r with
  | (.val v, s) => if load then s.farVal l wide k (w v) else .done s
  | (.far src, s) => .done (if load then s.pushFar l wide (s.dstThreads l k) src else s)
  | (.fault c, s) => fail c s
  | (.ats, s) => s.needXlat va write fail
  | (.stall, s) => .stall s

/-- Thread k goes on with a memory instruction once the acquire of its last atomic has been made (R134, R330). -/
def State.inOrder (s : State) (k : Nat) (f : State → TOut) : TOut := if s.acqWaits s.curGid k then .stall s else f s

/-- The value of a far result, once it has come. -/
def FarSrc.known : FarSrc → Option W64
  | .value v | .slow v => some v
  | _ => none

/-- A far result writes one of its registers (R157). -/
def Group.land (g : Group) (d : FarDst) (v : W64) : Group :=
  g.rset d.thr d.ent (if d.high then (v >>> 32).setWidth 32 else v.setWidth 32)

/-- A W run of the group that has waited becomes ready with the arrival of the last far result: its age is this cycle (R249, R370). -/
def State.wReady (s : State) (gid : Nat) : State :=
  if (s.group gid).far ≠ [] then s
  else
    let waits := fun (x : Split) => decide (x.mode = .ready) && x.unbegun && s.peekW gid x.pc
    s.modGroup gid fun g => [0, 1, 2, 3, 4].foldl (fun g n =>
      g.modSplit n fun x => if waits x then { x with age := max x.age s.cycle } else x) g

/-- FAR_RESULT_ARRIVAL (R249): a register of result i of a group gets its value, each on its own, so that a pair may stand torn; the
registers of a saved group count for its image (R157). Log entry 7 (DESIGN CHOICE). -/
def execFarResultArrival (g i : Nat) (s : State) : Out :=
  match (s.group g).far[i]? with
  | none => .next s
  | some f =>
    match f.src.known with
    | none => .next s
    | some v =>
      let n := if f.dsts.length ≤ 1 then (0, s) else (s.draw.1.toNat % f.dsts.length, s.draw.2)
      let rest := f.dsts.eraseIdx n.1
      let far := fun (x : Group) => if rest = [] then x.far.eraseIdx i else x.far.set i { f with dsts := rest }
      .next ((n.2.modGroup g fun x => { ((f.dsts[n.1]?).elim x fun d => x.land d v) with far := far x }).wReady g)

/-! ## Loads and stores (R123 to R126) -/

/-- LD (R123). -/
def execLd (l : Lane) (ty : MTy) (pol : Pol) (s : State) : Out :=
  s.lane (.ld l ty pol) l ty.wide fun k s => s.inOrder k fun s =>
    let va := s.gaddr l k
    let n := mbytes ty
    if va.toNat % n ≠ 0 then if s.cur.isHelper k then s.farVal l ty.wide k 0 else .trap 0x05 va s
    else s.afterGlobal l ty.wide false k va (s.load s.sacc (.far s.curGid) va n (polCode pol) (mext ty) true) true
        (widen (mext ty) n)

/-- ST (R123). -/
def execSt (l : Lane) (ty : MTy) (pol : Pol) (s : State) : Out :=
  s.lane (.st l ty pol) l false fun k s => s.inOrder k fun s =>
    if s.cur.isHelper k then .done s
    else
      let va := s.gaddr l k
      let n := mbytes ty
      if va.toNat % n ≠ 0 then .trap 0x05 va s
      else s.afterGlobal l false true k va
        (s.store s.sacc (.store s.curTeam.ctx) false va n (s.src l ty.wide l.b k % 2 ^ (8 * n)) (polCode pol)) false

/-- A scratch address as a trap reports it. -/
def stval (a : Nat) : W64 := BitVec.ofNat 64 a

/-- The result of a scratch access is far when its team is on another core (R118, R122). -/
def State.scratchFar (s : State) (a : Nat) : Bool :=
  match s.scratchAt s.cur.team a with
  | some (t, _) => decide ((s.team t).core ≠ s.curTeam.core)
  | none => false

/-- Deliver a scratch result: near, or far through a window to another core. -/
def State.scratchVal (s : State) (l : Lane) (wide : Bool) (k a v : Nat) : TOut :=
  if s.scratchFar a then s.farVal l wide k v else .val (BitVec.ofNat 64 v) s

/-- LDS (R124). Log entry 33 (DEDUCED). -/
def execLds (l : Lane) (ty : MTy) (s : State) : Out :=
  s.lane (.lds l ty) l ty.wide fun k s => s.inOrder k fun s =>
    let a := s.saddr l k
    let n := mbytes ty
    let bad := fun (c : Nat) => if s.cur.isHelper k then TOut.val 0 s else .trap c (stval a) s
    if a % n ≠ 0 then bad 0x05
    else
      match s.scratchLoad s.cur.team a n with
      | .ok v => s.scratchVal l ty.wide k a (widen (mext ty) n v)
      | .fault c => bad c

/-- STS (R124). Log entry 33 (DEDUCED). -/
def execSts (l : Lane) (ty : MTy) (s : State) : Out :=
  s.lane (.sts l ty) l false fun k s => s.inOrder k fun s =>
    if s.cur.isHelper k then .done s
    else
      let a := s.saddr l k
      let n := mbytes ty
      if a % n ≠ 0 then .trap 0x05 (stval a) s
      else
        match s.scratchStore s.cur.team a n (s.src l ty.wide l.b k % 2 ^ (8 * n)) with
        | (.ok _, s) => .done s
        | (.fault c, s) => .trap c (stval a) s

/-- LDFE.keep (R125): a watched granule is read without asking its bit (Table 5-5). Log entry 104 (DESIGN CHOICE). -/
def execLdfeKeep (l : Lane) (ty : MTy) (s : State) : Out :=
  s.lane (.ldfeKeep l ty) l ty.wide fun k s => s.inOrder k fun s =>
    let a := s.saddr l k
    let n := mbytes ty
    let helper := s.cur.isHelper k
    let bad := fun (c : Nat) => if helper then TOut.val 0 s else .trap c (stval a) s
    if a % n ≠ 0 then bad 0x05
    else
      match s.scratchAt s.cur.team a with
      | none => bad 0x07
      | some (t, off) =>
        let x := s.team t
        if helper || x.touches off n || x.isFull (off / 16) then s.scratchVal l ty.wide k a (x.rd off n)
        else .suspend (.granule t (off / 16)) s

/-- LDFE.clear (R125). Log entry 104 (DESIGN CHOICE). -/
def execLdfeClear (l : Lane) (ty : MTy) (s : State) : Out :=
  s.lane (.ldfeClear l ty) l ty.wide fun k s => s.inOrder k fun s =>
    let a := s.saddr l k
    let n := mbytes ty
    let helper := s.cur.isHelper k
    let bad := fun (c : Nat) => if helper then TOut.val 0 s else .trap c (stval a) s
    if a % n ≠ 0 then bad 0x05
    else
      match s.scratchAt s.cur.team a with
      | none => bad 0x07
      | some (t, off) =>
        let x := s.team t
        if x.touches off n then bad 0x0F
        else if helper then s.scratchVal l ty.wide k a (x.rd off n)
        else if x.isFull (off / 16) then
          ((s.setTeam t (x.setFull (off / 16) false)).teamEvent t).scratchVal l ty.wide k a (x.rd off n)
        else .suspend (.granule t (off / 16)) s

/-- STFE (R125). -/
def execStfe (l : Lane) (ty : MTy) (s : State) : Out :=
  s.lane (.stfe l ty) l false fun k s => s.inOrder k fun s =>
    if s.cur.isHelper k then .done s
    else
      let a := s.saddr l k
      let n := mbytes ty
      if a % n ≠ 0 then .trap 0x05 (stval a) s
      else
        match s.scratchStore s.cur.team a n (s.src l ty.wide l.b k % 2 ^ (8 * n)), s.scratchAt s.cur.team a with
        | (.ok _, s), some (t, off) => .done (s.setTeamFe t ((s.team t).setFull (off / 16) true))
        | (.fault c, s), _ => .trap c (stval a) s
        | (.ok _, s), none => .done s

/-- LDFE_RESUME (R108): the granule a split waits for is full. -/
def execLdfeResume (g n : Nat) (s : State) : Out :=
  .next (s.modGroup g fun x => x.modSplit n fun y =>
    match y.mode with
    | .suspended (.granule t gran) => if (s.team t).isFull gran then { y with mode := .ready, age := s.cycle } else y
    | _ => y)

/-- LDC (R126): the constant store holds the parameter bytes and zeros. -/
def execLdc (l : Lane) (ty : MTy) (s : State) : Out :=
  s.lane (.ldc l ty) l ty.wide fun k s =>
    let a := s.saddr l k
    let n := mbytes ty
    let bad := fun (c : Nat) => if s.cur.isHelper k then TOut.val 0 s else .trap c (stval a) s
    if a % n ≠ 0 then bad 0x05
    else if 4096 ≤ a then bad 0x07
    else .val (BitVec.ofNat 64 (widen (mext ty) n (rdNat s.curTeam.const a n))) s

/-! ## Compacting store and expanding load (R127, R128) -/

/-- The base of CSTORE and XLOAD, read from Lowest(). -/
def State.slotBase (s : State) (l : Lane) : W64 := s.gaddr l s.lowest

/-- The split has filled one more slot. Log entry 89 (DEDUCED). -/
def State.nextSlot (s : State) : State := s.modSplit fun x => { x with count := x.count + 1 }

/-- Count the slot once the access has been made. -/
def TOut.slot : TOut → TOut
  | .done s => .done s.nextSlot
  | o => o

/-- One thread of CSTORE or XLOAD. -/
def State.slotThread (s : State) (l : Lane) (ty : MTy) (store : Bool) (pol : Pol) (k : Nat) : TOut :=
  if s.cur.isHelper k then .done s
  else
    let n := mbytes ty
    let va := s.slotBase l + BitVec.ofNat 64 (s.split.count * n)
    if va.toNat % n ≠ 0 then .trap 0x05 va s
    else if store then
      (s.afterGlobal l false true k va
        (s.store s.sacc (.store s.curTeam.ctx) false va n (s.src l ty.wide l.b k % 2 ^ (8 * n)) (polCode pol)) false).slot
    else
      (s.afterGlobal l ty.wide false k va
        (s.load s.sacc (.far s.curGid) va n (polCode pol) (mext ty) true) true (widen (mext ty) n)).slot

/-- CSTORE (R127): the count goes to every active thread once the whole split has completed. -/
def execCstore (l : Lane) (ty : MTy) (pol : Pol) (s : State) : Out :=
  match s.laneBegin (.cstore l ty pol) l with
  | .error s => .next s
  | .ok s =>
    match laneThreads l false (fun k s => s.inOrder k fun s => s.slotThread l ty true pol k) s.toPass s with
    | .out s => .next s
    | .fin s =>
      let s := if never l then s else s.pushFar l false s.active (.value (BitVec.ofNat 64 s.split.count))
      .next (s.laneEnd l.fin)

/-- XLOAD (R127). -/
def execXload (l : Lane) (ty : MTy) (pol : Pol) (s : State) : Out :=
  s.lane (.xload l ty pol) l ty.wide fun k s => s.inOrder k fun s => s.slotThread l ty false pol k

/-! ## Line instructions (R129, R130) -/

/-- Fill the line of an address into the levels a prefetch names (R129): 0 L1 and L2, 1 L2, 2 both as least recently used. A line that a
peer or the host holds is asked for; whatever fails is dropped. -/
def State.prefetch (s : State) (va : W64) (pol : Nat) : State :=
  let x := s.sacc
  let w := Waiter.prefl s.curGid pol
  match s.xlate x va .read with
  | (.fault _, s) => s
  | (.ats, s) => (s.askXlat w x va false).2
  | (.ok l a, s) =>
    let k := lineKey l.space l.peer a
    let near := fun (s : State) => s.keepLine x.core k l.key pol l.nc (s.mem.l2Data k)
    if l.space = 2 then
      if !s.reach l.peer then s
      else if s.leased x.ctx k then (if pol = 2 then { s with mem := s.mem.demote x.core k } else s)
      else (s.askPeer (readReq x w l va a 128 (if pol = 2 then 2 else 0))).2
    else
      let s : State := { s with mem := s.mem.l1Rekey x.core k l.key }
      if l.space = 1 then
        if (s.mem.l2.find k).isSome then near s
        else if s.hostGone then s
        else (s.askHost (readReq x w l va a 128 pol)).2
      else
        match s.l2Get x l a false false with
        | (.here, s) => near s
        | (_, s) => s

/-- PREFL (R129): whatever fails is dropped. -/
def execPrefl (l : Lane) (pol : Pol) (s : State) : Out :=
  s.lane (.prefl l pol) l false fun k s => .done (s.prefetch (s.gaddr l k &&& ~~~127#64) (polCode pol))

/-- ZLINE (R130): a host or peer page is refused before anything is asked of the host. Log entry 103 (DESIGN CHOICE). -/
def execZline (l : Lane) (pol : Pol) (s : State) : Out :=
  s.lane (.zline l pol) l false fun k s => s.inOrder k fun s =>
    let va := s.gaddr l k
    let x := s.sacc
    if s.cur.isHelper k then .done s
    else if va.toNat % 128 ≠ 0 then .trap 0x05 va s
    else
      match s.leafFor x va .write with
      | .error c => .trap c va s
      | .ok (f, src) =>
        if f.space = 1 ∨ f.space = 2 then .trap 0x07 va s
        else
          let a := f.addr va
          let key := lineKey f.space 0 a
          match (s.cacheLeaf x va f src).l2Get x f a true false true with
          | (.here, s) =>
            let m := s.mem.homeWrite key 0 128 0 0
            .done { s with mem := { m with l1 := m.l1.erase (l1Key x.core key) } }
          | (.fault c, s) => .trap c va s
          | (_, s) => .stall s

/-! ## Atomics (R131 to R134) -/

/-- A global atomic of thread k. -/
def State.gatom (s : State) (l : Lane) (wide : Bool) (k : Nat) (f : AtomF) (acq rel : Bool) : TOut :=
  if s.cur.isHelper k then .done s
  else
    let va := s.gaddr l k
    if va.toNat % f.bytes ≠ 0 then .trap 0x05 va s
    else s.afterGlobal l wide true k va (s.atomic s.sacc (.far s.curGid) va f acq rel k) true

/-- A scratch atomic of thread k: REL and ACQ act at .team for the own team and at .gang through a window. -/
def State.satom (s : State) (l : Lane) (wide : Bool) (k : Nat) (f : AtomF) (acq rel : Bool) : TOut :=
  if s.cur.isHelper k then .done s
  else
    let a := s.saddr l k
    let sc : Scope := if a / 2 ^ 20 % 512 = 0 then .team else .gang
    if a % f.bytes ≠ 0 then .trap 0x05 (stval a) s
    else
      let far := s.scratchFar a
      match s.scratchAtomic s.cur.team a f with
      | (.fault c, s) => .trap c (stval a) s
      | (.ok old, s) =>
        let s := if rel then s.releaseAt s.curTeam.core sc else s
        let s := if acq then s.acquireAt s.curTeam.core s.curTeam.ctx sc else s
        if far then s.farVal l wide k old
        else if l.d = .discard then .done s
        else .val (BitVec.ofNat 64 old) s

/-- ATOM (R133). -/
def execAtom (l : Lane) (o : AOp) (ty : ATy) (acq rel : Bool) (s : State) : Out :=
  s.lane (.atom l o ty acq rel) l ty.wide fun k s => s.inOrder k fun s => s.gatom l ty.wide k (.op o ty (s.src l ty.wide l.b k)) acq rel
/-- ACAS (R133). Log entry 19 (DEDUCED). -/
def execAcas (l : Lane) (ty : ATy) (acq rel : Bool) (s : State) : Out :=
  s.lane (.acas l ty acq rel) l ty.wide fun k s => s.inOrder k fun s =>
    s.gatom l ty.wide k (.cas ty.wide (s.src l ty.wide l.b k) (s.src l ty.wide l.c k)) acq rel
/-- ATOMS (R133). -/
def execAtoms (l : Lane) (o : AOp) (ty : ATy) (acq rel : Bool) (s : State) : Out :=
  s.lane (.atoms l o ty acq rel) l ty.wide fun k s => s.inOrder k fun s => s.satom l ty.wide k (.op o ty (s.src l ty.wide l.b k)) acq rel
/-- ACASS (R133). Log entry 19 (DEDUCED). -/
def execAcass (l : Lane) (ty : ATy) (acq rel : Bool) (s : State) : Out :=
  s.lane (.acass l ty acq rel) l ty.wide fun k s => s.inOrder k fun s =>
    s.satom l ty.wide k (.cas ty.wide (s.src l ty.wide l.b k) (s.src l ty.wide l.c k)) acq rel
/-- RED (R133). -/
def execRed (l : Lane) (o : AOp) (ty : ATy) (rel : Bool) (s : State) : Out :=
  s.lane (.red l o ty rel) l ty.wide fun k s => s.inOrder k fun s => s.gatom l ty.wide k (.op o ty (s.src l ty.wide l.b k)) false rel

end Sys2Proof.Machine
end

