-- ==== Sys2Proof/Machine/Matrix.lean ====
section
/-! DEFINITION. The matrix engine (chapter 14): format blocks, the order of sums, commands at issue and at completion, the
A-latch, power tokens and MXSTALL. -/

namespace Sys2Proof.Machine

/-! ## Format blocks (R261, R262) -/

/-- A valid format block. -/
structure MxFmt where
  a : Nat
  b : Nat
  l16 : Bool
  acc : Bool
  ascl : Bool
  bscl : Bool
  adef : Nat
  bdef : Nat

/-- K per step of a format (Table 14-1). -/
def mxK (c : Nat) : Nat := if c = 0 ∨ c = 5 then 64 else if c = 8 ∨ c = 9 then 16 else 32
/-- A pair of Table 14-1. -/
def mxPair (a b : Nat) : Bool :=
  (decide (a = b) && decide (a = 0 ∨ a = 5 ∨ a = 6 ∨ a = 8 ∨ a = 9)) || (decide (1 ≤ a ∧ a ≤ 4) && decide (1 ≤ b ∧ b ≤ 4))
/-- The formats of the integer classes. -/
def mxInt (c : Nat) : Bool := decide (c = 5 ∨ c = 6)

/-- Read a format block: none where it is invalid. -/
def mxFmt (ws : List W64) : Option MxFmt :=
  let w := ws.headD 0
  let f : MxFmt := { a := wbits w 0 4, b := wbits w 4 4, l16 := w.getLsbD 8, acc := w.getLsbD 9, ascl := w.getLsbD 10,
                     bscl := w.getLsbD 11, adef := wbits w 16 8, bdef := wbits w 24 8 }
  let scaled := f.l16 || f.ascl || f.bscl
  if wbits w 12 4 ≠ 0 ∨ wbits w 32 32 ≠ 0 ∨ ws.tail.any (fun x => decide (x ≠ 0)) then none
  else if !mxPair f.a f.b then none
  else if mxK f.a = 16 && scaled then none
  else if f.acc && (!mxInt f.a || f.ascl || f.bscl) then none
  else some f

/-- Elements of a block along K (R262). -/
def MxFmt.len (f : MxFmt) : Nat := if mxK f.a = 16 then 16 else if f.l16 then 16 else 32
/-- Blocks per step. -/
def MxFmt.bpb (f : MxFmt) : Nat := mxK f.a / f.len
/-- Bytes of a panel of n steps (R265). -/
def MxFmt.panel (f : MxFmt) (n : Nat) : Nat := 4096 * n + (if f.bscl then 128 * n * f.bpb else 0)

/-! ## Elements (R193, R194, R264, R268) -/

/-- The 16-bit halfwords of bytes. -/
def halves : List Nat → List Nat
  | a :: b :: r => (a + 256 * b) :: halves r
  | _ => []

/-- The elements of 32 bytes, and whether a quad sets FE. -/
def mxElems (c : Nat) (bytes : List Nat) : List FV × Bool :=
  match c with
  | 0 => (bytes.flatMap fun b => [Fmt.e2m1.read (b % 16), Fmt.e2m1.read (b / 16)], false)
  | 5 =>
    let qs := (halves bytes).map i4xQuad
    (qs.flatMap fun q => q.1.map Fmt.f32.read, qs.any (·.2))
  | 1 | 2 =>
    let lo := fun (i : Nat) => (bytes.getD (i / 2) 0) / 16 ^ (i % 2) % 16
    let hi := fun (i : Nat) => (bytes.getD (16 + i / 4) 0) / 4 ^ (i % 4) % 4
    let f : Fmt := if c = 1 then .e3m2 else .e2m3
    ((List.range 32).map fun i => f.read (lo i + 16 * hi i), false)
  | 3 => (bytes.map Fmt.e4m3.read, false)
  | 4 => (bytes.map Fmt.e5m2.read, false)
  | 6 => (bytes.map fun b => Fmt.f32.read (intToF .f32 .rn 0 (ITy.val .i8 b)).1, false)
  | 8 => ((halves bytes).map Fmt.f16.read, false)
  | _ => ((halves bytes).map Fmt.bf16.read, false)

/-- The elements of 32 bytes as integers (R268). -/
def mxInts (c : Nat) (bytes : List Nat) : List Int :=
  if c = 6 then bytes.map (ITy.val .i8)
  else (halves bytes).flatMap fun q => (i4xQuad q).1.map fun e => (fToInt .f32 .i32 .rz 0 e).1

/-- A value times a power of two. -/
def FV.scale (v : FV) (e : Int) : FV :=
  match v with
  | .fin s n x => .fin s n (x + e)
  | v => v

/-! ## The order of sums (R266 to R268) -/

/-- Infinities of both signs stand among the terms of a sum (R267). -/
def infClash (ts : List FV) : Bool := ts.contains (.inf false) && ts.contains (.inf true)

/-- One block into an FP32 accumulator: one rounding. `e`: the exponent of the scale factor, none for a NaN scale. Infinities of
both signs in the block's sum set IV whatever the accumulator and the scale are (R266, R267). -/
def mxBlock (acc : Nat) (a b : List FV) (e : Option Int) : Nat × FFlags :=
  let ps := (a.zip b).map fun p => p.1.mul p.2
  let fl := flagIf (ps.any (·.2) || infClash (ps.map (·.1))) fIV ||| sigFlag (a ++ b)
  match e with
  | none => (Fmt.nanBits .f32, fl)
  | some e =>
    let r := sumTerms (Fmt.f32.read acc :: ps.map fun p => p.1.scale e) .rn
    let v := r.round .f32 .rn 0
    (v.1, v.2 ||| fl)

/-- One block into an INT32 accumulator. -/
def mxBlockInt (acc : Nat) (a b : List Int) : Nat :=
  ((((a.zip b).foldl (fun (t : Int) (p : Int × Int) => t + p.1 * p.2) (acc : Int)) % 2 ^ 32)).toNat

/-- The exponent of the scale factor of a block. -/
def mxScale (f : MxFmt) (sa sb : Nat) : Option Int :=
  if mxK f.a = 16 then some 0 else if sa = 255 ∨ sb = 255 then none else some ((sa : Int) + sb - 254)

/-- One row or column of a step: its 32 bytes and its scales. -/
abbrev MxVec := List Nat × List Nat

/-- Elements i·len and up of a list. -/
def chunk {α : Type} (l : List α) (len i : Nat) : List α := (l.drop (i * len)).take len

/-- One step into one element. -/
def mxStep (f : MxFmt) (a b : List FV × List Nat) (acc : Nat × FFlags) : Nat × FFlags :=
  (List.range f.bpb).foldl (fun r i =>
    let sa := if f.ascl then a.2.getD i 0 else f.adef
    let sb := if f.bscl then b.2.getD i 0 else f.bdef
    let v := mxBlock r.1 (chunk a.1 f.len i) (chunk b.1 f.len i) (mxScale f sa sb)
    (v.1, r.2 ||| v.2)) acc

/-- One step into a whole tile. -/
def mxTileStep (f : MxFmt) (rows cols : List MxVec) (el : List (List (Nat × FFlags))) : List (List (Nat × FFlags)) :=
  if f.acc then
    let as := rows.map fun r => mxInts f.a r.1
    let bs := cols.map fun c => mxInts f.b c.1
    (as.zip el).map fun p => (bs.zip p.2).map fun q => (mxBlockInt q.2.1 p.1 q.1, q.2.2)
  else
    let as := rows.map fun r => ((mxElems f.a r.1).1, r.2)
    let bs := cols.map fun c => ((mxElems f.b c.1).1, c.2)
    (as.zip el).map fun p => (bs.zip p.2).map fun q => mxStep f p.1 q.1 q.2

/-- A tile as 32 rows of 128 words. -/
def Tile.rows (t : Tile) : List (List Nat) :=
  (List.range 32).map fun i => (List.range 128).map fun j => (t.el.get 0 (128 * i + j)).toNat

/-- The elements of rows of words. -/
def elemsOf (rows : List (List Nat)) : SMap W32 :=
  (rows.flatten.zipIdx).filterMap fun p => if p.1 % 2 ^ 32 = 0 then none else some (p.2, BitVec.ofNat 32 p.1)

/-- Row r of step s of captured rows. -/
def ARows.vec (a : ARows) (s r : Nat) : MxVec :=
  let b := fun (q : Nat) => (a.bytes.get 0 (36 * (32 * s + r) + q)).toNat
  ((List.range 32).map b, (List.range 4).map fun i => b (32 + i))

/-- Column j of step s of a panel in scratchpad (R265). -/
def Team.panelVec (t : Team) (f : MxFmt) (bp n s j : Nat) : MxVec :=
  let rd := fun (a : Nat) => (t.scratch.get 0 a).toNat
  ((List.range 32).map fun q => rd (bp + 4096 * s + 32 * j + q),
   (List.range 4).map fun b => rd (bp + 4096 * n + (128 * s + j) * f.bpb + b))

/-- BADFMT, LZ and WC of the status word (Table 14-3). -/
def stBadfmt : W32 := 0x200
/-- LZ. -/
def stLz : W32 := 0x100
/-- WC. -/
def stWc : W32 := 0x40

/-- A tile of a team. -/
def Team.tile (t : Team) (n : Nat) : Tile := t.tiles.get {} n
/-- Replace a tile of a team. -/
def Team.setTile (t : Team) (n : Nat) (x : Tile) : Team := { t with tiles := t.tiles.insert n x }

/-- MXLOOP when it runs (R272). -/
def Team.mxLoop (t : Team) (tile n : Nat) (za : Bool) (fmt : List W64) (bp : Nat) (rows : ARows) (lz : Bool) : Team :=
  let x := t.tile tile
  match mxFmt fmt with
  | none => t.setTile tile { x with status := x.status ||| stBadfmt }
  | some f =>
    let start := ((if za then ({} : Tile) else x).rows).map fun r => r.map fun v => (v, (0 : FFlags))
    let vecs := (List.range n).map fun s =>
      ((List.range 32).map fun i => rows.vec s i, (List.range 128).map fun j => t.panelVec f bp n s j)
    let el := vecs.foldl (fun el v => mxTileStep f v.1 v.2 el) start
    let fe := (decide (f.a = 5) && vecs.any fun v => v.1.any fun r => (mxElems 5 r.1).2 )
      || (decide (f.b = 5) && vecs.any fun v => v.2.any fun c => (mxElems 5 c.1).2)
    let fl := el.foldl (fun fl r => r.foldl (fun fl v => fl ||| v.2) fl) (flagIf fe fFE)
    t.setTile tile { el := elemsOf (el.map fun r => r.map (·.1)),
                     status := x.status ||| fl.setWidth 32 ||| (if lz then stLz else 0) }

/-! ## MXLD and MXST (R274, R275) -/

/-- MXLD when it runs. -/
def Team.mxLd (t : Team) (tile addr pitch : Nat) : Team :=
  let rows := (List.range 32).map fun i => (List.range 128).map fun j => t.rd (addr + i * pitch + 4 * j) 4
  t.setTile tile { t.tile tile with el := elemsOf rows }

/-- Bytes of a row of 128 elements in a format. -/
def mxRowBytes (c : Nat) : Nat := if c = 0 then 64 else if c = 8 ∨ c = 9 then 256 else if c = 10 then 512 else 128

/-- The floating-point format of a format code of MXST. -/
def mxstFmt (c : Nat) : Fmt :=
  match c with
  | 0 => .e2m1 | 3 => .e4m3 | 4 => .e5m2 | 8 => .f16 | _ => .bf16
/-- The narrow format whose emax SCL takes. -/
def mxstN (c : Nat) : NFmt :=
  match c with
  | 0 => .e2m1 | 3 => .e4m3 | _ => .e5m2

/-- The rounding of a code. -/
def rndOf (c : Nat) : Rnd :=
  match c with
  | 0 => .rn | 1 => .rz | 2 => .ru | 3 => .rd | 4 => .ra | _ => .rs

/-- One element converted. `d`: the scale of its block under SCL. -/
def mxstElem (c : Nat) (mode : Rnd) (inf int : Bool) (d : Option Nat) (draw w : Nat) : Nat × FFlags :=
  if c = 10 then (w, 0)
  else if int then ((ITy.clamp .i8 (ITy.val .i32 w) % 256).toNat, 0)
  else if c = 6 then let r := fToInt .f32 .i8 mode draw w; ((r.1 % 256).toNat, r.2)
  else
    let v := match d with
      | none => Fmt.f32.read w
      | some d => if d = 255 then .nan (Fmt.f32.read w).sig else (Fmt.f32.read w).scale (127 - (d : Int))
    v.convert (mxstFmt c) mode draw inf

/-- The converted elements of a row, the generator and the flags after them. -/
def mxstRow (c : Nat) (mode : Rnd) (inf int : Bool) (ds : Option (List Nat)) :
    List (Nat × Nat) → W64 → FFlags → List Nat × W64 × FFlags
  | [], g, fl => ([], g, fl)
  | (w, j) :: r, g, fl =>
    let draws := decide (mode = .rs) && decide (c ≠ 10) && !int
    let g := if draws then advanceG g else g
    let v := mxstElem c mode inf int (ds.map fun l => l.getD (j / 32) 0) (if draws then wbits g 48 16 else 0) w
    let q := mxstRow c mode inf int ds r g (fl ||| v.2)
    (v.1 :: q.1, q.2)

/-- Elements as bytes in memory (R193). -/
def mxstBytes (c : Nat) (es : List Nat) : List Byte :=
  if c = 0 then (halves es).map fun p => BitVec.ofNat 8 (p % 256 + 16 * (p / 256))
  else es.flatMap fun e => leBytes (mxRowBytes c / 128) e

/-- Write bytes of a command (R113, R281): WC, and with FE the granules. -/
def Team.mxWrite (t : Team) (tile off : Nat) (bytes : List Byte) (fe : Bool) : Team :=
  let r := t.putBytes off bytes
  let t := if fe then r.1.fillGranules off bytes.length else r.1
  if r.2 then t.setTile tile { t.tile tile with status := (t.tile tile).status ||| stWc } else t

/-- MXST when it runs. -/
def Team.mxSt (t : Team) (tile c rnd : Nat) (inf scl clr int fe : Bool) (addr pitch : Nat) : Team :=
  let mode := rndOf rnd
  let rows := ((t.tile tile).rows).zipIdx
  let t := rows.foldl (fun t p =>
    let ds := (List.range 4).map fun b => mxscl (mxstN c) ((chunk p.1 32 b).foldl (fun m w => max m (nexp .f32 w)) 0)
    let t := if scl then t.mxWrite tile (addr + 32 * pitch + 4 * p.2) (ds.map (BitVec.ofNat 8)) fe else t
    let r := mxstRow c mode inf int (if scl then some ds else none) p.1.zipIdx t.gm 0
    let t := { t with gm := r.2.1 }
    let t := t.setTile tile { t.tile tile with status := (t.tile tile).status ||| r.2.2.setWidth 32 }
    t.mxWrite tile (addr + p.2 * pitch) (mxstBytes c r.1) fe) t
  if clr then t.setTile tile { t.tile tile with el := [] } else t

/-! ## The command queue (R270 to R279) -/

/-- A command names a tile. -/
def MxOp.names (o : MxOp) (t : Nat) : Bool :=
  match o with
  | .loop x .. | .ld x .. | .st x .. => decide (x = t)
  | .zero m => m.getLsbD t
  | _ => false
/-- A command takes engine cycles. -/
def MxOp.runs (o : MxOp) : Bool :=
  match o with
  | .wait .. | .rel _ => false
  | _ => true
/-- Two commands name one tile. -/
def MxOp.clash (a b : MxOp) : Bool := (List.range 16).any fun t => a.names t && b.names t
/-- Steps of a command: those of an MXLOOP with a valid format block, and otherwise one. -/
def MxOp.steps (o : MxOp) : Nat :=
  match o with
  | .loop _ n _ fmt .. => if (mxFmt fmt).isSome then n else 1
  | _ => 1
/-- Engine cycles of one step of a command (R279). -/
def MxOp.cost (o : MxOp) : Nat :=
  match o with
  | .loop _ _ _ fmt .. => if (mxFmt fmt).isSome then 8 else 1
  | .zero m => (List.range 16).countP m.getLsbD
  | .ld .. => 32
  | .st _ _ _ _ scl .. => if scl then 36 else 32
  | .wait .. | .rel _ => 0

/-- The result of an MXWAIT (R277): it leaves for its registers. -/
def State.mxResult (s : State) (c : MxCmd) : State :=
  match c.op with
  | .wait stall tile clr tag =>
    let t := s.team c.team
    let v := if stall then t.mxstall else (t.tile tile).status.setWidth 64
    let s := if clr && !stall then s.setTeam c.team (t.setTile tile { t.tile tile with status := 0 }) else s
    let land := fun (f : Far) => if f.src = .matrix tag then { f with src := FarSrc.value v } else f
    s.modGroup c.gid fun g => { g with far := g.far.map land }
  | _ => s

/-- Pass the queue once: MXWAITs whose commands have completed write their results, MXRELs free the latch. -/
def State.mxPass (s : State) (core : Nat) (kept : List MxCmd) : List MxCmd → List MxCmd × State
  | [] => (kept.reverse, s)
  | c :: r =>
    match c.op with
    | .wait stall tile _ _ =>
      if kept.any fun k => k.op.runs && decide (k.team = c.team) && (stall || k.op.names tile) then
        s.mxPass core (c :: kept) r
      else (s.mxResult c).mxPass core kept r
    | .rel gid =>
      if kept.any fun k => k.op.runs && decide (k.gid = gid) then s.mxPass core (c :: kept) r
      else (s.modCore core fun x => if x.alatch.map (·.gid) = some gid then { x with alatch := none } else x).mxPass core kept r
    | _ => s.mxPass core (c :: kept) r

/-- Settle the queue of a core; the latch of a group that has ended is freed once its commands have completed (R271). -/
def State.mxSettle (s : State) (core : Nat) : State :=
  let r := s.mxPass core [] (s.core core).mxq
  let s := r.2.modCore core fun x => { x with mxq := r.1 }
  s.modCore core fun x => x.freeLatch fun g => (s.group g).ended

/-- Enter a command, or suspend on a full queue (R270). `due`: the cycle in which its A read has finished. -/
def State.mxPush (s : State) (op : MxOp) (latch : Bool) (due : Nat := 0) : Flow :=
  let c := s.curTeam.core
  if 64 ≤ (s.core c).mxq.length then .out (s.suspend s.lowest .mxQueue)
  else
    let cmd : MxCmd := { team := s.cur.team, gid := s.curGid, op := op, latch := latch, due := due }
    .fin ((s.modCore c fun x => { x with mxq := x.mxq ++ [cmd] }).mxSettle c)

/-- A matrix instruction (R270): illegal where its tile is not the team's; performed when Lowest()'s guard is true. -/
def State.mxIssue (s : State) (i : Instr) (l : Lane) (ok : Bool) (f : State → Flow) : Out :=
  if !ok then s.killLane
  else s.laneOnce i l fun s => if s.guard l s.lowest then f (s.markLatch l) else .fin s

/-- The checks of R270 in order: the first that fails. Log entry 36 (DEDUCED). -/
def mxChecks (cs : List (Bool × Nat × Nat)) : Option (Nat × Nat) := (cs.find? (·.1)).map (·.2)

/-- A 32-bit operand of Lowest(). -/
def State.mxSrc (s : State) (l : Lane) (x : Src) : Nat := (s.reg32 l.imm x s.lowest).toNat

/-- A precise trap of a matrix instruction. -/
def State.mxTrap (s : State) (e : Nat × Nat) : Flow := .out (s.laneTrap s.lowest e.1 (BitVec.ofNat 64 e.2))

/-- A scratch address reaches past bit 19. -/
def farAddr (a : Nat) : Bool := decide (2 ^ 20 ≤ a)

/-! ### MXLOOP and the A-latch (R264, R271) -/

/-- The block of registers of every row (R264). -/
def State.mxRows (s : State) (base n : Nat) : ARows :=
  let act := s.split.mask
  let row := fun (st i : Nat) =>
    if act.getLsbD i then
      ((List.range 8).flatMap fun q => leBytes 4 (s.cur.rget i (s.entry (base + 8 * st + q))).toNat)
        ++ leBytes 4 (s.cur.rget i (s.entry (base + 8 * n + st))).toNat
    else List.replicate 32 0 ++ List.replicate 4 127
  let all := (List.range n).flatMap fun st => (List.range 32).flatMap fun i => row st i
  { steps := n, bytes := (all.zipIdx).filterMap fun p => if p.1 = 0 then none else some (p.2, p.1) }

/-- Rows of steps that are not latched: zeros. -/
def ARows.upTo (a : ARows) (n : Nat) : ARows :=
  { steps := n, bytes := a.bytes.filter fun p => decide (p.1 < 36 * 32 * min n a.steps) }

/-- The latch is free or the group's own, and no queued command of the group reads it (R271). -/
def Core.latchFor (c : Core) (gid : Nat) : Bool :=
  match c.alatch with
  | none => true
  | some a => decide (a.gid = gid) && !c.mxq.any fun q => q.latch && decide (q.gid = gid)

/-- An MXREL of a group waits in a core's queue. -/
def Core.releasing (c : Core) (gid : Nat) : Bool := c.mxq.any fun q => decide (q.op = .rel gid)

/-- The A rows of an MXLOOP: from registers, taking the latch, or from the latch; whether rows were missing. None:
the split suspends. Behind an MXREL of its group that is still queued a read of the latch finds it freed, and a register form takes
it again in place of that MXREL. Log entry 42 (DEDUCED). -/
def State.mxTake (s : State) (x : Src) (n : Nat) : Option (ARows × Bool × Bool × State) :=
  let cn := s.curTeam.core
  let c := s.core cn
  let take := fun (r : ARows) =>
    let s := s.modCore cn fun c =>
      { c with alatch := some { gid := s.curGid, rows := r }, mxq := c.mxq.filter fun q => decide (q.op ≠ .rel s.curGid) }
    if s.curTeam.rows.map (·.1) = some s.curGid then s.modTeam s.cur.team (fun t => { t with rows := none }) else s
  match x with
  | .t b =>
    if c.latchFor s.curGid then
      let r := s.mxRows b.val n
      some (r, false, true, take r)
    else none
  | _ =>
    match c.alatch, s.curTeam.rows with
    | some a, saved =>
      if a.gid = s.curGid then
        if c.releasing s.curGid then some ({ steps := n }, true, false, s)
        else some (a.rows.upTo n, decide (a.rows.steps < n), true, s)
      else if (saved.map (·.1)) = some s.curGid then none
      else some ({ steps := n }, true, false, s)
    | none, some (g, r) =>
      if g = s.curGid then some (r.upTo n, decide (r.steps < n), true, take r) else some ({ steps := n }, true, false, s)
    | none, none => some ({ steps := n }, true, false, s)

/-- MXLOOP (R272) at issue. Log entry 42 (DEDUCED). -/
def execMxloop (l : Lane) (tile : Fin 16) (n : Fin 4) (za : Bool) (s : State) : Out :=
  s.mxIssue (.mxloop l tile n za) l (decide (tile.val < s.curTeam.kernel.tiles)) fun s =>
    let steps := n.val + 1
    let bp := s.mxSrc l l.b
    let fa := s.mxSrc l l.c
    let t := s.curTeam
    let ws := (List.range 8).map fun i => BitVec.ofNat 64 (t.rd (fa + 8 * i) 8)
    let ext := ((mxFmt ws).map fun f => f.panel steps).getD (4096 * steps)
    match mxChecks [(farAddr bp, 0x07, bp), (farAddr fa, 0x07, fa), (decide (bp % 16 ≠ 0), 0x05, bp),
        (decide (fa % 64 ≠ 0), 0x05, fa), (decide (t.size' < fa + 64), 0x07, fa), (decide (t.size' < bp + ext), 0x07, bp)] with
    | some e => s.mxTrap e
    | none =>
      if 64 ≤ (s.core t.core).mxq.length then .out (s.suspend s.lowest .mxQueue)
      else
        match s.mxTake l.a steps with
        | none => .out (s.suspend s.lowest .aLatch)
        | some (rows, lz, latch, s) =>
          let due := match l.a with
            | .t _ => s.cycle + 9 * steps + 1
            | _ => 0
          s.mxPush (.loop tile.val steps za ws bp rows lz) latch due

/-- MXZERO (R273) at issue. -/
def execMxzero (l : Lane) (s : State) : Out :=
  s.mxIssue (.mxzero l) l (decide (l.imm.toNat < 2 ^ s.curTeam.kernel.tiles)) fun s =>
    s.mxPush (.zero (l.imm.setWidth 16)) false

/-- MXLD (R274) at issue. -/
def execMxld (l : Lane) (tile : Fin 16) (s : State) : Out :=
  s.mxIssue (.mxld l tile) l (decide (tile.val < s.curTeam.kernel.tiles)) fun s =>
    let a := s.mxSrc l l.a
    let p := s.mxSrc l l.b
    match mxChecks [(farAddr a, 0x07, a), (decide (a % 16 ≠ 0), 0x05, a), (decide (p % 16 ≠ 0), 0x05, p),
        (decide (s.curTeam.size' < a + 31 * p + 512), 0x07, a)] with
    | some e => s.mxTrap e
    | none => s.mxPush (.ld tile.val a p) false

/-- MXST (R275) at issue. -/
def execMxst (l : Lane) (tile : Fin 16) (fmt : BitVec 4) (s : State) : Out :=
  s.mxIssue (.mxst l tile fmt) l (decide (tile.val < s.curTeam.kernel.tiles)) fun s =>
    let a := s.mxSrc l l.a
    let p := s.mxSrc l l.b
    let c := fmt.toNat
    let scl := l.imm.getLsbD 4
    let top := max (a + 31 * p + mxRowBytes c) (if scl then a + 32 * p + 128 else 0)
    match mxChecks [(farAddr a, 0x07, a), (decide (a % 16 ≠ 0), 0x05, a), (decide (p % 16 ≠ 0), 0x05, p),
        (decide (s.curTeam.size' < top), 0x07, a)] with
    | some e => s.mxTrap e
    | none => s.mxPush (.st tile.val c (l.imm.toNat % 8) (l.imm.getLsbD 3) scl (l.imm.getLsbD 5) (l.imm.getLsbD 6)
        (l.imm.getLsbD 7) a p) false

/-- A number no far result of the group carries. -/
def Group.farTag (g : Group) : Nat := g.far.foldl (fun n f => match f.src with | .matrix t => max n (t + 1) | _ => n) 0

/-- MXWAIT at issue: its result is on its way to every active thread. -/
def State.mxWait (s : State) (l : Lane) (stall : Bool) (tile : Nat) (clr : Bool) : Flow :=
  if 64 ≤ (s.core s.curTeam.core).mxq.length then .out (s.suspend s.lowest .mxQueue)
  else
    let tag := s.cur.farTag
    (s.pushFar l stall s.active (.matrix tag)).mxPush (.wait stall tile clr tag) false

/-- MXWAIT.st (R277). -/
def execMxwaitSt (l : Lane) (tile : Fin 16) (clr : Bool) (s : State) : Out :=
  s.mxIssue (.mxwaitSt l tile clr) l (decide (tile.val < s.curTeam.kernel.tiles)) fun s => s.mxWait l false tile.val clr
/-- MXWAIT.stall (R277): CLR has nothing to clear. Its TILE is 0, which a team without tiles does not have (R269).
Log entry 36 (DEDUCED). -/
def execMxwaitStall (l : Lane) (clr : Bool) (s : State) : Out :=
  s.mxIssue (.mxwaitStall l clr) l (decide (0 < s.curTeam.kernel.tiles)) fun s => s.mxWait l true 0 clr

/-- MXREL (R278). -/
def execMxrel (l : Lane) (s : State) : Out :=
  s.mxIssue (.mxrel l) l true fun s =>
    if ((s.core s.curTeam.core).alatch.map (·.gid)) = some s.curGid then s.mxPush (.rel s.curGid) false else .fin s

/-! ## Running commands (R279, R281, R282) -/

/-- The cluster of a core (R454): die and cluster. -/
def State.clusterOf (s : State) (core : Nat) : Nat × Nat := (s.physOf core / 72, s.physOf core % 72 / 8)
/-- A die's token ring. -/
def State.ring (s : State) (die : Nat) : Ring := s.rings.get {} die
/-- A cluster holds a token (R280). -/
def State.hasToken (s : State) (die cl : Nat) : Bool :=
  (s.ring die).tokens.any fun t => decide (t.1 = cl) && decide (t.2 ≤ s.cycle)

/-- The command has not started, or is an MXLOOP with steps left to start. -/
def MxCmd.unrun (c : MxCmd) : Bool := c.op.runs && (!c.started || decide (0 < c.left))

/-- The next command of a queue to start or to go on, with those before it that have not completed. -/
def mxNext : List MxCmd → List MxCmd → Option (List MxCmd × MxCmd)
  | _, [] => none
  | before, c :: r => if c.unrun then some (before, c) else mxNext (before ++ [c]) r

/-- The next step of a command may start in a cycle but for the token (R279): its A read or its last step has finished, the command
before it has had its engine cycles, and none that names its tile is left. -/
def startable (now : Nat) (before : List MxCmd) (c : MxCmd) : Bool :=
  decide (c.due ≤ now) && !before.any fun b => b.started && (decide (now < b.due) || b.op.clash c.op)
/-- The command is an MXLOOP that needs a token. -/
def MxCmd.needsToken (c : MxCmd) : Bool :=
  match c.op with
  | .loop _ _ _ fmt _ _ _ => (mxFmt fmt).isSome
  | _ => false

/-- A core has an MXLOOP ready to start a step but for the token (R280): its team. -/
def State.tokenReady (s : State) (core : Nat) : Option Nat :=
  match mxNext [] (s.core core).mxq with
  | some (before, c) => if startable s.cycle before c && c.needsToken then some c.team else none
  | none => none

/-- Some core of a cluster has an MXLOOP ready. -/
def State.clusterReady (s : State) (die cl : Nat) : Bool :=
  s.cores.any fun p => decide (s.clusterOf p.1 = (die, cl)) && (s.tokenReady p.1).isSome

/-- A command's next step starts in a cycle. -/
def MxCmd.step (c : MxCmd) (now : Nat) : MxCmd :=
  { c with started := true, left := (if c.started then c.left else c.op.steps) - 1, due := now + c.op.cost }

/-- Start the next step of the first command that has one. -/
def markStart (now : Nat) : List MxCmd → List MxCmd
  | [] => []
  | c :: r => if c.unrun then c.step now :: r else c :: markStart now r

/-- MX_COMMAND_START (R279, R280): the engine's next command starts, or the MXLOOP it runs starts its next step. -/
def execMxCommandStart (core : Nat) (s : State) : Out :=
  match mxNext [] (s.core core).mxq with
  | some (before, c) =>
    let cl := s.clusterOf core
    if startable s.cycle before c && (!c.needsToken || s.hasToken cl.1 cl.2) then
      .next (s.modCore core fun x => { x with mxq := markStart s.cycle x.mxq })
    else .next s
  | none => .next s

/-- The effects of a command (R272 to R275). Log entry 42 (DEDUCED). -/
def State.mxEffect (s : State) (c : MxCmd) : State :=
  match c.op with
  | .loop tile n za fmt bp rows lz =>
    let s := s.modTeam c.team fun t => t.mxLoop tile n za fmt bp rows (lz && (mxFmt fmt).isSome)
    if lz && (mxFmt fmt).isSome then s.modContext (s.team c.team).ctx fun x => { x with latch := true } else s
  | .zero m => s.modTeam c.team fun t => (List.range 16).foldl (fun t i => if m.getLsbD i then t.setTile i {} else t) t
  | .ld tile a p => s.modTeam c.team fun t => t.mxLd tile a p
  | .st tile f r inf scl clr int fe a p =>
    s.setTeamFe c.team ((s.team c.team).mxSt tile f r inf scl clr int fe a p)
  | .wait .. | .rel _ => s

/-- Take the first started command out of a queue. -/
def takeStarted : List MxCmd → Option (MxCmd × List MxCmd)
  | [] => none
  | c :: r => if c.started then some (c, r) else (takeStarted r).map fun p => (p.1, c :: p.2)

/-- MX_COMMAND_COMPLETE (R279): the oldest started command's effects are complete, 16 cycles after its last engine cycle. -/
def execMxCommandComplete (core : Nat) (s : State) : Out :=
  match takeStarted (s.core core).mxq with
  | some (c, rest) => if 0 < c.left ∨ s.cycle < c.due + 15 then .next s else .next (((s.modCore core fun x => { x with mxq := rest }).mxEffect c).mxSettle core)
  | none => .next s

/-- MX_QUEUE_REISSUE (R270): an entry has freed. -/
def execMxQueueReissue (g sl : Nat) (s : State) : Out :=
  if (s.core (s.coreOf g)).mxq.length < 64 then
    .next (s.modGroup g fun x => x.modSplit sl fun y =>
      if y.mode = .suspended .mxQueue then { y with mode := .ready, age := s.cycle } else y)
  else .next s

/-- ALATCH_ACQUIRE (R271): the latch has become free, or its reader has completed. -/
def execAlatchAcquire (g sl : Nat) (s : State) : Out :=
  if (s.core (s.coreOf g)).latchFor g then
    .next (s.modGroup g fun x => x.modSplit sl fun y =>
      if y.mode = .suspended .aLatch then { y with mode := .ready, age := s.cycle } else y)
  else .next s

/-! ## Tokens (R280) -/

/-- Move the token of a cluster to the next one, to arrive at a cycle. -/
def Ring.pass (r : Ring) (cl at_ : Nat) : Ring :=
  { r with tokens := r.tokens.map fun t => if t.1 = cl then ((cl + 1) % 9, at_) else t }
/-- A token is at a cluster or on its way there. -/
def Ring.taken (r : Ring) (cl : Nat) : Bool := r.tokens.any fun t => decide (t.1 = cl)

/-- TOKEN_ARRIVAL (R280): the cluster before has no MXLOOP ready and has passed its token on 16 cycles ago. -/
def execTokenArrival (die cl : Nat) (s : State) : Out :=
  let r := s.ring die
  let prev := (cl + 8) % 9
  let gone := r.tokens.any fun t => decide (t.1 = prev) && decide (t.2 + 16 ≤ s.cycle)
  if gone && decide (cl < 9) && !r.taken cl && !s.clusterReady die prev then
    .next { s with rings := s.rings.insert die (r.pass prev s.cycle) }
  else .next s

/-- TOKEN_HOLD_TIMEOUT (R280): 4,096 cycles after it came the token goes on; it arrives a hop later. -/
def execTokenHoldTimeout (die cl : Nat) (s : State) : Out :=
  let r := s.ring die
  let old := r.tokens.any fun t => decide (t.1 = cl) && decide (t.2 + 4096 ≤ s.cycle)
  if old && decide (cl < 9) && !r.taken ((cl + 1) % 9) then
    .next { s with rings := s.rings.insert die (r.pass cl (s.cycle + 16)) }
  else .next s

/-- Set a ring's token count, 1 to 9 (R280): tokens beyond it leave; new ones start at clusters without one (log entry 17). -/
def Ring.setCount (r : Ring) (n cyc : Nat) : Ring :=
  let n := max 1 (min n 9)
  let kept := r.tokens.take n
  let free := (List.range 9).filter fun c => !kept.any fun t => decide (t.1 = c)
  { count := n, tokens := kept ++ (free.take (n - kept.length)).map fun c => (c, cyc) }

/-- SUPPLY_DROOP (R14, R280): firmware lowers the count of a die's ring. -/
def execSupplyDroop (die count : Nat) (s : State) : Out :=
  let r := s.ring die
  if die < 4 ∧ 1 ≤ count ∧ count < r.count then .next { s with rings := s.rings.insert die (r.setCount count s.cycle) }
  else .next s

/-- MXSTALL (R280): cycles in which an MXLOOP of a team could start but for the token. -/
def State.accrueStall (s : State) (n : Nat) : State :=
  s.cores.foldl (fun s p =>
    match s.tokenReady p.1 with
    | some t =>
      let cl := s.clusterOf p.1
      if s.hasToken cl.1 cl.2 then s else s.modTeam t fun x => { x with mxstall := x.mxstall + BitVec.ofNat 64 n }
    | none => s) s

end Sys2Proof.Machine
end

