-- ==== Sys2Proof/Machine/Place.lean ====
section
/-! DEFINITION. The distributor: placement of teams and gangs (R361 to R366), pending groups (R363, R367 to R369), the end of
a team, and lost cores (R418, R433). -/

namespace Sys2Proof.Machine

/-! ## Lane pairs (R361 to R363) -/

/-- The groups that hold a slot of a lane pair; a killed group holds its own until its team ends (R46). -/
def State.pairGroups (s : State) (core lp : Nat) : SMap Group :=
  s.groups.filter fun p =>
    let t := s.team p.2.team
    (!p.2.ended || p.2.killed) && p.2.slot.isSome && decide (p.2.lp = lp) && decide (t.core = core) && !t.saved && !t.lost

/-- Slots of a lane pair in use. -/
def State.slotsUsed (s : State) (core lp : Nat) : List Nat := (s.pairGroups core lp).filterMap fun p => p.2.slot
/-- The lowest free slot of 8 from a first one. -/
def freeSlot (used : List Nat) (first : Nat) : Option Nat := ((List.range 8).map (first + ·)).find? fun n => !used.contains n

/-- Granules of a lane pair in use. -/
def State.granUsed (s : State) (core lp : Nat) : List Nat :=
  (s.pairGroups core lp).flatMap fun p => match p.2.granule with
    | some g => (List.range (s.team p.2.team).kernel.regs16).map (g + ·)
    | none => []
/-- First fit of r contiguous granules (R362). -/
def firstFit (used : List Nat) (r : Nat) : Option Nat :=
  (List.range (25 - r)).find? fun g => (List.range r).all fun i => !used.contains (g + i)

/-- The group a lane pair is in reserve state for, while that group holds a slot of it (R363). Log entry 56 (DEDUCED). -/
def State.reservedFor (s : State) (core lp : Nat) : Option Nat :=
  (s.lanePair core lp).reserve.filter fun g => (s.pairGroups core lp).any fun p => decide (p.1 = g)

/-- The launch a lane pair is in reserve state for, while a team of it is being placed (R363). Log entry 56 (DEDUCED). -/
def State.claimedBy (s : State) (core lp : Nat) : Option Nat :=
  ((s.lanePair core lp).claim.filter fun c => c.2.2).map (·.1)

/-- A block for a group or for a team of a launch on a lane pair; in reserve state for the waiting one only (R363). Log entry 56 (DEDUCED). -/
def State.blockFor (s : State) (core lp r : Nat) (gid launch : Option Nat) : Option Nat :=
  let fits := firstFit (s.granUsed core lp) r
  match s.reservedFor core lp, s.claimedBy core lp with
  | some g, _ => if gid = some g then fits else none
  | none, some n => if launch = some n then fits else none
  | none, none => fits

/-! ## Starting a team (R52, R126, R200, R260, R276) -/

/-- How many threads of group i of a team are of the grid. -/
def liveThreads (n i : Nat) : Nat := min 32 (n - 32 * i)

/-- A generator state from its mix of a seed (R200, R276). -/
def seeded (seed : W64) (n : Nat) (k : W64) : W64 :=
  let v := seed ^^^ (BitVec.ofNat 64 n * k)
  if v = 0 then 0x9E3779B97F4A7C15 else v

/-- Group i of a team at its start (R52). CTXIMG is what the ROM has set, a free value. Log entry 63 (DESIGN CHOICE). -/
def startGroup (t : Team) (tid devid i : Nat) (img : W64) (lp slot : Nat) (gran : Option Nat) : Group :=
  let n := liveThreads t.nthreads i
  let made := (n + 3) / 4 * 4
  let thr := (List.range 32).map fun k =>
    let l := (t.lin * t.kernel.team + i) * 32 + k
    let life := if k < n then Life.live else if k < made then Life.helper else Life.retired
    ((k, { life := life, gen := seeded t.seed l 0x9E3779B97F4A7C15, tlin := BitVec.ofNat 32 l }) : Nat × Thr)
  let ss := [t.param, BitVec.ofNat 64 t.lin, BitVec.ofNat 64 i, BitVec.ofNat 64 t.teams, BitVec.ofNat 64 t.gang,
    BitVec.ofNat 64 t.gidx, BitVec.ofNat 64 devid, BitVec.ofNat 64 t.ctx]
  let sreg := ss.zipIdx.foldl (fun (m : SMap W64) p => m.put 0 (p.2 + 1) p.1) []
  { team := tid, idx := i, lp := lp, slot := some slot, granule := gran, mode := if t.sysTeam then .priv else .user,
    sreg := sreg, spc := t.kernel.sentry, thr := thr, splits := [(0, { mask := maskOf (List.range made), mode := .waitNext })],
    ctximg := img }

/-- A place for the next group of a team of a launch on a core (R362): lane pair, slot, granule. -/
def State.groupPlace (s : State) (core r launch : Nat) : Option (Nat × Nat × Option Nat) :=
  let active := (List.range 16).findSome? fun lp =>
    match freeSlot (s.slotsUsed core lp) 0, s.blockFor core lp r none (some launch) with
    | some sl, some g => some (lp, sl, some g)
    | _, _ => none
  match active with
  | some p => some p
  | none => (List.range 16).findSome? fun lp => (freeSlot (s.slotsUsed core lp) 8).map fun sl => (lp, sl, none)

/-- Place the groups of a team, in ascending index. Log entry 63 (DESIGN CHOICE). -/
def State.placeGroups (s : State) (tid core : Nat) (t : Team) : List Nat → Option State
  | [] => some s
  | i :: r =>
    match s.groupPlace core t.kernel.regs16 t.launch with
    | none => none
    | some (lp, slot, gran) =>
      let d := s.draw
      let g := startGroup t tid d.2.fabric.devid i d.1 lp slot gran
      ({ d.2 with groups := d.2.groups.insert d.2.nextGid g, nextGid := d.2.nextGid + 1 } : State).placeGroups tid core t r

/-- Teams that hold resources of a core. -/
def State.onCore (s : State) (core : Nat) : SMap Team := s.teams.filter fun p => decide (p.2.core = core) && !p.2.saved && !p.2.lost

/-- A core is in user service, on a die that is up (R10, R426). -/
def State.inService (s : State) (core : Nat) : Bool :=
  decide (core < 256) && !(s.core core).failed && s.boot.ready.getLsbD (4 + s.physOf core / 72) && !s.boot.coreOff

/-- The resources of R361 but the groups' fit on a core, with the watch-table entries the team brings. -/
def State.coreFits (s : State) (core : Nat) (k : Kernel) (watch : Nat) : Bool :=
  let sum := fun (f : Kernel → Nat) => (s.onCore core).foldl (fun n p => n + f p.2.kernel) 0
  decide (sum (·.scrb) + k.scrb ≤ 14) && decide (sum (·.copyq) + k.copyq ≤ 64) && decide (sum (·.tiles) + k.tiles ≤ 16)
    && decide (s.watchUsed core + watch ≤ 64)

/-- The L1 of a core after teams have taken or given back SRAM banks: from `old` banks to what is left (R104). -/
def State.refitL1 (s : State) (core old : Nat) : State := { s with mem := s.mem.l1Resize core old (s.l1Banks core) }

/-- A free team slot of a core (R413). -/
def State.freeTeamSlot (s : State) (core : Nat) : Option Nat :=
  (List.range 16).find? fun n => !((s.onCore core).any fun p => decide (p.2.tslot = n))

/-- A team at its start. -/
def startTeam (l : Launch) (n core tslot lin gang first size : Nat) : Team :=
  let k := l.kernel
  let w : Watch := { kind := .control, off := 0, len := 256 }
  let gm := seeded l.seed (lin + 1) 0xD1B54A32D192ED03
  let t : Team := { launch := n, ctx := l.ctx, lin := lin, core := core, tslot := tslot, gang := gang, gidx := lin - first, first := first }
  let t := { t with size := size, kernel := k, nthreads := l.nthreads, teams := l.teams, param := l.param, seed := l.seed }
  let t := { t with const := l.bytes, watch := [w], ringsFree := k.rings, gm := gm }
  (List.range k.bars).foldl (fun t b => t.setBar b 0 k.team 0 0) t

/-- Place a team of a launch on a core, if everything fits; its core's L1 gives up the banks it takes (R104) and acquires at .dev (R373).
Log entry 62 (DEDUCED). -/
def State.placeOn (s : State) (n : Nat) (l : Launch) (lin gang first size core : Nat) : Option State :=
  if !s.inService core || !s.coreFits core l.kernel (1 + l.kernel.rings) then none
  else
    match s.freeTeamSlot core with
    | none => none
    | some ts =>
      let t := startTeam l n core ts lin gang first size
      let tid := s.nextTeam
      let was := s.l1Banks core
      let s : State := { s with teams := s.teams.insert tid t, nextTeam := tid + 1, cores := s.cores.insert core (s.core core) }
      (s.placeGroups tid core t (List.range l.kernel.team)).map fun s => (s.refitL1 core was).acquireAt core l.ctx .dev

/-- Place a team on the first core that takes it (R362). -/
def State.placeTeam (s : State) (n : Nat) (l : Launch) (lin gang first size : Nat) : Option State :=
  (List.range 256).findSome? fun c => s.placeOn n l lin gang first size c

/-- Place teams lin, lin + 1, … of a gang, all or none (R365). -/
def State.placeTeams (s : State) (n : Nat) (l : Launch) (gang first size : Nat) : List Nat → Option State
  | [] => some s
  | i :: r => (s.placeTeam n l (first + i) gang first size).bind fun s => s.placeTeams n l gang first size r

/-! ## Launches (R364 to R366) -/

/-- A launch. -/
def State.launch? (s : State) (n : Nat) : Option Launch := s.launches.find n
/-- Replace a launch. -/
def State.setLaunch (s : State) (n : Nat) (l : Launch) : State := { s with launches := s.launches.insert n l }

/-- A launch still has a team to place. -/
def Launch.open_ (l : Launch) : Bool := !l.nofit && !l.tabBad && (decide (l.next < l.teams) || decide (l.redo ≠ []))

/-- An earlier launch of the same or a higher priority still has a team to place, or is being decoded (R364). -/
def State.launchBehind (s : State) (l : Launch) : Bool :=
  (s.launches.any fun p => p.2.open_ && decide (p.2.ctx ∉ (s.contexts.filter fun c => c.2.killed).map (·.1))
      && (decide (l.prio < p.2.prio) || (decide (p.2.prio = l.prio) && decide (p.2.cmd < l.cmd))))
    || (s.cmds.any fun c => decide (wbits (c.words.getD 0 0) 0 8 = 1) && decide (c.launch = none) && decide (c.num < l.cmd)
      && (c.queue.map fun q => decide (l.prio ≤ (s.queue q).prio)).getD false)

/-- The command of a launch as an accessor (R457); the system core that serves it is core 256. Log entry 21 (DESIGN CHOICE). -/
def cmdAccOf (ctx : Nat) (priv : Bool) : Acc := { core := 256, ctx := ctx, mode := if priv then .priv else .user, gid := 2 ^ 40 }

/-- The command with a number. -/
def State.cmd? (s : State) (n : Nat) : Option Cmd := s.cmds.find? fun c => decide (c.num = n)

/-- Write the descriptor of a launch's next gang (R366). Log entries 57 (DEDUCED), 87 (DEDUCED). -/
def State.writeGang (s : State) (l : Launch) (size : Nat) (pref : Bool) : ERes × State :=
  let desc := [BitVec.ofNat 64 (l.next * 2 ^ 32 + size), if pref then 1 else 0]
  let priv := ((s.cmd? l.cmd).map (·.priv)).getD false
  if l.gangtab = 0 then (.ok [], s)
  else s.engWrite (cmdAccOf l.ctx priv) (.store l.ctx) (l.gangtab + BitVec.ofNat 64 (16 * l.gangs.length)) (wordBytes desc)

/-- Place the next gang of a launch, of a size: its descriptor is written before any team of it starts (R366). -/
def State.placeGang (s : State) (n : Nat) (l : Launch) (size : Nat) (pref : Bool) : Option State :=
  (s.placeTeams n l l.gangs.length l.next size (List.range size)).map fun s =>
    let s := (s.writeGang l size pref).2
    s.setLaunch n { l with next := l.next + size, gangs := l.gangs ++ [{ first := l.next, size := size, pref := pref }] }

/-- The device as it would be with nothing placed. Log entry 57 (DEDUCED). -/
def State.emptied (s : State) : State :=
  { s with teams := [], groups := [], lanePairs := [], boot := { s.boot with ready := 0x1FFFFF, coreOff := false } }

/-- No lane pair waits for a launch any longer: its block has been allocated (R363). -/
def State.unclaim (s : State) (n : Nat) : State :=
  { s with lanePairs := s.lanePairs.map fun p => (p.1, { p.2 with claim := p.2.claim.filter fun c => decide (c.1 ≠ n) }) }

/-- The next gang of a launch (R365). -/
def State.cutGang (s : State) (n : Nat) (l : Launch) : State :=
  let left := l.teams - l.next
  let p := l.kernel.gangp
  let big := if !l.fallback && decide (p ≤ left) then s.placeGang n l p true else none
  match big with
  | some s => s.unclaim n
  | none =>
    let l := { l with fallback := true }
    let size := min l.kernel.gangf left
    match s.placeGang n l size false with
    | some s => s.unclaim n
    | none =>
      if (s.emptied.placeTeams n l 0 0 size (List.range size)).isNone then s.setLaunch n { l with nofit := true }
      else s.setLaunch n l

/-- The next gang of a launch, once its descriptor can be written; where that address fails, no further gang is placed
(R354). Log entry 57 (DEDUCED). -/
def State.nextGang (s : State) (n : Nat) (l : Launch) : State :=
  match s.writeGang l 1 false with
  | (.ok _, _) => s.cutGang n l
  | (.fault _, _) => s.setLaunch n { l with tabBad := true }
  | (.wait, t) => t

/-- A team that starts again keeps its index and its place in its gang (R418). Log entry 58 (DEDUCED). -/
def State.redoTeam (s : State) (n : Nat) (l : Launch) (lin : Nat) : State :=
  match l.gangs.zipIdx.find? fun p => decide (p.1.first ≤ lin) && decide (lin < p.1.first + p.1.size) with
  | some (g, k) =>
    (match s.placeTeam n l lin k g.first g.size with
     | some s => (s.unclaim n).setLaunch n { l with redo := l.redo.filter fun i => decide (i ≠ lin) }
     | none => s)
  | none => s

/-! ### Restore (R415) -/

/-- Give a saved team's groups slots again. -/
def State.replaceGroups (s : State) (core : Nat) (t : Team) : List Nat → Option State
  | [] => some s
  | g :: r =>
    match s.groupPlace core t.kernel.regs16 t.launch with
    | none => none
    | some (lp, slot, gran) =>
      (s.modGroup g fun x => { x with lp := lp, slot := some slot, granule := gran, loaded := false }).replaceGroups core t r

/-- The groups of a team that hold a place on its core: those that have not ended, and the killed ones (R46). -/
def State.heldGroups (s : State) (t : Nat) : List Nat :=
  (s.groups.filter fun p => decide (p.2.team = t) && (!p.2.ended || p.2.killed)).map (·.1)

/-- The groups of a team that have not ended. -/
def State.liveGroups (s : State) (t : Nat) : List Nat := (s.groups.filter fun p => decide (p.2.team = t) && !p.2.ended).map (·.1)

/-- A saved team is placed again on a core, with the watch-table entries it holds; it waits for CTXRS. Log entry 61 (DESIGN CHOICE). -/
def State.restoreOn (s : State) (tid core : Nat) (t : Team) : Option State :=
  if !s.inService core || !s.coreFits core t.kernel (t.watch.length + t.ringsFree) then none
  else
    match s.freeTeamSlot core with
    | none => none
    | some ts =>
      let was := s.l1Banks core
      ((s.setTeam tid { t with core := core, tslot := ts, saved := false, again := true, loaded := false }).replaceGroups core t
        (s.heldGroups tid)).map fun s => (s.unclaim t.launch).refitL1 core was

/-- TEAM_PLACEMENT (R362, R364, R365, R415): a saved team of the launch is placed again, a lost one starts again, or the next
gang is placed. Log entry 61 (DESIGN CHOICE). -/
def execTeamPlacement (n : Nat) (s : State) : Out :=
  match s.launch? n with
  | none => .next s
  | some l =>
    if (s.context l.ctx).killed then .next s
    else
      match s.teams.find? fun p => decide (p.2.launch = n) && p.2.saved && !p.2.lost with
      | some (tid, t) => .next (((List.range 256).findSome? fun c => s.restoreOn tid c t).getD s)
      | none =>
        if !l.open_ || s.launchBehind l then .next s
        else
          match l.redo with
          | lin :: _ => .next (s.redoTeam n l lin)
          | [] => .next (s.nextGang n l)

/-! ## Pending groups (R363, R367 to R369) -/

/-- The event that ends a scalar wait. -/
def waitEvents (gid : Nat) (g : Group) : List (State → Out) :=
  match g.swait with
  | none => []
  | some w =>
    match w.instr with
    | .lrun _ _ | .lrunr _ _ => [execLrunEnqueue gid]
    | .lquiet => [execLquietComplete gid]
    | .bara _ _ | .fence _ _ | .dlaunch _ _ => [execFenceComplete gid, execScalarAccessComplete gid]
    | .bar _ _ | .barw _ _ _ => [execBarrierRelease gid]
    | .rawait _ _ => [execRawaitRelease gid]
    | .acwait _ _ => [execAcwaitRelease gid]
    | .fstat _ _ => [execFstatRelease gid]
    | .rswait _ _ => [execRswaitRelease gid]
    | .reshard _ _ => [execElandJobSlotFree gid, execScalarAccessComplete gid]
    | .fput _ _ _ _ _ | .fget _ _ _ _ | .fatom _ _ _ _ | .fmcast _ _ _ _ => [execTagStallEnd gid]
    | .sleeps _ _ _ => [execSleepsWake gid]
    | .shalt _ _ => [execShaltWake gid]
    | .persist _ _ | .persistAll _ => [execPersistComplete gid]
    | _ => [execScalarAccessComplete gid]

/-- The scalar instruction a pending group waits in could go on if the group were active (R367, R369). Log entry 56 (DEDUCED). -/
def State.waitOver (s : State) (gid : Nat) : Bool :=
  let s := s.modGroup gid fun g => { g with slot := some 0 }
  (waitEvents gid (s.group gid)).any fun e => match e s with
    | .next t => decide ((t.group gid).swait ≠ (s.group gid).swait)
    | _ => true

/-- A pending group could go on if it were active (R367). -/
def State.pendReady (s : State) (gid : Nat) : Bool :=
  let g := s.group gid
  let t := s.team g.team
  let top : List (Nat × Split) := ((g.tslot.bind fun z => z.levels.head?).map fun y => (4, y)).toList
  !g.ended && !g.dying && !t.stopping && !t.saved && ((g.slot.map fun n => decide (8 ≤ n)).getD false)
    && ((decide (g.sparked = none) && (decide (g.swait = none) || s.waitOver gid)) || (g.splits ++ top).any fun q => s.runReady gid q.1 q.2)

/-- Granules of a lane pair that are free. -/
def State.granFree (s : State) (core lp : Nat) : Nat := 24 - (s.granUsed core lp).length

/-- A pending group's block does not fit although enough granules are free (R363). Log entry 56 (DEDUCED). -/
def State.starved (s : State) (gid : Nat) : Bool :=
  let g := s.group gid
  let core := s.coreOf gid
  let r := (s.team g.team).kernel.regs16
  s.pendReady gid && decide (r ≤ s.granFree core g.lp) && decide (firstFit (s.granUsed core g.lp) r = none)

/-- The launch whose team is being placed: the first one whose turn it is (R364, R415). -/
def State.placing (s : State) : Option (Nat × Launch) :=
  s.launches.find? fun p => !(s.context p.2.ctx).killed
    && ((p.2.open_ && !s.launchBehind p.2) || s.teams.any fun t => decide (t.2.launch = p.1) && t.2.saved && !t.2.lost)

/-- A lane pair's free granules would hold a group of the team being placed in total and do not hold it in one block (R363). -/
def State.claimStarved (s : State) (core lp : Nat) (l : Launch) : Bool :=
  let r := l.kernel.regs16
  s.inService core && s.coreFits core l.kernel (1 + l.kernel.rings) && (freeSlot (s.slotsUsed core lp) 0).isSome
    && decide (r ≤ s.granFree core lp) && decide (firstFit (s.granUsed core lp) r = none)

/-- What a lane pair holds of the team being placed (R363): since when its group has waited there; after 65,536 cycles the reserve state
is for it, until its block is allocated or the launch no longer waits. Log entry 56 (DEDUCED). -/
def State.claimOf (s : State) (core lp : Nat) (p : LanePair) (head : Option (Nat × Launch)) : Option (Nat × Nat × Bool) :=
  match head with
  | none => none
  | some (n, l) =>
    let old := p.claim.filter fun c => decide (c.1 = n)
    if s.claimStarved core lp l then
      let since := (old.map (·.2.1)).getD s.cycle
      some (n, since, decide (since + 65536 ≤ s.cycle) && decide (s.reservedFor core lp = none))
    else old.filter fun c => c.2.2

/-- Note for how long the team being placed has waited at each lane pair (R363). -/
def State.trackClaims (s : State) : State :=
  if s.launches = [] && s.lanePairs.all fun p => decide (p.2.claim = none) then s
  else
    let head := s.placing
    { s with lanePairs := s.lanePairs.map fun p => (p.1, { p.2 with claim := s.claimOf (p.1 / 16) (p.1 % 16) p.2 head }) }

/-- Note since when each pending group has been ready and starved. -/
def State.trackPending (s : State) : State :=
  (s.groups.filter fun p => (p.2.slot.map fun n => decide (8 ≤ n)).getD false).foldl (fun s p =>
    let since := fun (b : Bool) (o : Option Nat) => if b then some (o.getD s.cycle) else none
    let r := since (s.pendReady p.1) p.2.readySince
    let w := since (s.starved p.1) p.2.waitSince
    if r = p.2.readySince ∧ w = p.2.waitSince then s
    else s.modGroup p.1 fun g => { g with readySince := r, waitSince := w }) s

/-- RESERVE_STATE (R363): the group has waited 65,536 cycles. Log entry 56 (DEDUCED). -/
def execReserveState (g : Nat) (s : State) : Out :=
  let x := s.group g
  let core := s.coreOf g
  let p := s.lanePair core x.lp
  let due := (x.waitSince.map fun c => decide (c + 65536 ≤ s.cycle)).getD false
  .next (if due ∧ s.starved g ∧ s.reservedFor core x.lp = none ∧ s.claimedBy core x.lp = none then s.setLanePair core x.lp { p with reserve := some g } else s)

/-- A group is the oldest ready pending group of its lane pair; ties go to the lower slot (R368). -/
def State.oldestPending (s : State) (gid : Nat) : Bool :=
  let x := s.group gid
  let key := fun (g : Group) => (g.readySince.getD s.cycle, g.slot.getD 0)
  s.pendReady gid && (s.pairGroups (s.coreOf gid) x.lp).all fun p =>
    decide (p.1 = gid) || !s.pendReady p.1 || decide ((key x).1 < (key p.2).1)
      || (decide ((key x).1 = (key p.2).1) && decide ((key x).2 < (key p.2).2))

/-- A far result of the long class (R17, R368). -/
def FarSrc.long : FarSrc → Bool
  | .fill .. | .slow .. | .host .. | .peer .. => true
  | _ => false

/-- An active group may leave (R368): a W run of it waits for a far result of the long class and no other run of it is ready, or all its
splits are parked. Log entry 59 (DEDUCED). -/
def State.mayLeave (s : State) (gid : Nat) (g : Group) : Bool :=
  let p := s.lanePair (s.coreOf gid) g.lp
  let runs := fun (r : Option (Nat × Nat)) => (r.map fun x => decide (x.1 = gid)).getD false
  let parked := fun (x : Split) => match x.mode with
    | .parked _ => true
    | _ => false
  let top : List (Nat × Split) := ((g.tslot.bind fun z => z.levels.head?).map fun y => (4, y)).toList
  let waits := (g.splits.any fun q => decide (q.2.mode = .ready) && q.2.unbegun && s.peekW gid q.2.pc)
    && (g.splits ++ top).all fun q => !s.runReady gid q.1 q.2
  !runs p.lane0 && !runs p.lane1 && ((g.slot.map fun n => decide (n < 8)).getD false)
    && ((waits && g.far.any fun f => f.src.long) || (decide (g.splits ≠ []) && g.splits.all fun q => parked q.2))

/-- A pending group enters the active set. -/
def State.enterActive (s : State) (gid slot gran : Nat) : State :=
  let x := s.group gid
  let core := s.coreOf gid
  let p := s.lanePair core x.lp
  let s := if p.reserve = some gid then s.setLanePair core x.lp { p with reserve := none } else s
  s.setGroup gid { x with slot := some slot, granule := some gran, readySince := none, waitSince := none }

/-- GROUP_EXCHANGE (R368): the oldest ready pending group enters a free slot and block, or those of an active group that
leaves. Log entry 59 (DEDUCED). -/
def execGroupExchange (g : Nat) (s : State) : Out :=
  let x := s.group g
  let core := s.coreOf g
  let r := (s.team x.team).kernel.regs16
  if !s.oldestPending g then .next s
  else
    match freeSlot (s.slotsUsed core x.lp) 0, s.blockFor core x.lp r (some g) none with
    | some sl, some gr => .next (s.enterActive g sl gr)
    | _, _ =>
      let tryLeave := fun (p : Nat × Group) =>
        if s.mayLeave p.1 p.2 then
          let s := s.setGroup p.1 { p.2 with slot := x.slot, granule := none, readySince := none, waitSince := none }
          (s.blockFor core x.lp r (some g) none).map fun gr => s.enterActive g (p.2.slot.getD 0) gr
        else none
      .next (((s.pairGroups core x.lp).findSome? tryLeave).getD s)

/-! ## The end of a team (R151, R282, R304, R359) -/

/-- The engine operations of a team have completed. -/
def State.engineIdle (s : State) (tid : Nat) : Bool :=
  let t := s.team tid
  !(t.copies.any fun c => c.opened) && !((s.core t.core).mxq.any fun q => decide (q.team = tid))
    && !(s.fabric.xfers.any fun p => decide (p.2.team = tid) && !(p.2.complete && !s.sideOut (.xfer p.1)))
    && !(s.jobs.any fun p => decide (p.2.team = tid) && !p.2.final)

/-- A team leaves the machine: its groups, its SRAM banks (R104), its windows, its bank reservations, its transfers and jobs. -/
def State.dropTeam (s : State) (tid : Nat) : State :=
  let core := (s.team tid).core
  let was := s.l1Banks core
  let mine := fun (g : Nat) => decide ((s.group g).team = tid)
  let lps := s.lanePairs.map fun p => (p.1, { p.2 with reserve := p.2.reserve.filter fun g => !mine g })
  let s : State := { s with
    teams := s.teams.erase tid, groups := s.groups.filter (fun p => decide (p.2.team ≠ tid)), lanePairs := lps,
    jobs := s.jobs.filter (fun p => decide (p.2.team ≠ tid)),
    fabric := { s.fabric with windows := s.fabric.windows.filter (fun w => decide (w.team ≠ tid)),
                              xfers := s.fabric.xfers.filter (fun p => decide (p.2.team ≠ tid)) },
    mem := { s.mem with bankRes := s.mem.bankRes.filter (fun r => decide (r.team ≠ tid)) } }
  s.refitL1 core was

/-- TEAM_END (R151, R282, R359): every group has ended and every engine operation has completed; what the team wrote is
released at .sys. Log entry 62 (DEDUCED). -/
def execTeamEnd (t : Nat) (s : State) : Out :=
  if (s.teams.find t).isNone || !(s.liveGroups t).isEmpty || !s.engineIdle t then .next s
  else .next ((s.releaseAt (s.team t).core .sys).dropTeam t)

/-! ## Lost cores (R418, R433) -/

/-- A team's core is gone: it is lost, or starts again. Log entry 58 (DEDUCED). -/
def State.loseTeam (s : State) (tid : Nat) : State :=
  let t := s.team tid
  let s := (s.liveGroups tid).foldl (fun s g => s.endGroup g false) s
  let s := s.dropTeam tid
  match s.launch? t.launch with
  | some l => s.setLaunch t.launch (if l.restart then { l with redo := l.redo ++ [t.lin] } else { l with lost := true })
  | none => s

/-- The state a core held is gone: its matrix engine, its lanes, its L1, what L2 had registered to it. Log entry 58 (DEDUCED). -/
def State.wipeCore (s : State) (core : Nat) : State :=
  let s := ((s.onCore core).map (·.1)).foldl (fun s t => s.loseTeam t) s
  let unown := fun (l : L2Line) => if l.owner = some core then { l with owner := none, mask := 0 } else l
  { s with
    cores := s.cores.insert core { (s.core core) with mxq := [], alatch := none },
    lanePairs := s.lanePairs.filter (fun p => decide (p.1 / 16 ≠ core)),
    mem := { s.mem with l1 := s.mem.l1.filter (fun p => decide (p.1 / 2 ^ 90 ≠ core)),
                        l2 := s.mem.l2.map fun p => (p.1, unown p.2) } }

/-- A spare is free to take an index. Log entry 16 (DEDUCED). -/
def State.isSpare (s : State) (n : Nat) : Bool := decide (260 ≤ n) && decide (n < 288) && !(s.core n).failed

/-- CORE_FAILURE (R10, R418): the core's teams are lost or start again; a spare takes its index; SHALT sees it. Log entry 58 (DEDUCED). -/
def execCoreFailure (core spare : Nat) (s : State) : Out :=
  if 288 ≤ core then .next s
  else
    let s := (s.wipeCore core).shaltEvent 3
    if core < 260 ∧ s.isSpare spare then
      let s := s.modCore core fun c => { c with phys := some (s.physOf spare) }
      .next (s.modCore spare fun c => { c with failed := true })
    else .next (s.modCore core fun c => { c with failed := true })

/-- THERMAL_THROTTLE (R433): at 105 °C every die's token count is 1. -/
def execThermalThrottle (s : State) : Out :=
  .next { ((List.range 4).foldl (fun s d => { s with rings := s.rings.insert d ((s.rings.get {} d).setCount 1 s.cycle) }) s) with
    boot := { s.boot with throttled := true } }

/-- THERMAL_SHUTDOWN (R433): at 115 °C core power is removed, and every team is lost as on core failure. -/
def execThermalShutdown (s : State) : Out :=
  let s := (s.teams.map (·.1)).foldl (fun s t => s.loseTeam t) s
  .next { s with
    boot := { s.boot with coreOff := true }, cores := s.cores.map (fun p => (p.1, { p.2 with mxq := [], alatch := none })),
    lanePairs := [], mem := { s.mem with l1 := [] } }

end Sys2Proof.Machine
end

