-- ==== Sys2Proof/Machine/Queue.lean ====
section
/-! DEFINITION. Work queues and their commands (R348 to R360, R457), and DLAUNCH (R373). -/

namespace Sys2Proof.Machine

/-! ## Commands in flight -/

/-- A word of a command. -/
def Cmd.w (c : Cmd) (i : Nat) : W64 := c.words.getD i 0
/-- OPC (Table 18-2). -/
def Cmd.opc (c : Cmd) : Nat := wbits (c.w 0) 0 8
/-- The accessor of a command's addresses (R457). -/
def Cmd.acc (c : Cmd) : Acc := cmdAccOf c.ctx c.priv
/-- Change a command. -/
def State.modCmd (s : State) (n : Nat) (f : Cmd → Cmd) : State :=
  { s with cmds := s.cmds.map fun c => if c.num = n then f c else c }

/-- A queue has commands in flight. -/
def State.inFlight (s : State) (q : Nat) : Bool := s.cmds.any fun c => decide (c.queue = some q)
/-- The accessor of a queue's own addresses (R457). -/
def Queue.acc (x : Queue) : Acc := cmdAccOf x.ctx x.priv
/-- The address of the command at an index of a queue's ring (R349). -/
def Queue.slotVa (x : Queue) (i : W32) : W64 := x.base + BitVec.ofNat 64 (64 * (i.toNat % 2 ^ x.log2n))

/-- A queue's next command is held by its BARRIER bit (R352). -/
def State.barred (s : State) (q : Nat) : Bool :=
  let x := s.queue q
  s.inFlight q && (match (s.engRead x.acc .engine (x.slotVa x.rptr) 8).1 with
    | .ok b => (wordAt b 0).getLsbD 8
    | _ => false)

/-- A queue is ready (R360). Log entry 55 (DESIGN CHOICE). -/
def State.queueReady (s : State) (q : Nat) : Bool :=
  let x := s.queue q
  x.v && decide (x.rptr ≠ x.wptr) && decide (x.wait = none) && !s.barred q

/-- SHALT sees a queue that has become ready (R410). Log entry 55 (DESIGN CHOICE). -/
def State.noteReady (before s : State) : State :=
  if s.queues.any fun p => s.queueReady p.1 && !before.queueReady p.1 then s.shaltEvent 0 else s

/-! ### Completion (R353) -/

/-- A signal write that failed is counted. -/
def State.sigFault (s : State) (c : Nat) : State := s.modContext c fun x => { x with sigfault := x.sigfault + 1 }

/-- The atomic unsigned maximum at SIGADDR (R353): whether it has been made or dropped, and the state after it.
Log entry 52 (DESIGN CHOICE). -/
def State.signalMax (s : State) (c : Cmd) (v : W64) : Bool × State :=
  let va := c.w 1
  if va = 0 then (true, s)
  else if va.toNat % 8 ≠ 0 then (true, s.sigFault c.ctx)
  else
    match s.xlate c.acc va .write with
    | (.fault _, s) => (true, s.sigFault c.ctx)
    | (.ats, s) => (match s.askXlat (.cmd c.num) c.acc va true with
      | (.fault _, s) => (true, s.sigFault c.ctx)
      | (_, s) => (false, s))
    | (.ok l a, s) =>
      let r : Req := { kind := .atom 2 .n64, waiter := .cmd c.num, ctx := c.ctx, peer := l.peer, va := va, addr := a, bytes := 8,
                       data := v, body := leBytes 8 v.toNat }
      let k := lineKey l.space l.peer a
      let gone := ({ s with mem := { s.mem with l2 := s.mem.l2.erase k } } : State).overtake k
      if l.sro then (true, s.sigFault c.ctx)
      else if l.space = 1 then (true, (gone.askHost r).2)
      else if l.space = 2 then (if s.reach l.peer then (true, (gone.askPeer r).2) else (true, s.sigFault c.ctx))
      else
        match s.atomic c.acc (.store c.ctx) va (.op .max .n64 v.toNat) false false with
        | (.fault _, s) => (true, s.sigFault c.ctx)
        | (.val _, s) => (true, s)
        | (_, s) => (false, s)

/-- A block of 512 bits as words. -/
def blockWords (b : BitVec 512) : List W64 := (List.range 8).map fun i => b.extractLsb' (64 * i) 64

/-- Chamois answers a command record: status, payload and the identity key's signature (R430). -/
def Boot.respond (x : Boot) (cmd status : Nat) (payload : List W64) : Boot :=
  let sig := Config.sign x.idKey (leBytes 1 cmd ++ leBytes 1 status ++ wordBytes payload)
  { x with responses := x.responses ++ [(cmd, status, payload ++ blockWords sig)] }

/-- A command leaves: a WAIT no longer holds its queue, and Chamois answers its PRIVCMD (R432). -/
def State.removeCmd (s : State) (c : Cmd) (code : Nat) : State :=
  let qs := s.queues.map fun p => if p.2.wait = some c.num then (p.1, { p.2 with wait := none }) else p
  let boot := if c.queue = none then s.boot.respond 0x06 code [] else s.boot
  let host := { s.host with denials := s.host.denials.filter fun d => decide (d.waiter ≠ .cmd c.num) }
  let t : State := { s with cmds := s.cmds.filter (fun x => decide (x.num ≠ c.num)), queues := qs, boot := boot, host := host }
  State.noteReady s t

/-- A write of a command to a peer has failed (R357). -/
def State.cmdDenied (s : State) (n : Nat) : Bool := s.host.denials.any fun d => decide (d.waiter = .cmd n) && d.write

/-- Complete a command that has its status: the release at .sys of a success, then the signal (R353); a write of it that has failed at
a peer makes it TRANSLATION. Log entry 62 (DEDUCED). -/
def State.settleCmd (s : State) (n : Nat) : State :=
  match s.cmd? n with
  | none => s
  | some c =>
    match c.fin with
    | none => s
    | some code =>
      let code := if code = 0 ∧ s.cmdDenied n then 0x05 else code
      let s := if code = 0 then s.releaseAt 256 .sys else s
      if code = 0 ∧ !s.releaseDone c.ctx .sys then s
      else
        let s := if code = 0 then s.releaseEnd c.ctx .sys else s
        let r := s.signalMax c (if code = 0 then c.w 2 else BitVec.ofNat 64 (2 ^ 63 + code))
        if r.1 then r.2.removeCmd c code else r.2

/-- Give a command its status. -/
def State.finishCmd (s : State) (n code : Nat) : State := (s.modCmd n fun c => { c with fin := some code }).settleCmd n

/-- A command's context has been torn down or killed (R354, R355). -/
def State.dead (s : State) (c : Cmd) : Bool := (s.context c.ctx).killed

/-- Run a command of one opcode: a dead context ends it (R355), one with a status goes on completing.
Log entries 50 (DESIGN CHOICE), 93 (DEDUCED). -/
def State.cmdRun (s : State) (n : Nat) (is_ : Cmd → Bool) (f : Cmd → State → State) : Out :=
  match s.cmd? n with
  | none => .next s
  | some c =>
    if !is_ c then .next s
    else if s.dead c then .next (s.finishCmd n 0x01)
    else if c.fin.isSome then .next (s.settleCmd n)
    else .next (f c s)

/-- A command reads n bytes: TRANSLATION on any failure, or later. -/
def State.cmdRead (s : State) (c : Cmd) (va : W64) (n : Nat) (k : List Byte → State → State) : State :=
  match s.engRead c.acc (.cmd c.num) va n with
  | (.ok b, s) => k b s
  | (.fault _, s) => s.finishCmd c.num 0x05
  | (.wait, s) => s
/-- A command writes bytes. -/
def State.cmdWrite (s : State) (c : Cmd) (va : W64) (b : List Byte) (k : State → State) : State :=
  match s.engWrite c.acc (.cmd c.num) va b with
  | (.ok _, s) => k s
  | (.fault _, s) => s.finishCmd c.num 0x05
  | (.wait, s) => s

/-! ## Kicks (R348 to R351, R426, R432) -/

/-- KICK: a store of some bytes at an offset of a queue's kick slot. Log entry 55 (DESIGN CHOICE). -/
def execKick (q off : Nat) (bytes : List Byte) (s : State) : Out :=
  let x := s.queue q
  if !s.boot.ready.getLsbD 16 || decide (131071 < q) || decide (off ≠ 0) || decide (bytes.length < 4) || !x.v
      || (s.boot.taken && x.priv) then .next s
  else
    let w := BitVec.ofNat 32 (ofLeBytes (bytes.take 4))
    if x.devq || decide (2 ^ x.log2n < (w - x.rptr).toNat) then .next (s.setQueue q { x with overrun := x.overrun + 1 })
    else .next (State.noteReady s (s.setQueue q { x with wptr := w }))

/-- What a byte of a queue's kick slot reads (R349, R350): bytes 0 to 3 the WPTR, every other zero. -/
def State.kickRead (s : State) (q off : Nat) : Byte :=
  if off < 4 then BitVec.ofNat 8 ((s.queue q).wptr.toNat / 256 ^ off) else 0

/-- What a byte of BAR 2 reads (R350): the slot of queue q stands at 64 × q. -/
def State.bar2Read (s : State) (off : Nat) : Byte := s.kickRead (off / 64) (off % 64)

/-! ## Selection and decode (R352, R360) -/

/-- The ready queues of a level, ascending. -/
def State.readyAt (s : State) (lvl : Nat) : List Nat :=
  (s.queues.filter fun p => decide (p.2.prio = lvl) && s.queueReady p.1).map (·.1)

/-- The queue to serve, its level, and the commands its turn has left (R360). -/
def State.chooseQueue (s : State) : Option (Nat × Nat × Nat) :=
  ([7, 6, 5, 4, 3, 2, 1, 0] : List Nat).findSome? fun lvl =>
    match s.readyAt lvl with
    | [] => none
    | q0 :: rest =>
      let last := s.cp.last.find lvl
      let left := s.cp.left.get 0 lvl
      match last.filter fun q => (q0 :: rest).contains q && decide (0 < left) with
      | some q => some (q, lvl, left - 1)
      | none =>
        let q := match last with
          | some l => ((q0 :: rest).find? fun q => decide (l < q)).getD q0
          | none => q0
        some (q, lvl, (s.queue q).weight - 1)

/-- The turns of queues that are no longer ready have ended. -/
def State.endTurns (s : State) : State :=
  let spent := fun (lvl : Nat) => ((s.cp.last.find lvl).map fun q => !s.queueReady q).getD false
  { s with cp := { s.cp with left := s.cp.left.map fun p => if spent p.1 then (p.1, 0) else p } }

/-- The opcodes of Table 18-3. -/
def opcodes : List Nat := [0x00, 0x01, 0x02, 0x03, 0x04, 0x10, 0x11, 0x12, 0x13, 0x14]

/-- A command is malformed whatever the state of the device (R352, R353). Log entries 52 (DESIGN CHOICE), 53 (DEDUCED). -/
def Cmd.bad (c : Cmd) : Bool :=
  decide (wbits (c.w 0) 9 55 ≠ 0) || !opcodes.contains c.opc || decide (2 ^ 63 ≤ (c.w 2).toNat)
    || (decide (c.opc = 0x01) && decide (wbits (c.w 6) 49 15 ≠ 0))
    || (decide (c.opc = 0x04) && decide ((c.w 3).toNat % 8 ≠ 0))
    || (decide (c.opc = 0x12) && decide (wbits (c.w 3) 0 2 = 3))
    || (decide (c.opc = 0x13) && badKey (c.w 4))
    || (decide (c.opc = 0x14) && decide (wbits (c.w 3) 0 3 = 7))

/-- A word is a user context's id. -/
def State.named (s : State) (w : Nat) : Bool := decide (w < sysCtx) && (s.contexts.find w).isSome
/-- The context of a privileged command's word, when it exists. Log entry 50 (DESIGN CHOICE). -/
def State.existing (s : State) (w : W64) : Bool := s.named w.toNat && !(s.context w.toNat).torn

/-- What a command names is not there, or is out of range (R353, R356). -/
def State.namesNone (s : State) (c : Cmd) : Bool :=
  let q := (c.w 4).toNat
  if c.opc = 0x10 ∨ c.opc = 0x11 then !s.existing (c.w 3)
  else if c.opc = 0x14 then
    match wbits (c.w 3) 0 3 with
    | 1 | 2 => !s.existing (c.w 4)
    | 3 | 6 => decide (131071 < q)
    | 4 => decide (131071 < q) || !(s.queue q).v
    | 5 => !s.named q
    | _ => false
  else false

/-- The status of a command at decode, in the order of R352. A privileged command looks at what it names when it runs. -/
def State.decodeStatus (s : State) (c : Cmd) : Nat :=
  let refused := decide (0x10 ≤ c.opc) && !c.priv
  if s.dead c then 0x01 else if c.bad || (refused && s.namesNone c) then 0x02 else if refused then 0x06 else 0

/-- A command enters the machine: it may complete at decode; a WAIT holds its queue. -/
def State.enterCmd (s : State) (c : Cmd) : State :=
  let st := s.decodeStatus c
  let s : State := { s with cmds := s.cmds ++ [c], nextCmd := s.nextCmd + 1 }
  if st ≠ 0 then s.finishCmd c.num st
  else
    match c.queue with
    | some q => if c.opc = 0x04 then s.setQueue q { (s.queue q) with wait := some c.num } else s
    | none => s

/-- Write one read pointer, after a release at .sys (R349), or keep it to be written later; those of one address keep their order. -/
def State.writeRptr (s : State) (d : RptrWrite) : State :=
  let later := fun (s : State) => { s with cp := { s.cp with due := s.cp.due ++ [d] } }
  if s.cp.due.any fun e => decide (e.ctx = d.ctx) && decide (e.addr = d.addr) then later s
  else
    let s := s.releaseAt 256 .sys
    if !s.releaseDone d.ctx .sys then later s
    else
      match (s.releaseEnd d.ctx .sys).engWrite (cmdAccOf d.ctx d.priv) (.store d.ctx) d.addr (leBytes 8 d.val.toNat) with
      | (.wait, s) => later s
      | (_, s) => s

/-- Write the read pointers that are due, as far as they can be written (R349). Log entry 52 (DESIGN CHOICE). -/
def State.pumpRptr (s : State) : State :=
  s.cp.due.foldl State.writeRptr { s with cp := { s.cp with due := [] } }

/-- A queue's next command is consumed: RPTR goes on and is written to RPADDR with a release at .sys (R349).
Log entry 52 (DESIGN CHOICE). -/
def State.consume (s : State) (q : Nat) : State :=
  let x := s.queue q
  let d : RptrWrite := { ctx := x.ctx, priv := x.priv, addr := x.rpaddr, val := x.rptr + 1 }
  let s := s.setQueue q { x with rptr := x.rptr + 1 }
  ({ s with cp := { s.cp with due := s.cp.due ++ [d] } } : State).pumpRptr

/-- A queue has been served in its turn at a level (R360). -/
def State.served (s : State) (q lvl left : Nat) : State :=
  { s with cp := { s.cp with last := s.cp.last.insert lvl q, left := s.cp.left.insert lvl left } }

/-- COMMAND_START (R349, R352, R360); a command whose slot cannot be read is consumed. Log entry 52 (DESIGN CHOICE). -/
def execCommandStart (s : State) : Out :=
  let s := s.endTurns
  if !s.boot.ready.getLsbD 16 then .next s
  else
    match s.chooseQueue with
    | none => .next s
    | some (q, lvl, left) =>
      let x := s.queue q
      match s.engRead x.acc .engine (x.slotVa x.rptr) 64 with
      | (.wait, s) => .next s
      | (.fault _, s) => .next ((s.served q lvl left).consume q)
      | (.ok b, t) =>
        if (wordAt b 0).getLsbD 8 ∧ s.inFlight q then .next s
        else
          let c : Cmd := { num := s.nextCmd, queue := some q, ctx := x.ctx, priv := x.priv, words := (List.range 8).map (wordAt b) }
          .next (((t.served q lvl left).consume q).enterCmd c)

/-! ## NOP, SIGNAL, WAIT, COPY -/

/-- NOP. -/
def execNopCommand (n : Nat) (s : State) : Out := s.cmdRun n (fun c => decide (c.opc = 0x00)) fun _ s => s.finishCmd n 0
/-- SIGNAL. -/
def execSignal (n : Nat) (s : State) : Out := s.cmdRun n (fun c => decide (c.opc = 0x03)) fun _ s => s.finishCmd n 0

/-- A WAIT looks at its word (Table 18-3). -/
def State.waitLook (s : State) (c : Cmd) : State :=
  s.cmdRead c (c.w 3) 8 fun b s =>
    let x := wordAt b 0
    if x.toNat < (c.w 4).toNat then s
    else s.finishCmd c.num (if (c.w 5).getLsbD 0 && x.getLsbD 63 then 0x08 else 0)
/-- WAIT. -/
def execWait (n : Nat) (s : State) : Out := s.cmdRun n (fun c => decide (c.opc = 0x04)) fun c s => s.waitLook c
/-- WAIT_RELEASE (R353): the WAIT that holds a queue looks again. -/
def execWaitRelease (q : Nat) (s : State) : Out :=
  match (s.queue q).wait with
  | some n => execWait n s
  | none => .next s

/-- The width of COPY's next access (R357): 16-byte units, or the widest of 8, 4, 2, 1 aligned at both addresses. Log entry 54 (DEDUCED). -/
def copyWidth (src dst left : Nat) (units : Bool) : Nat :=
  if units then 16 else (([8, 4, 2] : List Nat).find? fun w => decide (src % w = 0) && decide (dst % w = 0) && decide (w ≤ left)).getD 1

/-- A write of a command is still on its way to a peer. -/
def State.cmdOut (s : State) (n : Nat) : Bool :=
  s.fabric.reqs.any fun p => decide (p.2.waiter = .cmd n) && decide (p.2.kind = .write)

/-- COPY (R357): one access a turn, in ascending address order; the next one waits for a peer's answer to the last, and the first that
fails ends it. Log entry 54 (DEDUCED). -/
def execCopy (n : Nat) (s : State) : Out :=
  s.cmdRun n (fun c => decide (c.opc = 0x02)) fun c s =>
    let len := (c.w 5).toNat
    let units := decide ((c.w 3).toNat % 16 = 0) && decide ((c.w 4).toNat % 16 = 0) && decide (len % 16 = 0)
    if s.cmdDenied n then s.finishCmd n 0x05
    else if s.cmdOut n then s
    else if len ≤ c.pos then s.finishCmd n 0
    else
      let src := c.w 3 + BitVec.ofNat 64 c.pos
      let dst := c.w 4 + BitVec.ofNat 64 c.pos
      let w := copyWidth src.toNat dst.toNat (len - c.pos) units
      s.cmdRead c src w fun b s => s.cmdWrite c dst b fun s =>
        let s := s.modCmd n fun c => { c with pos := c.pos + w }
        if len ≤ c.pos + w ∧ !s.cmdOut n then s.finishCmd n 0 else s

/-! ## LAUNCH (R358, R359) -/

/-- The kernel a descriptor gives, when its fields are in range (Table 18-7). Log entry 51 (DEDUCED). -/
def kernelOf (b : List Byte) (nthreads : Nat) : Option Kernel :=
  let w := wordAt b
  let f := fun (i lo n : Nat) => wbits (w i) lo n
  let k : Kernel := { sentry := w 0, lbase := w 1, pbytes := f 2 32 12, lunits := f 2 0 32, rings := f 3 40 8, bars := f 3 32 8 }
  let k := { k with tiles := f 3 24 8, copyq := f 3 16 8, scrb := f 3 12 4, team := f 3 6 6, regs16 := f 3 0 6, gangf := f 4 16 16, gangp := f 4 0 16 }
  if f 2 44 20 ≠ 0 ∨ f 3 48 16 ≠ 0 ∨ f 4 32 32 ≠ 0 ∨ w 5 ≠ 0 ∨ w 6 ≠ 0 ∨ w 7 ≠ 0 ∨ f 1 0 4 ≠ 0 ∨ 16 < k.rings ∨ k.bars = 0 ∨ 16 < k.bars
    ∨ 16 < k.tiles ∨ k.copyq = 0 ∨ 16 < k.copyq ∨ k.scrb = 0 ∨ 14 < k.scrb ∨ k.team = 0 ∨ 32 < k.team ∨ k.regs16 < 3 ∨ 16 < k.regs16
    ∨ k.gangf = 0 ∨ k.gangp < k.gangf ∨ 256 < k.gangp ∨ nthreads ≤ 32 * (k.team - 1) ∨ 32 * k.team < nthreads then none
  else some k

/-- LAUNCH at decode (R126, R358): descriptor and parameter block are read, and the launch is handed to the distributor; a
launch that has its status goes on completing. -/
def execLaunch (n : Nat) (s : State) : Out :=
  s.cmdRun n (fun c => decide (c.opc = 0x01) && (decide (c.launch = none) || c.fin.isSome)) fun c s =>
    let teams := wbits (c.w 6) 0 32
    let nth := wbits (c.w 6) 32 16
    if (c.w 3).toNat % 64 ≠ 0 ∨ (c.w 7).toNat % 16 ≠ 0 then s.finishCmd n 0x03
    else if teams = 0 then s.finishCmd n 0
    else
      s.cmdRead c (c.w 3) 64 fun b s =>
        match kernelOf b nth with
        | none => s.finishCmd n 0x03
        | some k =>
          s.cmdRead c (c.w 4) k.pbytes fun pb s =>
            let prio := (c.queue.map fun q => (s.queue q).prio).getD 0
            let l : Launch := { cmd := n, ctx := c.ctx, prio := prio, kernel := k, param := c.w 4, bytes := wrBytes [] 0 pb, seed := c.w 5,
                                restart := (c.w 6).getLsbD 48, nthreads := nth, teams := teams, gangtab := c.w 7 }
            let id := s.nextLaunch
            let s := s.modCmd n fun c => { c with launch := some id }
            { s with launches := s.launches.insert id l, nextLaunch := id + 1 }

/-- LAUNCH_COMPLETE (R355, R359, R365): a dead context's launch at once; another when nothing is left to place and every team
has ended. Log entries 57 (DEDUCED), 93 (DEDUCED). -/
def execLaunchComplete (n : Nat) (s : State) : Out :=
  match s.launch? n with
  | none => .next s
  | some l =>
    let gone : State := { s with launches := s.launches.erase n }
    if (s.context l.ctx).killed then .next (gone.finishCmd l.cmd 0x01)
    else if l.open_ || s.teams.any fun p => decide (p.2.launch = n) then .next s
    else .next (gone.finishCmd l.cmd (if l.tabBad then 0x05 else if l.nofit then 0x04 else if l.lost then 0x07 else 0))

/-! ## MAP and UNMAP (R71 to R74, R353) -/

/-- The level of a page of a size code, the bytes an entry of the level spans, the entries of its run (Table 4-3). -/
def runOf (code : Nat) : Nat × Nat × Nat :=
  if code ≤ 4 then (1, 4096, pageBytes code / 4096)
  else if code ≤ 8 then (2, 2 ^ 21, pageBytes code / 2 ^ 21)
  else if code = 9 then (3, 2 ^ 30, 1)
  else (1, 4096, 1)

/-- Write a page-table entry at its home, under key 0. -/
def Mem.setEntry (m : Mem) (a : Nat) (w : W64) : Mem :=
  (m.bring (lineKey 3 0 a) 0).homeWrite (lineKey 3 0 a) (a % 128) 8 w.toNat 0

/-- A fresh table: a page of zeros; what L2 held of it is dropped (R103). -/
def Mem.zeroPage (m : Mem) (a : Nat) : Mem :=
  let m := m.discardLines fun k => decide (lineSpace k = 3) && decide (a ≤ lineAddr k) && decide (lineAddr k < a + 4096)
  { m with hbm := m.hbm.drop a 4096, hbmKey := m.hbmKey.drop (a / 128) 32 }

/-- The first of n frames from f on that holds nothing. -/
def Mem.unusedFrom (m : Mem) : Nat → Nat → Nat
  | 0, f => f % numFrames
  | n + 1, f => if (m.frame (f % numFrames)).isInvalid then f % numFrames else m.unusedFrom n (f + 1)

/-- A device frame for a new table: the manual leaves open which; it is carved, and it held nothing. Log entry 48 (DESIGN CHOICE). -/
def State.tableFrame (s : State) : Nat × State :=
  let d := s.draw
  let m := d.2.mem
  let f := m.unusedFrom m.frames.length (d.1.toNat % numFrames)
  (f, { d.2 with mem := m.setFrame f { valid := true, pinned := true, carved := true } })

/-- The table of a level that an address is looked up in; firmware sets up the tables that are missing, in carved frames
of its own. None: the tables that are there do not stand in carved frames. Log entry 48 (DESIGN CHOICE). -/
def State.tableFor (s : State) (va : W64) (target : Nat) : Nat → Nat → Option Nat × State
  | 0, _ => (none, s)
  | n + 1, table =>
    if n + 1 = target then (some table, s)
    else
      let a := table + 8 * (va.toNat / 2 ^ (12 + 9 * n) % 512)
      match s.mem.entry a with
      | none => (none, s)
      | some w =>
        if w.getLsbD 0 && !w.getLsbD 1 then s.tableFor va target n (wbits w 12 36 * 4096)
        else
          let d := s.tableFrame
          let page := d.1 * 65536
          let m := (d.2.mem.zeroPage page).setEntry a (BitVec.ofNat 64 (page + 1))
          ({ d.2 with mem := m } : State).tableFor va target n page

/-- Write one page's leaf image over its run of entries (R74). Log entry 48 (DESIGN CHOICE). -/
def State.mapPage (s : State) (root : Nat) (va : W64) (img : W64) : State :=
  let r := runOf (wbits img 52 4)
  let base := va.toNat / (r.2.1 * r.2.2) * (r.2.1 * r.2.2)
  (List.range r.2.2).foldl (fun s j =>
    let a := BitVec.ofNat 64 (base + j * r.2.1)
    match s.tableFor a r.1 5 root with
    | (some t, s) => { s with mem := s.mem.setEntry (t + 8 * (a.toNat / r.2.1 % 512)) img }
    | (none, s) => s) s

/-- Write leaf images for consecutive pages: the address after the last. -/
def State.mapPages (s : State) (root : Nat) (va : W64) : List W64 → W64 × State
  | [] => (va, s)
  | e :: r =>
    let z := runOf (wbits e 52 4)
    (s.mapPage root va e).mapPages root (va + BitVec.ofNat 64 (z.2.1 * z.2.2)) r

/-- TLBI by address over a range (R83). -/
def State.tlbiRange (s : State) (ctx : Nat) (lo hi : Nat) : State :=
  let pasid := (s.context ctx).pasid
  let meets := fun (a n : Nat) => decide (a < hi) && decide (lo < a + n)
  { s with mem := { s.mem with
      tlb := s.mem.tlb.filter (fun e => !((e.leaf.glob || decide (e.ctx = ctx)) && meets e.page (pageBytes e.leaf.size))),
      walks := s.mem.walks.filter (fun e => !(decide (e.ctx = ctx) && meets (e.tag * 2 ^ (3 + 9 * e.level)) (2 ^ (3 + 9 * e.level)))),
      atc := s.mem.atc.filter (fun e => !(decide (e.pasid = pasid) && meets (e.page * 4096) e.bytes)) } }

/-- MAP (R353). Log entry 48 (DESIGN CHOICE). -/
def execMap (n : Nat) (s : State) : Out :=
  s.cmdRun n (fun c => decide (c.opc = 0x10)) fun c s =>
    if !s.existing (c.w 3) then s.finishCmd n 0x02
    else
      let count := (c.w 6).toNat
      s.cmdRead c (c.w 5) (8 * count) fun b s =>
        let ctx := (c.w 3).toNat
        let r := s.mapPages (s.context ctx).root.toNat (c.w 4) ((List.range count).map (wordAt b))
        (r.2.tlbiRange ctx (c.w 4).toNat ((c.w 4).toNat + (r.1 - c.w 4).toNat)).finishCmd n 0

/-- Clear the leaves of a range below a table of a level, whose first address is `base` (R353). Log entry 48 (DESIGN CHOICE). -/
def Mem.clearLeaves (m : Mem) (lo hi : Nat) : Nat → Nat → Nat → Mem
  | 0, _, _ => m
  | n + 1, table, base =>
    let span := 2 ^ (12 + 9 * n)
    (List.range 512).foldl (fun m i =>
      let start := base + i * span
      if start < hi ∧ lo < start + span then
        match m.entry (table + 8 * i) with
        | some w =>
          if !w.getLsbD 0 then m
          else if w.getLsbD 1 then m.setEntry (table + 8 * i) 0
          else m.clearLeaves lo hi n (wbits w 12 36 * 4096) start
        | none => m
      else m) m

/-- UNMAP (R353). Log entry 48 (DESIGN CHOICE). -/
def execUnmap (n : Nat) (s : State) : Out :=
  s.cmdRun n (fun c => decide (c.opc = 0x11)) fun c s =>
    if !s.existing (c.w 3) then s.finishCmd n 0x02
    else
      let ctx := (c.w 3).toNat
      let lo := (c.w 4).toNat % 2 ^ 57
      let m := s.mem.clearLeaves lo (lo + (c.w 5).toNat) 5 (s.context ctx).root.toNat 0
      (({ s with mem := m } : State).tlbiRange ctx (c.w 4).toNat ((c.w 4).toNat + (c.w 5).toNat)).finishCmd n 0

/-! ## LEASE and KEY -/

/-- A LEASE command of a kind. -/
def Cmd.isLease (c : Cmd) (k : Nat) : Bool := decide (c.opc = 0x12) && decide (wbits (c.w 3) 0 2 = k)
/-- The slot of a held lease by its id. -/
def Mem.leaseSlotOf (m : Mem) (id : W32) : Option Nat :=
  (m.leases.find? fun p => decide (p.2.st ≠ .free) && decide (p.2.id = id)).map (·.1)
/-- The id in a lease entry image. -/
def imageId (b : List Byte) : W32 := BitVec.ofNat 32 (wbits (wordAt b 0) 32 32)
/-- The status of a command performed by LEASEOP or KEYOP. Log entry 49 (DESIGN CHOICE). -/
def opStatus (c : Nat) : Nat := if c = 0 then 0 else 0x02

/-- LEASE grant: the lowest free slot. Log entry 49 (DESIGN CHOICE). -/
def execLeaseGrant (n : Nat) (s : State) : Out :=
  s.cmdRun n (fun c => c.isLease 0) fun c s =>
    s.cmdRead c (c.w 4) 64 fun b s =>
      match (List.range 4096).find? fun i => decide ((s.mem.lease i).st = .free) with
      | none => s.finishCmd n 0x02
      | some i => let r := s.grantLease i b; r.2.finishCmd n (opStatus r.1)
/-- LEASE renew. Log entry 49 (DESIGN CHOICE). -/
def execLeaseRenew (n : Nat) (s : State) : Out :=
  s.cmdRun n (fun c => c.isLease 1) fun c s =>
    s.cmdRead c (c.w 4) 64 fun b s =>
      match s.mem.leaseSlotOf (imageId b) with
      | none => s.finishCmd n 0x02
      | some i => let r := s.renewLease i (wordAt b 3) (wordAt b 4); r.2.finishCmd n (opStatus r.1)
/-- LEASE release. Log entry 49 (DESIGN CHOICE). -/
def execLeaseRelease (n : Nat) (s : State) : Out :=
  s.cmdRun n (fun c => c.isLease 2) fun c s =>
    s.cmdRead c (c.w 4) 64 fun b s =>
      match s.mem.leaseSlotOf (imageId b) with
      | none => s.finishCmd n 0x02
      | some i => let r := s.releaseLease i; r.2.finishCmd n (opStatus r.1)

/-- KEY load. Log entry 49 (DESIGN CHOICE). -/
def execKeyLoad (n : Nat) (s : State) : Out :=
  s.cmdRun n (fun c => decide (c.opc = 0x13) && !(c.w 3).getLsbD 0) fun c s =>
    let id := (c.w 4).toNat
    if (s.mem.keys.find id).isSome then s.finishCmd n 0x02
    else s.cmdRead c (c.w 5) 64 fun b s => s.cmdWrite c (c.w 5) (List.replicate 64 0) fun s =>
      ({ s with mem := s.mem.loadKey id (BitVec.ofNat 512 (ofLeBytes b)) } : State).finishCmd n 0
/-- KEY unload. Log entry 49 (DESIGN CHOICE). -/
def execKeyUnload (n : Nat) (s : State) : Out :=
  s.cmdRun n (fun c => decide (c.opc = 0x13) && (c.w 3).getLsbD 0) fun c s =>
    let id := (c.w 4).toNat
    if (s.mem.keys.find id).isNone then s.finishCmd n 0x02
    else ({ s with mem := s.mem.unloadKey id } : State).finishCmd n 0

/-! ## CONTEXT (R355, R356) -/

/-- A CONTEXT command of a kind. -/
def Cmd.isContext (c : Cmd) (k : Nat) : Bool := decide (c.opc = 0x14) && decide (wbits (c.w 3) 0 3 = k)

/-- A context as its descriptor gives it (Table 18-6). -/
def contextOf (b : List Byte) (x : Context) : Context :=
  let w := wordAt b
  let x := { x with root := w 0, fpen := BitVec.ofNat 6 (wbits (w 1) 32 6), pasid := wbits (w 1) 0 20, tvecUs := w 2, tvecUl := w 3 }
  { x with mcnt := wbits (w 4) 32 16, mfirst := wbits (w 4) 16 16, ftag := wbits (w 4) 0 16, bstore := w 5, bsize := w 6 }

/-! ### The multicast table (R300) -/

/-- An entry belongs to a context's range. -/
def Context.ownsGroup (x : Context) (i : Nat) : Bool := decide (x.mfirst ≤ i) && decide (i < x.mfirst + x.mcnt) && decide (i < 4096)

/-- Member device ids as the ROM firmware writes them. Log entry 102 (DESIGN CHOICE). -/
def State.drawMembers (s : State) : Nat → List Nat × State
  | 0 => ([], s)
  | n + 1 => let d := s.draw; let r := d.2.drawMembers n; (d.1.toNat % 2 ^ 18 :: r.1, r.2)

/-- Write an entry of the multicast table, where it does not stand: the tag and 1 to 64 members. Log entry 102 (DESIGN CHOICE). -/
def State.writeGroup (s : State) (ftag i : Nat) : State :=
  if (s.fabric.mcast.find i).isSome then s
  else
    let d := s.draw
    let r := d.2.drawMembers (1 + d.1.toNat % 64)
    { r.2 with fabric := { r.2.fabric with mcast := r.2.fabric.mcast.insert i (ftag, r.1) } }

/-- The multicast entries of a context that was `old` and is `new` (R300, Table 18-6): those it keeps stay, those it gives up are free,
and the others are written. Log entry 102 (DESIGN CHOICE). -/
def State.ownGroups (s : State) (old new : Context) : State :=
  let kept := fun (p : Nat × Nat × List Nat) => !(old.ownsGroup p.1 && decide (p.2.1 = old.ftag)) || (new.ownsGroup p.1 && decide (new.ftag = old.ftag))
  let s : State := { s with fabric := { s.fabric with mcast := s.fabric.mcast.filter kept } }
  (((List.range new.mcnt).map (new.mfirst + ·)).filter fun i => decide (i < 4096)).foldl (fun s i => s.writeGroup new.ftag i) s

/-- CONTEXT create. Log entries 50 (DESIGN CHOICE), 102 (DESIGN CHOICE). -/
def execContextCreate (n : Nat) (s : State) : Out :=
  s.cmdRun n (fun c => c.isContext 0) fun c s =>
    if 2 ^ 32 ≤ (c.w 4).toNat ∨ s.existing (c.w 4) then s.finishCmd n 0x02
    else s.cmdRead c (c.w 5) 64 fun b s =>
      let x := contextOf b { rt := BitVec.ofNat 48 (s.timeNs.toNat / 1000) }
      ((s.setContext (c.w 4).toNat x).ownGroups {} x).finishCmd n 0

/-- CONTEXT destroy (R355): the context is killed with cause 0, and every command of its queues completes CONTEXT_DEAD.
Log entries 50 (DESIGN CHOICE), 93 (DEDUCED). -/
def execContextDestroy (n : Nat) (s : State) : Out :=
  s.cmdRun n (fun c => c.isContext 1) fun c s =>
    if !s.existing (c.w 4) then s.finishCmd n 0x02
    else
      let id := (c.w 4).toNat
      let s := (s.killContext id 0).ownGroups (s.context id) {}
      let s := s.modContext id fun x => { x with torn := true }
      let others := (s.cmds.filter fun x => decide (x.ctx = id) && decide (x.num ≠ n)).map (·.num)
      let s := others.foldl (fun s k => s.finishCmd k 0x01) s
      let s : State := { s with launches := s.launches.filter fun p => decide (p.2.ctx ≠ id) }
      s.finishCmd n (if c.ctx = id then 0x01 else 0)

/-- The teams of a context that are placed. -/
def State.placedOf (s : State) (ctx : Nat) : List Nat := (s.teams.filter fun p => decide (p.2.ctx = ctx) && !p.2.saved && !p.2.lost).map (·.1)

/-- CONTEXT update (R355, R414): a change of ROOT or PASID stops the context's placed teams first, and they go on where they
are when it is done. Log entry 61 (DESIGN CHOICE). -/
def execContextUpdate (n : Nat) (s : State) : Out :=
  s.cmdRun n (fun c => c.isContext 2) fun c s =>
    if !s.existing (c.w 4) then s.finishCmd n 0x02
    else s.cmdRead c (c.w 5) 64 fun b s =>
      let id := (c.w 4).toNat
      let old := s.context id
      let new := contextOf b old
      let moves := decide (old.root ≠ new.root) || decide (old.pasid ≠ new.pasid)
      let placed := s.placedOf id
      let fresh := placed.filter fun t => !(s.team t).stopping
      if moves && !fresh.isEmpty then
        let s := fresh.foldl State.haltTeam s
        s.modCmd n fun c => { c with stops := c.stops ++ fresh }
      else if moves && placed.any fun t => !(s.team t).stopped then s
      else
        let s := (s.setContext id new).ownGroups old new
        let s := c.stops.foldl (fun s t => if (s.teams.find t).isSome then s.modTeam t fun x => { x with stopping := false, stopped := false } else s) s
        let s := c.stops.foldl (fun s t => (s.mapPkts t (PktState.rise s.timeNs)).pumpTeam t) s
        let s := s.wakeJobs c.stops
        s.finishCmd n 0

/-- A queue as its descriptor gives it (Table 18-1): nothing consumed, nothing ignored; none where a field is out of range.
Log entry 51 (DEDUCED). -/
def queueOf (b : List Byte) : Option Queue :=
  let w := wordAt b
  let q : Queue := { v := (w 1).getLsbD 0, base := w 0, ctx := wbits (w 1) 32 32, log2n := wbits (w 1) 20 4, weight := wbits (w 1) 8 8 }
  let q := { q with prio := wbits (w 1) 5 3, devq := (w 1).getLsbD 2, priv := (w 1).getLsbD 1, rpaddr := w 2 }
  if q.log2n < 6 ∨ q.weight = 0 ∨ q.base.toNat % 64 ≠ 0 ∨ q.rpaddr.toNat % 8 ≠ 0 then none else some q

/-- CONTEXT bind queue: w4 names the queue, the descriptor its context. Log entry 51 (DEDUCED). -/
def execContextBindQueue (n : Nat) (s : State) : Out :=
  s.cmdRun n (fun c => c.isContext 3) fun c s =>
    if 131071 < (c.w 4).toNat then s.finishCmd n 0x02
    else s.cmdRead c (c.w 5) 64 fun b s =>
      match queueOf b with
      | none => s.finishCmd n 0x02
      | some q => if !s.existing (BitVec.ofNat 64 q.ctx) then s.finishCmd n 0x02 else (s.setQueue (c.w 4).toNat q).finishCmd n 0

/-- CONTEXT unbind queue. Log entry 51 (DEDUCED). -/
def execContextUnbindQueue (n : Nat) (s : State) : Out :=
  s.cmdRun n (fun c => c.isContext 4) fun c s =>
    let q := (c.w 4).toNat
    if 131071 < q ∨ !(s.queue q).v then s.finishCmd n 0x02 else ({ s with queues := s.queues.erase q } : State).finishCmd n 0

/-- CONTEXT query context (R356). -/
def execContextQueryContext (n : Nat) (s : State) : Out :=
  s.cmdRun n (fun c => c.isContext 5) fun c s =>
    if !s.named (c.w 4).toNat then s.finishCmd n 0x02
    else
      let x := s.context (c.w 4).toNat
      let r := [BitVec.ofNat 64 x.stat, x.sigfault.setWidth 64, 0, 0, 0, 0, 0, 0]
      s.cmdWrite c (c.w 5) (wordBytes r) fun s => s.finishCmd n 0

/-- A queue's descriptor (Table 18-1). -/
def Queue.image (q : Queue) : List W64 :=
  let flag := fun (b : Bool) (i : Nat) => if b then 2 ^ i else 0
  let w1 := q.ctx * 2 ^ 32 + q.log2n * 2 ^ 20 + q.weight * 256 + q.prio * 32 + flag q.devq 2 + flag q.priv 1 + flag q.v 0
  [q.base, BitVec.ofNat 64 w1, q.rpaddr, q.rptr ++ q.wptr, q.overrun.setWidth 64, 0, 0, 0]

/-- CONTEXT query queue (R356). -/
def execContextQueryQueue (n : Nat) (s : State) : Out :=
  s.cmdRun n (fun c => c.isContext 6) fun c s =>
    if 131071 < (c.w 4).toNat then s.finishCmd n 0x02
    else s.cmdWrite c (c.w 5) (wordBytes (s.queue (c.w 4).toNat).image) fun s => s.finishCmd n 0

/-! ## DLAUNCH (R373, R374) -/

/-- DLAUNCH past its release and its operand checks. Log entry 92 (DEDUCED). -/
def State.dlaunch (s : State) (i : Instr) (d : BitVec 6) (q : Nat) (img : W64) : State :=
  let put := fun (s : State) (c : Nat) => s.sput d (BitVec.ofNat 64 c)
  let x := s.queue q
  if !x.v || !x.devq || decide (x.ctx ≠ s.curTeam.ctx) then put s 0x40
  else
    match s.engRead s.sacc (.scalar s.curGid) img 64 with
    | (.wait, s) => s.sagain i
    | (.fault c, s) => put s (copyCode c)
    | (.ok b, s) =>
      if !([0x00, 0x01, 0x03, 0x04] : List Nat).contains (wbits (wordAt b 0) 0 8) then put s 0x41
      else if (x.wptr - x.rptr).toNat = 2 ^ x.log2n then put s 0x42
      else
        match s.engWrite x.acc (.store x.ctx) (x.slotVa x.wptr) b with
        | (.wait, s) => s.sagain i
        | (.fault c, s) => put s (copyCode c)
        | (.ok _, t) => put (State.noteReady s (t.setQueue q { x with wptr := x.wptr + 1 })) 0

/-- DLAUNCH (R373). -/
def execDlaunch (a d : BitVec 6) (s : State) : Out :=
  let i := Instr.dlaunch a d
  if !s.runsDone then .next (s.swaitOn { instr := i })
  else
    let s := s.releaseAt s.curTeam.core .dev
    let w := s.sreadAt a 0
    let img := s.sreadAt a 1
    .next (if 2 ^ 17 ≤ w.toNat ∨ img.toNat % 64 ≠ 0 then s.sput d 0x10 else s.dlaunch i d w.toNat img)

end Sys2Proof.Machine
end

