-- ==== Sys2Proof/Machine/HostIf.lean ====
section
/-! DEFINITION. What arrives over the host tether (R78 to R80, R420 to R425): answers, heartbeats, the deadline, the management
page. -/

namespace Sys2Proof.Machine

/-! ## Who goes on (R79, R423) -/

/-- Whoever waits for a request goes on: a split that waits for a translation is ready again, a transfer sends what it has not
sent, a prefetch of an address looks again; every other party looks again at its own event. -/
def State.wakeWaiter (s : State) (w : Waiter) (va : W64) : State :=
  match w with
  | .xlat gid slot =>
    let up := fun (x : Split) => if x.mode = .suspended .translation then { x with mode := .ready, age := s.cycle } else x
    s.modGroup gid fun g => g.modSplit slot up
  | .xfer n => s.resumeXfer n
  | .prefl gid pol => { (({ s with curGid := gid } : State).prefetch va pol) with curGid := s.curGid }
  | _ => s

/-- A far result of a group that waits for host request n gets its value. -/
def State.hostFar (s : State) (gid n : Nat) (val : Nat → Ext → W64) : State :=
  let land := fun (f : Far) => match f.src with
    | .host t b e => if t = n then { f with src := FarSrc.value (val b e) } else f
    | _ => f
  s.modGroup gid fun g => { g with far := g.far.map land }

/-- A request keeps its answer for its waiter, and is off the tether: others that waited may leave. -/
def State.hostKeep (s : State) (n : Nat) (r : Req) : State :=
  let h := { s.host with reqs := s.host.reqs.insert n r }
  { s with host := h.release h.waiting.length }

/-- A host request is answered with a value, seen by each waiter as `val` gives it; a lane atomic's acquire follows (R134). -/
def State.hostValue (s : State) (n : Nat) (r : Req) (val : Nat → Ext → W64) : State :=
  match r.waiter with
  | .far gid => ((s.hostFar gid n val).dropHost n).acquired r
  | .scalar gid => if s.ownWait gid onHost n then s.hostKeep n { r with ans := some (val r.bytes .zero) } else s.dropHost n
  | w => (s.dropHost n).wakeWaiter w r.va

/-! ## HOST_RESPONSE (R421) -/

/-- The line of a read stands in L2, and in the L1 it goes to, as its policy says (Tables 6-2 and 7-2); not where a later store has
overtaken the read (R120). `near`: an instruction's own access. -/
def State.hostKeepLine (s : State) (r : Req) (near : Bool) (data : BitVec 1024) : State :=
  let k := lineKey 1 0 r.addr
  if r.stale || (!near && decide (r.pol = 1)) then s
  else
    let s : State := { s with mem := s.mem.install k { data := data, use := 0 } }
    let m := s.mem
    let s : State := if r.pol = 2 then { s with mem := { m with l2 := (m.l2.find k).elim m.l2 fun x => m.l2.insert k { x with use := 0 } } } else s
    match r.l1 with
    | some core => s.keepLine core k 0 r.pol false data
    | none => s

/-- A line comes back: it is cached, and its waiter has its value; a line an engine has asked for stands ready for it. -/
def State.hostLine (s : State) (n : Nat) (r : Req) (data : BitVec 1024) : State :=
  let near := match r.waiter with
    | .far _ | .prefl _ _ => true
    | .scalar gid => s.ownWait gid onHost n
    | _ => false
  let s := s.hostKeepLine r near data
  if near then s.hostValue n r fun b e => BitVec.ofNat 64 (widen e b (lget data (r.addr % 128) b))
  else
    match r.waiter with
    | .xfer x => (s.hostKeep n { r with line := some data }).resumeXfer x
    | _ => s.hostKeep n { r with line := some data }

/-- Every access that waits for a translation request goes on (R82). -/
def State.wakeJoined (s : State) (r : Req) : State := r.joined.foldl (fun s j => s.wakeWaiter j.waiter j.va) s

/-- Put a grant into the ATC of its page's link die, which holds 8,192 entries (R78). Log entry 13 (DESIGN CHOICE). -/
def Mem.atcPut (m : Mem) (e : AtcEntry) (pick : Nat) : Mem :=
  let die := fun (x : AtcEntry) => Config.linkDie x.page % 2
  let rest := m.atc.filter fun x => !(decide (x.pasid = e.pasid) && decide (x.page = e.page))
  let mine := rest.filter fun x => decide (die x = die e)
  let out := if 8192 ≤ mine.length then mine[pick % mine.length]? else none
  { m with atc := e :: rest.filter fun x => decide (some x ≠ out) }

/-- A translation is granted (R78, R79): the ATC holds it under the PASID it was asked for, and the accesses that wait go on. -/
def State.hostXlat (s : State) (n : Nat) (r : Req) (page bytes : Nat) (g : AtsGrant) : State :=
  let d := s.draw
  let e : AtcEntry := { pasid := r.pasid, page := page, bytes := bytes, ans := g }
  let s := if s.mem.atc.length < 8192 then s else d.2
  (({ s with mem := s.mem.atcPut e d.1.toNat } : State).dropHost n).wakeJoined r

/-- A translation is denied (R79, R423): each access of a kind that waits for it has the cause still to see; `all`: of every kind. -/
def State.hostRefuse (s : State) (n : Nat) (r : Req) (cause : Nat) (all : Bool) : State :=
  let hit := r.joined.filter fun j => (all || decide (j.write = decide (r.data = 1))) && (match j.waiter with
    | .prefl _ _ => false
    | _ => true)
  let ds := hit.map fun j => ({ waiter := j.waiter, ctx := j.ctx, page := j.va.toNat / 4096, write := j.write, cause := cause } : Denial)
  let again := r.joined.filter fun j => match j.waiter with
    | .prefl _ _ => !all && decide (j.write ≠ decide (r.data = 1))
    | _ => true
  let s := s.dropHost n
  let s : State := { s with host := { s.host with denials := s.host.denials ++ ds } }
  s.wakeJoined { r with joined := again }

/-- PRI Page Requests outstanding (R78). Log entry 66 (DEDUCED). -/
def HostLink.pris (h : HostLink) : Nat := (h.reqs.filter fun p => decide (p.2.kind = .pri) && !p.2.parked).length

/-- ATS has denied a page, or has no translation for it: a Page Request once, then the fault (R79). `cmp` keeps which.
Log entry 66 (DEDUCED). -/
def State.hostDenied (s : State) (n : Nat) (r : Req) (refused : Bool) : State :=
  if r.tries = 0 then
    let q := { r with kind := .pri, tries := 1, cmp := if refused then 1 else 0, parked := decide (512 ≤ s.host.pris), sent := s.timeNs }
    { s with host := { s.host with reqs := s.host.reqs.insert n q } }
  else s.hostRefuse n r (if refused then 0x07 else 0x06) false

/-- A write is acknowledged. -/
def State.hostAck (s : State) (n : Nat) (r : Req) : State :=
  match r.waiter with
  | .copy t c g => (s.dropHost n).unitDone t c g false
  | w => (s.dropHost n).wakeWaiter w r.va

/-- A request is on the tether and can be answered: a parked write once it has been sent (R424). -/
def State.onTether (s : State) (n : Nat) (r : Req) : Bool :=
  let unsent := s.host.parked.any fun p => decide (p.req = n) && !p.sent
  !s.host.waiting.contains n && !unsent && !(decide (r.kind = .pri))

/-- HOST_RESPONSE (R421): a tagged response completes its request; from D on only a write's does (R423). -/
def execHostResponse (tag : Nat) (a : HostAns) (s : State) : Out :=
  match s.host.reqs.find tag with
  | none => .next s
  | some r =>
    if !s.onTether tag r || r.answered || (s.hostGone && !r.isWrite) then .next s
    else
      match r.kind, a with
      | .read, .line d => .next (s.hostLine tag r d)
      | .write, .ack => .next (s.hostAck tag r)
      | .atom _ _, .value v => .next (s.hostValue tag r fun b _ => BitVec.ofNat 64 (v.toNat % 2 ^ (8 * b)))
      | .ats, .grant h n w =>
        let base := r.va.toNat / max 1 n * max 1 n / 4096
        .next (if r.data = 1 ∧ !w then s.hostDenied tag r true else s.hostXlat tag r base n { hpage := h, write := w })
      | .ats, .noTranslation => .next (s.hostDenied tag r false)
      | .ats, .refused => .next (s.hostDenied tag r true)
      | _, _ => .next s

/-- A Page Request that waited for a free one leaves (R78). Log entry 66 (DEDUCED). -/
def HostLink.nextPri (h : HostLink) : HostLink :=
  match h.reqs.find? fun p => decide (p.2.kind = .pri) && p.2.parked with
  | some (n, r) => if h.pris < 512 then { h with reqs := h.reqs.insert n { r with parked := false } } else h
  | none => h

/-- PRI_RESPONSE (R79): on Success the translation is tried once more; else it faults. Log entry 66 (DEDUCED). -/
def execPriResponse (tag : Nat) (x : PriResp) (s : State) : Out :=
  match s.host.reqs.find tag with
  | none => .next s
  | some r =>
    if r.kind ≠ .pri ∨ r.parked ∨ s.hostGone then .next s
    else
      let t := match x with
        | .success => { s with host := { s.host with reqs := s.host.reqs.insert tag { r with kind := .ats, sent := s.timeNs } } }
        | _ => s.hostRefuse tag r (if r.cmp = 1 then 0x07 else 0x06) false
      .next { t with host := t.host.nextPri }

/-! ## The tether's state (R422, R424) -/

/-- 10 ms (R422). -/
def beatLimit : Nat := 10000000

/-- HEARTBEAT_TIMEOUT (R422, R423): 10 ms without a heartbeat; D is set. -/
def execHeartbeatTimeout (s : State) : Out :=
  let h := s.host
  if s.boot.ready.getLsbD 0 ∧ h.tether ≠ .lost ∧ h.lastBeat.toNat + beatLimit ≤ s.timeNs.toNat then
    .next { s with host := { h with tether := .lost, deadline := s.timeNs + 1000000 } }
  else .next s

/-- REPLAY_COMPLETE (R422): the last parked write has been acknowledged; writes parked since the heartbeat are sent first.
Log entry 65 (DEDUCED). -/
def execReplayComplete (s : State) : Out :=
  let h := s.host
  if h.tether ≠ .replay then .next s
  else if h.parked = [] then
    let h := { h with tether := .attached }
    .next { s with host := h.release h.waiting.length }
  else .next { s with host := { h with parked := h.parked.map fun p => { p with sent := true } } }

/-- A request without a response at the deadline ends (R423): a lane gets 0, a scalar stream traps, and an engine, or an access that
needed a translation, has HOST_LOST still to see. -/
def State.hostExpired (s : State) (n : Nat) (r : Req) : State :=
  if r.isXlat then s.hostRefuse n r 0x13 true
  else
    match r.waiter with
    | .far gid => (((s.hostFar gid n fun _ _ => 0).stickyFabric r.ctx).dropHost n).acquired r
    | .scalar gid => if s.ownWait gid onHost n then (s.dropHost n).scalarTrapIn gid 0x13 r.va else (s.dropHost n).deny r 0x13
    | .prefl _ _ => s.dropHost n
    | w => ((s.dropHost n).deny r 0x13).wakeWaiter w r.va

/-- At D, with the host lost, reads, atomics and translation requests without a response end (R423). -/
def State.atDeadline (s : State) : State :=
  if !s.hostGone then s
  else
    let ends := s.host.reqs.filter fun p => !p.2.isWrite && !p.2.answered
    ends.foldl (fun s p =>
      let s : State := { s with host := { s.host with waiting := s.host.waiting.filter fun t => decide (t ≠ p.1) } }
      s.hostExpired p.1 p.2) s

/-- HOST_DEADLINE (R423). Log entry 65 (DEDUCED). -/
def execHostDeadline (s : State) : Out := .next s.atDeadline

/-- HEARTBEAT (R422): the watch starts again; a lost host is back, and the parked writes are sent in park order. What has no response at
D has ended by then, and a heartbeat at the very time of the loss leaves the host attached. Log entry 65 (DEDUCED). -/
def execHeartbeat (s : State) : Out :=
  if !s.boot.ready.getLsbD 0 then .next s
  else
    let s := s.atDeadline
    let h : HostLink := { s.host with lastBeat := s.timeNs }
    let same := decide (h.deadline = s.timeNs + 1000000) && decide (h.parked = [])
    .next { s with host := if h.tether ≠ .lost then h
      else if same then ({ h with tether := .attached } : HostLink).release h.waiting.length
      else { h with tether := .replay, parked := h.parked.map fun p => { p with sent := true } } }

/-! ## The management page (R425) -/

/-- The tether state's code (R422). -/
def Tether.code : Tether → Nat
  | .attached => 0 | .lost => 1 | .replay => 2

/-- HOSTSTAT (R425). -/
def State.hostStat (s : State) : W64 :=
  BitVec.ofNat 64 (s.host.parkUse * 2 ^ 32 + (if s.boot.taken then 8 else 0) + s.host.tether.code)

/-- A register of the management page; write-only and reserved ones read as zero (R4). -/
def State.mgmtRead (s : State) (off : Nat) : W64 :=
  if off = 0 then s.boot.ready.setWidth 64
  else if off = 0x10 then s.hostStat
  else if off = 0x18 then s.boot.bootid
  else if off % 8 ≠ 0 then 0
  else if 0x100 ≤ off ∧ off < 0x140 then s.mem.noframe.get 0 ((off - 0x100) / 8)
  else if 0x140 ≤ off ∧ off < 0x180 then s.mem.relayout.get 0 ((off - 0x140) / 8)
  else if 0x180 ≤ off ∧ off < 0x190 then s.mem.poolErr.get 0 ((off - 0x180) / 8)
  else 0

/-- REGISTER_WRITE (R4, R425): only HEARTBEAT acts; every other register of the page is read-only or reserved. -/
def execRegisterWrite (off : Nat) (_ : W64) (s : State) : Out := if off = 0x008 then execHeartbeat s else .next s

end Sys2Proof.Machine
end

