-- ==== Sys2Proof/Machine/Boot.lean ====
section
/-! DEFINITION. Power-on, readiness, the configuration record, attestation (R425 to R429), Chamois (R430 to R432) and the counters
of unused features (R53). -/

namespace Sys2Proof.Machine

/-! ## Power-on and readiness (R425 to R427) -/

/-- Draw a block from the random source. Log entry 7 (DESIGN CHOICE). -/
def State.drawBlock (s : State) : BitVec 512 × State := (Config.freeBlock s.free, { s with free := s.free + 1 })

/-- POWER_ON_RESET (R84, R425, R427, R428): the machine starts over; the pool keeps its bytes; the device key, BOOTID and the
identity are drawn, and the ROM is measured. Log entry 71 (DESIGN CHOICE). -/
def execPowerOnReset (s : State) : Out :=
  let k := s.drawBlock
  let i := k.2.drawBlock
  let b := i.2.draw
  let m : Mem := { pool := s.mem.pool, poolKey := s.mem.poolKey, keys := SMap.insert [] 0 k.1 }
  .next { State.reset with
    agenda := s.agenda, free := b.2.free, mem := m,
    boot := { on := true, bootid := b.1, idKey := i.1, meas0 := Config.romDigest } }

/-- What a READY bit needs before it can be set (R425). -/
def readyNeeds (r : BitVec 21) (b : Nat) : Bool :=
  match b with
  | 3 => false
  | 16 => r.getLsbD 3 && (r.getLsbD 4 || r.getLsbD 5 || r.getLsbD 6 || r.getLsbD 7)
  | 17 | 18 | 20 => r.getLsbD 3
  | 19 => r.getLsbD 18
  | _ => true

/-- The system root table (R71): where the ROM firmware keeps it, and what it maps, the manual leaves open. It stands in a carved frame
that firmware takes, and maps the device memory at its own addresses for privileged code. Log entry 107 (DESIGN CHOICE). -/
def State.sysRoot (s : State) : State :=
  if (s.contexts.find sysCtx).isSome then s
  else
    let d := s.tableFrame
    let root := d.1 * 65536
    let line := fun (ws : List W64) => BitVec.ofNat 1024 (ofLeBytes (wordBytes ws))
    let leaf := fun (i : Nat) => BitVec.ofNat 64 (i * 2 ^ 30 + 9 * 2 ^ 52 + 3 * 2 ^ 48 + 15)
    let m := ((d.2.mem.zeroPage root).zeroPage (root + 4096)).zeroPage (root + 8192)
    let m := m.setHbmLine root 0 (line [BitVec.ofNat 64 (root + 4097)])
    let m := m.setHbmLine (root + 4096) 0 (line [BitVec.ofNat 64 (root + 8193)])
    let m := (List.range 24).foldl (fun m j => m.setHbmLine (root + 8192 + 128 * j) 0 (line ((List.range 16).map fun i => leaf (16 * j + i)))) m
    { d.2 with mem := m, contexts := d.2.contexts.insert sysCtx { root := BitVec.ofNat 64 root } }

/-- Firmware sets the token count of each die's ring, 1 to 9, so that package power keeps the lower of 2,000 W and the configured or
commanded limit (R14, R433): 1 while the package is throttled, else a free value. Log entry 108 (DESIGN CHOICE). -/
def State.setTokens (s : State) : State :=
  s.rings.foldl (fun s p =>
    let d := s.draw
    let n := if s.boot.throttled then 1 else 1 + d.1.toNat % 9
    { d.2 with rings := d.2.rings.insert p.1 (p.2.setCount n s.cycle) }) s

/-- Every 100 ms of device time firmware sets the token counts again, and a throttled package may have cooled (R14, R433).
Log entry 108 (DESIGN CHOICE). -/
def State.powerTick (s : State) (before : W64) : State :=
  if s.rings = [] ∨ before.toNat / 100000000 = s.timeNs.toNat / 100000000 then s
  else
    let d := s.draw
    ({ d.2 with boot := { d.2.boot with throttled := d.2.boot.throttled && d.1.getLsbD 0 } } : State).setTokens

/-- READY_BIT_SET (R422, R426): a function is usable; from TETHER the heartbeat watch starts, and with the first die its ROM firmware
keeps the system root table. CONFIG is set by a record alone. -/
def execReadyBitSet (b : Fin 21) (s : State) : Out :=
  if s.boot.ready.getLsbD b.val || !readyNeeds s.boot.ready b.val then .next s
  else
    let s : State := { s with boot := { s.boot with ready := s.boot.ready ||| (1#21 <<< b.val) } }
    .next (if b.val = 0 then { s with host := { s.host with lastBeat := s.timeNs } } else if 4 ≤ b.val ∧ b.val < 8 then s.sysRoot else s)

/-- HBM_STACK_FAILURE (R426): a DIE or HBM bit clears when its unit fails with no spare. -/
def execHbmStackFailure (b : Fin 21) (s : State) : Out :=
  .next (if 4 ≤ b.val ∧ b.val < 16 then { s with boot := { s.boot with ready := s.boot.ready &&& ~~~(1#21 <<< b.val) } } else s)

/-- UNUSED_FEATURE_MESSAGE (R53): dropped, and counted at its link die. -/
def execUnusedFeatureMessage (die : Fin 2) (s : State) : Out :=
  .next { s with mem := { s.mem with poolErr := bumpCount s.mem.poolErr die.val } }

/-! ## The configuration record (R428) -/

/-- The bytes of a block. -/
def blockBytes (b : BitVec 512) : List Byte := leBytes 64 b.toNat

/-- A record's fields are in range. Log entry 70 (DESIGN CHOICE). -/
def cfgInRange (r : CfgRec) : Bool :=
  decide (r.devid < 2 ^ 18) && decide (r.park ≤ 65536) && decide (500 ≤ r.power) && decide (r.power ≤ 2000)
    && decide (r.tokens.length = 4) && (r.tokens.all fun n => decide (1 ≤ n) && decide (n ≤ 9))
    && (r.repair.all fun p => decide (p.1 < 288) && decide (p.2 < 288)) && (r.failed.all fun c => decide (c < 288))

/-- A record passes its three checks (R428). Log entries 9 (DESIGN CHOICE), 70 (DESIGN CHOICE). -/
def State.cfgOk (s : State) (r : CfgRec) : Bool :=
  Config.verify Config.rootDigest r.chain r.chainSig && Config.verify (Config.sha3 r.chain) r.raw r.sig
    && decide (r.devKey = s.boot.idKey) && cfgInRange r

/-- The park area is a carve-out of HBM frames (R424); which ones, the manual leaves open. Log entry 109 (DESIGN CHOICE). -/
def State.carvePark (s : State) : Nat → State
  | 0 => s
  | n + 1 => s.tableFrame.2.carvePark n

/-- CONFIG_RECORD (R428): accepted once; a later one is refused. Log entries 70 (DESIGN CHOICE), 109 (DESIGN CHOICE). -/
def execConfigRecord (r : CfgRec) (s : State) : Out :=
  if s.boot.ready.getLsbD 3 || !s.cfgOk r then .next s
  else
    let boot := { s.boot with ready := s.boot.ready ||| 8#21, meas1 := Config.sha3 r.raw, operKey := r.operator, cert := r.cert,
                              powerLimit := r.power }
    let fab := { s.fabric with devid := r.devid, linkMap := r.linkMap.foldl (fun (m : SMap Nat) p => m.insert p.1 p.2) [] }
    let s := ({ s with boot := boot, fabric := fab, host := { s.host with parkFrames := r.park } } : State).carvePark r.park
    let s := r.repair.foldl (fun s p => s.modCore p.1 fun c => { c with phys := some p.2 }) s
    let s := r.failed.foldl (fun s c => s.modCore c fun x => { x with failed := true }) s
    .next (r.tokens.zipIdx.foldl (fun s p => { s with rings := s.rings.insert p.2 ((s.rings.get {} p.2).setCount p.1 s.cycle) }) s)

/-! ## The SPDM responder (R429) -/

/-- Send an SPDM response. -/
def State.spdmSend (s : State) (code : Nat) (ws : List W64) : State :=
  { s with boot := { s.boot with spdm := { s.boot.spdm with sent := s.boot.spdm.sent ++ [(code, ws)] } } }
/-- A request is answered once READY.ATTEST stands, and with an error where what it needs is missing. Log entry 69 (PRESUMED). -/
def State.spdm (s : State) (ok : Bool) (f : State → State) : Out :=
  if !s.boot.ready.getLsbD 2 then .next s else if ok then .next (f s) else .next (s.spdmSend 0x7F [])
/-- Change the responder's state. -/
def State.modSpdm (s : State) (f : Spdm → Spdm) : State := { s with boot := { s.boot with spdm := f s.boot.spdm } }
/-- A signature of the identity key, as words. Log entry 9 (DESIGN CHOICE). -/
def State.signed (s : State) (b : List Byte) : List W64 := blockWords (Config.sign s.boot.idKey b)

/-- GET_VERSION: 1.3; negotiation starts over. Log entry 69 (PRESUMED). -/
def execGetVersion (s : State) : Out :=
  s.spdm true fun s => (s.modSpdm fun x => { x with version := true, caps := false, algos := false, failed := false }).spdmSend 0x04 [0x13]
/-- GET_CAPABILITIES. Log entry 69 (PRESUMED). -/
def execGetCapabilities (s : State) : Out :=
  s.spdm s.boot.spdm.version fun s => (s.modSpdm fun x => { x with caps := true }).spdmSend 0x61 []
/-- NEGOTIATE_ALGORITHMS: ML-DSA-87 and SHA3-512 only; any other request ends negotiation with an error. Log entry 69 (PRESUMED). -/
def execNegotiateAlgorithms (mldsa87 sha3 other : Bool) (s : State) : Out :=
  if s.boot.spdm.caps && !s.boot.spdm.failed && mldsa87 && sha3 && !other then
    s.spdm true fun s => (s.modSpdm fun x => { x with algos := true }).spdmSend 0x63 []
  else s.spdm true fun s => (s.modSpdm fun x => { x with failed := true, algos := false }).spdmSend 0x7F []
/-- GET_DIGESTS. Log entry 69 (PRESUMED). -/
def execGetDigests (s : State) : Out :=
  s.spdm s.boot.spdm.algos fun s => s.spdmSend 0x01 (blockWords (Config.sha3 (blockBytes s.boot.cert)))
/-- GET_CERTIFICATE. Log entry 69 (PRESUMED). -/
def execGetCertificate (s : State) : Out := s.spdm s.boot.spdm.algos fun s => s.spdmSend 0x02 (blockWords s.boot.cert)
/-- CHALLENGE: signed over the nonce and the measurements. Log entry 69 (PRESUMED). -/
def execChallenge (nonce : List Byte) (s : State) : Out :=
  s.spdm s.boot.spdm.algos fun s =>
    s.spdmSend 0x03 (s.signed (nonce ++ blockBytes s.boot.meas0 ++ blockBytes s.boot.meas1))
/-- GET_MEASUREMENTS of index 0 or 1, signed. Log entry 69 (PRESUMED). -/
def execGetMeasurements (i : Nat) (nonce : List Byte) (s : State) : Out :=
  s.spdm (s.boot.spdm.algos && decide (i < 2)) fun s =>
    let m := if i = 0 then s.boot.meas0 else s.boot.meas1
    s.spdmSend 0x60 (blockWords m ++ s.signed (nonce ++ blockBytes m))

/-! ## Chamois (R430 to R432) -/

/-- A header word of a command record. -/
def chW (r : ChRec) (i : Nat) : W64 := r.hdr.getD i 0
/-- CMD. -/
def chCmd (r : ChRec) : Nat := wbits (chW r 0) 24 8
/-- The number a payload spells. -/
def chValue (r : ChRec) : Nat := ofLeBytes r.payload

/-- Reserved bits, LEN or CMD out of range (R430, R432). Log entry 68 (DESIGN CHOICE). -/
def chMalformed (r : ChRec) : Bool :=
  let len := wbits (chW r 0) 32 32
  decide (wbits (chW r 0) 18 6 ≠ 0) || decide (chW r 4 ≠ 0) || decide (chW r 5 ≠ 0) || decide (chW r 6 ≠ 0) || decide (chW r 7 ≠ 0)
    || decide (4096 < len) || decide (r.payload.length ≠ len) || decide (chCmd r = 0) || decide (7 < chCmd r)
    || (match chCmd r with
      | 4 | 5 => decide (len ≠ 4 ∧ len ≠ 8)
      | 6 => decide (len ≠ 64) || !([0x10, 0x11, 0x12, 0x13, 0x14] : List Nat).contains (wbits (wordAt r.payload 0) 0 8)
      | 7 => decide (len = 0) || decide (chValue r < 500) || decide (2000 < chValue r)
      | _ => false)

/-- A command is allowed in the present state (R432). Log entry 68 (DESIGN CHOICE). -/
def State.chAllowed (s : State) (r : ChRec) : Bool :=
  match chCmd r with
  | 2 => decide (s.host.tether = .lost)
  | 3 => decide (s.host.tether = .attached) && s.boot.taken
  | 4 | 5 => s.named (chValue r)
  | 6 => s.boot.taken
  | _ => true

/-- The signed bytes of a record. -/
def chDigest (r : ChRec) : List Byte := blockBytes (Config.sha3 (wordBytes r.hdr ++ r.payload))

/-- The status of a record, in the order of R431, and whether its signature has verified with a fresh SEQ.
Log entries 9 (DESIGN CHOICE), 68 (DESIGN CHOICE). -/
def State.chStatus (s : State) (r : ChRec) : Nat × Bool :=
  if chMalformed r then (0x65, false)
  else if chCmd r = 1 then (0, false)
  else if !s.boot.ready.getLsbD 3 then (0x66, false)
  else if wbits (chW r 0) 0 18 ≠ s.fabric.devid ∨ chW r 1 ≠ s.boot.bootid then (0x63, false)
  else if (chW r 3).toNat < s.timeNs.toNat then (0x62, false)
  else if !Config.verify s.boot.operKey (chDigest r) r.sig then (0x60, false)
  else if (chW r 2).toNat ≤ s.boot.lastSeq.toNat then (0x61, false)
  else if !s.chAllowed r then (0x64, true)
  else (0, true)

/-- Answer a record. -/
def State.chRespond (s : State) (cmd status : Nat) (ws : List W64) : State := { s with boot := s.boot.respond cmd status ws }

/-- A record is taken when no PRIVCMD is still running (R430: one at a time); `k` is the effect of an accepted one.
Log entry 68 (DESIGN CHOICE). -/
def State.chamois (s : State) (want : Nat) (r : ChRec) (k : State → State) : Out :=
  if s.cmds.any fun c => decide (c.queue = none) then .next s
  else if !chMalformed r && decide (chCmd r ≠ want) then .next s
  else
    let q := s.chStatus r
    let s : State := if q.2 then { s with boot := { s.boot with lastSeq := chW r 2 } } else s
    if q.1 ≠ 0 then .next (s.chRespond (chCmd r) q.1 []) else .next (k s)

/-- The payload of STATUS (R432). Package power is a measured value, left free. Log entry 68 (DESIGN CHOICE). -/
def State.statusWords (s : State) (power : W64) : List W64 :=
  [s.boot.bootid, s.boot.lastSeq, s.mgmtRead 0, s.hostStat] ++ blockWords s.boot.meas0 ++ blockWords s.boot.meas1
    ++ [power, if s.boot.throttled then 1 else 0] ++ (List.range 18).map fun i => s.mgmtRead (0x100 + 8 * i)

/-- STATUS (R432). -/
def execStatus (r : ChRec) (s : State) : Out :=
  s.chamois 1 r fun s => let d := s.draw; d.2.chRespond 1 0 (d.2.statusWords d.1)
/-- TAKE (R432). -/
def execTake (r : ChRec) (s : State) : Out :=
  s.chamois 2 r fun s => ({ s with boot := { s.boot with taken := true } } : State).chRespond 2 0 []
/-- HANDBACK (R432). -/
def execHandback (r : ChRec) (s : State) : Out :=
  s.chamois 3 r fun s => ({ s with boot := { s.boot with taken := false } } : State).chRespond 3 0 []
/-- KILL (R408, R432). -/
def execKill (r : ChRec) (s : State) : Out := s.chamois 4 r fun s => (s.killContext (chValue r) 0).chRespond 4 0 []

/-- A context's parked writes are dropped (R432). -/
def HostLink.discard (h : HostLink) (ctx : Nat) : HostLink :=
  let gone := (h.parked.filter fun p => decide (p.ctx = ctx) && !p.sent).map (·.req)
  let h := { h with parked := h.parked.filter (fun p => !gone.contains p.req), reqs := h.reqs.filter (fun p => !gone.contains p.1) }
  h.release h.waiting.length
/-- DISCARD (R432). -/
def execDiscard (r : ChRec) (s : State) : Out :=
  s.chamois 5 r fun s => ({ s with host := s.host.discard (chValue r) } : State).chRespond 5 0 []
/-- PRIVCMD (R432): the command runs as from a PRIV queue, in the system context; its status is answered when it completes.
Log entry 68 (DESIGN CHOICE). -/
def execPrivcmd (r : ChRec) (s : State) : Out :=
  s.chamois 6 r fun s =>
    s.enterCmd { num := s.nextCmd, queue := none, ctx := sysCtx, priv := true, words := (List.range 8).map (wordAt r.payload) }
/-- POWER (R432, R433): firmware keeps the new limit. -/
def execPower (r : ChRec) (s : State) : Out :=
  s.chamois 7 r fun s => ({ s with boot := { s.boot with powerLimit := chValue r } } : State).setTokens.chRespond 7 0 []

end Sys2Proof.Machine
end

