-- ==== Sys2Proof/Machine/Exchange.lean ====
section
/-! DEFINITION. Cross-thread exchanges (R251 to R258) and MBXW (R164). -/

namespace Sys2Proof.Machine

/-- The participants of an exchange (R251): `before` is the state its gather reads; a thread that TRET passes over takes
no part. Log entry 27 (DEDUCED). -/
def State.participants (before : State) (l : Lane) (quad : Bool) : W32 :=
  let x := before.split
  let all := l.u && before.guard l before.lowest
  maskOf (before.active.filter fun j => (all || (!l.u && before.guard l j)) && (quad || !before.cur.isHelper j)
    && !(x.resuming && x.skipping && decide (j = x.rix)))

/-- The member mask of thread k: source C, all threads for 0xFE, or the thread's quad. -/
def State.members (s : State) (l : Lane) (quad : Bool) (k : Nat) : W32 :=
  if quad then 0xF#32 <<< (4 * (k / 4)) else if l.c = .zero then 0xFFFFFFFF else s.reg32 l.imm l.c k

/-- An exchange (R253): `r` gives thread k's result from the gathered state, the participants and k's members. -/
def State.exchange (s : State) (i : Instr) (l : Lane) (wide quad : Bool) (r : State → W32 → Nat → W32 → Nat) : Out :=
  match s.laneBegin i l with
  | .error s => .next s
  | .ok b =>
    let part := b.participants l quad
    let f := fun (k : Nat) (s : State) =>
      let m := b.members l quad k
      if !quad && !m.getLsbD k && !s.cur.isHelper k then TOut.trap 0x10 (m.setWidth 64) s
      else
        let s := if m &&& ~~~part = 0 then s else s.modCur fun g => g.modThr k fun t => { t with xexited := true }
        .val (BitVec.ofNat 64 (r b part k m)) s
    match (if l.u then laneUniform l wide f b.active b else laneThreads l wide f b.toPass b) with
    | .out s => .next s
    | .fin s => .next (s.laneEnd l.fin)

/-! ## Combining (Table 13-3) -/

/-- The integer type an exchange type computes in. -/
def XTy.int : XTy → ITy
  | .i32 => .i32 | .n32 | .f32 | .b32 => .n32 | .i64 => .i64 | .n64 => .n64
/-- The largest unsigned number of an exchange type's width. -/
def XTy.ones (t : XTy) : Nat := if t.wide then 2 ^ 64 - 1 else 2 ^ 32 - 1

/-- The identity of a combining operation. -/
def xIdentity (o : XOp) (t : XTy) : Nat :=
  match o with
  | .add => if t = .f32 then 0x80000000 else 0
  | .min => if t = .f32 then 0x7F800000 else ((XTy.int t).hi % 2 ^ 64).toNat % (XTy.ones t + 1)
  | .max => if t = .f32 then 0xFF800000 else ((XTy.int t).lo % 2 ^ 64).toNat % (XTy.ones t + 1)
  | .and => XTy.ones t
  | .or | .xor => 0

/-- One combining step (R254). -/
def xStep (o : XOp) (t : XTy) (a b : Nat) : Nat :=
  if t = .f32 then
    match o with
    | .min => (fMinMax .f32 false a b).1
    | .max => (fMinMax .f32 true a b).1
    | _ => ((fAdd (Fmt.read .f32 a) (Fmt.read .f32 b) .rn).round .f32 .rn 0).1
  else
    match o with
    | .add => (a + b) % (XTy.ones t + 1)
    | .min => if (XTy.int t).val b < (XTy.int t).val a then b else a
    | .max => if (XTy.int t).val a < (XTy.int t).val b then b else a
    | .and => a &&& b
    | .or => a ||| b
    | .xor => a ^^^ b

/-- Combine the A values of threads, ascending, from the identity. -/
def State.combine (before : State) (l : Lane) (o : XOp) (t : XTy) (ks : List Nat) : Nat :=
  ks.foldl (fun v j => xStep o t v (before.src l t.wide l.a j)) (xIdentity o t)

/-- The value of thread j where it may be taken, else thread k's own. -/
def State.takeFrom (before : State) (l : Lane) (wide : Bool) (k : Nat) (from_ : W32) (j : Option Nat) : Nat :=
  match j with
  | some j => before.src l wide l.a (if j < 32 ∧ from_.getLsbD j then j else k)
  | none => before.src l wide l.a k

/-! ## The exchanges -/

/-- XSCAN (R254). -/
def execXscan (l : Lane) (o : XOp) (t : XTy) (excl : Bool) (s : State) : Out :=
  s.exchange (.xscan l o t excl) l t.wide false fun b part k m =>
    b.combine l o t ((threadsOf (part &&& m)).filter fun j => if excl then decide (j < k) else decide (j ≤ k))
/-- XRED (R254). -/
def execXred (l : Lane) (o : XOp) (t : XTy) (s : State) : Out :=
  s.exchange (.xred l o t) l t.wide false fun b part _ m => b.combine l o t (threadsOf (part &&& m))
/-- QRED (R254). -/
def execQred (l : Lane) (o : XOp) (t : XTy) (s : State) : Out :=
  s.exchange (.qred l o t) l t.wide true fun b part _ m => b.combine l o t (threadsOf (part &&& m))
/-- The source thread of XSHF (R255). -/
def shfSource (m : Shf) (k b : Nat) : Option Nat :=
  match m with
  | .idx => some (b % 32)
  | .up => if b ≤ k then some (k - b) else none
  | .down => if k + b ≤ 31 then some (k + b) else none
  | .xor => some (k ^^^ (b % 32))
/-- XSHF (R255). -/
def execXshf (l : Lane) (m : Shf) (ty : BTy) (s : State) : Out :=
  s.exchange (.xshf l m ty) l ty.wide false fun b part k mm =>
    b.takeFrom l ty.wide k (part &&& mm) (shfSource m k (b.reg32 l.imm l.b k).toNat)
/-- XBAL (R256). -/
def execXbal (l : Lane) (p : Fin 8) (neg : Bool) (s : State) : Out :=
  s.exchange (.xbal l p neg) l false false fun b part _ m =>
    (maskOf ((threadsOf (part &&& m)).filter fun j => b.pred j p.val != neg)).toNat
/-- XMATCH (R256). -/
def execXmatch (l : Lane) (ty : BTy) (s : State) : Out :=
  s.exchange (.xmatch l ty) l false false fun b part k m =>
    (maskOf ((threadsOf (part &&& m)).filter fun j => b.src l ty.wide l.a j == b.src l ty.wide l.a k) ||| (1#32 <<< k)).toNat
/-- XFIRST (R257). -/
def execXfirst (l : Lane) (ty : BTy) (s : State) : Out :=
  s.exchange (.xfirst l ty) l ty.wide false fun b part k m =>
    b.takeFrom l ty.wide k (part &&& m) (threadsOf (part &&& m)).head?
/-- XBCST (R257): the index is read from Lowest(). -/
def execXbcst (l : Lane) (ty : BTy) (s : State) : Out :=
  s.exchange (.xbcst l ty) l ty.wide false fun b part k m =>
    b.takeFrom l ty.wide k (part &&& m) (some ((b.reg32 l.imm l.b b.lowest).toNat % 32))
/-- QSWP (R258). -/
def execQswp (l : Lane) (q : QPat) (ty : BTy) (s : State) : Out :=
  s.exchange (.qswp l q ty) l ty.wide true fun b part k m =>
    b.takeFrom l ty.wide k (part &&& m) (some (k ^^^ (match q with | .x => 1 | .y => 2 | .diag => 3)))
/-- QBCST (R258). -/
def execQbcst (l : Lane) (ty : BTy) (s : State) : Out :=
  s.exchange (.qbcst l ty) l ty.wide true fun b part k m =>
    b.takeFrom l ty.wide k (part &&& m) (some (4 * (k / 4) + (b.reg32 l.imm l.b k).toNat % 4))

/-- The 64-bit value MBXW writes (R164). -/
def State.mbxValue (s : State) (l : Lane) (ty : MbTy) (k : Nat) : W64 :=
  match ty with
  | .b32 => (s.reg32 l.imm l.a k).setWidth 64
  | .i32 => (s.reg32 l.imm l.a k).signExtend 64
  | .n64 => s.reg64 l.imm l.a k

/-- A mailbox write: the slot's value, and one more value SMBR may return (R165). -/
def Group.mailbox (g : Group) (n : Nat) (v : W64) : Group :=
  let m := SMap.get {} g.mbox n
  { g with mbox := g.mbox.insert n { m with cur := v, since := m.since ++ [v] } }

/-- MBXW (R164). -/
def execMbxw (l : Lane) (n : Fin 4) (ty : MbTy) (s : State) : Out :=
  s.lane (.mbxw l n ty) l false fun k s =>
    if s.cur.isHelper k then .done s else .done (s.modCur fun g => g.mailbox n.val (s.mbxValue l ty k))

end Sys2Proof.Machine
end

