-- ==== Sys2Proof/Machine/Approx.lean ====
section
/-! DEFINITION. The approximate functions (R231): the value a part returns is open within the bound of Table 12-4, and
the bound is decided in fixed point with 200 fraction bits. -/

namespace Sys2Proof.Machine

/-- The approximate functions. -/
inductive Appr where
  | rsq | exp2 | log2 | sin | cos
deriving DecidableEq, Repr

/-- The number of an approximate function. -/
def Appr.code : Appr → Nat
  | .rsq => 0 | .exp2 => 1 | .log2 => 2 | .sin => 3 | .cos => 4

/-- One, with 200 fraction bits. -/
def fxOne : Nat := 2 ^ 200
/-- ln 2, with 200 fraction bits. -/
def fxLn2 : Nat := 1113844574712631719546256151097547306333272293549090750737802
/-- 2 π, with 200 fraction bits. -/
def fxTwoPi : Nat := 10096689509235987743946820282484873672429286842977325943070736

/-- Terms k, k + 1, … of the exponential series, the current term given. -/
def fxExpFrom (z : Nat) : Nat → Nat → Nat → Nat
  | 0, _, _ => 0
  | n + 1, k, t => t + fxExpFrom z n (k + 1) (t * z / fxOne / (k + 1))
/-- exp z for 0 ≤ z < 1. -/
def fxExp (z : Nat) : Nat := fxExpFrom z 60 0 fxOne

/-- The fraction bits of log2 m, m in [1, 2) with 200 fraction bits: n of them, by squaring. -/
def fxLogBits : Nat → Nat → Nat
  | 0, _ => 0
  | n + 1, m =>
    let q := m * m / fxOne
    if 2 * fxOne ≤ q then 2 ^ n + fxLogBits n (q / 2) else fxLogBits n q

/-- Terms of an alternating series z^k / k! with step 2, the current term given. -/
def fxTrigFrom (z2 : Int) : Nat → Int → Int → Int
  | 0, _, _ => 0
  | n + 1, k, t => t + fxTrigFrom z2 n (k + 2) (-(t * z2 / fxOne / ((k + 1) * (k + 2))))

/-- The integer square root of a number below 2 ^ 640. -/
def fxSqrt (n : Nat) : Nat := isqrtFrom n 320 0

/-- A finite number with 200 fraction bits. -/
def fxOf (neg : Bool) (n : Nat) (x : Int) : Int :=
  let m : Int := (n * 2 ^ (x + 200).toNat : Nat)
  if neg then -m else m

/-- The function's value at a finite operand inside its range, with 200 fraction bits. -/
def Appr.exact (a : Appr) (neg : Bool) (n : Nat) (x : Int) : Int :=
  let v := fxOf neg n x
  match a with
  | .rsq => (fxSqrt (2 ^ (400 - x).toNat / n) : Int)
  | .exp2 =>
    let i := v / fxOne
    let e := fxExp ((v % fxOne).toNat * fxLn2 / fxOne)
    if 0 ≤ i then (e * 2 ^ i.toNat : Nat) else (e / 2 ^ (-i).toNat : Nat)
  | .log2 =>
    let g := Nat.log2 n
    ((g : Int) + x) * fxOne + (fxLogBits 120 (n * 2 ^ 200 / 2 ^ g) * 2 ^ 80 : Nat)
  | .sin =>
    let z := v % fxTwoPi
    fxTrigFrom (z * z / fxOne) 50 1 z
  | .cos =>
    let z := (v.natAbs : Int) % fxTwoPi
    fxTrigFrom (z * z / fxOne) 50 0 fxOne

/-- The spacing of FP32 at a fixed-point value, with 200 fraction bits. -/
def fxUlp (e : Int) : Nat := 2 ^ (max (Nat.log2 e.natAbs) 74 - 23)

/-- An FP32 encoding lies within the bound of Table 12-4 around the exact value. A cosine of a number other than 0 is irrational, so
what its fixed-point value leaves out never reaches the upper bound. Log entry 10 (DESIGN CHOICE). -/
def Appr.within (a : Appr) (big : Bool) (e : Int) (w : Nat) : Bool :=
  match Fmt.read .f32 w with
  | .fin s n x =>
    let v := fxOf s n x
    match a with
    | .rsq => decide ((v - e).natAbs ≤ fxUlp e)
    | .exp2 | .log2 => decide ((v - e).natAbs ≤ 2 * fxUlp e)
    | .sin => if big then decide (v.natAbs ≤ fxOne) else decide ((v - e).natAbs ≤ 2 ^ 178)
    | .cos => if big then decide (v.natAbs ≤ fxOne) else decide (v - e < 2 ^ 178 ∧ e - v ≤ 2 ^ 178)
  | _ => false

/-- A fixed-point value rounded to FP32. -/
def fxRound (e : Int) : Nat := if e = 0 then 0 else (roundTo .f32 false .rn 0 (decide (e < 0)) e.natAbs 1 (-200)).1

/-- The value a part returns at a finite operand (log entry 10): open within the bound. -/
def Appr.value (a : Appr) (w : Nat) (neg : Bool) (n : Nat) (x : Int) : Nat :=
  let e := a.exact neg n x
  let v := (Config.approx a.code (BitVec.ofNat 32 w)).toNat
  if a.within (decide (65536 * fxOne < (fxOf neg n x).natAbs)) e v then v else fxRound e

/-- An inexact result with its flags (R231): IX, and UF where it is subnormal or zero. -/
def apprFlags (v : Nat) : Nat × FFlags := (v, fIX ||| flagIf (decide (v % 2 ^ 31 < 2 ^ 23)) fUF)

/-- The exact case of an operand, if it has one: FEXP2 of an integer, FLOG2 of a power of two. -/
def Appr.exactCase (a : Appr) (neg : Bool) (n : Nat) (x : Int) : Option Nat :=
  match a with
  | .exp2 =>
    let v := fxOf neg n x
    if v % fxOne = 0 ∧ -149 ≤ v / fxOne ∧ v / fxOne ≤ 127 then
      some (roundTo .f32 false .rn 0 false 1 1 (v / fxOne)).1
    else none
  | .log2 => if n = 2 ^ Nat.log2 n then some (intToF .f32 .rn 0 ((Nat.log2 n : Int) + x)).1 else none
  | _ => none

/-- An approximate function of an FP32 encoding (R231, Table 12-4). Log entry 10 (DESIGN CHOICE). -/
def Appr.eval (a : Appr) (w : Nat) : Nat × FFlags :=
  let nan := Fmt.nanBits .f32
  match Fmt.read .f32 w with
  | .nan s => (nan, flagIf s fIV)
  | .inf s =>
    (match a with
     | .rsq => if s then (nan, fIV) else (0, 0)
     | .exp2 => if s then (0, 0) else (Fmt.infBits .f32, 0)
     | .log2 => if s then (nan, fIV) else (Fmt.infBits .f32, 0)
     | .sin | .cos => (nan, fIV))
  | .fin s n x =>
    if n = 0 then
      (match a with
       | .rsq => (Fmt.pack .f32 s (Fmt.infBits .f32), fDZ)
       | .exp2 => (0x3F800000, 0)
       | .log2 => (Fmt.pack .f32 true (Fmt.infBits .f32), fDZ)
       | .sin => (Fmt.pack .f32 s 0, 0)
       | .cos => (0x3F800000, 0))
    else if s && decide (a = .rsq ∨ a = .log2) then (nan, fIV)
    else
      match a.exactCase s n x with
      | some v => (v, 0)
      | none =>
        let v := fxOf s n x
        if a = .exp2 ∧ 128 * (fxOne : Int) ≤ v then (Fmt.infBits .f32, fOF ||| fIX)
        else if a = .exp2 ∧ v < -200 * (fxOne : Int) then
          let r := (Config.approx a.code (BitVec.ofNat 32 w)).toNat
          apprFlags (if r ≤ 2 ∨ r = 0x80000000 ∨ r = 0x80000001 then r else 0)
        else apprFlags (a.value w s n x)

end Sys2Proof.Machine
end

