-- ==== Sys2Proof/Machine/LaneFloat.lean ====
section
/-! DEFINITION. Lane float, packed and narrow-conversion instructions (chapter 12). -/

namespace Sys2Proof.Machine

/-! ## Shapes -/

/-- A flag-raising instruction (R225): `f` gives thread k's result and flags. -/
def State.flane (s : State) (i : Instr) (l : Lane) (wide : Bool) (f : Nat → State → (Nat × FFlags) × State) : Out :=
  s.lane i l wide fun k s => let r := f k s; r.2.withFlags k r.1

/-- A 16-bit format. -/
def Fmt.half (f : Fmt) : Bool := decide (f ≠ .f32)
/-- The bits of a scalar float operand (R223), its sign flipped where `neg`. -/
def Fmt.operand (f : Fmt) (neg : Bool) (w : Nat) : Nat := f.flip neg (if f.half then w % 65536 else w)

/-- A rounded operation of up to three sources (R227). -/
def State.fop (s : State) (i : Instr) (l : Lane) (f : Fmt) (r : Rnd) (na nb nc : Bool) (g : FV → FV → FV → ExactF) : Out :=
  s.flane i l false fun k s =>
    let d := s.drawFor r k
    let v := fun (neg : Bool) (x : Src) => f.read (f.operand neg (s.src l false x k))
    ((g (v na l.a) (v nb l.b) (v nc l.c)).round f r d.1, d.2)

/-- The two halves of a packed result (R235). -/
def packHalves (lo hi : Nat × FFlags) : Nat × FFlags := (lo.1 + 65536 * hi.1, lo.2 ||| hi.2)

/-- A rounded packed operation (R235): the low half draws first. -/
def State.fop2 (s : State) (i : Instr) (l : Lane) (f : Fmt) (r : Rnd) (na nb nc : Bool) (g : FV → FV → FV → ExactF) : Out :=
  s.flane i l false fun k s =>
    let d := s.drawFor r k
    let e := d.2.drawFor r k
    let v := fun (h : Nat) (neg : Bool) (x : Src) => f.read (f.flip neg (s.src l false x k / 65536 ^ h % 65536))
    let half := fun (h dr : Nat) => (g (v h na l.a) (v h nb l.b) (v h nc l.c)).round f r dr
    (packHalves (half 0 d.1) (half 1 e.1), e.2)

/-- FMIN and FMAX (R228). -/
def State.fminmax (s : State) (i : Instr) (l : Lane) (f : Fmt) (big na nb : Bool) : Out :=
  s.flane i l false fun k s =>
    (fMinMax f big (f.operand na (s.src l false l.a k)) (f.operand nb (s.src l false l.b k)), s)

/-- HMIN2 and HMAX2 (R228, R235). -/
def State.fminmax2 (s : State) (i : Instr) (l : Lane) (f : Fmt) (big na nb : Bool) : Out :=
  s.flane i l false fun k s =>
    let v := fun (h : Nat) (neg : Bool) (x : Src) => f.flip neg (s.src l false x k / 65536 ^ h % 65536)
    let half := fun (h : Nat) => fMinMax f big (v h na l.a) (v h nb l.b)
    (packHalves (half 0) (half 1), s)

/-- An approximate function (R231). -/
def State.fappr (s : State) (i : Instr) (l : Lane) (a : Appr) : Out :=
  s.flane i l false fun k s => (a.eval (s.src l false l.a k), s)

/-! ## Arithmetic (Table 12-2) -/

/-- FADD (R227). -/
def execFadd (l : Lane) (ty : FTy) (r : Rnd) (na nb : Bool) (s : State) : Out :=
  s.fop (.fadd l ty r na nb) l ty.fmt r na nb false fun a b _ => fAdd a b r
/-- FSUB (R227). -/
def execFsub (l : Lane) (ty : FTy) (r : Rnd) (na nb : Bool) (s : State) : Out :=
  s.fop (.fsub l ty r na nb) l ty.fmt r na nb false fun a b _ => fSub a b r
/-- FMUL (R227). -/
def execFmul (l : Lane) (ty : FTy) (r : Rnd) (na nb : Bool) (s : State) : Out :=
  s.fop (.fmul l ty r na nb) l ty.fmt r na nb false fun a b _ => fMul a b
/-- FFMA (R227). -/
def execFfma (l : Lane) (ty : FTy) (r : Rnd) (na nb nc : Bool) (s : State) : Out :=
  s.fop (.ffma l ty r na nb nc) l ty.fmt r na nb nc fun a b c => fMulAdd a b c r
/-- FMIN (R228). -/
def execFmin (l : Lane) (ty : FTy) (na nb : Bool) (s : State) : Out := s.fminmax (.fmin l ty na nb) l ty.fmt false na nb
/-- FMAX (R228). -/
def execFmax (l : Lane) (ty : FTy) (na nb : Bool) (s : State) : Out := s.fminmax (.fmax l ty na nb) l ty.fmt true na nb
/-- FSET (R229). -/
def execFset (l : Lane) (ty : FTy) (c : FCond) (s : State) : Out :=
  s.flane (.fset l ty c) l false fun k s =>
    let f := ty.fmt
    let r := fCompare f c (f.operand false (s.src l false l.a k)) (f.operand false (s.src l false l.b k))
    ((if r.1 then 1 else 0, r.2), s)
/-- FDIV (R227). -/
def execFdiv (l : Lane) (ty : FTy) (r : Rnd) (s : State) : Out :=
  s.fop (.fdiv l ty r) l ty.fmt r false false false fun a b _ => fDiv a b
/-- FSQRT (R227). -/
def execFsqrt (l : Lane) (ty : FTy) (r : Rnd) (s : State) : Out :=
  s.fop (.fsqrt l ty r) l ty.fmt r false false false fun a _ _ => fSqrt a
/-- FRCP (R227). -/
def execFrcp (l : Lane) (ty : FTy) (r : Rnd) (s : State) : Out :=
  s.fop (.frcp l ty r) l ty.fmt r false false false fun a _ _ => fDiv (.fin false 1 0) a
/-- FRSQ (R231). -/
def execFrsq (l : Lane) (s : State) : Out := s.fappr (.frsq l) l .rsq
/-- FEXP2 (R231). -/
def execFexp2 (l : Lane) (s : State) : Out := s.fappr (.fexp2 l) l .exp2
/-- FLOG2 (R231). -/
def execFlog2 (l : Lane) (s : State) : Out := s.fappr (.flog2 l) l .log2
/-- FSIN (R231). -/
def execFsin (l : Lane) (s : State) : Out := s.fappr (.fsin l) l .sin
/-- FCOS (R231). -/
def execFcos (l : Lane) (s : State) : Out := s.fappr (.fcos l) l .cos
/-- FRND (R232). -/
def execFrnd (l : Lane) (ty : FTy) (r : Rnd) (s : State) : Out :=
  s.flane (.frnd l ty r) l false fun k s =>
    let d := s.drawFor r k
    (fRnd ty.fmt r d.1 (ty.fmt.operand false (s.src l false l.a k)), d.2)
/-- FCVTI (R233). -/
def execFcvti (l : Lane) (dt : ITy) (st : FTy) (r : Rnd) (s : State) : Out :=
  s.flane (.fcvti l dt st r) l dt.wide fun k s =>
    let d := s.drawFor r k
    let v := fToInt st.fmt dt r d.1 (st.fmt.operand false (s.src l false l.a k))
    ((dt.bits v.1, v.2), d.2)
/-- ICVTF (R234). -/
def execIcvtf (l : Lane) (dt : FTy) (st : ITy) (r : Rnd) (s : State) : Out :=
  s.flane (.icvtf l dt st r) l false fun k s =>
    let d := s.drawFor r k
    (intToF dt.fmt r d.1 (st.val (s.src l st.wide l.a k)), d.2)
/-- FCLASS (R230): no flag. -/
def execFclass (l : Lane) (ty : FTy) (s : State) : Out :=
  s.lane (.fclass l ty) l false fun k s =>
    let c := fClass ty.fmt (ty.fmt.operand false (s.src l false l.a k))
    match l.d with
    | .p _ => .val (if (s.reg32 l.imm l.b k).getLsbD c then 1 else 0) s
    | _ => .val (1#64 <<< c) s
/-- FSCALE (R227). -/
def execFscale (l : Lane) (ty : FTy) (r : Rnd) (s : State) : Out :=
  s.flane (.fscale l ty r) l false fun k s =>
    let d := s.drawFor r k
    let f := ty.fmt
    ((fScale (f.read (f.operand false (s.src l false l.a k))) (s.reg32 l.imm l.b k).toInt).round f r d.1, d.2)
/-- FDOT2 (R227): the sum is rounded to FP32. -/
def execFdot2 (l : Lane) (ty : HTy) (r : Rnd) (s : State) : Out :=
  s.flane (.fdot2 l ty r) l false fun k s =>
    let d := s.drawFor r k
    let v := fun (h : Nat) (x : Src) => ty.fmt.read (s.src l false x k / 65536 ^ h % 65536)
    let c := Fmt.read .f32 (s.src l false l.c k)
    ((fDot2 (v 0 l.a) (v 0 l.b) (v 1 l.a) (v 1 l.b) c r).round .f32 r d.1, d.2)

/-! ## Packed half precision (R235) -/

/-- HADD2. -/
def execHadd2 (l : Lane) (ty : HTy) (r : Rnd) (na nb : Bool) (s : State) : Out :=
  s.fop2 (.hadd2 l ty r na nb) l ty.fmt r na nb false fun a b _ => fAdd a b r
/-- HMUL2. -/
def execHmul2 (l : Lane) (ty : HTy) (r : Rnd) (na nb : Bool) (s : State) : Out :=
  s.fop2 (.hmul2 l ty r na nb) l ty.fmt r na nb false fun a b _ => fMul a b
/-- HFMA2. -/
def execHfma2 (l : Lane) (ty : HTy) (r : Rnd) (na nb nc : Bool) (s : State) : Out :=
  s.fop2 (.hfma2 l ty r na nb nc) l ty.fmt r na nb nc fun a b c => fMulAdd a b c r
/-- HMIN2. -/
def execHmin2 (l : Lane) (ty : HTy) (na nb : Bool) (s : State) : Out := s.fminmax2 (.hmin2 l ty na nb) l ty.fmt false na nb
/-- HMAX2. -/
def execHmax2 (l : Lane) (ty : HTy) (na nb : Bool) (s : State) : Out := s.fminmax2 (.hmax2 l ty na nb) l ty.fmt true na nb

/-! ## Packing and narrow conversion (R236 to R242) -/

/-- Gather n fields of width w from positions `step * i + off` of a number to positions `w * i`. -/
def packFields (v step off w : Nat) : Nat → Nat
  | 0 => 0
  | n + 1 => packFields v step off w n + v / 2 ^ (step * n + off) % 2 ^ w * 2 ^ (w * n)

/-- The byte-expanded FP6 elements of a nibble word and a 2-bit halfword (R237). -/
def expand6 (a b : Nat) : Nat → Nat
  | 0 => 0
  | n + 1 => expand6 a b n + (a / 2 ^ (4 * n) % 16 + b / 2 ^ (2 * n) % 4 * 16) * 2 ^ (8 * n)

/-- FPACK (R236, R237). -/
def execFpack (l : Lane) (f : PackForm) (s : State) : Out :=
  match f with
  | .half ty r => s.flane (.fpack l f) l false fun k s =>
      let d := s.drawFor r k
      let e := d.2.drawFor r k
      (packHalves (fConvert .f32 ty.fmt r d.1 false (s.src l false l.a k))
        (fConvert .f32 ty.fmt r e.1 false (s.src l false l.b k)), e.2)
  | .nib => s.lane (.fpack l f) l false fun k s => .val (BitVec.ofNat 64 (packFields (s.src l true l.a k) 8 0 4 8)) s
  | .twoLo => s.lane (.fpack l f) l false fun k s =>
      .val (BitVec.ofNat 64 (s.src l false l.c k / 65536 * 65536 + packFields (s.src l true l.a k) 8 4 2 8)) s
  | .twoHi => s.lane (.fpack l f) l false fun k s =>
      .val (BitVec.ofNat 64 (s.src l false l.c k % 65536 + 65536 * packFields (s.src l true l.a k) 8 4 2 8)) s

/-- FUNPK (R236, R237). -/
def execFunpk (l : Lane) (f : UnpackForm) (s : State) : Out :=
  match f with
  | .half ty hi => s.flane (.funpk l f) l false fun k s =>
      (fConvert ty.fmt .f32 .rn 0 false (s.src l false l.a k / (if hi then 65536 else 1) % 65536), s)
  | .lo => s.lane (.funpk l f) l true fun k s =>
      .val (BitVec.ofNat 64 (expand6 (s.src l false l.a k) (s.src l false l.b k % 65536) 8)) s
  | .hi => s.lane (.funpk l f) l true fun k s =>
      .val (BitVec.ofNat 64 (expand6 (s.src l false l.a k) (s.src l false l.b k / 65536) 8)) s

/-- Slot width of a narrow format (R238). -/
def slotBits (f : NFmt) : Nat := if f = .e2m1 then 4 else 8
/-- The bits an element has in its slot. -/
def elemBits : NFmt → Nat
  | .e2m1 => 4 | .e3m2 | .e2m3 => 6 | .e4m3 | .e5m2 | .i4x | .i8 => 8

/-- FP32 to a narrow element (R238). -/
def narrow (f : NFmt) (r : Rnd) (inf : Bool) (draw w : Nat) : Nat × FFlags :=
  match NFmt.fmt? f with
  | some t => fConvert .f32 t r draw inf w
  | none => let v := fToInt .f32 .i8 r draw w; ((v.1 % 256).toNat, v.2)

/-- A narrow element as an FP32 encoding (R238); a NaN sets no flag. -/
def widenElem (f : NFmt) (w : Nat) : Nat :=
  match NFmt.fmt? f with
  | some t => (fConvert t .f32 .rn 0 false w).1
  | none => (intToF .f32 .rn 0 (ITy.val .i8 w)).1

/-- NCVT to narrow (R238): A converts first. -/
def execNcvt (l : Lane) (fmt : NFmt) (r : Rnd) (inf : Bool) (s : State) : Out :=
  s.flane (.ncvt l fmt r inf) l false fun k s =>
    let d := s.drawFor r k
    let e := d.2.drawFor r k
    let x := narrow fmt r inf d.1 (s.src l false l.a k)
    let y := narrow fmt r inf e.1 (s.src l false l.b k)
    let w := slotBits fmt
    let p := 2 * w * (l.imm.toNat % (if fmt = .e2m1 then 4 else 2))
    let c := s.src l false l.c k
    ((c - c / 2 ^ p % 2 ^ (2 * w) * 2 ^ p + (x.1 + y.1 * 2 ^ w) * 2 ^ p, x.2 ||| y.2), e.2)

/-- NCVT from narrow (R238). -/
def execNcvtFrom (l : Lane) (fmt : NFmt) (s : State) : Out :=
  s.lane (.ncvtFrom l fmt) l false fun k s =>
    let w := slotBits fmt
    let i := l.imm.toNat % (if fmt = .e2m1 then 8 else 4)
    .val (BitVec.ofNat 64 (widenElem fmt (s.src l false l.a k / 2 ^ (w * i) % 2 ^ elemBits fmt))) s

/-- NEXP (R239). Log entry 44 (DEDUCED). -/
def execNexp (l : Lane) (ty : FTy) (s : State) : Out :=
  s.lane (.nexp l ty) l false fun k s =>
    .val (BitVec.ofNat 64 (nexp ty.fmt (ty.fmt.operand false (s.src l false l.a k)))) s

/-- I4XPK (R241). -/
def execI4xpk (l : Lane) (r : Rnd) (half : Bool) (s : State) : Out :=
  s.flane (.i4xpk l r half) l false fun k s =>
    let d := s.drawFor r k
    let q := i4xPack r d.1 (s.src l false l.a k)
    let c := s.src l false l.c k
    ((if half then c % 65536 + 65536 * q.1 else c / 65536 * 65536 + q.1, q.2), d.2)

/-- I4XUNP (R242). Log entry 74 (DEDUCED). -/
def execI4xunp (l : Lane) (s : State) : Out :=
  s.flane (.i4xunp l) l false fun k s =>
    let i := l.imm.toNat % 8
    let q := i4xQuad (s.src l false l.a k / 65536 ^ (i / 4) % 65536)
    ((q.1.getD (i % 4) 0, flagIf q.2 fFE), s)

/-- MXSCL (R240). -/
def execMxscl (l : Lane) (fmt : NFmt) (s : State) : Out :=
  s.lane (.mxscl l fmt) l false fun k s => .val (BitVec.ofNat 64 (mxscl fmt (s.src l false l.a k))) s

/-- RNG (R243). -/
def execRng (l : Lane) (ty : BTy) (s : State) : Out :=
  s.lane (.rng l ty) l ty.wide fun k s =>
    let r := s.drawOf k
    let g := (r.2.cur.thread k).gen
    .val (if ty.wide then g else g >>> 32) r.2

end Sys2Proof.Machine
end

