-- ==== Sys2Proof/Machine/LaneInt.lean ====
section
/-! DEFINITION. Lane integer, predicate and select instructions (chapter 11), NOP. -/

namespace Sys2Proof.Machine

/-! ## Shapes of the integer instructions -/

/-- One source at a type's width. -/
def State.lane1 (s : State) (i : Instr) (l : Lane) (dw aw : Bool) (f : Nat → Nat) : Out :=
  s.lane i l dw fun k s => .val (BitVec.ofNat 64 (f (s.src l aw l.a k))) s
/-- Two sources. -/
def State.lane2 (s : State) (i : Instr) (l : Lane) (dw aw bw : Bool) (f : Nat → Nat → Nat) : Out :=
  s.lane i l dw fun k s => .val (BitVec.ofNat 64 (f (s.src l aw l.a k) (s.src l bw l.b k))) s
/-- Three sources. -/
def State.lane3 (s : State) (i : Instr) (l : Lane) (dw aw bw cw : Bool) (f : Nat → Nat → Nat → Nat) : Out :=
  s.lane i l dw fun k s => .val (BitVec.ofNat 64 (f (s.src l aw l.a k) (s.src l bw l.b k) (s.src l cw l.c k))) s

/-- An ARITH operation of two operands on exact integers, wrapped to the type (R205, R208). -/
def State.arith (s : State) (i : Instr) (l : Lane) (ty : ITy) (f : Int → Int → Int) : Out :=
  s.lane2 i l ty.wide ty.wide ty.wide fun a b => ty.bits (f (ty.val a) (ty.val b))

/-- Width of a BITS type. -/
def bwidth (ty : BTy) : Nat := if ty.wide then 64 else 32
/-- A BITS operation of two operands of the type's width. -/
def State.bits2 (s : State) (i : Instr) (l : Lane) (ty : BTy) (f : Nat → Nat → Nat) : Out :=
  s.lane2 i l ty.wide ty.wide ty.wide f
/-- A shift: the amount is b[4:0] or b[5:0] (R210). -/
def State.shift (s : State) (i : Instr) (l : Lane) (wide : Bool) (f : Nat → Nat → Nat) : Out :=
  s.lane2 i l wide wide false fun a b => f a (b % (if wide then 64 else 32))

/-! ## The instructions of Table 11-2 -/

/-- NOP (R44). -/
def execNop (l : Lane) (s : State) : Out := s.lane (.nop l) l false fun _ s => .done s
/-- IADD (R207, R208). -/
def execIadd (l : Lane) (ty : ITy) (sat : Bool) (s : State) : Out :=
  s.arith (.iadd l ty sat) l ty fun a b => if sat then ty.clamp (a + b) else a + b
/-- ISUB (R207, R208). -/
def execIsub (l : Lane) (ty : ITy) (sat : Bool) (s : State) : Out :=
  s.arith (.isub l ty sat) l ty fun a b => if sat then ty.clamp (a - b) else a - b
/-- IMUL (R207). -/
def execImul (l : Lane) (ty : ITy) (s : State) : Out := s.arith (.imul l ty) l ty fun a b => a * b
/-- IMULH (R207): bits [2w−1:w] of the exact product. -/
def execImulh (l : Lane) (ty : ITy) (s : State) : Out := s.arith (.imulh l ty) l ty fun a b => (a * b) / 2 ^ ty.width
/-- IMAD (R207). -/
def execImad (l : Lane) (ty : ITy) (s : State) : Out :=
  s.lane3 (.imad l ty) l ty.wide ty.wide ty.wide ty.wide fun a b c => ty.bits (ty.val a * ty.val b + ty.val c)
/-- IMADW (R207). -/
def execImadw (l : Lane) (ty : ITy) (s : State) : Out :=
  s.lane3 (.imadw l ty) l true false false true fun a b c => ((ty.val a * ty.val b + (c : Int)) % 2 ^ 64).toNat

/-- IDIV and IREM (R209): a zero divisor traps, and gives a helper the values of R209. -/
def State.idivide (s : State) (i : Instr) (l : Lane) (ty : ITy) (f : Int → Int → Int) (zero : Int → Int) : Out :=
  s.lane i l ty.wide fun k s =>
    let a := ty.val (s.src l ty.wide l.a k)
    let b := ty.val (s.src l ty.wide l.b k)
    if b = 0 then
      if s.cur.isHelper k then .val (BitVec.ofNat 64 (ty.bits (zero a))) s else .trap 0x03 0 s
    else .val (BitVec.ofNat 64 (ty.bits (f a b))) s

/-- IDIV (R207 to R209). -/
def execIdiv (l : Lane) (ty : ITy) (s : State) : Out :=
  s.idivide (.idiv l ty) l ty Int.tdiv fun _ => 2 ^ ty.width - 1
/-- IREM (R207 to R209). -/
def execIrem (l : Lane) (ty : ITy) (s : State) : Out := s.idivide (.irem l ty) l ty Int.tmod fun a => a
/-- IABS (R207). -/
def execIabs (l : Lane) (ty : ITy) (s : State) : Out :=
  s.lane1 (.iabs l ty) l ty.wide ty.wide fun a => ty.bits (ty.val a).natAbs
/-- IMIN (R207). -/
def execImin (l : Lane) (ty : ITy) (s : State) : Out := s.arith (.imin l ty) l ty fun a b => if b < a then b else a
/-- IMAX (R207). -/
def execImax (l : Lane) (ty : ITy) (s : State) : Out := s.arith (.imax l ty) l ty fun a b => if a < b then b else a
/-- AND (R207). -/
def execAnd (l : Lane) (ty : BTy) (s : State) : Out := s.bits2 (.and l ty) l ty fun a b => a &&& b
/-- OR (R207). -/
def execOr (l : Lane) (ty : BTy) (s : State) : Out := s.bits2 (.or l ty) l ty fun a b => a ||| b
/-- XOR (R207). -/
def execXor (l : Lane) (ty : BTy) (s : State) : Out := s.bits2 (.xor l ty) l ty fun a b => a ^^^ b
/-- ANDN (R207). -/
def execAndn (l : Lane) (ty : BTy) (s : State) : Out :=
  s.bits2 (.andn l ty) l ty fun a b => a &&& (2 ^ bwidth ty - 1 - b)
/-- SHL (R210). -/
def execShl (l : Lane) (ty : BTy) (s : State) : Out :=
  s.shift (.shl l ty) l ty.wide fun a n => a * 2 ^ n % 2 ^ bwidth ty
/-- SHR (R210). -/
def execShr (l : Lane) (ty : BTy) (s : State) : Out := s.shift (.shr l ty) l ty.wide fun a n => a / 2 ^ n
/-- SAR (R210). -/
def execSar (l : Lane) (ty : ITy) (s : State) : Out := s.shift (.sar l ty) l ty.wide fun a n => ty.bits (ty.val a / 2 ^ n)
/-- ROTL (R210). -/
def execRotl (l : Lane) (ty : BTy) (s : State) : Out :=
  s.shift (.rotl l ty) l ty.wide fun a n => (a * 2 ^ n ||| a / 2 ^ (bwidth ty - n)) % 2 ^ bwidth ty
/-- CLZ (R207). -/
def execClz (l : Lane) (ty : BTy) (s : State) : Out := s.lane1 (.clz l ty) l false ty.wide fun a => clzBits (bwidth ty) a
/-- POPC (R207). -/
def execPopc (l : Lane) (ty : BTy) (s : State) : Out :=
  s.lane1 (.popc l ty) l false ty.wide fun a => popBits a (bwidth ty)
/-- A number's lowest n bits in reverse order. -/
def revBits (v : Nat) : Nat → Nat
  | 0 => 0
  | n + 1 => 2 * revBits v n + (if v.testBit n then 1 else 0)
/-- BREV (R207). -/
def execBrev (l : Lane) (ty : BTy) (s : State) : Out :=
  s.lane1 (.brev l ty) l ty.wide ty.wide fun a => revBits a (bwidth ty)

/-- The effective field length of BFE and BFI (R211). -/
def fieldLen (w b : Nat) : Nat := min (b / 256 % 256) (w - b % 256)
/-- BFE (R211). -/
def execBfe (l : Lane) (ty : ITy) (s : State) : Out :=
  s.lane2 (.bfe l ty) l ty.wide ty.wide false fun a b =>
    let n := fieldLen ty.width b
    let f := a / 2 ^ (b % 256) % 2 ^ n
    if n = 0 then 0 else ty.bits (if ty.signed ∧ 2 ^ (n - 1) ≤ f then (f : Int) - 2 ^ n else f)
/-- BFI (R211). -/
def execBfi (l : Lane) (ty : BTy) (s : State) : Out :=
  s.lane3 (.bfi l ty) l ty.wide ty.wide false ty.wide fun a b c =>
    let n := fieldLen (bwidth ty) b
    let p := b % 256
    c - c / 2 ^ p % 2 ^ n * 2 ^ p + a % 2 ^ n * 2 ^ p

/-- The conditions of ISET (R212). -/
def icond (c : ICond) (a b : Int) : Bool :=
  match c with
  | .eq => decide (a = b) | .ne => decide (a ≠ b) | .lt => decide (a < b) | .le => decide (a ≤ b)
  | .gt => decide (b < a) | .ge => decide (b ≤ a)
/-- ISET (R212). -/
def execIset (l : Lane) (ty : ITy) (c : ICond) (s : State) : Out :=
  s.lane2 (.iset l ty c) l false ty.wide ty.wide fun a b => if icond c (ty.val a) (ty.val b) then 1 else 0
/-- SEL (R213). -/
def execSel (l : Lane) (ty : BTy) (p : Fin 8) (neg : Bool) (s : State) : Out :=
  s.lane (.sel l ty p neg) l ty.wide fun k s =>
    .val (BitVec.ofNat 64 (s.src l ty.wide (if s.pred k p.val != neg then l.a else l.b) k)) s
/-- MOV (R207). -/
def execMov (l : Lane) (ty : BTy) (s : State) : Out := s.lane1 (.mov l ty) l ty.wide ty.wide fun a => a

/-! ## Special registers (R214, R215) -/

/-- The value of a special register in thread k (Table 11-3). -/
def State.special (s : State) (x : Spr) (k : Nat) : W64 :=
  let g := s.cur
  let t := s.curTeam
  let th := g.thread k
  match x with
  | .tid => BitVec.ofNat 64 k
  | .qid => BitVec.ofNat 64 (k / 4)
  | .gidx => BitVec.ofNat 64 g.idx
  | .team => BitVec.ofNat 64 t.lin
  | .gang => BitVec.ofNat 64 t.gang
  | .devid => BitVec.ofNat 64 s.fabric.devid
  | .timeNs => s.timeNs
  | .rngseed => t.seed
  | .fpstat => th.fpstat.setWidth 64 &&& 0x3F
  | .xexited => if th.xexited then 1 else 0
  | .helper => if th.life = .helper then 1 else 0
  | .split => BitVec.ofNat 64 s.curSlot
  | .ctxid => BitVec.ofNat 64 t.ctx

/-- Device time goes on while a thread streams (R12, R215): two cycles are less than a nanosecond, so by none or by one.
Log entry 5 (DESIGN CHOICE). -/
def State.streamTime (s : State) : State :=
  { s.draw.2 with timeNs := s.timeNs + (s.draw.1.setWidth 1).setWidth 64 }

/-- MOVSP, reading (R214, R215): each thread reads TIME_NS as it streams. -/
def execMovsp (l : Lane) (x : Spr) (s : State) : Out :=
  s.lane (.movsp l x) l x.wide fun k s => .val (s.special x k) (if x = .timeNs then s.streamTime else s)

/-- Write a writable special register of thread k (R215). -/
def Thr.setSpecial (t : Thr) (x : Spr) (v : W32) : Thr :=
  match x with
  | .fpstat => { t with fpstat := v &&& 0x3F }
  | .xexited => { t with xexited := v.getLsbD 0 }
  | _ => t

/-- MOVSP, writing (R214, R215): under U Lowest()'s value is written into every active thread. -/
def execMovspW (l : Lane) (x : Spr) (s : State) : Out :=
  s.lane (.movspW l x) l false fun k s =>
    let v := s.reg32 l.imm l.a k
    .done (s.modCur fun g => (if l.u then s.active else [k]).foldl (fun g j => g.modThr j fun t => t.setSpecial x v) g)

/-! ## Conversions, addresses and dot products -/

/-- CVTI (R216). -/
def execCvti (l : Lane) (dt st : ITy) (sat : Bool) (s : State) : Out :=
  s.lane1 (.cvti l dt st sat) l dt.wide st.wide fun a => dt.bits (if sat then dt.clamp (st.val a) else st.val a)
/-- LEA (R217). -/
def execLea (l : Lane) (ty : ITy) (n : Fin 8) (s : State) : Out :=
  s.lane2 (.lea l ty n) l true true false fun a b => (((a : Int) + ty.val b * 2 ^ n.val) % 2 ^ 64).toNat
/-- IDOT4 (R218). -/
def execIdot4 (l : Lane) (as bs : Bool) (s : State) : Out :=
  s.lane3 (.idot4 l as bs) l false false false false fun a b c =>
    let e := fun (sg : Bool) (v i : Nat) => (if sg then ITy.i8 else ITy.n8).val (v / 2 ^ (8 * i))
    let p := fun (i : Nat) => e as a i * e bs b i
    (((c : Int) + p 0 + p 1 + p 2 + p 3) % 2 ^ 32).toNat

/-! ## Predicates (R219, R220) -/

/-- PLOP3 (R219). -/
def execPlop3 (l : Lane) (pa pb pc : Fin 8) (s : State) : Out :=
  s.lane (.plop3 l pa pb pc) l false fun k s =>
    let b := fun (p : Fin 8) => if s.pred k p.val then 1 else 0
    let i := 4 * b pa + 2 * b pb + b pc
    .val (if l.imm.getLsbD i then 1 else 0) s
/-- PMOV d, preds (R220). -/
def execPmov (l : Lane) (s : State) : Out :=
  s.lane (.pmov l) l false fun k s => .val (((s.cur.thread k).preds ||| 1).setWidth 64) s
/-- PMOV preds, a, mask (R220): under U Lowest()'s source goes to every active thread. -/
def execPmovToPreds (l : Lane) (s : State) : Out :=
  s.lane (.pmovToPreds l) l false fun k s =>
    let a := s.reg32 l.imm l.a k
    let m : BitVec 8 := l.imm.setWidth 8 &&& 0xFE
    .done (s.modCur fun g => (if l.u then s.active else [k]).foldl
      (fun g j => g.modThr j fun t => { t with preds := (t.preds &&& ~~~m) ||| (a.setWidth 8 &&& m) }) g)

end Sys2Proof.Machine
end

