-- ==== Sys2Proof/Machine/Preempt.lean ====
section
/-! DEFINITION. Pre-emption (R414, R415), CTXSV and CTXRS (R413) and the images they write and read (R416, R417). -/

namespace Sys2Proof.Machine

/-! ## PREEMPT (R151, R282, R310, R327, R414) -/

/-- Scalar instructions that complete before their stream stops: PERSIST, scalar global accesses, DLAUNCH, and privileged ones
that read or write memory; every other wait is abandoned. -/
def SWait.finishes (w : SWait) : Bool :=
  match w.instr with
  | .persist .. | .persistAll .. | .sld .. | .sldx .. | .sst .. | .satom .. | .dlaunch .. => true
  | .reshard .. => !w.arrived || decide (w.seen = 1)
  | .leaseopRead .. | .leaseopGrant .. | .keyopLoad .. => true
  | _ => false

/-- A packet is on its way, or what it brought is. -/
def PktState.flying : PktState → Bool
  | .sent _ | .again _ _ _ | .got => true
  | _ => false

/-- A copy has drained as far as it can (R151): it is not complete in its slices, or each of them has ended or is parked. -/
def State.copyRests (s : State) (tid : Nat) (c : Copy) : Bool :=
  !c.opened || !s.counted tid c.num c
    || ((c.slices.any fun x => decide (x.parked ≠ none)) && c.slices.all fun x => x.ended || decide (x.parked ≠ none))

/-- A team's runs have finished, its scalar streams have stopped, and its engines have drained. -/
def State.quiescent (s : State) (tid : Nat) : Bool :=
  let t := s.team tid
  let inLane := fun (r : Option (Nat × Nat)) => (r.map fun x => decide ((s.group x.1).team = tid)).getD false
  (s.lanePairs.all fun p => !inLane p.2.lane0 && !inLane p.2.lane1)
    && (s.groups.all fun p => decide (p.2.team ≠ tid) || !((p.2.swait.map SWait.finishes).getD false))
    && t.copies.all (s.copyRests tid)
    && !((s.core t.core).mxq.any fun q => decide (q.team = tid))
    && (s.fabric.xfers.all fun p => decide (p.2.team ≠ tid) || ((p.2.pkts.all fun k => !k.st.flying) && !s.sideOut (.xfer p.1)))
    && (s.jobs.all fun p => decide (p.2.team ≠ tid)
      || ((p.2.chunks.all fun c => c.pkts.all fun k => !k.st.flying) && decide (p.2.pend = []) && !s.sideOut (.eland p.1)))

/-- A scalar stream that waits is taken back to its instruction; a BAR that has arrived keeps its token (R343, R414). -/
def Group.abandon (g : Group) : Group :=
  match g.swait with
  | some w => (match w.instr with
    | .bar _ _ => if w.arrived then g else { g with swait := none }
    | _ => { g with swait := none })
  | none => g

/-- The latched rows of a team's group leave the A-latch with the team (R282). -/
def State.takeLatch (s : State) (tid : Nat) : State :=
  let c := (s.team tid).core
  match (s.core c).alatch with
  | some a =>
    if (s.group a.gid).team = tid then
      (s.modTeam tid fun t => { t with rows := some (a.gid, a.rows) }).modCore c fun x => { x with alatch := none }
    else s
  | none => s

/-- PREEMPT (R414): the team of a handle has stopped; SHALT sees it. -/
def execPreempt (h : W64) (s : State) : Out :=
  match s.teamOf h with
  | none => .next s
  | some t =>
    if !(s.team t).stopping || (s.team t).stopped || !s.quiescent t then .next s
    else
      let s : State := { s with groups := s.groups.map fun p => if p.2.team = t then (p.1, p.2.abandon) else p }
      .next ((((s.takeLatch t).mapPkts t (PktState.hold s.timeNs)).modTeam t fun x => { x with stopped := true }).shaltEvent 4)

/-! ## Images (R416, R417) -/

/-- Bytes of an image whose place the manual leaves open: free values. -/
def State.openBytes (s : State) (n : Nat) : List Byte × State :=
  ((List.range n).map fun i => (Config.freeValue (s.free + i)).setWidth 8, { s with free := s.free + n })

/-- Words of a list, padded with zeros. -/
def padWords (n : Nat) (ws : List W64) : List W64 := (ws ++ List.replicate n 0).take n

/-- The dirty positions of a group, ascending. -/
def Group.dirtyList (g : Group) : List Nat := (List.range 256).filter fun e => g.dirty.getLsbD e

/-- The header of a group image (Table 20-7). -/
def State.groupHeader (s : State) (gid : Nat) : List W64 :=
  let g := s.group gid
  let t := s.team g.team
  let live := ((List.range 4).filter fun n => (g.splits.find n).isSome).foldl (fun m n => m + 2 ^ n) (if g.tslot = none then 0 else 16)
  padWords 8 [BitVec.ofNat 64 (1 + t.kernel.regs16 * 2 ^ 16 + live * 2 ^ 24 + t.ctx % 2 ^ 32 * 2 ^ 32),
    BitVec.ofNat 64 (t.core * 65536 + t.tslot), BitVec.ofNat 64 g.idx, 0x18]

/-- The scalar trap state of a group, as its image holds it. Log entry 31 (DESIGN CHOICE). -/
def Group.trapWords (g : Group) : List W64 :=
  let bank := fun (b : SBank) => padWords 4 b.saved
  padWords 16 ([BitVec.ofNat 64 g.stlevel, g.st1.cause, g.st1.pc, g.st1.val, g.st2.cause, g.st2.pc, g.st2.val] ++ bank g.st1 ++ bank g.st2)

/-- The decision queue and the current run arguments, as the image holds them. Log entry 31 (DESIGN CHOICE). -/
def Group.queueWords (g : Group) : List W64 :=
  let entry := fun (i : Nat) => match g.queue[i]? with
    | some r => r.start.setWidth 64 :: padWords 4 r.args
    | none => padWords 5 []
  ((List.range 8).flatMap entry) ++ padWords 5 g.args

/-- Mailboxes, mode, DIVID and the token of a BAR that has arrived. Log entry 31 (DESIGN CHOICE). -/
def Group.boxWords (g : Group) : List W64 :=
  let bar := match g.swait with
    | some w => if w.arrived then BitVec.ofNat 64 (w.tok + 2 ^ 32) else 0
    | none => 0
  ((List.range 4).map fun i => (g.mbox.get {} i).cur) ++ [if g.mode = .priv then 1 else 0, g.divid.setWidth 64, bar]

/-- The code of MODE (Table 19-1); 7: at a trap. Log entry 31 (DESIGN CHOICE). -/
def SMode.code : SMode → Nat
  | .running => 0 | .ready => 1 | .waitJoin => 2 | .waitNext => 3 | .sleeping => 4 | .suspended _ => 5 | .parked _ => 6
  | .trapped | .held _ _ => 7

/-- The mode a code stands for; what it waits for is as the group's own record has it. Log entry 31 (DESIGN CHOICE). -/
def SMode.ofCode (old : SMode) (c : Nat) : SMode :=
  if old.code = c then old
  else match c with
    | 2 => .waitJoin | 3 => .waitNext | 4 => .sleeping | 6 => .parked 0 | _ => .ready

/-- The state of a split (Table 19-1) with WSP, RIX, run position and CSTORE count, in 64 bytes. Log entry 31 (DESIGN CHOICE). -/
def Split.words (x : Split) : List W64 :=
  let flag := fun (b : Bool) (i : Nat) => if b then 2 ^ i else 0
  let flags := flag x.resuming 48 + flag x.skipping 49 + flag x.whole 50 + flag x.sleeping 51 + flag x.ev 52 + flag x.evSeen 53 + flag x.inRom 54
  let life := fun (i : Nat) => ((x.lat.find i).map (·.life)).getD 0 % 256 * 256 ^ i
  [x.pc ++ x.mask, BitVec.ofNat 64 (x.wb.toNat + x.rd % 2 ^ 9 * 256 + x.spill % 2 ^ 16 * 2 ^ 32 + x.wsp % 2 ^ 16 * 2 ^ 48),
   BitVec.ofNat 64 (x.rix % 32 + x.pos % 256 * 2 ^ 8 + x.count % 2 ^ 16 * 2 ^ 16 + x.mode.code * 2 ^ 32 + x.stack.length % 16 * 2 ^ 40 + flags),
   BitVec.ofNat 64 (life 0 + life 1 + life 2), BitVec.ofNat 64 (x.wake.getD 0), x.gmask.setWidth 64, 0, 0]

/-- A split's 640 bytes of Table 20-7. Log entry 31 (DESIGN CHOICE). -/
def Split.image (x : Split) : List Byte :=
  let vals := fun (i : Nat) => ((x.lat.find i).map (·.vals)).getD []
  wordBytes (x.words ++ padWords 24 (x.stack.flatMap REntry.image))
    ++ ([0, 1, 2] : List Nat).flatMap fun i => (List.range 32).flatMap fun k => leBytes 4 (SMap.get (0 : W32) (vals i) k).toNat

/-- A split as an image gives it. Log entry 31 (DESIGN CHOICE). -/
def Split.ofImage (gid n : Nat) (x : Split) (b : List Byte) : Split :=
  let w := wordAt b
  let f := fun (i lo n : Nat) => wbits (w i) lo n
  let bit := fun (i : Nat) => (w 2).getLsbD i
  let vals := fun (i : Nat) => (List.range 32).foldl (fun (m : SMap W32) k =>
    m.put 0 k (BitVec.ofNat 32 (ofLeBytes ((b.drop (256 + 128 * i + 4 * k)).take 4)))) []
  let lat := ([0, 1, 2] : List Nat).filterMap fun i => if f 3 (8 * i) 8 = 0 then none
    else some (i, ({ gid := gid, split := n, life := f 3 (8 * i) 8, vals := vals i } : Latch))
  let x := { x with pc := BitVec.ofNat 32 (f 0 32 32), mask := BitVec.ofNat 32 (f 0 0 32), wb := BitVec.ofNat 8 (f 1 0 8), rd := f 1 8 9 }
  let x := { x with spill := f 1 32 16, wsp := f 1 48 16, rix := f 2 0 5, pos := f 2 8 8, count := f 2 16 16, mode := x.mode.ofCode (f 2 32 8) }
  let x := { x with resuming := bit 48, skipping := bit 49, whole := bit 50, sleeping := bit 51, ev := bit 52, evSeen := bit 53, inRom := bit 54 }
  { x with lat := lat, gmask := BitVec.ofNat 32 (f 5 0 32), stack := (List.range (f 2 40 4)).map fun i => REntry.ofImage (b.drop (64 + 24 * i)) }

/-- A thread's 64 bytes of Table 20-7. Log entry 31 (DESIGN CHOICE). -/
def Thr.image (t : Thr) : List Byte :=
  let bank := fun (b : TBank) => [b.pc ++ b.cause, b.val]
  wordBytes (padWords 8 ([t.fpstat ++ BitVec.ofNat 32 (t.preds.toNat / 2 * 2 + (if t.xexited then 256 else 0) + t.tlevel % 4 * 2 ^ 16), t.gen]
    ++ bank t.t1 ++ bank t.t2))

/-- A thread as an image gives it. Log entry 31 (DESIGN CHOICE). -/
def Thr.ofImage (t : Thr) (b : List Byte) : Thr :=
  let w := wordAt b
  let bank := fun (i : Nat) => ({ cause := (w i).setWidth 32, pc := (w i >>> 32).setWidth 32, val := w (i + 1) } : TBank)
  { t with preds := BitVec.ofNat 8 (wbits (w 0) 0 8), xexited := (w 0).getLsbD 8, tlevel := wbits (w 0) 16 2, fpstat := (w 0 >>> 32).setWidth 32,
           gen := w 1, t1 := bank 2, t2 := bank 4 }

/-- The splits, the trap slot and the threads of a group, as its image holds them. -/
def Group.partsImage (g : Group) : List Byte :=
  let split := fun (n : Nat) => ((g.split? n).map Split.image).getD (List.replicate 640 0)
  ([0, 1, 2, 3, 4] : List Nat).flatMap split ++ (List.range 32).flatMap fun k => (g.thread k).image

/-- The stack spill region of a group (Table 20-7), which stands at its context image address; where nothing of it is in use, free
values. Log entry 31 (DESIGN CHOICE). -/
def State.spillRegion (s : State) (gid : Nat) : ERes × State :=
  let g := s.group gid
  let used := (g.splits.any fun p => decide (p.2.spill ≠ 0)) || ((g.tslot.map fun z => z.levels.any fun x => decide (x.spill ≠ 0)).getD false)
  if used then s.engRead s.privAcc s.slotWaiter (g.ctximg + 6400) 7680
  else let o := s.openBytes 7680; (.ok o.1, o.2)

/-- The registers of a group at its dirty positions, as its image holds them. -/
def Group.regBytes (g : Group) : List Byte := g.dirtyList.flatMap fun e => (List.range 32).flatMap fun k => leBytes 4 (g.rget k e).toNat

/-- The image of a group (R416), with the stack spill region given. Of the splits and threads the manual gives the size and not the
places of the fields. Log entry 31 (DESIGN CHOICE). -/
def State.groupImage (s : State) (gid : Nat) (region : List Byte) : List Byte :=
  let g := s.group gid
  let front := wordBytes (s.groupHeader gid) ++ leBytes 32 g.dirty.toNat
    ++ wordBytes ((List.range 63).map fun i => g.sreg.get 0 (i + 1)) ++ wordBytes [g.cond.setWidth 64 &&& 0xFE]
    ++ wordBytes (g.trapWords ++ g.queueWords ++ g.boxWords)
  front ++ g.partsImage ++ region ++ g.regBytes

/-- A group as an image gives it: a register that a far result has reached since, and that could not be written to the image, keeps that
value (R157). Log entry 31 (DESIGN CHOICE). -/
def Group.ofImage (g : Group) (gid : Nat) (b : List Byte) : Group :=
  let w := fun (off i : Nat) => wordAt (b.drop off) i
  let saved := BitVec.ofNat 256 (ofLeBytes ((b.drop 64).take 32))
  let at_ := (List.range 256).filter fun e => saved.getLsbD e
  let one := fun (m : SMap W32) (p : Nat × Nat) =>
    (List.range 32).foldl (fun m k => m.put 0 (k * 256 + p.1) (BitVec.ofNat 32 (ofLeBytes ((b.drop (14080 + 128 * p.2 + 4 * k)).take 4)))) m
  let regs := at_.zipIdx.foldl one []
  let late := (g.regs ++ g.snap).filter fun p => decide (g.regs.get 0 p.1 ≠ g.snap.get 0 p.1)
  let regs := late.foldl (fun (m : SMap W32) p => m.put 0 p.1 (g.regs.get 0 p.1)) regs
  let args := fun (off : Nat) => (List.range 4).map (w off)
  let queue := g.queue.zipIdx.map fun p => { start := (w (736 + 40 * p.2) 0).setWidth 32, args := args (744 + 40 * p.2) : Run }
  let bank := fun (x : SBank) (i off : Nat) => { x with cause := w (608 + 8 * i) 0, pc := w (608 + 8 * i) 1, val := w (608 + 8 * i) 2, saved := args off }
  let sreg := (List.range 63).foldl (fun (m : SMap W64) i => m.put 0 (i + 1) (w 96 i)) []
  let split := fun (n : Nat) (x : Split) => Split.ofImage gid n x (b.drop (1152 + 640 * n))
  let tslot : Option TSlot := g.tslot.map fun z => { z with levels := match z.levels with
    | x :: r => split 4 x :: r
    | [] => [] }
  let g : Group := { g with splits := g.splits.map (fun p => (p.1, split p.1 p.2)), tslot := tslot,
                             thr := g.thr.map fun p => (p.1, Thr.ofImage p.2 (b.drop (4352 + 64 * p.1))) }
  let swait := g.swait.map fun x => if x.arrived then { x with tok := (w 1144 0).toNat % 2 ^ 32 } else x
  { g with
    swait := swait, dirty := saved ||| g.dirty, regs := regs, sreg := sreg, cond := (w 600 0).setWidth 8,
    stlevel := min 2 (w 608 0).toNat, st1 := bank g.st1 1 664, st2 := bank g.st2 4 696,
    queue := queue, args := if g.args = [] then [] else args 1056,
    mbox := g.mbox.map (fun p => (p.1, { p.2 with cur := w 1096 p.1 })),
    mode := if (w 1128 0).getLsbD 0 then .priv else .user, divid := (w 1136 0).setWidth 8,
    loaded := true, snap := [], img := none }

/-- Words of a watch entry, a matrix tile, a copy, a fabric transfer and a job, as the team image holds them. Log entry 31 (DESIGN CHOICE). -/
def Watch.word (w : Watch) : W64 :=
  let k := match w.kind with
    | .control => 0 | .ring n => 1 + 256 * n | .counter => 2
  BitVec.ofNat 64 (k + w.off % 2 ^ 24 * 2 ^ 16 + w.len % 2 ^ 24 * 2 ^ 40)

/-- A tile's 16,384 bytes of elements and its status word, padded to 8 bytes. -/
def Tile.image (t : Tile) : List Byte := ((List.range 4096).flatMap fun i => leBytes 4 (SMap.get (0 : W32) t.el i).toNat) ++ leBytes 8 t.status.toNat

/-- A tile as an image gives it. -/
def Tile.ofImage (b : List Byte) : Tile :=
  { el := (List.range 4096).foldl (fun (m : SMap W32) i => m.put 0 i (BitVec.ofNat 32 (ofLeBytes ((b.drop (4 * i)).take 4)))) [],
    status := BitVec.ofNat 32 (ofLeBytes ((b.drop 16384).take 4)) }

/-- A slice of a copy: its group, how far it is and how it stands, and its captured block. -/
def Slice.words (x : Slice) : List W64 :=
  let flag := fun (b : Bool) (i : Nat) => if b then 2 ^ i else 0
  BitVec.ofNat 64 (x.grp % 256 + x.code % 256 * 256 + x.parked.getD 0 % 256 * 2 ^ 16 + x.unit % 2 ^ 32 * 2 ^ 32 + flag x.empty 24
    + flag x.rejected 25 + flag x.ended 26 + flag x.dropped 27 + flag x.parked.isSome 28) :: padWords 4 x.blk
/-- A copy: its number, ring and slot, and its slices. -/
def Copy.words (c : Copy) : List W64 :=
  let flag := fun (b : Bool) (i : Nat) => if b then 2 ^ i else 0
  BitVec.ofNat 64 (c.ring % 256 + c.slot % 256 * 256 + c.slices.length % 256 * 2 ^ 16 + c.num % 2 ^ 32 * 2 ^ 32 + flag c.opened 24
    + flag c.stream 25 + flag c.close 26) :: c.slices.flatMap Slice.words

/-- The words of a packet of a transfer or of a chunk: its member, offset, length, and whether it has still to be sent. -/
def Pkt.words (p : Pkt) : List W64 :=
  [BitVec.ofNat 64 (p.member % 2 ^ 16 + p.off % 2 ^ 24 * 2 ^ 16 + p.len % 2 ^ 20 * 2 ^ 40 + (if p.st = .unsent then 2 ^ 60 else 0))]
/-- A fabric tag's transfer: its issuer, its captured operands, its packets. -/
def Xfer.words (x : Xfer) : List W64 := BitVec.ofNat 64 x.gid :: padWords 4 x.ops ++ x.pkts.flatMap Pkt.words
/-- A layout record as Eland has captured it. -/
def Layout.words (l : Layout) : List W64 :=
  let d := fun (x : LDev) => [BitVec.ofNat 64 (x.dev % 2 ^ 32 + x.wtag % 2 ^ 16 * 2 ^ 32 + (if x.cnt then 2 ^ 48 else 0)), x.base]
  BitVec.ofNat 64 l.esize :: (l.dims ++ l.axes ++ l.maps.map fun m => m.getD 255).map (BitVec.ofNat 64) ++ l.devs.flatMap d
/-- A job: its block, its progress and its captured plan. -/
def Job.words (j : Job) : List W64 := j.block :: j.image ++ j.src.words ++ j.dst.words

/-- The A-latch steps a team is saved with (R282): the holder's group index and the number of steps, then their rows. -/
def State.rowsImage (s : State) (t : Team) : List Byte :=
  match t.rows with
  | none => leBytes 8 0
  | some (g, r) => leBytes 8 (2 ^ 32 + (s.group g).idx * 2 ^ 16 + r.steps % 2 ^ 16) ++ rdBytes r.bytes 0 (1152 * r.steps)

/-- The scratchpad's full/empty bits. -/
def Team.fullBytes (t : Team) : List Byte :=
  (List.range (t.kernel.scrb * 512)).map fun i => BitVec.ofNat 8 ((List.range 8).foldl (fun v j => if t.isFull (8 * i + j) then v + 2 ^ j else v) 0)

/-- The parts of a team's image after its header, in the order of R417. Log entry 31 (DESIGN CHOICE). -/
def State.teamParts (s : State) (tid : Nat) : List (List Byte) :=
  let t := s.team tid
  let tiles := ((List.range t.kernel.tiles).flatMap fun i => (t.tiles.get {} i).image) ++ wordBytes [t.mxstall, t.gm] ++ s.rowsImage t
  let tags := (s.fabric.xfers.filter fun p => decide (p.2.team = tid)).flatMap fun p => wordBytes p.2.words
  let jobs := (s.jobs.filter fun p => decide (p.2.team = tid)).flatMap fun p => wordBytes p.2.words
  [rdBytes t.scratch 0 (t.kernel.scrb * 65536) ++ t.fullBytes, wordBytes (t.watch.map Watch.word), tiles, wordBytes (t.copies.flatMap Copy.words), tags, jobs]

/-- The image of a team (R417): a header with the size of each part, then the parts. Log entry 31 (DESIGN CHOICE). -/
def State.teamImage (s : State) (tid : Nat) : List Byte :=
  let ps := s.teamParts tid
  wordBytes (padWords 8 (ps.map fun p => BitVec.ofNat 64 p.length)) ++ ps.flatten

/-- A watch entry as its word gives it. Log entry 31 (DESIGN CHOICE). -/
def Watch.ofWord (w : W64) : Watch :=
  { kind := match wbits w 0 8 with
      | 0 => .control
      | 1 => .ring (wbits w 8 8)
      | _ => .counter,
    off := wbits w 16 24, len := wbits w 40 24 }

/-- The full/empty bits as an image gives them, with those that bytes which have come since have set. Log entry 31 (DESIGN CHOICE). -/
def Team.fullOf (t : Team) (b : List Byte) (late : SMap Byte) : SMap Bool :=
  (List.range (t.kernel.scrb * 4096)).foldl (fun (m : SMap Bool) i =>
    m.put false i ((b.getD (i / 8) 0).getLsbD (i % 8) || (t.isFull i && late.any fun p => decide (p.1 / 16 = i)))) []

/-- The latched rows of a team as an image gives them. Log entry 31 (DESIGN CHOICE). -/
def rowsOf (old : Option (Nat × ARows)) (b : List Byte) : Option (Nat × ARows) :=
  old.map fun r => (r.1, { steps := wbits (wordAt b 0) 0 16, bytes := wrBytes [] 0 ((b.drop 8).take (1152 * wbits (wordAt b 0) 0 16)) })

/-- A team as an image gives it: a scratchpad byte that something has reached since, and that could not be written to the image, keeps
that value. What its copies, tags and jobs have come to since stands in its own record. Log entry 31 (DESIGN CHOICE). -/
def Team.ofImage (t : Team) (b : List Byte) : Team :=
  let n := t.kernel.scrb * 65536
  let img := wrBytes [] 0 ((b.drop 64).take n)
  let late := (t.scratch ++ t.snap).filter fun p => decide (t.scratch.get 0 p.1 ≠ t.snap.get 0 p.1)
  let at_ := 64 + n + t.kernel.scrb * 512 + (wordAt b 1).toNat
  let after := at_ + 16392 * t.kernel.tiles
  { t with
    scratch := late.foldl (fun (m : SMap Byte) p => m.put 0 p.1 (t.scratch.get 0 p.1)) img,
    full := t.fullOf (b.drop (64 + n)) late,
    watch := (List.range ((wordAt b 1).toNat / 8)).map fun i => Watch.ofWord (wordAt (b.drop (64 + n + t.kernel.scrb * 512)) i),
    tiles := (List.range t.kernel.tiles).map (fun i => (i, Tile.ofImage (b.drop (at_ + 16392 * i)))),
    mxstall := wordAt (b.drop after) 0, gm := wordAt (b.drop after) 1, rows := rowsOf t.rows (b.drop (after + 16)),
    loaded := true, snap := [], img := none }

/-! ### What reaches a saved group or team (R157, R414) -/

/-- The accessor of a saved image. -/
def ImageAt.acc (a : ImageAt) : Acc := { core := a.core, ctx := a.ctx, mode := .priv, gid := 2 ^ 40 }

/-- Far results that have arrived for a saved group are written to its image, with their dirty bits (R157). -/
def State.pumpGroupImage (s : State) (gid : Nat) : State :=
  let g := s.group gid
  match g.img with
  | none => s
  | some a =>
    if g.regs = g.snap then s
    else
      match s.writeAllAs a.acc .engine [(a.va + 64, leBytes 32 g.dirty.toNat), (a.va + 14080, g.regBytes)] with
      | (.ok _, s) => s.modGroup gid fun x => { x with snap := x.regs }
      | (.fault _, s) => s.modGroup gid fun x => { x with img := none }
      | (.wait, s) => s

/-- What has reached the scratchpad of a saved team is written to its image (R414). -/
def State.pumpTeamImage (s : State) (tid : Nat) : State :=
  let t := s.team tid
  match t.img with
  | none => s
  | some a =>
    if t.scratch = t.snap then s
    else
      let late := (t.scratch ++ t.snap).filter fun p => decide (t.scratch.get 0 p.1 ≠ t.snap.get 0 p.1)
      let puts := late.map fun p => (a.va + BitVec.ofNat 64 (64 + p.1), [t.scratch.get 0 p.1])
      match s.writeAllAs a.acc .engine (puts ++ [(a.va + BitVec.ofNat 64 (64 + t.kernel.scrb * 65536), t.fullBytes)]) with
      | (.ok _, s) => s.modTeam tid fun x => { x with snap := x.scratch }
      | (.fault _, s) => s.modTeam tid fun x => { x with img := none }
      | (.wait, s) => s

/-- Every saved image is brought up to date. -/
def State.pumpImages (s : State) : State :=
  let s := (s.groups.filter fun p => p.2.img.isSome).foldl (fun s p => s.pumpGroupImage p.1) s
  (s.teams.filter fun p => p.2.img.isSome).foldl (fun s p => s.pumpTeamImage p.1) s

/-! ## CTXSV and CTXRS (R413, R415) -/

/-- The group a handle names: core, lane pair and slot. -/
def State.groupOf (s : State) (h : Nat) : Option Nat :=
  (s.groups.find? fun p =>
    let t := s.team p.2.team
    decide (t.core = h / 65536 % 512) && decide (p.2.lp = h / 256 % 16) && decide (p.2.slot = some (h % 16)) && !p.2.ended && !t.saved
      && !t.lost).map (·.1)

/-- A team leaves its core: its groups' slots and blocks are free, no lane pair is reserved for them (R363), and L1 has its banks. -/
def State.freeTeam (s : State) (tid : Nat) : State :=
  let off := fun (g : Group) => { g with slot := none, granule := none }
  let mine := fun (g : Nat) => decide ((s.group g).team = tid)
  let core := (s.team tid).core
  let t : State := { (s.modTeam tid fun t => { t with saved := true, again := false }) with
    groups := s.groups.map (fun p => if p.2.team = tid then (p.1, off p.2) else p),
    lanePairs := s.lanePairs.map fun p => (p.1, { p.2 with reserve := p.2.reserve.filter fun g => !mine g }) }
  t.refitL1 core (s.l1Banks core)

/-- Every team of a gang that was saved has been loaded whole: they go on (R415), their jobs with STATE 1 (R327).
Log entry 61 (DESIGN CHOICE). -/
def State.resumeGang (s : State) (tid : Nat) : State :=
  let t := s.team tid
  let gang := s.teams.filter fun p => decide (p.2.launch = t.launch) && decide (p.2.gang = t.gang) && (p.2.saved || p.2.again)
  let whole := fun (p : Nat × Team) => p.2.again && p.2.loaded && (s.liveGroups p.1).all fun g => (s.group g).loaded
  if gang.all whole then
    let ids := gang.map (·.1)
    let wake := fun (x : Team) => { x with stopping := false, stopped := false, again := false, loaded := false }
    let s : State := { s with
      teams := s.teams.map (fun p => if ids.contains p.1 then (p.1, wake p.2) else p),
      groups := s.groups.map (fun p => if ids.contains p.2.team then (p.1, { p.2 with loaded := false }) else p) }
    let s := ids.foldl (fun s t => (s.mapPkts t (PktState.rise s.timeNs)).pumpTeam t) s
    s.wakeJobs ids
  else s

/-- What a CTXSV or CTXRS comes to: its result, or not yet. -/
inductive Ctx where
  | res (v : Nat) (s : State) | wait (s : State)

/-- CTXSV of a group. -/
def State.saveGroup (s : State) (h : Nat) (a : W64) : Ctx :=
  match s.groupOf h with
  | none => .res 1 s
  | some g =>
    let t := s.team (s.group g).team
    if !t.stopped || t.again then .res 1 s
    else
      match s.spillRegion g with
      | (.wait, s) => .wait s
      | (.fault _, s) => .res 2 s
      | (.ok region, s) =>
        match s.engWrite s.privAcc s.slotWaiter a (s.groupImage g region) with
        | (.ok _, s) => .res 0 (s.modGroup g fun x => { x with snap := x.regs, img := some { va := a, ctx := s.curTeam.ctx, core := s.curTeam.core } })
        | (.fault _, s) => .res 2 s
        | (.wait, s) => .wait s

/-- CTXSV of a team: its core's resources are free afterwards (R414). -/
def State.saveTeam (s : State) (h : Nat) (a : W64) : Ctx :=
  match s.teamOf (BitVec.ofNat 64 h) with
  | none => .res 1 s
  | some t =>
    if !(s.team t).stopped || (s.team t).again then .res 1 s
    else
      match s.engWrite s.privAcc s.slotWaiter a (s.teamImage t) with
      | (.ok _, s) =>
        .res 0 ((s.modTeam t fun x => { x with snap := x.scratch, img := some { va := a, ctx := s.curTeam.ctx, core := s.curTeam.core } }).freeTeam t)
      | (.fault _, s) => .res 2 s
      | (.wait, s) => .wait s

/-- CTXRS of a group. -/
def State.loadGroup (s : State) (h : Nat) (a : W64) : Ctx :=
  match s.groupOf h with
  | none => .res 1 s
  | some g =>
    if !(s.team (s.group g).team).again then .res 1 s
    else
      match s.engRead s.privAcc s.slotWaiter a 96 with
      | (.wait, s) => .wait s
      | (.fault _, s) => .res 2 s
      | (.ok b, s) =>
        let saved := BitVec.ofNat 256 (ofLeBytes ((b.drop 64).take 32))
        let n := 14080 + 128 * ((List.range 256).filter fun e => saved.getLsbD e).length
        match s.engRead s.privAcc s.slotWaiter a n with
        | (.wait, s) => .wait s
        | (.fault _, s) => .res 2 s
        | (.ok b, s) => .res 0 ((s.modGroup g fun x => x.ofImage g b).resumeGang (s.group g).team)

/-- CTXRS of a team. -/
def State.loadTeam (s : State) (h : Nat) (a : W64) : Ctx :=
  match s.teamOf (BitVec.ofNat 64 h) with
  | none => .res 1 s
  | some t =>
    if !(s.team t).again then .res 1 s
    else
      match s.engRead s.privAcc s.slotWaiter a (s.teamImage t).length with
      | (.wait, s) => .wait s
      | (.fault _, s) => .res 2 s
      | (.ok b, s) => .res 0 ((s.modTeam t fun x => x.ofImage b).resumeGang t)

/-- A privileged U instruction with a handle and an address; its result goes to every active thread as a far result.
Log entry 64 (DEDUCED). -/
def State.ctxOp (s : State) (i : Instr) (l : Lane) (f : Nat → W64 → State → Ctx) : Out :=
  s.lanePrivileged i
    (s.laneOnce i l fun s =>
      let k := s.lowest
      if !s.guard l k then .fin (s.copyAll l s.active)
      else
        let s := s.markLatch l
        let h := s.src l false l.a k
        let a := BitVec.ofNat 64 (s.src l true l.b k)
        match (if a.toNat % 64 ≠ 0 then .res 2 s else f h a s) with
        | .wait s => .out s
        | .res v s => .fin ((s.copyAll l s.active).pushFar l false s.active (.value (BitVec.ofNat 64 v))))

/-- CTXSV (R413). -/
def execCtxsv (l : Lane) (team : Bool) (s : State) : Out :=
  s.ctxOp (.ctxsv l team) l fun h a s => if team then s.saveTeam h a else s.saveGroup h a
/-- CTXRS (R413). -/
def execCtxrs (l : Lane) (team : Bool) (s : State) : Out :=
  s.ctxOp (.ctxrs l team) l fun h a s => if team then s.loadTeam h a else s.loadGroup h a

end Sys2Proof.Machine
end

