-- ==== Sys2Proof/Machine/Dispatch.lean ====
section
/-! DEFINITION. Which meaning each instruction has. -/

namespace Sys2Proof.Machine

/-- The meaning of an instruction of the opcode table. -/
def exec (i : Instr) (s : State) : Host.Outcome State Fault Refusal :=
  match i with
  | .sadd d a b => Sys2Proof.Machine.execSadd d a b s
  | .ssub d a b => Sys2Proof.Machine.execSsub d a b s
  | .smul d a b => Sys2Proof.Machine.execSmul d a b s
  | .smulh d a b => Sys2Proof.Machine.execSmulh d a b s
  | .smulhn d a b => Sys2Proof.Machine.execSmulhn d a b s
  | .sdiv d a b => Sys2Proof.Machine.execSdiv d a b s
  | .sdivn d a b => Sys2Proof.Machine.execSdivn d a b s
  | .srem d a b => Sys2Proof.Machine.execSrem d a b s
  | .sremn d a b => Sys2Proof.Machine.execSremn d a b s
  | .sand d a b => Sys2Proof.Machine.execSand d a b s
  | .sor d a b => Sys2Proof.Machine.execSor d a b s
  | .sxor d a b => Sys2Proof.Machine.execSxor d a b s
  | .sandn d a b => Sys2Proof.Machine.execSandn d a b s
  | .sshl d a b => Sys2Proof.Machine.execSshl d a b s
  | .sshr d a b => Sys2Proof.Machine.execSshr d a b s
  | .ssar d a b => Sys2Proof.Machine.execSsar d a b s
  | .smin d a b => Sys2Proof.Machine.execSmin d a b s
  | .smax d a b => Sys2Proof.Machine.execSmax d a b s
  | .sminn d a b => Sys2Proof.Machine.execSminn d a b s
  | .smaxn d a b => Sys2Proof.Machine.execSmaxn d a b s
  | .sclz d a => Sys2Proof.Machine.execSclz d a s
  | .sctz d a => Sys2Proof.Machine.execSctz d a s
  | .spopc d a => Sys2Proof.Machine.execSpopc d a s
  | .ssel d a b c => Sys2Proof.Machine.execSsel d a b c s
  | .smbr d q => Sys2Proof.Machine.execSmbr d q s
  | .scmp n a b c => Sys2Proof.Machine.execScmp n a b c s
  | .saddi d a v0 => Sys2Proof.Machine.execSaddi d a v0 s
  | .sandi d a v0 => Sys2Proof.Machine.execSandi d a v0 s
  | .sori d a v0 => Sys2Proof.Machine.execSori d a v0 s
  | .sxori d a v0 => Sys2Proof.Machine.execSxori d a v0 s
  | .sshli d a n => Sys2Proof.Machine.execSshli d a n s
  | .sshri d a n => Sys2Proof.Machine.execSshri d a n s
  | .ssari d a n => Sys2Proof.Machine.execSsari d a n s
  | .scmpi k n a v0 => Sys2Proof.Machine.execScmpi k n a v0 s
  | .sli d v0 => Sys2Proof.Machine.execSli d v0 s
  | .slis d v0 => Sys2Proof.Machine.execSlis d v0 s
  | .sld d a z o => Sys2Proof.Machine.execSld d a z o s
  | .sldx d a z o => Sys2Proof.Machine.execSldx d a z o s
  | .sst r a z o => Sys2Proof.Machine.execSst r a z o s
  | .satom d a b o => Sys2Proof.Machine.execSatom d a b o s
  | .sbr c n o => Sys2Proof.Machine.execSbr c n o s
  | .sjmp o => Sys2Proof.Machine.execSjmp o s
  | .scall o => Sys2Proof.Machine.execScall o s
  | .sjr a => Sys2Proof.Machine.execSjr a s
  | .sjrl a => Sys2Proof.Machine.execSjrl a s
  | .sret => Sys2Proof.Machine.execSret s
  | .sloop d v0 => Sys2Proof.Machine.execSloop d v0 s
  | .lrun d v0 => Sys2Proof.Machine.execLrun d v0 s
  | .lrunr d a => Sys2Proof.Machine.execLrunr d a s
  | .lquiet => Sys2Proof.Machine.execLquiet s
  | .cpyc a d => Sys2Proof.Machine.execCpyc a d s
  | .cpyclose d => Sys2Proof.Machine.execCpyclose d s
  | .fput a d p f n => Sys2Proof.Machine.execFput a d p f n s
  | .fget a d p n => Sys2Proof.Machine.execFget a d p n s
  | .fatom a d n o => Sys2Proof.Machine.execFatom a d n o s
  | .fmcast a d p n => Sys2Proof.Machine.execFmcast a d p n s
  | .fstat a d => Sys2Proof.Machine.execFstat a d s
  | .reshard a d => Sys2Proof.Machine.execReshard a d s
  | .rswait a d => Sys2Proof.Machine.execRswait a d s
  | .pfh a d => Sys2Proof.Machine.execPfh a d s
  | .pfdrop a d => Sys2Proof.Machine.execPfdrop a d s
  | .persist a d => Sys2Proof.Machine.execPersist a d s
  | .persistAll d => Sys2Proof.Machine.execPersistAll d s
  | .dlaunch a d => Sys2Proof.Machine.execDlaunch a d s
  | .bara d b => Sys2Proof.Machine.execBara d b s
  | .barw a d b => Sys2Proof.Machine.execBarw a d b s
  | .bar d b => Sys2Proof.Machine.execBar d b s
  | .acset a d => Sys2Proof.Machine.execAcset a d s
  | .acwait a d => Sys2Proof.Machine.execAcwait a d s
  | .rinit a d => Sys2Proof.Machine.execRinit a d s
  | .rawait a d => Sys2Proof.Machine.execRawait a d s
  | .rrel a d => Sys2Proof.Machine.execRrel a d s
  | .fence q k => Sys2Proof.Machine.execFence q k s
  | .sleeps a d e => Sys2Proof.Machine.execSleeps a d e s
  | .srd d v0 => Sys2Proof.Machine.execSrd d v0 s
  | .swr a v0 => Sys2Proof.Machine.execSwr a v0 s
  | .tlbiVa a d => Sys2Proof.Machine.execTlbiVa a d s
  | .tlbiCtx a d => Sys2Proof.Machine.execTlbiCtx a d s
  | .tlbiPasid a d => Sys2Proof.Machine.execTlbiPasid a d s
  | .tlbiAll a d => Sys2Proof.Machine.execTlbiAll a d s
  | .pgctlPin a d => Sys2Proof.Machine.execPgctlPin a d s
  | .pgctlUnpin a d => Sys2Proof.Machine.execPgctlUnpin a d s
  | .pgctlEvict a d => Sys2Proof.Machine.execPgctlEvict a d s
  | .pgctlWb a d => Sys2Proof.Machine.execPgctlWb a d s
  | .pgctlCarve a d => Sys2Proof.Machine.execPgctlCarve a d s
  | .pgctlUncarve a d => Sys2Proof.Machine.execPgctlUncarve a d s
  | .leaseopRead a d => Sys2Proof.Machine.execLeaseopRead a d s
  | .leaseopGrant a d => Sys2Proof.Machine.execLeaseopGrant a d s
  | .leaseopRenew a d => Sys2Proof.Machine.execLeaseopRenew a d s
  | .leaseopRelease a d => Sys2Proof.Machine.execLeaseopRelease a d s
  | .leaseopRevoke a d => Sys2Proof.Machine.execLeaseopRevoke a d s
  | .leaseopLost a d => Sys2Proof.Machine.execLeaseopLost a d s
  | .leaseopHint a d => Sys2Proof.Machine.execLeaseopHint a d s
  | .stret => Sys2Proof.Machine.execStret s
  | .stretSkip => Sys2Proof.Machine.execStretSkip s
  | .stretPark => Sys2Proof.Machine.execStretPark s
  | .shalt a d => Sys2Proof.Machine.execShalt a d s
  | .keyopLoad a d => Sys2Proof.Machine.execKeyopLoad a d s
  | .keyopUnload a d => Sys2Proof.Machine.execKeyopUnload a d s
  | .strap v0 => Sys2Proof.Machine.execStrap v0 s
  | .nop l => Sys2Proof.Machine.execNop l s
  | .iadd l ty sat => Sys2Proof.Machine.execIadd l ty sat s
  | .isub l ty sat => Sys2Proof.Machine.execIsub l ty sat s
  | .imul l ty => Sys2Proof.Machine.execImul l ty s
  | .imulh l ty => Sys2Proof.Machine.execImulh l ty s
  | .imad l ty => Sys2Proof.Machine.execImad l ty s
  | .imadw l ty => Sys2Proof.Machine.execImadw l ty s
  | .idiv l ty => Sys2Proof.Machine.execIdiv l ty s
  | .irem l ty => Sys2Proof.Machine.execIrem l ty s
  | .iabs l ty => Sys2Proof.Machine.execIabs l ty s
  | .imin l ty => Sys2Proof.Machine.execImin l ty s
  | .imax l ty => Sys2Proof.Machine.execImax l ty s
  | .and l ty => Sys2Proof.Machine.execAnd l ty s
  | .or l ty => Sys2Proof.Machine.execOr l ty s
  | .xor l ty => Sys2Proof.Machine.execXor l ty s
  | .andn l ty => Sys2Proof.Machine.execAndn l ty s
  | .shl l ty => Sys2Proof.Machine.execShl l ty s
  | .shr l ty => Sys2Proof.Machine.execShr l ty s
  | .sar l ty => Sys2Proof.Machine.execSar l ty s
  | .rotl l ty => Sys2Proof.Machine.execRotl l ty s
  | .clz l ty => Sys2Proof.Machine.execClz l ty s
  | .popc l ty => Sys2Proof.Machine.execPopc l ty s
  | .brev l ty => Sys2Proof.Machine.execBrev l ty s
  | .bfe l ty => Sys2Proof.Machine.execBfe l ty s
  | .bfi l ty => Sys2Proof.Machine.execBfi l ty s
  | .iset l ty c => Sys2Proof.Machine.execIset l ty c s
  | .sel l ty p neg => Sys2Proof.Machine.execSel l ty p neg s
  | .mov l ty => Sys2Proof.Machine.execMov l ty s
  | .movsp l q => Sys2Proof.Machine.execMovsp l q s
  | .movspW l q => Sys2Proof.Machine.execMovspW l q s
  | .cvti l dt st sat => Sys2Proof.Machine.execCvti l dt st sat s
  | .lea l ty n => Sys2Proof.Machine.execLea l ty n s
  | .idot4 l as bs => Sys2Proof.Machine.execIdot4 l as bs s
  | .fadd l ty r na nb => Sys2Proof.Machine.execFadd l ty r na nb s
  | .fsub l ty r na nb => Sys2Proof.Machine.execFsub l ty r na nb s
  | .fmul l ty r na nb => Sys2Proof.Machine.execFmul l ty r na nb s
  | .ffma l ty r na nb nc => Sys2Proof.Machine.execFfma l ty r na nb nc s
  | .fmin l ty na nb => Sys2Proof.Machine.execFmin l ty na nb s
  | .fmax l ty na nb => Sys2Proof.Machine.execFmax l ty na nb s
  | .fset l ty c => Sys2Proof.Machine.execFset l ty c s
  | .fdiv l ty r => Sys2Proof.Machine.execFdiv l ty r s
  | .fsqrt l ty r => Sys2Proof.Machine.execFsqrt l ty r s
  | .frcp l ty r => Sys2Proof.Machine.execFrcp l ty r s
  | .frsq l => Sys2Proof.Machine.execFrsq l s
  | .fexp2 l => Sys2Proof.Machine.execFexp2 l s
  | .flog2 l => Sys2Proof.Machine.execFlog2 l s
  | .fsin l => Sys2Proof.Machine.execFsin l s
  | .fcos l => Sys2Proof.Machine.execFcos l s
  | .frnd l ty r => Sys2Proof.Machine.execFrnd l ty r s
  | .fcvti l dt st r => Sys2Proof.Machine.execFcvti l dt st r s
  | .icvtf l dt st r => Sys2Proof.Machine.execIcvtf l dt st r s
  | .fclass l ty => Sys2Proof.Machine.execFclass l ty s
  | .fscale l ty r => Sys2Proof.Machine.execFscale l ty r s
  | .fdot2 l ty r => Sys2Proof.Machine.execFdot2 l ty r s
  | .hadd2 l ty r na nb => Sys2Proof.Machine.execHadd2 l ty r na nb s
  | .hmul2 l ty r na nb => Sys2Proof.Machine.execHmul2 l ty r na nb s
  | .hfma2 l ty r na nb nc => Sys2Proof.Machine.execHfma2 l ty r na nb nc s
  | .hmin2 l ty na nb => Sys2Proof.Machine.execHmin2 l ty na nb s
  | .hmax2 l ty na nb => Sys2Proof.Machine.execHmax2 l ty na nb s
  | .fpack l f => Sys2Proof.Machine.execFpack l f s
  | .funpk l f => Sys2Proof.Machine.execFunpk l f s
  | .ncvt l fmt r inf => Sys2Proof.Machine.execNcvt l fmt r inf s
  | .ncvtFrom l fmt => Sys2Proof.Machine.execNcvtFrom l fmt s
  | .nexp l ty => Sys2Proof.Machine.execNexp l ty s
  | .i4xpk l r half => Sys2Proof.Machine.execI4xpk l r half s
  | .i4xunp l => Sys2Proof.Machine.execI4xunp l s
  | .mxscl l fmt => Sys2Proof.Machine.execMxscl l fmt s
  | .rng l ty => Sys2Proof.Machine.execRng l ty s
  | .plop3 l pa pb pc => Sys2Proof.Machine.execPlop3 l pa pb pc s
  | .pmov l => Sys2Proof.Machine.execPmov l s
  | .pmovToPreds l => Sys2Proof.Machine.execPmovToPreds l s
  | .xscan l op ty excl => Sys2Proof.Machine.execXscan l op ty excl s
  | .xred l op ty => Sys2Proof.Machine.execXred l op ty s
  | .xshf l m ty => Sys2Proof.Machine.execXshf l m ty s
  | .xbal l p neg => Sys2Proof.Machine.execXbal l p neg s
  | .xmatch l ty => Sys2Proof.Machine.execXmatch l ty s
  | .xfirst l ty => Sys2Proof.Machine.execXfirst l ty s
  | .xbcst l ty => Sys2Proof.Machine.execXbcst l ty s
  | .qswp l q ty => Sys2Proof.Machine.execQswp l q ty s
  | .qred l op ty => Sys2Proof.Machine.execQred l op ty s
  | .qbcst l ty => Sys2Proof.Machine.execQbcst l ty s
  | .mbxw l q ty => Sys2Proof.Machine.execMbxw l q ty s
  | .ld l ty pol => Sys2Proof.Machine.execLd l ty pol s
  | .st l ty pol => Sys2Proof.Machine.execSt l ty pol s
  | .lds l ty => Sys2Proof.Machine.execLds l ty s
  | .sts l ty => Sys2Proof.Machine.execSts l ty s
  | .ldfeKeep l ty => Sys2Proof.Machine.execLdfeKeep l ty s
  | .ldfeClear l ty => Sys2Proof.Machine.execLdfeClear l ty s
  | .stfe l ty => Sys2Proof.Machine.execStfe l ty s
  | .ldc l ty => Sys2Proof.Machine.execLdc l ty s
  | .cstore l ty pol => Sys2Proof.Machine.execCstore l ty pol s
  | .xload l ty pol => Sys2Proof.Machine.execXload l ty pol s
  | .prefl l pol => Sys2Proof.Machine.execPrefl l pol s
  | .zline l pol => Sys2Proof.Machine.execZline l pol s
  | .atom l op ty acq rel => Sys2Proof.Machine.execAtom l op ty acq rel s
  | .acas l ty acq rel => Sys2Proof.Machine.execAcas l ty acq rel s
  | .atoms l op ty acq rel => Sys2Proof.Machine.execAtoms l op ty acq rel s
  | .acass l ty acq rel => Sys2Proof.Machine.execAcass l ty acq rel s
  | .red l op ty rel => Sys2Proof.Machine.execRed l op ty rel s
  | .brl l => Sys2Proof.Machine.execBrl l s
  | .join l => Sys2Proof.Machine.execJoin l s
  | .call l f => Sys2Proof.Machine.execCall l f s
  | .callr l f => Sys2Proof.Machine.execCallr l f s
  | .ret l => Sys2Proof.Machine.execRet l s
  | .trap l => Sys2Proof.Machine.execTrap l s
  | .tret l => Sys2Proof.Machine.execTret l s
  | .tretSkip l => Sys2Proof.Machine.execTretSkip l s
  | .tretVal l => Sys2Proof.Machine.execTretVal l s
  | .tretPark l => Sys2Proof.Machine.execTretPark l s
  | .bpt l => Sys2Proof.Machine.execBpt l s
  | .sleep l ev => Sys2Proof.Machine.execSleep l ev s
  | .yield l => Sys2Proof.Machine.execYield l s
  | .mxloop l tile n za => Sys2Proof.Machine.execMxloop l tile n za s
  | .mxzero l => Sys2Proof.Machine.execMxzero l s
  | .mxst l tile fmt => Sys2Proof.Machine.execMxst l tile fmt s
  | .mxld l tile => Sys2Proof.Machine.execMxld l tile s
  | .mxwaitSt l tile clr => Sys2Proof.Machine.execMxwaitSt l tile clr s
  | .mxwaitStall l clr => Sys2Proof.Machine.execMxwaitStall l clr s
  | .mxrel l => Sys2Proof.Machine.execMxrel l s
  | .lsrd l v0 wide => Sys2Proof.Machine.execLsrd l v0 wide s
  | .lswr l v0 wide => Sys2Proof.Machine.execLswr l v0 wide s
  | .spillwWin l => Sys2Proof.Machine.execSpillwWin l s
  | .spillwStk l => Sys2Proof.Machine.execSpillwStk l s
  | .fillwWin l => Sys2Proof.Machine.execFillwWin l s
  | .fillwStk l => Sys2Proof.Machine.execFillwStk l s
  | .ctxsv l team => Sys2Proof.Machine.execCtxsv l team s
  | .ctxrs l team => Sys2Proof.Machine.execCtxrs l team s
  | .runStart core lp ln => Sys2Proof.Machine.execRunStart core lp ln s
  | .decisionQueuePop g => Sys2Proof.Machine.execDecisionQueuePop g s
  | .nextMerge g => Sys2Proof.Machine.execNextMerge g s
  | .farResultArrival g v0 => Sys2Proof.Machine.execFarResultArrival g v0 s
  | .heldTrapEntry g => Sys2Proof.Machine.execHeldTrapEntry g s
  | .barrierRelease g => Sys2Proof.Machine.execBarrierRelease g s
  | .ldfeResume g q => Sys2Proof.Machine.execLdfeResume g q s
  | .lquietComplete g => Sys2Proof.Machine.execLquietComplete g s
  | .lrunEnqueue g => Sys2Proof.Machine.execLrunEnqueue g s
  | .fenceComplete g => Sys2Proof.Machine.execFenceComplete g s
  | .rawaitRelease g => Sys2Proof.Machine.execRawaitRelease g s
  | .acwaitRelease g => Sys2Proof.Machine.execAcwaitRelease g s
  | .fstatRelease g => Sys2Proof.Machine.execFstatRelease g s
  | .rswaitRelease g => Sys2Proof.Machine.execRswaitRelease g s
  | .tagStallEnd g => Sys2Proof.Machine.execTagStallEnd g s
  | .elandJobSlotFree g => Sys2Proof.Machine.execElandJobSlotFree g s
  | .sleepsWake g => Sys2Proof.Machine.execSleepsWake g s
  | .sleepWake g q => Sys2Proof.Machine.execSleepWake g q s
  | .shaltWake g => Sys2Proof.Machine.execShaltWake g s
  | .persistComplete g => Sys2Proof.Machine.execPersistComplete g s
  | .scalarAccessComplete g => Sys2Proof.Machine.execScalarAccessComplete g s
  | .mxCommandStart core => Sys2Proof.Machine.execMxCommandStart core s
  | .mxCommandComplete core => Sys2Proof.Machine.execMxCommandComplete core s
  | .mxQueueReissue g q => Sys2Proof.Machine.execMxQueueReissue g q s
  | .alatchAcquire g q => Sys2Proof.Machine.execAlatchAcquire g q s
  | .tokenArrival die cl => Sys2Proof.Machine.execTokenArrival die cl s
  | .tokenHoldTimeout die cl => Sys2Proof.Machine.execTokenHoldTimeout die cl s
  | .copyUnitMove team copy grp => Sys2Proof.Machine.execCopyUnitMove team copy grp s
  | .copyComplete team copy => Sys2Proof.Machine.execCopyComplete team copy s
  | .bankReservationTimeout v0 => Sys2Proof.Machine.execBankReservationTimeout v0 s
  | .springbokFill slot => Sys2Proof.Machine.execSpringbokFill slot s
  | .frameFillComplete f => Sys2Proof.Machine.execFrameFillComplete f s
  | .relayoutComplete f => Sys2Proof.Machine.execRelayoutComplete f s
  | .counterHalving => Sys2Proof.Machine.execCounterHalving s
  | .leaseExpiry slot => Sys2Proof.Machine.execLeaseExpiry slot s
  | .leaseDue slot => Sys2Proof.Machine.execLeaseDue slot s
  | .graceEnd slot => Sys2Proof.Machine.execGraceEnd slot s
  | .revocationNotice slot grace => Sys2Proof.Machine.execRevocationNotice slot grace s
  | .revocationWritebackDone slot => Sys2Proof.Machine.execRevocationWritebackDone slot s
  | .poolNodeLost node => Sys2Proof.Machine.execPoolNodeLost node s
  | .leaseValidClear slot recv => Sys2Proof.Machine.execLeaseValidClear slot recv s
  | .storeAccepted => Sys2Proof.Machine.execStoreAccepted s
  | .backInvalidationSnoop addr => Sys2Proof.Machine.execBackInvalidationSnoop addr s
  | .atsInvalidation pasid page bytes => Sys2Proof.Machine.execAtsInvalidation pasid page bytes s
  | .priResponse tag r => Sys2Proof.Machine.execPriResponse tag r s
  | .pagerRecordPost g q => Sys2Proof.Machine.execPagerRecordPost g q s
  | .pgrespResume w => Sys2Proof.Machine.execPgrespResume w s
  | .pgrespFail w => Sys2Proof.Machine.execPgrespFail w s
  | .pgrespFatal w => Sys2Proof.Machine.execPgrespFatal w s
  | .preempt h => Sys2Proof.Machine.execPreempt h s
  | .kick q off bytes => Sys2Proof.Machine.execKick q off bytes s
  | .heartbeat => Sys2Proof.Machine.execHeartbeat s
  | .heartbeatTimeout => Sys2Proof.Machine.execHeartbeatTimeout s
  | .replayComplete => Sys2Proof.Machine.execReplayComplete s
  | .hostDeadline => Sys2Proof.Machine.execHostDeadline s
  | .hostResponse tag a => Sys2Proof.Machine.execHostResponse tag a s
  | .registerWrite off v => Sys2Proof.Machine.execRegisterWrite off v s
  | .commandStart => Sys2Proof.Machine.execCommandStart s
  | .nopCommand n => Sys2Proof.Machine.execNopCommand n s
  | .launch n => Sys2Proof.Machine.execLaunch n s
  | .copy n => Sys2Proof.Machine.execCopy n s
  | .signal n => Sys2Proof.Machine.execSignal n s
  | .wait n => Sys2Proof.Machine.execWait n s
  | .waitRelease q => Sys2Proof.Machine.execWaitRelease q s
  | .map n => Sys2Proof.Machine.execMap n s
  | .unmap n => Sys2Proof.Machine.execUnmap n s
  | .leaseGrant n => Sys2Proof.Machine.execLeaseGrant n s
  | .leaseRenew n => Sys2Proof.Machine.execLeaseRenew n s
  | .leaseRelease n => Sys2Proof.Machine.execLeaseRelease n s
  | .keyLoad n => Sys2Proof.Machine.execKeyLoad n s
  | .keyUnload n => Sys2Proof.Machine.execKeyUnload n s
  | .contextCreate n => Sys2Proof.Machine.execContextCreate n s
  | .contextDestroy n => Sys2Proof.Machine.execContextDestroy n s
  | .contextUpdate n => Sys2Proof.Machine.execContextUpdate n s
  | .contextBindQueue n => Sys2Proof.Machine.execContextBindQueue n s
  | .contextUnbindQueue n => Sys2Proof.Machine.execContextUnbindQueue n s
  | .contextQueryContext n => Sys2Proof.Machine.execContextQueryContext n s
  | .contextQueryQueue n => Sys2Proof.Machine.execContextQueryQueue n s
  | .teamPlacement n => Sys2Proof.Machine.execTeamPlacement n s
  | .reserveState g => Sys2Proof.Machine.execReserveState g s
  | .groupExchange g => Sys2Proof.Machine.execGroupExchange g s
  | .teamEnd t => Sys2Proof.Machine.execTeamEnd t s
  | .launchComplete n => Sys2Proof.Machine.execLaunchComplete n s
  | .coreFailure core spare => Sys2Proof.Machine.execCoreFailure core spare s
  | .thermalThrottle => Sys2Proof.Machine.execThermalThrottle s
  | .thermalShutdown => Sys2Proof.Machine.execThermalShutdown s
  | .flitReceive link f => Sys2Proof.Machine.execFlitReceive link f s
  | .flitSend link vc => Sys2Proof.Machine.execFlitSend link vc s
  | .retryRequest link seq => Sys2Proof.Machine.execRetryRequest link seq s
  | .linkDown link => Sys2Proof.Machine.execLinkDown link s
  | .putPacketArrival p => Sys2Proof.Machine.execPutPacketArrival p s
  | .fgetRequest src addr len rt => Sys2Proof.Machine.execFgetRequest src addr len rt s
  | .fgetResponse n pkt bytes wts => Sys2Proof.Machine.execFgetResponse n pkt bytes wts s
  | .fatomRequest src addr op b cmp rt => Sys2Proof.Machine.execFatomRequest src addr op b cmp rt s
  | .remoteAccessRequest src addr op rt => Sys2Proof.Machine.execRemoteAccessRequest src addr op rt s
  | .packetAck r a => Sys2Proof.Machine.execPacketAck r a s
  | .retryLater r => Sys2Proof.Machine.execRetryLater r s
  | .resendTimer r => Sys2Proof.Machine.execResendTimer r s
  | .notPresentTimeout r => Sys2Proof.Machine.execNotPresentTimeout r s
  | .fabricTimeout r => Sys2Proof.Machine.execFabricTimeout r s
  | .remoteAccessTimeout n => Sys2Proof.Machine.execRemoteAccessTimeout n s
  | .reconfigDrain links => Sys2Proof.Machine.execReconfigDrain links s
  | .linkDark link => Sys2Proof.Machine.execLinkDark link s
  | .initHeader link rets => Sys2Proof.Machine.execInitHeader link rets s
  | .routeTableInstall routes up => Sys2Proof.Machine.execRouteTableInstall routes up s
  | .chunkIssue job => Sys2Proof.Machine.execChunkIssue job s
  | .chunkAck job num => Sys2Proof.Machine.execChunkAck job num s
  | .powerOnReset => Sys2Proof.Machine.execPowerOnReset s
  | .configRecord r => Sys2Proof.Machine.execConfigRecord r s
  | .getVersion => Sys2Proof.Machine.execGetVersion s
  | .getCapabilities => Sys2Proof.Machine.execGetCapabilities s
  | .negotiateAlgorithms mldsa87 sha3 other => Sys2Proof.Machine.execNegotiateAlgorithms mldsa87 sha3 other s
  | .getDigests => Sys2Proof.Machine.execGetDigests s
  | .getCertificate => Sys2Proof.Machine.execGetCertificate s
  | .challenge nonce => Sys2Proof.Machine.execChallenge nonce s
  | .getMeasurements v0 nonce => Sys2Proof.Machine.execGetMeasurements v0 nonce s
  | .status r => Sys2Proof.Machine.execStatus r s
  | .take r => Sys2Proof.Machine.execTake r s
  | .handback r => Sys2Proof.Machine.execHandback r s
  | .kill r => Sys2Proof.Machine.execKill r s
  | .discard r => Sys2Proof.Machine.execDiscard r s
  | .privcmd r => Sys2Proof.Machine.execPrivcmd r s
  | .power r => Sys2Proof.Machine.execPower r s
  | .readyBitSet b => Sys2Proof.Machine.execReadyBitSet b s
  | .hbmStackFailure b => Sys2Proof.Machine.execHbmStackFailure b s
  | .supplyDroop die count => Sys2Proof.Machine.execSupplyDroop die count s
  | .unusedFeatureMessage die => Sys2Proof.Machine.execUnusedFeatureMessage die s

end Sys2Proof.Machine
end

