-- ==== Sys2Proof/Machine/Turn.lean ====
section
/-! DEFINITION. What a step does around exec: device time, the fetch and decoding of the instruction a stream stands at, and
the choice of a turn when none is given (log entries 4 and 5). -/

namespace Sys2Proof.Machine

/-! ## Device time -/

/-- RT follows device time (R308). -/
def Context.atTime (c : Context) (us : W48) : Context := if c.rt.toNat < us.toNat then { c with rt := us } else c

/-- What the units of the device do by themselves as time passes: firmware sets the token counts (R14), killed groups end (R46), lease-valid
clears that are due arrive and revocations go on (R58, R62), packets leave links that are down, and transfers, Eland's blocks, RPADDR
writes and images go on (R291, R309, R320, R349, R415); queue turns end, and pending groups and placements are marked as they become ready
(R360, R363, R367). `before`: device time before. Log entries 90 (DESIGN CHOICE), 101 (DESIGN CHOICE), 108 (DESIGN CHOICE). -/
def State.unitsGo (s : State) (before : W64) : State :=
  (s.powerTick before).reapDying.overdueClears.revokeSteps.rerouteDown.pumpAll.pumpJobs.pumpRptr.pumpImages.endTurns.trackPending.trackClaims

/-- Device time and the core clock move on: MXSTALL counts, RT follows, ATS invalidations complete (R80, R280, R308), a new cycle's split
slots are noted (R391), and the units go on.
Log entry 5 (DESIGN CHOICE). -/
def State.advance (s : State) (dns dcyc : Nat) : State :=
  let before := s.timeNs
  let s := s.accrueStall dcyc
  let t := s.timeNs + BitVec.ofNat 64 dns
  let us := BitVec.ofNat 48 (t.toNat / 1000)
  let s : State := { s with timeNs := t, cycle := s.cycle + dcyc, contexts := s.contexts.map fun p => (p.1, p.2.atTime us) }
  let s : State := { s with host := s.host.completeInvals }
  let held := fun (g : Group) => if dcyc = 0 ∨ g.slotsHeld = g.splitNums then g else { g with slotsHeld := g.splitNums }
  let s : State := { s with groups := s.groups.map fun p => (p.1, held p.2) }
  s.unitsGo before

/-! ## Instructions of the streams -/

/-- An instruction that a stream goes on with: what to do, or what decoding has already decided. -/
inductive Ready where
  | run (i : Instr) (s : State) | done (s : State)

/-- The scalar stream of a group can execute (R371). -/
def State.scalarRunnable (s : State) (gid : Nat) : Bool :=
  let g := s.group gid
  let t := s.team g.team
  decide (g.swait = none) && decide (g.sparked = none) && !g.ended && !g.dying && !t.stopping && !t.saved
    && (g.slot.map fun n => decide (n < 8)).getD false

/-- A scalar instruction's opcode is STRET (R403). -/
def isStret (w : Nat) : Bool := decide (w / 2 ^ 26 % 64 = 0x30) && decide (w % 256 = 5)

/-- The scalar stream of a group takes a turn (R23, R45, R46, R168). Log entry 39 (DEDUCED). -/
def State.scalarReady (s : State) (gid : Nat) : Ready :=
  if !s.scalarRunnable gid then .done s
  else
    let s : State := { s with curGid := gid, curSlot := 0 }
    if s.cur.srom then .done (s.romScalarTurn gid)
    else
      match s.fetchScalar gid with
      | (.stall, s) => .done s
      | (.fault c v, s) => .done (s.scalarTrapIn gid c v)
      | (.ok w, s) =>
        match decodeScalar (BitVec.ofNat 32 w) with
        | .ok i => .run i s
        | .illegalPrivField =>
          if s.cur.mode = .user ∧ !(isStret w && s.cur.sviaUser) then .done (s.scalarTrapIn gid 0x02 0) else .done (s.killGroup gid)
        | _ => .done (s.killGroup gid)

/-- The run in a lane takes a turn (R41, R45, R46, R379). Log entry 26 (DEDUCED). -/
def State.laneReady (s : State) (core lp ln : Nat) : Ready :=
  let p := s.lanePair core lp
  match (if ln = 0 then p.lane0 else p.lane1) with
  | none => .done s
  | some (gid, n) =>
    let s : State := { s with curGid := gid, curSlot := n }
    if n = 4 && s.cur.romLane then .done (s.romLaneTurn gid)
    else
      match s.fetchLane gid s.split.pc with
      | (.stall, s) => .done s
      | (.fault c v, s) =>
        .done ((s.modSplit fun x => { x with ins := none, whole := true }).laneTrap s.lowest c v)
      | (.ok w, s) =>
        match decodeLane (BitVec.ofNat 96 w) with
        | .ok i => .run i s
        | .illegalPrivField =>
          let returns := laneTret (BitVec.ofNat 8 (w / 2 ^ 88)) && decide (n = 4) && s.cur.slotBank.viaUser
          if s.cur.mode = .user ∧ !returns then .done (s.lanePrivTrap none) else .done s.killCur
        | _ => .done s.killCur

/-! ## The order of turns when none is given (log entry 4) -/

/-- The streams that may go on: each group's scalar stream, and the runs the lanes hold. -/
def State.streams (s : State) : List Who :=
  s.groups.map (fun p => Who.scalar p.1)
    ++ s.lanePairs.flatMap fun p => [Who.lane (p.1 / 16) (p.1 % 16) 0, Who.lane (p.1 / 16) (p.1 % 16) 1]

/-- The events a group's own state may call for. -/
def groupEvents (gid : Nat) (g : Group) : List (State → Out) :=
  let slots := g.splits.map (·.1) ++ (if g.tslot = none then [] else [4])
  waitEvents gid g ++ [execNextMerge gid, execDecisionQueuePop gid, execHeldTrapEntry gid]
    ++ [execPagerRecordPost gid 4, execPagerRecordPost gid 5]
    ++ slots.flatMap (fun n => [execLdfeResume gid n, execMxQueueReissue gid n, execAlatchAcquire gid n, execSleepWake gid n])
    ++ (List.range g.far.length).map (fun i => execFarResultArrival gid i)
    ++ g.far.flatMap fun r => match r.src with
      | .fill f .. => [execFrameFillComplete f]
      | _ => []

/-- The events that run a command, by its number. -/
def commandEvents (n : Nat) : List (State → Out) :=
  [execNopCommand n, execLaunch n, execCopy n, execSignal n, execWait n, execMap n, execUnmap n, execLeaseGrant n, execLeaseRenew n,
   execLeaseRelease n, execKeyLoad n, execKeyUnload n, execContextCreate n, execContextDestroy n, execContextUpdate n,
   execContextBindQueue n, execContextUnbindQueue n, execContextQueryContext n, execContextQueryQueue n]

/-- The timers of a packet in flight. -/
def timerEvents (r : PktRef) : List (State → Out) := [execResendTimer r, execNotPresentTimeout r, execFabricTimeout r]

/-- The events of the device's own end of the fabric: puts to itself, chunks, timers. -/
def State.fabricEvents (s : State) : List (State → Out) :=
  s.fabric.xfers.flatMap (fun p => (List.range p.2.pkts.length).flatMap fun i =>
      execPutPacketArrival (.loop p.1 i) :: timerEvents (.xfer p.1 i))
    ++ s.jobs.flatMap (fun p => execChunkIssue p.1 :: p.2.chunks.flatMap fun c =>
      execChunkAck p.1 c.num :: (List.range c.pkts.length).flatMap fun i => timerEvents (.chunk p.1 c.num i))
    ++ s.fabric.reqs.flatMap fun p => execRemoteAccessTimeout p.1 :: [execResendTimer (.req p.1), execNotPresentTimeout (.req p.1)]

/-- The events of the device's units. -/
def State.unitEvents (s : State) : List (State → Out) :=
  s.groups.flatMap (fun p => [execRunStart (s.coreOf p.1) p.2.lp 0, execRunStart (s.coreOf p.1) p.2.lp 1])
    ++ s.cores.flatMap (fun p => [execMxCommandStart p.1, execMxCommandComplete p.1])
    ++ s.teams.flatMap (fun p => p.2.copies.flatMap fun c =>
        c.slices.map (fun x => execCopyUnitMove p.1 c.num x.grp) ++ [execCopyComplete p.1 c.num])
    ++ (s.mem.frames.filter fun p => p.2.filling || decide (p.2.relaying ≠ none)).flatMap
        (fun p => [execFrameFillComplete p.1, execRelayoutComplete p.1])
    ++ (if s.mem.unaccepted = [] then [] else [execStoreAccepted])
    ++ s.mem.leases.flatMap (fun p => [execLeaseExpiry p.1, execLeaseDue p.1, execRevocationWritebackDone p.1, execGraceEnd p.1]
        ++ p.2.stale.map fun r => execLeaseValidClear p.1 r)
    ++ s.mem.spring.map (fun p => execSpringbokFill p.1) ++ (List.range s.mem.bankRes.length).map execBankReservationTimeout
    ++ s.rings.flatMap (fun p => (List.range 9).flatMap fun c => [execTokenArrival p.1 c, execTokenHoldTimeout p.1 c])
    ++ s.fabric.links.flatMap (fun p => (List.range 8).map fun v => execFlitSend p.1 (Fin.ofNat 8 v))
    ++ [execCounterHalving, execHeartbeatTimeout, execReplayComplete, execHostDeadline, execPagerRecordPost 0 0]
    ++ s.teams.map (fun p => execTeamEnd p.1)
    ++ s.launches.flatMap (fun p => [execTeamPlacement p.1, execLaunchComplete p.1])
    ++ s.cmds.flatMap (fun c => commandEvents c.num) ++ s.queues.map (fun p => execWaitRelease p.1) ++ [execCommandStart]
    ++ s.groups.flatMap (fun p => [execReserveState p.1, execGroupExchange p.1]) ++ s.fabricEvents

/-- The events that may be due, in a fixed order. Log entries 4 (DESIGN CHOICE), 90 (DESIGN CHOICE). -/
def State.candidates (s : State) : List (State → Out) := s.groups.flatMap (fun p => groupEvents p.1 p.2) ++ s.unitEvents

/-! ## The order of parties (R371) -/

/-- A turn that may be taken: a stream's or an event's. -/
inductive Choice where
  | turn (w : Who) | event (e : State → Out)

/-- Put a group into a list of groups in the order of their keys. -/
def insertKey (p : Nat × Nat) : List (Nat × Nat) → List (Nat × Nat)
  | [] => [p]
  | q :: r => if p.1 < q.1 then p :: q :: r else q :: insertKey p r

/-- The groups of a context in the order of the identifiers of their parties (R371): launch, team linear index, group index. -/
def State.partyOrder (s : State) (ctx : Nat) : List Nat :=
  let key := fun (p : Nat × Group) => (((s.team p.2.team).launch * 2 ^ 64 + (s.team p.2.team).lin * 2 ^ 32 + p.2.idx, p.1) : Nat × Nat)
  (((s.groups.filter fun p => decide ((s.team p.2.team).ctx = ctx) && !p.2.ended).map key).foldr insertKey []).map (·.2)

/-- The lane of a pair that holds a group's lowest thread comes first. -/
def State.laneOrder (s : State) (core lp gid : Nat) : List Nat :=
  let p := s.lanePair core lp
  let low := fun (r : Option (Nat × Nat)) => (match r with
    | some (g, n) => if g = gid then (((s.group g).split? n).bind fun x => (threadsOf x.mask).head?).getD 32 else 33
    | none => 34 : Nat)
  if low p.lane0 ≤ low p.lane1 then [0, 1] else [1, 0]

/-- What lets the parties of a group go on (R371): its scalar stream, what its waits wait for, its place in the active set, and the runs of
its lane pair. -/
def State.partyTurns (s : State) (gid : Nat) : List Choice :=
  let g := s.group gid
  let core := s.coreOf gid
  let lanes := s.laneOrder core g.lp gid
  [.turn (.scalar gid)] ++ (groupEvents gid g).map .event ++ [.event (execGroupExchange gid)]
    ++ lanes.map (fun n => .turn (.lane core g.lp n)) ++ lanes.map fun n => .event (execRunStart core g.lp n)

/-- The turns to choose among when the agenda names none: every second time those of the parties in ascending order, so that the lowest
runnable party of a context goes on (R371), and otherwise every stream and event, a different one first each time.
Log entry 4 (DESIGN CHOICE). -/
def State.choices (s : State) : List Choice :=
  let k := s.cycle / 12
  let all := ((s.streams.rotateLeft (k / 2)).map Choice.turn ++ s.candidates.map Choice.event).rotateLeft (k / 2)
  if k % 2 = 0 then ((s.contexts.map (·.1)).rotateLeft (k / 2)).flatMap (fun c => (s.partyOrder c).flatMap s.partyTurns) ++ all else all

end Sys2Proof.Machine
end

