-- ==== Sys2Proof/Machine/Step.lean ====
section
/-! DEFINITION. One step of the machine, and the placing of an instruction where the next step fetches it. -/

namespace Sys2Proof.Machine

/-- A stream goes on with its instruction. -/
def runReady : Ready → Out
  | .run i s => exec i s
  | .done s => .next s

/-- A turn, its time already passed. Log entry 4 (DESIGN CHOICE). -/
def takeTurn (w : Who) (s : State) : Out :=
  match w with
  | .scalar g => runReady (s.scalarReady g)
  | .lane c lp ln => runReady (s.laneReady c lp ln)
  | .event e => if laneOf e = none ∧ encodeScalar e = none then exec e s else .refused .notAnEvent

/-- The first candidate that changes more than whom exec acts for. -/
def firstChange (s : State) : List (State → Out) → Out
  | [] => .next s
  | e :: r =>
    match e s with
    | .next t => if { t with curGid := s.curGid, curSlot := s.curSlot } = s then firstChange s r else .next t
    | o => o

/-- Take a turn that may be taken. -/
def Choice.take : Choice → State → Out
  | .turn w, s => takeTurn w s
  | .event e, s => e s

/-- A turn that nothing names: the first of the choices that can go on (R371). Log entry 4 (DESIGN CHOICE). -/
def defaultTurn (s : State) : Out := firstChange s (s.choices.map Choice.take)

/-- One step: the next turn of the agenda, or one the machine chooses (log entries 4 and 5). -/
def step (s : State) : Host.Outcome State Fault Refusal :=
  match s.agenda with
  | t :: rest => takeTurn t.who (({ s with agenda := rest } : State).advance t.dns t.dcyc)
  | [] => defaultTurn (s.advance 5 12)

/-! ## Placing an instruction (log entry 1) -/

/-- The group that runs a placed instruction: one live thread and its helpers, in privileged mode. Log entry 1 (DESIGN CHOICE). -/
def placedGroup : Group :=
  { slot := some 0, granule := some 0, mode := .priv,
    thr := [(0, { life := .live, gen := 1 }), (1, { life := .helper, gen := 1 }), (2, { life := .helper, gen := 1 }),
            (3, { life := .helper, gen := 1 })],
    splits := [(0, { mask := 0xF, mode := .running })] }

/-- Its team: one group, the smallest window, one unit of lane code at address 0, one tile. Log entry 1 (DESIGN CHOICE). -/
def placedTeam : Team := { kernel := { lunits := 16, tiles := 1 }, nthreads := 1, teams := 1, seed := 1 }

/-- The page of a placed instruction: device frame 0 at virtual address 0. Log entry 1 (DESIGN CHOICE). -/
def placedPage : TlbEntry :=
  { ctx := 0, page := 0, leaf := { size := 2, space := 3, user := true, exec := true, write := true } }

/-- `s` with an instruction where the next step fetches it: context 0, team 0, group 0 on core 0, lane pair 0.
Log entry 1 (DESIGN CHOICE). -/
def State.withFetchWord (s : State) (nbits w : Nat) : State :=
  let lane := decide (32 < nbits)
  let bytes := leBytes (if lane then 12 else 4) w
  let m := s.mem
  { s with
    agenda := [{ dns := 0, dcyc := 0, who := if lane then .lane 0 0 0 else .scalar 0 }],
    mem := { m with hbm := wrBytes (m.hbm.drop 0 65536) 0 bytes, hbmKey := m.hbmKey.drop 0 512,
                    frames := m.frames.insert 0 { valid := true, pinned := true, carved := true },
                    tlb := [placedPage], l2 := [], l1 := [] },
    groups := s.groups.insert 0 placedGroup, nextGid := max s.nextGid 1,
    teams := s.teams.insert 0 placedTeam, nextTeam := max s.nextTeam 1,
    contexts := s.contexts.insert 0 {},
    cores := s.cores.insert 0 {},
    lanePairs := s.lanePairs.insert 0 (if lane then { lane0 := some (0, 0) } else {}),
    boot := { s.boot with ready := 0x1FFFFF } }

end Sys2Proof.Machine
end

