-- ==== Sys2Proof/Safety.lean ====
section
/-! DEFINITION. The vocabulary of the statements: what an instruction may change, what a scalar or lane instruction
leaves where it completes, which states are well formed. -/

namespace Sys2Proof.Machine

/-- An outcome is a next state. -/
def Went (o : Out) : Prop := ∃ t, o = .next t

/-! ## Frames -/

/-- `t` differs from `s` in group g alone. -/
def OnlyGroup (g : Nat) (s t : State) : Prop :=
  t = { s with groups := t.groups } ∧ ∀ h, h ≠ g → t.groups.find h = s.groups.find h

/-- `t` differs from `s` in the current group alone, and there in scalar registers, PC and wait alone. -/
def ScalarOnly (s t : State) : Prop :=
  OnlyGroup s.curGid s t ∧ t.cur = { s.cur with sreg := t.cur.sreg, spc := t.cur.spc, swait := t.cur.swait }

/-- The scalar registers of `t` are those of `s` but for sd, which holds v (R22: s0 takes nothing). -/
def RegsAfter (s t : State) (d : BitVec 6) (v : W64) : Prop :=
  ∀ r, t.sread r = if r = d ∧ d ≠ 0 then v else s.sread r

/-- A scalar instruction has written v to sd and gone on (R22, R23): nothing else changes. -/
def ScalarPut (s t : State) (d : BitVec 6) (v : W64) : Prop :=
  ScalarOnly s t ∧ t.cur.spc = s.cur.spc + 4 ∧ t.cur.swait = none ∧ RegsAfter s t d v

/-- A scalar instruction has moved the PC and written no register. -/
def ScalarJump (s t : State) (pc : W64) : Prop :=
  ScalarOnly s t ∧ t.cur.spc = pc ∧ t.cur.swait = none ∧ ∀ r, t.sread r = s.sread r

/-- Scalar instruction i completes with v in sd. -/
def ScalarGives (i : Instr) (s : State) (d : BitVec 6) (v : W64) : Prop := ∃ t, exec i s = .next t ∧ ScalarPut s t d v

/-- Scalar instruction i completes with the PC at `pc` and no register written. -/
def ScalarGoes (i : Instr) (s : State) (pc : W64) : Prop := ∃ t, exec i s = .next t ∧ ScalarJump s t pc

/-- Scalar instruction i completes with condition n at b and every other condition as it was (R26, R172). -/
def ScalarSets (i : Instr) (s : State) (n : Fin 8) (b : Bool) : Prop :=
  ∃ t, exec i s = .next t ∧ OnlyGroup s.curGid s t
    ∧ t.cur = { s.cur with cond := t.cur.cond, spc := s.cur.spc + 4, swait := none }
    ∧ ∀ m, t.cur.cread m = if m = n ∧ n ≠ 0 then b else s.cur.cread m

/-- The scalar instruction traps in the current group (R168, R402): nothing of its own effect is done. -/
def ScalarTraps (i : Instr) (s : State) (cause : Nat) (val : W64) : Prop :=
  exec i s = .next (s.scalarTrapIn s.curGid cause val)

/-- What a condition of Table 9-3 says of two words. -/
def condHolds (c : SCond) (x y : W64) : Prop :=
  match c with
  | .eq => x = y
  | .ne => x ≠ y
  | .lt => x.toInt < y.toInt
  | .le => x.toInt ≤ y.toInt
  | .ltn => x.toNat < y.toNat
  | .len => x.toNat ≤ y.toNat
  | .tst => x &&& y ≠ 0
  | .ntst => x &&& y = 0

/-! ## Scalar instructions with effects of their own -/

/-- Scalar instruction i completes with v in sd; its effects beside sd and the PC are those of u. -/
def ScalarAfter (i : Instr) (s u : State) (d : BitVec 6) (v : W64) : Prop := ∃ t, exec i s = .next t ∧ ScalarPut u t d v

/-- Scalar instruction i completes and writes no register; its effects beside the PC are those of u. -/
def ScalarPast (i : Instr) (s u : State) : Prop := ∃ t, exec i s = .next t ∧ ScalarJump u t (u.cur.spc + 4)

/-- The stream stays at scalar instruction i and waits (R371); what it has done so far is u. -/
def ScalarWaitsIn (i : Instr) (s u : State) : Prop :=
  ∃ t w, exec i s = .next t ∧ OnlyGroup u.curGid u t ∧ t.cur = { u.cur with swait := some w } ∧ w.instr = i

/-- The stream stays at scalar instruction i and waits: nothing else changes. -/
def ScalarWaits (i : Instr) (s : State) : Prop := ScalarWaitsIn i s s

/-- `u` differs from `s` in team w alone. -/
def OnlyTeam (w : Nat) (s u : State) : Prop := u = { s with teams := u.teams } ∧ ∀ x, x ≠ w → u.teams.find x = s.teams.find x

/-- `u` is `s` with n bytes of team w's scratchpad from an offset on written: byte j of them is `byte j`. -/
def ScratchWritten (s u : State) (w off n : Nat) (byte : Nat → Byte) : Prop :=
  OnlyTeam w s u ∧ u.team w = { s.team w with scratch := (u.team w).scratch }
    ∧ ∀ a, SMap.get 0 (u.team w).scratch a
        = if off ≤ a ∧ a < off + n then byte (a - off) else SMap.get 0 (s.team w).scratch a

/-- Bytes of a team's scratchpad outside [a, a + n) are those of another. -/
def ScratchKept (t u : Team) (a n : Nat) : Prop :=
  ∀ x, ¬(a ≤ x ∧ x < a + n) → SMap.get 0 u.scratch x = SMap.get 0 t.scratch x

/-- Byte j of a word (R1). -/
def byteOf (v : W64) (j : Nat) : Byte := v.extractLsb' (8 * j) 8

/-- The n bytes of a sparse memory from an address on spell v (R1); bits above them are zero. -/
def Spells (m : SMap Byte) (a n : Nat) (v : W64) : Prop := v.toNat < 2 ^ (8 * n) ∧ ∀ j, j < n → byteOf v j = SMap.get 0 m (a + j)

/-- The groups of team w have seen an event at their scratchpad (R347, R390), and their waits on its rings and counters take the
results they find there (R147, R304); nothing else changes. -/
def Woken (s u : State) (w : Nat) : Prop :=
  u = { s with groups := u.groups }
    ∧ ∀ h, u.groups.find h = (s.groups.find h).map fun g => if g.team = w then wakeGroup s.timeNs (g.takes (s.team w)) else g

/-- Table 6-4 on 64-bit words read as signed numbers. -/
def atomic64 (o : AOp) (old b : W64) : W64 :=
  match o with
  | .add => BitVec.ofNat 64 (old.toNat + b.toNat)
  | .min => if b.toInt < old.toInt then b else old
  | .max => if old.toInt < b.toInt then b else old
  | .and => old &&& b
  | .or => old ||| b
  | .xor => old ^^^ b
  | .exch => b
  | .inc => if b.toNat ≤ old.toNat then 0 else old + 1
  | .dec => if old = 0 ∨ b.toNat < old.toNat then b else old - 1

/-! ## Lane instructions -/

/-- A lane instruction stands where it may (R40, R41, R400) in a split that is there, and its run end finds every
reconvergence entry it needs (R386). -/
def Placed (s : State) (i : Instr) (l : Lane) : Prop :=
  s.misplaced i l = false ∧ s.cur.unwindSpilled s.curTeam.d s.curSlot l.fin (s.guards l) = false
    ∧ (s.cur.split? s.curSlot).isSome ∧ s.curSlot ≤ 4

/-- The threads an instruction's result goes to: those it still has to pass whose guards are true; under U every active
thread where Lowest()'s guard is true (R38, R39). -/
def State.performers (s : State) (l : Lane) : List Nat :=
  if l.u then (if s.guard l s.lowest then s.active else []) else s.toPass.filter (s.guard l)

/-- The threads that read the sources and compute: under U Lowest() alone (R39). -/
def State.computers (s : State) (l : Lane) : List Nat := if l.u then (s.performers l).take 1 else s.performers l

/-- The thread whose sources give thread k its result (R39). -/
def State.computer (s : State) (l : Lane) (k : Nat) : Nat := if l.u then s.lowest else k

/-- The threads whose hold copies an instruction makes (R35, R39): guards aside, but for !p0 (R38). -/
def State.holders (s : State) (l : Lane) : List Nat := if never l then [] else if l.u then s.active else s.toPass

/-- A stack entry of a thread that a result v is written to (Table 2-9). -/
def State.dstReg (s : State) (d : Dst) (wide : Bool) (v : W64) (e : Nat) (old : W32) : W32 :=
  match d with
  | .t n =>
    if wide ∧ e = s.entry (n.val + 1) then (v >>> 32).setWidth 32
    else if e = s.entry n.val then v.setWidth 32 else old
  | _ => old

/-- A thread whose predicate a result v is written to (Table 2-9): bit 0 of the result. -/
def dstThr (d : Dst) (v : W64) (t : Thr) : Thr :=
  match d with
  | .p n => t.pset n.val (v.getLsbD 0)
  | _ => t

/-- The register entries a destination takes. -/
def State.dstHas (s : State) (d : Dst) (wide : Bool) (e : Nat) : Prop :=
  match d with
  | .t n => e = s.entry n.val ∨ wide ∧ e = s.entry (n.val + 1)
  | _ => False

/-- The value thread k's hold copy into latch entry j takes; of two copies the later operand's stands (R35). -/
def State.holdVal (s : State) (l : Lane) (j k : Nat) : Option W32 :=
  if Hold.entry l.hc = some j then some (s.reg32 0 l.c k)
  else if Hold.entry l.hb = some j then some (s.reg32 0 l.b k)
  else if Hold.entry l.ha = some j then some (s.reg32 0 l.a k)
  else none

/-- Of the machine, `u` differs from `s` in the current group's lane registers, predicates and threads, in the fields of
the current split that describe the instruction under way, and in the context's LATCH bit, which a thread of `js` that
reads a latch entry that is not live has set (R36). -/
def LaneFrame (s u : State) (i : Instr) (l : Lane) (whole : Bool) (js : List Nat) : Prop :=
  u = { s with groups := u.groups, contexts := u.contexts }
    ∧ (∀ g, g ≠ s.curGid → u.groups.find g = s.groups.find g)
    ∧ u.contexts = (if s.staleLatch l = true ∧ js ≠ [] then
        (s.modContext s.curTeam.ctx fun c => { c with latch := true }).contexts else s.contexts)
    ∧ u.cur = { s.cur with regs := u.cur.regs, dirty := u.cur.dirty, thr := u.cur.thr, splits := u.cur.splits,
                           tslot := u.cur.tslot }
    ∧ (∀ n, n ≤ 4 → n ≠ s.curSlot → u.cur.split? n = s.cur.split? n)
    ∧ (u.cur.tslot.map fun t => (t.thr, t.since, t.levels.tail)) = (s.cur.tslot.map fun t => (t.thr, t.since, t.levels.tail))
    ∧ u.split = { s.split with part := u.split.part, gmask := s.guards l, ins := some i, whole := whole }

/-- Part of the way through a lane instruction: the threads `ps` have their results, `js` have computed, the hold copies
of `hs` are made. `val` is the result of a thread that computes, `thr` what else computing changes in it. Every other
register, predicate and thread is as before (R22 to R39, R157, R225). -/
def LaneAt (s u : State) (i : Instr) (l : Lane) (wide : Bool) (val : Nat → Option W64) (thr : Nat → Thr → Thr)
    (ps js hs : List Nat) : Prop :=
  LaneFrame s u i l l.u js
    ∧ (∀ k e, e < 256 → u.cur.rget k e =
        match (if k ∈ ps then val (s.computer l k) else none) with
        | some v => s.dstReg l.d wide v e (s.cur.rget k e)
        | none => s.cur.rget k e)
    ∧ (∀ k, u.cur.thread k =
        let t := if k ∈ js then thr k (s.cur.thread k) else s.cur.thread k
        match (if k ∈ ps then val (s.computer l k) else none) with
        | some v => dstThr l.d v t
        | none => t)
    ∧ (∀ e, e < 256 → (u.cur.dirty.getLsbD e = true ↔
        s.cur.dirty.getLsbD e = true ∨ ∃ k ∈ ps, (val (s.computer l k)).isSome ∧ s.dstHas l.d wide e))
    ∧ (∀ j k, SMap.get 0 (SMap.get [] u.split.part j) k =
        ((if k ∈ hs then s.holdVal l j k else none).getD (SMap.get 0 (SMap.get [] s.split.part j) k)))

/-- A lane instruction has passed its threads. -/
def LaneDone (s u : State) (i : Instr) (l : Lane) (wide : Bool) (val : Nat → Option W64) (thr : Nat → Thr → Thr) : Prop :=
  LaneAt s u i l wide val thr (s.performers l) (s.computers l) (s.holders l)

/-- Lane instruction i completes: each thread's result is `val` (none where it has none), computing also changes the
computing thread by `thr`, and the instruction ends (R225). -/
def LaneRuns (i : Instr) (l : Lane) (wide : Bool) (s : State) (val : Nat → Option W64) (thr : Nat → Thr → Thr) : Prop :=
  ∃ u, exec i s = .next (u.laneEnd l.fin) ∧ LaneDone s u i l wide val thr

/-- The threads below k that computed before it: none under U. -/
def State.below (s : State) (l : Lane) (k : Nat) : List Nat :=
  if l.u then [] else s.toPass.filter fun j => s.guard l j && decide (j < k)

/-- The threads below k whose hold copies were made before k computed: none under U. -/
def State.heldBelow (s : State) (l : Lane) (k : Nat) : List Nat :=
  if l.u then [] else s.toPass.filter fun j => decide (j < k)

/-- Lane instruction i stops at thread k: the threads below it have their results, k has computed without one, and what
becomes of the split is `stop` (R108, R225, R398). -/
def LaneStops (i : Instr) (l : Lane) (wide : Bool) (s : State) (k : Nat) (val : Nat → Option W64) (thr : Nat → Thr → Thr)
    (stop : State → State) : Prop :=
  ∃ u, exec i s = .next (stop u) ∧ LaneAt s u i l wide val thr (s.below l k) (s.below l k ++ [k]) (s.heldBelow l k)

/-! ## Operands and results of lane instructions -/

/-- A source of thread k at 32 or 64 bits (Table 2-8, R34). -/
def State.operand (s : State) (l : Lane) (wide : Bool) (x : Src) (k : Nat) : W64 :=
  if wide then s.reg64 l.imm x k else (s.reg32 l.imm x k).setWidth 64

/-- A w-wide operand of an integer type: bits [w−1:0], by the type's signedness (R205). -/
def intRead (ty : ITy) (x : W64) : Int := if ty.signed then (x.setWidth ty.width).toInt else ((x.setWidth ty.width).toNat : Int)

/-- A result taken modulo 2^w and extended to its register or pair by the type's signedness (R205). -/
def intWrite (ty : ITy) (v : Int) : W64 :=
  let r := BitVec.ofInt ty.width v
  if ty.wide then (if ty.signed then r.signExtend 64 else r.setWidth 64)
  else (if ty.signed then r.signExtend 32 else r.setWidth 32).setWidth 64

/-- An exact result clamped to an integer type's range (R208). -/
def intClamp (ty : ITy) (v : Int) : Int :=
  if ty.signed then max (-2 ^ (ty.width - 1)) (min v (2 ^ (ty.width - 1) - 1)) else max 0 (min v (2 ^ ty.width - 1))

/-- An operation on bits done at the width of a raw type (R207). -/
def onBits (ty : BTy) (f : ∀ {w : Nat}, BitVec w → BitVec w) (x : W64) : W64 :=
  if ty.wide then f x else (f (x.setWidth 32)).setWidth 64

/-- Bits of a raw type. -/
def BTy.size (ty : BTy) : Nat := if ty.wide then 64 else 32

/-- Lane instruction i completes with result `val` in each thread; computing changes nothing else. -/
def LaneGives (i : Instr) (l : Lane) (wide : Bool) (s : State) (val : Nat → W64) : Prop :=
  Placed s i l → LaneRuns i l wide s (fun k => some (val k)) fun _ t => t

/-- Lane instruction i completes and writes no register: in each thread that performs it, `f` of the computing thread
changes what the group keeps of that thread (R39). -/
def LaneSets (i : Instr) (l : Lane) (s : State) (f : Nat → Thr → Thr) : Prop :=
  Placed s i l → ∃ u, exec i s = .next (u.laneEnd l.fin) ∧ LaneFrame s u i l l.u (s.computers l)
    ∧ (∀ k e, e < 256 → u.cur.rget k e = s.cur.rget k e)
    ∧ (∀ e, e < 256 → u.cur.dirty.getLsbD e = s.cur.dirty.getLsbD e)
    ∧ (∀ k, u.cur.thread k = if k ∈ s.performers l then f (s.computer l k) (s.cur.thread k) else s.cur.thread k)
    ∧ (∀ j k, SMap.get 0 (SMap.get [] u.split.part j) k =
        ((if k ∈ s.holders l then s.holdVal l j k else none).getD (SMap.get 0 (SMap.get [] s.split.part j) k)))

/-- Lane instruction i, placed as it may be, stops with a trap in the first thread k that computes and has to trap: cause
and TVAL as given (R6, R19). The threads before it have their results. -/
def LaneTrapsAs (i : Instr) (l : Lane) (wide : Bool) (s : State) (bad : Nat → Prop) (val : Nat → Option W64)
    (thr : Nat → Thr → Thr) (cause : Nat → Nat) (tval : Nat → W64) : Prop :=
  Placed s i l → ∀ k ∈ s.computers l, bad k → (∀ j ∈ s.below l k, ¬bad j) →
    LaneStops i l wide s k val thr fun u => u.laneTrap k (cause k) (tval k)

/-- The same with one cause. -/
def LaneTraps (i : Instr) (l : Lane) (wide : Bool) (s : State) (bad : Nat → Prop) (val : Nat → Option W64)
    (thr : Nat → Thr → Thr) (cause : Nat) (tval : Nat → W64) : Prop :=
  LaneTrapsAs i l wide s bad val thr (fun _ => cause) tval

/-- One step of a thread's generator (R200), n times. -/
def generatorAfter (n : Nat) (g : W64) : W64 :=
  match n with
  | 0 => g
  | n + 1 =>
    let g := generatorAfter n g
    let g := g ^^^ (g <<< 13)
    let g := g ^^^ (g >>> 7)
    g ^^^ (g <<< 17)

/-- Draw n of a thread, counted from 1 (R200): the top 16 bits of its generator. -/
def drawNumber (n : Nat) (g : W64) : Nat := ((generatorAfter n g).extractLsb' 48 16).toNat

/-- A flag-raising lane instruction (R201 to R203, R225): `r` gives each thread's result and flags from its draws, of which
it takes n. FPSTAT gains the flags; a flag that FPEN enables traps with FP_EXCEPTION and writes no destination, unless the
thread is a helper. -/
def FloatRuns (i : Instr) (l : Lane) (wide : Bool) (s : State) (n : Nat) (r : Nat → (Nat → Nat) → Nat × FFlags) : Prop :=
  let out := fun k => r k fun j => if j ≤ n then drawNumber j (s.cur.thread k).gen else 0
  let bad := fun k => (out k).2 &&& (s.context s.curTeam.ctx).fpen ≠ 0 ∧ s.cur.isHelper k = false
  let val := fun k => some (BitVec.ofNat 64 (out k).1)
  let thr := fun k (t : Thr) => { t with gen := generatorAfter n t.gen, fpstat := t.fpstat ||| (out k).2.setWidth 32 }
  (Placed s i l → (∀ k ∈ s.computers l, ¬bad k) → LaneRuns i l wide s val thr)
    ∧ LaneTraps i l wide s bad val thr 0x04 fun k => (out k).2.setWidth 64

/-- The draws a rounding takes: one under RS, none under another mode (R201). -/
def drawsOf (r : Rnd) : Nat := if r = .rs then 1 else 0

end Sys2Proof.Machine
end

