-- ==== Sys2Proof/Certificates/Slice0/Obligations.lean ====
section
/-! DEFINITION. The statements about the machine. -/

open Sys2Proof Sys2Proof.Machine

/-! ## Scalar registers (chapter 9) -/

/-- Table 9-2 (R170, R22): each SALU function but division and SMBR gives sd its value, with s[sa] and s[sb] read
before the write and s0 discarding it; nothing else changes but the PC. -/
def ScalarAluResults : Prop :=
  ∀ (s : State) (d a b : BitVec 6),
    let x := s.sread a
    let y := s.sread b
    ScalarGives (.sadd d a b) s d (BitVec.ofInt 64 (x.toInt + y.toInt))
    ∧ ScalarGives (.ssub d a b) s d (BitVec.ofInt 64 (x.toInt - y.toInt))
    ∧ ScalarGives (.smul d a b) s d (BitVec.ofInt 64 (x.toInt * y.toInt))
    ∧ ScalarGives (.smulh d a b) s d (BitVec.ofInt 64 (x.toInt * y.toInt / 2 ^ 64))
    ∧ ScalarGives (.smulhn d a b) s d (BitVec.ofNat 64 (x.toNat * y.toNat / 2 ^ 64))
    ∧ ScalarGives (.sand d a b) s d (x &&& y)
    ∧ ScalarGives (.sor d a b) s d (x ||| y)
    ∧ ScalarGives (.sxor d a b) s d (x ^^^ y)
    ∧ ScalarGives (.sandn d a b) s d (x &&& ~~~y)
    ∧ ScalarGives (.sshl d a b) s d (BitVec.ofNat 64 (x.toNat * 2 ^ (y.toNat % 64)))
    ∧ ScalarGives (.sshr d a b) s d (BitVec.ofNat 64 (x.toNat / 2 ^ (y.toNat % 64)))
    ∧ ScalarGives (.ssar d a b) s d (BitVec.ofInt 64 (x.toInt / 2 ^ (y.toNat % 64)))
    ∧ ScalarGives (.smin d a b) s d (if x.toInt ≤ y.toInt then x else y)
    ∧ ScalarGives (.smax d a b) s d (if x.toInt ≤ y.toInt then y else x)
    ∧ ScalarGives (.sminn d a b) s d (if x.toNat ≤ y.toNat then x else y)
    ∧ ScalarGives (.smaxn d a b) s d (if x.toNat ≤ y.toNat then y else x)
    ∧ (∀ c : Fin 8, ScalarGives (.ssel d a b c) s d (if s.cur.cread c then x else y))

/-- Table 9-2 (R170): SCLZ, SCTZ and SPOPC count leading zero, trailing zero and one bits; 64 where a is zero. -/
def ScalarBitCounts : Prop :=
  ∀ (s : State) (d a : BitVec 6),
    let x := s.sread a
    (∃ n, ScalarGives (.sclz d a) s d (BitVec.ofNat 64 n) ∧ n ≤ 64 ∧ (∀ i, i < n → x.getLsbD (63 - i) = false)
      ∧ (n < 64 → x.getLsbD (63 - n) = true))
    ∧ (∃ n, ScalarGives (.sctz d a) s d (BitVec.ofNat 64 n) ∧ n ≤ 64 ∧ (∀ i, i < n → x.getLsbD i = false)
      ∧ (n < 64 → x.getLsbD n = true))
    ∧ ScalarGives (.spopc d a) s d (BitVec.ofNat 64 ((List.range 64).countP fun i => x.getLsbD i))

/-- R171: a zero divisor raises INT_DIV_ZERO with TVAL 0; otherwise the quotient is truncated toward zero and the
remainder has the dividend's sign, both taken modulo 2^64, so that −2^63 by −1 gives −2^63 and remainder 0. -/
def ScalarDivision : Prop :=
  ∀ (s : State) (d a b : BitVec 6),
    let x := s.sread a
    let y := s.sread b
    (y = 0 → ScalarTraps (.sdiv d a b) s 0x03 0 ∧ ScalarTraps (.sdivn d a b) s 0x03 0 ∧ ScalarTraps (.srem d a b) s 0x03 0
      ∧ ScalarTraps (.sremn d a b) s 0x03 0)
    ∧ (y ≠ 0 → ScalarGives (.sdiv d a b) s d (BitVec.ofInt 64 (Int.tdiv x.toInt y.toInt))
      ∧ ScalarGives (.sdivn d a b) s d (BitVec.ofNat 64 (x.toNat / y.toNat))
      ∧ ScalarGives (.srem d a b) s d (BitVec.ofInt 64 (x.toInt - y.toInt * Int.tdiv x.toInt y.toInt))
      ∧ ScalarGives (.sremn d a b) s d (BitVec.ofNat 64 (x.toNat % y.toNat)))

/-- R174, R175, R176: the immediate forms and the constants. -/
def ScalarImmediates : Prop :=
  ∀ (s : State) (d a : BitVec 6),
    let x := s.sread a
    (∀ i : BitVec 14, ScalarGives (.saddi d a i) s d (BitVec.ofInt 64 (x.toInt + i.toInt))
      ∧ ScalarGives (.sandi d a i) s d (x &&& BitVec.ofNat 64 i.toNat)
      ∧ ScalarGives (.sori d a i) s d (x ||| BitVec.ofNat 64 i.toNat)
      ∧ ScalarGives (.sxori d a i) s d (x ^^^ BitVec.ofNat 64 i.toNat))
    ∧ (∀ n : BitVec 6, ScalarGives (.sshli d a n) s d (BitVec.ofNat 64 (x.toNat * 2 ^ n.toNat))
      ∧ ScalarGives (.sshri d a n) s d (BitVec.ofNat 64 (x.toNat / 2 ^ n.toNat))
      ∧ ScalarGives (.ssari d a n) s d (BitVec.ofInt 64 (x.toInt / 2 ^ n.toNat)))
    ∧ (∀ i : BitVec 20, ScalarGives (.sli d i) s d (BitVec.ofInt 64 i.toInt)
      ∧ ScalarGives (.slis d i) s d (BitVec.ofNat 64 ((s.sread d).toNat * 2 ^ 20) ||| BitVec.ofNat 64 i.toNat))

/-- What `ScalarAluResults`, `ScalarImmediates`, `ScalarBitCounts`, `ScalarDivision` state, together. -/
def Obligations.ScalarArithmetic : Prop := ScalarAluResults ∧ ScalarImmediates ∧ ScalarBitCounts ∧ ScalarDivision

/-- R172, R173, Table 9-3: the words of SCMP and SCMPI, with c_0 illegal; they set c_N to the condition's value; no other state
changes. -/
def ScalarComparisons : Prop :=
  (∀ (n : Fin 8) (a b : BitVec 6) (k : Nat) (c : SCond) (i : BitVec 14), [SCond.eq, .ne, .lt, .le, .ltn, .len, .tst, .ntst][k]? = some c →
    encodeScalar (.scmp n a b c) = some (BitVec.ofNat 32 (0x01 * 2 ^ 26 + n.val * 2 ^ 20 + a.toNat * 2 ^ 14 + b.toNat * 2 ^ 8 + k))
    ∧ encodeScalar (.scmpi c n a i) = some (BitVec.ofNat 32 (0x07 * 2 ^ 26 + (k * 8 + n.val) * 2 ^ 20 + a.toNat * 2 ^ 14 + i.toNat))
    ∧ wellFormed (.scmp 0 a b c) = false ∧ wellFormed (.scmpi c 0 a i) = false) ∧
  ∀ (s : State) (n : Fin 8) (a : BitVec 6) (c : SCond) (v : Bool),
    (∀ b, (v = true ↔ condHolds c (s.sread a) (s.sread b)) → ScalarSets (.scmp n a b c) s n v)
    ∧ (∀ i : BitVec 14, (v = true ↔ condHolds c (s.sread a) (BitVec.ofInt 64 i.toInt)) → ScalarSets (.scmpi c n a i) s n v)

/-- R182 to R185, R23, R181: where the branches, calls and loops go, what they write, and the misaligned target. -/
def ScalarBranches : Prop :=
  ∀ s : State,
    let pc := s.cur.spc
    let dest := fun (o : Int) => pc + BitVec.ofInt 64 (4 * o)
    (∀ (c : Fin 8) (n : Bool) (o : BitVec 22),
      ScalarGoes (.sbr c n o) s (if (s.cur.cread c != n) = true then dest o.toInt else pc + 4))
    ∧ (∀ o : BitVec 26, ScalarGoes (.sjmp o) s (dest o.toInt)
      ∧ ∃ t, exec (.scall o) s = .next t ∧ ScalarOnly s t ∧ t.cur.spc = dest o.toInt ∧ t.cur.swait = none ∧ RegsAfter s t 61 (pc + 4))
    ∧ (∀ a, (s.sread a).toNat % 4 = 0 → ScalarGoes (.sjr a) s (s.sread a)
      ∧ ∃ t, exec (.sjrl a) s = .next t ∧ ScalarOnly s t ∧ t.cur.spc = s.sread a ∧ t.cur.swait = none ∧ RegsAfter s t 61 (pc + 4))
    ∧ (∀ a, (s.sread a).toNat % 4 ≠ 0 → ScalarTraps (.sjr a) s 0x05 (s.sread a) ∧ ScalarTraps (.sjrl a) s 0x05 (s.sread a))
    ∧ ((s.sread 61).toNat % 4 = 0 → ScalarGoes .sret s (s.sread 61))
    ∧ ((s.sread 61).toNat % 4 ≠ 0 → ScalarTraps .sret s 0x05 (s.sread 61))
    ∧ (∀ (d : BitVec 6) (i : BitVec 14),
      ∃ t, exec (.sloop d i) s = .next t ∧ ScalarOnly s t ∧ t.cur.swait = none ∧ RegsAfter s t d (s.sread d - 1)
        ∧ t.cur.spc = if s.sread d = 1 then pc + 4 else dest i.toInt)

/-- What `ScalarComparisons`, `ScalarBranches` state, together. -/
def Obligations.ScalarConditions : Prop := ScalarComparisons ∧ ScalarBranches

/-- R165: SMBR gives sd the slot's value at the group's last completed LQUIET or one written since; the slot's one value
where nothing has been written since. Which of them is a free value: nothing else changes. -/
def ScalarMailboxRead : Prop :=
  ∀ (s : State) (d : BitVec 6) (n : Fin 4),
    let m := SMap.get {} s.cur.mbox n.val
    ∃ t v, exec (.smbr d n) s = .next t ∧ ScalarPut s { t with free := s.free } d v
      ∧ (m.since = [] → v = m.cur) ∧ (m.since ≠ [] → v = m.quiet ∨ v ∈ m.since)

/-! ## Scalar memory accesses -/

/-- R177, R178, R113, R118: a scalar load or store at an aligned address of the scratch aperture that lies in an
allocation completes; SLD zero-extends and SLDX sign-extends the bytes there, and SST stores the low bytes of its
register, where none of them is watched. -/
def ScalarScratchAccesses : Prop :=
  ∀ (s : State) (z : Size) (w off : Nat) (a : BitVec 6) (o : BitVec 12),
    let n := Size.bytes' z
    let va := s.sread a + BitVec.ofInt 64 (o.toInt * n)
    let m := (s.team w).scratch
    va.toNat / 2 ^ 32 = 0xFFFFFFFF → va.toNat % n = 0 → s.scratchAt s.cur.team (va.toNat % 2 ^ 32) = some (w, off) →
      (∀ d, ∃ v, ScalarGives (.sld d a z o) s d v ∧ Spells m off n v)
      ∧ (∀ d, ∃ v x : W64, ScalarGives (.sldx d a z o) s d v ∧ Spells m off n x
        ∧ v = BitVec.ofInt 64 (if x.getLsbD (8 * n - 1) then (x.toNat : Int) - 2 ^ (8 * n) else x.toNat))
      ∧ (∀ r, (∀ j, j < n → (s.team w).watched (off + j) = false) →
        ∃ u, ScalarPast (.sst r a z o) s u ∧ ScratchWritten s u w off n (byteOf (s.sread r)))

/-- R180, Table 9-5, R113: SATOM in the scratch aperture returns the old 64-bit value and stores the new one; an add at
an arrival counter's COUNT is an arrival, which the team's groups see. -/
def ScalarScratchAtomics : Prop :=
  ∀ (s : State) (w off : Nat) (d a b : BitVec 6) (p : AOp) (old : W64),
    let va := s.sread a
    let new := byteOf (atomic64 p old (s.sread b))
    va.toNat / 2 ^ 32 = 0xFFFFFFFF → va.toNat % 8 = 0 → s.scratchAt s.cur.team (va.toNat % 2 ^ 32) = some (w, off) →
    Spells (s.team w).scratch off 8 old →
      ((∀ j, j < 8 → (s.team w).watched (off + j) = false) →
        ∃ u, ScalarAfter (.satom d a b p) s u d old ∧ ScratchWritten s u w off 8 new)
      ∧ ((s.team w).hasCounter off = true → (s.team w).watched off = true → p = .add →
        ∃ u u', ScalarAfter (.satom d a b p) s u' d old ∧ ScratchWritten s u w off 8 new ∧ Woken u u' w)

/-- R178, R180, R106, R113, R118, R168: where scalar accesses trap: MISALIGNED with the address; in the scratch aperture
PERMISSION_FAULT outside every allocation, and WATCH_WORD_WRITE where a store or an atomic that is no arrival touches a
watched byte, with the scratch address. -/
def Obligations.ScalarAccessTraps : Prop :=
  ∀ (s : State) (d a b : BitVec 6) (z : Size) (o : BitVec 12) (p : AOp),
    let n := Size.bytes' z
    let va := s.sread a + BitVec.ofInt 64 (o.toInt * n)
    let low := fun (x : W64) => BitVec.ofNat 64 (x.toNat % 2 ^ 32)
    (va.toNat % n ≠ 0 → ScalarTraps (.sld d a z o) s 0x05 va ∧ ScalarTraps (.sldx d a z o) s 0x05 va ∧ ScalarTraps (.sst d a z o) s 0x05 va)
    ∧ ((s.sread a).toNat % 8 ≠ 0 → ScalarTraps (.satom d a b p) s 0x05 (s.sread a))
    ∧ (va.toNat / 2 ^ 32 = 0xFFFFFFFF → va.toNat % n = 0 →
      (s.scratchAt s.cur.team (va.toNat % 2 ^ 32) = none → ScalarTraps (.sld d a z o) s 0x07 (low va)
        ∧ ScalarTraps (.sldx d a z o) s 0x07 (low va) ∧ ScalarTraps (.sst d a z o) s 0x07 (low va))
      ∧ (∀ w off, s.scratchAt s.cur.team (va.toNat % 2 ^ 32) = some (w, off) → (∃ j, j < n ∧ (s.team w).watched (off + j) = true) →
        ScalarTraps (.sst d a z o) s 0x0F (low va)))
    ∧ ((s.sread a).toNat / 2 ^ 32 = 0xFFFFFFFF → (s.sread a).toNat % 8 = 0 →
      (s.scratchAt s.cur.team ((s.sread a).toNat % 2 ^ 32) = none → ScalarTraps (.satom d a b p) s 0x07 (low (s.sread a)))
      ∧ (∀ w off, s.scratchAt s.cur.team ((s.sread a).toNat % 2 ^ 32) = some (w, off) → (∃ j, j < 8 ∧ (s.team w).watched (off + j) = true) →
        ¬(p = .add ∧ (s.team w).hasCounter off = true) → ScalarTraps (.satom d a b p) s 0x0F (low (s.sread a))))

/-- R106, R118: what a scratch address names. A nonzero bit of [31:29], a window past the gang, a window whose team is not
there, and an offset past the allocation name nothing; window 0 is the team's own allocation. -/
def ScratchAddresses : Prop :=
  ∀ (s : State) (t a : Nat),
    let win := a / 2 ^ 20 % 512
    let off := a % 2 ^ 20
    (2 ^ 29 ≤ a → s.scratchAt t a = none)
    ∧ ((s.team t).size < win → s.scratchAt t a = none)
    ∧ (∀ w x, s.scratchAt t a = some (w, x) → x = off ∧ x < (s.team w).kernel.scrb * 65536
        ∧ (win = 0 → w = t) ∧ (win ≠ 0 → ∃ y, (w, y) ∈ s.teams ∧ y.launch = (s.team t).launch ∧ y.gang = (s.team t).gang ∧ y.gidx = win - 1 ∧ y.lost = false))
    ∧ (a < 2 ^ 20 → off < (s.team t).kernel.scrb * 65536 → s.scratchAt t a = some (t, off))

/-- What `ScalarScratchAccesses`, `ScalarScratchAtomics`, `ScratchAddresses` state, together. -/
def Obligations.ScalarScratch : Prop := ScalarScratchAccesses ∧ ScalarScratchAtomics ∧ ScratchAddresses

/-- R177, R178, R180, R168: a scalar access to global memory ends as the memory does: a value completes it, a fault traps
with the address. -/
def ScalarGlobalAccesses : Prop :=
  ∀ (s u : State) (d a b : BitVec 6) (z : Size) (o : BitVec 12) (p : AOp) (v c : Nat),
    let n := Size.bytes' z
    let va := s.sread a + BitVec.ofInt 64 (o.toInt * n)
    let f : AtomF := .op p .i64 (s.sread b).toNat
    let x : Acc := { core := s.curTeam.core, ctx := s.curTeam.ctx, mode := s.cur.mode, gid := s.curGid }
    let w := Waiter.scalar s.curGid
    (va.toNat / 2 ^ 32 ≠ 0xFFFFFFFF → va.toNat % n = 0 →
      (s.load x w va n 0 .zero false = (.val v, u) →
        ScalarAfter (.sld d a z o) s u d (BitVec.ofNat 64 v)
        ∧ ScalarAfter (.sldx d a z o) s u d (BitVec.ofInt 64 (if 2 ^ (8 * n - 1) ≤ v % 2 ^ (8 * n) then ((v % 2 ^ (8 * n) : Nat) : Int) - 2 ^ (8 * n) else ((v % 2 ^ (8 * n) : Nat) : Int))))
      ∧ (s.load x w va n 0 .zero false = (.fault c, u) →
        exec (.sld d a z o) s = .next (u.scalarTrapIn u.curGid c va) ∧ exec (.sldx d a z o) s = .next (u.scalarTrapIn u.curGid c va))
      ∧ (s.store x w true va n ((s.sread d).toNat % 2 ^ (8 * n)) 0 = (.val v, u) → ScalarPast (.sst d a z o) s u)
      ∧ (s.store x w true va n ((s.sread d).toNat % 2 ^ (8 * n)) 0 = (.fault c, u) → exec (.sst d a z o) s = .next (u.scalarTrapIn u.curGid c va)))
    ∧ ((s.sread a).toNat / 2 ^ 32 ≠ 0xFFFFFFFF → (s.sread a).toNat % 8 = 0 →
      (s.atomic x w (s.sread a) f false false = (.val v, u) → ScalarAfter (.satom d a b p) s u d (BitVec.ofNat 64 v))
      ∧ (s.atomic x w (s.sread a) f false false = (.fault c, u) → exec (.satom d a b p) s = .next (u.scalarTrapIn u.curGid c (s.sread a))))

/-- R105, R119, R178: a scalar access to space 0 or 3 whose words stand valid in the core's L1 under its key: a load reads
its bytes there, and a store changes those bytes of the line alone and leaves their words dirty. -/
def ScalarCachedAccesses : Prop :=
  ∀ (s u : State) (d a : BitVec 6) (z : Size) (o : BitVec 12) (l : Leaf) (p : Nat),
    let n := Size.bytes' z
    let va := s.sread a + BitVec.ofInt 64 (o.toInt * n)
    let k := lineKey l.space l.peer p
    let core := s.curTeam.core
    let x : Acc := { core := core, ctx := s.curTeam.ctx, mode := s.cur.mode, gid := s.curGid }
    let line := fun (m : Mem) => SMap.get ({} : L1Line) m.l1 (l1Key core k)
    let byte := fun (m : Mem) (j : Nat) => ((line m).data.extractLsb' (8 * (p % 128 + j)) 8 : Byte)
    va.toNat / 2 ^ 32 ≠ 0xFFFFFFFF → va.toNat % n = 0 → l.space = 0 ∨ l.space = 3 → p % 128 + n ≤ 128 →
      (s.xlate x va .read = (.ok l p, u) → u.mem.l1Has core k l.key (p % 128) n = true →
        ∃ v : W64, ScalarAfter (.sld d a z o) s u d v ∧ v.toNat < 2 ^ (8 * n) ∧ ∀ j, j < n → byteOf v j = byte u.mem j)
      ∧ (s.xlate x va .write = (.ok l p, u) → u.mem.l1Has core k l.key (p % 128) n = true → l.sro = false →
        ∃ t, ScalarPast (.sst d a z o) s t ∧ t = { u with mem := { u.mem with l1 := t.mem.l1 } }
          ∧ (∀ y, y ≠ l1Key core k → t.mem.l1.find y = u.mem.l1.find y)
          ∧ line t.mem = { line u.mem with data := (line t.mem).data, dirty := (line u.mem).dirty ||| wordMask (p % 128) n }
          ∧ ∀ i, i < 128 → ((line t.mem).data.extractLsb' (8 * i) 8 : Byte)
              = if p % 128 ≤ i ∧ i < p % 128 + n then byteOf (s.sread d) (i - p % 128) else (line u.mem).data.extractLsb' (8 * i) 8)

/-- What `ScalarGlobalAccesses`, `ScalarCachedAccesses` state, together.
Where the manual leaves a point open, the clause is the model's choice: log entries 20, 81. -/
def Obligations.ScalarGlobalMemory : Prop := ScalarGlobalAccesses ∧ ScalarCachedAccesses

/-! ## Decision queue and group end (chapter 8) -/

/-- A group's lane stream is idle: no trap handler runs and every split that is left waits at NEXT (R158). -/
def LaneIdle (g : Group) : Prop := g.tslot = none ∧ ∀ p ∈ g.splits, p.2.mode = .waitNext

/-- R160, R161, R162, R165: LRUN and LRUNR check the start, wait while the queue holds 8 entries, and otherwise enqueue
the start with four arguments copied now; LQUIET waits until the queue is empty and the lane stream is idle, and then each
mailbox's value is its value at the last LQUIET. Where no live thread remains and the lane stream is idle, the group ends. -/
def DecisionQueueCommands : Prop :=
  ∀ (s : State) (d a : BitVec 6) (i : BitVec 20),
    let lunits := s.curTeam.kernel.lunits
    let live := ∃ p ∈ s.cur.thr, p.2.life = .live
    let args := if d = 0 then [0, 0, 0, 0] else [s.sread d, s.sread (d + 1), s.sread (d + 2), s.sread (d + 3)]
    let enters := fun (j : Instr) (n : W64) => ∃ t, exec j s = .next t ∧ OnlyGroup s.curGid s t
      ∧ t.cur = { s.cur with queue := s.cur.queue ++ [{ start := BitVec.ofNat 32 n.toNat, args := args }], runs := s.cur.runs + 1,
                              spc := s.cur.spc + 4, swait := none }
    let ends := fun (j : Instr) => exec j s = .next (s.endGroup s.curGid true)
    (lunits ≤ i.toNat → ScalarTraps (.lrun d i) s 0x07 (BitVec.ofNat 64 i.toNat))
    ∧ (lunits ≤ (s.sread a).toNat ∨ 2 ^ 20 ≤ (s.sread a).toNat → ScalarTraps (.lrunr d a) s 0x07 (s.sread a))
    ∧ (i.toNat < lunits →
      (¬live → LaneIdle s.cur → ends (.lrun d i))
      ∧ (live ∨ ¬LaneIdle s.cur → 8 ≤ s.cur.queue.length → ScalarWaits (.lrun d i) s)
      ∧ (live ∨ ¬LaneIdle s.cur → s.cur.queue.length < 8 → enters (.lrun d i) (BitVec.ofNat 64 i.toNat)))
    ∧ ((s.sread a).toNat < lunits → (s.sread a).toNat < 2 ^ 20 →
      (¬live → LaneIdle s.cur → ends (.lrunr d a))
      ∧ (live ∨ ¬LaneIdle s.cur → 8 ≤ s.cur.queue.length → ScalarWaits (.lrunr d a) s)
      ∧ (live ∨ ¬LaneIdle s.cur → s.cur.queue.length < 8 → enters (.lrunr d a) (s.sread a)))
    ∧ (¬(LaneIdle s.cur ∧ s.cur.queue = []) → ScalarWaits .lquiet s)
    ∧ (LaneIdle s.cur → s.cur.queue = [] → ¬live → ends .lquiet)
    ∧ (LaneIdle s.cur → s.cur.queue = [] → live →
      ∃ t, exec .lquiet s = .next t ∧ OnlyGroup s.curGid s t
        ∧ t.cur = { s.cur with mbox := t.cur.mbox, spc := s.cur.spc + 4, swait := none }
        ∧ ∀ n, t.cur.mbox.find n = (s.cur.mbox.find n).map fun m => { cur := m.cur, quiet := m.cur, since := [] })

/-- What `ScalarMailboxRead`, `DecisionQueueCommands` state, together.
Where the manual leaves a point open, the clause is the model's choice: log entry 45. -/
def Obligations.MailboxesAndDecisionQueue : Prop := ScalarMailboxRead ∧ DecisionQueueCommands

/-- R162, R46, R344: a group that ends stops both streams, drops its queue and its far results and leaves every lane; the
threads, registers and mailboxes it had stay as they are, and so do the other groups but for what their waits have seen.
An illegal instruction also sets the context's ILLEGAL bit; the group ends so, marked as killed, once no other lane is in the
middle of an instruction of it, and until then keeps the splits that are. -/
def Obligations.GroupEnds : Prop :=
  ∀ (s : State) (g : Nat) (leave : Bool), (s.groups.find g).isSome → (s.group g).ended = false →
    let t := s.endGroup g leave
    let x := t.group g
    x = { s.group g with ended := true, splits := [], tslot := none, queue := [], swait := none, sparked := none, far := [],
                         tags := [], jobs := [] }
    ∧ (∀ h, h ≠ g → t.groups.find h = s.groups.find h ∨ t.groups.find h = (s.groups.find h).map fun y => wakeGroup s.timeNs (y.takes (t.team (s.group g).team)))
    ∧ (∀ p ∈ t.lanePairs, p.2.lane0.map Prod.fst ≠ some g ∧ p.2.lane1.map Prod.fst ≠ some g)
    ∧ t.mem = s.mem ∧ t.contexts = s.contexts ∧ t.fabric = s.fabric
    ∧ ((s.killGroup g).context (s.ctxOf g)).illegal = true
    ∧ (s.midway g = false → (s.killGroup g).group g = { x with killed := true, dying := false })
    ∧ (s.midway g = true → (s.killGroup g).group g = { s.group g with
        dying := true, queue := [], swait := none, sparked := none, splits := (s.group g).splits.filter fun p => p.2.midway })

/-! ## Scalar traps and system registers (chapter 20) -/

/-- R45, R392: in user mode a privileged scalar instruction raises PRIV_VIOLATION with TVAL 0 and does nothing of its
effect. -/
def ScalarPrivilege : Prop :=
  ∀ (s : State) (a d : BitVec 6) (i : Instr), s.cur.mode = .user →
    i ∈ [.srd d a, .swr a d, .tlbiVa a d, .tlbiCtx a d, .tlbiPasid a d, .tlbiAll a d, .pgctlPin a d, .pgctlUnpin a d, .pgctlEvict a d,
      .pgctlWb a d, .pgctlCarve a d, .pgctlUncarve a d, .leaseopRead a d, .leaseopGrant a d, .leaseopRenew a d, .leaseopRelease a d,
      .leaseopRevoke a d, .leaseopLost a d, .leaseopHint a d, .shalt a d, .keyopLoad a d, .keyopUnload a d] →
    ScalarTraps i s 0x02 0

/-- A cause of the user class, raised in user mode, goes to the user vector (R393, Table 20-1). -/
def GoesToUser (m : Mode) (cause : Nat) : Prop := cause ∈ [0x03, 0x04, 0x05, 0x10, 0x14, 0x15] ∧ m = .user

/-- R402, R393, R408: a scalar trap. At level 2, and for a user vector of 0, the context is killed. Otherwise the level
rises, the new bank holds cause, address, value and s57 to s60, these take the trap arguments, and the stream goes on at
the user vector in user mode or in ROM in privileged mode; nothing else changes. STRAP raises SOFTWARE_TRAP with its
immediate (R405). -/
def ScalarTrapEntry : Prop :=
  ∀ (s : State) (gid cause : Nat) (val : W64), cause < 64 →
    let g := s.group gid
    let vec := (s.context (s.ctxOf gid)).tvecUs
    let t := s.scalarTrapIn gid cause val
    let h := t.group gid
    let word : W64 := BitVec.ofNat 64 (cause + 65536 + if g.mode = .priv then 131072 else 0)
    let bank : SBank := { cause := word, pc := g.spc, val := val, saved := [g.sread 57, g.sread 58, g.sread 59, g.sread 60] }
    (2 ≤ g.stlevel ∨ (GoesToUser g.mode cause ∧ vec = 0) → t = s.killContext (s.ctxOf gid) cause)
    ∧ (g.stlevel < 2 → ¬(GoesToUser g.mode cause ∧ vec = 0) →
      OnlyGroup gid s t
      ∧ h = { g with sreg := h.sreg, st1 := h.st1, st2 := h.st2, stlevel := g.stlevel + 1, mode := h.mode, srom := h.srom, spc := h.spc,
                     swait := none }
      ∧ (GoesToUser g.mode cause → h.mode = .user ∧ h.srom = false ∧ h.spc = vec)
      ∧ (¬GoesToUser g.mode cause → h.mode = .priv ∧ h.srom = true)
      ∧ (g.stlevel = 0 → h.st1 = bank ∧ h.st2 = g.st2) ∧ (g.stlevel = 1 → h.st2 = bank ∧ h.st1 = g.st1)
      ∧ ∀ r, h.sread r = if r = 57 then word else if r = 58 then val else if r = 59 then g.spc
          else if r = 60 then BitVec.ofNat 64 (g.stlevel + 1) else g.sread r)
    ∧ ∀ i : BitVec 20, ScalarTraps (.strap i) s 0x14 (BitVec.ofNat 64 i.toNat)

/-- R403: STRET restores s57 to s60 and the mode from the level's bank, lowers the level and goes on at the bank's
address, after it under skip, or parked under park. In user mode it passes only at a level entered through the user
vector, and PARK is illegal there. -/
def ScalarTrapReturn : Prop :=
  ∀ s : State,
    let g := s.cur
    let bank := if g.stlevel = 1 then g.st1 else g.st2
    let viaUser := GoesToUser (if bank.cause.getLsbD 17 then .priv else .user) (bank.cause.toNat % 64)
    let may := g.stlevel ≠ 0 ∧ (g.mode = .priv ∨ viaUser)
    let back := fun (i : Instr) (pc : W64) (park : Option Nat) =>
      ∃ t, exec i s = .next t ∧ OnlyGroup s.curGid s t
        ∧ t.cur = { g with sreg := t.cur.sreg, stlevel := g.stlevel - 1, mode := if bank.cause.getLsbD 17 then .priv else .user,
                           srom := false, spc := pc, swait := none, sparked := park }
        ∧ ∀ r : BitVec 6, t.sread r = if 57 ≤ r.toNat ∧ r.toNat ≤ 60 then bank.saved.getD (r.toNat - 57) 0 else s.sread r
    (may → back .stret bank.pc none ∧ back .stretSkip (bank.pc + 4) none)
    ∧ (may → g.mode = .priv → back .stretPark bank.pc (some (bank.cause.toNat % 64)))
    ∧ (g.mode = .user → g.stlevel ≠ 0 → viaUser → exec .stretPark s = .next (s.killGroup s.curGid))
    ∧ (g.mode = .user → (g.stlevel = 0 ∨ ¬viaUser) → ScalarTraps .stret s 0x02 0 ∧ ScalarTraps .stretSkip s 0x02 0 ∧ ScalarTraps .stretPark s 0x02 0)
    ∧ (g.mode = .priv → g.stlevel = 0 → exec .stret s = .fault .returnAtLevelZero ∧ exec .stretSkip s = .fault .returnAtLevelZero
      ∧ exec .stretPark s = .fault .returnAtLevelZero)

/-- What `ScalarTrapEntry`, `ScalarTrapReturn` state, together. -/
def Obligations.ScalarTraps : Prop := ScalarTrapEntry ∧ ScalarTrapReturn

/-- Table 20-4 (R397, R409, R4): what SRD reads at each index, and what SWR writes: the trap banks' PC and value, CTXSTAT
whose ones clear, TAKE, and the teams PREEMPT stops; a write to any other index but PGRESP has no effect. -/
def ScalarSystemRegisters : Prop :=
  ∀ (s : State) (d : BitVec 6), s.cur.mode = .priv →
    let g := s.cur
    let c := s.context s.curTeam.ctx
    let bit := fun (b : Bool) (n : Nat) => if b then 2 ^ n else 0
    let rd := fun (i : Nat) (v : W64) => ScalarGives (.srd d (BitVec.ofNat 6 i)) s d v
    let v := s.sread d
    let wr := fun (i : Nat) (h : Group) => ∃ t, exec (.swr d (BitVec.ofNat 6 i)) s = .next t ∧ OnlyGroup s.curGid s t
      ∧ t.cur = { h with spc := g.spc + 4, swait := none }
    rd 0 (BitVec.ofNat 64 g.stlevel) ∧ rd 1 g.st1.cause ∧ rd 2 g.st1.pc ∧ rd 3 g.st1.val ∧ rd 4 g.st2.cause ∧ rd 5 g.st2.pc
    ∧ rd 6 g.st2.val ∧ (∀ i, i < 64 → i = 7 ∨ 11 ≤ i → rd i 0)
    ∧ rd 8 (BitVec.ofNat 64 (bit c.illegal 0 + bit c.latch 1 + bit c.fabric 2 + bit c.killed 3 + c.cause.toNat * 2 ^ 8))
    ∧ rd 9 s.pager.base ∧ rd 10 (BitVec.ofNat 64 (s.pager.put.toNat * 2 ^ 32 + s.pager.take.toNat))
    ∧ wr 2 { g with st1 := { g.st1 with pc := v } } ∧ wr 3 { g with st1 := { g.st1 with val := v } }
    ∧ wr 5 { g with st2 := { g.st2 with pc := v } } ∧ wr 6 { g with st2 := { g.st2 with val := v } }
    ∧ (∀ i, i < 64 → i ∉ [2, 3, 5, 6, 8, 10, 11, 12] → wr i g)
    ∧ (∀ i : BitVec 6, (∃ t, exec (.srd d i) s = .next t ∧ t.cur.spc = g.spc + 4) ∧ ∃ t, exec (.swr d i) s = .next t)
    ∧ (∃ u, ScalarPast (.swr d 8) s u ∧ u = { s with contexts := u.contexts }
      ∧ (∀ x, x ≠ s.curTeam.ctx → u.contexts.find x = s.contexts.find x)
      ∧ u.context s.curTeam.ctx = { c with
          illegal := c.illegal && !v.getLsbD 0, latch := c.latch && !v.getLsbD 1, fabric := c.fabric && !v.getLsbD 2,
          killed := c.killed && !v.getLsbD 3, cause := c.cause &&& ~~~(v.extractLsb' 8 6) })
    ∧ (s.pager.waiting = [] → ScalarPast (.swr d 10) s { s with pager := { s.pager with take := BitVec.ofNat 32 v.toNat } })
    ∧ (∀ n, (∀ p ∈ s.teams, ¬(p.2.core = v.toNat / 2 ^ 16 % 512 ∧ p.2.tslot = v.toNat % 16 ∧ p.2.saved = false ∧ p.2.lost = false)
          ∨ p.1 = n) → (s.teams.any fun p => decide (p.1 = n ∧ p.2.core = v.toNat / 2 ^ 16 % 512 ∧ p.2.tslot = v.toNat % 16 ∧ p.2.saved = false ∧ p.2.lost = false)) = true →
        ((s.team n).stopping = true → ScalarPast (.swr d 12) s s)
        ∧ ((s.team n).stopping = false → ∃ u, ScalarPast (.swr d 12) s u ∧ u = { s with teams := u.teams, jobs := u.jobs }
          ∧ (∀ x, x ≠ n → u.teams.find x = s.teams.find x) ∧ u.team n = { s.team n with stopping := true }
          ∧ ∀ x, u.jobs.find x = (s.jobs.find x).map fun j => if j.team = n ∧ j.st = 1 ∧ j.closed = false then
              { j with st := 4, pend := j.pend ++ [{ j with st := 4 }.image] } else j))

/-- What `ScalarPrivilege`, `ScalarSystemRegisters` state, together.
Where the manual leaves a point open, the clause is the model's choice: log entry 46. -/
def Obligations.ScalarPrivileged : Prop := ScalarPrivilege ∧ ScalarSystemRegisters

/-! ## Synchronisation (chapters 5, 7, 15, 17) -/

/-- Every run the group has enqueued has ended, and its atomics have been performed (R339). -/
def RunsOver (s : State) : Prop := LaneIdle s.cur ∧ s.cur.queue = [] ∧ s.atomsOut s.curGid = false

/-- R340 to R343, R345: barriers. BARA arrives: its MASK bit sets and ARRIVED counts it; the last arrival
completes the phase, which advances PHASE and clears ARRIVED and MASK, EXPECTED staying; sd takes the phase it arrived in.
BAR completes at once where its arrival is the last. BARW returns the phase once it is 1 to 2^31 - 1 past its token. -/
def Barriers : Prop :=
  ∀ (s : State) (d a : BitVec 6) (b : Fin 16),
    (s.curTeam.kernel.bars ≤ b.val → ∀ i ∈ [Instr.bara d b, .barw a d b, .bar d b], exec i s = .next (s.killGroup s.curGid))
    ∧ (b.val < s.curTeam.kernel.bars →
    let t := s.curTeam
    let w := s.cur.team
    let g := s.cur.idx
    let ph := t.phase b
    let n := t.arrived b + 1
    let past := (ph + 2 ^ 32 - (s.sread a).toNat % 2 ^ 32) % 2 ^ 32
    (RunsOver s → (t.bmask b).getLsbD g = false → n < 64 →
      ∃ u u', OnlyTeam w s u ∧ Woken u u' w
        ∧ u.team w = { t with scratch := (u.team w).scratch } ∧ ScratchKept t (u.team w) (16 * b) 16
        ∧ (u.team w).expected b = t.expected b
        ∧ (n = t.expected b → (u.team w).phase b = (ph + 1) % 2 ^ 32 ∧ (u.team w).arrived b = 0 ∧ (u.team w).bmask b = 0)
        ∧ (n ≠ t.expected b → (u.team w).phase b = ph ∧ (u.team w).arrived b = n ∧ (u.team w).bmask b = t.bmask b ||| (1#32 <<< g))
        ∧ ScalarAfter (.bara d b) s u' d (BitVec.ofNat 64 ph)
        ∧ (n = t.expected b → ScalarAfter (.bar d b) s u' d (BitVec.ofNat 64 ((ph + 1) % 2 ^ 32)))
        ∧ (n ≠ t.expected b → ScalarWaitsIn (.bar d b) s u'))
    ∧ (¬RunsOver s ∨ (t.bmask b).getLsbD g = true → ScalarWaits (.bara d b) s ∧ ScalarWaits (.bar d b) s)
    ∧ (1 ≤ past → past < 2 ^ 31 → ScalarGives (.barw a d b) s d (BitVec.ofNat 64 ph))
    ∧ (past = 0 ∨ 2 ^ 31 ≤ past → ScalarWaits (.barw a d b) s))

/-- R336, R337, R339: FENCE. An acquire at .grp and .team changes nothing; at .gang and .dev it invalidates the words of the
core's L1 that are neither owned nor dirty. A release waits for the runs enqueued before it and their atomics, and then, at .grp and .team,
changes nothing but the PC, and at .gang and .dev writes the core's dirty words home. -/
def Fences : Prop :=
  ∀ (s : State) (sc : Scope) (k : FKind),
    let core := s.curTeam.core
    (sc = .grp ∨ sc = .team → k = .acq ∨ RunsOver s → ScalarPast (.fence sc k) s s)
    ∧ (k ≠ .acq → ¬RunsOver s → ScalarWaits (.fence sc k) s)
    ∧ (sc = .gang ∨ sc = .dev →
      ∃ u, ScalarPast (.fence sc .acq) s u ∧ u = { s with mem := { s.mem with l1 := u.mem.l1 } }
        ∧ ∀ x, u.mem.l1.find x = (s.mem.l1.find x).map fun y =>
            if x / 2 ^ 90 = core then { y with valid := y.valid &&& (y.owned ||| y.dirty) } else y)
    ∧ (sc = .gang ∨ sc = .dev → RunsOver s →
      ScalarPast (.fence sc .rel) s { s with mem := s.mem.l1Publish core }
      ∧ ∃ u, ScalarPast (.fence sc .full) s u ∧ u = { s with mem := { (s.mem.l1Publish core) with l1 := u.mem.l1 } }
        ∧ ∀ x, u.mem.l1.find x = ((s.mem.l1Publish core).l1.find x).map fun y =>
            if x / 2 ^ 90 = core then { y with valid := y.valid &&& (y.owned ||| y.dirty) } else y)
    ∧ (∃ u, ScalarPast (.fence .sys .acq) s u ∧ u = { s with mem := { s.mem with l1 := u.mem.l1, l2 := u.mem.l2 }, contexts := u.contexts }
      ∧ (∀ x, u.mem.l1.find x = (s.mem.l1.find x).map fun y =>
          if x / 2 ^ 90 = core then { y with valid := y.valid &&& (y.owned ||| y.dirty) } else y)
      ∧ ∀ x y, u.mem.l2.find x = some y → lineSpace x = 1 → y.dirty = true)
    ∧ (RunsOver s →
      (s.releaseAt core .sys).releaseDone s.curTeam.ctx .sys = true →
      ScalarPast (.fence .sys .rel) s ((s.releaseAt core .sys).raiseRt s.curTeam.ctx))

/-- R347, R410: SLEEPS with no deadline and no event returns 2, SLEEPS returns 0 at a deadline already reached, and
waits otherwise; SHALT, in privileged mode, returns 0 at a deadline already reached and waits otherwise. -/
def ScalarSleeps : Prop :=
  ∀ (s : State) (a d : BitVec 6) (e : Bool),
    let due := (s.sread a).toNat
    (due = 0 → ScalarGives (.sleeps a d false) s d 2)
    ∧ (due ≠ 0 → due ≤ s.timeNs.toNat → ScalarGives (.sleeps a d e) s d 0)
    ∧ (due ≠ 0 ∨ e = true → due = 0 ∨ s.timeNs.toNat < due → ScalarWaits (.sleeps a d e) s)
    ∧ (s.cur.mode = .priv → due ≠ 0 → due ≤ s.timeNs.toNat → ScalarGives (.shalt a d) s d 0)
    ∧ (s.cur.mode = .priv → due = 0 ∨ s.timeNs.toNat < due → ScalarWaits (.shalt a d) s)

/-- What `Barriers`, `Fences`, `ScalarSleeps` state, together.
Where the manual leaves a point open, the clause is the model's choice: log entry 86. -/
def Obligations.ScalarOrdering : Prop := Barriers ∧ Fences ∧ ScalarSleeps

/-- R303, R112: ACSET. A field out of range gives BAD_OPERAND, an overlap with another watched object WATCH_OVERLAP. Where
a watch-table entry is free it registers the counter with COUNT 0, the new TARGET and ERR 0, and under WIN it enters the
window under the context's tag in place of the team's own earlier one. -/
def ArrivalCounterSet : Prop :=
  ∀ (s : State) (a d : BitVec 6),
    let w0 := (s.sread a).toNat
    let w1 := s.sread (a + 1)
    let w2 := (s.sread (a + 2)).toNat
    let t := s.curTeam
    let off := w0 % 2 ^ 20
    let wtag := w0 / 2 ^ 20 % 2 ^ 16
    let win := w0 / 2 ^ 36 % 2 = 1
    let base := w2 % 2 ^ 20
    let len := w2 / 2 ^ 20 % 2 ^ 20
    let ftag := (s.context t.ctx).ftag
    let good := w0 < 2 ^ 37 ∧ off % 16 = 0 ∧ 256 ≤ off ∧ off + 32 ≤ t.kernel.scrb * 65536
      ∧ (win → w2 < 2 ^ 40 ∧ base % 16 = 0 ∧ len % 16 = 0 ∧ 16 ≤ len ∧ len ≤ 917504 ∧ base + len ≤ t.kernel.scrb * 65536)
    let own := fun (w : Watch) => w.kind = .counter ∧ w.off = off
    let apart := ∀ w ∈ t.watch, own w ∨ w.off + w.len ≤ off ∨ off + 32 ≤ w.off
    (¬good → ScalarGives (.acset a d) s d 0x10)
    ∧ (good → ¬apart → ScalarGives (.acset a d) s d 0x14)
    ∧ (good → apart → (∃ w ∈ t.watch, own w) ∨ s.watchUsed t.core < 64 →
      (∀ x ∈ s.fabric.windows, win → x.ftag = ftag → x.wtag = wtag → x.team = s.cur.team) →
      (win → (∃ x ∈ s.fabric.windows, x.ftag = ftag ∧ x.wtag = wtag) ∨ s.fabric.windows.length < 4096) →
      ∃ u u', ScalarAfter (.acset a d) s u' d 0 ∧ Woken u u' s.cur.team
        ∧ u = { s with teams := u.teams, fabric := { s.fabric with windows := u.fabric.windows } }
        ∧ (∀ x, x ≠ s.cur.team → u.teams.find x = s.teams.find x)
        ∧ u.curTeam = { t with watch := u.curTeam.watch, scratch := u.curTeam.scratch }
        ∧ ((∃ w ∈ t.watch, own w) → u.curTeam.watch = t.watch)
        ∧ ((¬∃ w ∈ t.watch, own w) → u.curTeam.watch = t.watch ++ [{ kind := .counter, off := off, len := 32 }])
        ∧ ScratchKept t u.curTeam off 32
        ∧ Spells u.curTeam.scratch off 8 0 ∧ Spells u.curTeam.scratch (off + 8) 8 w1 ∧ Spells u.curTeam.scratch (off + 16) 8 0
        ∧ Spells u.curTeam.scratch (off + 24) 8 0
        ∧ (¬win → u.fabric.windows = s.fabric.windows)
        ∧ (win → ∀ x, x ∈ u.fabric.windows ↔ (x ∈ s.fabric.windows ∧ ¬(x.ftag = ftag ∧ x.wtag = wtag))
            ∨ x = { ftag := ftag, wtag := wtag, team := s.cur.team, counter := off, base := base, len := len }))

/-- R304: ACWAIT of an offset that is no arrival counter of the team gives BAD_OPERAND; of a counter whose ERR is set,
OVERRUN; of one whose COUNT has reached TARGET, OK; otherwise the stream waits. -/
def ArrivalCounterWait : Prop :=
  ∀ (s : State) (a d : BitVec 6) (count target err : W64),
    let off := (s.sread a).toNat
    let t := s.curTeam
    let known := off < 2 ^ 20 ∧ ∃ w ∈ t.watch, w.kind = .counter ∧ w.off = off
    (¬known → ScalarGives (.acwait a d) s d 0x10)
    ∧ (known → Spells t.scratch off 8 count → Spells t.scratch (off + 8) 8 target → Spells t.scratch (off + 16) 8 err →
      (err.getLsbD 0 = true → ScalarGives (.acwait a d) s d 0x20)
      ∧ (err.getLsbD 0 = false → target.toNat ≤ count.toNat → ScalarGives (.acwait a d) s d 0)
      ∧ (err.getLsbD 0 = false → count.toNat < target.toNat → ScalarWaits (.acwait a d) s))

/-- What `ArrivalCounterSet`, `ArrivalCounterWait` state, together. -/
def Obligations.ArrivalCounters : Prop := ArrivalCounterSet ∧ ArrivalCounterWait

/-- R110, R144, R147, R148: RAWAIT returns the position, slot and status once the slot at its lookahead has completed, and
waits until then; RREL frees completed slots and advances RPTR, or gives UNDERFLOW. `h` is the ring's header, `r` and `p`
its RPTR and WPTR. -/
def RingWaitAndRelease : Prop :=
  ∀ (s : State) (a d : BitVec 6) (h : Nat),
    let w := (s.sread a).toNat
    let ring := w % 16
    let n := w / 256
    let t := s.curTeam
    let r := t.rptr h
    let p := t.wptr h
    let used := (p + 2 ^ 32 - r) % 2 ^ 32
    let pos := (r + n) % 2 ^ 32
    w < 2 ^ 16 → w / 16 % 16 = 0 → ring < t.kernel.rings → t.ring? ring = some h → n < t.slots h →
      (n < used → ScalarGives (.rawait a d) s d
          (BitVec.ofNat 64 (pos * 2 ^ 32 + pos % t.slots h * 2 ^ 8 + t.slotStatus h (pos % t.slots h))))
      ∧ (used ≤ n → ScalarWaits (.rawait a d) s)
      ∧ (used ≤ n → ScalarGives (.rrel a d) s d 0x16)
      ∧ (n < used →
        ∃ u u', ScalarAfter (.rrel a d) s u' d 0 ∧ Woken u u' s.cur.team ∧ OnlyTeam s.cur.team s u
          ∧ u.curTeam = { t with scratch := u.curTeam.scratch } ∧ ScratchKept t u.curTeam h (ringLen (t.slots h))
          ∧ u.curTeam.rptr h = (r + n + 1) % 2 ^ 32
          ∧ ∀ j, j ≤ n → Spells u.curTeam.scratch (h + 32 + 4 * ((r + j) % t.slots h)) 4 0)

/-- R138, R146, Table 7-3: the ring commands on operands out of range: a reserved bit, a ring the kernel does not have or
that is not initialised, a lookahead past its slots. -/
def RingCommandChecks : Prop :=
  ∀ (s : State) (a d : BitVec 6),
    let w := (s.sread a).toNat
    let t := s.curTeam
    let both := fun (c : W64) => ScalarGives (.rawait a d) s d c ∧ ScalarGives (.rrel a d) s d c
    (2 ^ 16 ≤ w ∨ w / 16 % 16 ≠ 0 → both 0x10)
    ∧ (w < 2 ^ 16 → w / 16 % 16 = 0 → (t.kernel.rings ≤ w % 16 ∨ t.ring? (w % 16) = none) → both 0x11)
    ∧ (∀ h, w < 2 ^ 16 → w / 16 % 16 = 0 → w % 16 < t.kernel.rings → t.ring? (w % 16) = some h → t.slots h ≤ w / 256 → both 0x10)

/-- R146, R110: RINIT of a ring the kernel has, at an extent of its own, registers the ring with its slots free, its
pointers and its status words zero and its operands in the header, in place of the ring of that number and of a ring at that
offset. Where one of these is busy it gives BUSY and changes nothing. -/
def RingInit : Prop :=
  ∀ (s : State) (a d : BitVec 6),
    let w0 := (s.sread a).toNat
    let w1 := s.sread (a + 1)
    let w2 := s.sread (a + 2)
    let t := s.curTeam
    let off := w0 % 2 ^ 20
    let ring := w0 / 2 ^ 20 % 16
    let len := (32 + 4 * (w1.toNat / 2 ^ 24 % 256 + 1) + 15) / 16 * 16
    let good := w0 < 2 ^ 24 ∧ off % 16 = 0 ∧ 256 ≤ off ∧ w1.toNat % 2 ^ 24 ≠ 0 ∧ w1.toNat / 2 ^ 32 % 2 ^ 8 = 0 ∧ w1.toNat < 2 ^ 41
    let taken := fun (w : Watch) => ∃ r, w.kind = .ring r ∧ (r = ring ∨ w.off = off)
    let busy := ∃ w ∈ t.watch, taken w ∧ ∃ i, i < t.slots w.off ∧ (t.slotState w.off i = 1 ∨ t.slotState w.off i = 3)
    (¬good → ScalarGives (.rinit a d) s d 0x10)
    ∧ (good → t.kernel.rings ≤ ring → ScalarGives (.rinit a d) s d 0x11)
    ∧ (good → ring < t.kernel.rings → busy → ScalarGives (.rinit a d) s d 0x17)
    ∧ (good → ring < t.kernel.rings → ¬busy → off + len ≤ t.kernel.scrb * 65536 →
      (∀ w ∈ t.watch, ((∃ r, w.kind = .ring r) ∧ w.off = off) ∨ w.off + w.len ≤ off ∨ off + len ≤ w.off) →
      ∃ u u', ScalarAfter (.rinit a d) s u' d 0 ∧ Woken u u' s.cur.team ∧ OnlyTeam s.cur.team s u
        ∧ u.curTeam = { t with watch := u.curTeam.watch, ringsFree := u.curTeam.ringsFree, scratch := u.curTeam.scratch }
        ∧ u.curTeam.ring? ring = some off
        ∧ (∀ r, r ≠ ring → (t.ring? r = some off → u.curTeam.ring? r ≠ some off) ∧ (t.ring? r ≠ some off → u.curTeam.ring? r = t.ring? r))
        ∧ (∀ w, w ∈ u.curTeam.watch ↔ (w ∈ t.watch ∧ ¬taken w) ∨ w = { kind := .ring ring, off := off, len := len })
        ∧ ScratchKept t u.curTeam off len
        ∧ Spells u.curTeam.scratch off 8 0 ∧ Spells u.curTeam.scratch (off + 8) 8 w1 ∧ Spells u.curTeam.scratch (off + 16) 8 w2
        ∧ ∀ j, j < w1.toNat / 2 ^ 24 % 256 + 1 → Spells u.curTeam.scratch (off + 32 + 4 * j) 4 0)

/-- What `RingWaitAndRelease`, `RingCommandChecks`, `RingInit` state, together.
Where the manual leaves a point open, the clause is the model's choice: log entries 40, 47. -/
def Obligations.RingCommands : Prop := RingWaitAndRelease ∧ RingCommandChecks ∧ RingInit

/-! ## Engine commands (chapters 3, 4, 7, 15, 16, 18) -/

/-- The checks of R138 on a slice block b of a team, in their order: the first that fails, or 0. `c`: the open copy it joins. -/
def SliceStatus (t : Team) (b : Nat → W64) (c : Option Copy) (v : Nat) : Prop :=
  let w := (b 3).toNat
  let slot := w % 256
  let ring := w / 256 % 16
  let rows := (b 2).toNat % 2 ^ 16
  let units := (b 2).toNat / 2 ^ 16 % 2 ^ 24
  let bad := 2 ^ 21 ≤ w ∨ (b 3).getLsbD 12 = true ∨ w / 2 ^ 16 % 4 = 3 ∨ (b 0).toNat % 16 ≠ 0 ∨ (b 1).toNat % 16 ≠ 0
    ∨ ((b 3).getLsbD 18 = true ∧ 2 ^ 32 ≤ (b 0).toNat) ∨ ((b 3).getLsbD 19 = true ∧ 2 ^ 32 ≤ (b 1).toNat) ∨ (rows ≠ 0 ∧ units = 0)
  (bad → v = 0x10)
  ∧ (¬bad → t.kernel.rings ≤ ring ∨ t.ring? ring = none → v = 0x11)
  ∧ ∀ h, ¬bad → ring < t.kernel.rings → t.ring? ring = some h →
    (t.slots h ≤ slot → v = 0x10)
    ∧ (slot < t.slots h →
      (c = none → (t.slotState h slot ≠ 0 → v = 0x12) ∧ (t.slotState h slot = 0 → v = 0))
      ∧ ∀ y, c = some y →
        let same := y.ring = ring ∧ y.slot = slot ∧ y.stream = (b 3).getLsbD 14 ∧ y.close = (b 3).getLsbD 15
        (¬same → v = 0x13) ∧ (same → v = 0))

/-- R136, R138, R139: CPYC whose copy is open, or for which an entry is free, takes its slice: the first failing check of
R138 is the status, the slice counts either way, empty where it is rejected or has no rows, and the group's copy number rises; a
slice that opens a copy fixes its ring, slot, STREAM and CLOSE and puts the slot in STATE 1. Without an entry the stream waits. -/
def CopySlices : Prop :=
  ∀ (s : State) (a d : BitVec 6),
    let b := [s.sread a, s.sread (a + 1), s.sread (a + 2), s.sread (a + 3)]
    let t := s.curTeam
    let w := s.cur.team
    let n := s.cur.copies
    let opened := ((t.copy? n).map (·.opened)).getD false
    let w3 := s.sread (a + 3)
    let slot := w3.toNat % 256
    let ring := w3.toNat / 256 % 16
    let free := (t.copies.filter (·.opened)).length < t.kernel.copyq
    let old := ((t.copy? n).map (·.slices)).getD []
    let none_ := (s.sread (a + 2)).toNat % 2 ^ 16 = 0
    (opened = false → ¬free → ScalarWaits (.cpyc a d) s)
    ∧ (opened = true ∨ free →
      ∃ u v, ScalarAfter (.cpyc a d) s u d (BitVec.ofNat 64 v) ∧ u = { s with teams := u.teams, groups := u.groups }
        ∧ (∀ x, x ≠ w → u.teams.find x = s.teams.find x)
        ∧ (∀ x, x ≠ s.curGid → u.groups.find x = s.groups.find x ∨ u.groups.find x = (s.groups.find x).map fun y => wakeGroup s.timeNs (y.takes u.curTeam))
        ∧ u.curTeam = { t with copies := u.curTeam.copies, scratch := u.curTeam.scratch }
        ∧ u.cur = { s.cur with copies := n + 1, swait := u.cur.swait, splits := u.cur.splits, tslot := u.cur.tslot }
        ∧ SliceStatus t (fun j => s.sread (a + BitVec.ofNat 6 j)) ((t.copy? n).filter (·.opened)) v
        ∧ (v ≠ 0 ∨ opened = true → u.curTeam.scratch = t.scratch)
        ∧ (v = 0 → ∃ c y, u.curTeam.copy? n = some c ∧ c.opened = true ∧ c.slices = old ++ [y]
          ∧ y = { grp := s.curGid, blk := b, empty := decide none_, ended := decide none_ }
          ∧ c.ring = ring ∧ c.slot = slot ∧ c.stream = w3.getLsbD 14 ∧ c.close = w3.getLsbD 15)
        ∧ (v ≠ 0 → (opened = false ∧ u.curTeam.copy? n = none) ∨ ∃ c y, u.curTeam.copy? n = some c ∧ c.opened = opened ∧ c.slices = old ++ [y]
          ∧ y = { grp := s.curGid, blk := b, empty := true, rejected := true, ended := true })
        ∧ (∀ m c, m ≠ n → t.copy? m = some c → c.opened = true → u.curTeam.copy? m = some c)
        ∧ (∀ h, v = 0 → t.ring? ring = some h → opened = false → u.curTeam.slotState h slot = 1
          ∧ ScratchKept t u.curTeam (h + 32 + 4 * slot + 1) 1))

/-- R145, R95: CPYCLOSE ends every bank-group reservation of the team, whose copies go on as ordinary accesses; sd counts
them in its bits from 8 up. -/
def CopyClose : Prop :=
  ∀ (s : State) (d : BitVec 6),
    let w := s.cur.team
    let mine := fun (c : Copy) => s.mem.bankRes.any fun r => decide (r.team = w) && decide (r.copy = c.num)
    let ends := fun (c : Copy) => if mine c then { c with stream := false } else c
    ∃ u, ScalarAfter (.cpyclose d) s u d (BitVec.ofNat 64 ((s.mem.bankRes.countP fun r => decide (r.team = w)) * 256))
      ∧ u = { s with teams := u.teams, mem := { s.mem with bankRes := u.mem.bankRes } }
      ∧ (∀ x, x ≠ w → u.teams.find x = s.teams.find x)
      ∧ u.curTeam = { s.curTeam with copies := s.curTeam.copies.map ends }
      ∧ ∀ r, r ∈ u.mem.bankRes ↔ r ∈ s.mem.bankRes ∧ r.team ≠ w

/-- R138, R145: with its copy open, or an entry free, CPYC completes; CPYCLOSE completes in every state. -/
def CopyCommandsComplete : Prop :=
  ∀ (s : State) (a d : BitVec 6),
    (((s.curTeam.copy? s.cur.copies).map (·.opened)).getD false = true ∨ (s.curTeam.copies.filter (·.opened)).length < s.curTeam.kernel.copyq →
      ∃ t, exec (.cpyc a d) s = .next t ∧ t.cur.spc = s.cur.spc + 4 ∧ t.cur.copies = s.cur.copies + 1)
    ∧ ∃ t, exec (.cpyclose d) s = .next t ∧ t.cur.spc = s.cur.spc + 4

/-- What `CopySlices`, `CopyClose`, `CopyCommandsComplete` state, together.
Where the manual leaves a point open, the clause is the model's choice: log entries 37, 47. -/
def Obligations.CopyCommands : Prop := CopySlices ∧ CopyClose ∧ CopyCommandsComplete

/-- R97, R98, R99: PFH with a field out of range gives 1 and takes nothing; without a free slot, or with 64 groups held by
the context, 2; otherwise it takes the lowest free slot under a new generation and returns the handle. PFDROP of a handle
that names no live group of the context gives 3; of one that does, the count of skipped frames above its low 16 bits, and the slot
is free again. -/
def PrefetchGroups : Prop :=
  ∀ (s : State) (a d : BitVec 6) (n : Nat),
    let base := s.sread a
    let pitch := s.sread (a + 1)
    let w := (s.sread (a + 2)).toNat
    let code := w / 64 % 16
    let ctx := s.curTeam.ctx
    let good := w < 2 ^ 12 ∧ 2 ≤ code ∧ code ≤ 9 ∧ base.toNat % pageBytes code = 0 ∧ pitch ≠ 0 ∧ pitch.toNat % pageBytes code = 0
    let slot := fun (m : Nat) => SMap.get ({} : Spring) s.mem.spring m
    let held := s.mem.spring.countP fun p => p.2.live && decide (p.2.ctx = ctx)
    let gen := (slot n).gen % 255 + 1
    let entry : Spring :=
      { live := true, priv := decide (s.cur.mode = .priv), gen := gen, ctx := ctx, base := base, pitch := pitch, rows := w % 8 + 1,
        cols := w / 8 % 8 + 1, size := code, core := s.curTeam.core, prio := w / 1024 % 4, order := s.mem.springOrder }
    let h := (s.sread a).toNat
    (¬good → ScalarGives (.pfh a d) s d 1)
    ∧ (good → (64 ≤ held ∨ ∀ m, m < 256 → (slot m).live = true) → ScalarGives (.pfh a d) s d 2)
    ∧ (good → held < 64 → n < 256 → (slot n).live = false → (∀ m, m < n → (slot m).live = true) →
      ∃ u, ScalarAfter (.pfh a d) s u d (BitVec.ofNat 64 ((gen * 256 + n) * 65536))
        ∧ u = { s with mem := { s.mem with spring := u.mem.spring, springOrder := u.mem.springOrder } }
        ∧ (∀ m, m ≠ n → u.mem.spring.find m = s.mem.spring.find m)
        ∧ SMap.get ({} : Spring) u.mem.spring n = entry)
    ∧ (2 ^ 16 ≤ h ∨ (slot (h % 256)).live = false ∨ (slot (h % 256)).gen ≠ h / 256 ∨ (slot (h % 256)).ctx ≠ ctx → ScalarGives (.pfdrop a d) s d 3)
    ∧ (h < 2 ^ 16 → (slot (h % 256)).live = true → (slot (h % 256)).gen = h / 256 → (slot (h % 256)).ctx = ctx →
      ∃ u, ScalarAfter (.pfdrop a d) s u d (BitVec.ofNat 64 ((slot (h % 256)).skipped % 2 ^ 48 * 65536))
        ∧ u = { s with mem := u.mem, free := u.free } ∧ (SMap.get ({} : Spring) u.mem.spring (h % 256)).live = false)

/-- R67: PERSIST of no bytes gives OK and of a range that is not one of canonical addresses BAD_RANGE. With no write to the
pool still unaccepted and every node it flushes acknowledging, PERSIST gives the status its pages came to, PERSIST.all, which flushes
the nodes that hold a lease of the context, gives OK; a write still unaccepted makes both wait. -/
def PersistCommands : Prop :=
  ∀ (s : State) (a d : BitVec 6),
    let base := s.sread a
    let len := s.sread (a + 1)
    (len = 0 → ScalarGives (.persist a d) s d 0)
    ∧ (len ≠ 0 → 2 ^ 46 < len.toNat ∨ 2 ^ 64 < base.toNat + len.toNat ∨ canonical (base + len - 1) = false →
        ScalarGives (.persist a d) s d 0x07)
    ∧ (∀ v nodes u, len ≠ 0 → len.toNat ≤ 2 ^ 46 → base.toNat + len.toNat ≤ 2 ^ 64 → canonical (base + len - 1) = true →
        s.persistPages base.toNat len.toNat 0 [] (len.toNat / 4096 + 2) = (v, nodes, u) →
        (u.mem.unaccepted = [] → (∀ n ∈ nodes, n < 2 ^ 64 ∧ u.mem.answers n = true) → ScalarAfter (.persist a d) s u d v)
        ∧ (u.mem.unaccepted ≠ [] → ScalarWaitsIn (.persist a d) s u))
    ∧ (s.mem.unaccepted = [] → (∀ x ∈ s.leasesOf s.curTeam.ctx, s.mem.answers x.node.toNat = true) → ScalarGives (.persistAll d) s d 0)
    ∧ (s.mem.unaccepted ≠ [] → ScalarWaits (.persistAll d) s)

/-- What `PrefetchGroups`, `PersistCommands` state, together.
Where the manual leaves a point open, the clause is the model's choice: log entries 18, 78, 80. -/
def Obligations.PrefetchAndPersist : Prop := PrefetchGroups ∧ PersistCommands

/-- R373: DLAUNCH waits for the runs before it and releases at .dev. An operand out of range gives BAD_OPERAND, a queue that
is not the context's own device queue BAD_QUEUE, an image that is not NOP, LAUNCH, SIGNAL or WAIT NOT_ALLOWED, a full queue
QUEUE_FULL; otherwise the image is written at the slot WPTR names, and WPTR advances.
Where the manual leaves a point open, the clause is the model's choice: log entry 92. -/
def Obligations.DeviceLaunch : Prop :=
  ∀ (s : State) (a d : BitVec 6),
    let i := Instr.dlaunch a d
    let u0 : State := { s with mem := s.mem.l1Publish s.curTeam.core }
    let n := (s.sread a).toNat
    let img := s.sread (a + 1)
    let q := s.queue n
    let own := q.v = true ∧ q.devq = true ∧ q.ctx = s.curTeam.ctx
    let x : Acc := { core := s.curTeam.core, ctx := s.curTeam.ctx, mode := s.cur.mode, gid := s.curGid }
    let waitless := fun (g : Group) => { g with swait := none }
    (¬RunsOver s → ScalarWaits i s)
    ∧ (RunsOver s →
      (2 ^ 17 ≤ n ∨ img.toNat % 64 ≠ 0 → ScalarAfter i s u0 d 0x10)
      ∧ (n < 2 ^ 17 → img.toNat % 64 = 0 → ¬own → ScalarAfter i s u0 d 0x40)
      ∧ (∀ b u1, n < 2 ^ 17 → img.toNat % 64 = 0 → own → u0.engRead x (.scalar s.curGid) img 64 = (.ok b, u1) →
        let opc := (wordAt b 0).toNat % 256
        (opc ∉ [0x00, 0x01, 0x03, 0x04] → ScalarAfter i s u1 d 0x41)
        ∧ (opc ∈ [0x00, 0x01, 0x03, 0x04] → (q.wptr - q.rptr).toNat = 2 ^ q.log2n → ScalarAfter i s u1 d 0x42)
        ∧ (∀ e u2, opc ∈ [0x00, 0x01, 0x03, 0x04] → (q.wptr - q.rptr).toNat ≠ 2 ^ q.log2n →
          u1.engWrite (cmdAccOf q.ctx q.priv) (.store q.ctx) (q.base + BitVec.ofNat 64 (64 * (q.wptr.toNat % 2 ^ q.log2n))) b = (.ok e, u2) →
          ∃ u, ScalarAfter i s u d 0 ∧ u = { u2.setQueue n { q with wptr := q.wptr + 1 } with groups := u.groups }
            ∧ ∀ h, (u.groups.find h).map waitless = (u2.groups.find h).map waitless)))

/-- A fabric command is past its operand checks (R292): without a free tag the stream waits; otherwise it takes the lowest
one, sd holds it in its bits from 8 up, and the transfer starts from there with these members and packets, after the runs its group
has enqueued so far (R309). -/
def FabricIssues (i : Instr) (s : State) (d : BitVec 6) (kind : XferKind) (pol : Nat) (nost : Bool) (ops : List W64)
    (members : List Nat) (pkts : List Pkt) : Prop :=
  ((∀ t, t < 16 → (s.cur.tags.find t).isSome) → ScalarWaits i s)
  ∧ ∀ t, t < 16 → s.cur.tags.find t = none → (∀ r, r < t → (s.cur.tags.find r).isSome) →
    let n := s.fabric.nextXfer
    let x : Xfer := { gid := s.curGid, team := s.cur.team, ctx := s.curTeam.ctx, mode := s.cur.mode, kind := kind, pol := pol, ops := ops,
                      members := members, pkts := pkts, nost := nost, after := s.cur.runs }
    ∃ u v, exec i s = .next (v.resumeXfer n) ∧ ScalarPut u v d (BitVec.ofNat 64 (t * 256))
      ∧ u = { s with groups := u.groups, fabric := { s.fabric with nextXfer := n + 1, xfers := u.fabric.xfers } }
      ∧ (∀ g, g ≠ s.curGid → u.groups.find g = s.groups.find g) ∧ u.cur = { s.cur with tags := u.cur.tags }
      ∧ (∀ r, u.cur.tags.find r = if r = t then some { xfer := n, nost := nost } else s.cur.tags.find r)
      ∧ ∀ m, u.fabric.xfers.find m = if m = n then some x else s.fabric.xfers.find m

/-- The packets of a transfer of some bytes to one member (R295): 1,024 bytes each, the last what is left. -/
def packetList (len member : Nat) : List Pkt :=
  (List.range ((len + 1023) / 1024)).map fun q => { member := member, off := 1024 * q, len := min 1024 (len - 1024 * q) }

/-- R292, R294, R295, R298, R299, R300: the bulk fabric commands at issue. An operand out of range gives BAD_OPERAND, an
FMCAST group that is not the context's BAD_GROUP; otherwise the transfer takes a tag and starts. -/
def FabricCommands : Prop :=
  ∀ (s : State) (a d : BitVec 6) (p : BPol) (n : Bool) (f : FOp),
    let w := fun (j : Nat) => s.sread (a + BitVec.ofNat 6 j)
    let pol := match p with | .ca => 0 | .nl => 1 | .cs => 2
    let len := (w 2).toNat % 2 ^ 32
    let off := (w 2).toNat / 2 ^ 32 % 2 ^ 20
    let three := [w 0, w 1, w 2]
    let four := [w 0, w 1, w 2, w 3]
    let src := (w 0).toNat % 16 = 0 ∧ len % 16 = 0 ∧ (w 2).toNat < 2 ^ 52
    let win := src ∧ off % 16 = 0 ∧ off + len ≤ 2 ^ 20
    let c := s.context s.curTeam.ctx
    let grp := (w 1).toNat % 2 ^ 12
    let cast := win ∧ (w 1).toNat < 2 ^ 28 ∧ (w 3).toNat % 16 = 0
    let op := match f with
      | .op o => match o with
        | .add => 0 | .min => 1 | .max => 2 | .and => 3 | .or => 4 | .xor => 5 | .exch => 6 | .inc => 7 | .dec => 8
      | .cas => 15
    (¬(win ∧ (w 1).toNat < 2 ^ 34) → ScalarGives (.fput a d p false n) s d 0x10)
    ∧ (win → (w 1).toNat < 2 ^ 34 → FabricIssues (.fput a d p false n) s d (.put false) pol n three [(w 1).toNat % 2 ^ 18] (packetList len 0))
    ∧ (¬(src ∧ (w 1).toNat % 16 = 0 ∧ off = 0) → ScalarGives (.fput a d p true n) s d 0x10)
    ∧ (src → (w 1).toNat % 16 = 0 → off = 0 → FabricIssues (.fput a d p true n) s d (.put true) pol n three [] (packetList len 0))
    ∧ (¬(src ∧ (w 1).toNat % 16 = 0 ∧ (w 2).toNat < 2 ^ 32) → ScalarGives (.fget a d p n) s d 0x10)
    ∧ (src → (w 1).toNat % 16 = 0 → (w 2).toNat < 2 ^ 32 → FabricIssues (.fget a d p n) s d .get pol n three [] (packetList len 0))
    ∧ ((w 0).toNat % 8 ≠ 0 ∨ (w 3).toNat % 8 ≠ 0 → ScalarGives (.fatom a d n f) s d 0x10)
    ∧ ((w 0).toNat % 8 = 0 → (w 3).toNat % 8 = 0 →
      FabricIssues (.fatom a d n f) s d (.atom op) 0 n four [] [{ member := 0, off := 0, len := 8 }])
    ∧ (¬cast → ScalarGives (.fmcast a d p n) s d 0x10)
    ∧ (cast → (∀ e, s.fabric.mcast.find grp = some e → ¬(e.1 = c.ftag ∧ c.mfirst ≤ grp ∧ grp < c.mfirst + c.mcnt)) →
      ScalarGives (.fmcast a d p n) s d 0x18)
    ∧ (∀ ms, cast → s.fabric.mcast.find grp = some (c.ftag, ms) → c.mfirst ≤ grp → grp < c.mfirst + c.mcnt →
      FabricIssues (.fmcast a d p n) s d .mcast pol n four ms ((List.range ms.length).flatMap fun m => packetList len m))

/-- R302: FSTAT of a tag that is not outstanding, or was issued with NOST, gives BAD_OPERAND; of a complete transfer (every packet
is final, its status array is written, and its writes have been acknowledged), its final status, freeing the tag; of one still under way it polls PENDING or waits. RSWAIT (R325) of a number without a job
gives NO_JOB; of a final job its FAILED and STATUS, freeing the number; of one still running it polls ACKED or waits. -/
def TransferAndJobStatus : Prop :=
  ∀ (s : State) (a d : BitVec 6) (t : FTag) (x : Xfer) (n : Nat) (j : Job),
    let w := (s.sread a).toNat
    (512 ≤ w ∨ w / 16 % 16 ≠ 0 → ScalarGives (.fstat a d) s d 0x10)
    ∧ (w < 512 → w / 16 % 16 = 0 →
      (s.cur.tags.find (w % 16) = none → ScalarGives (.fstat a d) s d 0x10)
      ∧ (s.cur.tags.find (w % 16) = some t → t.nost = true → ScalarGives (.fstat a d) s d 0x10)
      ∧ (s.cur.tags.find (w % 16) = some t → t.nost = false → s.fabric.xfers.find t.xfer = some x →
        ((∃ p ∈ x.pkts, p.st.final = false) ∨ (x.array ≠ 0 ∧ x.old = none) ∨ s.sideOut (.xfer t.xfer) = true →
          (w < 256 → ScalarGives (.fstat a d) s d 0xFF) ∧ (256 ≤ w → ScalarWaits (.fstat a d) s))
        ∧ ((∀ p ∈ x.pkts, p.st.final = true) → x.array = 0 ∨ x.old.isSome → s.sideOut (.xfer t.xfer) = false →
          ∃ u, ScalarAfter (.fstat a d) s u d x.word ∧ u = { s with groups := u.groups, fabric := { s.fabric with xfers := u.fabric.xfers } }
            ∧ (∀ g, g ≠ s.curGid → u.groups.find g = s.groups.find g) ∧ u.cur = { s.cur with tags := u.cur.tags }
            ∧ (∀ r, u.cur.tags.find r = if r = w % 16 then none else s.cur.tags.find r)
            ∧ ∀ m, u.fabric.xfers.find m = if m = t.xfer then none else s.fabric.xfers.find m)))
    ∧ (2 ^ 17 ≤ w → ScalarGives (.rswait a d) s d 0x10)
    ∧ (w < 2 ^ 17 →
      (s.cur.jobs.find (w % 2 ^ 16) = none → ScalarGives (.rswait a d) s d 0x35)
      ∧ (s.cur.jobs.find (w % 2 ^ 16) = some n → s.jobs.find n = some j →
        (j.final = false → (w < 2 ^ 16 → ScalarGives (.rswait a d) s d (BitVec.ofNat 64 (j.acked * 2 ^ 32 + 0xFF)))
          ∧ (2 ^ 16 ≤ w → ScalarWaits (.rswait a d) s))
        ∧ (j.final = true →
          ∃ u, ScalarAfter (.rswait a d) s u d (BitVec.ofNat 64 (j.failed * 2 ^ 32 + j.status))
            ∧ u = { s with groups := u.groups, jobs := u.jobs }
            ∧ (∀ g, g ≠ s.curGid → u.groups.find g = s.groups.find g) ∧ u.cur = { s.cur with jobs := u.cur.jobs }
            ∧ (∀ r, u.cur.jobs.find r = if r = w % 2 ^ 16 then none else s.cur.jobs.find r)
            ∧ ∀ m, u.jobs.find m = if m = n then none else s.jobs.find m)))

/-- What `FabricCommands`, `TransferAndJobStatus` state, together.
Where the manual leaves a point open, the clause is the model's choice: log entries 41, 42. -/
def Obligations.FabricTransfers : Prop := FabricCommands ∧ TransferAndJobStatus

/-- A RESHARD with its records and block captured starts its job (R323): the outcome is `o` of the machine u. The job has the plan's
total and the records' fingerprint, and begins at nothing or at what the block says. A new job's block is written first: a write that
fails is the result, and one that cannot be made yet is waited for. -/
def ReshardStarts (o : Out) (u : State) (d : BitVec 6) (blk : W64) (num : Nat) (src dst : List Byte) (old : Option (List Byte)) : Prop :=
  let own := u.fabric.devid
  let ctx := u.curTeam.ctx
  let ls := layoutOf src
  let ld := layoutOf dst
  let total := planTotal (planOf ls ld own) ls.esize
  let fp := fnv (fnv 0xCBF29CE484222325 src) dst
  let done := ∃ b, old = some b ∧ (wordAt b 3).toNat / 256 % 256 = 2
  let start := fun (acked : Nat) (above bytes : W64) =>
    ({ gid := u.curGid, team := u.cur.team, ctx := ctx, mode := u.cur.mode, src := ls, dst := ld, block := blk, fp := fp, total := total,
       acked := acked, above := above, failed := total, st := 1, status := 0xFF, bytes := bytes,
       after := u.cur.runs } : Job)
  let n := u.nextJob
  let starts := fun (v : State) (j : Job) =>
    ∃ y z, o = .next ((z.setJob n j).pumpJob n 4) ∧ ScalarPut y z d 0 ∧ y = { v with groups := y.groups, nextJob := n + 1 }
      ∧ (∀ g, g ≠ v.curGid → y.groups.find g = v.groups.find g) ∧ y.cur = { v.cur with jobs := v.cur.jobs.insert num n }
  ∃ acked above bytes,
      (old = none → acked = 0 ∧ above = 0 ∧ bytes = 0) ∧ (done → acked = total ∧ above = 0)
      ∧ (∀ b, old = some b → ¬done → acked = min ((wordAt b 1).toNat % 2 ^ 32) total ∧ above = wordAt b 2)
      ∧ (∀ b, old = some b → starts u (start acked above bytes).note)
      ∧ (old = none → ∀ r v, u.writeBlock (start acked above bytes) (.store ctx) (start acked above bytes).image = (r, v) →
        (∀ e, r = .ok e → starts v (start acked above bytes))
        ∧ (∀ c, r = .fault c → ∃ z, o = .next z ∧ ScalarPut v z d (BitVec.ofNat 64 (fabCode c)))
        ∧ (r = .wait → ∃ z w, o = .next z ∧ OnlyGroup v.curGid v z ∧ z.cur = { v.cur with swait := some w }))

/-- What a RESHARD that has captured its records (and, on RESUME, its block `old`) does from state u on (R323): malformed or
mismatched records give BAD_RECORD, a block that a live job of the context uses BLOCK_BUSY, a block of other records
BAD_RESUME, and 64 live jobs make it wait; otherwise the job starts. -/
def ReshardFrom (i : Instr) (s u : State) (d : BitVec 6) (blk : W64) (num : Nat) (src dst : List Byte) (old : Option (List Byte)) : Prop :=
  let own := u.fabric.devid
  let ls := layoutOf src
  let ld := layoutOf dst
  let total := planTotal (planOf ls ld own) ls.esize
  let fit := recordOk src own false = true ∧ recordOk dst own true = true ∧ ls.dims = ld.dims ∧ ls.esize = ld.esize ∧ total ≤ 2 ^ 32 - 1
  let busy := ∃ p ∈ u.jobs, p.2.final = false ∧ p.2.ctx = u.curTeam.ctx ∧ p.2.block = blk
  let other := ∃ b, old = some b ∧ wordAt b 0 ≠ fnv (fnv 0xCBF29CE484222325 src) dst
  let live := u.liveJobs
  (¬fit → ScalarAfter i s u d 0x30)
  ∧ (fit → busy → ScalarAfter i s u d 0x32)
  ∧ (fit → ¬busy → other → ScalarAfter i s u d 0x31)
  ∧ (fit → ¬busy → ¬other → 64 ≤ live → ScalarWaitsIn i s u)
  ∧ (fit → ¬busy → ¬other → live < 64 → ReshardStarts (exec i s) u d blk num src dst old)

/-- R322, R323, R316, R317, R321: RESHARD. An operand out of range gives BAD_OPERAND, a JOB number in use JOB_BUSY, a fifth
number of the group JOBS_FULL. Once both records, and on RESUME the block, are read, it goes on as `ReshardFrom` says.
Where the manual leaves a point open, the clause is the model's choice: log entry 72. -/
def Obligations.Reshard : Prop :=
  ∀ (s : State) (a d : BitVec 6),
    let i := Instr.reshard a d
    let w := fun (j : Nat) => s.sread (a + BitVec.ofNat 6 j)
    let w3 := (w 3).toNat
    let num := w3 % 2 ^ 16
    let good := w3 < 2 ^ 17 ∧ num ≠ 0 ∧ (w 0).toNat % 64 = 0 ∧ (w 1).toNat % 64 = 0 ∧ (w 2).toNat % 64 = 0
    let x : Acc := { core := s.curTeam.core, ctx := s.curTeam.ctx, mode := s.cur.mode, gid := s.curGid }
    let who := Waiter.scalar s.curGid
    let drop := fun (u : State) (src dst : List Byte) =>
      u.dropFetched who (lineParts (w 0) src.length (src.length / 64 + 2) ++ lineParts (w 1) dst.length (dst.length / 64 + 2)
        ++ lineParts (w 2) 64 3)
    (¬good → ScalarGives i s d 0x10)
    ∧ (good → (s.cur.jobs.find num).isSome → ScalarGives i s d 0x33)
    ∧ (good → s.cur.jobs.find num = none → 4 ≤ s.cur.jobs.length → ScalarGives i s d 0x34)
    ∧ (good → s.cur.jobs.find num = none → s.cur.jobs.length < 4 →
      ∀ src dst u1 u2, s.readRecord x who (w 0) = (.ok src, u1) → u1.readRecord x who (w 1) = (.ok dst, u2) →
        (w3 < 2 ^ 16 → ReshardFrom i s (drop u2 src dst) d (w 2) num src dst none)
        ∧ (∀ blk u3, 2 ^ 16 ≤ w3 → u2.engParts x who (lineParts (w 2) 64 3) = (.ok blk, u3) →
          ReshardFrom i s (drop u3 src dst) d (w 2) num src dst (some blk)))

/-! ## System instructions (chapters 3 to 5, 20) -/

/-- R83, R410: TLBI removes the translations its form names from every TLB, walk cache and ATC and leaves every other one; G
translations stay but for the forms by address and of the whole device. -/
def TranslationInvalidation : Prop :=
  ∀ (s : State) (a d : BitVec 6), s.cur.mode = .priv →
    let va := s.sread a
    let ctx := (s.sread (a + 1)).toNat % 2 ^ 32
    let one := (s.sread a).toNat % 2 ^ 32
    let pasid := (s.sread a).toNat % 2 ^ 20
    let inTlb := fun (e : TlbEntry) => e.page ≤ va.toNat ∧ va.toNat < e.page + pageBytes e.leaf.size
    let inAtc := fun (e : AtcEntry) => e.page * 4096 ≤ va.toNat ∧ va.toNat < e.page * 4096 + e.bytes
    let leaves := fun (i : Instr) (goT : TlbEntry → Prop) (goW : WalkEntry → Prop) (goA : AtcEntry → Prop) =>
      ∃ u, ScalarAfter i s u d 0 ∧ u = { s with mem := { s.mem with tlb := u.mem.tlb, walks := u.mem.walks, atc := u.mem.atc } }
        ∧ (∀ e, e ∈ u.mem.tlb ↔ e ∈ s.mem.tlb ∧ ¬goT e) ∧ (∀ e, e ∈ u.mem.walks ↔ e ∈ s.mem.walks ∧ ¬goW e)
        ∧ ∀ e, e ∈ u.mem.atc ↔ e ∈ s.mem.atc ∧ ¬goA e
    (canonical va = false → ScalarGives (.tlbiVa a d) s d 0x10)
    ∧ (canonical va = true → leaves (.tlbiVa a d) (fun e => inTlb e ∧ (e.leaf.glob = true ∨ e.ctx = ctx))
        (fun e => e.ctx = ctx ∧ e.tag = va.toNat % 2 ^ 57 / 2 ^ (3 + 9 * e.level))
        fun e => inAtc e ∧ e.pasid = (s.context ctx).pasid)
    ∧ leaves (.tlbiCtx a d) (fun e => e.leaf.glob = false ∧ e.ctx = one) (fun e => e.ctx = one) (fun e => e.pasid = (s.context one).pasid)
    ∧ leaves (.tlbiPasid a d) (fun e => e.leaf.glob = false ∧ (s.context e.ctx).pasid = pasid)
        (fun e => (s.context e.ctx).pasid = pasid) (fun e => e.pasid = pasid)
    ∧ leaves (.tlbiAll a d) (fun _ => True) (fun _ => True) (fun _ => True)

/-- R410, Table 20-6: PGCTL of no frame or of more than 4,096 gives BAD_OPERAND; otherwise the frames are taken in ascending
order, and sd holds 0, or the first failing frame's place above its code. -/
def PageControl : Prop :=
  ∀ (s : State) (a d : BitVec 6) (i : Instr) (op : PgOp), s.cur.mode = .priv →
    (i, op) ∈ [(.pgctlPin a d, .pin), (.pgctlUnpin a d, .unpin), (.pgctlEvict a d, .evict), (.pgctlWb a d, .wb),
      (.pgctlCarve a d, .carve), (.pgctlUncarve a d, .uncarve)] →
    let first := (s.sread a).toNat
    let n := (s.sread (a + 1)).toNat
    (n = 0 ∨ 4096 < n → ScalarGives i s d 0x10)
    ∧ (1 ≤ n → n ≤ 4096 → ∃ (k : Nat) (ms : Nat → Mem) (v : Nat),
      ScalarAfter i s { s with mem := ms k } d (BitVec.ofNat 64 v) ∧ ms 0 = s.mem ∧ k ≤ n
        ∧ (∀ j, j < k → (ms j).pgctl s.timeNs op (first + j) = .ok (ms (j + 1)))
        ∧ (k = n → v = 0) ∧ (k < n → ∃ c, (ms k).pgctl s.timeNs op (first + k) = .error c ∧ v = k * 65536 + c))

/-- R92, R93, R410: what PGCTL does to one frame. pin pins a resident frame, or fills an absent one as a demand fill does, unless its
set has 15 others pinned, or no lease or no way allows it; wb leaves a resident frame clean and evict leaves it invalid with its
lines gone, unless its dirty bytes are of an EXPIRED lease; unpin needs a resident frame; carve takes a device frame that is not among
15 others pinned in its set and has nothing it may not write back, and leaves it carved out, pinned and zero; uncarve needs
a carved-out frame and leaves it invalid. -/
def PageControlFrames : Prop :=
  ∀ (m : Mem) (now : W64) (n : Nat),
    let first := if (m.frame (n % numSets)).pinned || (m.frame (n % numSets)).carved then 1 else 0
    (∀ f, m.hit n = some f →
      let z := m.settle f
      ((z.frame f).pinned = true → m.pgctl now .pin n = .ok z)
      ∧ ((z.frame f).pinned = false → 15 ≤ z.pins f → m.pgctl now .pin n = .error 0x54)
      ∧ ((z.frame f).pinned = false → z.pins f < 15 → ∃ u, m.pgctl now .pin n = .ok u ∧ u.frame f = { z.frame f with pinned := true }
        ∧ ∀ g, g ≠ f → u.frame g = z.frame g)
      ∧ ((z.frame f).dirty ≠ 0 → z.expiredAt (n * 65536) = true → m.pgctl now .wb n = .error 0x50)
      ∧ ((z.frame f).dirty = 0 ∨ z.expiredAt (n * 65536) = false → ∃ u, m.pgctl now .wb n = .ok u ∧ u.frame f = { z.frame f with dirty := 0 }
        ∧ ∀ g, g ≠ f → u.frame g = z.frame g)
      ∧ (z.dirtyFrame f = true → z.expiredAt (n * 65536) = true → m.pgctl now .evict n = .error 0x50)
      ∧ (z.dirtyFrame f = false ∨ z.expiredAt (n * 65536) = false → ∃ u, m.pgctl now .evict n = .ok u ∧ u.frame f = {}
        ∧ (∀ x, x / 65536 = f → SMap.get 0 u.hbm x = 0) ∧ ∀ k, lineIn 0 n k = true → u.l2.find k = none))
    ∧ (m.hit n = none →
      ((leaseFault now (m.leaseAt (n * 65536))).isSome → m.pgctl now .pin n = .error 0x50)
      ∧ (leaseFault now (m.leaseAt (n * 65536)) = none →
        (15 ≤ m.pins (n % numSets) + first → m.pgctl now .pin n = .error 0x54)
        ∧ (m.pins (n % numSets) + first < 15 → m.victim (n % numSets) = none → m.pgctl now .pin n = .error 0x50)
        ∧ ∀ f, m.pins (n % numSets) + first < 15 → m.victim (n % numSets) = some f → ∃ u, m.pgctl now .pin n = .ok u
          ∧ u.frame f = { pfn := n, valid := true, pinned := true, counter := 1 }))
    ∧ (∀ f, m.hit n = some f → ∃ u, m.pgctl now .unpin n = .ok u ∧ u.frame f = { m.frame f with pinned := false }
      ∧ ∀ g, g ≠ f → u.frame g = m.frame g)
    ∧ (m.hit n = none → m.pgctl now .unpin n = .error 0x53 ∧ m.pgctl now .wb n = .error 0x53 ∧ m.pgctl now .evict n = .ok m)
    ∧ (numFrames ≤ n → m.pgctl now .carve n = .error 0x10 ∧ m.pgctl now .uncarve n = .error 0x10)
    ∧ (n < numFrames → 15 ≤ m.pins n → m.pgctl now .carve n = .error 0x54)
    ∧ (∀ u, m.pgctl now .carve n = .ok u → u.frame n = { valid := true, pinned := true, carved := true }
      ∧ ∀ x, x / 65536 = n → SMap.get 0 u.hbm x = 0)
    ∧ (n < numFrames → (m.frame n).carved = false → m.pgctl now .uncarve n = .error 0x50)
    ∧ (n < numFrames → (m.frame n).carved = true → ∃ u, m.pgctl now .uncarve n = .ok u ∧ u.frame n = {}
      ∧ (∀ g, g ≠ n → u.frame g = m.frame g) ∧ ∀ x, x / 65536 = n → SMap.get 0 u.hbm x = 0)

/-- R410: in privileged mode each operation of PGCTL completes, whatever its range. -/
def PageControlCompletes : Prop :=
  ∀ (s : State) (a d : BitVec 6), s.cur.mode = .priv →
    let done := fun (i : Instr) => ∃ t, exec i s = .next t ∧ t.cur.spc = s.cur.spc + 4 ∧ t.cur.swait = none
    done (.pgctlPin a d) ∧ done (.pgctlUnpin a d) ∧ done (.pgctlEvict a d) ∧ done (.pgctlWb a d) ∧ done (.pgctlCarve a d) ∧ done (.pgctlUncarve a d)

/-- What `PageControl`, `PageControlFrames`, `PageControlCompletes` state, together.
Where the manual leaves a point open, the clause is the model's choice: log entry 38. -/
def Obligations.PageCacheControl : Prop := PageControl ∧ PageControlFrames ∧ PageControlCompletes

/-- R55, R57, R59, R410: LEASEOP. A slot past the table gives BAD_OPERAND. grant fills a FREE slot from the image in memory
under the rules of R55; renew makes an ACTIVE or EXPIRED lease ACTIVE with the new times where the expiry is still to come;
an ACTIVE lease whose expiry has come expires first; revoke moves an ACTIVE or EXPIRED lease to REVOKING with the grace end; lost
marks any lease LOST; release frees it; hint returns one of the four hints, which the page then has; read writes the entry's image.
Where the manual leaves a point open, the clause is the model's choice: log entries 79, 98, 99, 100. -/
def Obligations.LeaseOperations : Prop :=
  ∀ (s : State) (a d : BitVec 6), s.cur.mode = .priv →
    let n := (s.sread a).toNat
    let w1 := s.sread (a + 1)
    let w2 := s.sread (a + 2)
    let l := s.mem.lease n
    let x : Acc := { core := s.curTeam.core, ctx := s.curTeam.ctx, mode := s.cur.mode, gid := s.curGid }
    let due := fun (l : Lease) => l.st = .active ∧ l.expiry.toNat ≤ s.timeNs.toNat
    (4096 ≤ n → ∀ i ∈ [Instr.leaseopRead a d, .leaseopGrant a d, .leaseopRenew a d, .leaseopRelease a d, .leaseopRevoke a d, .leaseopLost a d],
      ScalarGives i s d 0x10)
    ∧ (∃ u, ScalarAfter (.leaseopHint a d) s u d (BitVec.ofNat 64 ((SMap.get 0 u.mem.hints (n / 65536)).toNat * 256))
      ∧ u = { s with mem := { s.mem with hints := u.mem.hints }, free := s.free + 1 }
      ∧ ∀ p, p ≠ n / 65536 → u.mem.hints.find p = s.mem.hints.find p)
    ∧ (n < 4096 →
      (∀ b u, s.engRead x (.scalar s.curGid) w1 64 = (.ok b, u) →
        ((u.mem.lease n).st ≠ .free → ScalarAfter (.leaseopGrant a d) s u d 0x50)
        ∧ ((u.mem.lease n).st = .free → u.mem.leaseRule (wbits (wordAt b 0) 32 32) (wordAt b 1).toNat (wordAt b 2).toNat = true →
          ScalarAfter (.leaseopGrant a d) s u d 0x51)
        ∧ ((u.mem.lease n).st = .free → u.mem.leaseRule (wbits (wordAt b 0) 32 32) (wordAt b 1).toNat (wordAt b 2).toNat = false →
          ∃ v y, ScalarAfter (.leaseopGrant a d) s v d 0 ∧ v = { u with mem := u.mem.setLease n y } ∧ y.st = .active
            ∧ y.id.toNat = wbits (wordAt b 0) 32 32 ∧ y.node.toNat = wbits (wordAt b 0) 16 16 ∧ y.shared = (wordAt b 0).getLsbD 4
            ∧ y.base = wordAt b 1 ∧ y.len = wordAt b 2 ∧ y.expiry = wordAt b 3 ∧ y.warn = wordAt b 4 ∧ y.loss = false))
      ∧ (∀ b u, s.engWrite x (.store s.curTeam.ctx) w1 (wordBytes (s.mem.leaseImage l)) = (.ok b, u) → ScalarAfter (.leaseopRead a d) s u d 0)
      ∧ (¬due l → l.st = .revoking → ScalarGives (.leaseopRenew a d) s d 0x52)
      ∧ (¬due l → l.st = .active ∨ l.st = .expired → s.timeNs.toNat < w1.toNat →
        ScalarAfter (.leaseopRenew a d) s
          { s with mem := s.mem.setLease n { l with st := .active, expiry := w1, warn := w2, dueSent := false, stale := [] } } d 0)
      ∧ (¬due l → l.st = .active ∨ l.st = .expired → w1.toNat ≤ s.timeNs.toNat → ScalarGives (.leaseopRenew a d) s d 0x50)
      ∧ (∀ e, due l → s.expireLease n = e → (e.mem.lease n).st = .expired → e.timeNs.toNat < w1.toNat →
        ScalarAfter (.leaseopRenew a d) s
          { e with mem := e.mem.setLease n { e.mem.lease n with st := .active, expiry := w1, warn := w2, dueSent := false, stale := [] } } d 0)
      ∧ (l.st = .free ∨ l.st = .revoked ∨ l.st = .lost → ScalarGives (.leaseopRenew a d) s d 0x50)
      ∧ (l.st = .active ∨ l.st = .expired →
        ∃ u, ScalarAfter (.leaseopRevoke a d) s u d 0 ∧ u = { s with mem := { s.mem with leases := u.mem.leases } }
          ∧ (u.mem.lease n).st = .revoking ∧ (u.mem.lease n).graceEnd = w1 ∧ (u.mem.lease n).base = l.base ∧ (u.mem.lease n).len = l.len
          ∧ ∀ m, m ≠ n → u.mem.leases.find m = s.mem.leases.find m)
      ∧ (¬(l.st = .active ∨ l.st = .expired) → ScalarGives (.leaseopRevoke a d) s d 0x50)
      ∧ (l.st = .free → ScalarGives (.leaseopLost a d) s d 0x50 ∧ ScalarGives (.leaseopRelease a d) s d 0x50)
      ∧ (l.st ≠ .free → ∃ u, ScalarAfter (.leaseopLost a d) s u d 0 ∧ u = { s with mem := u.mem } ∧ (u.mem.lease n).st = .lost)
      ∧ (l.st = .revoking → ScalarGives (.leaseopRelease a d) s d 0x50)
      ∧ (l.st ≠ .free → l.st ≠ .revoking → ∃ u, ScalarAfter (.leaseopRelease a d) s u d 0 ∧ u = { s with mem := u.mem } ∧ u.mem.lease n = {}))

/-- R84, R86, R410: KEYOP of a key id that is not 1 to 255 gives BAD_OPERAND; load of a loaded id KEY_LOADED and unload of
one that is not KEY_ABSENT. load reads the material, zeroes it in memory and installs it; unload erases the key. -/
def KeyOperations : Prop :=
  ∀ (s : State) (a d : BitVec 6), s.cur.mode = .priv →
    let n := (s.sread a).toNat
    let va := s.sread (a + 1)
    let x : Acc := { core := s.curTeam.core, ctx := s.curTeam.ctx, mode := s.cur.mode, gid := s.curGid }
    (n = 0 ∨ 255 < n → ScalarGives (.keyopLoad a d) s d 0x10 ∧ ScalarGives (.keyopUnload a d) s d 0x10)
    ∧ (1 ≤ n → n ≤ 255 →
      (∀ k, s.mem.keys.find n = some k → ScalarGives (.keyopLoad a d) s d 0x55
        ∧ ∃ u, ScalarAfter (.keyopUnload a d) s u d 0 ∧ u = { s with mem := u.mem } ∧ u.mem.keys.find n = none)
      ∧ (s.mem.keys.find n = none → ScalarGives (.keyopUnload a d) s d 0x56)
      ∧ (∀ b u e v, s.mem.keys.find n = none → s.engRead x (.scalar s.curGid) va 64 = (.ok b, u) →
        u.engWrite u.sacc (.store u.curTeam.ctx) va (List.replicate 64 0) = (.ok e, v) →
        ScalarAfter (.keyopLoad a d) s { v with mem := { v.mem with keys := v.mem.keys.insert n (BitVec.ofNat 512 (ofLeBytes b)) } } d 0))

/-- What `TranslationInvalidation`, `KeyOperations` state, together.
Where the manual leaves a point open, the clause is the model's choice: log entry 13. -/
def Obligations.TranslationAndKeys : Prop := TranslationInvalidation ∧ KeyOperations

/-! ## Lane integer instructions (chapter 11) -/

/-- R205, R207, R208, R216 to R218: the integer arithmetic, conversions, addresses and dot products of the lane stream.
Every operand is read, and every result taken modulo 2^w and extended, under R205; with SAT the exact result is clamped. -/
def LaneIntegerArithmetic : Prop :=
  ∀ (s : State) (l : Lane) (ty : ITy),
    let x := fun k => intRead ty (s.operand l ty.wide l.a k)
    let y := fun k => intRead ty (s.operand l ty.wide l.b k)
    let z := fun k => intRead ty (s.operand l ty.wide l.c k)
    (∀ sat, LaneGives (.iadd l ty sat) l ty.wide s (fun k => intWrite ty (if sat then intClamp ty (x k + y k) else x k + y k))
      ∧ LaneGives (.isub l ty sat) l ty.wide s (fun k => intWrite ty (if sat then intClamp ty (x k - y k) else x k - y k)))
    ∧ LaneGives (.imul l ty) l ty.wide s (fun k => intWrite ty (x k * y k))
    ∧ LaneGives (.imulh l ty) l ty.wide s (fun k => intWrite ty (x k * y k / 2 ^ ty.width))
    ∧ LaneGives (.imad l ty) l ty.wide s (fun k => intWrite ty (x k * y k + z k))
    ∧ LaneGives (.imadw l ty) l true s (fun k =>
        BitVec.ofInt 64 (intRead ty (s.operand l false l.a k) * intRead ty (s.operand l false l.b k)) + s.operand l true l.c k)
    ∧ LaneGives (.iabs l ty) l ty.wide s (fun k => intWrite ty (x k).natAbs)
    ∧ LaneGives (.imin l ty) l ty.wide s (fun k => intWrite ty (min (x k) (y k)))
    ∧ LaneGives (.imax l ty) l ty.wide s (fun k => intWrite ty (max (x k) (y k)))
    ∧ (∀ dt sat, LaneGives (.cvti l dt ty sat) l dt.wide s (fun k => intWrite dt (if sat then intClamp dt (x k) else x k)))
    ∧ (∀ n, LaneGives (.lea l ty n) l true s (fun k =>
        s.operand l true l.a k + BitVec.ofInt 64 (intRead ty (s.operand l false l.b k) * 2 ^ n.val)))
    ∧ (∀ as bs : Bool,
        let el := fun (sg : Bool) (v : W64) (i : Nat) => intRead (if sg then .i8 else .n8) (v >>> (8 * i))
        let p := fun k i => el as (s.operand l false l.a k) i * el bs (s.operand l false l.b k) i
        LaneGives (.idot4 l as bs) l false s (fun k =>
          (BitVec.ofInt 32 ((s.reg32 l.imm l.c k).toNat + p k 0 + p k 1 + p k 2 + p k 3)).setWidth 64))

/-- R207, R208, R209: IDIV truncates toward zero and IREM is a − b × IDIV(a, b), both modulo 2^w. A zero divisor raises
INT_DIV_ZERO with TVAL 0 in the first such thread that is no helper; a helper gets 2^w − 1 and a. -/
def LaneDivision : Prop :=
  ∀ (s : State) (l : Lane) (ty : ITy),
    let x := fun k => intRead ty (s.operand l ty.wide l.a k)
    let y := fun k => intRead ty (s.operand l ty.wide l.b k)
    let bad := fun k => y k = 0 ∧ s.cur.isHelper k = false
    let quo := fun k => intWrite ty (if y k = 0 then 2 ^ ty.width - 1 else Int.tdiv (x k) (y k))
    let rem := fun k => intWrite ty (if y k = 0 then x k else x k - y k * Int.tdiv (x k) (y k))
    ((∀ k ∈ s.computers l, ¬bad k) → LaneGives (.idiv l ty) l ty.wide s quo ∧ LaneGives (.irem l ty) l ty.wide s rem)
    ∧ LaneTraps (.idiv l ty) l ty.wide s bad (fun k => some (quo k)) (fun _ t => t) 0x03 (fun _ => 0)
    ∧ LaneTraps (.irem l ty) l ty.wide s bad (fun k => some (rem k)) (fun _ t => t) 0x03 (fun _ => 0)

/-- R205, R207, R210, R211: the bit operations of the lane stream; a shift amount is taken modulo the width. BFE gives bits
[pos+L−1:pos] of A, extended by the type, BFI gives C with those bits replaced by A's lowest, L = min(len, max(0, w − pos)). -/
def LaneBitOperations : Prop :=
  ∀ (s : State) (l : Lane) (ty : BTy) (it : ITy),
    let x := fun k => s.operand l ty.wide l.a k
    let y := fun k => s.operand l ty.wide l.b k
    let n := fun k => (s.reg32 l.imm l.b k).toNat % BTy.size ty
    let pos := fun k => (s.reg32 l.imm l.b k).toNat % 256
    let len := fun k => (s.reg32 l.imm l.b k).toNat / 256 % 256
    LaneGives (.and l ty) l ty.wide s (fun k => x k &&& y k)
    ∧ LaneGives (.or l ty) l ty.wide s (fun k => x k ||| y k)
    ∧ LaneGives (.xor l ty) l ty.wide s (fun k => x k ^^^ y k)
    ∧ LaneGives (.andn l ty) l ty.wide s (fun k => x k &&& ~~~y k)
    ∧ LaneGives (.shl l ty) l ty.wide s (fun k => onBits ty (fun v => v <<< n k) (x k))
    ∧ LaneGives (.shr l ty) l ty.wide s (fun k => onBits ty (fun v => v >>> n k) (x k))
    ∧ LaneGives (.sar l it) l it.wide s (fun k =>
        intWrite it (intRead it (s.operand l it.wide l.a k) / 2 ^ ((s.reg32 l.imm l.b k).toNat % if it.wide then 64 else 32)))
    ∧ LaneGives (.rotl l ty) l ty.wide s (fun k => onBits ty (fun v => v.rotateLeft (n k)) (x k))
    ∧ LaneGives (.clz l ty) l false s (fun k =>
        BitVec.ofNat 64 ((List.range (BTy.size ty)).takeWhile fun i => !(x k).getLsbD (BTy.size ty - 1 - i)).length)
    ∧ LaneGives (.popc l ty) l false s (fun k => BitVec.ofNat 64 ((List.range (BTy.size ty)).countP fun i => (x k).getLsbD i))
    ∧ LaneGives (.brev l ty) l ty.wide s (fun k => onBits ty (fun v => v.reverse) (x k))
    ∧ LaneGives (.mov l ty) l ty.wide s x
    ∧ (∃ val, LaneGives (.bfe l it) l it.wide s val ∧ ∀ k j, j < (if it.wide then 64 else 32) →
        let m := min (len k) (it.width - pos k)
        (val k).getLsbD j = if j < m then (s.operand l it.wide l.a k).getLsbD (pos k + j)
          else it.signed && decide (0 < m) && (s.operand l it.wide l.a k).getLsbD (pos k + m - 1))
    ∧ (∃ val, LaneGives (.bfi l ty) l ty.wide s val ∧ ∀ k j, j < BTy.size ty →
        let m := min (len k) (BTy.size ty - pos k)
        (val k).getLsbD j = if pos k ≤ j ∧ j < pos k + m then (x k).getLsbD (j - pos k) else (s.operand l ty.wide l.c k).getLsbD j)

/-- What `LaneIntegerArithmetic`, `LaneDivision`, `LaneBitOperations` state, together. -/
def Obligations.LaneIntegers : Prop := LaneIntegerArithmetic ∧ LaneDivision ∧ LaneBitOperations

/-- R44, R212 to R215, R219, R220, Table 11-3: NOP, compares, selects, special registers and predicates. A predicate
destination takes bit 0 of the result. MOVSP reads TIME_NS in each thread as it streams, so that it never falls from one thread to
the next, and writes bits [5:0] of A into FPSTAT or bit 0 into XEXITED; PMOV to the predicates
writes p_i from bit i where the mask's bit i is set, i from 1 to 7. Under U Lowest()'s source goes to every active thread.
Where the manual leaves a point open, the clause is the model's choice: log entry 5. -/
def Obligations.LaneSelectsAndPredicates : Prop :=
  ∀ (s : State) (l : Lane) (ty : BTy) (it : ITy),
    let x := fun k => intRead it (s.operand l it.wide l.a k)
    let y := fun k => intRead it (s.operand l it.wide l.b k)
    let bit := fun (b : Bool) => (if b then 1 else 0 : W64)
    let p := fun k n => decide (n = 0) || (s.cur.thread k).preds.getLsbD n
    (Placed s (.nop l) l → LaneRuns (.nop l) l false s (fun _ => none) fun _ t => t)
    ∧ LaneGives (.iset l it .eq) l false s (fun k => bit (decide (x k = y k)))
    ∧ LaneGives (.iset l it .ne) l false s (fun k => bit (decide (x k ≠ y k)))
    ∧ LaneGives (.iset l it .lt) l false s (fun k => bit (decide (x k < y k)))
    ∧ LaneGives (.iset l it .le) l false s (fun k => bit (decide (x k ≤ y k)))
    ∧ LaneGives (.iset l it .gt) l false s (fun k => bit (decide (x k > y k)))
    ∧ LaneGives (.iset l it .ge) l false s (fun k => bit (decide (x k ≥ y k)))
    ∧ (∀ (n : Fin 8) (neg : Bool), LaneGives (.sel l ty n neg) l ty.wide s (fun k =>
        if p k n.val ≠ neg then s.operand l ty.wide l.a k else s.operand l ty.wide l.b k))
    ∧ (∀ pa pb pc : Fin 8, LaneGives (.plop3 l pa pb pc) l false s (fun k =>
        bit (l.imm.getLsbD ((p k pa.val).toNat * 4 + (p k pb.val).toNat * 2 + (p k pc.val).toNat))))
    ∧ (∃ val, LaneGives (.pmov l) l false s val
        ∧ ∀ k j, j < 32 → (val k).getLsbD j = (decide (j < 8) && p k j))
    ∧ (∃ set : Nat → Thr → Thr, LaneSets (.pmovToPreds l) l s set ∧ ∀ k t, set k t = { t with preds := (set k t).preds }
        ∧ ∀ j, j < 8 → (set k t).preds.getLsbD j = if 1 ≤ j ∧ l.imm.getLsbD j = true then (s.reg32 l.imm l.a k).getLsbD j else t.preds.getLsbD j)
    ∧ LaneSets (.movspW l .fpstat) l s (fun k t => { t with fpstat := (s.reg32 l.imm l.a k).setWidth 6 |>.setWidth 32 })
    ∧ LaneSets (.movspW l .xexited) l s (fun k t => { t with xexited := (s.reg32 l.imm l.a k).getLsbD 0 })
    ∧ LaneGives (.movsp l .tid) l false s (fun k => BitVec.ofNat 64 k)
    ∧ LaneGives (.movsp l .qid) l false s (fun k => BitVec.ofNat 64 (k / 4))
    ∧ LaneGives (.movsp l .gidx) l false s (fun _ => BitVec.ofNat 64 s.cur.idx)
    ∧ LaneGives (.movsp l .team) l false s (fun _ => BitVec.ofNat 64 s.curTeam.lin)
    ∧ LaneGives (.movsp l .gang) l false s (fun _ => BitVec.ofNat 64 s.curTeam.gang)
    ∧ LaneGives (.movsp l .devid) l false s (fun _ => BitVec.ofNat 64 s.fabric.devid)
    ∧ (Placed s (.movsp l .timeNs) l →
      let first := fun (P : Nat → Bool) => ((s.computers l).filter P).length
      ∃ (u : State) (ts : Nat → W64), exec (.movsp l .timeNs) s = .next (u.laneEnd l.fin)
        ∧ LaneDone s { u with timeNs := s.timeNs, free := s.free } (.movsp l .timeNs) l true (fun k => some (ts k)) (fun _ t => t)
        ∧ (∀ k ∈ s.computers l, ∃ n, n ≤ first (fun j => decide (j < k)) ∧ ts k = s.timeNs + BitVec.ofNat 64 n)
        ∧ (∀ j ∈ s.computers l, ∀ k ∈ s.computers l, j < k →
          ∃ n, n ≤ first (fun i => decide (j ≤ i ∧ i < k)) ∧ ts k = ts j + BitVec.ofNat 64 n)
        ∧ ∃ n, n ≤ (s.computers l).length ∧ u.timeNs = s.timeNs + BitVec.ofNat 64 n)
    ∧ LaneGives (.movsp l .rngseed) l true s (fun _ => s.curTeam.seed)
    ∧ LaneGives (.movsp l .fpstat) l false s (fun k => ((s.cur.thread k).fpstat.setWidth 6).setWidth 64)
    ∧ LaneGives (.movsp l .xexited) l false s (fun k => bit (s.cur.thread k).xexited)
    ∧ LaneGives (.movsp l .helper) l false s (fun k => bit (decide ((s.cur.thread k).life = .helper)))
    ∧ LaneGives (.movsp l .split) l false s (fun _ => BitVec.ofNat 64 s.curSlot)
    ∧ LaneGives (.movsp l .ctxid) l false s (fun _ => BitVec.ofNat 64 s.curTeam.ctx)

/-! ## Lane float instructions (chapters 10 and 12) -/

/-- A scalar float operand (R223): the format's bits of the source, the sign flipped where `neg`, as a value (R186). -/
def floatOperand (f : Fmt) (s : State) (l : Lane) (neg : Bool) (x : Src) (k : Nat) : FV :=
  f.read (f.operand neg (s.reg32 l.imm x k).toNat)

/-- R201 to R203, R223, R225 to R230, R232 to R234: the scalar float instructions. Each exact result is rounded once in the
type's format under the instruction's mode with the thread's draw; FDOT2 rounds to FP32. -/
def LaneFloats : Prop :=
  ∀ (s : State) (l : Lane) (ty : FTy) (r : Rnd),
    let f := ty.fmt
    let bits := fun (neg : Bool) x k => f.operand neg (s.reg32 l.imm x k).toNat
    let num := fun neg x k => floatOperand f s l neg x k
    let n := drawsOf r
    (∀ na nb, FloatRuns (.fadd l ty r na nb) l false s n (fun k d => (fAdd (num na l.a k) (num nb l.b k) r).round f r (d 1))
      ∧ FloatRuns (.fsub l ty r na nb) l false s n (fun k d => (fSub (num na l.a k) (num nb l.b k) r).round f r (d 1))
      ∧ FloatRuns (.fmul l ty r na nb) l false s n (fun k d => (fMul (num na l.a k) (num nb l.b k)).round f r (d 1))
      ∧ (∀ nc, FloatRuns (.ffma l ty r na nb nc) l false s n
        (fun k d => (fMulAdd (num na l.a k) (num nb l.b k) (num nc l.c k) r).round f r (d 1)))
      ∧ FloatRuns (.fmin l ty na nb) l false s 0 (fun k _ => fMinMax f false (bits na l.a k) (bits nb l.b k))
      ∧ FloatRuns (.fmax l ty na nb) l false s 0 (fun k _ => fMinMax f true (bits na l.a k) (bits nb l.b k)))
    ∧ (∀ c, FloatRuns (.fset l ty c) l false s 0 (fun k _ =>
        let p := fCompare f c (bits false l.a k) (bits false l.b k)
        (p.1.toNat, p.2)))
    ∧ FloatRuns (.fdiv l ty r) l false s n (fun k d => (fDiv (num false l.a k) (num false l.b k)).round f r (d 1))
    ∧ FloatRuns (.fsqrt l ty r) l false s n (fun k d => (fSqrt (num false l.a k)).round f r (d 1))
    ∧ FloatRuns (.frcp l ty r) l false s n (fun k d => (fDiv (.fin false 1 0) (num false l.a k)).round f r (d 1))
    ∧ FloatRuns (.frnd l ty r) l false s n (fun k d => fRnd f r (d 1) (bits false l.a k))
    ∧ (∀ dt : ITy, FloatRuns (.fcvti l dt ty r) l dt.wide s n (fun k d =>
        let p := fToInt f dt r (d 1) (bits false l.a k)
        ((intWrite dt p.1).toNat, p.2)))
    ∧ (∀ st : ITy, FloatRuns (.icvtf l ty st r) l false s n (fun k d =>
        intToF f r (d 1) (intRead st (s.operand l st.wide l.a k))))
    ∧ FloatRuns (.fscale l ty r) l false s n (fun k d => (fScale (num false l.a k) (s.reg32 l.imm l.b k).toInt).round f r (d 1))
    ∧ (∀ ht : HTy, FloatRuns (.fdot2 l ht r) l false s n (fun k d =>
        let lo := fun x => ht.fmt.read ((s.reg32 l.imm x k).extractLsb' 0 16).toNat
        let hi := fun x => ht.fmt.read ((s.reg32 l.imm x k).extractLsb' 16 16).toNat
        (fDot2 (lo l.a) (lo l.b) (hi l.a) (hi l.b) (Fmt.read .f32 (s.reg32 l.imm l.c k).toNat) r).round .f32 r (d 1)))
    ∧ ((∀ p, l.d ≠ .p p) → LaneGives (.fclass l ty) l false s (fun k => BitVec.ofNat 64 (2 ^ fClass f (bits false l.a k))))
    ∧ ((∃ p, l.d = .p p) → LaneGives (.fclass l ty) l false s (fun k =>
        if (s.reg32 l.imm l.b k).getLsbD (fClass f (bits false l.a k)) then 1 else 0))

/-- R231, Table 12-4: the approximate functions run on every FP32 operand, draw nothing, and give one FP32 value per
operand. The special and exact cases are the table's, with their flags: FEXP2 of an integer and FLOG2 of a power of
two are exact; FSIN, FCOS and FRSQ of a nonzero finite operand raise IX. -/
def LaneApproximations : Prop :=
  ∀ (s : State) (l : Lane),
    let x := fun k => (s.reg32 l.imm l.a k).toNat
    let runs := fun (i : Instr) (v : Nat → Nat × FFlags) => FloatRuns i l false s 0 fun k _ => v (x k)
    let special := fun (v : Nat → Nat × FFlags) (w : Nat) (r : Nat) (fl : FFlags) => v w = (r, fl)
    ∃ rsq exp2 log2 sin cos : Nat → Nat × FFlags,
      runs (.frsq l) rsq ∧ runs (.fexp2 l) exp2 ∧ runs (.flog2 l) log2 ∧ runs (.fsin l) sin ∧ runs (.fcos l) cos
      ∧ (∀ v ∈ [rsq, exp2, log2, sin, cos], ∀ w, (Fmt.read .f32 w = .nan false → special v w 0x7FC00000 0)
        ∧ (Fmt.read .f32 w = .nan true → special v w 0x7FC00000 fIV))
      ∧ special rsq 0x00000000 0x7F800000 fDZ ∧ special rsq 0x80000000 0xFF800000 fDZ ∧ special rsq 0x7F800000 0 0
      ∧ special rsq 0xFF800000 0x7FC00000 fIV
      ∧ special exp2 0xFF800000 0 0 ∧ special exp2 0x7F800000 0x7F800000 0
      ∧ special log2 0x00000000 0xFF800000 fDZ ∧ special log2 0x80000000 0xFF800000 fDZ ∧ special log2 0x7F800000 0x7F800000 0
      ∧ special log2 0xFF800000 0x7FC00000 fIV
      ∧ special sin 0x00000000 0 0 ∧ special sin 0x80000000 0x80000000 0 ∧ special cos 0x00000000 0x3F800000 0
      ∧ special cos 0x80000000 0x3F800000 0
      ∧ (∀ v ∈ [sin, cos], special v 0x7F800000 0x7FC00000 fIV ∧ special v 0xFF800000 0x7FC00000 fIV)
      ∧ (∀ v ∈ [rsq, log2], ∀ w g n y, Fmt.read .f32 w = .fin g n y → g = true → n ≠ 0 → special v w 0x7FC00000 fIV)
      ∧ (∀ v ∈ [sin, cos], ∀ w g n y, Fmt.read .f32 w = .fin g n y → n ≠ 0 → (v w).2 &&& fIX = fIX)
      ∧ (∀ w n y, Fmt.read .f32 w = .fin false n y → n ≠ 0 → (rsq w).2 &&& fIX = fIX)
      ∧ (∀ w g n y (i : Int), Fmt.read .f32 w = .fin g n y → -149 ≤ i → i ≤ 127 → (decide (i < 0) = g ∨ i = 0) →
        n * 2 ^ (y + 149).toNat = i.natAbs * 2 ^ 149 →
        special exp2 w (if i < -126 then 2 ^ (i + 149).toNat else (i + 127).toNat * 2 ^ 23) 0)
      ∧ (∀ w (e : Nat) y, Fmt.read .f32 w = .fin false (2 ^ e) y → special log2 w (intToF .f32 .rn 0 ((e : Int) + y)).1 0)

/-- What `LaneFloats`, `LaneApproximations` state, together.
Where the manual leaves a point open, the clause is the model's choice: log entries 10, 44. -/
def Obligations.LaneFloatResults : Prop := LaneFloats ∧ LaneApproximations

/-- R235 to R243: packed half precision, packing, narrow conversion and RNG. A packed pair rounds, and under RS draws, its
low half first; its flags are those of both halves.
Where the manual leaves a point open, the clause is the model's choice: log entry 74. -/
def Obligations.LanePackedAndNarrow : Prop :=
  ∀ (s : State) (l : Lane) (ht : HTy) (r : Rnd),
    let f := ht.fmt
    let w := fun x k => s.reg32 l.imm x k
    let half := fun (h : Nat) (neg : Bool) x k => f.flip neg ((w x k).extractLsb' (16 * h) 16).toNat
    let num := fun h neg x k => f.read (half h neg x k)
    let both := fun (lo hi : Nat × FFlags) => (lo.1 + 65536 * hi.1, lo.2 ||| hi.2)
    let n := drawsOf r
    (∀ na nb, FloatRuns (.hadd2 l ht r na nb) l false s (2 * n) (fun k d =>
          both ((fAdd (num 0 na l.a k) (num 0 nb l.b k) r).round f r (d 1)) ((fAdd (num 1 na l.a k) (num 1 nb l.b k) r).round f r (d 2)))
      ∧ FloatRuns (.hmul2 l ht r na nb) l false s (2 * n) (fun k d =>
          both ((fMul (num 0 na l.a k) (num 0 nb l.b k)).round f r (d 1)) ((fMul (num 1 na l.a k) (num 1 nb l.b k)).round f r (d 2)))
      ∧ (∀ nc, FloatRuns (.hfma2 l ht r na nb nc) l false s (2 * n) (fun k d =>
          both ((fMulAdd (num 0 na l.a k) (num 0 nb l.b k) (num 0 nc l.c k) r).round f r (d 1))
            ((fMulAdd (num 1 na l.a k) (num 1 nb l.b k) (num 1 nc l.c k) r).round f r (d 2))))
      ∧ FloatRuns (.hmin2 l ht na nb) l false s 0 (fun k _ =>
          both (fMinMax f false (half 0 na l.a k) (half 0 nb l.b k)) (fMinMax f false (half 1 na l.a k) (half 1 nb l.b k)))
      ∧ FloatRuns (.hmax2 l ht na nb) l false s 0 (fun k _ =>
          both (fMinMax f true (half 0 na l.a k) (half 0 nb l.b k)) (fMinMax f true (half 1 na l.a k) (half 1 nb l.b k))))
    ∧ FloatRuns (.fpack l (.half ht r)) l false s (2 * n) (fun k d =>
        both (fConvert .f32 f r (d 1) false (w l.a k).toNat) (fConvert .f32 f r (d 2) false (w l.b k).toNat))
    ∧ (∀ hi : Bool, FloatRuns (.funpk l (.half ht hi)) l false s 0 (fun k _ =>
        fConvert f .f32 .rn 0 false ((w l.a k).extractLsb' (if hi then 16 else 0) 16).toNat))
    ∧ (∃ val, LaneGives (.fpack l .nib) l false s val ∧ ∀ k i j, i < 8 → j < 4 →
        (val k).getLsbD (4 * i + j) = (s.reg64 l.imm l.a k).getLsbD (8 * i + j))
    ∧ (∀ hi : Bool, ∃ val, LaneGives (.fpack l (if hi then .twoHi else .twoLo)) l false s val ∧ ∀ k,
        let b := if hi then 16 else 0
        (∀ i j, i < 8 → j < 2 → (val k).getLsbD (b + 2 * i + j) = (s.reg64 l.imm l.a k).getLsbD (8 * i + 4 + j))
        ∧ ∀ j, 16 - b ≤ j → j < 32 - b → (val k).getLsbD j = (w l.c k).getLsbD j)
    ∧ (∀ hi : Bool, ∃ val, LaneGives (.funpk l (if hi then .hi else .lo)) l true s val ∧ ∀ k i j, i < 8 → j < 8 →
        (val k).getLsbD (8 * i + j) = if j < 4 then (w l.a k).getLsbD (4 * i + j)
          else if j < 6 then (w l.b k).getLsbD ((if hi then 16 else 0) + 2 * i + j - 4) else false)
    ∧ (∀ (nf : NFmt) (inf : Bool), FloatRuns (.ncvt l nf r inf) l false s (2 * n) (fun k d =>
        let x := narrow nf r inf (d 1) (w l.a k).toNat
        let y := narrow nf r inf (d 2) (w l.b k).toNat
        let z := slotBits nf
        let p := 2 * z * (if nf = .e2m1 then l.imm.toNat % 4 else l.imm.toNat % 2)
        let keep := (w l.c k).toNat / 2 ^ p % 2 ^ (2 * z) * 2 ^ p
        ((w l.c k).toNat - keep + (x.1 + y.1 * 2 ^ z) * 2 ^ p, x.2 ||| y.2)))
    ∧ (∀ nf : NFmt, LaneGives (.ncvtFrom l nf) l false s (fun k =>
        BitVec.ofNat 64 (widenElem nf ((w l.a k).extractLsb' (slotBits nf * (l.imm.toNat % (32 / slotBits nf))) (elemBits nf)).toNat)))
    ∧ (∀ ty : FTy, LaneGives (.nexp l ty) l false s (fun k => BitVec.ofNat 64 (nexp ty.fmt (ty.fmt.operand false (w l.a k).toNat))))
    ∧ (∀ nf : NFmt, LaneGives (.mxscl l nf) l false s (fun k =>
        let a := ((w l.a k).extractLsb' 0 8).toNat
        BitVec.ofNat 64 (if a = 255 then 255 else min (a - nf.emax) 254)))
    ∧ (∀ hi : Bool, FloatRuns (.i4xpk l r hi) l false s n (fun k d =>
        let q := i4xPack r (d 1) (w l.a k).toNat
        let c := (w l.c k).toNat
        (if hi then c % 65536 + 65536 * q.1 else c / 65536 * 65536 + q.1, q.2)))
    ∧ FloatRuns (.i4xunp l) l false s 0 (fun k _ =>
        let i := l.imm.toNat % 8
        let q := i4xQuad ((w l.a k).extractLsb' (16 * (i / 4)) 16).toNat
        (q.1.getD (i % 4) 0, if q.2 then fFE else 0))
    ∧ (∀ ty : BTy, Placed s (.rng l ty) l → LaneRuns (.rng l ty) l ty.wide s
        (fun k => let g := generatorAfter 1 (s.cur.thread k).gen
          some (if ty.wide then g else g >>> 32)) fun _ t => { t with gen := generatorAfter 1 t.gen })

/-! ## Rounding (R197, R198) -/

/-- The largest finite value of a format (Table 10-1). -/
def largestFinite : Fmt → ℚ
  | .f32 => (2 - 2 ^ (-23 : ℤ)) * 2 ^ (127 : ℤ) | .f16 => 65504 | .bf16 => (2 - 2 ^ (-7 : ℤ)) * 2 ^ (127 : ℤ) | .e5m2 => 57344
  | .e4m3 => 448 | .e3m2 => 28 | .e2m3 => 15 / 2 | .e2m1 => 6

/-- R197, R198: Round, in exact rational arithmetic. The finite nonzero ± v is rounded to a multiple y of the spacing q at it;
the encoding reads as ± y, with IX where y ≠ v and UF where v is below the smallest normal besides. A y beyond the largest
finite value sets OF and IX and gives infinity or the largest value as R198's table says; `sat`: the saturating mode. -/
def Obligations.RoundingRule : Prop :=
  ∀ (f : Fmt) (sat neg : Bool) (mode : Rnd) (draw n d : Nat) (x : ℤ), 0 < n → 0 < d → draw < 65536 →
    let v : ℚ := (n : ℚ) / d * 2 ^ x
    let emin : ℤ := 1 - f.bias
    let t := max (Int.log 2 v) emin
    let q : ℚ := 2 ^ (t - f.mw)
    let lo := ⌊v / q⌋
    let fr := v / q - lo
    let up : Bool := match mode with
      | .rn => decide (fr > 1 / 2) || decide (fr = 1 / 2) && decide (lo % 2 = 1)
      | .ra => decide (fr ≥ 1 / 2)
      | .rz => false
      | .ru => decide (fr > 0) && !neg
      | .rd => decide (fr > 0) && neg
      | .rs => decide (⌊fr * 2 ^ (16 : ℤ)⌋ + draw ≥ 2 ^ 16)
    let y : ℚ := (lo + if up then 1 else 0) * q
    let out := roundTo f sat mode draw neg n d x
    (y ≤ largestFinite f →
      (∃ k e, f.read out.1 = .fin neg k e ∧ (k : ℚ) * 2 ^ e = y)
      ∧ out.2 = (if y = v then 0 else if v < 2 ^ emin then fIX ||| fUF else fIX))
    ∧ (largestFinite f < y → out.2 = fOF ||| fIX
      ∧ (f.read out.1 = .inf neg ∨ ∃ k e, f.read out.1 = .fin neg k e ∧ (k : ℚ) * 2 ^ e = largestFinite f)
      ∧ (f.read out.1 = .inf neg ↔ f.ieee = true ∧ sat = false
        ∧ (mode = .rn ∨ mode = .ra ∨ mode = .rs ∨ mode = .ru ∧ neg = false ∨ mode = .rd ∧ neg = true)))

/-! ## Exchanges (chapter 13) -/

/-- Values combined in order from the identity (Table 13-3, R254): integers wrap; an FP32 step is that of R254. -/
def combined (o : XOp) (t : XTy) (vs : List W64) : W64 :=
  let w := if t.wide then 64 else 32
  if t = .f32 then BitVec.ofNat 64 ((vs.map (·.toNat)).foldl (xStep o t) (xIdentity o t))
  else
    let it := XTy.int t
    let lo := intClamp it (-2 ^ 64)
    let hi := intClamp it (2 ^ 64)
    match o with
    | .add => BitVec.ofNat 64 ((vs.map (·.toNat)).sum % 2 ^ w)
    | .min => intWrite it ((vs.map (intRead it)).foldl min hi)
    | .max => intWrite it ((vs.map (intRead it)).foldl max lo)
    | .and => vs.foldl (· &&& ·) (BitVec.ofNat 64 (2 ^ w - 1))
    | .or => vs.foldl (· ||| ·) 0
    | .xor => vs.foldl (· ^^^ ·) 0

/-- Thread j takes part in an exchange (R251): active, its guard true (under U Lowest()'s for all), no helper unless the
exchange is a quad's. -/
def takesPart (s : State) (l : Lane) (quad : Bool) (j : Nat) : Bool :=
  decide (j ∈ s.active) && s.guard l (if l.u then s.lowest else j) && (quad || !s.cur.isHelper j)

/-- The member mask of thread k: its quad, all threads for selector 0xFE, or source C (R252). -/
def exchangeMask (s : State) (l : Lane) (quad : Bool) (k : Nat) : W32 :=
  if quad then 0xF#32 <<< (4 * (k / 4)) else if l.c = .zero then BitVec.allOnes 32 else s.reg32 l.imm l.c k

/-- The participants thread k names, ascending. -/
def exchangeMembers (s : State) (l : Lane) (quad : Bool) (k : Nat) : List Nat :=
  (List.range 32).filter fun j => (exchangeMask s l quad k).getLsbD j && takesPart s l quad j

/-- An exchange with result `val` (R251, R253): XEXITED is set where the mask or quad names an absent member; a thread, no
helper, whose mask lacks its own bit traps with MEMBER_MISSING before it writes anything. -/
def ExchangeRuns (i : Instr) (l : Lane) (wide quad : Bool) (s : State) (val : Nat → W64) : Prop :=
  let m := exchangeMask s l quad
  let bad := fun k => quad = false ∧ (m k).getLsbD k = false ∧ s.cur.isHelper k = false
  let absent := fun k => (List.range 32).any fun j => (m k).getLsbD j && !takesPart s l quad j
  let thr := fun k (t : Thr) =>
    if !quad && !(m k).getLsbD k && !s.cur.isHelper k then t else if absent k then { t with xexited := true } else t
  (Placed s i l → (∀ k ∈ s.computers l, ¬bad k) → LaneRuns i l wide s (fun k => some (val k)) thr)
    ∧ LaneTraps i l wide s bad (fun k => some (val k)) thr 0x10 fun k => (m k).setWidth 64

/-- R251 to R258, R164: the exchanges take their participants' values from before the instruction (no thread being passed
over by TRET) and give each thread its own result. MBXW writes the mailbox in thread order, helpers left out. -/
def Obligations.LaneExchanges : Prop :=
  ∀ (s : State) (l : Lane) (ty : BTy) (o : XOp) (t : XTy), s.split.skipping = false →
    let v := fun w j => s.operand l w l.a j
    let has := fun quad k j => decide (j ∈ exchangeMembers s l quad k)
    let from_ := fun quad k j => if has quad k j then v ty.wide j else v ty.wide k
    let b := fun k => (s.reg32 l.imm l.b k).toNat
    (∀ excl, ExchangeRuns (.xscan l o t excl) l t.wide false s (fun k =>
      combined o t (((exchangeMembers s l false k).filter fun j => if excl then decide (j < k) else decide (j ≤ k)).map (v t.wide))))
    ∧ ExchangeRuns (.xred l o t) l t.wide false s (fun k => combined o t ((exchangeMembers s l false k).map (v t.wide)))
    ∧ ExchangeRuns (.qred l o t) l t.wide true s (fun k => combined o t ((exchangeMembers s l true k).map (v t.wide)))
    ∧ ExchangeRuns (.xshf l .idx ty) l ty.wide false s (fun k => from_ false k (b k % 32))
    ∧ ExchangeRuns (.xshf l .up ty) l ty.wide false s (fun k => if b k ≤ k then from_ false k (k - b k) else v ty.wide k)
    ∧ ExchangeRuns (.xshf l .down ty) l ty.wide false s (fun k => from_ false k (k + b k))
    ∧ ExchangeRuns (.xshf l .xor ty) l ty.wide false s (fun k => from_ false k (k ^^^ (b k % 32)))
    ∧ (∀ (p : Fin 8) (neg : Bool), ∃ r, ExchangeRuns (.xbal l p neg) l false false s r ∧ ∀ k j, j < 32 →
      (r k).getLsbD j = (has false k j && ((p = 0 || (s.cur.thread j).preds.getLsbD p.val) != neg)))
    ∧ (∃ r, ExchangeRuns (.xmatch l ty) l false false s r ∧ ∀ k j, j < 32 →
      (r k).getLsbD j = (decide (j = k) || has false k j && decide (v ty.wide j = v ty.wide k)))
    ∧ ExchangeRuns (.xfirst l ty) l ty.wide false s (fun k => v ty.wide ((exchangeMembers s l false k).headD k))
    ∧ ExchangeRuns (.xbcst l ty) l ty.wide false s (fun k => from_ false k (b s.lowest % 32))
    ∧ ExchangeRuns (.qswp l .x ty) l ty.wide true s (fun k => from_ true k (k ^^^ 1))
    ∧ ExchangeRuns (.qswp l .y ty) l ty.wide true s (fun k => from_ true k (k ^^^ 2))
    ∧ ExchangeRuns (.qswp l .diag ty) l ty.wide true s (fun k => from_ true k (k ^^^ 3))
    ∧ ExchangeRuns (.qbcst l ty) l ty.wide true s (fun k => from_ true k (4 * (k / 4) + b k % 4))
    ∧ (∀ (n : Fin 4) (mt : MbTy), Placed s (.mbxw l n mt) l →
      let w := fun k => match mt with
        | .b32 => BitVec.ofNat 64 (s.reg32 l.imm l.a k).toNat
        | .i32 => BitVec.ofInt 64 (s.reg32 l.imm l.a k).toInt
        | .n64 => s.reg64 l.imm l.a k
      let ks := (s.computers l).filter fun k => !s.cur.isHelper k
      let old := SMap.get ({} : Mbox) s.cur.mbox n.val
      ∃ u u' : State, exec (.mbxw l n mt) s = .next (u.laneEnd l.fin) ∧ u' = u.modCur (fun g => { g with mbox := s.cur.mbox })
        ∧ LaneDone s u' (.mbxw l n mt) l false (fun _ => none) (fun _ t => t)
        ∧ (∀ m, m ≠ n.val → u.cur.mbox.find m = s.cur.mbox.find m)
        ∧ SMap.get ({} : Mbox) u.cur.mbox n.val = { old with cur := (ks.map w).getLastD old.cur, since := old.since ++ ks.map w })

/-! ## Traps of lane instructions and the return (chapter 20) -/

/-- R404, R18, R121: TRAP raises SOFTWARE_TRAP with TVAL IMM32 and BPT raises BREAKPOINT with TVAL its own unit, in the first
thread that performs it and is no helper; where every such thread is a helper they do nothing. -/
def LaneSoftwareTraps : Prop :=
  ∀ (s : State) (l : Lane),
    let bad := fun k => s.cur.isHelper k = false
    LaneTraps (.trap l) l false s bad (fun _ => none) (fun _ t => t) 0x14 (fun _ => l.imm.setWidth 64)
    ∧ LaneTraps (.bpt l) l false s bad (fun _ => none) (fun _ t => t) 0x15 (fun _ => s.split.pc.setWidth 64)
    ∧ ((∀ k ∈ s.computers l, ¬bad k) →
      (Placed s (.trap l) l → LaneRuns (.trap l) l false s (fun _ => none) fun _ t => t)
      ∧ (Placed s (.bpt l) l → LaneRuns (.bpt l) l false s (fun _ => none) fun _ t => t))

/-- A cause goes to the user vector: its class is user (Table 20-1) and it was raised in user mode (R393). -/
def userTrap (m : Mode) (cause : Nat) : Prop := cause ∈ [0x03, 0x04, 0x05, 0x10, 0x14, 0x15] ∧ m = .user

/-- R393, R395, R398, R408: thread k, at a level below 2, enters the trap slot of the current group from split x, as the machine s finds
it. For a user vector of 0 the context is killed. Otherwise the thread's next level takes TCAUSE, TPC and TVAL; the trap slot runs thread k
alone at the vector, from 12 cycles on, at the split's window, with the trap's arguments; the split stops with its resume index and its
live latch entries; the mode is privileged but for a user vector. -/
def TrapEntered (s u : State) (x : Split) (k cause : Nat) (val : W64) : Prop :=
  let t := s.cur.thread k
  let c := s.context s.curTeam.ctx
  let mine := fun (e : Latch) => 0 < e.life ∧ e.gid = s.curGid ∧ e.split = s.curSlot
  let usr := userTrap s.cur.mode cause
  (usr → c.tvecUl = 0 → ∃ v : State, u = v.killContext s.curTeam.ctx cause ∧ v = { s with groups := v.groups, lanePairs := v.lanePairs })
  ∧ ((usr → c.tvecUl ≠ 0) → ∃ (b : TBank) (y lvl : Split),
    u = { s with groups := u.groups, lanePairs := u.lanePairs } ∧ OnlyGroup s.curGid { s with lanePairs := u.lanePairs } u
    ∧ b.pc = x.pc ∧ b.val = val
    ∧ b.cause.toNat = cause + 256 * k + 8192 * s.curSlot + (if s.cur.mode = .priv then 131072 else 0)
    ∧ (∀ j, u.cur.thread j = if j = k then (if t.tlevel = 0 then { t with tlevel := 1, t1 := b } else { t with tlevel := 2, t2 := b })
        else s.cur.thread j)
    ∧ (∀ n, n < 4 → u.cur.split? n = if n = s.curSlot then some y else s.cur.split? n)
    ∧ y = { x with rix := k, resuming := true, skipping := false, lat := y.lat, mode := .trapped }
    ∧ (∀ e, e ∈ y.lat ↔ e ∈ s.curPair.latch ∧ mine e.2)
    ∧ (∃ below, u.cur.tslot = some { thr := k, levels := lvl :: below, since := s.cycle }
        ∧ below = if s.curSlot = 4 then y :: ((s.cur.tslot.map fun z => z.levels.tail).getD []) else (s.cur.tslot.map (·.levels)).getD [])
    ∧ lvl.mask = BitVec.ofNat 32 (2 ^ k) ∧ lvl.wb = x.wb ∧ lvl.rd = x.rd ∧ lvl.wsp = x.wsp ∧ lvl.stack = [] ∧ lvl.mode = .ready
    ∧ lvl.age = s.cycle + 12
    ∧ lvl.args = [b.cause.setWidth 64, val, x.pc.setWidth 64, BitVec.ofNat 64 (t.tlevel + 1)]
    ∧ (usr → lvl.pc = c.tvecUl.setWidth 32 ∧ lvl.inRom = false ∧ u.cur.mode = s.cur.mode)
    ∧ (¬usr → lvl.pc = 0 ∧ lvl.inRom = true ∧ u.cur.mode = .priv)
    ∧ u.cur.regs = s.cur.regs ∧ u.cur.dirty = s.cur.dirty ∧ u.cur.queue = s.cur.queue)

/-- R399: of two splits that trap in one cycle the lower takes the slot. `u` is `s` with the first level of trap slot z of the current group
undone, its split m held with the trap. -/
def TrapDisplaced (s u : State) (z : TSlot) (m : Nat) : Prop :=
  let b := (s.cur.thread z.thr).t1
  u = { s with groups := u.groups } ∧ OnlyGroup s.curGid s u ∧ u.cur.tslot = none
    ∧ u.cur.mode = (if b.cause.getLsbD 17 then .priv else .user)
    ∧ (∀ j, u.cur.thread j = if j = z.thr then { s.cur.thread j with tlevel := 0 } else s.cur.thread j)
    ∧ (∀ n, n < 4 → u.cur.split? n = if n = m then (s.cur.split? m).map fun y => { y with mode := .held (b.cause.toNat % 64) b.val }
        else s.cur.split? n)
    ∧ u.cur.regs = s.cur.regs ∧ u.cur.dirty = s.cur.dirty ∧ u.cur.queue = s.cur.queue ∧ u.cur.team = s.cur.team ∧ u.cur.lp = s.cur.lp

/-- R393, R395, R398, R399, R408: a lane trap in thread k of the current split. At level 2 the context is killed. The trap enters the
slot where the slot serves the thread itself, where it is free, was not freed in this cycle and no split is held, and where a higher
split took it in this cycle, which is then held. Otherwise the split waits with its trap. -/
def LaneTrapEntry : Prop :=
  LaneSoftwareTraps ∧ ∀ (s : State) (x : Split) (k cause : Nat) (val : W64),
    s.curSlot ≤ 4 → s.cur.split? s.curSlot = some x → k < 32 → cause < 64 →
    let t := s.cur.thread k
    let u := s.laneTrap k cause val
    let noneHeld := ∀ p ∈ s.cur.splits, ∀ c v, p.2.mode ≠ .held c v
    let open_ := s.cur.tslot = none ∧ s.cur.slotFrom ≤ s.cycle ∧ (∀ c v, x.mode ≠ .held c v) ∧ noneHeld
    let own := ∃ z, s.cur.tslot = some z ∧ z.thr = k
    let last := fun (z : TSlot) (m : Nat) => s.cur.tslot = some z ∧ z.thr ≠ k ∧ z.since = s.cycle ∧ z.levels.length = 1
      ∧ m = (s.cur.thread z.thr).t1.cause.toNat / 8192 % 8 ∧ s.curSlot < m ∧ m < 4
    (2 ≤ t.tlevel → ∃ v : State, u = v.killContext s.curTeam.ctx cause ∧ v = { s with groups := v.groups, lanePairs := v.lanePairs })
    ∧ (t.tlevel < 2 → open_ ∨ own → TrapEntered s u x k cause val)
    ∧ (∀ z m, last z m → t.tlevel < 2 → ∃ d, TrapDisplaced s d z m ∧ TrapEntered d u x k cause val)
    ∧ (t.tlevel < 2 → ¬open_ → ¬own → (∀ z, s.cur.tslot = some z → z.since = s.cycle → z.levels.length = 1 →
          (s.cur.thread z.thr).t1.cause.toNat / 8192 % 8 ≤ s.curSlot) →
        ∃ y, u = { s with groups := u.groups, lanePairs := u.lanePairs } ∧ OnlyGroup s.curGid { s with lanePairs := u.lanePairs } u
        ∧ u.cur = s.cur.setSplit s.curSlot y ∧ y = { x with rix := k, resuming := true, skipping := false, lat := y.lat, mode := .held cause val })

/-- R401, R392, R45: TRET of a handler in the trap slot. The thread's level and the slot's level fall, the mode is the
bank's; a slot that is free is free to a trap from the next cycle; the trapped split is ready to perform its instruction again from its
resume index, parks under .park, passes the thread over under .skip, and arrives at a new run where the handler changed TPC. Outside a handler TRET is privileged, and in
privileged mode it stops: the manual gives it no effect there. -/
def LaneTrapReturn : Prop :=
  ∀ (s : State) (l : Lane),
    let rets := [Instr.tret l, .tretSkip l, .tretVal l, .tretPark l]
    (∀ i ∈ rets, s.cur.mode = .user → s.curSlot ≠ 4 →
      exec i s = .next ((s.modSplit fun x => { x with ins := some i, whole := true }).laneTrap s.lowest 0x02 0))
    ∧ (∀ i ∈ rets, s.cur.mode = .priv → s.curSlot ≠ 4 → s.misplaced i l = false → exec i s = .fault .returnAtLevelZero)
    ∧ (∀ (ts : TSlot) (x : Split) (t : Nat), s.curSlot = 4 → s.cur.tslot = some ts → s.misplaced (.tret l) l = false → l.fin = .none →
      let th := s.cur.thread ts.thr
      let b := if th.tlevel = 2 then th.t2 else th.t1
      let cause := b.cause.toNat % 64
      let byUser := cause ∈ [0x03, 0x04, 0x05, 0x10, 0x14, 0x15] ∧ b.cause.getLsbD 17 = false
      t = b.cause.toNat / 8192 % 8 → t < 4 → s.cur.splits.find t = some x →
      -- the group as the handler leaves it, with the trapped split y
      let left := fun (g : Group) (y : Split) =>
        (∀ j, g.thread j = if j = ts.thr then { th with tlevel := th.tlevel - 1 } else s.cur.thread j)
        ∧ g.tslot = (if ts.levels.tail = [] then none else some { ts with levels := ts.levels.tail })
        ∧ g.slotFrom = (if ts.levels.tail = [] then s.cycle + 1 else s.cur.slotFrom)
        ∧ g.mode = (if b.cause.getLsbD 17 then .priv else .user)
        ∧ (∀ n, n < 4 → g.splits.find n = if n = t then some y else s.cur.splits.find n)
      let rest := fun (u : State) => (∀ g, g ≠ s.curGid → u.groups.find g = s.groups.find g) ∧ u.teams = s.teams ∧ u.mem = s.mem
      let after := fun (u : State) (y : Split) => rest u ∧ left u.cur y
      let again := fun (mode : SMode) (skip : Bool) => { x with resuming := true, skipping := skip, age := s.cycle, mode := mode }
      let fresh := fun (mode : SMode) (y : Split) => y = { x with pc := b.pc, pos := 0, lat := [], part := [], gmask := 0, ins := none, whole := false, count := 0, rix := 0, resuming := false, skipping := false, age := s.cycle, mode := mode }
      (s.cur.mode = .priv ∨ byUser →
        ((b.pc = x.pc → ∃ u, exec (.tret l) s = .next u ∧ after u (again .ready false) ∧ u.cur.regs = s.cur.regs)
        ∧ (b.pc ≠ x.pc → ∃ u g y, exec (.tret l) s = .next u ∧ rest u ∧ left g y ∧ fresh .ready y ∧ g.regs = s.cur.regs
          ∧ u.cur = g.arrive s.cycle t y))
        ∧ (b.pc = x.pc → x.whole = false → (∃ j jl, x.ins = some j ∧ laneOf j = some jl ∧ never jl = false ∧ jl.ha = .none ∧ jl.hb = .none ∧ jl.hc = .none) →
            (∃ u, exec (.tretSkip l) s = .next u ∧ after u (again .ready true) ∧ u.cur.regs = s.cur.regs)
            ∧ (∀ d w, (x.ins.bind dstOf) = some (.t d, w) → tretSrcOk w l.a = true →
              let e := stackEntry s.curTeam.d x.wb d.val
              let e2 := stackEntry s.curTeam.d x.wb (d.val + 1)
              let v := s.operand l w l.a s.lowest
              let k := b.cause.toNat / 256 % 32
              ∃ u, exec (.tretVal l) s = .next u ∧ after u (again .ready true)
                ∧ ∀ j n, n < 256 → u.cur.rget j n = if j = k ∧ w = true ∧ n = e2 then (v >>> 32).setWidth 32
                    else if j = k ∧ n = e then v.setWidth 32 else s.cur.rget j n))
        ∧ (s.cur.mode = .priv → b.pc = x.pc → ∃ u, exec (.tretPark l) s = .next u ∧ after u (again (.parked cause) false)))
      ∧ (s.cur.mode = .user → ¬byUser → ∀ i ∈ rets,
        exec i s = .next ((s.modSplit fun x => { x with ins := some i, whole := true }).laneTrap s.lowest 0x02 0))
      ∧ (s.cur.mode = .user → byUser → exec (.tretPark l) s = .next s.killCur))

/-- What `LaneTrapEntry`, `LaneTrapReturn` state, together.
Where the manual leaves a point open, the clause is the model's choice: log entry 27. -/
def Obligations.LaneTraps : Prop := LaneTrapEntry ∧ LaneTrapReturn

/-! ## Control flow (chapter 19) -/

/-- R381: the join check where a split arrives at a run start, and R383's merge. -/
def RunStarts : Prop :=
  ∀ (g : Group) (cyc n : Nat) (x : Split),
    let plain := fun y => (g.setSplit n (Split.ready y cyc)).mergeStarts
    (x.stack = [] → g.arrive cyc n x = plain x)
    ∧ ∀ e rest, x.stack = e :: rest →
      (e.ja ≠ x.pc → g.arrive cyc n x = plain x)
      ∧ (e.ja = x.pc → e.kind = .call → g.arrive cyc n x = plain x)
      ∧ (e.ja = x.pc → e.kind = .div → g.arrive cyc n x = (g.setSplit n { (x.ready cyc) with mode := .waitJoin }).joins cyc)
      ∧ (e.ja = x.pc → e.kind = .stk → e.pm = 0 → g.arrive cyc n x = plain { x with mask := g.unretired (e.am ||| x.mask), stack := rest })
      ∧ (e.ja = x.pc → e.kind = .stk → e.pm ≠ 0 → g.arrive cyc n x
          = g.arrive cyc n { x with stack := { e with am := e.am ||| x.mask, pm := 0 } :: rest, mask := e.pm, pc := e.fa })

/-- The state a branch-class instruction acts in: the current split has begun it for all its threads (R377). -/
def branchBegun (s : State) (i : Instr) (l : Lane) : State := s.modSplit fun x => { x with gmask := s.guards l, ins := some i, whole := true }

/-- A branch-class instruction ends its run and the group goes on as g (R41). -/
def BranchEnds (i : Instr) (l : Lane) (s : State) (g : Group → Group) : Prop :=
  let b := branchBegun s i l
  exec i s = .next ((b.dropLatches.offLane).setGroup s.curGid (g b.cur))

/-- A branch-class instruction traps in Lowest() with nothing done (R378, R386). -/
def BranchTraps (i : Instr) (l : Lane) (s : State) (cause : Nat) (val : W64) : Prop :=
  exec i s = .next ((branchBegun s i l).laneTrap s.lowest cause val)

/-- R378, R380, R381, R383, R386 to R389: where BRL, JOIN, CALL, CALLR and RET go, what they push and pop, and how they trap.
Where the manual leaves a point open, the clause is the model's choice: log entries 28, 29, 34. -/
def Obligations.LaneControlFlow : Prop :=
  RunStarts ∧ ∀ (s : State) (l : Lane),
    let x := s.split
    let b : ℤ := x.pc.toNat
    let cyc := s.cycle
    let n := s.curSlot
    let d := s.curTeam.kernel.regs16 * 16
    let inside := fun (u : ℤ) => 0 ≤ u ∧ u < s.curTeam.kernel.lunits
    let unit := fun (u : ℤ) => BitVec.ofInt 32 u
    let free := fun m => s.cur.splits.find m = none ∧ m ∉ s.cur.slotsHeld
    -- the split with what describes the instruction
    let y : Split := { x with gmask := s.guards l, whole := true }
    let goes := fun (i : Instr) (u : ℤ) => (inside u → BranchEnds i l s fun g => g.arrive cyc n { y with ins := some i, pc := unit u })
      ∧ (¬inside u → BranchTraps i l s 0x07 (BitVec.ofInt 64 u))
    (Placed s (.brl l) l →
      let t := b + (l.imm.extractLsb' 0 16).toInt
      let j := b + (l.imm.extractLsb' 16 16).toInt
      let takes := fun k => s.guard l (if l.u then s.lowest else k)
      let tk := maskOf (s.active.filter fun k => takes k)
      let nk := x.mask &&& ~~~tk
      let z : Split := { y with ins := some (.brl l) }
      let folds := ∃ e rest, x.stack = e :: rest ∧ e.kind ≠ .call ∧ e.ja = unit j ∧ (t = j ∨ b + 1 = j)
      (tk = 0 → goes (.brl l) (b + 1))
      ∧ (tk ≠ 0 → nk = 0 ∨ t = b + 1 → goes (.brl l) t)
      ∧ (tk ≠ 0 → nk ≠ 0 → t ≠ b + 1 →
        (¬inside t → BranchTraps (.brl l) l s 0x07 (BitVec.ofInt 64 t))
        ∧ (inside t → ¬inside (b + 1) → BranchTraps (.brl l) l s 0x07 (BitVec.ofInt 64 (b + 1)))
        ∧ (inside t → inside (b + 1) → ¬inside j → BranchTraps (.brl l) l s 0x07 (BitVec.ofInt 64 j))
        ∧ (inside t → inside (b + 1) → inside j →
          (∀ e rest, x.stack = e :: rest → e.kind ≠ .call → e.ja = unit j →
            (t = j → BranchEnds (.brl l) l s fun g => g.arrive cyc n { z with stack := { e with am := e.am ||| tk } :: rest, mask := nk, pc := unit (b + 1) })
            ∧ (t ≠ j → b + 1 = j → BranchEnds (.brl l) l s fun g => g.arrive cyc n { z with stack := { e with am := e.am ||| nk } :: rest, mask := tk, pc := unit t }))
          ∧ (¬folds → 8 ≤ x.stack.length → BranchTraps (.brl l) l s 0x0E 0)
          ∧ (¬folds → x.stack.length < 8 → n < 4 → ∀ m, m < 4 → free m → (∀ q, q < m → ¬free q) →
            BranchEnds (.brl l) l s fun g =>
              let e : REntry := { kind := .div, ja := unit j, fa := 0, pm := x.mask, am := 0, id := s.cur.divid + 1 }
              ({ g with divid := s.cur.divid + 1 } : Group).arrive cyc n { z with mask := tk, pc := unit t, stack := e :: x.stack }
                |>.arrive cyc m { pc := unit (b + 1), mask := nk, wb := x.wb, rd := x.rd, spill := x.spill, wsp := x.wsp, stack := e :: x.stack })
          ∧ (¬folds → x.stack.length < 8 → (n = 4 ∨ ∀ m, m < 4 → ¬free m) →
            BranchEnds (.brl l) l s fun g =>
              let e : REntry := { kind := .stk, ja := unit j, fa := unit (b + 1), pm := nk, am := 0, id := 0 }
              g.arrive cyc n { z with mask := tk, pc := unit t, stack := e :: x.stack }))))
    ∧ (Placed s (.join l) l → goes (.join l) (b + l.imm.toInt))
    ∧ (∀ (f : BitVec 4) (i : Instr) (u : ℤ), i = .call l f ∧ u = b + l.imm.toInt ∨ i = .callr l f ∧ u = (s.reg32 l.imm l.a s.lowest).toNat ∧ s.staleLatch l = false →
      Placed s i l →
      let fr := 4 * f.toNat
      (¬inside u → BranchTraps i l s 0x07 (BitVec.ofInt 64 u))
      ∧ (inside u → d < x.rd + fr + 48 → BranchTraps i l s 0x0C (BitVec.ofNat 64 fr))
      ∧ (inside u → x.rd + fr + 48 ≤ d → 8 ≤ x.stack.length → BranchTraps i l s 0x0E 0)
      ∧ (inside u → x.rd + fr + 48 ≤ d → x.stack.length < 8 → BranchEnds i l s fun g => g.arrive cyc n { y with
          ins := some i, pc := unit u, wb := BitVec.ofNat 8 ((x.wb.toNat + fr) % d), rd := x.rd + fr,
          stack := { kind := .call, ja := x.pc + 1, fa := BitVec.ofNat 32 fr, pm := 0, am := 0, id := 0 } :: x.stack }))
    ∧ (Placed s (.ret l) l →
      (x.stack = [] → 0 < x.spill → BranchTraps (.ret l) l s 0x0E 1)
      ∧ (x.stack = [] → x.spill = 0 → exec (.ret l) s = .next (branchBegun s (.ret l) l).killCur)
      ∧ ∀ e rest, x.stack = e :: rest →
        let f := e.fa.toNat % 64
        (e.kind ≠ .call → exec (.ret l) s = .next (branchBegun s (.ret l) l).killCur)
        ∧ (e.kind = .call → ¬inside e.ja.toNat → BranchTraps (.ret l) l s 0x07 (BitVec.ofNat 64 e.ja.toNat))
        ∧ (e.kind = .call → inside e.ja.toNat → x.rd < f → BranchTraps (.ret l) l s 0x0D (BitVec.ofNat 64 f))
        ∧ (e.kind = .call → inside e.ja.toNat → f ≤ x.rd → f ≤ d → BranchEnds (.ret l) l s fun g => g.arrive cyc n { y with
            ins := some (.ret l), pc := e.ja, wb := BitVec.ofNat 8 ((x.wb.toNat + (d - f)) % d), rd := x.rd - f, stack := rest }))

/-- R36, R41, R385, R390: SLEEP and YIELD act on the whole split where Lowest()'s guard is true. -/
def LaneSleeps : Prop :=
  ∀ (s : State) (l : Lane) (ev : Bool),
    let begun := fun (i : Instr) => branchBegun s i l
    let on := s.guard l s.lowest
    (Placed s (.sleep l ev) l →
      exec (.sleep l ev) s = .next ((if on ∧ (l.imm ≠ 0 ∨ ev = true)
        then (begun (.sleep l ev)).modSplit fun x => { x with sleeping := true, wake := if l.imm = 0 then none else some (s.cycle + l.imm.toNat), ev := ev, evSeen := false }
        else begun (.sleep l ev)).laneEnd l.fin))
    ∧ (Placed s (.yield l) l →
      exec (.yield l) s = .next ((if on then (begun (.yield l)).modSplit fun x => { x with yielded := true } else begun (.yield l)).laneEnd l.fin))

/-- R36, R37, R41, R384, R385: what the end of an instruction does. With END none the split goes to the next unit and position; with FALL
the run ends and the next unit is a run start; with EXIT each live thread whose own guard is true becomes a helper, or
its quad retires once it has no live thread (R250), and a split that no thread leaves goes on as for FALL; with NEXT a split with nothing on its stack waits. Latch entries age: those of the split
with one instruction left to live, and on a run end all of them, are gone; those held now live for two more, where no lower split of the group has written the entry in the same cycle.
Where the manual leaves a point open, the clause is the model's choice: log entries 29, 34. -/
def Obligations.LaneRunEnds : Prop :=
  LaneSleeps ∧ ∀ (u : State) (x : Split), u.cur.split? u.curSlot = some x → u.curSlot ≤ 4 → x.spill = 0 →
    SMap.sorted x.part = true → SMap.sorted u.curPair.latch = true →
    let y : Split := { x with pos := x.pos + 1, rix := 0, resuming := false, skipping := false, part := [], gmask := 0, count := 0, ins := none, whole := false }
    let mine := fun (e : Latch) => decide (0 < e.life) && decide (e.gid = u.curGid) && decide (e.split = u.curSlot)
    let frame := fun (v : State) => v = { u with groups := v.groups, lanePairs := v.lanePairs }
      ∧ ∀ g, g ≠ u.curGid → v.groups.find g = u.groups.find g
    let latch := fun (v : State) j => v.curPair.latch.find j
    (frame (u.laneEnd .none) ∧ (u.laneEnd .none).cur = u.cur.setSplit u.curSlot { y with pc := x.pc + 1 }
      ∧ ∀ j,
        let aged := (u.curPair.latch.find j).bind fun e => if mine e then (if e.life = 1 then none else some { e with life := e.life - 1 }) else some e
        let lower := ∃ e, u.curPair.latch.find j = some e ∧ e.gid = u.curGid ∧ e.split < u.curSlot ∧ e.cyc = u.cycle ∧ 0 < e.life
        (∀ v, x.part.find j = some v → ¬lower → latch (u.laneEnd .none) j = some { gid := u.curGid, split := u.curSlot, life := 2, vals := v, cyc := u.cycle })
        ∧ (x.part.find j = none ∨ lower → latch (u.laneEnd .none) j = aged))
    ∧ (frame (u.laneEnd .fall) ∧ (u.laneEnd .fall).cur = (u.cur.setSplit u.curSlot y).arrive u.cycle u.curSlot { y with pc := x.pc + 1 }
      ∧ ∀ j e, latch (u.laneEnd .fall) j = some e → mine e = false)
    ∧ (u.curSlot < 4 → x.stack = [] → frame (u.laneEnd .next)
      ∧ (u.laneEnd .next).cur = ((u.cur.setSplit u.curSlot y).setSplit u.curSlot { (y.ready u.cycle) with mode := .waitNext }).joins u.cycle)
    ∧ (u.curSlot < 4 → ∀ j, j < 32 →
      let out := fun k => x.gmask.getLsbD k = true ∧ (u.cur.thread k).life = .live
      let quad := fun k => k / 4 = j / 4
      let after := ((u.laneEnd .exit).cur.thread j).life
      ((∃ k, k < 32 ∧ quad k ∧ out k) → (∀ k, k < 32 → quad k → (u.cur.thread k).life = .live → out k) → after = .retired)
      ∧ ((∃ k, k < 32 ∧ quad k ∧ (u.cur.thread k).life = .live ∧ ¬out k) →
        (out j → after = .helper) ∧ (¬out j → after = (u.cur.thread j).life))
      ∧ ((∀ k, k < 32 → quad k → ¬out k) → after = (u.cur.thread j).life))
    ∧ (u.curSlot < 4 → (threadsOf x.gmask).all (fun k => !u.cur.isLive k) = true → (threadsOf x.mask).any u.cur.isLive = true → frame (u.laneEnd .exit)
      ∧ (u.laneEnd .exit).cur = ((u.cur.setSplit u.curSlot y).arrive u.cycle u.curSlot { y with pc := x.pc + 1 }).joins u.cycle)

/-! ## Lane memory instructions (chapter 6) -/

/-- The integer type an access type is widened as (R117). -/
def accessInt : MTy → ITy
  | .i8 => .i8 | .n8 => .n8 | .i16 => .i16 | .n16 => .n16 | .i32 => .i32 | .n32 => .n32 | .b32 => .n32 | .i64 => .i64 | .n64 => .n64

/-- Bytes of an access type (R116). -/
def accessBytes : MTy → Nat
  | .i8 | .n8 => 1 | .i16 | .n16 => 2 | .i32 | .n32 | .b32 => 4 | .i64 | .n64 => 8

/-- The far result of thread k: value v for the registers of the threads its result goes to (R39, R122). -/
def farOf (s : State) (l : Lane) (wide : Bool) (k : Nat) (v : W64) : List Far :=
  match l.d with
  | .t n =>
    let regs := fun (j : Nat) => ({ thr := j, ent := s.entry n.val } : FarDst)
      :: if wide then [{ thr := j, ent := s.entry (n.val + 1), high := true }] else []
    [{ dsts := (if l.u then s.active else [k]).flatMap regs, src := .value v }]
  | _ => []

/-- Lane instruction i completes with near results `val` and the far results `far` on their way (R122); beside these,
`undo` takes back what it changes. -/
def LaneSends (i : Instr) (l : Lane) (wide : Bool) (s : State) (val : Nat → Option W64) (far : List Far) (u : State)
    (undo : State → State) : Prop :=
  exec i s = .next (u.laneEnd l.fin) ∧ u.cur.far = s.cur.far ++ far
    ∧ LaneDone s ((undo u).modCur fun g => { g with far := s.cur.far }) i l wide val fun _ t => t

/-- Lane instruction i stops in the first thread that computes, before anything is done (R6). -/
def FirstStops (i : Instr) (l : Lane) (wide : Bool) (s : State) (k : Nat) (stop : State → State) : Prop :=
  Placed s i l → (s.computers l).head? = some k → LaneStops i l wide s k (fun _ => none) (fun _ t => t) stop

/-- The same with a trap. -/
def FirstTraps (i : Instr) (l : Lane) (wide : Bool) (s : State) (k cause : Nat) (tval : W64) : Prop :=
  FirstStops i l wide s k fun u => u.laneTrap k cause tval

/-- The scratch address of thread k (R118). -/
def scratchAddr (s : State) (l : Lane) (k : Nat) : Nat := (s.reg32 l.imm l.a k + l.imm).toNat

/-- No group waits for an event at its scratchpad, nor has one a wait on a ring or a counter that may end. -/
def NoEventWait (s : State) : Prop := ∀ p ∈ s.groups, wakeGroup s.timeNs p.2 = p.2 ∧ ∀ t : Team, p.2.takes t = p.2

/-- No acquire of a thread of the current group has still to follow an atomic at the host or at a peer (R134). -/
def NoAcquireOut (s : State) : Prop := ∀ k, s.acqWaits s.curGid k = false

/-- No load of the lane streams waits for a frame to be filled. -/
def NoFillWait (s : State) : Prop := ∀ p ∈ s.groups, ∀ f, p.2.waitsFrame f = false

/-- R118, R121, R122, R124, R126: LDS and LDC. A result of the own core is near, one through a window to another core far;
the bytes are widened by the type. A misaligned address raises MISALIGNED and one that names nothing PERMISSION_FAULT, in the
first such thread; a helper gets zero instead. LDC reads the constant store of 4,096 bytes. -/
def LaneScratchLoads : Prop :=
  ∀ (s : State) (l : Lane) (ty : MTy), NoAcquireOut s →
    let n := accessBytes ty
    let a := scratchAddr s l
    let tgt := fun k => if a k % n = 0 then s.scratchAt s.cur.team (a k) else none
    let helper := s.cur.isHelper
    let bad := fun k => tgt k = none ∧ helper k = false
    let far : Nat → Bool := fun k => match tgt k with
      | some (w, _) => decide ((s.team w).core ≠ s.curTeam.core)
      | none => false
    let v := fun k => match tgt k with
      | some (w, off) => intWrite (accessInt ty) (rdNat (s.team w).scratch off n)
      | none => 0
    let cause := fun k => if a k % n = 0 then 0x07 else 0x05
    let cbad := fun k => (a k % n ≠ 0 ∨ 4096 ≤ a k) ∧ helper k = false
    let cv := fun k => if a k % n = 0 ∧ a k < 4096 then intWrite (accessInt ty) (rdNat s.curTeam.const (a k) n) else 0
    (Placed s (.lds l ty) l → (∀ k ∈ s.computers l, ¬bad k) →
      ∃ u, LaneSends (.lds l ty) l ty.wide s (fun k => if far k then none else some (v k))
        ((s.computers l).flatMap fun k => if far k then farOf s l ty.wide k (v k) else []) u id)
    ∧ ((∀ k ∈ s.computers l, far k = false) →
      LaneTrapsAs (.lds l ty) l ty.wide s bad (fun k => some (v k)) (fun _ t => t) cause fun k => BitVec.ofNat 64 (a k))
    ∧ ((∀ k ∈ s.computers l, ¬cbad k) → LaneGives (.ldc l ty) l ty.wide s cv)
    ∧ LaneTrapsAs (.ldc l ty) l ty.wide s cbad (fun k => some (cv k)) (fun _ t => t) cause fun k => BitVec.ofNat 64 (a k)

/-- R107, R113, R118, R121, R124, R125: STS and STFE store in thread order, the last thread's bytes staying; STFE sets the full
bits of the granules it stores to; LDFE.clear clears them, LDFE.keep leaves them, and both wait at an empty granule. A watched
byte raises WATCH_WORD_WRITE, but for LDFE.keep, which reads it without asking the granule's bit. (A full/empty bit that
changes also wakes the groups that wait for an event, R347; here none does.) -/
def LaneScratchStores : Prop :=
  ∀ (s : State) (l : Lane) (ty : MTy), NoEventWait s → NoAcquireOut s →
    let n := accessBytes ty
    let a := scratchAddr s l
    let tgt := fun k => if a k % n = 0 then s.scratchAt s.cur.team (a k) else none
    let helper := s.cur.isHelper
    let ks := (s.computers l).filter fun k => !helper k
    let plain := fun k => match tgt k with
      | some (w, off) => (s.team w).touches off n = false
      | none => False
    let near := fun k => match tgt k with
      | some (w, _) => (s.team w).core = s.curTeam.core
      | none => True
    let undo := fun (u : State) => { u with teams := s.teams }
    let covers := fun w x k => match tgt k with
      | some (w', off) => decide (w' = w) && decide (off ≤ x) && decide (x < off + n)
      | none => false
    let stored := fun (u : State) => ∀ w x, SMap.get 0 (u.team w).scratch x =
      match (ks.filter (covers w x)).getLast? with
      | some k => byteOf (s.operand l ty.wide l.b k) (x - ((tgt k).map (·.2)).getD 0)
      | none => SMap.get 0 (s.team w).scratch x
    let touched := fun w g => ks.any fun k => match tgt k with
      | some (w', off) => decide (w' = w) && decide (off / 16 = g)
      | none => false
    let v := fun k => match tgt k with
      | some (w, off) => some (BitVec.ofNat 64 (rdNat (s.team w).scratch off n))
      | none => some 0
    let full := fun k => match tgt k with
      | some (w, off) => (s.team w).isFull (off / 16) = true
      | none => False
    let readable := fun k => match tgt k with
      | some (w, off) => (s.team w).isFull (off / 16) = true ∨ (s.team w).touches off n = true
      | none => False
    let stores := (∀ k ∈ ks, plain k)
    (Placed s (.sts l ty) l → stores → ∃ u, LaneSends (.sts l ty) l false s (fun _ => none) [] u undo ∧ stored u
      ∧ ∀ w, u.team w = { s.team w with scratch := (u.team w).scratch })
    ∧ (Placed s (.stfe l ty) l → ty.wide = true ∨ n = 4 → stores → ∃ u, LaneSends (.stfe l ty) l false s (fun _ => none) [] u undo ∧ stored u
      ∧ (∀ w, u.team w = { s.team w with scratch := (u.team w).scratch, full := (u.team w).full })
      ∧ ∀ w g, (u.team w).isFull g = ((s.team w).isFull g || touched w g))
    ∧ (Placed s (.ldfeKeep l ty) l → ty.wide = true ∨ n = 4 → (∀ k ∈ s.computers l, near k) → (∀ k ∈ ks, readable k) →
      LaneRuns (.ldfeKeep l ty) l ty.wide s v fun _ t => t)
    ∧ (Placed s (.ldfeClear l ty) l → ty.wide = true ∨ n = 4 → (∀ k ∈ s.computers l, near k ∧ (helper k = true → tgt k = none ∨ plain k)) →
      (∀ k ∈ ks, full k ∧ plain k) →
      (ks.map fun k => (tgt k).map fun p => (p.1, p.2 / 16)).Nodup →
      ∃ u, LaneSends (.ldfeClear l ty) l ty.wide s v [] u undo
        ∧ (∀ w, u.team w = { s.team w with full := (u.team w).full })
        ∧ ∀ w g, (u.team w).isFull g = ((s.team w).isFull g && !touched w g))
    ∧ (∀ k w off, helper k = false → tgt k = some (w, off) → (s.team w).isFull (off / 16) = false → (s.team w).touches off n = false →
      FirstStops (.ldfeKeep l ty) l ty.wide s k (fun u => u.suspend k (.granule w (off / 16)))
      ∧ FirstStops (.ldfeClear l ty) l ty.wide s k (fun u => u.suspend k (.granule w (off / 16))))
    ∧ (∀ k, helper k = false → ∀ i ∈ [Instr.sts l ty, .stfe l ty, .ldfeKeep l ty, .ldfeClear l ty],
      let wide := i ≠ .sts l ty ∧ i ≠ .stfe l ty ∧ ty.wide = true
      (a k % n ≠ 0 → FirstTraps i l wide s k 0x05 (BitVec.ofNat 64 (a k)))
      ∧ (a k % n = 0 → tgt k = none → FirstTraps i l wide s k 0x07 (BitVec.ofNat 64 (a k)))
      ∧ (∀ w off, i ≠ .ldfeKeep l ty → tgt k = some (w, off) → (s.team w).touches off n = true →
        FirstTraps i l wide s k 0x0F (BitVec.ofNat 64 (a k))))

/-- What an atomic leaves (Table 6-4): integers at the type's width, FP32 by R132. -/
def atomicNew (o : AOp) (ty : ATy) (old b : Nat) : Nat :=
  let w := if ty.wide then 64 else 32
  let num : Nat → ℤ := fun v => match ty with
    | .i32 => (BitVec.ofNat 32 v).toInt
    | .i64 => (BitVec.ofNat 64 v).toInt
    | _ => (v : ℤ)
  if ty = .f32 then (if o = .add ∨ o = .min ∨ o = .max then aopNew o ty old b else b)
  else match o with
    | .add => (old + b) % 2 ^ w
    | .min => if num old ≤ num b then old else b
    | .max => if num b ≤ num old then old else b
    | .and => old &&& b
    | .or => old ||| b
    | .xor => old ^^^ b
    | .exch => b
    | .inc => if old ≥ b then 0 else old + 1
    | .dec => if old = 0 ∨ old > b then b else old - 1

/-- One read-modify-write: where, of how many bytes, and what it leaves of what stands there. -/
structure Rmw where
  place : Nat
  off : Nat
  n : Nat
  new : Nat → Nat

/-- The scratchpad of team w after read-modify-writes in order. -/
def scratchAfter (w : Nat) (m : SMap Byte) (ops : List Rmw) : SMap Byte :=
  ops.foldl (fun m o => if o.place = w then wrNat m o.off o.n (o.new (rdNat m o.off o.n)) else m) m

/-- The lines at their L2 homes after read-modify-writes in order. -/
def linesAfter (m : Nat → BitVec 1024) (ops : List Rmw) : Nat → BitVec 1024 :=
  ops.foldl (fun m o k => if o.place = k then lset (m k) o.off o.n (o.new (lget (m k) o.off o.n)) else m k) m

/-- R118, R121, R122, R131, R133, R134, R113: ATOMS and ACASS in thread order: each thread gets the value before its own
operation (near, or far through a window to another core), and the scratchpads hold what all of them leave, nothing else
changing. On a watched byte an arrival (a 64-bit add at a counter's COUNT) is performed and everything else raises
WATCH_WORD_WRITE. REL and ACQ act at the windows' scope; here the core's L1 holds nothing for them to do. -/
def LaneScratchAtomics : Prop :=
  ∀ (s : State) (l : Lane) (ty : ATy) (acq rel : Bool) (i : Instr) (new : Nat → Nat → Nat) (isAdd : Prop), NoEventWait s → NoAcquireOut s →
    (acq = true ∨ rel = true → s.mem.l1Of s.curTeam.core = []) →
    let wide := ty.wide
    let b := fun k => (s.operand l wide l.b k).toNat
    let c := fun k => (s.operand l wide l.c k).toNat
    (∃ o, i = .atoms l o ty acq rel ∧ (∀ k x, new k x = atomicNew o ty x (b k)) ∧ (isAdd ↔ o = .add ∧ (ty = .i64 ∨ ty = .n64)))
      ∨ (i = .acass l ty acq rel ∧ (∀ k x, new k x = if x = b k then c k else x) ∧ ¬isAdd) →
    let n := if wide then 8 else 4
    let a := scratchAddr s l
    let tgt := fun k => if a k % n = 0 then s.scratchAt s.cur.team (a k) else none
    let helper := s.cur.isHelper
    let ks := (s.computers l).filter fun k => !helper k
    let ok := fun k => match tgt k with
      | some (w, off) => (s.team w).touches off n = false ∨ isAdd ∧ (s.team w).hasCounter off = true
      | none => False
    let far : Nat → Bool := fun k => match tgt k with
      | some (w, _) => decide ((s.team w).core ≠ s.curTeam.core)
      | none => false
    let op := fun k : Nat => ({ place := ((tgt k).map (·.1)).getD 0, off := ((tgt k).map (·.2)).getD 0, n := n, new := new k } : Rmw)
    let old := fun k => match tgt k with
      | some (w, off) => BitVec.ofNat 64 (rdNat (scratchAfter w (s.team w).scratch ((ks.filter (· < k)).map op)) off n)
      | none => 0
    (Placed s i l → (∀ k ∈ ks, ok k) → ∃ u,
      LaneSends i l wide s (fun k => if helper k || far k || decide (l.d = .discard) then none else some (old k))
        (ks.flatMap fun k => if far k then farOf s l wide k (old k) else []) u (fun u => { u with teams := s.teams })
      ∧ (∀ w, u.team w = { s.team w with scratch := (u.team w).scratch })
      ∧ (∀ w x, SMap.get 0 (u.team w).scratch x = SMap.get 0 (scratchAfter w (s.team w).scratch (ks.map op)) x)
      ∧ ∀ w x, (∀ k ∈ ks, ∀ off, tgt k = some (w, off) → ¬(off ≤ x ∧ x < off + n)) → SMap.get 0 (u.team w).scratch x = SMap.get 0 (s.team w).scratch x)
    ∧ ∀ k, helper k = false →
      (a k % n ≠ 0 → FirstTraps i l wide s k 0x05 (BitVec.ofNat 64 (a k)))
      ∧ (a k % n = 0 → tgt k = none → FirstTraps i l wide s k 0x07 (BitVec.ofNat 64 (a k)))
      ∧ (∀ w off, tgt k = some (w, off) → (s.team w).touches off n = true → ¬(isAdd ∧ (s.team w).hasCounter off = true) →
        FirstTraps i l wide s k 0x0F (BitVec.ofNat 64 (a k)))

/-- What `LaneScratchLoads`, `LaneScratchStores`, `LaneScratchAtomics` state, together.
Where the manual leaves a point open, the clause is the model's choice: log entries 33, 86. -/
def Obligations.LaneScratch : Prop := LaneScratchLoads ∧ LaneScratchStores ∧ LaneScratchAtomics

/-- An address translates by an entry of the core's TLB, for an access of a kind, to address p of device memory or the pool (R76, R81, R83). -/
def Translates (s : State) (va : W64) (kind : AKind) (f : Leaf) (p : Nat) : Prop :=
  canonical va = true ∧ (∃ e, s.mem.tlbHit s.curTeam.core s.curTeam.ctx va = some e ∧ e.leaf = f) ∧ s.mem.useFault f s.cur.mode kind = none
    ∧ (f.space = 0 ∨ f.space = 3) ∧ p = f.addr va

/-- The line of an address stands at its L2 home under its key, readable by the slice's and the core's valid bits (R58), and in no line
of the core's L1; its set has fewer than 16 other lines, so that whatever is written there fits (R101, R102). -/
def AtHome (s : State) (f : Leaf) (p : Nat) : Prop :=
  let k := lineKey f.space 0 p
  s.mem.l1.find (l1Key s.curTeam.core k) = none ∧ s.mem.validAt (homeDie k) k = true ∧ s.mem.validAt (4 + s.curTeam.core) k = true
    ∧ (∃ x, s.mem.l2.find k = some x ∧ x.key = f.key)
    ∧ (s.mem.l2.filter fun p => decide (p.1 ≠ k) && decide (homeDie p.1 = homeDie k) && decide (l2SetOf p.1 = l2SetOf k)).length < 16

/-- The global address of thread k (R117). -/
def globalAddr (s : State) (l : Lane) (k : Nat) : W64 := s.reg64 l.imm l.a k + BitVec.ofInt 64 l.imm.toInt

/-- The checks of a global access that trap in its first thread (R119, R121): misalignment, an address that is not
canonical, and the permission and key checks of a cached translation. -/
def GlobalTraps (i : Instr) (l : Lane) (wide : Bool) (s : State) (kind : AKind) (n : Nat) (va : Nat → W64) : Prop :=
  ∀ k, s.cur.isHelper k = false → s.acqWaits s.curGid k = false →
    ((va k).toNat % n ≠ 0 → FirstTraps i l wide s k 0x05 (va k))
    ∧ ((va k).toNat % n = 0 → canonical (va k) = false → FirstTraps i l wide s k 0x06 (va k))
    ∧ (∀ e c, (va k).toNat % n = 0 → canonical (va k) = true → s.mem.tlbHit s.curTeam.core s.curTeam.ctx (va k) = some e →
      s.mem.useFault e.leaf s.cur.mode kind = some c → FirstTraps i l wide s k c (va k))

/-- R134, R330: a memory instruction of a thread whose acquire has still to follow an atomic at the host or at a peer stays in its lane
at that thread, and makes no access there. -/
def LaneInOrder : Prop :=
  ∀ (s : State) (l : Lane) (ty : MTy) (at_ : ATy) (pol : Pol) (o : AOp) (acq rel : Bool) (k : Nat), s.acqWaits s.curGid k = true →
    let waits := fun (i : Instr) (wide : Bool) => FirstStops i l wide s k fun u => u.holdAt k
    waits (.ld l ty pol) ty.wide ∧ waits (.st l ty pol) false ∧ waits (.lds l ty) ty.wide ∧ waits (.sts l ty) false
    ∧ waits (.ldfeKeep l ty) ty.wide ∧ waits (.ldfeClear l ty) ty.wide ∧ waits (.stfe l ty) false ∧ waits (.xload l ty pol) ty.wide
    ∧ waits (.zline l pol) false ∧ waits (.atom l o at_ acq rel) at_.wide ∧ waits (.acas l at_ acq rel) at_.wide
    ∧ waits (.atoms l o at_ acq rel) at_.wide ∧ waits (.acass l at_ acq rel) at_.wide ∧ waits (.red l o at_ rel) at_.wide

/-- R105, R117, R119, R121, R122, R123, R127, R129: loads of the lane stream whose lines stand in the core's L1 (policies .ca and
.cs) or at their L2 home (.cg): the bytes, widened, are on their way to the destination as far results, in thread order; a
helper's failing load gives zero; .cs leaves the lines least recently used. XLOAD's threads take dense slots from the base of Lowest().
PREFL never traps and writes no register. -/
def LaneGlobalLoads : Prop :=
  ∀ (s : State) (l : Lane) (ty : MTy) (pol : Pol), NoAcquireOut s →
    let n := accessBytes ty
    let core := s.curTeam.core
    let cached := fun (va : W64) (v : W64) => ∃ f p, Translates s va .read f p ∧
      (pol ≠ .cg ∧ s.mem.l1Has core (lineKey f.space 0 p) f.key (p % 128) n = true
          ∧ v = intWrite (accessInt ty) (lget (s.mem.l1Data core (lineKey f.space 0 p)) (p % 128) n)
        ∨ pol = .cg ∧ AtHome s f p ∧ v = intWrite (accessInt ty) (lget (s.mem.l2Data (lineKey f.space 0 p)) (p % 128) n))
    let undo := fun (u : State) => { u with mem := s.mem }
    let same := fun (u : State) => u.mem = { s.mem with l1 := u.mem.l1, l2 := u.mem.l2, tick := u.mem.tick }
      ∧ (pol ≠ .cs → u.mem.l1 = s.mem.l1)
      ∧ (∀ k, (u.mem.l1.find k).map (fun x => { x with use := 0 }) = (s.mem.l1.find k).map (fun x => { x with use := 0 }))
      ∧ ∀ k, (u.mem.l2.find k).map (fun x => { x with use := 0 }) = (s.mem.l2.find k).map (fun x => { x with use := 0 })
    (∀ v : Nat → W64, Placed s (.ld l ty pol) l →
      (∀ k ∈ s.computers l, let va := globalAddr s l k
        va.toNat % n = 0 ∧ cached va (v k) ∨ va.toNat % n ≠ 0 ∧ s.cur.isHelper k = true ∧ v k = 0) →
      ∃ u, LaneSends (.ld l ty pol) l ty.wide s (fun _ => none) ((s.computers l).flatMap fun k => farOf s l ty.wide k (v k)) u undo ∧ same u)
    ∧ GlobalTraps (.ld l ty pol) l ty.wide s .read n (globalAddr s l)
    ∧ (∀ v : Nat → W64, l.u = false → Placed s (.xload l ty pol) l →
      let ks := (s.computers l).filter fun k => !s.cur.isHelper k
      let slot := fun (j : Nat) => globalAddr s l s.lowest + BitVec.ofNat 64 ((s.split.count + j) * n)
      (∀ j k, ks[j]? = some k → (slot j).toNat % n = 0 ∧ cached (slot j) (v k)) →
      ∃ u, LaneSends (.xload l ty pol) l ty.wide s (fun _ => none) (ks.flatMap fun k => farOf s l ty.wide k (v k)) u
          (fun u => (undo u).modSplit fun x => { x with count := s.split.count })
        ∧ u.split.count = s.split.count + ks.length ∧ same u)
    ∧ (l.u = false → GlobalTraps (.xload l ty pol) l ty.wide s .read n
        fun _ => globalAddr s l s.lowest + BitVec.ofNat 64 (s.split.count * n))
    ∧ (Placed s (.prefl l pol) l → NoFillWait s → ∃ u, LaneSends (.prefl l pol) l false s (fun _ => none) [] u
        fun u => { u with mem := s.mem, host := s.host, fabric := s.fabric, free := s.free })

/-- R105, R117, R119, R121, R123, R127, R130: stores of the lane stream. With policy .ca or .cs a store whose words stand in the
core's L1 changes those bytes there and leaves their words dirty, and .cs leaves the line least recently used; with .cg, and ZLINE's 128 zero bytes, the bytes are written
at the L2 home. The threads store in order. CSTORE's threads take dense slots, and its count goes to every active thread as a
far result once the whole split has completed. -/
def LaneGlobalStores : Prop :=
  ∀ (s : State) (l : Lane) (ty : MTy) (pol : Pol), NoAcquireOut s → NoFillWait s →
    let n := accessBytes ty
    let core := s.curTeam.core
    let ks := (s.computers l).filter fun k => !s.cur.isHelper k
    let lines := fun (m : Mem) k => m.l2Data k
    let l1 := fun (m : Mem) k => m.l1Data core k
    let data := fun k => (s.operand l ty.wide l.b k).toNat % 2 ^ (8 * n)
    let undo := fun (u : State) => { u with mem := s.mem }
    -- threads that store at given addresses: their operations, where all may be performed
    let stores := fun (va : Nat → W64) (ops : List Rmw) => ops.length = ks.length ∧ ∀ (j k : Nat) (o : Rmw), ks[j]? = some k → ops[j]? = some o →
      (va j).toNat % n = 0 ∧ ∃ f p, Translates s (va j) .write f p ∧ f.sro = false
        ∧ o.place = lineKey f.space 0 p ∧ o.off = p % 128 ∧ o.n = n ∧ (∀ x, o.new x = data k)
        ∧ (pol ≠ .cg → s.mem.l1Has core o.place f.key o.off n = true) ∧ (pol = .cg → AtHome s f p ∧ s.mem.l1Of core = [])
    let stored := fun (u : State) (ops : List Rmw) =>
      (pol ≠ .cg → u.mem = { s.mem with l1 := u.mem.l1, l2 := u.mem.l2 } ∧ (pol = .ca → u.mem.l2 = s.mem.l2)
        ∧ (∀ k, (u.mem.l2.find k).map (fun x => { x with use := 0 }) = (s.mem.l2.find k).map (fun x => { x with use := 0 }))
        ∧ (∀ k, k < 2 ^ 90 → l1 u.mem k = linesAfter (l1 s.mem) ops k)
        ∧ (∀ k, (∀ o ∈ ops, l1Key core o.place ≠ k) → u.mem.l1.find k = s.mem.l1.find k)
        ∧ ∀ o ∈ ops, ∃ x, u.mem.l1.find (l1Key core o.place) = some x ∧ x.dirty &&& wordMask o.off n = wordMask o.off n)
      ∧ (pol = .cg → u.mem = { s.mem with l1 := u.mem.l1, l2 := u.mem.l2, tick := u.mem.tick } ∧ (∀ k, lines u.mem k = linesAfter (lines s.mem) ops k)
        ∧ ∀ o ∈ ops, ∃ x, u.mem.l2.find o.place = some x ∧ x.dirty = true)
    (∀ ops, Placed s (.st l ty pol) l → stores (fun j => globalAddr s l (ks.getD j 0)) ops →
      ∃ u, LaneSends (.st l ty pol) l false s (fun _ => none) [] u undo ∧ stored u ops)
    ∧ GlobalTraps (.st l ty pol) l false s .write n (globalAddr s l)
    ∧ (∀ ops, l.u = false → Placed s (.cstore l ty pol) l →
      stores (fun j => globalAddr s l s.lowest + BitVec.ofNat 64 ((s.split.count + j) * n)) ops →
      ∃ u, exec (.cstore l ty pol) s = .next (u.laneEnd l.fin)
        ∧ LaneDone s (((undo u).modSplit fun x => { x with count := s.split.count }).modCur fun g => { g with far := s.cur.far })
            (.cstore l ty pol) l false (fun _ => none) (fun _ t => t)
        ∧ u.split.count = s.split.count + ks.length ∧ stored u ops
        ∧ u.cur.far = s.cur.far ++ (if never l = true ∨ s.active = [] then [] else match l.d with
          | .t d => [{ dsts := s.active.map fun j => { thr := j, ent := s.entry d.val }, src := .value (BitVec.ofNat 64 (s.split.count + ks.length)) }]
          | _ => []))
    ∧ (l.u = false → GlobalTraps (.cstore l ty pol) l false s .write n
        fun _ => globalAddr s l s.lowest + BitVec.ofNat 64 (s.split.count * n))
    ∧ (∀ ops : List Rmw, Placed s (.zline l pol) l → s.mem.l1Of core = [] → ops.length = ks.length →
      (∀ (j k : Nat) (o : Rmw), ks[j]? = some k → ops[j]? = some o → (globalAddr s l k).toNat % 128 = 0 ∧ ∃ f p, Translates s (globalAddr s l k) .write f p ∧ f.sro = false
        ∧ p % 128 = 0 ∧ AtHome s f p ∧ o.place = lineKey f.space 0 p ∧ o.off = 0 ∧ o.n = 128 ∧ ∀ x, o.new x = 0) →
      ∃ u, LaneSends (.zline l pol) l false s (fun _ => none) [] u undo
        ∧ u.mem = { s.mem with l1 := u.mem.l1, l2 := u.mem.l2, tick := u.mem.tick } ∧ (∀ k, lines u.mem k = linesAfter (lines s.mem) ops k)
        ∧ ∀ o ∈ ops, ∃ x, u.mem.l2.find o.place = some x ∧ x.dirty = true ∧ x.zero = true)
    ∧ GlobalTraps (.zline l pol) l false s .write 128 (globalAddr s l)

/-- What `LaneInOrder`, `LaneGlobalLoads`, `LaneGlobalStores` state, together.
Where the manual leaves a point open, the clause is the model's choice: log entries 20, 22. -/
def Obligations.LaneGlobalMemory : Prop := LaneInOrder ∧ LaneGlobalLoads ∧ LaneGlobalStores

/-- R119, R121, R122, R131 to R134: ATOM, ACAS and RED on lines at their L2 home, in thread order: each thread's old value is on its
way as a far result (RED names no destination), and the lines hold what all of them leave; helpers do nothing.
Where the manual leaves a point open, the clause is the model's choice: log entry 19. -/
def Obligations.LaneGlobalAtomics : Prop :=
  ∀ (s : State) (l : Lane) (ty : ATy) (acq rel : Bool) (i : Instr) (new : Nat → Nat → Nat),
    let wide := ty.wide
    let b := fun k => (s.operand l wide l.b k).toNat
    let c := fun k => (s.operand l wide l.c k).toNat
    (∃ o, (i = .atom l o ty acq rel ∨ i = .red l o ty rel) ∧ ∀ k x, new k x = atomicNew o ty x (b k))
      ∨ (i = .acas l ty acq rel ∧ ∀ k x, new k x = if x = b k then c k else x) → NoAcquireOut s → NoFillWait s →
    let n := if wide then 8 else 4
    let core := s.curTeam.core
    let ks := (s.computers l).filter fun k => !s.cur.isHelper k
    let lines := fun (m : Mem) k => m.l2Data k
    (∀ ops : List Rmw, Placed s i l → s.mem.l1Of core = [] → ops.length = ks.length →
      (∀ (j k : Nat) (o : Rmw), ks[j]? = some k → ops[j]? = some o → (globalAddr s l k).toNat % n = 0 ∧ ∃ f p, Translates s (globalAddr s l k) .write f p ∧ f.sro = false
        ∧ AtHome s f p ∧ o.place = lineKey f.space 0 p ∧ o.off = p % 128 ∧ o.n = n ∧ o.new = new k) →
      let old := fun (j : Nat) => match ops[j]? with
        | some o => BitVec.ofNat 64 (lget (linesAfter (lines s.mem) (ops.take j) o.place) o.off n)
        | none => 0
      ∃ u, LaneSends i l wide s (fun _ => none) ((ks.zipIdx).flatMap fun p => farOf s l wide p.1 (old p.2)) u (fun u => { u with mem := s.mem })
        ∧ u.mem = { s.mem with l1 := u.mem.l1, l2 := u.mem.l2, tick := u.mem.tick } ∧ (∀ k, lines u.mem k = linesAfter (lines s.mem) ops k)
        ∧ ∀ o ∈ ops, ∃ x, u.mem.l2.find o.place = some x ∧ x.dirty = true)
    ∧ GlobalTraps i l wide s .write n (globalAddr s l)

/-! ## Matrix engine (chapter 14) -/

/-- A queued MXWAIT or MXREL waits for a command before it (R277, R278). -/
def behind (before : List MxCmd) (c : MxCmd) : Bool :=
  match c.op with
  | .wait stall tile _ _ => before.any fun k => k.op.runs && decide (k.team = c.team) && (stall || k.op.names tile)
  | .rel gid => before.any fun k => k.op.runs && decide (k.gid = gid)
  | _ => true

/-- Nothing in a core's matrix queue is due: every MXWAIT and MXREL there waits, and no ended group holds the latch. -/
def QueueSettled (s : State) (core : Nat) : Prop :=
  let c := s.core core
  (∀ before x after, c.mxq = before ++ x :: after → behind before x = true) ∧ ∀ a, c.alatch = some a → (s.group a.gid).ended = false

/-- The state a matrix instruction that is performed acts in. -/
def matrixBegun (s : State) (i : Instr) (l : Lane) : State := (branchBegun s i l).markLatch l

/-- A matrix instruction completes: of the machine, its core's matrix queue and latch become `q` and `a`, and `far` gains results. -/
def MatrixEnds (i : Instr) (l : Lane) (s : State) (q : List MxCmd) (a : Option ALatch) (far : List Far) : Prop :=
  ∃ u : State, exec i s = .next (u.laneEnd l.fin)
    ∧ u = { (matrixBegun s i l).modCur (fun g => { g with far := s.cur.far ++ far }) with cores := u.cores }
    ∧ u.core s.curTeam.core = { s.core s.curTeam.core with mxq := q, alatch := a }
    ∧ ∀ n, n ≠ s.curTeam.core → u.cores.find n = s.cores.find n

/-- The rules of R270 that every matrix instruction obeys: a tile that is not the team's is illegal; with Lowest()'s guard false
nothing is performed; the first check that fails (condition, cause, TVAL) traps in Lowest(); a full queue suspends the split; `body`
is what happens otherwise. `asks`: the instruction enters the queue. -/
def MatrixIssues (i : Instr) (l : Lane) (s : State) (legal : Prop) (checks : List (Prop × Nat × Nat)) (asks : Prop) (body : Prop) : Prop :=
  (¬legal → exec i s = .next s.killCur)
  ∧ (legal → Placed s i l →
    (s.guard l s.lowest = false → exec i s = .next ((branchBegun s i l).laneEnd l.fin))
    ∧ (s.guard l s.lowest = true →
      (∀ (n : Nat) p c v, checks[n]? = some (p, c, v) → p → (∀ (m : Nat) (q : Prop × Nat × Nat), m < n → checks[m]? = some q → ¬q.1) →
        exec i s = .next ((matrixBegun s i l).laneTrap s.lowest c (BitVec.ofNat 64 v)))
      ∧ ((∀ q ∈ checks, ¬q.1) →
        (asks → 64 ≤ (s.core s.curTeam.core).mxq.length → exec i s = .next ((matrixBegun s i l).suspend s.lowest .mxQueue))
        ∧ ((asks → (s.core s.curTeam.core).mxq.length < 64) → body))))

/-- Byte q of row r in step st of a register block of n steps at t_b (R264): data, then scales; a row whose thread is not active
reads as +0 with scale 127. -/
def blockByte (s : State) (b n st r q : Nat) : Byte :=
  if s.split.mask.getLsbD r then
    if q < 32 then (s.cur.rget r (s.entry (b + 8 * st + q / 4))).extractLsb' (8 * (q % 4)) 8
    else (s.cur.rget r (s.entry (b + 8 * n + st))).extractLsb' (8 * (q % 4)) 8
  else if q < 32 then 0 else 127

/-- R269 to R278: the matrix instructions at issue. Each enters one command, in the order of issue; MXLOOP captures its format block
and the rows of A, taking the A-latch, whose read of the registers lasts 9 cycles a step, or reading it, where an MXREL of its group
that is still queued counts as carried out; MXWAIT's result is on its way to every active thread when every command it
covers has completed; MXREL frees the latch when no command of its group is left.
Where the manual leaves a point open, the clause is the model's choice: log entries 36, 42. -/
def Obligations.MatrixIssue : Prop :=
  ∀ (s : State) (l : Lane) (tile : Fin 16), QueueSettled s s.curTeam.core → s.cur.ended = false →
    let t := s.curTeam
    let core := s.core t.core
    let v := fun x => (s.reg32 l.imm x s.lowest).toNat
    let a := v l.a
    let b := v l.b
    let c := v l.c
    let mine := tile.val < t.kernel.tiles
    let cmd := fun (op : MxOp) (latch : Bool) => ({ team := s.cur.team, gid := s.curGid, op := op, latch := latch } : MxCmd)
    let cmdDue := fun (op : MxOp) (latch : Bool) (due : Nat) => { cmd op latch with due := due }
    let enters := fun (i : Instr) (op : MxOp) => MatrixEnds i l s (core.mxq ++ [cmd op false]) core.alatch []
    let result := fun (wide : Bool) (src : FarSrc) => match l.d with
      | .t n =>
        let regs := fun (j : Nat) => ({ thr := j, ent := s.entry n.val } : FarDst)
          :: if wide then [{ thr := j, ent := s.entry (n.val + 1), high := true }] else []
        if s.active = [] then [] else [({ dsts := s.active.flatMap regs, src := src } : Far)]
      | _ => []
    (∀ (n : Fin 4) (za : Bool),
      let i := Instr.mxloop l tile n za
      let steps := n.val + 1
      let ws := (List.range 8).map fun j => BitVec.ofNat 64 (rdNat t.scratch (c + 8 * j) 8)
      let panel := match mxFmt ws with
        | some f => 4096 * steps + (if f.bscl then 128 * steps * f.bpb else 0)
        | none => 4096 * steps
      let loop := fun (r : ARows) (lz : Bool) => MxOp.loop tile.val steps za ws b r lz
      let own := core.alatch.map (·.gid) = some s.curGid
      let reads := ∃ q ∈ core.mxq, q.latch = true ∧ q.gid = s.curGid
      let freeing := ∃ q ∈ core.mxq, q.op = .rel s.curGid
      let kept := core.mxq.filter fun q => decide (q.op ≠ .rel s.curGid)
      t.rows.map (·.1) ≠ some s.curGid →
      MatrixIssues i l s mine
        [(2 ^ 20 ≤ b, 0x07, b), (2 ^ 20 ≤ c, 0x07, c), (b % 16 ≠ 0, 0x05, b), (c % 64 ≠ 0, 0x05, c), (t.size' < c + 64, 0x07, c), (t.size' < b + panel, 0x07, b)]
        True
        ((∀ r, l.a = .t r → (core.alatch = none ∨ own) ∧ ¬(own ∧ reads) →
            ∃ rows, MatrixEnds i l s (kept ++ [cmdDue (loop rows false) true (s.cycle + 9 * steps + 1)]) (some { gid := s.curGid, rows := rows }) []
              ∧ rows.steps = steps ∧ ∀ st k q, st < steps → k < 32 → q < 36 → SMap.get 0 rows.bytes (36 * (32 * st + k) + q) = blockByte s r.val steps st k q)
        ∧ (∀ r, l.a = .t r → (core.alatch ≠ none ∧ ¬own) ∨ (own ∧ reads) → exec i s = .next ((matrixBegun s i l).suspend s.lowest .aLatch))
        ∧ (∀ x, l.a = .alatch → core.alatch = some x → x.gid = s.curGid → ¬freeing →
            ∃ rows, MatrixEnds i l s (core.mxq ++ [cmd (loop rows (decide (x.rows.steps < steps))) true]) core.alatch []
              ∧ rows.steps = steps ∧ ∀ p, SMap.get 0 rows.bytes p = if p < 1152 * min steps x.rows.steps then SMap.get 0 x.rows.bytes p else 0)
        ∧ (l.a = .alatch → ¬own ∨ freeing → MatrixEnds i l s (core.mxq ++ [cmd (loop { steps := steps } true) false]) core.alatch [])))
    ∧ MatrixIssues (.mxzero l) l s (l.imm.toNat < 2 ^ t.kernel.tiles) [] True (enters (.mxzero l) (.zero (l.imm.setWidth 16)))
    ∧ MatrixIssues (.mxld l tile) l s mine [(2 ^ 20 ≤ a, 0x07, a), (a % 16 ≠ 0, 0x05, a), (b % 16 ≠ 0, 0x05, b), (t.size' < a + 31 * b + 512, 0x07, a)] True
        (enters (.mxld l tile) (.ld tile.val a b))
    ∧ (∀ fmt : BitVec 4,
      let row := match fmt.toNat with
        | 0 => 64 | 8 | 9 => 256 | 10 => 512 | _ => 128
      let bit := fun n => l.imm.getLsbD n
      MatrixIssues (.mxst l tile fmt) l s mine
        [(2 ^ 20 ≤ a, 0x07, a), (a % 16 ≠ 0, 0x05, a), (b % 16 ≠ 0, 0x05, b),
          (t.size' < a + 31 * b + row ∨ bit 4 = true ∧ t.size' < a + 32 * b + 128, 0x07, a)] True
        (enters (.mxst l tile fmt) (.st tile.val fmt.toNat (l.imm.toNat % 8) (bit 3) (bit 4) (bit 5) (bit 6) (bit 7) a b)))
    ∧ (∀ clr : Bool, ∃ tag, (∀ f ∈ s.cur.far, f.src ≠ .matrix tag)
      ∧ (let w := MxOp.wait false tile.val clr tag
        let word := (t.tile tile.val).status
        MatrixIssues (.mxwaitSt l tile clr) l s mine [] True
          ((behind core.mxq (cmd w false) = true →
              MatrixEnds (.mxwaitSt l tile clr) l s (core.mxq ++ [cmd w false]) core.alatch (result false (.matrix tag)))
            ∧ (behind core.mxq (cmd w false) = false →
              ∃ u y : State, exec (.mxwaitSt l tile clr) s = .next (u.laneEnd l.fin)
                ∧ u = { (matrixBegun s (.mxwaitSt l tile clr) l).modCur (fun g => { g with far := s.cur.far ++ result false (.value (word.setWidth 64)) })
                        with teams := y.teams, cores := u.cores }
                ∧ y = (if clr then s.setTeam s.cur.team (t.setTile tile.val { t.tile tile.val with status := 0 }) else s)
                ∧ u.core t.core = core ∧ ∀ n, n ≠ t.core → u.cores.find n = s.cores.find n)))
      ∧ (let w := MxOp.wait true 0 clr tag
        MatrixIssues (.mxwaitStall l clr) l s (0 < t.kernel.tiles) [] True
          ((behind core.mxq (cmd w false) = true →
              MatrixEnds (.mxwaitStall l clr) l s (core.mxq ++ [cmd w false]) core.alatch (result true (.matrix tag)))
            ∧ (behind core.mxq (cmd w false) = false →
              MatrixEnds (.mxwaitStall l clr) l s core.mxq core.alatch (result true (.value t.mxstall))))))
    ∧ (let own := core.alatch.map (·.gid) = some s.curGid
      let r := cmd (.rel s.curGid) false
      MatrixIssues (.mxrel l) l s True [] own
        ((¬own → exec (.mxrel l) s = .next ((matrixBegun s (.mxrel l) l).laneEnd l.fin))
        ∧ (own → behind core.mxq r = true → MatrixEnds (.mxrel l) l s (core.mxq ++ [r]) core.alatch [])
        ∧ (own → behind core.mxq r = false → MatrixEnds (.mxrel l) l s core.mxq none [])))

/-- The rational number a finite value stands for. -/
def rational : FV → Option ℚ
  | .fin neg n x => some ((if neg then -1 else 1) * n * 2 ^ x)
  | _ => none

/-- Element k of the 32 bytes of a row or column (R193, R194, R264): formats by their codes in Table 10-6. -/
def elementAt (c : Nat) (v : BitVec 256) (k : Nat) : FV :=
  let at_ := fun n => (v.extractLsb' (n * k) n).toNat
  let six := at_ 4 + 16 * (v.extractLsb' (128 + 2 * k) 2).toNat
  match c with
  | 0 => Fmt.e2m1.read (at_ 4)
  | 1 => Fmt.e3m2.read six
  | 2 => Fmt.e2m3.read six
  | 3 => Fmt.e4m3.read (at_ 8)
  | 4 => Fmt.e5m2.read (at_ 8)
  | 5 => Fmt.f32.read ((i4xQuad (v.extractLsb' (16 * (k / 4)) 16).toNat).1.getD (k % 4) 0)
  | 6 => let x := (v.extractLsb' (8 * k) 8).toInt; .fin (decide (x < 0)) x.natAbs 0
  | 8 => Fmt.f16.read (at_ 16)
  | _ => Fmt.bf16.read (at_ 16)

/-- One block of R266 into one accumulator: a k, b k the block's elements, e the exponent of the scale factor, none for a NaN
scale. INT32 sums wrap (R268); an FP32 sum is exact and rounded once, to nearest even (R267). -/
def BlockInto (int : Bool) (len : Nat) (a b : Nat → FV) (e : Option ℤ) (acc r : Nat) : Prop :=
  let q := fun (x : FV) => (rational x).getD 0
  let all := ∀ k, k < len → rational (a k) ≠ none ∧ rational (b k) ≠ none
  let whole := fun (x : ℚ) => Int.tdiv x.num x.den
  (int = true → all → (r : ℤ) = ((acc : ℤ) + ∑ k ∈ Finset.range len, whole (q (a k)) * whole (q (b k))) % 2 ^ 32)
  ∧ (int = false →
    (e = none ∨ (∃ s, Fmt.read .f32 acc = .nan s) ∨ (∃ k s, k < len ∧ (a k = .nan s ∨ b k = .nan s)) → r = 0x7FC00000)
    ∧ (∀ y p, e = some y → rational (Fmt.read .f32 acc) = some p → all →
      let x : ℚ := p + (∑ k ∈ Finset.range len, q (a k) * q (b k)) * 2 ^ y
      let neg := fun (v : FV) => match v with
        | .fin s _ _ => s
        | _ => false
      (x ≠ 0 → ∀ (n d : Nat) (z : ℤ), 0 < n → 0 < d → |x| = (n : ℚ) / d * 2 ^ z → r = (roundTo .f32 false .rn 0 (decide (x < 0)) n d z).1)
      ∧ (x = 0 →
        let minus := acc = 2 ^ 31 ∧ ∀ k, k < len → q (a k) * q (b k) = 0 ∧ neg (a k) ≠ neg (b k)
        (minus → r = 2 ^ 31) ∧ (¬minus → r = 0))))

/-- R262, R264 to R268, R272: an MXLOOP of n steps when it runs, in a team that was `t` and becomes `u`. -/
def MatrixLoopRuns (t u : Team) (tile n : Nat) (za : Bool) (fmt : List W64) (bp : Nat) (rows : ARows) (lz : Bool) : Prop :=
  let x := t.tile tile
  (mxFmt fmt = none → u = t.setTile tile { x with status := x.status ||| 0x200 })
  ∧ ∀ f, mxFmt fmt = some f →
    let byteA := fun st i q => SMap.get 0 rows.bytes (36 * (32 * st + i) + q)
    let byteB := fun st j q => SMap.get 0 t.scratch (bp + 4096 * st + 32 * j + q)
    let vec := fun (g : Nat → Byte) => BitVec.ofNat 256 (ofLeBytes ((List.range 32).map g))
    let scaleA := fun st i b => if f.ascl then (byteA st i (32 + b)).toNat else f.adef
    let scaleB := fun st j b => if f.bscl then (SMap.get 0 t.scratch (bp + 4096 * n + (128 * st + j) * f.bpb + b)).toNat else f.bdef
    let plain := f.acc || decide (mxK f.a = 16)
    let e := fun st i j b => if plain then some 0
      else if scaleA st i b = 255 ∨ scaleB st j b = 255 then none else some ((scaleA st i b : ℤ) + scaleB st j b - 254)
    (u = t.setTile tile (u.tile tile))
    ∧ (∀ i j, i < 32 → j < 128 → ∃ acc : Nat → Nat,
      acc 0 = (if za then 0 else (SMap.get 0 x.el (128 * i + j)).toNat) ∧ acc (n * f.bpb) = (SMap.get 0 (u.tile tile).el (128 * i + j)).toNat
      ∧ ∀ st b, st < n → b < f.bpb → BlockInto f.acc f.len (fun k => elementAt f.a (vec (byteA st i)) (b * f.len + k))
          (fun k => elementAt f.b (vec (byteB st j)) (b * f.len + k)) (e st i j b) (acc (st * f.bpb + b)) (acc (st * f.bpb + b + 1)))
    ∧ ∃ fl : FFlags, (u.tile tile).status = x.status ||| fl.setWidth 32 ||| (if lz then 0x100 else 0)

/-- R275, R276, R281: an MXST when it runs, where its rows do not overlap and no granule it writes holds a watched byte. -/
def MatrixStoreRuns (t u : Team) (tile c rnd : Nat) (inf scl clr int fe : Bool) (addr pitch : Nat) : Prop :=
  let x := t.tile tile
  let el := fun i j => (SMap.get 0 x.el (128 * i + j)).toNat
  let size := match c with
    | 0 => 64 | 8 | 9 => 256 | 10 => 512 | _ => 128
  let rs := decide (5 ≤ rnd) && decide (c ≠ 10) && !int
  let mode := [Rnd.rn, .rz, .ru, .rd, .ra, .rs].getD rnd .rs
  let nf := if c = 0 then NFmt.e2m1 else if c = 3 then .e4m3 else .e5m2
  let mine := fun a => (∃ i, i < 32 ∧ addr + i * pitch ≤ a ∧ a < addr + i * pitch + size) ∨ scl = true ∧ addr + 32 * pitch ≤ a ∧ a < addr + 32 * pitch + 128
  size ≤ pitch → (∀ w ∈ t.watch, 0 < w.len) → (∀ a, mine a → t.touches (16 * (a / 16)) 16 = false) →
    ∃ (d : Nat → Nat → Nat) (out : Nat → Nat → Nat × FFlags),
      (∀ i blk, i < 32 → blk < 4 →
        (∀ k, k < 32 → 0x7F800000 ≤ el i (32 * blk + k) % 2 ^ 31 → d i blk = 255)
        ∧ ∀ k, k < 32 → (∀ m, m < 32 → el i (32 * blk + m) % 2 ^ 31 ≤ el i (32 * blk + k) % 2 ^ 31) → el i (32 * blk + k) % 2 ^ 31 < 0x7F800000 →
          d i blk = mxscl nf (nexp .f32 (el i (32 * blk + k))))
      ∧ (∀ i j, i < 32 → j < 128 → out i j =
          let draw := if rs then drawNumber (128 * i + j + 1) t.gm else 0
          let v := Fmt.read .f32 (el i j)
          if c = 10 then (el i j, 0)
          else if int then (((intClamp .i8 (BitVec.ofNat 32 (el i j)).toInt) % 256).toNat, 0)
          else if c = 6 then ((((fToInt .f32 .i8 mode draw (el i j)).1 % 256).toNat), (fToInt .f32 .i8 mode draw (el i j)).2)
          else (if scl then (if d i (j / 32) = 255 then .nan (decide (v = .nan true)) else v.scale (127 - (d i (j / 32) : ℤ))) else v).convert
            (match c with | 0 => .e2m1 | 3 => .e4m3 | 4 => .e5m2 | 8 => .f16 | _ => .bf16) mode draw inf)
      ∧ (∀ i p, i < 32 → p < size → (SMap.get 0 u.scratch (addr + i * pitch + p)).toNat =
          if c = 0 then (out i (2 * p)).1 + 16 * (out i (2 * p + 1)).1 else (out i (p / (size / 128))).1 / 256 ^ (p % (size / 128)) % 256)
      ∧ (scl = true → ∀ i blk, i < 32 → blk < 4 → SMap.get 0 u.scratch (addr + 32 * pitch + 4 * i + blk) = BitVec.ofNat 8 (d i blk))
      ∧ (∀ a, ¬mine a → SMap.get 0 u.scratch a = SMap.get 0 t.scratch a)
      ∧ (u.tile tile).el = (if clr then [] else x.el)
      ∧ (∀ n, n < 32 → ((u.tile tile).status.getLsbD n = true ↔ x.status.getLsbD n = true ∨ ∃ i j, i < 32 ∧ j < 128 ∧ (out i j).2.getLsbD n = true))
      ∧ u.gm = (if rs then generatorAfter 4096 t.gm else t.gm)
      ∧ (∀ g, u.isFull g = true ↔ t.isFull g = true ∨ fe = true ∧ ∃ a, mine a ∧ a / 16 = g)
      ∧ u = { t with scratch := u.scratch, full := u.full, gm := u.gm, tiles := u.tiles } ∧ ∀ n, n ≠ tile → u.tile n = t.tile n

/-- R271 to R282: the matrix queue runs its commands in order, an MXLOOP step by step. A step starts when no command before it has a step
left to start, the commands before have had their engine cycles and none of them names its tile, the read of its A rows or its last step
is over, and for an MXLOOP of a valid block its cluster holds a token; a command's effects are complete at MX_COMMAND_COMPLETE, 16 cycles
after its last engine cycle. MXWAITs and MXRELs that nothing holds up any more then take effect.
Where the manual leaves a point open, the clause is the model's choice: log entries 17, 42. -/
def Obligations.MatrixCommands : Prop :=
  (∀ (s : State) (core : Nat) (before : List MxCmd) (c : MxCmd) (after : List MxCmd), (s.core core).mxq = before ++ c :: after →
    let leaves := fun (u : State) (q : List MxCmd) => u = { s with cores := u.cores } ∧ u.core core = { s.core core with mxq := q }
      ∧ ∀ n, n ≠ core → u.cores.find n = s.cores.find n
    ((∀ b ∈ before, b.started = true ∧ b.left = 0 ∨ b.op.runs = false) → c.op.runs = true → c.started = false ∨ 0 < c.left →
      let free := ∀ b ∈ before, b.started = true → b.due ≤ s.cycle ∧ ∀ n, n < 16 → ¬(b.op.names n = true ∧ c.op.names n = true)
      let steps := match c.op with
        | .loop _ n _ fmt .. => if (mxFmt fmt).isSome then n else 1
        | _ => 1
      let cycles := match c.op with
        | .loop _ _ _ fmt .. => if (mxFmt fmt).isSome then 8 else 1
        | .zero m => (List.range 16).countP m.getLsbD
        | .st _ _ _ _ scl .. => if scl then 36 else 32
        | _ => 32
      let next := { c with started := true, left := (if c.started then c.left else steps) - 1, due := s.cycle + cycles }
      let cl := s.clusterOf core
      let token := ∃ t ∈ (s.ring cl.1).tokens, t.1 = cl.2 ∧ t.2 ≤ s.cycle
      let loop := ∃ tile n za fmt bp rows lz, c.op = .loop tile n za fmt bp rows lz ∧ (mxFmt fmt).isSome
      (free → c.due ≤ s.cycle → ¬loop ∨ token → ∃ u, exec (.mxCommandStart core) s = .next u ∧ leaves u (before ++ next :: after))
      ∧ (¬(free ∧ c.due ≤ s.cycle ∧ (¬loop ∨ token)) → exec (.mxCommandStart core) s = .next s))
    ∧ ((∀ b ∈ before, b.started = false) → c.started = true → 0 < c.left ∨ s.cycle < c.due + 15 → exec (.mxCommandComplete core) s = .next s)
    ∧ ((∀ b ∈ before, b.started = false) → c.started = true → c.left = 0 → c.due + 15 ≤ s.cycle → c.op.runs = true → NoEventWait s →
      ∃ v u : State, leaves v (before ++ after) ∧ exec (.mxCommandComplete core) s = .next (u.mxSettle core)
        ∧ u = { v with teams := u.teams, contexts := u.contexts } ∧ (∀ w, w ≠ c.team → u.teams.find w = s.teams.find w)
        ∧ (∀ tile n za fmt bp rows lz, c.op = .loop tile n za fmt bp rows lz → MatrixLoopRuns (s.team c.team) (u.team c.team) tile n za fmt bp rows lz
          ∧ u.contexts = if lz = true ∧ mxFmt fmt ≠ none then (s.modContext (s.team c.team).ctx fun x => { x with latch := true }).contexts else s.contexts)
        ∧ ((¬∃ tile n za fmt bp rows lz, c.op = .loop tile n za fmt bp rows lz) → u.contexts = s.contexts)
        ∧ (∀ m, c.op = .zero m → u.team c.team = { s.team c.team with tiles := (u.team c.team).tiles }
          ∧ ∀ n, n < 16 → (u.team c.team).tile n = if m.getLsbD n then {} else (s.team c.team).tile n)
        ∧ (∀ tile a p, c.op = .ld tile a p → u.team c.team = { s.team c.team with tiles := (u.team c.team).tiles }
          ∧ (∀ n, n ≠ tile → (u.team c.team).tile n = (s.team c.team).tile n) ∧ ((u.team c.team).tile tile).status = ((s.team c.team).tile tile).status
          ∧ ∀ i j, i < 32 → j < 128 → (SMap.get 0 ((u.team c.team).tile tile).el (128 * i + j)).toNat = rdNat (s.team c.team).scratch (a + i * p + 4 * j) 4)
        ∧ (∀ tile f r inf scl clr int fe a p, c.op = .st tile f r inf scl clr int fe a p →
          MatrixStoreRuns (s.team c.team) (u.team c.team) tile f r inf scl clr int fe a p))
    ∧ ((∀ p x q, before = p ++ x :: q → behind p x = true) → behind before c = false →
      let gone := s.modCore core fun x => { x with mxq := before ++ after }
      (∀ g, c.op = .rel g → s.mxSettle core
        = ((if (s.core core).alatch.map (·.gid) = some g then gone.modCore core fun x => { x with alatch := none } else gone).mxSettle core))
      ∧ (∀ stall tile clr tag, c.op = .wait stall tile clr tag →
        let t := s.team c.team
        let y := if clr && !stall then gone.setTeam c.team (t.setTile tile { t.tile tile with status := 0 }) else gone
        let v := if stall then t.mxstall else (t.tile tile).status.setWidth 64
        s.mxSettle core = (y.modGroup c.gid fun g => { g with far := g.far.map fun f => if f.src = .matrix tag then { f with src := .value v } else f }).mxSettle core)))
  ∧ (∀ (s : State) (core : Nat), QueueSettled s core → s.mxSettle core = s.modCore core fun x => x)
  ∧ (∀ (s : State) (g sl : Nat) (y : Split), sl ≤ 4 → (s.group g).split? sl = some y →
    (y.mode = .suspended .mxQueue → (s.core (s.coreOf g)).mxq.length < 64 →
      exec (.mxQueueReissue g sl) s = .next (s.modGroup g fun x => x.modSplit sl fun y => { y with mode := .ready, age := s.cycle }))
    ∧ (y.mode = .suspended .aLatch → ((s.core (s.coreOf g)).alatch = none ∨ ∃ a, (s.core (s.coreOf g)).alatch = some a ∧ a.gid = g
        ∧ ∀ q ∈ (s.core (s.coreOf g)).mxq, ¬(q.latch = true ∧ q.gid = g)) →
      exec (.alatchAcquire g sl) s = .next (s.modGroup g fun x => x.modSplit sl fun y => { y with mode := .ready, age := s.cycle })))
  ∧ (∀ (s : State) (die cl : Nat),
    let r := s.ring die
    let passed := fun (from_ at_ : Nat) => { s with rings := s.rings.insert die { r with tokens := r.tokens.map fun t => if t.1 = from_ then ((from_ + 1) % 9, at_) else t } }
    let has := fun n => ∃ t ∈ r.tokens, t.1 = n
    (cl < 9 → (∃ t ∈ r.tokens, t.1 = (cl + 8) % 9 ∧ t.2 + 16 ≤ s.cycle) → ¬has cl →
      (∀ c x, (c, x) ∈ s.cores → s.clusterOf c = (die, (cl + 8) % 9) → s.tokenReady c = none) →
      exec (.tokenArrival die cl) s = .next (passed ((cl + 8) % 9) s.cycle))
    ∧ (cl < 9 → (∃ t ∈ r.tokens, t.1 = cl ∧ t.2 + 4096 ≤ s.cycle) → ¬has ((cl + 1) % 9) →
      exec (.tokenHoldTimeout die cl) s = .next (passed cl (s.cycle + 16)))
    ∧ (∀ n, die < 4 → 1 ≤ n → n ≤ 9 → n < r.count → ∃ u, exec (.supplyDroop die n) s = .next u ∧ u = { s with rings := s.rings.insert die (u.ring die) }
      ∧ (u.ring die).count = n ∧ (u.ring die).tokens.length ≤ n ∧ (∀ t ∈ (u.ring die).tokens, t ∈ r.tokens ∨ t.2 = s.cycle)))

/-! ## System instructions of the lane stream (chapter 20) -/

/-- The split that WB, RD, WSP, SPILL and MASK name (R396): the executing one, or in a trap slot the trapped one. -/
def Named (s : State) (x : Split) : Prop :=
  (s.curSlot < 4 ∧ s.cur.split? s.curSlot = some x)
  ∨ (s.curSlot = 4 ∧ ∃ ts, s.cur.tslot = some ts ∧
      let th := s.cur.thread ts.thr
      let n := (if th.tlevel = 2 then th.t2 else th.t1).cause.toNat / 8192 % 8
      (n < 4 ∧ s.cur.splits.find n = some x) ∨ (4 ≤ n ∧ ∃ a r, ts.levels = a :: x :: r))

/-- R392, R396, R411, R4: the privileged lane instructions trap in user mode. LSRD reads Table 20-3; LSWR writes the TPC and TVAL of
the thread's own banks and the group's CTXIMG, and ignores every other register. -/
def LaneSystemRegisters : Prop :=
  ∀ (s : State) (l : Lane) (i : BitVec 8) (wide team : Bool),
    let own := fun k => s.operand l wide l.a k
    let n := i.toNat
    (∀ j ∈ [Instr.lsrd l i wide, .lswr l i wide, .spillwWin l, .spillwStk l, .fillwWin l, .fillwStk l, .ctxsv l team, .ctxrs l team],
      s.cur.mode = .user → exec j s = .next ((s.modSplit fun x => { x with ins := some j, whole := true }).laneTrap s.lowest 0x02 0))
    ∧ (s.cur.mode = .priv →
      (∀ x, Named s x → LaneGives (.lsrd l i wide) l wide s fun k =>
        let t := s.cur.thread k
        match n with
        | 0 => BitVec.ofNat 64 t.tlevel
        | 1 => t.t1.cause.setWidth 64 | 2 => t.t1.pc.setWidth 64 | 3 => t.t1.val
        | 4 => t.t2.cause.setWidth 64 | 5 => t.t2.pc.setWidth 64 | 6 => t.t2.val
        | 8 => x.wb.setWidth 64 | 9 => BitVec.ofNat 64 x.rd | 10 => BitVec.ofNat 64 x.wsp | 11 => BitVec.ofNat 64 x.spill
        | 12 => x.mask.setWidth 64 | 13 => s.cur.ctximg | 14 => t.tlin.setWidth 64 | _ => 0)
      ∧ (n ≠ 13 → Placed s (.lswr l i wide) l → LaneRuns (.lswr l i wide) l false s (fun _ => none) fun k t =>
        match n with
        | 2 => { t with t1 := { t.t1 with pc := (own k).setWidth 32 } } | 3 => { t with t1 := { t.t1 with val := own k } }
        | 5 => { t with t2 := { t.t2 with pc := (own k).setWidth 32 } } | 6 => { t with t2 := { t.t2 with val := own k } }
        | _ => t)
      ∧ (n = 13 → Placed s (.lswr l i wide) l → ∃ u : State, exec (.lswr l i wide) s = .next (u.laneEnd l.fin)
        ∧ LaneDone s (u.modCur fun g => { g with ctximg := s.cur.ctximg }) (.lswr l i wide) l false (fun _ => none) (fun _ t => t)
        ∧ u.cur.ctximg = ((s.computers l).map fun k => own k).getLastD s.cur.ctximg))

/-- A SPILLW or FILLW acts on the machine b (R412): `acts`, guarded; it is illegal outside a trap slot. -/
def Moves (i : Instr) (l : Lane) (s : State) (acts : State → Prop) : Prop :=
  s.cur.mode = .priv →
    (s.curSlot ≠ 4 → exec i s = .next s.killCur)
    ∧ (s.curSlot = 4 → Placed s i l → l.u = true → s.active ≠ [] → l.ha = .none → l.hb = .none → l.hc = .none →
      (s.guard l s.lowest = false → exec i s = .next ((branchBegun s i l).laneEnd l.fin))
      ∧ (s.guard l s.lowest = true → acts (matrixBegun s i l)))

/-- R412: SPILLW and FILLW move entries of the trapped split's window or stack, clamped to the legal amount. Every address is checked
first; a failure traps in the handler's thread with nothing moved. -/
def SpillAndFill : Prop :=
  ∀ (s : State) (l : Lane) (x : Split), Named s x → s.curTeam.d ≤ 256 →
    let d := s.curTeam.d
    let c := s.context s.curTeam.ctx
    let js := threadsOf x.mask
    let want := l.imm.toNat
    let acc : Acc := { core := s.curTeam.core, ctx := s.curTeam.ctx, mode := .priv, gid := s.curGid }
    let who := Waiter.xlat s.curGid 4
    let at_ := fun (j pos : Nat) => c.bstore + (s.cur.thread j).tlin.setWidth 64 * c.bsize + BitVec.ofNat 64 (4 * pos)
    let entry := fun (rd i : Nat) => (x.wb.toNat + 2 * d - rd + i) % d
    let traps := fun (i : Instr) (r : Option (W64 × Nat) × State) => ∀ a k v, r = (some (a, k), v) → exec i s = .next (v.laneTrap s.lowest k a)
    let region := s.cur.ctximg + BitVec.ofNat 64 (6400 + 1536 * (s.cur.slotBank.cause.toNat / 8192 % 8))
    let out := min want (min x.rd (c.bsize.toNat / 4 - x.wsp)) / 4 * 4
    let in_ := min want (min x.wsp (d - 48 - x.rd)) / 4 * 4
    let outK := min want (min x.stack.length (64 - x.spill))
    let inK := min want (min x.spill (8 - x.stack.length))
    let kind := fun (k : RKind) => match k with
      | .stk => 0 | .div => 1 | .call => 2
    let image := fun (e : REntry) => [e.ja ++ e.fa, e.pm ++ e.am, BitVec.ofNat 64 (e.id.toNat * 256 + kind e.kind)]
    Moves (.spillwWin l) l s (fun b =>
      let r := b.checkAll (js.map fun j => at_ j x.wsp) (4 * out) true
      traps (.spillwWin l) r
      ∧ ∀ e v, r.1 = none → r.2.writeAll who (js.map fun j => (at_ j x.wsp, (List.range out).flatMap fun i => leBytes 4 (s.cur.rget j (entry x.rd i)).toNat)) = (.ok e, v) →
        exec (.spillwWin l) s = .next ((v.modCur fun g => g.setNamed fun y => { y with rd := y.rd - out, wsp := y.wsp + out }).laneEnd l.fin))
    ∧ Moves (.fillwWin l) l s (fun b =>
      let from_ := js.map fun j => at_ j (x.wsp - in_)
      let r := b.checkAll from_ (4 * in_) false
      traps (.fillwWin l) r
      ∧ ∀ bs v, r.1 = none → r.2.readAll who (4 * in_) from_ = (.ok bs, v) →
        ∃ u : State, exec (.fillwWin l) s = .next ((u.modCur fun g => g.setNamed fun y => { y with rd := y.rd + in_, wsp := y.wsp - in_ }).laneEnd l.fin)
          ∧ u = v.modCur (fun g => { g with regs := u.cur.regs, dirty := u.cur.dirty })
          ∧ (∀ (p j i : Nat) (b : List Byte), js[p]? = some j → bs[p]? = some b → i < in_ →
              u.cur.rget j (entry (x.rd + in_) i) = BitVec.ofNat 32 (ofLeBytes ((b.drop (4 * i)).take 4)))
          ∧ ∀ j e, e < 256 → (j ∉ js ∨ ∀ i, i < in_ → e ≠ entry (x.rd + in_) i) → u.cur.rget j e = v.cur.rget j e)
    ∧ Moves (.spillwStk l) l s (fun b =>
      let a := region + BitVec.ofNat 64 (24 * x.spill)
      let r := b.engCheck acc a (24 * outK) true
      traps (.spillwStk l) r
      ∧ ∀ e v, r.1 = none → r.2.engWrite acc who a (wordBytes ((x.stack.drop (x.stack.length - outK)).reverse.flatMap image)) = (.ok e, v) →
        exec (.spillwStk l) s = .next ((v.modCur fun g => g.setNamed fun y =>
          { y with stack := y.stack.take (x.stack.length - outK), spill := y.spill + outK }).laneEnd l.fin))
    ∧ Moves (.fillwStk l) l s (fun b =>
      let a := region + BitVec.ofNat 64 (24 * (x.spill - inK))
      let r := b.engCheck acc a (24 * inK) false
      traps (.fillwStk l) r
      ∧ ∀ bytes v, r.1 = none → r.2.engRead acc who a (24 * inK) = (.ok bytes, v) →
        ∃ es : List REntry, exec (.fillwStk l) s = .next ((v.modCur fun g => g.setNamed fun y => { y with stack := y.stack ++ es.reverse, spill := y.spill - inK }).laneEnd l.fin)
          ∧ es.length = inK ∧ ∀ (n : Nat) e, es[n]? = some e → wordAt bytes (3 * n) = e.ja ++ e.fa ∧ wordAt bytes (3 * n + 1) = e.pm ++ e.am
            ∧ (wordAt bytes (3 * n + 2)).toNat / 256 % 256 = e.id.toNat ∧ ((wordAt bytes (3 * n + 2)).toNat % 4 < 3 → (wordAt bytes (3 * n + 2)).toNat % 4 = kind e.kind))

/-- What `LaneSystemRegisters`, `SpillAndFill` state, together.
Where the manual leaves a point open, the clause is the model's choice: log entries 30, 35. -/
def Obligations.LaneSystem : Prop := LaneSystemRegisters ∧ SpillAndFill

/-- A CTXSV or CTXRS completes with a result in every active thread, as a far result (R413); u is the machine beside that. -/
def CtxResult (i : Instr) (l : Lane) (s u : State) (v : Nat) : Prop :=
  exec i s = .next ((u.modCur fun g => { g with far := g.far ++ match l.d with
    | .t d => [{ dsts := s.active.map fun j => { thr := j, ent := s.entry d.val }, src := .value (BitVec.ofNat 64 v) }]
    | _ => [] }).laneEnd l.fin)

/-- R413 to R417: CTXSV writes a stopped target's image, CTXRS loads an image into a target that has been placed again; the result
is 0, 1 for a target that was not stopped or placed, 2 for an address fault. CTXSV.team frees the team's place on its core; when
every team of the gang is loaded, its teams go on.
Where the manual leaves a point open, the clause is the model's choice: log entries 31, 61, 64. -/
def Obligations.ContextImages : Prop :=
  ∀ (s : State) (l : Lane) (team : Bool), s.cur.mode = .priv → l.u = true → s.active ≠ [] → s.guard l s.lowest = true →
    l.ha = .none → l.hb = .none → l.hc = .none →
    let h := (s.reg32 l.imm l.a s.lowest).toNat
    let va := s.reg64 l.imm l.b s.lowest
    let acc : Acc := { core := s.curTeam.core, ctx := s.curTeam.ctx, mode := .priv, gid := s.curGid }
    let who := Waiter.xlat s.curGid 4
    let group := fun (g : Nat) => ∃ x, (g, x) ∈ s.groups ∧ (s.team x.team).core = h / 65536 % 512 ∧ x.lp = h / 256 % 16 ∧ x.slot = some (h % 16)
      ∧ x.ended = false ∧ (s.team x.team).saved = false ∧ (s.team x.team).lost = false
    let sv := Instr.ctxsv l team
    let rs := Instr.ctxrs l team
    let b := fun i => matrixBegun s i l
    (Placed s sv l → va.toNat % 64 ≠ 0 → CtxResult sv l s (b sv) 2)
    ∧ (Placed s rs l → va.toNat % 64 ≠ 0 → CtxResult rs l s (b rs) 2)
    ∧ (team = false → (∀ g, ¬group g) → va.toNat % 64 = 0 → (Placed s sv l → CtxResult sv l s (b sv) 1) ∧ (Placed s rs l → CtxResult rs l s (b rs) 1))
    ∧ (team = true → s.teamOf (BitVec.ofNat 64 h) = none → va.toNat % 64 = 0 → (Placed s sv l → CtxResult sv l s (b sv) 1) ∧ (Placed s rs l → CtxResult rs l s (b rs) 1))
    ∧ (∀ g, team = false → (b sv).groupOf h = some g → group g ∧
        let t := s.team (s.group g).team
        (va.toNat % 64 = 0 → Placed s sv l → t.stopped = false ∨ t.again = true → CtxResult sv l s (b sv) 1)
        ∧ (va.toNat % 64 = 0 → Placed s rs l → t.again = false → CtxResult rs l s (b rs) 1)
        ∧ (va.toNat % 64 = 0 → Placed s sv l → t.stopped = true → t.again = false →
          let kept := fun (v : State) => v.modGroup g fun x =>
            { x with snap := x.regs, img := some { va := va, ctx := v.curTeam.ctx, core := v.curTeam.core } }
          (∀ region u, (b sv).spillRegion g = (.ok region, u) →
            (∀ e v, u.engWrite u.privAcc u.slotWaiter va (u.groupImage g region) = (.ok e, v) → CtxResult sv l s (kept v) 0)
            ∧ (∀ c v, u.engWrite u.privAcc u.slotWaiter va (u.groupImage g region) = (.fault c, v) → CtxResult sv l s v 2))
          ∧ (∀ c v, (b sv).spillRegion g = (.fault c, v) → CtxResult sv l s v 2))
        ∧ (va.toNat % 64 = 0 → Placed s rs l → t.again = true → ∀ head v1 bytes v2, (b rs).engRead acc who va 96 = (.ok head, v1) →
          let dirty := (List.range 256).filter fun e => (BitVec.ofNat 256 (ofLeBytes ((head.drop 64).take 32))).getLsbD e
          v1.engRead v1.privAcc v1.slotWaiter va (14080 + 128 * dirty.length) = (.ok bytes, v2) →
          ∃ z : Group, CtxResult rs l s ((v2.setGroup g z).resumeGang z.team) 0 ∧ z.loaded = true ∧ z.team = (v2.group g).team
            ∧ (∀ n, n < 63 → SMap.get 0 z.sreg (n + 1) = wordAt (bytes.drop 96) n)
            ∧ (z.mode = .priv ↔ (wordAt (bytes.drop 1128) 0).getLsbD 0 = true)
            ∧ (∀ n y, (v2.group g).splits.find n = some y → ∃ y', z.splits.find n = some y'
              ∧ y'.pc ++ y'.mask = wordAt (bytes.drop (1152 + 640 * n)) 0 ∧ y'.count = wbits (wordAt (bytes.drop (1152 + 640 * n)) 2) 16 16)
            ∧ (∀ k y, (v2.group g).thr.find k = some y → (z.thread k).gen = wordAt (bytes.drop (4352 + 64 * k)) 1
              ∧ (z.thread k).fpstat ++ (z.thread k).preds = (wordAt (bytes.drop (4352 + 64 * k)) 0).extractLsb' 32 32
                ++ (wordAt (bytes.drop (4352 + 64 * k)) 0).extractLsb' 0 8)
            ∧ (bytes.take 96 = head → (v2.group g).snap = (v2.group g).regs → ∀ (p e k : Nat), dirty[p]? = some e → k < 32 →
              z.rget k e = BitVec.ofNat 32 (ofLeBytes ((bytes.drop (14080 + 128 * p + 4 * k)).take 4)))))
    ∧ (∀ t, team = true → s.teamOf (BitVec.ofNat 64 h) = some t → va.toNat % 64 = 0 →
        (Placed s sv l → (s.team t).stopped = false ∨ (s.team t).again = true → CtxResult sv l s (b sv) 1)
        ∧ (Placed s rs l → (s.team t).again = false → CtxResult rs l s (b rs) 1)
        ∧ (Placed s sv l → (s.team t).stopped = true → (s.team t).again = false →
          let r := (b sv).teamImage t
          (∀ e v, (b sv).engWrite acc who va r = (.ok e, v) → ∃ u : State, CtxResult sv l s u 0
            ∧ u = { v with teams := u.teams, groups := u.groups, lanePairs := u.lanePairs, mem := u.mem }
            ∧ (let y := v.modTeam t fun x => { x with snap := x.scratch, img := some { va := va, ctx := v.curTeam.ctx, core := v.curTeam.core } }
              u.mem = v.mem.l1Resize (v.team t).core (y.l1Banks (v.team t).core) (u.l1Banks (v.team t).core)) ∧ (u.team t).saved = true ∧ (u.team t).again = false
            ∧ (∀ w, w ≠ t → u.teams.find w = v.teams.find w)
            ∧ ∀ g, u.groups.find g = (v.groups.find g).map fun x => if x.team = t then { x with slot := none, granule := none } else x)
          ∧ (∀ c v, (b sv).engWrite acc who va r = (.fault c, v) → CtxResult sv l s v 2))
        ∧ (Placed s rs l → (s.team t).again = true → ∀ bytes v, (b rs).engRead acc who va ((b rs).teamImage t).length = (.ok bytes, v) →
          let k := (v.team t).kernel
          let rest := bytes.drop (64 + 66048 * k.scrb + (wordAt bytes 1).toNat + 16392 * k.tiles)
          ∃ z : Team, CtxResult rs l s ((v.setTeam t z).resumeGang t) 0
            ∧ z = { v.team t with scratch := z.scratch, full := z.full, watch := z.watch, tiles := z.tiles, mxstall := wordAt rest 0, gm := wordAt rest 1,
                                  rows := z.rows, loaded := true, snap := [], img := none }
            ∧ ((v.team t).snap = (v.team t).scratch → ∀ a, SMap.get 0 z.scratch a = if a < (v.team t).kernel.scrb * 65536 then bytes.getD (64 + a) 0 else 0)))
    ∧ (∀ t, let r := s.teamImage t
        ∀ a, a < (s.team t).kernel.scrb * 65536 → r.getD (64 + a) 0 = SMap.get 0 (s.team t).scratch a)
    ∧ (∀ g, let x := s.group g
        let spilled := (∃ p ∈ x.splits, p.2.spill ≠ 0) ∨ ∃ z, x.tslot = some z ∧ ∃ y ∈ z.levels, y.spill ≠ 0
        (spilled → s.spillRegion g = s.engRead acc who (x.ctximg + 6400) 7680)
        ∧ (¬spilled → ∃ o : List Byte, o.length = 7680 ∧ s.spillRegion g = (.ok o, { s with free := s.free + 7680 })))
    ∧ (∀ g region, region.length = 7680 → let x := s.group g
        let r := s.groupImage g region
        let at_ := fun o => r.drop o
        let dirty := (List.range 256).filter fun e => x.dirty.getLsbD e
        r.length = 14080 + 128 * dirty.length
        ∧ wbits (wordAt r 0) 0 16 = 1 ∧ ((s.team x.team).kernel.regs16 < 256 → wbits (wordAt r 0) 32 32 = (s.team x.team).ctx % 2 ^ 32) ∧ (wordAt r 3).toNat = 0x18
        ∧ (BitVec.ofNat 256 (ofLeBytes ((at_ 64).take 32)) = x.dirty)
        ∧ (∀ n, n < 63 → wordAt (at_ 96) n = SMap.get 0 x.sreg (n + 1))
        ∧ wordAt (at_ 600) 0 = x.cond.setWidth 64 &&& 0xFE
        ∧ wordAt (at_ 608) 0 = BitVec.ofNat 64 x.stlevel ∧ wordAt (at_ 608) 1 = x.st1.cause ∧ wordAt (at_ 608) 2 = x.st1.pc ∧ wordAt (at_ 608) 3 = x.st1.val
        ∧ (∀ n y, n ≤ 4 → x.split? n = some y →
          wordAt (at_ (1152 + 640 * n)) 0 = y.pc ++ y.mask ∧ wbits (wordAt (at_ (1152 + 640 * n)) 2) 16 16 = y.count % 2 ^ 16)
        ∧ (∀ k, k < 32 → wordAt (at_ (4352 + 64 * k)) 1 = (x.thread k).gen
          ∧ (wordAt (at_ (4352 + 64 * k)) 0).extractLsb' 32 32 = (x.thread k).fpstat
          ∧ (wordAt (at_ (4352 + 64 * k)) 0).extractLsb' 1 7 = (x.thread k).preds.extractLsb' 1 7)
        ∧ (at_ 6400).take 7680 = region
        ∧ ∀ (p e k : Nat), dirty[p]? = some e → k < 32 → BitVec.ofNat 32 (ofLeBytes ((at_ (14080 + 128 * p + 4 * k)).take 4)) = x.rget k e)

/-! ## Events of the scalar streams (chapters 9, 15 to 17, 20) -/

/-- Event e does for group g what its waiting instruction i does when it is performed now. -/
def Performs (e i : Instr) (s : State) (g : Nat) : Prop :=
  ∃ t, exec e s = .next t ∧ exec i { s with curGid := g } = .next t

/-- Event e completes a waiting scalar instruction with v in sd; beside that the machine is u. -/
def EventPuts (e : Instr) (s u : State) (d : BitVec 6) (v : W64) : Prop := ∃ t, exec e s = .next t ∧ ScalarPut u t d v

/-- Event e completes a waiting scalar instruction that writes no register. -/
def EventPasses (e : Instr) (s u : State) : Prop := ∃ t, exec e s = .next t ∧ ScalarJump u t (u.cur.spc + 4)

/-- R108, R147, R160, R161, R167, R168, R292, R302, R304, R323, R325, R339, R342, R343, R347, R67, R410: an event that a scalar stream
waits for makes the waiting instruction complete as it would at issue, with the operands it captured then, while its group executes: in
an active slot, neither ended nor killed, its team neither stopped nor saved. RAWAIT and ACWAIT give what held at the update that released
them; an access that waited for a translation is made again.
Where the manual leaves a point open, the clause is the model's choice: log entries 4, 89. -/
def Obligations.ScalarReleases : Prop :=
  ∀ (s : State) (g : Nat) (w : SWait) (a d : BitVec 6),
    let z : State := { s with curGid := g }
    z.cur.swait = some w → z.executes g = true →
    let t := z.curTeam
    let r := z.sread a
    let words := fun (n : Nat) => (List.range n).map fun j => z.sread (a + BitVec.ofNat 6 j)
    -- BARRIER_RELEASE and FENCE_COMPLETE
    (∀ b : Fin 16, b.val < t.kernel.bars →
      let ph := t.phase b
      let past := (ph + 2 ^ 32 - w.tok) % 2 ^ 32
      let turned := ∀ p, w.aux.head? = some p → p.toNat ≠ ph ∧ (t.bmask b).getLsbD z.cur.idx = false
      (w.instr = .barw a d b → w.tok = r.toNat % 2 ^ 32 → Performs (.barrierRelease g) (.barw a d b) s g)
      ∧ (w.instr = .bara d b → turned → Performs (.barrierRelease g) (.bara d b) s g ∧ Performs (.fenceComplete g) (.bara d b) s g)
      ∧ (w.instr = .bar d b → w.arrived = false → turned → Performs (.barrierRelease g) (.bar d b) s g ∧ Performs (.fenceComplete g) (.bar d b) s g)
      ∧ (w.instr = .bar d b → w.arrived = true → 1 ≤ past → past < 2 ^ 31 → EventPuts (.barrierRelease g) s z d (BitVec.ofNat 64 ph)))
    ∧ (∀ sc k, w.instr = .fence sc k → w.aux = [] → k ≠ .acq → Performs (.fenceComplete g) (.fence sc k) s g)
    ∧ (w.instr = .fence .sys .rel → w.aux = [1] → z.releaseDone t.ctx .sys = true → EventPasses (.fenceComplete g) s (z.raiseRt t.ctx))
    ∧ (w.instr = .dlaunch a d → w.aux = [] → RunsOver z → exec (.fenceComplete g) s = .next (z.modCur fun x => { x with swait := none }))
    -- LQUIET, LRUN, LRUNR
    ∧ (w.instr = .lquiet → Performs (.lquietComplete g) .lquiet s g)
    ∧ (∀ i : BitVec 20, w.instr = .lrun d i → w.tok = i.toNat → w.aux = (if d = 0 then [0, 0, 0, 0] else (List.range 4).map fun j => z.sread (d + BitVec.ofNat 6 j)) →
      i.toNat < t.kernel.lunits → z.cur.anyLive = true ∨ ¬LaneIdle z.cur → Performs (.lrunEnqueue g) (.lrun d i) s g)
    ∧ (w.instr = .lrunr d a → w.tok = r.toNat → r.toNat < 2 ^ 20 → w.aux = (if d = 0 then [0, 0, 0, 0] else (List.range 4).map fun j => z.sread (d + BitVec.ofNat 6 j)) →
      r.toNat < t.kernel.lunits → z.cur.anyLive = true ∨ ¬LaneIdle z.cur → Performs (.lrunEnqueue g) (.lrunr d a) s g)
    -- rings, counters, transfers, jobs
    ∧ (∀ n v, w.instr = .rawait a d → w.aux = [n, v] → EventPuts (.rawaitRelease g) s z d v)
    ∧ (∀ n, w.instr = .rawait a d → w.aux = [n] → exec (.rawaitRelease g) s = .next z)
    ∧ (∀ v, w.instr = .acwait a d → w.aux = [v] → EventPuts (.acwaitRelease g) s z d v)
    ∧ (w.instr = .acwait a d → w.aux = [] → exec (.acwaitRelease g) s = .next z)
    ∧ (w.instr = .fstat a d → r.toNat < 512 → r.toNat / 16 % 16 = 0 → w.aux = [r] → Performs (.fstatRelease g) (.fstat a d) s g)
    ∧ (w.instr = .rswait a d → r.toNat < 2 ^ 17 → w.aux = [r] → Performs (.rswaitRelease g) (.rswait a d) s g)
    ∧ ((∃ n, n < 16 ∧ z.cur.tags.find n = none) → ∀ (p : BPol) (f n : Bool) (o : FOp),
      (w.instr = .fput a d p f n → w.aux = words 3 → Performs (.tagStallEnd g) (.fput a d p f n) s g)
      ∧ (w.instr = .fget a d p n → w.aux = words 3 → Performs (.tagStallEnd g) (.fget a d p n) s g)
      ∧ (w.instr = .fatom a d n o → w.aux = words 4 → Performs (.tagStallEnd g) (.fatom a d n o) s g)
      ∧ (w.instr = .fmcast a d p n → w.aux = words 4 → Performs (.tagStallEnd g) (.fmcast a d p n) s g))
    ∧ (∀ (src dst : List Byte) (old : Option (List Byte)) (o : List W64), w.instr = .reshard a d → w.arrived = true → o.length = 4 →
      w.tok = src.length → (old = none ↔ (o.getD 3 0).getLsbD 16 = false) → (∀ b, old = some b → b.length = 64) →
      wordBytes (w.aux.drop 4) = old.getD [] ++ src ++ dst → w.aux.take 4 = o →
      w.seen = 1 ∨ s.liveJobs < 64 → ReshardStarts (exec (.elandJobSlotFree g) s) z d (o.getD 2 0) ((o.getD 3 0).toNat % 2 ^ 16) src dst old)
    -- deadlines and events
    ∧ (∀ e due, w.instr = .sleeps a d e → w.aux = [due] →
      (e = true → w.seen ≠ 0 → EventPuts (.sleepsWake g) s z d 1)
      ∧ (e = false ∨ w.seen = 0 → due ≠ 0 → due.toNat ≤ s.timeNs.toNat → EventPuts (.sleepsWake g) s z d 0))
    ∧ (∀ due, w.instr = .shalt a d → w.aux = [due] →
      (w.seen ≠ 0 → EventPuts (.shaltWake g) s z d w.seen)
      ∧ (w.seen = 0 → due ≠ 0 → due.toNat ≤ s.timeNs.toNat → EventPuts (.shaltWake g) s z d 0))
    ∧ (∀ status start nodes, w.instr = .persist a d ∨ w.instr = .persistAll d → w.aux = status :: start :: nodes → s.mem.unaccepted = [] →
      ((∀ n ∈ nodes, s.mem.answers n.toNat = true) → EventPuts (.persistComplete g) s z d status)
      ∧ ((∃ n ∈ nodes, s.mem.answers n.toNat = false) → start.toNat + 10000000 ≤ s.timeNs.toNat → EventPuts (.persistComplete g) s z d 0x06))
    -- scalar accesses: host (0) and peer (1) answers, a translation (2)
    ∧ (∀ v : W64, (w.aux = [onHost] ∧ (s.host.reqs.find w.tok).bind (·.ans) = some v) ∨ (w.aux = [onPeer] ∧ (s.fabric.reqs.find w.tok).bind (·.ans) = some v) →
      let u := if w.aux = [onHost] then z.dropHost w.tok else z.dropPeer w.tok
      (∀ sz o, w.instr = .sld d a sz o → EventPuts (.scalarAccessComplete g) s u d (BitVec.ofNat 64 (v.toNat % 2 ^ (8 * Size.bytes' sz))))
      ∧ (∀ sz o, w.instr = .sldx d a sz o → EventPuts (.scalarAccessComplete g) s u d ((v.setWidth (8 * Size.bytes' sz)).signExtend 64))
      ∧ (∀ b o, w.instr = .satom d a b o → EventPuts (.scalarAccessComplete g) s u d v)
      ∧ (∀ sz o, w.instr = .sst d a sz o → EventPasses (.scalarAccessComplete g) s u))
    ∧ (w.aux = [onXlat] → s.host.reqs.find w.tok = none → ∀ (sz : Size) (o : BitVec 12) (b : BitVec 6) (f : AOp),
      ∀ i ∈ [Instr.sld d a sz o, .sldx d a sz o, .sst d a sz o, .satom d a b f, .leaseopRead a d, .leaseopGrant a d, .keyopLoad a d], w.instr = i →
        exec (.scalarAccessComplete g) s = exec i (z.modCur fun x => { x with swait := none }))

/-! ## Events of the lane streams (chapters 8, 13, 19, 20) -/

/-- Tables that the machine keeps sorted, and split slots that are 0 to 3. -/
def SplitsKept (s : State) : Prop :=
  SMap.sorted s.groups = true ∧ ∀ p ∈ s.groups, SMap.sorted p.2.splits = true ∧ ∀ q ∈ p.2.splits, q.1 < 4

/-- A run of a lane pair is ready to start (R370): group, split number, slot; a W run that has not begun waits for far results (R249, R379),
a handler's for its time (R398). -/
def ReadyRun (s : State) (c lp gid n sl : Nat) (x : Split) : Prop :=
  ∃ g, s.groups.find gid = some g ∧ (s.team g.team).core = c ∧ g.lp = lp ∧ g.slot = some sl ∧ sl < 8 ∧ (s.team g.team).saved = false
    ∧ (s.team g.team).stopping = false ∧ g.ended = false ∧ g.dying = false ∧ n ≤ 4 ∧ (n = 4 → x.age ≤ s.cycle) ∧ g.split? n = some x ∧ x.mode = .ready
    ∧ (0 < x.pos ∨ x.resuming = true ∧ x.whole = false ∨ g.far = [] ∨ s.peekW gid x.pc = false)

/-- R36, R108, R157, R158, R249, R370, R384, R390, R399: the events of the lane streams. A free lane takes the oldest ready run of its lane
pair, ties going round robin after the rank served last, and with it the split's saved latch entries. A lane stream with every
split at NEXT merges them into split 0 and pops the decision queue. Each register of a far result gets its value on its own, and with the
last result of the group its W runs that waited are ready, with this cycle for their age. A full granule, a
wake-up and a trap slot free since an earlier cycle let the split that waits for them go on.
Where the manual leaves a point open, the clause is the model's choice: log entries 4, 7, 34. -/
def Obligations.LaneEvents : Prop :=
  ∀ (s : State), SplitsKept s →
    (∀ c lp ln gid n sl x, ln < 2 → ReadyRun s c lp gid n sl x → SMap.sorted x.lat = true →
      let p := s.lanePair c lp
      let lane := fun (p : LanePair) => if ln = 0 then p.lane0 else p.lane1
      let other := fun (p : LanePair) => if ln = 0 then p.lane1 else p.lane0
      let after := fun rank => (rank + 40 - (p.last + 1) % 40) % 40
      let rank := sl * 5 + n
      (lane p ≠ none → exec (.runStart c lp ln) s = .next s)
      ∧ (lane p = none → (∀ gid' n' sl' x', ReadyRun s c lp gid' n' sl' x' → (gid', n') ≠ (gid, n) →
          x.age < x'.age ∨ x.age = x'.age ∧ after rank < after (sl' * 5 + n')) →
        ∃ u, exec (.runStart c lp ln) s = .next u
          ∧ u = { s with curGid := gid, curSlot := n, groups := u.groups, lanePairs := u.lanePairs }
          ∧ (∀ h, h ≠ gid → u.groups.find h = s.groups.find h) ∧ u.group gid = (s.group gid).setSplit n { x with mode := .running, lat := [] }
          ∧ lane (u.lanePair c lp) = some (gid, n) ∧ other (u.lanePair c lp) = other p ∧ (u.lanePair c lp).last = rank ∧ (u.lanePair c lp).reserve = p.reserve ∧ (u.lanePair c lp).claim = p.claim
          ∧ (∀ j, (u.lanePair c lp).latch.find j = match x.lat.find j with
              | some e => some e
              | none => p.latch.find j)
          ∧ ∀ k, k ≠ c * 16 + lp → u.lanePairs.find k = s.lanePairs.find k))
    ∧ (∀ c lp ln, (¬∃ gid n sl x, ReadyRun s c lp gid n sl x) → exec (.runStart c lp ln) s = .next s)
    ∧ (∀ g x, s.groups.find g = some x → x.ended = false → x.tslot = none → (∀ p ∈ x.splits, p.2.mode = .waitNext) →
      let stop := (s.team x.team).stopping
      let live := x.anyLive = true
      let first := ((x.splits.head?).map (·.2)).getD {}
      let left := maskOf ((List.range 32).filter fun k => decide ((x.thread k).life ≠ .retired))
      let y : Split := { first with mask := left, stack := [], mode := .waitNext }
      let rests := s.setGroup g { x with splits := [(0, y)] }
      let drained := s.setGroup g { x with splits := [(0, y)], queue := [] }
      let starts := fun (r : Run) rest => s.setGroup g { x with queue := rest, args := r.args, splits := [(0, Split.ready { y with pc := r.start } s.cycle)] }
      (x.queue = [] ∨ stop = true → exec (.nextMerge g) s = .next rests)
      ∧ (x.queue = [] ∨ stop = true → exec (.decisionQueuePop g) s = .next s)
      ∧ (∀ r rest, x.queue = r :: rest → stop = false → live →
        exec (.decisionQueuePop g) s = .next (starts r rest) ∧ exec (.nextMerge g) s = .next (starts r rest))
      ∧ (x.queue ≠ [] → stop = false → ¬live → exec (.decisionQueuePop g) s = .next drained ∧ exec (.nextMerge g) s = .next drained))
    ∧ (∀ g i (r : Far) (v : W64), (s.group g).far[i]? = some r → r.src = .value v ∨ r.src = .slow v → r.dsts ≠ [] → (∀ d ∈ r.dsts, d.ent < 256) →
      let x := s.group g
      ∃ (j : Nat) (d : FarDst) (z u : State), r.dsts[j]? = some d ∧ exec (.farResultArrival g i) s = .next u
        ∧ z = { (s.setGroup g (z.group g)) with free := z.free }
        ∧ (let y := z.group g
          y = { x with regs := y.regs, dirty := y.dirty,
                       far := (if r.dsts.length = 1 then x.far.eraseIdx i else x.far.set i { r with dsts := r.dsts.eraseIdx j }) }
          ∧ y.rget d.thr d.ent = (if d.high then (v >>> 32).setWidth 32 else v.setWidth 32) ∧ y.dirty.getLsbD d.ent = true
          ∧ (∀ k e, e < 256 → (k, e) ≠ (d.thr, d.ent) → y.rget k e = x.rget k e) ∧ (∀ e, e ≠ d.ent → y.dirty.getLsbD e = x.dirty.getLsbD e)
          ∧ (y.far ≠ [] → u = z)
          ∧ (y.far = [] →
            let aged := fun (q : Split) => if q.mode = .ready ∧ q.pos = 0 ∧ (q.resuming = false ∨ q.whole = true) ∧ z.peekW g q.pc = true then { q with age := max q.age s.cycle } else q
            u = z.setGroup g { y with splits := y.splits.map fun p => (p.1, aged p.2),
                                      tslot := y.tslot.map fun t => { t with levels := t.levels.take 1 |>.map aged |>.append (t.levels.drop 1) } })))
    ∧ (∀ g n x c v, (s.group g).ended = false → (s.group g).tslot = none → (s.group g).slotFrom ≤ s.cycle → (s.group g).splits.find n = some x → x.mode = .held c v →
      (∀ m y c' v', m < n → (s.group g).splits.find m = some y → y.mode ≠ .held c' v') →
      exec (.heldTrapEntry g) s = .next (s.enterTrap g n x.rix c v))
    ∧ (∀ g n x t gran, n ≤ 4 → (s.group g).split? n = some x → x.mode = .suspended (.granule t gran) →
      ((s.team t).isFull gran = true → exec (.ldfeResume g n) s = .next (s.setGroup g ((s.group g).setSplit n { x with mode := .ready, age := s.cycle })))
      ∧ ((s.team t).isFull gran = false → exec (.ldfeResume g n) s = .next (s.setGroup g ((s.group g).setSplit n x))))
    ∧ (∀ g n x, n ≤ 4 → (s.group g).split? n = some x → x.sleeping = true →
      let awake := { x with sleeping := false, wake := none, ev := false, evSeen := false }
      let due := (∃ w, x.wake = some w ∧ w ≤ s.cycle) ∨ x.ev = true ∧ x.evSeen = true
      (¬due → exec (.sleepWake g n) s = .next s)
      ∧ (due → x.mode = .sleeping → exec (.sleepWake g n) s
          = .next (s.setGroup g (let h := (s.group g).setSplit n { awake with mode := .ready, age := s.cycle }; if n < 4 then h.mergeStarts else h)))
      ∧ (due → x.mode ≠ .sleeping → x.mode ≠ .ready → exec (.sleepWake g n) s = .next (s.setGroup g ((s.group g).setSplit n awake))))

/-! ## Lease and page-cache events (chapters 3 to 5) -/

/-- A pool line lies in a lease's range. -/
def inLease (l : Lease) (k : Nat) : Prop := lineSpace k = 0 ∧ l.base.toNat ≤ lineAddr k ∧ lineAddr k < l.base.toNat + l.len.toNat

/-- A frame holds a page of a lease. -/
def ofLease (m : Mem) (l : Lease) (f : Nat) : Prop :=
  let x := m.frame f
  x.carved = false ∧ (x.valid = true ∨ x.filling = true) ∧ l.base.toNat ≤ x.pfn * 65536 ∧ x.pfn * 65536 < l.base.toNat + l.len.toNat

/-- R57, R58, R61, R62, R65, R80: the lease events, the acceptance of writes, ATS invalidations. A record that is posted has SOURCE 3, the
lease's id and base (Table 3-4); an event SHALT sees sets its bit. An ATS invalidation is completed once every request that used its
entries has reached the tether.
Where the manual leaves a point open, the clause is the model's choice: log entries 14, 21, 79, 90. -/
def Obligations.LeaseEvents : Prop :=
  ∀ (s : State) (n : Nat), SMap.sorted s.mem.leases = true → SMap.sorted s.mem.frames = true →
    let l := s.mem.lease n
    let now := s.timeNs.toNat
    let put := fun (x : Lease) => { s with mem := s.mem.setLease n x }
    let record := fun (cause : Nat) => [BitVec.ofNat 64 (l.id.toNat * 2 ^ 32 + 3 * 65536 + cause), 0, BitVec.ofNat 64 l.base.toNat, (0 : W64)]
    let left := fun (x : Lease) => if l.st = .active then { x with stale := List.range 292, cleared := s.timeNs } else x
    let only := fun (u : State) => u = { s with mem := u.mem }
    (l.st = .active → l.expiry.toNat ≤ now → exec (.leaseExpiry n) s = .next ((put { (left l) with st := .expired }).postRecord (record 8)))
    ∧ (¬(l.st = .active ∧ l.expiry.toNat ≤ now) → exec (.leaseExpiry n) s = .next s)
    ∧ (l.st = .active → l.warn ≠ 0 → l.warn.toNat ≤ now → l.dueSent = false →
      exec (.leaseDue n) s = .next ((put { l with dueSent := true }).postRecord (record 0)))
    ∧ (¬(l.st = .active ∧ l.warn ≠ 0 ∧ l.warn.toNat ≤ now ∧ l.dueSent = false) → exec (.leaseDue n) s = .next s)
    ∧ (∀ g, (l.st = .active ∨ l.st = .expired → exec (.revocationNotice n g) s = .next ((put { (left l) with graceEnd := g, st := .revoking }).shaltEvent 2))
      ∧ (¬(l.st = .active ∨ l.st = .expired) → exec (.revocationNotice n g) s = .next (s.shaltEvent 2)))
    ∧ (l.st = .revoking → ∃ u : State, exec (.revocationWritebackDone n) s = .next u ∧ only u ∧ u.mem.lease n = { l with st := .revoked, stale := [] }
      ∧ (∀ m, m ≠ n → u.mem.lease m = s.mem.lease m) ∧ (∀ f, ofLease u.mem l f → (u.mem.frame f).dirty = 0)
      ∧ (∀ k, inLease l k → u.mem.l2.find k = none) ∧ ∀ r k, r ∈ l.stale → 4 ≤ r → k < 2 ^ 90 → inLease l k → u.mem.l1.find (l1Key (r - 4) k) = none)
    ∧ (l.st = .revoking → l.graceEnd.toNat ≤ now → ∃ u : State, exec (.graceEnd n) s = .next u ∧ only u
      ∧ let m := s.mem.clearAll n
        let dirty := fun f => (m.frame f).dirty ≠ 0 ∨ ∃ p ∈ m.l2, p.2.dirty = true ∧ lineSpace p.1 = 0 ∧ lineAddr p.1 / 65536 = (m.frame f).pfn
        (∀ f, ofLease m l f → dirty f → (u.mem.frame f).poisoned = true ∧ (u.mem.frame f).dirty = 0)
        ∧ (u.mem.lease n).st = .revoked ∧ ((u.mem.lease n).loss = true ↔ l.loss = true ∨ ∃ f, ofLease m l f ∧ dirty f))
    ∧ (∀ node, ∃ u : State, exec (.poolNodeLost node) s = .next (u.shaltEvent 2) ∧ only u ∧ node ∈ u.mem.lostNodes
      ∧ (∀ m f, (s.mem.lease m).node.toNat = node → (s.mem.lease m).st ≠ .free → ofLease s.mem (s.mem.lease m) f → (u.mem.frame f).poisoned = true)
      ∧ ∀ m, u.mem.lease m =
          let x := s.mem.lease m
          if x.node.toNat = node ∧ x.st ≠ .free then
            (let y := if x.st = .active then { x with stale := List.range 292, cleared := s.timeNs } else x; { y with loss := true, st := .lost })
          else x)
    ∧ (∀ r, r ∈ l.stale → ∃ u : State, exec (.leaseValidClear n r) s = .next u ∧ only u ∧ (u.mem.lease n).stale = l.stale.filter (fun q => decide (q ≠ r))
      ∧ (4 ≤ r → ∀ k, k < 2 ^ 90 → inLease l k → u.mem.l1.find (l1Key (r - 4) k) = none))
    ∧ (∀ r, r ∉ l.stale → exec (.leaseValidClear n r) s = .next s)
    ∧ exec .storeAccepted s = .next { s with mem := { s.mem with unaccepted := s.mem.unaccepted.tail } }
    ∧ (∀ pasid page bytes, ∃ u : State, exec (.atsInvalidation pasid page bytes) s = .next u ∧ u = { s with mem := { s.mem with tlb := u.mem.tlb, atc := u.mem.atc }, host := u.host }
      ∧ (∃ tags : List Nat,
          (∀ t, t ∈ tags ↔ ∃ r, (t, r) ∈ s.host.reqs ∧ s.host.reached t = false ∧ r.kind ≠ .ats ∧ r.kind ≠ .pri
            ∧ ∃ e ∈ s.mem.atc, (e.pasid = pasid ∧ e.page * 4096 < page * 4096 + bytes ∧ page * 4096 < e.page * 4096 + e.bytes)
              ∧ e.ans.hpage * 4096 ≤ r.addr ∧ r.addr < e.ans.hpage * 4096 + e.bytes)
          ∧ let all := s.host.invals ++ [{ pasid := pasid, page := page, bytes := bytes, tags := tags }]
            let sent := fun (i : Inval) => i.tags.all s.host.reached
            u.host = { s.host with invals := all.filter (fun i => !sent i),
                                   completed := s.host.completed ++ (all.filter sent).map fun i => (i.pasid, i.page, i.bytes) })
      ∧ (∀ e, e ∈ u.mem.atc ↔ e ∈ s.mem.atc ∧ ¬(e.pasid = pasid ∧ e.page * 4096 < page * 4096 + bytes ∧ page * 4096 < e.page * 4096 + e.bytes))
      ∧ ∀ e, e ∈ u.mem.tlb ↔ e ∈ s.mem.tlb ∧ ¬(e.leaf.space = 1 ∧ (s.context e.ctx).pasid = pasid ∧ e.page < page * 4096 + bytes
          ∧ page * 4096 < e.page + pageBytes e.leaf.size))
    ∧ (∀ r e u, s.pager.waiting = [] → s.pager.used < 4096 →
      s.engWrite sysAcc .engine (s.pager.base + BitVec.ofNat 64 (32 * (s.pager.put.toNat % 4096))) (wordBytes r) = (e, u) →
      (e ≠ .wait → s.postRecord r = ({ u with pager := { u.pager with put := u.pager.put + 1 } } : State).shaltEvent 1)
      ∧ (e = .wait → s.postRecord r = { u with pager := { u.pager with waiting := r :: u.pager.waiting } }))
    ∧ (∀ r, s.pager.waiting ≠ [] ∨ 4096 ≤ s.pager.used → s.postRecord r = { s with pager := { s.pager with waiting := s.pager.waiting ++ [r] } })
    ∧ ∀ bit, let u := s.shaltEvent bit
      u = { s with groups := u.groups } ∧ ∀ g x, s.groups.find g = some x → ∃ y, u.groups.find g = some y ∧ y = { x with swait := y.swait }
        ∧ ∀ w, x.swait = some w → ∃ w', y.swait = some w' ∧ w' = { w with seen := w'.seen }
          ∧ (∀ a d due, w.instr = .shalt a d → w.aux = [due] → due = 0 ∨ now < due.toNat → w'.seen = w.seen ||| (1#64 <<< bit))
          ∧ ((∀ a d, w.instr ≠ .shalt a d) → w'.seen = w.seen)

/-- R64, R88, R89, R90, R94, R95, R99: the page-cache events. A fill brings the frame's 65,536 bytes and keys from the pool unchanged, and every
lane load that waits for the frame has its value; a relayout leaves the frame in its new layout, a pool frame whose range takes writes
clean; a snoop drops
the frame without write-back, or has a fill in flight taken again; a halving halves every counter.
Where the manual leaves a point open, the clause is the model's choice: log entries 23, 24, 82, 83. -/
def Obligations.PageCacheEvents : Prop :=
  ∀ (s : State) (f : Nat), SMap.sorted s.groups = true →
    let x := s.mem.frame f
    let waits := fun (r : Far) => ∃ k key off n e p, r.src = .fill f k key off n e p
    let idle := ∀ p ∈ s.groups, ∀ r ∈ p.2.far, ¬waits r
    (x.filling = false → idle ∨ x.relaying ≠ none → exec (.frameFillComplete f) s = .next s)
    ∧ (x.filling = true ∨ x.relaying = none → ∃ u, exec (.frameFillComplete f) s = .next u ∧ (∀ p ∈ u.groups, ∀ r ∈ p.2.far, ¬waits r))
    ∧ (x.filling = true → idle → x.relaying = none → SMap.sorted s.mem.hbm = true → SMap.sorted s.mem.pool = true →
      ∃ u : State, exec (.frameFillComplete f) s = .next u
        ∧ u = { s with mem := { s.mem with hbm := u.mem.hbm, hbmKey := u.mem.hbmKey, frames := u.mem.frames, unaccepted := u.mem.unaccepted } }
        ∧ u.mem.frame f = { x with filling := false, refetch := false, valid := true } ∧ (∀ g, g ≠ f → u.mem.frame g = s.mem.frame g)
        ∧ (∀ a, a / 65536 = f → SMap.get 0 u.mem.hbm a = SMap.get 0 s.mem.pool (x.pfn * 65536 + a % 65536))
        ∧ ∀ a, a / 65536 ≠ f → SMap.get 0 u.mem.hbm a = SMap.get 0 s.mem.hbm a)
    ∧ (∀ lay, x.relaying = some lay → x.filling = false → ∃ u, exec (.relayoutComplete f) s = .next u ∧ (∀ p ∈ u.groups, ∀ r ∈ p.2.far, ¬waits r)
      ∧ (idle → u = { s with mem := u.mem } ∧ u.mem.frame f = { x with layout := lay, relaying := none, dirty := if x.carved || x.poisoned || !s.mem.writable (x.pfn * 65536) then x.dirty else 0 }
        ∧ ∀ g, g ≠ f → u.mem.frame g = s.mem.frame g))
    ∧ (x.relaying = none ∨ x.filling = true → exec (.relayoutComplete f) s = .next s)
    ∧ (s.mem.halvings < s.timeNs.toNat / 65536000 → ∃ u : State, exec .counterHalving s = .next u
      ∧ u = { s with mem := { s.mem with frames := u.mem.frames, halvings := s.mem.halvings + 1 } }
      ∧ ∀ g, u.mem.frame g = { s.mem.frame g with counter := (s.mem.frame g).counter / 2 })
    ∧ (s.timeNs.toNat / 65536000 ≤ s.mem.halvings → exec .counterHalving s = .next s)
    ∧ (∀ a,
      (∀ g, s.mem.hit (a / 65536) = some g → (s.mem.frame g).filling = true → ∃ u : State, exec (.backInvalidationSnoop a) s = .next u
        ∧ u = { s with mem := { s.mem with l2 := u.mem.l2, l1 := u.mem.l1, frames := u.mem.frames } }
        ∧ u.mem.frame g = { s.mem.frame g with refetch := true } ∧ (∀ h, h ≠ g → u.mem.frame h = s.mem.frame h)
        ∧ ∀ k, lineSpace k = 0 → lineAddr k / 65536 = a / 65536 → u.mem.l2.find k = none ∧ ∀ c, k < 2 ^ 90 → u.mem.l1.find (l1Key c k) = none)
      ∧ (∀ g, s.mem.hit (a / 65536) = some g → (s.mem.frame g).filling = false → ∃ u : State, exec (.backInvalidationSnoop a) s = .next u
        ∧ u = { s with mem := { s.mem with l2 := u.mem.l2, l1 := u.mem.l1, hbm := u.mem.hbm, hbmKey := u.mem.hbmKey, frames := u.mem.frames } }
        ∧ u.mem.frame g = {} ∧ (∀ h, h ≠ g → u.mem.frame h = s.mem.frame h)
        ∧ ∀ k, lineSpace k = 0 → lineAddr k / 65536 = a / 65536 → u.mem.l2.find k = none ∧ ∀ c, k < 2 ^ 90 → u.mem.l1.find (l1Key c k) = none)
      ∧ (s.mem.hit (a / 65536) = none → ∃ u : State, exec (.backInvalidationSnoop a) s = .next u
        ∧ u = { s with mem := { s.mem with l2 := u.mem.l2, l1 := u.mem.l1 } }
        ∧ ∀ k, lineSpace k = 0 → lineAddr k / 65536 = a / 65536 → u.mem.l2.find k = none ∧ ∀ c, k < 2 ^ 90 → u.mem.l1.find (l1Key c k) = none))
    ∧ (∀ i (r : BankRes), s.mem.bankRes[i]? = some r →
      (s.timeNs.toNat < r.since.toNat + 4000 → exec (.bankReservationTimeout i) s = .next s)
      ∧ (r.since.toNat + 4000 ≤ s.timeNs.toNat → exec (.bankReservationTimeout i) s
          = .next { (s.modTeam r.team fun t => { t with copies := t.copies.map fun c => if c.num = r.copy then { c with stream := false } else c }) with
              mem := { s.mem with bankRes := s.mem.bankRes.eraseIdx i } }))
    ∧ (∀ slot,
      let g := SMap.get ({} : Spring) s.mem.spring slot
      let total := g.rows * g.cols * (pageBytes g.size / 65536)
      let init := 16 ^ g.prio
      let first := ∀ p ∈ s.mem.spring, p.2.live = true → p.2.next < p.2.rows * p.2.cols * (pageBytes p.2.size / 65536) → p.1 ≠ slot →
        ¬(g.prio < p.2.prio ∨ p.2.prio = g.prio ∧ p.2.order < g.order)
      let looked := fun (m : Mem) (skip : Nat) => { m with spring := m.spring.insert slot { g with next := g.next + 1, skipped := g.skipped + skip } }
      (¬(g.live = true ∧ g.next < total ∧ first) → exec (.springbokFill slot) s = .next s)
      ∧ (g.live = true → g.next < total → first → ∀ v,
        (s.springAt g g.next = (none, v) → exec (.springbokFill slot) s = .next { v with mem := looked v.mem 0 })
        ∧ (∀ (lf : Leaf) a k le, s.springAt g g.next = (some (lf, a), v) → lf.space = 0 → lf.nc = false → v.mem.leaseAt a = some (k, le) → le.st = .active → v.timeNs.toNat < le.expiry.toNat →
          (∀ h, v.mem.hit (a / 65536) = some h → (v.mem.frame h).relaying = none → ∃ u : State, exec (.springbokFill slot) s = .next u
            ∧ u = { v with mem := looked { v.mem with frames := u.mem.frames } 0 } ∧ (∀ j, j ≠ h → u.mem.frame j = v.mem.frame j)
            ∧ u.mem.frame h = { v.mem.frame h with counter := if (v.mem.frame h).counter.toNat < init then BitVec.ofNat 16 init else (v.mem.frame h).counter })
          ∧ (v.mem.hit (a / 65536) = none → v.stackReady (a / 65536 % numSets % 8) = false → exec (.springbokFill slot) s = .next v)
          ∧ (v.mem.hit (a / 65536) = none → v.stackReady (a / 65536 % numSets % 8) = true →
            (∀ h, v.mem.victim (a / 65536 % numSets) = some h → (v.mem.frame h).isInvalid = true ∨ (v.mem.frame h).counter.toNat < init →
              ∃ u : State, exec (.springbokFill slot) s = .next u ∧ u.mem.frame h = { pfn := a / 65536, filling := true, layout := lf.layout, counter := BitVec.ofNat 16 init })
            ∧ (v.mem.victim (a / 65536 % numSets) = none ∨ (∃ h, v.mem.victim (a / 65536 % numSets) = some h ∧ (v.mem.frame h).isInvalid = false
                ∧ init ≤ (v.mem.frame h).counter.toNat) → exec (.springbokFill slot) s = .next { v with mem := looked v.mem 1 })))))

/-! ## Copy events (chapter 7) -/

/-- A copy that has started: its team, which has not stopped, has a slice of each of its groups, and slice j of entry i is to move a unit. -/
def Moving (s : State) (team copy grp i j : Nat) (c : Copy) (x : Slice) : Prop :=
  (s.team team).sliceAt copy grp = some (i, j, c, x) ∧ c.opened = true ∧ s.counted team copy c = true ∧ x.ended = false ∧ x.parked = none ∧ x.pend = none
    ∧ (s.team team).stopped = false

/-- R107, R137, R141, R142, R151: a slice moves its next 16-byte unit, from scratchpad or global memory to scratchpad or global memory, and ends after
its last; PITCH moves on a row on the side bit 20 names. Under FE the last unit a copy writes sets its granule full. A unit outside the scratchpad
ends the slice with code 1; a global failure that the pager cannot mend ends it with its code. A team that has stopped moves nothing. -/
def CopyUnits : Prop :=
  ∀ (s : State) (team copy grp i j : Nat) (c : Copy) (x : Slice), Moving s team copy grp i j c x → c.stream = false → NoEventWait s →
    (s.team team).copies[i]? = some c → c.slices[j]? = some x → (∀ y ∈ (s.team team).copies, y.due = []) →
    let w := fun n => x.blk.getD n 0
    let bit := fun n => (w 3).getLsbD n
    let rows := (w 2).toNat % 2 ^ 16
    let ru := (w 2).toNat / 2 ^ 16 % 2 ^ 24
    let pitch := ((w 2).extractLsb' 40 24).toInt * 16
    let u := x.unit
    let delta : ℤ → Bool → ℤ := fun base on => base + if on then (u / ru : ℕ) * pitch + (u % ru * 16 : ℕ) else (u * 16 : ℕ)
    let scr := fun (b : W64) (on : Bool) => delta (b.toNat % 2 ^ 20 : ℕ) on
    let spot := fun (b : W64) (on : Bool) (t off : ℕ) => 0 ≤ scr b on ∧ scr b on < 2 ^ 20 ∧ s.scratchAt team (b.toNat / 2 ^ 20 * 2 ^ 20 + (scr b on).toNat) = some (t, off)
    let glob := fun (b : W64) (on : Bool) => b + BitVec.ofInt 64 (delta 0 on)
    let acc := { s.accOf grp with core := (s.team team).core, ctx := (s.team team).ctx, copy := some (team, copy) }
    let ev := Instr.copyUnitMove team copy grp
    let done : Slice → Slice := fun y => { y with unit := u + 1, pend := none, ended := decide (rows * ru ≤ u + 1) }
    -- the bytes that are read, and the machine after the read
    let reads := fun (v : State) (bytes : List Byte) =>
      (bit 18 = true → ∃ t off, spot (w 0) (!bit 20) t off ∧ v = s ∧ bytes = rdBytes (s.team t).scratch off 16)
      ∧ (bit 18 = false → (w 3).toNat / 2 ^ 16 % 4 = 0 ∧ s.engLine acc (.copy team copy grp) (glob (w 0) (!bit 20)) 16 0 = (.ok bytes, v))
    let last := u + 1 = rows * ru ∧ (∀ (b : Nat) (y : Slice), c.slices[b]? = some y → b ≠ j → y.ended = true)
      ∧ ∀ (a : Nat) (y : Copy), (s.team team).copies[a]? = some y → a ≠ i → y.num ≠ copy
    rows * ru ≠ 0 →
    (∀ v bytes t off, reads v bytes → v.teams = s.teams → v.groups = s.groups → v.timeNs = s.timeNs → bit 19 = true → spot (w 1) (bit 20) t off → (s.team t).touches off 16 = false →
      bit 13 = false ∨ off % 16 = 0 ∧ last →
      ∃ z : State, exec ev s = .next z ∧ z = { v with teams := z.teams }
        ∧ (∀ n, n ≠ t → n ≠ team → z.teams.find n = s.teams.find n)
        ∧ (∀ n, z.team n = { s.team n with scratch := (z.team n).scratch, full := (z.team n).full, copies := (z.team n).copies })
        ∧ (∀ n, n ≠ t → (z.team n).scratch = (s.team n).scratch ∧ (z.team n).full = (s.team n).full)
        ∧ (∀ n, n ≠ team → (z.team n).copies = (s.team n).copies)
        ∧ (∀ q, (z.team t).isFull q = if bit 13 = true ∧ q = off / 16 then true else (s.team t).isFull q)
        ∧ (∀ a, SMap.get 0 (z.team t).scratch a = if off ≤ a ∧ a < off + 16 then bytes.getD (a - off) 0 else SMap.get 0 (s.team t).scratch a)
        ∧ (z.team team).copies = ((s.team team).modSlice i j done).copies)
    ∧ (∀ v bytes e y, reads v bytes → v.teams = s.teams → bit 19 = false → (w 3).toNat / 2 ^ 16 % 4 = 0 → v.homeStore acc (.copy team copy grp) (glob (w 1) (bit 20)) bytes = (.val e, y) →
      y.teams = s.teams → exec ev s = .next (y.modTeam team fun t => t.modSlice i j done))
    ∧ (bit 18 = true → ((scr (w 0) (!bit 20) < 0 ∨ 2 ^ 20 ≤ scr (w 0) (!bit 20)) ∨ s.scratchAt team ((w 0).toNat / 2 ^ 20 * 2 ^ 20 + (scr (w 0) (!bit 20)).toNat) = none) →
      (w 0).toNat < 2 ^ 32 → exec ev s = .next (s.modTeam team fun t => t.modSlice i j fun y => { y with ended := true, code := 1, pend := none }))
    ∧ (∀ cause v h, bit 18 = false → s.engLine acc (.copy team copy grp) (glob (w 0) (!bit 20)) 16 ((w 3).toNat / 2 ^ 16 % 4) = (.fault cause, v) → v.teams = s.teams → v.groups = s.groups →
      (s.team team).ring? c.ring = some h → ((s.team team).parks h = false ∨ ¬(cause = 0x06 ∨ cause = 0x08 ∨ cause = 0x09 ∨ cause = 0x16)) →
      exec ev s = .next (v.modTeam team fun t => t.modSlice i j fun y => { y with ended := true, code := copyCode cause, pend := none }))
    ∧ ∀ z : State, (z.team team).stopped = true → exec ev z = .next z

/-- R144, R135, R95, R151: a copy of a team that has not stopped and whose slices have all ended completes: the status is the code of the failed slice of the lowest group index, else
REJECTED, else DROPPED, else 0; the slot is in STATE 2 and WPTR passes the slots in STATE 2; the entry is free; under CLOSE the team's bank reservations end. -/
def CopyCompletion : Prop :=
  ∀ (s : State) (team copy h : Nat) (c : Copy), (s.team team).copy? copy = some c → (s.team team).ring? c.ring = some h → NoEventWait s →
    (∀ p ∈ s.groups, ∀ w a d, p.2.swait = some w → w.instr ≠ .cpyc a d) →
    let t := s.team team
    let idx := fun (x : Slice) => (s.group x.grp).idx
    (c.opened = false ∨ s.counted team copy c = false ∨ (∃ x ∈ c.slices, x.ended = false) ∨ t.stopped = true → exec (.copyComplete team copy) s = .next s)
    ∧ (t.stopped = false → c.opened = true → s.counted team copy c = true → (∀ x ∈ c.slices, x.ended = true) → c.slot < t.slots h → c.close = false →
      (∀ x ∈ c.slices, x.code < 256) →
      ∃ (u : State) (st n : Nat), exec (.copyComplete team copy) s = .next u ∧ u = { s with teams := u.teams } ∧ OnlyTeam team s u
        ∧ u.team team = { t with scratch := (u.team team).scratch, copies := t.copies.filter fun x => decide (x.num ≠ copy) }
        ∧ ScratchKept t (u.team team) h (ringLen (t.slots h))
        ∧ (u.team team).slotState h c.slot = 2 ∧ (u.team team).slotStatus h c.slot = st
        ∧ (∀ k, k < t.slots h → k ≠ c.slot → (u.team team).slotState h k = t.slotState h k)
        ∧ (u.team team).wptr h = (t.wptr h + n) % 2 ^ 32 ∧ (u.team team).rptr h = t.rptr h
        ∧ (∀ k, k < n → (u.team team).slotState h ((t.wptr h + k) % 2 ^ 32 % t.slots h) = 2)
        ∧ ((u.team team).ringUsed h < t.slots h → n < 256 → (u.team team).slotState h ((u.team team).wptr h % t.slots h) ≠ 2)
        ∧ (∀ x ∈ c.slices, x.code ≠ 0 → (∀ y ∈ c.slices, y.code ≠ 0 → idx x < idx y ∨ x = y) → st = x.code)
        ∧ ((∀ x ∈ c.slices, x.code = 0) → st = if c.slices.any (·.rejected) then 5 else if c.slices.any (·.dropped) then 4 else 0))
    ∧ (t.stopped = false → c.opened = true → s.counted team copy c = true → (∀ x ∈ c.slices, x.ended = true) → c.close = true →
      ∃ u : State, exec (.copyComplete team copy) s = .next u ∧ ∀ r, r ∈ u.mem.bankRes ↔ r ∈ s.mem.bankRes ∧ r.team ≠ team)

/-- What `CopyUnits`, `CopyCompletion` state, together.
Where the manual leaves a point open, the clause is the model's choice: log entries 37, 42. -/
def Obligations.CopyEvents : Prop := CopyUnits ∧ CopyCompletion

/-! ## The pager and pre-emption (chapters 3 and 20) -/

/-- R61, R406, R407: the ROM handler posts a record with the fields of Table 3-4 and parks; PGRESP resumes or ends what it names: a
parked split and a parked scalar stream go on, the oldest parked slice of the group goes on or ends with the code of its cause, and
a fatal answer kills the context with the record's cause. -/
def PagerEvents : Prop :=
  ∀ (s : State), SplitsKept s →
    let posts := fun (c : Nat) => c ∈ [0x02, 0x06, 0x07, 0x08, 0x09, 0x0A, 0x0B, 0x0F, 0x11, 0x12, 0x13, 0x16]
    -- the ROM's records
    (∀ g (ts : TSlot) (lv : Split) rest, (s.group g).tslot = some ts → ts.levels = lv :: rest → lv.inRom = true →
      let b := ((s.group g).thread ts.thr).bank
      let c := b.cause.toNat % 64
      (posts c → exec (.pagerRecordPost g 4) s = .next ((s.postFault g 0 c b.val (b.cause.toNat / 256 % 32)).laneReturn g .park))
      ∧ (¬posts c → exec (.pagerRecordPost g 4) s = .next s))
    ∧ (∀ g, (s.group g).srom = true →
      let b := if (s.group g).stlevel = 1 then (s.group g).st1 else (s.group g).st2
      let c := b.cause.toNat % 64
      posts c → exec (.pagerRecordPost g 5) s = .next ((s.postFault g 1 c b.val 0).scalarReturn g .park))
    ∧ (∀ g (r : List W64) rest, s.pager.waiting = r :: rest →
      (∀ e w, ({ s with pager := { s.pager with waiting := rest } } : State).engWrite sysAcc .engine
          (s.pager.base + BitVec.ofNat 64 (32 * (s.pager.put.toNat % 4096))) (wordBytes r) = (e, w) → s.pager.used < 4096 →
        w.pager = { s.pager with waiting := rest }
        ∧ (e ≠ .wait → exec (.pagerRecordPost g 0) s = .next (({ w with pager := { w.pager with put := w.pager.put + 1 } } : State).shaltEvent 1))
        ∧ (e = .wait → exec (.pagerRecordPost g 0) s = .next { w with pager := { w.pager with waiting := r :: w.pager.waiting } }))
      ∧ (4096 ≤ s.pager.used → exec (.pagerRecordPost g 0) s = .next s))
    ∧ (∀ g src cause thr va, src < 256 → cause < 64 → thr < 32 → (s.group g).place < 256 → s.coreOf g < 2 ^ 16 →
      ∃ w0 w3 : W64, let pool := s.poolOf g va
        s.postFault g src cause va thr = s.postRecord [w0, va, BitVec.ofNat 64 (pool.getD 0), w3]
        ∧ wbits w0 32 32 = ((pool.map s.mem.leaseIdAt).getD 0).toNat ∧ wbits w0 16 16 = src ∧ wbits w0 0 16 = cause
        ∧ wbits w3 32 32 = s.ctxOf g % 2 ^ 32 ∧ wbits w3 16 16 = s.coreOf g ∧ wbits w3 8 8 = (s.group g).place ∧ wbits w3 0 8 = thr)
    -- the pager's answers
    ∧ (∀ w g, s.pgrespGroup w = some g →
      let x := s.group g
      let t := s.team x.team
      let src := wbits w 5 2
      s.groups.find g = some x ∧ (x.ended = false ∨ src = 2) ∧ x.slot.isSome = true ∧ t.saved = false ∧ t.ctx = wbits w 32 32 ∧ t.core = wbits w 20 12 ∧ x.place = wbits w 12 8
      ∧ (∀ n (y : Split) c, src = 0 → n ≤ 4 → x.split? n = some y → y.mode = .parked c → y.rix = wbits w 7 5 →
        (∀ m (z : Split) e, m ≤ 4 → x.split? m = some z → z.mode = .parked e → z.rix = wbits w 7 5 → m = n) →
        (∃ u : State, exec (.pgrespResume w) s = .next u ∧ OnlyGroup g s u ∧ u.group g = x.setSplit n { y with mode := .ready, age := s.cycle })
        ∧ exec (.pgrespFatal w) s = .next (s.killContext (wbits w 32 32) c))
      ∧ (src = 0 → (∀ m (z : Split) e, m ≤ 4 → x.split? m = some z → z.mode = .parked e → z.rix ≠ wbits w 7 5) →
        exec (.pgrespResume w) s = .next s ∧ exec (.pgrespFatal w) s = .next s)
      ∧ (∀ c, src = 1 → x.sparked = some c →
        (∃ u : State, exec (.pgrespResume w) s = .next u ∧ OnlyGroup g s u ∧ u.group g = { x with sparked := none })
        ∧ exec (.pgrespFatal w) s = .next (s.killContext (wbits w 32 32) c))
      ∧ (src ≠ 2 → exec (.pgrespFail w) s = .next s)
      ∧ (∀ i j (cp : Copy) (sl : Slice) c, src = 2 → (∀ y ∈ t.copies, y.due = []) → NoEventWait s → t.copies[i]? = some cp → cp.slices[j]? = some sl → sl.grp = g → sl.parked = some c →
        (∀ (a b : Nat) (ca : Copy) (sb : Slice), t.copies[a]? = some ca → ca.slices[b]? = some sb → sb.grp = g → sb.parked ≠ none →
          i < a ∨ i = a ∧ j ≤ b) →
        let freed := fun (u : State) (f : Slice → Slice) => OnlyTeam x.team s u ∧ (u.team x.team).copies = (t.modSlice i j f).copies
          ∧ ∀ h, t.ring? cp.ring = some h →
            ((∀ (b : Nat) (sb : Slice), cp.slices[b]? = some sb → b ≠ j → sb.parked = none) →
              (u.team x.team).rd (h + 32 + 4 * cp.slot + 1) 1 = 1 ∧ ScratchKept t (u.team x.team) (h + 32 + 4 * cp.slot + 1) 1)
            ∧ ((∃ (b : Nat) (sb : Slice), cp.slices[b]? = some sb ∧ b ≠ j ∧ sb.parked ≠ none) → (u.team x.team).scratch = t.scratch)
        (∃ u : State, exec (.pgrespResume w) s = .next (u.teamEvent x.team) ∧ freed u fun y => { y with parked := none })
        ∧ (∃ u : State, exec (.pgrespFail w) s = .next (u.teamEvent x.team) ∧ freed u fun y => { y with parked := none, ended := true, code := copyCode c })
        ∧ exec (.pgrespFatal w) s = .next (s.killContext (wbits w 32 32) c)))
    ∧ (∀ w, s.pgrespGroup w = none → exec (.pgrespResume w) s = .next s ∧ exec (.pgrespFail w) s = .next s ∧ exec (.pgrespFatal w) s = .next s)

/-- R414, R415, R343, R310, R327: a team that is to stop has its jobs suspended at once, and their blocks are to say so. It has stopped once nothing of
it runs, no engine operation of it is under way and no scalar instruction that has to complete waits; a waiting scalar stream is taken back to its
instruction but for a BAR that has arrived, refused packets keep the time they have left, and SHALT sees it. A gang goes on when every team of it that was saved is loaded whole. -/
def Preemption : Prop :=
  ∀ (s : State) (h : W64) (t : Nat), s.teamOf h = some t → SMap.sorted s.jobs = true →
    let tm := s.team t
    let still := ∀ p ∈ s.lanePairs, ∀ r : Nat × Nat, p.2.lane0 = some r ∨ p.2.lane1 = some r → (s.group r.1).team ≠ t
    let idle := (∀ p ∈ s.groups, p.2.team = t → ∀ w, p.2.swait = some w → w.finishes = false)
      ∧ (∀ c ∈ tm.copies, c.opened = false ∨ s.counted t c.num c = false
          ∨ (∃ x ∈ c.slices, x.parked ≠ none) ∧ ∀ x ∈ c.slices, x.ended = true ∨ x.parked ≠ none)
      ∧ (∀ q ∈ (s.core tm.core).mxq, q.team ≠ t)
      ∧ (∀ p ∈ s.fabric.xfers, p.2.team = t → (∀ k ∈ p.2.pkts, k.st.flying = false) ∧ s.sideOut (.xfer p.1) = false)
      ∧ (∀ p ∈ s.jobs, p.2.team = t → (∀ c ∈ p.2.chunks, ∀ k ∈ c.pkts, k.st.flying = false) ∧ p.2.pend = [] ∧ s.sideOut (.eland p.1) = false)
    let back := fun (o : Option SWait) => o.filter fun w => w.arrived && (match w.instr with
      | .bar _ _ => true
      | _ => false)
    (let u := s.haltTeam t
     u = { s with teams := u.teams, jobs := u.jobs } ∧ u.team t = { tm with stopping := true } ∧ (∀ w, w ≠ t → u.teams.find w = s.teams.find w)
      ∧ ∀ n, u.jobs.find n = (s.jobs.find n).map fun j => if j.team = t ∧ j.st = 1 ∧ j.closed = false then ({ j with st := 4 } : Job).note else j)
    ∧ (tm.stopping = false ∨ tm.stopped = true ∨ ¬still ∨ ¬idle → exec (.preempt h) s = .next s)
    ∧ (tm.stopping = true → tm.stopped = false → still → idle →
      let now := s.timeNs
      let kept := fun (o : PktState) => match o with
        | .retry first due n => .retry (now - first) (if now.toNat < due.toNat then due - now else 0) n
        | o => o
      let pkts := fun (ks : List Pkt) => ks.map fun k => { k with st := kept k.st }
      (∃ u : State, exec (.preempt h) s = .next (u.shaltEvent 4)
        ∧ u = { s with teams := u.teams, groups := u.groups, cores := u.cores, jobs := u.jobs, fabric := { s.fabric with xfers := u.fabric.xfers } }
        ∧ (∀ n, u.fabric.xfers.find n = (s.fabric.xfers.find n).map fun q => if q.team = t then { q with pkts := pkts q.pkts } else q)
        ∧ (∀ n, u.jobs.find n = (s.jobs.find n).map fun j =>
            if j.team = t then { j with chunks := j.chunks.map fun c => { c with pkts := pkts c.pkts } } else j)
        ∧ (∀ w, w ≠ t → u.teams.find w = s.teams.find w) ∧ (∀ c, c ≠ tm.core → u.cores.find c = s.cores.find c)
        ∧ (∀ g, u.groups.find g = (s.groups.find g).map fun x => if x.team = t then { x with swait := back x.swait } else x)
        ∧ ((∀ a, (s.core tm.core).alatch = some a → (s.group a.gid).team ≠ t) → u.team t = { tm with stopped := true } ∧ u.cores = s.cores)
        ∧ ∀ a, (s.core tm.core).alatch = some a → (s.group a.gid).team = t →
          u.team t = { tm with stopped := true, rows := some (a.gid, a.rows) } ∧ u.core tm.core = { s.core tm.core with alatch := none }))
    ∧ (let gang := fun (x : Team) => x.launch = tm.launch ∧ x.gang = tm.gang ∧ (x.saved = true ∨ x.again = true)
      let whole := ∀ p ∈ s.teams, gang p.2 → p.2.again = true ∧ p.2.loaded = true
        ∧ ∀ q ∈ s.groups, q.2.team = p.1 → q.2.ended = false → (s.group q.1).loaded = true
      let mine := fun (i : Nat) => ∃ p ∈ s.teams, p.1 = i ∧ gang p.2
      (¬whole → s.resumeGang t = s)
      ∧ (whole → SMap.sorted s.teams = true → (∀ p ∈ s.fabric.xfers, ¬mine p.2.team) → (∀ p ∈ s.jobs, ¬mine p.2.team) →
        ∃ u : State, s.resumeGang t = u ∧ u = { s with teams := u.teams, groups := u.groups }
          ∧ (∀ i x, s.teams.find i = some x → (mine i → u.team i = { x with stopping := false, stopped := false, again := false, loaded := false })
            ∧ (¬mine i → u.team i = x))
          ∧ ∀ g x, s.groups.find g = some x → (mine x.team → u.group g = { x with loaded := false }) ∧ (¬mine x.team → u.group g = x)))

/-- What `PagerEvents`, `Preemption` state, together.
Where the manual leaves a point open, the clause is the model's choice: log entries 11, 21, 60, 61, 72. -/
def Obligations.PagerAndPreemption : Prop := PagerEvents ∧ Preemption

/-! ## Queues and commands (chapter 18) -/

/-- Command c with a status has left the machine: what a WAIT held is free, and Chamois answers a PRIVCMD; SHALT sees a queue that
becomes ready. What the host has denied it is over. -/
def CmdGone (s : State) (c : Cmd) (code : Nat) (t : State) : Prop :=
  ∃ u : State, u = { s with cmds := s.cmds.filter (fun x => decide (x.num ≠ c.num)), queues := u.queues, boot := u.boot, host := u.host }
    ∧ u.host = { s.host with denials := s.host.denials.filter fun d => decide (d.waiter ≠ .cmd c.num) }
    ∧ (∀ q, u.queues.find q = (s.queues.find q).map fun x => { x with wait := if x.wait = some c.num then none else x.wait })
    ∧ (c.queue ≠ none → u.boot = s.boot) ∧ (c.queue = none → ∃ sig, u.boot = { s.boot with responses := s.boot.responses ++ [(6, code, sig)] })
    ∧ ((∀ p ∈ u.queues, u.queueReady p.1 = true → s.queueReady p.1 = true) → t = u)
    ∧ ((∃ p ∈ u.queues, u.queueReady p.1 = true ∧ s.queueReady p.1 = false) → t = u.shaltEvent 0)

/-- Command c with a status makes its signal, v, and leaves (R353): nothing for SIGADDR 0; one that is not aligned, fails translation or
may not be written is counted; a word in device or pool memory takes the unsigned maximum, and one of the host or a peer is sent it. A signal
that cannot be made yet leaves the command where it is. -/
def CmdSignals (z : State) (c : Cmd) (code : Nat) (v : W64) (t : State) : Prop :=
  let va := c.w 1
  let counted := fun (y : State) => y.modContext c.ctx fun x => { x with sigfault := x.sigfault + 1 }
  let acc : Acc := { core := 256, ctx := c.ctx, mode := if c.priv then .priv else .user, gid := 2 ^ 40 }
  (va = 0 → CmdGone z c code t)
  ∧ (va.toNat % 8 ≠ 0 → CmdGone (counted z) c code t)
  ∧ (va ≠ 0 → va.toNat % 8 = 0 →
    (∀ f y, z.xlate acc va .write = (.fault f, y) → CmdGone (counted y) c code t)
    ∧ (∀ y e u, z.xlate acc va .write = (.ats, y) → y.askXlat (.cmd c.num) acc va true = (e, u) →
      (∀ f, e = .fault f → CmdGone (counted u) c code t) ∧ ((∀ f, e ≠ .fault f) → t = u))
    ∧ (∀ (l : Leaf) a y, z.xlate acc va .write = (.ok l a, y) →
      (l.sro = true → CmdGone (counted y) c code t)
      ∧ (l.sro = false →
        let k := lineKey l.space l.peer a
        let r : Req := { kind := .atom 2 .n64, waiter := .cmd c.num, ctx := c.ctx, peer := l.peer, va := va, addr := a, bytes := 8, data := v,
                         body := leBytes 8 v.toNat }
        let bare := ({ y with mem := { y.mem with l2 := y.mem.l2.erase k } } : State).overtake k
        (l.space = 1 → CmdGone (bare.askHost r).2 c code t)
        ∧ (l.space = 2 → (y.reach l.peer = true → CmdGone (bare.askPeer r).2 c code t) ∧ (y.reach l.peer = false → CmdGone (counted y) c code t))
        ∧ (l.space = 0 ∨ l.space = 3 → ∀ e w, y.atomic acc (.store c.ctx) va (.op .max .n64 v.toNat) false false = (e, w) →
          (∀ old, e = .val old → CmdGone w c code t) ∧ (∀ f, e = .fault f → CmdGone (counted w) c code t)
          ∧ ((∀ old, e ≠ .val old) → (∀ f, e ≠ .fault f) → t = w)))))

/-- R349, R351, R352, R353, R360, R426, R432: a store to a kick slot, the choice of the next command, its reading and what it meets at
decode, and how a command completes.
Where the manual leaves a point open, the clause is the model's choice: log entries 52, 53, 55. -/
def Obligations.QueueProcessing : Prop :=
  ∀ (s : State), SMap.sorted s.queues = true → (∀ p ∈ s.queues, p.1 < 131072 ∧ p.2.prio ≤ 7) →
    -- a kick (R349 to R351)
    (∀ q off bytes,
      let x := s.queue q
      let w := BitVec.ofNat 32 (ofLeBytes (bytes.take 4))
      let u := s.setQueue q { x with wptr := w }
      let ignored := s.boot.ready.getLsbD 16 = false ∨ 131071 < q ∨ off ≠ 0 ∨ bytes.length < 4 ∨ x.v = false ∨ s.boot.taken = true ∧ x.priv = true
      (ignored → exec (.kick q off bytes) s = .next s)
      ∧ (¬ignored → x.devq = true ∨ 2 ^ x.log2n < (w - x.rptr).toNat →
        exec (.kick q off bytes) s = .next (s.setQueue q { x with overrun := x.overrun + 1 }))
      ∧ (¬ignored → x.devq = false → (w - x.rptr).toNat ≤ 2 ^ x.log2n →
        ((∀ p ∈ u.queues, u.queueReady p.1 = true → s.queueReady p.1 = true) → exec (.kick q off bytes) s = .next u)
        ∧ ((∃ p ∈ u.queues, u.queueReady p.1 = true ∧ s.queueReady p.1 = false) → exec (.kick q off bytes) s = .next (u.shaltEvent 0))))
    -- the choice (R360)
    ∧ (∀ q, s.queueReady q = true → (s.queue q).v = true ∧ (s.queue q).rptr ≠ (s.queue q).wptr ∧ (s.queue q).wait = none
      ∧ ∀ b y, (∃ c ∈ s.cmds, c.queue = some q) → s.engRead (s.queue q).acc .engine ((s.queue q).slotVa (s.queue q).rptr) 8 = (.ok b, y) →
          (wordAt b 0).getLsbD 8 = false)
    ∧ (∀ q lvl left, s.chooseQueue = some (q, lvl, left) →
      let last := s.cp.last.find lvl
      let rank := fun (x : Nat) => match last with
        | some l => (x + 131072 - (l + 1)) % 131072
        | none => x
      s.queueReady q = true ∧ (s.queue q).prio = lvl ∧ (∀ p, s.queueReady p = true → (s.queue p).prio ≤ lvl)
      ∧ (∀ l, last = some l → s.queueReady l = true → (s.queue l).prio = lvl → 0 < SMap.get 0 s.cp.left lvl → q = l ∧ left = SMap.get 0 s.cp.left lvl - 1)
      ∧ ((∀ l, last = some l → l < 131072) →
        ¬(∃ l, last = some l ∧ s.queueReady l = true ∧ (s.queue l).prio = lvl ∧ 0 < SMap.get 0 s.cp.left lvl) →
        left = (s.queue q).weight - 1 ∧ ∀ p, s.queueReady p = true → (s.queue p).prio = lvl → rank q ≤ rank p))
    ∧ (s.chooseQueue = none → ∀ q, s.queueReady q = false)
    ∧ (∃ left, s.endTurns = { s with cp := { s.cp with left := left } }
      ∧ ∀ lvl, SMap.get 0 left lvl = match s.cp.last.find lvl with
        | some q => if s.queueReady q then SMap.get 0 s.cp.left lvl else 0
        | none => SMap.get 0 s.cp.left lvl)
    -- the start of a command (R349, R352)
    ∧ (let z := s.endTurns
      (s.boot.ready.getLsbD 16 = false ∨ z.chooseQueue = none → exec .commandStart s = .next z)
      ∧ (∀ q lvl left, s.boot.ready.getLsbD 16 = true → z.chooseQueue = some (q, lvl, left) →
        let x := s.queue q
        let turn := fun (y : State) => { y with cp := { y.cp with last := y.cp.last.insert lvl q, left := y.cp.left.insert lvl left } }
        ∀ e y, z.engRead x.acc .engine (x.base + BitVec.ofNat 64 (64 * (x.rptr.toNat % 2 ^ x.log2n))) 64 = (e, y) →
          (e = .wait → exec .commandStart s = .next y)
          ∧ (∀ f, e = .fault f → exec .commandStart s = .next ((turn y).consume q))
          ∧ ∀ b, e = .ok b → ((wordAt b 0).getLsbD 8 = true ∧ (∃ c ∈ z.cmds, c.queue = some q) → exec .commandStart s = .next z)
          ∧ (¬((wordAt b 0).getLsbD 8 = true ∧ ∃ c ∈ z.cmds, c.queue = some q) →
            let c : Cmd := { num := s.nextCmd, queue := some q, ctx := x.ctx, priv := x.priv, words := (List.range 8).map (wordAt b) }
            exec .commandStart s = .next (((turn y).consume q).enterCmd c))))
    ∧ (∀ q, let x := s.queue q
      let d : RptrWrite := { ctx := x.ctx, priv := x.priv, addr := x.rpaddr, val := x.rptr + 1 }
      let later := fun (u : State) => { u with cp := { u.cp with due := u.cp.due ++ [d] } }
      let y := (s.setQueue q { x with rptr := x.rptr + 1 }).releaseAt 256 .sys
      s.cp.due = [] →
      (y.releaseDone x.ctx .sys = false → s.consume q = later y)
      ∧ (y.releaseDone x.ctx .sys = true → ∀ e u, (y.releaseEnd x.ctx .sys).engWrite x.acc (.store x.ctx) x.rpaddr (leBytes 8 (x.rptr + 1).toNat) = (e, u) →
        (e ≠ .wait → s.consume q = u) ∧ (e = .wait → s.consume q = later u)))
    -- what a kick slot reads (R349, R350)
    ∧ (∀ q off, (off < 4 → (s.kickRead q off).toNat = (s.queue q).wptr.toNat / 256 ^ off % 256) ∧ (4 ≤ off → s.kickRead q off = 0)
      ∧ ∀ i, i < 64 → s.bar2Read (64 * q + i) = s.kickRead q i)
    ∧ (∀ (c : Cmd),
      let u : State := { s with cmds := s.cmds ++ [c], nextCmd := s.nextCmd + 1 }
      let opc := wbits (c.w 0) 0 8
      let bad := wbits (c.w 0) 9 55 ≠ 0 ∨ opc ∉ [0x00, 0x01, 0x02, 0x03, 0x04, 0x10, 0x11, 0x12, 0x13, 0x14] ∨ 2 ^ 63 ≤ (c.w 2).toNat
        ∨ opc = 0x01 ∧ wbits (c.w 6) 49 15 ≠ 0 ∨ opc = 0x04 ∧ (c.w 3).toNat % 8 ≠ 0 ∨ opc = 0x12 ∧ wbits (c.w 3) 0 2 = 3
        ∨ opc = 0x13 ∧ ((c.w 4).toNat = 0 ∨ 255 < (c.w 4).toNat) ∨ opc = 0x14 ∧ wbits (c.w 3) 0 3 = 7
      let kind := wbits (c.w 3) 0 3
      let q4 := (c.w 4).toNat
      let none_ := (opc = 0x10 ∨ opc = 0x11) ∧ s.existing (c.w 3) = false
        ∨ opc = 0x14 ∧ ((kind = 1 ∨ kind = 2) ∧ s.existing (c.w 4) = false ∨ (kind = 3 ∨ kind = 6) ∧ 131071 < q4
          ∨ kind = 4 ∧ (131071 < q4 ∨ (s.queue q4).v = false) ∨ kind = 5 ∧ s.named q4 = false)
      let dead := (s.context c.ctx).killed = true
      (dead → s.enterCmd c = u.finishCmd c.num 0x01)
      ∧ (¬dead → bad ∨ 0x10 ≤ opc ∧ c.priv = false ∧ none_ → s.enterCmd c = u.finishCmd c.num 0x02)
      ∧ (¬dead → ¬bad → ¬none_ → 0x10 ≤ opc → c.priv = false → s.enterCmd c = u.finishCmd c.num 0x06)
      ∧ (¬dead → ¬bad → opc < 0x10 ∨ c.priv = true → ∀ q, c.queue = some q →
        (opc ≠ 0x04 → s.enterCmd c = u) ∧ (opc = 0x04 → s.enterCmd c = u.setQueue q { s.queue q with wait := some c.num })))
    -- completion (R353)
    ∧ (∀ n c code, s.cmd? n = some c →
      let z := s.modCmd n fun c => { c with fin := some code }
      let y := z.releaseAt 256 .sys
      let c' := { c with fin := some code }
      (code ≠ 0 → CmdSignals z c' code (BitVec.ofNat 64 (2 ^ 63 + code)) (s.finishCmd n code))
      ∧ (code = 0 → s.cmdDenied n = true → CmdSignals z c' 0x05 (BitVec.ofNat 64 (2 ^ 63 + 0x05)) (s.finishCmd n 0))
      ∧ (code = 0 → s.cmdDenied n = false → y.releaseDone c.ctx .sys = false → s.finishCmd n code = y)
      ∧ (code = 0 → s.cmdDenied n = false → y.releaseDone c.ctx .sys = true → CmdSignals (y.releaseEnd c.ctx .sys) c' 0 (c.w 2) (s.finishCmd n 0)))

/-- R126, R352, R353, R355, R357 to R359, R365, R366, R373: what each command does once it has started. One whose context has been torn down
or killed completes with CONTEXT_DEAD; an address that fails completes it with TRANSLATION.
Where the manual leaves a point open, the clause is the model's choice: log entries 48, 49, 54, 57, 93. -/
def Obligations.QueueCommands : Prop :=
  ∀ (s : State) (n : Nat) (c : Cmd), s.cmd? n = some c → c.fin = none →
    let w := c.w
    let opc := wbits (w 0) 0 8
    let acc : Acc := { core := 256, ctx := c.ctx, mode := if c.priv then .priv else .user, gid := 2 ^ 40 }
    let reads := fun (z : State) (va : W64) (k : Nat) => z.engRead acc (.cmd n) va k
    let writes := fun (z : State) (va : W64) (b : List Byte) => z.engWrite acc (.cmd n) va b
    let ends := fun (e : Instr) (z : State) (code : Nat) => exec e s = .next (z.finishCmd n code)
    let fails := fun (e : Instr) (va : W64) (k : Nat) => ∀ f z, reads s va k = (.fault f, z) → ends e z 0x05
    let here := s.existing (w 3) = true
    let lease := fun (k : Nat) => opc = 0x12 ∧ wbits (w 3) 0 2 = k
    let all := [(0x00, Instr.nopCommand n), (0x02, .copy n), (0x03, .signal n), (0x04, .wait n), (0x10, .map n), (0x11, .unmap n)]
    ((s.context c.ctx).killed = true → (∀ p ∈ all, opc = p.1 → ends p.2 s 0x01) ∧ (opc = 0x01 → c.launch = none → ends (.launch n) s 0x01))
    ∧ ((s.context c.ctx).killed = false →
      (opc = 0x00 → ends (.nopCommand n) s 0) ∧ (opc = 0x03 → ends (.signal n) s 0)
      -- WAIT
      ∧ (opc = 0x04 → (∀ q, (s.queue q).wait = some n → exec (.waitRelease q) s = exec (.wait n) s) ∧ fails (.wait n) (w 3) 8
        ∧ ∀ b z, reads s (w 3) 8 = (.ok b, z) →
          let v := wordAt b 0
          (v.toNat < (w 4).toNat → exec (.wait n) s = .next z)
          ∧ ((w 4).toNat ≤ v.toNat → ends (.wait n) z (if (w 5).getLsbD 0 = true ∧ 2 ^ 63 ≤ v.toNat then 0x08 else 0)))
      -- COPY
      ∧ (opc = 0x02 → (s.cmdDenied n = true → ends (.copy n) s 0x05)
        ∧ (s.cmdDenied n = false → s.cmdOut n = true → exec (.copy n) s = .next s)
        ∧ (s.cmdDenied n = false → s.cmdOut n = false → (w 5).toNat ≤ c.pos → ends (.copy n) s 0)
        ∧ (s.cmdDenied n = false → s.cmdOut n = false → c.pos < (w 5).toNat →
          ∃ k, (k = 16 ↔ (w 3).toNat % 16 = 0 ∧ (w 4).toNat % 16 = 0 ∧ (w 5).toNat % 16 = 0)
            ∧ (let src := w 3 + BitVec.ofNat 64 c.pos
              let dst := w 4 + BitVec.ofNat 64 c.pos
              let fits := fun (j : Nat) => src.toNat % j = 0 ∧ dst.toNat % j = 0 ∧ c.pos + j ≤ (w 5).toNat
              (k ≠ 16 → k ∈ [1, 2, 4, 8] ∧ fits k ∧ ∀ j ∈ [1, 2, 4, 8], fits j → j ≤ k)
              ∧ fails (.copy n) src k
              ∧ ∀ b z, reads s src k = (.ok b, z) →
                (∀ f y, writes z dst b = (.fault f, y) → ends (.copy n) y 0x05)
                ∧ ∀ e y, writes z dst b = (.ok e, y) →
                  let v := y.modCmd n fun c => { c with pos := c.pos + k }
                  (c.pos + k < (w 5).toNat ∨ v.cmdOut n = true → exec (.copy n) s = .next v)
                  ∧ ((w 5).toNat ≤ c.pos + k → v.cmdOut n = false → ends (.copy n) v 0))))
      -- LAUNCH and its completion
      ∧ (opc = 0x01 → c.launch = none →
        let teams := wbits (w 6) 0 32
        ((w 3).toNat % 64 ≠ 0 ∨ (w 7).toNat % 16 ≠ 0 → ends (.launch n) s 0x03)
        ∧ ((w 3).toNat % 64 = 0 → (w 7).toNat % 16 = 0 →
          (teams = 0 → ends (.launch n) s 0)
          ∧ (teams ≠ 0 → fails (.launch n) (w 3) 64 ∧ ∀ b z, reads s (w 3) 64 = (.ok b, z) →
            (kernelOf b (wbits (w 6) 32 16) = none → ends (.launch n) z 0x03)
            ∧ ∀ k, kernelOf b (wbits (w 6) 32 16) = some k →
              (∀ f y, reads z (w 4) k.pbytes = (.fault f, y) → ends (.launch n) y 0x05)
              ∧ ∀ p y, reads z (w 4) k.pbytes = (.ok p, y) → ∃ u l, exec (.launch n) s = .next u
                ∧ u = { y.modCmd n (fun c => { c with launch := some y.nextLaunch }) with
                    launches := y.launches.insert y.nextLaunch l, nextLaunch := y.nextLaunch + 1 }
                ∧ l.cmd = n ∧ l.ctx = c.ctx ∧ l.kernel = k ∧ l.param = w 4 ∧ l.seed = w 5 ∧ l.teams = teams ∧ l.nthreads = wbits (w 6) 32 16
                ∧ l.restart = (w 6).getLsbD 48 ∧ l.gangtab = w 7 ∧ l.next = 0 ∧ l.gangs = [] ∧ l.fallback = false ∧ l.nofit = false ∧ l.tabBad = false ∧ l.redo = []
                ∧ ∀ a, a < p.length → SMap.get 0 l.bytes a = p.getD a 0)))
      -- MAP and UNMAP
      ∧ (opc = 0x10 ∨ opc = 0x11 → ¬here → (opc = 0x10 → ends (.map n) s 0x02) ∧ (opc = 0x11 → ends (.unmap n) s 0x02))
      ∧ (opc = 0x10 → here → fails (.map n) (w 5) (8 * (w 6).toNat) ∧ ∀ b z, reads s (w 5) (8 * (w 6).toNat) = (.ok b, z) →
        let ctx := (w 3).toNat
        let r := z.mapPages (z.context ctx).root.toNat (w 4) ((List.range (w 6).toNat).map (wordAt b))
        ends (.map n) (r.2.tlbiRange ctx (w 4).toNat ((w 4).toNat + (r.1 - w 4).toNat)) 0)
      ∧ (opc = 0x11 → here →
        let ctx := (w 3).toNat
        let lo := (w 4).toNat % 2 ^ 57
        ends (.unmap n) (({ s with mem := s.mem.clearLeaves lo (lo + (w 5).toNat) 5 (s.context ctx).root.toNat 0 } : State).tlbiRange ctx (w 4).toNat
          ((w 4).toNat + (w 5).toNat)) 0)
      -- LEASE
      ∧ (∀ b z, reads s (w 4) 64 = (.ok b, z) →
        let status := fun (r : Nat) => if r = 0 then 0 else 0x02
        let slot := fun (i : Nat) => (z.mem.lease i).st ≠ .free ∧ (z.mem.lease i).id.toNat = wbits (wordAt b 0) 32 32
        (lease 0 → ((∀ i, i < 4096 → (z.mem.lease i).st ≠ .free) → ends (.leaseGrant n) z 0x02)
          ∧ ∀ i, i < 4096 → (z.mem.lease i).st = .free → (∀ j, j < i → (z.mem.lease j).st ≠ .free) →
            ends (.leaseGrant n) (z.grantLease i b).2 (status (z.grantLease i b).1))
        ∧ (SMap.sorted z.mem.leases = true → (∀ i, ¬slot i) →
          (lease 1 → ends (.leaseRenew n) z 0x02) ∧ (lease 2 → ends (.leaseRelease n) z 0x02))
        ∧ (SMap.sorted z.mem.leases = true → ∀ i, slot i → (∀ j, slot j → j = i) →
          (lease 1 → ends (.leaseRenew n) (z.renewLease i (wordAt b 3) (wordAt b 4)).2 (status (z.renewLease i (wordAt b 3) (wordAt b 4)).1))
          ∧ (lease 2 → ends (.leaseRelease n) (z.releaseLease i).2 (status (z.releaseLease i).1))))
      ∧ ((lease 0 → fails (.leaseGrant n) (w 4) 64) ∧ (lease 1 → fails (.leaseRenew n) (w 4) 64) ∧ (lease 2 → fails (.leaseRelease n) (w 4) 64))
      -- KEY
      ∧ (opc = 0x13 → let id := (w 4).toNat
        ((w 3).getLsbD 0 = false →
          (∀ k, s.mem.keys.find id = some k → ends (.keyLoad n) s 0x02)
          ∧ (s.mem.keys.find id = none → fails (.keyLoad n) (w 5) 64 ∧ ∀ b z, reads s (w 5) 64 = (.ok b, z) →
            ∀ e y, writes z (w 5) (List.replicate 64 0) = (.ok e, y) →
              ends (.keyLoad n) { y with mem := { y.mem with keys := y.mem.keys.insert id (BitVec.ofNat 512 (ofLeBytes b)) } } 0))
        ∧ ((w 3).getLsbD 0 = true → (s.mem.keys.find id = none → ends (.keyUnload n) s 0x02)
          ∧ ∀ k, s.mem.keys.find id = some k → ∃ u : State, ends (.keyUnload n) u 0 ∧ u = { s with mem := u.mem } ∧ u.mem.keys.find id = none)))
    -- the descriptor's fields (Table 18-7)
    ∧ (∀ b nth k, kernelOf b nth = some k →
      let d := wordAt b
      k = { sentry := d 0, lbase := d 1, pbytes := wbits (d 2) 32 12, lunits := wbits (d 2) 0 32, rings := wbits (d 3) 40 8, bars := wbits (d 3) 32 8,
            tiles := wbits (d 3) 24 8, copyq := wbits (d 3) 16 8, scrb := wbits (d 3) 12 4, team := wbits (d 3) 6 6, regs16 := wbits (d 3) 0 6,
            gangf := wbits (d 4) 16 16, gangp := wbits (d 4) 0 16 }
      ∧ k.rings ≤ 16 ∧ 1 ≤ k.bars ∧ k.bars ≤ 16 ∧ k.tiles ≤ 16 ∧ 1 ≤ k.copyq ∧ k.copyq ≤ 16 ∧ 1 ≤ k.scrb ∧ k.scrb ≤ 14 ∧ 1 ≤ k.team ∧ k.team ≤ 32
      ∧ 3 ≤ k.regs16 ∧ k.regs16 ≤ 16 ∧ 1 ≤ k.gangf ∧ k.gangf ≤ k.gangp ∧ k.gangp ≤ 256 ∧ 32 * (k.team - 1) < nth ∧ nth ≤ 32 * k.team)
    -- one page of MAP (R74), and the TLBI by address
    ∧ (∀ (z : State) root va img t y, (runOf (wbits img 52 4)).2.2 = 1 →
      let span := (runOf (wbits img 52 4)).2.1
      z.tableFor (BitVec.ofNat 64 (va.toNat / span * span)) (runOf (wbits img 52 4)).1 5 root = (some t, y) →
      z.mapPage root va img = { y with mem := y.mem.setEntry (t + 8 * (va.toNat / span % 512)) img })
    ∧ (∀ (z : State) ctx lo hi, let u := z.tlbiRange ctx lo hi
      u = { z with mem := { z.mem with tlb := u.mem.tlb, atc := u.mem.atc, walks := u.mem.walks } }
      ∧ (∀ e, e ∈ u.mem.walks ↔ e ∈ z.mem.walks ∧ ¬(e.ctx = ctx ∧ e.tag * 2 ^ (3 + 9 * e.level) < hi ∧ lo < e.tag * 2 ^ (3 + 9 * e.level) + 2 ^ (3 + 9 * e.level)))
      ∧ (∀ e, e ∈ u.mem.tlb ↔ e ∈ z.mem.tlb ∧ ¬((e.leaf.glob = true ∨ e.ctx = ctx) ∧ e.page < hi ∧ lo < e.page + pageBytes e.leaf.size))
      ∧ ∀ e, e ∈ u.mem.atc ↔ e ∈ z.mem.atc ∧ ¬(e.pasid = (z.context ctx).pasid ∧ e.page * 4096 < hi ∧ lo < e.page * 4096 + e.bytes))

/-- R300, R355, R356, R414: the CONTEXT commands: create and update take the descriptor's fields, an update of the root or the PASID with the
placed teams stopped; the multicast entries of the context's range are its own; destroy kills the context with cause 0 and its commands complete with CONTEXT_DEAD; bind and unbind write the
queue table; the queries write their record. The end of a launch.
Where the manual leaves a point open, the clause is the model's choice: log entries 50, 51, 57, 61, 93, 102. -/
def Obligations.ContextCommands : Prop :=
  ∀ (s : State) (n : Nat) (c : Cmd), s.cmd? n = some c → c.fin = none → (s.context c.ctx).killed = false →
    let w := c.w
    let acc : Acc := { core := 256, ctx := c.ctx, mode := if c.priv then .priv else .user, gid := 2 ^ 40 }
    let reads := fun (z : State) (va : W64) (k : Nat) => z.engRead acc (.cmd n) va k
    let writes := fun (z : State) (va : W64) (b : List Byte) => z.engWrite acc (.cmd n) va b
    let ends := fun (e : Instr) (z : State) (code : Nat) => exec e s = .next (z.finishCmd n code)
    let id := (w 4).toNat
    let here := s.existing (w 4) = true
    let is := fun (k : Nat) => wbits (w 0) 0 8 = 0x14 ∧ wbits (w 3) 0 3 = k
    -- Table 18-6
    let fields := fun (b : List Byte) (x : Context) => let d := wordAt b
      x.root = d 0 ∧ x.fpen.toNat = wbits (d 1) 32 6 ∧ x.pasid = wbits (d 1) 0 20 ∧ x.tvecUs = d 2 ∧ x.tvecUl = d 3 ∧ x.mcnt = wbits (d 4) 32 16
      ∧ x.mfirst = wbits (d 4) 16 16 ∧ x.ftag = wbits (d 4) 0 16 ∧ x.bstore = d 5 ∧ x.bsize = d 6
    (here ↔ id < 2 ^ 32 ∧ ∃ x, s.contexts.find id = some x ∧ x.torn = false)
    ∧ (is 0 → (2 ^ 32 ≤ id ∨ here → ends (.contextCreate n) s 0x02)
      ∧ (id < 2 ^ 32 → ¬here → (∀ f z, reads s (w 5) 64 = (.fault f, z) → ends (.contextCreate n) z 0x05)
        ∧ ∀ b z, reads s (w 5) 64 = (.ok b, z) → ∃ x, ends (.contextCreate n) ((z.setContext id x).ownGroups {} x) 0 ∧ fields b x ∧ x.killed = false ∧ x.torn = false
          ∧ x.illegal = false ∧ x.latch = false ∧ x.fabric = false ∧ x.sigfault = 0 ∧ x.cause = 0))
    ∧ (is 1 → (¬here → ends (.contextDestroy n) s 0x02)
      ∧ (here → (∀ x ∈ s.cmds, x.ctx = id → x.num = n) →
        let z := ((s.killContext id 0).ownGroups (s.context id) {}).modContext id fun x => { x with torn := true }
        ends (.contextDestroy n) { z with launches := z.launches.filter (fun p => decide (p.2.ctx ≠ id)) } (if c.ctx = id then 0x01 else 0)))
    ∧ (is 2 → (¬here → ends (.contextUpdate n) s 0x02)
      ∧ (here → ∀ b z, reads s (w 5) 64 = (.ok b, z) →
        let old := z.context id
        let moves := old.root ≠ wordAt b 0 ∨ old.pasid ≠ wbits (wordAt b 1) 0 20
        let mine := fun (p : Nat × Team) => p.2.ctx = id ∧ p.2.saved = false ∧ p.2.lost = false
        SMap.sorted z.teams = true →
        (¬moves → c.stops = [] → ∃ u x, ends (.contextUpdate n) u 0 ∧ u = (z.setContext id x).ownGroups old x ∧ fields b x ∧ x.killed = old.killed ∧ x.sigfault = old.sigfault
          ∧ x.illegal = old.illegal ∧ x.latch = old.latch ∧ x.fabric = old.fabric ∧ x.rt = old.rt)
        ∧ (moves → (∃ p ∈ z.teams, mine p ∧ p.2.stopping = false) → ∃ u : State, exec (.contextUpdate n) s = .next u
          ∧ u = { z with teams := u.teams, cmds := u.cmds, jobs := u.jobs }
          ∧ (∀ m, u.jobs.find m = (z.jobs.find m).map fun j =>
              if (∃ p ∈ z.teams, p.1 = j.team ∧ mine p ∧ p.2.stopping = false) ∧ j.st = 1 ∧ j.closed = false then ({ j with st := 4 } : Job).note else j)
          ∧ (∀ t x, z.teams.find t = some x → u.team t = if x.ctx = id ∧ x.saved = false ∧ x.lost = false then { x with stopping := true } else x)
          ∧ ∀ d, z.cmd? n = some d → ∃ e, u.cmd? n = some e ∧ ∀ t, t ∈ e.stops ↔ t ∈ d.stops ∨ ∃ p ∈ z.teams, p.1 = t ∧ mine p ∧ p.2.stopping = false)
        ∧ (moves → (∀ p ∈ z.teams, mine p → p.2.stopping = true) → (∃ p ∈ z.teams, mine p ∧ p.2.stopped = false) → exec (.contextUpdate n) s = .next z)
        ∧ (moves → (∀ p ∈ z.teams, mine p → p.2.stopped = true ∧ p.2.stopping = true) → (∀ p ∈ z.fabric.xfers, p.2.team ∉ c.stops) → (∀ p ∈ z.jobs, p.2.team ∉ c.stops) →
          ∃ (u : State) (x : Context), ends (.contextUpdate n) u 0 ∧ u.context id = x ∧ fields b x
            ∧ ∀ t ∈ c.stops, ∀ y, z.teams.find t = some y → u.team t = { y with stopping := false, stopped := false })))
    -- queues
    ∧ (is 3 → (131071 < id → ends (.contextBindQueue n) s 0x02)
      ∧ (id ≤ 131071 → (∀ f z, reads s (w 5) 64 = (.fault f, z) → ends (.contextBindQueue n) z 0x05)
        ∧ ∀ b z, reads s (w 5) 64 = (.ok b, z) →
          let d := wordAt b
          let q : Queue := { v := (d 1).getLsbD 0, base := d 0, ctx := wbits (d 1) 32 32, log2n := wbits (d 1) 20 4, weight := wbits (d 1) 8 8,
                             prio := wbits (d 1) 5 3, devq := (d 1).getLsbD 2, priv := (d 1).getLsbD 1, rpaddr := d 2 }
          let good := 6 ≤ q.log2n ∧ q.weight ≠ 0 ∧ (d 0).toNat % 64 = 0 ∧ (d 2).toNat % 8 = 0 ∧ z.existing (BitVec.ofNat 64 q.ctx) = true
          (good → ends (.contextBindQueue n) (z.setQueue id q) 0) ∧ (¬good → ends (.contextBindQueue n) z 0x02)))
    ∧ (is 4 → (131071 < id ∨ (s.queue id).v = false → ends (.contextUnbindQueue n) s 0x02)
      ∧ (id ≤ 131071 → (s.queue id).v = true → ∃ u : State, ends (.contextUnbindQueue n) u 0 ∧ u = { s with queues := u.queues }
        ∧ (u.queue id).v = false ∧ ∀ q, q ≠ id → u.queues.find q = s.queues.find q))
    ∧ (is 5 → (2 ^ 32 ≤ id ∨ s.contexts.find id = none → ends (.contextQueryContext n) s 0x02)
      ∧ ∀ x, id < 2 ^ 32 → s.contexts.find id = some x →
        let r := wordBytes [BitVec.ofNat 64 x.stat, x.sigfault.setWidth 64, 0, 0, 0, 0, 0, 0]
        (∀ e z, writes s (w 5) r = (.ok e, z) → ends (.contextQueryContext n) z 0) ∧ (∀ f z, writes s (w 5) r = (.fault f, z) → ends (.contextQueryContext n) z 0x05))
    ∧ (is 6 → (131071 < id → ends (.contextQueryQueue n) s 0x02)
      ∧ (id ≤ 131071 → let q := s.queue id
        q.ctx < 2 ^ 32 → q.log2n < 16 → q.weight < 256 → q.prio < 8 → ∃ r : List W64, r.length = 8
        ∧ (let d := fun i => r.getD i 0
          d 0 = q.base ∧ wbits (d 1) 32 32 = q.ctx ∧ wbits (d 1) 20 4 = q.log2n ∧ wbits (d 1) 8 8 = q.weight ∧ wbits (d 1) 5 3 = q.prio
          ∧ (d 1).getLsbD 2 = q.devq ∧ (d 1).getLsbD 1 = q.priv ∧ (d 1).getLsbD 0 = q.v ∧ wbits (d 1) 24 8 = 0 ∧ wbits (d 1) 16 4 = 0 ∧ wbits (d 1) 3 2 = 0
          ∧ d 2 = q.rpaddr ∧ wbits (d 3) 32 32 = q.rptr.toNat ∧ wbits (d 3) 0 32 = q.wptr.toNat ∧ (d 4).toNat = q.overrun.toNat ∧ d 5 = 0 ∧ d 6 = 0 ∧ d 7 = 0)
        ∧ ∀ e z, writes s (w 5) (wordBytes r) = (.ok e, z) → ends (.contextQueryQueue n) z 0))
    -- the multicast table (R300)
    ∧ (∀ (old new : Context) (z : State), SMap.sorted z.fabric.mcast = true → let u := z.ownGroups old new
      let owns := fun (x : Context) (i : Nat) => x.mfirst ≤ i ∧ i < x.mfirst + x.mcnt ∧ i < 4096
      u = { z with fabric := { z.fabric with mcast := u.fabric.mcast }, free := u.free }
      ∧ (∀ i, owns new i → ∃ e, u.fabric.mcast.find i = some e
        ∧ ((¬owns old i ∨ old.ftag = new.ftag) → ∀ e', z.fabric.mcast.find i = some e' → e = e')
        ∧ (z.fabric.mcast.find i = none ∨ owns old i ∧ old.ftag ≠ new.ftag ∧ (∃ e', z.fabric.mcast.find i = some e' ∧ e'.1 = old.ftag) →
          e.1 = new.ftag ∧ 1 ≤ e.2.length ∧ e.2.length ≤ 64))
      ∧ ∀ i, ¬owns new i → u.fabric.mcast.find i = (z.fabric.mcast.find i).filter fun e => !(old.ownsGroup i && decide (e.1 = old.ftag)))
    -- the end of a launch (R355, R359, R365)
    ∧ (∀ m l, s.launches.find m = some l → l.cmd = n → l.ctx = c.ctx →
      let more := l.nofit = false ∧ l.tabBad = false ∧ (l.next < l.teams ∨ l.redo ≠ [])
      let live := ∃ p ∈ s.teams, p.2.launch = m
      (more ∨ live → exec (.launchComplete m) s = .next s)
      ∧ (¬more → ¬live → ends (.launchComplete m) { s with launches := s.launches.erase m } (if l.tabBad then 0x05 else if l.nofit then 0x04 else if l.lost then 0x07 else 0)))

/-! ## Placement, exchange and loss (chapters 18 and 20) -/

/-- A generator from its mix of a seed (R200, R276). -/
def mixedSeed (seed : W64) (n : Nat) (k : W64) : W64 :=
  if seed ^^^ (BitVec.ofNat 64 n * k) = 0 then 0x9E3779B97F4A7C15 else seed ^^^ (BitVec.ofNat 64 n * k)

/-- R10, R52, R104, R200, R276, R361, R362, R364 to R366, R415: TEAM_PLACEMENT. A saved team of the launch is placed again on the first core that
takes it; else, where no earlier launch of the same or a higher priority still has a team to place, the next gang is placed whole: p
teams while p can be placed, f teams from the first time they cannot. A team goes to the first core in service that has all it
needs; its groups, in ascending index, to the lowest lane pair with a free active slot and block. The machine at a group's start.
Where the manual leaves a point open, the clause is the model's choice: log entries 56, 57, 61, 63. -/
def Obligations.TeamPlacement : Prop :=
  ∀ (s : State) (n : Nat) (l : Launch), s.launches.find n = some l →
    let k := l.kernel
    let ev := Instr.teamPlacement n
    let more := l.nofit = false ∧ l.tabBad = false ∧ (l.next < l.teams ∨ l.redo ≠ [])
    let saved := ∃ p ∈ s.teams, p.2.launch = n ∧ p.2.saved = true ∧ p.2.lost = false
    ((s.context l.ctx).killed = true → exec ev s = .next s)
    ∧ ((s.context l.ctx).killed = false →
      (∀ i t, SMap.sorted s.teams = true → s.teams.find i = some t → t.launch = n → t.saved = true → t.lost = false →
        (∀ p ∈ s.teams, p.2.launch = n → p.2.saved = true → p.2.lost = false → i ≤ p.1) →
        ((∀ core, core < 256 → s.restoreOn i core t = none) → exec ev s = .next s)
        ∧ ∀ core u, core < 256 → (∀ q, q < core → s.restoreOn i q t = none) → s.restoreOn i core t = some u → exec ev s = .next u
          ∧ ∃ x, u.team i = { t with core := core, tslot := x, saved := false, again := true, loaded := false } ∧ x < 16)
      ∧ (¬saved → ¬more ∨ s.launchBehind l = true → exec ev s = .next s)
      ∧ (¬saved → more → s.launchBehind l = false → l.redo = [] →
        let left := l.teams - l.next
        let gang := l.gangs.length
        let first := fun (z : Launch) (m : Nat) => s.placeTeams n z gang l.next m (List.range m)
        let after := fun (u : State) (z : Launch) (m : Nat) (p : Bool) =>
          (u.setLaunch n { z with next := l.next + m, gangs := l.gangs ++ [{ first := l.next, size := m, pref := p }] }).unclaim n
        let f := min k.gangf left
        let small := l.fallback = true ∨ left < k.gangp ∨ first l k.gangp = none
        let z := { l with fallback := true }
        let acc : Acc := { core := 256, ctx := l.ctx, mode := if ((s.cmd? l.cmd).map (·.priv)).getD false then .priv else .user, gid := 2 ^ 40 }
        let put := fun (y : State) (m : Nat) (p : W64) =>
          y.engWrite acc (.store l.ctx) (l.gangtab + BitVec.ofNat 64 (16 * gang)) (wordBytes [BitVec.ofNat 64 (l.next * 2 ^ 32 + m), p])
        let ready := l.gangtab = 0 ∨ ∃ e v, put s 1 0 = (.ok e, v)
        (∀ f v, l.gangtab ≠ 0 → put s 1 0 = (.fault f, v) → exec ev s = .next (s.setLaunch n { l with tabBad := true }))
        ∧ (∀ v, l.gangtab ≠ 0 → put s 1 0 = (.wait, v) → exec ev s = .next v)
        ∧ (∀ u, l.fallback = false → k.gangp ≤ left → first l k.gangp = some u → l.gangtab = 0 → exec ev s = .next (after u l k.gangp true))
        ∧ (∀ u, small → first z f = some u → l.gangtab = 0 → exec ev s = .next (after u z f false))
        ∧ (∀ u, ready → l.fallback = false → k.gangp ≤ left → first l k.gangp = some u → l.gangtab ≠ 0 → u.cmds = s.cmds →
          exec ev s = .next (after (put u k.gangp 1).2 l k.gangp true))
        ∧ (∀ u, ready → small → first z f = some u → l.gangtab ≠ 0 → u.cmds = s.cmds → exec ev s = .next (after (put u f 0).2 z f false))
        ∧ (ready → small → first z f = none → ∃ b, exec ev s = .next (s.setLaunch n { z with nofit := b }) ∧ (b = true ↔ s.emptied.placeTeams n z 0 0 f (List.range f) = none))))
    -- where a team and its groups go (R361, R362)
    ∧ (∀ lin gang first size u, s.placeTeam n l lin gang first size = some u ↔
      ∃ core, core < 256 ∧ s.placeOn n l lin gang first size core = some u ∧ ∀ q, q < core → s.placeOn n l lin gang first size q = none)
    ∧ (∀ core r m lp sl gr, s.groupPlace core r m = some (lp, sl, some gr) → 1 ≤ r → r ≤ 24 →
      let free := fun (p g : Nat) => g + r ≤ 24 ∧ ∀ i, i < r → g + i ∉ s.granUsed core p
      let held := fun (p : Nat) => (∃ q ∈ s.pairGroups core p, (s.lanePair core p).reserve = some q.1)
        ∨ ∃ j t, (s.lanePair core p).claim = some (j, t, true) ∧ j ≠ m
      lp < 16 ∧ sl < 8 ∧ sl ∉ s.slotsUsed core lp ∧ (∀ j, j < sl → j ∈ s.slotsUsed core lp) ∧ free lp gr ∧ (∀ g, g < gr → ¬free lp g)
      ∧ ¬held lp ∧ ∀ p, p < lp → (∀ j, j < 8 → j ∈ s.slotsUsed core p) ∨ held p ∨ ∀ g, ¬free p g)
    ∧ (∀ core r m lp sl, s.groupPlace core r m = some (lp, sl, none) → lp < 16 ∧ 8 ≤ sl ∧ sl < 16 ∧ sl ∉ s.slotsUsed core lp
      ∧ ∀ p, p < lp → ∀ j, 8 ≤ j → j < 16 → j ∈ s.slotsUsed core p)
    ∧ (∀ lin gang first size core,
      let sum := fun (f : Kernel → Nat) => ((s.teams.filter fun p => decide (p.2.core = core) && !p.2.saved && !p.2.lost).map fun p => f p.2.kernel).sum
      14 < sum (·.scrb) + k.scrb ∨ 64 < sum (·.copyq) + k.copyq ∨ 16 < sum (·.tiles) + k.tiles ∨ 64 < s.watchUsed core + 1 + k.rings
        ∨ 256 ≤ core ∨ (s.core core).failed = true ∨ s.boot.coreOff = true ∨ s.boot.ready.getLsbD (4 + s.physOf core / 72) = false →
      s.placeOn n l lin gang first size core = none)
    -- the machine at a team's start (R52)
    ∧ (∀ lin gang first size core u, s.placeOn n l lin gang first size core = some u → k.team ≤ 32 → k.bars ≤ 16 →
      let t := u.team s.nextTeam
      u.nextTeam = s.nextTeam + 1 ∧ u.nextGid = s.nextGid + k.team ∧ (∀ i, i ≠ s.nextTeam → u.teams.find i = s.teams.find i)
      ∧ (∀ g, g < s.nextGid ∨ s.nextGid + k.team ≤ g → u.groups.find g = s.groups.find g)
      ∧ t.launch = n ∧ t.ctx = l.ctx ∧ t.lin = lin ∧ t.core = core ∧ t.tslot < 16 ∧ t.gang = gang ∧ t.gidx = lin - first ∧ t.first = first ∧ t.size = size
      ∧ t.kernel = k ∧ t.nthreads = l.nthreads ∧ t.teams = l.teams ∧ t.param = l.param ∧ t.const = l.bytes ∧ t.full = [] ∧ t.copies = [] ∧ t.tiles = []
      ∧ t.watch = [{ kind := .control, off := 0, len := 256 }] ∧ t.ringsFree = k.rings ∧ t.gm = mixedSeed l.seed (lin + 1) 0xD1B54A32D192ED03
      ∧ (∀ b, b < k.bars → t.phase b = 0 ∧ t.expected b = k.team ∧ t.arrived b = 0 ∧ t.bmask b = 0)
      ∧ (∀ a, 16 * k.bars ≤ a → SMap.get 0 t.scratch a = 0)
      ∧ ∀ i, i < k.team →
        let g := u.group (s.nextGid + i)
        let live := min 32 (l.nthreads - 32 * i)
        g.team = s.nextTeam ∧ g.idx = i ∧ g.mode = .user ∧ g.spc = k.sentry ∧ g.swait = none ∧ g.queue = [] ∧ g.tslot = none ∧ g.ended = false ∧ g.cond = 0
        ∧ g.regs = [] ∧ g.dirty = 0 ∧ g.stlevel = 0 ∧ g.slot.isSome
        ∧ (∀ r : BitVec 6, g.sread r = match r.toNat with
            | 1 => l.param | 2 => BitVec.ofNat 64 lin | 3 => BitVec.ofNat 64 i | 4 => BitVec.ofNat 64 l.teams | 5 => BitVec.ofNat 64 gang
            | 6 => BitVec.ofNat 64 (lin - first) | 7 => BitVec.ofNat 64 s.fabric.devid | 8 => BitVec.ofNat 64 l.ctx
            | _ => 0)
        ∧ (∃ x, g.splits = [(0, x)] ∧ x.mode = .waitNext ∧ x.stack = [] ∧ x.wb = 0 ∧ x.rd = 0 ∧ ∀ j, j < 32 → (x.mask.getLsbD j = true ↔ j < (live + 3) / 4 * 4))
        ∧ ∀ j, j < 32 → let th := g.thread j
          let lin32 := (lin * k.team + i) * 32 + j
          (th.life = .live ↔ j < live) ∧ (th.life = .helper ↔ live ≤ j ∧ j < (live + 3) / 4 * 4) ∧ th.preds = 0 ∧ th.fpstat = 0 ∧ th.tlevel = 0
          ∧ th.tlin = BitVec.ofNat 32 lin32 ∧ th.gen = mixedSeed l.seed lin32 0x9E3779B97F4A7C15)

/-- R363, R367, R368: a pending group whose block does not fit for 65,536 cycles, although enough granules are free, reserves its lane pair, unless a
team being placed waits for it. The oldest ready pending group enters a free slot and block, or those of an active group that leaves; R151, R282, R359: a team ends when its
groups have ended and its engine operations have completed. -/
def GroupExchangeAndTeamEnd : Prop :=
  ∀ (s : State) (g : Nat), SMap.sorted s.groups = true →
    let x := s.group g
    let core := s.coreOf g
    let p := s.lanePair core x.lp
    let r := (s.team x.team).kernel.regs16
    let fits := fun (z : State) (b : Nat) => b + r ≤ 24 ∧ ∀ i, i < r → b + i ∉ z.granUsed core x.lp
    let first := fun (z : State) (b : Nat) => fits z b ∧ ∀ a, a < b → ¬fits z a
    let held := ∃ q ∈ s.pairGroups core x.lp, p.reserve = some q.1
    let claimed := ∃ j t, p.claim = some (j, t, true)
    let allowed := held ∧ p.reserve = some g ∨ ¬held ∧ ¬claimed
    let enters := fun (u : State) (sl b : Nat) => u.group g = { x with slot := some sl, granule := some b, readySince := none, waitSince := none }
      ∧ u.lanePair core x.lp = (if p.reserve = some g then { p with reserve := none } else p)
      ∧ (∀ q, q ≠ core * 16 + x.lp → u.lanePairs.find q = s.lanePairs.find q) ∧ u = { s with groups := u.groups, lanePairs := u.lanePairs }
    (s.starved g = true ↔ s.pendReady g = true ∧ r ≤ 24 - (s.granUsed core x.lp).length ∧ ∀ b, ¬fits s b)
    ∧ (∀ c, x.waitSince = some c → c + 65536 ≤ s.cycle → s.starved g = true → ¬held → ¬claimed →
      exec (.reserveState g) s = .next (s.setLanePair core x.lp { p with reserve := some g }))
    ∧ (s.starved g = false ∨ held ∨ claimed ∨ x.waitSince = none ∨ (∃ c, x.waitSince = some c ∧ s.cycle < c + 65536) → exec (.reserveState g) s = .next s)
    ∧ (s.oldestPending g = true → s.pendReady g = true
      ∧ ∀ h y, s.groups.find h = some y → h ≠ g → y.lp = x.lp → s.coreOf h = core → s.pendReady h = true → (s.team y.team).lost = false →
        x.readySince.getD s.cycle < y.readySince.getD s.cycle ∨ x.readySince.getD s.cycle = y.readySince.getD s.cycle ∧ x.slot.getD 0 < y.slot.getD 0)
    ∧ (s.oldestPending g = false → exec (.groupExchange g) s = .next s)
    ∧ (s.oldestPending g = true → r ≤ 24 → ∀ sl b, sl < 8 → sl ∉ s.slotsUsed core x.lp → (∀ m, m < sl → m ∈ s.slotsUsed core x.lp) → allowed → first s b →
      ∃ u : State, exec (.groupExchange g) s = .next u ∧ enters u sl b ∧ ∀ h, h ≠ g → u.groups.find h = s.groups.find h)
    ∧ (s.oldestPending g = true → r ≤ 24 → allowed → ((∀ m, m < 8 → m ∈ s.slotsUsed core x.lp) ∨ ∀ b, ¬fits s b) →
      ∀ h y b, (h, y) ∈ s.pairGroups core x.lp → h ≠ g → s.mayLeave h y = true → (∀ q ∈ s.pairGroups core x.lp, s.mayLeave q.1 q.2 = true → q.1 = h) →
        let out := { y with slot := x.slot, granule := none, readySince := none, waitSince := none }
        (first (s.setGroup h out) b → ∃ u : State, exec (.groupExchange g) s = .next u ∧ enters u (y.slot.getD 0) b ∧ u.group h = out
          ∧ ∀ q, q ≠ g → q ≠ h → u.groups.find q = s.groups.find q)
        ∧ ((∀ b, ¬fits (s.setGroup h out) b) → exec (.groupExchange g) s = .next s))
    ∧ (s.mayLeave g x = true → (∃ n, x.slot = some n ∧ n < 8) ∧ (∀ q : Nat × Nat, p.lane0 = some q ∨ p.lane1 = some q → q.1 ≠ g)
      ∧ ((∃ q ∈ x.splits, q.2.mode = .ready ∧ s.peekW g q.2.pc = true ∧ ∃ f ∈ x.far, f.src.long = true) ∧ (∀ q ∈ x.splits, s.runReady g q.1 q.2 = false)
        ∨ x.splits ≠ [] ∧ ∀ q ∈ x.splits, ∃ c, q.2.mode = .parked c))
    -- the end of a team
    ∧ (∀ t tm, s.teams.find t = some tm →
      let live := ∃ q ∈ s.groups, q.2.team = t ∧ q.2.ended = false
      let busy := (∃ c ∈ tm.copies, c.opened = true) ∨ (∃ q ∈ (s.core tm.core).mxq, q.team = t) ∨ (∃ q ∈ s.fabric.xfers, q.2.team = t ∧ (q.2.complete = false ∨ s.sideOut (.xfer q.1) = true))
        ∨ ∃ q ∈ s.jobs, q.2.team = t ∧ q.2.final = false
      (live ∨ busy → exec (.teamEnd t) s = .next s)
      ∧ (¬live → ¬busy →
        let z := s.releaseAt tm.core .sys
        ∃ u : State, exec (.teamEnd t) s = .next u
          ∧ u = { z with teams := z.teams.erase t, groups := u.groups, lanePairs := u.lanePairs, jobs := u.jobs, fabric := u.fabric, mem := u.mem }
          ∧ (∀ h y, (h, y) ∈ u.groups ↔ (h, y) ∈ s.groups ∧ y.team ≠ t) ∧ (∀ m, m ∈ u.fabric.windows ↔ m ∈ s.fabric.windows ∧ m.team ≠ t)
          ∧ (∀ q, q ∈ u.jobs ↔ q ∈ s.jobs ∧ q.2.team ≠ t) ∧ ∀ q, q ∈ u.mem.bankRes ↔ q ∈ s.mem.bankRes ∧ q.team ≠ t))

/-- R10, R418, R433, R454: a failed core's teams are lost, or start again on another core where the launch allows it; a spare takes its index. At 105 °C every
die has one power token; at 115 °C core power goes and every team is lost. -/
def CoreLoss : Prop :=
  ∀ (s : State), SMap.sorted s.teams = true → SMap.sorted s.groups = true →
    let onCore := fun (core : Nat) (t : Team) => t.core = core ∧ t.saved = false ∧ t.lost = false
    let launchOf := fun (u : State) (t : Team) => ∀ l, s.launches.find t.launch = some l →
      u.launches.find t.launch = some (if l.restart then { l with redo := l.redo ++ [t.lin] } else { l with lost := true })
    (∀ core spare, 288 ≤ core → exec (.coreFailure core spare) s = .next s)
    ∧ (∀ core spare, core < 288 →
      let free := 260 ≤ spare ∧ spare < 288 ∧ (s.core spare).failed = false ∧ spare ≠ core
      ∃ u v : State, exec (.coreFailure core spare) s = .next v
        ∧ v = { (u.shaltEvent 3) with cores := v.cores } ∧ (∀ q, q ≠ core → q ≠ spare → v.core q = u.core q)
        ∧ (core < 260 → free → (v.core core).phys = some (s.physOf spare) ∧ (v.core spare).failed = true ∧ (v.core core).failed = (s.core core).failed)
        ∧ (260 ≤ core ∨ ¬free → (v.core core).failed = true)
        ∧ (v.core core).mxq = [] ∧ (v.core core).alatch = none
        ∧ (∀ i t, s.teams.find i = some t → (onCore core t → u.teams.find i = none) ∧ (¬onCore core t → u.teams.find i = some t))
        ∧ (∀ h y, u.groups.find h = some y → ¬∃ t, s.teams.find y.team = some t ∧ onCore core t)
        ∧ (∀ i t, s.teams.find i = some t → onCore core t → (∀ q ∈ s.teams, onCore core q.2 → q.1 = i) → launchOf u t)
        ∧ (∀ q, q / 16 = core → u.lanePairs.find q = none) ∧ (∀ q, q / 2 ^ 90 = core → u.mem.l1.find q = none)
        ∧ ∀ q y, u.mem.l2.find q = some y → y.owner ≠ some core)
    ∧ (∃ u : State, exec .thermalThrottle s = .next u ∧ u = { s with rings := u.rings, boot := { s.boot with throttled := true } }
      ∧ (∀ d, d < 4 → (SMap.get ({} : Ring) u.rings d).count = 1) ∧ ∀ d, 4 ≤ d → u.rings.find d = s.rings.find d)
    ∧ (∃ u : State, exec .thermalShutdown s = .next u ∧ u.boot = { s.boot with coreOff := true } ∧ u.teams = [] ∧ u.groups.all (fun q => decide ((s.teams.find q.2.team) = none)) = true
      ∧ u.lanePairs = [] ∧ u.mem.l1 = [] ∧ (∀ q ∈ u.cores, q.2.mxq = [] ∧ q.2.alatch = none)
      ∧ (∀ i t, s.teams.find i = some t → (∀ j z, s.teams.find j = some z → j = i ∨ z.launch ≠ t.launch) → launchOf u t))

/-- What `GroupExchangeAndTeamEnd`, `CoreLoss` state, together.
Where the manual leaves a point open, the clause is the model's choice: log entries 56, 58, 59, 62. -/
def Obligations.GroupsTeamsAndCores : Prop := GroupExchangeAndTeamEnd ∧ CoreLoss

/-! ## The host tether, boot, attestation and Chamois (chapter 21) -/

/-- R78, R79, R421 to R425: answers of the host complete their requests, and the acquire of a lane atomic follows its answer (R134); a
heartbeat starts the watch again and brings a lost host back with the parked writes in park order; without one for 10 ms the host is lost,
and at the deadline 1 ms later every read, atomic and translation request without a response ends, and from then on no response of such a
request counts; the accesses that wait for one translation share its answer; the management page's other registers take no write.
Where the manual leaves a point open, the clause is the model's choice: log entries 13, 65, 66, 67. -/
def Obligations.HostTether : Prop :=
  ∀ (s : State), SMap.sorted s.host.reqs = true → SMap.sorted s.groups = true →
    let h := s.host
    let now := s.timeNs.toNat
    let dead := h.tether = .lost ∧ h.deadline.toNat ≤ now
    let up := s.boot.ready.getLsbD 0 = true
    let replay := fun (x : HostLink) => { x with tether := .replay, parked := x.parked.map fun p => { p with sent := true } }
    let beat := fun (t : State) =>
      let x := { t.host with lastBeat := t.timeNs }
      { t with host := if t.host.tether ≠ .lost then x
          else if t.host.deadline = t.timeNs + 1000000 ∧ t.host.parked = [] then HostLink.release { x with tether := .attached } x.waiting.length
          else replay x }
    -- R422
    (¬up → exec .heartbeat s = .next s)
    ∧ (up → ∃ t : State, exec .hostDeadline s = .next t ∧ exec .heartbeat s = .next (beat t))
    ∧ (∀ v, exec (.registerWrite 8 v) s = exec .heartbeat s ∧ ∀ off, off ≠ 8 → exec (.registerWrite off v) s = .next s)
    ∧ (let late := up ∧ h.tether ≠ .lost ∧ h.lastBeat.toNat + 10000000 ≤ now
      (late → exec .heartbeatTimeout s = .next { s with host := { h with tether := .lost, deadline := s.timeNs + 1000000 } })
      ∧ (¬late → exec .heartbeatTimeout s = .next s))
    ∧ (h.tether ≠ .replay → exec .replayComplete s = .next s)
    ∧ (h.tether = .replay → h.parked = [] → h.waiting = [] → exec .replayComplete s = .next { s with host := { h with tether := .attached } })
    ∧ (h.tether = .replay → h.parked ≠ [] → exec .replayComplete s = .next { s with host := replay h })
    -- R423
    ∧ (¬dead → exec .hostDeadline s = .next s)
    ∧ (∀ tag r a, dead → h.reqs.find tag = some r → r.isWrite = false → exec (.hostResponse tag a) s = .next s)
    ∧ (let ready := fun (u : State) (r : Req) => ∀ j ∈ r.joined, ∀ gid slot, j.waiter = .xlat gid slot → ∀ x, (s.group gid).split? slot = some x → slot ≤ 4 →
        x.mode = .suspended .translation → (u.group gid).split? slot = some { x with mode := .ready, age := s.cycle }
      let told := fun (r : Req) (cause : Nat) (all : Bool) => (r.joined.filter fun j => all || decide (j.write = decide (r.data = 1))).map fun j =>
        ({ waiter := j.waiter, ctx := j.ctx, page := j.va.toNat / 4096, write := j.write, cause := cause } : Denial)
      let splits := fun (r : Req) => ∀ j ∈ r.joined, ∃ gid slot, j.waiter = .xlat gid slot
      (∀ n r, dead → h.reqs.find n = some r → r.isWrite = false → r.answered = false →
        (∀ p ∈ h.reqs, p.2.isWrite = false → p.2.answered = false → p.1 = n) →
        let z : State := { s with host := { h with waiting := h.waiting.filter fun t => decide (t ≠ n) } }
        let gone := z.dropHost n
        let access := r.kind ≠ .ats ∧ r.kind ≠ .pri
        (∀ gid, access → r.waiter = .scalar gid → (∃ w, (s.group gid).swait = some w ∧ w.tok = n ∧ w.aux = [onHost]) →
          exec .hostDeadline s = .next (gone.scalarTrapIn gid 0x13 r.va))
        ∧ (∀ gid, access → r.waiter = .far gid → ∃ u : State, exec .hostDeadline s = .next u ∧ u.host = gone.host ∧ (u.context r.ctx).fabric = true
          ∧ (∀ g, g ≠ gid → u.groups.find g = s.groups.find g)
          ∧ (u.group gid).far = (s.group gid).far.map fun f => match f.src with
              | .host t _ _ => if t = n then { f with src := .value 0 } else f
              | _ => f)
        ∧ (∀ t c g m, access → r.waiter = .copy t c g ∨ r.waiter = .cmd m ∨ r.waiter = .eland m →
          exec .hostDeadline s = .next { gone with host := { gone.host with denials := h.denials
            ++ [{ waiter := r.waiter, ctx := r.ctx, page := r.va.toNat / 4096, write := decide (r.kind ≠ .read), cause := 0x13 }] } })
        ∧ (¬access → splits r → ∃ u : State, exec .hostDeadline s = .next u ∧ ready u r
          ∧ u.host = { gone.host with denials := h.denials ++ told r 0x13 true }))
      -- R421
      ∧ (∀ tag a, h.reqs.find tag = none → exec (.hostResponse tag a) s = .next s)
      ∧ (∀ tag r, h.reqs.find tag = some r → r.answered = false → tag ∉ h.waiting → (∀ p ∈ h.parked, p.req = tag → p.sent = true) → (dead → r.isWrite = true) →
        let gone := s.dropHost tag
        let kept := fun (q : Req) => HostLink.release { h with reqs := h.reqs.insert tag q } h.waiting.length
        let lands := fun (u : State) (gid : Nat) (val : Nat → Ext → W64) => u.host = gone.host
          ∧ (∀ g, g ≠ gid → u.groups.find g = s.groups.find g)
          ∧ (u.group gid).far = (s.group gid).far.map fun f => match f.src with
              | .host t b e => if t = tag then { f with src := .value (val b e) } else f
              | _ => f
        let waits := fun (gid : Nat) => ∃ w, (s.group gid).swait = some w ∧ w.tok = tag ∧ w.aux = [onHost]
        let low := fun (b : Nat) (v : W64) => BitVec.ofNat 64 (v.toNat % 2 ^ (8 * b))
        let asked := (h.reqs.filter fun p => decide (p.2.kind = .pri) && !p.2.parked).length
        let asks := fun (c : W64) => { r with kind := .pri, tries := 1, cmp := c, sent := s.timeNs, parked := decide (512 ≤ asked) }
        (∀ d, r.kind = .read → (∀ gid, r.waiter = .far gid → ∃ u : State, exec (.hostResponse tag (.line d)) s = .next u
            ∧ (lands u gid fun b e => BitVec.ofNat 64 (widen e b (lget d (r.addr % 128) b)))
            ∧ (r.acq = none → r.stale = true → u.mem = s.mem)
            ∧ (r.acq = none → r.stale = false → r.l1 = none → ∃ x, u.mem.l2.find (lineKey 1 0 r.addr) = some x ∧ x.data = d))
          ∧ (∀ gid, r.waiter = .scalar gid → waits gid → ∃ u : State, exec (.hostResponse tag (.line d)) s = .next u ∧ u = { s with mem := u.mem, host := u.host }
            ∧ u.host.reqs.find tag = some { r with ans := some (BitVec.ofNat 64 (lget d (r.addr % 128) r.bytes)) })
          ∧ (∀ t c g, r.waiter = .copy t c g → ∃ u : State, exec (.hostResponse tag (.line d)) s = .next u
            ∧ u = { s with mem := u.mem, host := kept { r with line := some d } } ∧ (r.stale = true ∨ r.pol = 1 → u.mem = s.mem)))
        ∧ (∀ v o ty, r.kind = .atom o ty → (∀ gid, r.waiter = .far gid → ∃ u : State, exec (.hostResponse tag (.value v)) s = .next u
            ∧ (lands u gid fun b _ => low b v)
            -- R134
            ∧ (let after := if r.acq = none then s else s.acquireAt (s.coreOf gid) r.ctx .sys
              u.mem = after.mem ∧ u.contexts = after.contexts))
          ∧ (∀ gid, r.waiter = .scalar gid → waits gid → exec (.hostResponse tag (.value v)) s
              = .next { s with host := kept { r with ans := some (low r.bytes v) } }))
        ∧ (r.kind = .write → (∀ c, r.waiter = .store c → exec (.hostResponse tag .ack) s = .next gone)
          ∧ (∀ t c g, r.waiter = .copy t c g → exec (.hostResponse tag .ack) s = .next (gone.unitDone t c g false)))
        -- R78, R79
        ∧ (r.kind = .ats →
          (∀ hp n w, r.data ≠ 1 ∨ w = true → 1 ≤ n → splits r → ∃ u : State, exec (.hostResponse tag (.grant hp n w)) s = .next u ∧ u.host = gone.host
            ∧ ready u r ∧ u.mem.atc.head? = some { pasid := r.pasid, page := r.va.toNat / n * n / 4096, bytes := n, ans := { hpage := hp, write := w } })
          ∧ (∀ a, a = .noTranslation ∨ a = .refused ∨ (r.data = 1 ∧ ∃ hp n, a = .grant hp n false) →
            (r.tries = 0 → exec (.hostResponse tag a) s = .next { s with host := { h with reqs := h.reqs.insert tag (asks (if a = .noTranslation then 0 else 1)) } })
            ∧ (r.tries ≠ 0 → splits r → ∃ u : State, exec (.hostResponse tag a) s = .next u ∧ ready u r ∧ u.mem = s.mem
              ∧ u.host = { gone.host with denials := h.denials ++ told r (if a = .noTranslation then 0x06 else 0x07) false }))))
      ∧ (∀ tag r, h.reqs.find tag = some r → r.kind = .pri → r.parked = false → ¬dead → (∀ p ∈ h.reqs, p.2.kind = .pri → p.2.parked = false) →
        exec (.priResponse tag .success) s = .next { s with host := { h with reqs := h.reqs.insert tag { r with kind := .ats, sent := s.timeNs } } }
        ∧ ∀ a, a ≠ .success → splits r → ∃ u : State, exec (.priResponse tag a) s = .next u ∧ ready u r ∧ u.mem = s.mem
          ∧ u.host = { (s.dropHost tag).host with denials := h.denials ++ told r (if r.cmp = 1 then 0x07 else 0x06) false }))

/-- R10, R53, R84, R280, R283, R425 to R429, R454: power-on reset starts the machine over and keeps the pool; READY bits set as their functions
become usable, and the first die's keeps the system root table; a configuration record that passes its checks is accepted once; the SPDM responder answers once it is ready.
Where the manual leaves a point open, the clause is the model's choice: log entries 9, 16, 17, 48, 69, 70, 71, 107, 109. -/
def Obligations.BootAndAttestation : Prop :=
  ∀ (s : State),
    (∃ u : State, exec .powerOnReset s = .next u ∧ u = { State.reset with agenda := s.agenda, free := u.free, mem := u.mem, boot := u.boot }
      ∧ u.mem = { pool := s.mem.pool, poolKey := s.mem.poolKey, keys := u.mem.keys } ∧ (u.mem.keys.find 0).isSome ∧ (∀ k, k ≠ 0 → u.mem.keys.find k = none)
      ∧ u.boot = { on := true, bootid := u.boot.bootid, idKey := u.boot.idKey, meas0 := Config.romDigest })
    -- READY (R425, R426)
    ∧ (∀ b : Fin 21, let x := s.boot.ready
      let die := x.getLsbD 4 = true ∨ x.getLsbD 5 = true ∨ x.getLsbD 6 = true ∨ x.getLsbD 7 = true
      let may := x.getLsbD b.val = false ∧ b.val ≠ 3 ∧ (b.val = 16 → x.getLsbD 3 = true ∧ die) ∧ (b.val = 17 ∨ b.val = 18 ∨ b.val = 20 → x.getLsbD 3 = true)
        ∧ (b.val = 19 → x.getLsbD 18 = true)
      (¬may → exec (.readyBitSet b) s = .next s)
      ∧ (may → let first := 4 ≤ b.val ∧ b.val < 8 ∧ s.contexts.find sysCtx = none
        ∃ u : State, exec (.readyBitSet b) s = .next u
        ∧ u = { s with boot := { s.boot with ready := u.boot.ready }, host := u.host, mem := u.mem, contexts := u.contexts, free := u.free }
        ∧ (∀ i, i < 21 → u.boot.ready.getLsbD i = (x.getLsbD i || decide (i = b.val)))
        ∧ (u.host = if b.val = 0 then { s.host with lastBeat := s.timeNs } else s.host)
        ∧ (¬first → u.mem = s.mem ∧ u.contexts = s.contexts ∧ u.free = s.free)
        ∧ (first → (∀ c, c ≠ sysCtx → u.contexts.find c = s.contexts.find c)
          ∧ ∃ f, f < numFrames ∧ (u.context sysCtx).root = BitVec.ofNat 64 (65536 * f) ∧ u.mem.frame f = { valid := true, pinned := true, carved := true }))
      ∧ (4 ≤ b.val ∧ b.val < 16 → ∃ u : State, exec (.hbmStackFailure b) s = .next u ∧ u = { s with boot := { s.boot with ready := u.boot.ready } }
        ∧ ∀ i, i < 21 → u.boot.ready.getLsbD i = (x.getLsbD i && decide (i ≠ b.val)))
      ∧ (¬(4 ≤ b.val ∧ b.val < 16) → exec (.hbmStackFailure b) s = .next s))
    ∧ (∀ die : Fin 2, ∃ u : State, exec (.unusedFeatureMessage die) s = .next u ∧ u = { s with mem := { s.mem with poolErr := u.mem.poolErr } }
      ∧ ∀ d, SMap.get 0 u.mem.poolErr d = SMap.get 0 s.mem.poolErr d + if d = die.val then 1 else 0)
    -- the configuration record (R428)
    ∧ (∀ r : CfgRec,
      let good := Config.verify Config.rootDigest r.chain r.chainSig = true ∧ Config.verify (Config.sha3 r.chain) r.raw r.sig = true ∧ r.devKey = s.boot.idKey
        ∧ r.devid < 2 ^ 18 ∧ r.park ≤ 65536 ∧ 500 ≤ r.power ∧ r.power ≤ 2000 ∧ r.tokens.length = 4 ∧ (∀ n ∈ r.tokens, 1 ≤ n ∧ n ≤ 9)
        ∧ (∀ p ∈ r.repair, p.1 < 288 ∧ p.2 < 288) ∧ ∀ c ∈ r.failed, c < 288
      (s.boot.ready.getLsbD 3 = true ∨ ¬good → exec (.configRecord r) s = .next s)
      ∧ (s.boot.ready.getLsbD 3 = false → good → ∃ u : State, exec (.configRecord r) s = .next u
        ∧ u = { s with boot := { s.boot with ready := s.boot.ready ||| 8, meas1 := Config.sha3 r.raw, operKey := r.operator, cert := r.cert, powerLimit := r.power },
                       fabric := { s.fabric with devid := r.devid, linkMap := u.fabric.linkMap }, host := { s.host with parkFrames := r.park },
                       cores := u.cores, rings := u.rings, mem := { s.mem with frames := u.mem.frames }, free := u.free }
        -- R424
        ∧ (∃ fs : List Nat, fs.length = r.park ∧ (∀ f ∈ fs, u.mem.frame f = { valid := true, pinned := true, carved := true })
          ∧ (∀ f, f ∉ fs → u.mem.frame f = s.mem.frame f)
          ∧ (s.mem.frames.length + r.park < numFrames → fs.Nodup ∧ ∀ f ∈ fs, (s.mem.frame f).isInvalid = true))
        ∧ (∀ c, c ∈ r.failed → (u.core c).failed = true) ∧ (∀ c, c ∉ r.failed → (u.core c).failed = (s.core c).failed)
        ∧ (∀ c p, (c, p) ∈ r.repair → (∀ q, (c, q) ∈ r.repair → q = p) → (u.core c).phys = some p)
        ∧ (∀ c, (∀ p, (c, p) ∉ r.repair) → (u.core c).phys = (s.core c).phys)
        ∧ ∀ d, d < 4 → (SMap.get ({} : Ring) u.rings d).count = r.tokens.getD d 0))
    -- SPDM (R429)
    ∧ (let x := s.boot.spdm
      let sends := fun (e : Instr) (y : Spdm) (code : Nat) (ws : List W64) =>
        exec e s = .next { s with boot := { s.boot with spdm := { y with sent := x.sent ++ [(code, ws)] } } }
      let signed := fun (b : List Byte) => blockWords (Config.sign s.boot.idKey b)
      let ready := s.boot.ready.getLsbD 2 = true
      let all := [Instr.getVersion, .getCapabilities, .getDigests, .getCertificate]
      (¬ready → (∀ e ∈ all, exec e s = .next s) ∧ (∀ a b c, exec (.negotiateAlgorithms a b c) s = .next s) ∧ (∀ b, exec (.challenge b) s = .next s)
        ∧ ∀ i b, exec (.getMeasurements i b) s = .next s)
      ∧ (ready → sends .getVersion { x with version := true, caps := false, algos := false, failed := false } 0x04 [0x13]
        ∧ (x.version = true → sends .getCapabilities { x with caps := true } 0x61 [])
        ∧ (x.caps = true → x.failed = false → sends (.negotiateAlgorithms true true false) { x with algos := true } 0x63 [])
        ∧ (∀ a b c, ¬(a = true ∧ b = true ∧ c = false) → sends (.negotiateAlgorithms a b c) { x with failed := true, algos := false } 0x7F [])
        ∧ (x.algos = true → sends .getDigests x 0x01 (blockWords (Config.sha3 (leBytes 64 s.boot.cert.toNat)))
          ∧ sends .getCertificate x 0x02 (blockWords s.boot.cert)
          ∧ (∀ b, sends (.challenge b) x 0x03 (signed (b ++ leBytes 64 s.boot.meas0.toNat ++ leBytes 64 s.boot.meas1.toNat)))
          ∧ (∀ b, sends (.getMeasurements 0 b) x 0x60 (blockWords s.boot.meas0 ++ signed (b ++ leBytes 64 s.boot.meas0.toNat))
            ∧ sends (.getMeasurements 1 b) x 0x60 (blockWords s.boot.meas1 ++ signed (b ++ leBytes 64 s.boot.meas1.toNat)))
          ∧ ∀ i b, 2 ≤ i → sends (.getMeasurements i b) x 0x7F [])
        ∧ (x.algos = false → sends .getDigests x 0x7F [] ∧ sends .getCertificate x 0x7F [] ∧ (∀ b, sends (.challenge b) x 0x7F [])
          ∧ ∀ i b, sends (.getMeasurements i b) x 0x7F [])))

/-- R408, R430 to R433: a Chamois record meets its checks in order and gets a response signed with the identity key; one that passes them has its
effect, and a signature that verifies with a fresh SEQ moves the last SEQ.
Where the manual leaves a point open, the clause is the model's choice: log entries 68, 108. -/
def Obligations.ChamoisCommands : Prop :=
  ∀ (s : State) (r : ChRec), (∀ c ∈ s.cmds, c.queue ≠ none) →
    let w := fun i => r.hdr.getD i 0
    let len := wbits (w 0) 32 32
    let cmd := wbits (w 0) 24 8
    let n := ofLeBytes r.payload
    let events := [(1, Instr.status r), (2, .take r), (3, .handback r), (4, .kill r), (5, .discard r), (6, .privcmd r), (7, .power r)]
    -- the checks of R431, in order
    let bad := wbits (w 0) 18 6 ≠ 0 ∨ w 4 ≠ 0 ∨ w 5 ≠ 0 ∨ w 6 ≠ 0 ∨ w 7 ≠ 0 ∨ 4096 < len ∨ r.payload.length ≠ len ∨ cmd = 0 ∨ 7 < cmd
      ∨ (cmd = 4 ∨ cmd = 5) ∧ len ≠ 4 ∧ len ≠ 8
      ∨ cmd = 6 ∧ (len ≠ 64 ∨ wbits (wordAt r.payload 0) 0 8 ∉ [0x10, 0x11, 0x12, 0x13, 0x14])
      ∨ cmd = 7 ∧ (len = 0 ∨ n < 500 ∨ 2000 < n)
    let config := s.boot.ready.getLsbD 3 = true
    let named := wbits (w 0) 0 18 = s.fabric.devid ∧ w 1 = s.boot.bootid
    let timely := s.timeNs.toNat ≤ (w 3).toNat
    let verified := Config.verify s.boot.operKey (leBytes 64 (Config.sha3 (wordBytes r.hdr ++ r.payload)).toNat) r.sig = true
    let fresh := s.boot.lastSeq.toNat < (w 2).toNat
    let allowed := (cmd = 2 → s.host.tether = .lost) ∧ (cmd = 3 → s.host.tether = .attached ∧ s.boot.taken = true)
      ∧ (cmd = 4 ∨ cmd = 5 → n < sysCtx ∧ (s.contexts.find n).isSome) ∧ (cmd = 6 → s.boot.taken = true)
    let answered := fun (z : State) (code : Nat) (words : List W64) =>
      let sig := Config.sign z.boot.idKey (leBytes 1 cmd ++ leBytes 1 code ++ wordBytes words)
      ({ z with boot := { z.boot with responses := z.boot.responses ++ [(cmd, code, words ++ blockWords sig)] } } : State)
    let seen : State := { s with boot := { s.boot with lastSeq := w 2 } }
    let refused := fun (code : Nat) => ∀ p ∈ events, p.1 = cmd → exec p.2 s = .next (answered s code [])
    let passes := config ∧ named ∧ timely ∧ verified ∧ fresh ∧ allowed
    (bad → ∀ p ∈ events, exec p.2 s = .next (answered s 0x65 []))
    ∧ (¬bad → cmd ≠ 1 →
      (¬config → refused 0x66) ∧ (config → ¬named → refused 0x63) ∧ (config → named → ¬timely → refused 0x62)
      ∧ (config → named → timely → ¬verified → refused 0x60) ∧ (config → named → timely → verified → ¬fresh → refused 0x61)
      ∧ (config → named → timely → verified → fresh → ¬allowed → ∀ p ∈ events, p.1 = cmd → exec p.2 s = .next (answered seen 0x64 [])))
    -- the commands (R432)
    ∧ (¬bad → cmd = 1 → ∃ power u, exec (.status r) s = .next (answered u 0
        ([s.boot.bootid, s.boot.lastSeq, s.boot.ready.setWidth 64, s.hostStat] ++ blockWords s.boot.meas0 ++ blockWords s.boot.meas1
          ++ [power, if s.boot.throttled then 1 else 0] ++ (List.range 8).map (fun i => SMap.get 0 s.mem.noframe i)
          ++ (List.range 8).map (fun i => SMap.get 0 s.mem.relayout i) ++ (List.range 2).map (fun i => SMap.get 0 s.mem.poolErr i)))
        ∧ u = { s with free := u.free })
    ∧ (¬bad → passes →
      (cmd = 2 → exec (.take r) s = .next (answered { seen with boot := { seen.boot with taken := true } } 0 []))
      ∧ (cmd = 3 → exec (.handback r) s = .next (answered { seen with boot := { seen.boot with taken := false } } 0 []))
      ∧ (cmd = 4 → exec (.kill r) s = .next (answered (seen.killContext n 0) 0 []))
      ∧ (cmd = 5 → ∃ u : State, exec (.discard r) s = .next (answered u 0 []) ∧ u = { seen with host := u.host }
        ∧ (s.host.waiting = [] → ∀ p, p ∈ u.host.parked ↔ p ∈ s.host.parked ∧ ¬∃ q ∈ s.host.parked, q.ctx = n ∧ q.sent = false ∧ q.req = p.req))
      ∧ (cmd = 6 → exec (.privcmd r) s = .next (seen.enterCmd { num := s.nextCmd, queue := none, ctx := sysCtx, priv := true,
                                                                words := (List.range 8).map (wordAt r.payload) }))
      ∧ (cmd = 7 → ∃ u : State, exec (.power r) s = .next (answered u 0 [])
        ∧ u = { seen with boot := { seen.boot with powerLimit := n }, rings := u.rings, free := u.free }
        -- R14, R433
        ∧ ∀ d, (s.rings.find d).isSome → let k := (SMap.get ({} : Ring) u.rings d).count
          1 ≤ k ∧ k ≤ 9 ∧ (s.boot.throttled = true → k = 1)))
    ∧ (s.host.parkUse < 2 ^ 32 → wbits s.hostStat 32 32 = s.host.parkUse ∧ wbits s.hostStat 4 28 = 0 ∧ s.hostStat.getLsbD 3 = s.boot.taken
      ∧ wbits s.hostStat 0 3 = match s.host.tether with
        | .attached => 0 | .lost => 1 | .replay => 2)

/-! ## The fabric's events (chapters 15 and 16) -/

/-- `u` is `s` with a reply to a device queued (R285, R287, R289, R290): class 1, ordered, as many flits as header and bytes take; nothing is
sent to the own device or without a minimal route. Where all its links are up and carry nothing else for that device, the fixed hash picks one. -/
def Replies (s u : State) (dst code off : Nat) (wts rts : W48) (bytes : List Byte) : Prop :=
  let ls := s.fabric.minimal dst
  let way := s.fabric.hashed s.fabric.devid dst true ls
  (dst = s.fabric.devid ∨ ls = [] → u = s)
  ∧ ((∀ l ∈ ls, (s.fabric.link l).phase = .up ∧ ∀ m ∈ (s.fabric.link l).queue, ¬(m.src = s.fabric.devid ∧ m.dst = dst)) →
    way = ls[Config.routeHash s.fabric.devid dst % ls.length]?)
  ∧ ∀ l, dst ≠ s.fabric.devid → way = some l →
    ∃ m : OutMsg, u = { s with fabric := { s.fabric with links := u.fabric.links, nextMsg := s.fabric.nextMsg + 1 } }
      ∧ (∀ k, k ≠ l → u.fabric.links.find k = s.fabric.links.find k)
      ∧ u.fabric.link l = { s.fabric.link l with queue := (s.fabric.link l).queue ++ [m] }
      ∧ m.src = s.fabric.devid ∧ m.dst = dst ∧ m.vc = 4 ∧ m.flits = (64 + bytes.length + 223) / 224 ∧ m.all = m.flits ∧ m.via = none
      ∧ m.words = [0, BitVec.ofNat 64 code, BitVec.ofNat 64 off, wts.setWidth 64, rts.setWidth 64] ∧ ∀ a, SMap.get 0 m.body a = bytes.getD a 0

/-- Event e answers a peer; beside the answer the machine is u. -/
def Answers (e : Instr) (s u : State) (dst code off : Nat) (wts rts : W48) (bytes : List Byte) : Prop :=
  ∃ t, exec e s = .next t ∧ Replies u t dst code off wts rts bytes

/-- R74, R107, R113, R296 to R299, R308, R456: packets and accesses of a peer. A window put lands past the window's base, what passes its end is
dropped with ERR set, and COUNT gains the bytes written; an access to a frame that is not carved out is refused with retry-later; a
read at the home raises the line's rts, a write its wts, and the answer carries them.
Where the manual leaves a point open, the clause is the model's choice: log entries 43, 73, 85. -/
def Obligations.FabricArrivals : Prop :=
  ∀ (s : State) (src : Nat) (rt : W48),
    -- window form
    (∀ ftag wtag offset o bytes,
      let e := Instr.putPacketArrival (.window src ftag wtag offset o bytes)
      let off := offset + o
      ((∀ w ∈ s.fabric.windows, ¬(w.ftag = ftag ∧ w.wtag = wtag)) → Answers e s s src 0x22 o 0 0 [])
      ∧ ∀ w ∈ s.fabric.windows, w.ftag = ftag → w.wtag = wtag → (∀ z ∈ s.fabric.windows, z.ftag = ftag → z.wtag = wtag → z = w) →
        let t := s.team w.team
        let k := min bytes.length (w.len - off)
        let past := w.len < off + bytes.length
        let base := w.base + off
        let words := fun (a : Nat) => w.counter ≤ a ∧ a < w.counter + 8 ∨ past ∧ w.counter + 16 ≤ a ∧ a < w.counter + 24
        t.touches base k = false → (∀ a, words a → ¬(base ≤ a ∧ a < base + k)) →
        ∃ (u : State) (t1 : Team), Answers e s u src (if past then 0x20 else 0) (if past then w.len - offset else o) 0 0 []
          ∧ u = { s with teams := u.teams, groups := u.groups } ∧ (∀ i, i ≠ w.team → u.teams.find i = s.teams.find i)
          ∧ t1 = { t with scratch := t1.scratch, full := t1.full }
          ∧ u.team w.team = { t with scratch := (u.team w.team).scratch, full := t1.full }
          ∧ (∀ a, base ≤ a → a < base + k → SMap.get 0 (u.team w.team).scratch a = bytes.getD (a - base) 0)
          ∧ (∀ a, ¬(base ≤ a ∧ a < base + k) → ¬words a → SMap.get 0 (u.team w.team).scratch a = SMap.get 0 t.scratch a)
          ∧ (u.team w.team).rd w.counter 8 = (t.rd w.counter 8 + k) % 2 ^ 64 ∧ (past → (u.team w.team).rd (w.counter + 16) 8 = 1)
          ∧ (∀ g, t1.isFull g = (t.isFull g || (decide (0 < k ∧ base / 16 ≤ g ∧ g ≤ (base + k - 1) / 16) && !t.touches (16 * g) 16)))
          -- the data, ERR and COUNT are one update each, and every waiter sees each of them (R304, R347)
          ∧ (let t2 := if past then t1.wr (w.counter + 16) 8 1 else t1
            let t3 := if k = 0 then t2 else t2.wr w.counter 8 ((t2.rd w.counter 8 + k) % 2 ^ 64)
            let sees := fun (c : Bool) (y : Team) (x : Group) => if c then wakeGroup s.timeNs (x.takes y) else x
            u.team w.team = t3 ∧ ∀ g, u.groups.find g = (s.groups.find g).map fun x =>
              if x.team = w.team then sees (decide (k ≠ 0)) t3 (sees (decide past) t2 (sees (decide (t1.full ≠ t.full)) t1 x)) else x))
    -- address form
    ∧ (∀ pieces count,
      let e := Instr.putPacketArrival (.addr src rt pieces count)
      let here := ∀ p ∈ pieces, p.2 ≠ [] → s.mem.present p.1 p.2.length = true
      let key := fun (c : Nat × Nat) (w : Window) => w.ftag = c.1 ∧ w.wtag = c.2
      ((∃ c, count = some c ∧ ∀ w ∈ s.fabric.windows, ¬key c w) → Answers e s s src 0x22 0 0 0 [])
      ∧ (count = none ∨ (∃ c, count = some c ∧ ∃ w ∈ s.fabric.windows, key c w) → ¬here → Answers e s s src 0x100 0 0 0 [])
      ∧ (count = none → here → ∃ m wts, s.addrPut rt pieces = some (wts, { s with mem := m }) ∧ Answers e s { s with mem := m } src 0 0 wts 0 [])
      ∧ (∀ c w, count = some c → w ∈ s.fabric.windows → key c w → (∀ z ∈ s.fabric.windows, key c z → z = w) → here →
        ∃ m wts, s.addrPut rt pieces = some (wts, { s with mem := m })
          ∧ Answers e s (({ s with mem := m } : State).countBytes w.team w.counter ((pieces.map fun q => q.2.length).sum)) src 0 0 wts 0 []))
    -- a range that lies in frames carved out of HBM
    ∧ (∀ a n, 0 < n → (s.mem.present a n = true ↔ ∀ b, a ≤ b → b < a + n → (s.mem.frame (b / 65536)).carved = true))
    -- the home
    ∧ (∀ a n b,
      let k := lineKey 3 0 a
      let v := lget (s.mem.l2Data k) (a % 128) n
      a % 128 + n ≤ 128 → 1 ≤ n → n ≤ 8 → a < 2 ^ 48 → s.mem.present a n = true → ∀ x, s.mem.l2.find k = some x → x.key = 0 → x.remote = false →
      x.rts.toNat + 1 < 2 ^ 48 → rt.toNat + 64 < 2 ^ 48 → x.wts.toNat + 64 < 2 ^ 48 → x.owner = none →
      let rts := BitVec.ofNat 48 (max x.rts.toNat (max x.wts.toNat rt.toNat + 64))
      let wts := BitVec.ofNat 48 (max rt.toNat (x.rts.toNat + 1))
      (∃ u y, Answers (.fgetRequest src a n rt) s u src 0 0 x.wts 0 (leBytes n v) ∧ u = { s with mem := u.mem } ∧ u.mem.l2.find k = some y
        ∧ y = { x with rts := rts, use := y.use } ∧ ∀ j, j ≠ k → u.mem.l2.find j = s.mem.l2.find j)
      ∧ (∃ u y, Answers (.remoteAccessRequest src a .read rt) s u src 0 0 x.wts rts (leBytes 128 x.data.toNat) ∧ u = { s with mem := u.mem }
        ∧ u.mem.l2.find k = some y ∧ y = { x with rts := rts, use := y.use })
      ∧ (∀ (o : AOp), n = 8 → a % 8 = 0 → ∃ u y, Answers (.fatomRequest src a (.op o) b 0 rt) s u src 0 0 wts 0 (leBytes 8 v) ∧ u = { s with mem := u.mem }
        ∧ u.mem.l2.find k = some y ∧ y.wts = wts ∧ y.rts = wts ∧ y.dirty = true ∧ lget (u.mem.l2Data k) (a % 128) 8 = (atomic64 o (BitVec.ofNat 64 v) b).toNat)
      ∧ (∀ c : W64, n = 8 → a % 8 = 0 → ∃ u y, Answers (.fatomRequest src a .cas b c rt) s u src 0 0 wts 0 (leBytes 8 v) ∧ u = { s with mem := u.mem }
        ∧ u.mem.l2.find k = some y ∧ lget (u.mem.l2Data k) (a % 128) 8 = if v = c.toNat then b.toNat else v)
      ∧ (∀ data : List Byte, data.length = n → ∃ u y, Answers (.remoteAccessRequest src a (.write data) rt) s u src 0 0 wts 0 [] ∧ u = { s with mem := u.mem }
        ∧ u.mem.l2.find k = some y ∧ y.wts = wts ∧ y.rts = wts ∧ lget (u.mem.l2Data k) (a % 128) n = ofLeBytes data)
      ∧ (∀ (o : AOp), n = 8 → a % 8 = 0 → ∃ u y, Answers (.remoteAccessRequest src a (.atom o .i64 b) rt) s u src 0 0 wts 0 (leBytes 8 v) ∧ u = { s with mem := u.mem }
        ∧ u.mem.l2.find k = some y ∧ lget (u.mem.l2Data k) (a % 128) 8 = (atomic64 o (BitVec.ofNat 64 v) b).toNat))
    ∧ (∀ a n op b c, 0 < n → s.mem.present a n = false → Answers (.fgetRequest src a n rt) s s src 0x100 0 0 0 []
      ∧ (n = 8 → Answers (.fatomRequest src a op b c rt) s s src 0x100 0 0 0 []))
    ∧ (∀ a o, s.mem.present a 1 = false → Answers (.remoteAccessRequest src a o rt) s s src 0x100 0 0 0 [])

/-- R292, R297 to R301, R306, R308, R456: what comes back at the sender. A packet takes its status; a transfer whose packets all have one is over, and
under NOST its tag is free, once what it has written to the host or to a peer is acknowledged (R338); a refused packet is sent again after 1, 2, 4, 8 and 16 µs, then every 16 µs, and is given up 100 µs after
the first refusal, but for the time its team is stopped (R310); a packet that has left whole and has no acknowledgement for 1 ms times out.
An access to a peer carries RT, its answer moves MAXW, and the acquire of a lane atomic follows its answer (R134).
Where the manual leaves a point open, the clause is the model's choice: log entries 42, 77, 88. -/
def Obligations.FabricAnswers : Prop :=
  ∀ (s : State), SMap.sorted s.fabric.xfers = true → SMap.sorted s.groups = true →
    let now := s.timeNs.toNat
    let final := fun (p : Pkt) => p.st = .gone ∨ (∃ w, p.st = .acked w) ∨ ∃ c o, p.st = .failed c o
    let saw := fun (c : Nat) (w : W48) => s.modContext c fun x => { x with maxw := if x.maxw.toNat < w.toNat then w else x.maxw }
    let wait := fun (n : Nat) => BitVec.ofNat 64 (([1000, 2000, 4000, 8000] : List Nat).getD n 16000)
    -- a transfer's packets
    (∀ n i x p st, s.fabric.xfers.find n = some x → x.pkts[i]? = some p →
      let y := { x with pkts := x.pkts.set i { p with st := st } }
      let ended_ := ∀ q ∈ y.pkts, final q
      let held := ∃ t ∈ (s.group x.gid).tags, t.2.xfer = n
      let told := x.kind ≠ .mcast ∨ x.ops.getD 3 0 = 0 ∨ x.old.isSome = true
      let z : State := { s with fabric := { s.fabric with xfers := s.fabric.xfers.insert n y } }
      (¬ended_ → s.setPkt n i st = z)
      ∧ (ended_ → (x.nost = false ∧ held) ∨ s.sideOut (.xfer n) = true → told → s.setPkt n i st = z)
      ∧ (ended_ → x.nost = true ∨ ¬held → s.sideOut (.xfer n) = false → told → let u := s.setPkt n i st
        u = { s with groups := u.groups, fabric := { s.fabric with xfers := u.fabric.xfers } }
        ∧ u.fabric.xfers.find n = none ∧ (∀ m, m ≠ n → u.fabric.xfers.find m = s.fabric.xfers.find m)
        ∧ (∀ g, g ≠ x.gid → u.groups.find g = s.groups.find g) ∧ u.group x.gid = { s.group x.gid with tags := (u.group x.gid).tags }
        ∧ ∀ t, t ∈ (u.group x.gid).tags ↔ t ∈ (s.group x.gid).tags ∧ t.2.xfer ≠ n))
    ∧ (∀ n i x p, s.fabric.xfers.find n = some x → x.pkts[i]? = some p →
      let open_ := (∃ t, p.st = .sent t) ∨ ∃ t f k, p.st = .again t f k
      let queued := s.queued [1, BitVec.ofNat 64 n, BitVec.ofNat 64 i] = true
      let held := (s.team x.team).stopping = true ∨ (s.team x.team).saved = true
      let rt := (s.context x.ctx).rt.setWidth 64
      let ordered := match x.kind with
        | .atom _ => true
        | _ => false
      (open_ → (∀ w f, exec (.packetAck (.xfer n i) (.ok w f)) s = .next ((saw x.ctx w).setPkt n i (.acked f)))
        ∧ (∀ c o, exec (.packetAck (.xfer n i) (.fail c o)) s = .next (s.setPkt n i (.failed c o)))
        ∧ (∀ v w op, x.kind = .atom op → x.ops.getD 3 0 = 0 → exec (.packetAck (.xfer n i) (.value v w)) s
            = .next (((saw x.ctx w).setXfer n { x with old := some v }).setPkt n 0 (.acked false)))
        ∧ (∀ bytes w, x.kind = .get → exec (.fgetResponse n i bytes w) s = .next ((saw x.ctx w).getResult n i x p bytes)))
      ∧ (¬open_ → (∀ a, exec (.packetAck (.xfer n i) a) s = .next s) ∧ ∀ bytes w, exec (.fgetResponse n i bytes w) s = .next s)
      -- the bytes of an FGET packet in a scratchpad
      ∧ (∀ bytes t off, let va := x.ops.getD 0 0 + BitVec.ofNat 64 p.off
        inAperture va = true → s.scratchAt x.team (va.toNat % 2 ^ 32) = some (t, off) → off + p.len ≤ (s.team t).size' → bytes.length = p.len →
        (s.team t).touches off p.len = false → ∃ u : State, s.getResult n i x p bytes = u.setPkt n i (.acked false)
          ∧ u = { s with teams := u.teams, groups := u.groups }
          ∧ (∀ a, SMap.get 0 (u.team t).scratch a = if off ≤ a ∧ a < off + p.len then bytes.getD (a - off) 0 else SMap.get 0 (s.team t).scratch a))
      -- refusals and timers
      ∧ (queued → exec (.fabricTimeout (.xfer n i)) s = .next s)
      ∧ (∀ t, p.st = .sent t → exec (.retryLater (.xfer n i)) s = .next (s.setPkt n i (.retry s.timeNs (s.timeNs + wait 0) 1))
        ∧ (¬queued → t.toNat + 1000000 ≤ now → exec (.fabricTimeout (.xfer n i)) s = .next (s.setPkt n i (.failed 0x24 p.off))))
      ∧ (∀ t first k, p.st = .again t first k → exec (.retryLater (.xfer n i)) s = .next (s.setPkt n i (.retry first (s.timeNs + wait k) (k + 1)))
        ∧ (¬queued → t.toNat + 1000000 ≤ now → exec (.fabricTimeout (.xfer n i)) s = .next (s.setPkt n i (.failed 0x24 p.off))))
      ∧ (∀ first due k, p.st = .retry first due k →
        (held → exec (.resendTimer (.xfer n i)) s = .next s ∧ exec (.notPresentTimeout (.xfer n i)) s = .next s)
        ∧ (¬held → due.toNat ≤ now → now < first.toNat + 100000 → s.reach p.dst = true → exec (.resendTimer (.xfer n i)) s
            = .next ((s.setPkt n i (.again s.timeNs first k)).sendMsg p.dst 0 p.body.length ordered
                [1, BitVec.ofNat 64 n, BitVec.ofNat 64 i, rt] (bodyMap p.body)))
        ∧ (¬held → due.toNat ≤ now → now < first.toNat + 100000 → s.reach p.dst = false →
            exec (.resendTimer (.xfer n i)) s = .next (s.setPkt n i (.failed 0x07 p.off)))
        ∧ (first.toNat + 100000 ≤ now → (¬held → exec (.notPresentTimeout (.xfer n i)) s = .next (s.setPkt n i (.failed 0x21 p.off)))
          ∧ exec (.resendTimer (.xfer n i)) s = .next s)))
    -- a put to the own device
    ∧ (∀ n i x p, s.fabric.xfers.find n = some x → x.pkts[i]? = some p → ((∀ t, p.st ≠ .sent t) ∧ ∀ t f k, p.st ≠ .again t f k) ∨ p.dst ≠ s.fabric.devid →
      exec (.putPacketArrival (.loop n i)) s = .next s)
    ∧ (∀ n i x p, s.fabric.xfers.find n = some x → x.pkts[i]? = some p → (∃ t, p.st = .sent t) ∨ (∃ t f k, p.st = .again t f k) →
      p.dst = s.fabric.devid → x.kind = .put false →
      let off := wbits (x.ops.getD 2 0) 32 20
      let r := s.windowPut (s.context x.ctx).ftag (wbits (x.ops.getD 1 0) 18 16) off p.off p.body
      (r.1 = 0 → exec (.putPacketArrival (.loop n i)) s = .next (r.2.2.setPkt n i (.acked false)))
      ∧ (r.1 = 4 → exec (.putPacketArrival (.loop n i)) s = .next (r.2.2.setPkt n i (.acked true)))
      ∧ (r.1 ≠ 0 → r.1 ≠ 4 → exec (.putPacketArrival (.loop n i)) s = .next (r.2.2.setPkt n i (.failed r.1 r.2.1))))
    -- accesses
    ∧ (∀ n r, s.fabric.reqs.find n = some r →
      let gone := fun (z : State) => ({ z with fabric := { z.fabric with reqs := z.fabric.reqs.erase n } } : State)
      let waits := fun (g : Nat) => ∃ w, (s.group g).swait = some w ∧ w.tok = n ∧ w.aux = [onPeer]
      let queued := s.queued [2, BitVec.ofNat 64 n] = true
      let rt := (s.context r.ctx).rt
      let keeps := fun (u : State) (q : Req) => u.fabric = { s.fabric with reqs := s.fabric.reqs.insert n q }
      let ends := fun (e : Instr) (cause copy : Nat) =>
        (∀ c, r.waiter = .store c → exec e s = .next ((gone s).modContext c fun x => { x with fabric := true }))
        ∧ (∀ g, r.waiter = .scalar g → waits g → exec e s = .next ((gone s).scalarTrapIn g cause r.va))
        ∧ (∀ t c g, r.waiter = .copy t c g → exec e s = .next ((gone s).endSlice t c g copy))
        ∧ (∀ m, r.waiter = .cmd m → r.kind = .read ∨ r.kind = .write → exec e s = .next { gone s with host := { s.host with denials := s.host.denials
            ++ [{ waiter := .cmd m, ctx := r.ctx, page := r.va.toNat / 4096, write := decide (r.kind ≠ .read), cause := cause }] } })
        ∧ ∀ g, r.waiter = .far g → ∃ u : State, exec e s = .next u ∧ u.fabric = (gone s).fabric ∧ (u.context r.ctx).fabric = true
          ∧ (∀ h, h ≠ g → u.groups.find h = s.groups.find h)
          ∧ (u.group g).far = (s.group g).far.map fun f => match f.src with
              | .peer t _ _ => if t = n then { f with src := .value 0 } else f
              | _ => f
      (r.answered = false → ¬queued → r.sent.toNat + 1000000 ≤ now → ends (.remoteAccessTimeout n) 0x12 0x08)
      ∧ (r.answered = true ∨ queued ∨ now < r.sent.toNat + 1000000 → exec (.remoteAccessTimeout n) s = .next s)
      ∧ (∀ t, r.refusedAt = some t → t.toNat + 100000 ≤ now → r.due ≠ 0xFFFFFFFFFFFFFFFF → ends (.notPresentTimeout (.req n)) 0x06 0x01)
      ∧ (∃ q, exec (.retryLater (.req n)) s = .next { s with fabric := { s.fabric with reqs := s.fabric.reqs.insert n q } }
        ∧ q = { r with refusedAt := some (r.refusedAt.getD s.timeNs), due := s.timeNs + wait r.tries, tries := r.tries + 1 })
      ∧ (∀ t, r.refusedAt = some t → r.due ≠ 0xFFFFFFFFFFFFFFFF → r.due.toNat ≤ now → now < t.toNat + 100000 → s.reach r.peer = false →
        ends (.resendTimer (.req n)) 0x11 0x07)
      ∧ (∀ t, r.refusedAt = some t → r.due ≠ 0xFFFFFFFFFFFFFFFF → r.due.toNat ≤ now → now < t.toNat + 100000 → s.reach r.peer = true → ∃ z : State, keeps z { r with sent := s.timeNs, due := 0xFFFFFFFFFFFFFFFF, rt := rt }
        ∧ z = { s with fabric := z.fabric }
        ∧ exec (.resendTimer (.req n)) s = .next (z.sendMsg r.peer 0 r.body.length true [2, BitVec.ofNat 64 n, rt.setWidth 64]))
      ∧ (∀ c w f, r.waiter = .store c → exec (.packetAck (.req n) (.ok w f)) s = .next (gone (saw r.ctx w)))
      ∧ (∀ g v w, r.waiter = .far g → ∃ u : State, exec (.packetAck (.req n) (.value v w)) s = .next u ∧ u.fabric = (gone s).fabric
        ∧ (let after := if r.acq = none then saw r.ctx w else (saw r.ctx w).acquireAt (s.coreOf g) r.ctx .sys
          u.mem = after.mem ∧ u.contexts = after.contexts)
        ∧ (u.group g).far = (s.group g).far.map fun f => match f.src with
            | .peer t b _ => if t = n then { f with src := .value (BitVec.ofNat 64 (v.toNat % 2 ^ (8 * b))) } else f
            | _ => f)
      ∧ (∀ d w rts, r.kind = .read → (∀ g, r.waiter = .scalar g → waits g → ∃ u : State, exec (.packetAck (.req n) (.line d w rts)) s = .next u
          ∧ u = { saw r.ctx w with mem := u.mem, fabric := u.fabric }
          ∧ keeps u { r with ans := some (BitVec.ofNat 64 (lget d (r.addr % 128) r.bytes)) })
        ∧ ∀ t c g, r.waiter = .copy t c g → ∃ u : State, exec (.packetAck (.req n) (.line d w rts)) s = .next u
          ∧ u = { saw r.ctx w with mem := u.mem, fabric := u.fabric } ∧ keeps u { r with line := some d })
      ∧ (∀ g d w rts, r.waiter = .far g → r.kind = .read → r.acq = none → ∃ u : State, exec (.packetAck (.req n) (.line d w rts)) s = .next u ∧ u.fabric = (gone s).fabric
        ∧ (r.pol ≠ 1 → r.stale = false → ∃ y, u.mem.l2.find (lineKey 2 r.peer r.addr) = some y ∧ y.data = d ∧ y.rts = rts ∧ y.wts = w ∧ y.remote = true)
        ∧ (r.pol = 1 ∨ r.stale = true → u.mem = s.mem)
        ∧ (u.group g).far = (s.group g).far.map fun f => match f.src with
            | .peer t b e => if t = n then { f with src := .value (BitVec.ofNat 64 (widen e b (lget d (r.addr % 128) b))) } else f
            | _ => f))

/-- R283 to R291, R311: the links. A flit in sequence is taken with its return counts, any other discarded until it comes again, and asked for; a
flit of a packet for this device frees its slot, one of a passing packet waits until the packet is whole, which then goes on. A flit leaves
while fewer than the channel's depth are out, after the INIT flit and what has been asked for again; 16 requests for one SEQ, or 1 ms without
a valid flit, take a link down, and what waits there finds another way; the five phases of a reconfiguration; the ways to a device.
Where the manual leaves a point open, the clause is the model's choice: log entries 25, 76, 88. -/
def Obligations.FabricLinks : Prop :=
  ∀ (s : State) (l : Nat),
    let k := s.fabric.link l
    let own := s.fabric.devid
    let grp := fun (d : Nat) => d / 32
    let member := fun (d : Nat) => d % 32
    let depth := if l < 31 then 64 else 256
    let only := fun (u : State) => u = { s with fabric := { s.fabric with links := u.fabric.links } } ∧ ∀ j, j ≠ l → u.fabric.links.find j = s.fabric.links.find j
    let takes := k.phase = .up ∨ k.phase = .draining
    let becomes := fun (e : Instr) (y : Link) => ∃ u : State, exec e s = .next u ∧ only u ∧ u.fabric.link l = y
    let quiet := (∀ p ∈ s.fabric.links, p.2.queue = []) ∧ ∀ p ∈ s.fabric.reqs, p.2.refusedAt = none
    (∀ f : Flit,
      let v := f.vc.val
      let passVc := if l < 31 ∨ v = 3 then v else v / 4 * 4 + min (v % 4 + 1) 2
      let msg := fun (h : PktHead) =>
        ({ num := 0, dst := h.dst, vc := passVc, flits := h.flits, src := h.src, via := h.via, holds := some (l, v) } : OutMsg)
      (¬takes → exec (.flitReceive l f) s = .next s)
      ∧ (takes → f.good = false ∨ f.seq ≠ k.ack + 1 → becomes (.flitReceive l f)
          { k with discarding := true, asked := k.asked ++ (if f.good = false ∨ k.discarding = false then [k.ack + 1] else []) })
      ∧ (takes → f.good = true → f.seq = k.ack + 1 → ∃ (ret mine : SMap (BitVec 16)) (marks : List Nat),
        let y := { k with ack := f.seq, discarding := false, lastValid := s.timeNs, ret := ret, marks := marks }
        let passes := fun (n : Nat) (m : OutMsg) =>
          (2 ≤ n → becomes (.flitReceive l f) { y with through := k.through.insert v (n - 1, m) })
          ∧ (n ≤ 1 → ∃ z : State, only z ∧ z.fabric.link l = { y with through := k.through.erase v } ∧ exec (.flitReceive l f) s = .next (z.route m))
        (v = 7 ∨ f.init = true → becomes (.flitReceive l f) y)
        ∧ (v ≠ 7 → f.init = false → f.mark = true → becomes (.flitReceive l f) { y with mine := mine })
        ∧ (v ≠ 7 → f.init = false → f.mark = false → f.start = true →
          ((∀ h, f.head = some h → h.dst = own) → becomes (.flitReceive l f) { y with mine := mine })
          ∧ ∀ h, f.head = some h → h.dst ≠ own → passes h.flits (msg h))
        ∧ (v ≠ 7 → f.init = false → f.mark = false → f.start = false →
          (k.through.find v = none → becomes (.flitReceive l f) { y with mine := mine }) ∧ ∀ n m, k.through.find v = some (n, m) → passes n m)
        ∧ (∀ c, SMap.get 0 ret c = match f.rets[c]? with
            | some r => if c < 8 ∧ (r - SMap.get 0 k.ret c).toNat ≤ depth then r else SMap.get 0 k.ret c
            | none => SMap.get 0 k.ret c)
        ∧ (∀ c, c ∈ marks ↔ c ∈ k.marks ∨ f.mark = true ∧ c = v ∧ v ≠ 7)
        ∧ ∀ c, SMap.get 0 mine c = SMap.get 0 k.mine c + if c = v then 1 else 0))
    ∧ (∀ vc : Fin 8,
      let v := vc.val
      let out := (SMap.get 0 k.sent v - SMap.get 0 k.ret v).toNat
      let first := fun (m : OutMsg) => ∃ before after, k.queue = before ++ m :: after ∧ (∀ z ∈ before, z.vc ≠ v) ∧ m.vc = v
      let waits := ∀ m, first m → k.phase ≠ .up ∧ m.started = false
      let kept := (k.kept ++ [(k.seq + 1, v)]).drop (k.kept.length + 1 - 512)
      let counts := fun (sent : SMap (BitVec 16)) => ∀ c, SMap.get 0 sent c = SMap.get 0 k.sent c + if c = v then 1 else 0
      let ready := takes ∧ k.initDue = false ∧ k.resend = []
      (¬takes → exec (.flitSend l vc) s = .next s)
      ∧ (takes → k.initDue = true → becomes (.flitSend l vc) { k with seq := k.seq + 1, initDue := false })
      ∧ (takes → k.initDue = false → k.resend ≠ [] → becomes (.flitSend l vc) { k with resend := k.resend.tail })
      ∧ (ready → depth ≤ out ∨ (waits ∧ (k.phase ≠ .draining ∨ v = 7 ∨ v ∈ k.marksOut)) → exec (.flitSend l vc) s = .next s)
      ∧ (ready → out < depth → ∀ before m after, k.queue = before ++ m :: after → (∀ z ∈ before, z.vc ≠ v) → m.vc = v →
        k.phase = .up ∨ m.started = true →
        let queue := before ++ (if m.flits ≤ 1 then after else { m with flits := m.flits - 1, started := true } :: after)
        ∃ (sent : SMap (BitVec 16)) (z : State), counts sent ∧ only z ∧ z.fabric.link l = { k with seq := k.seq + 1, sent := sent, kept := kept, queue := queue }
          ∧ (let y : State := { z with fabric := z.fabric.freeSlots m 1 }
            (m.holds = none → y = z) ∧ exec (.flitSend l vc) s = .next (if m.flits ≤ 1 then y.stampMsg m else y)))
      ∧ (k.initDue = false → k.resend = [] → k.phase = .draining → out < depth → waits → v < 7 → v ∉ k.marksOut → ∃ sent, counts sent
        ∧ becomes (.flitSend l vc) { k with seq := k.seq + 1, sent := sent, kept := kept, marksOut := k.marksOut ++ [v] }))
    -- a passing packet frees its slots, and what has left whole counts as sent from then on
    ∧ (∀ (m : OutMsg) v n, m.holds = some (l, v) → ∃ mine : SMap (BitVec 16), (s.fabric.freeSlots m n).link l = { k with mine := mine }
      ∧ ∀ c, SMap.get 0 mine c = SMap.get 0 k.mine c + if c = v then BitVec.ofNat 16 n else 0)
    ∧ (∀ (m : OutMsg) n q, m.words[0]? = some 2 → m.words[1]? = some (BitVec.ofNat 64 n) → n < 2 ^ 64 → s.fabric.reqs.find n = some q →
      s.stampMsg m = { s with fabric := { s.fabric with reqs := s.fabric.reqs.insert n { q with sent := s.timeNs } } })
    ∧ (∀ seq, ∃ r, becomes (.retryRequest l seq) { k with retries := if k.retrySeq = seq then k.retries + 1 else 1, retrySeq := seq, resend := r }
      ∧ (∀ before c after, k.kept = before ++ (seq, c) :: after → (∀ z ∈ before, z.1 ≠ seq) → r = (seq, c) :: after)
      ∧ ((∀ z ∈ k.kept, z.1 ≠ seq) → r = []))
    ∧ (let lost := k.phase ≠ .down ∧ (16 ≤ k.retries ∨ k.lastValid.toNat + 1000000 ≤ s.timeNs.toNat)
      (lost → ∃ z : State, only z ∧ z.fabric.link l = { k with phase := .down, retries := 0, resend := [], through := [] }
        ∧ exec (.linkDown l) s = .next z.rerouteAll)
      ∧ (¬lost → exec (.linkDown l) s = .next s))
    -- what waits on a link that cannot carry it finds another way (R291, R311)
    ∧ (quiet → s.rerouteAll = s)
    ∧ (SMap.sorted s.fabric.links = true → (∀ p ∈ s.fabric.links, p.1 ≠ l → p.2.queue = []) → (∀ p ∈ s.fabric.reqs, p.2.refusedAt = none) → ∀ m, k.queue = [m] →
      let z : State := { s with fabric := { s.fabric with links := s.fabric.links.map fun p => (p.1, { p.2 with queue := [] }) } }
      let again := { m with flits := m.all, started := false }
      let stuck := k.phase = .down ∨ (m.started = false ∧ (k.phase ≠ .up ∨ l ∉ s.fabric.ways m))
      (¬stuck → s.rerouteAll = s) ∧ ∀ j, stuck → z.fabric.next again = some j → (z.fabric.link j).phase ≠ .down →
        s.rerouteAll = { z with fabric := z.fabric.enqueue j again })
    -- reconfiguration (R311)
    ∧ (∀ ls, ∃ u : State, exec (.reconfigDrain ls) s = .next u ∧ u = { s with fabric := { s.fabric with links := u.fabric.links } }
      ∧ ∀ j, u.fabric.link j = if j ∈ ls ∧ (s.fabric.link j).phase = .up then { s.fabric.link j with phase := .draining, marks := [], marksOut := [] } else s.fabric.link j)
    ∧ (let back := k.phase = .draining ∧ ∀ v, v < 7 → v ∈ k.marks
      (back → becomes (.linkDark l) { k with phase := .dark }) ∧ (¬back → exec (.linkDark l) s = .next s))
    ∧ (∀ rets, let down := k.phase = .dark ∨ k.phase = .relock ∨ k.phase = .down
      (down → ∃ c, becomes (.initHeader l rets)
          { k with phase := .up, sent := c, ret := c, discarding := false, retries := 0, resend := [], initDue := true, lastValid := s.timeNs }
        ∧ ∀ v, SMap.get 0 c v = if v < 8 then rets.getD v 0 else 0)
      ∧ (¬down → exec (.initHeader l rets) s = .next s))
    ∧ (∀ routes up, quiet → ∃ u : State, exec (.routeTableInstall routes up) s = .next u
      ∧ u = { s with fabric := { s.fabric with routes := u.fabric.routes, localUp := u.fabric.localUp, mids := u.fabric.mids, absent := routes.absent } }
      ∧ (∀ g r, (g, r) ∈ routes.links → (∀ q, (g, q) ∈ routes.links → q = r) → u.fabric.routes.find g = some r)
      ∧ (∀ g, (∀ q, (g, q) ∉ routes.links) → u.fabric.routes.find g = none)
      ∧ (∀ g r, (g, r) ∈ routes.mids → (∀ q, (g, q) ∈ routes.mids → q = r) → u.fabric.mids.find g = some r)
      ∧ (∀ g, (∀ q, (g, q) ∉ routes.mids) → u.fabric.mids.find g = none)
      ∧ (∀ m b, (m, b) ∈ up → (∀ c, (m, c) ∈ up → c = b) → u.fabric.localUp.find m = some b) ∧ ∀ m, (∀ c, (m, c) ∉ up) → u.fabric.localUp.find m = none)
    -- the first links of the minimal routes, and of the way of a packet (R283, R284, R289 to R291)
    ∧ (∀ dst,
      let up := fun (m : Nat) => SMap.get false s.fabric.localUp m = true
      let local_ := fun (m : Nat) => if m < member own then m else m - 1
      let pick := s.fabric.pick dst
      let hashed := fun (o : Bool) (ls : List Nat) => s.fabric.hashed own dst o ls
      let mids := s.fabric.between (grp dst)
      (dst ∈ s.fabric.absent → s.fabric.minimal dst = [])
      ∧ (dst ∉ s.fabric.absent → grp dst = grp own → ∀ j, j ∈ s.fabric.minimal dst ↔ up (member dst) ∧ j = local_ (member dst))
      ∧ (dst ∉ s.fabric.absent → grp dst ≠ grp own → ∀ j, j ∈ s.fabric.minimal dst ↔ ∃ g ∈ SMap.get [] s.fabric.routes (grp dst),
          g / 256 = member own ∧ j = 31 + g % 256 ∨ g / 256 ≠ member own ∧ up (g / 256) ∧ j = local_ (g / 256))
      ∧ (s.reach dst = true ↔ dst = own ∨ s.fabric.minimal dst ≠ [] ∧ s.boot.ready.getLsbD (if grp dst = grp own then 18 else 19) = true)
      ∧ (∀ draw, pick true draw = (hashed true (s.fabric.minimal dst)).map fun m => (m, none))
      ∧ (∀ draw, grp dst = grp own ∨ mids = [] → pick false draw = (hashed false (s.fabric.minimal dst)).map fun m => (m, none))
      ∧ (∀ draw m g v, grp dst ≠ grp own → hashed false (s.fabric.minimal dst) = some m → mids[draw % mids.length]? = some g →
        hashed false (s.fabric.toGroup g) = some v →
        pick false draw = some (if (s.fabric.link v).backlog * 2 + 16 < (s.fabric.link m).backlog then (v, some g) else (m, none))))

/-- R319, R320, R324, R325, R338: once the runs before its fork are over, Eland issues the lowest chunk that is neither acknowledged nor out, at
most 64 past the first that is not acknowledged; an acknowledged chunk moves ACKED or sets its ABOVE bit; a failed one stops the job, and
the lowest failed chunk gives its status. Every change is written to the progress block, one image after another; a job that is over closes,
is written once more, and becomes final after that write.
Where the manual leaves a point open, the clause is the model's choice: log entry 72. -/
def Obligations.ElandChunks : Prop :=
  ∀ (s : State) (n : Nat) (j : Job), s.jobs.find n = some j → SMap.sorted s.jobs = true →
    let own := s.fabric.devid
    let marked := fun (m : Nat) => m < j.acked ∨ j.acked < m ∧ j.above.getLsbD (m - j.acked - 1) = true
    let out := fun (m : Nat) => ∃ c ∈ j.chunks, c.num = m
    let may := fun (m : Nat) => j.acked ≤ m ∧ m ≤ j.acked + 64 ∧ m < j.total ∧ ¬marked m ∧ ¬out m
    let final := fun (p : Pkt) => p.st = .gone ∨ (∃ w, p.st = .acked w) ∨ ∃ c o, p.st = .failed c o
    let held := (s.team j.team).stopping = true
    let side := s.sideOut (.eland n) = true
    let isOver := j.chunks = [] ∧ (j.stopping = true ∨ j.total ≤ j.acked)
    -- nothing of the block is to be written
    let rests := j.pend = [] ∧ (j.closed = false → ¬isOver) ∧ (j.closed = true → j.final = true ∨ side)
    let goes := fun (p : Pkt) => p.st = .unsent ∧ ¬held ∨ (((∃ t, p.st = .sent t) ∨ ∃ t f k, p.st = .again t f k) ∧ p.dst = own)
    let stalled := ∃ c ∈ j.chunks, ∃ p ∈ c.pkts, goes p
    let running := ¬held ∧ j.closed = false ∧ j.stopping = false ∧ j.st = 1 ∧ s.forkReady j.gid j.after = true
    (rests → ¬stalled → ¬running → exec (.chunkIssue n) s = .next s)
    ∧ (rests → ¬stalled → (∀ m, ¬may m) → exec (.chunkIssue n) s = .next s)
    ∧ (rests → running → ¬stalled → ∀ m, may m → (∀ q, q < m → ¬may q) →
      exec (.chunkIssue n) s = .next ((s.setJob n { j with chunks := j.chunks ++ [{ num := m, pkts := packetList (s.chunkBytes j m) 0 }] }).pumpChunk n m))
    ∧ (∀ c before after, rests → j.chunks = before ++ c :: after → (∃ p ∈ c.pkts, goes p) → (∀ z ∈ before, ∀ p ∈ z.pkts, ¬goes p) →
      exec (.chunkIssue n) s = .next (s.pumpChunk n c.num))
    -- acknowledgements
    ∧ (∀ num, ¬out num ∨ side → exec (.chunkAck n num) s = .next s)
    ∧ (∀ num c, c ∈ j.chunks → c.num = num → (∀ z ∈ j.chunks, z.num = num → z = c) → ¬side →
      let rest := j.chunks.filter fun z => decide (z.num ≠ num)
      let fails := fun (code off : Nat) => (∃ p ∈ c.pkts, p.st = .failed code off) ∧ ∀ p ∈ c.pkts, ∀ b o, p.st = .failed b o → off ≤ o ∧ (o = off → b = code)
      let size := s.chunkBytes j num
      ((∃ p ∈ c.pkts, ¬final p) → exec (.chunkAck n num) s = .next s)
      ∧ ((∀ p ∈ c.pkts, ∃ w, p.st = .acked w) → ¬marked num → num ≤ j.acked + 64 → ∃ y : Job, exec (.chunkAck n num) s = .next (s.changeJob n y)
        ∧ y = { j with chunks := rest, bytes := j.bytes + BitVec.ofNat 64 size, acked := y.acked, above := y.above, watched := y.watched }
        ∧ (y.watched = true ↔ j.watched = true ∨ ∃ p ∈ c.pkts, p.st = .acked true)
        ∧ (∀ m, m ≤ j.acked + 64 → ((m < y.acked ∨ y.acked < m ∧ y.above.getLsbD (m - y.acked - 1) = true) ↔ marked m ∨ m = num))
        ∧ (num ≠ j.acked → y.acked = j.acked))
      ∧ (∀ code off, code ≠ 0 → code ≠ 4 → (∀ p ∈ c.pkts, final p) → fails code off →
        let y := { j with chunks := rest, stopping := true, failed := min num j.failed, status := if num < j.failed then code else j.status }
        exec (.chunkAck n num) s = .next ((s.setJob n y).pumpJob n (j.pend.length + 4))))
    -- the block: every change is an image to be written, the oldest first
    ∧ (∀ y : Job, y.note = { y with pend := y.pend ++ [y.image] }
      ∧ (¬(y.chunks = [] ∧ (y.stopping = true ∨ y.total ≤ y.acked)) → s.changeJob n y = (s.setJob n y.note).pumpJob n (y.pend.length + 4))
      ∧ (y.image = [y.fp, BitVec.ofNat 64 (y.total * 2 ^ 32 + y.acked), y.above, BitVec.ofNat 64 (if y.closed then y.failed * 2 ^ 32 + y.st * 256 + y.status
          else y.total * 2 ^ 32 + y.st * 256 + 0xFF), y.bytes, 0, 0, 0]))
    ∧ (∀ image rest fuel, j.pend = image :: rest →
      let b := s.writeBlock j (.eland n) image
      let y := { j with pend := rest }
      (∀ u, b = (ERes.wait, u) → s.pumpJob n (fuel + 1) = u)
      ∧ (∀ e u, b = (ERes.ok e, u) → s.pumpJob n (fuel + 1) = (u.setJob n y).pumpJob n fuel)
      ∧ (∀ f u, b = (ERes.fault f, u) → s.pumpJob n (fuel + 1) = (u.setJob n (if j.wfail ≠ none then y
          else if j.closed then { y with st := 3, status := fabCode f, failed := j.total, wfail := some (fabCode f) }
          else { y with stopping := true, wfail := some (fabCode f) })).pumpJob n fuel))
    ∧ (∀ fuel, j.pend = [] → let step := s.pumpJob n (fuel + 1)
      (isOver → j.closed = false → ∃ z : Job, z = { j with st := z.st, status := z.status, failed := z.failed, closed := true }
        ∧ (∀ c, j.wfail = some c → z.st = 3 ∧ z.status = c ∧ z.failed = j.total)
        ∧ (j.wfail = none → j.failed < j.total → z.st = 3 ∧ z.status = j.status ∧ z.failed = j.failed)
        ∧ (j.wfail = none → j.total ≤ j.failed → z.st = 2 ∧ z.status = (if j.watched then 0x04 else 0) ∧ z.failed = j.failed)
        ∧ step = (s.setJob n z.note).pumpJob n fuel)
      ∧ (j.closed = true → j.final = false → ¬side → ((∃ p ∈ (s.group j.gid).jobs, p.2 = n) → step = s.setJob n { j with final := true })
        ∧ ((∀ p ∈ (s.group j.gid).jobs, p.2 ≠ n) → step = { s with jobs := s.jobs.erase n }))
      ∧ (¬isOver → j.closed = false → step = s) ∧ (j.closed = true → j.final = true ∨ side → step = s))

/-! ## The machine as a whole -/

/-- R21, R23, R30, R371: a turn of a scalar stream fetches four bytes at its PC and a turn of a lane's run twelve bytes at
its unit; when they decode to an instruction, the step is exec of that instruction in the state the fetch leaves; a fetch that faults traps;
R45, R46: an encoding that is not assigned kills the group, and a privileged one traps in user mode. A turn of a device event is exec of the
event. Before a turn, device time and the core clock move on by what the turn names, RT follows device time (R308), and the device's units go
on (log entries 4 and 5). A stream that has nothing to fetch with does nothing. When no turn is named, the first of the choices that can
go on is taken.
Where the manual leaves a point open, the clause is the model's choice: log entries 4, 5, 39. -/
def Obligations.StepRunsDecoded : Prop :=
  ∀ (s : State),
    (∀ (t : Turn) (rest : List Turn), s.agenda = t :: rest →
      let z := ({ s with agenda := rest } : State).advance t.dns t.dcyc
      (∃ z0 : State, z = z0.unitsGo s.timeNs ∧ z0.timeNs = s.timeNs + BitVec.ofNat 64 t.dns ∧ z0.cycle = s.cycle + t.dcyc ∧ z0.agenda = rest
        ∧ ∀ c x, s.contexts.find c = some x → ∃ rt : W48, z0.contexts.find c = some { x with rt := rt }
          ∧ rt.toNat = max x.rt.toNat (z0.timeNs.toNat / 1000 % 2 ^ 48))
      ∧ (∀ g : Nat, t.who = .scalar g →
          let y : State := { z with curGid := g, curSlot := 0 }
          (z.scalarRunnable g = false → step s = .next z)
          ∧ (z.scalarRunnable g = true → y.cur.srom = false → ∀ (w : Nat) (u : State), y.fetchScalar g = (.ok w, u) →
              (∀ i, decodeScalar (BitVec.ofNat 32 w) = .ok i → step s = exec i u)
              ∧ (decodeScalar (BitVec.ofNat 32 w) = .illegalOpcode ∨ decodeScalar (BitVec.ofNat 32 w) = .illegalField →
                  step s = .next (u.killGroup g))
              ∧ (decodeScalar (BitVec.ofNat 32 w) = .illegalPrivField → u.cur.mode = .user → isStret w = false →
                  step s = .next (u.scalarTrapIn g 0x02 0)))
          ∧ (z.scalarRunnable g = true → y.cur.srom = false → ∀ (c : Nat) (v : W64) (u : State), y.fetchScalar g = (.fault c v, u) →
              step s = .next (u.scalarTrapIn g c v))
          ∧ (z.scalarRunnable g = true → y.cur.srom = false → ∀ u : State, y.fetchScalar g = (.stall, u) → step s = .next u))
      ∧ (∀ core lp ln : Nat, t.who = .lane core lp ln →
          let run := if ln = 0 then (z.lanePair core lp).lane0 else (z.lanePair core lp).lane1
          (run = none → step s = .next z)
          ∧ (∀ g n : Nat, run = some (g, n) →
              let y : State := { z with curGid := g, curSlot := n }
              ¬(n = 4 ∧ y.cur.romLane = true) →
                (∀ (w : Nat) (u : State), y.fetchLane g y.split.pc = (.ok w, u) →
                  (∀ i, decodeLane (BitVec.ofNat 96 w) = .ok i → step s = exec i u)
                  ∧ (decodeLane (BitVec.ofNat 96 w) = .illegalOpcode ∨ decodeLane (BitVec.ofNat 96 w) = .illegalField →
                      step s = .next u.killCur)
                  ∧ (decodeLane (BitVec.ofNat 96 w) = .illegalPrivField → u.cur.mode = .user → n ≠ 4 → step s = .next (u.lanePrivTrap none)))
                ∧ (∀ (c : Nat) (v : W64) (u : State), y.fetchLane g y.split.pc = (.fault c v, u) →
                  step s = .next ((u.modSplit fun x => { x with ins := none, whole := true }).laneTrap u.lowest c v))
                ∧ ∀ u : State, y.fetchLane g y.split.pc = (.stall, u) → step s = .next u))
      ∧ (∀ e : Instr, t.who = .event e → laneOf e = none → encodeScalar e = none → step s = exec e z))
    ∧ (s.agenda = [] →
      let z := s.advance 5 12
      let idle := fun (t : State) => { t with curGid := z.curGid, curSlot := z.curSlot } = z
      ∀ before c after, z.choices = before ++ c :: after → (∀ b ∈ before, ∃ t, b.take z = .next t ∧ idle t) → (∀ t, c.take z = .next t → ¬idle t) →
        step s = c.take z)

/-- The words that chapters 2, 9, 14, 17 and 22 write out decode to the instructions they stand for. -/
def Obligations.DecodedWords : Prop :=
  decodeScalar 0x0851BFF4 = .ok (.saddi 5 6 (-12))
  ∧ decodeScalar 0x20A12345 = .ok (.sli 10 0x12345) ∧ decodeScalar 0x24A6789A = .ok (.slis 10 0x6789A)
  ∧ decodeScalar 0x54D03FFF = .ok (.sloop 13 (-1)) ∧ decodeScalar 0x00F30B07 = .ok (.srem 15 12 11)
  ∧ decodeScalar 0x1D22C000 = .ok (.scmpi .lt 2 11 0) ∧ decodeScalar 0x01028C1A = .ok (.ssel 16 10 12 2)
  ∧ decodeScalar 0x60A0000F = .ok (.lrun 10 15) ∧ decodeScalar 0x68000000 = .ok .lquiet
  ∧ decodeScalar 0x28B07001 = .ok (.sld 11 1 .b64 1) ∧ decodeScalar 0x80A50020 = .ok (.dlaunch 10 20)
  ∧ decodeScalar 0x8545C005 = .ok (.rinit 20 23) ∧ decodeScalar 0x84001908 = .ok (.fence .dev .rel)
  ∧ decodeScalar 0x85660109 = .ok (.sleeps 22 24 true) ∧ decodeScalar 0x85454101 = .ok (.barw 20 21 1)
  ∧ decodeLane 0x230A0A0405FF80083F800000
      = .ok (.ffma { gn := true, gp := 2, d := .t 10, a := .t 4, b := .t 5, c := .imm, ha := .l1, imm := 0x3F800000 } .f32 .rn false false false)
  ∧ decodeLane 0x1900330809FE010000000000 = .ok (.iset { d := .p 3, a := .t 8, b := .t 9 } .i32 .lt)
  ∧ decodeLane 0x07000AFF09FE0000000003E8 = .ok (.idiv { d := .t 10, a := .imm, b := .t 9, imm := 1000 } .i32)
  ∧ decodeLane 0x770118160CFE000000000000 = .ok (.cstore { gp := 1, d := .t 24, a := .t 22, b := .t 12 } .i32 .ca)
  ∧ decodeLane 0x61000908FEFE000000000000 = .ok (.xred { d := .t 9, a := .t 8 } .add .i32)
  ∧ decodeLane 0xA002FEFEFEFE000000040003 = .ok (.brl { gp := 2, imm := 0x00040003 })
  ∧ decodeLane 0xA600FEFFFEFE00027FFFFFFF = .ok (.tretVal { a := .imm, imm := 0x7FFFFFFF })
  ∧ decodeLane 0xB010FE1008FF000300000100 = .ok (.mxloop { u := true, a := .t 16, b := .t 8, c := .imm, imm := 0x100 } 3 0 false)
  ∧ decodeLane 0xB210FE4849FE009000000020 = .ok (.mxst { u := true, a := .arg 0, b := .arg 1, imm := 0x20 } 0 9)
  ∧ decodeLane 0x1C100EFEFEFE006300000000 = .ok (.movsp { u := true, d := .t 14 } .timeNs)

/-- R24, R170 to R189 and the scalar rows of the opcode table: every scalar instruction that passes its static checks, with every
operand at every value the checks admit, decodes from its own encoding. -/
def Obligations.ScalarEncodingsAgree : Prop :=
  ∀ (i : Instr) (w : BitVec 32), wellFormed i = true → encodeScalar i = some w → decodeScalar w = .ok i

/-- R30 to R36, R41, R42: every lane instruction that passes its static checks, with every field at every value the checks admit,
decodes from its own encoding. -/
def Obligations.LaneEncodingsAgree : Prop :=
  ∀ (i : Instr) (w : BitVec 96), wellFormed i = true → encodeLane i = some w → decodeLane w = .ok i

/-- Every step keeps the pool and HBM in their canonical form: addresses strictly rising, and no entry for a byte that reads as an
unlisted one does (log entry 2).
Where the manual leaves a point open, the clause is the model's choice: log entries 2, 8. -/
def Obligations.MemoryStaysCanonical : Prop :=
  ∀ s t : State, s.mem.wf = true → step s = .next t → t.mem.wf = true

/-- R84, R345, R422, R425, Table 3-2, Table 18-1: what the manual says reset leaves. READY and HOSTSTAT read 0, the counters of the
management page read 0, TIME_NS is 0, every lease entry is FREE with every field zero, every queue table entry is invalid with every
field zero, no key but the device key is loaded, no group, team, context or command exists; and memory is in its canonical form (log
entry 2: an unlisted byte reads 0, the model's choice).
Where the manual leaves a point open, the clause is the model's choice: log entries 2, 3. -/
def Obligations.ResetState : Prop :=
  let s := State.reset
  s.mgmtRead 0 = 0 ∧ s.mgmtRead 0x010 = 0
  ∧ (∀ i < 8, s.mgmtRead (0x100 + 8 * i) = 0 ∧ s.mgmtRead (0x140 + 8 * i) = 0) ∧ (∀ d < 2, s.mgmtRead (0x180 + 8 * d) = 0)
  ∧ s.timeNs = 0
  ∧ (∀ n : Nat, s.mem.leases.get {} n = {}) ∧ (∀ n : Nat, s.queue n = {}) ∧ (∀ k : Nat, k ≠ 0 → s.mem.keys.find k = none)
  ∧ (∀ g : Nat, s.groups.find g = none) ∧ (∀ n : Nat, s.teams.find n = none) ∧ (∀ c : Nat, s.contexts.find c = none)
  ∧ s.cmds = [] ∧ s.mem.wf = true
end

