-- ==== Sys2Proof/Laws/Word.lean ====
section
/-! SUPPORT. What the sparse tables of Word.lean do: reading after writing, and the canonical form. -/

namespace Sys2Proof.SMap
variable {α : Type}

@[simp] theorem find_nil (x : Nat) : find ([] : SMap α) x = none := rfl

theorem find_insert (m : SMap α) (x y : Nat) (v : α) : find (insert m x v) y = if y = x then some v else find m y := by
  induction m with
  | nil => simp [insert, find]
  | cons p m ih =>
    obtain ⟨k, w⟩ := p
    simp only [insert]
    split
    · simp [find]
    · split
      · subst_vars; simp only [find]; split <;> simp_all
      · simp only [find, ih]; split
        · subst_vars; rw [if_neg]; omega
        · rfl

@[simp] theorem find_insert_self (m : SMap α) (x : Nat) (v : α) : find (insert m x v) x = some v := by simp [find_insert]

theorem find_insert_ne (m : SMap α) {x y : Nat} (v : α) (h : y ≠ x) : find (insert m x v) y = find m y := by
  simp [find_insert, h]

theorem find_erase (m : SMap α) (x y : Nat) : find (erase m x) y = if y = x then none else find m y := by
  induction m with
  | nil => simp [erase, find]
  | cons p m ih =>
    obtain ⟨k, w⟩ := p
    simp only [erase]
    split
    · subst_vars; rw [ih]; simp only [find]; split <;> simp_all
    · simp only [find, ih]; split
      · subst_vars; rw [if_neg]; omega
      · rfl

@[simp] theorem get_insert_self (d : α) (m : SMap α) (x : Nat) (v : α) : get d (insert m x v) x = v := by simp [get]

theorem get_insert_ne (d : α) (m : SMap α) {x y : Nat} (v : α) (h : y ≠ x) : get d (insert m x v) y = get d m y := by
  simp [get, find_insert, h]

theorem get_put [DecidableEq α] (d : α) (m : SMap α) (x y : Nat) (v : α) :
    get d (put d m x v) y = if y = x then v else get d m y := by
  unfold put
  split
  · subst_vars; simp only [get, find_erase]; split <;> simp_all
  · simp only [get, find_insert]; split <;> simp_all

@[simp] theorem get_put_self [DecidableEq α] (d : α) (m : SMap α) (x : Nat) (v : α) : get d (put d m x v) x = v := by
  simp [get_put]

theorem get_put_ne [DecidableEq α] (d : α) (m : SMap α) {x y : Nat} (v : α) (h : y ≠ x) :
    get d (put d m x v) y = get d m y := by simp [get_put, h]

/-! ## The canonical form -/

/-- Every key is above a bound. -/
def above (b : Nat) (m : SMap α) : Prop := ∀ p ∈ m, b < p.1

theorem sorted_cons {k : Nat} {w : α} {m : SMap α} : sorted ((k, w) :: m) = true ↔ above k m ∧ sorted m = true := by
  induction m generalizing k w with
  | nil => simp [sorted, above]
  | cons p m ih =>
    obtain ⟨k', w'⟩ := p
    rw [show sorted ((k, w) :: (k', w') :: m) = (decide (k < k') && sorted ((k', w') :: m)) from rfl]
    simp only [Bool.and_eq_true, decide_eq_true_eq]
    constructor
    · rintro ⟨h, h'⟩
      refine ⟨?_, h'⟩
      intro p hp
      rcases List.mem_cons.1 hp with rfl | hp
      · exact h
      · exact Nat.lt_trans h ((ih.1 h').1 p hp)
    · rintro ⟨h, h'⟩
      exact ⟨h _ (List.mem_cons_self ..), h'⟩

theorem above_insert {b x : Nat} {m : SMap α} {v : α} (h : above b m) (hx : b < x) : above b (insert m x v) := by
  induction m with
  | nil => simpa [insert, above] using hx
  | cons p m ih =>
    obtain ⟨k, w⟩ := p
    have hk : b < k := h _ (List.mem_cons_self ..)
    have hm : above b m := fun q hq => h q (List.mem_cons_of_mem _ hq)
    simp only [insert]
    split
    · intro q hq
      rcases List.mem_cons.1 hq with rfl | hq
      · exact hx
      · exact h q hq
    · split
      · intro q hq
        rcases List.mem_cons.1 hq with rfl | hq
        · exact hx
        · exact hm q hq
      · intro q hq
        rcases List.mem_cons.1 hq with rfl | hq
        · exact hk
        · exact ih hm q hq

theorem above_erase {b x : Nat} {m : SMap α} (h : above b m) : above b (erase m x) := by
  induction m with
  | nil => exact h
  | cons p m ih =>
    obtain ⟨k, w⟩ := p
    have hm : above b m := fun q hq => h q (List.mem_cons_of_mem _ hq)
    simp only [erase]
    split
    · exact ih hm
    · intro q hq
      rcases List.mem_cons.1 hq with rfl | hq
      · exact h _ (List.mem_cons_self ..)
      · exact ih hm q hq

theorem sorted_insert {m : SMap α} {x : Nat} {v : α} (h : sorted m = true) : sorted (insert m x v) = true := by
  induction m with
  | nil => rfl
  | cons p m ih =>
    obtain ⟨k, w⟩ := p
    obtain ⟨ha, hs⟩ := sorted_cons.1 h
    simp only [insert]
    split
    · rename_i hlt
      refine sorted_cons.2 ⟨?_, h⟩
      intro q hq
      rcases List.mem_cons.1 hq with rfl | hq
      · exact hlt
      · exact Nat.lt_trans hlt (ha q hq)
    · split
      · subst_vars; exact sorted_cons.2 ⟨ha, hs⟩
      · exact sorted_cons.2 ⟨above_insert ha (by omega), ih hs⟩

theorem sorted_erase {m : SMap α} {x : Nat} (h : sorted m = true) : sorted (erase m x) = true := by
  induction m with
  | nil => rfl
  | cons p m ih =>
    obtain ⟨k, w⟩ := p
    obtain ⟨ha, hs⟩ := sorted_cons.1 h
    simp only [erase]
    split
    · exact ih hs
    · exact sorted_cons.2 ⟨above_erase ha, ih hs⟩

theorem mem_insert {m : SMap α} {x : Nat} {v : α} {p : Nat × α} (h : p ∈ insert m x v) : p = (x, v) ∨ p ∈ m := by
  induction m with
  | nil => simpa [insert] using h
  | cons q m ih =>
    obtain ⟨k, w⟩ := q
    simp only [insert] at h
    split at h
    · rcases List.mem_cons.1 h with h | h
      · exact .inl h
      · exact .inr h
    · split at h
      · rcases List.mem_cons.1 h with h | h
        · exact .inl h
        · exact .inr (List.mem_cons_of_mem _ h)
      · rcases List.mem_cons.1 h with h | h
        · exact .inr (h ▸ List.mem_cons_self ..)
        · rcases ih h with h | h
          · exact .inl h
          · exact .inr (List.mem_cons_of_mem _ h)

theorem mem_erase {m : SMap α} {x : Nat} {p : Nat × α} (h : p ∈ erase m x) : p ∈ m := by
  induction m with
  | nil => exact h
  | cons q m ih =>
    obtain ⟨k, w⟩ := q
    simp only [erase] at h
    split at h
    · exact List.mem_cons_of_mem _ (ih h)
    · rcases List.mem_cons.1 h with h | h
      · exact h ▸ List.mem_cons_self ..
      · exact List.mem_cons_of_mem _ (ih h)

theorem sorted_filter {m : SMap α} {f : Nat × α → Bool} (h : sorted m = true) : sorted (m.filter f) = true := by
  induction m with
  | nil => rfl
  | cons p m ih =>
    obtain ⟨k, w⟩ := p
    obtain ⟨ha, hs⟩ := sorted_cons.1 h
    rw [List.filter_cons]
    split
    · exact sorted_cons.2 ⟨fun q hq => ha q (List.mem_filter.1 hq).1, ih hs⟩
    · exact ih hs

variable [DecidableEq α]

theorem wf_iff {d : α} {m : SMap α} : wf d m = true ↔ sorted m = true ∧ ∀ p ∈ m, p.2 ≠ d := by
  simp [wf]

@[simp] theorem wf_nil (d : α) : wf d ([] : SMap α) = true := rfl

/-- A write keeps the canonical form. -/
theorem wf_put {d : α} {m : SMap α} {x : Nat} {v : α} (h : wf d m = true) : wf d (put d m x v) = true := by
  obtain ⟨hs, hd⟩ := wf_iff.1 h
  unfold put
  split
  · exact wf_iff.2 ⟨sorted_erase hs, fun p hp => hd p (mem_erase hp)⟩
  · rename_i hv
    refine wf_iff.2 ⟨sorted_insert hs, fun p hp => ?_⟩
    rcases mem_insert hp with rfl | hp
    · exact hv
    · exact hd p hp

theorem wf_erase {d : α} {m : SMap α} {x : Nat} (h : wf d m = true) : wf d (erase m x) = true := by
  obtain ⟨hs, hd⟩ := wf_iff.1 h
  exact wf_iff.2 ⟨sorted_erase hs, fun p hp => hd p (mem_erase hp)⟩

theorem wf_filter {d : α} {m : SMap α} {f : Nat × α → Bool} (h : wf d m = true) : wf d (m.filter f) = true := by
  obtain ⟨hs, hd⟩ := wf_iff.1 h
  exact wf_iff.2 ⟨sorted_filter hs, fun p hp => hd p (List.mem_filter.1 hp).1⟩

theorem wf_drop {d : α} {m : SMap α} {lo n : Nat} (h : wf d m = true) : wf d (drop m lo n) = true := wf_filter h

theorem wf_slice {d : α} {m : SMap α} {lo n : Nat} (h : wf d m = true) : wf d (slice m lo n) = true := wf_filter h

/-- A value other than the one an unlisted key stands for keeps the canonical form. -/
theorem wf_insert {d : α} {m : SMap α} {x : Nat} {v : α} (h : wf d m = true) (hv : v ≠ d) : wf d (insert m x v) = true := by
  have := wf_put (x := x) (v := v) h
  rwa [put, if_neg hv] at this

omit [DecidableEq α] in
theorem above_of_sorted_get {b : Nat} {m : SMap α} {d : α} (h : above b m) {x : Nat} (hx : x ≤ b) : get d m x = d := by
  have : find m x = none := by
    induction m with
    | nil => rfl
    | cons p m ih =>
      obtain ⟨k, w⟩ := p
      have hk : b < k := h _ (List.mem_cons_self ..)
      simp only [find]
      rw [if_neg (by omega)]
      exact ih fun q hq => h q (List.mem_cons_of_mem _ hq)
  simp [get, this]

/-- Two canonical tables that read alike are equal. -/
theorem wf_ext {d : α} {m n : SMap α} (hm : wf d m = true) (hn : wf d n = true) (h : ∀ x, get d m x = get d n x) : m = n := by
  induction m generalizing n with
  | nil =>
    cases n with
    | nil => rfl
    | cons q n =>
      obtain ⟨k, w⟩ := q
      have h1 := h k
      have h2 := (wf_iff.1 hn).2 _ (List.mem_cons_self ..)
      simp [get, find] at h1
      exact absurd h1.symm h2
  | cons p m ih =>
    obtain ⟨k, w⟩ := p
    have hmd := (wf_iff.1 hm).2 _ (List.mem_cons_self ..)
    obtain ⟨ham, hsm⟩ := sorted_cons.1 (wf_iff.1 hm).1
    have wm : wf d m = true := wf_iff.2 ⟨hsm, fun p hp => (wf_iff.1 hm).2 p (List.mem_cons_of_mem _ hp)⟩
    cases n with
    | nil =>
      have h1 := h k
      simp [get, find] at h1
      exact absurd h1 hmd
    | cons q n =>
      obtain ⟨k', w'⟩ := q
      have hnd := (wf_iff.1 hn).2 _ (List.mem_cons_self ..)
      obtain ⟨han, hsn⟩ := sorted_cons.1 (wf_iff.1 hn).1
      have wn : wf d n = true := wf_iff.2 ⟨hsn, fun p hp => (wf_iff.1 hn).2 p (List.mem_cons_of_mem _ hp)⟩
      have hk : k = k' := by
        rcases Nat.lt_trichotomy k k' with hlt | heq | hgt
        · have h1 := h k
          have h2 : get d ((k', w') :: n) k = d :=
            above_of_sorted_get (b := k) (fun q hq => by
              rcases List.mem_cons.1 hq with rfl | hq
              · exact hlt
              · exact Nat.lt_trans hlt (han q hq)) (Nat.le_refl _)
          rw [h2] at h1; simp [get, find] at h1; exact absurd h1 hmd
        · exact heq
        · have h1 := h k'
          have h2 : get d ((k, w) :: m) k' = d :=
            above_of_sorted_get (b := k') (fun q hq => by
              rcases List.mem_cons.1 hq with rfl | hq
              · exact hgt
              · exact Nat.lt_trans hgt (ham q hq)) (Nat.le_refl _)
          rw [h2] at h1; simp [get, find] at h1; exact absurd h1.symm hnd
      subst hk
      have hw : w = w' := by simpa [get, find] using h k
      subst hw
      congr 1
      refine ih wm wn fun x => ?_
      have h1 := h x
      by_cases hx : x = k
      · subst hx
        rw [above_of_sorted_get ham (Nat.le_refl _), above_of_sorted_get han (Nat.le_refl _)]
      · simpa [get, find, hx] using h1

end Sys2Proof.SMap
end

