-- ==== Sys2Proof/Laws/State.lean ====
section
/-! SUPPORT. What every update of the state leaves alone: one lemma per field per update, and what the updated table
holds. -/

namespace Sys2Proof.Machine

/-! ### State.setGroup -/

@[simp] theorem State.setGroup_agenda (s : State) (g : Nat) (x : Group) : (s.setGroup g x).agenda = s.agenda := rfl
@[simp] theorem State.setGroup_curGid (s : State) (g : Nat) (x : Group) : (s.setGroup g x).curGid = s.curGid := rfl
@[simp] theorem State.setGroup_curSlot (s : State) (g : Nat) (x : Group) : (s.setGroup g x).curSlot = s.curSlot := rfl
@[simp] theorem State.setGroup_free (s : State) (g : Nat) (x : Group) : (s.setGroup g x).free = s.free := rfl
@[simp] theorem State.setGroup_timeNs (s : State) (g : Nat) (x : Group) : (s.setGroup g x).timeNs = s.timeNs := rfl
@[simp] theorem State.setGroup_cycle (s : State) (g : Nat) (x : Group) : (s.setGroup g x).cycle = s.cycle := rfl
@[simp] theorem State.setGroup_mem (s : State) (g : Nat) (x : Group) : (s.setGroup g x).mem = s.mem := rfl
@[simp] theorem State.setGroup_nextGid (s : State) (g : Nat) (x : Group) : (s.setGroup g x).nextGid = s.nextGid := rfl
@[simp] theorem State.setGroup_teams (s : State) (g : Nat) (x : Group) : (s.setGroup g x).teams = s.teams := rfl
@[simp] theorem State.setGroup_nextTeam (s : State) (g : Nat) (x : Group) : (s.setGroup g x).nextTeam = s.nextTeam := rfl
@[simp] theorem State.setGroup_lanePairs (s : State) (g : Nat) (x : Group) : (s.setGroup g x).lanePairs = s.lanePairs := rfl
@[simp] theorem State.setGroup_cores (s : State) (g : Nat) (x : Group) : (s.setGroup g x).cores = s.cores := rfl
@[simp] theorem State.setGroup_rings (s : State) (g : Nat) (x : Group) : (s.setGroup g x).rings = s.rings := rfl
@[simp] theorem State.setGroup_contexts (s : State) (g : Nat) (x : Group) : (s.setGroup g x).contexts = s.contexts := rfl
@[simp] theorem State.setGroup_queues (s : State) (g : Nat) (x : Group) : (s.setGroup g x).queues = s.queues := rfl
@[simp] theorem State.setGroup_cmds (s : State) (g : Nat) (x : Group) : (s.setGroup g x).cmds = s.cmds := rfl
@[simp] theorem State.setGroup_nextCmd (s : State) (g : Nat) (x : Group) : (s.setGroup g x).nextCmd = s.nextCmd := rfl
@[simp] theorem State.setGroup_launches (s : State) (g : Nat) (x : Group) : (s.setGroup g x).launches = s.launches := rfl
@[simp] theorem State.setGroup_nextLaunch (s : State) (g : Nat) (x : Group) : (s.setGroup g x).nextLaunch = s.nextLaunch := rfl
@[simp] theorem State.setGroup_cp (s : State) (g : Nat) (x : Group) : (s.setGroup g x).cp = s.cp := rfl
@[simp] theorem State.setGroup_pager (s : State) (g : Nat) (x : Group) : (s.setGroup g x).pager = s.pager := rfl
@[simp] theorem State.setGroup_fabric (s : State) (g : Nat) (x : Group) : (s.setGroup g x).fabric = s.fabric := rfl
@[simp] theorem State.setGroup_jobs (s : State) (g : Nat) (x : Group) : (s.setGroup g x).jobs = s.jobs := rfl
@[simp] theorem State.setGroup_nextJob (s : State) (g : Nat) (x : Group) : (s.setGroup g x).nextJob = s.nextJob := rfl
@[simp] theorem State.setGroup_host (s : State) (g : Nat) (x : Group) : (s.setGroup g x).host = s.host := rfl
@[simp] theorem State.setGroup_boot (s : State) (g : Nat) (x : Group) : (s.setGroup g x).boot = s.boot := rfl

/-! ### State.modGroup -/

@[simp] theorem State.modGroup_agenda (s : State) (g : Nat) (f : Group → Group) : (s.modGroup g f).agenda = s.agenda := rfl
@[simp] theorem State.modGroup_curGid (s : State) (g : Nat) (f : Group → Group) : (s.modGroup g f).curGid = s.curGid := rfl
@[simp] theorem State.modGroup_curSlot (s : State) (g : Nat) (f : Group → Group) : (s.modGroup g f).curSlot = s.curSlot := rfl
@[simp] theorem State.modGroup_free (s : State) (g : Nat) (f : Group → Group) : (s.modGroup g f).free = s.free := rfl
@[simp] theorem State.modGroup_timeNs (s : State) (g : Nat) (f : Group → Group) : (s.modGroup g f).timeNs = s.timeNs := rfl
@[simp] theorem State.modGroup_cycle (s : State) (g : Nat) (f : Group → Group) : (s.modGroup g f).cycle = s.cycle := rfl
@[simp] theorem State.modGroup_mem (s : State) (g : Nat) (f : Group → Group) : (s.modGroup g f).mem = s.mem := rfl
@[simp] theorem State.modGroup_nextGid (s : State) (g : Nat) (f : Group → Group) : (s.modGroup g f).nextGid = s.nextGid := rfl
@[simp] theorem State.modGroup_teams (s : State) (g : Nat) (f : Group → Group) : (s.modGroup g f).teams = s.teams := rfl
@[simp] theorem State.modGroup_nextTeam (s : State) (g : Nat) (f : Group → Group) : (s.modGroup g f).nextTeam = s.nextTeam := rfl
@[simp] theorem State.modGroup_lanePairs (s : State) (g : Nat) (f : Group → Group) : (s.modGroup g f).lanePairs = s.lanePairs := rfl
@[simp] theorem State.modGroup_cores (s : State) (g : Nat) (f : Group → Group) : (s.modGroup g f).cores = s.cores := rfl
@[simp] theorem State.modGroup_rings (s : State) (g : Nat) (f : Group → Group) : (s.modGroup g f).rings = s.rings := rfl
@[simp] theorem State.modGroup_contexts (s : State) (g : Nat) (f : Group → Group) : (s.modGroup g f).contexts = s.contexts := rfl
@[simp] theorem State.modGroup_queues (s : State) (g : Nat) (f : Group → Group) : (s.modGroup g f).queues = s.queues := rfl
@[simp] theorem State.modGroup_cmds (s : State) (g : Nat) (f : Group → Group) : (s.modGroup g f).cmds = s.cmds := rfl
@[simp] theorem State.modGroup_nextCmd (s : State) (g : Nat) (f : Group → Group) : (s.modGroup g f).nextCmd = s.nextCmd := rfl
@[simp] theorem State.modGroup_launches (s : State) (g : Nat) (f : Group → Group) : (s.modGroup g f).launches = s.launches := rfl
@[simp] theorem State.modGroup_nextLaunch (s : State) (g : Nat) (f : Group → Group) : (s.modGroup g f).nextLaunch = s.nextLaunch := rfl
@[simp] theorem State.modGroup_cp (s : State) (g : Nat) (f : Group → Group) : (s.modGroup g f).cp = s.cp := rfl
@[simp] theorem State.modGroup_pager (s : State) (g : Nat) (f : Group → Group) : (s.modGroup g f).pager = s.pager := rfl
@[simp] theorem State.modGroup_fabric (s : State) (g : Nat) (f : Group → Group) : (s.modGroup g f).fabric = s.fabric := rfl
@[simp] theorem State.modGroup_jobs (s : State) (g : Nat) (f : Group → Group) : (s.modGroup g f).jobs = s.jobs := rfl
@[simp] theorem State.modGroup_nextJob (s : State) (g : Nat) (f : Group → Group) : (s.modGroup g f).nextJob = s.nextJob := rfl
@[simp] theorem State.modGroup_host (s : State) (g : Nat) (f : Group → Group) : (s.modGroup g f).host = s.host := rfl
@[simp] theorem State.modGroup_boot (s : State) (g : Nat) (f : Group → Group) : (s.modGroup g f).boot = s.boot := rfl

/-! ### State.modCur -/

@[simp] theorem State.modCur_agenda (s : State) (f : Group → Group) : (s.modCur f).agenda = s.agenda := rfl
@[simp] theorem State.modCur_curGid (s : State) (f : Group → Group) : (s.modCur f).curGid = s.curGid := rfl
@[simp] theorem State.modCur_curSlot (s : State) (f : Group → Group) : (s.modCur f).curSlot = s.curSlot := rfl
@[simp] theorem State.modCur_free (s : State) (f : Group → Group) : (s.modCur f).free = s.free := rfl
@[simp] theorem State.modCur_timeNs (s : State) (f : Group → Group) : (s.modCur f).timeNs = s.timeNs := rfl
@[simp] theorem State.modCur_cycle (s : State) (f : Group → Group) : (s.modCur f).cycle = s.cycle := rfl
@[simp] theorem State.modCur_mem (s : State) (f : Group → Group) : (s.modCur f).mem = s.mem := rfl
@[simp] theorem State.modCur_nextGid (s : State) (f : Group → Group) : (s.modCur f).nextGid = s.nextGid := rfl
@[simp] theorem State.modCur_teams (s : State) (f : Group → Group) : (s.modCur f).teams = s.teams := rfl
@[simp] theorem State.modCur_nextTeam (s : State) (f : Group → Group) : (s.modCur f).nextTeam = s.nextTeam := rfl
@[simp] theorem State.modCur_lanePairs (s : State) (f : Group → Group) : (s.modCur f).lanePairs = s.lanePairs := rfl
@[simp] theorem State.modCur_cores (s : State) (f : Group → Group) : (s.modCur f).cores = s.cores := rfl
@[simp] theorem State.modCur_rings (s : State) (f : Group → Group) : (s.modCur f).rings = s.rings := rfl
@[simp] theorem State.modCur_contexts (s : State) (f : Group → Group) : (s.modCur f).contexts = s.contexts := rfl
@[simp] theorem State.modCur_queues (s : State) (f : Group → Group) : (s.modCur f).queues = s.queues := rfl
@[simp] theorem State.modCur_cmds (s : State) (f : Group → Group) : (s.modCur f).cmds = s.cmds := rfl
@[simp] theorem State.modCur_nextCmd (s : State) (f : Group → Group) : (s.modCur f).nextCmd = s.nextCmd := rfl
@[simp] theorem State.modCur_launches (s : State) (f : Group → Group) : (s.modCur f).launches = s.launches := rfl
@[simp] theorem State.modCur_nextLaunch (s : State) (f : Group → Group) : (s.modCur f).nextLaunch = s.nextLaunch := rfl
@[simp] theorem State.modCur_cp (s : State) (f : Group → Group) : (s.modCur f).cp = s.cp := rfl
@[simp] theorem State.modCur_pager (s : State) (f : Group → Group) : (s.modCur f).pager = s.pager := rfl
@[simp] theorem State.modCur_fabric (s : State) (f : Group → Group) : (s.modCur f).fabric = s.fabric := rfl
@[simp] theorem State.modCur_jobs (s : State) (f : Group → Group) : (s.modCur f).jobs = s.jobs := rfl
@[simp] theorem State.modCur_nextJob (s : State) (f : Group → Group) : (s.modCur f).nextJob = s.nextJob := rfl
@[simp] theorem State.modCur_host (s : State) (f : Group → Group) : (s.modCur f).host = s.host := rfl
@[simp] theorem State.modCur_boot (s : State) (f : Group → Group) : (s.modCur f).boot = s.boot := rfl

/-! ### State.setTeam -/

@[simp] theorem State.setTeam_agenda (s : State) (i : Nat) (x : Team) : (s.setTeam i x).agenda = s.agenda := rfl
@[simp] theorem State.setTeam_curGid (s : State) (i : Nat) (x : Team) : (s.setTeam i x).curGid = s.curGid := rfl
@[simp] theorem State.setTeam_curSlot (s : State) (i : Nat) (x : Team) : (s.setTeam i x).curSlot = s.curSlot := rfl
@[simp] theorem State.setTeam_free (s : State) (i : Nat) (x : Team) : (s.setTeam i x).free = s.free := rfl
@[simp] theorem State.setTeam_timeNs (s : State) (i : Nat) (x : Team) : (s.setTeam i x).timeNs = s.timeNs := rfl
@[simp] theorem State.setTeam_cycle (s : State) (i : Nat) (x : Team) : (s.setTeam i x).cycle = s.cycle := rfl
@[simp] theorem State.setTeam_mem (s : State) (i : Nat) (x : Team) : (s.setTeam i x).mem = s.mem := rfl
@[simp] theorem State.setTeam_groups (s : State) (i : Nat) (x : Team) : (s.setTeam i x).groups = s.groups := rfl
@[simp] theorem State.setTeam_nextGid (s : State) (i : Nat) (x : Team) : (s.setTeam i x).nextGid = s.nextGid := rfl
@[simp] theorem State.setTeam_nextTeam (s : State) (i : Nat) (x : Team) : (s.setTeam i x).nextTeam = s.nextTeam := rfl
@[simp] theorem State.setTeam_lanePairs (s : State) (i : Nat) (x : Team) : (s.setTeam i x).lanePairs = s.lanePairs := rfl
@[simp] theorem State.setTeam_cores (s : State) (i : Nat) (x : Team) : (s.setTeam i x).cores = s.cores := rfl
@[simp] theorem State.setTeam_rings (s : State) (i : Nat) (x : Team) : (s.setTeam i x).rings = s.rings := rfl
@[simp] theorem State.setTeam_contexts (s : State) (i : Nat) (x : Team) : (s.setTeam i x).contexts = s.contexts := rfl
@[simp] theorem State.setTeam_queues (s : State) (i : Nat) (x : Team) : (s.setTeam i x).queues = s.queues := rfl
@[simp] theorem State.setTeam_cmds (s : State) (i : Nat) (x : Team) : (s.setTeam i x).cmds = s.cmds := rfl
@[simp] theorem State.setTeam_nextCmd (s : State) (i : Nat) (x : Team) : (s.setTeam i x).nextCmd = s.nextCmd := rfl
@[simp] theorem State.setTeam_launches (s : State) (i : Nat) (x : Team) : (s.setTeam i x).launches = s.launches := rfl
@[simp] theorem State.setTeam_nextLaunch (s : State) (i : Nat) (x : Team) : (s.setTeam i x).nextLaunch = s.nextLaunch := rfl
@[simp] theorem State.setTeam_cp (s : State) (i : Nat) (x : Team) : (s.setTeam i x).cp = s.cp := rfl
@[simp] theorem State.setTeam_pager (s : State) (i : Nat) (x : Team) : (s.setTeam i x).pager = s.pager := rfl
@[simp] theorem State.setTeam_fabric (s : State) (i : Nat) (x : Team) : (s.setTeam i x).fabric = s.fabric := rfl
@[simp] theorem State.setTeam_jobs (s : State) (i : Nat) (x : Team) : (s.setTeam i x).jobs = s.jobs := rfl
@[simp] theorem State.setTeam_nextJob (s : State) (i : Nat) (x : Team) : (s.setTeam i x).nextJob = s.nextJob := rfl
@[simp] theorem State.setTeam_host (s : State) (i : Nat) (x : Team) : (s.setTeam i x).host = s.host := rfl
@[simp] theorem State.setTeam_boot (s : State) (i : Nat) (x : Team) : (s.setTeam i x).boot = s.boot := rfl

/-! ### State.modTeam -/

@[simp] theorem State.modTeam_agenda (s : State) (i : Nat) (f : Team → Team) : (s.modTeam i f).agenda = s.agenda := rfl
@[simp] theorem State.modTeam_curGid (s : State) (i : Nat) (f : Team → Team) : (s.modTeam i f).curGid = s.curGid := rfl
@[simp] theorem State.modTeam_curSlot (s : State) (i : Nat) (f : Team → Team) : (s.modTeam i f).curSlot = s.curSlot := rfl
@[simp] theorem State.modTeam_free (s : State) (i : Nat) (f : Team → Team) : (s.modTeam i f).free = s.free := rfl
@[simp] theorem State.modTeam_timeNs (s : State) (i : Nat) (f : Team → Team) : (s.modTeam i f).timeNs = s.timeNs := rfl
@[simp] theorem State.modTeam_cycle (s : State) (i : Nat) (f : Team → Team) : (s.modTeam i f).cycle = s.cycle := rfl
@[simp] theorem State.modTeam_mem (s : State) (i : Nat) (f : Team → Team) : (s.modTeam i f).mem = s.mem := rfl
@[simp] theorem State.modTeam_groups (s : State) (i : Nat) (f : Team → Team) : (s.modTeam i f).groups = s.groups := rfl
@[simp] theorem State.modTeam_nextGid (s : State) (i : Nat) (f : Team → Team) : (s.modTeam i f).nextGid = s.nextGid := rfl
@[simp] theorem State.modTeam_nextTeam (s : State) (i : Nat) (f : Team → Team) : (s.modTeam i f).nextTeam = s.nextTeam := rfl
@[simp] theorem State.modTeam_lanePairs (s : State) (i : Nat) (f : Team → Team) : (s.modTeam i f).lanePairs = s.lanePairs := rfl
@[simp] theorem State.modTeam_cores (s : State) (i : Nat) (f : Team → Team) : (s.modTeam i f).cores = s.cores := rfl
@[simp] theorem State.modTeam_rings (s : State) (i : Nat) (f : Team → Team) : (s.modTeam i f).rings = s.rings := rfl
@[simp] theorem State.modTeam_contexts (s : State) (i : Nat) (f : Team → Team) : (s.modTeam i f).contexts = s.contexts := rfl
@[simp] theorem State.modTeam_queues (s : State) (i : Nat) (f : Team → Team) : (s.modTeam i f).queues = s.queues := rfl
@[simp] theorem State.modTeam_cmds (s : State) (i : Nat) (f : Team → Team) : (s.modTeam i f).cmds = s.cmds := rfl
@[simp] theorem State.modTeam_nextCmd (s : State) (i : Nat) (f : Team → Team) : (s.modTeam i f).nextCmd = s.nextCmd := rfl
@[simp] theorem State.modTeam_launches (s : State) (i : Nat) (f : Team → Team) : (s.modTeam i f).launches = s.launches := rfl
@[simp] theorem State.modTeam_nextLaunch (s : State) (i : Nat) (f : Team → Team) : (s.modTeam i f).nextLaunch = s.nextLaunch := rfl
@[simp] theorem State.modTeam_cp (s : State) (i : Nat) (f : Team → Team) : (s.modTeam i f).cp = s.cp := rfl
@[simp] theorem State.modTeam_pager (s : State) (i : Nat) (f : Team → Team) : (s.modTeam i f).pager = s.pager := rfl
@[simp] theorem State.modTeam_fabric (s : State) (i : Nat) (f : Team → Team) : (s.modTeam i f).fabric = s.fabric := rfl
@[simp] theorem State.modTeam_jobs (s : State) (i : Nat) (f : Team → Team) : (s.modTeam i f).jobs = s.jobs := rfl
@[simp] theorem State.modTeam_nextJob (s : State) (i : Nat) (f : Team → Team) : (s.modTeam i f).nextJob = s.nextJob := rfl
@[simp] theorem State.modTeam_host (s : State) (i : Nat) (f : Team → Team) : (s.modTeam i f).host = s.host := rfl
@[simp] theorem State.modTeam_boot (s : State) (i : Nat) (f : Team → Team) : (s.modTeam i f).boot = s.boot := rfl

/-! ### State.setContext -/

@[simp] theorem State.setContext_agenda (s : State) (i : Nat) (x : Context) : (s.setContext i x).agenda = s.agenda := rfl
@[simp] theorem State.setContext_curGid (s : State) (i : Nat) (x : Context) : (s.setContext i x).curGid = s.curGid := rfl
@[simp] theorem State.setContext_curSlot (s : State) (i : Nat) (x : Context) : (s.setContext i x).curSlot = s.curSlot := rfl
@[simp] theorem State.setContext_free (s : State) (i : Nat) (x : Context) : (s.setContext i x).free = s.free := rfl
@[simp] theorem State.setContext_timeNs (s : State) (i : Nat) (x : Context) : (s.setContext i x).timeNs = s.timeNs := rfl
@[simp] theorem State.setContext_cycle (s : State) (i : Nat) (x : Context) : (s.setContext i x).cycle = s.cycle := rfl
@[simp] theorem State.setContext_mem (s : State) (i : Nat) (x : Context) : (s.setContext i x).mem = s.mem := rfl
@[simp] theorem State.setContext_groups (s : State) (i : Nat) (x : Context) : (s.setContext i x).groups = s.groups := rfl
@[simp] theorem State.setContext_nextGid (s : State) (i : Nat) (x : Context) : (s.setContext i x).nextGid = s.nextGid := rfl
@[simp] theorem State.setContext_teams (s : State) (i : Nat) (x : Context) : (s.setContext i x).teams = s.teams := rfl
@[simp] theorem State.setContext_nextTeam (s : State) (i : Nat) (x : Context) : (s.setContext i x).nextTeam = s.nextTeam := rfl
@[simp] theorem State.setContext_lanePairs (s : State) (i : Nat) (x : Context) : (s.setContext i x).lanePairs = s.lanePairs := rfl
@[simp] theorem State.setContext_cores (s : State) (i : Nat) (x : Context) : (s.setContext i x).cores = s.cores := rfl
@[simp] theorem State.setContext_rings (s : State) (i : Nat) (x : Context) : (s.setContext i x).rings = s.rings := rfl
@[simp] theorem State.setContext_queues (s : State) (i : Nat) (x : Context) : (s.setContext i x).queues = s.queues := rfl
@[simp] theorem State.setContext_cmds (s : State) (i : Nat) (x : Context) : (s.setContext i x).cmds = s.cmds := rfl
@[simp] theorem State.setContext_nextCmd (s : State) (i : Nat) (x : Context) : (s.setContext i x).nextCmd = s.nextCmd := rfl
@[simp] theorem State.setContext_launches (s : State) (i : Nat) (x : Context) : (s.setContext i x).launches = s.launches := rfl
@[simp] theorem State.setContext_nextLaunch (s : State) (i : Nat) (x : Context) : (s.setContext i x).nextLaunch = s.nextLaunch := rfl
@[simp] theorem State.setContext_cp (s : State) (i : Nat) (x : Context) : (s.setContext i x).cp = s.cp := rfl
@[simp] theorem State.setContext_pager (s : State) (i : Nat) (x : Context) : (s.setContext i x).pager = s.pager := rfl
@[simp] theorem State.setContext_fabric (s : State) (i : Nat) (x : Context) : (s.setContext i x).fabric = s.fabric := rfl
@[simp] theorem State.setContext_jobs (s : State) (i : Nat) (x : Context) : (s.setContext i x).jobs = s.jobs := rfl
@[simp] theorem State.setContext_nextJob (s : State) (i : Nat) (x : Context) : (s.setContext i x).nextJob = s.nextJob := rfl
@[simp] theorem State.setContext_host (s : State) (i : Nat) (x : Context) : (s.setContext i x).host = s.host := rfl
@[simp] theorem State.setContext_boot (s : State) (i : Nat) (x : Context) : (s.setContext i x).boot = s.boot := rfl

/-! ### State.modContext -/

@[simp] theorem State.modContext_agenda (s : State) (i : Nat) (f : Context → Context) : (s.modContext i f).agenda = s.agenda := rfl
@[simp] theorem State.modContext_curGid (s : State) (i : Nat) (f : Context → Context) : (s.modContext i f).curGid = s.curGid := rfl
@[simp] theorem State.modContext_curSlot (s : State) (i : Nat) (f : Context → Context) : (s.modContext i f).curSlot = s.curSlot := rfl
@[simp] theorem State.modContext_free (s : State) (i : Nat) (f : Context → Context) : (s.modContext i f).free = s.free := rfl
@[simp] theorem State.modContext_timeNs (s : State) (i : Nat) (f : Context → Context) : (s.modContext i f).timeNs = s.timeNs := rfl
@[simp] theorem State.modContext_cycle (s : State) (i : Nat) (f : Context → Context) : (s.modContext i f).cycle = s.cycle := rfl
@[simp] theorem State.modContext_mem (s : State) (i : Nat) (f : Context → Context) : (s.modContext i f).mem = s.mem := rfl
@[simp] theorem State.modContext_groups (s : State) (i : Nat) (f : Context → Context) : (s.modContext i f).groups = s.groups := rfl
@[simp] theorem State.modContext_nextGid (s : State) (i : Nat) (f : Context → Context) : (s.modContext i f).nextGid = s.nextGid := rfl
@[simp] theorem State.modContext_teams (s : State) (i : Nat) (f : Context → Context) : (s.modContext i f).teams = s.teams := rfl
@[simp] theorem State.modContext_nextTeam (s : State) (i : Nat) (f : Context → Context) : (s.modContext i f).nextTeam = s.nextTeam := rfl
@[simp] theorem State.modContext_lanePairs (s : State) (i : Nat) (f : Context → Context) : (s.modContext i f).lanePairs = s.lanePairs := rfl
@[simp] theorem State.modContext_cores (s : State) (i : Nat) (f : Context → Context) : (s.modContext i f).cores = s.cores := rfl
@[simp] theorem State.modContext_rings (s : State) (i : Nat) (f : Context → Context) : (s.modContext i f).rings = s.rings := rfl
@[simp] theorem State.modContext_queues (s : State) (i : Nat) (f : Context → Context) : (s.modContext i f).queues = s.queues := rfl
@[simp] theorem State.modContext_cmds (s : State) (i : Nat) (f : Context → Context) : (s.modContext i f).cmds = s.cmds := rfl
@[simp] theorem State.modContext_nextCmd (s : State) (i : Nat) (f : Context → Context) : (s.modContext i f).nextCmd = s.nextCmd := rfl
@[simp] theorem State.modContext_launches (s : State) (i : Nat) (f : Context → Context) : (s.modContext i f).launches = s.launches := rfl
@[simp] theorem State.modContext_nextLaunch (s : State) (i : Nat) (f : Context → Context) : (s.modContext i f).nextLaunch = s.nextLaunch := rfl
@[simp] theorem State.modContext_cp (s : State) (i : Nat) (f : Context → Context) : (s.modContext i f).cp = s.cp := rfl
@[simp] theorem State.modContext_pager (s : State) (i : Nat) (f : Context → Context) : (s.modContext i f).pager = s.pager := rfl
@[simp] theorem State.modContext_fabric (s : State) (i : Nat) (f : Context → Context) : (s.modContext i f).fabric = s.fabric := rfl
@[simp] theorem State.modContext_jobs (s : State) (i : Nat) (f : Context → Context) : (s.modContext i f).jobs = s.jobs := rfl
@[simp] theorem State.modContext_nextJob (s : State) (i : Nat) (f : Context → Context) : (s.modContext i f).nextJob = s.nextJob := rfl
@[simp] theorem State.modContext_host (s : State) (i : Nat) (f : Context → Context) : (s.modContext i f).host = s.host := rfl
@[simp] theorem State.modContext_boot (s : State) (i : Nat) (f : Context → Context) : (s.modContext i f).boot = s.boot := rfl

/-! ### State.setCore -/

@[simp] theorem State.setCore_agenda (s : State) (i : Nat) (x : Core) : (s.setCore i x).agenda = s.agenda := rfl
@[simp] theorem State.setCore_curGid (s : State) (i : Nat) (x : Core) : (s.setCore i x).curGid = s.curGid := rfl
@[simp] theorem State.setCore_curSlot (s : State) (i : Nat) (x : Core) : (s.setCore i x).curSlot = s.curSlot := rfl
@[simp] theorem State.setCore_free (s : State) (i : Nat) (x : Core) : (s.setCore i x).free = s.free := rfl
@[simp] theorem State.setCore_timeNs (s : State) (i : Nat) (x : Core) : (s.setCore i x).timeNs = s.timeNs := rfl
@[simp] theorem State.setCore_cycle (s : State) (i : Nat) (x : Core) : (s.setCore i x).cycle = s.cycle := rfl
@[simp] theorem State.setCore_mem (s : State) (i : Nat) (x : Core) : (s.setCore i x).mem = s.mem := rfl
@[simp] theorem State.setCore_groups (s : State) (i : Nat) (x : Core) : (s.setCore i x).groups = s.groups := rfl
@[simp] theorem State.setCore_nextGid (s : State) (i : Nat) (x : Core) : (s.setCore i x).nextGid = s.nextGid := rfl
@[simp] theorem State.setCore_teams (s : State) (i : Nat) (x : Core) : (s.setCore i x).teams = s.teams := rfl
@[simp] theorem State.setCore_nextTeam (s : State) (i : Nat) (x : Core) : (s.setCore i x).nextTeam = s.nextTeam := rfl
@[simp] theorem State.setCore_lanePairs (s : State) (i : Nat) (x : Core) : (s.setCore i x).lanePairs = s.lanePairs := rfl
@[simp] theorem State.setCore_rings (s : State) (i : Nat) (x : Core) : (s.setCore i x).rings = s.rings := rfl
@[simp] theorem State.setCore_contexts (s : State) (i : Nat) (x : Core) : (s.setCore i x).contexts = s.contexts := rfl
@[simp] theorem State.setCore_queues (s : State) (i : Nat) (x : Core) : (s.setCore i x).queues = s.queues := rfl
@[simp] theorem State.setCore_cmds (s : State) (i : Nat) (x : Core) : (s.setCore i x).cmds = s.cmds := rfl
@[simp] theorem State.setCore_nextCmd (s : State) (i : Nat) (x : Core) : (s.setCore i x).nextCmd = s.nextCmd := rfl
@[simp] theorem State.setCore_launches (s : State) (i : Nat) (x : Core) : (s.setCore i x).launches = s.launches := rfl
@[simp] theorem State.setCore_nextLaunch (s : State) (i : Nat) (x : Core) : (s.setCore i x).nextLaunch = s.nextLaunch := rfl
@[simp] theorem State.setCore_cp (s : State) (i : Nat) (x : Core) : (s.setCore i x).cp = s.cp := rfl
@[simp] theorem State.setCore_pager (s : State) (i : Nat) (x : Core) : (s.setCore i x).pager = s.pager := rfl
@[simp] theorem State.setCore_fabric (s : State) (i : Nat) (x : Core) : (s.setCore i x).fabric = s.fabric := rfl
@[simp] theorem State.setCore_jobs (s : State) (i : Nat) (x : Core) : (s.setCore i x).jobs = s.jobs := rfl
@[simp] theorem State.setCore_nextJob (s : State) (i : Nat) (x : Core) : (s.setCore i x).nextJob = s.nextJob := rfl
@[simp] theorem State.setCore_host (s : State) (i : Nat) (x : Core) : (s.setCore i x).host = s.host := rfl
@[simp] theorem State.setCore_boot (s : State) (i : Nat) (x : Core) : (s.setCore i x).boot = s.boot := rfl

/-! ### State.modCore -/

@[simp] theorem State.modCore_agenda (s : State) (i : Nat) (f : Core → Core) : (s.modCore i f).agenda = s.agenda := rfl
@[simp] theorem State.modCore_curGid (s : State) (i : Nat) (f : Core → Core) : (s.modCore i f).curGid = s.curGid := rfl
@[simp] theorem State.modCore_curSlot (s : State) (i : Nat) (f : Core → Core) : (s.modCore i f).curSlot = s.curSlot := rfl
@[simp] theorem State.modCore_free (s : State) (i : Nat) (f : Core → Core) : (s.modCore i f).free = s.free := rfl
@[simp] theorem State.modCore_timeNs (s : State) (i : Nat) (f : Core → Core) : (s.modCore i f).timeNs = s.timeNs := rfl
@[simp] theorem State.modCore_cycle (s : State) (i : Nat) (f : Core → Core) : (s.modCore i f).cycle = s.cycle := rfl
@[simp] theorem State.modCore_mem (s : State) (i : Nat) (f : Core → Core) : (s.modCore i f).mem = s.mem := rfl
@[simp] theorem State.modCore_groups (s : State) (i : Nat) (f : Core → Core) : (s.modCore i f).groups = s.groups := rfl
@[simp] theorem State.modCore_nextGid (s : State) (i : Nat) (f : Core → Core) : (s.modCore i f).nextGid = s.nextGid := rfl
@[simp] theorem State.modCore_teams (s : State) (i : Nat) (f : Core → Core) : (s.modCore i f).teams = s.teams := rfl
@[simp] theorem State.modCore_nextTeam (s : State) (i : Nat) (f : Core → Core) : (s.modCore i f).nextTeam = s.nextTeam := rfl
@[simp] theorem State.modCore_lanePairs (s : State) (i : Nat) (f : Core → Core) : (s.modCore i f).lanePairs = s.lanePairs := rfl
@[simp] theorem State.modCore_rings (s : State) (i : Nat) (f : Core → Core) : (s.modCore i f).rings = s.rings := rfl
@[simp] theorem State.modCore_contexts (s : State) (i : Nat) (f : Core → Core) : (s.modCore i f).contexts = s.contexts := rfl
@[simp] theorem State.modCore_queues (s : State) (i : Nat) (f : Core → Core) : (s.modCore i f).queues = s.queues := rfl
@[simp] theorem State.modCore_cmds (s : State) (i : Nat) (f : Core → Core) : (s.modCore i f).cmds = s.cmds := rfl
@[simp] theorem State.modCore_nextCmd (s : State) (i : Nat) (f : Core → Core) : (s.modCore i f).nextCmd = s.nextCmd := rfl
@[simp] theorem State.modCore_launches (s : State) (i : Nat) (f : Core → Core) : (s.modCore i f).launches = s.launches := rfl
@[simp] theorem State.modCore_nextLaunch (s : State) (i : Nat) (f : Core → Core) : (s.modCore i f).nextLaunch = s.nextLaunch := rfl
@[simp] theorem State.modCore_cp (s : State) (i : Nat) (f : Core → Core) : (s.modCore i f).cp = s.cp := rfl
@[simp] theorem State.modCore_pager (s : State) (i : Nat) (f : Core → Core) : (s.modCore i f).pager = s.pager := rfl
@[simp] theorem State.modCore_fabric (s : State) (i : Nat) (f : Core → Core) : (s.modCore i f).fabric = s.fabric := rfl
@[simp] theorem State.modCore_jobs (s : State) (i : Nat) (f : Core → Core) : (s.modCore i f).jobs = s.jobs := rfl
@[simp] theorem State.modCore_nextJob (s : State) (i : Nat) (f : Core → Core) : (s.modCore i f).nextJob = s.nextJob := rfl
@[simp] theorem State.modCore_host (s : State) (i : Nat) (f : Core → Core) : (s.modCore i f).host = s.host := rfl
@[simp] theorem State.modCore_boot (s : State) (i : Nat) (f : Core → Core) : (s.modCore i f).boot = s.boot := rfl

/-! ### State.setLanePair -/

@[simp] theorem State.setLanePair_agenda (s : State) (c p : Nat) (x : LanePair) : (s.setLanePair c p x).agenda = s.agenda := rfl
@[simp] theorem State.setLanePair_curGid (s : State) (c p : Nat) (x : LanePair) : (s.setLanePair c p x).curGid = s.curGid := rfl
@[simp] theorem State.setLanePair_curSlot (s : State) (c p : Nat) (x : LanePair) : (s.setLanePair c p x).curSlot = s.curSlot := rfl
@[simp] theorem State.setLanePair_free (s : State) (c p : Nat) (x : LanePair) : (s.setLanePair c p x).free = s.free := rfl
@[simp] theorem State.setLanePair_timeNs (s : State) (c p : Nat) (x : LanePair) : (s.setLanePair c p x).timeNs = s.timeNs := rfl
@[simp] theorem State.setLanePair_cycle (s : State) (c p : Nat) (x : LanePair) : (s.setLanePair c p x).cycle = s.cycle := rfl
@[simp] theorem State.setLanePair_mem (s : State) (c p : Nat) (x : LanePair) : (s.setLanePair c p x).mem = s.mem := rfl
@[simp] theorem State.setLanePair_groups (s : State) (c p : Nat) (x : LanePair) : (s.setLanePair c p x).groups = s.groups := rfl
@[simp] theorem State.setLanePair_nextGid (s : State) (c p : Nat) (x : LanePair) : (s.setLanePair c p x).nextGid = s.nextGid := rfl
@[simp] theorem State.setLanePair_teams (s : State) (c p : Nat) (x : LanePair) : (s.setLanePair c p x).teams = s.teams := rfl
@[simp] theorem State.setLanePair_nextTeam (s : State) (c p : Nat) (x : LanePair) : (s.setLanePair c p x).nextTeam = s.nextTeam := rfl
@[simp] theorem State.setLanePair_cores (s : State) (c p : Nat) (x : LanePair) : (s.setLanePair c p x).cores = s.cores := rfl
@[simp] theorem State.setLanePair_rings (s : State) (c p : Nat) (x : LanePair) : (s.setLanePair c p x).rings = s.rings := rfl
@[simp] theorem State.setLanePair_contexts (s : State) (c p : Nat) (x : LanePair) : (s.setLanePair c p x).contexts = s.contexts := rfl
@[simp] theorem State.setLanePair_queues (s : State) (c p : Nat) (x : LanePair) : (s.setLanePair c p x).queues = s.queues := rfl
@[simp] theorem State.setLanePair_cmds (s : State) (c p : Nat) (x : LanePair) : (s.setLanePair c p x).cmds = s.cmds := rfl
@[simp] theorem State.setLanePair_nextCmd (s : State) (c p : Nat) (x : LanePair) : (s.setLanePair c p x).nextCmd = s.nextCmd := rfl
@[simp] theorem State.setLanePair_launches (s : State) (c p : Nat) (x : LanePair) : (s.setLanePair c p x).launches = s.launches := rfl
@[simp] theorem State.setLanePair_nextLaunch (s : State) (c p : Nat) (x : LanePair) : (s.setLanePair c p x).nextLaunch = s.nextLaunch := rfl
@[simp] theorem State.setLanePair_cp (s : State) (c p : Nat) (x : LanePair) : (s.setLanePair c p x).cp = s.cp := rfl
@[simp] theorem State.setLanePair_pager (s : State) (c p : Nat) (x : LanePair) : (s.setLanePair c p x).pager = s.pager := rfl
@[simp] theorem State.setLanePair_fabric (s : State) (c p : Nat) (x : LanePair) : (s.setLanePair c p x).fabric = s.fabric := rfl
@[simp] theorem State.setLanePair_jobs (s : State) (c p : Nat) (x : LanePair) : (s.setLanePair c p x).jobs = s.jobs := rfl
@[simp] theorem State.setLanePair_nextJob (s : State) (c p : Nat) (x : LanePair) : (s.setLanePair c p x).nextJob = s.nextJob := rfl
@[simp] theorem State.setLanePair_host (s : State) (c p : Nat) (x : LanePair) : (s.setLanePair c p x).host = s.host := rfl
@[simp] theorem State.setLanePair_boot (s : State) (c p : Nat) (x : LanePair) : (s.setLanePair c p x).boot = s.boot := rfl

/-! ### State.setCurPair -/

@[simp] theorem State.setCurPair_agenda (s : State) (x : LanePair) : (s.setCurPair x).agenda = s.agenda := rfl
@[simp] theorem State.setCurPair_curGid (s : State) (x : LanePair) : (s.setCurPair x).curGid = s.curGid := rfl
@[simp] theorem State.setCurPair_curSlot (s : State) (x : LanePair) : (s.setCurPair x).curSlot = s.curSlot := rfl
@[simp] theorem State.setCurPair_free (s : State) (x : LanePair) : (s.setCurPair x).free = s.free := rfl
@[simp] theorem State.setCurPair_timeNs (s : State) (x : LanePair) : (s.setCurPair x).timeNs = s.timeNs := rfl
@[simp] theorem State.setCurPair_cycle (s : State) (x : LanePair) : (s.setCurPair x).cycle = s.cycle := rfl
@[simp] theorem State.setCurPair_mem (s : State) (x : LanePair) : (s.setCurPair x).mem = s.mem := rfl
@[simp] theorem State.setCurPair_groups (s : State) (x : LanePair) : (s.setCurPair x).groups = s.groups := rfl
@[simp] theorem State.setCurPair_nextGid (s : State) (x : LanePair) : (s.setCurPair x).nextGid = s.nextGid := rfl
@[simp] theorem State.setCurPair_teams (s : State) (x : LanePair) : (s.setCurPair x).teams = s.teams := rfl
@[simp] theorem State.setCurPair_nextTeam (s : State) (x : LanePair) : (s.setCurPair x).nextTeam = s.nextTeam := rfl
@[simp] theorem State.setCurPair_cores (s : State) (x : LanePair) : (s.setCurPair x).cores = s.cores := rfl
@[simp] theorem State.setCurPair_rings (s : State) (x : LanePair) : (s.setCurPair x).rings = s.rings := rfl
@[simp] theorem State.setCurPair_contexts (s : State) (x : LanePair) : (s.setCurPair x).contexts = s.contexts := rfl
@[simp] theorem State.setCurPair_queues (s : State) (x : LanePair) : (s.setCurPair x).queues = s.queues := rfl
@[simp] theorem State.setCurPair_cmds (s : State) (x : LanePair) : (s.setCurPair x).cmds = s.cmds := rfl
@[simp] theorem State.setCurPair_nextCmd (s : State) (x : LanePair) : (s.setCurPair x).nextCmd = s.nextCmd := rfl
@[simp] theorem State.setCurPair_launches (s : State) (x : LanePair) : (s.setCurPair x).launches = s.launches := rfl
@[simp] theorem State.setCurPair_nextLaunch (s : State) (x : LanePair) : (s.setCurPair x).nextLaunch = s.nextLaunch := rfl
@[simp] theorem State.setCurPair_cp (s : State) (x : LanePair) : (s.setCurPair x).cp = s.cp := rfl
@[simp] theorem State.setCurPair_pager (s : State) (x : LanePair) : (s.setCurPair x).pager = s.pager := rfl
@[simp] theorem State.setCurPair_fabric (s : State) (x : LanePair) : (s.setCurPair x).fabric = s.fabric := rfl
@[simp] theorem State.setCurPair_jobs (s : State) (x : LanePair) : (s.setCurPair x).jobs = s.jobs := rfl
@[simp] theorem State.setCurPair_nextJob (s : State) (x : LanePair) : (s.setCurPair x).nextJob = s.nextJob := rfl
@[simp] theorem State.setCurPair_host (s : State) (x : LanePair) : (s.setCurPair x).host = s.host := rfl
@[simp] theorem State.setCurPair_boot (s : State) (x : LanePair) : (s.setCurPair x).boot = s.boot := rfl

/-! ### State.setQueue -/

@[simp] theorem State.setQueue_agenda (s : State) (q : Nat) (x : Queue) : (s.setQueue q x).agenda = s.agenda := rfl
@[simp] theorem State.setQueue_curGid (s : State) (q : Nat) (x : Queue) : (s.setQueue q x).curGid = s.curGid := rfl
@[simp] theorem State.setQueue_curSlot (s : State) (q : Nat) (x : Queue) : (s.setQueue q x).curSlot = s.curSlot := rfl
@[simp] theorem State.setQueue_free (s : State) (q : Nat) (x : Queue) : (s.setQueue q x).free = s.free := rfl
@[simp] theorem State.setQueue_timeNs (s : State) (q : Nat) (x : Queue) : (s.setQueue q x).timeNs = s.timeNs := rfl
@[simp] theorem State.setQueue_cycle (s : State) (q : Nat) (x : Queue) : (s.setQueue q x).cycle = s.cycle := rfl
@[simp] theorem State.setQueue_mem (s : State) (q : Nat) (x : Queue) : (s.setQueue q x).mem = s.mem := rfl
@[simp] theorem State.setQueue_groups (s : State) (q : Nat) (x : Queue) : (s.setQueue q x).groups = s.groups := rfl
@[simp] theorem State.setQueue_nextGid (s : State) (q : Nat) (x : Queue) : (s.setQueue q x).nextGid = s.nextGid := rfl
@[simp] theorem State.setQueue_teams (s : State) (q : Nat) (x : Queue) : (s.setQueue q x).teams = s.teams := rfl
@[simp] theorem State.setQueue_nextTeam (s : State) (q : Nat) (x : Queue) : (s.setQueue q x).nextTeam = s.nextTeam := rfl
@[simp] theorem State.setQueue_lanePairs (s : State) (q : Nat) (x : Queue) : (s.setQueue q x).lanePairs = s.lanePairs := rfl
@[simp] theorem State.setQueue_cores (s : State) (q : Nat) (x : Queue) : (s.setQueue q x).cores = s.cores := rfl
@[simp] theorem State.setQueue_rings (s : State) (q : Nat) (x : Queue) : (s.setQueue q x).rings = s.rings := rfl
@[simp] theorem State.setQueue_contexts (s : State) (q : Nat) (x : Queue) : (s.setQueue q x).contexts = s.contexts := rfl
@[simp] theorem State.setQueue_cmds (s : State) (q : Nat) (x : Queue) : (s.setQueue q x).cmds = s.cmds := rfl
@[simp] theorem State.setQueue_nextCmd (s : State) (q : Nat) (x : Queue) : (s.setQueue q x).nextCmd = s.nextCmd := rfl
@[simp] theorem State.setQueue_launches (s : State) (q : Nat) (x : Queue) : (s.setQueue q x).launches = s.launches := rfl
@[simp] theorem State.setQueue_nextLaunch (s : State) (q : Nat) (x : Queue) : (s.setQueue q x).nextLaunch = s.nextLaunch := rfl
@[simp] theorem State.setQueue_cp (s : State) (q : Nat) (x : Queue) : (s.setQueue q x).cp = s.cp := rfl
@[simp] theorem State.setQueue_pager (s : State) (q : Nat) (x : Queue) : (s.setQueue q x).pager = s.pager := rfl
@[simp] theorem State.setQueue_fabric (s : State) (q : Nat) (x : Queue) : (s.setQueue q x).fabric = s.fabric := rfl
@[simp] theorem State.setQueue_jobs (s : State) (q : Nat) (x : Queue) : (s.setQueue q x).jobs = s.jobs := rfl
@[simp] theorem State.setQueue_nextJob (s : State) (q : Nat) (x : Queue) : (s.setQueue q x).nextJob = s.nextJob := rfl
@[simp] theorem State.setQueue_host (s : State) (q : Nat) (x : Queue) : (s.setQueue q x).host = s.host := rfl
@[simp] theorem State.setQueue_boot (s : State) (q : Nat) (x : Queue) : (s.setQueue q x).boot = s.boot := rfl

/-! ### State.modSplit -/

@[simp] theorem State.modSplit_agenda (s : State) (f : Split → Split) : (s.modSplit f).agenda = s.agenda := rfl
@[simp] theorem State.modSplit_curGid (s : State) (f : Split → Split) : (s.modSplit f).curGid = s.curGid := rfl
@[simp] theorem State.modSplit_curSlot (s : State) (f : Split → Split) : (s.modSplit f).curSlot = s.curSlot := rfl
@[simp] theorem State.modSplit_free (s : State) (f : Split → Split) : (s.modSplit f).free = s.free := rfl
@[simp] theorem State.modSplit_timeNs (s : State) (f : Split → Split) : (s.modSplit f).timeNs = s.timeNs := rfl
@[simp] theorem State.modSplit_cycle (s : State) (f : Split → Split) : (s.modSplit f).cycle = s.cycle := rfl
@[simp] theorem State.modSplit_mem (s : State) (f : Split → Split) : (s.modSplit f).mem = s.mem := rfl
@[simp] theorem State.modSplit_nextGid (s : State) (f : Split → Split) : (s.modSplit f).nextGid = s.nextGid := rfl
@[simp] theorem State.modSplit_teams (s : State) (f : Split → Split) : (s.modSplit f).teams = s.teams := rfl
@[simp] theorem State.modSplit_nextTeam (s : State) (f : Split → Split) : (s.modSplit f).nextTeam = s.nextTeam := rfl
@[simp] theorem State.modSplit_lanePairs (s : State) (f : Split → Split) : (s.modSplit f).lanePairs = s.lanePairs := rfl
@[simp] theorem State.modSplit_cores (s : State) (f : Split → Split) : (s.modSplit f).cores = s.cores := rfl
@[simp] theorem State.modSplit_rings (s : State) (f : Split → Split) : (s.modSplit f).rings = s.rings := rfl
@[simp] theorem State.modSplit_contexts (s : State) (f : Split → Split) : (s.modSplit f).contexts = s.contexts := rfl
@[simp] theorem State.modSplit_queues (s : State) (f : Split → Split) : (s.modSplit f).queues = s.queues := rfl
@[simp] theorem State.modSplit_cmds (s : State) (f : Split → Split) : (s.modSplit f).cmds = s.cmds := rfl
@[simp] theorem State.modSplit_nextCmd (s : State) (f : Split → Split) : (s.modSplit f).nextCmd = s.nextCmd := rfl
@[simp] theorem State.modSplit_launches (s : State) (f : Split → Split) : (s.modSplit f).launches = s.launches := rfl
@[simp] theorem State.modSplit_nextLaunch (s : State) (f : Split → Split) : (s.modSplit f).nextLaunch = s.nextLaunch := rfl
@[simp] theorem State.modSplit_cp (s : State) (f : Split → Split) : (s.modSplit f).cp = s.cp := rfl
@[simp] theorem State.modSplit_pager (s : State) (f : Split → Split) : (s.modSplit f).pager = s.pager := rfl
@[simp] theorem State.modSplit_fabric (s : State) (f : Split → Split) : (s.modSplit f).fabric = s.fabric := rfl
@[simp] theorem State.modSplit_jobs (s : State) (f : Split → Split) : (s.modSplit f).jobs = s.jobs := rfl
@[simp] theorem State.modSplit_nextJob (s : State) (f : Split → Split) : (s.modSplit f).nextJob = s.nextJob := rfl
@[simp] theorem State.modSplit_host (s : State) (f : Split → Split) : (s.modSplit f).host = s.host := rfl
@[simp] theorem State.modSplit_boot (s : State) (f : Split → Split) : (s.modSplit f).boot = s.boot := rfl

/-! ### State.teamEvent -/

@[simp] theorem State.teamEvent_agenda (s : State) (i : Nat) : (s.teamEvent i).agenda = s.agenda := rfl
@[simp] theorem State.teamEvent_curGid (s : State) (i : Nat) : (s.teamEvent i).curGid = s.curGid := rfl
@[simp] theorem State.teamEvent_curSlot (s : State) (i : Nat) : (s.teamEvent i).curSlot = s.curSlot := rfl
@[simp] theorem State.teamEvent_free (s : State) (i : Nat) : (s.teamEvent i).free = s.free := rfl
@[simp] theorem State.teamEvent_timeNs (s : State) (i : Nat) : (s.teamEvent i).timeNs = s.timeNs := rfl
@[simp] theorem State.teamEvent_cycle (s : State) (i : Nat) : (s.teamEvent i).cycle = s.cycle := rfl
@[simp] theorem State.teamEvent_mem (s : State) (i : Nat) : (s.teamEvent i).mem = s.mem := rfl
@[simp] theorem State.teamEvent_nextGid (s : State) (i : Nat) : (s.teamEvent i).nextGid = s.nextGid := rfl
@[simp] theorem State.teamEvent_teams (s : State) (i : Nat) : (s.teamEvent i).teams = s.teams := rfl
@[simp] theorem State.teamEvent_nextTeam (s : State) (i : Nat) : (s.teamEvent i).nextTeam = s.nextTeam := rfl
@[simp] theorem State.teamEvent_lanePairs (s : State) (i : Nat) : (s.teamEvent i).lanePairs = s.lanePairs := rfl
@[simp] theorem State.teamEvent_cores (s : State) (i : Nat) : (s.teamEvent i).cores = s.cores := rfl
@[simp] theorem State.teamEvent_rings (s : State) (i : Nat) : (s.teamEvent i).rings = s.rings := rfl
@[simp] theorem State.teamEvent_contexts (s : State) (i : Nat) : (s.teamEvent i).contexts = s.contexts := rfl
@[simp] theorem State.teamEvent_queues (s : State) (i : Nat) : (s.teamEvent i).queues = s.queues := rfl
@[simp] theorem State.teamEvent_cmds (s : State) (i : Nat) : (s.teamEvent i).cmds = s.cmds := rfl
@[simp] theorem State.teamEvent_nextCmd (s : State) (i : Nat) : (s.teamEvent i).nextCmd = s.nextCmd := rfl
@[simp] theorem State.teamEvent_launches (s : State) (i : Nat) : (s.teamEvent i).launches = s.launches := rfl
@[simp] theorem State.teamEvent_nextLaunch (s : State) (i : Nat) : (s.teamEvent i).nextLaunch = s.nextLaunch := rfl
@[simp] theorem State.teamEvent_cp (s : State) (i : Nat) : (s.teamEvent i).cp = s.cp := rfl
@[simp] theorem State.teamEvent_pager (s : State) (i : Nat) : (s.teamEvent i).pager = s.pager := rfl
@[simp] theorem State.teamEvent_fabric (s : State) (i : Nat) : (s.teamEvent i).fabric = s.fabric := rfl
@[simp] theorem State.teamEvent_jobs (s : State) (i : Nat) : (s.teamEvent i).jobs = s.jobs := rfl
@[simp] theorem State.teamEvent_nextJob (s : State) (i : Nat) : (s.teamEvent i).nextJob = s.nextJob := rfl
@[simp] theorem State.teamEvent_host (s : State) (i : Nat) : (s.teamEvent i).host = s.host := rfl
@[simp] theorem State.teamEvent_boot (s : State) (i : Nat) : (s.teamEvent i).boot = s.boot := rfl

/-! ### State.freeLanes -/

@[simp] theorem State.freeLanes_agenda (s : State) (f : Nat × Nat → Bool) : (s.freeLanes f).agenda = s.agenda := rfl
@[simp] theorem State.freeLanes_curGid (s : State) (f : Nat × Nat → Bool) : (s.freeLanes f).curGid = s.curGid := rfl
@[simp] theorem State.freeLanes_curSlot (s : State) (f : Nat × Nat → Bool) : (s.freeLanes f).curSlot = s.curSlot := rfl
@[simp] theorem State.freeLanes_free (s : State) (f : Nat × Nat → Bool) : (s.freeLanes f).free = s.free := rfl
@[simp] theorem State.freeLanes_timeNs (s : State) (f : Nat × Nat → Bool) : (s.freeLanes f).timeNs = s.timeNs := rfl
@[simp] theorem State.freeLanes_cycle (s : State) (f : Nat × Nat → Bool) : (s.freeLanes f).cycle = s.cycle := rfl
@[simp] theorem State.freeLanes_mem (s : State) (f : Nat × Nat → Bool) : (s.freeLanes f).mem = s.mem := rfl
@[simp] theorem State.freeLanes_groups (s : State) (f : Nat × Nat → Bool) : (s.freeLanes f).groups = s.groups := rfl
@[simp] theorem State.freeLanes_nextGid (s : State) (f : Nat × Nat → Bool) : (s.freeLanes f).nextGid = s.nextGid := rfl
@[simp] theorem State.freeLanes_teams (s : State) (f : Nat × Nat → Bool) : (s.freeLanes f).teams = s.teams := rfl
@[simp] theorem State.freeLanes_nextTeam (s : State) (f : Nat × Nat → Bool) : (s.freeLanes f).nextTeam = s.nextTeam := rfl
@[simp] theorem State.freeLanes_cores (s : State) (f : Nat × Nat → Bool) : (s.freeLanes f).cores = s.cores := rfl
@[simp] theorem State.freeLanes_rings (s : State) (f : Nat × Nat → Bool) : (s.freeLanes f).rings = s.rings := rfl
@[simp] theorem State.freeLanes_contexts (s : State) (f : Nat × Nat → Bool) : (s.freeLanes f).contexts = s.contexts := rfl
@[simp] theorem State.freeLanes_queues (s : State) (f : Nat × Nat → Bool) : (s.freeLanes f).queues = s.queues := rfl
@[simp] theorem State.freeLanes_cmds (s : State) (f : Nat × Nat → Bool) : (s.freeLanes f).cmds = s.cmds := rfl
@[simp] theorem State.freeLanes_nextCmd (s : State) (f : Nat × Nat → Bool) : (s.freeLanes f).nextCmd = s.nextCmd := rfl
@[simp] theorem State.freeLanes_launches (s : State) (f : Nat × Nat → Bool) : (s.freeLanes f).launches = s.launches := rfl
@[simp] theorem State.freeLanes_nextLaunch (s : State) (f : Nat × Nat → Bool) : (s.freeLanes f).nextLaunch = s.nextLaunch := rfl
@[simp] theorem State.freeLanes_cp (s : State) (f : Nat × Nat → Bool) : (s.freeLanes f).cp = s.cp := rfl
@[simp] theorem State.freeLanes_pager (s : State) (f : Nat × Nat → Bool) : (s.freeLanes f).pager = s.pager := rfl
@[simp] theorem State.freeLanes_fabric (s : State) (f : Nat × Nat → Bool) : (s.freeLanes f).fabric = s.fabric := rfl
@[simp] theorem State.freeLanes_jobs (s : State) (f : Nat × Nat → Bool) : (s.freeLanes f).jobs = s.jobs := rfl
@[simp] theorem State.freeLanes_nextJob (s : State) (f : Nat × Nat → Bool) : (s.freeLanes f).nextJob = s.nextJob := rfl
@[simp] theorem State.freeLanes_host (s : State) (f : Nat × Nat → Bool) : (s.freeLanes f).host = s.host := rfl
@[simp] theorem State.freeLanes_boot (s : State) (f : Nat × Nat → Bool) : (s.freeLanes f).boot = s.boot := rfl

/-! ### State.offLane -/

@[simp] theorem State.offLane_agenda (s : State) : (s.offLane).agenda = s.agenda := rfl
@[simp] theorem State.offLane_curGid (s : State) : (s.offLane).curGid = s.curGid := rfl
@[simp] theorem State.offLane_curSlot (s : State) : (s.offLane).curSlot = s.curSlot := rfl
@[simp] theorem State.offLane_free (s : State) : (s.offLane).free = s.free := rfl
@[simp] theorem State.offLane_timeNs (s : State) : (s.offLane).timeNs = s.timeNs := rfl
@[simp] theorem State.offLane_cycle (s : State) : (s.offLane).cycle = s.cycle := rfl
@[simp] theorem State.offLane_mem (s : State) : (s.offLane).mem = s.mem := rfl
@[simp] theorem State.offLane_groups (s : State) : (s.offLane).groups = s.groups := rfl
@[simp] theorem State.offLane_nextGid (s : State) : (s.offLane).nextGid = s.nextGid := rfl
@[simp] theorem State.offLane_teams (s : State) : (s.offLane).teams = s.teams := rfl
@[simp] theorem State.offLane_nextTeam (s : State) : (s.offLane).nextTeam = s.nextTeam := rfl
@[simp] theorem State.offLane_cores (s : State) : (s.offLane).cores = s.cores := rfl
@[simp] theorem State.offLane_rings (s : State) : (s.offLane).rings = s.rings := rfl
@[simp] theorem State.offLane_contexts (s : State) : (s.offLane).contexts = s.contexts := rfl
@[simp] theorem State.offLane_queues (s : State) : (s.offLane).queues = s.queues := rfl
@[simp] theorem State.offLane_cmds (s : State) : (s.offLane).cmds = s.cmds := rfl
@[simp] theorem State.offLane_nextCmd (s : State) : (s.offLane).nextCmd = s.nextCmd := rfl
@[simp] theorem State.offLane_launches (s : State) : (s.offLane).launches = s.launches := rfl
@[simp] theorem State.offLane_nextLaunch (s : State) : (s.offLane).nextLaunch = s.nextLaunch := rfl
@[simp] theorem State.offLane_cp (s : State) : (s.offLane).cp = s.cp := rfl
@[simp] theorem State.offLane_pager (s : State) : (s.offLane).pager = s.pager := rfl
@[simp] theorem State.offLane_fabric (s : State) : (s.offLane).fabric = s.fabric := rfl
@[simp] theorem State.offLane_jobs (s : State) : (s.offLane).jobs = s.jobs := rfl
@[simp] theorem State.offLane_nextJob (s : State) : (s.offLane).nextJob = s.nextJob := rfl
@[simp] theorem State.offLane_host (s : State) : (s.offLane).host = s.host := rfl
@[simp] theorem State.offLane_boot (s : State) : (s.offLane).boot = s.boot := rfl

/-! ### State.swrite -/

@[simp] theorem State.swrite_agenda (s : State) (r : BitVec 6) (v : W64) : (s.swrite r v).agenda = s.agenda := rfl
@[simp] theorem State.swrite_curGid (s : State) (r : BitVec 6) (v : W64) : (s.swrite r v).curGid = s.curGid := rfl
@[simp] theorem State.swrite_curSlot (s : State) (r : BitVec 6) (v : W64) : (s.swrite r v).curSlot = s.curSlot := rfl
@[simp] theorem State.swrite_free (s : State) (r : BitVec 6) (v : W64) : (s.swrite r v).free = s.free := rfl
@[simp] theorem State.swrite_timeNs (s : State) (r : BitVec 6) (v : W64) : (s.swrite r v).timeNs = s.timeNs := rfl
@[simp] theorem State.swrite_cycle (s : State) (r : BitVec 6) (v : W64) : (s.swrite r v).cycle = s.cycle := rfl
@[simp] theorem State.swrite_mem (s : State) (r : BitVec 6) (v : W64) : (s.swrite r v).mem = s.mem := rfl
@[simp] theorem State.swrite_nextGid (s : State) (r : BitVec 6) (v : W64) : (s.swrite r v).nextGid = s.nextGid := rfl
@[simp] theorem State.swrite_teams (s : State) (r : BitVec 6) (v : W64) : (s.swrite r v).teams = s.teams := rfl
@[simp] theorem State.swrite_nextTeam (s : State) (r : BitVec 6) (v : W64) : (s.swrite r v).nextTeam = s.nextTeam := rfl
@[simp] theorem State.swrite_lanePairs (s : State) (r : BitVec 6) (v : W64) : (s.swrite r v).lanePairs = s.lanePairs := rfl
@[simp] theorem State.swrite_cores (s : State) (r : BitVec 6) (v : W64) : (s.swrite r v).cores = s.cores := rfl
@[simp] theorem State.swrite_rings (s : State) (r : BitVec 6) (v : W64) : (s.swrite r v).rings = s.rings := rfl
@[simp] theorem State.swrite_contexts (s : State) (r : BitVec 6) (v : W64) : (s.swrite r v).contexts = s.contexts := rfl
@[simp] theorem State.swrite_queues (s : State) (r : BitVec 6) (v : W64) : (s.swrite r v).queues = s.queues := rfl
@[simp] theorem State.swrite_cmds (s : State) (r : BitVec 6) (v : W64) : (s.swrite r v).cmds = s.cmds := rfl
@[simp] theorem State.swrite_nextCmd (s : State) (r : BitVec 6) (v : W64) : (s.swrite r v).nextCmd = s.nextCmd := rfl
@[simp] theorem State.swrite_launches (s : State) (r : BitVec 6) (v : W64) : (s.swrite r v).launches = s.launches := rfl
@[simp] theorem State.swrite_nextLaunch (s : State) (r : BitVec 6) (v : W64) : (s.swrite r v).nextLaunch = s.nextLaunch := rfl
@[simp] theorem State.swrite_cp (s : State) (r : BitVec 6) (v : W64) : (s.swrite r v).cp = s.cp := rfl
@[simp] theorem State.swrite_pager (s : State) (r : BitVec 6) (v : W64) : (s.swrite r v).pager = s.pager := rfl
@[simp] theorem State.swrite_fabric (s : State) (r : BitVec 6) (v : W64) : (s.swrite r v).fabric = s.fabric := rfl
@[simp] theorem State.swrite_jobs (s : State) (r : BitVec 6) (v : W64) : (s.swrite r v).jobs = s.jobs := rfl
@[simp] theorem State.swrite_nextJob (s : State) (r : BitVec 6) (v : W64) : (s.swrite r v).nextJob = s.nextJob := rfl
@[simp] theorem State.swrite_host (s : State) (r : BitVec 6) (v : W64) : (s.swrite r v).host = s.host := rfl
@[simp] theorem State.swrite_boot (s : State) (r : BitVec 6) (v : W64) : (s.swrite r v).boot = s.boot := rfl

/-! ### State.bump -/

@[simp] theorem State.bump_agenda (s : State) : (s.bump).agenda = s.agenda := rfl
@[simp] theorem State.bump_curGid (s : State) : (s.bump).curGid = s.curGid := rfl
@[simp] theorem State.bump_curSlot (s : State) : (s.bump).curSlot = s.curSlot := rfl
@[simp] theorem State.bump_free (s : State) : (s.bump).free = s.free := rfl
@[simp] theorem State.bump_timeNs (s : State) : (s.bump).timeNs = s.timeNs := rfl
@[simp] theorem State.bump_cycle (s : State) : (s.bump).cycle = s.cycle := rfl
@[simp] theorem State.bump_mem (s : State) : (s.bump).mem = s.mem := rfl
@[simp] theorem State.bump_nextGid (s : State) : (s.bump).nextGid = s.nextGid := rfl
@[simp] theorem State.bump_teams (s : State) : (s.bump).teams = s.teams := rfl
@[simp] theorem State.bump_nextTeam (s : State) : (s.bump).nextTeam = s.nextTeam := rfl
@[simp] theorem State.bump_lanePairs (s : State) : (s.bump).lanePairs = s.lanePairs := rfl
@[simp] theorem State.bump_cores (s : State) : (s.bump).cores = s.cores := rfl
@[simp] theorem State.bump_rings (s : State) : (s.bump).rings = s.rings := rfl
@[simp] theorem State.bump_contexts (s : State) : (s.bump).contexts = s.contexts := rfl
@[simp] theorem State.bump_queues (s : State) : (s.bump).queues = s.queues := rfl
@[simp] theorem State.bump_cmds (s : State) : (s.bump).cmds = s.cmds := rfl
@[simp] theorem State.bump_nextCmd (s : State) : (s.bump).nextCmd = s.nextCmd := rfl
@[simp] theorem State.bump_launches (s : State) : (s.bump).launches = s.launches := rfl
@[simp] theorem State.bump_nextLaunch (s : State) : (s.bump).nextLaunch = s.nextLaunch := rfl
@[simp] theorem State.bump_cp (s : State) : (s.bump).cp = s.cp := rfl
@[simp] theorem State.bump_pager (s : State) : (s.bump).pager = s.pager := rfl
@[simp] theorem State.bump_fabric (s : State) : (s.bump).fabric = s.fabric := rfl
@[simp] theorem State.bump_jobs (s : State) : (s.bump).jobs = s.jobs := rfl
@[simp] theorem State.bump_nextJob (s : State) : (s.bump).nextJob = s.nextJob := rfl
@[simp] theorem State.bump_host (s : State) : (s.bump).host = s.host := rfl
@[simp] theorem State.bump_boot (s : State) : (s.bump).boot = s.boot := rfl

/-! ### State.sput -/

@[simp] theorem State.sput_agenda (s : State) (r : BitVec 6) (v : W64) : (s.sput r v).agenda = s.agenda := rfl
@[simp] theorem State.sput_curGid (s : State) (r : BitVec 6) (v : W64) : (s.sput r v).curGid = s.curGid := rfl
@[simp] theorem State.sput_curSlot (s : State) (r : BitVec 6) (v : W64) : (s.sput r v).curSlot = s.curSlot := rfl
@[simp] theorem State.sput_free (s : State) (r : BitVec 6) (v : W64) : (s.sput r v).free = s.free := rfl
@[simp] theorem State.sput_timeNs (s : State) (r : BitVec 6) (v : W64) : (s.sput r v).timeNs = s.timeNs := rfl
@[simp] theorem State.sput_cycle (s : State) (r : BitVec 6) (v : W64) : (s.sput r v).cycle = s.cycle := rfl
@[simp] theorem State.sput_mem (s : State) (r : BitVec 6) (v : W64) : (s.sput r v).mem = s.mem := rfl
@[simp] theorem State.sput_nextGid (s : State) (r : BitVec 6) (v : W64) : (s.sput r v).nextGid = s.nextGid := rfl
@[simp] theorem State.sput_teams (s : State) (r : BitVec 6) (v : W64) : (s.sput r v).teams = s.teams := rfl
@[simp] theorem State.sput_nextTeam (s : State) (r : BitVec 6) (v : W64) : (s.sput r v).nextTeam = s.nextTeam := rfl
@[simp] theorem State.sput_lanePairs (s : State) (r : BitVec 6) (v : W64) : (s.sput r v).lanePairs = s.lanePairs := rfl
@[simp] theorem State.sput_cores (s : State) (r : BitVec 6) (v : W64) : (s.sput r v).cores = s.cores := rfl
@[simp] theorem State.sput_rings (s : State) (r : BitVec 6) (v : W64) : (s.sput r v).rings = s.rings := rfl
@[simp] theorem State.sput_contexts (s : State) (r : BitVec 6) (v : W64) : (s.sput r v).contexts = s.contexts := rfl
@[simp] theorem State.sput_queues (s : State) (r : BitVec 6) (v : W64) : (s.sput r v).queues = s.queues := rfl
@[simp] theorem State.sput_cmds (s : State) (r : BitVec 6) (v : W64) : (s.sput r v).cmds = s.cmds := rfl
@[simp] theorem State.sput_nextCmd (s : State) (r : BitVec 6) (v : W64) : (s.sput r v).nextCmd = s.nextCmd := rfl
@[simp] theorem State.sput_launches (s : State) (r : BitVec 6) (v : W64) : (s.sput r v).launches = s.launches := rfl
@[simp] theorem State.sput_nextLaunch (s : State) (r : BitVec 6) (v : W64) : (s.sput r v).nextLaunch = s.nextLaunch := rfl
@[simp] theorem State.sput_cp (s : State) (r : BitVec 6) (v : W64) : (s.sput r v).cp = s.cp := rfl
@[simp] theorem State.sput_pager (s : State) (r : BitVec 6) (v : W64) : (s.sput r v).pager = s.pager := rfl
@[simp] theorem State.sput_fabric (s : State) (r : BitVec 6) (v : W64) : (s.sput r v).fabric = s.fabric := rfl
@[simp] theorem State.sput_jobs (s : State) (r : BitVec 6) (v : W64) : (s.sput r v).jobs = s.jobs := rfl
@[simp] theorem State.sput_nextJob (s : State) (r : BitVec 6) (v : W64) : (s.sput r v).nextJob = s.nextJob := rfl
@[simp] theorem State.sput_host (s : State) (r : BitVec 6) (v : W64) : (s.sput r v).host = s.host := rfl
@[simp] theorem State.sput_boot (s : State) (r : BitVec 6) (v : W64) : (s.sput r v).boot = s.boot := rfl

/-! ### State.sjump -/

@[simp] theorem State.sjump_agenda (s : State) (pc : W64) : (s.sjump pc).agenda = s.agenda := rfl
@[simp] theorem State.sjump_curGid (s : State) (pc : W64) : (s.sjump pc).curGid = s.curGid := rfl
@[simp] theorem State.sjump_curSlot (s : State) (pc : W64) : (s.sjump pc).curSlot = s.curSlot := rfl
@[simp] theorem State.sjump_free (s : State) (pc : W64) : (s.sjump pc).free = s.free := rfl
@[simp] theorem State.sjump_timeNs (s : State) (pc : W64) : (s.sjump pc).timeNs = s.timeNs := rfl
@[simp] theorem State.sjump_cycle (s : State) (pc : W64) : (s.sjump pc).cycle = s.cycle := rfl
@[simp] theorem State.sjump_mem (s : State) (pc : W64) : (s.sjump pc).mem = s.mem := rfl
@[simp] theorem State.sjump_nextGid (s : State) (pc : W64) : (s.sjump pc).nextGid = s.nextGid := rfl
@[simp] theorem State.sjump_teams (s : State) (pc : W64) : (s.sjump pc).teams = s.teams := rfl
@[simp] theorem State.sjump_nextTeam (s : State) (pc : W64) : (s.sjump pc).nextTeam = s.nextTeam := rfl
@[simp] theorem State.sjump_lanePairs (s : State) (pc : W64) : (s.sjump pc).lanePairs = s.lanePairs := rfl
@[simp] theorem State.sjump_cores (s : State) (pc : W64) : (s.sjump pc).cores = s.cores := rfl
@[simp] theorem State.sjump_rings (s : State) (pc : W64) : (s.sjump pc).rings = s.rings := rfl
@[simp] theorem State.sjump_contexts (s : State) (pc : W64) : (s.sjump pc).contexts = s.contexts := rfl
@[simp] theorem State.sjump_queues (s : State) (pc : W64) : (s.sjump pc).queues = s.queues := rfl
@[simp] theorem State.sjump_cmds (s : State) (pc : W64) : (s.sjump pc).cmds = s.cmds := rfl
@[simp] theorem State.sjump_nextCmd (s : State) (pc : W64) : (s.sjump pc).nextCmd = s.nextCmd := rfl
@[simp] theorem State.sjump_launches (s : State) (pc : W64) : (s.sjump pc).launches = s.launches := rfl
@[simp] theorem State.sjump_nextLaunch (s : State) (pc : W64) : (s.sjump pc).nextLaunch = s.nextLaunch := rfl
@[simp] theorem State.sjump_cp (s : State) (pc : W64) : (s.sjump pc).cp = s.cp := rfl
@[simp] theorem State.sjump_pager (s : State) (pc : W64) : (s.sjump pc).pager = s.pager := rfl
@[simp] theorem State.sjump_fabric (s : State) (pc : W64) : (s.sjump pc).fabric = s.fabric := rfl
@[simp] theorem State.sjump_jobs (s : State) (pc : W64) : (s.sjump pc).jobs = s.jobs := rfl
@[simp] theorem State.sjump_nextJob (s : State) (pc : W64) : (s.sjump pc).nextJob = s.nextJob := rfl
@[simp] theorem State.sjump_host (s : State) (pc : W64) : (s.sjump pc).host = s.host := rfl
@[simp] theorem State.sjump_boot (s : State) (pc : W64) : (s.sjump pc).boot = s.boot := rfl

/-! ### State.swaitOn -/

@[simp] theorem State.swaitOn_agenda (s : State) (w : SWait) : (s.swaitOn w).agenda = s.agenda := rfl
@[simp] theorem State.swaitOn_curGid (s : State) (w : SWait) : (s.swaitOn w).curGid = s.curGid := rfl
@[simp] theorem State.swaitOn_curSlot (s : State) (w : SWait) : (s.swaitOn w).curSlot = s.curSlot := rfl
@[simp] theorem State.swaitOn_free (s : State) (w : SWait) : (s.swaitOn w).free = s.free := rfl
@[simp] theorem State.swaitOn_timeNs (s : State) (w : SWait) : (s.swaitOn w).timeNs = s.timeNs := rfl
@[simp] theorem State.swaitOn_cycle (s : State) (w : SWait) : (s.swaitOn w).cycle = s.cycle := rfl
@[simp] theorem State.swaitOn_mem (s : State) (w : SWait) : (s.swaitOn w).mem = s.mem := rfl
@[simp] theorem State.swaitOn_nextGid (s : State) (w : SWait) : (s.swaitOn w).nextGid = s.nextGid := rfl
@[simp] theorem State.swaitOn_teams (s : State) (w : SWait) : (s.swaitOn w).teams = s.teams := rfl
@[simp] theorem State.swaitOn_nextTeam (s : State) (w : SWait) : (s.swaitOn w).nextTeam = s.nextTeam := rfl
@[simp] theorem State.swaitOn_lanePairs (s : State) (w : SWait) : (s.swaitOn w).lanePairs = s.lanePairs := rfl
@[simp] theorem State.swaitOn_cores (s : State) (w : SWait) : (s.swaitOn w).cores = s.cores := rfl
@[simp] theorem State.swaitOn_rings (s : State) (w : SWait) : (s.swaitOn w).rings = s.rings := rfl
@[simp] theorem State.swaitOn_contexts (s : State) (w : SWait) : (s.swaitOn w).contexts = s.contexts := rfl
@[simp] theorem State.swaitOn_queues (s : State) (w : SWait) : (s.swaitOn w).queues = s.queues := rfl
@[simp] theorem State.swaitOn_cmds (s : State) (w : SWait) : (s.swaitOn w).cmds = s.cmds := rfl
@[simp] theorem State.swaitOn_nextCmd (s : State) (w : SWait) : (s.swaitOn w).nextCmd = s.nextCmd := rfl
@[simp] theorem State.swaitOn_launches (s : State) (w : SWait) : (s.swaitOn w).launches = s.launches := rfl
@[simp] theorem State.swaitOn_nextLaunch (s : State) (w : SWait) : (s.swaitOn w).nextLaunch = s.nextLaunch := rfl
@[simp] theorem State.swaitOn_cp (s : State) (w : SWait) : (s.swaitOn w).cp = s.cp := rfl
@[simp] theorem State.swaitOn_pager (s : State) (w : SWait) : (s.swaitOn w).pager = s.pager := rfl
@[simp] theorem State.swaitOn_fabric (s : State) (w : SWait) : (s.swaitOn w).fabric = s.fabric := rfl
@[simp] theorem State.swaitOn_jobs (s : State) (w : SWait) : (s.swaitOn w).jobs = s.jobs := rfl
@[simp] theorem State.swaitOn_nextJob (s : State) (w : SWait) : (s.swaitOn w).nextJob = s.nextJob := rfl
@[simp] theorem State.swaitOn_host (s : State) (w : SWait) : (s.swaitOn w).host = s.host := rfl
@[simp] theorem State.swaitOn_boot (s : State) (w : SWait) : (s.swaitOn w).boot = s.boot := rfl

/-! ### Group: the registers, predicates and threads -/

@[simp] theorem Group.swrite_team (g : Group) (r : BitVec 6) (v : W64) : (g.swrite r v).team = g.team := by unfold Group.swrite; split <;> rfl
@[simp] theorem Group.swrite_idx (g : Group) (r : BitVec 6) (v : W64) : (g.swrite r v).idx = g.idx := by unfold Group.swrite; split <;> rfl
@[simp] theorem Group.swrite_lp (g : Group) (r : BitVec 6) (v : W64) : (g.swrite r v).lp = g.lp := by unfold Group.swrite; split <;> rfl
@[simp] theorem Group.swrite_slot (g : Group) (r : BitVec 6) (v : W64) : (g.swrite r v).slot = g.slot := by unfold Group.swrite; split <;> rfl
@[simp] theorem Group.swrite_granule (g : Group) (r : BitVec 6) (v : W64) : (g.swrite r v).granule = g.granule := by unfold Group.swrite; split <;> rfl
@[simp] theorem Group.swrite_ended (g : Group) (r : BitVec 6) (v : W64) : (g.swrite r v).ended = g.ended := by unfold Group.swrite; split <;> rfl
@[simp] theorem Group.swrite_mode (g : Group) (r : BitVec 6) (v : W64) : (g.swrite r v).mode = g.mode := by unfold Group.swrite; split <;> rfl
@[simp] theorem Group.swrite_cond (g : Group) (r : BitVec 6) (v : W64) : (g.swrite r v).cond = g.cond := by unfold Group.swrite; split <;> rfl
@[simp] theorem Group.swrite_spc (g : Group) (r : BitVec 6) (v : W64) : (g.swrite r v).spc = g.spc := by unfold Group.swrite; split <;> rfl
@[simp] theorem Group.swrite_swait (g : Group) (r : BitVec 6) (v : W64) : (g.swrite r v).swait = g.swait := by unfold Group.swrite; split <;> rfl
@[simp] theorem Group.swrite_sparked (g : Group) (r : BitVec 6) (v : W64) : (g.swrite r v).sparked = g.sparked := by unfold Group.swrite; split <;> rfl
@[simp] theorem Group.swrite_srom (g : Group) (r : BitVec 6) (v : W64) : (g.swrite r v).srom = g.srom := by unfold Group.swrite; split <;> rfl
@[simp] theorem Group.swrite_stlevel (g : Group) (r : BitVec 6) (v : W64) : (g.swrite r v).stlevel = g.stlevel := by unfold Group.swrite; split <;> rfl
@[simp] theorem Group.swrite_st1 (g : Group) (r : BitVec 6) (v : W64) : (g.swrite r v).st1 = g.st1 := by unfold Group.swrite; split <;> rfl
@[simp] theorem Group.swrite_st2 (g : Group) (r : BitVec 6) (v : W64) : (g.swrite r v).st2 = g.st2 := by unfold Group.swrite; split <;> rfl
@[simp] theorem Group.swrite_regs (g : Group) (r : BitVec 6) (v : W64) : (g.swrite r v).regs = g.regs := by unfold Group.swrite; split <;> rfl
@[simp] theorem Group.swrite_dirty (g : Group) (r : BitVec 6) (v : W64) : (g.swrite r v).dirty = g.dirty := by unfold Group.swrite; split <;> rfl
@[simp] theorem Group.swrite_thr (g : Group) (r : BitVec 6) (v : W64) : (g.swrite r v).thr = g.thr := by unfold Group.swrite; split <;> rfl
@[simp] theorem Group.swrite_queue (g : Group) (r : BitVec 6) (v : W64) : (g.swrite r v).queue = g.queue := by unfold Group.swrite; split <;> rfl
@[simp] theorem Group.swrite_args (g : Group) (r : BitVec 6) (v : W64) : (g.swrite r v).args = g.args := by unfold Group.swrite; split <;> rfl
@[simp] theorem Group.swrite_mbox (g : Group) (r : BitVec 6) (v : W64) : (g.swrite r v).mbox = g.mbox := by unfold Group.swrite; split <;> rfl
@[simp] theorem Group.swrite_splits (g : Group) (r : BitVec 6) (v : W64) : (g.swrite r v).splits = g.splits := by unfold Group.swrite; split <;> rfl
@[simp] theorem Group.swrite_tslot (g : Group) (r : BitVec 6) (v : W64) : (g.swrite r v).tslot = g.tslot := by unfold Group.swrite; split <;> rfl
@[simp] theorem Group.swrite_divid (g : Group) (r : BitVec 6) (v : W64) : (g.swrite r v).divid = g.divid := by unfold Group.swrite; split <;> rfl
@[simp] theorem Group.swrite_far (g : Group) (r : BitVec 6) (v : W64) : (g.swrite r v).far = g.far := by unfold Group.swrite; split <;> rfl
@[simp] theorem Group.swrite_ctximg (g : Group) (r : BitVec 6) (v : W64) : (g.swrite r v).ctximg = g.ctximg := by unfold Group.swrite; split <;> rfl
@[simp] theorem Group.swrite_copies (g : Group) (r : BitVec 6) (v : W64) : (g.swrite r v).copies = g.copies := by unfold Group.swrite; split <;> rfl
@[simp] theorem Group.swrite_tags (g : Group) (r : BitVec 6) (v : W64) : (g.swrite r v).tags = g.tags := by unfold Group.swrite; split <;> rfl
@[simp] theorem Group.swrite_jobs (g : Group) (r : BitVec 6) (v : W64) : (g.swrite r v).jobs = g.jobs := by unfold Group.swrite; split <;> rfl
@[simp] theorem Group.swrite_readySince (g : Group) (r : BitVec 6) (v : W64) : (g.swrite r v).readySince = g.readySince := by unfold Group.swrite; split <;> rfl
@[simp] theorem Group.swrite_waitSince (g : Group) (r : BitVec 6) (v : W64) : (g.swrite r v).waitSince = g.waitSince := by unfold Group.swrite; split <;> rfl
@[simp] theorem Group.swrite_loaded (g : Group) (r : BitVec 6) (v : W64) : (g.swrite r v).loaded = g.loaded := by unfold Group.swrite; split <;> rfl
@[simp] theorem Group.swrite_runs (g : Group) (r : BitVec 6) (v : W64) : (g.swrite r v).runs = g.runs := by unfold Group.swrite; split <;> rfl
@[simp] theorem Group.swrite_killed (g : Group) (r : BitVec 6) (v : W64) : (g.swrite r v).killed = g.killed := by unfold Group.swrite; split <;> rfl
@[simp] theorem Group.swrite_dying (g : Group) (r : BitVec 6) (v : W64) : (g.swrite r v).dying = g.dying := by unfold Group.swrite; split <;> rfl
@[simp] theorem Group.swrite_img (g : Group) (r : BitVec 6) (v : W64) : (g.swrite r v).img = g.img := by unfold Group.swrite; split <;> rfl
@[simp] theorem Group.swrite_slotFrom (g : Group) (r : BitVec 6) (v : W64) : (g.swrite r v).slotFrom = g.slotFrom := by unfold Group.swrite; split <;> rfl
@[simp] theorem Group.swrite_slotsHeld (g : Group) (r : BitVec 6) (v : W64) : (g.swrite r v).slotsHeld = g.slotsHeld := by unfold Group.swrite; split <;> rfl
@[simp] theorem Group.swrite_snap (g : Group) (r : BitVec 6) (v : W64) : (g.swrite r v).snap = g.snap := by unfold Group.swrite; split <;> rfl

@[simp] theorem Group.cwrite_team (g : Group) (n : Fin 8) (b : Bool) : (g.cwrite n b).team = g.team := by unfold Group.cwrite; split <;> rfl
@[simp] theorem Group.cwrite_idx (g : Group) (n : Fin 8) (b : Bool) : (g.cwrite n b).idx = g.idx := by unfold Group.cwrite; split <;> rfl
@[simp] theorem Group.cwrite_lp (g : Group) (n : Fin 8) (b : Bool) : (g.cwrite n b).lp = g.lp := by unfold Group.cwrite; split <;> rfl
@[simp] theorem Group.cwrite_slot (g : Group) (n : Fin 8) (b : Bool) : (g.cwrite n b).slot = g.slot := by unfold Group.cwrite; split <;> rfl
@[simp] theorem Group.cwrite_granule (g : Group) (n : Fin 8) (b : Bool) : (g.cwrite n b).granule = g.granule := by unfold Group.cwrite; split <;> rfl
@[simp] theorem Group.cwrite_ended (g : Group) (n : Fin 8) (b : Bool) : (g.cwrite n b).ended = g.ended := by unfold Group.cwrite; split <;> rfl
@[simp] theorem Group.cwrite_mode (g : Group) (n : Fin 8) (b : Bool) : (g.cwrite n b).mode = g.mode := by unfold Group.cwrite; split <;> rfl
@[simp] theorem Group.cwrite_sreg (g : Group) (n : Fin 8) (b : Bool) : (g.cwrite n b).sreg = g.sreg := by unfold Group.cwrite; split <;> rfl
@[simp] theorem Group.cwrite_spc (g : Group) (n : Fin 8) (b : Bool) : (g.cwrite n b).spc = g.spc := by unfold Group.cwrite; split <;> rfl
@[simp] theorem Group.cwrite_swait (g : Group) (n : Fin 8) (b : Bool) : (g.cwrite n b).swait = g.swait := by unfold Group.cwrite; split <;> rfl
@[simp] theorem Group.cwrite_sparked (g : Group) (n : Fin 8) (b : Bool) : (g.cwrite n b).sparked = g.sparked := by unfold Group.cwrite; split <;> rfl
@[simp] theorem Group.cwrite_srom (g : Group) (n : Fin 8) (b : Bool) : (g.cwrite n b).srom = g.srom := by unfold Group.cwrite; split <;> rfl
@[simp] theorem Group.cwrite_stlevel (g : Group) (n : Fin 8) (b : Bool) : (g.cwrite n b).stlevel = g.stlevel := by unfold Group.cwrite; split <;> rfl
@[simp] theorem Group.cwrite_st1 (g : Group) (n : Fin 8) (b : Bool) : (g.cwrite n b).st1 = g.st1 := by unfold Group.cwrite; split <;> rfl
@[simp] theorem Group.cwrite_st2 (g : Group) (n : Fin 8) (b : Bool) : (g.cwrite n b).st2 = g.st2 := by unfold Group.cwrite; split <;> rfl
@[simp] theorem Group.cwrite_regs (g : Group) (n : Fin 8) (b : Bool) : (g.cwrite n b).regs = g.regs := by unfold Group.cwrite; split <;> rfl
@[simp] theorem Group.cwrite_dirty (g : Group) (n : Fin 8) (b : Bool) : (g.cwrite n b).dirty = g.dirty := by unfold Group.cwrite; split <;> rfl
@[simp] theorem Group.cwrite_thr (g : Group) (n : Fin 8) (b : Bool) : (g.cwrite n b).thr = g.thr := by unfold Group.cwrite; split <;> rfl
@[simp] theorem Group.cwrite_queue (g : Group) (n : Fin 8) (b : Bool) : (g.cwrite n b).queue = g.queue := by unfold Group.cwrite; split <;> rfl
@[simp] theorem Group.cwrite_args (g : Group) (n : Fin 8) (b : Bool) : (g.cwrite n b).args = g.args := by unfold Group.cwrite; split <;> rfl
@[simp] theorem Group.cwrite_mbox (g : Group) (n : Fin 8) (b : Bool) : (g.cwrite n b).mbox = g.mbox := by unfold Group.cwrite; split <;> rfl
@[simp] theorem Group.cwrite_splits (g : Group) (n : Fin 8) (b : Bool) : (g.cwrite n b).splits = g.splits := by unfold Group.cwrite; split <;> rfl
@[simp] theorem Group.cwrite_tslot (g : Group) (n : Fin 8) (b : Bool) : (g.cwrite n b).tslot = g.tslot := by unfold Group.cwrite; split <;> rfl
@[simp] theorem Group.cwrite_divid (g : Group) (n : Fin 8) (b : Bool) : (g.cwrite n b).divid = g.divid := by unfold Group.cwrite; split <;> rfl
@[simp] theorem Group.cwrite_far (g : Group) (n : Fin 8) (b : Bool) : (g.cwrite n b).far = g.far := by unfold Group.cwrite; split <;> rfl
@[simp] theorem Group.cwrite_ctximg (g : Group) (n : Fin 8) (b : Bool) : (g.cwrite n b).ctximg = g.ctximg := by unfold Group.cwrite; split <;> rfl
@[simp] theorem Group.cwrite_copies (g : Group) (n : Fin 8) (b : Bool) : (g.cwrite n b).copies = g.copies := by unfold Group.cwrite; split <;> rfl
@[simp] theorem Group.cwrite_tags (g : Group) (n : Fin 8) (b : Bool) : (g.cwrite n b).tags = g.tags := by unfold Group.cwrite; split <;> rfl
@[simp] theorem Group.cwrite_jobs (g : Group) (n : Fin 8) (b : Bool) : (g.cwrite n b).jobs = g.jobs := by unfold Group.cwrite; split <;> rfl
@[simp] theorem Group.cwrite_readySince (g : Group) (n : Fin 8) (b : Bool) : (g.cwrite n b).readySince = g.readySince := by unfold Group.cwrite; split <;> rfl
@[simp] theorem Group.cwrite_waitSince (g : Group) (n : Fin 8) (b : Bool) : (g.cwrite n b).waitSince = g.waitSince := by unfold Group.cwrite; split <;> rfl
@[simp] theorem Group.cwrite_loaded (g : Group) (n : Fin 8) (b : Bool) : (g.cwrite n b).loaded = g.loaded := by unfold Group.cwrite; split <;> rfl
@[simp] theorem Group.cwrite_runs (g : Group) (n : Fin 8) (b : Bool) : (g.cwrite n b).runs = g.runs := by unfold Group.cwrite; split <;> rfl
@[simp] theorem Group.cwrite_killed (g : Group) (n : Fin 8) (b : Bool) : (g.cwrite n b).killed = g.killed := by unfold Group.cwrite; split <;> rfl
@[simp] theorem Group.cwrite_dying (g : Group) (n : Fin 8) (b : Bool) : (g.cwrite n b).dying = g.dying := by unfold Group.cwrite; split <;> rfl
@[simp] theorem Group.cwrite_img (g : Group) (n : Fin 8) (b : Bool) : (g.cwrite n b).img = g.img := by unfold Group.cwrite; split <;> rfl
@[simp] theorem Group.cwrite_slotFrom (g : Group) (n : Fin 8) (b : Bool) : (g.cwrite n b).slotFrom = g.slotFrom := by unfold Group.cwrite; split <;> rfl
@[simp] theorem Group.cwrite_slotsHeld (g : Group) (n : Fin 8) (b : Bool) : (g.cwrite n b).slotsHeld = g.slotsHeld := by unfold Group.cwrite; split <;> rfl
@[simp] theorem Group.cwrite_snap (g : Group) (n : Fin 8) (b : Bool) : (g.cwrite n b).snap = g.snap := by unfold Group.cwrite; split <;> rfl

@[simp] theorem Group.rset_team (g : Group) (k e : Nat) (v : W32) : (g.rset k e v).team = g.team := rfl
@[simp] theorem Group.rset_idx (g : Group) (k e : Nat) (v : W32) : (g.rset k e v).idx = g.idx := rfl
@[simp] theorem Group.rset_lp (g : Group) (k e : Nat) (v : W32) : (g.rset k e v).lp = g.lp := rfl
@[simp] theorem Group.rset_slot (g : Group) (k e : Nat) (v : W32) : (g.rset k e v).slot = g.slot := rfl
@[simp] theorem Group.rset_granule (g : Group) (k e : Nat) (v : W32) : (g.rset k e v).granule = g.granule := rfl
@[simp] theorem Group.rset_ended (g : Group) (k e : Nat) (v : W32) : (g.rset k e v).ended = g.ended := rfl
@[simp] theorem Group.rset_mode (g : Group) (k e : Nat) (v : W32) : (g.rset k e v).mode = g.mode := rfl
@[simp] theorem Group.rset_sreg (g : Group) (k e : Nat) (v : W32) : (g.rset k e v).sreg = g.sreg := rfl
@[simp] theorem Group.rset_cond (g : Group) (k e : Nat) (v : W32) : (g.rset k e v).cond = g.cond := rfl
@[simp] theorem Group.rset_spc (g : Group) (k e : Nat) (v : W32) : (g.rset k e v).spc = g.spc := rfl
@[simp] theorem Group.rset_swait (g : Group) (k e : Nat) (v : W32) : (g.rset k e v).swait = g.swait := rfl
@[simp] theorem Group.rset_sparked (g : Group) (k e : Nat) (v : W32) : (g.rset k e v).sparked = g.sparked := rfl
@[simp] theorem Group.rset_srom (g : Group) (k e : Nat) (v : W32) : (g.rset k e v).srom = g.srom := rfl
@[simp] theorem Group.rset_stlevel (g : Group) (k e : Nat) (v : W32) : (g.rset k e v).stlevel = g.stlevel := rfl
@[simp] theorem Group.rset_st1 (g : Group) (k e : Nat) (v : W32) : (g.rset k e v).st1 = g.st1 := rfl
@[simp] theorem Group.rset_st2 (g : Group) (k e : Nat) (v : W32) : (g.rset k e v).st2 = g.st2 := rfl
@[simp] theorem Group.rset_thr (g : Group) (k e : Nat) (v : W32) : (g.rset k e v).thr = g.thr := rfl
@[simp] theorem Group.rset_queue (g : Group) (k e : Nat) (v : W32) : (g.rset k e v).queue = g.queue := rfl
@[simp] theorem Group.rset_args (g : Group) (k e : Nat) (v : W32) : (g.rset k e v).args = g.args := rfl
@[simp] theorem Group.rset_mbox (g : Group) (k e : Nat) (v : W32) : (g.rset k e v).mbox = g.mbox := rfl
@[simp] theorem Group.rset_splits (g : Group) (k e : Nat) (v : W32) : (g.rset k e v).splits = g.splits := rfl
@[simp] theorem Group.rset_tslot (g : Group) (k e : Nat) (v : W32) : (g.rset k e v).tslot = g.tslot := rfl
@[simp] theorem Group.rset_divid (g : Group) (k e : Nat) (v : W32) : (g.rset k e v).divid = g.divid := rfl
@[simp] theorem Group.rset_far (g : Group) (k e : Nat) (v : W32) : (g.rset k e v).far = g.far := rfl
@[simp] theorem Group.rset_ctximg (g : Group) (k e : Nat) (v : W32) : (g.rset k e v).ctximg = g.ctximg := rfl
@[simp] theorem Group.rset_copies (g : Group) (k e : Nat) (v : W32) : (g.rset k e v).copies = g.copies := rfl
@[simp] theorem Group.rset_tags (g : Group) (k e : Nat) (v : W32) : (g.rset k e v).tags = g.tags := rfl
@[simp] theorem Group.rset_jobs (g : Group) (k e : Nat) (v : W32) : (g.rset k e v).jobs = g.jobs := rfl
@[simp] theorem Group.rset_readySince (g : Group) (k e : Nat) (v : W32) : (g.rset k e v).readySince = g.readySince := rfl
@[simp] theorem Group.rset_waitSince (g : Group) (k e : Nat) (v : W32) : (g.rset k e v).waitSince = g.waitSince := rfl
@[simp] theorem Group.rset_loaded (g : Group) (k e : Nat) (v : W32) : (g.rset k e v).loaded = g.loaded := rfl
@[simp] theorem Group.rset_runs (g : Group) (k e : Nat) (v : W32) : (g.rset k e v).runs = g.runs := rfl
@[simp] theorem Group.rset_killed (g : Group) (k e : Nat) (v : W32) : (g.rset k e v).killed = g.killed := rfl
@[simp] theorem Group.rset_dying (g : Group) (k e : Nat) (v : W32) : (g.rset k e v).dying = g.dying := rfl
@[simp] theorem Group.rset_img (g : Group) (k e : Nat) (v : W32) : (g.rset k e v).img = g.img := rfl
@[simp] theorem Group.rset_slotFrom (g : Group) (k e : Nat) (v : W32) : (g.rset k e v).slotFrom = g.slotFrom := rfl
@[simp] theorem Group.rset_slotsHeld (g : Group) (k e : Nat) (v : W32) : (g.rset k e v).slotsHeld = g.slotsHeld := rfl
@[simp] theorem Group.rset_snap (g : Group) (k e : Nat) (v : W32) : (g.rset k e v).snap = g.snap := rfl

@[simp] theorem Group.modThr_team (g : Group) (k : Nat) (f : Thr → Thr) : (g.modThr k f).team = g.team := rfl
@[simp] theorem Group.modThr_idx (g : Group) (k : Nat) (f : Thr → Thr) : (g.modThr k f).idx = g.idx := rfl
@[simp] theorem Group.modThr_lp (g : Group) (k : Nat) (f : Thr → Thr) : (g.modThr k f).lp = g.lp := rfl
@[simp] theorem Group.modThr_slot (g : Group) (k : Nat) (f : Thr → Thr) : (g.modThr k f).slot = g.slot := rfl
@[simp] theorem Group.modThr_granule (g : Group) (k : Nat) (f : Thr → Thr) : (g.modThr k f).granule = g.granule := rfl
@[simp] theorem Group.modThr_ended (g : Group) (k : Nat) (f : Thr → Thr) : (g.modThr k f).ended = g.ended := rfl
@[simp] theorem Group.modThr_mode (g : Group) (k : Nat) (f : Thr → Thr) : (g.modThr k f).mode = g.mode := rfl
@[simp] theorem Group.modThr_sreg (g : Group) (k : Nat) (f : Thr → Thr) : (g.modThr k f).sreg = g.sreg := rfl
@[simp] theorem Group.modThr_cond (g : Group) (k : Nat) (f : Thr → Thr) : (g.modThr k f).cond = g.cond := rfl
@[simp] theorem Group.modThr_spc (g : Group) (k : Nat) (f : Thr → Thr) : (g.modThr k f).spc = g.spc := rfl
@[simp] theorem Group.modThr_swait (g : Group) (k : Nat) (f : Thr → Thr) : (g.modThr k f).swait = g.swait := rfl
@[simp] theorem Group.modThr_sparked (g : Group) (k : Nat) (f : Thr → Thr) : (g.modThr k f).sparked = g.sparked := rfl
@[simp] theorem Group.modThr_srom (g : Group) (k : Nat) (f : Thr → Thr) : (g.modThr k f).srom = g.srom := rfl
@[simp] theorem Group.modThr_stlevel (g : Group) (k : Nat) (f : Thr → Thr) : (g.modThr k f).stlevel = g.stlevel := rfl
@[simp] theorem Group.modThr_st1 (g : Group) (k : Nat) (f : Thr → Thr) : (g.modThr k f).st1 = g.st1 := rfl
@[simp] theorem Group.modThr_st2 (g : Group) (k : Nat) (f : Thr → Thr) : (g.modThr k f).st2 = g.st2 := rfl
@[simp] theorem Group.modThr_regs (g : Group) (k : Nat) (f : Thr → Thr) : (g.modThr k f).regs = g.regs := rfl
@[simp] theorem Group.modThr_dirty (g : Group) (k : Nat) (f : Thr → Thr) : (g.modThr k f).dirty = g.dirty := rfl
@[simp] theorem Group.modThr_queue (g : Group) (k : Nat) (f : Thr → Thr) : (g.modThr k f).queue = g.queue := rfl
@[simp] theorem Group.modThr_args (g : Group) (k : Nat) (f : Thr → Thr) : (g.modThr k f).args = g.args := rfl
@[simp] theorem Group.modThr_mbox (g : Group) (k : Nat) (f : Thr → Thr) : (g.modThr k f).mbox = g.mbox := rfl
@[simp] theorem Group.modThr_splits (g : Group) (k : Nat) (f : Thr → Thr) : (g.modThr k f).splits = g.splits := rfl
@[simp] theorem Group.modThr_tslot (g : Group) (k : Nat) (f : Thr → Thr) : (g.modThr k f).tslot = g.tslot := rfl
@[simp] theorem Group.modThr_divid (g : Group) (k : Nat) (f : Thr → Thr) : (g.modThr k f).divid = g.divid := rfl
@[simp] theorem Group.modThr_far (g : Group) (k : Nat) (f : Thr → Thr) : (g.modThr k f).far = g.far := rfl
@[simp] theorem Group.modThr_ctximg (g : Group) (k : Nat) (f : Thr → Thr) : (g.modThr k f).ctximg = g.ctximg := rfl
@[simp] theorem Group.modThr_copies (g : Group) (k : Nat) (f : Thr → Thr) : (g.modThr k f).copies = g.copies := rfl
@[simp] theorem Group.modThr_tags (g : Group) (k : Nat) (f : Thr → Thr) : (g.modThr k f).tags = g.tags := rfl
@[simp] theorem Group.modThr_jobs (g : Group) (k : Nat) (f : Thr → Thr) : (g.modThr k f).jobs = g.jobs := rfl
@[simp] theorem Group.modThr_readySince (g : Group) (k : Nat) (f : Thr → Thr) : (g.modThr k f).readySince = g.readySince := rfl
@[simp] theorem Group.modThr_waitSince (g : Group) (k : Nat) (f : Thr → Thr) : (g.modThr k f).waitSince = g.waitSince := rfl
@[simp] theorem Group.modThr_loaded (g : Group) (k : Nat) (f : Thr → Thr) : (g.modThr k f).loaded = g.loaded := rfl
@[simp] theorem Group.modThr_runs (g : Group) (k : Nat) (f : Thr → Thr) : (g.modThr k f).runs = g.runs := rfl
@[simp] theorem Group.modThr_killed (g : Group) (k : Nat) (f : Thr → Thr) : (g.modThr k f).killed = g.killed := rfl
@[simp] theorem Group.modThr_dying (g : Group) (k : Nat) (f : Thr → Thr) : (g.modThr k f).dying = g.dying := rfl
@[simp] theorem Group.modThr_img (g : Group) (k : Nat) (f : Thr → Thr) : (g.modThr k f).img = g.img := rfl
@[simp] theorem Group.modThr_slotFrom (g : Group) (k : Nat) (f : Thr → Thr) : (g.modThr k f).slotFrom = g.slotFrom := rfl
@[simp] theorem Group.modThr_slotsHeld (g : Group) (k : Nat) (f : Thr → Thr) : (g.modThr k f).slotsHeld = g.slotsHeld := rfl
@[simp] theorem Group.modThr_snap (g : Group) (k : Nat) (f : Thr → Thr) : (g.modThr k f).snap = g.snap := rfl

@[simp] theorem Group.setSplit_team (g : Group) (n : Nat) (x : Split) : (g.setSplit n x).team = g.team := by unfold Group.setSplit; split <;> rfl
@[simp] theorem Group.setSplit_idx (g : Group) (n : Nat) (x : Split) : (g.setSplit n x).idx = g.idx := by unfold Group.setSplit; split <;> rfl
@[simp] theorem Group.setSplit_lp (g : Group) (n : Nat) (x : Split) : (g.setSplit n x).lp = g.lp := by unfold Group.setSplit; split <;> rfl
@[simp] theorem Group.setSplit_slot (g : Group) (n : Nat) (x : Split) : (g.setSplit n x).slot = g.slot := by unfold Group.setSplit; split <;> rfl
@[simp] theorem Group.setSplit_granule (g : Group) (n : Nat) (x : Split) : (g.setSplit n x).granule = g.granule := by unfold Group.setSplit; split <;> rfl
@[simp] theorem Group.setSplit_ended (g : Group) (n : Nat) (x : Split) : (g.setSplit n x).ended = g.ended := by unfold Group.setSplit; split <;> rfl
@[simp] theorem Group.setSplit_mode (g : Group) (n : Nat) (x : Split) : (g.setSplit n x).mode = g.mode := by unfold Group.setSplit; split <;> rfl
@[simp] theorem Group.setSplit_sreg (g : Group) (n : Nat) (x : Split) : (g.setSplit n x).sreg = g.sreg := by unfold Group.setSplit; split <;> rfl
@[simp] theorem Group.setSplit_cond (g : Group) (n : Nat) (x : Split) : (g.setSplit n x).cond = g.cond := by unfold Group.setSplit; split <;> rfl
@[simp] theorem Group.setSplit_spc (g : Group) (n : Nat) (x : Split) : (g.setSplit n x).spc = g.spc := by unfold Group.setSplit; split <;> rfl
@[simp] theorem Group.setSplit_swait (g : Group) (n : Nat) (x : Split) : (g.setSplit n x).swait = g.swait := by unfold Group.setSplit; split <;> rfl
@[simp] theorem Group.setSplit_sparked (g : Group) (n : Nat) (x : Split) : (g.setSplit n x).sparked = g.sparked := by unfold Group.setSplit; split <;> rfl
@[simp] theorem Group.setSplit_srom (g : Group) (n : Nat) (x : Split) : (g.setSplit n x).srom = g.srom := by unfold Group.setSplit; split <;> rfl
@[simp] theorem Group.setSplit_stlevel (g : Group) (n : Nat) (x : Split) : (g.setSplit n x).stlevel = g.stlevel := by unfold Group.setSplit; split <;> rfl
@[simp] theorem Group.setSplit_st1 (g : Group) (n : Nat) (x : Split) : (g.setSplit n x).st1 = g.st1 := by unfold Group.setSplit; split <;> rfl
@[simp] theorem Group.setSplit_st2 (g : Group) (n : Nat) (x : Split) : (g.setSplit n x).st2 = g.st2 := by unfold Group.setSplit; split <;> rfl
@[simp] theorem Group.setSplit_regs (g : Group) (n : Nat) (x : Split) : (g.setSplit n x).regs = g.regs := by unfold Group.setSplit; split <;> rfl
@[simp] theorem Group.setSplit_dirty (g : Group) (n : Nat) (x : Split) : (g.setSplit n x).dirty = g.dirty := by unfold Group.setSplit; split <;> rfl
@[simp] theorem Group.setSplit_thr (g : Group) (n : Nat) (x : Split) : (g.setSplit n x).thr = g.thr := by unfold Group.setSplit; split <;> rfl
@[simp] theorem Group.setSplit_queue (g : Group) (n : Nat) (x : Split) : (g.setSplit n x).queue = g.queue := by unfold Group.setSplit; split <;> rfl
@[simp] theorem Group.setSplit_args (g : Group) (n : Nat) (x : Split) : (g.setSplit n x).args = g.args := by unfold Group.setSplit; split <;> rfl
@[simp] theorem Group.setSplit_mbox (g : Group) (n : Nat) (x : Split) : (g.setSplit n x).mbox = g.mbox := by unfold Group.setSplit; split <;> rfl
@[simp] theorem Group.setSplit_divid (g : Group) (n : Nat) (x : Split) : (g.setSplit n x).divid = g.divid := by unfold Group.setSplit; split <;> rfl
@[simp] theorem Group.setSplit_far (g : Group) (n : Nat) (x : Split) : (g.setSplit n x).far = g.far := by unfold Group.setSplit; split <;> rfl
@[simp] theorem Group.setSplit_ctximg (g : Group) (n : Nat) (x : Split) : (g.setSplit n x).ctximg = g.ctximg := by unfold Group.setSplit; split <;> rfl
@[simp] theorem Group.setSplit_copies (g : Group) (n : Nat) (x : Split) : (g.setSplit n x).copies = g.copies := by unfold Group.setSplit; split <;> rfl
@[simp] theorem Group.setSplit_tags (g : Group) (n : Nat) (x : Split) : (g.setSplit n x).tags = g.tags := by unfold Group.setSplit; split <;> rfl
@[simp] theorem Group.setSplit_jobs (g : Group) (n : Nat) (x : Split) : (g.setSplit n x).jobs = g.jobs := by unfold Group.setSplit; split <;> rfl
@[simp] theorem Group.setSplit_readySince (g : Group) (n : Nat) (x : Split) : (g.setSplit n x).readySince = g.readySince := by unfold Group.setSplit; split <;> rfl
@[simp] theorem Group.setSplit_waitSince (g : Group) (n : Nat) (x : Split) : (g.setSplit n x).waitSince = g.waitSince := by unfold Group.setSplit; split <;> rfl
@[simp] theorem Group.setSplit_loaded (g : Group) (n : Nat) (x : Split) : (g.setSplit n x).loaded = g.loaded := by unfold Group.setSplit; split <;> rfl
@[simp] theorem Group.setSplit_runs (g : Group) (n : Nat) (x : Split) : (g.setSplit n x).runs = g.runs := by unfold Group.setSplit; split <;> rfl
@[simp] theorem Group.setSplit_killed (g : Group) (n : Nat) (x : Split) : (g.setSplit n x).killed = g.killed := by unfold Group.setSplit; split <;> rfl
@[simp] theorem Group.setSplit_dying (g : Group) (n : Nat) (x : Split) : (g.setSplit n x).dying = g.dying := by unfold Group.setSplit; split <;> rfl
@[simp] theorem Group.setSplit_img (g : Group) (n : Nat) (x : Split) : (g.setSplit n x).img = g.img := by unfold Group.setSplit; split <;> rfl
@[simp] theorem Group.setSplit_slotFrom (g : Group) (n : Nat) (x : Split) : (g.setSplit n x).slotFrom = g.slotFrom := by unfold Group.setSplit; split <;> rfl
@[simp] theorem Group.setSplit_slotsHeld (g : Group) (n : Nat) (x : Split) : (g.setSplit n x).slotsHeld = g.slotsHeld := by unfold Group.setSplit; split <;> rfl
@[simp] theorem Group.setSplit_snap (g : Group) (n : Nat) (x : Split) : (g.setSplit n x).snap = g.snap := by unfold Group.setSplit; split <;> rfl

@[simp] theorem Group.modSplit_team (g : Group) (n : Nat) (f : Split → Split) : (g.modSplit n f).team = g.team := by unfold Group.modSplit; split <;> simp
@[simp] theorem Group.modSplit_idx (g : Group) (n : Nat) (f : Split → Split) : (g.modSplit n f).idx = g.idx := by unfold Group.modSplit; split <;> simp
@[simp] theorem Group.modSplit_lp (g : Group) (n : Nat) (f : Split → Split) : (g.modSplit n f).lp = g.lp := by unfold Group.modSplit; split <;> simp
@[simp] theorem Group.modSplit_slot (g : Group) (n : Nat) (f : Split → Split) : (g.modSplit n f).slot = g.slot := by unfold Group.modSplit; split <;> simp
@[simp] theorem Group.modSplit_granule (g : Group) (n : Nat) (f : Split → Split) : (g.modSplit n f).granule = g.granule := by unfold Group.modSplit; split <;> simp
@[simp] theorem Group.modSplit_ended (g : Group) (n : Nat) (f : Split → Split) : (g.modSplit n f).ended = g.ended := by unfold Group.modSplit; split <;> simp
@[simp] theorem Group.modSplit_mode (g : Group) (n : Nat) (f : Split → Split) : (g.modSplit n f).mode = g.mode := by unfold Group.modSplit; split <;> simp
@[simp] theorem Group.modSplit_sreg (g : Group) (n : Nat) (f : Split → Split) : (g.modSplit n f).sreg = g.sreg := by unfold Group.modSplit; split <;> simp
@[simp] theorem Group.modSplit_cond (g : Group) (n : Nat) (f : Split → Split) : (g.modSplit n f).cond = g.cond := by unfold Group.modSplit; split <;> simp
@[simp] theorem Group.modSplit_spc (g : Group) (n : Nat) (f : Split → Split) : (g.modSplit n f).spc = g.spc := by unfold Group.modSplit; split <;> simp
@[simp] theorem Group.modSplit_swait (g : Group) (n : Nat) (f : Split → Split) : (g.modSplit n f).swait = g.swait := by unfold Group.modSplit; split <;> simp
@[simp] theorem Group.modSplit_sparked (g : Group) (n : Nat) (f : Split → Split) : (g.modSplit n f).sparked = g.sparked := by unfold Group.modSplit; split <;> simp
@[simp] theorem Group.modSplit_srom (g : Group) (n : Nat) (f : Split → Split) : (g.modSplit n f).srom = g.srom := by unfold Group.modSplit; split <;> simp
@[simp] theorem Group.modSplit_stlevel (g : Group) (n : Nat) (f : Split → Split) : (g.modSplit n f).stlevel = g.stlevel := by unfold Group.modSplit; split <;> simp
@[simp] theorem Group.modSplit_st1 (g : Group) (n : Nat) (f : Split → Split) : (g.modSplit n f).st1 = g.st1 := by unfold Group.modSplit; split <;> simp
@[simp] theorem Group.modSplit_st2 (g : Group) (n : Nat) (f : Split → Split) : (g.modSplit n f).st2 = g.st2 := by unfold Group.modSplit; split <;> simp
@[simp] theorem Group.modSplit_regs (g : Group) (n : Nat) (f : Split → Split) : (g.modSplit n f).regs = g.regs := by unfold Group.modSplit; split <;> simp
@[simp] theorem Group.modSplit_dirty (g : Group) (n : Nat) (f : Split → Split) : (g.modSplit n f).dirty = g.dirty := by unfold Group.modSplit; split <;> simp
@[simp] theorem Group.modSplit_thr (g : Group) (n : Nat) (f : Split → Split) : (g.modSplit n f).thr = g.thr := by unfold Group.modSplit; split <;> simp
@[simp] theorem Group.modSplit_queue (g : Group) (n : Nat) (f : Split → Split) : (g.modSplit n f).queue = g.queue := by unfold Group.modSplit; split <;> simp
@[simp] theorem Group.modSplit_args (g : Group) (n : Nat) (f : Split → Split) : (g.modSplit n f).args = g.args := by unfold Group.modSplit; split <;> simp
@[simp] theorem Group.modSplit_mbox (g : Group) (n : Nat) (f : Split → Split) : (g.modSplit n f).mbox = g.mbox := by unfold Group.modSplit; split <;> simp
@[simp] theorem Group.modSplit_divid (g : Group) (n : Nat) (f : Split → Split) : (g.modSplit n f).divid = g.divid := by unfold Group.modSplit; split <;> simp
@[simp] theorem Group.modSplit_far (g : Group) (n : Nat) (f : Split → Split) : (g.modSplit n f).far = g.far := by unfold Group.modSplit; split <;> simp
@[simp] theorem Group.modSplit_ctximg (g : Group) (n : Nat) (f : Split → Split) : (g.modSplit n f).ctximg = g.ctximg := by unfold Group.modSplit; split <;> simp
@[simp] theorem Group.modSplit_copies (g : Group) (n : Nat) (f : Split → Split) : (g.modSplit n f).copies = g.copies := by unfold Group.modSplit; split <;> simp
@[simp] theorem Group.modSplit_tags (g : Group) (n : Nat) (f : Split → Split) : (g.modSplit n f).tags = g.tags := by unfold Group.modSplit; split <;> simp
@[simp] theorem Group.modSplit_jobs (g : Group) (n : Nat) (f : Split → Split) : (g.modSplit n f).jobs = g.jobs := by unfold Group.modSplit; split <;> simp
@[simp] theorem Group.modSplit_readySince (g : Group) (n : Nat) (f : Split → Split) : (g.modSplit n f).readySince = g.readySince := by unfold Group.modSplit; split <;> simp
@[simp] theorem Group.modSplit_waitSince (g : Group) (n : Nat) (f : Split → Split) : (g.modSplit n f).waitSince = g.waitSince := by unfold Group.modSplit; split <;> simp
@[simp] theorem Group.modSplit_loaded (g : Group) (n : Nat) (f : Split → Split) : (g.modSplit n f).loaded = g.loaded := by unfold Group.modSplit; split <;> simp
@[simp] theorem Group.modSplit_runs (g : Group) (n : Nat) (f : Split → Split) : (g.modSplit n f).runs = g.runs := by unfold Group.modSplit; split <;> simp
@[simp] theorem Group.modSplit_killed (g : Group) (n : Nat) (f : Split → Split) : (g.modSplit n f).killed = g.killed := by unfold Group.modSplit; split <;> simp
@[simp] theorem Group.modSplit_dying (g : Group) (n : Nat) (f : Split → Split) : (g.modSplit n f).dying = g.dying := by unfold Group.modSplit; split <;> simp
@[simp] theorem Group.modSplit_img (g : Group) (n : Nat) (f : Split → Split) : (g.modSplit n f).img = g.img := by unfold Group.modSplit; split <;> simp
@[simp] theorem Group.modSplit_slotFrom (g : Group) (n : Nat) (f : Split → Split) : (g.modSplit n f).slotFrom = g.slotFrom := by unfold Group.modSplit; split <;> simp
@[simp] theorem Group.modSplit_slotsHeld (g : Group) (n : Nat) (f : Split → Split) : (g.modSplit n f).slotsHeld = g.slotsHeld := by unfold Group.modSplit; split <;> simp
@[simp] theorem Group.modSplit_snap (g : Group) (n : Nat) (f : Split → Split) : (g.modSplit n f).snap = g.snap := by unfold Group.modSplit; split <;> simp

/-! ### Thr: predicates -/

@[simp] theorem Thr.pset_life (t : Thr) (n : Nat) (b : Bool) : (t.pset n b).life = t.life := by unfold Thr.pset; split <;> rfl
@[simp] theorem Thr.pset_fpstat (t : Thr) (n : Nat) (b : Bool) : (t.pset n b).fpstat = t.fpstat := by unfold Thr.pset; split <;> rfl
@[simp] theorem Thr.pset_xexited (t : Thr) (n : Nat) (b : Bool) : (t.pset n b).xexited = t.xexited := by unfold Thr.pset; split <;> rfl
@[simp] theorem Thr.pset_gen (t : Thr) (n : Nat) (b : Bool) : (t.pset n b).gen = t.gen := by unfold Thr.pset; split <;> rfl
@[simp] theorem Thr.pset_tlevel (t : Thr) (n : Nat) (b : Bool) : (t.pset n b).tlevel = t.tlevel := by unfold Thr.pset; split <;> rfl
@[simp] theorem Thr.pset_t1 (t : Thr) (n : Nat) (b : Bool) : (t.pset n b).t1 = t.t1 := by unfold Thr.pset; split <;> rfl
@[simp] theorem Thr.pset_t2 (t : Thr) (n : Nat) (b : Bool) : (t.pset n b).t2 = t.t2 := by unfold Thr.pset; split <;> rfl
@[simp] theorem Thr.pset_tlin (t : Thr) (n : Nat) (b : Bool) : (t.pset n b).tlin = t.tlin := by unfold Thr.pset; split <;> rfl

/-! ### What the updated tables hold -/

theorem State.group_setGroup (s : State) (g h : Nat) (x : Group) :
    (s.setGroup g x).group h = if h = g then x else s.group h := by
  simp only [State.group, State.setGroup, SMap.get, SMap.find_insert]; split <;> simp

@[simp] theorem State.group_setGroup_self (s : State) (g : Nat) (x : Group) : (s.setGroup g x).group g = x := by
  simp [State.group_setGroup]

@[simp] theorem State.cur_modCur (s : State) (f : Group → Group) : (s.modCur f).cur = f s.cur := by
  simp [State.cur, State.modCur, State.modGroup]

@[simp] theorem State.cur_setGroup (s : State) (x : Group) : (s.setGroup s.curGid x).cur = x := by
  simp [State.cur]

theorem State.find_setGroup_ne (s : State) {g h : Nat} (x : Group) (e : h ≠ g) :
    (s.setGroup g x).groups.find h = s.groups.find h := SMap.find_insert_ne _ _ e

theorem State.team_setTeam (s : State) (i j : Nat) (x : Team) :
    (s.setTeam i x).team j = if j = i then x else s.team j := by
  simp only [State.team, State.setTeam, SMap.get, SMap.find_insert]; split <;> simp

theorem State.context_setContext (s : State) (i j : Nat) (x : Context) :
    (s.setContext i x).context j = if j = i then x else s.context j := by
  simp only [State.context, State.setContext, SMap.get, SMap.find_insert]; split <;> simp

theorem State.core_setCore (s : State) (i j : Nat) (x : Core) :
    (s.setCore i x).core j = if j = i then x else s.core j := by
  simp only [State.core, State.setCore, SMap.get, SMap.find_insert]; split <;> simp

theorem State.queue_setQueue (s : State) (i j : Nat) (x : Queue) :
    (s.setQueue i x).queue j = if j = i then x else s.queue j := by
  simp only [State.queue, State.setQueue, SMap.get, SMap.find_insert]; split <;> simp

@[simp] theorem State.lanePair_setLanePair (s : State) (c lp : Nat) (x : LanePair) :
    (s.setLanePair c lp x).lanePair c lp = x := by
  simp [State.lanePair, State.setLanePair]

/-- A scalar register after a write (R22): s0 reads zero and takes nothing. -/
theorem Group.sread_swrite (g : Group) (r q : BitVec 6) (v : W64) :
    (g.swrite r v).sread q = if q = r ∧ r ≠ 0 then v else g.sread q := by
  unfold Group.swrite
  by_cases hr : r = 0
  · rw [if_pos hr, if_neg (fun h => h.2 hr)]
  · rw [if_neg hr]
    unfold Group.sread
    by_cases hq : q = 0
    · rw [if_pos hq, if_pos hq, if_neg]; rintro ⟨rfl, -⟩; exact hr hq
    · rw [if_neg hq, if_neg hq, SMap.get_put]
      by_cases e : q = r
      · rw [if_pos (by rw [e]), if_pos ⟨e, hr⟩]
      · rw [if_neg (fun h => e (BitVec.eq_of_toNat_eq h)), if_neg (fun h => e h.1)]

/-- A condition after a write (R26): c0 reads true and takes nothing. -/
theorem Group.cread_cwrite (g : Group) (n m : Fin 8) (b : Bool) :
    (g.cwrite n b).cread m = if m = n ∧ n ≠ 0 then b else g.cread m := by
  unfold Group.cwrite
  by_cases hn : n = 0
  · simp [hn]
  · rw [if_neg hn]
    have key : ∀ (c : BitVec 8) (n m : Fin 8) (b : Bool), n ≠ 0 →
        ((c &&& ~~~(1#8 <<< n.val)) ||| (if b then 1#8 <<< n.val else 0)).getLsbD m.val
          = if m = n then b else c.getLsbD m.val := by decide +kernel
    unfold Group.cread
    dsimp only
    rw [key _ _ _ _ hn]
    by_cases e : m = n
    · subst e; rw [if_pos rfl, if_pos ⟨rfl, hn⟩, decide_eq_false hn, Bool.false_or]
    · rw [if_neg e, if_neg (fun h => e h.1)]

/-- A stack entry after a write. -/
theorem Group.rget_rset (g : Group) {k j e f : Nat} (v : W32) (he : e < 256) (hf : f < 256) :
    (g.rset k e v).rget j f = if j = k ∧ f = e then v else g.rget j f := by
  simp only [Group.rget, Group.rset, SMap.get_put]
  by_cases h : j = k ∧ f = e
  · rw [if_pos h, if_pos (by rw [h.1, h.2])]
  · rw [if_neg h, if_neg (by omega)]

@[simp] theorem Group.rget_modThr (g : Group) (k j e : Nat) (f : Thr → Thr) : (g.modThr k f).rget j e = g.rget j e := rfl

@[simp] theorem Group.thread_rset (g : Group) (k j e : Nat) (v : W32) : (g.rset k e v).thread j = g.thread j := rfl

theorem Group.thread_modThr (g : Group) (k j : Nat) (f : Thr → Thr) :
    (g.modThr k f).thread j = if j = k then f (g.thread k) else g.thread j := by
  simp only [Group.thread, Group.modThr, SMap.get, SMap.find_insert]; split <;> simp

/-- A predicate after a write (R32, R38): p0 reads true and takes nothing. -/
theorem Thr.pget_pset (t : Thr) (n m : Nat) (b : Bool) (hm : m < 8) :
    (t.pset n b).pget m = if m = n ∧ n ≠ 0 then b else t.pget m := by
  unfold Thr.pset
  by_cases hn : n = 0
  · simp [hn]
  · rw [if_neg hn]
    unfold Thr.pget
    dsimp only
    by_cases h8 : n < 8
    · have key : ∀ (c : BitVec 8) (n m : Fin 8) (b : Bool),
          ((c &&& ~~~(1#8 <<< n.val)) ||| (if b then 1#8 <<< n.val else 0)).getLsbD m.val
            = if m = n then b else c.getLsbD m.val := by decide +kernel
      have := key t.preds ⟨n, h8⟩ ⟨m, hm⟩ b
      simp only [Fin.mk.injEq] at this
      rw [this]
      by_cases e : m = n
      · subst e; rw [if_pos rfl, if_pos ⟨rfl, hn⟩, decide_eq_false hn, Bool.false_or]
      · rw [if_neg e, if_neg (fun h => e h.1)]
    · have z : 1#8 <<< n = 0#8 := by
        apply BitVec.eq_of_toNat_eq
        simp only [BitVec.toNat_shiftLeft, Nat.shiftLeft_eq]
        rw [show n = 8 + (n - 8) by omega, Nat.pow_add]
        simp
      have y : (t.preds &&& ~~~(0#8)) ||| (if b then 0#8 else 0) = t.preds := by
        rw [show (if b then 0#8 else 0) = 0#8 by cases b <;> rfl, show ~~~(0#8) = BitVec.allOnes 8 by decide,
          BitVec.and_allOnes, BitVec.or_zero]
      rw [z, y, if_neg (fun h => by omega)]

/-- A scalar register after a scalar result. -/
theorem State.sread_sput (s : State) (d r : BitVec 6) (v : W64) :
    (s.sput d v).sread r = if r = d ∧ d ≠ 0 then v else s.sread r := by
  have h : (s.sput d v).cur = { s.cur.swrite d v with spc := (s.cur.swrite d v).spc + 4, swait := none } := by
    simp [State.sput, State.bump, State.swrite, State.cur, State.modCur, State.modGroup]
  have e : (s.sput d v).sread r = (s.cur.swrite d v).sread r := by rw [State.sread, h]; rfl
  rw [e, Group.sread_swrite]; rfl

@[simp] theorem State.sread_bump (s : State) (r : BitVec 6) : s.bump.sread r = s.sread r := by
  simp only [State.sread, State.bump, State.cur_modCur]; rfl

@[simp] theorem State.sread_sjump (s : State) (pc : W64) (r : BitVec 6) : (s.sjump pc).sread r = s.sread r := by
  simp only [State.sread, State.sjump, State.cur_modCur]; rfl

theorem State.sread_swrite (s : State) (d r : BitVec 6) (v : W64) :
    (s.swrite d v).sread r = if r = d ∧ d ≠ 0 then v else s.sread r := by
  simp only [State.sread, State.swrite, State.cur_modCur, Group.sread_swrite]

/-- Read after write of the current group's split. -/
theorem Group.split_setSplit_lt (g : Group) {n m : Nat} (x : Split) (hn : n < 4) (hm : m < 4) :
    (g.setSplit n x).split? m = if m = n then some x else g.split? m := by
  simp [Group.split?, Group.setSplit, hn, hm, SMap.find_insert]

end Sys2Proof.Machine
end

