-- ==== Sys2Proof/Laws/Lane.lean ====
section
/-! SUPPORT. What passing threads through the lane does (R225, R244): the fold over the threads, once for every
instruction that acts in each thread by that thread's own sources. -/

namespace Sys2Proof.Machine

theorem insert_insert {α : Type} (m : SMap α) (x : Nat) (v w : α) : SMap.insert (SMap.insert m x v) x w = SMap.insert m x w := by
  induction m with
  | nil => simp [SMap.insert]
  | cons p m ih =>
    obtain ⟨k, u⟩ := p
    simp only [SMap.insert]
    split
    · simp [SMap.insert]
    · split
      · simp [SMap.insert]
      · simp only [SMap.insert]
        rw [if_neg (by assumption), if_neg (by assumption), ih]

/-- `s` with another current group and other contexts. -/
def State.withG (s : State) (g : Group) (c : SMap Context) : State :=
  { s with groups := s.groups.insert s.curGid g, contexts := c }

@[simp] theorem State.withG_cur (s : State) (g : Group) (c : SMap Context) : (s.withG g c).cur = g := by
  simp [State.cur, State.group, State.withG]
@[simp] theorem State.withG_curGid (s : State) (g : Group) (c : SMap Context) : (s.withG g c).curGid = s.curGid := rfl
@[simp] theorem State.withG_curSlot (s : State) (g : Group) (c : SMap Context) : (s.withG g c).curSlot = s.curSlot := rfl
@[simp] theorem State.withG_contexts (s : State) (g : Group) (c : SMap Context) : (s.withG g c).contexts = c := rfl
@[simp] theorem State.withG_modCur (s : State) (g : Group) (c : SMap Context) (f : Group → Group) :
    (s.withG g c).modCur f = s.withG (f g) c := by
  simp [State.modCur, State.modGroup, State.setGroup, State.group, State.withG, insert_insert]
theorem State.modCur_eq_withG (s : State) (f : Group → Group) : s.modCur f = s.withG (f s.cur) s.contexts := rfl
@[simp] theorem State.withG_modContext (s : State) (g : Group) (c : SMap Context) (i : Nat) (f : Context → Context) :
    (s.withG g c).modContext i f = s.withG g (c.insert i (f (c.get {} i))) := rfl
theorem State.withG_curTeam (s : State) (g : Group) (c : SMap Context) : (s.withG g c).curTeam = s.team g.team := by
  simp only [State.curTeam, State.withG_cur]; rfl
theorem State.withG_split (s : State) (g : Group) (c : SMap Context) :
    (s.withG g c).split = (g.split? s.curSlot).getD {} := by
  simp [State.split]
theorem State.withG_curPair (s : State) (g : Group) (c : SMap Context) (ht : g.team = s.cur.team) (hl : g.lp = s.cur.lp) :
    (s.withG g c).curPair = s.curPair := by
  simp only [State.curPair, State.withG_curTeam, State.withG_cur, ht, hl]; rfl

/-! ## Splits of a group -/

theorem Group.split_setSplit (g : Group) {n : Nat} (x : Split) (h : (g.split? n).isSome) : (g.setSplit n x).split? n = some x := by
  unfold Group.split? Group.setSplit at *
  by_cases hn : n < 4
  · simp [hn]
  · simp only [hn, ↓reduceIte] at h ⊢
    cases ht : g.tslot with
    | none => simp [ht] at h
    | some t => simp

theorem Group.split_setSplit_ne (g : Group) {n m : Nat} (x : Split) (h : m ≠ n) (hn : n ≤ 4) (hm : m ≤ 4) :
    (g.setSplit n x).split? m = g.split? m := by
  unfold Group.split? Group.setSplit
  by_cases h4 : n < 4
  · by_cases hm4 : m < 4
    · simp [h4, hm4, SMap.find_insert, h]
    · simp [h4, hm4]
  · have : m < 4 := by omega
    simp [h4, this]

theorem Group.tail_setSplit (g : Group) {n : Nat} (x : Split) :
    ((g.setSplit n x).tslot.map fun t => (t.thr, t.since, t.levels.tail)) = (g.tslot.map fun t => (t.thr, t.since, t.levels.tail)) := by
  unfold Group.setSplit
  split
  · rfl
  · cases g.tslot <;> simp

/-- A group without what a lane instruction's threads may change. -/
def Group.bare (g : Group) : Group := { g with regs := [], dirty := 0, thr := [], splits := [], tslot := none }

theorem Group.eq_of_bare {g h : Group} (e : g.bare = h.bare) :
    g = { h with regs := g.regs, dirty := g.dirty, thr := g.thr, splits := g.splits, tslot := g.tslot } := by
  cases g; cases h; simpa [Group.bare] using e

@[simp] theorem Group.bare_setSplit (g : Group) (n : Nat) (x : Split) : (g.setSplit n x).bare = g.bare := by
  unfold Group.setSplit; split <;> rfl
@[simp] theorem Group.bare_rset (g : Group) (k e : Nat) (v : W32) : (g.rset k e v).bare = g.bare := rfl
@[simp] theorem Group.bare_modThr (g : Group) (k : Nat) (f : Thr → Thr) : (g.modThr k f).bare = g.bare := rfl

/-- The group of `s` part of the way through a lane instruction: `x` is the current split now. -/
structure MidGroup (s : State) (g : Group) (x : Split) : Prop where
  same : g.bare = s.cur.bare
  cur : g.split? s.curSlot = some x
  others : ∀ n, n ≤ 4 → n ≠ s.curSlot → g.split? n = s.cur.split? n
  tail : (g.tslot.map fun t => (t.thr, t.since, t.levels.tail)) = (s.cur.tslot.map fun t => (t.thr, t.since, t.levels.tail))

theorem MidGroup.refl {s : State} {x : Split} (h : s.cur.split? s.curSlot = some x) : MidGroup s s.cur x :=
  ⟨rfl, h, fun _ _ _ => rfl, rfl⟩

theorem MidGroup.modSplit {s : State} {g : Group} {x : Split} (h : MidGroup s g x) (f : Split → Split) (h4 : s.curSlot ≤ 4) :
    MidGroup s (g.modSplit s.curSlot f) (f x) := by
  have e : g.modSplit s.curSlot f = g.setSplit s.curSlot (f x) := by simp [Group.modSplit, h.cur]
  have hs : (g.split? s.curSlot).isSome := by simp [h.cur]
  rw [e]
  exact ⟨by rw [Group.bare_setSplit, h.same], Group.split_setSplit _ _ hs,
    fun n hn hne => by rw [Group.split_setSplit_ne _ _ hne h4 hn]; exact h.others n hn hne,
    by rw [Group.tail_setSplit]; exact h.tail⟩

theorem MidGroup.keeps {s : State} {g g' : Group} {x : Split} (h : MidGroup s g x)
    (e : g'.bare = g.bare) (e1 : g'.splits = g.splits) (e2 : g'.tslot = g.tslot) : MidGroup s g' x := by
  have sp : ∀ n, g'.split? n = g.split? n := fun n => by simp [Group.split?, e1, e2]
  exact ⟨e.trans h.same, by rw [sp]; exact h.cur, fun n hn hne => by rw [sp]; exact h.others n hn hne,
    by rw [e2]; exact h.tail⟩

theorem MidGroup.rset {s : State} {g : Group} {x : Split} (h : MidGroup s g x) (k e : Nat) (v : W32) :
    MidGroup s (g.rset k e v) x := h.keeps rfl rfl rfl
theorem MidGroup.modThr {s : State} {g : Group} {x : Split} (h : MidGroup s g x) (k : Nat) (f : Thr → Thr) :
    MidGroup s (g.modThr k f) x := h.keeps rfl rfl rfl

/-- Fields a mid group shares with the group of `s`. -/
theorem MidGroup.bare_eq {s : State} {g : Group} {x : Split} (h : MidGroup s g x) {β : Type} (f : Group → β)
    (hf : ∀ a : Group, f a = f a.bare) : f g = f s.cur := by rw [hf g, h.same, ← hf]

/-! ## Sources part of the way through -/

/-- The current split of `s` part of the way through: only the fields that describe the instruction differ. -/
def MidSplit (s : State) (x : Split) : Prop :=
  ∃ p m i w, x = { s.split with part := p, gmask := m, ins := i, whole := w }

/-- Thread k's registers, and what else the group keeps of it, are as in `s`. -/
def SameThread (s : State) (g : Group) (k : Nat) : Prop :=
  (∀ e, e < 256 → g.rget k e = s.cur.rget k e) ∧ g.thread k = s.cur.thread k

theorem stackEntry_lt (d : Nat) (wb : BitVec 8) (n : Nat) : stackEntry d wb n < 256 := by
  unfold stackEntry; split <;> omega

theorem State.entry_lt (s : State) (n : Nat) : s.entry n < 256 := stackEntry_lt _ _ _

section
variable {s : State} {g : Group} {x : Split} (h : MidGroup s g x) (hx : MidSplit s x) (c : SMap Context)
include h

theorem MidGroup.split_eq : (s.withG g c).split = x := by rw [State.withG_split, h.cur]; rfl

theorem MidGroup.curTeam_eq : (s.withG g c).curTeam = s.curTeam := by
  rw [State.withG_curTeam, h.bare_eq Group.team (fun _ => rfl)]; rfl

theorem MidGroup.curPair_eq : (s.withG g c).curPair = s.curPair :=
  State.withG_curPair _ _ _ (h.bare_eq Group.team fun _ => rfl) (h.bare_eq Group.lp fun _ => rfl)

include hx

theorem MidGroup.entry_eq (n : Nat) : (s.withG g c).entry n = s.entry n := by
  obtain ⟨p, m, i, w, rfl⟩ := hx
  simp only [State.entry, h.curTeam_eq, h.split_eq]

theorem MidGroup.active_eq : (s.withG g c).active = s.active := by
  obtain ⟨p, m, i, w, rfl⟩ := hx
  simp only [State.active, h.split_eq]

theorem MidGroup.lowest_eq : (s.withG g c).lowest = s.lowest := by
  simp only [State.lowest, h.active_eq hx]

theorem MidGroup.toPass_eq : (s.withG g c).toPass = s.toPass := by
  obtain ⟨p, m, i, w, rfl⟩ := hx
  simp only [State.toPass, State.active, h.split_eq]

theorem MidGroup.runArg_eq (i : Nat) : (s.withG g c).runArg i = s.runArg i := by
  obtain ⟨p, m, i, w, rfl⟩ := hx
  simp only [State.runArg, h.split_eq, State.withG_cur, State.withG_curSlot, h.bare_eq Group.args (fun _ => rfl)]

omit hx in
theorem MidGroup.latch_eq (i : Nat) : (s.withG g c).latch? i = s.latch? i := by
  simp only [State.latch?, h.curPair_eq]; rfl

variable {k : Nat} (hk : SameThread s g k)
include hk

theorem MidGroup.reg32_eq (imm : W32) (y : Src) : (s.withG g c).reg32 imm y k = s.reg32 imm y k := by
  cases y <;> simp only [State.reg32, h.entry_eq hx, h.latch_eq, h.runArg_eq hx, State.withG_cur,
    hk.1 _ (State.entry_lt _ _)]

theorem MidGroup.reg64_eq (imm : W32) (y : Src) : (s.withG g c).reg64 imm y k = s.reg64 imm y k := by
  cases y <;> simp only [State.reg64, h.entry_eq hx, h.runArg_eq hx, State.withG_cur, hk.1 _ (State.entry_lt _ _)]

theorem MidGroup.src_eq (l : Lane) (w : Bool) (y : Src) : (s.withG g c).src l w y k = s.src l w y k := by
  simp only [State.src, h.reg32_eq hx c hk, h.reg64_eq hx c hk]

omit h hx in
theorem SameThread.pred_eq (n : Nat) : (s.withG g c).pred k n = s.pred k n := by
  simp only [State.pred, State.withG_cur, hk.2]

omit h hx in
theorem SameThread.guard_eq (l : Lane) : (s.withG g c).guard l k = s.guard l k := by
  simp only [State.guard, hk.pred_eq c]

end

theorem MidGroup.staleLatch_eq {s : State} {g : Group} {x : Split} (h : MidGroup s g x) (c : SMap Context) (l : Lane) :
    (s.withG g c).staleLatch l = s.staleLatch l := by
  have : ∀ i : Fin 3, (s.withG g c).latch? i = s.latch? i := fun i => h.latch_eq c i
  simp only [State.staleLatch]
  congr 1
  funext y
  cases y <;> simp only [h.latch_eq]

/-! ## One thread's parts: computing, hold copies, the destination -/

/-- Thread k of a group has changed by T, and nothing else of the group has. -/
def ThrStep (k : Nat) (T : Thr → Thr) (g g' : Group) : Prop :=
  (∃ t, g' = { g with thr := t }) ∧ ∀ j, g'.thread j = if j = k then T (g.thread k) else g.thread j

theorem ThrStep.refl (k : Nat) (g : Group) : ThrStep k id g g := ⟨⟨_, rfl⟩, fun j => by split <;> simp_all⟩

theorem ThrStep.modThr (k : Nat) (T : Thr → Thr) (g : Group) : ThrStep k T g (g.modThr k T) :=
  ⟨⟨_, rfl⟩, fun j => Group.thread_modThr g k j T⟩

theorem ThrStep.trans {k : Nat} {T U : Thr → Thr} {g g' g'' : Group} (h : ThrStep k T g g') (h' : ThrStep k U g' g'') :
    ThrStep k (U ∘ T) g g'' := by
  obtain ⟨⟨t, rfl⟩, e⟩ := h
  obtain ⟨⟨t', rfl⟩, e'⟩ := h'
  refine ⟨⟨t', rfl⟩, fun j => ?_⟩
  rw [e', e, e]; split <;> simp_all

/-- Part of the way through instruction i: `ps` are the threads whose destination is written, `js` those that have
computed, `hs` those whose hold copies are made. -/
structure MidRun (s : State) (i : Instr) (l : Lane) (wide whole : Bool) (val : Nat → Option W64) (thr : Nat → Thr → Thr)
    (ps js hs : List Nat) (g : Group) (x : Split) : Prop where
  mid : MidGroup s g x
  spl : ∃ p, x = { s.split with part := p, gmask := s.guards l, ins := some i, whole := whole }
  regs : ∀ k e, e < 256 → g.rget k e =
        match (if k ∈ ps then val (s.computer l k) else none) with
        | some v => s.dstReg l.d wide v e (s.cur.rget k e)
        | none => s.cur.rget k e
  thrs : ∀ k, g.thread k =
        let t := if k ∈ js then thr k (s.cur.thread k) else s.cur.thread k
        match (if k ∈ ps then val (s.computer l k) else none) with
        | some v => dstThr l.d v t
        | none => t
  dirty : ∀ e, e < 256 → (g.dirty.getLsbD e = true ↔
        s.cur.dirty.getLsbD e = true ∨ ∃ k ∈ ps, (val (s.computer l k)).isSome ∧ s.dstHas l.d wide e)
  part : ∀ j k, SMap.get 0 (SMap.get [] x.part j) k =
        ((if k ∈ hs then s.holdVal l j k else none).getD (SMap.get 0 (SMap.get [] s.split.part j) k))

theorem MidRun.midSplit {s : State} {i : Instr} {l : Lane} {wide whole : Bool} {val : Nat → Option W64} {thr : Nat → Thr → Thr}
    {ps js hs : List Nat} {g : Group} {x : Split} (h : MidRun s i l wide whole val thr ps js hs g x) : MidSplit s x :=
  let ⟨_, e⟩ := h.spl; ⟨_, _, _, _, e⟩

section
variable {s : State} {i : Instr} {l : Lane} {wide whole : Bool} {val : Nat → Option W64} {thr : Nat → Thr → Thr}
  {ps js hs : List Nat} {g : Group} {x : Split}

theorem MidRun.same (h : MidRun s i l wide whole val thr ps js hs g x) {k : Nat} (hp : k ∉ ps) (hj : k ∉ js) : SameThread s g k :=
  ⟨fun e he => by rw [h.regs k e he]; simp [hp], by rw [h.thrs]; simp [hp, hj]⟩

/-- A thread computes. -/
theorem MidRun.compute (h : MidRun s i l wide whole val thr ps js hs g x) {k : Nat} {g' : Group} (hp : k ∉ ps) (hj : k ∉ js)
    (e : ThrStep k (thr k) g g') : MidRun s i l wide whole val thr ps (js ++ [k]) hs g' x := by
  obtain ⟨⟨t, rfl⟩, e⟩ := e
  refine ⟨h.mid.keeps rfl rfl rfl, h.spl, h.regs, ?_, h.dirty, h.part⟩
  · intro j
    rw [e]
    by_cases hjk : j = k
    · subst hjk
      have : g.thread j = s.cur.thread j := (h.same hp hj).2
      simp [this, hp]
    · rw [if_neg hjk, h.thrs]; simp [hjk]

/-- The hold copies of thread k as the part table takes them. -/
def State.holdPart (s : State) (l : Lane) (k : Nat) (m : SMap (SMap W32)) : SMap (SMap W32) :=
  let one := fun (m : SMap (SMap W32)) (h : Hold) (y : Src) =>
    match Hold.entry h with
    | none => m
    | some i => m.insert i (SMap.put 0 (SMap.get [] m i) k (s.reg32 0 y k))
  one (one (one m l.ha l.a) l.hb l.b) l.hc l.c

theorem get_one (m : SMap (SMap W32)) (hd : Hold) (j k k' : Nat) (v : W32) :
    SMap.get 0 (SMap.get [] (match Hold.entry hd with
      | none => m
      | some i => m.insert i (SMap.put 0 (SMap.get [] m i) k v)) j) k' =
      if k' = k ∧ Hold.entry hd = some j then v else SMap.get 0 (SMap.get [] m j) k' := by
  cases he : Hold.entry hd with
  | none => simp
  | some i =>
    by_cases hj : j = i
    · subst hj; simp [SMap.get_put]
    · simp only [Option.some.injEq]
      rw [SMap.get_insert_ne _ _ _ hj, if_neg (fun h => hj h.2.symm)]

theorem State.get_holdPart (s : State) (l : Lane) (k k' j : Nat) (m : SMap (SMap W32)) :
    SMap.get 0 (SMap.get [] (s.holdPart l k m) j) k' =
      (if k' = k then s.holdVal l j k else none).getD (SMap.get 0 (SMap.get [] m j) k') := by
  simp only [State.holdPart, get_one, State.holdVal]
  by_cases hk : k' = k
  · simp only [hk, true_and, ↓reduceIte]
    split
    · rfl
    · split
      · rfl
      · split <;> rfl
  · simp [hk]

theorem MidGroup.copyHolds_eq (h : MidGroup s g x) (hx : MidSplit s x) (c : SMap Context) {k : Nat} (hk : ∀ e, e < 256 → g.rget k e = s.cur.rget k e) (h4 : s.curSlot ≤ 4) :
    ∃ g', (s.withG g c).copyHolds l k = s.withG g' c ∧ MidGroup s g' { x with part := s.holdPart l k x.part }
      ∧ g'.regs = g.regs ∧ g'.thr = g.thr ∧ g'.dirty = g.dirty := by
  have one : ∀ (g : Group) (x : Split) (hd : Hold) (y : Src), MidGroup s g x → MidSplit s x → (∀ e, e < 256 → g.rget k e = s.cur.rget k e) →
      ∃ g', (s.withG g c).holdOne k hd y = s.withG g' c ∧
        MidGroup s g' { x with part := match Hold.entry hd with
          | none => x.part
          | some i => x.part.insert i (SMap.put 0 (SMap.get [] x.part i) k (s.reg32 0 y k)) }
        ∧ g'.regs = g.regs ∧ g'.thr = g.thr ∧ g'.dirty = g.dirty := by
    intro g x hd y h hx hk
    unfold State.holdOne
    have hr : (s.withG g c).reg32 0 y k = s.reg32 0 y k := by
      cases y <;> simp only [State.reg32, h.entry_eq hx, h.latch_eq, h.runArg_eq hx, State.withG_cur,
        hk _ (State.entry_lt _ _)]
    cases he : Hold.entry hd with
    | none => exact ⟨g, rfl, h, rfl, rfl, rfl⟩
    | some i =>
      refine ⟨g.modSplit s.curSlot fun z => { z with part := z.part.insert i (SMap.put 0 (SMap.get [] z.part i) k (s.reg32 0 y k)) }, ?_, ?_, ?_, ?_, ?_⟩
      · simp only [State.modSplit, State.withG_modCur, hr, State.withG_curSlot]
      · exact h.modSplit _ h4
      all_goals simp
  obtain ⟨g1, e1, m1, r1, t1, d1⟩ := one g x l.ha l.a h hx hk
  have hx1 : ∀ p, MidSplit s { x with part := p } := fun p => by
    obtain ⟨_, m, i, w, rfl⟩ := hx; exact ⟨p, m, i, w, rfl⟩
  have hr : ∀ g' : Group, g'.regs = g.regs → ∀ e, e < 256 → g'.rget k e = s.cur.rget k e := fun g' e' e he => by
    rw [← hk e he]; simp [Group.rget, e']
  obtain ⟨g2, e2, m2, r2, t2, d2⟩ := one g1 _ l.hb l.b m1 (hx1 _) (hr _ r1)
  obtain ⟨g3, e3, m3, r3, t3, d3⟩ := one g2 _ l.hc l.c m2 (hx1 _) (hr _ (r2.trans r1))
  refine ⟨g3, ?_, m3, r3.trans (r2.trans r1), t3.trans (t2.trans t1), d3.trans (d2.trans d1)⟩
  rw [State.copyHolds, e1, e2, e3]

/-- A thread's hold copies are made. -/
theorem MidRun.hold (h : MidRun s i l wide whole val thr ps js hs g x) (c : SMap Context) {k : Nat} (hp : k ∉ ps) (hh : k ∉ hs)
    (h4 : s.curSlot ≤ 4) :
    ∃ g' x', (s.withG g c).copyHolds l k = s.withG g' c ∧ MidRun s i l wide whole val thr ps js (hs ++ [k]) g' x' := by
  have hk : ∀ e, e < 256 → g.rget k e = s.cur.rget k e := fun e he => by rw [h.regs k e he]; simp [hp]
  obtain ⟨g', e, m, r, t, d⟩ := h.mid.copyHolds_eq (l := l) h.midSplit c hk h4
  refine ⟨g', _, e, m, ?_, ?_, ?_, ?_, ?_⟩
  · obtain ⟨p, rfl⟩ := h.spl; exact ⟨_, rfl⟩
  · intro k e he; rw [show g'.rget k e = g.rget k e by simp [Group.rget, r]]; exact h.regs k e he
  · intro k; rw [show g'.thread k = g.thread k by simp [Group.thread, t]]; exact h.thrs k
  · intro e he; rw [d]; exact h.dirty e he
  · intro j k'
    rw [State.get_holdPart, h.part]
    by_cases e' : k' = k
    · subst e'; simp [hh]
    · simp [e']

/-- A thread's destination is written. -/
theorem MidRun.write (h : MidRun s i l wide whole val thr ps js hs g x) (c : SMap Context) {k : Nat} {v : W64} (hp : k ∉ ps)
    (hv : val (s.computer l k) = some v) :
    ∃ g', (s.withG g c).setDst l.d wide k v = s.withG g' c ∧ MidRun s i l wide whole val thr (ps ++ [k]) js hs g' x := by
  have ht : ∀ j, g.thread j = if j = k then (if k ∈ js then thr k (s.cur.thread k) else s.cur.thread k) else g.thread j := by
    intro j; split
    · subst_vars; rw [h.thrs]; simp [hp]
    · rfl
  have hr : ∀ e, e < 256 → g.rget k e = s.cur.rget k e := fun e he => by rw [h.regs k e he]; simp [hp]
  have regs' : ∀ (g' : Group), (∀ j e, e < 256 → g'.rget j e = if j = k then s.dstReg l.d wide v e (s.cur.rget k e) else g.rget j e) →
      ∀ j e, e < 256 → g'.rget j e = match (if j ∈ ps ++ [k] then val (s.computer l j) else none) with
        | some v => s.dstReg l.d wide v e (s.cur.rget j e)
        | none => s.cur.rget j e := by
    intro g' e' j e he
    rw [e' j e he]
    by_cases hj : j = k
    · subst hj; simp [hv]
    · rw [if_neg hj, h.regs j e he]; simp [hj]
  have thrs' : ∀ (g' : Group), (∀ j, g'.thread j = if j = k then dstThr l.d v (g.thread k) else g.thread j) →
      ∀ j, g'.thread j = (let t := if j ∈ js then thr j (s.cur.thread j) else s.cur.thread j
        match (if j ∈ ps ++ [k] then val (s.computer l j) else none) with
        | some v => dstThr l.d v t
        | none => t) := by
    intro g' e' j
    rw [e']
    by_cases hj : j = k
    · subst hj; rw [if_pos rfl, h.thrs]; simp [hv, hp]
    · rw [if_neg hj, h.thrs]; simp [hj]
  have dirty' : ∀ (g' : Group), (∀ e, e < 256 → (g'.dirty.getLsbD e = true ↔ g.dirty.getLsbD e = true ∨ s.dstHas l.d wide e)) →
      ∀ e, e < 256 → (g'.dirty.getLsbD e = true ↔
        s.cur.dirty.getLsbD e = true ∨ ∃ j ∈ ps ++ [k], (val (s.computer l j)).isSome ∧ s.dstHas l.d wide e) := by
    intro g' e' e he
    rw [e' e he, h.dirty e he]
    constructor
    · rintro ((a | ⟨j, hj, b⟩) | a)
      · exact .inl a
      · exact .inr ⟨j, by simp [hj], b⟩
      · exact .inr ⟨k, by simp, by simp [hv], a⟩
    · rintro (a | ⟨j, hj, b, d⟩)
      · exact .inl (.inl a)
      · exact .inr d
  cases hd : l.d with
  | discard =>
    refine ⟨g, rfl, h.mid, h.spl, ?_, ?_, ?_, h.part⟩
    · exact regs' g fun j e he => by
        rw [hd]; split
        · subst_vars; exact hr e he
        · rfl
    · exact thrs' g fun j => by
        rw [hd]; split
        · subst_vars; rfl
        · rfl
    · exact dirty' g fun e he => by simp [hd, State.dstHas]
  | p n =>
    refine ⟨g.modThr k fun t => t.pset n.val (v.getLsbD 0), ?_, h.mid.modThr _ _, h.spl, ?_, ?_, ?_, h.part⟩
    · simp only [State.setDst, State.withG_modCur]
    · exact regs' _ fun j e he => by
        rw [hd, Group.rget_modThr]; split
        · subst_vars; exact hr e he
        · rfl
    · exact thrs' _ fun j => by rw [hd, Group.thread_modThr]; rfl
    · exact dirty' _ fun e he => by simp [hd, State.dstHas]
  | t n =>
    have en : ∀ m, (s.withG g c).entry m = s.entry m := fun m => h.mid.entry_eq h.midSplit c m
    have lt : ∀ m, s.entry m < 256 := s.entry_lt
    have bit : ∀ (d : BitVec 256) (e f : Nat), e < 256 → f < 256 → (d ||| (1#256 <<< e)).getLsbD f = (d.getLsbD f || decide (f = e)) := by
      intro d e f he hf
      rw [BitVec.getLsbD_or]
      congr 1
      simp only [BitVec.getLsbD_shiftLeft, hf, decide_true, Bool.true_and, BitVec.getLsbD_one]
      by_cases hfe : f < e
      · simp [hfe]; omega
      · simp [hfe]; omega
    cases wide with
    | false =>
      refine ⟨g.rset k (s.entry n.val) (v.setWidth 32), ?_, h.mid.rset _ _ _, h.spl, ?_, ?_, ?_, h.part⟩
      · simp only [State.setDst, State.withG_modCur, en]; simp
      · refine regs' _ fun j e he => ?_
        rw [Group.rget_rset _ _ (lt _) he]
        by_cases hj : j = k
        · subst hj; simp only [true_and, ↓reduceIte, hd, State.dstReg, hr e he]; simp
        · simp [hj]
      · exact thrs' _ fun j => by
          rw [hd, Group.thread_rset]; split
          · subst_vars; rfl
          · rfl
      · refine dirty' _ fun e he => ?_
        simp only [Group.rset, bit _ _ _ (lt _) he, hd, State.dstHas]; simp
    | true =>
      refine ⟨(g.rset k (s.entry n.val) (v.setWidth 32)).rset k (s.entry (n.val + 1)) ((v >>> 32).setWidth 32), ?_,
        (h.mid.rset _ _ _).rset _ _ _, h.spl, ?_, ?_, ?_, h.part⟩
      · simp only [State.setDst, State.withG_modCur, en]; simp
      · refine regs' _ fun j e he => ?_
        rw [Group.rget_rset _ _ (lt _) he, Group.rget_rset _ _ (lt _) he]
        by_cases hj : j = k
        · subst hj; simp only [true_and, ↓reduceIte, hd, State.dstReg, hr e he]
        · simp [hj]
      · exact thrs' _ fun j => by
          rw [hd, Group.thread_rset, Group.thread_rset]; split
          · subst_vars; rfl
          · rfl
      · refine dirty' _ fun e he => ?_
        have := bit (g.rset k (s.entry n.val) (v.setWidth 32)).dirty _ _ (lt (n.val + 1)) he
        simp only [Group.rset] at this ⊢
        rw [this, bit _ _ _ (lt _) he]
        simp [hd, State.dstHas, or_assoc]

end

/-! ## The fold over the threads -/

/-- What instruction i does in a thread is that thread's own affair: the sources of thread k give its result `val k`,
and nothing else changes but thread k, by `thr k`. -/
def LaneLocal (s : State) (i : Instr) (l : Lane) (f : Nat → State → TOut) (val : Nat → Option W64) (thr : Nat → Thr → Thr)
    (ds : List Nat) : Prop :=
  ∀ k ∈ ds, ∀ g x c whole, MidGroup s g x → (∃ p, x = { s.split with part := p, gmask := s.guards l, ins := some i, whole := whole }) →
    SameThread s g k → (∀ j, (SMap.get {} c j).fpen = (s.context j).fpen) →
    ∃ g', ThrStep k (thr k) g g' ∧
      f k (s.withG g c) = match val k with
        | some v => .val v (s.withG g' c)
        | none => .done (s.withG g' c)

/-- The contexts once a thread has read a latch entry that is not live (R36). -/
def State.marked (s : State) (l : Lane) (js : List Nat) : SMap Context :=
  if s.staleLatch l = true ∧ js ≠ [] then (s.modContext s.curTeam.ctx fun c => { c with latch := true }).contexts else s.contexts

theorem State.marked_fpen (s : State) (l : Lane) (js : List Nat) (j : Nat) :
    (SMap.get {} (s.marked l js) j).fpen = (s.context j).fpen := by
  unfold State.marked
  split
  · simp only [State.modContext, State.setContext]
    by_cases h : j = s.curTeam.ctx
    · subst h; simp
    · rw [SMap.get_insert_ne _ _ _ h]; rfl
  · rfl

/-- The contexts with the LATCH bit of one set. -/
def markC (i : Nat) (c : SMap Context) : SMap Context := c.insert i { c.get {} i with latch := true }

theorem markC_markC (i : Nat) (c : SMap Context) : markC i (markC i c) = markC i c := by
  have : SMap.get {} (markC i c) i = { c.get {} i with latch := true } := SMap.get_insert_self ..
  rw [markC, this, markC, insert_insert]

theorem MidGroup.markLatch_eq {s : State} {g : Group} {x : Split} (h : MidGroup s g x) (l : Lane) (js : List Nat) (k : Nat) :
    (s.withG g (s.marked l js)).markLatch l = s.withG g (s.marked l (js ++ [k])) := by
  have e : ∀ c : SMap Context, (s.withG g c).markLatch l = if s.staleLatch l then s.withG g (markC s.curTeam.ctx c) else s.withG g c := by
    intro c
    unfold State.markLatch
    rw [h.staleLatch_eq, h.curTeam_eq]
    rfl
  have e2 : ∀ js, s.marked l js = if s.staleLatch l = true ∧ js ≠ [] then markC s.curTeam.ctx s.contexts else s.contexts :=
    fun js => rfl
  rw [e, e2, e2]
  by_cases hs : s.staleLatch l = true
  · rw [if_pos hs, if_pos (c := _ ∧ (js ++ [k]) ≠ []) ⟨hs, by simp⟩]
    by_cases hj : js = []
    · rw [if_neg (by simp [hj])]
    · rw [if_pos ⟨hs, hj⟩, markC_markC]
  · rw [if_neg hs, if_neg (fun h => hs h.1), if_neg (fun h => hs h.1)]

theorem laneThreads_append (l : Lane) (wide : Bool) (f : Nat → State → TOut) (ks qs : List Nat) (s : State) :
    laneThreads l wide f (ks ++ qs) s = match laneThreads l wide f ks s with
      | .fin s => laneThreads l wide f qs s
      | .out s => .out s := by
  induction ks generalizing s with
  | nil => rfl
  | cons k ks ih =>
    simp only [List.cons_append, laneThreads]
    split
    · split <;> first | rfl | exact ih _
    · exact ih _

section
variable {s : State} {i : Instr} {l : Lane} {wide whole : Bool} {val : Nat → Option W64} {thr : Nat → Thr → Thr}
  {f : Nat → State → TOut}

theorem laneThreads_local (hu : l.u = false) (h4 : s.curSlot ≤ 4) {ds : List Nat} (hf : LaneLocal s i l f val thr ds) (ks : List Nat) (hn : ks.Nodup)
    (hk : ∀ k ∈ ks, s.guard l k = true → k ∈ ds) {ps js hs : List Nat} {g : Group} {x : Split}
    (h : MidRun s i l wide whole val thr ps js hs g x) (hp : ∀ k ∈ ks, k ∉ ps) (hj : ∀ k ∈ ks, k ∉ js) (hh : ∀ k ∈ ks, k ∉ hs) :
    ∃ g' x', laneThreads l wide f ks (s.withG g (s.marked l js)) = .fin (s.withG g' (s.marked l (js ++ ks.filter (s.guard l))))
      ∧ MidRun s i l wide whole val thr (ps ++ ks.filter (s.guard l)) (js ++ ks.filter (s.guard l))
          (hs ++ if never l then [] else ks) g' x' := by
  induction ks generalizing ps js hs g x with
  | nil => exact ⟨g, x, by simp [laneThreads], by simpa using h⟩
  | cons k ks ih =>
    obtain ⟨hkn, hn⟩ := List.nodup_cons.1 hn
    have hp0 := hp k (List.mem_cons_self ..)
    have hj0 := hj k (List.mem_cons_self ..)
    have hh0 := hh k (List.mem_cons_self ..)
    have hk' : ∀ q ∈ ks, s.guard l q = true → q ∈ ds := fun q hq => hk q (List.mem_cons_of_mem _ hq)
    have out : ∀ {ys : List Nat}, (∀ q ∈ k :: ks, q ∉ ys) → ∀ q ∈ ks, q ∉ ys ++ [k] := by
      intro ys hy q hq hq'
      rcases List.mem_append.1 hq' with h' | h'
      · exact hy q (List.mem_cons_of_mem _ hq) h'
      · rw [List.mem_singleton] at h'; exact hkn (h' ▸ hq)
    have out0 : ∀ {ys : List Nat}, (∀ q ∈ k :: ks, q ∉ ys) → ∀ q ∈ ks, q ∉ ys := fun hy q hq => hy q (List.mem_cons_of_mem _ hq)
    have hsame := h.same hp0 hj0
    simp only [laneThreads, hsame.guard_eq]
    by_cases hg : s.guard l k = true
    · rw [if_pos hg, h.mid.markLatch_eq l js k]
      obtain ⟨g1, st, e⟩ := hf k (hk k (List.mem_cons_self ..) hg) g x (s.marked l (js ++ [k])) whole h.mid h.spl hsame (s.marked_fpen l _)
      have h1 := h.compute hp0 hj0 st
      obtain ⟨g2, x2, e2, h2⟩ := h1.hold (s.marked l (js ++ [k])) hp0 hh0 h4
      have hc : s.computer l k = k := by simp [State.computer, hu]
      have nv : never l = false := by
        unfold never
        unfold State.guard at hg
        by_cases h0 : l.gp = 0
        · simp only [h0] at hg
          have : s.pred k 0 = true := by simp [State.pred, Thr.pget]
          simp [this] at hg
          simp [hg]
        · simp [h0]
      rw [e]
      cases hv : val k with
      | none =>
        simp only [e2]
        have h3 : MidRun s i l wide whole val thr (ps ++ [k]) (js ++ [k]) (hs ++ [k]) g2 x2 := by
          have hnone : val (s.computer l k) = none := by rw [hc, hv]
          refine ⟨h2.mid, h2.spl, fun j e' he => ?_, fun j => ?_, fun e' he => ?_, h2.part⟩
          · rw [h2.regs j e' he]
            by_cases hjk : j = k
            · subst hjk; simp [hp0, hnone]
            · simp [hjk]
          · rw [h2.thrs j]
            by_cases hjk : j = k
            · subst hjk; simp [hp0, hnone]
            · simp [hjk]
          · rw [h2.dirty e' he]
            constructor
            · rintro (a | ⟨j, b, c⟩)
              · exact .inl a
              · exact .inr ⟨j, by simp [b], c⟩
            · rintro (a | ⟨j, b, c⟩)
              · exact .inl a
              · rcases List.mem_append.1 b with b | b
                · exact .inr ⟨j, b, c⟩
                · rw [List.mem_singleton] at b; subst b; simp [hnone] at c
        obtain ⟨g4, x4, e4, h4'⟩ := ih hn hk' h3 (out hp) (out hj) (out hh)
        refine ⟨g4, x4, ?_, ?_⟩
        · rw [e4]; simp [hg]
        · simpa [List.filter_cons, hg, nv] using h4'
      | some v =>
        simp only [e2]
        obtain ⟨g3, e3, h3⟩ := h2.write (s.marked l (js ++ [k])) hp0 (by rw [hc]; exact hv)
        rw [e3]
        obtain ⟨g4, x4, e4, h4'⟩ := ih hn hk' h3 (out hp) (out hj) (out hh)
        refine ⟨g4, x4, ?_, ?_⟩
        · rw [e4]; simp [hg]
        · simpa [List.filter_cons, hg, nv] using h4'
    · rw [if_neg hg]
      by_cases nv : never l = true
      · rw [if_pos nv]
        obtain ⟨g4, x4, e4, h4'⟩ := ih hn hk' h (out0 hp) (out0 hj) (out0 hh)
        refine ⟨g4, x4, ?_, ?_⟩
        · rw [e4]; simp [hg]
        · simpa [List.filter_cons, hg, nv] using h4'
      · rw [if_neg nv]
        obtain ⟨g2, x2, e2, h2⟩ := h.hold (s.marked l js) hp0 hh0 h4
        rw [e2]
        obtain ⟨g4, x4, e4, h4'⟩ := ih hn hk' h2 (out0 hp) (out0 hj) (out hh)
        refine ⟨g4, x4, ?_, ?_⟩
        · rw [e4]; simp [hg]
        · simpa [List.filter_cons, hg, nv] using h4'

theorem foldl_copyHolds (h4 : s.curSlot ≤ 4) (c : SMap Context) (ks : List Nat) (hn : ks.Nodup) {ps js hs : List Nat}
    {g : Group} {x : Split} (h : MidRun s i l wide whole val thr ps js hs g x) (hp : ∀ k ∈ ks, k ∉ ps) (hh : ∀ k ∈ ks, k ∉ hs) :
    ∃ g' x', ks.foldl (fun s k => State.copyHolds s l k) (s.withG g c) = s.withG g' c
      ∧ MidRun s i l wide whole val thr ps js (hs ++ ks) g' x' := by
  induction ks generalizing hs g x with
  | nil => exact ⟨g, x, rfl, by simpa using h⟩
  | cons k ks ih =>
    obtain ⟨hkn, hn⟩ := List.nodup_cons.1 hn
    obtain ⟨g2, x2, e2, h2⟩ := h.hold c (hp k (List.mem_cons_self ..)) (hh k (List.mem_cons_self ..)) h4
    obtain ⟨g3, x3, e3, h3⟩ := ih hn h2 (fun q hq => hp q (List.mem_cons_of_mem _ hq)) (fun q hq hq' => by
      rcases List.mem_append.1 hq' with h' | h'
      · exact hh q (List.mem_cons_of_mem _ hq) h'
      · rw [List.mem_singleton] at h'; exact hkn (h' ▸ hq))
    exact ⟨g3, x3, by rw [List.foldl_cons, e2, e3], by simpa using h3⟩

theorem foldl_setDst (c : SMap Context) (ks : List Nat) (hn : ks.Nodup) {ps js hs : List Nat} {v : W64}
    {g : Group} {x : Split} (h : MidRun s i l wide whole val thr ps js hs g x) (hp : ∀ k ∈ ks, k ∉ ps)
    (hv : ∀ k ∈ ks, val (s.computer l k) = some v) :
    ∃ g', (s.withG g c).setDsts l.d wide v ks = s.withG g' c ∧ MidRun s i l wide whole val thr (ps ++ ks) js hs g' x := by
  induction ks generalizing ps g with
  | nil => exact ⟨g, rfl, by simpa using h⟩
  | cons k ks ih =>
    obtain ⟨hkn, hn⟩ := List.nodup_cons.1 hn
    obtain ⟨g2, e2, h2⟩ := h.write c (hp k (List.mem_cons_self ..)) (hv k (List.mem_cons_self ..))
    obtain ⟨g3, e3, h3⟩ := ih hn h2 (fun q hq hq' => by
      rcases List.mem_append.1 hq' with h' | h'
      · exact hp q (List.mem_cons_of_mem _ hq) h'
      · rw [List.mem_singleton] at h'; exact hkn (h' ▸ hq)) (fun q hq => hv q (List.mem_cons_of_mem _ hq))
    refine ⟨g3, ?_, by simpa using h3⟩
    rw [State.setDsts, List.foldl_cons, e2]
    exact e3

theorem MidRun.noVal (h : MidRun s i l wide whole val thr ps js hs g x) {qs : List Nat}
    (hq : ∀ k ∈ qs, val (s.computer l k) = none) : MidRun s i l wide whole val thr (ps ++ qs) js hs g x := by
  have e : ∀ k, (if k ∈ ps ++ qs then val (s.computer l k) else none) = if k ∈ ps then val (s.computer l k) else none := by
    intro k
    by_cases h1 : k ∈ ps
    · simp [h1]
    · by_cases h2 : k ∈ qs
      · simp [h1, h2, hq k h2]
      · simp [h1, h2]
  refine ⟨h.mid, h.spl, fun k e' he => by rw [e]; exact h.regs k e' he, fun k => by rw [e]; exact h.thrs k, fun e' he => ?_, h.part⟩
  rw [h.dirty e' he]
  constructor
  · rintro (a | ⟨j, b, c⟩)
    · exact .inl a
    · exact .inr ⟨j, by simp [b], c⟩
  · rintro (a | ⟨j, b, c⟩)
    · exact .inl a
    · rcases List.mem_append.1 b with b | b
      · exact .inr ⟨j, b, c⟩
      · simp [hq j b] at c

theorem State.active_nodup (s : State) : s.active.Nodup := List.Pairwise.filter _ List.nodup_range
theorem State.toPass_nodup (s : State) : s.toPass.Nodup := by
  unfold State.toPass
  simp only
  split
  · exact s.active_nodup
  · exact List.Pairwise.filter _ s.active_nodup

theorem MidRun.start (hp : Placed s i l) :
    ∃ g x, s.laneBegin i l = .ok (s.withG g s.contexts) ∧ MidRun s i l wide l.u val thr [] [] [] g x := by
  obtain ⟨h1, h2, h3, h4⟩ := hp
  obtain ⟨x, hx⟩ := Option.isSome_iff_exists.1 h3
  have hs : s.split = x := by simp [State.split, hx]
  have m := (MidGroup.refl hx).modSplit (fun x => { x with gmask := s.guards l, ins := some i, whole := l.u }) h4
  refine ⟨_, _, ?_, m, ⟨x.part, by rw [hs]⟩, fun k e he => by simp [Group.rget], fun k => by simp [Group.thread], fun e he => by simp, fun j k => by simp [hs]⟩
  simp only [State.laneBegin, h1, h2, Bool.false_eq_true, ↓reduceIte]
  rfl

theorem guard_never (hg : s.guard l k = true) : never l = false := by
  unfold never
  unfold State.guard at hg
  by_cases h0 : l.gp = 0
  · simp only [h0] at hg
    have : s.pred k 0 = true := by simp [State.pred, Thr.pget]
    simp [this] at hg
    simp [hg]
  · simp [h0]

theorem MidRun.at {u : Bool} (h : MidRun s i l wide u val thr ps js hs g x) (hu : u = l.u) :
    LaneAt s (s.withG g (s.marked l js)) i l wide val thr ps js hs := by
  subst hu
  refine ⟨⟨rfl, fun q hq => ?_, rfl, ?_, ?_, ?_, ?_⟩, ?_, ?_, ?_, ?_⟩
  · exact SMap.find_insert_ne _ _ hq
  · rw [State.withG_cur]; exact Group.eq_of_bare h.mid.same
  · intro n hn hne; rw [State.withG_cur]; exact h.mid.others n hn hne
  · rw [State.withG_cur]; exact h.mid.tail
  · rw [h.mid.split_eq]; obtain ⟨p, rfl⟩ := h.spl; rfl
  · rw [State.withG_cur]; exact h.regs
  · rw [State.withG_cur]; exact h.thrs
  · rw [State.withG_cur]; exact h.dirty
  · rw [h.mid.split_eq]; exact h.part

theorem MidRun.done {u : Bool} (h : MidRun s i l wide u val thr ps js hs g x) (hu : u = l.u) (hp : ps = s.performers l)
    (hj : js = s.computers l) (hh : hs = s.holders l) : LaneDone s (s.withG g (s.marked l js)) i l wide val thr := by
  subst hp hj hh
  exact h.at hu

/-- Instructions that act in each thread by that thread's own sources (R225): what they come to. -/
theorem lane_flow (h4 : s.curSlot ≤ 4) (h : MidRun s i l wide l.u val thr [] [] [] g x) (hf : LaneLocal s i l f val thr (s.computers l)) :
    ∃ u, (if l.u then laneUniform l wide f (s.withG g s.contexts).active (s.withG g s.contexts)
        else laneThreads l wide f (s.withG g s.contexts).toPass (s.withG g s.contexts)) = .fin u
      ∧ LaneDone s u i l wide val thr := by
  have hm := h.midSplit
  have h0 : s.marked l [] = s.contexts := by simp [State.marked]
  by_cases hu : l.u = true
  · simp only [hu, ↓reduceIte]
    have nd := s.active_nodup
    rw [h.mid.active_eq hm]
    cases hact : s.active with
    | nil =>
      refine ⟨s.withG g s.contexts, rfl, h0 ▸ h.done rfl ?_ ?_ ?_⟩
      · simp [State.performers, hu, hact]
      · simp [State.computers, State.performers, hu, hact]
      · simp [State.holders, hu, hact]
    | cons k ks =>
      have hlow : s.lowest = k := by simp [State.lowest, hact]
      have hgk : (s.withG g s.contexts).guard l k = s.guard l k := (h.same (by simp) (by simp)).guard_eq _ _
      rw [hact] at nd
      simp only [laneUniform, hgk]
      by_cases hg : s.guard l k = true
      · have nv := guard_never hg
        have hps : s.performers l = k :: ks := by simp [State.performers, hu, hlow, hg, hact]
        have hjs : s.computers l = [k] := by simp [State.computers, hu, hps]
        have hhs : s.holders l = k :: ks := by simp [State.holders, hu, hact, nv]
        rw [if_pos hg, ← h0, h.mid.markLatch_eq l [] k]
        obtain ⟨g1, st, e1⟩ := hf k (by simp [hjs]) g x (s.marked l ([] ++ [k])) l.u h.mid h.spl (h.same (by simp) (by simp)) (s.marked_fpen l _)
        have h1 := h.compute (by simp) (by simp) st
        obtain ⟨g2, x2, e2, h2⟩ := foldl_copyHolds h4 (s.marked l ([] ++ [k])) (k :: ks) nd h1 (by simp) (by simp)
        have hcmp : ∀ q, s.computer l q = k := fun q => by simp [State.computer, hu, hlow]
        rw [e1]
        cases hv : val k with
        | none =>
          refine ⟨_, ?_, (h2.noVal (qs := k :: ks) fun q _ => by rw [hcmp, hv]).done rfl (by simp [hps]) (by simp [hjs]) (by simp [hhs])⟩
          simp only [State.copyAll, nv, Bool.false_eq_true, ↓reduceIte, e2]
        | some v =>
          obtain ⟨g3, e3, h3⟩ := foldl_setDst (s.marked l ([] ++ [k])) (k :: ks) nd h2 (by simp) (fun q _ => by rw [hcmp, hv])
          refine ⟨_, ?_, h3.done rfl (by simp [hps]) (by simp [hjs]) (by simp [hhs])⟩
          simp only [State.copyAll, nv, Bool.false_eq_true, ↓reduceIte, e2, e3]
      · have hps : s.performers l = [] := by simp [State.performers, hu, hlow, hg]
        have hjs : s.computers l = [] := by simp [State.computers, hu, hps]
        rw [if_neg hg]
        by_cases nv : never l = true
        · refine ⟨s.withG g s.contexts, ?_, h0 ▸ h.done rfl hps.symm hjs.symm (by simp [State.holders, nv])⟩
          simp [State.copyAll, nv]
        · obtain ⟨g2, x2, e2, h2⟩ := foldl_copyHolds h4 s.contexts (k :: ks) nd h (by simp) (by simp)
          refine ⟨s.withG g2 s.contexts, ?_, h0 ▸ h2.done rfl hps.symm hjs.symm (by simp [State.holders, nv, hu, hact])⟩
          simp only [State.copyAll, nv, Bool.false_eq_true, ↓reduceIte, e2]
  · have hu' : l.u = false := by simpa using hu
    simp only [hu', Bool.false_eq_true, ↓reduceIte]
    have hpf : s.performers l = s.toPass.filter (s.guard l) := by simp [State.performers, hu']
    have hcf : s.computers l = s.toPass.filter (s.guard l) := by simp [State.computers, hu', hpf]
    obtain ⟨g', x', e', h'⟩ := laneThreads_local hu' h4 hf s.toPass s.toPass_nodup
      (fun k hk hg => by rw [hcf]; exact List.mem_filter.2 ⟨hk, hg⟩) h (by simp) (by simp) (by simp)
    rw [h.mid.toPass_eq hm, ← h0, e']
    refine ⟨_, rfl, h'.done rfl ?_ ?_ ?_⟩
    · simp [hpf]
    · simp [hcf]
    · simp [State.holders, hu']

/-- The same of an instruction of the shape of State.lane. -/
theorem lane_local (hp : Placed s i l) (hf : LaneLocal s i l f val thr (s.computers l)) :
    ∃ u, s.lane i l wide f = .next (u.laneEnd l.fin) ∧ LaneDone s u i l wide val thr := by
  obtain ⟨g, x, e, h⟩ := MidRun.start (wide := wide) (val := val) (thr := thr) hp
  obtain ⟨u, e', d⟩ := lane_flow hp.2.2.2 h hf
  exact ⟨u, by simp only [State.lane, e, e'], d⟩

theorem threadsOf_sorted (m : W32) : (threadsOf m).Pairwise (· < ·) := List.Pairwise.filter _ List.pairwise_lt_range

theorem State.toPass_sorted (s : State) : s.toPass.Pairwise (· < ·) := by
  unfold State.toPass
  simp only
  split
  · exact threadsOf_sorted _
  · exact List.Pairwise.filter _ (threadsOf_sorted _)

theorem sorted_split {ks : List Nat} (h : ks.Pairwise (· < ·)) {k : Nat} (hk : k ∈ ks) :
    ∃ qs, ks = ks.filter (fun j => decide (j < k)) ++ k :: qs := by
  induction ks with
  | nil => simp at hk
  | cons a ks ih =>
    obtain ⟨ha, hs⟩ := List.pairwise_cons.1 h
    rcases List.mem_cons.1 hk with rfl | hk
    · refine ⟨ks, ?_⟩
      have : (k :: ks).filter (fun j => decide (j < k)) = [] := by
        rw [List.filter_eq_nil_iff]
        intro j hj
        rcases List.mem_cons.1 hj with rfl | hj
        · simp
        · have := ha j hj; simp; omega
      rw [this]; rfl
    · obtain ⟨qs, e⟩ := ih hs hk
      refine ⟨qs, ?_⟩
      rw [List.filter_cons, if_pos (by simpa using ha k hk), List.cons_append, ← e]

/-- An instruction of the shape of State.lane that stops at thread k: the threads below k have computed, and k computes
and stops. -/
theorem lane_stop (hp : Placed s i l) {k : Nat} (hk : k ∈ s.computers l) (hf : LaneLocal s i l f val thr (s.below l k))
    {o : State → TOut} {fin : State → State}
    (ho : ∀ u, (match o u with
      | .trap c v s => Flow.out (s.laneTrap k c v)
      | .suspend why s => .out (s.suspend k why)
      | .stall s => .out (s.holdAt k)
      | .val _ s => .fin s
      | .done s => .fin s) = .out (fin u))
    (hs : ∀ g x c whole, MidGroup s g x → (∃ p, x = { s.split with part := p, gmask := s.guards l, ins := some i, whole := whole }) →
      SameThread s g k → (∀ j, (SMap.get {} c j).fpen = (s.context j).fpen) →
      ∃ g', ThrStep k (thr k) g g' ∧ f k (s.withG g c) = o (s.withG g' c)) :
    ∃ u, s.lane i l wide f = .next (fin u)
      ∧ LaneAt s u i l wide val thr (s.below l k) (s.below l k ++ [k]) (s.heldBelow l k) := by
  obtain ⟨g, x, e, h⟩ := MidRun.start (wide := wide) (val := val) (thr := thr) hp
  have h4 := hp.2.2.2
  have hm := h.midSplit
  have h0 : s.marked l [] = s.contexts := by simp [State.marked]
  simp only [State.lane, e]
  by_cases hu : l.u = true
  · have hb : s.below l k = [] := by simp [State.below, hu]
    have hh : s.heldBelow l k = [] := by simp [State.heldBelow, hu]
    simp only [hu, ↓reduceIte]
    rw [h.mid.active_eq hm]
    cases hact : s.active with
    | nil => simp [State.computers, State.performers, hu, hact] at hk
    | cons q ks =>
      have hlow : s.lowest = q := by simp [State.lowest, hact]
      by_cases hg : s.guard l q = true
      · have hkq : k = q := by simpa [State.computers, State.performers, hu, hlow, hg, hact] using hk
        subst hkq
        have hgk : (s.withG g s.contexts).guard l k = s.guard l k := (h.same (by simp) (by simp)).guard_eq _ _
        simp only [laneUniform, hgk]
        rw [if_pos hg, ← h0, h.mid.markLatch_eq l [] k]
        obtain ⟨g1, st, e1⟩ := hs g x (s.marked l ([] ++ [k])) l.u h.mid h.spl (h.same (by simp) (by simp)) (s.marked_fpen l _)
        have h1 := h.compute (by simp) (by simp) st
        refine ⟨_, ?_, by rw [hb, hh]; exact h1.at rfl⟩
        rw [e1]
        have := ho (s.withG g1 (s.marked l ([] ++ [k])))
        revert this
        cases o (s.withG g1 (s.marked l ([] ++ [k]))) <;> simp
      · simp [State.computers, State.performers, hu, hlow, hg] at hk
  · have hu' : l.u = false := by simpa using hu
    have hk' : k ∈ s.toPass ∧ s.guard l k = true := by
      simpa [State.computers, State.performers, hu'] using hk
    simp only [hu', Bool.false_eq_true, ↓reduceIte]
    rw [h.mid.toPass_eq hm]
    obtain ⟨qs, eq⟩ := sorted_split s.toPass_sorted hk'.1
    have hhb : s.heldBelow l k = s.toPass.filter (fun j => decide (j < k)) := by simp [State.heldBelow, hu']
    have hbl : s.below l k = (s.heldBelow l k).filter (s.guard l) := by
      simp [State.below, State.heldBelow, hu', List.filter_filter]
    have nk : ∀ j ∈ s.heldBelow l k, j ≠ k := by
      intro j hj; rw [hhb] at hj; have := (List.mem_filter.1 hj).2; simp at this; omega
    rw [eq, laneThreads_append, ← h0, ← hhb]
    obtain ⟨g', x', e', h'⟩ := laneThreads_local hu' h4 hf (s.heldBelow l k) (by rw [hhb]; exact List.Pairwise.filter _ s.toPass_nodup)
      (fun j hj hg => by rw [hbl]; exact List.mem_filter.2 ⟨hj, hg⟩) h (by simp) (by simp) (by simp)
    have nv := guard_never hk'.2
    rw [e']
    simp only [List.nil_append, ← hbl, nv, Bool.false_eq_true, ↓reduceIte] at h' ⊢
    have nb : k ∉ s.below l k := fun hb => nk k (by rw [hbl] at hb; exact (List.mem_filter.1 hb).1) rfl
    have same := h'.same nb nb
    simp only [laneThreads, same.guard_eq]
    rw [if_pos hk'.2, h'.mid.markLatch_eq l (s.below l k) k]
    obtain ⟨g1, st, e1⟩ := hs g' x' (s.marked l (s.below l k ++ [k])) l.u h'.mid h'.spl same (s.marked_fpen l _)
    refine ⟨_, ?_, (h'.compute nb nb st).at rfl⟩
    rw [e1]
    have := ho (s.withG g1 (s.marked l (s.below l k ++ [k])))
    revert this
    cases o (s.withG g1 (s.marked l (s.below l k ++ [k]))) <;> simp

end

end Sys2Proof.Machine
end

