-- ==== Sys2Proof/Laws/LaneInt.lean ====
section
/-! SUPPORT. Lane instructions that give each thread a value of its own sources (chapter 11), and what the machine's
integer arithmetic is in the words of the statements. -/

namespace Sys2Proof.Machine
open Sys2Proof

/-- An instruction whose value in thread k is a function of thread k's own sources. -/
theorem lane_gives {s : State} {i : Instr} {l : Lane} {wide : Bool} {r : Nat → State → W64} {val : Nat → W64}
    (he : exec i s = s.lane i l wide fun k s => .val (r k s) s)
    (hr : ∀ k ∈ s.computers l, ∀ g x c, MidGroup s g x → MidSplit s x → SameThread s g k → r k (s.withG g c) = val k) : LaneGives i l wide s val := by
  intro hp
  obtain ⟨u, e, d⟩ := lane_local (f := fun k s => .val (r k s) s) (val := fun k => some (val k)) (thr := fun _ t => t) hp
    (fun k hk g x c w hm hx hs _ => ⟨g, ThrStep.refl k g, by
      simp only [hr k hk g x c hm (let ⟨_, e⟩ := hx; ⟨_, _, _, _, e⟩) hs]⟩)
  exact ⟨u, by rw [he, e], d⟩

/-- An instruction that stops with a trap in the first thread for which `bad` holds. -/
theorem lane_traps {s : State} {i : Instr} {l : Lane} {wide : Bool} {f : Nat → State → TOut} {bad : Nat → Prop}
    {val : Nat → Option W64} {thr : Nat → Thr → Thr} {cause : Nat → Nat} {tval : Nat → W64}
    (he : exec i s = s.lane i l wide f)
    (hl : ∀ ds, (∀ k ∈ ds, k ∈ s.computers l ∧ ¬bad k) → LaneLocal s i l f val thr ds)
    (ht : ∀ k ∈ s.computers l, bad k → ∀ g x c whole, MidGroup s g x →
      (∃ p, x = { s.split with part := p, gmask := s.guards l, ins := some i, whole := whole }) → SameThread s g k →
      (∀ j, (SMap.get {} c j).fpen = (s.context j).fpen) →
      ∃ g', ThrStep k (thr k) g g' ∧ f k (s.withG g c) = .trap (cause k) (tval k) (s.withG g' c)) :
    LaneTrapsAs i l wide s bad val thr cause tval := by
  intro hp k hk hb hnb
  have sub : ∀ j ∈ s.below l k, j ∈ s.computers l := by
    intro j hj
    unfold State.below at hj
    unfold State.computers State.performers
    by_cases hu : l.u = true
    · simp [hu] at hj
    · simp only [hu, Bool.false_eq_true, ↓reduceIte, List.mem_filter, Bool.and_eq_true] at hj ⊢
      exact ⟨hj.1, hj.2.1⟩
  obtain ⟨u, e, d⟩ := lane_stop (wide := wide) (val := val) (thr := thr) (k := k) (f := f)
    (o := fun u => .trap (cause k) (tval k) u) (fin := fun u => u.laneTrap k (cause k) (tval k)) hp hk
    (hl _ fun j hj => ⟨sub j hj, hnb j hj⟩) (fun u => rfl) (ht k hk hb)
  exact ⟨u, by rw [he, e], d⟩

theorem intRead_eq (ty : ITy) (x : W64) : ty.val x.toNat = intRead ty x := by
  have key : ∀ n, ((BitVec.setWidth n x).toNat = x.toNat % 2 ^ n) := fun n => BitVec.toNat_setWidth ..
  cases ty <;> simp only [ITy.val, intRead, ITy.signed, ITy.width, BitVec.toInt, key, Bool.true_and, Bool.false_and, ↓reduceIte, Bool.false_eq_true] <;> norm_num <;> (repeat' split) <;> omega

theorem intRead_eq32 (ty : ITy) (x : W32) : ty.val x.toNat = intRead ty (x.setWidth 64) := by
  rw [← intRead_eq]; simp only [BitVec.toNat_setWidth]; rw [Nat.mod_eq_of_lt (by omega)]

theorem signed_bits {w F : Nat} (r : BitVec w) (hF : w ≤ F) (h : F ≤ 64) :
    (if decide (2 ^ (w - 1) ≤ r.toNat) = true then r.toNat + (2 ^ F - 2 ^ w) else r.toNat) % 2 ^ 64 = ((r.signExtend F).setWidth 64).toNat := by
  have h1 : 2 ^ w ≤ 2 ^ F := Nat.pow_le_pow_right (by omega) hF
  have h2 : 2 ^ F ≤ 2 ^ 64 := Nat.pow_le_pow_right (by omega) h
  have h3 := r.isLt
  rw [BitVec.toNat_setWidth, BitVec.toNat_signExtend, BitVec.toNat_setWidth, BitVec.msb_eq_decide]
  rw [Nat.mod_eq_of_lt (Nat.lt_of_lt_of_le h3 h1)]
  split <;> simp

theorem unsigned_bits {w F : Nat} (r : BitVec w) (hF : w ≤ F) :
    r.toNat % 2 ^ 64 = ((r.setWidth F).setWidth 64).toNat := by
  have h1 : 2 ^ w ≤ 2 ^ F := Nat.pow_le_pow_right (by omega) hF
  rw [BitVec.toNat_setWidth, BitVec.toNat_setWidth, Nat.mod_eq_of_lt (Nat.lt_of_lt_of_le r.isLt h1)]

theorem intWrite_eq (ty : ITy) (v : Int) : BitVec.ofNat 64 (ty.bits v) = intWrite ty v := by
  apply BitVec.eq_of_toNat_eq
  have key : (v % 2 ^ ty.width).toNat = (BitVec.ofInt ty.width v).toNat := by rw [BitVec.toNat_ofInt]; norm_cast
  unfold ITy.bits intWrite
  simp only [key]
  clear key
  generalize BitVec.ofInt ty.width v = r
  rw [BitVec.toNat_ofNat]
  cases ty
  · exact signed_bits (F := 32) r (by decide) (by decide)
  · exact unsigned_bits (F := 32) r (by decide)
  · exact (signed_bits (F := 64) r (by decide) (by decide)).trans (by rw [BitVec.setWidth_eq]; rfl)
  · exact (unsigned_bits (F := 64) r (by decide)).trans (by rw [BitVec.setWidth_eq]; rfl)
  · exact signed_bits (F := 32) r (by decide) (by decide)
  · exact unsigned_bits (F := 32) r (by decide)
  · exact signed_bits (F := 32) r (by decide) (by decide)
  · exact unsigned_bits (F := 32) r (by decide)

theorem intClamp_eq (ty : ITy) (v : Int) : ty.clamp v = intClamp ty v := by
  cases ty <;> simp [ITy.clamp, intClamp, ITy.lo, ITy.hi, ITy.signed, ITy.width] <;> omega

theorem src_val (s : State) (l : Lane) (ty : ITy) (w : Bool) (x : Src) (k : Nat) : ty.val (s.src l w x k) = intRead ty (s.operand l w x k) := by
  unfold State.src State.operand
  split
  · exact intRead_eq _ _
  · exact intRead_eq32 _ _
theorem src_operand (s : State) (l : Lane) (w : Bool) (x : Src) (k : Nat) : s.src l w x k = (s.operand l w x k).toNat := by
  unfold State.src State.operand
  split
  · rfl
  · simp only [BitVec.toNat_setWidth]; omega
end Sys2Proof.Machine
end

