-- ==== Sys2Proof/Laws/Memory.lean ====
section
/-! SUPPORT. Memory: what a read after a write gives, for bytes, little-endian numbers and lines; and that every operation over
memory keeps its canonical form. -/

namespace Sys2Proof.SMap

/-- A paste of canonical entries keeps the canonical form. -/
theorem wf_paste {α : Type} [DecidableEq α] {d : α} (f : Nat → Nat) {src dst : SMap α} (hs : ∀ p ∈ src, p.2 ≠ d) (hd : wf d dst = true) :
    wf d (paste f src dst) = true := by
  induction src generalizing dst with
  | nil => exact hd
  | cons p src ih =>
    obtain ⟨k, v⟩ := p
    exact ih (fun q hq => hs q (List.mem_cons_of_mem _ hq)) (wf_insert hd (hs (k, v) (List.mem_cons_self ..)))

theorem find_filter {α : Type} (f : Nat → Bool) (m : SMap α) (x : Nat) :
    find (m.filter fun p => f p.1) x = if f x then find m x else none := by
  induction m with
  | nil => simp
  | cons p m ih =>
    obtain ⟨k, v⟩ := p
    by_cases hk : f k = true
    · rw [List.filter_cons_of_pos (by exact hk)]
      simp only [find, ih]
      by_cases hx : x = k
      · subst hx; simp [hk]
      · simp [hx]
    · rw [List.filter_cons_of_neg (by exact hk), ih]
      simp only [find]
      by_cases hx : x = k
      · subst hx; simp [hk]
      · simp [hx]

theorem get_drop {α : Type} (d : α) (m : SMap α) (lo n x : Nat) :
    get d (m.drop lo n) x = if lo ≤ x ∧ x < lo + n then d else get d m x := by
  unfold get drop
  rw [find_filter fun k => !(decide (lo ≤ k) && decide (k < lo + n))]
  by_cases h : lo ≤ x ∧ x < lo + n
  · simp [h]
  · rw [if_neg h, if_pos]; simp only [Bool.not_eq_true', Bool.and_eq_false_iff, decide_eq_false_iff_not]; omega

end Sys2Proof.SMap

namespace Sys2Proof.Machine

/-! ## Bytes and numbers -/

@[simp] theorem length_leBytes (n v : Nat) : (leBytes n v).length = n := by
  induction n generalizing v with
  | zero => rfl
  | succ n ih => simp [leBytes, ih]

@[simp] theorem length_rdBytes (m : SMap Byte) (a n : Nat) : (rdBytes m a n).length = n := by
  induction n generalizing a with
  | zero => rfl
  | succ n ih => simp [rdBytes, ih]

/-- Little-endian bytes spell the number they were taken from. -/
theorem ofLeBytes_leBytes (n v : Nat) : ofLeBytes (leBytes n v) = v % 256 ^ n := by
  induction n generalizing v with
  | zero => simp [leBytes, ofLeBytes, Nat.mod_one]
  | succ n ih =>
    have e : (BitVec.ofNat 8 v).toNat = v % 256 := BitVec.toNat_ofNat v 8
    rw [leBytes, ofLeBytes, ih, e, show 256 ^ (n + 1) = 256 * 256 ^ n from pow_succ' 256 n, Nat.mod_mul]

theorem ofLeBytes_lt (b : List Byte) : ofLeBytes b < 256 ^ b.length := by
  induction b with
  | nil => simp [ofLeBytes]
  | cons x b ih =>
    have hx : x.toNat < 256 := x.isLt
    simp only [ofLeBytes, List.length_cons, pow_succ]
    omega

/-- A byte after bytes were written from `a` up: the written one there, the old one elsewhere. -/
theorem get_wrBytes (m : SMap Byte) (a : Nat) (b : List Byte) (x : Nat) :
    SMap.get 0 (wrBytes m a b) x = if h : a ≤ x ∧ x < a + b.length then b[x - a]'(by omega) else SMap.get 0 m x := by
  induction b generalizing m a with
  | nil => rw [dif_neg (by simp)]; rfl
  | cons y b ih =>
    simp only [wrBytes, ih, List.length_cons, SMap.get_put]
    by_cases h : a + 1 ≤ x ∧ x < a + 1 + b.length
    · rw [dif_pos h, dif_pos (by omega)]
      have : x - a = (x - (a + 1)) + 1 := by omega
      simp [this]
    · rw [dif_neg h]
      by_cases hx : x = a
      · subst hx; simp
      · rw [if_neg hx, dif_neg (by omega)]

/-- Bytes outside a write stay. -/
theorem get_wrBytes_of_outside (m : SMap Byte) (a : Nat) (b : List Byte) {x : Nat} (h : x < a ∨ a + b.length ≤ x) :
    SMap.get 0 (wrBytes m a b) x = SMap.get 0 m x := by rw [get_wrBytes, dif_neg (by omega)]

theorem getElem_rdBytes (m : SMap Byte) (a n i : Nat) (h : i < (rdBytes m a n).length) : (rdBytes m a n)[i] = SMap.get 0 m (a + i) := by
  induction n generalizing a i with
  | zero => simp [rdBytes] at h
  | succ n ih =>
    cases i with
    | zero => simp [rdBytes]
    | succ i => simp only [rdBytes, List.getElem_cons_succ]; rw [ih]; congr 1; omega

/-- Reading what was just written gives it back. -/
theorem rdBytes_wrBytes (m : SMap Byte) (a : Nat) (b : List Byte) : rdBytes (wrBytes m a b) a b.length = b := by
  apply List.ext_getElem (by simp)
  intro i h1 h2
  rw [getElem_rdBytes, get_wrBytes, dif_pos (by omega)]
  simp

/-- Bytes read away from a write are the old ones. -/
theorem rdBytes_wrBytes_of_apart (m : SMap Byte) (a : Nat) (b : List Byte) (c n : Nat) (h : c + n ≤ a ∨ a + b.length ≤ c) :
    rdBytes (wrBytes m a b) c n = rdBytes m c n := by
  apply List.ext_getElem (by simp)
  intro i h1 h2
  rw [getElem_rdBytes, getElem_rdBytes, get_wrBytes_of_outside]
  simp at h1
  omega

theorem rdNat_wrNat (m : SMap Byte) (a n v : Nat) : rdNat (wrNat m a n v) a n = v % 256 ^ n := by
  have := rdBytes_wrBytes m a (leBytes n v)
  rw [length_leBytes] at this
  rw [rdNat, wrNat, this, ofLeBytes_leBytes]

theorem rdNat_wrNat_of_apart (m : SMap Byte) (a n v c k : Nat) (h : c + k ≤ a ∨ a + n ≤ c) :
    rdNat (wrNat m a n v) c k = rdNat m c k := by
  rw [rdNat, wrNat, rdBytes_wrBytes_of_apart _ _ _ _ _ (by simpa using h), rdNat]

/-! ## Lines of 128 bytes -/

theorem testBit_lget (d : BitVec 1024) (off n i : Nat) : (lget d off n).testBit i = (decide (i < 8 * n) && d.getLsbD (8 * off + i)) := by
  rw [lget, ← Nat.shiftRight_eq_div_pow, Nat.testBit_mod_two_pow, Nat.testBit_shiftRight]; rfl

/-- A bit of a line after bytes were written: the written one there, the old one elsewhere. -/
theorem getLsbD_lset (d : BitVec 1024) (off n v i : Nat) (h : i < 1024) :
    (lset d off n v).getLsbD i = if 8 * off ≤ i ∧ i < 8 * off + 8 * n then v.testBit (i - 8 * off) else d.getLsbD i := by
  have e : ∀ x : Nat, (BitVec.ofNat 1024 (x * 2 ^ (8 * off))).getLsbD i = (decide (8 * off ≤ i) && x.testBit (i - 8 * off)) := by
    intro x
    rw [BitVec.getLsbD_ofNat, Nat.mul_comm, Nat.testBit_two_pow_mul]
    simp [h]
  simp only [lset, BitVec.getLsbD_or, BitVec.getLsbD_and, BitVec.getLsbD_not, h, decide_true, Bool.true_and, e,
    Nat.testBit_mod_two_pow, Nat.testBit_two_pow_sub_one]
  by_cases h1 : 8 * off ≤ i
  · by_cases h2 : i < 8 * off + 8 * n
    · have h3 : i - 8 * off < 8 * n := by omega
      simp [h1, h2, h3]
    · have h3 : ¬(i - 8 * off < 8 * n) := by omega
      simp [h1, h2, h3]
  · simp [h1]

/-- Reading what was just written into a line gives it back. -/
theorem lget_lset (d : BitVec 1024) (off n v : Nat) (h : off + n ≤ 128) : lget (lset d off n v) off n = v % 2 ^ (8 * n) := by
  apply Nat.eq_of_testBit_eq
  intro i
  rw [testBit_lget, Nat.testBit_mod_two_pow]
  by_cases hi : i < 8 * n
  · rw [getLsbD_lset _ _ _ _ _ (by omega), if_pos (by omega)]; simp
  · simp [hi]

/-- Bytes of a line read away from a write are the old ones. -/
theorem lget_lset_of_apart (d : BitVec 1024) (off n v o k : Nat) (ho : o + k ≤ 128) (h : o + k ≤ off ∨ off + n ≤ o) :
    lget (lset d off n v) o k = lget d o k := by
  apply Nat.eq_of_testBit_eq
  intro i
  rw [testBit_lget, testBit_lget]
  by_cases hi : i < 8 * k
  · rw [getLsbD_lset _ _ _ _ _ (by omega), if_neg (by omega)]
  · simp [hi]
/-! ## The canonical form of bytes -/

theorem wf_wrBytes {m : SMap Byte} (a : Nat) (b : List Byte) (h : m.wf 0 = true) : (wrBytes m a b).wf 0 = true := by
  induction b generalizing m a with
  | nil => exact h
  | cons x b ih => exact ih _ (SMap.wf_put h)

theorem wf_wrNat {m : SMap Byte} (a n v : Nat) (h : m.wf 0 = true) : (wrNat m a n v).wf 0 = true := wf_wrBytes _ _ h

theorem wf_copyBytes {src dst : SMap Byte} (f t n : Nat) (hs : src.wf 0 = true) (hd : dst.wf 0 = true) :
    (copyBytes src dst f t n).wf 0 = true :=
  SMap.wf_paste _ (fun p hp => (SMap.wf_iff.1 (SMap.wf_slice hs)).2 p hp) (SMap.wf_drop hd)

/-! ## The canonical form of memory, kept by every operation -/

theorem wf_mem {m : Mem} : m.wf = true ↔ m.pool.wf 0 = true ∧ m.hbm.wf 0 = true := by simp [Mem.wf]

/-- What leaves the stored bytes alone keeps the canonical form. -/
theorem wf_of_same {m n : Mem} (h : m.wf = true) (hp : n.pool = m.pool) (hh : n.hbm = m.hbm) : n.wf = true := by
  rw [wf_mem] at *; rwa [hp, hh]

theorem wf_foldl {α : Type} (l : List α) (f : Mem → α → Mem) {m : Mem} (h : m.wf = true) (hf : ∀ m a, m.wf = true → (f m a).wf = true) :
    (l.foldl f m).wf = true := by
  induction l generalizing m with
  | nil => exact h
  | cons a l ih => exact ih (hf m a h)

variable {m : Mem}

theorem wf_setHbmLine (a key : Nat) (d : BitVec 1024) (h : m.wf = true) : (m.setHbmLine a key d).wf = true := by
  rw [wf_mem] at *; exact ⟨h.1, wf_wrNat _ _ _ h.2⟩

theorem wf_setPoolLine (a key : Nat) (d : BitVec 1024) (h : m.wf = true) : (m.setPoolLine a key d).wf = true := by
  rw [wf_mem] at *; exact ⟨wf_wrNat _ _ _ h.1, h.2⟩

theorem wf_setFrame (f : Nat) (x : Frame) (h : m.wf = true) : (m.setFrame f x).wf = true := wf_of_same h rfl rfl

theorem wf_modFrame (f : Nat) (g : Frame → Frame) (h : m.wf = true) : (m.modFrame f g).wf = true := wf_of_same h rfl rfl

theorem wf_unitBack (f u : Nat) (h : m.wf = true) : (m.unitBack f u).wf = true := by
  rw [wf_mem] at *; exact ⟨wf_copyBytes _ _ _ h.2 h.1, h.2⟩

theorem wf_writeBack (f : Nat) (h : m.wf = true) : (m.writeBack f).wf = true :=
  wf_modFrame _ _ (wf_foldl _ _ h fun _ _ => wf_unitBack _ _)

theorem wf_wipe (f : Nat) (h : m.wf = true) : (m.wipe f).wf = true := by
  rw [wf_mem] at *; exact ⟨h.1, SMap.wf_drop h.2⟩

theorem wf_loss (k : Nat) (o : Option Nat) (h : m.wf = true) : (m.loss k o).wf = true := by
  unfold Mem.loss
  split
  · exact h
  · dsimp only; split
    · exact wf_of_same h rfl rfl
    · exact h

theorem wf_lineHome (k : Nat) (l : L2Line) (h : m.wf = true) : (m.lineHome k l).wf = true := by
  unfold Mem.lineHome
  dsimp only
  split
  · split
    · exact wf_setHbmLine _ _ _ h
    · exact h
  · split
    · split
      · split
        · exact h
        · exact wf_modFrame _ _ (wf_setHbmLine _ _ _ h)
      · split
        · exact wf_setPoolLine _ _ _ h
        · exact h
    · exact h

theorem wf_evictLine (k : Nat) (h : m.wf = true) : (m.evictLine k).wf = true := by
  unfold Mem.evictLine
  split
  · exact h
  · rename_i l _
    refine wf_of_same (m := (if l.dirty then m.lineHome k l else m).loss k l.owner) (wf_loss _ _ ?_) rfl rfl
    split
    · exact wf_lineHome _ _ h
    · exact h

theorem wf_evictLines (f : Nat → L2Line → Bool) (h : m.wf = true) : (m.evictLines f).wf = true :=
  wf_foldl _ _ h fun _ _ => wf_evictLine _

theorem wf_discardLines (f : Nat → Bool) (h : m.wf = true) : (m.discardLines f).wf = true :=
  wf_of_same (wf_foldl _ _ h fun _ p hm => wf_loss p.1 p.2.owner hm) rfl rfl

theorem wf_flushFrameLines (f : Nat) (h : m.wf = true) : (m.flushFrameLines f).wf = true := by
  unfold Mem.flushFrameLines
  dsimp only
  split <;> exact wf_evictLines _ h

theorem wf_evictFrame (f : Nat) (h : m.wf = true) : (m.evictFrame f).wf = true := by
  unfold Mem.evictFrame
  dsimp only
  refine wf_setFrame _ _ (wf_wipe _ ?_)
  split
  · exact wf_writeBack _ (wf_flushFrameLines _ h)
  · exact wf_flushFrameLines _ h

theorem wf_dropFrame (f : Nat) (h : m.wf = true) : (m.dropFrame f).wf = true :=
  wf_setFrame _ _ (wf_wipe _ (wf_of_same (wf_discardLines (lineIn 0 (m.frame f).pfn) h) rfl rfl))

theorem wf_startFill (f pfn layout : Nat) (h : m.wf = true) : (m.startFill f pfn layout).wf = true :=
  wf_setFrame _ _ (wf_evictFrame _ h)

theorem wf_fillBytes (f : Nat) (h : m.wf = true) : (m.fillBytes f).wf = true := by
  refine wf_modFrame _ _ ?_
  rw [wf_mem] at *; exact ⟨h.1, wf_copyBytes _ _ _ h.1 h.2⟩

theorem wf_relaid (f : Nat) (h : m.wf = true) : (m.relaid f).wf = true := by
  unfold Mem.relaid
  dsimp only
  split
  · exact h
  · refine wf_modFrame _ _ ?_
    split
    · exact h
    · exact wf_writeBack _ h

theorem wf_settle (f : Nat) (h : m.wf = true) : (m.settle f).wf = true := by
  unfold Mem.settle
  dsimp only
  refine wf_relaid _ ?_
  split
  · exact wf_fillBytes _ h
  · exact h

theorem wf_touch (f : Nat) (h : m.wf = true) : (m.touch f).wf = true := wf_modFrame _ _ h

theorem wf_layoutTo (f layout : Nat) (h : m.wf = true) : (m.layoutTo f layout).wf = true := by
  unfold Mem.layoutTo
  split
  · exact h
  · exact wf_of_same h rfl rfl

theorem wf_onFrame (own : Option (Nat × Nat)) (f a layout : Nat) (wait : Bool) (h : m.wf = true) :
    (m.onFrame own f a layout wait).2.wf = true := by
  unfold Mem.onFrame
  dsimp only
  split
  · exact h
  · split
    · exact wf_layoutTo _ _ (wf_touch _ h)
    · exact wf_settle _ (wf_layoutTo _ _ (wf_touch _ h))

theorem wf_noframe (x : SMap W64) (h : m.wf = true) : ({ m with noframe := x } : Mem).wf = true := wf_of_same h rfl rfl

theorem wf_directory (now : W64) (ready : Nat → Bool) (own : Option (Nat × Nat)) (l : Leaf) (a : Nat) (write wait : Bool) (h : m.wf = true) :
    (m.directory now ready own l a write wait).2.wf = true := by
  unfold Mem.directory
  dsimp only
  repeat' (first | split | exact h | exact wf_onFrame _ _ _ _ _ h | exact wf_startFill _ _ _ h | exact wf_noframe _ h | exact wf_fillBytes _ (wf_startFill _ _ _ h))

/-! ### L2 and L1 -/

theorem wf_roomFor (k : Nat) (zero : Bool) (h : m.wf = true) : (m.roomFor k zero).wf = true := by
  have lone : ∀ o : Option Nat, ((o.map m.evictLine).getD m).wf = true := by
    intro o; cases o
    · exact h
    · exact wf_evictLine _ h
  unfold Mem.roomFor
  dsimp only
  repeat' (first | split | exact h | exact lone _)

theorem wf_install (k : Nat) (l : L2Line) (h : m.wf = true) : (m.install k l).wf = true := wf_of_same (wf_roomFor k _ h) rfl rfl

theorem wf_setLine (k : Nat) (l : L2Line) (h : m.wf = true) : (m.setLine k l).wf = true := by
  unfold Mem.setLine
  dsimp only
  split
  · exact wf_of_same (wf_roomFor _ _ h) rfl rfl
  · exact wf_of_same h rfl rfl

theorem wf_filled (f pfn : Nat) (h : m.wf = true) : ((m.startFill f pfn 0).fillBytes f).wf = true := wf_fillBytes _ (wf_startFill _ _ _ h)

theorem wf_homeFrame (k : Nat) (nc : Bool) (h : m.wf = true) : (m.homeFrame k nc).wf = true := by
  unfold Mem.homeFrame
  generalize lineAddr k = a
  generalize a / 65536 % numSets = set
  dsimp only
  split
  · split
    · exact wf_touch _ h
    · exact h
  · split
    · exact h
    · split
      · split
        · exact h
        · exact wf_settle _ (wf_touch _ h)
      · split
        · exact h
        · split
          · exact wf_noframe _ h
          · exact wf_filled _ _ h

theorem wf_rekey (k key : Nat) (h : m.wf = true) : (m.rekey k key).wf = true := by
  unfold Mem.rekey
  repeat' (first | split | exact h | exact wf_evictLine _ h)

theorem wf_bring (k key : Nat) (h : m.wf = true) (nc : Bool := false) : (m.bring k key nc).wf = true := by
  unfold Mem.bring
  dsimp only
  split
  · exact wf_rekey _ _ h
  · exact wf_install _ _ (wf_homeFrame _ _ (wf_rekey _ _ h))

theorem wf_homeWrite (k off n v : Nat) (rt : W48) (h : m.wf = true) : (m.homeWrite k off n v rt).wf = true := by
  unfold Mem.homeWrite
  split
  · exact h
  · rename_i l _
    refine wf_setLine _ _ (wf_of_same (m := if l.mask &&& wordMask off n = 0 then m else m.loss k l.owner) ?_ rfl rfl)
    split
    · exact h
    · exact wf_loss _ _ h

theorem wf_wordsIn (core k key : Nat) (nc : Bool) (words : BitVec 32) (data : BitVec 1024) (register : Bool) (h : m.wf = true) :
    (m.wordsIn core k key nc words data register).wf = true := by
  unfold Mem.wordsIn
  split
  · exact h
  · dsimp only
    split
    · exact wf_bring _ _ h nc
    · refine wf_setLine _ _ ?_
      repeat' (first | split | exact wf_bring _ _ h nc | exact wf_loss _ _ (wf_bring _ _ h nc))

theorem wf_l1Clean (core k : Nat) (register : Bool) (h : m.wf = true) : (m.l1Clean core k register).wf = true := by
  unfold Mem.l1Clean
  split
  · exact h
  · exact wf_of_same (wf_wordsIn _ _ _ _ _ _ _ h) rfl rfl

theorem wf_l1Evict (core k : Nat) (h : m.wf = true) : (m.l1Evict core k).wf = true := wf_of_same (wf_l1Clean core k false h) rfl rfl

theorem wf_l1Rekey (core k key : Nat) (h : m.wf = true) : (m.l1Rekey core k key).wf = true := by
  unfold Mem.l1Rekey
  repeat' (first | split | exact h | exact wf_l1Evict _ _ h)

theorem wf_l1Limit (core banks k most : Nat) (h : m.wf = true) : (m.l1Limit core banks k most).wf = true := by
  have lone : ∀ o : Option Nat, ((o.map fun j => m.l1Evict core (j % 2 ^ 90)).getD m).wf = true := by
    intro o; cases o
    · exact h
    · exact wf_l1Evict _ _ h
  unfold Mem.l1Limit
  repeat' (first | split | exact h | exact lone _)

theorem wf_l1Room (core banks k : Nat) (h : m.wf = true) : (m.l1Room core banks k).wf = true := wf_l1Limit _ _ _ _ h

theorem wf_l1Resize (core old new : Nat) (h : m.wf = true) : (m.l1Resize core old new).wf = true := by
  unfold Mem.l1Resize
  split
  · exact h
  · exact wf_foldl _ _ (wf_foldl _ _ h fun _ _ => wf_l1Evict _ _) fun _ _ => wf_l1Limit _ _ _ _

theorem wf_l1Fill (core banks k key : Nat) (nc : Bool) (d : BitVec 1024) (cs : Bool) (h : m.wf = true) :
    (m.l1Fill core banks k key nc d cs).wf = true := by
  unfold Mem.l1Fill
  dsimp only
  split
  · exact h
  · split
    · exact wf_of_same (wf_l1Rekey core k key h) rfl rfl
    · exact wf_of_same (wf_l1Room core banks k (wf_l1Rekey core k key h)) rfl rfl

theorem wf_demote (core k : Nat) (h : m.wf = true) : (m.demote core k).wf = true := wf_of_same h rfl rfl

theorem wf_l1Store (core k off n v : Nat) (h : m.wf = true) : (m.l1Store core k off n v).wf = true := wf_of_same h rfl rfl

theorem wf_l1Forget (core k off n : Nat) (h : m.wf = true) : (m.l1Forget core k off n).wf = true := by
  unfold Mem.l1Forget
  split
  · exact h
  · exact wf_of_same h rfl rfl

theorem wf_l1Publish (core : Nat) (h : m.wf = true) : (m.l1Publish core).wf = true := wf_foldl _ _ h fun _ _ => wf_l1Clean _ _ _

theorem wf_poolPublish (h : m.wf = true) : m.poolPublish.wf = true :=
  wf_foldl _ _ (wf_foldl _ _ h fun _ p hm => wf_of_same (wf_lineHome p.1 p.2 hm) rfl rfl) fun _ _ => wf_writeBack _

theorem wf_l1Acquire (core : Nat) (h : m.wf = true) : (m.l1Acquire core).wf = true := wf_of_same h rfl rfl

/-! ### Page tables, leases, keys, peers -/

theorem wf_setA (a : Nat) (w : W64) (h : m.wf = true) : (m.setA a w).wf = true := by
  unfold Mem.setA
  split
  · exact h
  · exact wf_homeWrite _ _ _ _ _ (wf_bring _ _ h)

theorem wf_setEntry (a : Nat) (w : W64) (h : m.wf = true) : (m.setEntry a w).wf = true := wf_homeWrite _ _ _ _ _ (wf_bring _ _ h)

theorem wf_zeroPage (a : Nat) (h : m.wf = true) : (m.zeroPage a).wf = true := by
  have d := wf_mem.1 (wf_discardLines (fun k => decide (lineSpace k = 3) && decide (a ≤ lineAddr k) && decide (lineAddr k < a + 4096)) h)
  exact wf_mem.2 ⟨d.1, SMap.wf_drop d.2⟩

theorem wf_clearLeaves (lo hi n table base : Nat) (h : m.wf = true) : (m.clearLeaves lo hi n table base).wf = true := by
  induction n generalizing m table base with
  | zero => exact h
  | succ n ih =>
    unfold Mem.clearLeaves
    refine wf_foldl _ _ h fun m i hm => ?_
    dsimp only
    repeat' (first | split | exact hm | exact wf_setEntry _ _ hm | exact ih _ _ hm)

theorem wf_setLease (slot : Nat) (l : Lease) (h : m.wf = true) : (m.setLease slot l).wf = true := wf_of_same h rfl rfl

theorem wf_leaveActive (slot : Nat) (l : Lease) (now : W64) (t : LeaseState) (h : m.wf = true) :
    (m.leaveActive slot l now t).wf = true := wf_of_same h rfl rfl

theorem wf_clearValid (slot recv : Nat) (h : m.wf = true) : (m.clearValid slot recv).wf = true := by
  unfold Mem.clearValid
  dsimp only
  split
  · exact wf_setLease _ _ h
  · exact wf_foldl _ _ (wf_setLease _ _ h) fun _ _ => wf_l1Evict _ _

theorem wf_poison (f : Nat) (h : m.wf = true) : (m.poison f).wf = true := by
  unfold Mem.poison
  refine wf_modFrame _ _ (wf_discardLines _ ?_)
  split
  · exact wf_fillBytes _ h
  · exact h

theorem wf_dropRange (l : Lease) (wb : Bool) (h : m.wf = true) : (m.dropRange l wb).wf = true := by
  unfold Mem.dropRange
  dsimp only
  refine wf_of_same (wf_foldl _ _ ?_ fun m f hm => ?_) rfl rfl
  · split
    · exact wf_evictLines _ h
    · exact wf_discardLines _ h
  · split
    · exact wf_evictFrame _ hm
    · exact wf_setFrame _ _ (wf_wipe _ hm)

theorem wf_clearAll (slot : Nat) (h : m.wf = true) : (m.clearAll slot).wf = true := wf_foldl _ _ h fun _ _ => wf_clearValid _ _

theorem wf_backWhole (f : Nat) (h : m.wf = true) : (m.backWhole f).wf = true := wf_writeBack _ (wf_flushFrameLines _ h)

theorem wf_revokeBack (l : Lease) (h : m.wf = true) : (m.revokeBack l).wf = true :=
  wf_evictLines _ (wf_foldl _ _ h fun _ _ => wf_backWhole _)

theorem wf_dropLines (pfn : Nat) (h : m.wf = true) : (m.dropLines pfn).wf = true := wf_of_same (wf_discardLines (lineIn 0 pfn) h) rfl rfl

theorem wf_loadKey (id : Nat) (mat : BitVec 512) (h : m.wf = true) : (m.loadKey id mat).wf = true := wf_of_same h rfl rfl

theorem wf_unloadKey (id : Nat) (h : m.wf = true) : (m.unloadKey id).wf = true := by
  unfold Mem.unloadKey
  dsimp only
  exact wf_of_same (wf_foldl _ _ (wf_evictLines _ (wf_foldl _ _ h fun _ _ => wf_l1Evict _ _)) fun _ _ => wf_evictFrame _) rfl rfl

/-- A memory that a failing operation does not give is in its canonical form where it is given. -/
def Fine (r : Except Nat Mem) : Prop := ∀ n, r = .ok n → n.wf = true

theorem fine_ok (h : m.wf = true) : Fine (.ok m) := fun _ e => Except.ok.inj e ▸ h

theorem fine_error (c : Nat) : Fine (.error c) := fun _ e => nomatch e

theorem fine_pin (now : W64) (pfn : Nat) (h : m.wf = true) : Fine (m.pin now pfn) := by
  unfold Mem.pin
  split
  · dsimp only
    split
    · exact fine_ok (wf_settle _ h)
    · split
      · exact fine_error _
      · exact fine_ok (wf_modFrame _ _ (wf_settle _ h))
  · split
    · exact fine_error _
    · generalize (if (m.frame (pfn % numSets)).pinned || (m.frame (pfn % numSets)).carved then 1 else 0) = x
      split
      · exact fine_error _
      · split
        · exact fine_error _
        · exact fine_ok (wf_modFrame _ _ (wf_fillBytes _ (wf_startFill _ _ _ h)))

theorem fine_pgctl (now : W64) (op : PgOp) (f : Nat) (h : m.wf = true) : Fine (m.pgctl now op f) := by
  unfold Mem.pgctl
  cases op <;> dsimp only
  · exact fine_pin _ _ h
  · split
    · exact fine_ok (wf_modFrame _ _ h)
    · exact fine_error _
  · split
    · split
      · exact fine_error _
      · exact fine_ok (wf_evictFrame _ (wf_settle _ h))
    · exact fine_ok h
  · split
    · split
      · exact fine_error _
      · exact fine_ok (wf_writeBack _ (wf_settle _ h))
    · exact fine_error _
  · split
    · exact fine_error _
    · split
      · exact fine_error _
      · split
        · exact fine_error _
        · exact fine_ok (wf_setFrame _ _ (wf_evictFrame _ (wf_settle _ h)))
  · split
    · exact fine_error _
    · split
      · exact fine_error _
      · exact fine_ok (wf_setFrame _ _ (wf_wipe _ (wf_discardLines _ h)))

theorem wf_pgctlRun (now : W64) (op : PgOp) (first i n : Nat) (h : m.wf = true) : (m.pgctlRun now op first i n).2.wf = true := by
  induction n generalizing m i with
  | zero => exact h
  | succ n ih =>
    unfold Mem.pgctlRun
    split
    · exact h
    · rename_i e; exact ih _ (fine_pgctl _ _ _ h _ e)

theorem wf_flushRange (p n : Nat) (h : m.wf = true) : (m.flushRange p n).wf = true :=
  wf_foldl _ _ (wf_foldl _ _ (wf_foldl _ _ h fun _ _ => wf_l1Clean _ _ _) fun _ e hm => wf_of_same (wf_lineHome e.1 e.2 hm) rfl rfl)
    fun _ _ => wf_writeBack _

theorem wf_homeRead (k : Nat) (rt : W48) (h : m.wf = true) : (m.homeRead k rt).wf = true := by
  unfold Mem.homeRead
  split
  · exact h
  · exact wf_of_same h rfl rfl

theorem wf_devWrite (rt : W48) (ps : List (W64 × Nat)) (b : List Byte) (w : W48) (h : m.wf = true) : (m.devWrite rt ps b w).1.wf = true := by
  induction ps generalizing m b w with
  | nil => exact h
  | cons p ps ih => exact ih _ _ (wf_homeWrite _ _ _ _ _ (wf_bring _ _ h))

theorem wf_devRead (rt : W48) (ps : List (W64 × Nat)) (h : m.wf = true) : (m.devRead rt ps).2.2.wf = true := by
  induction ps generalizing m with
  | nil => exact h
  | cons p ps ih => exact ih (wf_homeRead _ _ (wf_bring _ _ h))

theorem wf_fatomAt (a : Nat) (f : AtomF) (rt : W48) (h : m.wf = true) : (m.fatomAt a f rt).2.2.wf = true :=
  wf_homeWrite _ _ _ _ _ (wf_bring _ _ h)

/-- Memory after reset is in its canonical form. -/
theorem wf_reset : State.reset.mem.wf = true := rfl

end Sys2Proof.Machine
end

