-- ==== Sys2Proof/Laws/Scalar.lean ====
section
/-! SUPPORT. What the shared scalar operations do, in the vocabulary of Safety.lean. -/

namespace Sys2Proof.Machine

theorem Group.swrite_eta (g : Group) (r : BitVec 6) (v : W64) : g.swrite r v = { g with sreg := (g.swrite r v).sreg } := by
  unfold Group.swrite; split <;> rfl

theorem onlyGroup_modCur (s : State) (f : Group → Group) : OnlyGroup s.curGid s (s.modCur f) :=
  ⟨rfl, fun _ h => State.find_setGroup_ne s _ h⟩

theorem OnlyGroup.trans {g : Nat} {s t u : State} (h : OnlyGroup g s t) (h' : OnlyGroup g t u) : OnlyGroup g s u := by
  obtain ⟨a, b⟩ := h
  obtain ⟨c, d⟩ := h'
  exact ⟨by rw [c]; rw [a], fun k hk => (d k hk).trans (b k hk)⟩

theorem onlyGroup_modCur2 (s : State) (f g : Group → Group) : OnlyGroup s.curGid s ((s.modCur f).modCur g) :=
  OnlyGroup.trans (onlyGroup_modCur s f) (onlyGroup_modCur (s.modCur f) g)

theorem scalarPut_sput (s : State) (d : BitVec 6) (v : W64) : ScalarPut s (s.sput d v) d v := by
  have hc : (s.sput d v).cur = { s.cur with sreg := (s.cur.swrite d v).sreg, spc := s.cur.spc + 4, swait := none } := by
    have e : (s.sput d v).cur = { s.cur.swrite d v with spc := (s.cur.swrite d v).spc + 4, swait := none } := by
      show ((s.modCur _).modCur _).cur = _
      rw [State.cur_modCur, State.cur_modCur]
    rw [e]; rw [Group.swrite_spc]; rw [Group.swrite_eta]
  refine ⟨⟨?_, ?_⟩, ?_, ?_, fun r => State.sread_sput s d r v⟩
  · exact onlyGroup_modCur2 s (fun g => g.swrite d v) fun g => { g with spc := g.spc + 4, swait := none }
  · rw [hc]
  · rw [hc]
  · rw [hc]

/-- An instruction that answers `sput` gives its register the value. -/
theorem ScalarGives.of_sput {i : Instr} {s : State} {d : BitVec 6} {v w : W64} (h : exec i s = .next (s.sput d w)) (e : w = v) :
    ScalarGives i s d v := ⟨_, h, e ▸ scalarPut_sput s d w⟩

theorem scalarJump_sjump (s : State) (pc : W64) : ScalarJump s (s.sjump pc) pc := by
  have hc : (s.sjump pc).cur = { s.cur with spc := pc, swait := none } := State.cur_modCur _ _
  exact ⟨⟨onlyGroup_modCur s _, by rw [hc]⟩, by rw [hc], by rw [hc], fun r => State.sread_sjump s pc r⟩

theorem scalarJump_bump (s : State) : ScalarJump s s.bump (s.cur.spc + 4) := scalarJump_sjump s _

/-- A register write and a jump. -/
theorem swrite_sjump (s : State) (d : BitVec 6) (v pc : W64) :
    ScalarOnly s ((s.swrite d v).sjump pc) ∧ ((s.swrite d v).sjump pc).cur.spc = pc
      ∧ ((s.swrite d v).sjump pc).cur.swait = none ∧ RegsAfter s ((s.swrite d v).sjump pc) d v := by
  have hc : ((s.swrite d v).sjump pc).cur = { s.cur with sreg := (s.cur.swrite d v).sreg, spc := pc, swait := none } := by
    have e : ((s.swrite d v).sjump pc).cur = { s.cur.swrite d v with spc := pc, swait := none } := by
      show ((s.modCur _).modCur _).cur = _
      rw [State.cur_modCur, State.cur_modCur]
    rw [e]; rw [Group.swrite_eta]
  refine ⟨⟨?_, ?_⟩, ?_, ?_, fun r => ?_⟩
  · exact onlyGroup_modCur2 s (fun g => g.swrite d v) fun g => { g with spc := pc, swait := none }
  · rw [hc]
  · rw [hc]
  · rw [hc]
  · rw [State.sread_sjump, State.sread_swrite]

theorem ScalarSets.of_cput {i : Instr} {s : State} {n : Fin 8} {b : Bool} (h : exec i s = .next (s.cput n b)) : ScalarSets i s n b := by
  have hc : (s.cput n b).cur = { s.cur with cond := (s.cur.cwrite n b).cond, spc := s.cur.spc + 4, swait := none } := by
    have e : (s.cput n b).cur = { s.cur.cwrite n b with spc := (s.cur.cwrite n b).spc + 4, swait := none } := by
      show ((s.modCur _).modCur _).cur = _
      rw [State.cur_modCur, State.cur_modCur]
    rw [e, Group.cwrite_spc]
    have : s.cur.cwrite n b = { s.cur with cond := (s.cur.cwrite n b).cond } := by unfold Group.cwrite; split <;> rfl
    rw [this]
  refine ⟨_, h, onlyGroup_modCur2 s (fun g => g.cwrite n b) fun g => { g with spc := g.spc + 4, swait := none }, by rw [hc], fun m => ?_⟩
  rw [hc]
  exact Group.cread_cwrite s.cur n m b

end Sys2Proof.Machine
end

