-- ==== Sys2Proof/Laws/Tables.lean ====
section
/-! SUPPORT. What the updates of launches, commands, transfers, jobs, leases and frames leave alone. -/

namespace Sys2Proof.Machine

/-! ### State.setLaunch -/

@[simp] theorem State.setLaunch_agenda (s : State) (n : Nat) (l : Launch) : (s.setLaunch n l).agenda = s.agenda := rfl
@[simp] theorem State.setLaunch_curGid (s : State) (n : Nat) (l : Launch) : (s.setLaunch n l).curGid = s.curGid := rfl
@[simp] theorem State.setLaunch_curSlot (s : State) (n : Nat) (l : Launch) : (s.setLaunch n l).curSlot = s.curSlot := rfl
@[simp] theorem State.setLaunch_free (s : State) (n : Nat) (l : Launch) : (s.setLaunch n l).free = s.free := rfl
@[simp] theorem State.setLaunch_timeNs (s : State) (n : Nat) (l : Launch) : (s.setLaunch n l).timeNs = s.timeNs := rfl
@[simp] theorem State.setLaunch_cycle (s : State) (n : Nat) (l : Launch) : (s.setLaunch n l).cycle = s.cycle := rfl
@[simp] theorem State.setLaunch_mem (s : State) (n : Nat) (l : Launch) : (s.setLaunch n l).mem = s.mem := rfl
@[simp] theorem State.setLaunch_groups (s : State) (n : Nat) (l : Launch) : (s.setLaunch n l).groups = s.groups := rfl
@[simp] theorem State.setLaunch_nextGid (s : State) (n : Nat) (l : Launch) : (s.setLaunch n l).nextGid = s.nextGid := rfl
@[simp] theorem State.setLaunch_teams (s : State) (n : Nat) (l : Launch) : (s.setLaunch n l).teams = s.teams := rfl
@[simp] theorem State.setLaunch_nextTeam (s : State) (n : Nat) (l : Launch) : (s.setLaunch n l).nextTeam = s.nextTeam := rfl
@[simp] theorem State.setLaunch_lanePairs (s : State) (n : Nat) (l : Launch) : (s.setLaunch n l).lanePairs = s.lanePairs := rfl
@[simp] theorem State.setLaunch_cores (s : State) (n : Nat) (l : Launch) : (s.setLaunch n l).cores = s.cores := rfl
@[simp] theorem State.setLaunch_rings (s : State) (n : Nat) (l : Launch) : (s.setLaunch n l).rings = s.rings := rfl
@[simp] theorem State.setLaunch_contexts (s : State) (n : Nat) (l : Launch) : (s.setLaunch n l).contexts = s.contexts := rfl
@[simp] theorem State.setLaunch_queues (s : State) (n : Nat) (l : Launch) : (s.setLaunch n l).queues = s.queues := rfl
@[simp] theorem State.setLaunch_cmds (s : State) (n : Nat) (l : Launch) : (s.setLaunch n l).cmds = s.cmds := rfl
@[simp] theorem State.setLaunch_nextCmd (s : State) (n : Nat) (l : Launch) : (s.setLaunch n l).nextCmd = s.nextCmd := rfl
@[simp] theorem State.setLaunch_nextLaunch (s : State) (n : Nat) (l : Launch) : (s.setLaunch n l).nextLaunch = s.nextLaunch := rfl
@[simp] theorem State.setLaunch_cp (s : State) (n : Nat) (l : Launch) : (s.setLaunch n l).cp = s.cp := rfl
@[simp] theorem State.setLaunch_pager (s : State) (n : Nat) (l : Launch) : (s.setLaunch n l).pager = s.pager := rfl
@[simp] theorem State.setLaunch_fabric (s : State) (n : Nat) (l : Launch) : (s.setLaunch n l).fabric = s.fabric := rfl
@[simp] theorem State.setLaunch_jobs (s : State) (n : Nat) (l : Launch) : (s.setLaunch n l).jobs = s.jobs := rfl
@[simp] theorem State.setLaunch_nextJob (s : State) (n : Nat) (l : Launch) : (s.setLaunch n l).nextJob = s.nextJob := rfl
@[simp] theorem State.setLaunch_host (s : State) (n : Nat) (l : Launch) : (s.setLaunch n l).host = s.host := rfl
@[simp] theorem State.setLaunch_boot (s : State) (n : Nat) (l : Launch) : (s.setLaunch n l).boot = s.boot := rfl

/-! ### State.modCmd -/

@[simp] theorem State.modCmd_agenda (s : State) (n : Nat) (f : Cmd → Cmd) : (s.modCmd n f).agenda = s.agenda := rfl
@[simp] theorem State.modCmd_curGid (s : State) (n : Nat) (f : Cmd → Cmd) : (s.modCmd n f).curGid = s.curGid := rfl
@[simp] theorem State.modCmd_curSlot (s : State) (n : Nat) (f : Cmd → Cmd) : (s.modCmd n f).curSlot = s.curSlot := rfl
@[simp] theorem State.modCmd_free (s : State) (n : Nat) (f : Cmd → Cmd) : (s.modCmd n f).free = s.free := rfl
@[simp] theorem State.modCmd_timeNs (s : State) (n : Nat) (f : Cmd → Cmd) : (s.modCmd n f).timeNs = s.timeNs := rfl
@[simp] theorem State.modCmd_cycle (s : State) (n : Nat) (f : Cmd → Cmd) : (s.modCmd n f).cycle = s.cycle := rfl
@[simp] theorem State.modCmd_mem (s : State) (n : Nat) (f : Cmd → Cmd) : (s.modCmd n f).mem = s.mem := rfl
@[simp] theorem State.modCmd_groups (s : State) (n : Nat) (f : Cmd → Cmd) : (s.modCmd n f).groups = s.groups := rfl
@[simp] theorem State.modCmd_nextGid (s : State) (n : Nat) (f : Cmd → Cmd) : (s.modCmd n f).nextGid = s.nextGid := rfl
@[simp] theorem State.modCmd_teams (s : State) (n : Nat) (f : Cmd → Cmd) : (s.modCmd n f).teams = s.teams := rfl
@[simp] theorem State.modCmd_nextTeam (s : State) (n : Nat) (f : Cmd → Cmd) : (s.modCmd n f).nextTeam = s.nextTeam := rfl
@[simp] theorem State.modCmd_lanePairs (s : State) (n : Nat) (f : Cmd → Cmd) : (s.modCmd n f).lanePairs = s.lanePairs := rfl
@[simp] theorem State.modCmd_cores (s : State) (n : Nat) (f : Cmd → Cmd) : (s.modCmd n f).cores = s.cores := rfl
@[simp] theorem State.modCmd_rings (s : State) (n : Nat) (f : Cmd → Cmd) : (s.modCmd n f).rings = s.rings := rfl
@[simp] theorem State.modCmd_contexts (s : State) (n : Nat) (f : Cmd → Cmd) : (s.modCmd n f).contexts = s.contexts := rfl
@[simp] theorem State.modCmd_queues (s : State) (n : Nat) (f : Cmd → Cmd) : (s.modCmd n f).queues = s.queues := rfl
@[simp] theorem State.modCmd_nextCmd (s : State) (n : Nat) (f : Cmd → Cmd) : (s.modCmd n f).nextCmd = s.nextCmd := rfl
@[simp] theorem State.modCmd_launches (s : State) (n : Nat) (f : Cmd → Cmd) : (s.modCmd n f).launches = s.launches := rfl
@[simp] theorem State.modCmd_nextLaunch (s : State) (n : Nat) (f : Cmd → Cmd) : (s.modCmd n f).nextLaunch = s.nextLaunch := rfl
@[simp] theorem State.modCmd_cp (s : State) (n : Nat) (f : Cmd → Cmd) : (s.modCmd n f).cp = s.cp := rfl
@[simp] theorem State.modCmd_pager (s : State) (n : Nat) (f : Cmd → Cmd) : (s.modCmd n f).pager = s.pager := rfl
@[simp] theorem State.modCmd_fabric (s : State) (n : Nat) (f : Cmd → Cmd) : (s.modCmd n f).fabric = s.fabric := rfl
@[simp] theorem State.modCmd_jobs (s : State) (n : Nat) (f : Cmd → Cmd) : (s.modCmd n f).jobs = s.jobs := rfl
@[simp] theorem State.modCmd_nextJob (s : State) (n : Nat) (f : Cmd → Cmd) : (s.modCmd n f).nextJob = s.nextJob := rfl
@[simp] theorem State.modCmd_host (s : State) (n : Nat) (f : Cmd → Cmd) : (s.modCmd n f).host = s.host := rfl
@[simp] theorem State.modCmd_boot (s : State) (n : Nat) (f : Cmd → Cmd) : (s.modCmd n f).boot = s.boot := rfl

/-! ### State.setXfer -/

@[simp] theorem State.setXfer_agenda (s : State) (n : Nat) (x : Xfer) : (s.setXfer n x).agenda = s.agenda := rfl
@[simp] theorem State.setXfer_curGid (s : State) (n : Nat) (x : Xfer) : (s.setXfer n x).curGid = s.curGid := rfl
@[simp] theorem State.setXfer_curSlot (s : State) (n : Nat) (x : Xfer) : (s.setXfer n x).curSlot = s.curSlot := rfl
@[simp] theorem State.setXfer_free (s : State) (n : Nat) (x : Xfer) : (s.setXfer n x).free = s.free := rfl
@[simp] theorem State.setXfer_timeNs (s : State) (n : Nat) (x : Xfer) : (s.setXfer n x).timeNs = s.timeNs := rfl
@[simp] theorem State.setXfer_cycle (s : State) (n : Nat) (x : Xfer) : (s.setXfer n x).cycle = s.cycle := rfl
@[simp] theorem State.setXfer_mem (s : State) (n : Nat) (x : Xfer) : (s.setXfer n x).mem = s.mem := rfl
@[simp] theorem State.setXfer_groups (s : State) (n : Nat) (x : Xfer) : (s.setXfer n x).groups = s.groups := rfl
@[simp] theorem State.setXfer_nextGid (s : State) (n : Nat) (x : Xfer) : (s.setXfer n x).nextGid = s.nextGid := rfl
@[simp] theorem State.setXfer_teams (s : State) (n : Nat) (x : Xfer) : (s.setXfer n x).teams = s.teams := rfl
@[simp] theorem State.setXfer_nextTeam (s : State) (n : Nat) (x : Xfer) : (s.setXfer n x).nextTeam = s.nextTeam := rfl
@[simp] theorem State.setXfer_lanePairs (s : State) (n : Nat) (x : Xfer) : (s.setXfer n x).lanePairs = s.lanePairs := rfl
@[simp] theorem State.setXfer_cores (s : State) (n : Nat) (x : Xfer) : (s.setXfer n x).cores = s.cores := rfl
@[simp] theorem State.setXfer_rings (s : State) (n : Nat) (x : Xfer) : (s.setXfer n x).rings = s.rings := rfl
@[simp] theorem State.setXfer_contexts (s : State) (n : Nat) (x : Xfer) : (s.setXfer n x).contexts = s.contexts := rfl
@[simp] theorem State.setXfer_queues (s : State) (n : Nat) (x : Xfer) : (s.setXfer n x).queues = s.queues := rfl
@[simp] theorem State.setXfer_cmds (s : State) (n : Nat) (x : Xfer) : (s.setXfer n x).cmds = s.cmds := rfl
@[simp] theorem State.setXfer_nextCmd (s : State) (n : Nat) (x : Xfer) : (s.setXfer n x).nextCmd = s.nextCmd := rfl
@[simp] theorem State.setXfer_launches (s : State) (n : Nat) (x : Xfer) : (s.setXfer n x).launches = s.launches := rfl
@[simp] theorem State.setXfer_nextLaunch (s : State) (n : Nat) (x : Xfer) : (s.setXfer n x).nextLaunch = s.nextLaunch := rfl
@[simp] theorem State.setXfer_cp (s : State) (n : Nat) (x : Xfer) : (s.setXfer n x).cp = s.cp := rfl
@[simp] theorem State.setXfer_pager (s : State) (n : Nat) (x : Xfer) : (s.setXfer n x).pager = s.pager := rfl
@[simp] theorem State.setXfer_jobs (s : State) (n : Nat) (x : Xfer) : (s.setXfer n x).jobs = s.jobs := rfl
@[simp] theorem State.setXfer_nextJob (s : State) (n : Nat) (x : Xfer) : (s.setXfer n x).nextJob = s.nextJob := rfl
@[simp] theorem State.setXfer_host (s : State) (n : Nat) (x : Xfer) : (s.setXfer n x).host = s.host := rfl
@[simp] theorem State.setXfer_boot (s : State) (n : Nat) (x : Xfer) : (s.setXfer n x).boot = s.boot := rfl

/-! ### State.setJob -/

@[simp] theorem State.setJob_agenda (s : State) (n : Nat) (j : Job) : (s.setJob n j).agenda = s.agenda := rfl
@[simp] theorem State.setJob_curGid (s : State) (n : Nat) (j : Job) : (s.setJob n j).curGid = s.curGid := rfl
@[simp] theorem State.setJob_curSlot (s : State) (n : Nat) (j : Job) : (s.setJob n j).curSlot = s.curSlot := rfl
@[simp] theorem State.setJob_free (s : State) (n : Nat) (j : Job) : (s.setJob n j).free = s.free := rfl
@[simp] theorem State.setJob_timeNs (s : State) (n : Nat) (j : Job) : (s.setJob n j).timeNs = s.timeNs := rfl
@[simp] theorem State.setJob_cycle (s : State) (n : Nat) (j : Job) : (s.setJob n j).cycle = s.cycle := rfl
@[simp] theorem State.setJob_mem (s : State) (n : Nat) (j : Job) : (s.setJob n j).mem = s.mem := rfl
@[simp] theorem State.setJob_groups (s : State) (n : Nat) (j : Job) : (s.setJob n j).groups = s.groups := rfl
@[simp] theorem State.setJob_nextGid (s : State) (n : Nat) (j : Job) : (s.setJob n j).nextGid = s.nextGid := rfl
@[simp] theorem State.setJob_teams (s : State) (n : Nat) (j : Job) : (s.setJob n j).teams = s.teams := rfl
@[simp] theorem State.setJob_nextTeam (s : State) (n : Nat) (j : Job) : (s.setJob n j).nextTeam = s.nextTeam := rfl
@[simp] theorem State.setJob_lanePairs (s : State) (n : Nat) (j : Job) : (s.setJob n j).lanePairs = s.lanePairs := rfl
@[simp] theorem State.setJob_cores (s : State) (n : Nat) (j : Job) : (s.setJob n j).cores = s.cores := rfl
@[simp] theorem State.setJob_rings (s : State) (n : Nat) (j : Job) : (s.setJob n j).rings = s.rings := rfl
@[simp] theorem State.setJob_contexts (s : State) (n : Nat) (j : Job) : (s.setJob n j).contexts = s.contexts := rfl
@[simp] theorem State.setJob_queues (s : State) (n : Nat) (j : Job) : (s.setJob n j).queues = s.queues := rfl
@[simp] theorem State.setJob_cmds (s : State) (n : Nat) (j : Job) : (s.setJob n j).cmds = s.cmds := rfl
@[simp] theorem State.setJob_nextCmd (s : State) (n : Nat) (j : Job) : (s.setJob n j).nextCmd = s.nextCmd := rfl
@[simp] theorem State.setJob_launches (s : State) (n : Nat) (j : Job) : (s.setJob n j).launches = s.launches := rfl
@[simp] theorem State.setJob_nextLaunch (s : State) (n : Nat) (j : Job) : (s.setJob n j).nextLaunch = s.nextLaunch := rfl
@[simp] theorem State.setJob_cp (s : State) (n : Nat) (j : Job) : (s.setJob n j).cp = s.cp := rfl
@[simp] theorem State.setJob_pager (s : State) (n : Nat) (j : Job) : (s.setJob n j).pager = s.pager := rfl
@[simp] theorem State.setJob_fabric (s : State) (n : Nat) (j : Job) : (s.setJob n j).fabric = s.fabric := rfl
@[simp] theorem State.setJob_nextJob (s : State) (n : Nat) (j : Job) : (s.setJob n j).nextJob = s.nextJob := rfl
@[simp] theorem State.setJob_host (s : State) (n : Nat) (j : Job) : (s.setJob n j).host = s.host := rfl
@[simp] theorem State.setJob_boot (s : State) (n : Nat) (j : Job) : (s.setJob n j).boot = s.boot := rfl

theorem State.setLaunch_find (s : State) (n m : Nat) (l : Launch) :
    (s.setLaunch n l).launches.find m = if m = n then some l else s.launches.find m := SMap.find_insert _ _ _ _
theorem State.setXfer_find (s : State) (n m : Nat) (x : Xfer) :
    (s.setXfer n x).fabric.xfers.find m = if m = n then some x else s.fabric.xfers.find m := SMap.find_insert _ _ _ _
theorem State.setJob_find (s : State) (n m : Nat) (j : Job) :
    (s.setJob n j).jobs.find m = if m = n then some j else s.jobs.find m := SMap.find_insert _ _ _ _

/-! ### Mem.setFrame -/

@[simp] theorem Mem.setFrame_pool (m : Mem) (f : Nat) (x : Frame) : (m.setFrame f x).pool = m.pool := rfl
@[simp] theorem Mem.setFrame_hbm (m : Mem) (f : Nat) (x : Frame) : (m.setFrame f x).hbm = m.hbm := rfl
@[simp] theorem Mem.setFrame_poolKey (m : Mem) (f : Nat) (x : Frame) : (m.setFrame f x).poolKey = m.poolKey := rfl
@[simp] theorem Mem.setFrame_hbmKey (m : Mem) (f : Nat) (x : Frame) : (m.setFrame f x).hbmKey = m.hbmKey := rfl
@[simp] theorem Mem.setFrame_keys (m : Mem) (f : Nat) (x : Frame) : (m.setFrame f x).keys = m.keys := rfl
@[simp] theorem Mem.setFrame_leases (m : Mem) (f : Nat) (x : Frame) : (m.setFrame f x).leases = m.leases := rfl
@[simp] theorem Mem.setFrame_hints (m : Mem) (f : Nat) (x : Frame) : (m.setFrame f x).hints = m.hints := rfl
@[simp] theorem Mem.setFrame_lostNodes (m : Mem) (f : Nat) (x : Frame) : (m.setFrame f x).lostNodes = m.lostNodes := rfl
@[simp] theorem Mem.setFrame_deafNodes (m : Mem) (f : Nat) (x : Frame) : (m.setFrame f x).deafNodes = m.deafNodes := rfl
@[simp] theorem Mem.setFrame_noframe (m : Mem) (f : Nat) (x : Frame) : (m.setFrame f x).noframe = m.noframe := rfl
@[simp] theorem Mem.setFrame_relayout (m : Mem) (f : Nat) (x : Frame) : (m.setFrame f x).relayout = m.relayout := rfl
@[simp] theorem Mem.setFrame_poolErr (m : Mem) (f : Nat) (x : Frame) : (m.setFrame f x).poolErr = m.poolErr := rfl
@[simp] theorem Mem.setFrame_bankRes (m : Mem) (f : Nat) (x : Frame) : (m.setFrame f x).bankRes = m.bankRes := rfl
@[simp] theorem Mem.setFrame_tlb (m : Mem) (f : Nat) (x : Frame) : (m.setFrame f x).tlb = m.tlb := rfl
@[simp] theorem Mem.setFrame_walks (m : Mem) (f : Nat) (x : Frame) : (m.setFrame f x).walks = m.walks := rfl
@[simp] theorem Mem.setFrame_atc (m : Mem) (f : Nat) (x : Frame) : (m.setFrame f x).atc = m.atc := rfl
@[simp] theorem Mem.setFrame_spring (m : Mem) (f : Nat) (x : Frame) : (m.setFrame f x).spring = m.spring := rfl
@[simp] theorem Mem.setFrame_springOrder (m : Mem) (f : Nat) (x : Frame) : (m.setFrame f x).springOrder = m.springOrder := rfl
@[simp] theorem Mem.setFrame_l2 (m : Mem) (f : Nat) (x : Frame) : (m.setFrame f x).l2 = m.l2 := rfl
@[simp] theorem Mem.setFrame_evmax (m : Mem) (f : Nat) (x : Frame) : (m.setFrame f x).evmax = m.evmax := rfl
@[simp] theorem Mem.setFrame_l1 (m : Mem) (f : Nat) (x : Frame) : (m.setFrame f x).l1 = m.l1 := rfl
@[simp] theorem Mem.setFrame_unaccepted (m : Mem) (f : Nat) (x : Frame) : (m.setFrame f x).unaccepted = m.unaccepted := rfl
@[simp] theorem Mem.setFrame_halvings (m : Mem) (f : Nat) (x : Frame) : (m.setFrame f x).halvings = m.halvings := rfl
@[simp] theorem Mem.setFrame_tick (m : Mem) (f : Nat) (x : Frame) : (m.setFrame f x).tick = m.tick := rfl

/-! ### Mem.modFrame -/

@[simp] theorem Mem.modFrame_pool (m : Mem) (f : Nat) (g : Frame → Frame) : (m.modFrame f g).pool = m.pool := rfl
@[simp] theorem Mem.modFrame_hbm (m : Mem) (f : Nat) (g : Frame → Frame) : (m.modFrame f g).hbm = m.hbm := rfl
@[simp] theorem Mem.modFrame_poolKey (m : Mem) (f : Nat) (g : Frame → Frame) : (m.modFrame f g).poolKey = m.poolKey := rfl
@[simp] theorem Mem.modFrame_hbmKey (m : Mem) (f : Nat) (g : Frame → Frame) : (m.modFrame f g).hbmKey = m.hbmKey := rfl
@[simp] theorem Mem.modFrame_keys (m : Mem) (f : Nat) (g : Frame → Frame) : (m.modFrame f g).keys = m.keys := rfl
@[simp] theorem Mem.modFrame_leases (m : Mem) (f : Nat) (g : Frame → Frame) : (m.modFrame f g).leases = m.leases := rfl
@[simp] theorem Mem.modFrame_hints (m : Mem) (f : Nat) (g : Frame → Frame) : (m.modFrame f g).hints = m.hints := rfl
@[simp] theorem Mem.modFrame_lostNodes (m : Mem) (f : Nat) (g : Frame → Frame) : (m.modFrame f g).lostNodes = m.lostNodes := rfl
@[simp] theorem Mem.modFrame_deafNodes (m : Mem) (f : Nat) (g : Frame → Frame) : (m.modFrame f g).deafNodes = m.deafNodes := rfl
@[simp] theorem Mem.modFrame_noframe (m : Mem) (f : Nat) (g : Frame → Frame) : (m.modFrame f g).noframe = m.noframe := rfl
@[simp] theorem Mem.modFrame_relayout (m : Mem) (f : Nat) (g : Frame → Frame) : (m.modFrame f g).relayout = m.relayout := rfl
@[simp] theorem Mem.modFrame_poolErr (m : Mem) (f : Nat) (g : Frame → Frame) : (m.modFrame f g).poolErr = m.poolErr := rfl
@[simp] theorem Mem.modFrame_bankRes (m : Mem) (f : Nat) (g : Frame → Frame) : (m.modFrame f g).bankRes = m.bankRes := rfl
@[simp] theorem Mem.modFrame_tlb (m : Mem) (f : Nat) (g : Frame → Frame) : (m.modFrame f g).tlb = m.tlb := rfl
@[simp] theorem Mem.modFrame_walks (m : Mem) (f : Nat) (g : Frame → Frame) : (m.modFrame f g).walks = m.walks := rfl
@[simp] theorem Mem.modFrame_atc (m : Mem) (f : Nat) (g : Frame → Frame) : (m.modFrame f g).atc = m.atc := rfl
@[simp] theorem Mem.modFrame_spring (m : Mem) (f : Nat) (g : Frame → Frame) : (m.modFrame f g).spring = m.spring := rfl
@[simp] theorem Mem.modFrame_springOrder (m : Mem) (f : Nat) (g : Frame → Frame) : (m.modFrame f g).springOrder = m.springOrder := rfl
@[simp] theorem Mem.modFrame_l2 (m : Mem) (f : Nat) (g : Frame → Frame) : (m.modFrame f g).l2 = m.l2 := rfl
@[simp] theorem Mem.modFrame_evmax (m : Mem) (f : Nat) (g : Frame → Frame) : (m.modFrame f g).evmax = m.evmax := rfl
@[simp] theorem Mem.modFrame_l1 (m : Mem) (f : Nat) (g : Frame → Frame) : (m.modFrame f g).l1 = m.l1 := rfl
@[simp] theorem Mem.modFrame_unaccepted (m : Mem) (f : Nat) (g : Frame → Frame) : (m.modFrame f g).unaccepted = m.unaccepted := rfl
@[simp] theorem Mem.modFrame_halvings (m : Mem) (f : Nat) (g : Frame → Frame) : (m.modFrame f g).halvings = m.halvings := rfl
@[simp] theorem Mem.modFrame_tick (m : Mem) (f : Nat) (g : Frame → Frame) : (m.modFrame f g).tick = m.tick := rfl

/-! ### Mem.setLease -/

@[simp] theorem Mem.setLease_pool (m : Mem) (n : Nat) (l : Lease) : (m.setLease n l).pool = m.pool := rfl
@[simp] theorem Mem.setLease_hbm (m : Mem) (n : Nat) (l : Lease) : (m.setLease n l).hbm = m.hbm := rfl
@[simp] theorem Mem.setLease_poolKey (m : Mem) (n : Nat) (l : Lease) : (m.setLease n l).poolKey = m.poolKey := rfl
@[simp] theorem Mem.setLease_hbmKey (m : Mem) (n : Nat) (l : Lease) : (m.setLease n l).hbmKey = m.hbmKey := rfl
@[simp] theorem Mem.setLease_keys (m : Mem) (n : Nat) (l : Lease) : (m.setLease n l).keys = m.keys := rfl
@[simp] theorem Mem.setLease_hints (m : Mem) (n : Nat) (l : Lease) : (m.setLease n l).hints = m.hints := rfl
@[simp] theorem Mem.setLease_lostNodes (m : Mem) (n : Nat) (l : Lease) : (m.setLease n l).lostNodes = m.lostNodes := rfl
@[simp] theorem Mem.setLease_deafNodes (m : Mem) (n : Nat) (l : Lease) : (m.setLease n l).deafNodes = m.deafNodes := rfl
@[simp] theorem Mem.setLease_frames (m : Mem) (n : Nat) (l : Lease) : (m.setLease n l).frames = m.frames := rfl
@[simp] theorem Mem.setLease_noframe (m : Mem) (n : Nat) (l : Lease) : (m.setLease n l).noframe = m.noframe := rfl
@[simp] theorem Mem.setLease_relayout (m : Mem) (n : Nat) (l : Lease) : (m.setLease n l).relayout = m.relayout := rfl
@[simp] theorem Mem.setLease_poolErr (m : Mem) (n : Nat) (l : Lease) : (m.setLease n l).poolErr = m.poolErr := rfl
@[simp] theorem Mem.setLease_bankRes (m : Mem) (n : Nat) (l : Lease) : (m.setLease n l).bankRes = m.bankRes := rfl
@[simp] theorem Mem.setLease_tlb (m : Mem) (n : Nat) (l : Lease) : (m.setLease n l).tlb = m.tlb := rfl
@[simp] theorem Mem.setLease_walks (m : Mem) (n : Nat) (l : Lease) : (m.setLease n l).walks = m.walks := rfl
@[simp] theorem Mem.setLease_atc (m : Mem) (n : Nat) (l : Lease) : (m.setLease n l).atc = m.atc := rfl
@[simp] theorem Mem.setLease_spring (m : Mem) (n : Nat) (l : Lease) : (m.setLease n l).spring = m.spring := rfl
@[simp] theorem Mem.setLease_springOrder (m : Mem) (n : Nat) (l : Lease) : (m.setLease n l).springOrder = m.springOrder := rfl
@[simp] theorem Mem.setLease_l2 (m : Mem) (n : Nat) (l : Lease) : (m.setLease n l).l2 = m.l2 := rfl
@[simp] theorem Mem.setLease_evmax (m : Mem) (n : Nat) (l : Lease) : (m.setLease n l).evmax = m.evmax := rfl
@[simp] theorem Mem.setLease_l1 (m : Mem) (n : Nat) (l : Lease) : (m.setLease n l).l1 = m.l1 := rfl
@[simp] theorem Mem.setLease_unaccepted (m : Mem) (n : Nat) (l : Lease) : (m.setLease n l).unaccepted = m.unaccepted := rfl
@[simp] theorem Mem.setLease_halvings (m : Mem) (n : Nat) (l : Lease) : (m.setLease n l).halvings = m.halvings := rfl
@[simp] theorem Mem.setLease_tick (m : Mem) (n : Nat) (l : Lease) : (m.setLease n l).tick = m.tick := rfl

end Sys2Proof.Machine
end

