-- ==== Sys2Proof/Tests/Slice0.lean ====
section
/-! SUPPORT. Tests: words written out from the encodings, ill-formed terms, single steps, and for each obligation a state and operands that meet its hypotheses. -/

namespace Sys2Proof.Tests
open Sys2Proof Sys2Proof.Machine
set_option Elab.async false

/-- R169 to R176, Tables 2-2, 2-3. -/
theorem test_decode_scalar_alu_1 :
    decodeScalar 0x00587E00 = .ok (.sadd 5 33 62)
    ∧ decodeScalar 0x00687D01 = .ok (.ssub 6 33 61)
    ∧ decodeScalar 0x00787C02 = .ok (.smul 7 33 60)
    ∧ decodeScalar 0x00887B03 = .ok (.smulh 8 33 59)
    ∧ decodeScalar 0x00987A04 = .ok (.smulhn 9 33 58)
    ∧ decodeScalar 0x00A87905 = .ok (.sdiv 10 33 57)
    ∧ decodeScalar 0x00B87806 = .ok (.sdivn 11 33 56)
    ∧ decodeScalar 0x00C87707 = .ok (.srem 12 33 55) := by decide +kernel

/-- R169 to R176, Tables 2-2, 2-3. -/
theorem test_decode_scalar_alu_2 :
    decodeScalar 0x00D87608 = .ok (.sremn 13 33 54)
    ∧ decodeScalar 0x00E87509 = .ok (.sand 14 33 53)
    ∧ decodeScalar 0x00F8740A = .ok (.sor 15 33 52)
    ∧ decodeScalar 0x0108730B = .ok (.sxor 16 33 51)
    ∧ decodeScalar 0x0118720C = .ok (.sandn 17 33 50)
    ∧ decodeScalar 0x0128710D = .ok (.sshl 18 33 49)
    ∧ decodeScalar 0x0138700E = .ok (.sshr 19 33 48)
    ∧ decodeScalar 0x01486F0F = .ok (.ssar 20 33 47) := by decide +kernel

/-- R169 to R176, Tables 2-2, 2-3. -/
theorem test_decode_scalar_alu_3 :
    decodeScalar 0x01586E10 = .ok (.smin 21 33 46)
    ∧ decodeScalar 0x01686D11 = .ok (.smax 22 33 45)
    ∧ decodeScalar 0x01786C12 = .ok (.sminn 23 33 44)
    ∧ decodeScalar 0x01886B13 = .ok (.smaxn 24 33 43)
    ∧ decodeScalar 0x009A0014 = .ok (.sclz 9 40)
    ∧ decodeScalar 0x009A4015 = .ok (.sctz 9 41)
    ∧ decodeScalar 0x009A8016 = .ok (.spopc 9 42)
    ∧ decodeScalar 0x01028C1D = .ok (.ssel 16 10 12 5) := by decide +kernel

/-- R169 to R176, Tables 2-2, 2-3. -/
theorem test_decode_scalar_alu_4 :
    decodeScalar 0x01400320 = .ok (.smbr 20 3)
    ∧ decodeScalar 0x04646C07 = .ok (.scmp 6 17 44 .ntst)
    ∧ decodeScalar 0x08722ABC = .ok (.saddi 7 8 0x2ABC)
    ∧ decodeScalar 0x0C722ABC = .ok (.sandi 7 8 0x2ABC)
    ∧ decodeScalar 0x10722ABC = .ok (.sori 7 8 0x2ABC)
    ∧ decodeScalar 0x14722ABC = .ok (.sxori 7 8 0x2ABC)
    ∧ decodeScalar 0x1872002D = .ok (.sshli 7 8 45)
    ∧ decodeScalar 0x1872102D = .ok (.sshri 7 8 45) := by decide +kernel

/-- R169 to R176, Tables 2-2, 2-3. -/
theorem test_decode_scalar_alu_5 :
    decodeScalar 0x1872202D = .ok (.ssari 7 8 45)
    ∧ decodeScalar 0x1E357FFF = .ok (.scmpi .ltn 3 21 (-1))
    ∧ decodeScalar 0x20BFF800 = .ok (.sli 11 (-2048))
    ∧ decodeScalar 0x24CBCDEF = .ok (.slis 12 0xBCDEF) := by decide +kernel

/-- R178, R180, S.M. -/
theorem test_decode_scalar_memory :
    decodeScalar 0x28A07FFF = .ok (.sld 10 1 .b64 (-1))
    ∧ decodeScalar 0x2CB097FF = .ok (.sldx 11 2 .b16 0x7FF)
    ∧ decodeScalar 0x30C0E345 = .ok (.sst 12 3 .b32 0x345)
    ∧ decodeScalar 0x34D38F08 = .ok (.satom 13 14 15 .dec) := by decide +kernel

/-- R160, R161, R182 to R185. -/
theorem test_decode_scalar_flow_1 :
    decodeScalar 0x42EABCDE = .ok (.sbr 5 true 0x2ABCDE)
    ∧ decodeScalar 0x47FFFFFE = .ok (.sjmp (-2))
    ∧ decodeScalar 0x48123456 = .ok (.scall 0x123456)
    ∧ decodeScalar 0x4C0F4000 = .ok (.sjr 61)
    ∧ decodeScalar 0x4C024001 = .ok (.sjrl 9)
    ∧ decodeScalar 0x50000000 = .ok (.sret)
    ∧ decodeScalar 0x54D03FFF = .ok (.sloop 13 (-1))
    ∧ decodeScalar 0x60A0000F = .ok (.lrun 10 15) := by decide +kernel

/-- R160, R161, R182 to R185. -/
theorem test_decode_scalar_flow_2 :
    decodeScalar 0x64A2C000 = .ok (.lrunr 10 11)
    ∧ decodeScalar 0x68000000 = .ok (.lquiet) := by decide +kernel

/-- Table 2-4, R293. -/
theorem test_decode_engine_1 :
    decodeScalar 0x81878000 = .ok (.cpyc 24 30)
    ∧ decodeScalar 0x8007C001 = .ok (.cpyclose 31)
    ∧ decodeScalar 0x80A50B08 = .ok (.fput 10 20 .cs true true)
    ∧ decodeScalar 0x80B54509 = .ok (.fget 11 21 .nl true)
    ∧ decodeScalar 0x80C59F0A = .ok (.fatom 12 22 true .cas)
    ∧ decodeScalar 0x80D5C80B = .ok (.fmcast 13 23 .cs false)
    ∧ decodeScalar 0x80E6000C = .ok (.fstat 14 24)
    ∧ decodeScalar 0x80A50010 = .ok (.reshard 10 20) := by decide +kernel

/-- Table 2-4, R293. -/
theorem test_decode_engine_2 :
    decodeScalar 0x80E54011 = .ok (.rswait 14 21)
    ∧ decodeScalar 0x80A50018 = .ok (.pfh 10 20)
    ∧ decodeScalar 0x80F64019 = .ok (.pfdrop 15 25)
    ∧ decodeScalar 0x80A5001A = .ok (.persist 10 20)
    ∧ decodeScalar 0x8005001A = .ok (.persistAll 20)
    ∧ decodeScalar 0x80A50020 = .ok (.dlaunch 10 20) := by decide +kernel

/-- Table 2-5, R28, R347. -/
theorem test_decode_sync_1 :
    decodeScalar 0x84050100 = .ok (.bara 20 1)
    ∧ decodeScalar 0x85454101 = .ok (.barw 20 21 1)
    ∧ decodeScalar 0x84000F02 = .ok (.bar 0 15)
    ∧ decodeScalar 0x84A54003 = .ok (.acset 10 21)
    ∧ decodeScalar 0x85458004 = .ok (.acwait 20 22)
    ∧ decodeScalar 0x8545C005 = .ok (.rinit 20 23)
    ∧ decodeScalar 0x85D7C006 = .ok (.rawait 29 31)
    ∧ decodeScalar 0x840C4007 = .ok (.rrel 0 49) := by decide +kernel

/-- Table 2-5, R28, R347. -/
theorem test_decode_sync_2 :
    decodeScalar 0x84002208 = .ok (.fence .sys .full)
    ∧ decodeScalar 0x85660109 = .ok (.sleeps 22 24 true) := by decide +kernel

/-- Tables 2-6 and 20-5, R403, R405. -/
theorem test_decode_scalar_system_1 :
    decodeScalar 0xC001CA00 = .ok (.srd 7 10)
    ∧ decodeScalar 0xC0800C01 = .ok (.swr 8 12)
    ∧ decodeScalar 0xC0A50002 = .ok (.tlbiVa 10 20)
    ∧ decodeScalar 0xC0A50102 = .ok (.tlbiCtx 10 20)
    ∧ decodeScalar 0xC0A50202 = .ok (.tlbiPasid 10 20)
    ∧ decodeScalar 0xC0A50302 = .ok (.tlbiAll 10 20)
    ∧ decodeScalar 0xC0B54003 = .ok (.pgctlPin 11 21)
    ∧ decodeScalar 0xC0B54103 = .ok (.pgctlUnpin 11 21) := by decide +kernel

/-- Tables 2-6 and 20-5, R403, R405. -/
theorem test_decode_scalar_system_2 :
    decodeScalar 0xC0B54203 = .ok (.pgctlEvict 11 21)
    ∧ decodeScalar 0xC0B54303 = .ok (.pgctlWb 11 21)
    ∧ decodeScalar 0xC0B54403 = .ok (.pgctlCarve 11 21)
    ∧ decodeScalar 0xC0B54503 = .ok (.pgctlUncarve 11 21)
    ∧ decodeScalar 0xC0C58004 = .ok (.leaseopRead 12 22)
    ∧ decodeScalar 0xC0C58104 = .ok (.leaseopGrant 12 22)
    ∧ decodeScalar 0xC0C58204 = .ok (.leaseopRenew 12 22)
    ∧ decodeScalar 0xC0C58304 = .ok (.leaseopRelease 12 22) := by decide +kernel

/-- Tables 2-6 and 20-5, R403, R405. -/
theorem test_decode_scalar_system_3 :
    decodeScalar 0xC0C58404 = .ok (.leaseopRevoke 12 22)
    ∧ decodeScalar 0xC0C58504 = .ok (.leaseopLost 12 22)
    ∧ decodeScalar 0xC0C58604 = .ok (.leaseopHint 12 22)
    ∧ decodeScalar 0xC0000005 = .ok (.stret)
    ∧ decodeScalar 0xC0000105 = .ok (.stretSkip)
    ∧ decodeScalar 0xC0000205 = .ok (.stretPark)
    ∧ decodeScalar 0xC0D5C006 = .ok (.shalt 13 23)
    ∧ decodeScalar 0xC0E60007 = .ok (.keyopLoad 14 24) := by decide +kernel

/-- Tables 2-6 and 20-5, R403, R405. -/
theorem test_decode_scalar_system_4 :
    decodeScalar 0xC0F64107 = .ok (.keyopUnload 15 25)
    ∧ decodeScalar 0xC40ABCDE = .ok (.strap 0xABCDE) := by decide +kernel

/-- Table 11-2, R212 to R220. -/
theorem test_decode_lane_integer_1 :
    decodeLane 0x00C1FEFEFEFE000000000000 = .ok (.nop { fin := .exit, gp := 1 })
    ∧ decodeLane 0x0100090405FE008400000000 = .ok (.iadd { d := .t 9, a := .t 4, b := .t 5 } .i16 true)
    ∧ decodeLane 0x02000804FFFE000280000000 = .ok (.isub { d := .t 8, a := .t 4, b := .imm, imm := 0x80000000 } .i64 false)
    ∧ decodeLane 0x0300090442FE000100000000 = .ok (.imul { d := .t 9, a := .t 4, b := .latch 2 } .n32)
    ∧ decodeLane 0x0400080406FE000300000000 = .ok (.imulh { d := .t 8, a := .t 4, b := .t 6 } .n64)
    ∧ decodeLane 0x0500090102036C0600000000 = .ok (.imad { d := .t 9, a := .t 1, b := .t 2, c := .t 3, ha := .l0, hb := .l1, hc := .l2 } .i8)
    ∧ decodeLane 0x06000A010204000100000000 = .ok (.imadw { d := .t 10, a := .t 1, b := .t 2, c := .t 4 } .n32)
    ∧ decodeLane 0x07000AFF09FE0000000003E8 = .ok (.idiv { d := .t 10, a := .imm, b := .t 9, imm := 0x3E8 } .i32) := by decide +kernel

/-- Table 11-2, R212 to R220. -/
theorem test_decode_lane_integer_2 :
    decodeLane 0x08000A0309FE000700000000 = .ok (.irem { d := .t 10, a := .t 3, b := .t 9 } .n8)
    ∧ decodeLane 0x09000A4BFEFE000000000000 = .ok (.iabs { d := .t 10, a := .arg 3 } .i32)
    ∧ decodeLane 0x0A00074D09FE000500000000 = .ok (.imin { d := .t 7, a := .argHi 1, b := .t 9 } .n16)
    ∧ decodeLane 0x0B00070809FE000000000000 = .ok (.imax { d := .t 7, a := .t 8, b := .t 9 } .i32)
    ∧ decodeLane 0x0C0006080AFE000300000000 = .ok (.and { d := .t 6, a := .t 8, b := .t 10 } .n64)
    ∧ decodeLane 0x0D0006080AFE000B00000000 = .ok (.or { d := .t 6, a := .t 8, b := .t 10 } .b32)
    ∧ decodeLane 0x0E0006080AFE000300000000 = .ok (.xor { d := .t 6, a := .t 8, b := .t 10 } .n64)
    ∧ decodeLane 0x0F0006080AFE000B00000000 = .ok (.andn { d := .t 6, a := .t 8, b := .t 10 } .b32) := by decide +kernel

/-- Table 11-2, R212 to R220. -/
theorem test_decode_lane_integer_3 :
    decodeLane 0x100006080BFE000300000000 = .ok (.shl { d := .t 6, a := .t 8, b := .t 11 } .n64)
    ∧ decodeLane 0x11000608FFFE000B0000001F = .ok (.shr { d := .t 6, a := .t 8, b := .imm, imm := 0x1F } .b32)
    ∧ decodeLane 0x1200060809FE000200000000 = .ok (.sar { d := .t 6, a := .t 8, b := .t 9 } .i64)
    ∧ decodeLane 0x1300060809FE000B00000000 = .ok (.rotl { d := .t 6, a := .t 8, b := .t 9 } .b32)
    ∧ decodeLane 0x14000708FEFE000300000000 = .ok (.clz { d := .t 7, a := .t 8 } .n64)
    ∧ decodeLane 0x15000709FEFE000B00000000 = .ok (.popc { d := .t 7, a := .t 9 } .b32)
    ∧ decodeLane 0x16000709FEFE000B00000000 = .ok (.brev { d := .t 7, a := .t 9 } .b32)
    ∧ decodeLane 0x17000608FFFE000200000504 = .ok (.bfe { d := .t 6, a := .t 8, b := .imm, imm := 0x504 } .i64) := by decide +kernel

/-- Table 11-2, R212 to R220. -/
theorem test_decode_lane_integer_4 :
    decodeLane 0x18000608090A000B00000000 = .ok (.bfi { d := .t 6, a := .t 8, b := .t 9, c := .t 10 } .b32)
    ∧ decodeLane 0x1900330809FE010000000000 = .ok (.iset { d := .p 3, a := .t 8, b := .t 9 } .i32 .lt)
    ∧ decodeLane 0x1A00060809FE01CB00000000 = .ok (.sel { d := .t 6, a := .t 8, b := .t 9 } .b32 3 true)
    ∧ decodeLane 0x1B000649FEFE000B00000000 = .ok (.mov { d := .t 6, a := .arg 1 } .b32)
    ∧ decodeLane 0x1C900EFEFEFE006300000000 = .ok (.movsp { fin := .next, u := true, d := .t 14 } .timeNs)
    ∧ decodeLane 0x1C00FE03FEFE029B00000000 = .ok (.movspW { a := .t 3 } .xexited)
    ∧ decodeLane 0x1D000608FEFE016000000000 = .ok (.cvti { d := .t 6, a := .t 8 } .i32 .i8 true)
    ∧ decodeLane 0x1E00064A09FE028100000000 = .ok (.lea { d := .t 6, a := .arg 2, b := .t 9 } .n32 5) := by decide +kernel

/-- Table 11-2, R212 to R220. -/
theorem test_decode_lane_integer_5 :
    decodeLane 0x1F000608090A010000000000 = .ok (.idot4 { d := .t 6, a := .t 8, b := .t 9, c := .t 10 } false true)
    ∧ decodeLane 0x500035FEFEFE01D1000000CC = .ok (.plop3 { d := .p 5, imm := 0xCC } 1 2 7)
    ∧ decodeLane 0x510006FEFEFE000000000000 = .ok (.pmov { d := .t 6 })
    ∧ decodeLane 0x5100FE06FEFE0001000000FE = .ok (.pmovToPreds { a := .t 6, imm := 0xFE }) := by decide +kernel

/-- Tables 12-2 to 12-4, R228 to R243. -/
theorem test_decode_lane_float_1 :
    decodeLane 0x2000090405FE015A00000000 = .ok (.fadd { d := .t 9, a := .t 4, b := .t 5 } .bf16 .rs false true)
    ∧ decodeLane 0x2100090405FE009900000000 = .ok (.fsub { d := .t 9, a := .t 4, b := .t 5 } .f16 .rz true false)
    ∧ decodeLane 0x22000904FFFE00283F800000 = .ok (.fmul { d := .t 9, a := .t 4, b := .imm, imm := 0x3F800000 } .f32 .ru false false)
    ∧ decodeLane 0x230009040506020800000000 = .ok (.ffma { d := .t 9, a := .t 4, b := .t 5, c := .t 6 } .f32 .rn false false true)
    ∧ decodeLane 0x2400090405FE008800000000 = .ok (.fmin { d := .t 9, a := .t 4, b := .t 5 } .f32 true false)
    ∧ decodeLane 0x2500090405FE010900000000 = .ok (.fmax { d := .t 9, a := .t 4, b := .t 5 } .f16 false true)
    ∧ decodeLane 0x2600310405FE038800000000 = .ok (.fset { d := .p 1, a := .t 4, b := .t 5 } .f32 .ord)
    ∧ decodeLane 0x2700090405FE003800000000 = .ok (.fdiv { d := .t 9, a := .t 4, b := .t 5 } .f32 .rd) := by decide +kernel

/-- Tables 12-2 to 12-4, R228 to R243. -/
theorem test_decode_lane_float_2 :
    decodeLane 0x28000904FEFE004800000000 = .ok (.fsqrt { d := .t 9, a := .t 4 } .f32 .ra)
    ∧ decodeLane 0x29000904FEFE000A00000000 = .ok (.frcp { d := .t 9, a := .t 4 } .bf16 .rn)
    ∧ decodeLane 0x2A000904FEFE000800000000 = .ok (.frsq { d := .t 9, a := .t 4 })
    ∧ decodeLane 0x2B000904FEFE000800000000 = .ok (.fexp2 { d := .t 9, a := .t 4 })
    ∧ decodeLane 0x2C000904FEFE000800000000 = .ok (.flog2 { d := .t 9, a := .t 4 })
    ∧ decodeLane 0x2D000904FEFE000800000000 = .ok (.fsin { d := .t 9, a := .t 4 })
    ∧ decodeLane 0x2E000904FEFE000800000000 = .ok (.fcos { d := .t 9, a := .t 4 })
    ∧ decodeLane 0x2F000904FEFE004900000000 = .ok (.frnd { d := .t 9, a := .t 4 } .f16 .ra) := by decide +kernel

/-- Tables 12-2 to 12-4, R228 to R243. -/
theorem test_decode_lane_float_3 :
    decodeLane 0x30000804FEFE009200000000 = .ok (.fcvti { d := .t 8, a := .t 4 } .i64 .f16 .rz)
    ∧ decodeLane 0x31000904FEFE018800000000 = .ok (.icvtf { d := .t 9, a := .t 4 } .f32 .n64 .rn)
    ∧ decodeLane 0x3200320405FE000800000000 = .ok (.fclass { d := .p 2, a := .t 4, b := .t 5 } .f32)
    ∧ decodeLane 0x3300090405FE005800000000 = .ok (.fscale { d := .t 9, a := .t 4, b := .t 5 } .f32 .rs)
    ∧ decodeLane 0x340009040506002A00000000 = .ok (.fdot2 { d := .t 9, a := .t 4, b := .t 5, c := .t 6 } .bf16 .ru)
    ∧ decodeLane 0x4000090405FE008900000000 = .ok (.hadd2 { d := .t 9, a := .t 4, b := .t 5 } .f16 .rn true false)
    ∧ decodeLane 0x4100090405FE013A00000000 = .ok (.hmul2 { d := .t 9, a := .t 4, b := .t 5 } .bf16 .rd false true)
    ∧ decodeLane 0x420009040506038900000000 = .ok (.hfma2 { d := .t 9, a := .t 4, b := .t 5, c := .t 6 } .f16 .rn true true true) := by decide +kernel

/-- Tables 12-2 to 12-4, R228 to R243. -/
theorem test_decode_lane_float_4 :
    decodeLane 0x4300090405FE000A00000000 = .ok (.hmin2 { d := .t 9, a := .t 4, b := .t 5 } .bf16 false false)
    ∧ decodeLane 0x4400090405FE010900000000 = .ok (.hmax2 { d := .t 9, a := .t 4, b := .t 5 } .f16 false true)
    ∧ decodeLane 0x4500090405FE001900000000 = .ok (.fpack { d := .t 9, a := .t 4, b := .t 5 } (.half .f16 .rz))
    ∧ decodeLane 0x45000904FE06018B00000000 = .ok (.fpack { d := .t 9, a := .t 4, c := .t 6 } .twoHi)
    ∧ decodeLane 0x46000904FEFE010A00000000 = .ok (.funpk { d := .t 9, a := .t 4 } (.half .bf16 true))
    ∧ decodeLane 0x4600080405FE010B00000000 = .ok (.funpk { d := .t 8, a := .t 4, b := .t 5 } .hi)
    ∧ decodeLane 0x470009040506011400000001 = .ok (.ncvt { d := .t 9, a := .t 4, b := .t 5, c := .t 6, imm := 0x1 } .e5m2 .rz true)
    ∧ decodeLane 0x47000904FEFE008000000007 = .ok (.ncvtFrom { d := .t 9, a := .t 4, imm := 0x7 } .e2m1) := by decide +kernel

/-- Tables 12-2 to 12-4, R228 to R243. -/
theorem test_decode_lane_float_5 :
    decodeLane 0x48000904FEFE000900000000 = .ok (.nexp { d := .t 9, a := .t 4 } .f16)
    ∧ decodeLane 0x49000904FE0500DB00000000 = .ok (.i4xpk { d := .t 9, a := .t 4, c := .t 5 } .rs true)
    ∧ decodeLane 0x4A000904FEFE000800000006 = .ok (.i4xunp { d := .t 9, a := .t 4, imm := 0x6 })
    ∧ decodeLane 0x4B000904FEFE000500000000 = .ok (.mxscl { d := .t 9, a := .t 4 } .i4x)
    ∧ decodeLane 0x4C0008FEFEFE000300000000 = .ok (.rng { d := .t 8 } .n64) := by decide +kernel

/-- Table 13-2, R164. -/
theorem test_decode_lane_exchange_1 :
    decodeLane 0x60800A08FEFE001000000000 = .ok (.xscan { fin := .next, d := .t 10, a := .t 8 } .add .i32 true)
    ∧ decodeLane 0x61000A08FE03028300000000 = .ok (.xred { d := .t 10, a := .t 8, c := .t 3 } .xor .n64)
    ∧ decodeLane 0x6200090807FF010B0000FFFF = .ok (.xshf { d := .t 9, a := .t 8, b := .t 7, c := .imm, imm := 0xFFFF } .down .b32)
    ∧ decodeLane 0x630010FEFEFE00CB00000000 = .ok (.xbal { d := .t 16 } 1 true)
    ∧ decodeLane 0x64000908FEFE000300000000 = .ok (.xmatch { d := .t 9, a := .t 8 } .n64)
    ∧ decodeLane 0x65000908FEFE000B00000000 = .ok (.xfirst { d := .t 9, a := .t 8 } .b32)
    ∧ decodeLane 0x66000908FFFE000B0000001F = .ok (.xbcst { d := .t 9, a := .t 8, b := .imm, imm := 0x1F } .b32)
    ∧ decodeLane 0x67000908FEFE010B00000000 = .ok (.qswp { d := .t 9, a := .t 8 } .diag .b32) := by decide +kernel

/-- Table 13-2, R164. -/
theorem test_decode_lane_exchange_2 :
    decodeLane 0x68000908FEFE010800000000 = .ok (.qred { d := .t 9, a := .t 8 } .max .f32)
    ∧ decodeLane 0x6900080605FE000300000000 = .ok (.qbcst { d := .t 8, a := .t 6, b := .t 5 } .n64)
    ∧ decodeLane 0x6A90FE08FEFE001B00000000 = .ok (.mbxw { fin := .next, u := true, a := .t 8 } 1 .b32) := by decide +kernel

/-- Tables 6-1, 6-2, R131. -/
theorem test_decode_lane_memory_1 :
    decodeLane 0x70000A04FEFE0012FFFFFFF8 = .ok (.ld { d := .t 10, a := .t 4, imm := 0xFFFFFFF8 } .i64 .cg)
    ∧ decodeLane 0x7100FE141AFE000300000008 = .ok (.st { a := .t 20, b := .t 26, imm := 0x8 } .n64 .ca)
    ∧ decodeLane 0x72000904FEFE000400000006 = .ok (.lds { d := .t 9, a := .t 4, imm := 0x6 } .i16)
    ∧ decodeLane 0x7300FE0405FE000700000003 = .ok (.sts { a := .t 4, b := .t 5, imm := 0x3 } .n8)
    ∧ decodeLane 0x74000B0AFEFE000B00000000 = .ok (.ldfeKeep { d := .t 11, a := .t 10 } .b32)
    ∧ decodeLane 0x74000B0AFEFE008B00000000 = .ok (.ldfeClear { d := .t 11, a := .t 10 } .b32)
    ∧ decodeLane 0x7580FE0A09FE000B00000000 = .ok (.stfe { fin := .next, a := .t 10, b := .t 9 } .b32)
    ∧ decodeLane 0x760009FEFEFE000100000040 = .ok (.ldc { d := .t 9, imm := 0x40 } .n32) := by decide +kernel

/-- Tables 6-1, 6-2, R131. -/
theorem test_decode_lane_memory_2 :
    decodeLane 0x770118160CFE000000000000 = .ok (.cstore { gp := 1, d := .t 24, a := .t 22, b := .t 12 } .i32 .ca)
    ∧ decodeLane 0x78000904FEFE002500000000 = .ok (.xload { d := .t 9, a := .t 4 } .n16 .cs)
    ∧ decodeLane 0x7900FE04FEFE001000000080 = .ok (.prefl { a := .t 4, imm := 0x80 } .cg)
    ∧ decodeLane 0x7A00FE14FEFE000000000080 = .ok (.zline { a := .t 20, imm := 0x80 } .ca)
    ∧ decodeLane 0x9000090406FE037100000000 = .ok (.atom { d := .t 9, a := .t 4, b := .t 6 } .inc .n32 true true)
    ∧ decodeLane 0x91000804060A010300000000 = .ok (.acas { d := .t 8, a := .t 4, b := .t 6, c := .t 10 } .n64 true false)
    ∧ decodeLane 0x9200090406FE026800000000 = .ok (.atoms { d := .t 9, a := .t 4, b := .t 6 } .exch .f32 false true)
    ∧ decodeLane 0x930009040607000B00000000 = .ok (.acass { d := .t 9, a := .t 4, b := .t 6, c := .t 7 } .b32 false false) := by decide +kernel

/-- Tables 6-1, 6-2, R131. -/
theorem test_decode_lane_memory_3 :
    decodeLane 0x9400FE0406FE020200000000 = .ok (.red { a := .t 4, b := .t 6 } .add .i64 true) := by decide +kernel

/-- Table 19-2, R401, R404. -/
theorem test_decode_lane_flow_1 :
    decodeLane 0xA002FEFEFEFE000000040003 = .ok (.brl { gp := 2, imm := 0x40003 })
    ∧ decodeLane 0xA100FEFEFEFE000000000002 = .ok (.join { imm := 0x2 })
    ∧ decodeLane 0xA200FEFEFEFE000AFFFFFFFB = .ok (.call { imm := 0xFFFFFFFB } 10)
    ∧ decodeLane 0xA300FE05FEFE000200000000 = .ok (.callr { a := .t 5 } 2)
    ∧ decodeLane 0xA400FEFEFEFE000000000000 = .ok (.ret {})
    ∧ decodeLane 0xA50BFEFEFEFE000000001234 = .ok (.trap { gn := true, gp := 3, imm := 0x1234 })
    ∧ decodeLane 0xA600FEFEFEFE000000000000 = .ok (.tret {})
    ∧ decodeLane 0xA600FEFEFEFE000100000000 = .ok (.tretSkip {}) := by decide +kernel

/-- Table 19-2, R401, R404. -/
theorem test_decode_lane_flow_2 :
    decodeLane 0xA600FEFFFEFE00027FFFFFFF = .ok (.tretVal { a := .imm, imm := 0x7FFFFFFF })
    ∧ decodeLane 0xA600FEFEFEFE000300000000 = .ok (.tretPark {})
    ∧ decodeLane 0xA700FEFEFEFE000000000000 = .ok (.bpt {})
    ∧ decodeLane 0xA880FEFEFEFE0001000001F4 = .ok (.sleep { fin := .next, imm := 0x1F4 } true)
    ∧ decodeLane 0xA900FEFEFEFE000000000000 = .ok (.yield {}) := by decide +kernel

/-- Table 14-4, R275. -/
theorem test_decode_matrix :
    decodeLane 0xB010FE1008FF000300000100 = .ok (.mxloop { u := true, a := .t 16, b := .t 8, c := .imm, imm := 0x100 } 3 0 false)
    ∧ decodeLane 0xB090FE434AFF005000000180 = .ok (.mxloop { fin := .next, u := true, a := .alatch, b := .arg 2, c := .imm, imm := 0x180 } 0 1 true)
    ∧ decodeLane 0xB110FEFEFEFE00000000800F = .ok (.mxzero { u := true, imm := 0x800F })
    ∧ decodeLane 0xB210FE4849FE009000000020 = .ok (.mxst { u := true, a := .arg 0, b := .arg 1, imm := 0x20 } 0 9)
    ∧ decodeLane 0xB310FE0405FE000700000000 = .ok (.mxld { u := true, a := .t 4, b := .t 5 } 7)
    ∧ decodeLane 0xB4501EFEFEFE002000000000 = .ok (.mxwaitSt { fin := .fall, u := true, d := .t 30 } 0 true)
    ∧ decodeLane 0xB49020FEFEFE001000000000 = .ok (.mxwaitStall { fin := .next, u := true, d := .t 32 } false)
    ∧ decodeLane 0xB510FEFEFEFE000000000000 = .ok (.mxrel { u := true }) := by decide +kernel

/-- R411 to R413. -/
theorem test_decode_lane_system :
    decodeLane 0xD00008FEFEFE010600000000 = .ok (.lsrd { d := .t 8 } 6 true)
    ∧ decodeLane 0xD100FE08FEFE000200000000 = .ok (.lswr { a := .t 8 } 2 false)
    ∧ decodeLane 0xD210FEFEFEFE000000000003 = .ok (.spillwWin { u := true, imm := 0x3 })
    ∧ decodeLane 0xD210FEFEFEFE000100000004 = .ok (.spillwStk { u := true, imm := 0x4 })
    ∧ decodeLane 0xD310FEFEFEFE000000000005 = .ok (.fillwWin { u := true, imm := 0x5 })
    ∧ decodeLane 0xD310FEFEFEFE000100000006 = .ok (.fillwStk { u := true, imm := 0x6 })
    ∧ decodeLane 0xD410090806FE000100000000 = .ok (.ctxsv { u := true, d := .t 9, a := .t 8, b := .t 6 } true)
    ∧ decodeLane 0xD510090806FE000000000000 = .ok (.ctxrs { u := true, d := .t 9, a := .t 8, b := .t 6 } false) := by decide +kernel

/-! ## Small states -/

/-- Group 0 of team 0 in context 0, privileged, its scalar stream about to run; split 0 runs in a lane when `lane`. -/
def base (lane : Bool) : State := { State.reset.withFetchWord (if lane then 96 else 32) 0 with agenda := [] }
/-- The same with the team changed. -/
def withTeam (s : State) (f : Team → Team) : State := s.modTeam 0 f
/-- The same with the group changed. -/
def withGroup (s : State) (f : Group → Group) : State := s.modGroup 0 f
/-- The same in user mode. -/
def user (s : State) : State := withGroup s fun g => { g with mode := .user }
/-- The same with a scalar register set. -/
def reg (s : State) (r : Nat) (v : W64) : State := withGroup s fun g => { g with sreg := g.sreg.put 0 r v }
/-- The lane stream of group 0 waits at NEXT. -/
def idle (s : State) : State := withGroup s fun g => { g with splits := [(0, { mask := 0xF, mode := .waitNext })] }
/-- Every thread of group 0 has retired. -/
def done (s : State) : State := withGroup (idle s) fun g => { g with thr := [(0, { life := .retired })] }
def S : State := base false

/-! ## Every hypothesis is met: scalar statements -/

theorem witness_ScalarArithmetic : (reg S 5 1).sread 0 = 0 ∧ (reg S 5 1).sread 5 ≠ 0 ∧ (reg S 5 (-1)).sread 5 ≠ 0 := by decide +kernel

theorem witness_ScalarConditions :
    [SCond.eq, .ne, .lt, .le, .ltn, .len, .tst, .ntst][7]? = some .ntst
    ∧ (∀ c ∈ [SCond.eq, .le, .len, .ntst], ¬(c = .ne)) ∧ (reg S 61 4).sread 61 = 4 ∧ (reg S 61 3).sread 61 = 3
    ∧ ((reg S 9 0xFFFFFFFFFFFFFFFC).sread 9).toNat % 4 = 0 ∧ ((reg S 9 2).sread 9).toNat % 4 ≠ 0 := by decide +kernel

theorem witness_ScalarComparisons : condHolds .ltn ((reg S 5 1).sread 0) ((reg S 5 1).sread 5) ∧ ¬condHolds .lt ((reg S 5 (-1)).sread 0) ((reg S 5 (-1)).sread 5) := by
  unfold condHolds; decide +kernel

/-- The last byte of the allocation, a watched counter at offset 256, an address past the allocation, a misaligned one. -/
def scratchS : State := reg (reg (reg (withTeam S fun t => { t with watch := [{ kind := .counter, off := 256, len := 32 }] })
  1 0xFFFFFFFF0000FFF8) 2 0xFFFFFFFF00000100) 3 0xFFFFFFFF00010000

theorem witness_ScalarScratch :
    (scratchS.sread 1 + BitVec.ofInt 64 ((7 : BitVec 12).toInt * 1)).toNat / 2 ^ 32 = 0xFFFFFFFF
    ∧ scratchS.scratchAt scratchS.cur.team 0xFFFF = some (0, 0xFFFF) ∧ (scratchS.team 0).watched 0xFFFF = false
    ∧ scratchS.scratchAt scratchS.cur.team 0xFFF8 = some (0, 0xFFF8) ∧ (∀ j, j < 8 → (scratchS.team 0).watched (0xFFF8 + j) = false)
    ∧ scratchS.scratchAt scratchS.cur.team 256 = some (0, 256) ∧ (scratchS.team 0).hasCounter 256 = true ∧ (scratchS.team 0).watched 256 = true
    ∧ (∀ j, j < 8 → (byteOf (0 : W64) j : Byte) = SMap.get 0 (scratchS.team 0).scratch (256 + j))
    ∧ scratchS.scratchAt 0 (2 ^ 29) = none ∧ (scratchS.team 0).size < 2 ∧ scratchS.scratchAt 0 (2 * 2 ^ 20) = none := by decide +kernel

theorem witness_ScalarAccessTraps :
    (scratchS.sread 1 + BitVec.ofInt 64 ((1 : BitVec 12).toInt * 2)).toNat % 4 ≠ 0
    ∧ ((reg S 4 4).sread 4).toNat % 8 ≠ 0
    ∧ (scratchS.sread 3).toNat / 2 ^ 32 = 0xFFFFFFFF ∧ (scratchS.sread 3).toNat % 8 = 0
    ∧ scratchS.scratchAt scratchS.cur.team ((scratchS.sread 3).toNat % 2 ^ 32) = none
    ∧ scratchS.scratchAt scratchS.cur.team ((scratchS.sread 2).toNat % 2 ^ 32) = some (0, 256) ∧ (scratchS.team 0).watched (256 + 7) = true := by
  decide +kernel

/-- A state whose page at 0 stands in the core's L1: device frame 0 is carved out, its first line valid. -/
def cachedS : State := { S with mem := { S.mem with l1 := [(l1Key 0 (lineKey 3 0 0), { valid := 0xFFFFFFFF, data := 0x1234 })] } }

def accS (s : State) : Acc := { core := s.curTeam.core, ctx := s.curTeam.ctx, mode := s.cur.mode, gid := s.curGid }

theorem witness_ScalarGlobalMemory :
    (cachedS.load (accS cachedS) (.scalar 0) 0 8 0 .zero false).1 = .val 0x1234
    ∧ (cachedS.load (accS cachedS) (.scalar 0) 0x10000 8 0 .zero false).1 = .fault 0x06
    ∧ (cachedS.store (accS cachedS) (.scalar 0) true 0 8 5 0).1 = .val 0
    ∧ (cachedS.store (accS cachedS) (.scalar 0) true 0x10000 8 5 0).1 = .fault 0x06
    ∧ (cachedS.atomic (accS cachedS) (.scalar 0) 0 (.op .add .i64 1) false false).1 = .val 0
    ∧ (cachedS.atomic (accS cachedS) (.scalar 0) 0x10000 (.op .add .i64 1) false false).1 = .fault 0x06
    ∧ (cachedS.xlate (accS cachedS) 120 .read).1 = .ok { size := 2, space := 3, user := true, exec := true, write := true } 120
    ∧ (cachedS.xlate (accS cachedS) 120 .write).1 = .ok { size := 2, space := 3, user := true, exec := true, write := true } 120
    ∧ (cachedS.xlate (accS cachedS) 120 .read).2.mem.l1Has 0 (lineKey 3 0 120) 0 120 8 = true := by decide +kernel

theorem witness_MailboxesAndDecisionQueue :
    let live := withTeam S fun t => { t with kernel := { t.kernel with lunits := 16 } }
    (∃ p ∈ live.cur.thr, p.2.life = .live) ∧ live.cur.queue.length < 8
    ∧ (withGroup live fun g => { g with queue := List.replicate 8 { start := 0, args := [] } }).cur.queue.length = 8
    ∧ live.curTeam.kernel.lunits ≤ 16 ∧ 15 < live.curTeam.kernel.lunits
    ∧ ((reg live 4 15).sread 4).toNat < live.curTeam.kernel.lunits ∧ 2 ^ 20 ≤ ((reg live 4 0x100000).sread 4).toNat
    ∧ LaneIdle (idle live).cur ∧ ¬LaneIdle live.cur ∧ LaneIdle (done live).cur ∧ ¬(∃ p ∈ (done live).cur.thr, p.2.life = .live) := by
  unfold LaneIdle; decide +kernel

theorem witness_GroupEnds : (S.groups.find 0).isSome ∧ (S.group 0).ended = false := by decide +kernel

theorem witness_ScalarTraps :
    (S.group 0).stlevel = 0 ∧ ¬GoesToUser (S.group 0).mode 3
    ∧ (withGroup S fun g => { g with stlevel := 2 }).cur.stlevel = 2
    ∧ GoesToUser (user S).cur.mode 0x15 ∧ ((user S).context 0).tvecUs = 0
    ∧ ((user S).modContext 0 fun c => { c with tvecUs := 64 }).cur.stlevel < 2
    ∧ (withGroup S fun g => { g with stlevel := 1 }).cur.mode = .priv
    ∧ (let u := withGroup (user S) fun g => { g with stlevel := 2, st2 := { cause := 0x14 } }
       GoesToUser (if u.cur.st2.cause.getLsbD 17 then .priv else .user) (u.cur.st2.cause.toNat % 64) ∧ u.cur.mode = .user)
    ∧ ¬GoesToUser .user ((withGroup (user S) fun g => { g with stlevel := 1 }).cur.st1.cause.toNat % 64)
    ∧ (user S).cur.stlevel = 0 ∧ S.cur.mode = .priv := by unfold GoesToUser; decide +kernel

theorem witness_ScalarPrivileged : (user S).cur.mode = .user ∧ S.cur.mode = .priv ∧ S.pager.waiting = []
    ∧ (S.teams.any fun p => decide (p.1 = 0 ∧ p.2.core = 0 ∧ p.2.tslot = 0 ∧ p.2.saved = false ∧ p.2.lost = false)) = true
    ∧ (∀ p ∈ S.teams, p.1 = 0) := by decide +kernel

/-- Barrier 0 expects one group. -/
def barS (n : Nat) : State := withTeam (idle S) fun t => t.setBar 0 7 n 0 0

theorem witness_ScalarOrdering :
    S.curTeam.kernel.bars ≤ (1 : Fin 16).val ∧ (0 : Fin 16).val < S.curTeam.kernel.bars
    ∧ LaneIdle (barS 1).cur ∧ (barS 1).cur.queue = [] ∧ ((barS 1).curTeam.bmask 0).getLsbD 0 = false ∧ (barS 1).curTeam.expected 0 = 1
    ∧ (barS 2).curTeam.expected 0 = 2 ∧ ¬LaneIdle S.cur
    ∧ ((withTeam (barS 2) fun t => t.arrive 0 0).curTeam.bmask 0).getLsbD 0 = true
    ∧ (((barS 1).curTeam.phase 0 + 2 ^ 32 - ((reg (barS 1) 4 6).sread 4).toNat % 2 ^ 32) % 2 ^ 32 = 1)
    ∧ (((barS 1).curTeam.phase 0 + 2 ^ 32 - ((reg (barS 1) 4 7).sread 4).toNat % 2 ^ 32) % 2 ^ 32 = 0)
    ∧ (((barS 1).curTeam.phase 0 + 2 ^ 32 - ((reg (barS 1) 4 0x80000007).sread 4).toNat % 2 ^ 32) % 2 ^ 32 = 2 ^ 31)
    ∧ ((barS 1).releaseAt 0 .sys).releaseDone 0 .sys = true
    ∧ (S.sread 0).toNat = 0 ∧ ((reg { S with timeNs := 9 } 4 9).sread 4).toNat = 9 ∧ ({ S with timeNs := 9 } : State).timeNs.toNat = 9
    ∧ ((reg { S with timeNs := 9 } 4 10).sread 4).toNat = 10 ∧ S.cur.mode = .priv := by unfold LaneIdle; decide +kernel

/-- ACSET operands at the edges: offset 256, WIN, tag 3, the smallest window; the counter registered, and another over it. -/
def acS : State := reg (reg (reg S 10 (256 + 3 * 2 ^ 20 + 2 ^ 36)) 11 5) 12 (512 + 16 * 2 ^ 20)
def acKnown (count err : Nat) : State := withTeam acS fun t =>
  (({ t with watch := [{ kind := .counter, off := 256, len := 32 }] }.wr 256 8 count).wr 264 8 5).wr 272 8 err

theorem witness_ArrivalCounters :
    (acS.sread 10).toNat < 2 ^ 37 ∧ (acS.sread 10).toNat % 2 ^ 20 = 256 ∧ (acS.sread 12).toNat < 2 ^ 40
    ∧ acS.curTeam.watch = [] ∧ acS.watchUsed 0 < 64 ∧ acS.fabric.windows = []
    ∧ ((reg acS 10 (2 ^ 37)).sread 10).toNat = 2 ^ 37
    ∧ ¬(∀ w ∈ (withTeam acS fun t => { t with watch := [{ kind := .control, off := 287, len := 1 }] }).curTeam.watch,
        w.kind = .counter ∧ w.off = 256 ∨ w.off + w.len ≤ 256 ∨ 256 + 32 ≤ w.off)
    ∧ ((reg (acKnown 0 0) 4 256).sread 4).toNat < 2 ^ 20 ∧ (∃ w ∈ (acKnown 0 0).curTeam.watch, w.kind = .counter ∧ w.off = 256)
    ∧ ¬(∃ w ∈ acS.curTeam.watch, w.kind = .counter ∧ w.off = 256)
    ∧ (∀ j, j < 8 → byteOf 5 j = SMap.get 0 (acKnown 5 0).curTeam.scratch (256 + j))
    ∧ (∀ j, j < 8 → byteOf 5 j = SMap.get 0 (acKnown 5 0).curTeam.scratch (264 + j))
    ∧ (∀ j, j < 8 → byteOf 4 j = SMap.get 0 (acKnown 4 1).curTeam.scratch (256 + j))
    ∧ (∀ j, j < 8 → byteOf 1 j = SMap.get 0 (acKnown 4 1).curTeam.scratch (272 + j)) := by decide +kernel

/-! ## Every hypothesis is met: engine commands and system instructions -/

/-- Ring 0 stands at 0x200 with two slots: the first completed with status 1 when `full`, the second free. -/
def ringS (full : Bool) : State := withTeam S fun t =>
  let t := { t with kernel := { t.kernel with rings := 2 }, watch := [{ kind := .ring 0, off := 0x200, len := 48 }] }.wr 0x20B 1 1
  if full then (t.wr 0x204 4 1).wr 0x220 4 0x0201 else t

theorem witness_RingCommands :
    (ringS true).curTeam.ring? 0 = some 0x200 ∧ (ringS true).curTeam.slots 0x200 = 2 ∧ (ringS true).curTeam.wptr 0x200 = 1
    ∧ (ringS true).curTeam.rptr 0x200 = 0 ∧ (ringS true).curTeam.kernel.rings = 2
    ∧ ((reg (ringS true) 4 256).sread 4).toNat / 256 < 2 ∧ (ringS false).curTeam.wptr 0x200 = 0
    ∧ ((reg S 4 0x10).sread 4).toNat / 16 % 16 ≠ 0 ∧ (ringS true).curTeam.ring? 1 = none ∧ ((reg S 4 0x200).sread 4).toNat / 256 = 2
    ∧ (let w0 := 0x100240; let w1 : W64 := 0x0000000001000100
       w0 < 2 ^ 24 ∧ w0 % 2 ^ 20 % 16 = 0 ∧ w0 / 2 ^ 20 % 16 = 1 ∧ w1.toNat % 2 ^ 24 ≠ 0 ∧ w1.toNat / 2 ^ 32 % 2 ^ 8 = 0 ∧ w1.toNat < 2 ^ 41
       ∧ ∀ w ∈ (ringS true).curTeam.watch, w.off + w.len ≤ 0x240)
    ∧ ((withTeam (ringS true) fun t => t.wr 0x225 1 3).curTeam.slotState 0x200 1 = 3)
    ∧ (reg S 4 0x0F0100).curTeam.kernel.rings ≤ ((reg S 4 0x0F0100).sread 4).toNat / 2 ^ 20 % 16 := by decide +kernel

theorem witness_CopyCommands :
    ((((ringS false).curTeam.copy? 0).map (·.opened)).getD false = false)
    ∧ ((ringS false).curTeam.copies.filter (·.opened)).length < (ringS false).curTeam.kernel.copyq
    ∧ (let t := (withTeam (ringS false) fun t => { t with copies := [{ num := 5, opened := true }] }).curTeam
       ¬((t.copies.filter (·.opened)).length < t.kernel.copyq) ∧ ((t.copy? 5).map (·.opened)).getD false = true)
    ∧ ((reg S 7 (2 ^ 21)).sread 7).toNat / 2 ^ 21 ≠ 0
    ∧ (ringS false).curTeam.ring? (((reg S 7 1).sread 7).toNat / 256 % 16) = some 0x200
    ∧ (ringS true).curTeam.slotState 0x200 0 ≠ 0 ∧ (ringS false).curTeam.kernel.rings ≤ (((reg S 7 0x200).sread 7).toNat / 256 % 16)
    ∧ (ringS false).curTeam.cpycStatus [0, 0x1000, 0x10001, 1] none = 0 := by decide +kernel

/-- A stored page of device frame 0: what PFH and PERSIST meet. -/
def busyS : State := { S with mem := { S.mem with unaccepted := [(0, 128)], spring := [(0, { live := true, gen := 1, ctx := 0 })] } }

theorem witness_PrefetchAndPersist :
    (let w := ((reg S 6 (2 * 64)).sread 6).toNat; w < 2 ^ 12 ∧ 2 ≤ w / 64 % 16 ∧ w / 64 % 16 ≤ 9
      ∧ ((reg S 4 0x10000).sread 4).toNat % pageBytes (w / 64 % 16) = 0 ∧ pageBytes (w / 64 % 16) ≠ 0)
    ∧ (SMap.get ({} : Spring) busyS.mem.spring 0).live = true ∧ (SMap.get ({} : Spring) busyS.mem.spring 1).live = false
    ∧ (SMap.get ({} : Spring) busyS.mem.spring (0x100 % 256)).gen = 0x100 / 256
    ∧ 64 ≤ ((List.range 64).map fun n => (n, ({ live := true } : Spring))).countP (fun p => p.2.live && decide (p.2.ctx = 0))
    ∧ (S.sread 5 = 0) ∧ 2 ^ 46 < ((reg S 5 0x400000000001).sread 5).toNat
    ∧ canonical ((reg S 5 0x1000).sread 5 - 1) = true
    ∧ ((S.persistPages 0 0x1000 0 [] 3).2.2.mem.unaccepted = []) ∧ ((S.persistPages 0 0x1000 0 [] 3).2.1 = [])
    ∧ ((busyS.persistPages 0 0x1000 0 [] 3).2.2.mem.unaccepted ≠ []) ∧ S.mem.unaccepted = [] ∧ busyS.mem.unaccepted ≠ []
    ∧ ∀ p ∈ S.mem.leases, p.2.st ≠ .free → S.mem.answers p.2.node.toNat = true := by decide +kernel

/-- The page at 0 stands in the TLB of the system core that serves commands too (log entry 21). -/
def sysTlb (s : State) : State := { s with mem := { s.mem with tlb := { placedPage with holder := 256 } :: s.mem.tlb } }

/-- Queue 3 is context 0's device queue, its ring and the command image in the page at 0. -/
def queueS (wptr : Nat) : State := { idle (sysTlb S) with queues := (idle S).queues.put {} 3 { v := true, base := 0x1000, ctx := 0, log2n := 2, devq := true, priv := true, wptr := BitVec.ofNat 32 wptr } }

theorem witness_DeviceLaunch :
    LaneIdle (queueS 0).cur ∧ (queueS 0).cur.queue = [] ∧ ¬LaneIdle S.cur ∧ ((queueS 0).queue 3).devq = true ∧ ((queueS 0).queue 2).v = false
    ∧ (((queueS 4).queue 3).wptr - ((queueS 4).queue 3).rptr).toNat = 2 ^ ((queueS 4).queue 3).log2n
    ∧ ((queueS 0).engRead (accS (queueS 0)) (.scalar 0) 0 64).1 = .ok (List.replicate 64 0)
    ∧ ((queueS 0).engWrite (cmdAccOf 0 true) (.store 0) 0x1000 (List.replicate 64 0)).1 = .ok []
    ∧ ((reg S 4 (2 ^ 17)).sread 4).toNat = 2 ^ 17 ∧ (wordAt (List.replicate 64 (0 : Byte)) 0).toNat % 256 ∈ [0x00, 0x01, 0x03, 0x04]
    ∧ (wordAt ((2 : Byte) :: List.replicate 63 0) 0).toNat % 256 ∉ [0x00, 0x01, 0x03, 0x04] := by unfold LaneIdle; decide +kernel

/-- Group 0 holds tag 0 for transfer 7, whose packet is acknowledged when `fin`, and job number 9 for job 2, which is final
then; multicast group 1 is context 0's. -/
def fabS (fin : Bool) : State :=
  let s := withGroup S fun g => { g with tags := [(0, { xfer := 7, nost := false })], jobs := [(9, 2)] }
  let x : Xfer := { gid := 0, team := 0, ctx := 0, mode := .priv, kind := .get, pol := 0, ops := [], members := [],
                    pkts := [{ member := 0, off := 0, len := 16, st := if fin then .acked false else .unsent }], nost := false }
  let l : Layout := { esize := 1, dims := [], axes := [], maps := [], devs := [] }
  let j : Job := { gid := 0, team := 0, ctx := 0, mode := .priv, src := l, dst := l, block := 0, fp := 0, total := 1, acked := 0, above := 0,
                   failed := 1, st := 1, status := 0xFF, bytes := 0, final := fin }
  { s with
    fabric := { s.fabric with xfers := [(7, x)], mcast := [(1, 0, [2, 3])] }
    jobs := [(2, j)]
    contexts := s.contexts.put {} 0 { (s.context 0) with ftag := 0, mfirst := 1, mcnt := 1 } }

theorem witness_FabricTransfers :
    (let s := reg (reg (reg S 4 0x100) 5 (2 ^ 34 - 1)) 6 ((2 ^ 20 - 16) * 2 ^ 32 + 16)
     (s.sread 4).toNat % 16 = 0 ∧ (s.sread 6).toNat % 2 ^ 32 % 16 = 0 ∧ (s.sread 6).toNat < 2 ^ 52 ∧ (s.sread 5).toNat < 2 ^ 34
     ∧ (s.sread 6).toNat / 2 ^ 32 % 2 ^ 20 + (s.sread 6).toNat % 2 ^ 32 ≤ 2 ^ 20 ∧ (s.sread 5).toNat % 16 ≠ 0)
    ∧ ((reg S 5 0x1010).sread 5).toNat % 16 = 0 ∧ ((reg S 6 (2 ^ 32 - 16)).sread 6).toNat < 2 ^ 32 ∧ ((reg S 4 8).sread 4).toNat % 16 ≠ 0
    ∧ ((reg S 4 8).sread 4).toNat % 8 = 0 ∧ ((reg S 7 4).sread 7).toNat % 8 ≠ 0
    ∧ (fabS false).fabric.mcast.find 1 = some (0, [2, 3]) ∧ ((fabS false).context 0).ftag = 0 ∧ ((fabS false).context 0).mfirst ≤ 1
    ∧ 1 < ((fabS false).context 0).mfirst + ((fabS false).context 0).mcnt ∧ (fabS false).fabric.mcast.find 2 = none
    ∧ S.cur.tags.find 0 = none ∧ (fabS false).cur.tags.find 1 = none ∧ ((fabS false).cur.tags.find 0).isSome
    ∧ (∀ t, t < 16 → ((withGroup S fun g => { g with tags := (List.range 16).map fun n => (n, { xfer := n, nost := true }) }).cur.tags.find t).isSome)
    ∧ ((fabS true).fabric.xfers.find 7).any (fun x => x.pkts.all (·.st.final)) = true
    ∧ ((fabS false).fabric.xfers.find 7).any (fun x => x.pkts.any fun p => !p.st.final) = true
    ∧ ((reg (fabS true) 4 0x100).sread 4).toNat / 16 % 16 = 0 ∧ ((reg (fabS true) 4 511).sread 4).toNat / 16 % 16 ≠ 0
    ∧ (fabS true).cur.jobs.find 9 = some 2 ∧ ((fabS true).jobs.find 2).any (·.final) = true ∧ ((fabS false).jobs.find 2).any (!·.final) = true
    ∧ (fabS true).cur.jobs.find 8 = none ∧ 2 ^ 16 ≤ ((reg (fabS true) 4 0x10009).sread 4).toNat := by decide +kernel

/-- Records of a 16-byte tensor on this device alone, at addresses 0 and 0x80 of the page at 0; a progress block of zeros at 0x100. -/
def recordWords : List W64 := [0x0000000100000111, 16, 0, 0, 0, 1, 0, 0, 0, 0x1000]
def reshardS : State :=
  let s := reg (reg (reg (reg S 4 0) 5 0x80) 6 0x100) 7 0x10001
  { s with mem := { s.mem with hbm := wrBytes (wrBytes s.mem.hbm 0 (wordBytes recordWords)) 0x80 (wordBytes recordWords) } }

/-- A job with its block at 0x100. -/
def job0 : Job := { gid := 0, team := 0, ctx := 0, mode := .priv, src := layoutOf [], dst := layoutOf [], block := 0x100, fp := 0, total := 1,
                    acked := 0, above := 0, failed := 0, st := 1, status := 0xFF, bytes := 0 }

theorem witness_Reshard :
    (let w3 := (reshardS.sread 7).toNat; w3 < 2 ^ 17 ∧ w3 % 2 ^ 16 ≠ 0 ∧ 2 ^ 16 ≤ w3)
    ∧ (reshardS.sread 4).toNat % 64 = 0 ∧ (reshardS.sread 5).toNat % 64 = 0 ∧ (reshardS.sread 6).toNat % 64 = 0 ∧ (S.sread 7).toNat % 2 ^ 16 = 0
    ∧ reshardS.cur.jobs.find 1 = none ∧ reshardS.cur.jobs.length < 4 ∧ ((fabS true).cur.jobs.find 9).isSome
    ∧ (reshardS.readRecord (accS reshardS) (.scalar 0) 0).1 = .ok (wordBytes recordWords)
    ∧ ((reshardS.readRecord (accS reshardS) (.scalar 0) 0).2.readRecord (accS reshardS) (.scalar 0) 0x80).1 = .ok (wordBytes recordWords)
    ∧ (reshardS.engRead (accS reshardS) (.scalar 0) 0x100 64).1 = .ok (List.replicate 64 0)
    ∧ recordOk (wordBytes recordWords) 0 false = true ∧ recordOk (wordBytes recordWords) 0 true = true
    ∧ (let l := layoutOf (wordBytes recordWords); l.dims = [16] ∧ planTotal (planOf l l 0) l.esize = 1)
    ∧ recordOk (List.replicate 64 0) 0 true = false ∧ (reshardS.jobs.countP fun p => !p.2.final) < 64
    ∧ ((fabS false).jobs.any fun p => !p.2.final && decide (p.2.ctx = 0 ∧ p.2.block = 0)) = true
    ∧ wordAt (List.replicate 64 0) 0 ≠ fnv (fnv 0xCBF29CE484222325 (wordBytes recordWords)) (wordBytes recordWords)
    ∧ (reshardS.writeBlock job0 (.store 0) job0.image).1 = .ok [] := by decide +kernel

/-- Lease slot n in some state, with an expiry. -/
def leaseS (st : LeaseState) : State := { S with mem := { S.mem with leases := [(5, { st := st, id := 1, base := 0x10000, len := 0x10000, expiry := 100 })] } }
/-- The image of an entry for the pool page at 0x20000, in the page at 0. -/
def grantS : State :=
  { S with mem := { S.mem with hbm := wrBytes S.mem.hbm 0 (wordBytes [0x0000000200010000, 0x20000, 0x10000, 100, 50, 0, 0, 0]) } }

theorem witness_PageCacheControl :
    S.cur.mode = .priv ∧ (S.sread 5).toNat = 0 ∧ 4096 < ((reg S 5 4097).sread 5).toNat ∧ ((reg S 5 4096).sread 5).toNat ≤ 4096
    ∧ 1 ≤ ((reg S 5 4096).sread 5).toNat
    ∧ (let m : Mem := { S.mem with frames := S.mem.frames.put {} 7 { valid := true, pfn := 7, pinned := true } }; m.hit 7 = some 7 ∧ m.hit 8 = none)
    ∧ S.mem.hit (numFrames - 1) = none ∧ (S.mem.frame 0).carved = true ∧ (S.mem.frame 1).carved = false ∧ 1 < numFrames
    ∧ ({ S.mem with frames := (List.range 15).map (fun w => (frameOf 1 (w + 1), { valid := true, pinned := true })) } : Mem).pins 1 = 15
    ∧ (S.mem.pgctl 0 .carve 1).toOption.isSome := by decide +kernel

theorem witness_LeaseOperations :
    S.cur.mode = .priv ∧ 4096 ≤ ((reg S 4 4096).sread 4).toNat ∧ ((reg S 4 4095).sread 4).toNat < 4096
    ∧ (∀ st ∈ [LeaseState.active, .expired, .revoking, .revoked, .lost], ((leaseS st).mem.lease 5).st = st) ∧ (S.mem.lease 5).st = .free
    ∧ ((leaseS .active).mem.lease 5).expiry.toNat > (leaseS .active).timeNs.toNat
    ∧ (leaseS .active).timeNs.toNat < ((reg (leaseS .active) 5 1).sread 5).toNat ∧ ((leaseS .active).sread 5).toNat ≤ (leaseS .active).timeNs.toNat
    ∧ (grantS.engRead (accS grantS) (.scalar 0) 0 64).1 = .ok (wordBytes [0x0000000200010000, 0x20000, 0x10000, 100, 50, 0, 0, 0])
    ∧ S.mem.leaseRule 2 0x20000 0x10000 = false ∧ S.mem.leaseRule 0 0x20000 0x10000 = true
    ∧ (S.engWrite (accS S) (.store 0) 0 (wordBytes (S.mem.leaseImage {}))).1 = .ok [] := by decide +kernel

/-- The TLB holds the page at 0 for context 0, and a G translation of another context. -/
theorem witness_TranslationAndKeys :
    S.cur.mode = .priv ∧ canonical ((reg S 4 0x100000000000000).sread 4) = false ∧ canonical ((reg S 4 0xFFFFFFFFFFFFFF).sread 4) = true
    ∧ S.mem.tlb ≠ [] ∧ (S.sread 4).toNat = 0 ∧ ((reg S 4 256).sread 4).toNat = 256 ∧ ((reg S 4 255).sread 4).toNat ≤ 255
    ∧ ({ S.mem with keys := [(255, 9)] } : Mem).keys.find 255 = some 9 ∧ S.mem.keys.find 255 = none
    ∧ (S.engRead (accS S) (.scalar 0) 0 64).1 = .ok (List.replicate 64 0)
    ∧ (S.engWrite S.sacc (.store S.curTeam.ctx) 0 (List.replicate 64 0)).1 = .ok [] := by decide +kernel

/-! ## Every hypothesis is met: lane statements -/

/-- Split 0 of group 0 runs in lane 0 with threads 0 to 7: 0 to 4 live, 5 to 7 helpers; t1 of thread 2 is 0, of the others 3,
and t0 is −8 everywhere. -/
def L : State := withGroup (base true) fun g =>
  { g with
    thr := (List.range 8).map (fun k => (k, { life := if k < 5 then .live else .helper, gen := 1, preds := 2 }))
    splits := [(0, { mask := 0xFF, mode := .running })]
    regs := (List.range 8).flatMap fun k => [(k * 256, 0xFFFFFFF8), (k * 256 + 1, if k = 2 then 0 else 3)] }
/-- Lanes of an instruction d = t2, A = t0, B = t1, C = t1: plain; guarded by p1, under U, d = p3; at the end of a run. -/
def l0 : Lane := { d := .t 2, a := .t 0, b := .t 1, c := .t 1 }
def lU : Lane := { l0 with u := true, gp := 1, d := .p 3 }
def lF : Lane := { l0 with fin := .fall }
/-- The same with the current split changed. -/
def withSplit0 (s : State) (f : Split → Split) : State := s.modSplit f
/-- The same with a thread changed. -/
def thrS (s : State) (k : Nat) (f : Thr → Thr) : State := withGroup s fun g => { g with thr := g.thr.put {} k (f (g.thread k)) }

theorem witness_LaneIntegers :
    (∀ l ∈ [l0, lU, lF], ∀ i ∈ [Instr.iadd l .i8 true, .isub l .n16 false, .imul l .i64, .imulh l .n64, .imad l .i32, .imadw l .n32, .iabs l .i16,
        .imin l .n8, .imax l .i8, .cvti l .i64 .n8 true, .lea l .i32 3, .idot4 l true false, .idiv l .i32, .irem l .n64, .sar l .i64, .bfe l .i32,
        .and l .b32, .or l .n64, .xor l .b32, .andn l .n64, .shl l .b32, .shr l .n64, .rotl l .n64, .clz l .n64, .popc l .b32, .brev l .n64,
        .mov l .n64, .bfi l .n64], Placed L i l)
    ∧ 2 ∈ L.computers l0 ∧ intRead .i32 (L.operand l0 false l0.b 2) = 0 ∧ L.cur.isHelper 2 = false
    ∧ (∀ j ∈ L.below l0 2, intRead .i32 (L.operand l0 false l0.b j) ≠ 0) ∧ L.below l0 2 = [0, 1]
    ∧ (∀ k ∈ L.computers lU, intRead .i32 (L.operand lU false lU.b k) ≠ 0) ∧ L.computers lU = [0] ∧ L.performers lU = List.range 8 := by
  unfold Placed; decide +kernel


theorem witness_LaneSelectsAndPredicates :
    ∀ l ∈ [l0, lU, lF], ∀ i ∈ [Instr.nop l, .iset l .i64 .eq, .iset l .n8 .ge, .sel l .n64 7 true, .plop3 l 0 1 7, .pmov l, .pmovToPreds l,
      .movspW l .fpstat, .movspW l .xexited, .movsp l .tid, .movsp l .timeNs, .movsp l .ctxid], Placed L i l := by
  unfold Placed; decide +kernel


/-- The context traps on every float exception. -/
def fpS : State := L.modContext 0 fun c => { c with fpen := 0x3F }

theorem witness_LaneFloatResults :
    (∀ l ∈ [l0, lU, lF], ∀ i ∈ [Instr.fadd l .f32 .rs true false, .fsub l .f16 .ru true true, .fmul l .bf16 .rz false true, .ffma l .f32 .rd true true true,
        .fmin l .f32 true false, .fmax l .f16 false true, .fset l .bf16 .lt, .fdiv l .f32 .rs, .fsqrt l .f16 .ra, .frcp l .f32 .rn, .frnd l .bf16 .rz,
        .fcvti l .i64 .f32 .rs, .icvtf l .f32 .n64 .rs, .fscale l .f32 .rn, .fdot2 l .f16 .rs, .fclass l .f32,
        .frsq l, .fexp2 l, .flog2 l, .fsin l, .fcos l], Placed L i l)
    ∧ (∀ p : Fin 8, l0.d ≠ .p p) ∧ lU.d = .p 3
    ∧ (fpS.context 0).fpen = 0x3F ∧ (fpS.computers l0).head? = some 0 ∧ fpS.cur.isHelper 0 = false
    ∧ (let p := (fDiv (floatOperand .f32 fpS l0 false .imm 0) (floatOperand .f32 fpS l0 false .zero 0)).round .f32 .rn 0
       p.2 &&& (fpS.context 0).fpen ≠ 0)
    ∧ (L.context 0).fpen = 0
    ∧ Fmt.read .f32 0x7FC00000 = .nan false ∧ Fmt.read .f32 0x7F800001 = .nan true ∧ Fmt.read .f32 0xBF800000 = .fin true (2 ^ 23) (-23)
    ∧ Fmt.read .f32 0x3F800000 = .fin false (2 ^ 23) (-23) ∧ Fmt.read .f32 1 = .fin false (2 ^ 0) (-149) := by
  unfold Placed; decide +kernel


theorem witness_LanePackedAndNarrow :
    (∀ l ∈ [l0, lU, lF], ∀ i ∈ [Instr.hadd2 l .f16 .rs true false, .hmul2 l .bf16 .rn true true, .hfma2 l .f16 .rs true false true, .hmin2 l .f16 true false,
        .hmax2 l .bf16 false true, .fpack l (.half .f16 .rs), .funpk l (.half .bf16 true), .fpack l .nib, .fpack l .twoHi, .fpack l .twoLo,
        .funpk l .hi, .funpk l .lo, .i4xpk l .rs true, .i4xunp l, .ncvt l .e2m1 .rs true, .ncvtFrom l .e4m3, .mxscl l .e4m3, .nexp l .f32,
        .rng l .b32, .rng l .n64], Placed L i l)
    ∧ (narrow .e2m1 .rn false 0 0x7FC00000).2 &&& (fpS.context 0).fpen ≠ 0 := by
  unfold Placed; decide +kernel


/-- In E2M1, 1 rounds to itself and 8 to a value past the largest. -/
theorem witness_RoundingRule :
    (0 < 1) ∧ (65535 < 65536) ∧ (1 : ℚ) ≤ largestFinite .e2m1 ∧ largestFinite .e2m1 < 8
      ∧ (let q : ℚ := 2 ^ (max (Int.log 2 (8 : ℚ)) (1 - Fmt.e2m1.bias) - Fmt.e2m1.mw); ⌊(8 : ℚ) / q⌋ * q = 8)
      ∧ (let q : ℚ := 2 ^ (max (Int.log 2 (1 : ℚ)) (1 - Fmt.e2m1.bias) - Fmt.e2m1.mw); ⌊(1 : ℚ) / q⌋ * q = 1) := by
  have h8 : Int.log 2 (8 : ℚ) = 3 := by
    rw [show (8 : ℚ) = ((2 : ℕ) : ℚ) ^ (3 : ℤ) by norm_num]; exact Int.log_zpow (by norm_num) 3
  have h1 : Int.log 2 (1 : ℚ) = 0 := by
    rw [show (1 : ℚ) = ((2 : ℕ) : ℚ) ^ (0 : ℤ) by norm_num]; exact Int.log_zpow (by norm_num) 0
  rw [h8, h1]
  refine ⟨by norm_num, by norm_num, by norm_num [largestFinite], by norm_num [largestFinite], ?_, ?_⟩
  · norm_num [Fmt.bias, Fmt.mw, max_def]
  · norm_num [Fmt.bias, Fmt.mw, max_def]

/-- Thread 1's mask (in t1) lacks bit 1. -/
def xS : State := withGroup L fun g => { g with regs := g.regs.put 0 257 0xFD }

theorem witness_LaneExchanges :
    L.split.skipping = false
    ∧ (∀ l ∈ [l0, lU, lF], ∀ i ∈ [Instr.xscan l .add .f32 true, .xred l .min .n64, .qred l .xor .i32, .xshf l .idx .b32, .xshf l .up .n64, .xshf l .down .b32,
        .xshf l .xor .n64, .xbal l 1 true, .xmatch l .n64, .xfirst l .b32, .xbcst l .n64, .qswp l .x .b32, .qswp l .diag .n64, .qbcst l .b32,
        .mbxw l 0 .i32, .mbxw l 3 .n64], Placed L i l)
    ∧ 1 ∈ xS.computers l0 ∧ xS.below l0 1 = [0] ∧ (exchangeMask xS l0 false 1).getLsbD 1 = false ∧ xS.cur.isHelper 1 = false
    ∧ (exchangeMask xS l0 false 0).getLsbD 0 = true
    ∧ (∀ k ∈ L.computers { l0 with c := .zero }, (exchangeMask L { l0 with c := .zero } false k).getLsbD k = true) := by
  unfold Placed; decide +kernel

/-- The trap slot runs thread 0 at a level, for a trap of a cause from user mode, or from privileged mode; split 0 stands trapped. -/
def slotS (cause : W32) : State :=
  let s := withGroup L fun g =>
    { g with
      thr := g.thr.put {} 0 { life := .live, gen := 1, tlevel := 1, t1 := { cause := cause } }
      splits := [(0, { mask := 0xFF, mode := .trapped, resuming := true, ins := some (.iadd { d := .t 47 } .i64 false) })]
      tslot := some { thr := 0, levels := [{ mask := 1, mode := .running }] } }
  { s with curSlot := 4, lanePairs := s.lanePairs.put {} 0 { lane0 := some (0, 4) } }

theorem witness_LaneTraps :
    -- LaneSoftwareTraps: a thread that traps, and helpers alone
    Placed L (.trap l0) l0 ∧ Placed L (.bpt lU) lU ∧ 0 ∈ L.computers l0 ∧ L.below l0 0 = [] ∧ L.cur.isHelper 0 = false
    ∧ (let h := withSplit0 L fun x => { x with mask := 0xE0 }; h.computers l0 = [5, 6, 7] ∧ ∀ k ∈ h.computers l0, h.cur.isHelper k = true)
    -- LaneTrapEntry
    ∧ L.curSlot ≤ 4 ∧ L.cur.split? L.curSlot = some L.split ∧ (thrS L 0 fun t => { t with tlevel := 2 }).cur.thread 0 = { (L.cur.thread 0) with tlevel := 2 }
    ∧ L.cur.tslot = none ∧ (L.cur.thread 31).tlevel < 2
    ∧ ((withGroup L fun g => { g with tslot := some { thr := 3, levels := [] } }).cur.tslot.map (·.thr) = some 3)
    ∧ userTrap (user L).cur.mode 0x03 ∧ ((user L).context 0).tvecUl = 0 ∧ (((user L).modContext 0 fun c => { c with tvecUl := 5 }).context 0).tvecUl ≠ 0
    ∧ ¬userTrap L.cur.mode 0x03 ∧ ¬userTrap (user L).cur.mode 0x3F
    -- LaneTrapReturn
    ∧ (user L).cur.mode = .user ∧ (user L).curSlot ≠ 4 ∧ L.cur.mode = .priv ∧ (∀ i ∈ [Instr.tret l0, .tretSkip l0, .tretVal l0, .tretPark l0], L.misplaced i l0 = false)
    ∧ (slotS 0x14).curSlot = 4 ∧ (slotS 0x14).cur.tslot.map (·.thr) = some 0 ∧ (slotS 0x14).misplaced (.tret l0) l0 = false ∧ l0.fin = .none
    ∧ ((slotS 0x14).cur.thread 0).t1.cause.toNat / 8192 % 8 = 0 ∧ ((slotS 0x14).cur.splits.find 0).isSome
    ∧ (slotS 0x14).cur.mode = .priv ∧ (user (slotS 0x14)).cur.mode = .user ∧ ((user (slotS 0x14)).cur.thread 0).t1.cause.toNat % 64 ∈ [0x03, 0x04, 0x05, 0x10, 0x14, 0x15]
    ∧ ((slotS 0x14).cur.thread 0).t1.cause.getLsbD 17 = false ∧ ((slotS 0x14).cur.thread 0).t1.pc = 0 ∧ ((slotS 0x14).cur.split? 0).map (·.pc) = some 0
    ∧ ((thrS (slotS 0x14) 0 fun t => { t with t1 := { t.t1 with pc := 7 } }).cur.thread 0).t1.pc ≠ 0
    ∧ ((slotS 0x14).cur.splits.find 0).any (fun x => !x.whole && ((x.ins.bind laneOf).any fun j => !never j && j.ha == .none && j.hb == .none && j.hc == .none)) = true
    ∧ (((slotS 0x14).cur.splits.find 0).bind (·.ins)).bind dstOf = some (.t 47, true) ∧ tretSrcOk true l0.a = true
    ∧ ¬(((user (slotS 0x2)).cur.thread 0).t1.cause.toNat % 64 ∈ [0x03, 0x04, 0x05, 0x10, 0x14, 0x15]) := by
  unfold Placed userTrap; and_intros <;> decide +kernel

/-- Threads 0 to 3 have p1, threads 4 to 7 not; the split stands at a unit with a stack. -/
def cfS (pc : W32) (stack : List REntry) : State := withSplit0 (withGroup L fun g =>
  { g with thr := (List.range 8).map (fun k => (k, { life := .live, preds := if k < 4 then 2 else 0 })) }) fun x => { x with pc := pc, stack := stack }
/-- BRL lanes: guarded by p1 with its target and join offsets. -/
def br (t j : BitVec 16) : Lane := { gp := 1, fin := .fall, imm := j ++ t }
def divE (ja : W32) : REntry := { kind := .div, ja := ja, fa := 0, pm := 0xFF, am := 0, id := 1 }
def callE (f : W32) : REntry := { kind := .call, ja := 5, fa := f, pm := 0, am := 0, id := 0 }

theorem witness_LaneControlFlow :
    -- RunStarts
    (cfS 4 []).split.stack = [] ∧ (cfS 4 [divE 4]).split.stack = [divE 4] ∧ (divE 4).ja = (cfS 4 []).split.pc ∧ (divE 5).ja ≠ (cfS 4 []).split.pc
    ∧ (callE 0).kind = .call ∧ (callE 0).ja = (cfS 5 []).split.pc
    ∧ ({ (divE 4) with kind := .stk, pm := 0 } : REntry).pm = 0 ∧ ({ (divE 4) with kind := .stk } : REntry).pm ≠ 0
    -- BRL: no thread, all threads, some threads; the target, the next unit and the join inside the code or not
    ∧ (∀ t ∈ [(br 2 5, (4 : W32)), (br 11 2, 4), (br 12 2, 4), (br 2 5, 15), (br 0xFFFC 11, 4), (br 1 3, 4), (br 5 5, 4), (br 5 1, 4)],
        Placed (cfS t.2 []) (.brl t.1) t.1)
    ∧ maskOf ((cfS 4 []).active.filter fun k => (cfS 4 []).guard (br 2 5) k) = 0x0F
    ∧ maskOf ((cfS 4 []).active.filter fun k => (cfS 4 []).guard { (br 2 5) with gn := true } k) = 0xF0
    ∧ maskOf ((cfS 4 []).active.filter fun k => (cfS 4 []).guard { (br 2 5) with gp := 0, gn := true } k) = 0
    ∧ maskOf ((cfS 4 []).active.filter fun k => (cfS 4 []).guard { (br 2 5) with gp := 0 } k) = (cfS 4 []).split.mask
    ∧ (cfS 4 []).curTeam.kernel.lunits = 16 ∧ ((br 0xFFFC 11).imm.extractLsb' 0 16).toInt = -4 ∧ ((br 0xFFFC 11).imm.extractLsb' 16 16).toInt = 11
    ∧ (List.replicate 8 (divE 9)).length = 8 ∧ (cfS 4 []).cur.splits.find 1 = none
    ∧ (∀ m, m < 4 → ((withGroup (cfS 4 []) fun g => { g with splits := (List.range 4).map fun n => (n, { mask := 1 }) }).cur.splits.find m) ≠ none)
    ∧ Placed (cfS 4 []) (.join (br 2 0)) (br 2 0)
    -- CALL, CALLR, RET
    ∧ Placed (cfS 4 []) (.call (br 2 0) 0) (br 2 0) ∧ Placed (cfS 4 []) (.callr { (br 0 0) with a := .t 1 } 15) { (br 0 0) with a := .t 1 }
    ∧ ((cfS 4 []).reg32 0 (.t 1) (cfS 4 []).lowest).toNat = 3 ∧ (cfS 4 []).staleLatch { (br 0 0) with a := .t 1 } = false
    ∧ (cfS 4 []).curTeam.kernel.regs16 * 16 = 48 ∧ (cfS 4 []).split.rd = 0
    ∧ Placed (cfS 4 [callE 4]) (.ret (br 0 0)) (br 0 0) ∧ Placed (withSplit0 (cfS 4 []) fun x => { x with spill := 1 }) (.ret (br 0 0)) (br 0 0)
    ∧ Placed (cfS 4 [divE 9]) (.ret (br 0 0)) (br 0 0) ∧ (callE 4).fa.toNat % 64 = 4 ∧ (withSplit0 (cfS 4 [callE 4]) fun x => { x with rd := 4 }).split.rd = 4
    ∧ (divE 9).kind ≠ .call := by
  unfold Placed; and_intros <;> decide +kernel

theorem witness_LaneRunEnds :
    Placed L (.sleep l0 true) l0 ∧ Placed L (.yield lF) lF ∧ L.guard l0 L.lowest = true ∧ L.guard { l0 with gn := true } L.lowest = false
    ∧ L.cur.split? L.curSlot = some L.split ∧ L.curSlot < 4 ∧ L.split.spill = 0 ∧ L.split.stack = []
    ∧ SMap.sorted L.split.part = true ∧ SMap.sorted L.curPair.latch = true
    ∧ (let s := withSplit0 L fun x => { x with gmask := 0x01F }; s.split.gmask.getLsbD 4 = true ∧ (s.cur.thread 4).life = .live
       ∧ (∀ k, k < 32 → k / 4 = 1 → (s.cur.thread k).life = .live → s.split.gmask.getLsbD k = true))
    ∧ (let s := withSplit0 L fun x => { x with gmask := 0x001 }; s.split.gmask.getLsbD 0 = true ∧ (s.cur.thread 1).life = .live ∧ s.split.gmask.getLsbD 1 = false
       ∧ ∀ k, k < 32 → k / 4 = 1 → s.split.gmask.getLsbD k = false)
    ∧ (let s := withSplit0 L fun x => { x with gmask := 0xE0 }; (threadsOf s.split.gmask).all (fun k => !s.cur.isLive k) = true
       ∧ (threadsOf s.split.mask).any s.cur.isLive = true) := by
  unfold Placed; and_intros <;> decide +kernel

/-! ## Every hypothesis is met: lane memory, matrix, system -/

/-- t0 of thread k holds an address; team 1 of the same gang stands on core 1, its window 2 (window 1 is the own team). -/
def adrS (a : Nat → W32) : State :=
  let s := withGroup (withTeam L fun t => { t with size := 2, watch := [{ kind := .counter, off := 256, len := 32 }] })
    fun g => { g with regs := (List.range 8).flatMap fun k => [(k * 256, a k), (k * 256 + 1, 3)] }
  { s with teams := s.teams.put {} 1 { (s.team 0) with core := 1, gidx := 1, watch := [], full := [(0, true), (1, true)] } }
/-- An address of the own team, and of team 1's window. -/
def ownA (k : Nat) : W32 := BitVec.ofNat 32 (0xFFFF - 3 - 16 * k)
def farA (k : Nat) : W32 := BitVec.ofNat 32 (2 * 2 ^ 20 + 16 * (k % 2))
/-- t0 points at the watched counter everywhere; nowhere; an odd byte. -/
def hitA (_ : Nat) : W32 := 256
def outA (_ : Nat) : W32 := 0x20000000
def oddA (_ : Nat) : W32 := 1

theorem witness_LaneScratch :
    -- LaneScratchLoads
    Placed (adrS ownA) (.lds l0 .i32) l0 ∧ Placed (adrS farA) (.lds l0 .i64) l0 ∧ Placed (adrS ownA) (.ldc l0 .n8) l0
    ∧ (∀ k ∈ (adrS ownA).computers l0, scratchAddr (adrS ownA) l0 k % 4 = 0 ∧ ((adrS ownA).scratchAt 0 (scratchAddr (adrS ownA) l0 k)).map (·.1) = some 0)
    ∧ (∀ k ∈ (adrS farA).computers l0, scratchAddr (adrS farA) l0 k % 8 = 0 ∧ ((adrS farA).scratchAt 0 (scratchAddr (adrS farA) l0 k)).map (·.1) = some 1)
    ∧ ((adrS farA).team 1).core ≠ (adrS farA).curTeam.core
    ∧ 0 ∈ (adrS outA).computers l0 ∧ (adrS outA).scratchAt 0 (scratchAddr (adrS outA) l0 0) = none ∧ (adrS outA).below l0 0 = []
    ∧ scratchAddr (adrS oddA) l0 0 % 4 ≠ 0 ∧ (adrS oddA).cur.isHelper 0 = false
    ∧ (∀ k ∈ (adrS farA).computers l0, 4096 ≤ scratchAddr (adrS farA) l0 k) ∧ scratchAddr (adrS (fun _ => 4095)) l0 0 < 4096
    -- LaneScratchStores
    ∧ (∀ p ∈ (adrS ownA).groups, wakeGroup (adrS ownA).timeNs p.2 = p.2)
    ∧ Placed (adrS ownA) (.sts l0 .i16) l0 ∧ Placed (adrS ownA) (.stfe l0 .b32) l0 ∧ Placed (adrS farA) (.ldfeKeep l0 .n64) l0 ∧ Placed (adrS ownA) (.ldfeClear l0 .b32) l0
    ∧ (∀ k ∈ (adrS ownA).computers l0, (adrS ownA).scratchAt 0 (scratchAddr (adrS ownA) l0 k) = some (0, 0xFFFC - 16 * k)
        ∧ ((adrS ownA).team 0).touches (0xFFFC - 16 * k) 4 = false)
    ∧ (let s := withTeam (adrS ownA) fun t => { t with full := (List.range 8).map fun k => (4088 + k, true) }
       (∀ k ∈ s.computers l0, (s.team 0).isFull ((0xFFFC - 16 * k) / 16) = true ∧ (s.team 0).core = s.curTeam.core)
       ∧ (((s.computers l0).filter fun k => !s.cur.isHelper k).map fun k => (0xFFFC - 16 * k) / 16).Nodup)
    ∧ ((adrS ownA).team 0).isFull (0xFFFC / 16) = false
    ∧ (adrS hitA).scratchAt 0 (scratchAddr (adrS hitA) l0 0) = some (0, 256) ∧ ((adrS hitA).team 0).touches 256 4 = true
    -- LaneScratchAtomics
    ∧ (adrS ownA).mem.l1Of (adrS ownA).curTeam.core = [] ∧ Placed (adrS ownA) (.atoms l0 .dec .f32 true true) l0 ∧ Placed (adrS hitA) (.atoms l0 .add .n64 false true) l0
    ∧ Placed (adrS farA) (.acass l0 .i64 true false) l0 ∧ ((adrS hitA).team 0).hasCounter 256 = true := by
  unfold Placed; and_intros <;> decide +kernel

/-- A lane instruction whose address pair is t4, t5, which hold 0: its IMM32 is the address. The line at 0 stands in the core's
L1; the lines at 0 and 128 stand at their home. -/
def lG (imm : W32) : Lane := { d := .t 2, a := .t 4, b := .t 0, c := .t 1, imm := imm }
def inL1 : State := { L with mem := { L.mem with l1 := [(l1Key 0 (lineKey 3 0 0), { valid := 0xFFFFFFFF, data := 0x1234 })] } }
def atL2 : State := { L with mem := { L.mem with l2 := [(lineKey 3 0 0, { data := 7 }), (lineKey 3 0 128, { data := 9 })] } }
/-- A page nobody may write. -/
def roS : State := { L with mem := { L.mem with tlb := [{ placedPage with leaf := { placedPage.leaf with write := false } }] } }

theorem witness_LaneGlobalMemory :
    (∀ p : Pol, p ∈ [Pol.ca, .cg, .cs] → Placed inL1 (.ld (lG 0) .n64 p) (lG 0) ∧ Placed inL1 (.xload (lG 0) .i8 p) (lG 0) ∧ Placed inL1 (.prefl (lG 0) p) (lG 0)
      ∧ Placed atL2 (.st (lG 128) .n16 p) (lG 128) ∧ Placed atL2 (.cstore (lG 0) .b32 p) (lG 0) ∧ Placed atL2 (.zline (lG 128) p) (lG 128))
    ∧ (∀ k ∈ inL1.computers (lG 120), globalAddr inL1 (lG 120) k = 120 ∧ inL1.mem.tlbHit inL1.curTeam.core inL1.curTeam.ctx 120 = some placedPage
      ∧ inL1.mem.useFault placedPage.leaf inL1.cur.mode .read = none ∧ inL1.mem.useFault placedPage.leaf inL1.cur.mode .write = none
      ∧ placedPage.leaf.addr 120 = 120 ∧ inL1.mem.l1Has 0 (lineKey 3 0 120) 0 120 8 = true)
    ∧ canonical 120 = true ∧ placedPage.leaf.space = 3 ∧ placedPage.leaf.sro = false
    ∧ (∀ k ∈ atL2.computers (lG 128), globalAddr atL2 (lG 128) k = 128 ∧ placedPage.leaf.addr 128 = 128) ∧ atL2.mem.tlbHit atL2.curTeam.core atL2.curTeam.ctx 128 = some placedPage
    ∧ atL2.mem.l1.find (l1Key 0 (lineKey 3 0 128)) = none ∧ atL2.mem.validAt (homeDie (lineKey 3 0 128)) (lineKey 3 0 128) = true ∧ atL2.mem.validAt (4 + atL2.curTeam.core) (lineKey 3 0 128) = true
    ∧ (atL2.mem.l2.filter fun p => decide (p.1 ≠ lineKey 3 0 128) && decide (homeDie p.1 = homeDie (lineKey 3 0 128)) && decide (l2SetOf p.1 = l2SetOf (lineKey 3 0 128))).length < 16
    ∧ (atL2.mem.l2.find (lineKey 3 0 128)).map (·.key) = some placedPage.leaf.key ∧ atL2.mem.l1Of atL2.curTeam.core = []
    ∧ (globalAddr L (lG 1) 0).toNat % 4 ≠ 0 ∧ L.cur.isHelper 7 = true ∧ 7 ∈ L.computers (lG 1)
    ∧ (L.computers (lG 0)).head? = some 0 ∧ L.cur.isHelper 0 = false
    ∧ (let s := withGroup L fun g => { g with regs := g.regs.put 0 5 0x01000000 }; canonical (globalAddr s (lG 0) 0) = false ∧ (globalAddr s (lG 0) 0).toNat % 128 = 0)
    ∧ (roS.mem.tlbHit 0 0 0).map (fun e => roS.mem.useFault e.leaf roS.cur.mode .write) = some (some 0x07)
    ∧ (lG 0).u = false := by
  unfold Placed; and_intros <;> first | decide +kernel | exact lt_of_le_of_lt (List.length_filter_le _ _) (by decide +kernel)

theorem witness_LaneGlobalAtomics :
    (∀ i ∈ [Instr.atom (lG 120) .inc .n64 true true, .red (lG 120) .add .f32 true, .acas (lG 120) .i32 false true], Placed atL2 i (lG 120))
    ∧ atL2.mem.l1Of atL2.curTeam.core = []
    ∧ (∀ k ∈ atL2.computers (lG 120), globalAddr atL2 (lG 120) k = 120 ∧ (globalAddr atL2 (lG 120) k).toNat % 8 = 0)
    ∧ canonical 120 = true ∧ atL2.mem.tlbHit atL2.curTeam.core atL2.curTeam.ctx 120 = some placedPage ∧ atL2.mem.useFault placedPage.leaf atL2.cur.mode .write = none
    ∧ placedPage.leaf.addr 120 = 120 ∧ atL2.mem.l1.find (l1Key 0 (lineKey 3 0 120)) = none ∧ atL2.mem.validAt (homeDie (lineKey 3 0 120)) (lineKey 3 0 120) = true ∧ atL2.mem.validAt (4 + atL2.curTeam.core) (lineKey 3 0 120) = true
    ∧ (atL2.mem.l2.filter fun p => decide (p.1 ≠ lineKey 3 0 120) && decide (homeDie p.1 = homeDie (lineKey 3 0 120)) && decide (l2SetOf p.1 = l2SetOf (lineKey 3 0 120))).length < 16
    ∧ (atL2.mem.l2.find (lineKey 3 0 120)).map (·.key) = some 0
    ∧ (globalAddr L (lG 4) 0).toNat % 8 ≠ 0 ∧ (roS.mem.tlbHit 0 0 0).map (fun e => roS.mem.useFault e.leaf roS.cur.mode .write) = some (some 0x07) := by
  unfold Placed; and_intros <;> first | decide +kernel | exact lt_of_le_of_lt (List.length_filter_le _ _) (by decide +kernel)

/-- Core 0's matrix queue and latch as given. -/
def mxS (q : List MxCmd) (a : Option ALatch) : State := L.modCore 0 fun c => { c with mxq := q, alatch := a }
def cmdOf (op : MxOp) : MxCmd := { team := 0, gid := 0, op := op }
/-- A matrix instruction's lane: A at t6 (0), B and C at t7, t8 (0). -/
def lM : Lane := { d := .t 2, a := .t 6, b := .t 7, c := .t 8, u := true }

theorem settled_one (c : MxCmd) (a : Option ALatch) (h : behind [] c = true) (ha : ∀ x, a = some x → ((mxS [c] a).group x.gid).ended = false) :
    QueueSettled (mxS [c] a) 0 := by
  have hc : (mxS [c] a).core 0 = { mxq := [c], alatch := a } := rfl
  refine ⟨fun before x after e => ?_, fun x e => ha x (by rw [hc] at e; exact e)⟩
  rw [hc] at e
  cases before with
  | nil => simp only [List.nil_append, List.cons.injEq] at e; rw [← e.1]; exact h
  | cons b r => simp at e

theorem witness_MatrixIssue :
    QueueSettled (mxS [cmdOf (.zero 1)] none) 0
    ∧ QueueSettled (mxS [{ (cmdOf (.zero 1)) with latch := true }] (some { gid := 0, rows := { steps := 2 } })) 0
    ∧ L.cur.ended = false ∧ (0 : Fin 16).val < L.curTeam.kernel.tiles ∧ L.curTeam.kernel.tiles = 1
    ∧ (∀ i ∈ [Instr.mxloop lM 0 3 true, .mxzero lM, .mxld lM 0, .mxst lM 0 10, .mxwaitSt lM 0 true, .mxwaitStall lM false, .mxrel lM], Placed L i lM)
    ∧ L.guard lM L.lowest = true ∧ L.guard { lM with gn := true } L.lowest = false
    ∧ (L.reg32 0 lM.b L.lowest).toNat % 16 = 0 ∧ 0 + (4096 * 4) ≤ L.curTeam.size' ∧ ((L.reg32 0 (.t 0) L.lowest).toNat ≥ 2 ^ 20) ∧ (L.reg32 0 (.t 1) L.lowest).toNat % 16 ≠ 0
    ∧ L.curTeam.rows = none
    ∧ (let s := mxS [{ (cmdOf (.zero 1)) with latch := true }] (some { gid := 0, rows := { steps := 2 } })
       (s.core 0).alatch.map (·.gid) = some s.curGid ∧ (∃ q ∈ (s.core 0).mxq, q.latch = true ∧ q.gid = s.curGid))
    ∧ (mxS (List.replicate 64 (cmdOf (.zero 1))) none).curTeam.kernel.tiles = 1 ∧ ((mxS (List.replicate 64 (cmdOf (.zero 1))) none).core 0).mxq.length = 64
    ∧ behind [cmdOf (.zero 1)] (cmdOf (.wait false 0 true 3)) = true ∧ behind [] (cmdOf (.wait false 0 true 3)) = false
    ∧ behind [] (cmdOf (.rel 0)) = false ∧ L.cur.far = [] := by
  refine ⟨settled_one _ _ rfl (fun x h => by cases h), settled_one _ _ rfl (fun x h => by cases h; decide +kernel), ?_⟩
  unfold Placed; and_intros <;> decide +kernel

theorem witness_MatrixCommands :
    (let q := ((mxS [cmdOf (.zero 1), cmdOf (.wait false 0 true 3)] none).core 0).mxq; q = [] ++ cmdOf (.zero 1) :: [cmdOf (.wait false 0 true 3)])
    ∧ (cmdOf (.zero 1)).op.runs = true ∧ (cmdOf (.zero 1)).started = false
    ∧ (let c := cmdOf (.loop 0 1 false [0x33, 0, 0, 0, 0, 0, 0, 0] 0 {} false); c.op.runs = true ∧ (mxFmt [0x33, 0, 0, 0, 0, 0, 0, 0]).isSome)
    ∧ mxFmt [0x30, 0, 0, 0, 0, 0, 0, 0] = none
    ∧ (let s : State := { (mxS [] none) with rings := [(0, { count := 2, tokens := [(0, 0)] })] }
       s.clusterOf 0 = (0, 0) ∧ (∃ t ∈ (s.ring 0).tokens, t.1 = 0 ∧ t.2 ≤ s.cycle) ∧ ¬(∃ t ∈ (s.ring 1).tokens, t.1 = 0)
       ∧ ({ s with cycle := 5000 } : State).cycle ≥ 4096 ∧ (∀ t ∈ (s.ring 0).tokens, t.1 ≠ 1) ∧ (s.ring 0).count = 2 ∧ s.tokenReady 0 = none)
    ∧ (∀ p ∈ L.groups, wakeGroup L.timeNs p.2 = p.2)
    ∧ (∀ op ∈ [MxOp.loop 0 1 false [0x33, 0, 0, 0, 0, 0, 0, 0] 0 {} true, .zero 1, .ld 0 0 512, .st 0 3 0 false true true false true 0 128], (cmdOf op).op.runs = true)
    ∧ L.curTeam.watch = [] ∧ behind [] (cmdOf (.rel 0)) = false ∧ behind [] (cmdOf (.wait true 0 false 0)) = false
    ∧ (let s := withSplit0 L fun x => { x with mode := .suspended .mxQueue }; (s.group 0).split? 0 = some s.split ∧ s.split.mode = .suspended .mxQueue
       ∧ (s.core (s.coreOf 0)).mxq.length < 64)
    ∧ (let s := withSplit0 L fun x => { x with mode := .suspended .aLatch }; s.split.mode = .suspended .aLatch ∧ (s.core (s.coreOf 0)).alatch = none) := by
  and_intros <;> decide +kernel

/-- A lane of a system instruction in the trap slot; the trapped split has spilled four entries and can spill four more. -/
def lS : Lane := { d := .t 2, a := .t 4, b := .t 6, u := true, imm := 4 }
def spillS : State := withGroup ((slotS 0x14).modContext 0 fun c => { c with bstore := 0x1000, bsize := 256 }) fun g =>
  { g with ctximg := 0x4000, splits := [(0, { mask := 0x3, mode := .trapped, resuming := true, rd := 8, wsp := 4, spill := 1, stack := [callE 4] })] }

theorem witness_LaneSystem :
    (user L).cur.mode = .user ∧ L.cur.mode = .priv ∧ Placed L (.lsrd lS 13 true) lS ∧ Placed L (.lswr lS 13 true) lS ∧ Placed L (.lswr lS 3 false) lS
    ∧ L.cur.split? L.curSlot = some L.split ∧ L.curSlot < 4
    ∧ L.curSlot ≠ 4 ∧ spillS.curSlot = 4 ∧ lS.u = true ∧ spillS.active ≠ [] ∧ lS.ha = .none ∧ lS.hb = .none ∧ lS.hc = .none ∧ spillS.guard lS spillS.lowest = true
    ∧ spillS.guard { lS with gn := true } spillS.lowest = false
    ∧ (∀ i ∈ [Instr.spillwWin lS, .spillwStk lS, .fillwWin lS, .fillwStk lS], Placed spillS i lS)
    ∧ spillS.cur.tslot.map (·.thr) = some 0 ∧ (spillS.cur.thread 0).t1.cause.toNat / 8192 % 8 = 0 ∧ (spillS.cur.splits.find 0).isSome ∧ spillS.curTeam.d ≤ 256
    ∧ min 4 (min 8 (256 / 4 - 4)) / 4 * 4 = 4
    ∧ (let r := (matrixBegun spillS (.spillwWin lS) lS).checkAll [0x1010, 0x1010] 16 true; r.1 = none ∧ (r.2.writeAll (.xlat 0 4) [(0x1010, List.replicate 16 0)]).1 = .ok [])
    ∧ (let r := (matrixBegun spillS (.fillwWin lS) lS).checkAll [0x1000, 0x1000] 16 false; r.1 = none ∧ (r.2.readAll (.xlat 0 4) 16 [0x1000, 0x1000]).1.toOption = some [List.replicate 16 0, List.replicate 16 0])
    ∧ ((matrixBegun spillS (.spillwWin lS) lS).checkAll [0x100000] 16 true).1 = some (0x100000, 0x06)
    ∧ ((matrixBegun spillS (.spillwStk lS) lS).engCheck (accS spillS) 0x5918 24 true).1 = none := by
  unfold Placed; and_intros <;> decide +kernel

theorem witness_ContextImages :
    spillS.cur.mode = .priv ∧ lS.u = true ∧ spillS.active ≠ [] ∧ spillS.guard lS spillS.lowest = true
    ∧ (∀ t ∈ [true, false], Placed spillS (.ctxsv lS t) lS ∧ Placed spillS (.ctxrs lS t) lS)
    ∧ (spillS.reg64 0 lS.b spillS.lowest).toNat % 64 = 0 ∧ (spillS.reg64 0 (.t 0) spillS.lowest).toNat % 64 ≠ 0
    ∧ (spillS.reg32 0 lS.a spillS.lowest).toNat = 0 ∧ (matrixBegun spillS (.ctxsv lS false) lS).groupOf 0 = some 0 ∧ spillS.teamOf 0 = some 0
    ∧ spillS.teamOf 5 = none ∧ spillS.groupOf 5 = none
    ∧ (spillS.team 0).stopped = false ∧ (spillS.team 0).again = false
    ∧ (withTeam spillS fun t => { t with stopped := true }).curTeam.stopped = true ∧ (withTeam spillS fun t => { t with again := true }).curTeam.again = true
    ∧ (spillS.engRead (accS spillS) (.xlat 0 4) 0 96).1 = .ok (List.replicate 96 0) ∧ spillS.curTeam.kernel.scrb = 1
    ∧ spillS.curTeam.kernel.regs16 < 256 := by
  unfold Placed; and_intros <;> decide +kernel

/-! ## Every hypothesis is met: events of streams, memory and copies -/

/-- Group 0's scalar stream waits at an instruction; team 0 has a barrier, a ring and a counter. -/
def waitS (w : SWait) : State := withGroup (withTeam (ringS false) fun t => { (t.setBar 0 7 1 0 0) with
  watch := t.watch ++ [{ kind := .counter, off := 256, len := 32 }] }) fun g =>
  { g with swait := some w, splits := [(0, { mask := 0xF, mode := .waitNext })] }

theorem witness_ScalarReleases :
    (waitS { instr := .barw 4 5 0 }).cur.swait = some { instr := .barw 4 5 0 } ∧ (0 : Fin 16).val < (waitS { instr := .lquiet }).curTeam.kernel.bars
    ∧ ((waitS { instr := .lquiet }).sread 4).toNat % 2 ^ 32 = 0 ∧ (waitS { instr := .lquiet }).curTeam.phase 0 = 7
    ∧ ((waitS { instr := .lquiet }).curTeam.bmask 0).getLsbD 0 = false ∧ ((6 : W64).toNat ≠ 7)
    ∧ (7 + 2 ^ 32 - 6) % 2 ^ 32 = 1 ∧ LaneIdle (waitS { instr := .lquiet }).cur ∧ (waitS { instr := .lquiet }).cur.queue = []
    ∧ (waitS { instr := .fence .sys .rel, aux := [1] }).releaseDone 0 .sys = true
    ∧ (FKind.rel ≠ FKind.acq) ∧ (15 : BitVec 20).toNat < (waitS { instr := .lquiet }).curTeam.kernel.lunits
    ∧ (waitS { instr := .lquiet }).cur.anyLive = true
    ∧ (waitS { instr := .lquiet }).curTeam.ring? 0 = some 0x200 ∧ 0 < (waitS { instr := .lquiet }).curTeam.kernel.rings ∧ 0 < (waitS { instr := .lquiet }).curTeam.slots 0x200
    ∧ (reg (waitS { instr := .acwait 4 5, tok := 256 }) 4 256).curTeam.hasCounter 256 = true
    ∧ ((reg (waitS { instr := .fstat 4 5, aux := [0x105] }) 4 0x105).sread 4) = 0x105 ∧ ((0x105 : W64).toNat < 512 ∧ (0x105 : W64).toNat / 16 % 16 = 0)
    ∧ (waitS { instr := .lquiet }).cur.tags.find 15 = none
    ∧ wordBytes recordWords ++ wordBytes recordWords = wordBytes ((reshardS.sread 4 :: 0x80 :: 0x100 :: 1 :: (recordWords ++ recordWords)).drop 4)
    ∧ (wordBytes recordWords).length % 8 = 0 ∧ ((1 : W64).getLsbD 16 = false) ∧ (waitS { instr := .lquiet }).jobs = []
    ∧ (waitS { instr := .sleeps 4 5 true, aux := [9], seen := 1 }).cur.swait.map (·.seen) = some 1
    ∧ ((9 : W64).toNat ≤ ({ (waitS { instr := .sleeps 4 5 false, aux := [9] }) with timeNs := 9 } : State).timeNs.toNat)
    ∧ (waitS { instr := .persistAll 5, aux := [0, 0, 3] }).mem.unaccepted = [] ∧ (waitS { instr := .lquiet }).mem.answers 3 = true
    ∧ (10000000 ≤ ({ (waitS { instr := .lquiet }) with timeNs := 10000000 } : State).timeNs.toNat)
    ∧ (let r : Req := { kind := .read, waiter := .scalar 0, ctx := 0, ans := some 5 }
       let s : State := waitS { instr := .sld 4 5 .b64 0, tok := 3, aux := [onHost] }
       (({ s with host := { s.host with reqs := [(3, r)] } } : State).host.reqs.find 3).bind (·.ans) = some 5)
    ∧ (waitS { instr := .sld 4 5 .b64 0, tok := 3, aux := [onXlat] }).host.reqs.find 3 = none := by
  unfold LaneIdle; and_intros <;> decide +kernel

/-- Split 0 of group 0 is ready; lane 0 is free. -/
def readyS : State := let s := withSplit0 L fun x => { x with mode := .ready, age := 3 }
  { s with lanePairs := s.lanePairs.put {} 0 {} }

theorem witness_LaneEvents :
    SMap.sorted L.groups = true ∧ (∀ p ∈ L.groups, SMap.sorted p.2.splits = true ∧ ∀ q ∈ p.2.splits, q.1 < 4)
    -- a ready run, alone
    ∧ (readyS.groups.find 0).any (fun g => decide ((readyS.team g.team).core = 0 ∧ g.lp = 0 ∧ g.slot = some 0 ∧ (readyS.team g.team).saved = false
        ∧ (readyS.team g.team).stopping = false ∧ g.ended = false) && decide ((g.split? 0).map (·.mode) = some .ready ∧ g.far = [])) = true
    ∧ (readyS.lanePair 0 0).lane0 = none ∧ (L.lanePair 0 0).lane0 ≠ none ∧ SMap.sorted readyS.split.lat = true ∧ readyS.groups.length = 1
    ∧ (readyS.group 0).splits.length = 1
    -- every split at NEXT, with and without a run in the queue, with a live thread and without
    ∧ (∀ p ∈ (idle S).cur.splits, p.2.mode = .waitNext) ∧ (idle S).cur.queue = [] ∧ (idle S).cur.tslot = none ∧ (idle S).cur.anyLive = true
    ∧ (withGroup (idle S) fun g => { g with queue := [{ start := 3, args := [1, 2, 3, 4] }] }).cur.queue ≠ [] ∧ (done S).cur.anyLive = false
    ∧ (withTeam (idle S) fun t => { t with stopping := true }).curTeam.stopping = true
    -- a far result of a pair, a held trap, a full and an empty granule, a sleeper
    ∧ ((withGroup L fun g => { g with far := [{ dsts := [{ thr := 2, ent := 0 }, { thr := 2, ent := 255, high := true }], src := .value 5 }] }).group 0).far[0]?
        = some { dsts := [{ thr := 2, ent := 0 }, { thr := 2, ent := 255, high := true }], src := .value 5 }
    ∧ [((2 : Nat), (0 : Nat)), (2, 255)].Nodup
    ∧ ((withSplit0 L fun x => { x with mode := .held 0x14 9 }).group 0).splits.find 0 = some { L.split with mode := .held 0x14 9 }
    ∧ ((withSplit0 L fun x => { x with mode := .suspended (.granule 0 0xFFF) }).group 0).split? 0 = some { L.split with mode := .suspended (.granule 0 0xFFF) }
    ∧ (L.team 0).isFull 0xFFF = false ∧ (withTeam L fun t => t.setFull 0xFFF true).curTeam.isFull 0xFFF = true
    ∧ (let s := withSplit0 L fun x => { x with sleeping := true, wake := some 7, mode := .sleeping }; s.split.sleeping = true ∧ s.split.wake = some 7 ∧ s.cycle < 7
       ∧ ({ s with cycle := 7 } : State).cycle ≥ 7) := by
  and_intros <;> decide +kernel

/-- Lease 5 in a state, at a time; its frame 1 holds its page, dirty. -/
def leasedS (st : LeaseState) (now : W64) : State :=
  let s := leaseS st
  let l : Lease := { st := st, id := 1, node := 3, base := 0x10000, len := 0x10000, expiry := 100, warn := 50, graceEnd := 200, stale := [0, 4, 291] }
  { s with timeNs := now, mem := { s.mem with leases := [(5, l)], frames := s.mem.frames.put {} 1 { valid := true, pfn := 1, dirty := 1 } } }

theorem witness_LeaseEvents :
    SMap.sorted (leasedS .active 100).mem.leases = true ∧ SMap.sorted (leasedS .active 100).mem.frames = true
    ∧ ((leasedS .active 100).mem.lease 5).expiry.toNat ≤ (leasedS .active 100).timeNs.toNat ∧ ¬(((leasedS .active 99).mem.lease 5).expiry.toNat ≤ 99)
    ∧ ((leasedS .active 50).mem.lease 5).warn.toNat ≤ 50 ∧ ((leasedS .active 50).mem.lease 5).dueSent = false ∧ ((leasedS .active 49).mem.lease 5).warn.toNat > 49
    ∧ (∀ st ∈ [LeaseState.active, .expired, .revoking, .revoked, .lost], ((leasedS st 0).mem.lease 5).st = st)
    ∧ ((leasedS .revoking 200).mem.lease 5).graceEnd.toNat ≤ (leasedS .revoking 200).timeNs.toNat
    ∧ ((leasedS .revoking 200).mem.frame 1).dirty ≠ 0 ∧ ((leasedS .revoking 200).mem.frame 1).pfn * 65536 = 0x10000
    ∧ 291 ∈ ((leasedS .expired 0).mem.lease 5).stale ∧ 4 ∈ ((leasedS .expired 0).mem.lease 5).stale ∧ 5 ∉ ((leasedS .expired 0).mem.lease 5).stale
    ∧ S.pager.waiting = [] ∧ S.pager.used < 4096 ∧ ({ S with pager := { put := 4096 } } : State).pager.used = 4096
    ∧ (let s := withGroup S fun g => { g with swait := some { instr := .shalt 4 5, aux := [9] } }; (s.groups.find 0).bind (·.swait) = some { instr := .shalt 4 5, aux := [9] }
       ∧ s.timeNs.toNat < (9 : W64).toNat) := by
  and_intros <;> decide +kernel

theorem witness_PageCacheEvents :
    (let s : State := { S with mem := { S.mem with frames := S.mem.frames.put {} 7 { pfn := 7, filling := true } } }
     SMap.sorted s.groups = true ∧ (s.mem.frame 7).filling = true ∧ (s.mem.frame 7).relaying = none ∧ (∀ p ∈ s.groups, p.2.far = []) ∧ SMap.sorted s.mem.hbm = true
     ∧ SMap.sorted s.mem.pool = true ∧ s.mem.hit 7 = some 7 ∧ (s.mem.frame 1).filling = false)
    ∧ (let s : State := { S with mem := { S.mem with frames := S.mem.frames.put {} 7 { pfn := 7, valid := true, relaying := some 1 } } }
       (s.mem.frame 7).relaying = some 1 ∧ (s.mem.frame 7).filling = false ∧ s.mem.hit 7 = some 7)
    ∧ ({ S with timeNs := 65536000 } : State).mem.halvings < ({ S with timeNs := 65536000 } : State).timeNs.toNat / 65536000 ∧ S.timeNs.toNat / 65536000 ≤ S.mem.halvings
    ∧ S.mem.hit 9 = none
    ∧ (let r : BankRes := { stack := 0, channel := 0, group := 0, team := 0, copy := 3, since := 5 }
       ({ S with timeNs := 4005, mem := { S.mem with bankRes := [r] } } : State).mem.bankRes[0]? = some r ∧ 4004 < r.since.toNat + 4000 ∧ r.since.toNat + 4000 ≤ 4005)
    ∧ (let g : Spring := { live := true, gen := 1, base := 0, pitch := 0x10000, rows := 1, cols := 2, size := 2, prio := 3 }
       let s : State := { S with mem := { S.mem with spring := [(0, g)] } }
       SMap.get ({} : Spring) s.mem.spring 0 = g ∧ g.next < g.rows * g.cols * (pageBytes g.size / 65536) ∧ (∀ p ∈ s.mem.spring, p.1 = 0)
       ∧ ((s.springAt g 0).1.map fun p => (p.1.space, p.2)) = some (3, 0) ∧ (s.springAt g 1).1 = none)
    ∧ (let lf : Leaf := { size := 2, space := 0, user := true, write := true }
       let g : Spring := { live := true, gen := 1, base := 0x10000, pitch := 0x10000, rows := 1, cols := 1, size := 2, prio := 1 }
       let z := leasedS .active 0
       let s : State := { z with mem := { z.mem with spring := [(0, g)], tlb := [{ ctx := 0, page := 0x10000, leaf := { lf with index := 16 } }] } }
       (s.springAt g 0).1.map (fun p => (p.1.space, p.1.nc, p.2 / 65536)) = some (0, false, 1) ∧ (s.springAt g 0).2.mem.hit 1 = some 1
       ∧ (s.springAt g 0).2.mem.victim 1 ≠ none) := by
  and_intros <;> decide +kernel

/-! ## Every hypothesis is met: copies, the pager, commands, placement -/

/-- Copy 0 of team 0 is open with one slice of group 0: a block as given, moved to a unit, ended or not. -/
def copyS (blk : List W64) (u : Nat) (en : Bool) : State := withTeam (ringS false) fun t => { t.wr 0x221 1 1 with copies :=
  [{ num := 0, opened := true, slices := [{ grp := 0, blk := blk, unit := u, ended := en }] }] }
/-- Scratchpad to scratchpad; the page at 0 to scratchpad; scratchpad to the page at 0: one row of two units, pitch −16. -/
def blkSS : List W64 := [0x400, 0x500, 0xFFFFFF0000020001, 0x0C0000]
def blkGS : List W64 := [0, 0x500, 0x20001, 0x080000]
def blkSG : List W64 := [0x400, 0, 0x20001, 0x040000]

theorem witness_CopyEvents :
    (∀ b ∈ [blkSS, blkGS, blkSG], (copyS b 1 false).curTeam.sliceAt 0 0 = some (0, 0, { num := 0, opened := true, slices := [{ grp := 0, blk := b, unit := 1 }] }, { grp := 0, blk := b, unit := 1 })
      ∧ (copyS b 1 false).counted 0 0 { num := 0, opened := true, slices := [{ grp := 0, blk := b, unit := 1 }] } = true)
    ∧ (∀ b ∈ [blkSS, blkGS, blkSG], ((b.getD 2 0).toNat % 2 ^ 16) * ((b.getD 2 0).toNat / 2 ^ 16 % 2 ^ 24) = 2)
    ∧ (∀ p ∈ (copyS blkSS 1 false).groups, wakeGroup 0 p.2 = p.2)
    ∧ (copyS blkSS 1 false).scratchAt 0 0x410 = some (0, 0x410) ∧ (copyS blkSS 1 false).scratchAt 0 0x510 = some (0, 0x510) ∧ (copyS blkSS 1 false).curTeam.touches 0x510 16 = false
    ∧ ((copyS blkGS 1 false).engRead (accS (copyS blkGS 1 false)) (.copy 0 0 0) 0x10 16).1 = .ok (List.replicate 16 0)
    ∧ ((copyS blkSG 1 false).homeStore (accS (copyS blkSG 1 false)) (.copy 0 0 0) 0x10 (List.replicate 16 0)).1 = .val 0
    ∧ (copyS [0x0FFFF0, 0x500, 0x20001, 0x0C0000] 1 false).scratchAt 0 0x0FFFF0 = none
    ∧ ((copyS [0x100000, 0x500, 0x20001, 0x080000] 1 false).engRead (accS S) (.copy 0 0 0) 0x100010 16).1 = .fault 0x06
    ∧ (copyS blkSS 1 false).curTeam.ring? 0 = some 0x200 ∧ (copyS blkSS 1 false).curTeam.parks 0x200 = false
    -- completion
    ∧ (copyS blkSS 2 true).curTeam.copy? 0 = some { num := 0, opened := true, slices := [{ grp := 0, blk := blkSS, unit := 2, ended := true }] }
    ∧ (copyS blkSS 2 true).counted 0 0 { num := 0, opened := true, slices := [{ grp := 0, blk := blkSS, unit := 2, ended := true }] } = true
    ∧ (∀ p ∈ (copyS blkSS 2 true).groups, p.2.swait = none) ∧ 0 < (copyS blkSS 2 true).curTeam.slots 0x200 := by
  and_intros <;> decide +kernel

/-- The ROM handles a lane trap of a posting cause in group 0, and a scalar one. -/
def romS : State := withGroup (slotS 0x06) fun g => { g with tslot := some { thr := 0, levels := [{ mask := 1, inRom := true }] } }
def sromS : State := withGroup S fun g => { g with srom := true, stlevel := 1, st1 := { cause := 0x07 } }
/-- Split 0 and the scalar stream of group 0 are parked; a slice of a copy is parked. -/
def parkedS : State := withGroup (withSplit0 L fun x => { x with mode := .parked 0x06 }) fun g => { g with sparked := some 0x07 }
def pcopyS : State := withTeam (ringS false) fun t => { t with copies := [{ num := 0, opened := true, slices := [{ grp := 0, parked := some 0x06 }] }] }
/-- The distributor has placed team 0 again, and its image and its group's are loaded. -/
def againS : State := withGroup (withTeam L fun t => { t with again := true, loaded := true }) fun g => { g with loaded := true }

theorem witness_PagerAndPreemption :
    SMap.sorted romS.groups = true ∧ (∀ p ∈ romS.groups, SMap.sorted p.2.splits = true ∧ ∀ q ∈ p.2.splits, q.1 < 4)
    ∧ (romS.group 0).tslot = some { thr := 0, levels := [{ mask := 1, inRom := true }] }
    ∧ ((romS.group 0).thread 0).bank.cause.toNat % 64 = 0x06 ∧ (sromS.group 0).srom = true ∧ (sromS.group 0).st1.cause.toNat % 64 = 0x07
    ∧ ({ S with pager := { waiting := [[1, 2, 3, 4]] } } : State).pager.waiting = [1, 2, 3, 4] :: [] ∧ ({ S with pager := { waiting := [[1]] } } : State).pager.used < 4096
    ∧ (S.group 0).place < 256 ∧ S.coreOf 0 < 2 ^ 16
    ∧ parkedS.pgrespGroup 0 = some 0 ∧ (parkedS.group 0).split? 0 = some { L.split with mode := .parked 0x06 } ∧ L.split.rix = wbits (0 : W64) 7 5
    ∧ wbits (0x20 : W64) 5 2 = 1 ∧ wbits (0x40 : W64) 5 2 = 2 ∧ parkedS.pgrespGroup 0x20 = some 0 ∧ (parkedS.group 0).sparked = some 0x07
    ∧ pcopyS.pgrespGroup 0x40 = some 0 ∧ pcopyS.curTeam.copies[0]? = some { num := 0, opened := true, slices := [{ grp := 0, parked := some 0x06 }] }
    ∧ parkedS.pgrespGroup 0x100000000 = none
    -- pre-emption
    ∧ S.teamOf 0 = some 0 ∧ SMap.sorted S.jobs = true
    ∧ (let s := withTeam (idle S) fun t => { t with stopping := true }
       (s.team 0).stopping = true ∧ (s.team 0).stopped = false ∧ (∀ p ∈ s.lanePairs, p.2.lane0 = none ∧ p.2.lane1 = none)
       ∧ (∀ p ∈ s.groups, p.2.swait = none) ∧ (s.team 0).copies = [] ∧ (s.core 0).mxq = [] ∧ s.fabric.xfers = [] ∧ s.jobs = [])
    ∧ (∀ p ∈ againS.teams, p.2.again = true ∧ p.2.loaded = true) ∧ (∀ q ∈ againS.groups, q.2.loaded = true) ∧ SMap.sorted againS.teams = true := by
  and_intros <;> decide +kernel

/-- Queue 3 of context 0 with a command to read, READY; command 7 as words. -/
def qS (devq : Bool) : State := { sysTlb S with queues := [(3, { v := true, ctx := 0, log2n := 2, weight := 2, devq := devq, rpaddr := 0x2000, base := 0x1000, wptr := 1 })] }
def cmdS (ws : List W64) : State := { sysTlb S with
  cmds := [{ num := 7, queue := some 3, ctx := 0, words := ws, priv := true }]
  queues := [(3, { v := true, ctx := 0, log2n := 6, weight := 1, wait := some 7 })]
  nextCmd := 8 }
def theCmd (ws : List W64) : Cmd := { num := 7, queue := some 3, ctx := 0, words := ws, priv := true }

theorem witness_QueueProcessing :
    SMap.sorted (qS false).queues = true ∧ (∀ p ∈ (qS false).queues, p.1 < 131072 ∧ p.2.prio ≤ 7)
    ∧ (qS false).boot.ready.getLsbD 16 = true ∧ ((qS false).queue 3).v = true ∧ (qS false).boot.taken = false ∧ ((qS true).queue 3).devq = true
    ∧ (BitVec.ofNat 32 (ofLeBytes [4, 0, 0, 0]) - ((qS false).queue 3).rptr).toNat ≤ 2 ^ 2 ∧ 2 ^ 2 < (BitVec.ofNat 32 (ofLeBytes [5, 0, 0, 0]) - ((qS false).queue 3).rptr).toNat
    ∧ (qS false).queueReady 3 = true ∧ (qS false).chooseQueue = some (3, 0, 1) ∧ S.chooseQueue = none ∧ (qS false).endTurns.chooseQueue = some (3, 0, 1)
    ∧ ((qS false).endTurns.engRead ((qS false).queue 3).acc .engine 0x1000 64).1 = .ok (List.replicate 64 0)
    ∧ ((qS false).endTurns.xlate ((qS false).queue 3).acc 0x2000 .write).1 ≠ .ats
    ∧ ((qS false).modContext 0 fun c => { c with killed := true }).context 0 = { killed := true } ∧ wbits ((theCmd [0x10]).w 0) 0 8 = 0x10
    ∧ (cmdS [0]).cmd? 7 = some (theCmd [0]) ∧ ((cmdS [0]).modCmd 7 fun c => { c with fin := some 0 }).cmd? 7 = some { theCmd [0] with fin := some 0 }
    ∧ (((cmdS [0]).modCmd 7 fun c => { c with fin := some 0 }).releaseAt 256 .sys).releaseDone 0 .sys = true
    ∧ (theCmd [0, 8, 5]).w 1 = 8 ∧ ((cmdS [0]).xlate { core := 256, ctx := 0, mode := .priv, gid := 2 ^ 40 } 8 .write).1 = .ok placedPage.leaf 8
    ∧ ((cmdS [0]).atomic { core := 256, ctx := 0, mode := .priv, gid := 2 ^ 40 } (.store 0) 8 (.op .max .n64 5) false false).1 = .val 0 := by
  and_intros <;> decide +kernel

/-- A kernel descriptor: one group a team, one team a gang, the smallest of everything. -/
def descWords : List W64 := [0x40, 0x1000, 0x10, 0x0000000100011043, 0x00010001, 0, 0, 0]
/-- The descriptor stands at 0x100 of the page at 0. -/
def descS (ws : List W64) : State := { cmdS ws with mem := { (cmdS ws).mem with hbm := wrBytes S.mem.hbm 0x100 (wordBytes descWords) } }

theorem witness_QueueCommands :
    (cmdS [0]).cmd? 7 = some (theCmd [0]) ∧ (theCmd [0]).fin = none ∧ ((cmdS [0]).context 0).killed = false
    ∧ ([(0x00 : W64), 0x01, 0x02, 0x03, 0x04, 0x10, 0x11, 0x12, 0x13].all fun o => decide ((cmdS [o]).cmd? 7 = some (theCmd [o]) ∧ wbits ((theCmd [o]).w 0) 0 8 = o.toNat)) = true
    ∧ (((cmdS [0]).modContext 0 fun c => { c with killed := true }).context 0).killed = true
    ∧ ((cmdS [4, 0, 0, 8, 0]).queue 3).wait = some 7 ∧ ((cmdS [4, 0, 0, 8, 0]).engRead { core := 256, ctx := 0, mode := .priv, gid := 2 ^ 40 } (.cmd 7) 8 8).1 = .ok (List.replicate 8 0)
    ∧ (0 : W64).toNat < (1 : W64).toNat
    ∧ ((cmdS [2, 0, 0, 0, 16, 16]).engRead { core := 256, ctx := 0, mode := .priv, gid := 2 ^ 40 } (.cmd 7) 0 16).1 = .ok (List.replicate 16 0)
    ∧ ((cmdS [2]).engWrite { core := 256, ctx := 0, mode := .priv, gid := 2 ^ 40 } (.store 0) 16 (List.replicate 16 0)).1 = .ok []
    ∧ ((cmdS [2]).engRead { core := 256, ctx := 0, mode := .priv, gid := 2 ^ 40 } (.cmd 7) 0x100000 16).1 = .fault 0x06
    ∧ (kernelOf (wordBytes descWords) 1).isSome ∧ kernelOf (wordBytes descWords) 33 = none
    ∧ ((descS [1]).engRead { core := 256, ctx := 0, mode := .priv, gid := 2 ^ 40 } (.cmd 7) 0x100 64).1 = .ok (wordBytes descWords)
    ∧ (cmdS [0x10]).existing 0 = true ∧ (cmdS [0x10]).existing 9 = false
    ∧ ((cmdS [0x12]).mem.lease 0).st = .free ∧ SMap.sorted (leaseS .active).mem.leases = true ∧ ((leaseS .active).mem.lease 5).id.toNat = 1
    ∧ (cmdS [0x13, 0, 0, 0, 255]).mem.keys.find 255 = none
    ∧ (runOf 0).2.2 = 1 ∧ ((cmdS [0]).tableFor 0 5 5 0x2000).1 = some 0x2000 := by
  and_intros <;> decide +kernel

theorem witness_ContextCommands :
    (cmdS [0x14, 0, 0, 0, 9]).cmd? 7 = some (theCmd [0x14, 0, 0, 0, 9]) ∧ (theCmd [0x14]).fin = none ∧ ((cmdS [0x14]).context 0).killed = false
    ∧ ([(0 : W64), 1, 2, 3, 4, 5, 6].all fun k => decide (wbits ((theCmd [0x14, 0, 0, k]).w 0) 0 8 = 0x14 ∧ wbits ((theCmd [0x14, 0, 0, k]).w 3) 0 3 = k.toNat)) = true
    ∧ (cmdS [0x14]).existing 0 = true ∧ (cmdS [0x14]).existing 9 = false ∧ (cmdS [0x14]).contexts.find 9 = none ∧ (131071 : W64).toNat ≤ 131071
    ∧ ((cmdS [0x14]).engRead { core := 256, ctx := 0, mode := .priv, gid := 2 ^ 40 } (.cmd 7) 0x100 64).1 = .ok (List.replicate 64 0)
    ∧ ((descS [0x14]).engRead { core := 256, ctx := 0, mode := .priv, gid := 2 ^ 40 } (.cmd 7) 0x100 64).1 = .ok (wordBytes descWords)
    ∧ wordAt (List.replicate 64 0) 0 = ((cmdS [0x14]).context 0).root ∧ wordAt (wordBytes descWords) 0 ≠ ((descS [0x14]).context 0).root
    ∧ SMap.sorted (cmdS [0x14]).teams = true ∧ (∀ x ∈ (cmdS [0x14]).cmds, x.num = 7)
    ∧ ((cmdS [0x14]).team 0).stopping = false ∧ (withTeam S fun t => { t with stopping := true, stopped := true }).curTeam.stopped = true
    ∧ ((cmdS [0x14]).queue 3).v = true ∧ ((cmdS [0x14]).queue 4).v = false
    ∧ ((cmdS [0x14]).engWrite { core := 256, ctx := 0, mode := .priv, gid := 2 ^ 40 } (.store 0) 0x100 (List.replicate 64 0)).1 = .ok []
    ∧ (let l : Launch := { cmd := 7, ctx := 0, prio := 0, kernel := {}, param := 0, bytes := [], seed := 0, restart := false, nthreads := 1, teams := 1, gangtab := 0, next := 1 }
       let s : State := { cmdS [1] with launches := [(0, l)] }
       s.launches.find 0 = some l ∧ ¬(l.next < l.teams) ∧ l.redo = [] ∧ (∃ p ∈ s.teams, p.2.launch = 0) ∧ ¬(∃ p ∈ ({ s with teams := [] } : State).teams, p.2.launch = 0)) := by
  and_intros <;> decide +kernel

/-- Launch 2 of two one-group teams in gangs of one to two, in a machine whose cores are empty and ready. -/
def launch2 (p : Nat) : Launch := { cmd := 7, ctx := 0, prio := 0, kernel := { gangp := p, lunits := 1 }, param := 5, bytes := [], seed := 1, restart := false, nthreads := 1, teams := 2, gangtab := 0 }
def launchS (p : Nat) : State := { cmdS [1] with teams := [], groups := [], launches := [(2, launch2 p)] }

theorem witness_TeamPlacement :
    (launchS 2).launches.find 2 = some (launch2 2) ∧ ((launchS 2).context 0).killed = false ∧ (∀ p ∈ (launchS 2).teams, p.2.launch ≠ 2)
    ∧ (launch2 2).nofit = false ∧ (launch2 2).next < (launch2 2).teams ∧ (launchS 2).launchBehind (launch2 2) = false ∧ (launch2 2).redo = []
    ∧ ((launchS 2).placeTeams 2 (launch2 2) 0 0 2 (List.range 2)).isSome ∧ (launch2 2).gangtab = 0 ∧ (launch2 2).fallback = false
    ∧ (launch2 3).teams - (launch2 3).next < (launch2 3).kernel.gangp ∧ ((launchS 3).placeTeams 2 { launch2 3 with fallback := true } 0 0 1 (List.range 1)).isSome
    ∧ (launchS 2).placeTeams 2 { launch2 2 with kernel := { scrb := 15 } } 0 0 1 [0] = none
    ∧ ((launchS 2).placeOn 2 (launch2 2) 0 0 0 2 0).isSome ∧ (launch2 2).kernel.team ≤ 32 ∧ (launch2 2).kernel.bars ≤ 16
    ∧ (launchS 2).groupPlace 0 24 2 = some (0, 0, some 0)
    ∧ (let busy : State := { launchS 2 with groups := (List.range 128).map fun n => (n, { lp := n / 8, slot := some (n % 8), granule := some (3 * (n % 8)), team := 9 }),
                                             teams := [(9, { core := 0 })] }
       busy.groupPlace 0 3 2 = some (0, 8, none))
    ∧ ((launchS 2).restoreOn 1 0 { launch := 2, saved := true }).isSome := by
  and_intros <;> decide +kernel

/-- Group 1 of team 0 waits in pending slot 8 of lane pair 0, ready; group 0's split is parked, its block as wide as all 24 granules when `big`. -/
def pendS (big : Bool) : State :=
  let s := withTeam (withSplit0 L fun x => { x with mode := .parked 0x06 }) fun t => { t with kernel := { t.kernel with regs16 := if big then 16 else 3 } }
  { s with
    groups := s.groups.put {} 1 { team := 0, idx := 1, slot := some 8, splits := [(0, { mask := 1, mode := .ready })], thr := [(0, { life := .live })], mode := .priv }
    lanePairs := s.lanePairs.put {} 0 {} }

theorem witness_GroupsTeamsAndCores :
    SMap.sorted (pendS true).groups = true ∧ (pendS false).oldestPending 1 = true ∧ (pendS true).oldestPending 1 = true ∧ (pendS true).oldestPending 0 = false
    ∧ (pendS true).pendReady 1 = true ∧ (pendS false).slotsUsed 0 0 = [0, 8] ∧ 1 ∉ (pendS false).slotsUsed 0 0
    ∧ (∀ i, i < 3 → 3 + i ∉ (pendS false).granUsed 0 0) ∧ ((pendS false).lanePair 0 0).reserve = none
    ∧ (∀ b, b < 9 → ∃ i, i < 16 ∧ b + i ∈ (pendS true).granUsed 0 0) ∧ (pendS true).mayLeave 0 ((pendS true).group 0) = true
    ∧ (∀ q ∈ (pendS true).pairGroups 0 0, (pendS true).mayLeave q.1 q.2 = true → q.1 = 0)
    ∧ (let out := { ((pendS true).group 0) with slot := some 8, granule := none, readySince := none, waitSince := none }
       ∀ i, i < 16 → i ∉ ((pendS true).setGroup 0 out).granUsed 0 0)
    -- a starved group: two blocks of four granules leave no sixteen in a row
    ∧ (let z : State := { pendS true with groups := (pendS true).groups.put {} 2 { team := 1, slot := some 1, granule := some 16 }, teams := (pendS true).teams.put {} 1 { core := 0, kernel := { regs16 := 4 } } }
       let s := z.modGroup 0 fun g => { g with granule := some 4, team := 1 }
       s.starved 1 = true ∧ ({ s.modGroup 1 (fun g => { g with waitSince := some 0 }) with cycle := 65536 } : State).starved 1 = true)
    -- a team that may end
    ∧ (let s := withGroup S fun g => { g with ended := true }; (∀ q ∈ s.groups, q.2.ended = true) ∧ (s.team 0).copies = [] ∧ (s.core 0).mxq = [] ∧ s.fabric.xfers = [] ∧ s.jobs = [])
    -- loss
    ∧ SMap.sorted S.teams = true ∧ (S.core 287).failed = false ∧ (287 : Nat) < 288 ∧ (S.team 0).core = 0 ∧ (launchS 2).launches.find 2 = some (launch2 2) := by
  and_intros <;> decide +kernel

/-! ## Every hypothesis is met: the host, boot, Chamois, the fabric, Eland -/

/-- The host has one request outstanding, in a tether state at a time. -/
def tethS (t : Tether) (r : Req) (now : W64) : State :=
  { S with timeNs := now, host := { S.host with tether := t, deadline := 1000, reqs := [(3, r)] } }
def hostReq (k : ReqKind) (w : Waiter) : Req := { kind := k, waiter := w, ctx := 0, va := 0x1000, addr := 0x1000, bytes := 8 }

theorem witness_HostTether :
    SMap.sorted (tethS .lost (hostReq .read (.far 0)) 1000).host.reqs = true ∧ SMap.sorted S.groups = true ∧ S.boot.ready.getLsbD 0 = true ∧ State.reset.boot.ready.getLsbD 0 = false
    ∧ S.host.tether = .attached ∧ (tethS .lost (hostReq .read (.far 0)) 1000).host.tether = .lost ∧ (tethS .replay (hostReq .read (.far 0)) 0).host.tether = .replay
    ∧ S.host.lastBeat.toNat + 10000000 ≤ ({ S with timeNs := 10000000 } : State).timeNs.toNat ∧ S.host.parked = [] ∧ S.host.waiting = []
    ∧ ({ S with host := { S.host with parked := [{ ctx := 0, addr := 0, bytes := [1], req := 9 }] } } : State).host.parked ≠ []
    ∧ (tethS .lost (hostReq .read (.far 0)) 1000).host.deadline.toNat ≤ 1000 ∧ 999 < (tethS .lost (hostReq .read (.far 0)) 999).host.deadline.toNat
    ∧ (tethS .lost (hostReq .read (.far 0)) 1000).host.reqs.find 3 = some (hostReq .read (.far 0)) ∧ (hostReq .read (.far 0)).isWrite = false ∧ (hostReq .read (.far 0)).ans = none
    ∧ (hostReq .read (.copy 0 0 0)).waiter = .copy 0 0 0 ∧ (hostReq .ats (.xlat 0 0)).waiter = .xlat 0 0
    ∧ (let s := withGroup S fun g => { g with swait := some { instr := .sld 4 5 .b64 0, tok := 3, aux := [onHost] } }
       ((s.group 0).swait.map fun w => (w.tok, w.aux)) = some (3, [onHost]))
    ∧ S.host.reqs.find 9 = none ∧ 3 ∉ S.host.waiting
    ∧ (hostReq .write (.store 0)).kind = .write ∧ (hostReq (.atom 0 .i64) (.far 0)).kind = .atom 0 .i64 ∧ (hostReq .ats (.xlat 0 0)).tries = 0 ∧ (hostReq .ats (.xlat 0 0)).data ≠ 1
    ∧ ((withSplit0 L fun x => { x with mode := .suspended .translation }).group 0).split? 0 = some { L.split with mode := .suspended .translation }
    ∧ (tethS .attached (hostReq .pri (.xlat 0 0)) 0).host.reqs.find 3 = some (hostReq .pri (.xlat 0 0)) ∧ (hostReq .pri (.xlat 0 0)).parked = false := by
  and_intros <;> decide +kernel

/-- A configuration record in range, with the signatures of the keys' holders; one that asks for too little power. -/
def cfgRec (power : Nat) : CfgRec :=
  { raw := [1, 2], chain := [3], chainSig := Config.signature Config.rootDigest [3],
    sig := Config.signature (Config.sha3 [3]) [1, 2], devKey := 0, cert := 5, operator := 6, devid := 2 ^ 18 - 1, linkMap := [], repair := [(287, 3)], failed := [4],
    park := 65536, power := power, tokens := [1, 9, 2, 3] }

theorem witness_BootAndAttestation :
    (∃ s : State, s.boot.ready.getLsbD 3 = false ∧ s.boot.idKey = (cfgRec 500).devKey)
    ∧ Config.verify Config.rootDigest (cfgRec 500).chain (cfgRec 500).chainSig = true ∧ Config.verify (Config.sha3 (cfgRec 500).chain) (cfgRec 500).raw (cfgRec 500).sig = true
    ∧ (cfgRec 500).devid < 2 ^ 18 ∧ 500 ≤ (cfgRec 500).power ∧ ¬(500 ≤ (cfgRec 499).power) ∧ S.boot.ready.getLsbD 3 = true
    ∧ (let x := State.reset.boot.ready; x.getLsbD 0 = false ∧ x.getLsbD 3 = false) ∧ ((0x3FFF8 : BitVec 21).getLsbD 3 = true ∧ (0x3FFF8 : BitVec 21).getLsbD 4 = true ∧ (0x3FFF8 : BitVec 21).getLsbD 18 = false)
    ∧ S.boot.ready.getLsbD 2 = true ∧ State.reset.boot.ready.getLsbD 2 = false
    ∧ (∀ p ∈ [({ version := true } : Spdm), { version := true, caps := true }, { version := true, caps := true, algos := true }], p.version = true ∧ p.failed = false) := by
  refine ⟨⟨State.reset, by decide +kernel, by decide +kernel⟩, ?_⟩
  unfold Config.verify cfgRec
  and_intros <;> first | decide +kernel | simp

/-- A Chamois record for this device with a command and payload: it is signed by the operator key's holder. -/
def chRec (cmd len seq : Nat) (payload : List Byte) : ChRec :=
  let hdr : List W64 := [BitVec.ofNat 64 (len * 2 ^ 32 + cmd * 2 ^ 24), 0, BitVec.ofNat 64 seq, 1000, 0, 0, 0, 0]
  { hdr := hdr, payload := payload, sig := Config.signature 0 (leBytes 64 (Config.sha3 (wordBytes hdr ++ payload)).toNat) }

/-- A record is in order: its fields, its device and boot, its time, its number, its signature. -/
theorem chamois_verified (cmd len seq : Nat) (payload : List Byte) (s : State) (h : s.boot.operKey = 0) :
    let r := chRec cmd len seq payload
    Config.verify s.boot.operKey (leBytes 64 (Config.sha3 (wordBytes r.hdr ++ r.payload)).toNat) r.sig = true := by
  simp [Config.verify, chRec, h]

theorem witness_ChamoisCommands :
    (∀ c ∈ S.cmds, c.queue ≠ none) ∧ S.boot.operKey = 0 ∧ S.boot.ready.getLsbD 3 = true ∧ S.fabric.devid = 0 ∧ S.boot.bootid = 0 ∧ S.boot.lastSeq = 0
    ∧ (let w := fun c i => (chRec c 0 1 []).hdr.getD i 0
       wbits (w 2 0) 24 8 = 2 ∧ wbits (w 2 0) 18 6 = 0 ∧ wbits (w 2 0) 0 18 = S.fabric.devid ∧ w 2 1 = S.boot.bootid ∧ S.timeNs.toNat ≤ (w 2 3).toNat ∧ S.boot.lastSeq.toNat < (w 2 2).toNat
       ∧ w 2 4 = 0 ∧ wbits (w 8 0) 24 8 = 8)
    ∧ (chRec 4 4 1 [0, 0, 0, 0]).payload.length = 4 ∧ ofLeBytes (chRec 4 4 1 [0, 0, 0, 0]).payload = 0 ∧ (S.contexts.find 0).isSome ∧ S.contexts.find 9 = none
    ∧ ofLeBytes [0xF4, 0x01] = 500 ∧ ofLeBytes [0xD0, 0x07] = 2000 ∧ ofLeBytes [0xD1, 0x07] = 2001
    ∧ wbits (wordAt (0x14 :: List.replicate 63 (0 : Byte)) 0) 0 8 ∈ [0x10, 0x11, 0x12, 0x13, 0x14]
    ∧ (tethS .lost (hostReq .read (.far 0)) 0).host.tether = .lost ∧ S.host.tether = .attached ∧ ({ S with boot := { S.boot with taken := true } } : State).boot.taken = true
    ∧ S.host.waiting = [] ∧ S.host.parkUse < 2 ^ 32 ∧ ¬(({ S with timeNs := 1001 } : State).timeNs.toNat ≤ 1000) ∧ ¬(({ S with boot := { S.boot with lastSeq := 1 } } : State).boot.lastSeq.toNat < 1)
    ∧ ({ S with boot := { S.boot with ready := 0 } } : State).boot.ready.getLsbD 3 = false := by
  and_intros <;> decide +kernel

/-- A window of 64 bytes at 0x400 with its counter at 256, in team 0; the line at 0 at its home, read and written before. -/
def winS : State := withTeam { atL2 with
    fabric := { S.fabric with windows := [{ ftag := 0, wtag := 3, team := 0, counter := 256, base := 0x400, len := 64 }] }
    mem := { atL2.mem with l2 := [(lineKey 3 0 0, { data := 7, wts := 5, rts := 9 })] } }
  fun t => { t with watch := [{ kind := .counter, off := 256, len := 32 }] }

theorem witness_FabricArrivals :
    winS.fabric.windows = [{ ftag := 0, wtag := 3, team := 0, counter := 256, base := 0x400, len := 64 }]
    ∧ (winS.team 0).touches (0x400 + 56) 8 = false ∧ min 8 (64 - 56) = 8 ∧ ¬(64 < 56 + 8) ∧ 64 < 60 + 8 ∧ (∀ w ∈ winS.fabric.windows, ¬(w.ftag = 1 ∧ w.wtag = 3))
    ∧ (∀ a, a < 0x400 → ¬(0x400 + 56 ≤ a ∧ a < 0x400 + 64)) ∧ winS.mem.present 0 8 = true ∧ winS.mem.present 0x10000 8 = false
    ∧ winS.mem.l2.find (lineKey 3 0 120) = some { data := 7, wts := 5, rts := 9 } ∧ winS.mem.validAt (homeDie (lineKey 3 0 120)) (lineKey 3 0 120) = true ∧ 120 % 128 + 8 ≤ 128
    ∧ (9 : W48).toNat + 1 < 2 ^ 48 ∧ (100 : W48).toNat + 64 < 2 ^ 48 ∧ (5 : W48).toNat + 64 < 2 ^ 48 ∧ (120 : Nat) < 2 ^ 48 ∧ 120 % 8 = 0 := by
  and_intros <;> decide +kernel

/-- Transfer 7 of group 0 with one packet in a state, at a time; request 3 to a peer. -/
def ansS (nost : Bool) (k : XferKind) (st : PktState) (now : W64) : State :=
  let s := withGroup S fun g => { g with tags := [(0, { xfer := 7, nost := nost })] }
  let x : Xfer := { gid := 0, team := 0, ctx := 0, mode := .priv, kind := k, pol := 0, ops := [0xFFFFFFFF00000400, 0, 16, 0], members := [],
                    pkts := [{ member := 0, off := 0, len := 16, st := st, dst := 0, body := List.replicate 16 1 }], nost := nost }
  let r : Req := { kind := .read, waiter := .far 0, ctx := 0, peer := 5, refusedAt := some 0, due := 4000, sent := 0 }
  { s with timeNs := now, fabric := { s.fabric with xfers := [(7, x)], reqs := [(3, r)] } }

/-- Link 2 in a phase, with a message queued on channel 4; device 2 is in the group, the local link up. -/
def linkS (ph : LinkPhase) : State := { S with fabric := { S.fabric with
  links := [(2, { phase := ph, queue := [{ num := 0, dst := 3, vc := 4, flits := 2 }], marks := [0, 1, 2, 3, 4, 5, 6] })]
  localUp := [(3, true)], routes := [(1, [31 * 256 + 2, 5])] } }

theorem witness_FabricAnswers :
    SMap.sorted (ansS true .get (.sent 0) 0).fabric.xfers = true ∧ SMap.sorted (ansS true .get (.sent 0) 0).groups = true
    ∧ (∀ nost ∈ [true, false], ((ansS nost .get (.sent 0) 0).fabric.xfers.find 7).map (·.nost) = some nost ∧ (∃ t ∈ ((ansS nost .get (.sent 0) 0).group 0).tags, t.2.xfer = 7))
    ∧ ((ansS true .get (.sent 0) 0).fabric.xfers.find 7).bind (fun x => x.pkts[0]?) = some { member := 0, off := 0, len := 16, st := .sent 0, dst := 0, body := List.replicate 16 1 }
    ∧ (PktState.acked false).final = true ∧ (PktState.sent 0).final = false ∧ ((ansS true (.atom 0) (.sent 0) 0).fabric.xfers.find 7).map (·.ops.getD 3 0) = some 0
    ∧ inAperture 0xFFFFFFFF00000400 = true ∧ S.scratchAt 0 0x400 = some (0, 0x400) ∧ 0x400 + 16 ≤ (S.team 0).size' ∧ (S.team 0).touches 0x400 16 = false
    ∧ (0 : W64).toNat + 1000000 ≤ (ansS true .get (.sent 0) 1000000).timeNs.toNat
    ∧ ((ansS true .get (.again 0 0 1) 0).fabric.xfers.find 7).bind (fun x => x.pkts[0]?.map (·.st)) = some (.again 0 0 1)
    ∧ (4000 : W64).toNat ≤ (ansS true .get (.retry 0 4000 1) 4000).timeNs.toNat ∧ (ansS true .get (.retry 0 4000 1) 4000).timeNs.toNat < (0 : W64).toNat + 100000
    ∧ S.fabric.reach 0 = true ∧ S.fabric.reach 5 = false ∧ (linkS .up).fabric.reach 3 = true ∧ (0 : W64).toNat + 100000 ≤ (ansS true .get (.retry 0 4000 1) 100000).timeNs.toNat
    ∧ (0 : Nat) = S.fabric.devid ∧ (S.windowPut 0 3 0 0 (List.replicate 16 1)).1 = 0x22 ∧ (winS.windowPut 0 3 0 0 (List.replicate 16 1)).1 = 0 ∧ (winS.windowPut 0 3 40 16 (List.replicate 16 1)).1 = 0x20
    ∧ ((ansS true .get (.sent 0) 0).fabric.reqs.find 3).map (fun r => (r.waiter, r.ans, r.refusedAt, r.due)) = some (.far 0, none, some 0, 4000) := by
  and_intros <;> decide +kernel

theorem witness_FabricLinks :
    (linkS .up).fabric.link 2 = { phase := .up, queue := [{ num := 0, dst := 3, vc := 4, flits := 2 }], marks := [0, 1, 2, 3, 4, 5, 6] } ∧ (linkS .draining).fabric.link 2 ≠ (linkS .up).fabric.link 2
    ∧ (1 : BitVec 16) = ((linkS .up).fabric.link 2).ack + 1 ∧ (2 : BitVec 16) ≠ ((linkS .up).fabric.link 2).ack + 1 ∧ ((linkS .down).fabric.link 2).phase = .down
    ∧ (SMap.get 0 ((linkS .up).fabric.link 2).sent 4 - SMap.get 0 ((linkS .up).fabric.link 2).ret 4).toNat < 64
    ∧ ((linkS .up).fabric.link 2).queue = [] ++ { num := 0, dst := 3, vc := 4, flits := 2 } :: [] ∧ (∀ m ∈ ((linkS .up).fabric.link 2).queue, m.vc ≠ 7)
    ∧ ((linkS .up).fabric.link 2).lastValid.toNat + 1000000 ≤ ({ linkS .up with timeNs := 1000000 } : State).timeNs.toNat
    ∧ (∀ v, v < 7 → v ∈ ((linkS .draining).fabric.link 2).marks) ∧ (linkS .up).fabric.minimal 3 = [2] ∧ (linkS .up).fabric.minimal 4 = []
    ∧ (∀ p ∈ S.fabric.links, p.2.queue = []) ∧ (∀ p ∈ S.fabric.reqs, p.2.refusedAt = none) ∧ ((linkS .draining).fabric.link 2).marksOut = []
    ∧ (linkS .draining).fabric.link 2 = { phase := .draining, queue := [{ num := 0, dst := 3, vc := 4, flits := 2 }], marks := [0, 1, 2, 3, 4, 5, 6] } ∧ 32 / 32 ≠ (linkS .up).fabric.devid / 32 := by
  and_intros <;> decide +kernel

/-- A job of 100 chunks in group 0: none acknowledged; chunk 64 out with its packet in a state. -/
def chunkS (st : PktState) : State :=
  let l := layoutOf (wordBytes recordWords)
  let j : Job := { job0 with src := l, dst := l, block := 0x100, total := 100, failed := 100, chunks := [{ num := 64, pkts := [{ member := 0, off := 0, len := 16, st := st }] }] }
  { withGroup S (fun g => { g with jobs := [(9, 2)] }) with jobs := [(2, j)] }

theorem witness_ElandChunks :
    ((chunkS (.acked true)).jobs.find 2).isSome ∧ SMap.sorted (chunkS (.acked true)).jobs = true
    ∧ ((chunkS (.acked true)).jobs.find 2).all (fun j => !j.final && !j.stopping && decide (j.st = 1) && decide (j.acked + 64 < j.total) && decide (j.above = 0)) = true
    ∧ ((chunkS (.acked true)).team 0).stopping = false ∧ (withTeam (chunkS .unsent) fun t => { t with stopping := true }).curTeam.stopping = true
    ∧ ((chunkS (.failed 0x21 16)).jobs.find 2).all (fun j => j.chunks.all fun c => c.num = 64 && c.pkts.all fun p => p.st = .failed 0x21 16) = true
    ∧ ((chunkS (.sent 0)).jobs.find 2).all (fun j => j.chunks.all fun c => c.pkts.all fun p => !p.st.final) = true
    ∧ ((chunkS .unsent).jobs.find 2).all (fun j => j.chunks.all fun c => c.pkts.all fun p => p.st = .unsent) = true
    ∧ (∃ p ∈ ((chunkS (.acked true)).group 0).jobs, p.2 = 2) ∧ ((chunkS (.acked true)).writeBlock job0 (.eland 2) job0.image).1 = .ok []
    ∧ ((chunkS (.acked true)).writeBlock { job0 with block := 0x100000 } (.eland 2) job0.image).1 = .fault 0x06 := by
  and_intros <;> decide +kernel

/-! ## Every hypothesis is met: the machine as a whole -/

/-- Whose turn, with NOP-free words placed: SADDI at the scalar PC, MOV at the run's unit. -/
theorem witness_StepRunsDecoded :
    (let s := State.reset.withFetchWord 32 0x0851BFF4
     let z : State := { ({ s with agenda := [] } : State).advance 0 0 with curGid := 0, curSlot := 0 }
     s.agenda = [{ dns := 0, dcyc := 0, who := .scalar 0 }] ∧ z.scalarRunnable 0 = true ∧ z.cur.srom = false ∧ (z.fetchScalar 0).1 = .ok 0x0851BFF4
     ∧ decodeScalar (BitVec.ofNat 32 0x0851BFF4) = .ok (.saddi 5 6 (-12)) ∧ z.scalarRunnable 1 = false ∧ decodeScalar 0x04000100 ≠ .ok (.saddi 0 0 0))
    ∧ (let s := State.reset.withFetchWord 96 0x1C100EFEFEFE006300000000
       let z : State := { ({ s with agenda := [] } : State).advance 0 0 with curGid := 0, curSlot := 0 }
       s.agenda = [{ dns := 0, dcyc := 0, who := .lane 0 0 0 }] ∧ (z.lanePair 0 0).lane0 = some (0, 0) ∧ (z.lanePair 0 0).lane1 = none
       ∧ (z.fetchLane 0 z.split.pc).1 = .ok 0x1C100EFEFEFE006300000000)
    ∧ laneOf .heartbeat = none ∧ encodeScalar .heartbeat = none
    ∧ (let s : State := { State.reset.withFetchWord 32 0 with groups := (State.reset.withFetchWord 32 0).groups.put {} 0 { placedGroup with spc := 0x10000 } }
       (({ s with curGid := 0, curSlot := 0 } : State).fetchScalar 0).1 = .fault 0x06 0x10000) := by
  and_intros <;> decide +kernel

theorem witness_ScalarEncodingsAgree : wellFormed (.saddi 63 1 (-2048)) = true ∧ (encodeScalar (.saddi 63 1 (-2048))).isSome ∧ wellFormed (.fatom 60 63 true .cas) = true
    ∧ (encodeScalar (.fatom 60 63 true .cas)).isSome := by decide +kernel

theorem witness_LaneEncodingsAgree : wellFormed (.ffma { l0 with ha := .l1 } .f32 .rs true false true) = true ∧ (encodeLane (.ffma { l0 with ha := .l1 } .f32 .rs true false true)).isSome
    ∧ wellFormed (.mxloop { lM with a := .alatch, d := .discard } 15 3 true) = true ∧ (encodeLane (.mxloop { lM with a := .alatch, d := .discard } 15 3 true)).isSome := by decide +kernel

/-- A store that the next step makes. -/
theorem witness_MemoryStaysCanonical :
    (State.reset.withFetchWord 32 0x0851BFF4).mem.wf = true ∧ (match step (State.reset.withFetchWord 32 0x0851BFF4) with
      | .next _ => true
      | _ => false) = true := by decide +kernel

/-! ## Ill-formed terms: one for each check of WellFormed -/

/-- Scalar fields: c0 as a destination, a 64-bit sign-extending load, register ranges, SLEEPS with nothing to wait for. -/
theorem test_ill_formed_scalar :
    ([Instr.scmp 0 1 2 .eq, .scmpi .eq 0 1 5, .sldx 1 2 .b64 0, .lrun 61 0, .lrunr 61 0, .cpyc 0 5, .cpyc 61 5, .fput 0 5 .ca false false,
      .fput 62 5 .ca false false, .fget 62 5 .nl false, .fatom 61 5 false .cas, .fmcast 61 5 .cs false, .reshard 61 5, .pfh 62 5,
      .persist 63 5, .dlaunch 0 5, .acset 62 5, .rinit 0 5, .sleeps 0 5 false, .tlbiVa 0 5, .tlbiCtx 63 5, .tlbiPasid 0 5, .tlbiAll 63 5,
      .pgctlPin 0 5, .pgctlUncarve 63 5, .leaseopRead 62 5, .leaseopHint 0 5, .keyopLoad 63 5, .keyopUnload 0 5].all
      fun i => !wellFormed i) = true := by decide +kernel

/-- Lane operands: kind of destination and source, pair alignment, holds, an unused field in use, IMM32 nobody reads. -/
theorem test_ill_formed_lane :
    ([Instr.iadd { d := .p 1 } .i32 false, .iadd { d := .t 1 } .i64 false, .nop { d := .t 0 }, .pmov { d := .discard }, .plop3 { d := .t 1 } 0 0 0,
      .iadd { a := .alatch } .i32 false, .iadd { a := .t 1 } .i64 false, .iadd { a := .latch 0 } .i64 false, .iadd { a := .argHi 0 } .n64 false,
      .iadd { a := .zero, ha := .l0 } .i32 false, .iadd { a := .t 0, ha := .l0 } .i64 false, .iadd { a := .t 1, b := .t 2, ha := .l1, hb := .l1 } .i32 false,
      .iadd { c := .t 1 } .i32 false, .iadd { imm := 4 } .i32 false, .ncvt { a := .imm } .e2m1 .rn false, .ld { d := .t 0, a := .imm } .i32 .ca,
      .ld { d := .discard, a := .t 0 } .i32 .ca, .ld { d := .t 1, a := .t 0 } .i64 .ca, .callr { a := .t 1, ha := .l0 } 2,
      .mxloop { u := true, a := .t 40 } 0 0 false, .mxloop { u := true, a := .zero } 0 0 false].all fun i => !wellFormed i) = true := by decide +kernel

/-- Types and words that one opcode does not take. -/
theorem test_ill_formed_types :
    ([Instr.imadw {} .i64, .iabs {} .n32, .sar {} .n32, .bfe {} .i16, .movspW {} .tid, .lea {} .i64 0, .fclass { d := .t 0, b := .t 1 } .f32,
      .ncvt { d := .t 0 } .i4x .rn false, .ncvt { d := .t 0 } .e2m1 .rn true, .ncvt { d := .t 0, imm := 4 } .e2m1 .rn false,
      .ncvt { d := .t 0, imm := 2 } .e4m3 .rn false, .ncvtFrom { d := .t 0, imm := 8 } .e2m1, .ncvtFrom { d := .t 0, imm := 4 } .i8, .ncvtFrom {} .i4x,
      .i4xunp { imm := 8 }, .plop3 { d := .p 1, imm := 256 } 0 0 0, .pmovToPreds { imm := 1 }, .pmovToPreds { imm := 256 },
      .xscan {} .add .b32 false, .xred {} .and .i32, .qred {} .or .f32, .xshf { b := .imm, c := .imm } .idx .b32, .xfirst { a := .imm, c := .imm } .b32,
      .ldfeKeep { d := .t 0 } .i8, .stfe {} .n16, .cstore { u := true } .i32 .ca, .xload { d := .t 0, u := true } .i32 .ca,
      .atom {} .add .b32 false false, .atoms {} .and .f32 false false, .red {} .inc .i32 false].all fun i => !wellFormed i) = true := by decide +kernel

/-- Control flow and matrix words: END, guard, the frame size, U, the status word of MXST, LSRD's width. -/
theorem test_ill_formed_control :
    ([Instr.brl { fin := .fall }, .join { gp := 1 }, .join { gn := true }, .join { u := true }, .call {} 1, .call {} 11, .call { fin := .next } 2,
      .callr {} 0, .ret { gp := 3 }, .tret { u := true }, .tretVal { fin := .exit }, .mxzero {}, .mxzero { u := true, imm := 65536 },
      .mxst { u := true, imm := 6 } 0 0, .mxst { u := true, imm := 0x10 } 0 6, .mxst { u := true, imm := 8 } 0 3, .mxst { u := true, imm := 0x100 } 0 0,
      .mxst { u := true, imm := 0x40 } 0 0, .mxst { u := true } 0 1, .mxld {} 0, .mxwaitSt { u := true } 0 false, .mxwaitStall { u := true, d := .t 1 } false, .mxrel {},
      .lsrd { d := .t 0 } 3 false, .lsrd { d := .t 0 } 0 true, .lswr {} 6 false, .spillwWin {}, .fillwStk {}, .ctxsv { d := .t 0 } false,
      .ctxrs { u := true } true].all fun i => !wellFormed i) = true := by decide +kernel

/-- Reserved words: an opcode the tables do not list; a nonzero unused field (R24, R31). -/
theorem test_reserved_refused :
    decodeScalar 0xFC000000 = .illegalOpcode
    ∧ decodeScalar 0x68000001 = .illegalField
    ∧ decodeScalar 0x04046C07 = .illegalField
    ∧ decodeLane (0xFF0000FEFEFE000000000000#96) = .illegalOpcode
    ∧ decodeLane (0x190033080900010000000000#96) = .illegalField := by decide +kernel

/-! ## One step each: the worked examples of the spec -/

/-- The next state, or none. -/
def next? (o : Host.Outcome State Fault Refusal) : Option State := match o with
  | .next t => some t
  | _ => none
def run1 (i : Instr) (s : State) : State := (next? (exec i s)).getD State.reset

/-- Chapter 9's program, instruction by instruction: SLI and SLIS build the constants. -/
theorem test_constants :
    (run1 (.slis 10 0xBCDEF) (reg S 10 0x123456789A)).sread 10 = 0x0123456789ABCDEF ∧ (run1 (.slis 11 0) (reg S 11 (-2048))).sread 11 = 0xFFFFFFFF80000000
    ∧ (run1 (.sli 11 (-2048)) S).sread 11 = -2048 := by decide +kernel

/-- SLOOP at 4 branches back one word, at 1 falls through with 0. -/
theorem test_sloop :
    let at32 (n : W64) : State := withGroup (reg S 13 n) fun g => { g with spc := 32 }
    (run1 (.sloop 13 (-1)) (at32 4)).sread 13 = 3 ∧ (run1 (.sloop 13 (-1)) (at32 4)).cur.spc = 28
    ∧ (run1 (.sloop 13 (-1)) (at32 1)).sread 13 = 0 ∧ (run1 (.sloop 13 (-1)) (at32 1)).cur.spc = 36 := by decide +kernel

/-- 10 divided by −2^31 is 0, remainder 10; a divisor of 0 leaves the destination. -/
theorem test_sdiv :
    (run1 (.sdiv 14 12 11) (reg (reg S 12 10) 11 0xFFFFFFFF80000000)).sread 14 = 0
    ∧ (run1 (.srem 15 12 11) (reg (reg S 12 10) 11 0xFFFFFFFF80000000)).sread 15 = 10
    ∧ (run1 (.sdiv 14 12 13) (reg (reg S 12 10) 14 7)).sread 14 = 7 := by decide +kernel

/-- A register of a thread of group 0. -/
def treg (s : State) (k n : Nat) : W32 := s.reg32 0 (.t (Fin.ofNat 48 n)) k
/-- The same state with one register of one thread set. -/
def setT (s : State) (k n : Nat) (v : W32) : State := withGroup s fun g => { g with regs := g.regs.put 0 (k * 256 + n) v }

/-- Chapter 11's example in threads 0 (300) and 3 (−200): the compare, the clamp, the wrap. -/
def minS : State := setT (setT (setT (setT L 0 8 300) 3 8 0xFFFFFF38) 0 9 100) 3 9 100
theorem test_iset :
    let t := run1 (.iset { d := .p 3, a := .t 8, b := .t 9 } .i32 .lt) minS
    (t.cur.thread 0).preds.getLsbD 3 = false ∧ (t.cur.thread 3).preds.getLsbD 3 = true := by decide +kernel
theorem test_cvti :
    treg (run1 (.cvti { d := .t 11, a := .t 8 } .i8 .i32 true) minS) 3 11 = 0xFFFFFF80
    ∧ treg (run1 (.cvti { d := .t 11, a := .t 8 } .i8 .i32 false) minS) 3 11 = 56
    ∧ treg (run1 (.cvti { d := .t 11, a := .t 9 } .i8 .i32 true) minS) 0 11 = 100 := by decide +kernel

/-- Chapter 12's example: NEXP, MXSCL, the scaling, the narrow conversion and its flags. -/
def nS : State := setT (setT (setT (setT (setT L 0 4 0x42200000) 0 10 132) 0 12 0xFFFFFFFD) 0 13 0x40A00000) 0 14 0xBE266666
theorem test_nexp : treg (run1 (.nexp { d := .t 10, a := .t 4 } .f32) nS) 0 10 = 132 := by decide +kernel
theorem test_mxscl : treg (run1 (.mxscl { d := .t 11, a := .t 10 } .e2m1) nS) 0 11 = 130 := by decide +kernel
theorem test_fscale : treg (run1 (.fscale { d := .t 13, a := .t 4, b := .t 12 } .f32 .rn) nS) 0 13 = 0x40A00000 := by decide +kernel
theorem test_ncvt :
    treg (run1 (.ncvt { d := .t 15, a := .t 13, b := .t 14 } .e2m1 .rn false) nS) 0 15 = 0x86
    ∧ treg (run1 (.ncvt { d := .t 15, a := .t 13, b := .t 14 } .e2m1 .ra false) nS) 0 15 = 0x87 := by decide +kernel
theorem test_i4xpk : treg (run1 (.i4xpk { d := .t 16, a := .t 17 } .rn false) (setT L 0 17 0x0064FE03)) 0 16 = 0x26C8 := by decide +kernel

/-- Chapter 10's example: 0x3F80F000 to BF16 in each mode, then the two RS draws of thread 0 from seed 1. -/
theorem test_rounding :
    let r (m : Rnd) (draw : Nat) := roundTo .bf16 false m draw false 0x80F000 1 (-23)
    (r .rn 0).1 = 0x3F81 ∧ (r .ra 0).1 = 0x3F81 ∧ (r .rz 0).1 = 0x3F80 ∧ (r .ru 0).1 = 0x3F81 ∧ (r .rd 0).1 = 0x3F80
    ∧ (r .rs 0).1 = 0x3F80 ∧ (r .rs 0x1000).1 = 0x3F81 := by decide +kernel

/-- The words printed in the examples of chapters 9, 11, 12 and 14. -/
theorem test_decode_printed_words :
    decodeScalar 0x24AB_CDEF = .ok (.slis 10 0xBCDEF) ∧ decodeScalar 0x00C3_0D00 = .ok (.sadd 12 12 13)
    ∧ decodeScalar 0x54D0_3FFF = .ok (.sloop 13 (-1)) ∧ decodeScalar 0x00F3_0B07 = .ok (.srem 15 12 11)
    ∧ decodeScalar 0x1D22_C000 = .ok (.scmpi .lt 2 11 0) ∧ decodeScalar 0x0102_8C1A = .ok (.ssel 16 10 12 2)
    ∧ decodeLane 0x1900_3308_09FE_0100_0000_0000 = .ok (.iset { d := .p 3, a := .t 8, b := .t 9 } .i32 .lt)
    ∧ decodeLane 0x4780_0F0D_0EFE_0000_0000_0000 = .ok (.ncvt { fin := .next, d := .t 15, a := .t 13, b := .t 14 } .e2m1 .rn false)
    ∧ decodeLane 0xB010_FE10_08FF_0003_0000_0100 = .ok (.mxloop { u := true, a := .t 16, b := .t 8, c := .imm, imm := 0x100 } 3 0 false)
    ∧ decodeLane 0xB490_20FE_FEFE_0010_0000_0000 = .ok (.mxwaitStall { fin := .next, u := true, d := .t 32 } false) := by decide +kernel

/-- Chapter 14's example: one element. Two blocks each add 1 to 2^24 and round, so the element stays 2^24, inexact; each
block's other 31 products are 0. -/
theorem test_mx_rounds_each_block :
    ((mxFmt [0xC00, 0, 0, 0, 0, 0, 0, 0]).map fun f =>
      let v := (mxElems 0 (2 :: List.replicate 15 0 ++ 2 :: List.replicate 15 0)).1
      mxStep f (v, [0x7F, 0x7F]) (v, [0x7F, 0x7F]) (0x4B800000, 0)) = some (0x4B800000, fIX) := by decide +kernel

/-- Chapter 10's first two draws from seed 1. -/
theorem test_draws : advanceG 1 = 0x40822041 ∧ advanceG 0x40822041 = 0x100041060C011441 := by decide +kernel

/-! ## Every hypothesis is met: engine writes that succeed, fault or wait -/

/-- The page at 0 is a host page whose translation has still to be asked for. -/
def hostPage (s : State) : State := { s with mem := { s.mem with tlb := [{ placedPage with leaf := { placedPage.leaf with space := 1 } }, { placedPage with holder := 256, leaf := { placedPage.leaf with space := 1 } }] } }
/-- The page at 0 belongs to the system context also, with a leaf as given. -/
def sysPage (l : Leaf) : State := { S with mem := { S.mem with tlb := [{ placedPage with ctx := sysCtx, leaf := l, holder := 256 }] } }
/-- Team 0 is to stop, nothing of it runs, and it has one job with its block at b. -/
def stopJobS (b : W64) : State :=
  { withTeam (withGroup (idle S) fun g => { g with jobs := [(9, 2)] }) (fun t => { t with stopping := true }) with jobs := [(2, { job0 with block := b })] }
/-- Launch 2 with its gang table at a. -/
def gangTabS (a : W64) : State := { launchS 2 with launches := [(2, { launch2 2 with gangtab := a })] }
/-- What the trial write of the first entry of launch 2's gang table comes to. -/
def gangTry (s : State) (a : W64) : ERes × State :=
  s.engWrite { core := 256, ctx := 0, mode := .priv, gid := 2 ^ 40 } (.store 0) a (wordBytes [1, 0])

theorem witness_EngineWrites :
    -- PREEMPT with a job: its block written, or its write waiting
    ((stopJobS 0x100).team 0).stopping = true ∧ ((stopJobS 0x100).team 0).stopped = false ∧ SMap.sorted (stopJobS 0x100).jobs = true
    ∧ (stopJobS 0x100).jobs.find 2 = some job0 ∧ job0.team = 0 ∧ job0.final = false ∧ (∀ p ∈ (stopJobS 0x100).jobs, p.1 = 2)
    ∧ (∀ p ∈ job0.chunks, False)
    ∧ ((stopJobS 0x100).writeBlock { job0 with st := 4 } (.eland 2) { job0 with st := 4 }.image).1 = .ok [] ∧ ((hostPage (stopJobS 0x100)).writeBlock { job0 with st := 4 } (.eland 2) { job0 with st := 4 }.image).1 = .wait
    -- the pager's record
    ∧ ((sysPage placedPage.leaf).engWrite sysAcc .engine 0 (wordBytes [1, 2, 3, 4])).1 = .ok []
    ∧ (S.engWrite sysAcc .engine 0 (wordBytes [1, 2, 3, 4])).1 = .fault 0x06 ∧ S.pager.base = 0
    ∧ ((sysPage { placedPage.leaf with space := 1 }).engWrite sysAcc .engine 0 (wordBytes [1, 2, 3, 4])).1 = .wait
    -- the gang table
    ∧ ((gangTabS 0x100).cmd? 7).map (·.priv) = some true ∧ (gangTabS 0x100).launches.find 2 = some { launch2 2 with gangtab := 0x100 } ∧ (launch2 2).tabBad = false
    ∧ (gangTry (gangTabS 0x100) 0x100).1 = .ok [] ∧ (gangTry (gangTabS 0x100000) 0x100000).1 = .fault 0x06 ∧ (gangTry (hostPage (gangTabS 0x100)) 0x100).1 = .wait
    ∧ (((gangTabS 0x100).placeTeams 2 { launch2 2 with gangtab := 0x100 } 0 0 2 (List.range 2)).map (·.cmds)) = some (gangTabS 0x100).cmds
    -- a lane pair that a group on it keeps
    ∧ (let s := S.setLanePair 0 0 { reserve := some 0 }
       (∃ q ∈ s.pairGroups 0 0, (s.lanePair 0 0).reserve = some q.1) ∧ ¬∃ q ∈ S.pairGroups 0 0, (S.lanePair 0 0).reserve = some q.1)
    -- no job to tell of
    ∧ S.jobs = [] := by
  and_intros <;> decide +kernel

/-! ## Every hypothesis is met: what waits and what has been answered, the slots, the caches, the links -/

theorem noAcquireOut_of (s : State) (h : s.host.reqs = []) (f : s.fabric.reqs = []) : NoAcquireOut s := fun k => by
  simp [State.acqWaits, h, f]
theorem noFillWait_of (s : State) (h : ∀ p ∈ s.groups, p.2.far = []) : NoFillWait s := fun p hp f => by
  simp [Group.waitsFrame, h p hp]
theorem noEventWait_of (s : State) (h : ∀ p ∈ s.groups, p.2.swait = none ∧ wakeGroup s.timeNs p.2 = p.2) : NoEventWait s := fun p hp => by
  refine ⟨(h p hp).2, fun t => ?_⟩
  have := (h p hp).1
  cases hq : p.2
  simp_all [Group.takes]

/-- Nothing is out: the states of the lane memory statements, and of the copies, the pager and the matrix engine. -/
theorem witness_NothingOut :
    (∀ s ∈ [L, adrS ownA, adrS farA, adrS hitA, adrS outA, adrS oddA, inL1, atL2, roS], NoAcquireOut s ∧ NoFillWait s ∧ NoEventWait s)
    ∧ NoEventWait (copyS blkSS 1 false) ∧ NoEventWait (copyS blkGS 1 false) ∧ NoEventWait pcopyS ∧ NoEventWait (mxS [cmdOf (.zero 1)] none) := by
  have h : ∀ s ∈ [L, adrS ownA, adrS farA, adrS hitA, adrS outA, adrS oddA, inL1, atL2, roS],
      s.host.reqs = [] ∧ s.fabric.reqs = [] ∧ (∀ p ∈ s.groups, p.2.far = []) ∧ ∀ p ∈ s.groups, p.2.swait = none ∧ wakeGroup s.timeNs p.2 = p.2 := by
    decide +kernel
  refine ⟨fun s m => ?_, ?_, ?_, ?_, ?_⟩
  · obtain ⟨a, b, c, d⟩ := h s m
    exact ⟨noAcquireOut_of s a b, noFillWait_of s c, noEventWait_of s d⟩
  all_goals exact noEventWait_of _ (by decide +kernel)

/-- Thread 0's acquire follows an atomic at the host that has not come back (R134). -/
def acqS : State := { L with host := { L.host with reqs := [(3, { kind := .atom 0 .i32, waiter := .far 0, ctx := 0, acq := some 0 })] } }

theorem witness_LaneInOrder :
    acqS.acqWaits acqS.curGid 0 = true ∧ (acqS.computers (lG 0)).head? = some 0
    ∧ (∀ i ∈ [Instr.ld (lG 0) .n64 .ca, .st (lG 0) .n16 .cg, .lds (lG 0) .i32, .sts (lG 0) .i8, .ldfeKeep (lG 0) .b32, .ldfeClear (lG 0) .n64, .stfe (lG 0) .b32,
        .xload (lG 0) .i8 .cs, .zline (lG 0) .ca, .atom (lG 0) .inc .n64 true true, .acas (lG 0) .i32 false true, .atoms (lG 0) .add .n64 true false,
        .acass (lG 0) .i64 false false, .red (lG 0) .add .f32 true], Placed acqS i (lG 0)) := by
  unfold Placed; and_intros <;> decide +kernel

/-- RunsOver holds at NEXT with nothing out; not while the lane runs, a run is queued, or an atomic is out. -/
theorem witness_RunsOver :
    RunsOver (idle S) ∧ RunsOver (barS 1) ∧ RunsOver (queueS 0) ∧ ¬RunsOver S ∧ ¬RunsOver (idle acqS)
    ∧ ¬RunsOver (withGroup (idle S) fun g => { g with queue := [{ start := 0, args := [] }] }) := by
  unfold RunsOver LaneIdle; and_intros <;> decide +kernel

/-- Split 1 of a killed group is in the middle of an instruction in lane 1. -/
def midS : State :=
  let s := withGroup L fun g => { g with splits := g.splits ++ [(1, { mask := 1, mode := .running, resuming := true })] }
  { s with lanePairs := s.lanePairs.put {} 0 { lane0 := some (0, 0), lane1 := some (0, 1) } }

theorem witness_GroupEndsMidway : (midS.group 0).ended = false ∧ midS.midway 0 = true ∧ L.midway 0 = false ∧ (L.groups.find 0).isSome := by decide +kernel

/-- PREEMPT's operand names team 0, which stops already or not; one job of it runs, one has closed. -/
theorem witness_PreemptWrite :
    ((withTeam S fun t => { t with stopping := true }).team 0).stopping = true ∧ (S.team 0).stopping = false
    ∧ (let s : State := { S with jobs := [(2, job0), (3, { job0 with closed := true }), (4, { job0 with team := 1 })] }
       (s.jobs.find 2).any (fun j => decide (j.team = 0 ∧ j.st = 1 ∧ j.closed = false)) = true ∧ (s.jobs.find 3).any (·.closed) = true
       ∧ (s.jobs.find 4).any (fun j => decide (j.team ≠ 0)) = true) := by decide +kernel

/-- RINIT meets a busy ring at its offset; CPYC: each check of R138 fails alone, and a slice that fits or not its open copy. -/
theorem witness_RingsAndSlices :
    (let t := (ringS true).curTeam
     (∃ w ∈ t.watch, w.off = 0x200) ∧ (t.wr 0x225 1 1).slotState 0x200 1 = 1 ∧ (t.wr 0x225 1 3).slotState 0x200 1 = 3 ∧ (∀ w ∈ t.watch, w.off ≠ 0x240))
    ∧ (ringS false).curTeam.ring? 0 = some 0x200 ∧ (ringS false).curTeam.ring? 1 = none ∧ (ringS false).curTeam.kernel.rings = 2 ∧ (ringS false).curTeam.slots 0x200 = 2
    ∧ (ringS false).curTeam.slotState 0x200 1 = 0 ∧ (ringS true).curTeam.slotState 0x200 0 ≠ 0
    ∧ (2 ^ 21 ≤ (0x200000 : W64).toNat ∧ (0x1000 : W64).getLsbD 12 = true ∧ (0x30000 : W64).toNat / 2 ^ 16 % 4 = 3 ∧ (0x0C0000 : W64).toNat < 2 ^ 21
       ∧ ¬(2 ^ 32 ≤ (0x400 : W64).toNat) ∧ (0x10001 : W64).toNat % 2 ^ 16 = 1 ∧ (0x10001 : W64).toNat / 2 ^ 16 % 2 ^ 24 = 1)
    ∧ (let y : Copy := { num := 0, opened := true, ring := 0, slot := 1, stream := true }; y.ring = 0 ∧ y.slot = 1 ∧ y.stream = (0x4001 : W64).getLsbD 14
       ∧ y.close = (0x4001 : W64).getLsbD 15 ∧ ¬(y.slot = 0)) := by decide +kernel

/-- A lease that has run out, and the renewal of it. -/
theorem witness_LeaseRunOut :
    (let s := leasedS .active 100
     ((s.mem.lease 5).st = .active ∧ (s.mem.lease 5).expiry.toNat ≤ s.timeNs.toNat) ∧ ((s.expireLease 5).mem.lease 5).st = .expired
     ∧ (s.expireLease 5).timeNs.toNat < (101 : W64).toNat) := by decide +kernel

/-- Frame 1 holds page 1 of an EXPIRED lease, dirty, pinned or not; frame 7's set has 15 pinned frames. -/
theorem witness_PageControlFrames :
    (let m := (leasedS .expired 0).mem
     m.hit 1 = some 1 ∧ ((m.settle 1).frame 1).dirty ≠ 0 ∧ (m.settle 1).expiredAt 0x10000 = true ∧ (m.settle 1).dirtyFrame 1 = true ∧ ((m.settle 1).frame 1).pinned = false)
    ∧ (let m := (leasedS .active 0).mem; (m.settle 1).expiredAt 0x10000 = false ∧ (m.settle 1).pins 1 < 15
       ∧ leaseFault 0 (m.leaseAt 0x10000) = none ∧ (leaseFault 0 (m.leaseAt 0x50000)).isSome = true ∧ m.hit 5 = none)
    ∧ (let m : Mem := { (leasedS .active 0).mem with frames := (leasedS .active 0).mem.frames ++ (List.range 15).map (fun w => (frameOf 1 (w + 1), { valid := true, pinned := true })) }
       15 ≤ m.pins 1 ∧ m.hit 1 = some 1 ∧ (m.frame 1).pinned = false)
    ∧ (let z := leasedS .active 0
       let m : Mem := { z.mem with frames := [] }
       m.hit 1 = none ∧ leaseFault 0 (m.leaseAt 0x10000) = none ∧ m.pins 1 + (if (m.frame 1).pinned || (m.frame 1).carved then 1 else 0) < 15 ∧ m.victim 1 = some 1) := by
  and_intros <;> decide +kernel

/-- A walk-cache entry for a context and an address, and one for another. -/
theorem witness_WalkCache :
    (let e : WalkEntry := { die := 0, ctx := 0, level := 3, tag := walkTag 3 0x1000, table := 0 }
     e.ctx = 0 ∧ e.tag = (0x1000 : W64).toNat % 2 ^ 57 / 2 ^ (3 + 9 * e.level) ∧ ¬(e.ctx = 1)) := by decide +kernel

/-- A trap: the slot is free, and from the next cycle only; held by the thread itself; taken in this cycle from a higher split, or from a lower one. -/
def tslotS (thr split since levels : Nat) : State := { withGroup L fun g => { g with
    thr := g.thr.put {} thr { (g.thread thr) with tlevel := 1, t1 := { cause := BitVec.ofNat 32 (0x14 + 256 * thr + 8192 * split) } },
    tslot := some { thr := thr, levels := List.replicate levels { mask := 1 }, since := since } } with cycle := 9 }

theorem witness_TrapSlot :
    L.cur.tslot = none ∧ L.cur.slotFrom ≤ L.cycle ∧ (∀ p ∈ L.cur.splits, p.2.mode = .running) ∧ L.cycle < (withGroup L fun g => { g with slotFrom := 1 }).cur.slotFrom
    ∧ (tslotS 0 0 0 1).cur.tslot.map (·.thr) = some 0 ∧ ((tslotS 0 0 0 1).cur.thread 0).tlevel < 2
    ∧ (let s := tslotS 3 2 9 1; s.cur.tslot = some { thr := 3, levels := [{ mask := 1 }], since := 9 } ∧ 3 ≠ 0 ∧ 9 = s.cycle ∧ s.curSlot < 2
       ∧ (s.cur.thread 3).t1.cause.toNat / 8192 % 8 = 2)
    ∧ (let s := tslotS 3 0 9 1; (s.cur.thread 3).t1.cause.toNat / 8192 % 8 ≤ s.curSlot)
    ∧ (let s := tslotS 3 2 8 1; s.cur.tslot.map (·.since) = some 8 ∧ 8 ≠ s.cycle) := by
  and_intros <;> decide +kernel

/-- A branch finds split 1 free, or held free until the cycle ends; a lower split has written the latch entry in this cycle. -/
theorem witness_SplitsAndLatches :
    (cfS 4 []).cur.splits.find 1 = none ∧ 1 ∉ (cfS 4 []).cur.slotsHeld ∧ (∀ q, q < 1 → ¬((cfS 4 []).cur.splits.find q = none))
    ∧ (withGroup (cfS 4 []) fun g => { g with slotsHeld := [1, 2, 3] }).cur.slotsHeld = [1, 2, 3]
    ∧ (let s : State := { S with curSlot := 1, lanePairs := S.lanePairs.put {} 0 { latch := [(0, { gid := 0, split := 0, life := 2, cyc := 0 })] } }
       ∃ e, s.curPair.latch.find 0 = some e ∧ e.gid = s.curGid ∧ e.split < s.curSlot ∧ e.cyc = s.cycle ∧ 0 < e.life) := by
  refine ⟨?_, ?_, ?_, ?_, { gid := 0, split := 0, life := 2, cyc := 0 }, ?_⟩ <;> decide +kernel

/-- The matrix queue with a command done in the engine, or not yet; an MXREL of the group queued; a step under way. -/
theorem witness_MatrixSteps :
    (let c : MxCmd := { (cmdOf (.zero 1)) with started := true, due := 1 }
     let s : State := { mxS [c, cmdOf (.zero 2)] none with cycle := 16 }
     c.left = 0 ∧ c.due + 15 ≤ s.cycle ∧ ({ s with cycle := 15 } : State).cycle < c.due + 15 ∧ c.due ≤ s.cycle
       ∧ (∀ n, n < 16 → ¬(c.op.names n = true ∧ (cmdOf (.zero 2)).op.names n = true)) ∧ (cmdOf (.zero 2)).due ≤ s.cycle
       ∧ (c.started = true ∧ c.left = 0) ∧ (∃ n ∈ List.range 16, c.op.names n = true ∧ (cmdOf (.zero 3)).op.names n = true))
    ∧ (let c : MxCmd := { (cmdOf (.loop 0 2 false [0x33, 0, 0, 0, 0, 0, 0, 0] 0 {} true)) with started := true, left := 1, due := 8 }
       0 < c.left ∧ c.op.runs = true)
    ∧ (let c := cmdOf (.rel 0); let s := mxS [cmdOf (.zero 1), c] (some { gid := 0, rows := { steps := 2 } })
       (∃ q ∈ (s.core 0).mxq, q.op = .rel s.curGid) ∧ (s.core 0).alatch.map (·.gid) = some s.curGid ∧ ¬∃ q ∈ (s.core 0).mxq, q.latch = true) := by
  and_intros <;> decide +kernel

/-- A waiting stream executes in an active slot, and not in a pending one, nor when its team has stopped. -/
theorem witness_Executes :
    (waitS { instr := .lquiet }).executes 0 = true ∧ (withGroup (waitS { instr := .lquiet }) fun g => { g with slot := some 8 }).executes 0 = false
    ∧ (withTeam (waitS { instr := .lquiet }) fun t => { t with stopped := true }).executes 0 = false
    ∧ (waitS { instr := .rawait 4 5, aux := [0, 7] }).cur.swait = some { instr := .rawait 4 5, aux := [0, 7] }
    ∧ (waitS { instr := .acwait 4 5, aux := [7] }).cur.swait = some { instr := .acwait 4 5, aux := [7] }
    ∧ RunsOver (waitS { instr := .dlaunch 4 5 }) ∧ (waitS { instr := .reshard 4 5 }).liveJobs < 64 ∧ (waitS { instr := .reshard 4 5, seen := 1 }).liveJobs < 64 := by
  unfold RunsOver LaneIdle; and_intros <;> decide +kernel

/-- A run that waits for far results (its instruction carries W) or not; a handler's run, ready in time or not yet; the last far result of a group. -/
theorem witness_ReadyRuns :
    readyS.peekW 0 readyS.split.pc = false ∧ (readyS.group 0).dying = false
    ∧ (let s := withGroup (State.reset.withFetchWord 96 (2 ^ 85)) fun g => { g with far := [{ dsts := [{ thr := 0, ent := 0 }], src := .value 5 }] }
       s.peekW 0 0 = true ∧ (s.group 0).far.length = 1 ∧ ([{ thr := 0, ent := 0 }] : List FarDst).length = 1)
    ∧ (withGroup L fun g => { g with slotFrom := 4 }).cycle < (withGroup L fun g => { g with slotFrom := 4 }).cur.slotFrom := by
  and_intros <;> decide +kernel

/-- Springbok: the stack of the set is trained or not; the lease is ACTIVE and has not run out. -/
theorem witness_SpringbokStack :
    S.stackReady (1 % numSets % 8) = true ∧ ({ S with boot := { S.boot with ready := 0 } } : State).stackReady (1 % numSets % 8) = false
    ∧ ((leasedS .active 0).mem.leaseAt 0x10000).map (·.2.st) = some .active ∧ (0 : W64).toNat < ((leasedS .active 0).mem.lease 5).expiry.toNat := by
  decide +kernel

/-- A copy's last unit under FE; a team that has stopped; a page of another core's translations. -/
theorem witness_CopyLastUnit :
    ((copyS [0x400, 0x500, 0x20001, 0x0C2000] 1 false).curTeam.copies.length = 1 ∧ (copyS blkSS 1 false).curTeam.stopped = false
      ∧ (∀ y ∈ (copyS blkSS 1 false).curTeam.copies, y.due = [])
      ∧ (0x0C2000 : W64).getLsbD 13 = true ∧ 1 + 1 = ((0x20001 : W64).toNat % 2 ^ 16) * ((0x20001 : W64).toNat / 2 ^ 16 % 2 ^ 24) ∧ 0x510 % 16 = 0)
    ∧ (withTeam (copyS blkSS 1 false) fun t => { t with stopped := true }).curTeam.stopped = true
    ∧ ((copyS blkGS 1 false).engLine { (copyS blkGS 1 false).accOf 0 with core := 0, ctx := 0, copy := some (0, 0) } (.copy 0 0 0) 0x10 16 0).1
        = .ok (List.replicate 16 0) := by decide +kernel

/-- Team 0 is to stop: a copy that is parked whole, and one that still moves; a packet in flight, and one refused. -/
theorem witness_Stopping :
    (let z : Slice := { grp := 0, parked := some 0x06 }
     let c : Copy := { num := 0, opened := true, slices := [z, { z with parked := none, ended := true }] }
     (∃ x ∈ c.slices, x.parked ≠ none) ∧ ∀ x ∈ c.slices, x.ended = true ∨ x.parked ≠ none)
    ∧ (PktState.retry 0 4000 1).flying = false ∧ (PktState.sent 0).flying = true ∧ S.sideOut (.xfer 7) = false ∧ S.sideOut (.eland 2) = false
    ∧ (stopJobS 0x100).jobs.find 2 = some job0 ∧ job0.pend = [] ∧ job0.chunks = []
    ∧ (∀ p ∈ (stopJobS 0x100).groups, p.2.swait = none)
    ∧ SWait.finishes { instr := .barw 4 5 0 } = false := by
  and_intros <;> decide +kernel

/-- Commands: the host has denied a write of one; a peer's answer to one is out; a read pointer is to be written; a signal that waits. -/
theorem witness_Commands :
    (let s : State := { cmdS [2] with host := { S.host with denials := [{ waiter := .cmd 7, ctx := 0, page := 0, write := true, cause := 0x06 }] } }
     s.cmdDenied 7 = true ∧ (cmdS [2]).cmdDenied 7 = false)
    ∧ (let s : State := { cmdS [2] with fabric := { S.fabric with reqs := [(3, { kind := .write, waiter := .cmd 7, ctx := 0 })] } }
       s.cmdOut 7 = true ∧ (cmdS [2]).cmdOut 7 = false)
    ∧ (qS false).cp.due = [] ∧ ((qS false).releaseAt 256 .sys).releaseDone 0 .sys = true
    ∧ (((qS false).releaseAt 256 .sys).releaseEnd 0 .sys).engWrite ((qS false).queue 3).acc (.store 0) 0x2000 (leBytes 8 2) ≠ (.wait, S)
    ∧ (let w : State := { qS false with host := { S.host with reqs := [(3, { kind := .write, waiter := .store 0, ctx := 0 })] } }; w.releaseDone 0 .sys = false)
    ∧ ((hostPage (cmdS [0, 8])).xlate { core := 256, ctx := 0, mode := .priv, gid := 2 ^ 40 } 8 .write).1 = .ats
    ∧ ((cmdS [0]).xlate { core := 256, ctx := 0, mode := .priv, gid := 2 ^ 40 } 0x100000 .write).1 = .fault 0x06
    ∧ ((cmdS [0x14]).contexts.find 0).any (fun x => !x.torn) = true
    ∧ (((cmdS [0x14]).modContext 0 fun c => { c with torn := true }).contexts.find 0).any (·.torn) = true
    ∧ wbits ((theCmd [0x14, 0, 0, 5]).w 3) 0 3 = 5 ∧ (cmdS [0x14]).named 0 = true ∧ (cmdS [0x14]).named 9 = false := by
  and_intros <;> decide +kernel

/-- Multicast entries that a context owns, keeps, takes over or loses. -/
theorem witness_Multicast :
    (let x : Context := { ftag := 5, mfirst := 1, mcnt := 2 }
     let s : State := { S with fabric := { S.fabric with mcast := [(1, 5, [2, 3]), (4, 5, [2])] } }
     SMap.sorted s.fabric.mcast = true ∧ s.fabric.mcast.find 1 = some (5, [2, 3]) ∧ s.fabric.mcast.find 2 = none
     ∧ (x.mfirst ≤ 2 ∧ 2 < x.mfirst + x.mcnt ∧ 2 < 4096) ∧ ¬(4 < x.mfirst + x.mcnt)) := by decide +kernel

/-- A lane pair that a team being placed waits for. -/
theorem witness_Claims :
    (let s := (launchS 2).setLanePair 0 0 { claim := some (9, 5, true) }
     (∃ j t, (s.lanePair 0 0).claim = some (j, t, true) ∧ j ≠ 2) ∧ s.groupPlace 0 24 2 = some (1, 0, some 0) ∧ s.groupPlace 0 24 9 = some (0, 0, some 0)) := by
  refine ⟨⟨9, 5, ?_⟩, ?_, ?_⟩ <;> decide +kernel

/-- The host: nothing is lost before the deadline, a request is without an answer, a translation is shared, an atomic has its acquire to make,
a context has a page denied. -/
theorem witness_HostAnswers :
    (let s := tethS .lost (hostReq .read (.far 0)) 1000
     s.host.tether = .lost ∧ s.host.deadline.toNat ≤ s.timeNs.toNat ∧ (hostReq .read (.far 0)).answered = false
       ∧ (∀ p ∈ s.host.reqs, p.2.isWrite = false → p.2.answered = false → p.1 = 3))
    ∧ ¬((tethS .lost (hostReq .read (.far 0)) 999).host.deadline.toNat ≤ 999) ∧ (hostReq .write (.store 0)).isWrite = true
    ∧ (let r : Req := { hostReq .ats (.xlat 0 0) with pasid := 4, joined := [{ waiter := .xlat 0 0, ctx := 0, core := 0, va := 0x1000, write := true }] }
       (∀ j ∈ r.joined, j.waiter = .xlat 0 0) ∧ r.kind = .ats ∧ r.tries = 0 ∧ r.data ≠ 1 ∧ ({ r with tries := 1, data := 1 } : Req).tries ≠ 0)
    ∧ (hostReq .read (.far 0)).acq = none ∧ (hostReq .read (.far 0)).stale = false ∧ ({ hostReq .read (.far 0) with stale := true } : Req).stale = true
    ∧ (hostReq .read (.far 0)).l1 = none ∧ ({ hostReq (.atom 0 .i64) (.far 0) with acq := some 2 } : Req).acq = some 2
    ∧ 3 ∉ (tethS .attached (hostReq .read (.far 0)) 0).host.waiting
    ∧ (∀ p ∈ (tethS .attached (hostReq .read (.far 0)) 0).host.reqs, p.2.kind = .pri → p.2.parked = false)
    ∧ (tethS .attached (hostReq .read (.far 0)) 0).host.parked = [] := by
  and_intros <;> decide +kernel

/-- Boot: the first die's READY bit; park frames fit. -/
theorem witness_BootFrames :
    State.reset.contexts.find sysCtx = none ∧ (4 ≤ 4 ∧ 4 < 8) ∧ State.reset.boot.ready.getLsbD 4 = false
    ∧ State.reset.mem.frames.length + 65536 < numFrames ∧ (State.reset.mem.frame 0).isInvalid = true
    ∧ ((0x18 : BitVec 21).getLsbD 3 = true ∧ (0x18 : BitVec 21).getLsbD 4 = true ∧ (0x18 : BitVec 21).getLsbD 16 = false)
    ∧ (({ S with rings := [(0, { count := 3 })] } : State).rings.find 0).isSome = true ∧ S.boot.throttled = false ∧ (0 : Nat) < sysCtx := by
  and_intros <;> decide +kernel

/-- Packets: still queued on a link; the team stops; answered; a transfer's array; a loop-back packet under way. -/
def pktS (st : PktState) : State := ansS false (.put false) st 0

theorem witness_Packets :
    (let s : State := { pktS (.sent 0) with fabric := { (pktS (.sent 0)).fabric with links := [(2, { queue := [{ num := 0, dst := 3, vc := 0, flits := 1, words := [1, 7, 0, 5] }] })] } }
     s.queued [1, 7, 0] = true ∧ (pktS (.sent 0)).queued [1, 7, 0] = false ∧ (pktS (.sent 0)).queued [2, 3] = false)
    ∧ ((withTeam (pktS (.retry 0 4000 1)) fun t => { t with stopping := true }).team 0).stopping = true
    ∧ ((pktS (.sent 0)).fabric.xfers.find 7).map (·.kind) = some (.put false) ∧ (XferKind.put false ≠ .mcast)
    ∧ ((pktS (.sent 0)).fabric.reqs.find 3).map (·.answered) = some false ∧ (0 : W64).toNat + 1000000 ≤ ({ pktS (.sent 0) with timeNs := 1000000 } : State).timeNs.toNat
    ∧ ({ kind := .read, waiter := .scalar 0, ctx := 0, ans := some 5 } : Req).answered = true
    ∧ ((4000 : W64) ≠ 0xFFFFFFFFFFFFFFFF) ∧ (S.reach 5 = false) ∧ (linkS .up).reach 3 = true
    ∧ ({ kind := .atom 0 .i64, waiter := .far 0, ctx := 0, acq := some 1 } : Req).acq ≠ none
    ∧ ({ kind := .read, waiter := .cmd 7, ctx := 0 } : Req).kind = .read ∧ (pktS (.sent 0)).sideOut (.xfer 7) = false
    ∧ (let s : State := { pktS (.sent 0) with host := { S.host with reqs := [(4, { kind := .write, waiter := .xfer 7, ctx := 0 })] } }; s.sideOut (.xfer 7) = true) := by
  and_intros <;> decide +kernel

/-- Links: INIT due, flits asked for again, a packet passing through, a packet with its slots, a single message on a link that is down with another way,
an absent device, a Valiant route. -/
def passS : State := { linkS .up with fabric := { (linkS .up).fabric with
  links := [(2, { phase := .up, through := [(4, (2, { num := 0, dst := 33, vc := 4, flits := 3, holds := some (2, 4) }))] }), (3, { phase := .up })]
  absent := [7], mids := [(1, [2])], routes := [(1, [31 * 256 + 2, 5]), (2, [6])] } }

/-- One link that takes packets is the one the hash picks. -/
theorem hashed_one (f : Fabric) (src dst : Nat) (o : Bool) (ls : List Nat) (l : Nat) (ho : f.open_ ls = [l])
    (hb : (ls.find? fun l => (f.link l).queue.any fun m => decide (m.src = src) && decide (m.dst = dst)) = none) :
    f.hashed src dst o ls = some l := by
  simp only [Fabric.hashed, hb, ho]
  simp [Nat.mod_one]

/-- Link 2 is down with a message, link 3 up. -/
def downLinks : SMap Link := [(2, { phase := .down, queue := [{ num := 0, dst := 34, vc := 4, flits := 2 }] }), (3, { phase := .up })]

theorem witness_Links :
    ({ initDue := true } : Link).initDue = true ∧ ({ resend := [(3, 1)] } : Link).resend ≠ [] ∧ ({} : Link).initDue = false ∧ ({} : Link).resend = []
    ∧ (passS.fabric.link 2).through.find 4 = some (2, { num := 0, dst := 33, vc := 4, flits := 3, holds := some (2, 4) }) ∧ (passS.fabric.link 3).through.find 4 = none
    ∧ (33 : Nat) ≠ passS.fabric.devid ∧ 7 ∈ passS.fabric.absent ∧ 3 ∉ passS.fabric.absent ∧ 3 / 32 = passS.fabric.devid / 32 ∧ 33 / 32 ≠ passS.fabric.devid / 32
    ∧ passS.fabric.between 1 = [2] ∧ (linkS .up).fabric.between 1 = [] ∧ (passS.fabric.toGroup 2).length = 1 ∧ [2][0 % [2].length]? = some 2
    ∧ passS.fabric.open_ (passS.fabric.toGroup 2) = [37] ∧ passS.fabric.open_ (passS.fabric.minimal 33) = [36]
    ∧ ([(5, 1), (6, 2)] : List (BitVec 16 × Nat)) = [(5, 1)] ++ (6, 2) :: [] ∧ (∀ z ∈ ([(5, 1)] : List (BitVec 16 × Nat)), z.1 ≠ 6)
    ∧ (let s := linkS .down
       SMap.sorted s.fabric.links = true ∧ (∀ p ∈ s.fabric.links, p.1 ≠ 2 → p.2.queue = []) ∧ (∀ p ∈ s.fabric.reqs, p.2.refusedAt = none)
       ∧ (s.fabric.link 2).queue = [{ num := 0, dst := 3, vc := 4, flits := 2 }] ∧ (s.fabric.link 2).phase = .down)
    ∧ 2 ∈ (linkS .up).fabric.ways { num := 0, dst := 3, vc := 4, flits := 2 }
    ∧ (let m : OutMsg := { num := 0, dst := 3, vc := 0, flits := 1, words := [2, 3] }
       m.words[0]? = some 2 ∧ m.words[1]? = some (BitVec.ofNat 64 3) ∧ ((pktS .unsent).fabric.reqs.find 3).isSome = true) := by
  and_intros <;> decide +kernel

theorem witness_Reroute :
    let s : State := { passS with fabric := { passS.fabric with localUp := [(3, true), (4, true)], links := downLinks, routes := [(1, [4 * 256 + 2])] } }
    let z : State := { s with fabric := { s.fabric with links := s.fabric.links.map fun p => (p.1, { p.2 with queue := [] }) } }
    z.fabric.next { num := 0, dst := 34, vc := 4, flits := 2 } = some 3 ∧ (z.fabric.link 3).phase ≠ .down
    ∧ passS.fabric.hashed 0 33 false (passS.fabric.minimal 33) = some 36 ∧ passS.fabric.hashed 0 33 false (passS.fabric.toGroup 2) = some 37 := by
  refine ⟨hashed_one _ _ _ _ _ _ ?_ ?_, ?_, hashed_one _ _ _ _ _ _ ?_ ?_, hashed_one _ _ _ _ _ _ ?_ ?_⟩ <;> decide +kernel

/-- Jobs: nothing to be written, an image to be written, all done, closed; its group's runs are over; a write of it is out. -/
theorem witness_Jobs :
    (let j : Job := { job0 with total := 100 }
     j.pend = [] ∧ j.closed = false ∧ ¬(j.chunks = [] ∧ (j.stopping = true ∨ j.total ≤ j.acked)) ∧ (chunkS .unsent).forkReady 0 0 = true)
    ∧ ¬((withGroup (chunkS .unsent) fun g => { g with runs := 1 }).forkReady 0 1 = true)
    ∧ (let j : Job := { job0 with acked := 1, failed := 1 }; (j.chunks = [] ∧ (j.stopping = true ∨ j.total ≤ j.acked)) ∧ j.wfail = none ∧ ¬(j.failed < j.total))
    ∧ (let j : Job := { job0 with closed := true, final := true }; j.closed = true ∧ j.final = true)
    ∧ (let j : Job := { job0 with pend := [job0.image] }; j.pend = job0.image :: [])
    ∧ (let s : State := { chunkS .unsent with host := { S.host with reqs := [(4, { kind := .write, waiter := .eland 2, ctx := 0 })] } }; s.sideOut (.eland 2) = true)
    ∧ (chunkS (.acked true)).sideOut (.eland 2) = false ∧ ((hostPage (chunkS .unsent)).writeBlock job0 (.eland 2) job0.image).1 = .wait
    ∧ (∃ p ∈ ((chunkS .unsent).group 0).jobs, p.2 = 2) ∧ ((0 : Nat) = (chunkS (.sent 0)).fabric.devid) := by
  and_intros <;> decide +kernel

/-- With no turn named, the placed stream's turn is the choice that goes on; a fetch that stalls; a privileged word in user mode. -/
theorem witness_DefaultTurn :
    (let s : State := { State.reset.withFetchWord 32 0x0851BFF4 with agenda := [] }
     s.agenda = [] ∧ (s.advance 5 12).choices ≠ [])
    ∧ isStret 0x0851BFF4 = false
    ∧ (match decodeScalar 0x04000000 with | .ok _ => true | _ => true) = true
    ∧ (let s := hostPage (State.reset.withFetchWord 32 0); (({ s with curGid := 0, curSlot := 0 } : State).fetchScalar 0).1 ≠ .ok 0) := by
  and_intros <;> decide +kernel

end Sys2Proof.Tests
end

section
/-! PROOFS. What reset leaves; power-on, readiness, the configuration record and attestation (chapter 21). -/

namespace Sys2Proof.Machine

/-- Settles O60: the tables and counters of the reset state are empty or zero. -/
theorem resetState : Obligations.ResetState := by
  unfold Obligations.ResetState
  exact ⟨by decide, by decide, by decide, by decide, rfl, fun _ => rfl, fun _ => rfl, fun _ _ => rfl, fun _ => rfl, fun _ => rfl,
    fun _ => rfl, rfl, rfl⟩

/-! ## Frames that firmware takes for itself -/

theorem Mem.frame_setFrame (m : Mem) (f g : Nat) (x : Frame) : (m.setFrame f x).frame g = if g = f then x else m.frame g :=
  SMap.get_put _ _ _ _ _

theorem Mem.frame_isInvalid_of_not_mem (m : Mem) {f : Nat} (h : f ∉ m.frames.map (·.1)) : (m.frame f).isInvalid = true := by
  have e : m.frames.find f = none := by
    generalize m.frames = t at h
    induction t with
    | nil => rfl
    | cons p t ih =>
      obtain ⟨hp, ht⟩ := not_or.1 (mt List.mem_cons.2 h)
      rw [SMap.find, if_neg hp, ih ht]
  simp [Mem.frame, SMap.get, e, Frame.isInvalid]

theorem length_insert_le {α : Type} (m : SMap α) (x : Nat) (v : α) : (m.insert x v).length ≤ m.length + 1 := by
  induction m with
  | nil => simp [SMap.insert]
  | cons p m ih =>
    simp only [SMap.insert]
    split
    · simp
    · split
      · simp
      · simpa using ih

theorem Mem.unusedFrom_lt (m : Mem) (n f : Nat) : m.unusedFrom n f < numFrames := by
  induction n generalizing f with
  | zero => exact Nat.mod_lt _ (by decide)
  | succ n ih =>
    rw [Mem.unusedFrom]
    split
    · exact Nat.mod_lt _ (by decide)
    · exact ih _

/-- The search passes over frames in use only. -/
theorem Mem.unusedFrom_passes (m : Mem) (n f : Nat) (h : (m.frame (m.unusedFrom n f)).isInvalid = false) {i : Nat} (hi : i ≤ n) :
    (m.frame ((f + i) % numFrames)).isInvalid = false := by
  induction n generalizing f i with
  | zero => obtain rfl : i = 0 := by omega
            exact h
  | succ n ih =>
    rw [Mem.unusedFrom] at h
    split at h
    · next hf => rw [hf] at h; cases h
    · next hf =>
      cases i with
      | zero => simpa using hf
      | succ i => rw [← ih (f + 1) h (i := i) (by omega)]; congr 3; omega

/-- While some device frame has no tag, the search finds one that holds nothing: more frames are tried than have a tag. -/
theorem Mem.unusedFrom_isInvalid (m : Mem) (f : Nat) (hlen : m.frames.length < numFrames) :
    (m.frame (m.unusedFrom m.frames.length f)).isInvalid = true := by
  by_contra h
  let tried := (List.range (m.frames.length + 1)).map fun i => (f + i) % numFrames
  have hsub : tried ⊆ m.frames.map (·.1) := by
    intro g hg
    obtain ⟨i, hi, rfl⟩ := List.mem_map.1 hg
    by_contra hn
    have := m.unusedFrom_passes _ f (by simpa using h) (Nat.lt_succ_iff.1 (List.mem_range.1 hi))
    rw [m.frame_isInvalid_of_not_mem hn] at this
    cases this
  have hnodup : tried.Nodup := by
    refine List.Nodup.map_on (fun i hi j hj e => ?_) List.nodup_range
    rw [List.mem_range] at hi hj
    rw [numFrames] at e hlen
    omega
  have := (List.subperm_of_subset hnodup hsub).length_le
  simp [tried] at this

/-- The tag of a frame that firmware has taken. -/
def Frame.taken : Frame := { valid := true, pinned := true, carved := true }

theorem State.tableFrame_snd (s : State) :
    s.tableFrame.2 = { s with free := s.free + 1, mem := s.mem.setFrame s.tableFrame.1 Frame.taken } := rfl

theorem State.tableFrame_fst_lt (s : State) : s.tableFrame.1 < numFrames := Mem.unusedFrom_lt _ _ _

theorem State.tableFrame_fst_isInvalid (s : State) (h : s.mem.frames.length < numFrames) :
    (s.mem.frame s.tableFrame.1).isInvalid = true := Mem.unusedFrom_isInvalid _ _ h

theorem State.carvePark_eq (s : State) (n : Nat) :
    s.carvePark n = { s with free := (s.carvePark n).free, mem := { s.mem with frames := (s.carvePark n).mem.frames } } := by
  induction n generalizing s with
  | zero => rfl
  | succ n ih => rw [State.carvePark, ih]; rfl

/-- The frames of a park area: as many as asked for, all carved, every other frame as before; while there are enough
frames without a tag, they are distinct and held nothing. -/
theorem State.carvePark_frames (s : State) (n : Nat) :
    ∃ fs : List Nat, fs.length = n ∧ (∀ f ∈ fs, (s.carvePark n).mem.frame f = Frame.taken)
      ∧ (∀ f, f ∉ fs → (s.carvePark n).mem.frame f = s.mem.frame f)
      ∧ (s.mem.frames.length + n < numFrames → fs.Nodup ∧ ∀ f ∈ fs, (s.mem.frame f).isInvalid = true) := by
  induction n generalizing s with
  | zero => exact ⟨[], rfl, by simp, fun _ _ => rfl, by simp⟩
  | succ n ih =>
    obtain ⟨fs, hlen, hin, hout, hnew⟩ := ih s.tableFrame.2
    have hfr (g) : s.tableFrame.2.mem.frame g = if g = s.tableFrame.1 then Frame.taken else s.mem.frame g := by
      rw [s.tableFrame_snd]; exact Mem.frame_setFrame _ _ _ _
    have hcount : s.tableFrame.2.mem.frames.length ≤ s.mem.frames.length + 1 := length_insert_le _ _ _
    refine ⟨s.tableFrame.1 :: fs, by simp [hlen], fun f hf => ?_, fun f hf => ?_, fun hroom => ?_⟩
    · by_cases hfs : f ∈ fs
      · exact hin f hfs
      · obtain rfl : f = s.tableFrame.1 := by simpa [hfs] using hf
        rw [State.carvePark, hout _ hfs, hfr, if_pos rfl]
    · obtain ⟨hne, hfs⟩ := not_or.1 (mt List.mem_cons.2 hf)
      rw [State.carvePark, hout f hfs, hfr, if_neg hne]
    · obtain ⟨hnodup, hinv⟩ := hnew (by omega)
      have hfree := s.tableFrame_fst_isInvalid (by omega)
      have hnot : s.tableFrame.1 ∉ fs := fun h => by
        have := hinv _ h
        rw [hfr, if_pos rfl] at this
        cases this
      refine ⟨List.nodup_cons.2 ⟨hnot, hnodup⟩, fun f hf => ?_⟩
      rcases List.mem_cons.1 hf with rfl | hfs
      · exact hfree
      · have := hinv f hfs
        rwa [hfr, if_neg (by rintro rfl; exact hnot hfs)] at this

/-! ## The system root table (R71) -/

theorem Mem.loss_frames (m : Mem) (k : Nat) (o : Option Nat) : (m.loss k o).frames = m.frames := by
  unfold Mem.loss
  split
  · rfl
  · dsimp only; split <;> rfl

theorem foldl_frames {α : Type} (f : Mem → α → Mem) (hf : ∀ m a, (f m a).frames = m.frames) (l : List α) (m : Mem) :
    (l.foldl f m).frames = m.frames := by
  induction l generalizing m with
  | nil => rfl
  | cons a l ih => rw [List.foldl_cons, ih, hf]

theorem Mem.zeroPage_frames (m : Mem) (a : Nat) : (m.zeroPage a).frames = m.frames :=
  foldl_frames _ (fun m _ => m.loss_frames _ _) _ _

theorem Mem.setHbmLine_frames (m : Mem) (a key : Nat) (d : BitVec 1024) : (m.setHbmLine a key d).frames = m.frames := rfl

theorem foldl_setHbmLine_frames (a : Nat → Nat) (d : Nat → BitVec 1024) (l : List Nat) (m : Mem) :
    (l.foldl (fun m j => m.setHbmLine (a j) 0 (d j)) m).frames = m.frames :=
  foldl_frames (fun m j => m.setHbmLine (a j) 0 (d j)) (fun _ _ => rfl) l m

theorem State.sysRoot_of_some (s : State) (h : s.contexts.find sysCtx ≠ none) : s.sysRoot = s := by
  rw [State.sysRoot, if_pos (Option.isSome_iff_ne_none.2 h)]

theorem State.sysRoot_eq (s : State) : s.sysRoot = { s with mem := s.sysRoot.mem, contexts := s.sysRoot.contexts, free := s.sysRoot.free } := by
  unfold State.sysRoot
  split <;> rfl

theorem State.sysRoot_contexts (s : State) (h : s.contexts.find sysCtx = none) :
    s.sysRoot.contexts = s.contexts.insert sysCtx { root := BitVec.ofNat 64 (s.tableFrame.1 * 65536) } := by
  rw [State.sysRoot, if_neg (by simp [h])]; rfl

theorem State.sysRoot_frame (s : State) (h : s.contexts.find sysCtx = none) : s.sysRoot.mem.frame s.tableFrame.1 = Frame.taken := by
  have e : s.sysRoot.mem.frames = s.tableFrame.2.mem.frames := by
    rw [State.sysRoot, if_neg (by simp [h])]
    dsimp only
    simp only [foldl_setHbmLine_frames, Mem.setHbmLine_frames, Mem.zeroPage_frames]
  rw [Mem.frame, e, s.tableFrame_snd]
  exact (Mem.frame_setFrame _ _ _ _).trans (if_pos rfl)

/-! ## The READY bits (R425, R426) -/

/-- What a READY bit needs, as the manual's table has it. -/
theorem readyNeeds_iff (x : BitVec 21) (b : Nat) : readyNeeds x b = true ↔
    b ≠ 3 ∧ (b = 16 → x.getLsbD 3 = true ∧ (x.getLsbD 4 = true ∨ x.getLsbD 5 = true ∨ x.getLsbD 6 = true ∨ x.getLsbD 7 = true))
      ∧ (b = 17 ∨ b = 18 ∨ b = 20 → x.getLsbD 3 = true) ∧ (b = 19 → x.getLsbD 18 = true) := by
  unfold readyNeeds
  split
  case h_7 h3 h16 h17 h18 h20 h19 => exact iff_of_true rfl ⟨h3, (absurd · h16), by rintro (h | h | h) <;> contradiction, (absurd · h19)⟩
  all_goals simp [or_assoc]

theorem getLsbD_or_shiftLeft (x : BitVec 21) (b i : Nat) (hi : i < 21) :
    (x ||| (1#21 <<< b)).getLsbD i = (x.getLsbD i || decide (i = b)) := by
  have : (1#21 <<< b).getLsbD i = decide (i = b) := by
    rw [BitVec.getLsbD_shiftLeft, BitVec.getLsbD_one, Bool.eq_iff_iff]
    simp only [Bool.and_eq_true, Bool.not_eq_true', decide_eq_true_eq, decide_eq_false_iff_not]
    omega
  rw [BitVec.getLsbD_or, this]

theorem getLsbD_and_not_shiftLeft (x : BitVec 21) (b i : Nat) (hi : i < 21) :
    (x &&& ~~~(1#21 <<< b)).getLsbD i = (x.getLsbD i && decide (i ≠ b)) := by
  have := getLsbD_or_shiftLeft 0#21 b i hi
  rw [BitVec.zero_or, BitVec.getLsbD_zero, Bool.false_or] at this
  rw [BitVec.getLsbD_and, BitVec.getLsbD_not, this, decide_not]
  simp [hi]

/-! ## The configuration record (R428) -/

theorem State.cfgOk_iff (s : State) (r : CfgRec) : s.cfgOk r = true ↔
    Config.verify Config.rootDigest r.chain r.chainSig = true ∧ Config.verify (Config.sha3 r.chain) r.raw r.sig = true ∧ r.devKey = s.boot.idKey
      ∧ r.devid < 2 ^ 18 ∧ r.park ≤ 65536 ∧ 500 ≤ r.power ∧ r.power ≤ 2000 ∧ r.tokens.length = 4 ∧ (∀ n ∈ r.tokens, 1 ≤ n ∧ n ≤ 9)
      ∧ (∀ p ∈ r.repair, p.1 < 288 ∧ p.2 < 288) ∧ ∀ c ∈ r.failed, c < 288 := by
  simp only [State.cfgOk, cfgInRange, Bool.and_eq_true, decide_eq_true_eq, List.all_eq_true, and_assoc]

/-- A machine with a list of changes to cores made, each to the core that `k` names. -/
def State.modCores {α : Type} (s : State) (l : List α) (k : α → Nat) (f : α → Core → Core) : State :=
  l.foldl (fun s a => s.modCore (k a) (f a)) s

theorem State.modCores_eq {α : Type} (s : State) (l : List α) (k : α → Nat) (f : α → Core → Core) :
    s.modCores l k f = { s with cores := (s.modCores l k f).cores } := by
  induction l generalizing s with
  | nil => rfl
  | cons a l ih => rw [State.modCores, List.foldl_cons, ← State.modCores, ih]; rfl

/-- A core takes the changes that name it, in their order. -/
theorem State.core_modCores {α : Type} (s : State) (l : List α) (k : α → Nat) (f : α → Core → Core) (c : Nat) :
    (s.modCores l k f).core c = (l.filter fun a => decide (k a = c)).foldl (fun x a => f a x) (s.core c) := by
  induction l generalizing s with
  | nil => rfl
  | cons a l ih =>
    rw [State.modCores, List.foldl_cons, ← State.modCores, ih, State.modCore, State.core_setCore]
    by_cases h : k a = c
    · simp [h]
    · simp [h, Ne.symm h]

/-- A core fails. -/
def Core.fail (x : Core) : Core := { x with failed := true }
/-- A physical core serves a core index. -/
def Core.servedBy (p : Nat) (x : Core) : Core := { x with phys := some p }

theorem foldl_fail {α : Type} (l : List α) (x : Core) :
    l.foldl (fun x _ => x.fail) x = { x with failed := x.failed || !l.isEmpty } := by
  induction l generalizing x with
  | nil => simp
  | cons a l ih => rw [List.foldl_cons, ih]; simp [Core.fail]

theorem foldl_servedBy (l : List (Nat × Nat)) (x : Core) :
    l.foldl (fun x p => x.servedBy p.2) x = { x with phys := (l.getLast?.map (·.2)).or x.phys } := by
  induction l generalizing x with
  | nil => rfl
  | cons a l ih => rw [List.foldl_cons, ih, List.getLast?_cons]; cases l.getLast? <;> rfl

/-- Every die's ring takes the token count set for it, from a die on. -/
def State.setRings (s : State) (l : List Nat) : State :=
  l.zipIdx.foldl (fun s p => { s with rings := s.rings.insert p.2 ((s.rings.get {} p.2).setCount p.1 s.cycle) }) s

theorem State.setRings_eq (s : State) (l : List Nat) : s.setRings l = { s with rings := (s.setRings l).rings } := by
  unfold State.setRings
  generalize l.zipIdx = z
  induction z generalizing s with
  | nil => rfl
  | cons p z ih => rw [List.foldl_cons, ih]

theorem State.setRings_count (s : State) (l : List Nat) (hl : l.length = 4) (hn : ∀ n ∈ l, 1 ≤ n ∧ n ≤ 9) (d : Nat) (hd : d < 4) :
    (SMap.get ({} : Ring) (s.setRings l).rings d).count = l.getD d 0 := by
  have clip (n : Nat) (h : n ∈ l) : max 1 (min n 9) = n := by have := hn n h; omega
  match l, hl with
  | [a, b, c, e], _ =>
    simp only [List.forall_mem_cons] at clip
    obtain ⟨ha, hb, hc, he, -⟩ := clip
    match d, hd with
    | 0, _ | 1, _ | 2, _ | 3, _ => simp [State.setRings, SMap.get, SMap.find_insert, Ring.setCount, ha, hb, hc, he]

/-- What a record that is accepted sets at once; its park area, cores and rings follow. -/
def State.configured (s : State) (r : CfgRec) : State :=
  { s with
    boot := { s.boot with ready := s.boot.ready ||| 8#21, meas1 := Config.sha3 r.raw, operKey := r.operator, cert := r.cert, powerLimit := r.power },
    fabric := { s.fabric with devid := r.devid, linkMap := r.linkMap.foldl (fun (m : SMap Nat) p => m.insert p.1 p.2) [] },
    host := { s.host with parkFrames := r.park } }

/-- The cores as a record's repair map and its list of failed cores leave them. -/
def State.repaired (s : State) (r : CfgRec) : State :=
  (s.modCores r.repair (·.1) fun p => Core.servedBy p.2).modCores r.failed id fun _ => Core.fail

theorem execConfigRecord_accepted (s : State) (r : CfgRec) (hready : s.boot.ready.getLsbD 3 = false) (hok : s.cfgOk r = true) :
    exec (.configRecord r) s = .next ((((s.configured r).carvePark r.park).repaired r).setRings r.tokens) := by
  change execConfigRecord r s = _
  rw [execConfigRecord, if_neg (by rw [hready, hok]; decide)]
  rfl

theorem execConfigRecord_refused (s : State) (r : CfgRec) (h : s.boot.ready.getLsbD 3 = true ∨ ¬s.cfgOk r = true) :
    exec (.configRecord r) s = .next s := by
  change execConfigRecord r s = _
  rw [execConfigRecord, if_pos (by simpa [-BitVec.getLsbD_eq_getElem] using h)]

theorem State.repaired_core (s : State) (r : CfgRec) (c : Nat) :
    (s.repaired r).core c = { s.core c with
      phys := (((r.repair.filter fun p => decide (p.1 = c)).getLast?).map (·.2)).or (s.core c).phys,
      failed := (s.core c).failed || decide (c ∈ r.failed) } := by
  rw [State.repaired, State.core_modCores, State.core_modCores, foldl_fail, foldl_servedBy]
  have hin : (!(r.failed.filter fun a => decide (id a = c)).isEmpty) = decide (c ∈ r.failed) := by
    rw [Bool.eq_iff_iff]; simp
  rw [hin]

/-! ## The clauses of power-on, readiness, configuration and attestation -/

theorem powerOnReset_next (s : State) :
    ∃ u : State, exec .powerOnReset s = .next u ∧ u = { State.reset with agenda := s.agenda, free := u.free, mem := u.mem, boot := u.boot }
      ∧ u.mem = { pool := s.mem.pool, poolKey := s.mem.poolKey, keys := u.mem.keys } ∧ (u.mem.keys.find 0).isSome ∧ (∀ k, k ≠ 0 → u.mem.keys.find k = none)
      ∧ u.boot = { on := true, bootid := u.boot.bootid, idKey := u.boot.idKey, meas0 := Config.romDigest } :=
  ⟨_, rfl, rfl, rfl, rfl, fun _ hk => SMap.find_insert_ne [] _ hk, rfl⟩

/-- What a READY bit needs to be set now (R425, R426). -/
def mayBeReady (x : BitVec 21) (b : Nat) : Prop :=
  x.getLsbD b = false ∧ b ≠ 3 ∧ (b = 16 → x.getLsbD 3 = true ∧ (x.getLsbD 4 = true ∨ x.getLsbD 5 = true ∨ x.getLsbD 6 = true ∨ x.getLsbD 7 = true))
    ∧ (b = 17 ∨ b = 18 ∨ b = 20 → x.getLsbD 3 = true) ∧ (b = 19 → x.getLsbD 18 = true)

theorem mayBeReady_iff (x : BitVec 21) (b : Nat) : mayBeReady x b ↔ ¬(x.getLsbD b || !readyNeeds x b) = true := by
  rw [mayBeReady, ← readyNeeds_iff, Bool.or_eq_true, not_or, Bool.not_eq_true, Bool.not_eq_true', Bool.not_eq_false]

/-- The machine with a READY bit set. -/
def State.withReady (s : State) (b : Fin 21) : State := { s with boot := { s.boot with ready := s.boot.ready ||| (1#21 <<< b.val) } }

theorem readyBitSet_refused (s : State) (b : Fin 21) (h : ¬mayBeReady s.boot.ready b) : exec (.readyBitSet b) s = .next s :=
  if_pos (not_not.1 (mt (mayBeReady_iff _ _).2 h))

theorem readyBitSet_accepted (s : State) (b : Fin 21) (h : mayBeReady s.boot.ready b) :
    exec (.readyBitSet b) s = .next (if b.val = 0 then { s.withReady b with host := { s.host with lastBeat := s.timeNs } }
      else if 4 ≤ b.val ∧ b.val < 8 then (s.withReady b).sysRoot else s.withReady b) :=
  if_neg ((mayBeReady_iff _ _).1 h)

theorem readyBitSet_next (s : State) (b : Fin 21) (h : mayBeReady s.boot.ready b) :
    let first := 4 ≤ b.val ∧ b.val < 8 ∧ s.contexts.find sysCtx = none
    ∃ u : State, exec (.readyBitSet b) s = .next u
      ∧ u = { s with boot := { s.boot with ready := u.boot.ready }, host := u.host, mem := u.mem, contexts := u.contexts, free := u.free }
      ∧ (∀ i, i < 21 → u.boot.ready.getLsbD i = (s.boot.ready.getLsbD i || decide (i = b.val)))
      ∧ (u.host = if b.val = 0 then { s.host with lastBeat := s.timeNs } else s.host)
      ∧ (¬first → u.mem = s.mem ∧ u.contexts = s.contexts ∧ u.free = s.free)
      ∧ (first → (∀ c, c ≠ sysCtx → u.contexts.find c = s.contexts.find c)
        ∧ ∃ f, f < numFrames ∧ (u.context sysCtx).root = BitVec.ofNat 64 (65536 * f) ∧ u.mem.frame f = { valid := true, pinned := true, carved := true }) := by
  intro first
  have hbits := getLsbD_or_shiftLeft s.boot.ready b.val
  have hexec := readyBitSet_accepted s b h
  by_cases h0 : b.val = 0
  · have hfirst : ¬first := fun hf => by obtain ⟨h4, -⟩ := hf; omega
    rw [if_pos h0] at hexec ⊢
    exact ⟨_, hexec, rfl, hbits, rfl, fun _ => ⟨rfl, rfl, rfl⟩, fun hf => absurd hf hfirst⟩
  · rw [if_neg h0] at hexec ⊢
    by_cases hfirst : first
    · obtain ⟨h4, h8, hroot⟩ := hfirst
      change (s.withReady b).contexts.find sysCtx = none at hroot
      have hsys := (s.withReady b).sysRoot_eq
      have hctx := State.sysRoot_contexts _ hroot
      rw [if_pos ⟨h4, h8⟩] at hexec
      refine ⟨_, hexec, hsys.trans (by rw [hsys]; rfl), by rw [hsys]; exact hbits, by rw [hsys]; rfl, fun hf => absurd ⟨h4, h8, hroot⟩ hf,
        fun _ => ⟨fun c hc => ?_, (s.withReady b).tableFrame.1, State.tableFrame_fst_lt _, ?_, State.sysRoot_frame _ hroot⟩⟩
      · rw [hctx]; exact SMap.find_insert_ne _ _ hc
      · rw [State.context, hctx, SMap.get_insert_self, Nat.mul_comm]
    · have hexec : exec (.readyBitSet b) s = .next (s.withReady b) := by
        rw [hexec]
        split
        · next hdie => rw [State.sysRoot_of_some (s.withReady b) fun hroot => hfirst ⟨hdie.1, hdie.2, hroot⟩]
        · rfl
      exact ⟨_, hexec, rfl, hbits, rfl, fun _ => ⟨rfl, rfl, rfl⟩, fun hf => absurd hf hfirst⟩

theorem hbmStackFailure_unit (s : State) (b : Fin 21) (h : 4 ≤ b.val ∧ b.val < 16) :
    ∃ u : State, exec (.hbmStackFailure b) s = .next u ∧ u = { s with boot := { s.boot with ready := u.boot.ready } }
      ∧ ∀ i, i < 21 → u.boot.ready.getLsbD i = (s.boot.ready.getLsbD i && decide (i ≠ b.val)) := by
  refine ⟨_, congrArg Host.Outcome.next (if_pos h), rfl, ?_⟩
  exact getLsbD_and_not_shiftLeft s.boot.ready b.val

theorem hbmStackFailure_other (s : State) (b : Fin 21) (h : ¬(4 ≤ b.val ∧ b.val < 16)) : exec (.hbmStackFailure b) s = .next s :=
  congrArg Host.Outcome.next (if_neg h)

theorem unusedFeatureMessage_next (s : State) (die : Fin 2) :
    ∃ u : State, exec (.unusedFeatureMessage die) s = .next u ∧ u = { s with mem := { s.mem with poolErr := u.mem.poolErr } }
      ∧ ∀ d, SMap.get 0 u.mem.poolErr d = SMap.get 0 s.mem.poolErr d + if d = die.val then 1 else 0 := by
  refine ⟨_, rfl, rfl, fun d => ?_⟩
  refine (SMap.get_put 0 s.mem.poolErr die.val d (s.mem.poolErr.get 0 die.val + 1)).trans ?_
  by_cases h : d = die.val
  · rw [if_pos h, if_pos h, h]
  · rw [if_neg h, if_neg h]; exact (BitVec.add_zero _).symm

theorem configRecord_next (s : State) (r : CfgRec) (hready : s.boot.ready.getLsbD 3 = false) (hok : s.cfgOk r = true) :
    ∃ u : State, exec (.configRecord r) s = .next u
      ∧ u = { s with boot := { s.boot with ready := s.boot.ready ||| 8, meas1 := Config.sha3 r.raw, operKey := r.operator, cert := r.cert, powerLimit := r.power },
                     fabric := { s.fabric with devid := r.devid, linkMap := u.fabric.linkMap }, host := { s.host with parkFrames := r.park },
                     cores := u.cores, rings := u.rings, mem := { s.mem with frames := u.mem.frames }, free := u.free }
      ∧ (∃ fs : List Nat, fs.length = r.park ∧ (∀ f ∈ fs, u.mem.frame f = { valid := true, pinned := true, carved := true })
        ∧ (∀ f, f ∉ fs → u.mem.frame f = s.mem.frame f)
        ∧ (s.mem.frames.length + r.park < numFrames → fs.Nodup ∧ ∀ f ∈ fs, (s.mem.frame f).isInvalid = true))
      ∧ (∀ c, c ∈ r.failed → (u.core c).failed = true) ∧ (∀ c, c ∉ r.failed → (u.core c).failed = (s.core c).failed)
      ∧ (∀ c p, (c, p) ∈ r.repair → (∀ q, (c, q) ∈ r.repair → q = p) → (u.core c).phys = some p)
      ∧ (∀ c, (∀ p, (c, p) ∉ r.repair) → (u.core c).phys = (s.core c).phys)
      ∧ ∀ d, d < 4 → (SMap.get ({} : Ring) u.rings d).count = r.tokens.getD d 0 := by
  obtain ⟨-, -, -, -, -, -, -, hlen, htok, -, -⟩ := (s.cfgOk_iff r).1 hok
  let parked := (s.configured r).carvePark r.park
  let cored := parked.repaired r
  refine ⟨_, execConfigRecord_accepted s r hready hok, ?_⟩
  have hpark : parked = { s.configured r with free := parked.free, mem := { s.mem with frames := parked.mem.frames } } := State.carvePark_eq _ _
  have hcored : cored = { parked with cores := cored.cores } := by
    simp only [cored, State.repaired]
    rw [State.modCores_eq, State.modCores_eq parked]
  have hring := State.setRings_eq cored r.tokens
  have hmem : (cored.setRings r.tokens).mem = parked.mem := by rw [hring, hcored]
  have hcore (c : Nat) : (cored.setRings r.tokens).core c = { s.core c with
      phys := (((r.repair.filter fun p => decide (p.1 = c)).getLast?).map (·.2)).or (s.core c).phys,
      failed := (s.core c).failed || decide (c ∈ r.failed) } := by
    have e : parked.core c = s.core c := by rw [hpark]; rfl
    rw [hring, ← e]
    exact parked.repaired_core r c
  refine ⟨?_, ?_, fun c hc => ?_, fun c hc => ?_, fun c p hp hone => ?_, fun c hnone => ?_, State.setRings_count cored r.tokens hlen htok⟩
  · rw [hring, hcored, hpark]; rfl
  · rw [hmem]; exact (s.configured r).carvePark_frames r.park
  · exact (congrArg Core.failed (hcore c)).trans (by simp [hc])
  · exact (congrArg Core.failed (hcore c)).trans (by simp [hc])
  · refine (congrArg Core.phys (hcore c)).trans ?_
    cases hlast : (r.repair.filter fun p => decide (p.1 = c)).getLast? with
    | none => exact absurd (List.getLast?_eq_none_iff.1 hlast) (List.ne_nil_of_mem (List.mem_filter.2 ⟨hp, by simp⟩))
    | some q =>
      obtain ⟨hmem, hq⟩ := List.mem_filter.1 (List.mem_of_getLast? hlast)
      obtain ⟨c', q⟩ := q
      obtain rfl : c' = c := by simpa using hq
      simp [hone q hmem]
  · have : (r.repair.filter fun p => decide (p.1 = c)) = [] := by
      rw [List.filter_eq_nil_iff]
      rintro ⟨c', q⟩ hq hc
      obtain rfl : c' = c := by simpa using hc
      exact hnone q hq
    exact (congrArg Core.phys (hcore c)).trans (by rw [this]; rfl)

section
variable (s : State) (f : State → State)

theorem State.spdm_of_not_ready (ok : Bool) (h : ¬s.boot.ready.getLsbD 2 = true) : s.spdm ok f = .next s := if_pos (by simpa [-BitVec.getLsbD_eq_getElem] using h)

theorem State.spdm_of_ready (ok : Bool) (h : s.boot.ready.getLsbD 2 = true) :
    s.spdm ok f = .next (if ok then f s else s.spdmSend 0x7F []) := by
  rw [State.spdm, if_neg (by rw [h]; decide)]
  cases ok <;> rfl

end

/-- What the statement on SPDM says a request does: it is answered with a code and words, and leaves the responder as `y`. -/
def SpdmSends (s : State) (e : Instr) (y : Spdm) (code : Nat) (ws : List W64) : Prop :=
  exec e s = .next { s with boot := { s.boot with spdm := { y with sent := s.boot.spdm.sent ++ [(code, ws)] } } }

theorem exec_getVersion (s : State) : exec .getVersion s = execGetVersion s := rfl
theorem exec_getCapabilities (s : State) : exec .getCapabilities s = execGetCapabilities s := rfl
theorem exec_getDigests (s : State) : exec .getDigests s = execGetDigests s := rfl
theorem exec_getCertificate (s : State) : exec .getCertificate s = execGetCertificate s := rfl
theorem exec_challenge (s : State) (b : List Byte) : exec (.challenge b) s = execChallenge b s := rfl
theorem exec_getMeasurements (s : State) (i : Nat) (b : List Byte) : exec (.getMeasurements i b) s = execGetMeasurements i b s := rfl

/-- No request is answered before the responder is ready. -/
theorem spdm_refused {s : State} {e : Instr} {ok : Bool} {f : State → State} (he : exec e s = s.spdm ok f)
    (h : ¬s.boot.ready.getLsbD 2 = true) : exec e s = .next s := he.trans (s.spdm_of_not_ready f ok h)

/-- A request that misses what it needs is answered with an error. -/
theorem spdmSends_error {s : State} {e : Instr} {ok : Bool} {f : State → State} (he : exec e s = s.spdm ok f)
    (hready : s.boot.ready.getLsbD 2 = true) (hok : ok = false) : SpdmSends s e s.boot.spdm 0x7F [] := by
  rw [SpdmSends, he, s.spdm_of_ready f ok hready, hok]; rfl

/-- A request that has what it needs is answered as its function says. -/
theorem exec_spdm_answer {s : State} {e : Instr} {ok : Bool} {f : State → State} (he : exec e s = s.spdm ok f)
    (hready : s.boot.ready.getLsbD 2 = true) (hok : ok = true) : exec e s = .next (f s) := by
  rw [he, s.spdm_of_ready f ok hready, if_pos hok]

theorem negotiateAlgorithms_supported (s : State) (hcaps : s.boot.spdm.caps = true) (hfailed : s.boot.spdm.failed = false) :
    exec (.negotiateAlgorithms true true false) s
      = s.spdm true fun s => (s.modSpdm fun x => { x with algos := true }).spdmSend 0x63 [] :=
  if_pos (by rw [hcaps, hfailed]; rfl)

theorem negotiateAlgorithms_other (s : State) (a b c : Bool) (h : ¬(a = true ∧ b = true ∧ c = false)) :
    exec (.negotiateAlgorithms a b c) s
      = s.spdm true fun s => (s.modSpdm fun x => { x with failed := true, algos := false }).spdmSend 0x7F [] := by
  refine if_neg fun hok => h ?_
  simp only [Bool.and_eq_true, Bool.not_eq_true'] at hok
  obtain ⟨⟨⟨-, ha⟩, hb⟩, hc⟩ := hok
  exact ⟨ha, hb, hc⟩

theorem negotiateAlgorithms_not_ready (s : State) (a b c : Bool) (h : ¬s.boot.ready.getLsbD 2 = true) :
    exec (.negotiateAlgorithms a b c) s = .next s := by
  change execNegotiateAlgorithms a b c s = _
  unfold execNegotiateAlgorithms
  split <;> exact s.spdm_of_not_ready _ _ h

/-- Settles O49: power-on, READY, the configuration record and the SPDM responder, each by the lemmas on its event. -/
theorem bootAndAttestation : Obligations.BootAndAttestation := by
  unfold Obligations.BootAndAttestation
  intro s
  refine ⟨powerOnReset_next s, fun b => ⟨readyBitSet_refused s b, readyBitSet_next s b, hbmStackFailure_unit s b, hbmStackFailure_other s b⟩,
    unusedFeatureMessage_next s, fun r => ?_, ?_⟩
  · rw [← State.cfgOk_iff]
    exact ⟨execConfigRecord_refused s r, configRecord_next s r⟩
  · intro x sends signed ready all
    refine ⟨fun h => ⟨?_, fun a b c => negotiateAlgorithms_not_ready s a b c h, fun b => ?_, fun i b => ?_⟩, fun h => ⟨?_, ?_, ?_, ?_, ?_, ?_⟩⟩
    · simp only [all, List.forall_mem_cons]
      exact ⟨spdm_refused (exec_getVersion s) h, spdm_refused (exec_getCapabilities s) h,
        spdm_refused (exec_getDigests s) h, spdm_refused (exec_getCertificate s) h, List.forall_mem_nil _⟩
    · exact spdm_refused (exec_challenge s b) h
    · exact spdm_refused (exec_getMeasurements s i b) h
    · exact exec_spdm_answer (exec_getVersion s) h rfl
    · exact fun hv => exec_spdm_answer (exec_getCapabilities s) h hv
    · exact fun hc hf => exec_spdm_answer (negotiateAlgorithms_supported s hc hf) h rfl
    · exact fun a b c hn => exec_spdm_answer (negotiateAlgorithms_other s a b c hn) h rfl
    · intro ha
      have hidx (i : Nat) (hi : i < 2) : (s.boot.spdm.algos && decide (i < 2)) = true := by simpa [hi] using ha
      refine ⟨exec_spdm_answer (exec_getDigests s) h ha, exec_spdm_answer (exec_getCertificate s) h ha,
        fun b => exec_spdm_answer (exec_challenge s b) h ha,
        fun b => ⟨exec_spdm_answer (exec_getMeasurements s 0 b) h (hidx 0 (by decide)),
          exec_spdm_answer (exec_getMeasurements s 1 b) h (hidx 1 (by decide))⟩, fun i b hi => ?_⟩
      exact spdmSends_error (exec_getMeasurements s i b) h (by simp [Nat.not_lt.2 hi])
    · intro ha
      refine ⟨spdmSends_error (exec_getDigests s) h ha, spdmSends_error (exec_getCertificate s) h ha,
        fun b => spdmSends_error (exec_challenge s b) h ha, fun i b => ?_⟩
      exact spdmSends_error (exec_getMeasurements s i b) h (by rw [show s.boot.spdm.algos = false from ha]; rfl)

end Sys2Proof.Machine
end

section
/-! PROOFS. Where teams and their groups are placed, and the machine at their start (chapter 18). -/

namespace Sys2Proof.Machine

/-! ## The first of a range -/

/-- A search of 0, 1, … finds the answer of the first number that has one. -/
theorem findSome?_range_eq_some_iff {α : Type} {n : Nat} {f : Nat → Option α} {a : α} :
    (List.range n).findSome? f = some a ↔ ∃ i, i < n ∧ f i = some a ∧ ∀ j, j < i → f j = none := by
  induction n with
  | zero => simp
  | succ n ih =>
    rw [List.range_succ, List.findSome?_append, Option.or_eq_some_iff, ih, List.findSome?_eq_none_iff]
    simp only [List.mem_range, List.findSome?_singleton]
    constructor
    · rintro (⟨i, hi, h⟩ | ⟨hnone, h⟩)
      · exact ⟨i, by omega, h⟩
      · exact ⟨n, by omega, h, hnone⟩
    · rintro ⟨i, hi, h, hnone⟩
      rcases Nat.lt_succ_iff_lt_or_eq.1 hi with hlt | rfl
      · exact .inl ⟨i, hlt, h, hnone⟩
      · exact .inr ⟨hnone, h⟩

theorem mem_of_find {α : Type} {m : SMap α} {i : Nat} {x : α} (h : m.find i = some x) : (i, x) ∈ m := by
  induction m with
  | nil => cases h
  | cons p m ih =>
    rw [SMap.find] at h
    split at h
    · next hi =>
      obtain rfl : p.2 = x := by simpa using h
      exact hi ▸ List.mem_cons_self ..
    · exact List.mem_cons_of_mem _ (ih h)

/-- In a table with rising keys a search finds the match with the least key. -/
theorem find?_of_least {α : Type} {m : SMap α} {P : Nat × α → Bool} {i : Nat} {x : α} (hs : SMap.sorted m = true)
    (hx : m.find i = some x) (hP : P (i, x) = true) (hleast : ∀ p ∈ m, P p = true → i ≤ p.1) : m.find? P = some (i, x) := by
  induction m with
  | nil => cases hx
  | cons p m ih =>
    obtain ⟨k, w⟩ := p
    obtain ⟨habove, hs'⟩ := SMap.sorted_cons.1 hs
    rw [SMap.find] at hx
    by_cases hik : i = k
    · subst hik
      obtain rfl : w = x := by simpa using hx
      exact List.find?_cons_of_pos hP
    · rw [if_neg hik] at hx
      have hlt : k < i := habove _ (mem_of_find hx)
      have hnot : ¬P (k, w) = true := fun h => by
        have := hleast _ (List.mem_cons_self ..) h
        omega
      rw [List.find?_cons_of_neg hnot]
      exact ih hs' hx fun p hp => hleast p (List.mem_cons_of_mem _ hp)

/-! ## Slots and blocks of a lane pair (R361 to R363) -/

theorem freeSlot_eq_some_iff {used : List Nat} {first sl : Nat} : freeSlot used first = some sl ↔
    first ≤ sl ∧ sl < first + 8 ∧ sl ∉ used ∧ ∀ j, first ≤ j → j < sl → j ∈ used := by
  rw [freeSlot, List.find?_map, Option.map_eq_some_iff]
  simp only [List.find?_range_eq_some, Function.comp_apply, Bool.not_eq_true', List.contains_iff_mem, List.mem_range, Bool.not_not,
    ← Bool.not_eq_true]
  constructor
  · rintro ⟨a, ⟨hfree, ha, hbelow⟩, rfl⟩
    refine ⟨by omega, by omega, hfree, fun j hj hlt => ?_⟩
    have := hbelow (j - first) (by omega)
    rwa [show first + (j - first) = j by omega] at this
  · rintro ⟨hle, hlt, hfree, hbelow⟩
    refine ⟨sl - first, ⟨?_, by omega, fun j hj => hbelow _ (by omega) (by omega)⟩, by omega⟩
    rwa [show first + (sl - first) = sl by omega]

theorem freeSlot_eq_none_iff {used : List Nat} {first : Nat} : freeSlot used first = none ↔ ∀ j, first ≤ j → j < first + 8 → j ∈ used := by
  rw [freeSlot, List.find?_eq_none]
  simp only [List.mem_map, List.mem_range, forall_exists_index, and_imp, Bool.not_eq_true', List.contains_iff_mem, Bool.not_eq_false]
  constructor
  · intro h j hj hlt
    have := h j (j - first) (by omega) (by omega)
    simpa using this
  · rintro h _ i hi rfl
    simpa using h (first + i) (by omega) (by omega)

/-- r granules from g on are free. -/
def BlockFree (used : List Nat) (r g : Nat) : Prop := g + r ≤ 24 ∧ ∀ i, i < r → g + i ∉ used

theorem blockFree_iff {used : List Nat} {r a : Nat} (ha : a < 25 - r) :
    ((List.range r).all fun i => !used.contains (a + i)) = true ↔ BlockFree used r a := by
  simp only [BlockFree, List.all_eq_true, List.mem_range, Bool.not_eq_true', ← Bool.not_eq_true, List.contains_iff_mem]
  exact ⟨fun h => ⟨by omega, h⟩, fun h => h.2⟩

theorem BlockFree.lt {used : List Nat} {r g : Nat} (h : BlockFree used r g) : g < 25 - r := by have := h.1; omega

theorem firstFit_eq_some_iff {used : List Nat} {r g : Nat} : firstFit used r = some g ↔
    BlockFree used r g ∧ ∀ a, a < g → ¬BlockFree used r a := by
  rw [firstFit, List.find?_range_eq_some]
  constructor
  · rintro ⟨hfit, hg, hbelow⟩
    have hg := List.mem_range.1 hg
    refine ⟨(blockFree_iff hg).1 hfit, fun a ha hfree => ?_⟩
    have := hbelow a ha
    rw [(blockFree_iff (by omega)).2 hfree] at this
    cases this
  · rintro ⟨hfit, hbelow⟩
    have hg := hfit.lt
    refine ⟨(blockFree_iff hg).2 hfit, List.mem_range.2 hg, fun a ha => ?_⟩
    rw [Bool.not_eq_true']
    exact Bool.eq_false_iff.2 fun h => hbelow a ha ((blockFree_iff (by omega)).1 h)

theorem firstFit_eq_none_iff {used : List Nat} {r : Nat} : firstFit used r = none ↔ ∀ g, ¬BlockFree used r g := by
  rw [firstFit, List.find?_eq_none]
  constructor
  · intro h g hfree
    exact h g (List.mem_range.2 hfree.lt) ((blockFree_iff hfree.lt).2 hfree)
  · intro h g hg hfit
    exact h g ((blockFree_iff (List.mem_range.1 hg)).1 hfit)

/-- A lane pair is in reserve state for a pending group, or for a launch other than m (R363). -/
def State.pairHeld (s : State) (core p m : Nat) : Prop :=
  (∃ q ∈ s.pairGroups core p, (s.lanePair core p).reserve = some q.1) ∨ ∃ j t, (s.lanePair core p).claim = some (j, t, true) ∧ j ≠ m

theorem State.reservedFor_eq_none_iff (s : State) (core p : Nat) :
    s.reservedFor core p = none ↔ ¬∃ q ∈ s.pairGroups core p, (s.lanePair core p).reserve = some q.1 := by
  rw [State.reservedFor]
  cases (s.lanePair core p).reserve with
  | none => simp
  | some g => simp only [Option.filter_eq_none_iff, Option.some.injEq, List.any_eq_true, decide_eq_true_eq, eq_comm (a := g), forall_eq]

theorem State.claimedBy_eq_some_iff (s : State) (core p n : Nat) :
    s.claimedBy core p = some n ↔ ∃ t, (s.lanePair core p).claim = some (n, t, true) := by
  rw [State.claimedBy]
  rcases (s.lanePair core p).claim with _ | ⟨j, t, _ | _⟩ <;> simp [Option.filter, eq_comm]

/-- A block for a team of launch m: the first fit, unless the lane pair is held for another. -/
theorem State.blockFor_launch_eq_some_iff (s : State) (core p r m g : Nat) :
    s.blockFor core p r none (some m) = some g ↔ ¬s.pairHeld core p m ∧ firstFit (s.granUsed core p) r = some g := by
  unfold State.blockFor State.pairHeld
  cases hres : s.reservedFor core p with
  | some h =>
    have hres := mt (s.reservedFor_eq_none_iff core p).2 (by simp [hres])
    simp [not_not.1 hres]
  | none =>
    simp only [(s.reservedFor_eq_none_iff core p).1 hres, false_or]
    cases hcl : s.claimedBy core p with
    | none =>
      have : ¬∃ j t, (s.lanePair core p).claim = some (j, t, true) ∧ j ≠ m := by
        rintro ⟨j, t, hj, -⟩
        rw [(s.claimedBy_eq_some_iff core p j).2 ⟨t, hj⟩] at hcl
        cases hcl
      simpa using fun _ => this
    | some n =>
      obtain ⟨t, ht⟩ := (s.claimedBy_eq_some_iff core p n).1 hcl
      simp [ht, eq_comm]

/-- Where the next group of a team of launch m goes, when it gets an active slot (R362): the first lane pair with a free
active slot and a block. -/
theorem State.groupPlace_active {s : State} {core r m lp sl gr : Nat} (h : s.groupPlace core r m = some (lp, sl, some gr)) :
    lp < 16 ∧ sl < 8 ∧ sl ∉ s.slotsUsed core lp ∧ (∀ j, j < sl → j ∈ s.slotsUsed core lp)
      ∧ BlockFree (s.granUsed core lp) r gr ∧ (∀ g, g < gr → ¬BlockFree (s.granUsed core lp) r g) ∧ ¬s.pairHeld core lp m
      ∧ ∀ p, p < lp → (∀ j, j < 8 → j ∈ s.slotsUsed core p) ∨ s.pairHeld core p m ∨ ∀ g, ¬BlockFree (s.granUsed core p) r g := by
  unfold State.groupPlace at h
  dsimp only at h
  split at h
  · next q hactive =>
    obtain rfl : q = (lp, sl, some gr) := by simpa using h
    obtain ⟨p, hp, hthis, hbefore⟩ := findSome?_range_eq_some_iff.1 hactive
    cases hslot : freeSlot (s.slotsUsed core p) 0 with
    | none => rw [hslot] at hthis; cases hthis
    | some sl' =>
      cases hblock : s.blockFor core p r none (some m) with
      | none => rw [hslot, hblock] at hthis; cases hthis
      | some gr' =>
        rw [hslot, hblock] at hthis
        cases hthis
        obtain ⟨-, hlt, hfree, hbelow⟩ := freeSlot_eq_some_iff.1 hslot
        obtain ⟨hheld, hfit⟩ := (s.blockFor_launch_eq_some_iff core lp r m gr).1 hblock
        obtain ⟨hblockFree, hfirst⟩ := firstFit_eq_some_iff.1 hfit
        refine ⟨hp, by omega, hfree, fun j => hbelow j (Nat.zero_le j), hblockFree, hfirst, hheld, fun q hq => ?_⟩
        have hnone := hbefore q hq
        cases hslot' : freeSlot (s.slotsUsed core q) 0 with
        | none => exact .inl fun j hj => freeSlot_eq_none_iff.1 hslot' j (Nat.zero_le j) (by omega)
        | some sl' =>
          cases hblock' : s.blockFor core q r none (some m) with
          | some g => rw [hslot', hblock'] at hnone; cases hnone
          | none =>
            refine .inr (or_iff_not_imp_left.2 fun hheld' => firstFit_eq_none_iff.1 ?_)
            rw [Option.eq_none_iff_forall_ne_some] at hblock' ⊢
            exact fun g hg => hblock' g ((s.blockFor_launch_eq_some_iff core q r m g).2 ⟨hheld', hg⟩)
  · obtain ⟨p, -, hpend, -⟩ := findSome?_range_eq_some_iff.1 h
    obtain ⟨sl', -, he⟩ := Option.map_eq_some_iff.1 hpend
    cases he

/-- A group that gets no active slot goes to the first lane pair with a free pending one (R362). -/
theorem State.groupPlace_pending {s : State} {core r m lp sl : Nat} (h : s.groupPlace core r m = some (lp, sl, none)) :
    lp < 16 ∧ 8 ≤ sl ∧ sl < 16 ∧ sl ∉ s.slotsUsed core lp ∧ ∀ p, p < lp → ∀ j, 8 ≤ j → j < 16 → j ∈ s.slotsUsed core p := by
  unfold State.groupPlace at h
  dsimp only at h
  split at h
  · next q hactive =>
    obtain rfl : q = (lp, sl, none) := by simpa using h
    obtain ⟨p, -, hthis, -⟩ := findSome?_range_eq_some_iff.1 hactive
    split at hthis <;> cases hthis
  · obtain ⟨p, hp, hpend, hbefore⟩ := findSome?_range_eq_some_iff.1 h
    obtain ⟨sl', hslot, he⟩ := Option.map_eq_some_iff.1 hpend
    cases he
    obtain ⟨hle, hlt, hfree, -⟩ := freeSlot_eq_some_iff.1 hslot
    exact ⟨hp, hle, hlt, hfree, fun q hq j h8 h16 => freeSlot_eq_none_iff.1 (Option.map_eq_none_iff.1 (hbefore q hq)) j h8 h16⟩

/-! ## A team's barrier words at its start (R341, Table 5-2) -/

/-- The bytes of barrier word b. -/
def Team.barWord (t : Team) (b : Nat) : List Byte := rdBytes t.scratch (16 * b) 16

theorem rdBytes_part (m : SMap Byte) (a off n k : Nat) (h : off + n ≤ k) : rdBytes m (a + off) n = ((rdBytes m a k).drop off).take n := by
  apply List.ext_getElem (by simp; omega)
  intro i h1 h2
  simp only [List.getElem_take, List.getElem_drop, getElem_rdBytes]
  congr 1; omega

/-- The fields of a barrier word are read off its bytes. -/
theorem Team.bar_fields (t : Team) (b : Nat) :
    t.arrived b = ofLeBytes ((t.barWord b).take 2) % 64 ∧ t.expected b = ofLeBytes (((t.barWord b).drop 2).take 2) % 64
      ∧ t.phase b = ofLeBytes (((t.barWord b).drop 4).take 4) ∧ t.bmask b = BitVec.ofNat 32 (ofLeBytes (((t.barWord b).drop 8).take 4)) := by
  simp only [Team.arrived, Team.expected, Team.phase, Team.bmask, Team.rd, rdNat, Team.barWord]
  rw [← rdBytes_part _ _ 2 2 16 (by decide), ← rdBytes_part _ _ 4 4 16 (by decide), ← rdBytes_part _ _ 8 4 16 (by decide)]
  have := rdBytes_part t.scratch (16 * b) 0 2 16 (by decide)
  rw [List.drop_zero] at this
  exact ⟨by rw [← this]; rfl, rfl, rfl, rfl⟩

/-- What a write of a barrier word puts there. -/
def barBytes (phase expected arrived : Nat) (mask : W32) : List Byte :=
  leBytes 2 arrived ++ leBytes 2 expected ++ leBytes 4 phase ++ leBytes 8 mask.toNat

theorem length_barBytes (phase expected arrived : Nat) (mask : W32) : (barBytes phase expected arrived mask).length = 16 := by
  simp [barBytes]

theorem Team.setBar_eq (t : Team) (b phase expected arrived : Nat) (mask : W32) :
    t.setBar b phase expected arrived mask = { t with scratch := wrBytes t.scratch (16 * b) (barBytes phase expected arrived mask) } := rfl

theorem Team.barWord_setBar (t : Team) (b c phase expected arrived : Nat) (mask : W32) :
    (t.setBar b phase expected arrived mask).barWord c = if c = b then barBytes phase expected arrived mask else t.barWord c := by
  rw [Team.setBar_eq, Team.barWord]
  by_cases h : c = b
  · subst h
    rw [if_pos rfl]
    have := rdBytes_wrBytes t.scratch (16 * c) (barBytes phase expected arrived mask)
    rwa [length_barBytes] at this
  · rw [if_neg h]
    exact rdBytes_wrBytes_of_apart _ _ _ _ _ (by rw [length_barBytes]; omega)

/-- A team with its first n barrier words written, each for k groups that are awaited. -/
def Team.withBars (t : Team) (n k : Nat) : Team := (List.range n).foldl (fun t b => t.setBar b 0 k 0 0) t

theorem Team.withBars_succ (t : Team) (n k : Nat) : t.withBars (n + 1) k = (t.withBars n k).setBar n 0 k 0 0 := by
  rw [Team.withBars, List.range_succ, List.foldl_append]; rfl

theorem Team.withBars_eq (t : Team) (n k : Nat) : t.withBars n k = { t with scratch := (t.withBars n k).scratch } := by
  induction n with
  | zero => rfl
  | succ n ih => rw [t.withBars_succ, Team.setBar_eq, ih]

theorem Team.withBars_barWord (t : Team) {n b : Nat} (k : Nat) (h : b < n) : (t.withBars n k).barWord b = barBytes 0 k 0 0 := by
  induction n with
  | zero => omega
  | succ n ih =>
    rw [t.withBars_succ, Team.barWord_setBar]
    split
    · rfl
    · exact ih (by omega)

theorem Team.withBars_scratch_above (t : Team) {n a : Nat} (k : Nat) (h : 16 * n ≤ a) :
    SMap.get 0 (t.withBars n k).scratch a = SMap.get 0 t.scratch a := by
  induction n with
  | zero => rfl
  | succ n ih =>
    rw [t.withBars_succ, Team.setBar_eq, ← ih (by omega)]
    exact get_wrBytes_of_outside _ _ _ (.inr (by rw [length_barBytes]; omega))

/-- A barrier word at a team's start: nothing has arrived, all the team's groups are awaited. -/
theorem Team.withBars_bar (t : Team) {n b k : Nat} (h : b < n) (hk : k ≤ 32) :
    let u := t.withBars n k
    u.phase b = 0 ∧ u.expected b = k ∧ u.arrived b = 0 ∧ u.bmask b = 0 := by
  intro u
  obtain ⟨harr, hexp, hph, hmask⟩ := u.bar_fields b
  rw [t.withBars_barWord k h] at harr hexp hph hmask
  rw [harr, hexp, hph, hmask]
  have hexpected : ((barBytes 0 k 0 0).drop 2).take 2 = leBytes 2 k := rfl
  refine ⟨rfl, ?_, rfl, rfl⟩
  rw [hexpected, ofLeBytes_leBytes]
  exact (congrArg (· % 64) (Nat.mod_eq_of_lt (by omega))).trans (Nat.mod_eq_of_lt (by omega))

/-! ## A team at its start (R52) -/

/-- A team at its start but for its barrier words. -/
def bareTeam (l : Launch) (n core tslot lin gang first size : Nat) : Team :=
  { launch := n, ctx := l.ctx, lin := lin, core := core, tslot := tslot, gang := gang, gidx := lin - first, first := first, size := size,
    kernel := l.kernel, nthreads := l.nthreads, teams := l.teams, param := l.param, seed := l.seed, const := l.bytes,
    watch := [{ kind := .control, off := 0, len := 256 }], ringsFree := l.kernel.rings, gm := seeded l.seed (lin + 1) 0xD1B54A32D192ED03 }

theorem startTeam_eq (l : Launch) (n core tslot lin gang first size : Nat) :
    startTeam l n core tslot lin gang first size = (bareTeam l n core tslot lin gang first size).withBars l.kernel.bars l.kernel.team := rfl

/-! ## A group at its start (R52, R126, R200, R250) -/

/-- A register of a file filled from s1 on. -/
theorem get_putAll (ws : List W64) (k : Nat) (m : SMap W64) (r : Nat) :
    SMap.get 0 ((ws.zipIdx k).foldl (fun (m : SMap W64) p => m.put 0 (p.2 + 1) p.1) m) r
      = if k < r ∧ r ≤ k + ws.length then ws.getD (r - (k + 1)) 0 else SMap.get 0 m r := by
  induction ws generalizing k m with
  | nil => rw [if_neg (by simp)]; rfl
  | cons w ws ih =>
    rw [List.zipIdx_cons, List.foldl_cons, ih, SMap.get_put, List.length_cons]
    by_cases h1 : r = k + 1
    · rw [if_neg (by omega), if_pos h1, if_pos (by omega), h1, Nat.sub_self, List.getD_cons_zero]
    · rw [if_neg h1]
      by_cases h2 : k + 1 < r ∧ r ≤ k + 1 + ws.length
      · rw [if_pos h2, if_pos (by omega), show r - (k + 1) = r - (k + 1 + 1) + 1 by omega, List.getD_cons_succ]
      · rw [if_neg h2, if_neg (by omega)]

/-- The table of threads 0 to n - 1. -/
theorem find_mapRange {α : Type} (f : Nat → α) (n j : Nat) :
    SMap.find ((List.range n).map fun k => (k, f k)) j = if j < n then some (f j) else none := by
  have shift (c : Nat) : SMap.find ((List.range' c n).map fun k => (k, f k)) j = if c ≤ j ∧ j < c + n then some (f j) else none := by
    induction n generalizing c with
    | zero => rw [if_neg (by omega)]; rfl
    | succ n ih =>
      rw [List.range'_succ, List.map_cons, SMap.find, ih]
      by_cases h : j = c
      · rw [if_pos h, if_pos (by omega), h]
      · rw [if_neg h]
        exact if_congr (by omega) rfl rfl
  rw [List.range_eq_range', shift]
  exact if_congr (by omega) rfl rfl

theorem getLsbD_maskOf (ks : List Nat) {j : Nat} (hj : j < 32) : (maskOf ks).getLsbD j = true ↔ j ∈ ks := by
  have go (m : W32) : (ks.foldl (fun m k => m ||| (1#32 <<< k)) m).getLsbD j = true ↔ m.getLsbD j = true ∨ j ∈ ks := by
    induction ks generalizing m with
    | nil => simp
    | cons k ks ih =>
      have hbit : (1#32 <<< k).getLsbD j = true ↔ j = k := by
        rw [BitVec.getLsbD_shiftLeft, BitVec.getLsbD_one]
        simp only [Bool.and_eq_true, Bool.not_eq_true', decide_eq_true_eq, decide_eq_false_iff_not]
        omega
      rw [List.foldl_cons, ih, BitVec.getLsbD_or, Bool.or_eq_true, hbit, List.mem_cons, or_assoc]
  rw [maskOf, go]
  simp

/-- What a group finds in s1 to s8 at its start (R52). -/
def startArgs (t : Team) (devid i : Nat) : List W64 :=
  [t.param, BitVec.ofNat 64 t.lin, BitVec.ofNat 64 i, BitVec.ofNat 64 t.teams, BitVec.ofNat 64 t.gang, BitVec.ofNat 64 t.gidx,
    BitVec.ofNat 64 devid, BitVec.ofNat 64 t.ctx]

/-- The threads that a group is made with: the live ones and the helpers that fill their quads (R250). -/
def madeThreads (t : Team) (i : Nat) : Nat := (liveThreads t.nthreads i + 3) / 4 * 4

section
variable (t : Team) (tid devid i : Nat) (img : W64) (lp slot : Nat) (gran : Option Nat)

theorem startGroup_sread (r : BitVec 6) : (startGroup t tid devid i img lp slot gran).sread r =
    if 0 < r.toNat ∧ r.toNat ≤ 8 then (startArgs t devid i).getD (r.toNat - 1) 0 else 0 := by
  rw [Group.sread]
  by_cases hr : r = 0
  · subst hr; rfl
  · rw [if_neg hr]
    refine (get_putAll (startArgs t devid i) 0 [] r.toNat).trans (if_congr ?_ rfl rfl)
    simp [startArgs]

/-- A thread of a group at its start. -/
def startThread (t : Team) (i j : Nat) : Thr :=
  { life := if j < liveThreads t.nthreads i then .live else if j < madeThreads t i then .helper else .retired,
    gen := seeded t.seed ((t.lin * t.kernel.team + i) * 32 + j) 0x9E3779B97F4A7C15,
    tlin := BitVec.ofNat 32 ((t.lin * t.kernel.team + i) * 32 + j) }

theorem startGroup_thread {j : Nat} (hj : j < 32) : (startGroup t tid devid i img lp slot gran).thread j = startThread t i j := by
  have := find_mapRange (startThread t i) 32 j
  rw [if_pos hj] at this
  exact congrArg (Option.getD · {}) this

theorem startThread_life (j : Nat) :
    ((startThread t i j).life = .live ↔ j < liveThreads t.nthreads i)
      ∧ ((startThread t i j).life = .helper ↔ liveThreads t.nthreads i ≤ j ∧ j < madeThreads t i) := by
  unfold startThread
  by_cases hlive : j < liveThreads t.nthreads i
  · simp [hlive]
  · by_cases hmade : j < madeThreads t i
    · simp [hlive, hmade, Nat.not_lt.1 hlive]
    · simp [hlive, hmade]

end

/-! ## A team goes to a core (R52, R104, R361, R362) -/

/-- Groups are placed under rising numbers, each as it is at its start; the teams, and every other group, stay. -/
theorem State.placeGroups_spec {tid core : Nat} {t : Team} {ks : List Nat} {s u : State} (h : s.placeGroups tid core t ks = some u) :
    u.teams = s.teams ∧ u.nextTeam = s.nextTeam ∧ u.nextGid = s.nextGid + ks.length
      ∧ (∀ g, g < s.nextGid ∨ s.nextGid + ks.length ≤ g → u.groups.find g = s.groups.find g)
      ∧ ∀ i k, ks[i]? = some k →
        ∃ img lp slot gran, u.groups.find (s.nextGid + i) = some (startGroup t tid s.fabric.devid k img lp slot gran) := by
  induction ks generalizing s with
  | nil =>
    cases h
    exact ⟨rfl, rfl, rfl, fun _ _ => rfl, fun i k hk => by simp at hk⟩
  | cons k ks ih =>
    rw [State.placeGroups] at h
    split at h
    · cases h
    · next lp slot gran hplace =>
      obtain ⟨hteams, hnextTeam, hnextGid, hothers, hmine⟩ := ih h
      refine ⟨hteams, hnextTeam, ?_, fun g hg => ?_, fun i j hj => ?_⟩
      · rw [hnextGid, List.length_cons]
        exact Nat.add_right_comm _ _ _
      · rw [List.length_cons] at hg
        refine (hothers g ?_).trans (SMap.find_insert_ne _ _ ?_)
        · change g < s.nextGid + 1 ∨ s.nextGid + 1 + ks.length ≤ g; omega
        · change g ≠ s.nextGid; omega
      · cases i with
        | zero =>
          obtain rfl : k = j := by simpa using hj
          refine ⟨_, lp, slot, gran, (hothers _ (.inl (Nat.lt_succ_self _))).trans (SMap.find_insert_self _ _ _)⟩
        | succ i =>
          obtain ⟨img, lp', slot', gran', hfind⟩ := hmine i j (by simpa using hj)
          refine ⟨img, lp', slot', gran', ?_⟩
          exact (congrArg u.groups.find (show s.nextGid + (i + 1) = s.nextGid + 1 + i by omega)).trans hfind

theorem State.freeTeamSlot_lt {s : State} {core ts : Nat} (h : s.freeTeamSlot core = some ts) : ts < 16 :=
  List.mem_range.1 (List.mem_of_find?_eq_some h)

/-- A team that a core takes stands at its start under the next number, its groups after the last group. -/
theorem State.placeOn_spec {s u : State} {n lin gang first size core : Nat} {l : Launch} (h : s.placeOn n l lin gang first size core = some u) :
    ∃ ts, ts < 16 ∧ u.teams = s.teams.insert s.nextTeam (startTeam l n core ts lin gang first size)
      ∧ u.nextTeam = s.nextTeam + 1 ∧ u.nextGid = s.nextGid + l.kernel.team
      ∧ (∀ g, g < s.nextGid ∨ s.nextGid + l.kernel.team ≤ g → u.groups.find g = s.groups.find g)
      ∧ ∀ i, i < l.kernel.team → ∃ img lp slot gran, u.groups.find (s.nextGid + i)
          = some (startGroup (startTeam l n core ts lin gang first size) s.nextTeam s.fabric.devid i img lp slot gran) := by
  unfold State.placeOn at h
  split at h
  · cases h
  · split at h
    · cases h
    · next ts hts =>
      obtain ⟨v, hv, rfl⟩ := Option.map_eq_some_iff.1 h
      obtain ⟨hteams, hnextTeam, hnextGid, hothers, hmine⟩ := State.placeGroups_spec hv
      rw [List.length_range] at hnextGid hothers
      exact ⟨ts, s.freeTeamSlot_lt hts, hteams, hnextTeam, hnextGid, hothers, fun i hi => hmine i i (by simp [hi])⟩

/-- The sum over a list, kept as a running total. -/
theorem foldl_add_eq_sum {α : Type} (f : α → Nat) (l : List α) (n : Nat) : l.foldl (fun n a => n + f a) n = n + (l.map f).sum := by
  induction l generalizing n with
  | nil => simp
  | cons a l ih => rw [List.foldl_cons, ih, List.map_cons, List.sum_cons, Nat.add_assoc]

/-- What the teams on a core hold of a resource (R361). -/
def State.coreSum (s : State) (core : Nat) (f : Kernel → Nat) : Nat := ((s.onCore core).map fun p => f p.2.kernel).sum

theorem State.coreFits_iff (s : State) (core : Nat) (k : Kernel) (watch : Nat) : s.coreFits core k watch = true ↔
    s.coreSum core (·.scrb) + k.scrb ≤ 14 ∧ s.coreSum core (·.copyq) + k.copyq ≤ 64 ∧ s.coreSum core (·.tiles) + k.tiles ≤ 16
      ∧ s.watchUsed core + watch ≤ 64 := by
  simp only [State.coreFits, foldl_add_eq_sum, Nat.zero_add, Bool.and_eq_true, decide_eq_true_eq, and_assoc, State.coreSum]

theorem State.inService_iff (s : State) (core : Nat) : s.inService core = true ↔
    core < 256 ∧ (s.core core).failed = false ∧ s.boot.ready.getLsbD (4 + s.physOf core / 72) = true ∧ s.boot.coreOff = false := by
  simp only [State.inService, Bool.and_eq_true, decide_eq_true_eq, Bool.not_eq_true', and_assoc]

theorem State.placeOn_eq_none (s : State) (n lin gang first size core : Nat) (l : Launch)
    (h : ¬(s.inService core = true ∧ s.coreFits core l.kernel (1 + l.kernel.rings) = true)) :
    s.placeOn n l lin gang first size core = none := by
  rw [State.placeOn, if_pos]
  rwa [← Bool.not_and, Bool.not_eq_true', ← Bool.not_eq_true, Bool.and_eq_true]

/-! ## Which team is placed next (R361, R362, R364, R365) -/

theorem State.placeTeam_eq_some_iff (s u : State) (n lin gang first size : Nat) (l : Launch) :
    s.placeTeam n l lin gang first size = some u ↔
      ∃ core, core < 256 ∧ s.placeOn n l lin gang first size core = some u ∧ ∀ q, q < core → s.placeOn n l lin gang first size q = none :=
  findSome?_range_eq_some_iff

/-- A launch that may have more teams to place. -/
theorem Launch.open_iff (l : Launch) : l.open_ = true ↔ l.nofit = false ∧ l.tabBad = false ∧ (l.next < l.teams ∨ l.redo ≠ []) := by
  simp only [Launch.open_, Bool.and_eq_true, Bool.or_eq_true, Bool.not_eq_true', decide_eq_true_eq, and_assoc]

/-- A team of launch n is saved and waits to be placed again (R415). -/
def waitsForPlace (n : Nat) (p : Nat × Team) : Bool := decide (p.2.launch = n) && p.2.saved && !p.2.lost

theorem waitsForPlace_iff (n : Nat) (p : Nat × Team) :
    waitsForPlace n p = true ↔ p.2.launch = n ∧ p.2.saved = true ∧ p.2.lost = false := by
  simp only [waitsForPlace, Bool.and_eq_true, Bool.not_eq_true', decide_eq_true_eq, and_assoc]

section
variable {s : State} {n : Nat} {l : Launch} (hl : s.launches.find n = some l)
include hl

theorem teamPlacement_killed (hk : (s.context l.ctx).killed = true) : exec (.teamPlacement n) s = .next s := by
  change execTeamPlacement n s = _
  rw [execTeamPlacement, State.launch?, hl]
  exact if_pos hk

/-- A saved team goes to the first core that takes it. -/
theorem teamPlacement_saved (hk : (s.context l.ctx).killed = false) {i : Nat} {t : Team} (ht : s.teams.find? (waitsForPlace n) = some (i, t)) :
    exec (.teamPlacement n) s = .next (((List.range 256).findSome? fun c => s.restoreOn i c t).getD s) := by
  change execTeamPlacement n s = _
  unfold waitsForPlace at ht
  rw [execTeamPlacement, State.launch?, hl]
  simp only [hk, Bool.false_eq_true, if_false, ht]

theorem teamPlacement_idle (hk : (s.context l.ctx).killed = false) (hs : s.teams.find? (waitsForPlace n) = none)
    (h : ¬l.open_ = true ∨ s.launchBehind l = true) : exec (.teamPlacement n) s = .next s := by
  change execTeamPlacement n s = _
  unfold waitsForPlace at hs
  have : (!l.open_ || s.launchBehind l) = true := by simpa using h
  rw [execTeamPlacement, State.launch?, hl]
  simp only [hk, Bool.false_eq_true, if_false, hs, this, if_true]

theorem teamPlacement_gang (hk : (s.context l.ctx).killed = false) (hs : s.teams.find? (waitsForPlace n) = none)
    (hopen : l.open_ = true) (hbehind : s.launchBehind l = false) (hredo : l.redo = []) :
    exec (.teamPlacement n) s = .next (s.nextGang n l) := by
  change execTeamPlacement n s = _
  unfold waitsForPlace at hs
  rw [execTeamPlacement, State.launch?, hl]
  simp only [hk, hs, hopen, hbehind, hredo, Bool.not_true, Bool.or_self, Bool.false_eq_true, if_false]

end

/-! ## A saved team on its new core (R415) -/

theorem State.replaceGroups_teams {core : Nat} {t : Team} {gs : List Nat} {s u : State} (h : s.replaceGroups core t gs = some u) :
    u.teams = s.teams := by
  induction gs generalizing s with
  | nil => cases h; rfl
  | cons g gs ih =>
    rw [State.replaceGroups] at h
    split at h
    · cases h
    · exact (ih h).trans rfl

theorem State.restoreOn_team {s u : State} {i core : Nat} {t : Team} (h : s.restoreOn i core t = some u) :
    ∃ x, u.team i = { t with core := core, tslot := x, saved := false, again := true, loaded := false } ∧ x < 16 := by
  unfold State.restoreOn at h
  split at h
  · cases h
  · split at h
    · cases h
    · next ts hts =>
      obtain ⟨v, hv, rfl⟩ := Option.map_eq_some_iff.1 h
      have hteams := State.replaceGroups_teams hv
      refine ⟨ts, ?_, s.freeTeamSlot_lt hts⟩
      change v.teams.get {} i = _
      rw [hteams]
      exact SMap.get_insert_self _ _ _ _

/-! ## The next gang (R365, R366) -/

/-- How the gang table of a launch is written: the launch's own accessor writes the descriptor of its next gang. -/
def State.putGang (s u : State) (l : Launch) (size : Nat) (p : W64) : ERes × State :=
  u.engWrite (cmdAccOf l.ctx (((s.cmd? l.cmd).map (·.priv)).getD false)) (.store l.ctx) (l.gangtab + BitVec.ofNat 64 (16 * l.gangs.length))
    (wordBytes [BitVec.ofNat 64 (l.next * 2 ^ 32 + size), p])

theorem State.writeGang_none (u : State) (l : Launch) (size : Nat) (pref : Bool) (h : l.gangtab = 0) : u.writeGang l size pref = (.ok [], u) :=
  if_pos h

theorem State.writeGang_table {s u : State} (l : Launch) (size : Nat) (pref : Bool) (h : l.gangtab ≠ 0) (hc : u.cmds = s.cmds) :
    u.writeGang l size pref = s.putGang u l size (if pref then 1 else 0) := by
  have : u.cmd? l.cmd = s.cmd? l.cmd := congrArg (List.find? _) hc
  rw [State.putGang, ← this]
  exact if_neg h

/-- The launch after its next gang of a size. -/
def Launch.grown (l : Launch) (size : Nat) (pref : Bool) : Launch :=
  { l with next := l.next + size, gangs := l.gangs ++ [{ first := l.next, size := size, pref := pref }] }

/-- The teams of a launch's next gang, of a size, placed. -/
def State.gangTeams (s : State) (n : Nat) (l : Launch) (size : Nat) : Option State :=
  s.placeTeams n l l.gangs.length l.next size (List.range size)

theorem State.placeGang_eq (s : State) (n : Nat) (l : Launch) (size : Nat) (pref : Bool) :
    s.placeGang n l size pref = (s.gangTeams n l size).map fun u => (u.writeGang l size pref).2.setLaunch n (l.grown size pref) := rfl

/-- A launch falls back to gangs of f teams: it has done so, or p teams are not left, or they cannot be placed (R365). -/
def State.fallsBack (s : State) (n : Nat) (l : Launch) : Prop :=
  l.fallback = true ∨ l.teams - l.next < l.kernel.gangp ∨ s.gangTeams n l l.kernel.gangp = none

theorem State.cutGang_preferred {s u : State} {n : Nat} {l : Launch} (hf : l.fallback = false) (hp : l.kernel.gangp ≤ l.teams - l.next)
    (h : s.gangTeams n l l.kernel.gangp = some u) :
    s.cutGang n l = ((u.writeGang l l.kernel.gangp true).2.setLaunch n (l.grown l.kernel.gangp true)).unclaim n := by
  unfold State.cutGang
  simp [hf, hp, State.placeGang_eq, h]

/-- A launch that falls back tries no gang of p teams. -/
theorem State.fallsBack.no_preferred {s : State} {n : Nat} {l : Launch} (h : s.fallsBack n l) :
    (if !l.fallback && decide (l.kernel.gangp ≤ l.teams - l.next) then s.placeGang n l l.kernel.gangp true else none) = none := by
  split
  · next hc =>
    simp only [Bool.and_eq_true, Bool.not_eq_true', decide_eq_true_eq] at hc
    obtain ⟨hf, hp⟩ := hc
    rcases h with h | h | h
    · rw [hf] at h; cases h
    · omega
    · rw [State.placeGang_eq, h]; rfl
  · rfl

/-- Once it falls back, a launch's next gang is f teams, or what is left of them. -/
theorem State.cutGang_placed {s u : State} {n : Nat} {l : Launch} (h : s.fallsBack n l)
    (hu : s.gangTeams n { l with fallback := true } (min l.kernel.gangf (l.teams - l.next)) = some u) :
    let z := { l with fallback := true }
    let f := min l.kernel.gangf (l.teams - l.next)
    s.cutGang n l = ((u.writeGang z f false).2.setLaunch n (z.grown f false)).unclaim n := by
  unfold State.cutGang
  simp only [h.no_preferred]
  simp only [State.placeGang_eq, hu, Option.map_some]

theorem State.cutGang_none {s : State} {n : Nat} {l : Launch} (h : s.fallsBack n l)
    (hu : s.gangTeams n { l with fallback := true } (min l.kernel.gangf (l.teams - l.next)) = none) (hfit : l.nofit = false) :
    let z := { l with fallback := true }
    let f := min l.kernel.gangf (l.teams - l.next)
    ∃ b, s.cutGang n l = s.setLaunch n { z with nofit := b } ∧ (b = true ↔ s.emptied.placeTeams n z 0 0 f (List.range f) = none) := by
  intro z f
  have hz : { z with nofit := false } = z := by rw [← hfit]
  unfold State.cutGang
  simp only [h.no_preferred]
  simp only [State.placeGang_eq, hu, Option.map_none]
  by_cases he : s.emptied.placeTeams n z 0 0 f (List.range f) = none
  · exact ⟨true, if_pos (Option.isNone_iff_eq_none.2 he), iff_of_true rfl he⟩
  · exact ⟨false, by rw [hz]; exact if_neg (mt Option.isNone_iff_eq_none.1 he), iff_of_false Bool.false_ne_true he⟩

/-- The gang table takes a descriptor: there is none, or a write of it goes through. -/
def State.tableReady (s : State) (l : Launch) : Prop := l.gangtab = 0 ∨ ∃ e v, s.putGang s l 1 0 = (.ok e, v)

theorem State.nextGang_ready {s : State} {n : Nat} {l : Launch} (h : s.tableReady l) : s.nextGang n l = s.cutGang n l := by
  rw [State.nextGang]
  by_cases h0 : l.gangtab = 0
  · rw [s.writeGang_none l 1 false h0]
  · obtain ⟨e, v, hput⟩ := h.resolve_left h0
    rw [State.writeGang_table (s := s) l 1 false h0 rfl, if_neg Bool.false_ne_true, hput]

theorem State.nextGang_fault {s v : State} {n f : Nat} {l : Launch} (h0 : l.gangtab ≠ 0) (h : s.putGang s l 1 0 = (.fault f, v)) :
    s.nextGang n l = s.setLaunch n { l with tabBad := true } := by
  rw [State.nextGang, State.writeGang_table (s := s) l 1 false h0 rfl, if_neg Bool.false_ne_true, h]

theorem State.nextGang_wait {s v : State} {n : Nat} {l : Launch} (h0 : l.gangtab ≠ 0) (h : s.putGang s l 1 0 = (.wait, v)) : s.nextGang n l = v := by
  rw [State.nextGang, State.writeGang_table (s := s) l 1 false h0 rfl, if_neg Bool.false_ne_true, h]

/-! ## The clauses of the placement of teams -/

/-- A saved team of least number is the one that is placed again. -/
theorem find?_waitsForPlace {s : State} {n i : Nat} {t : Team} (hs : SMap.sorted s.teams = true) (ht : s.teams.find i = some t)
    (hn : t.launch = n) (hsaved : t.saved = true) (hlost : t.lost = false)
    (hleast : ∀ p ∈ s.teams, p.2.launch = n → p.2.saved = true → p.2.lost = false → i ≤ p.1) :
    s.teams.find? (waitsForPlace n) = some (i, t) := by
  refine find?_of_least hs ht ((waitsForPlace_iff n (i, t)).2 ⟨hn, hsaved, hlost⟩) fun p hp hw => ?_
  obtain ⟨h1, h2, h3⟩ := (waitsForPlace_iff n p).1 hw
  exact hleast p hp h1 h2 h3

theorem find?_waitsForPlace_eq_none {s : State} {n : Nat}
    (h : ¬∃ p ∈ s.teams, p.2.launch = n ∧ p.2.saved = true ∧ p.2.lost = false) : s.teams.find? (waitsForPlace n) = none :=
  List.find?_eq_none.2 fun p hp hw => h ⟨p, hp, (waitsForPlace_iff n p).1 hw⟩

/-- A core that lacks something a team needs does not take it (R361). -/
theorem State.placeOn_none_of_lack (s : State) (n lin gang first size core : Nat) (l : Launch)
    (h : 14 < s.coreSum core (·.scrb) + l.kernel.scrb ∨ 64 < s.coreSum core (·.copyq) + l.kernel.copyq
      ∨ 16 < s.coreSum core (·.tiles) + l.kernel.tiles ∨ 64 < s.watchUsed core + 1 + l.kernel.rings
      ∨ 256 ≤ core ∨ (s.core core).failed = true ∨ s.boot.coreOff = true ∨ s.boot.ready.getLsbD (4 + s.physOf core / 72) = false) :
    s.placeOn n l lin gang first size core = none := by
  refine s.placeOn_eq_none n lin gang first size core l ?_
  rw [State.inService_iff, State.coreFits_iff]
  rintro ⟨⟨hcore, hok, hdie, hon⟩, hscrb, hcopyq, htiles, hwatch⟩
  rcases h with h | h | h | h | h | h | h | h
  · omega
  · omega
  · omega
  · omega
  · omega
  · rw [hok] at h; cases h
  · rw [hon] at h; cases h
  · rw [hdie] at h; cases h

/-- The scalar registers of a group at its start, register by register (R52). -/
theorem startGroup_registers (t : Team) (tid devid i : Nat) (img : W64) (lp slot : Nat) (gran : Option Nat) (r : BitVec 6) :
    (startGroup t tid devid i img lp slot gran).sread r = match r.toNat with
      | 1 => t.param | 2 => BitVec.ofNat 64 t.lin | 3 => BitVec.ofNat 64 i | 4 => BitVec.ofNat 64 t.teams | 5 => BitVec.ofNat 64 t.gang
      | 6 => BitVec.ofNat 64 t.gidx | 7 => BitVec.ofNat 64 devid | 8 => BitVec.ofNat 64 t.ctx
      | _ => 0 := by
  split
  case h_9 => rw [startGroup_sread, if_neg (by simp only [imp_false] at *; omega)]
  all_goals next hr => rw [startGroup_sread, hr]; rfl

theorem startTeam_fields (l : Launch) (n core tslot lin gang first size : Nat) :
    startTeam l n core tslot lin gang first size =
      { bareTeam l n core tslot lin gang first size with scratch := (startTeam l n core tslot lin gang first size).scratch } := by
  rw [startTeam_eq]; exact Team.withBars_eq _ _ _

/-- The machine at a group's start: what its scalar stream and its threads find (R52). -/
theorem startGroup_machine (t : Team) (tid devid i : Nat) (img : W64) (lp slot : Nat) (gran : Option Nat) (huser : t.sysTeam = false) :
    let g := startGroup t tid devid i img lp slot gran
    let live := min 32 (t.nthreads - 32 * i)
    g.team = tid ∧ g.idx = i ∧ g.mode = .user ∧ g.spc = t.kernel.sentry ∧ g.swait = none ∧ g.queue = [] ∧ g.tslot = none ∧ g.ended = false ∧ g.cond = 0
    ∧ g.regs = [] ∧ g.dirty = 0 ∧ g.stlevel = 0 ∧ g.slot.isSome
    ∧ (∀ r : BitVec 6, g.sread r = match r.toNat with
        | 1 => t.param | 2 => BitVec.ofNat 64 t.lin | 3 => BitVec.ofNat 64 i | 4 => BitVec.ofNat 64 t.teams | 5 => BitVec.ofNat 64 t.gang
        | 6 => BitVec.ofNat 64 t.gidx | 7 => BitVec.ofNat 64 devid | 8 => BitVec.ofNat 64 t.ctx
        | _ => 0)
    ∧ (∃ x, g.splits = [(0, x)] ∧ x.mode = .waitNext ∧ x.stack = [] ∧ x.wb = 0 ∧ x.rd = 0 ∧ ∀ j, j < 32 → (x.mask.getLsbD j = true ↔ j < (live + 3) / 4 * 4))
    ∧ ∀ j, j < 32 → let th := g.thread j
      let lin32 := (t.lin * t.kernel.team + i) * 32 + j
      (th.life = .live ↔ j < live) ∧ (th.life = .helper ↔ live ≤ j ∧ j < (live + 3) / 4 * 4) ∧ th.preds = 0 ∧ th.fpstat = 0 ∧ th.tlevel = 0
      ∧ th.tlin = BitVec.ofNat 32 lin32 ∧ th.gen = mixedSeed t.seed lin32 0x9E3779B97F4A7C15 := by
  intro g live
  have hmode : g.mode = .user := (congrArg (fun b => if b = true then Mode.priv else Mode.user) huser).trans rfl
  refine ⟨rfl, rfl, hmode, rfl, rfl, rfl, rfl, rfl, rfl, rfl, rfl, rfl, rfl,
    startGroup_registers t tid devid i img lp slot gran, ⟨_, rfl, rfl, rfl, rfl, rfl, fun j hj => ?_⟩, fun j hj => ?_⟩
  · exact (getLsbD_maskOf _ hj).trans List.mem_range
  · have hth : g.thread j = startThread t i j := startGroup_thread t tid devid i img lp slot gran hj
    obtain ⟨hlive, hhelper⟩ := startThread_life t i j
    intro th lin32
    rw [show th = startThread t i j from hth]
    exact ⟨hlive, hhelper, rfl, rfl, rfl, rfl, rfl⟩

/-- Settles O46: which team is placed next by the lemmas on `execTeamPlacement` and `cutGang`, where its groups go by those
on `groupPlace`, and the machine at its start by `placeOn_spec`. -/
theorem teamPlacement : Obligations.TeamPlacement := by
  unfold Obligations.TeamPlacement
  intro s n l hl k ev more saved
  refine ⟨teamPlacement_killed hl, fun hk => ⟨?_, ?_, ?_⟩, fun lin gang first size u => s.placeTeam_eq_some_iff u n lin gang first size l,
    ?_, fun core r m lp sl h => State.groupPlace_pending h, fun lin gang first size core => s.placeOn_none_of_lack n lin gang first size core l, ?_⟩
  · intro i t hsorted ht hn hsaved hlost hleast
    have hexec := teamPlacement_saved hl hk (find?_waitsForPlace hsorted ht hn hsaved hlost hleast)
    refine ⟨fun hnone => ?_, fun core u hcore hbefore hu => ⟨?_, State.restoreOn_team hu⟩⟩
    · rw [List.findSome?_eq_none_iff.2 fun c hc => hnone c (List.mem_range.1 hc)] at hexec
      exact hexec
    · rw [findSome?_range_eq_some_iff.2 ⟨core, hcore, hu, hbefore⟩] at hexec
      exact hexec
  · intro hsaved hidle
    refine teamPlacement_idle hl hk (find?_waitsForPlace_eq_none hsaved) ?_
    rwa [Launch.open_iff]
  · intro hsaved hmore hbehind hredo left gang first after f small z acc put ready
    have hexec := teamPlacement_gang hl hk (find?_waitsForPlace_eq_none hsaved) (l.open_iff.2 hmore) hbehind hredo
    obtain ⟨hfit, -, -⟩ := hmore
    refine ⟨fun e v h0 hp => ?_, fun v h0 hp => ?_, fun u hf hp hu h0 => ?_, fun u hs hu h0 => ?_, fun u hr hf hp hu h0 hc => ?_,
      fun u hr hs hu h0 hc => ?_, fun hr hs hu => ?_⟩
    · rw [hexec, State.nextGang_fault h0 hp]
    · rw [hexec, State.nextGang_wait h0 hp]
    · rw [hexec, State.nextGang_ready (.inl h0), State.cutGang_preferred hf hp hu, u.writeGang_none _ _ _ h0]
      rfl
    · rw [hexec, State.nextGang_ready (.inl h0), State.cutGang_placed hs hu, u.writeGang_none z _ _ h0]
      rfl
    · rw [hexec, State.nextGang_ready hr, State.cutGang_preferred hf hp hu, State.writeGang_table l _ _ h0 hc]
      rfl
    · rw [hexec, State.nextGang_ready hr, State.cutGang_placed hs hu, State.writeGang_table z _ _ h0 hc]
      rfl
    · obtain ⟨b, hb, hiff⟩ := State.cutGang_none hs hu hfit
      exact ⟨b, by rw [hexec, State.nextGang_ready hr, hb], hiff⟩
  · intro core r m lp sl gr h _ _
    exact State.groupPlace_active h
  · intro lin gang first size core u h hteam hbars
    obtain ⟨ts, hts, hteams, hnextTeam, hnextGid, hothers, hmine⟩ := State.placeOn_spec h
    have ht : u.team s.nextTeam = startTeam l n core ts lin gang first size := by
      rw [State.team, hteams]; exact SMap.get_insert_self _ _ _ _
    have hbar (b : Nat) (hb : b < k.bars) := (bareTeam l n core ts lin gang first size).withBars_bar hb hteam
    have habove (a : Nat) (ha : 16 * k.bars ≤ a) := (bareTeam l n core ts lin gang first size).withBars_scratch_above k.team ha
    rw [ht, startTeam_fields]
    refine ⟨hnextTeam, hnextGid, fun i hi => ?_, hothers, rfl, rfl, rfl, rfl, hts, rfl, rfl, rfl, rfl, rfl, rfl, rfl, rfl, rfl, rfl, rfl, rfl, rfl,
      rfl, rfl, hbar, habove, fun i hi => ?_⟩
    · rw [hteams]; exact SMap.find_insert_ne _ _ hi
    · obtain ⟨img, lp, slot, gran, hfind⟩ := hmine i hi
      have hg : u.group (s.nextGid + i) = startGroup (startTeam l n core ts lin gang first size) s.nextTeam s.fabric.devid i img lp slot gran := by
        rw [State.group, SMap.get, hfind]; rfl
      have hstart := startGroup_machine (startTeam l n core ts lin gang first size) s.nextTeam s.fabric.devid i img lp slot gran
      rw [startTeam_fields] at hg hstart
      rw [← hg] at hstart
      exact hstart rfl

end Sys2Proof.Machine
end

section
/-! PROOFS. The canonical form of the stored bytes is kept by every step (SPEC: memory; log entry 2). One lemma for each function of the
model, in the model's order: where it starts from a memory in the canonical form, what it gives has one. -/

namespace Sys2Proof.Machine

/-- The next state of an outcome, where there is one, has its memory in the canonical form. -/
def WfOut : Out → Prop
  | .next t => t.mem.wf = true
  | _ => True

/-- A state that may be given has its memory in the canonical form where it is given. -/
def WfSome (o : Option State) : Prop := ∀ t, o = some t → t.mem.wf = true

/-- What an instruction does in one thread leaves memory in the canonical form. -/
def WfThread : TOut → Prop
  | .val _ s | .done s | .trap _ _ s | .suspend _ s | .stall s => s.mem.wf = true

/-- An instruction that has passed its threads, or has stopped, leaves memory in the canonical form. -/
def WfFlow : Flow → Prop
  | .fin s | .out s => s.mem.wf = true

theorem wfOut_next {t : State} (h : t.mem.wf = true) : WfOut (.next t) := h
theorem wfSome_some {t : State} (h : t.mem.wf = true) : WfSome (some t) := fun _ e => Option.some.inj e ▸ h
theorem wfSome_none : WfSome none := fun _ e => nomatch e

/-- The state in a pair that a computation has given. -/
theorem wf_of_pair {α : Type} {p : α × State} {r : α} {t : State} (e : p = (r, t)) (h : p.2.mem.wf = true) : t.mem.wf = true := by
  subst e; exact h

theorem wf_of_triple {α β : Type} {p : α × β × State} {r : α} {q : β} {t : State} (e : p = (r, q, t)) (h : p.2.2.mem.wf = true) :
    t.mem.wf = true := by
  subst e; exact h

theorem wf_of_memPair {α : Type} {p : α × Mem} {r : α} {m : Mem} (e : p = (r, m)) (h : p.2.wf = true) : m.wf = true := by
  subst e; exact h

theorem wf_of_some {o : Option State} {t : State} (e : o = some t) (h : WfSome o) : t.mem.wf = true := h t e

theorem wf_foldlState {α : Type} (l : List α) (f : State → α → State) {s : State} (h : s.mem.wf = true)
    (hf : ∀ s a, s.mem.wf = true → (f s a).mem.wf = true) : (l.foldl f s).mem.wf = true := by
  induction l generalizing s with
  | nil => exact h
  | cons a l ih => exact ih (hf s a h)

theorem wf_getD {o : Option State} {t : State} (ho : WfSome o) (ht : t.mem.wf = true) : (o.getD t).mem.wf = true := by
  cases o with
  | none => exact ht
  | some u => exact ho u rfl

/-- What a context operation gives, or waits in, keeps memory in the canonical form. -/
def WfCtx : Ctx → Prop
  | .res _ s | .wait s => s.mem.wf = true

/-- The state an instruction starts from, or what became of it instead. -/
def WfBegin : Except State State → Prop
  | .ok s | .error s => s.mem.wf = true

/-- What a list of reads gives, with the state in which a read has stopped. -/
def WfReads (r : Except (Option Nat × State) (List (List Byte)) × State) : Prop :=
  r.2.mem.wf = true ∧ ∀ c t, r.1 = .error (c, t) → t.mem.wf = true

/-- A moving of entries leaves memory in the canonical form. -/
def WfMoved : Moved → Prop
  | .ok _ s | .fault _ _ s | .wait s => s.mem.wf = true

theorem wf_foldlPair {α β : Type} (l : List β) (f : α × State → β → α × State) {p : α × State} (h : p.2.mem.wf = true)
    (hf : ∀ p b, p.2.mem.wf = true → (f p b).2.mem.wf = true) : (l.foldl f p).2.mem.wf = true := by
  induction l generalizing p with
  | nil => exact h
  | cons b l ih => exact ih (hf p b h)

theorem wfSome_bind {o : Option State} {f : State → Option State} (ho : WfSome o) (hf : ∀ t, t.mem.wf = true → WfSome (f t)) :
    WfSome (o.bind f) := by
  cases o with
  | none => exact wfSome_none
  | some t => exact hf t (ho t rfl)
theorem wfSome_foldl {α : Type} (l : List α) (f : Option State → α → Option State) {o : Option State} (ho : WfSome o)
    (hf : ∀ o a, WfSome o → WfSome (f o a)) : WfSome (l.foldl f o) := by
  induction l generalizing o with
  | nil => exact ho
  | cons a l ih => exact ih (hf o a ho)

theorem wfSome_map {o : Option State} {f : State → State} (ho : WfSome o) (hf : ∀ t, t.mem.wf = true → (f t).mem.wf = true) :
    WfSome (o.map f) := by
  cases o with
  | none => exact wfSome_none
  | some t => exact wfSome_some (hf t (ho t rfl))
theorem wfSome_findSome {α : Type} {l : List α} {f : α → Option State} (hf : ∀ a, WfSome (f a)) : WfSome (l.findSome? f) := by
  intro t e
  obtain ⟨a, _, ha⟩ := List.exists_of_findSome?_eq_some e
  exact hf a t ha

/-- Each of the functions keeps memory in the canonical form. -/
def AllWf (l : List (State → Out)) : Prop := ∀ e ∈ l, ∀ s : State, s.mem.wf = true → WfOut (e s)
theorem allWf_nil : AllWf [] := fun _ h => nomatch h
theorem allWf_cons {e l} (he : ∀ s : State, s.mem.wf = true → WfOut (e s)) (hl : AllWf l) : AllWf (e :: l) :=
  List.forall_mem_cons.mpr ⟨he, hl⟩
theorem allWf_append {l r} (hl : AllWf l) (hr : AllWf r) : AllWf (l ++ r) := List.forall_mem_append.mpr ⟨hl, hr⟩
theorem allWf_map {α : Type} {l : List α} {f : α → State → Out} (hf : ∀ a (s : State), s.mem.wf = true → WfOut (f a s)) :
    AllWf (l.map f) := List.forall_mem_map.mpr fun a _ => hf a
theorem allWf_flatMap {α : Type} {l : List α} {f : α → List (State → Out)} (hf : ∀ a, AllWf (f a)) : AllWf (l.flatMap f) := by
  intro e he
  obtain ⟨a, _, ha⟩ := List.mem_flatMap.mp he
  exact hf a e ha

section
variable {s : State} {m : Mem}

/-! ## State operations -/

theorem State.setGroup_wf {g x} (hm : s.mem.wf = true) : (s.setGroup g x).mem.wf = true := hm

theorem State.modGroup_wf {g f} (hm : s.mem.wf = true) : (s.modGroup g f).mem.wf = true := hm

theorem State.setTeam_wf {t x} (hm : s.mem.wf = true) : (s.setTeam t x).mem.wf = true := hm

theorem State.modTeam_wf {t f} (hm : s.mem.wf = true) : (s.modTeam t f).mem.wf = true := hm

theorem State.setContext_wf {c x} (hm : s.mem.wf = true) : (s.setContext c x).mem.wf = true := hm

theorem State.modContext_wf {c f} (hm : s.mem.wf = true) : (s.modContext c f).mem.wf = true := hm

theorem State.setLanePair_wf {c lp x} (hm : s.mem.wf = true) : (s.setLanePair c lp x).mem.wf = true := hm

theorem State.setQueue_wf {q x} (hm : s.mem.wf = true) : (s.setQueue q x).mem.wf = true := hm

theorem State.modCur_wf {f} (hm : s.mem.wf = true) : (s.modCur f).mem.wf = true := hm

theorem State.draw_wf (hm : s.mem.wf = true) : (s.draw).2.mem.wf = true := hm

theorem State.bump_wf (hm : s.mem.wf = true) : (s.bump).mem.wf = true := hm

theorem State.sput_wf {r v} (hm : s.mem.wf = true) : (s.sput r v).mem.wf = true := hm

theorem State.teamEvent_wf {t} (hm : s.mem.wf = true) : (s.teamEvent t).mem.wf = true := hm

theorem State.setTeamFe_wf {i t} (hm : s.mem.wf = true) : (s.setTeamFe i t).mem.wf = true := by
  unfold State.setTeamFe
  split <;> exact hm

theorem State.endGroup_wf {g leave} (hm : s.mem.wf = true) : (s.endGroup g leave).mem.wf = true := by
  unfold State.endGroup
  dsimp only
  split
  · exact hm
  · split <;> exact hm

theorem State.killEnd_wf {g} (hm : s.mem.wf = true) : (s.killEnd g).mem.wf = true := State.endGroup_wf hm

theorem State.killGroup_wf {g} (hm : s.mem.wf = true) : (s.killGroup g).mem.wf = true := by
  unfold State.killGroup
  split
  · exact hm
  · exact State.killEnd_wf hm

theorem State.reapDying_wf (hm : s.mem.wf = true) : (s.reapDying).mem.wf = true := wf_foldlState _ _ hm (fun _ _ hs => State.killEnd_wf hs)

theorem State.kill_wf (hm : s.mem.wf = true) : WfOut (s.kill) := State.killGroup_wf hm

theorem State.killCur_wf (hm : s.mem.wf = true) : (s.killCur).mem.wf = true := State.killGroup_wf hm

theorem State.killLane_wf (hm : s.mem.wf = true) : WfOut (s.killLane) := State.killCur_wf hm

theorem State.stopGroup_wf {g} (hm : s.mem.wf = true) : (s.stopGroup g).mem.wf = true := by
  unfold State.stopGroup
  split
  · exact hm
  · exact State.endGroup_wf hm

theorem State.killContext_wf {c cause} (hm : s.mem.wf = true) : (s.killContext c cause).mem.wf = true := by
  unfold State.killContext
  split
  · exact hm
  · exact wf_foldlState _ _ hm (fun _ _ hs => State.stopGroup_wf hs)

theorem State.scalarTrapIn_wf {gid cause val} (hm : s.mem.wf = true) : (s.scalarTrapIn gid cause val).mem.wf = true := by
  unfold State.scalarTrapIn
  dsimp only
  split
  · exact State.killContext_wf hm
  · split
    · exact State.killContext_wf hm
    · exact hm

theorem State.scalarTrap_wf {cause val} (hm : s.mem.wf = true) : WfOut (s.scalarTrap cause val) := State.scalarTrapIn_wf hm

theorem privTrap_wf (hm : s.mem.wf = true) : WfOut (privTrap s) := State.scalarTrap_wf hm

theorem privileged_wf {o : Out} (hm : s.mem.wf = true) (ho : WfOut o) : WfOut (privileged s o) := by
  unfold privileged
  split
  · exact ho
  · exact privTrap_wf hm

theorem State.enterTrap_wf {gid slot k cause val} (hm : s.mem.wf = true) : (s.enterTrap gid slot k cause val).mem.wf = true := by
  unfold State.enterTrap
  dsimp only
  split
  · exact State.killContext_wf hm
  · split
    · exact State.killContext_wf hm
    · exact hm

theorem State.laneTrap_wf {k cause val} (hm : s.mem.wf = true) : (s.laneTrap k cause val).mem.wf = true := by
  unfold State.laneTrap
  dsimp only
  split
  · exact State.killContext_wf hm
  · split
    · split
      · exact State.enterTrap_wf hm
      · split
        · exact State.enterTrap_wf hm
        · exact hm
    · split
      · exact State.enterTrap_wf hm
      · exact hm

theorem State.laneReturn_wf {gid how} (hm : s.mem.wf = true) : (s.laneReturn gid how).mem.wf = true := by
  unfold State.laneReturn
  split
  · dsimp only
    split <;> exact hm
  · dsimp only
    split <;> exact hm

theorem State.haltTeam_wf {tid} (hm : s.mem.wf = true) : (s.haltTeam tid).mem.wf = true := hm

/-! ## Accesses by another device -/

theorem State.askHost_wf {r} (hm : s.mem.wf = true) : (s.askHost r).2.mem.wf = true := by
  unfold State.askHost
  exact hm

theorem State.hostWrite_wf {w ctx a bytes} (hm : s.mem.wf = true) : (s.hostWrite w ctx a bytes).2.mem.wf = true := hm

theorem State.sendMsg_wf {dst vc payload ordered words body} (hm : s.mem.wf = true) :
    (s.sendMsg dst vc payload ordered words body).mem.wf = true := by
  unfold State.sendMsg
  split
  · exact hm
  · split
    · dsimp only
      split <;> exact hm
    · dsimp only
      split <;> exact hm

theorem State.sendReq_wf {n r} (hm : s.mem.wf = true) : (s.sendReq n r).mem.wf = true := State.sendMsg_wf hm

theorem State.askPeer_wf {r} (hm : s.mem.wf = true) : (s.askPeer r).2.mem.wf = true := State.sendReq_wf hm

theorem State.dropPeer_wf {n} (hm : s.mem.wf = true) : (s.dropPeer n).mem.wf = true := hm

theorem State.sawWts_wf {c w} (hm : s.mem.wf = true) : (s.sawWts c w).mem.wf = true := hm

/-! ## Accesses of a core -/

theorem wf_walkPut {e pick} (hm : m.wf = true) : (m.walkPut e pick).wf = true := hm

theorem State.cacheLeaf_wf {x va l} (f : Source) (hm : s.mem.wf = true) : (s.cacheLeaf x va l f).mem.wf = true := by
  cases f with
  | core => exact hm
  | die => exact hm
  | walk w => exact wf_foldl _ _ (wf_setA _ _ hm) fun _ _ => wf_walkPut

theorem State.xlate_wf {x va k} (hm : s.mem.wf = true) : (s.xlate x va k).2.mem.wf = true := by
  unfold State.xlate
  split
  · exact hm
  · split
    · exact State.cacheLeaf_wf _ hm
    · exact hm

theorem State.l2Find_wf {x l a write wait} (hm : s.mem.wf = true) : (s.l2Find x l a write wait).2.mem.wf = true := by
  unfold State.l2Find
  have hr := wf_rekey (lineKey l.space 0 a) l.key hm
  dsimp only
  generalize s.mem.rekey (lineKey l.space 0 a) l.key = m at hr ⊢
  have hd := wf_directory s.timeNs s.stackReady x.copy l a write wait hr
  split
  · exact hr
  · split
    · split
      · exact hr
      · split <;> exact wf_of_memPair ‹_› hd
    · split <;> exact wf_of_memPair ‹_› hd

theorem State.keepLine_wf {core k key pol nc d} (hm : s.mem.wf = true) : (s.keepLine core k key pol nc d).mem.wf = true := by
  unfold State.keepLine
  split
  · exact hm
  · split
    · exact wf_demote _ _ (wf_l1Fill _ _ _ _ _ _ _ hm)
    · exact wf_l1Fill _ _ _ _ _ _ _ hm

theorem State.fillDone_wf {gid f r} (hm : s.mem.wf = true) : (s.fillDone gid f r).2.mem.wf = true := by
  unfold State.fillDone
  split
  · split
    · exact hm
    · exact State.keepLine_wf (wf_bring _ _ (wf_l1Rekey _ _ _ hm) _)
  · exact hm

theorem State.fillGroup_wf {gid f} (hm : s.mem.wf = true) : (s.fillGroup gid f).mem.wf = true := by
  unfold State.fillGroup
  generalize (s.group gid).far = rs
  have key : ∀ (rs ps : List Far) (s : State), s.mem.wf = true →
      (rs.foldl (fun (a : List Far × State) x => let q := a.2.fillDone gid f x; (a.1 ++ [q.1], q.2)) (ps, s)).2.mem.wf = true := by
    intro rs
    induction rs with
    | nil => exact fun _ _ h => h
    | cons r rs ih => exact fun _ _ h => ih _ _ (State.fillDone_wf h)
  exact key rs [] s hm

theorem State.frameReady_wf {f} (hm : s.mem.wf = true) : (s.frameReady f).mem.wf = true :=
    wf_foldlState _ _ hm (fun _ _ hs => State.fillGroup_wf hs)

theorem State.lineReady_wf {k} (hm : s.mem.wf = true) : (s.lineReady k).mem.wf = true := by
  unfold State.lineReady
  split
  · exact State.frameReady_wf hm
  · dsimp only
    split
    · exact State.frameReady_wf hm
    · exact hm

theorem State.l2Get_wf {x l a write wait blank} (hm : s.mem.wf = true) : (s.l2Get x l a write wait blank).2.mem.wf = true := by
  unfold State.l2Get
  split
  · split
    · dsimp only
      split
      · exact State.frameReady_wf (wf_of_pair ‹_› (State.l2Find_wf hm))
      · exact wf_install _ _ (State.frameReady_wf (wf_of_pair ‹_› (State.l2Find_wf hm)))
    · exact wf_install _ _ (wf_of_pair ‹_› (State.l2Find_wf hm))
    · split
      · exact State.lineReady_wf (wf_of_pair ‹_› (State.l2Find_wf hm))
      · exact wf_of_pair ‹_› (State.l2Find_wf hm)
    · exact State.l2Find_wf hm
  · split
    · dsimp only
      split
      · exact State.frameReady_wf (wf_of_pair ‹_› (State.l2Find_wf hm))
      · exact wf_install _ _ (State.frameReady_wf (wf_of_pair ‹_› (State.l2Find_wf hm)))
    · exact wf_install _ _ (wf_of_pair ‹_› (State.l2Find_wf hm))
    · split
      · exact State.lineReady_wf (wf_of_pair ‹_› (State.l2Find_wf hm))
      · exact wf_of_pair ‹_› (State.l2Find_wf hm)
    · exact State.l2Find_wf hm

theorem State.load_wf {x w va n pol ext wait} (hm : s.mem.wf = true) : (s.load x w va n pol ext wait).2.mem.wf = true := by
  unfold State.load
  split
  · exact wf_of_pair ‹_› (State.xlate_wf hm)
  · exact wf_of_pair ‹_› (State.xlate_wf hm)
  · split
    · split
      · split
        · exact wf_of_pair ‹_› (State.xlate_wf hm)
        · dsimp only
          split
          · exact wf_demote _ _ (wf_of_pair ‹_› (State.xlate_wf hm))
          · exact State.askPeer_wf (wf_of_pair ‹_› (State.xlate_wf hm))
      · split
        · dsimp only
          split
          · exact wf_demote _ _ (wf_l1Rekey _ _ _ (wf_of_pair ‹_› (State.xlate_wf hm)))
          · split
            · exact State.keepLine_wf (wf_l1Rekey _ _ _ (wf_of_pair ‹_› (State.xlate_wf hm)))
            · split
              · exact wf_l1Rekey _ _ _ (wf_of_pair ‹_› (State.xlate_wf hm))
              · exact State.askHost_wf (wf_l1Rekey _ _ _ (wf_of_pair ‹_› (State.xlate_wf hm)))
        · dsimp only
          split
          · exact wf_demote _ _ (wf_l1Rekey _ _ _ (wf_of_pair ‹_› (State.xlate_wf hm)))
          · split
            · exact wf_of_pair ‹_› (State.l2Get_wf (wf_l1Rekey _ _ _ (wf_of_pair ‹_› (State.xlate_wf hm))))
            · exact wf_of_pair ‹_› (State.l2Get_wf (wf_l1Rekey _ _ _ (wf_of_pair ‹_› (State.xlate_wf hm))))
            · exact State.keepLine_wf (wf_of_pair ‹_› (State.l2Get_wf (wf_l1Rekey _ _ _ (wf_of_pair ‹_› (State.xlate_wf hm)))))
            · exact State.keepLine_wf (wf_of_pair ‹_› (State.l2Get_wf (wf_l1Rekey _ _ _ (wf_of_pair ‹_› (State.xlate_wf hm)))))
            · exact wf_of_pair ‹_› (State.l2Get_wf (wf_l1Rekey _ _ _ (wf_of_pair ‹_› (State.xlate_wf hm))))
    · split
      · split
        · exact wf_of_pair ‹_› (State.xlate_wf hm)
        · dsimp only
          split
          · exact wf_of_pair ‹_› (State.xlate_wf hm)
          · exact State.askPeer_wf (wf_of_pair ‹_› (State.xlate_wf hm))
      · split
        · dsimp only
          split
          · exact wf_l1Rekey _ _ _ (wf_of_pair ‹_› (State.xlate_wf hm))
          · split
            · exact State.keepLine_wf (wf_l1Rekey _ _ _ (wf_of_pair ‹_› (State.xlate_wf hm)))
            · split
              · exact wf_l1Rekey _ _ _ (wf_of_pair ‹_› (State.xlate_wf hm))
              · exact State.askHost_wf (wf_l1Rekey _ _ _ (wf_of_pair ‹_› (State.xlate_wf hm)))
        · dsimp only
          split
          · exact wf_l1Rekey _ _ _ (wf_of_pair ‹_› (State.xlate_wf hm))
          · split
            · exact wf_of_pair ‹_› (State.l2Get_wf (wf_l1Rekey _ _ _ (wf_of_pair ‹_› (State.xlate_wf hm))))
            · exact wf_of_pair ‹_› (State.l2Get_wf (wf_l1Rekey _ _ _ (wf_of_pair ‹_› (State.xlate_wf hm))))
            · exact State.keepLine_wf (wf_of_pair ‹_› (State.l2Get_wf (wf_l1Rekey _ _ _ (wf_of_pair ‹_› (State.xlate_wf hm)))))
            · exact State.keepLine_wf (wf_of_pair ‹_› (State.l2Get_wf (wf_l1Rekey _ _ _ (wf_of_pair ‹_› (State.xlate_wf hm)))))
            · exact wf_of_pair ‹_› (State.l2Get_wf (wf_l1Rekey _ _ _ (wf_of_pair ‹_› (State.xlate_wf hm))))

theorem State.overtake_wf {k} (hm : s.mem.wf = true) : (s.overtake k).mem.wf = true := hm

theorem wf_hostCopies {core k off n v} (hm : m.wf = true) : (m.hostCopies core k off n v).wf = true := by
  unfold Mem.hostCopies
  have hl : (match m.l2.find k with
      | some y => m.setLine k { y with data := lset y.data off n v }
      | none => m).wf = true := by
    split
    · exact wf_setLine _ _ hm
    · exact hm
  dsimp only
  split
  · exact hl
  · split
    · exact wf_of_same hl rfl rfl
    · exact hl

theorem State.store_wf {x w held va n v pol} (hm : s.mem.wf = true) : (s.store x w held va n v pol).2.mem.wf = true := by
  unfold State.store
  split
  · exact wf_of_pair ‹_› (State.xlate_wf hm)
  · exact wf_of_pair ‹_› (State.xlate_wf hm)
  · split
    · exact wf_of_pair ‹_› (State.xlate_wf hm)
    · split
      · split
        · exact wf_of_pair ‹_› (State.xlate_wf hm)
        · refine State.askPeer_wf ?_
          refine State.overtake_wf ?_
          dsimp only
          exact wf_of_pair ‹_› (State.xlate_wf hm)
      · split
        · exact State.hostWrite_wf (State.overtake_wf (wf_hostCopies (wf_of_pair ‹_› (State.xlate_wf hm))))
        · split
          · dsimp only
            split
            · exact wf_homeWrite _ _ _ _ _ (wf_of_pair ‹_› (State.l2Get_wf (wf_l1Evict _ _ (wf_of_pair ‹_› (State.xlate_wf hm)))))
            · exact wf_of_pair ‹_› (State.l2Get_wf (wf_l1Evict _ _ (wf_of_pair ‹_› (State.xlate_wf hm))))
            · exact wf_of_pair ‹_› (State.l2Get_wf (wf_l1Evict _ _ (wf_of_pair ‹_› (State.xlate_wf hm))))
          · split
            · dsimp only
              split
              · exact wf_demote _ _ (wf_l1Store _ _ _ _ _ (wf_l1Rekey _ _ _ (wf_of_pair ‹_› (State.xlate_wf hm))))
              · split
                · exact wf_demote _ _ (wf_l1Store _ _ _ _ _ (wf_l1Fill _ _ _ _ _ _ _ (wf_of_pair ‹_› (State.l2Get_wf (wf_l1Rekey _ _ _
                    (wf_of_pair ‹_› (State.xlate_wf hm)))))))
                · exact wf_of_pair ‹_› (State.l2Get_wf (wf_l1Rekey _ _ _ (wf_of_pair ‹_› (State.xlate_wf hm))))
                · exact wf_of_pair ‹_› (State.l2Get_wf (wf_l1Rekey _ _ _ (wf_of_pair ‹_› (State.xlate_wf hm))))
            · dsimp only
              split
              · exact wf_l1Store _ _ _ _ _ (wf_l1Rekey _ _ _ (wf_of_pair ‹_› (State.xlate_wf hm)))
              · split
                · exact wf_l1Store _ _ _ _ _ (wf_l1Fill _ _ _ _ _ _ _ (wf_of_pair ‹_› (State.l2Get_wf (wf_l1Rekey _ _ _ (wf_of_pair ‹_›
                    (State.xlate_wf hm))))))
                · exact wf_of_pair ‹_› (State.l2Get_wf (wf_l1Rekey _ _ _ (wf_of_pair ‹_› (State.xlate_wf hm))))
                · exact wf_of_pair ‹_› (State.l2Get_wf (wf_l1Rekey _ _ _ (wf_of_pair ‹_› (State.xlate_wf hm))))

theorem State.releaseAt_wf {core sc} (hm : s.mem.wf = true) : (s.releaseAt core sc).mem.wf = true := by
  unfold State.releaseAt
  split
  · exact hm
  · exact hm
  · exact wf_l1Publish _ hm
  · exact wf_l1Publish _ hm
  · exact wf_poolPublish (wf_l1Publish _ hm)

theorem State.releaseEnd_wf {ctx sc} (hm : s.mem.wf = true) : (s.releaseEnd ctx sc).mem.wf = true := by
  unfold State.releaseEnd
  split <;> exact hm

theorem State.acquireAt_wf {core ctx sc} (hm : s.mem.wf = true) : (s.acquireAt core ctx sc).mem.wf = true := by
  unfold State.acquireAt
  split
  · exact hm
  · exact hm
  · exact wf_l1Acquire _ hm
  · exact wf_l1Acquire _ hm
  · exact hm

theorem State.acquired_wf {r} (hm : s.mem.wf = true) : (s.acquired r).mem.wf = true := by
  unfold State.acquired
  split
  · exact State.acquireAt_wf hm
  · exact hm

theorem State.releaseThen_wf {x sc rel} {k : State → Res × State} (hk : ∀ t : State, t.mem.wf = true → (k t).2.mem.wf = true)
    (hm : s.mem.wf = true) : (s.releaseThen x sc rel k).2.mem.wf = true := by
  unfold State.releaseThen
  split
  · exact hk _ hm
  · have hr : (s.releaseAt x.core sc).mem.wf = true := State.releaseAt_wf hm
    dsimp only
    split
    · exact hk _ (State.releaseEnd_wf hr)
    · exact hr

theorem State.atomic_wf {x w va f acq rel thr} (hm : s.mem.wf = true) : (s.atomic x w va f acq rel thr).2.mem.wf = true := by
  unfold State.atomic
  have hx := State.xlate_wf (x := x) (va := va) (k := .write) hm
  split
  · exact wf_of_pair ‹_› hx
  · exact wf_of_pair ‹_› hx
  · replace hx := wf_of_pair ‹_› hx
    dsimp only
    split
    · exact hx
    · split
      · split
        · exact hx
        · exact State.releaseThen_wf (fun _ ht => State.askPeer_wf ht) hx
      · split
        · split
          · exact hx
          · exact State.releaseThen_wf (fun _ ht => State.askHost_wf ht) hx
        · split
          · exact wf_of_pair ‹_› (State.l2Get_wf (wf_l1Evict _ _ hx))
          · refine State.releaseThen_wf (fun t ht => ?_) (wf_of_pair ‹_› (State.l2Get_wf (wf_l1Evict _ _ hx)))
            split
            · dsimp only
              split
              · exact State.acquireAt_wf (wf_homeWrite _ _ _ _ _ (wf_of_pair ‹_› (State.l2Get_wf ht)))
              · exact wf_homeWrite _ _ _ _ _ (wf_of_pair ‹_› (State.l2Get_wf ht))
            · exact wf_of_pair ‹_› (State.l2Get_wf ht)
            · exact wf_of_pair ‹_› (State.l2Get_wf ht)
          · exact wf_of_pair ‹_› (State.l2Get_wf (wf_l1Evict _ _ hx))

theorem State.homeStore_wf {x w va bytes} (hm : s.mem.wf = true) : (s.homeStore x w va bytes).2.mem.wf = true := by
  unfold State.homeStore
  split
  · exact wf_of_pair ‹_› (State.xlate_wf hm)
  · exact wf_of_pair ‹_› (State.xlate_wf hm)
  · split
    · exact wf_of_pair ‹_› (State.xlate_wf hm)
    · split
      · exact wf_of_pair ‹_› (State.xlate_wf hm)
      · split
        · split
          · exact wf_of_pair ‹_› (State.xlate_wf hm)
          · refine State.askPeer_wf ?_
            refine State.overtake_wf ?_
            dsimp only
            exact wf_of_pair ‹_› (State.xlate_wf hm)
        · split
          · exact State.hostWrite_wf (State.overtake_wf (wf_hostCopies (wf_of_pair ‹_› (State.xlate_wf hm))))
          · split
            · exact wf_homeWrite _ _ _ _ _ (wf_of_pair ‹_› (State.l2Get_wf (wf_of_pair ‹_› (State.xlate_wf hm))))
            · exact wf_of_pair ‹_› (State.l2Get_wf (wf_of_pair ‹_› (State.xlate_wf hm)))
            · exact wf_of_pair ‹_› (State.l2Get_wf (wf_of_pair ‹_› (State.xlate_wf hm)))

/-! ## Instruction fetch -/

theorem State.fetchXlate_wf {x} (ps : List (W64 × Nat)) (hm : s.mem.wf = true) : (s.fetchXlate x ps).2.mem.wf = true := by
  induction ps generalizing s with
  | nil => exact hm
  | cons p ps ih =>
    unfold State.fetchXlate
    repeat' first
      | exact State.xlate_wf hm
      | exact ih (wf_of_pair ‹_› (State.xlate_wf hm))
      | refine wf_of_pair ‹_› ?_
      | split

theorem State.fetchPart_wf {x l a n} (hm : s.mem.wf = true) : (s.fetchPart x l a n).2.mem.wf = true := by
  unfold State.fetchPart
  dsimp only
  split
  · exact wf_l1Rekey _ _ _ hm
  · split <;> exact wf_of_pair ‹_› (State.l2Get_wf (wf_l1Rekey _ _ _ hm))

theorem State.fetchRead_wf {x va} (ps : List (W64 × Leaf × Nat × Nat)) (hm : s.mem.wf = true) :
    (s.fetchRead x va ps).2.mem.wf = true := by
  induction ps generalizing s with
  | nil => exact hm
  | cons p ps ih =>
    unfold State.fetchRead
    repeat' first
      | exact State.fetchPart_wf hm
      | exact ih (wf_of_pair ‹_› (State.fetchPart_wf hm))
      | refine wf_of_pair ‹_› ?_
      | split

theorem State.fetchAt_wf {x va n} (hm : s.mem.wf = true) : (s.fetchAt x va n).2.mem.wf = true := by
  unfold State.fetchAt
  split
  · exact wf_of_pair ‹_› (State.fetchXlate_wf _ hm)
  · exact State.fetchRead_wf _ (wf_of_pair ‹_› (State.fetchXlate_wf _ hm))

theorem State.fetchScalar_wf {g} (hm : s.mem.wf = true) : (s.fetchScalar g).2.mem.wf = true := State.fetchAt_wf hm

theorem State.fetchLane_wf {g u} (hm : s.mem.wf = true) : (s.fetchLane g u).2.mem.wf = true := by
  unfold State.fetchLane
  dsimp only
  split
  · exact hm
  · exact State.fetchAt_wf hm

/-! ## Splits -/

theorem execDecisionQueuePop_wf {g} (hm : s.mem.wf = true) : WfOut (execDecisionQueuePop g s) := by
  unfold execDecisionQueuePop
  refine wfOut_next ?_
  split <;> exact hm

theorem execNextMerge_wf {g} (hm : s.mem.wf = true) : WfOut (execNextMerge g s) := by
  unfold execNextMerge
  refine wfOut_next ?_
  split <;> exact hm

theorem execRunStart_wf {core lp ln} (hm : s.mem.wf = true) : WfOut (execRunStart core lp ln s) := by
  unfold execRunStart
  split
  · dsimp only
    split
    · exact hm
    · split <;> exact hm
  · dsimp only
    split
    · exact hm
    · split <;> exact hm

theorem execHeldTrapEntry_wf {g} (hm : s.mem.wf = true) : WfOut (execHeldTrapEntry g s) := by
  unfold execHeldTrapEntry
  dsimp only
  split
  · exact hm
  · split
    · exact State.enterTrap_wf hm
    · exact hm

theorem execSleepWake_wf {g n} (hm : s.mem.wf = true) : WfOut (execSleepWake g n s) := by
  unfold execSleepWake
  dsimp only
  split
  · exact hm
  · split <;> exact hm

/-! ## Operands and threads -/

theorem State.setDst_wf {d wide k v} (hm : s.mem.wf = true) : (s.setDst d wide k v).mem.wf = true := by
  unfold State.setDst
  split <;> exact hm

theorem State.setDsts_wf {d wide v ks} (hm : s.mem.wf = true) : (s.setDsts d wide v ks).mem.wf = true :=
    wf_foldlState _ _ hm (fun _ _ hs => State.setDst_wf hs)

theorem State.holdOne_wf {k h x} (hm : s.mem.wf = true) : (s.holdOne k h x).mem.wf = true := by
  unfold State.holdOne
  split <;> exact hm

theorem State.copyHolds_wf {l k} (hm : s.mem.wf = true) : (s.copyHolds l k).mem.wf = true :=
    State.holdOne_wf (State.holdOne_wf (State.holdOne_wf hm))

theorem State.markLatch_wf {l} (hm : s.mem.wf = true) : (s.markLatch l).mem.wf = true := by
  unfold State.markLatch
  split <;> exact hm

theorem laneThreads_wf {l wide} {f : Nat → State → TOut} (hf : ∀ k t, t.mem.wf = true → WfThread (f k t)) (ks : List Nat)
    (hm : s.mem.wf = true) : WfFlow (laneThreads l wide f ks s) := by
  induction ks generalizing s with
  | nil => exact hm
  | cons k ks ih =>
    have hk : WfThread (f k (s.markLatch l)) := hf k _ (State.markLatch_wf hm)
    unfold laneThreads
    split
    · split
      all_goals
        rename_i e
        rw [e] at hk
      · exact ih (State.setDst_wf (State.copyHolds_wf hk))
      · exact ih (State.copyHolds_wf hk)
      · exact State.laneTrap_wf hk
      · exact hk
      · exact hk
    · refine ih ?_
      split
      · exact hm
      · exact State.copyHolds_wf hm

theorem State.copyAll_wf {l ks} (hm : s.mem.wf = true) : (s.copyAll l ks).mem.wf = true := by
  unfold State.copyAll
  split
  · exact hm
  · exact wf_foldlState _ _ hm (fun _ _ hs => State.copyHolds_wf hs)

theorem laneUniform_wf {l wide} {f : Nat → State → TOut} (hf : ∀ k t, t.mem.wf = true → WfThread (f k t)) {ks : List Nat}
    (hm : s.mem.wf = true) : WfFlow (laneUniform l wide f ks s) := by
  unfold laneUniform
  split
  · exact hm
  · next k _ =>
    have hk : WfThread (f k (s.markLatch l)) := hf k _ (State.markLatch_wf hm)
    split
    · split
      all_goals
        rename_i e
        rw [e] at hk
      · exact State.setDsts_wf (State.copyAll_wf hk)
      · exact State.copyAll_wf hk
      · exact State.laneTrap_wf hk
      · exact hk
      · exact hk
    · exact State.copyAll_wf hm

theorem State.laneBegin_wf {i l} (hm : s.mem.wf = true) : WfBegin (s.laneBegin i l) := by
  unfold State.laneBegin
  split
  · exact State.killCur_wf hm
  · dsimp only
    split
    · exact State.laneTrap_wf hm
    · exact hm

theorem State.runOver_wf {o} (hm : s.mem.wf = true) : (s.runOver o).mem.wf = true := by
  cases o
  · exact State.killCur_wf hm
  · exact hm

theorem State.laneEnd_wf {fin} (hm : s.mem.wf = true) : (s.laneEnd fin).mem.wf = true := by
  unfold State.laneEnd
  split
  · exact hm
  · exact State.runOver_wf hm

theorem State.lane_wf {i l wide} {f : Nat → State → TOut} (hf : ∀ k t, t.mem.wf = true → WfThread (f k t)) (hm : s.mem.wf = true) :
    WfOut (s.lane i l wide f) := by
  have hb := State.laneBegin_wf (i := i) (l := l) hm
  unfold State.lane
  split
  all_goals
    rename_i t e
    rw [e] at hb
  · exact hb
  · have hp : WfFlow (if l.u then laneUniform l wide f t.active t else laneThreads l wide f t.toPass t) := by
      split
      · exact laneUniform_wf hf hb
      · exact laneThreads_wf hf _ hb
    split
    all_goals
      rename_i e
      rw [e] at hp
    · exact hp
    · exact State.laneEnd_wf hp

theorem State.laneOnce_wf {i l} {f : State → Flow} (hf : ∀ t, t.mem.wf = true → WfFlow (f t)) (hm : s.mem.wf = true) :
    WfOut (s.laneOnce i l f) := by
  have hb := State.laneBegin_wf (i := i) (l := l) hm
  unfold State.laneOnce
  split
  all_goals
    rename_i t e
    rw [e] at hb
  · exact hb
  · have hp := hf (t.modSplit fun x => { x with whole := true }) hb
    split
    all_goals
      rename_i e
      rw [e] at hp
    · exact hp
    · exact State.laneEnd_wf hp

theorem State.withFlags_wf {k r} (hm : s.mem.wf = true) : WfThread (s.withFlags k r) := by
  unfold State.withFlags
  dsimp only
  split <;> exact hm

theorem State.drawFor_wf {mode k} (hm : s.mem.wf = true) : (s.drawFor mode k).2.mem.wf = true := by
  unfold State.drawFor
  split <;> exact hm

/-! ## Lane control -/

theorem State.branch_wf {i l f} (hm : s.mem.wf = true) : WfOut (s.branch i l f) := by
  have hb := State.laneBegin_wf (i := i) (l := l) hm
  unfold State.branch
  split
  all_goals
    rename_i t e
    rw [e] at hb
  · exact hb
  · dsimp only
    split
    · exact State.laneTrap_wf hb
    · exact State.runOver_wf hb
    · exact State.runOver_wf hb

theorem execBrl_wf {l} (hm : s.mem.wf = true) : WfOut (execBrl l s) := State.branch_wf hm

theorem execJoin_wf {l} (hm : s.mem.wf = true) : WfOut (execJoin l s) := State.branch_wf hm

theorem execCall_wf {l f} (hm : s.mem.wf = true) : WfOut (execCall l f s) := State.branch_wf hm

theorem execCallr_wf {l f} (hm : s.mem.wf = true) : WfOut (execCallr l f s) := State.branch_wf hm

theorem execRet_wf {l} (hm : s.mem.wf = true) : WfOut (execRet l s) := State.branch_wf hm

theorem execSleep_wf {l ev} (hm : s.mem.wf = true) : WfOut (execSleep l ev s) := by
  unfold execSleep
  refine State.laneOnce_wf ?_ hm
  intro _ hs
  dsimp only
  split <;> exact hs

theorem execYield_wf {l} (hm : s.mem.wf = true) : WfOut (execYield l s) := by
  unfold execYield
  refine State.laneOnce_wf ?_ hm
  intro _ hs
  split <;> exact hs

theorem execTrap_wf {l} (hm : s.mem.wf = true) : WfOut (execTrap l s) := by
  unfold execTrap
  refine State.lane_wf ?_ hm
  intro _ _ hs
  split <;> exact hs

theorem execBpt_wf {l} (hm : s.mem.wf = true) : WfOut (execBpt l s) := by
  unfold execBpt
  refine State.lane_wf ?_ hm
  intro _ _ hs
  split <;> exact hs

theorem State.lanePrivTrap_wf {i} (hm : s.mem.wf = true) : (s.lanePrivTrap i).mem.wf = true := State.laneTrap_wf hm

theorem State.lanePrivileged_wf {i o} (hm : s.mem.wf = true) (ho : WfOut o) : WfOut (s.lanePrivileged i o) := by
  unfold State.lanePrivileged
  split
  · exact ho
  · exact State.lanePrivTrap_wf hm

theorem State.passThread_wf {k v} (hm : s.mem.wf = true) : (s.passThread k v).mem.wf = true := by
  unfold State.passThread
  split
  · exact hm
  · split
    · split
      · split
        · exact State.setDst_wf hm
        · exact hm
      · split
        · exact State.setDst_wf (State.copyHolds_wf hm)
        · exact State.copyHolds_wf hm
    · split
      · exact State.setDst_wf hm
      · exact hm

theorem State.passOver_wf (hm : s.mem.wf = true) : (s.passOver).mem.wf = true := by
  unfold State.passOver
  dsimp only
  split
  · split
    · split
      · exact hm
      · split
        · exact hm
        · exact State.killCur_wf hm
    · split
      · exact hm
      · split
        · exact hm
        · exact State.killCur_wf hm
  · exact hm

theorem State.tret_wf {i l how val} (hm : s.mem.wf = true) : WfOut (s.tret i l how val) := by
  unfold State.tret
  extract_lets g bank here t k below x wide sl v moved sr sa sp st
  have hr : sr.mem.wf = true := State.laneReturn_wf (State.markLatch_wf hm)
  have ha : sa.mem.wf = true := by
    unfold sa
    split <;> exact hr
  have ht : st.mem.wf = true := State.passThread_wf ha
  clear_value sa st
  split
  · exact State.lanePrivTrap_wf hm
  iterate 2
    split
    · exact State.killLane_wf hm
  split
  · trivial
  split
  · exact State.killLane_wf hm
  split
  · split
    · exact State.passOver_wf ht
    · exact ht
  split
  · split
    · exact State.setDst_wf ha
    · exact ha
  · exact ha

theorem execTret_wf {l} (hm : s.mem.wf = true) : WfOut (execTret l s) := State.tret_wf hm

theorem execTretSkip_wf {l} (hm : s.mem.wf = true) : WfOut (execTretSkip l s) := State.tret_wf hm

theorem execTretVal_wf {l} (hm : s.mem.wf = true) : WfOut (execTretVal l s) := State.tret_wf hm

theorem execTretPark_wf {l} (hm : s.mem.wf = true) : WfOut (execTretPark l s) := State.tret_wf hm

/-! ## Scalar control -/

theorem State.sdivide_wf {d a b f} (hm : s.mem.wf = true) : WfOut (s.sdivide d a b f) := by
  unfold State.sdivide
  split
  · exact State.scalarTrap_wf hm
  · exact hm

theorem State.sjumpReg_wf {t link} (hm : s.mem.wf = true) : WfOut (s.sjumpReg t link) := by
  unfold State.sjumpReg
  split
  · exact State.scalarTrap_wf hm
  · refine wfOut_next ?_
    split <;> exact hm

theorem execSdiv_wf {d a b} (hm : s.mem.wf = true) : WfOut (execSdiv d a b s) := State.sdivide_wf hm

theorem execSdivn_wf {d a b} (hm : s.mem.wf = true) : WfOut (execSdivn d a b s) := State.sdivide_wf hm

theorem execSrem_wf {d a b} (hm : s.mem.wf = true) : WfOut (execSrem d a b s) := State.sdivide_wf hm

theorem execSremn_wf {d a b} (hm : s.mem.wf = true) : WfOut (execSremn d a b s) := State.sdivide_wf hm

theorem execSbr_wf {c n o} (hm : s.mem.wf = true) : WfOut (execSbr c n o s) := by
  unfold execSbr
  refine wfOut_next ?_
  split <;> exact hm

theorem execSjr_wf {a} (hm : s.mem.wf = true) : WfOut (execSjr a s) := State.sjumpReg_wf hm

theorem execSjrl_wf {a} (hm : s.mem.wf = true) : WfOut (execSjrl a s) := State.sjumpReg_wf hm

theorem execSret_wf (hm : s.mem.wf = true) : WfOut (execSret s) := State.sjumpReg_wf hm

theorem execSloop_wf {d i} (hm : s.mem.wf = true) : WfOut (execSloop d i s) := by
  unfold execSloop
  refine wfOut_next ?_
  split <;> exact hm

/-! ## Scalar accesses -/

theorem State.askXlat_wf {w x va write} (hm : s.mem.wf = true) : (s.askXlat w x va write).2.mem.wf = true := by
  unfold State.askXlat
  split
  · exact hm
  · split
    · dsimp only
      split
      · split
        · exact hm
        · split <;> exact hm
      · split
        · exact hm
        · exact State.askHost_wf hm
    · dsimp only
      split
      · split
        · exact hm
        · split <;> exact hm
      · split
        · exact hm
        · exact State.askHost_wf hm

theorem State.saccess_wf {i va write} {r : Res × State} {k : Nat → State → State} (hk : ∀ v t, t.mem.wf = true → (k v t).mem.wf = true)
    (hr : r.2.mem.wf = true) : WfOut (s.saccess i va write r k) := by
  obtain ⟨a, t⟩ := r
  have hx : (t.askXlat (.scalar s.curGid) t.sacc va write).2.mem.wf = true := State.askXlat_wf hr
  unfold State.saccess
  split <;> rename_i e <;> cases e
  · exact hk _ _ hr
  · exact State.scalarTrap_wf hr
  · exact hr
  · exact hr
  · exact hr
  · split
    all_goals replace hx := wf_of_pair ‹_› hx
    · exact hx
    · exact State.scalarTrap_wf hx
    · exact hx
  · exact hr

theorem State.scratchStore_wf {tid a n v} (hm : s.mem.wf = true) : (s.scratchStore tid a n v).2.mem.wf = true := by
  unfold State.scratchStore
  split
  · exact hm
  · split <;> exact hm

theorem State.scratchAtomic_wf {tid a f} (hm : s.mem.wf = true) : (s.scratchAtomic tid a f).2.mem.wf = true := by
  unfold State.scratchAtomic
  split
  · exact hm
  · split
    · dsimp only
      split <;> exact hm
    · dsimp only
      split <;> exact hm

theorem State.sloadWith_wf {i va n} {k : Nat → State → State} (hk : ∀ v t, t.mem.wf = true → (k v t).mem.wf = true)
    (hm : s.mem.wf = true) : WfOut (s.sloadWith i va n k) := by
  unfold State.sloadWith
  repeat' first
    | exact State.scalarTrap_wf hm
    | exact hk _ _ hm
    | exact State.saccess_wf hk (State.load_wf hm)
    | split

theorem execSld_wf {d a z o} (hm : s.mem.wf = true) : WfOut (execSld d a z o s) := State.sloadWith_wf (fun _ _ hs => hs) hm

theorem execSldx_wf {d a z o} (hm : s.mem.wf = true) : WfOut (execSldx d a z o s) := State.sloadWith_wf (fun _ _ hs => hs) hm

theorem execSst_wf {r a z o} (hm : s.mem.wf = true) : WfOut (execSst r a z o s) := by
  unfold execSst
  dsimp only
  split
  · exact State.scalarTrap_wf hm
  · split
    · split
      · exact State.bump_wf (wf_of_pair ‹_› (State.scratchStore_wf hm))
      · exact State.scalarTrap_wf (wf_of_pair ‹_› (State.scratchStore_wf hm))
    · exact State.saccess_wf (fun _ _ hs => State.bump_wf hs) (State.store_wf hm)

theorem execSatom_wf {d a b o} (hm : s.mem.wf = true) : WfOut (execSatom d a b o s) := by
  unfold execSatom
  dsimp only
  split
  · exact State.scalarTrap_wf hm
  · split
    · split
      · exact State.sput_wf (wf_of_pair ‹_› (State.scratchAtomic_wf hm))
      · exact State.scalarTrap_wf (wf_of_pair ‹_› (State.scratchAtomic_wf hm))
    · exact State.saccess_wf (fun _ _ hs => State.sput_wf hs) (State.atomic_wf hm)

theorem State.finishAccess_wf {i v} (hm : s.mem.wf = true) : (s.finishAccess i v).mem.wf = true := by
  unfold State.finishAccess
  split <;> exact hm

theorem State.enqueue_wf {i r} (hm : s.mem.wf = true) : (s.enqueue i r).mem.wf = true := by
  unfold State.enqueue
  split <;> exact hm

theorem State.runCommand_wf {i d start} (hm : s.mem.wf = true) : WfOut (s.runCommand i d start) := by
  unfold State.runCommand
  split
  · exact State.scalarTrap_wf hm
  · split
    · exact State.endGroup_wf hm
    · exact State.enqueue_wf hm

theorem execLrun_wf {d i} (hm : s.mem.wf = true) : WfOut (execLrun d i s) := State.runCommand_wf hm

theorem execLrunr_wf {d a} (hm : s.mem.wf = true) : WfOut (execLrunr d a s) := by
  unfold execLrunr
  split
  · exact State.scalarTrap_wf hm
  · exact State.runCommand_wf hm

theorem execLrunEnqueue_wf {g} (hm : s.mem.wf = true) : WfOut (execLrunEnqueue g s) := by
  unfold execLrunEnqueue
  dsimp only
  split
  · exact State.enqueue_wf hm
  · exact State.enqueue_wf hm
  · exact hm

theorem State.lquiet_wf (hm : s.mem.wf = true) : (s.lquiet).mem.wf = true := by
  unfold State.lquiet
  split
  · split
    · exact hm
    · exact State.endGroup_wf hm
  · exact hm

theorem execLquiet_wf (hm : s.mem.wf = true) : WfOut (execLquiet s) := State.lquiet_wf hm

theorem execLquietComplete_wf {g} (hm : s.mem.wf = true) : WfOut (execLquietComplete g s) := by
  unfold execLquietComplete
  dsimp only
  split
  · exact State.lquiet_wf hm
  · exact hm

/-! ## Engines -/

theorem State.engAsk_wf {w x va write} (hm : s.mem.wf = true) : (s.engAsk w x va write).2.mem.wf = true := by
  unfold State.engAsk
  split <;> exact wf_of_pair ‹_› (State.askXlat_wf hm)

theorem State.engFetch_wf {w x va n a reqs} {ask : State → State} (ha : ∀ t : State, t.mem.wf = true → (ask t).mem.wf = true)
    (hm : s.mem.wf = true) : (s.engFetch w x va n a reqs ask).2.mem.wf = true := by
  unfold State.engFetch
  repeat' first
    | exact hm
    | exact ha _ hm
    | split

theorem State.engPart_wf {x w va n pol} (hm : s.mem.wf = true) : (s.engPart x w va n pol).2.mem.wf = true := by
  have hx := State.xlate_wf (x := x) (va := va) (k := .read) hm
  unfold State.engPart
  split
  · exact wf_of_pair ‹_› hx
  · exact State.engAsk_wf (wf_of_pair ‹_› hx)
  · replace hx := wf_of_pair ‹_› hx
    extract_lets
    split
    · exact hx
    · split
      · split
        · exact hx
        · split
          · exact hx
          · exact State.engFetch_wf (fun _ ht => State.askPeer_wf ht) hx
      · split
        · split
          · exact hx
          · split
            · exact hx
            · exact State.engFetch_wf (fun _ ht => State.askHost_wf ht) hx
        · split <;> exact wf_of_pair ‹_› (State.l2Get_wf hx)

theorem State.engParts_wf {x w} (ps : List (W64 × Nat)) (hm : s.mem.wf = true) : (s.engParts x w ps).2.mem.wf = true := by
  induction ps generalizing s with
  | nil => exact hm
  | cons p ps ih =>
    unfold State.engParts
    repeat' first
      | exact State.engPart_wf hm
      | exact ih (wf_of_pair ‹_› (State.engPart_wf hm))
      | refine wf_of_pair ‹_› ?_
      | split

theorem State.dropFetched_wf {w ps} (hm : s.mem.wf = true) : (s.dropFetched w ps).mem.wf = true := hm

theorem State.engRead_wf {x w va n} (hm : s.mem.wf = true) : (s.engRead x w va n).2.mem.wf = true := by
  unfold State.engRead
  dsimp only
  split
  · exact wf_of_pair ‹_› (State.engParts_wf _ hm)
  · exact State.dropFetched_wf (wf_of_pair ‹_› (State.engParts_wf _ hm))

theorem State.engLine_wf {x w va n pol} (hm : s.mem.wf = true) : (s.engLine x w va n pol).2.mem.wf = true := by
  unfold State.engLine
  split
  · exact wf_of_pair ‹_› (State.engPart_wf hm)
  · exact State.dropFetched_wf (wf_of_pair ‹_› (State.engPart_wf hm))

theorem State.engWriteParts_wf {x w b} (ps : List (W64 × Nat)) (hm : s.mem.wf = true) : (s.engWriteParts x w ps b).2.mem.wf = true := by
  induction ps generalizing s b with
  | nil => exact hm
  | cons p ps ih =>
    unfold State.engWriteParts
    split
    · exact wf_of_pair ‹_› (State.homeStore_wf hm)
    · exact State.engAsk_wf (wf_of_pair ‹_› (State.homeStore_wf hm))
    · exact wf_of_pair ‹_› (State.homeStore_wf hm)
    · exact ih (wf_of_pair ‹_› (State.homeStore_wf hm))

theorem State.engWrite_wf {x w va b} (hm : s.mem.wf = true) : (s.engWrite x w va b).2.mem.wf = true := State.engWriteParts_wf _ hm

theorem State.engCheck_wf {x va n write} (hm : s.mem.wf = true) : (s.engCheck x va n write).2.mem.wf = true := by
  unfold State.engCheck
  refine wf_foldlPair _ _ hm fun p q hp => ?_
  repeat' first
    | exact hp
    | exact State.xlate_wf hp
    | exact wf_of_pair ‹_› (State.l2Get_wf (wf_of_pair ‹_› (State.xlate_wf hp)))
    | refine wf_of_pair ‹_› ?_
    | split

theorem State.shaltEvent_wf {bit} (hm : s.mem.wf = true) : (s.shaltEvent bit).mem.wf = true := hm

theorem State.putRecord_wf {r} (hm : s.mem.wf = true) : (s.putRecord r).mem.wf = true := by
  unfold State.putRecord
  dsimp only
  split
  · dsimp only
    exact wf_of_pair ‹_› (State.engWrite_wf hm)
  · refine State.shaltEvent_wf ?_
    dsimp only
    exact wf_of_pair ‹_› (State.engWrite_wf hm)

theorem State.postRecord_wf {r} (hm : s.mem.wf = true) : (s.postRecord r).mem.wf = true := by
  unfold State.postRecord
  split
  · exact State.putRecord_wf hm
  · exact hm

theorem State.postWaiting_wf (hm : s.mem.wf = true) : (s.postWaiting).mem.wf = true := by
  unfold State.postWaiting
  split
  · exact hm
  · split
    · exact State.putRecord_wf hm
    · exact hm

theorem State.postAll_wf (n : Nat) (hm : s.mem.wf = true) : (s.postAll n).mem.wf = true := by
  induction n generalizing s with
  | zero => exact hm
  | succ n ih => exact ih (State.postWaiting_wf hm)

theorem State.postFault_wf {gid source cause va thr} (hm : s.mem.wf = true) : (s.postFault gid source cause va thr).mem.wf = true :=
    State.postRecord_wf hm

/-! ## Privileged lane instructions, the pager -/

theorem execLsrd_wf {l i wide} (hm : s.mem.wf = true) : WfOut (execLsrd l i wide s) :=
    State.lanePrivileged_wf hm (State.lane_wf (fun _ _ hs => hs) hm)

theorem execLswr_wf {l i wide} (hm : s.mem.wf = true) : WfOut (execLswr l i wide s) :=
    State.lanePrivileged_wf hm (State.lane_wf (fun _ _ hs => hs) hm)

theorem State.checkAll_wf {as n write} (hm : s.mem.wf = true) : (s.checkAll as n write).2.mem.wf = true := by
  unfold State.checkAll
  refine wf_foldlPair _ _ hm fun p q hp => ?_
  split
  · exact hp
  · exact State.engCheck_wf hp

theorem State.writeAllAs_wf {x w} (ps : List (W64 × List Byte)) (hm : s.mem.wf = true) : (s.writeAllAs x w ps).2.mem.wf = true := by
  induction ps generalizing s with
  | nil => exact hm
  | cons p ps ih =>
    unfold State.writeAllAs
    split
    · exact ih (wf_of_pair ‹_› (State.engWrite_wf hm))
    · exact State.engWrite_wf hm

theorem State.writeAll_wf {w ps} (hm : s.mem.wf = true) : (s.writeAll w ps).2.mem.wf = true := State.writeAllAs_wf _ hm

theorem State.readAll_wf {w n} (as : List W64) (hm : s.mem.wf = true) : WfReads (s.readAll w n as) := by
  induction as generalizing s with
  | nil => exact ⟨hm, fun _ _ e => nomatch e⟩
  | cons a as ih =>
    have hr := State.engRead_wf (x := s.privAcc) (w := w) (va := a) (n := n) hm
    unfold State.readAll
    split
    all_goals replace hr := wf_of_pair ‹_› hr
    · have hs := ih hr
      split
      · next e => rw [e] at hs; exact ⟨hs.1, fun _ _ e => nomatch e⟩
      · exact hs
    all_goals exact ⟨hr, fun _ _ e => by cases e; exact hr⟩

theorem State.spillWin_wf {n} (hm : s.mem.wf = true) : WfMoved (s.spillWin n) := by
  unfold State.spillWin
  dsimp only
  split
  · exact wf_of_pair ‹_› (State.checkAll_wf hm)
  · have hc := wf_of_pair ‹_› (State.checkAll_wf hm)
    split
    all_goals
      have hw := wf_of_pair ‹_› (State.writeAll_wf hc)
      exact hw

theorem State.fillWin_wf {n} (hm : s.mem.wf = true) : WfMoved (s.fillWin n) := by
  unfold State.fillWin
  extract_lets x d n js at_
  split
  · exact wf_of_pair ‹_› (State.checkAll_wf hm)
  · next t e =>
    have hr := State.readAll_wf (w := t.slotWaiter) (n := 4 * n) (js.map at_) (wf_of_pair e (State.checkAll_wf hm))
    split
    all_goals
      rename_i e
      rw [e] at hr
    · exact hr.2 _ _ rfl
    · exact hr.2 _ _ rfl
    · exact hr.1

theorem State.spillStk_wf {n} (hm : s.mem.wf = true) : WfMoved (s.spillStk n) := by
  unfold State.spillStk
  dsimp only
  split
  · exact wf_of_pair ‹_› (State.engCheck_wf hm)
  · have hc := wf_of_pair ‹_› (State.engCheck_wf hm)
    split
    all_goals
      have hw := wf_of_pair ‹_› (State.engWrite_wf hc)
      exact hw

theorem State.fillStk_wf {n} (hm : s.mem.wf = true) : WfMoved (s.fillStk n) := by
  unfold State.fillStk
  dsimp only
  split
  · exact wf_of_pair ‹_› (State.engCheck_wf hm)
  · have hc := wf_of_pair ‹_› (State.engCheck_wf hm)
    split
    all_goals
      have hw := wf_of_pair ‹_› (State.engRead_wf hc)
      exact hw

theorem State.mover_wf {i l} {f : State → Moved} (hf : ∀ t, t.mem.wf = true → WfMoved (f t)) (hm : s.mem.wf = true) :
    WfOut (s.mover i l f) := by
  refine State.lanePrivileged_wf hm ?_
  split
  · exact State.killLane_wf hm
  · refine State.lane_wf (fun _ t ht => ?_) hm
    have h := hf t ht
    split
    all_goals
      rename_i e
      rw [e] at h
      exact h

theorem execSpillwWin_wf {l} (hm : s.mem.wf = true) : WfOut (execSpillwWin l s) := State.mover_wf (fun _ => State.spillWin_wf) hm

theorem execSpillwStk_wf {l} (hm : s.mem.wf = true) : WfOut (execSpillwStk l s) := State.mover_wf (fun _ => State.spillStk_wf) hm

theorem execFillwWin_wf {l} (hm : s.mem.wf = true) : WfOut (execFillwWin l s) := State.mover_wf (fun _ => State.fillWin_wf) hm

theorem execFillwStk_wf {l} (hm : s.mem.wf = true) : WfOut (execFillwStk l s) := State.mover_wf (fun _ => State.fillStk_wf) hm

theorem State.romPark_wf {gid} (hm : s.mem.wf = true) : (s.romPark gid).mem.wf = true := State.laneReturn_wf (State.postFault_wf hm)

theorem State.romScalarPark_wf {gid} (hm : s.mem.wf = true) : (s.romScalarPark gid).mem.wf = true := State.postFault_wf hm

theorem Moved.rom_wf {r : Moved} {gid thr cause} (hr : WfMoved r) : (r.rom gid thr cause).mem.wf = true := by
  unfold Moved.rom
  split
  · split
    · exact State.killContext_wf hr
    · exact State.laneReturn_wf hr
  · exact State.laneTrap_wf hr
  · exact hr

theorem State.romLaneTurn_wf {gid} (hm : s.mem.wf = true) : (s.romLaneTurn gid).mem.wf = true := by
  unfold State.romLaneTurn
  dsimp only
  split
  · exact State.romPark_wf hm
  · split
    · exact Moved.rom_wf (State.spillWin_wf hm)
    · split
      · exact Moved.rom_wf (State.fillWin_wf hm)
      · split
        · split
          · exact Moved.rom_wf (State.spillStk_wf hm)
          · exact Moved.rom_wf (State.fillStk_wf hm)
        · exact State.killContext_wf hm

theorem State.romScalarTurn_wf {gid} (hm : s.mem.wf = true) : (s.romScalarTurn gid).mem.wf = true := by
  unfold State.romScalarTurn
  dsimp only
  split
  · split
    · exact State.romScalarPark_wf hm
    · exact State.killContext_wf hm
  · split
    · exact State.romScalarPark_wf hm
    · exact State.killContext_wf hm

theorem execPagerRecordPost_wf {g n} (hm : s.mem.wf = true) : WfOut (execPagerRecordPost g n s) := by
  unfold execPagerRecordPost
  split
  · refine wfOut_next ?_
    split
    · exact State.romPark_wf hm
    · exact hm
  · split
    · refine wfOut_next ?_
      split
      · split
        · exact State.romScalarPark_wf hm
        · exact hm
      · split
        · exact State.romScalarPark_wf hm
        · exact hm
    · exact State.postWaiting_wf hm

/-! ## Slices and copies -/

theorem execRinit_wf {a d} (hm : s.mem.wf = true) : WfOut (execRinit a d s) := by
  unfold execRinit
  dsimp only
  split <;> exact hm

theorem State.rawait_wf {a d ring n} (hm : s.mem.wf = true) : (s.rawait a d ring n).mem.wf = true := by
  unfold State.rawait
  dsimp only
  split <;> exact hm

theorem execRawait_wf {a d} (hm : s.mem.wf = true) : WfOut (execRawait a d s) := by
  unfold execRawait
  dsimp only
  split
  · exact hm
  · exact State.rawait_wf hm

theorem execRawaitRelease_wf {g} (hm : s.mem.wf = true) : WfOut (execRawaitRelease g s) := by
  unfold execRawaitRelease
  dsimp only
  split <;> exact hm

theorem execRrel_wf {a d} (hm : s.mem.wf = true) : WfOut (execRrel a d s) := by
  unfold execRrel
  dsimp only
  split
  · exact hm
  · split <;> exact hm

theorem State.closeUnopened_wf {t} (hm : s.mem.wf = true) : (s.closeUnopened t).mem.wf = true := hm

theorem State.cpycTake_wf {d b} (hm : s.mem.wf = true) : (s.cpycTake d b).mem.wf = true := by
  unfold State.cpycTake
  refine State.sput_wf ?_
  refine State.closeUnopened_wf ?_
  refine State.modCur_wf ?_
  split
  · exact State.teamEvent_wf (State.setTeam_wf hm)
  · exact State.setTeam_wf hm

theorem execCpyc_wf {a d} (hm : s.mem.wf = true) : WfOut (execCpyc a d s) := by
  unfold execCpyc
  refine wfOut_next ?_
  split
  · exact State.cpycTake_wf hm
  · exact hm

theorem State.cpycAdmit_wf {t} (hm : s.mem.wf = true) : (s.cpycAdmit t).mem.wf = true := by
  unfold State.cpycAdmit
  refine wf_foldlState _ _ hm ?_
  intro _ _ hs
  dsimp only
  split
  · split
    · exact State.cpycTake_wf hs
    · exact hs
  · exact hs

theorem execBankReservationTimeout_wf {i} (hm : s.mem.wf = true) : WfOut (execBankReservationTimeout i s) := by
  unfold execBankReservationTimeout
  split
  · split <;> exact hm
  · exact hm

theorem State.modSliceOf_wf {t n gid f} (hm : s.mem.wf = true) : (s.modSliceOf t n gid f).mem.wf = true := by
  unfold State.modSliceOf
  split <;> exact hm

theorem State.settleFe_wf {t} (hm : s.mem.wf = true) : (s.settleFe t).mem.wf = true := by
  unfold State.settleFe
  dsimp only
  split
  · exact hm
  · exact wf_foldlState _ _ hm (fun _ _ hs => State.setTeamFe_wf hs)

theorem State.endSlice_wf {t n gid code} (hm : s.mem.wf = true) : (s.endSlice t n gid code).mem.wf = true :=
    State.settleFe_wf (State.modSliceOf_wf hm)

theorem State.sliceFault_wf {t n gid cause va} (hm : s.mem.wf = true) : (s.sliceFault t n gid cause va).mem.wf = true := by
  unfold State.sliceFault
  split
  · exact hm
  · split
    · split
      · split
        · exact hm
        · exact State.postFault_wf (State.modSliceOf_wf hm)
      · exact State.endSlice_wf hm
    · exact State.endSlice_wf hm

theorem State.unitDone_wf {t n gid dropped} (hm : s.mem.wf = true) : (s.unitDone t n gid dropped).mem.wf = true := State.modSliceOf_wf hm

theorem State.granuleDue_wf {t n tt gran} (hm : s.mem.wf = true) : (s.granuleDue t n tt gran).mem.wf = true := State.settleFe_wf hm

theorem State.reserve_wf {t n f} (hm : s.mem.wf = true) : WfSome (s.reserve t n f) := by
  unfold State.reserve
  dsimp only
  split
  · split
    · exact wfSome_some hm
    · exact wfSome_none
  · split
    · exact wfSome_none
    · exact wfSome_some hm

theorem State.streamUnit_wf {x t n vas} (hm : s.mem.wf = true) : WfSome (s.streamUnit x t n vas) := by
  unfold State.streamUnit
  refine wfSome_foldl _ _ (wfSome_some hm) fun o va ho => wfSome_bind ho fun t ht => ?_
  split
  · exact State.reserve_wf ht
  · exact wfSome_some ht

theorem State.enginePolicy_wf {x va pol was} (hm : s.mem.wf = true) : (s.enginePolicy x va pol was).mem.wf = true := by
  unfold State.enginePolicy
  split
  · exact hm
  · split
    · split
      · exact wf_evictLine _ hm
      · exact hm
    · exact hm

theorem State.unitWrite_wf {x t n gid b u bytes} (hm : s.mem.wf = true) : (s.unitWrite x t n gid b u bytes).mem.wf = true := by
  unfold State.unitWrite
  split
  · split
    · dsimp only
      split
      · exact State.endSlice_wf hm
      · exact State.granuleDue_wf (State.unitDone_wf hm)
    · dsimp only
      split
      · exact State.endSlice_wf hm
      · exact State.settleFe_wf (State.unitDone_wf hm)
  · dsimp only
    split
    · exact State.unitDone_wf (State.enginePolicy_wf (wf_of_pair ‹_› (State.homeStore_wf hm)))
    · exact State.modSliceOf_wf (wf_of_pair ‹_› (State.homeStore_wf hm))
    · exact State.modSliceOf_wf (wf_of_pair ‹_› (State.homeStore_wf hm))
    · exact State.sliceFault_wf (wf_of_pair ‹_› (State.homeStore_wf hm))
    · split
      · exact State.sliceFault_wf (wf_of_pair ‹_› (State.engAsk_wf (wf_of_pair ‹_› (State.homeStore_wf hm))))
      · exact wf_of_pair ‹_› (State.engAsk_wf (wf_of_pair ‹_› (State.homeStore_wf hm)))
    · exact wf_of_pair ‹_› (State.homeStore_wf hm)

theorem State.unitMove_wf {t n gid x b u} (hm : s.mem.wf = true) : (s.unitMove t n gid x b u).mem.wf = true := by
  unfold State.unitMove
  split
  · dsimp only
    split
    · exact State.endSlice_wf hm
    · exact State.unitWrite_wf hm
  · dsimp only
    split
    · exact State.unitWrite_wf (State.enginePolicy_wf (wf_of_pair ‹_› (State.engLine_wf hm)))
    · exact State.sliceFault_wf (wf_of_pair ‹_› (State.engLine_wf hm))
    · exact wf_of_pair ‹_› (State.engLine_wf hm)

theorem execCopyUnitMove_wf {team copy grp} (hm : s.mem.wf = true) : WfOut (execCopyUnitMove team copy grp s) := by
  unfold execCopyUnitMove
  split
  · exact hm
  · split
    · exact hm
    · split
      · split
        · split
          · dsimp only
            split
            · exact hm
            · exact State.unitMove_wf (wf_of_some ‹_› (State.streamUnit_wf hm))
          · exact State.unitMove_wf hm
        · split
          · dsimp only
            split
            · exact hm
            · exact State.unitMove_wf (wf_of_some ‹_› (State.streamUnit_wf hm))
          · exact State.unitMove_wf hm
      · split
        · split
          · dsimp only
            split
            · exact hm
            · exact State.unitMove_wf (wf_of_some ‹_› (State.streamUnit_wf hm))
          · exact State.unitMove_wf hm
        · split
          · dsimp only
            split
            · exact hm
            · exact State.unitMove_wf (wf_of_some ‹_› (State.streamUnit_wf hm))
          · exact State.unitMove_wf hm

theorem execCopyComplete_wf {team copy} (hm : s.mem.wf = true) : WfOut (execCopyComplete team copy s) := by
  unfold execCopyComplete
  split
  · exact hm
  · split
    · exact hm
    · refine wfOut_next ?_
      refine State.cpycAdmit_wf ?_
      split <;> exact hm

theorem execPgrespResume_wf {w} (hm : s.mem.wf = true) : WfOut (execPgrespResume w s) := by
  unfold execPgrespResume
  split
  · exact hm
  · refine wfOut_next ?_
    split
    · split <;> exact hm
    · split <;> exact hm
    · split <;> exact hm
    · exact hm

theorem execPgrespFail_wf {w} (hm : s.mem.wf = true) : WfOut (execPgrespFail w s) := by
  unfold execPgrespFail
  split
  · exact hm
  · split
    · exact hm
    · split
      · exact State.settleFe_wf hm
      · exact hm

theorem execPgrespFatal_wf {w} (hm : s.mem.wf = true) : WfOut (execPgrespFatal w s) := by
  unfold execPgrespFatal
  split
  · exact hm
  · refine wfOut_next ?_
    split
    · exact State.killContext_wf hm
    · exact hm

/-! ## Barriers, counters, prefetch and persistence -/

theorem State.fenceEnd_wf {sc k} (hm : s.mem.wf = true) : (s.fenceEnd sc k).mem.wf = true := by
  unfold State.fenceEnd
  split
  · exact hm
  · exact State.acquireAt_wf hm

theorem State.fenceAck_wf {sc k} (hm : s.mem.wf = true) : (s.fenceAck sc k).mem.wf = true := by
  unfold State.fenceAck
  dsimp only
  split
  · exact State.fenceEnd_wf (State.releaseEnd_wf hm)
  · exact hm

theorem State.fenceRel_wf {sc k} (hm : s.mem.wf = true) : (s.fenceRel sc k).mem.wf = true := by
  unfold State.fenceRel
  split
  · exact State.fenceAck_wf (State.releaseAt_wf hm)
  · exact hm

theorem execFence_wf {sc k} (hm : s.mem.wf = true) : WfOut (execFence sc k s) := by
  unfold execFence
  refine wfOut_next ?_
  split
  · exact State.fenceEnd_wf hm
  · exact State.fenceRel_wf hm

theorem State.barwTry_wf {i d b tok bar} (hm : s.mem.wf = true) : (s.barwTry i d b tok bar).mem.wf = true := by
  unfold State.barwTry
  extract_lets ph diff
  split <;> exact hm

theorem State.barArrive_wf {b} (hm : s.mem.wf = true) : (s.barArrive b).mem.wf = true := hm

/-- A barrier's arrival waits, or does what comes after it. -/
theorem State.baraTry_cases {i b held} {after : Nat → State → State} :
    (∃ w, s.baraTry i b held after = s.swaitOn w) ∨ s.baraTry i b held after = after (s.curTeam.phase b) (s.barArrive b) := by
  unfold State.baraTry
  extract_lets ph
  split
  · exact .inl ⟨_, rfl⟩
  · split <;> split <;> first | exact .inl ⟨_, rfl⟩ | exact .inr rfl

theorem State.bara_wf {d b held} (hm : s.mem.wf = true) : (s.bara d b held).mem.wf = true := by
  unfold State.bara
  obtain ⟨w, e⟩ | e := State.baraTry_cases
  · rw [e]
    exact hm
  · rw [e]
    exact State.barArrive_wf (b := b.val) hm

theorem State.bar_wf {d b held} (hm : s.mem.wf = true) : (s.bar d b held).mem.wf = true := by
  unfold State.bar
  obtain ⟨w, e⟩ | e := State.baraTry_cases
  · rw [e]
    exact hm
  · rw [e]
    exact State.barwTry_wf (State.barArrive_wf hm)

theorem State.hasBar_wf {b o} (ho : WfOut o) (hm : s.mem.wf = true) : WfOut (s.hasBar b o) := by
  unfold State.hasBar
  split
  · exact ho
  · exact State.kill_wf hm

theorem execBara_wf {d b} (hm : s.mem.wf = true) : WfOut (execBara d b s) := State.hasBar_wf (State.bara_wf hm) hm

theorem execBarw_wf {a d b} (hm : s.mem.wf = true) : WfOut (execBarw a d b s) := State.hasBar_wf (State.barwTry_wf hm) hm

theorem execBar_wf {d b} (hm : s.mem.wf = true) : WfOut (execBar d b s) := State.hasBar_wf (State.bar_wf hm) hm

theorem State.syncAgain_wf (hm : s.mem.wf = true) : (s.syncAgain).mem.wf = true := by
  unfold State.syncAgain
  split
  · exact State.bara_wf hm
  · exact State.barwTry_wf hm
  · split
    · exact State.barwTry_wf hm
    · exact State.bar_wf hm
  · split
    · exact State.fenceRel_wf hm
    · exact State.fenceAck_wf hm
  · split <;> exact hm
  · exact hm

theorem execBarrierRelease_wf {g} (hm : s.mem.wf = true) : WfOut (execBarrierRelease g s) := State.syncAgain_wf hm

theorem execFenceComplete_wf {g} (hm : s.mem.wf = true) : WfOut (execFenceComplete g s) := State.syncAgain_wf hm

theorem State.sleeps_wf {a d e due seen} (hm : s.mem.wf = true) : (s.sleeps a d e due seen).mem.wf = true := by
  unfold State.sleeps
  split
  · exact hm
  · split <;> exact hm

theorem execSleeps_wf {a d e} (hm : s.mem.wf = true) : WfOut (execSleeps a d e s) := by
  unfold execSleeps
  refine wfOut_next ?_
  split
  · exact hm
  · exact State.sleeps_wf hm

theorem execSleepsWake_wf {g} (hm : s.mem.wf = true) : WfOut (execSleepsWake g s) := by
  unfold execSleepsWake
  dsimp only
  split
  · exact State.sleeps_wf hm
  · exact hm

theorem execAcset_wf {a d} (hm : s.mem.wf = true) : WfOut (execAcset a d s) := by
  unfold execAcset
  dsimp only
  split
  · exact hm
  · split
    · exact hm
    · split
      · exact hm
      · split
        · exact hm
        · split <;> exact hm

theorem State.acwait_wf {a d off} (hm : s.mem.wf = true) : (s.acwait a d off).mem.wf = true := by
  unfold State.acwait
  split <;> exact hm

theorem execAcwait_wf {a d} (hm : s.mem.wf = true) : WfOut (execAcwait a d s) := by
  unfold execAcwait
  refine wfOut_next ?_
  split
  · exact hm
  · exact State.acwait_wf hm

theorem execAcwaitRelease_wf {g} (hm : s.mem.wf = true) : WfOut (execAcwaitRelease g s) := by
  unfold execAcwaitRelease
  dsimp only
  split <;> exact hm

theorem State.persistPages_wf (fuel : Nat) {base len off nodes} (hm : s.mem.wf = true) :
    (s.persistPages base len off nodes fuel).2.2.mem.wf = true := by
  induction fuel generalizing s off nodes with
  | zero => exact hm
  | succ fuel ih =>
    have ht : (s.xlate s.sacc (BitVec.ofNat 64 (base + off)) .read).2.mem.wf = true := State.xlate_wf hm
    unfold State.persistPages
    split
    · exact hm
    · extract_lets fail va
      split
      · exact hm
      · extract_lets a page n
        split
        · exact ht
        · split
          · exact ht
          · exact ih (wf_flushRange _ _ ht)

theorem State.persistEnd_wf {i d status start nodes} (hm : s.mem.wf = true) : (s.persistEnd i d status start nodes).mem.wf = true := by
  unfold State.persistEnd
  dsimp only
  split <;> exact hm

theorem execPersist_wf {a d} (hm : s.mem.wf = true) : WfOut (execPersist a d s) := by
  unfold execPersist
  extract_lets base len last r
  split
  · exact hm
  · split
    · exact hm
    · exact State.persistEnd_wf (State.persistPages_wf _ hm)

theorem execPersistAll_wf {d} (hm : s.mem.wf = true) : WfOut (execPersistAll d s) := State.persistEnd_wf hm

theorem execPersistComplete_wf {g} (hm : s.mem.wf = true) : WfOut (execPersistComplete g s) := by
  unfold execPersistComplete
  dsimp only
  split
  · exact State.persistEnd_wf hm
  · exact State.persistEnd_wf hm
  · exact hm

theorem execPfh_wf {a d} (hm : s.mem.wf = true) : WfOut (execPfh a d s) := by
  unfold execPfh
  dsimp only
  split
  · exact hm
  · split
    · exact hm
    · split <;> exact hm

theorem State.springAt_wf {x n} (hm : s.mem.wf = true) : (s.springAt x n).2.mem.wf = true := by
  unfold State.springAt
  split <;> exact wf_of_pair ‹_› (State.xlate_wf hm)

theorem execPfdrop_wf {a d} (hm : s.mem.wf = true) : WfOut (execPfdrop a d s) := by
  unfold execPfdrop
  extract_lets h n x t u
  split
  · exact hm
  · have ht : t.mem.wf = true := by
      refine wf_foldlState _ _ hm fun s i hs => ?_
      have hx := State.springAt_wf (x := x) (n := i) hs
      repeat' first
        | exact wf_modFrame _ _ (wf_of_pair ‹_› hx)
        | exact wf_of_pair ‹_› hx
        | split
    exact ht

theorem State.springFrame_wf {slot x} (hm : s.mem.wf = true) : (s.springFrame slot x).mem.wf = true := by
  have hx := State.springAt_wf (x := x) (n := x.next) hm
  unfold State.springFrame
  extract_lets init done
  have hd : ∀ n t, t.mem.wf = true → (done t n).mem.wf = true := fun _ _ ht => ht
  clear_value done
  split
  · exact hd _ _ (wf_of_pair ‹_› hx)
  · replace hx := wf_of_pair ‹_› hx
    extract_lets m leased pfn
    split
    · exact hd _ _ hx
    · split
      · split
        · exact hd _ _ hx
        · exact hd _ _ (wf_modFrame _ _ hx)
      · split
        · exact hd _ _ hx
        · split
          · exact hx
          · split
            · split
              · exact hd _ _ (wf_modFrame _ _ (wf_startFill _ _ _ hx))
              · exact hd _ _ hx
            · exact hd _ _ hx

theorem execSpringbokFill_wf {slot} (hm : s.mem.wf = true) : WfOut (execSpringbokFill slot s) := by
  unfold execSpringbokFill
  refine wfOut_next ?_
  split
  · exact hm
  · exact State.springFrame_wf hm

/-! ## Leases, tokens and the page cache -/

theorem State.revokeStep_wf {slot} (hm : s.mem.wf = true) : (s.revokeStep slot).mem.wf = true := by
  unfold State.revokeStep
  split
  · exact hm
  · split
    · exact wf_backWhole _ hm
    · exact hm

theorem State.revokeSteps_wf (hm : s.mem.wf = true) : (s.revokeSteps).mem.wf = true :=
    wf_foldlState _ _ hm (fun _ _ hs => State.revokeStep_wf hs)

theorem State.leaseRecord_wf {l cause} (hm : s.mem.wf = true) : (s.leaseRecord l cause).mem.wf = true := State.postRecord_wf hm

theorem State.expireLease_wf {slot} (hm : s.mem.wf = true) : (s.expireLease slot).mem.wf = true := by
  unfold State.expireLease
  dsimp only
  split
  · exact State.leaseRecord_wf (wf_leaveActive _ _ _ _ hm)
  · exact hm

theorem State.revokeLease_wf {slot grace} (hm : s.mem.wf = true) : WfSome (s.revokeLease slot grace) := by
  unfold State.revokeLease
  extract_lets l
  split
  · exact wfSome_some (wf_leaveActive _ _ _ _ hm)
  · exact wfSome_none

theorem State.loseLease_wf {slot} (hm : s.mem.wf = true) : WfSome (s.loseLease slot) := by
  unfold State.loseLease
  extract_lets l
  split
  · exact wfSome_none
  · exact wfSome_some (wf_leaveActive _ _ _ _ (wf_foldl _ _ hm fun _ _ => wf_poison _))

theorem State.grantLease_wf {slot img} (hm : s.mem.wf = true) : (s.grantLease slot img).2.mem.wf = true := by
  unfold State.grantLease
  split
  · exact hm
  · dsimp only
    split
    · exact hm
    · exact wf_setLease _ _ hm

theorem State.renewLease_wf {slot expiry warn} (hm : s.mem.wf = true) : (s.renewLease slot expiry warn).2.mem.wf = true := by
  unfold State.renewLease
  dsimp only
  split
  · exact State.expireLease_wf hm
  · split
    · exact wf_setLease _ _ (State.expireLease_wf hm)
    · exact State.expireLease_wf hm

theorem State.releaseLease_wf {slot} (hm : s.mem.wf = true) : (s.releaseLease slot).2.mem.wf = true := by
  unfold State.releaseLease
  dsimp only
  split
  · exact hm
  · exact hm
  · exact wf_setLease _ _ (wf_dropRange _ _ (wf_foldl _ _ hm (fun _ _ hs => wf_clearValid _ _ hs)))

theorem execLeaseExpiry_wf {slot} (hm : s.mem.wf = true) : WfOut (execLeaseExpiry slot s) := State.expireLease_wf hm

theorem execLeaseDue_wf {slot} (hm : s.mem.wf = true) : WfOut (execLeaseDue slot s) := by
  unfold execLeaseDue
  dsimp only
  split
  · exact State.leaseRecord_wf (wf_setLease _ _ hm)
  · exact hm

theorem execRevocationNotice_wf {slot grace} (hm : s.mem.wf = true) : WfOut (execRevocationNotice slot grace s) :=
  State.shaltEvent_wf (wf_getD (State.revokeLease_wf hm) hm)

theorem execRevocationWritebackDone_wf {slot} (hm : s.mem.wf = true) : WfOut (execRevocationWritebackDone slot s) := by
  unfold execRevocationWritebackDone
  dsimp only
  split
  · exact wf_setLease _ _ (wf_revokeBack _ (wf_clearAll _ hm))
  · exact hm

theorem execGraceEnd_wf {slot} (hm : s.mem.wf = true) : WfOut (execGraceEnd slot s) := by
  unfold execGraceEnd
  dsimp only
  split
  · exact wf_setLease _ _ (wf_foldl _ _ (wf_clearAll _ hm) (fun _ _ => wf_poison _))
  · exact hm

theorem execPoolNodeLost_wf {node} (hm : s.mem.wf = true) : WfOut (execPoolNodeLost node s) :=
  State.shaltEvent_wf (wf_foldlState _ _ hm fun _ _ hs => wf_getD (State.loseLease_wf hs) hs)

theorem execLeaseValidClear_wf {slot recv} (hm : s.mem.wf = true) : WfOut (execLeaseValidClear slot recv s) := by
  unfold execLeaseValidClear
  refine wfOut_next ?_
  split
  · exact wf_clearValid _ _ hm
  · exact hm

theorem State.overdueClears_wf (hm : s.mem.wf = true) : (s.overdueClears).mem.wf = true :=
    wf_foldlState _ _ hm (fun _ _ hs => wf_foldl _ _ hs (fun _ _ hs => wf_clearValid _ _ hs))

theorem execBackInvalidationSnoop_wf {addr} (hm : s.mem.wf = true) : WfOut (execBackInvalidationSnoop addr s) := by
  unfold execBackInvalidationSnoop
  split
  · split
    · exact wf_modFrame _ _ (wf_dropLines _ hm)
    · exact wf_dropFrame _ hm
  · exact wf_dropLines _ hm

theorem execFrameFillComplete_wf {f} (hm : s.mem.wf = true) : WfOut (execFrameFillComplete f s) := by
  unfold execFrameFillComplete
  split
  · exact State.frameReady_wf (wf_settle _ hm)
  · split
    · exact State.frameReady_wf hm
    · exact hm

theorem execRelayoutComplete_wf {f} (hm : s.mem.wf = true) : WfOut (execRelayoutComplete f s) := by
  unfold execRelayoutComplete
  split
  · exact State.frameReady_wf (wf_settle _ hm)
  · exact hm

theorem execCounterHalving_wf (hm : s.mem.wf = true) : WfOut (execCounterHalving s) := by
  unfold execCounterHalving
  split <;> exact hm

/-! ## The fabric -/

theorem State.sideParts_wf {x w pol off} (ps : List (W64 × Nat)) (hm : s.mem.wf = true) : (s.sideParts x w pol off ps).2.mem.wf = true := by
  induction ps generalizing s off with
  | nil => exact hm
  | cons p ps ih =>
    have hp := State.engPart_wf (x := x) (w := w) (va := p.1) (n := p.2) (pol := pol) hm
    unfold State.sideParts
    extract_lets was
    split
    all_goals replace hp := wf_of_pair ‹_› hp
    · have hr := ih (off := off + p.2) (State.enginePolicy_wf (x := x) (va := p.1) (pol := pol) (was := was) hp)
      split
      · exact wf_of_pair ‹_› hr
      · exact hr
    · exact hp
    · exact hp

theorem State.sideRead_wf {x tid w va n pol} (hm : s.mem.wf = true) : (s.sideRead x tid w va n pol).2.mem.wf = true := by
  unfold State.sideRead
  split
  · split
    · exact hm
    · split <;> exact hm
  · extract_lets ps
    have hr := State.sideParts_wf (x := x) (w := w) (pol := pol) (off := 0) ps hm
    split
    · exact wf_of_pair ‹_› hr
    · exact State.dropFetched_wf (wf_of_pair ‹_› hr)

theorem State.sidePut_wf {x w pol off} (ps : List (W64 × Nat)) {b} (hm : s.mem.wf = true) :
    (s.sidePut x w pol off ps b).2.mem.wf = true := by
  induction ps generalizing s off b with
  | nil => exact hm
  | cons p ps ih =>
    have hp := State.homeStore_wf (x := x) (w := w) (va := p.1) (bytes := b.take p.2) hm
    unfold State.sidePut
    extract_lets was
    split
    all_goals replace hp := wf_of_pair ‹_› hp
    · exact hp
    · have ha := State.engAsk_wf (w := w) (x := x) (va := p.1) (write := true) hp
      split <;> exact wf_of_pair ‹_› ha
    · exact hp
    · exact ih (State.enginePolicy_wf hp)

theorem State.sideWrite_wf {x tid w va bytes pol fill} (hm : s.mem.wf = true) :
    (s.sideWrite x tid w va bytes pol fill).2.mem.wf = true := by
  unfold State.sideWrite
  split
  · split
    · exact hm
    · extract_lets room b r t
      split <;> exact State.setTeamFe_wf hm
  · exact State.sidePut_wf _ hm

theorem State.reply_wf {dst code off wts rts bytes} (hm : s.mem.wf = true) : (s.reply dst code off wts rts bytes).mem.wf = true :=
    State.sendMsg_wf hm

theorem State.countBytes_wf {team off n} (hm : s.mem.wf = true) : (s.countBytes team off n).mem.wf = true := by
  unfold State.countBytes
  split <;> exact hm

theorem State.windowPut_wf {ftag wtag offset o bytes} (hm : s.mem.wf = true) : (s.windowPut ftag wtag offset o bytes).2.2.mem.wf = true := by
  unfold State.windowPut
  split
  · exact hm
  · refine State.countBytes_wf ?_
    split <;> exact State.setTeamFe_wf hm

theorem State.addrPut_wf {rt pieces w t} (hm : s.mem.wf = true) (e : s.addrPut rt pieces = some (w, t)) : t.mem.wf = true := by
  unfold State.addrPut at e
  split at e
  · cases e
    refine List.foldlRecOn pieces _ (motive := fun q : Mem × W48 => q.1.wf = true) hm fun q hq p _ => ?_
    exact wf_devWrite _ _ _ _ hq
  · cases e

theorem State.setXfer_wf {n x} (hm : s.mem.wf = true) : (s.setXfer n x).mem.wf = true := hm

theorem State.writeArray_wf {n x} (hm : s.mem.wf = true) : (s.writeArray n x).2.mem.wf = true := by
  unfold State.writeArray
  split
  · exact hm
  · split
    · exact wf_of_pair ‹_› (State.sideWrite_wf hm)
    · exact State.setXfer_wf (wf_of_pair ‹_› (State.sideWrite_wf hm))
    · exact State.setXfer_wf (wf_of_pair ‹_› (State.sideWrite_wf hm))

theorem State.settleXfer_wf {n} (hm : s.mem.wf = true) : (s.settleXfer n).mem.wf = true := by
  unfold State.settleXfer
  split
  · exact hm
  · split
    · exact hm
    · dsimp only
      split <;> exact State.writeArray_wf hm

theorem State.setPkt_wf {n i st} (hm : s.mem.wf = true) : (s.setPkt n i st).mem.wf = true := by
  unfold State.setPkt
  split
  · exact hm
  · exact State.settleXfer_wf hm

theorem State.remotePieces_wf (fuel : Nat) {x kind va n off only} (hm : s.mem.wf = true) :
    (s.remotePieces x kind va n off fuel only).2.mem.wf = true := by
  induction fuel generalizing s va n off with
  | zero => exact hm
  | succ fuel ih =>
    have hx := State.xlate_wf (x := x) (va := va) (k := kind) hm
    unfold State.remotePieces
    split
    · exact hm
    · split
      · exact hm
      · split
        · exact hx
        · extract_lets u a m
          have hu : u.mem.wf = true := hx
          split
          · exact hu
          · have hr := ih (va := va + BitVec.ofNat 64 m) (n := n - m) (off := off + m) hu
            split
            · exact wf_of_pair ‹_› hr
            · exact hr

theorem State.atomResult_wf {n x v} (hm : s.mem.wf = true) : (s.atomResult n x v).mem.wf = true := by
  unfold State.atomResult
  dsimp only
  split
  · exact State.setPkt_wf (State.setXfer_wf hm)
  · split <;> exact State.setPkt_wf (wf_of_pair ‹_› (State.sideWrite_wf (State.setXfer_wf hm)))

theorem State.getResult_wf {n i x p bytes} (hm : s.mem.wf = true) : (s.getResult n i x p bytes).mem.wf = true := by
  unfold State.getResult
  split
  · exact State.setPkt_wf (wf_of_pair ‹_› (State.sideWrite_wf hm))
  · exact State.setPkt_wf (wf_of_pair ‹_› (State.sideWrite_wf hm))
  · exact State.setXfer_wf (wf_of_pair ‹_› (State.sideWrite_wf hm))

theorem State.sendPkt_wf {n i dst body payload ordered} (hm : s.mem.wf = true) : (s.sendPkt n i dst body payload ordered).mem.wf = true := by
  unfold State.sendPkt
  split
  · exact State.sendMsg_wf hm
  · exact hm

theorem State.getHere_wf {n i x p ps} (hm : s.mem.wf = true) : (s.getHere n i x p ps).mem.wf = true := by
  unfold State.getHere
  split
  · extract_lets r
    have hr : r.2.2.wf = true :=
      List.foldlRecOn ps _ (motive := fun q : List Byte × W48 × Mem => q.2.2.wf = true) hm fun q hq p _ => wf_devRead _ _ hq
    exact State.getResult_wf hr
  · exact State.setPkt_wf hm

theorem State.atomHere_wf {n x p op addr} (hm : s.mem.wf = true) : (s.atomHere n x p op addr).mem.wf = true := by
  unfold State.atomHere
  split
  · exact State.atomResult_wf (wf_fatomAt _ _ _ hm)
  · exact State.setPkt_wf hm

theorem State.requestHere_wf {n i x p} (hm : s.mem.wf = true) : (s.requestHere n i x p).mem.wf = true := by
  unfold State.requestHere
  split
  · split
    · exact State.setPkt_wf (wf_of_pair ‹_› (State.remotePieces_wf _ hm))
    · exact State.getHere_wf (wf_of_pair ‹_› (State.remotePieces_wf _ hm))
  · split
    · exact State.setPkt_wf (wf_of_pair ‹_› (State.remotePieces_wf _ hm))
    · exact State.atomHere_wf (wf_of_pair ‹_› (State.remotePieces_wf _ hm))
  · exact hm

theorem State.splitPkt_wf {n i p len} (hm : s.mem.wf = true) : (s.splitPkt n i p len).mem.wf = true := by
  unfold State.splitPkt
  split
  · split <;> exact hm
  · exact hm

theorem State.launchPkt_wf {n i x p} (hm : s.mem.wf = true) : (s.launchPkt n i x p).mem.wf = true := by
  unfold State.launchPkt
  split
  · dsimp only
    split
    · exact State.setPkt_wf hm
    · split
      · exact wf_of_pair ‹_› (State.sideRead_wf hm)
      · exact State.setPkt_wf (wf_of_pair ‹_› (State.sideRead_wf hm))
      · exact State.sendPkt_wf (wf_of_pair ‹_› (State.sideRead_wf hm))
  · dsimp only
    split
    · exact State.setPkt_wf hm
    · split
      · exact wf_of_pair ‹_› (State.sideRead_wf hm)
      · exact State.setPkt_wf (wf_of_pair ‹_› (State.sideRead_wf hm))
      · exact State.sendPkt_wf (wf_of_pair ‹_› (State.sideRead_wf hm))
  · dsimp only
    split
    · exact wf_of_pair ‹_› (State.sideRead_wf hm)
    · exact State.setPkt_wf (wf_of_pair ‹_› (State.sideRead_wf hm))
    · split
      · exact State.setPkt_wf (wf_of_pair ‹_› (State.remotePieces_wf _ (wf_of_pair ‹_› (State.sideRead_wf hm))))
      · exact State.sendPkt_wf (State.splitPkt_wf (wf_of_pair ‹_› (State.remotePieces_wf _ (wf_of_pair ‹_› (State.sideRead_wf hm)))))
  · dsimp only
    split
    · exact State.setPkt_wf (wf_of_pair ‹_› (State.remotePieces_wf _ hm))
    · split
      · split
        · exact State.requestHere_wf (State.sendPkt_wf (State.splitPkt_wf (wf_of_pair ‹_› (State.remotePieces_wf _ hm))))
        · exact State.sendPkt_wf (State.splitPkt_wf (wf_of_pair ‹_› (State.remotePieces_wf _ hm)))
      · exact State.sendPkt_wf (State.splitPkt_wf (wf_of_pair ‹_› (State.remotePieces_wf _ hm)))
  · dsimp only
    split
    · exact State.setPkt_wf (wf_of_pair ‹_› (State.remotePieces_wf _ hm))
    · split
      · split
        · exact State.requestHere_wf (State.sendPkt_wf (wf_of_pair ‹_› (State.remotePieces_wf _ hm)))
        · exact State.sendPkt_wf (wf_of_pair ‹_› (State.remotePieces_wf _ hm))
      · exact State.sendPkt_wf (wf_of_pair ‹_› (State.remotePieces_wf _ hm))

theorem State.landPkt_wf {n i x p} (hm : s.mem.wf = true) : (s.landPkt n i x p).mem.wf = true := by
  unfold State.landPkt
  split
  · exact State.getResult_wf hm
  · exact State.atomResult_wf hm
  · exact hm

theorem State.pumpPkt_wf {n i} (hm : s.mem.wf = true) : (s.pumpPkt n i).mem.wf = true := by
  unfold State.pumpPkt
  split
  · exact hm
  · split
    · exact hm
    · split
      · split
        · exact hm
        · exact State.launchPkt_wf hm
      · exact State.landPkt_wf hm
      · exact hm

theorem State.pump_wf {n} (hm : s.mem.wf = true) : (s.pump n).mem.wf = true := by
  unfold State.pump
  split
  · exact hm
  · exact wf_foldlState _ _ hm (fun _ _ hs => State.pumpPkt_wf hs)

theorem State.resumeXfer_wf {n} (hm : s.mem.wf = true) : (s.resumeXfer n).mem.wf = true :=
    State.settleXfer_wf (State.pump_wf (State.pump_wf hm))

theorem State.pumpAll_wf (hm : s.mem.wf = true) : (s.pumpAll).mem.wf = true := wf_foldlState _ _ hm (fun _ _ hs => State.resumeXfer_wf hs)

theorem State.pumpTeam_wf {tid} (hm : s.mem.wf = true) : (s.pumpTeam tid).mem.wf = true :=
    wf_foldlState _ _ hm (fun _ _ hs => State.resumeXfer_wf hs)

theorem State.fabTake_wf {i d ops x} (hm : s.mem.wf = true) : (s.fabTake i d ops x).mem.wf = true := by
  unfold State.fabTake
  split
  · exact hm
  · exact State.resumeXfer_wf hm

theorem State.fput_wf {i d p f n o} (hm : s.mem.wf = true) : (s.fput i d p f n o).mem.wf = true := by
  unfold State.fput
  split
  · dsimp only
    split
    · exact hm
    · exact State.fabTake_wf hm
  · dsimp only
    split
    · exact hm
    · exact State.fabTake_wf hm

theorem execFput_wf {a d p f n} (hm : s.mem.wf = true) : WfOut (execFput a d p f n s) := State.fput_wf hm

theorem State.fget_wf {i d p n o} (hm : s.mem.wf = true) : (s.fget i d p n o).mem.wf = true := by
  unfold State.fget
  dsimp only
  split
  · exact hm
  · exact State.fabTake_wf hm

theorem execFget_wf {a d p n} (hm : s.mem.wf = true) : WfOut (execFget a d p n s) := State.fget_wf hm

theorem State.fatom_wf {i d n op o} (hm : s.mem.wf = true) : (s.fatom i d n op o).mem.wf = true := by
  unfold State.fatom
  split
  · exact hm
  · exact State.fabTake_wf hm

theorem execFatom_wf {a d n o} (hm : s.mem.wf = true) : WfOut (execFatom a d n o s) := State.fatom_wf hm

theorem State.fmcast_wf {i d p n o} (hm : s.mem.wf = true) : (s.fmcast i d p n o).mem.wf = true := by
  unfold State.fmcast
  dsimp only
  split
  · exact hm
  · split
    · exact hm
    · exact State.fabTake_wf hm

theorem execFmcast_wf {a d p n} (hm : s.mem.wf = true) : WfOut (execFmcast a d p n s) := State.fmcast_wf hm

theorem execTagStallEnd_wf {g} (hm : s.mem.wf = true) : WfOut (execTagStallEnd g s) := by
  unfold execTagStallEnd
  dsimp only
  split
  · exact hm
  · split
    · exact State.fput_wf hm
    · exact State.fget_wf hm
    · exact State.fatom_wf hm
    · exact State.fmcast_wf hm
    · exact hm

theorem State.fstat_wf {a d w} (hm : s.mem.wf = true) : (s.fstat a d w).mem.wf = true := by
  unfold State.fstat
  split
  · dsimp only
    split
    · exact hm
    · split
      · exact hm
      · split <;> exact hm
  · dsimp only
    split
    · exact hm
    · split
      · exact hm
      · split <;> exact hm

theorem execFstat_wf {a d} (hm : s.mem.wf = true) : WfOut (execFstat a d s) := by
  unfold execFstat
  refine wfOut_next ?_
  split
  · exact hm
  · exact State.fstat_wf hm

theorem execFstatRelease_wf {g} (hm : s.mem.wf = true) : WfOut (execFstatRelease g s) := by
  unfold execFstatRelease
  dsimp only
  split
  · exact State.fstat_wf hm
  · exact hm

theorem ackPut_wf {src} {r : Nat × Nat × State} (hr : r.2.2.mem.wf = true) : (ackPut src r).mem.wf = true := State.reply_wf hr

theorem State.loopPut_wf {n i x p} (hm : s.mem.wf = true) : (s.loopPut n i x p).mem.wf = true := by
  unfold State.loopPut
  split
  · have hr := State.remotePieces_wf 3 (x := s.xferAcc x) (kind := .write) (va := x.ops.getD 1 0 + BitVec.ofNat 64 p.off) (n := p.len)
      (off := 0) (only := none) hm
    split
    all_goals replace hr := wf_of_pair ‹_› hr
    · exact State.setPkt_wf hr
    · split
      · exact State.setPkt_wf (State.sawWts_wf (State.addrPut_wf hr ‹_›))
      · exact State.setPkt_wf hr
  · exact State.requestHere_wf hm
  · exact State.requestHere_wf hm
  · extract_lets wtag off r
    have hr : r.2.2.mem.wf = true := State.windowPut_wf hm
    split
    · exact State.setPkt_wf hr
    · split <;> exact State.setPkt_wf hr

theorem execPutPacketArrival_wf {p} (hm : s.mem.wf = true) : WfOut (execPutPacketArrival p s) := by
  unfold execPutPacketArrival
  split
  · exact ackPut_wf (State.windowPut_wf hm)
  · extract_lets win
    split
    · exact State.reply_wf hm
    · split
      · exact State.reply_wf hm
      · next e =>
        have ha := State.addrPut_wf hm e
        refine wfOut_next (State.reply_wf ?_)
        clear_value win
        split
        · exact State.countBytes_wf ha
        · exact ha
  · split
    · exact hm
    · split
      · refine wfOut_next ?_
        split
        · exact State.loopPut_wf hm
        · exact hm
      · exact hm

theorem execFgetRequest_wf {src addr len rt} (hm : s.mem.wf = true) : WfOut (execFgetRequest src addr len rt s) := by
  unfold execFgetRequest
  split
  · exact State.reply_wf (wf_devRead _ _ hm)
  · exact State.reply_wf hm

theorem execFatomRequest_wf {src addr op b cmp rt} (hm : s.mem.wf = true) : WfOut (execFatomRequest src addr op b cmp rt s) := by
  unfold execFatomRequest
  split
  · exact State.reply_wf (wf_fatomAt _ _ _ hm)
  · exact State.reply_wf hm

theorem execRemoteAccessRequest_wf {src addr op rt} (hm : s.mem.wf = true) : WfOut (execRemoteAccessRequest src addr op rt s) := by
  unfold execRemoteAccessRequest
  split
  · exact State.reply_wf hm
  · split
    · exact State.reply_wf (wf_homeRead _ _ (wf_bring _ _ hm _))
    · exact State.reply_wf (wf_devWrite _ _ _ _ hm)
    · exact State.reply_wf (wf_fatomAt _ _ _ hm)
    · exact State.reply_wf (wf_fatomAt _ _ _ hm)

theorem State.peerFar_wf {gid n val} (hm : s.mem.wf = true) : (s.peerFar gid n val).mem.wf = true := hm

theorem State.peerAnswer_wf {n r a} (hm : s.mem.wf = true) : (s.peerAnswer n r a).mem.wf = true := by
  unfold State.peerAnswer
  extract_lets t keepReq give
  have ht : t.mem.wf = true := by
    unfold t
    split
    all_goals exact hm
  have hk : ∀ t r, t.mem.wf = true → (keepReq t r).mem.wf = true := fun _ _ h => h
  have hg : ∀ t v, t.mem.wf = true → (give t v).mem.wf = true := by
    intro t v h
    unfold give
    split
    · exact State.acquired_wf (State.dropPeer_wf (State.peerFar_wf h))
    · split
      · exact h
      · exact State.dropPeer_wf h
    · split
      · exact State.unitDone_wf (State.dropPeer_wf h)
      · exact State.dropPeer_wf h
    · exact State.resumeXfer_wf (State.dropPeer_wf h)
    · exact State.dropPeer_wf h
  clear_value t keepReq give
  split
  · extract_lets u v near
    have hu : u.mem.wf = true := by
      unfold u
      split
      · exact wf_install _ _ ht
      · exact ht
    have hv : v.mem.wf = true := by
      unfold v
      split
      · exact wf_demote _ _ hu
      · exact hu
    split
    · exact hg _ _ hv
    · split
      · exact State.resumeXfer_wf (hk _ _ hv)
      · exact hk _ _ hv
  all_goals exact hg _ _ ht

theorem State.sideLost_wf {n va code} (hm : s.mem.wf = true) : (s.sideLost n va code).mem.wf = true := by
  unfold State.sideLost
  split
  · exact hm
  · split
    · dsimp only
      split
      · exact State.setPkt_wf hm
      · exact hm
    · exact State.setPkt_wf hm
    · exact hm

theorem State.peerGone_wf {n r cause copy fab} (hm : s.mem.wf = true) : (s.peerGone n r cause copy fab).mem.wf = true := by
  unfold State.peerGone
  split
  · split
    · exact State.acquired_wf hm
    · exact hm
    · dsimp only
      split
      · exact State.scalarTrapIn_wf hm
      · exact hm
    · exact State.endSlice_wf hm
    · split
      · exact State.resumeXfer_wf hm
      · exact State.settleXfer_wf (State.sideLost_wf hm)
    · exact hm
    · split <;> exact hm
    · dsimp only
      split <;> exact hm
    · exact hm
  · split
    · exact State.acquired_wf hm
    · exact hm
    · exact hm
    · exact State.endSlice_wf hm
    · split
      · exact State.resumeXfer_wf hm
      · exact State.settleXfer_wf (State.sideLost_wf hm)
    · exact hm
    · split <;> exact hm
    · dsimp only
      split <;> exact hm
    · exact hm

theorem execPacketAck_wf {r a} (hm : s.mem.wf = true) : WfOut (execPacketAck r a s) := by
  unfold execPacketAck
  split
  · split
    · exact State.peerAnswer_wf hm
    · exact hm
  · split
    · exact hm
    · split
      · exact hm
      · split
        · exact hm
        · split
          · exact State.setPkt_wf hm
          · exact State.atomResult_wf hm
          · exact hm
          · exact State.setPkt_wf hm
  · split
    · exact hm
    · refine wfOut_next ?_
      split <;> exact hm

theorem execFgetResponse_wf {n pkt bytes wts} (hm : s.mem.wf = true) : WfOut (execFgetResponse n pkt bytes wts s) := by
  unfold execFgetResponse
  split
  · exact hm
  · split
    · refine wfOut_next ?_
      split
      · exact State.getResult_wf hm
      · exact hm
    · exact hm

theorem State.onPkt_wf {r} {f : PktState → Nat → PktState} (hm : s.mem.wf = true) : (s.onPkt r f).mem.wf = true := by
  unfold State.onPkt
  split
  · split
    · exact State.setPkt_wf hm
    · exact hm
  · split <;> exact hm
  · exact hm

theorem execRetryLater_wf {r} (hm : s.mem.wf = true) : WfOut (execRetryLater r s) := by
  unfold execRetryLater
  split
  · split <;> exact hm
  · exact State.onPkt_wf hm

theorem State.resendReq_wf {n q} (hm : s.mem.wf = true) : (s.resendReq n q).mem.wf = true := by
  unfold State.resendReq
  split
  · exact hm
  · split
    · exact hm
    · split
      · exact State.peerGone_wf hm
      · exact State.sendReq_wf hm

theorem execResendTimer_wf {r} (hm : s.mem.wf = true) : WfOut (execResendTimer r s) := by
  unfold execResendTimer
  split
  · split
    · exact State.resendReq_wf hm
    · exact hm
  · split
    · split
      · extract_lets c
        split
        · exact hm
        · split
          · exact State.onPkt_wf hm
          · exact State.sendMsg_wf (State.onPkt_wf hm)
      · exact hm
    · exact hm

theorem execNotPresentTimeout_wf {r} (hm : s.mem.wf = true) : WfOut (execNotPresentTimeout r s) := by
  unfold execNotPresentTimeout
  split
  · split
    · extract_lets late
      refine wfOut_next ?_
      split
      · exact State.peerGone_wf hm
      · exact hm
    · exact hm
  · refine wfOut_next ?_
    split
    · exact hm
    · exact State.onPkt_wf hm

theorem execFabricTimeout_wf {r} (hm : s.mem.wf = true) : WfOut (execFabricTimeout r s) := by
  unfold execFabricTimeout
  extract_lets waits
  refine wfOut_next ?_
  split
  · exact hm
  · exact State.onPkt_wf hm

theorem execRemoteAccessTimeout_wf {n} (hm : s.mem.wf = true) : WfOut (execRemoteAccessTimeout n s) := by
  unfold execRemoteAccessTimeout
  split
  · refine wfOut_next ?_
    split
    · exact State.peerGone_wf hm
    · exact hm
  · exact hm

theorem State.dropMsg_wf {r} (hm : s.mem.wf = true) : (s.dropMsg r).mem.wf = true := by
  unfold State.dropMsg
  extract_lets at_ t
  have ht : t.mem.wf = true := hm
  split
  · exact State.onPkt_wf ht
  · split
    · exact State.peerGone_wf ht
    · exact ht
  · exact State.onPkt_wf ht
  · exact ht

theorem State.route_wf {m'} (hm : s.mem.wf = true) : (s.route m').mem.wf = true := by
  unfold State.route
  split
  · exact hm
  · exact State.dropMsg_wf hm

theorem State.takeFlit_wf {link v f} (hm : s.mem.wf = true) : (s.takeFlit link v f).mem.wf = true := by
  unfold State.takeFlit
  split
  · dsimp only
    split
    · exact hm
    · exact State.route_wf hm
    · exact hm
  · dsimp only
    split
    · exact hm
    · exact State.route_wf hm
    · exact hm

theorem execFlitReceive_wf {link f} (hm : s.mem.wf = true) : WfOut (execFlitReceive link f s) := by
  unfold execFlitReceive
  split
  · dsimp only
    split
    · exact hm
    · split
      · exact hm
      · refine wfOut_next ?_
        split <;> exact hm
  · dsimp only
    split
    · exact hm
    · split
      · exact hm
      · refine wfOut_next ?_
        split
        · exact hm
        · exact State.takeFlit_wf hm

theorem State.stampMsg_wf {r} (hm : s.mem.wf = true) : (s.stampMsg r).mem.wf = true := by
  unfold State.stampMsg
  extract_lets at_
  split
  · exact State.onPkt_wf hm
  · split <;> exact hm
  · exact State.onPkt_wf hm
  · exact hm

theorem execFlitSend_wf {link vc} (hm : s.mem.wf = true) : WfOut (execFlitSend link vc s) := by
  unfold execFlitSend
  dsimp only
  split
  · exact hm
  · split
    · exact hm
    · split
      · exact hm
      · split
        · exact hm
        · split
          · refine wfOut_next ?_
            split
            · exact State.stampMsg_wf hm
            · exact hm
          · refine wfOut_next ?_
            split <;> exact hm

theorem State.rerouteAll_wf (hm : s.mem.wf = true) : (s.rerouteAll).mem.wf = true :=
    wf_foldlState _ _ (wf_foldlState _ _ hm (fun _ _ => State.route_wf)) (fun _ _ hs => State.peerGone_wf hs)

theorem State.rerouteDown_wf (hm : s.mem.wf = true) : (s.rerouteDown).mem.wf = true := by
  unfold State.rerouteDown
  split
  · exact State.rerouteAll_wf hm
  · exact hm

theorem execLinkDown_wf {link} (hm : s.mem.wf = true) : WfOut (execLinkDown link s) := by
  unfold execLinkDown
  dsimp only
  split
  · exact State.rerouteAll_wf hm
  · exact hm

theorem execReconfigDrain_wf {links} (hm : s.mem.wf = true) : WfOut (execReconfigDrain links s) := wf_foldlState _ _ hm (fun _ _ hs => hs)

theorem execLinkDark_wf {link} (hm : s.mem.wf = true) : WfOut (execLinkDark link s) := by
  unfold execLinkDark
  dsimp only
  split <;> exact hm

theorem execInitHeader_wf {link rets} (hm : s.mem.wf = true) : WfOut (execInitHeader link rets s) := by
  unfold execInitHeader
  dsimp only
  split <;> exact hm

theorem execRouteTableInstall_wf {routes up} (hm : s.mem.wf = true) : WfOut (execRouteTableInstall routes up s) := State.rerouteAll_wf hm

/-! ## Privileged scalar instructions -/

theorem State.stopTeam_wf {h} (hm : s.mem.wf = true) : (s.stopTeam h).mem.wf = true := by
  unfold State.stopTeam
  split
  · split <;> exact hm
  · exact hm

theorem State.pgresp_wf {v} (hm : s.mem.wf = true) : WfOut (s.pgresp v) := by
  unfold State.pgresp
  split
  · exact execPgrespResume_wf hm
  · exact execPgrespFail_wf hm
  · exact execPgrespFatal_wf hm
  · exact hm

theorem State.swr_wf {i v} (hm : s.mem.wf = true) : WfOut (s.swr i v) := by
  unfold State.swr
  split
  · exact hm
  · exact hm
  · exact hm
  · exact hm
  · exact hm
  · exact State.postAll_wf _ hm
  · exact State.pgresp_wf hm
  · exact State.stopTeam_wf hm
  · exact hm

theorem execSrd_wf {d i} (hm : s.mem.wf = true) : WfOut (execSrd d i s) := privileged_wf hm hm

theorem execSwr_wf {a i} (hm : s.mem.wf = true) : WfOut (execSwr a i s) := privileged_wf hm (State.swr_wf hm)

theorem execTlbiVa_wf {a d} (hm : s.mem.wf = true) : WfOut (execTlbiVa a d s) := by
  unfold execTlbiVa
  refine privileged_wf hm ?_
  split <;> exact hm

theorem execTlbiCtx_wf {a d} (hm : s.mem.wf = true) : WfOut (execTlbiCtx a d s) := privileged_wf hm hm

theorem execTlbiPasid_wf {a d} (hm : s.mem.wf = true) : WfOut (execTlbiPasid a d s) := privileged_wf hm hm

theorem execTlbiAll_wf {d} {z1 : BitVec 6} (hm : s.mem.wf = true) : WfOut (execTlbiAll z1 d s) := privileged_wf hm hm

theorem State.pgctl_wf {op a d} (hm : s.mem.wf = true) : WfOut (s.pgctl op a d) := by
  unfold State.pgctl
  refine privileged_wf hm ?_
  split
  · exact hm
  · exact wf_pgctlRun _ _ _ _ _ hm

theorem execPgctlPin_wf {a d} (hm : s.mem.wf = true) : WfOut (execPgctlPin a d s) := State.pgctl_wf hm

theorem execPgctlUnpin_wf {a d} (hm : s.mem.wf = true) : WfOut (execPgctlUnpin a d s) := State.pgctl_wf hm

theorem execPgctlEvict_wf {a d} (hm : s.mem.wf = true) : WfOut (execPgctlEvict a d s) := State.pgctl_wf hm

theorem execPgctlWb_wf {a d} (hm : s.mem.wf = true) : WfOut (execPgctlWb a d s) := State.pgctl_wf hm

theorem execPgctlCarve_wf {a d} (hm : s.mem.wf = true) : WfOut (execPgctlCarve a d s) := State.pgctl_wf hm

theorem execPgctlUncarve_wf {a d} (hm : s.mem.wf = true) : WfOut (execPgctlUncarve a d s) := State.pgctl_wf hm

theorem State.sagain_wf {i} (hm : s.mem.wf = true) : (s.sagain i).mem.wf = true := hm

theorem State.sysRead_wf {i va n} {k : List Byte → State → Out} (hk : ∀ b t, t.mem.wf = true → WfOut (k b t)) (hm : s.mem.wf = true) :
    WfOut (s.sysRead i va n k) := by
  have hr := State.engRead_wf (x := s.sacc) (w := .scalar s.curGid) (va := va) (n := n) hm
  unfold State.sysRead
  split
  all_goals replace hr := wf_of_pair ‹_› hr
  · exact hk _ _ hr
  · exact State.scalarTrap_wf hr
  · exact hr

theorem State.sysWrite_wf {i va b} {k : State → Out} (hk : ∀ t, t.mem.wf = true → WfOut (k t)) (hm : s.mem.wf = true) :
    WfOut (s.sysWrite i va b k) := by
  have hr := State.engWrite_wf (x := s.sacc) (w := .store s.curTeam.ctx) (va := va) (b := b) hm
  unfold State.sysWrite
  split
  all_goals replace hr := wf_of_pair ‹_› hr
  · exact hk _ hr
  · exact State.scalarTrap_wf hr
  · exact hr

theorem State.leaseSlot_wf {a d} {k : Nat → Out} (hk : ∀ n, WfOut (k n)) (hm : s.mem.wf = true) : WfOut (s.leaseSlot a d k) := by
  refine privileged_wf hm ?_
  split
  · exact hm
  · exact hk _

theorem execLeaseopRead_wf {a d} (hm : s.mem.wf = true) : WfOut (execLeaseopRead a d s) :=
  State.leaseSlot_wf (fun _ => State.sysWrite_wf (fun _ ht => ht) hm) hm

theorem execLeaseopGrant_wf {a d} (hm : s.mem.wf = true) : WfOut (execLeaseopGrant a d s) :=
  State.leaseSlot_wf (fun _ => State.sysRead_wf (fun _ _ ht => State.grantLease_wf ht) hm) hm

theorem execLeaseopRenew_wf {a d} (hm : s.mem.wf = true) : WfOut (execLeaseopRenew a d s) :=
  State.leaseSlot_wf (fun _ => State.renewLease_wf hm) hm

theorem execLeaseopRelease_wf {a d} (hm : s.mem.wf = true) : WfOut (execLeaseopRelease a d s) :=
  State.leaseSlot_wf (fun _ => State.releaseLease_wf hm) hm

theorem execLeaseopRevoke_wf {a d} (hm : s.mem.wf = true) : WfOut (execLeaseopRevoke a d s) := by
  refine State.leaseSlot_wf (fun n => ?_) hm
  split
  · next e =>
    have hr := State.revokeLease_wf hm _ e
    exact hr
  · exact hm

theorem execLeaseopLost_wf {a d} (hm : s.mem.wf = true) : WfOut (execLeaseopLost a d s) := by
  refine State.leaseSlot_wf (fun n => ?_) hm
  split
  · next e =>
    have hr := State.loseLease_wf hm _ e
    exact hr
  · exact hm

theorem execLeaseopHint_wf {a d} (hm : s.mem.wf = true) : WfOut (execLeaseopHint a d s) := privileged_wf hm hm

theorem execKeyopLoad_wf {a d} (hm : s.mem.wf = true) : WfOut (execKeyopLoad a d s) := by
  refine privileged_wf hm ?_
  split
  · exact hm
  · split
    · exact hm
    · exact State.sysRead_wf (fun _ _ ht => State.sysWrite_wf (fun _ hu => wf_loadKey _ _ hu) ht) hm

theorem execKeyopUnload_wf {a d} (hm : s.mem.wf = true) : WfOut (execKeyopUnload a d s) := by
  unfold execKeyopUnload
  refine privileged_wf hm ?_
  split
  · exact hm
  · split
    · exact hm
    · exact wf_unloadKey _ hm

theorem State.redo_wf {i} (hm : s.mem.wf = true) : WfOut (s.redo i) := by
  unfold State.redo
  split
  · exact execSld_wf hm
  · exact execSldx_wf hm
  · exact execSst_wf hm
  · exact execSatom_wf hm
  · exact execLeaseopRead_wf hm
  · exact execLeaseopGrant_wf hm
  · exact execKeyopLoad_wf hm
  · exact hm

theorem execScalarAccessComplete_wf {g} (hm : s.mem.wf = true) : WfOut (execScalarAccessComplete g s) := by
  unfold execScalarAccessComplete
  dsimp only
  split
  · exact hm
  · split
    · split
      · split
        · exact hm
        · exact State.redo_wf hm
      · split
        · exact hm
        · refine wfOut_next ?_
          refine State.finishAccess_wf ?_
          split <;> exact hm
    · exact hm

theorem State.shalt_wf {a d due seen} (hm : s.mem.wf = true) : (s.shalt a d due seen).mem.wf = true := by
  unfold State.shalt
  split
  · exact hm
  · split <;> exact hm

theorem execShalt_wf {a d} (hm : s.mem.wf = true) : WfOut (execShalt a d s) := privileged_wf hm (State.shalt_wf hm)

theorem execShaltWake_wf {g} (hm : s.mem.wf = true) : WfOut (execShaltWake g s) := by
  unfold execShaltWake
  dsimp only
  split
  · exact State.shalt_wf hm
  · exact hm

theorem execStrap_wf {i} (hm : s.mem.wf = true) : WfOut (execStrap i s) := State.scalarTrap_wf hm

theorem State.stret_wf {how} (hm : s.mem.wf = true) : WfOut (s.stret how) := by
  unfold State.stret
  split
  · exact privTrap_wf hm
  · split
    · exact State.kill_wf hm
    · split
      · trivial
      · exact hm

theorem execStret_wf (hm : s.mem.wf = true) : WfOut (execStret s) := State.stret_wf hm

theorem execStretSkip_wf (hm : s.mem.wf = true) : WfOut (execStretSkip s) := State.stret_wf hm

theorem execStretPark_wf (hm : s.mem.wf = true) : WfOut (execStretPark s) := State.stret_wf hm

/-! ## Resharding -/

theorem State.writeBlock_wf {j w image} (hm : s.mem.wf = true) : (s.writeBlock j w image).2.mem.wf = true := State.engWrite_wf hm

theorem State.endJob_wf {n j} (hm : s.mem.wf = true) : (s.endJob n j).mem.wf = true := by
  unfold State.endJob
  split <;> exact hm

theorem State.pumpJob_wf {n} (fuel : Nat) (hm : s.mem.wf = true) : (s.pumpJob n fuel).mem.wf = true := by
  induction fuel generalizing s with
  | zero => exact hm
  | succ fuel ih =>
    unfold State.pumpJob
    split
    · exact hm
    · split
      · next j _ _ w _ _ =>
        have hw := State.writeBlock_wf (j := j) (w := .eland n) (image := w) hm
        split
        all_goals replace hw := wf_of_pair ‹_› hw
        · exact hw
        · exact ih hw
        · exact ih hw
      · split
        · exact ih hm
        · split
          · exact State.endJob_wf hm
          · exact hm

theorem State.changeJob_wf {n j} (hm : s.mem.wf = true) : (s.changeJob n j).mem.wf = true := State.pumpJob_wf _ hm

theorem State.pumpJobs_wf (hm : s.mem.wf = true) : s.pumpJobs.mem.wf = true :=
  wf_foldlState _ _ hm fun _ _ hs => State.pumpJob_wf _ hs

theorem State.wakeJobs_wf {teams} (hm : s.mem.wf = true) : (s.wakeJobs teams).mem.wf = true :=
    wf_foldlState _ _ hm (fun _ _ hs => State.changeJob_wf hs)

theorem State.readRecord_wf {x w va} (hm : s.mem.wf = true) : (s.readRecord x w va).2.mem.wf = true := by
  have hh := State.engParts_wf (x := x) (w := w) (lineParts va 64 3) hm
  unfold State.readRecord
  split
  · next h t e =>
    replace hh := wf_of_pair e hh
    extract_lets n
    have he := State.engParts_wf (x := x) (w := w) (lineParts (va + 64) n (n / 64 + 2)) hh
    split
    · exact wf_of_pair ‹_› he
    · exact he
  · exact hh

theorem State.reshardGo_wf {i d o src dst blk placed} (hm : s.mem.wf = true) : (s.reshardGo i d o src dst blk placed).mem.wf = true := by
  unfold State.reshardGo
  split
  · exact hm
  · extract_lets ls ld total resume done acked above j marks j' n start
    have hs : ∀ t j, t.mem.wf = true → (start t j).mem.wf = true := fun _ _ ht => State.pumpJob_wf _ ht
    clear_value start
    split
    · exact hs _ _ hm
    · have hw := State.writeBlock_wf (j := j') (w := .store j'.ctx) (image := j'.image) hm
      split
      all_goals replace hw := wf_of_pair ‹_› hw
      · exact hw
      · exact hw
      · exact hs _ _ hw

theorem State.reshardStart_wf {i d o src dst blk} (hm : s.mem.wf = true) : (s.reshardStart i d o src dst blk).mem.wf = true := by
  unfold State.reshardStart
  dsimp only
  split
  · exact hm
  · exact State.reshardGo_wf hm

theorem State.reshardRead_wf {x w o} (hm : s.mem.wf = true) : (s.reshardRead x w o).2.mem.wf = true := by
  have h0 := State.readRecord_wf (x := x) (w := w) (va := o.getD 0 0) hm
  unfold State.reshardRead
  split
  all_goals replace h0 := wf_of_pair ‹_› h0
  · exact h0
  · exact h0
  · have h1 := State.readRecord_wf (x := x) (w := w) (va := o.getD 1 0) h0
    split
    all_goals replace h1 := wf_of_pair ‹_› h1
    · exact h1
    · exact h1
    · split
      · exact h1
      · split <;> exact wf_of_pair ‹_› (State.engParts_wf _ h1)

theorem State.reshard_wf {i d o} (hm : s.mem.wf = true) : (s.reshard i d o).mem.wf = true := by
  unfold State.reshard
  dsimp only
  split
  · exact State.sput_wf hm
  · split
    · exact State.sagain_wf (wf_of_pair ‹_› (State.reshardRead_wf hm))
    · exact State.sput_wf (State.dropFetched_wf (wf_of_pair ‹_› (State.reshardRead_wf hm)))
    · exact State.reshardStart_wf (State.dropFetched_wf (wf_of_pair ‹_› (State.reshardRead_wf hm)))

theorem execReshard_wf {a d} (hm : s.mem.wf = true) : WfOut (execReshard a d s) := State.reshard_wf hm

theorem execElandJobSlotFree_wf {g} (hm : s.mem.wf = true) : WfOut (execElandJobSlotFree g s) := by
  unfold execElandJobSlotFree
  dsimp only
  split
  · refine wfOut_next ?_
    split
    · exact hm
    · exact State.reshardGo_wf hm
  · exact hm

theorem State.rswait_wf {a d w} (hm : s.mem.wf = true) : (s.rswait a d w).mem.wf = true := by
  unfold State.rswait
  split
  · dsimp only
    split
    · exact hm
    · split <;> exact hm
  · dsimp only
    split
    · exact hm
    · split <;> exact hm

theorem execRswait_wf {a d} (hm : s.mem.wf = true) : WfOut (execRswait a d s) := by
  unfold execRswait
  refine wfOut_next ?_
  split
  · exact hm
  · exact State.rswait_wf hm

theorem execRswaitRelease_wf {g} (hm : s.mem.wf = true) : WfOut (execRswaitRelease g s) := by
  unfold execRswaitRelease
  dsimp only
  split
  · exact State.rswait_wf hm
  · exact hm

theorem State.gather_wf {x w off} (ps : List (W64 × Nat)) (hm : s.mem.wf = true) : (s.gather x w off ps).2.mem.wf = true := by
  induction ps generalizing s off with
  | nil => exact hm
  | cons p ps ih =>
    have hx := State.xlate_wf (x := x) (va := p.1) (k := .read) hm
    have hp := State.engPart_wf (x := x) (w := w) (va := p.1) (n := p.2) (pol := 0) hx
    unfold State.gather
    extract_lets seen peer
    clear_value peer
    split
    · exact hx
    · split
      all_goals replace hp := wf_of_pair ‹_› hp
      · have hr := ih (off := off + p.2) hp
        split
        · exact wf_of_pair ‹_› hr
        · exact hr
      · exact hp
      · exact hp

theorem State.destPart_wf {x w va n off} (hm : s.mem.wf = true) : (s.destPart x w va n off).2.mem.wf = true := by
  unfold State.destPart
  split
  · exact wf_of_pair ‹_› (State.xlate_wf hm)
  · split <;> exact wf_of_pair ‹_› (State.engAsk_wf (wf_of_pair ‹_› (State.xlate_wf hm)))
  · split
    · exact wf_of_pair ‹_› (State.xlate_wf hm)
    · split
      · exact wf_of_pair ‹_› (State.xlate_wf hm)
      · split
        · exact wf_of_pair ‹_› (State.xlate_wf hm)
        · split
          · exact wf_of_pair ‹_› (State.xlate_wf hm)
          · split <;> exact wf_of_pair ‹_› (State.l2Get_wf (wf_of_pair ‹_› (State.xlate_wf hm)))

theorem State.destParts_wf {x w off} (ps : List (W64 × Nat)) (hm : s.mem.wf = true) : (s.destParts x w off ps).2.mem.wf = true := by
  induction ps generalizing s off with
  | nil => exact hm
  | cons p ps ih => exact ih (State.destPart_wf hm)

theorem State.runPieces_wf {x dev base off} (rs : List (Nat × Nat × Nat)) (hm : s.mem.wf = true) :
    (s.runPieces x dev base off rs).2.mem.wf = true := by
  induction rs generalizing s off with
  | nil => exact hm
  | cons r rs ih =>
    have hr := State.remotePieces_wf 3 (x := x) (kind := .write) (va := base + BitVec.ofNat 64 r.2.1) (n := r.2.2) (off := off)
      (only := some dev) hm
    unfold State.runPieces
    split
    · exact wf_of_pair ‹_› hr
    · exact ih (wf_of_pair ‹_› hr)

theorem State.modChunkPkt_wf {job num i f} (hm : s.mem.wf = true) : (s.modChunkPkt job num i f).mem.wf = true := by
  unfold State.modChunkPkt
  split <;> exact hm

theorem State.chunkLand_wf {job num i j row box p} (hm : s.mem.wf = true) : (s.chunkLand job num i j row box p).mem.wf = true := by
  unfold State.chunkLand
  extract_lets x w de parts set win
  have hs : ∀ t q, t.mem.wf = true → (set t q).mem.wf = true := fun _ _ ht => State.modChunkPkt_wf ht
  have hp := State.destParts_wf (x := x) (w := w) (off := 0) parts hm
  clear_value set win
  split
  all_goals replace hp := wf_of_pair ‹_› hp
  · exact hs _ _ hp
  · exact hp
  · split
    · exact hs _ _ hp
    · split
      · exact hs _ _ hp
      · have hw := State.engWriteParts_wf (x := x) (w := w) (b := p.body) parts hp
        split
        all_goals replace hw := wf_of_pair ‹_› hw
        · exact hw
        · exact hs _ _ hw
        · refine hs _ _ ?_
          split
          · split
            · exact State.countBytes_wf hw
            · exact hw
          · exact hw

theorem State.chunkPkt_wf {job num i j row box p} (hm : s.mem.wf = true) : (s.chunkPkt job num i j row box p).mem.wf = true := by
  unfold State.chunkPkt
  extract_lets x w de runs parts set
  have hs : ∀ t q, t.mem.wf = true → (set t q).mem.wf = true := fun _ _ ht => State.modChunkPkt_wf ht
  have hp := State.gather_wf (x := x) (w := w) (off := 0) parts hm
  clear_value set
  split
  all_goals replace hp := wf_of_pair ‹_› hp
  · exact hp
  · exact hs _ _ (State.dropFetched_wf hp)
  · extract_lets t q
    have ht : t.mem.wf = true := State.dropFetched_wf hp
    split
    · exact State.chunkLand_wf (hs _ _ ht)
    · have hr := State.runPieces_wf (x := x) (dev := de.dev) (base := de.base) (off := 0) runs ht
      split
      · exact hs _ _ (wf_of_pair ‹_› hr)
      · exact State.sendMsg_wf (hs _ _ (wf_of_pair ‹_› hr))

theorem State.pumpChunk_wf {job num} (hm : s.mem.wf = true) : (s.pumpChunk job num).mem.wf = true := by
  unfold State.pumpChunk
  split
  · exact hm
  · split
    · refine wf_foldlState _ _ hm ?_
      intro _ _ hs
      split
      · exact hs
      · split
        · split
          · exact State.chunkPkt_wf hs
          · split
            · exact State.chunkLand_wf hs
            · exact hs
        · exact hs
    · exact hm

theorem execChunkIssue_wf {job} (hm : s.mem.wf = true) : WfOut (execChunkIssue job s) := by
  unfold execChunkIssue
  extract_lets t
  have ht : t.mem.wf = true := State.pumpJob_wf _ hm
  clear_value t
  split
  · exact ht
  · extract_lets held
    split
    · exact State.pumpChunk_wf ht
    · split
      · exact ht
      · split
        · exact ht
        · exact State.pumpChunk_wf ht

theorem execChunkAck_wf {job num} (hm : s.mem.wf = true) : WfOut (execChunkAck job num s) := by
  unfold execChunkAck
  split
  · exact hm
  · split
    · exact hm
    · split
      · exact hm
      · extract_lets r size j
        split
        · exact State.changeJob_wf hm
        · exact State.pumpJob_wf _ hm

/-! ## Lane accesses -/

theorem State.pushFar_wf {l wide ks src} (hm : s.mem.wf = true) : (s.pushFar l wide ks src).mem.wf = true := by
  unfold State.pushFar
  split <;> exact hm

theorem State.farVal_wf {l wide k v} (hm : s.mem.wf = true) : WfThread (s.farVal l wide k v) := by
  unfold State.farVal
  exact State.pushFar_wf hm

theorem State.needXlat_wf {va write} {fail : Nat → State → TOut} (hf : ∀ c t, t.mem.wf = true → WfThread (fail c t))
    (hm : s.mem.wf = true) : WfThread (s.needXlat va write fail) := by
  have hx := State.askXlat_wf (w := .xlat s.curGid s.curSlot) (x := s.sacc) (va := va) (write := write) hm
  unfold State.needXlat
  split
  all_goals replace hx := wf_of_pair ‹_› hx
  · exact hx
  · exact hf _ _ hx
  · exact hx

theorem State.afterGlobal_wf {l wide write k va} {r : Res × State} {load w} (hr : r.2.mem.wf = true) :
    WfThread (s.afterGlobal l wide write k va r load w) := by
  obtain ⟨a, t⟩ := r
  unfold State.afterGlobal
  extract_lets fail
  have hf : ∀ c t, t.mem.wf = true → WfThread (fail c t) := by
    intro c t ht
    unfold fail
    split
    · exact State.farVal_wf ht
    · exact ht
  clear_value fail
  split <;> rename_i e <;> cases e
  · split
    · exact State.farVal_wf hr
    · exact hr
  · split
    · exact State.pushFar_wf hr
    · exact hr
  · exact hf _ _ hr
  · exact State.needXlat_wf hf hr
  · exact hr

theorem State.inOrder_wf {k} {f : State → TOut} (hf : ∀ t, t.mem.wf = true → WfThread (f t)) (hm : s.mem.wf = true) :
    WfThread (s.inOrder k f) := by
  unfold State.inOrder
  split
  · exact hm
  · exact hf _ hm

theorem State.wReady_wf {gid} (hm : s.mem.wf = true) : (s.wReady gid).mem.wf = true := by
  unfold State.wReady
  split <;> exact hm

theorem execFarResultArrival_wf {g i} (hm : s.mem.wf = true) : WfOut (execFarResultArrival g i s) := by
  unfold execFarResultArrival
  split
  · exact hm
  · split
    · exact hm
    · refine wfOut_next ?_
      refine State.wReady_wf ?_
      split <;> exact hm

theorem execLd_wf {l ty pol} (hm : s.mem.wf = true) : WfOut (execLd l ty pol s) := by
  refine State.lane_wf (fun k t ht => State.inOrder_wf (fun t ht => ?_) ht) hm
  extract_lets va n
  split
  · split
    · exact State.farVal_wf ht
    · exact ht
  · exact State.afterGlobal_wf (State.load_wf ht)

theorem execSt_wf {l ty pol} (hm : s.mem.wf = true) : WfOut (execSt l ty pol s) := by
  refine State.lane_wf (fun k t ht => State.inOrder_wf (fun t ht => ?_) ht) hm
  split
  · exact ht
  · extract_lets va n
    split
    · exact ht
    · exact State.afterGlobal_wf (State.store_wf ht)

theorem State.scratchVal_wf {l wide k a v} (hm : s.mem.wf = true) : WfThread (s.scratchVal l wide k a v) := by
  unfold State.scratchVal
  split
  · exact State.farVal_wf hm
  · exact hm

theorem execLds_wf {l ty} (hm : s.mem.wf = true) : WfOut (execLds l ty s) := by
  unfold execLds
  refine State.lane_wf ?_ hm
  intro _ _ hs
  refine State.inOrder_wf ?_ hs
  intro _ hs
  split
  · dsimp only
    split
    · exact hs
    · split
      · exact State.scratchVal_wf hs
      · exact hs
  · dsimp only
    split
    · exact hs
    · split
      · exact State.scratchVal_wf hs
      · exact hs

theorem execSts_wf {l ty} (hm : s.mem.wf = true) : WfOut (execSts l ty s) := by
  unfold execSts
  refine State.lane_wf ?_ hm
  intro _ _ hs
  refine State.inOrder_wf ?_ hs
  intro _ hs
  split
  · exact hs
  · dsimp only
    split
    · exact hs
    · split <;> exact wf_of_pair ‹_› (State.scratchStore_wf hs)

theorem execLdfeKeep_wf {l ty} (hm : s.mem.wf = true) : WfOut (execLdfeKeep l ty s) := by
  unfold execLdfeKeep
  refine State.lane_wf ?_ hm
  intro _ _ hs
  refine State.inOrder_wf ?_ hs
  intro _ hs
  dsimp only
  split
  · split <;> exact hs
  · split
    · split <;> exact hs
    · split
      · exact State.scratchVal_wf hs
      · exact hs

theorem execLdfeClear_wf {l ty} (hm : s.mem.wf = true) : WfOut (execLdfeClear l ty s) := by
  unfold execLdfeClear
  refine State.lane_wf ?_ hm
  intro _ _ hs
  refine State.inOrder_wf ?_ hs
  intro _ hs
  dsimp only
  split
  · split <;> exact hs
  · split
    · split <;> exact hs
    · split
      · split <;> exact hs
      · split
        · exact State.scratchVal_wf hs
        · split
          · exact State.scratchVal_wf hs
          · exact hs

theorem execStfe_wf {l ty} (hm : s.mem.wf = true) : WfOut (execStfe l ty s) := by
  refine State.lane_wf (fun k t ht => State.inOrder_wf (fun t ht => ?_) ht) hm
  split
  · exact ht
  · extract_lets a n
    have hw := State.scratchStore_wf (tid := t.cur.team) (a := a) (n := n) (v := t.src l ty.wide l.b k % 2 ^ (8 * n)) ht
    split
    · exact ht
    · split
      all_goals replace hw := wf_of_pair ‹_› hw
      · exact State.setTeamFe_wf hw
      · exact hw
      · exact hw

theorem execLdc_wf {l ty} (hm : s.mem.wf = true) : WfOut (execLdc l ty s) := by
  unfold execLdc
  refine State.lane_wf ?_ hm
  intro _ _ hs
  split
  · dsimp only
    split
    · exact hs
    · split <;> exact hs
  · dsimp only
    split
    · exact hs
    · split <;> exact hs

theorem TOut.slot_wf {r : TOut} (hr : WfThread r) : WfThread r.slot := by
  cases r <;> exact hr

theorem State.slotThread_wf {l ty store pol k} (hm : s.mem.wf = true) : WfThread (s.slotThread l ty store pol k) := by
  unfold State.slotThread
  split
  · exact hm
  · extract_lets n va
    split
    · exact hm
    · split
      · exact TOut.slot_wf (State.afterGlobal_wf (State.store_wf hm))
      · exact TOut.slot_wf (State.afterGlobal_wf (State.load_wf hm))

theorem execCstore_wf {l ty pol} (hm : s.mem.wf = true) : WfOut (execCstore l ty pol s) := by
  have hb := State.laneBegin_wf (i := .cstore l ty pol) (l := l) hm
  unfold execCstore
  split
  all_goals
    rename_i t e
    rw [e] at hb
  · exact hb
  · have hp := laneThreads_wf (l := l) (wide := false) (f := fun k s => s.inOrder k fun s => s.slotThread l ty true pol k)
      (fun _ _ ht => State.inOrder_wf (fun _ ht => State.slotThread_wf ht) ht) t.toPass hb
    split
    all_goals
      rename_i e
      rw [e] at hp
    · exact hp
    · refine wfOut_next (State.laneEnd_wf ?_)
      split
      · exact hp
      · exact State.pushFar_wf hp

theorem execXload_wf {l ty pol} (hm : s.mem.wf = true) : WfOut (execXload l ty pol s) :=
  State.lane_wf (fun _ _ ht => State.inOrder_wf (fun _ ht => State.slotThread_wf ht) ht) hm

theorem State.prefetch_wf {va pol} (hm : s.mem.wf = true) : (s.prefetch va pol).mem.wf = true := by
  unfold State.prefetch
  split
  · dsimp only
    split
    · exact wf_of_pair ‹_› (State.xlate_wf hm)
    · exact State.askXlat_wf (wf_of_pair ‹_› (State.xlate_wf hm))
    · split
      · split
        · exact wf_of_pair ‹_› (State.xlate_wf hm)
        · split
          · exact wf_demote _ _ (wf_of_pair ‹_› (State.xlate_wf hm))
          · exact State.askPeer_wf (wf_of_pair ‹_› (State.xlate_wf hm))
      · split
        · split
          · exact State.keepLine_wf (wf_l1Rekey _ _ _ (wf_of_pair ‹_› (State.xlate_wf hm)))
          · split
            · exact wf_l1Rekey _ _ _ (wf_of_pair ‹_› (State.xlate_wf hm))
            · exact State.askHost_wf (wf_l1Rekey _ _ _ (wf_of_pair ‹_› (State.xlate_wf hm)))
        · split
          · exact State.keepLine_wf (wf_of_pair ‹_› (State.l2Get_wf (wf_l1Rekey _ _ _ (wf_of_pair ‹_› (State.xlate_wf hm)))))
          · exact wf_of_pair ‹_› (State.l2Get_wf (wf_l1Rekey _ _ _ (wf_of_pair ‹_› (State.xlate_wf hm))))
  · dsimp only
    split
    · exact wf_of_pair ‹_› (State.xlate_wf hm)
    · exact State.askXlat_wf (wf_of_pair ‹_› (State.xlate_wf hm))
    · split
      · split
        · exact wf_of_pair ‹_› (State.xlate_wf hm)
        · split
          · exact wf_of_pair ‹_› (State.xlate_wf hm)
          · exact State.askPeer_wf (wf_of_pair ‹_› (State.xlate_wf hm))
      · split
        · split
          · exact State.keepLine_wf (wf_l1Rekey _ _ _ (wf_of_pair ‹_› (State.xlate_wf hm)))
          · split
            · exact wf_l1Rekey _ _ _ (wf_of_pair ‹_› (State.xlate_wf hm))
            · exact State.askHost_wf (wf_l1Rekey _ _ _ (wf_of_pair ‹_› (State.xlate_wf hm)))
        · split
          · exact State.keepLine_wf (wf_of_pair ‹_› (State.l2Get_wf (wf_l1Rekey _ _ _ (wf_of_pair ‹_› (State.xlate_wf hm)))))
          · exact wf_of_pair ‹_› (State.l2Get_wf (wf_l1Rekey _ _ _ (wf_of_pair ‹_› (State.xlate_wf hm))))

theorem execPrefl_wf {l pol} (hm : s.mem.wf = true) : WfOut (execPrefl l pol s) :=
  State.lane_wf (fun _ _ ht => State.prefetch_wf ht) hm

theorem execZline_wf {l pol} (hm : s.mem.wf = true) : WfOut (execZline l pol s) := by
  refine State.lane_wf (fun k t ht => State.inOrder_wf (fun t ht => ?_) ht) hm
  extract_lets va x
  split
  · exact ht
  · split
    · exact ht
    · split
      · exact ht
      · split
        · exact ht
        · next f src _ _ =>
          extract_lets a key
          have hl := State.l2Get_wf (x := x) (l := f) (a := a) (write := true) (wait := false) (blank := true)
            (State.cacheLeaf_wf (x := x) (va := va) (l := f) src ht)
          split
          all_goals replace hl := wf_of_pair ‹_› hl
          · exact wf_of_same (wf_homeWrite key 0 128 0 0 hl) rfl rfl
          · exact hl
          · exact hl

theorem State.gatom_wf {l wide k f acq rel} (hm : s.mem.wf = true) : WfThread (s.gatom l wide k f acq rel) := by
  unfold State.gatom
  split
  · exact hm
  · dsimp only
    split
    · exact hm
    · exact State.afterGlobal_wf (State.atomic_wf hm)

theorem State.satom_wf {l wide k f acq rel} (hm : s.mem.wf = true) : WfThread (s.satom l wide k f acq rel) := by
  unfold State.satom
  split
  · exact hm
  · extract_lets a sc far
    split
    · exact hm
    · have ha := State.scratchAtomic_wf (tid := s.cur.team) (a := a) (f := f) hm
      split
      all_goals replace ha := wf_of_pair ‹_› ha
      · exact ha
      · extract_lets t u
        have ht : t.mem.wf = true := by
          unfold t
          split
          · exact State.releaseAt_wf ha
          · exact ha
        have hu : u.mem.wf = true := by
          unfold u
          split
          · exact State.acquireAt_wf ht
          · exact ht
        clear_value u
        split
        · exact State.farVal_wf hu
        · split <;> exact hu

theorem execAtom_wf {l o ty acq rel} (hm : s.mem.wf = true) : WfOut (execAtom l o ty acq rel s) :=
    State.lane_wf (fun _ _ hs => State.inOrder_wf (fun _ hs => State.gatom_wf hs) hs) hm

theorem execAcas_wf {l ty acq rel} (hm : s.mem.wf = true) : WfOut (execAcas l ty acq rel s) :=
    State.lane_wf (fun _ _ hs => State.inOrder_wf (fun _ hs => State.gatom_wf hs) hs) hm

theorem execAtoms_wf {l o ty acq rel} (hm : s.mem.wf = true) : WfOut (execAtoms l o ty acq rel s) :=
    State.lane_wf (fun _ _ hs => State.inOrder_wf (fun _ hs => State.satom_wf hs) hs) hm

theorem execAcass_wf {l ty acq rel} (hm : s.mem.wf = true) : WfOut (execAcass l ty acq rel s) :=
    State.lane_wf (fun _ _ hs => State.inOrder_wf (fun _ hs => State.satom_wf hs) hs) hm

theorem execRed_wf {l o ty rel} (hm : s.mem.wf = true) : WfOut (execRed l o ty rel s) :=
    State.lane_wf (fun _ _ hs => State.inOrder_wf (fun _ hs => State.gatom_wf hs) hs) hm

/-! ## The matrix unit -/

theorem State.mxResult_wf {c} (hm : s.mem.wf = true) : (s.mxResult c).mem.wf = true := by
  unfold State.mxResult
  split
  · refine State.modGroup_wf ?_
    split
    · exact State.setTeam_wf hm
    · exact hm
  · exact hm

theorem State.mxPass_wf {core kept} (cs : List MxCmd) (hm : s.mem.wf = true) : (s.mxPass core kept cs).2.mem.wf = true := by
  induction cs generalizing s kept with
  | nil => exact hm
  | cons c cs ih =>
    unfold State.mxPass
    split
    · split
      · exact ih hm
      · exact ih (State.mxResult_wf hm)
    · split
      · exact ih hm
      · exact ih hm
    · exact ih hm

theorem State.mxSettle_wf {core} (hm : s.mem.wf = true) : (s.mxSettle core).mem.wf = true := by
  unfold State.mxSettle
  exact State.mxPass_wf (core := core) (kept := []) (s.core core).mxq hm

theorem State.mxPush_wf {op latch due} (hm : s.mem.wf = true) : WfFlow (s.mxPush op latch due) := by
  unfold State.mxPush
  extract_lets c cmd
  split
  · exact hm
  · exact State.mxSettle_wf hm

theorem State.mxIssue_wf {i l ok} {f : State → Flow} (hf : ∀ t, t.mem.wf = true → WfFlow (f t)) (hm : s.mem.wf = true) :
    WfOut (s.mxIssue i l ok f) := by
  unfold State.mxIssue
  split
  · exact State.killLane_wf hm
  · refine State.laneOnce_wf (fun t ht => ?_) hm
    split
    · exact hf _ (State.markLatch_wf ht)
    · exact ht

theorem State.mxTrap_wf {e} (hm : s.mem.wf = true) : WfFlow (s.mxTrap e) := by
  unfold State.mxTrap
  exact State.laneTrap_wf hm

theorem State.mxTake_wf {x n r lz latch t} (hm : s.mem.wf = true) (e : s.mxTake x n = some (r, lz, latch, t)) : t.mem.wf = true := by
  unfold State.mxTake at e
  extract_lets cn c take at e
  have ht : ∀ r, (take r).mem.wf = true := by
    intro r
    unfold take
    extract_lets u
    split <;> exact hm
  clear_value take
  repeat' split at e
  all_goals cases e <;> first | exact hm | exact ht _

theorem execMxloop_wf {l tile n za} (hm : s.mem.wf = true) : WfOut (execMxloop l tile n za s) := by
  refine State.mxIssue_wf (fun t ht => ?_) hm
  extract_lets steps bp fa u ws ext
  split
  · exact State.mxTrap_wf ht
  · split
    · exact ht
    · split
      · exact ht
      · exact State.mxPush_wf (State.mxTake_wf ht ‹_›)

theorem execMxzero_wf {l} (hm : s.mem.wf = true) : WfOut (execMxzero l s) := State.mxIssue_wf (fun _ hs => State.mxPush_wf hs) hm

theorem execMxld_wf {l tile} (hm : s.mem.wf = true) : WfOut (execMxld l tile s) := by
  unfold execMxld
  refine State.mxIssue_wf ?_ hm
  intro _ hs
  dsimp only
  split
  · exact State.mxTrap_wf hs
  · exact State.mxPush_wf hs

theorem execMxst_wf {l tile fmt} (hm : s.mem.wf = true) : WfOut (execMxst l tile fmt s) := by
  unfold execMxst
  refine State.mxIssue_wf ?_ hm
  intro _ hs
  dsimp only
  split
  · exact State.mxTrap_wf hs
  · exact State.mxPush_wf hs

theorem State.mxWait_wf {l stall tile clr} (hm : s.mem.wf = true) : WfFlow (s.mxWait l stall tile clr) := by
  unfold State.mxWait
  split
  · exact hm
  · exact State.mxPush_wf (State.pushFar_wf hm)

theorem execMxwaitSt_wf {l tile clr} (hm : s.mem.wf = true) : WfOut (execMxwaitSt l tile clr s) :=
    State.mxIssue_wf (fun _ hs => State.mxWait_wf hs) hm

theorem execMxwaitStall_wf {l clr} (hm : s.mem.wf = true) : WfOut (execMxwaitStall l clr s) :=
    State.mxIssue_wf (fun _ hs => State.mxWait_wf hs) hm

theorem execMxrel_wf {l} (hm : s.mem.wf = true) : WfOut (execMxrel l s) := by
  refine State.mxIssue_wf (fun t ht => ?_) hm
  split
  · exact State.mxPush_wf ht
  · exact ht

theorem execMxCommandStart_wf {core} (hm : s.mem.wf = true) : WfOut (execMxCommandStart core s) := by
  unfold execMxCommandStart
  split
  · dsimp only
    split <;> exact hm
  · exact hm

theorem State.mxEffect_wf {c} (hm : s.mem.wf = true) : (s.mxEffect c).mem.wf = true := by
  unfold State.mxEffect
  split
  · split <;> exact hm
  · exact hm
  · exact hm
  · exact State.setTeamFe_wf hm
  · exact hm
  · exact hm

theorem execMxCommandComplete_wf {core} (hm : s.mem.wf = true) : WfOut (execMxCommandComplete core s) := by
  unfold execMxCommandComplete
  split
  · split
    · exact hm
    · exact State.mxSettle_wf (State.mxEffect_wf hm)
  · exact hm

theorem execMxQueueReissue_wf {g sl} (hm : s.mem.wf = true) : WfOut (execMxQueueReissue g sl s) := by
  unfold execMxQueueReissue
  split <;> exact hm

theorem execAlatchAcquire_wf {g sl} (hm : s.mem.wf = true) : WfOut (execAlatchAcquire g sl s) := by
  unfold execAlatchAcquire
  split <;> exact hm

theorem execTokenArrival_wf {die cl} (hm : s.mem.wf = true) : WfOut (execTokenArrival die cl s) := by
  unfold execTokenArrival
  dsimp only
  split <;> exact hm

theorem execTokenHoldTimeout_wf {die cl} (hm : s.mem.wf = true) : WfOut (execTokenHoldTimeout die cl s) := by
  unfold execTokenHoldTimeout
  dsimp only
  split <;> exact hm

theorem execSupplyDroop_wf {die count} (hm : s.mem.wf = true) : WfOut (execSupplyDroop die count s) := by
  unfold execSupplyDroop
  dsimp only
  split <;> exact hm

theorem State.accrueStall_wf {n} (hm : s.mem.wf = true) : (s.accrueStall n).mem.wf = true := by
  unfold State.accrueStall
  refine wf_foldlState _ _ hm ?_
  intro _ _ hs
  split
  · dsimp only
    split <;> exact hs
  · exact hs

/-! ## Placement -/

theorem State.placeGroups_wf {tid core t} (is_ : List Nat) (hm : s.mem.wf = true) : WfSome (s.placeGroups tid core t is_) := by
  induction is_ generalizing s with
  | nil => exact wfSome_some hm
  | cons i is_ ih =>
    unfold State.placeGroups
    split
    · exact wfSome_none
    · exact ih (State.draw_wf hm)

theorem State.refitL1_wf {core old} (hm : s.mem.wf = true) : (s.refitL1 core old).mem.wf = true := wf_l1Resize _ _ _ hm

theorem State.placeOn_wf {n l lin gang first size core} (hm : s.mem.wf = true) :
    WfSome (s.placeOn n l lin gang first size core) := by
  unfold State.placeOn
  split
  · exact wfSome_none
  · split
    · exact wfSome_none
    · extract_lets t tid was u
      have hu : u.mem.wf = true := hm
      clear_value u
      exact wfSome_map (State.placeGroups_wf _ hu) fun _ ht => State.acquireAt_wf (State.refitL1_wf ht)

theorem State.placeTeam_wf {n l lin gang first size} (hm : s.mem.wf = true) : WfSome (s.placeTeam n l lin gang first size) :=
  wfSome_findSome fun _ => State.placeOn_wf hm

theorem State.placeTeams_wf {n l gang first size} (is_ : List Nat) (hm : s.mem.wf = true) :
    WfSome (s.placeTeams n l gang first size is_) := by
  induction is_ generalizing s with
  | nil => exact wfSome_some hm
  | cons i is_ ih => exact wfSome_bind (State.placeTeam_wf hm) fun _ ht => ih ht

theorem State.setLaunch_wf {n l} (hm : s.mem.wf = true) : (s.setLaunch n l).mem.wf = true := hm

theorem State.writeGang_wf {l size pref} (hm : s.mem.wf = true) : (s.writeGang l size pref).2.mem.wf = true := by
  unfold State.writeGang
  split
  · split
    · exact hm
    · exact State.engWrite_wf hm
  · split
    · exact hm
    · exact State.engWrite_wf hm

theorem State.placeGang_wf {n l size pref} (hm : s.mem.wf = true) : WfSome (s.placeGang n l size pref) :=
  wfSome_map (State.placeTeams_wf _ hm) fun _ ht => State.setLaunch_wf (State.writeGang_wf ht)

theorem State.unclaim_wf {n} (hm : s.mem.wf = true) : (s.unclaim n).mem.wf = true := hm

theorem State.cutGang_wf {n l} (hm : s.mem.wf = true) : (s.cutGang n l).mem.wf = true := by
  unfold State.cutGang
  extract_lets left p big l' size
  have hb : WfSome big := by
    unfold big
    split
    · exact State.placeGang_wf hm
    · exact wfSome_none
  clear_value big
  split
  · exact State.unclaim_wf (hb _ rfl)
  · split
    · exact State.unclaim_wf (State.placeGang_wf hm _ ‹_›)
    · split <;> exact State.setLaunch_wf hm

theorem State.nextGang_wf {n l} (hm : s.mem.wf = true) : (s.nextGang n l).mem.wf = true := by
  have hw := State.writeGang_wf (l := l) (size := 1) (pref := false) hm
  unfold State.nextGang
  split
  · exact State.cutGang_wf hm
  · exact State.setLaunch_wf hm
  · exact wf_of_pair ‹_› hw

theorem State.redoTeam_wf {n l lin} (hm : s.mem.wf = true) : (s.redoTeam n l lin).mem.wf = true := by
  unfold State.redoTeam
  split
  · split
    · exact State.setLaunch_wf (State.unclaim_wf (wf_of_some ‹_› (State.placeTeam_wf hm)))
    · exact hm
  · exact hm

theorem State.replaceGroups_wf {core t} (gs : List Nat) (hm : s.mem.wf = true) : WfSome (s.replaceGroups core t gs) := by
  induction gs generalizing s with
  | nil => exact wfSome_some hm
  | cons g gs ih =>
    unfold State.replaceGroups
    split
    · exact wfSome_none
    · exact ih hm

theorem State.restoreOn_wf {tid core t} (hm : s.mem.wf = true) : WfSome (s.restoreOn tid core t) := by
  unfold State.restoreOn
  split
  · exact wfSome_none
  · split
    · exact wfSome_none
    · extract_lets was
      exact wfSome_map (State.replaceGroups_wf (s := s.setTeam _ _) _ hm) fun _ ht => State.refitL1_wf (State.unclaim_wf ht)

theorem execTeamPlacement_wf {n} (hm : s.mem.wf = true) : WfOut (execTeamPlacement n s) := by
  unfold execTeamPlacement
  split
  · exact hm
  · split
    · exact hm
    · split
      · exact wf_getD (wfSome_findSome fun _ => State.restoreOn_wf hm) hm
      · split
        · exact hm
        · split
          · exact State.redoTeam_wf hm
          · exact State.nextGang_wf hm

theorem State.trackClaims_wf (hm : s.mem.wf = true) : (s.trackClaims).mem.wf = true := by
  unfold State.trackClaims
  split <;> exact hm

theorem State.trackPending_wf (hm : s.mem.wf = true) : (s.trackPending).mem.wf = true := by
  unfold State.trackPending
  refine wf_foldlState _ _ hm ?_
  intro _ _ hs
  dsimp only
  split <;> split <;> split <;> exact hs

theorem execReserveState_wf {g} (hm : s.mem.wf = true) : WfOut (execReserveState g s) := by
  unfold execReserveState
  refine wfOut_next ?_
  split <;> exact hm

theorem State.enterActive_wf {gid slot gran} (hm : s.mem.wf = true) : (s.enterActive gid slot gran).mem.wf = true := by
  unfold State.enterActive
  refine State.setGroup_wf ?_
  split
  · exact State.setLanePair_wf hm
  · exact hm

theorem execGroupExchange_wf {g} (hm : s.mem.wf = true) : WfOut (execGroupExchange g s) := by
  unfold execGroupExchange
  extract_lets x core r tryLeave
  split
  · exact hm
  · split
    · exact State.enterActive_wf hm
    · refine wf_getD (wfSome_findSome fun p => ?_) hm
      unfold tryLeave
      split
      · extract_lets t
        refine fun u e => ?_
        obtain ⟨gr, _, rfl⟩ := Option.map_eq_some_iff.mp e
        exact State.enterActive_wf hm
      · exact wfSome_none

theorem State.dropTeam_wf {tid} (hm : s.mem.wf = true) : (s.dropTeam tid).mem.wf = true := State.refitL1_wf hm

theorem execTeamEnd_wf {t} (hm : s.mem.wf = true) : WfOut (execTeamEnd t s) := by
  unfold execTeamEnd
  split
  · exact hm
  · exact State.dropTeam_wf (State.releaseAt_wf hm)

theorem State.loseTeam_wf {tid} (hm : s.mem.wf = true) : (s.loseTeam tid).mem.wf = true := by
  unfold State.loseTeam
  dsimp only
  split <;> exact State.dropTeam_wf (wf_foldlState _ _ hm (fun _ _ hs => State.endGroup_wf hs))

theorem State.wipeCore_wf {core} (hm : s.mem.wf = true) : (s.wipeCore core).mem.wf = true := by
  unfold State.wipeCore
  extract_lets t unown
  have ht : t.mem.wf = true := wf_foldlState _ _ hm fun _ _ hs => State.loseTeam_wf hs
  exact wf_of_same ht rfl rfl

theorem execCoreFailure_wf {core spare} (hm : s.mem.wf = true) : WfOut (execCoreFailure core spare s) := by
  unfold execCoreFailure
  split
  · exact hm
  · dsimp only
    split <;> exact State.wipeCore_wf hm

theorem execThermalShutdown_wf (hm : s.mem.wf = true) : WfOut (execThermalShutdown s) := by
  unfold execThermalShutdown
  extract_lets t
  have ht : t.mem.wf = true := wf_foldlState _ _ hm fun _ _ hs => State.loseTeam_wf hs
  exact wf_of_same ht rfl rfl

/-! ## Queues and commands -/

theorem State.modCmd_wf {n f} (hm : s.mem.wf = true) : (s.modCmd n f).mem.wf = true := hm

theorem State.noteReady_wf {was : State} (hm : s.mem.wf = true) : (State.noteReady was s).mem.wf = true := by
  unfold State.noteReady
  split
  · exact State.shaltEvent_wf hm
  · exact hm

theorem State.sigFault_wf {c} (hm : s.mem.wf = true) : (s.sigFault c).mem.wf = true := hm

theorem State.signalMax_wf {c v} (hm : s.mem.wf = true) : (s.signalMax c v).2.mem.wf = true := by
  unfold State.signalMax
  dsimp only
  split
  · exact hm
  · split
    · exact State.sigFault_wf hm
    · split
      · exact State.sigFault_wf (wf_of_pair ‹_› (State.xlate_wf hm))
      · split
        · exact State.sigFault_wf (wf_of_pair ‹_› (State.askXlat_wf (wf_of_pair ‹_› (State.xlate_wf hm))))
        · exact wf_of_pair ‹_› (State.askXlat_wf (wf_of_pair ‹_› (State.xlate_wf hm)))
      · split
        · exact State.sigFault_wf (wf_of_pair ‹_› (State.xlate_wf hm))
        · split
          · refine State.askHost_wf ?_
            refine State.overtake_wf ?_
            dsimp only
            exact wf_of_pair ‹_› (State.xlate_wf hm)
          · split
            · split
              · refine State.askPeer_wf ?_
                refine State.overtake_wf ?_
                dsimp only
                exact wf_of_pair ‹_› (State.xlate_wf hm)
              · exact State.sigFault_wf (wf_of_pair ‹_› (State.xlate_wf hm))
            · split
              · exact State.sigFault_wf (wf_of_pair ‹_› (State.atomic_wf (wf_of_pair ‹_› (State.xlate_wf hm))))
              · exact wf_of_pair ‹_› (State.atomic_wf (wf_of_pair ‹_› (State.xlate_wf hm)))
              · exact wf_of_pair ‹_› (State.atomic_wf (wf_of_pair ‹_› (State.xlate_wf hm)))

theorem State.removeCmd_wf {c code} (hm : s.mem.wf = true) : (s.removeCmd c code).mem.wf = true := State.noteReady_wf hm

theorem State.settleCmd_wf {n} (hm : s.mem.wf = true) : (s.settleCmd n).mem.wf = true := by
  unfold State.settleCmd
  split
  · exact hm
  · split
    · exact hm
    · split
      · dsimp only
        split
        · split
          · exact State.releaseAt_wf hm
          · split
            · exact State.removeCmd_wf (State.signalMax_wf (State.releaseEnd_wf (State.releaseAt_wf hm)))
            · exact State.signalMax_wf (State.releaseEnd_wf (State.releaseAt_wf hm))
        · split
          · exact hm
          · split
            · exact State.removeCmd_wf (State.signalMax_wf hm)
            · exact State.signalMax_wf hm
      · dsimp only
        split
        · split
          · exact State.releaseAt_wf hm
          · split
            · exact State.removeCmd_wf (State.signalMax_wf (State.releaseEnd_wf (State.releaseAt_wf hm)))
            · exact State.signalMax_wf (State.releaseEnd_wf (State.releaseAt_wf hm))
        · split
          · exact hm
          · split
            · exact State.removeCmd_wf (State.signalMax_wf hm)
            · exact State.signalMax_wf hm

theorem State.finishCmd_wf {n code} (hm : s.mem.wf = true) : (s.finishCmd n code).mem.wf = true := State.settleCmd_wf hm

theorem State.cmdRun_wf {n p} {f : Cmd → State → State} (hf : ∀ c, (f c s).mem.wf = true) (hm : s.mem.wf = true) :
    WfOut (s.cmdRun n p f) := by
  unfold State.cmdRun
  split
  · exact hm
  · split
    · exact hm
    · split
      · exact State.finishCmd_wf hm
      · split
        · exact State.settleCmd_wf hm
        · exact hf _

theorem State.cmdRead_wf {c va n} {k : List Byte → State → State} (hk : ∀ b t, t.mem.wf = true → (k b t).mem.wf = true)
    (hm : s.mem.wf = true) : (s.cmdRead c va n k).mem.wf = true := by
  have hr := State.engRead_wf (x := c.acc) (w := .cmd c.num) (va := va) (n := n) hm
  unfold State.cmdRead
  split
  all_goals replace hr := wf_of_pair ‹_› hr
  · exact hk _ _ hr
  · exact State.finishCmd_wf hr
  · exact hr

theorem State.cmdWrite_wf {c va b} {k : State → State} (hk : ∀ t, t.mem.wf = true → (k t).mem.wf = true) (hm : s.mem.wf = true) :
    (s.cmdWrite c va b k).mem.wf = true := by
  have hr := State.engWrite_wf (x := c.acc) (w := .cmd c.num) (va := va) (b := b) hm
  unfold State.cmdWrite
  split
  all_goals replace hr := wf_of_pair ‹_› hr
  · exact hk _ hr
  · exact State.finishCmd_wf hr
  · exact hr

theorem execKick_wf {q off bytes} (hm : s.mem.wf = true) : WfOut (execKick q off bytes s) := by
  unfold execKick
  extract_lets x w
  split
  · exact hm
  · split
    · exact hm
    · exact State.noteReady_wf (s := s.setQueue q { x with wptr := w }) hm

theorem State.endTurns_wf (hm : s.mem.wf = true) : (s.endTurns).mem.wf = true := hm

theorem State.enterCmd_wf {c} (hm : s.mem.wf = true) : (s.enterCmd c).mem.wf = true := by
  unfold State.enterCmd
  split
  · split
    · dsimp only
      split
      · exact State.finishCmd_wf hm
      · exact hm
    · dsimp only
      split
      · exact State.finishCmd_wf hm
      · exact hm
  · dsimp only
    split
    · exact State.finishCmd_wf hm
    · exact hm

theorem State.writeRptr_wf {d} (hm : s.mem.wf = true) : (s.writeRptr d).mem.wf = true := by
  unfold State.writeRptr
  split
  · exact hm
  · dsimp only
    split
    · exact State.releaseAt_wf hm
    · split
      · dsimp only
        exact wf_of_pair ‹_› (State.engWrite_wf (State.releaseEnd_wf (State.releaseAt_wf hm)))
      · exact wf_of_pair ‹_› (State.engWrite_wf (State.releaseEnd_wf (State.releaseAt_wf hm)))

theorem State.pumpRptr_wf (hm : s.mem.wf = true) : (s.pumpRptr).mem.wf = true := wf_foldlState _ _ hm (fun _ _ => State.writeRptr_wf)

theorem State.consume_wf {q} (hm : s.mem.wf = true) : (s.consume q).mem.wf = true := State.pumpRptr_wf hm

theorem State.served_wf {q lvl left} (hm : s.mem.wf = true) : (s.served q lvl left).mem.wf = true := hm

theorem execCommandStart_wf (hm : s.mem.wf = true) : WfOut (execCommandStart s) := by
  unfold execCommandStart
  dsimp only
  split
  · exact State.endTurns_wf hm
  · split
    · exact State.endTurns_wf hm
    · split
      · exact wf_of_pair ‹_› (State.engRead_wf (State.endTurns_wf hm))
      · exact State.consume_wf (State.served_wf (wf_of_pair ‹_› (State.engRead_wf (State.endTurns_wf hm))))
      · split
        · exact State.endTurns_wf hm
        · exact State.enterCmd_wf (State.consume_wf (State.served_wf (wf_of_pair ‹_› (State.engRead_wf (State.endTurns_wf hm)))))

theorem execNopCommand_wf {n} (hm : s.mem.wf = true) : WfOut (execNopCommand n s) := State.cmdRun_wf (fun _ => State.finishCmd_wf hm) hm

theorem execSignal_wf {n} (hm : s.mem.wf = true) : WfOut (execSignal n s) := State.cmdRun_wf (fun _ => State.finishCmd_wf hm) hm

theorem State.waitLook_wf {c} (hm : s.mem.wf = true) : (s.waitLook c).mem.wf = true := by
  refine State.cmdRead_wf (fun b t ht => ?_) hm
  extract_lets x
  split
  · exact ht
  · exact State.finishCmd_wf ht

theorem execWait_wf {n} (hm : s.mem.wf = true) : WfOut (execWait n s) := State.cmdRun_wf (fun _ => State.waitLook_wf hm) hm

theorem execWaitRelease_wf {q} (hm : s.mem.wf = true) : WfOut (execWaitRelease q s) := by
  unfold execWaitRelease
  split
  · exact execWait_wf hm
  · exact hm

theorem execCopy_wf {n} (hm : s.mem.wf = true) : WfOut (execCopy n s) := by
  refine State.cmdRun_wf (fun c => ?_) hm
  extract_lets len units src dst w
  split
  · exact State.finishCmd_wf hm
  · split
    · exact hm
    · split
      · exact State.finishCmd_wf hm
      · refine State.cmdRead_wf (fun b t ht => State.cmdWrite_wf (fun t ht => ?_) ht) hm
        extract_lets u
        split
        · exact State.finishCmd_wf (State.modCmd_wf ht)
        · exact State.modCmd_wf ht

theorem execLaunch_wf {n} (hm : s.mem.wf = true) : WfOut (execLaunch n s) := by
  refine State.cmdRun_wf (fun c => ?_) hm
  extract_lets teams nth
  split
  · exact State.finishCmd_wf hm
  · split
    · exact State.finishCmd_wf hm
    · refine State.cmdRead_wf (fun b t ht => ?_) hm
      split
      · exact State.finishCmd_wf ht
      · exact State.cmdRead_wf (fun _ _ hu => hu) ht

theorem execLaunchComplete_wf {n} (hm : s.mem.wf = true) : WfOut (execLaunchComplete n s) := by
  unfold execLaunchComplete
  split
  · exact hm
  · split
    · exact State.finishCmd_wf hm
    · split
      · exact hm
      · exact State.finishCmd_wf hm

theorem State.tableFrame_wf (hm : s.mem.wf = true) : (s.tableFrame).2.mem.wf = true := hm

theorem State.tableFor_wf {va target table} (n : Nat) (hm : s.mem.wf = true) : (s.tableFor va target n table).2.mem.wf = true := by
  induction n generalizing s table with
  | zero => exact hm
  | succ n ih =>
    have hd := State.tableFrame_wf hm
    unfold State.tableFor
    split
    · exact hm
    · extract_lets a
      split
      · exact hm
      · split
        · exact ih hm
        · exact ih (wf_setEntry _ _ (wf_zeroPage _ hd))

theorem State.mapPage_wf {root va img} (hm : s.mem.wf = true) : (s.mapPage root va img).mem.wf = true := by
  unfold State.mapPage
  extract_lets r base
  refine wf_foldlState _ _ hm fun s j hs => ?_
  extract_lets a
  have ht := State.tableFor_wf (va := a) (target := r.1) (table := root) 5 hs
  split
  · exact wf_setEntry _ _ (wf_of_pair ‹_› ht)
  · exact wf_of_pair ‹_› ht

theorem State.mapPages_wf {root va} (es : List W64) (hm : s.mem.wf = true) : (s.mapPages root va es).2.mem.wf = true := by
  induction es generalizing s va with
  | nil => exact hm
  | cons e es ih => exact ih (State.mapPage_wf hm)

theorem State.tlbiRange_wf {ctx lo hi} (hm : s.mem.wf = true) : (s.tlbiRange ctx lo hi).mem.wf = true := hm

theorem execMap_wf {n} (hm : s.mem.wf = true) : WfOut (execMap n s) := by
  refine State.cmdRun_wf (fun c => ?_) hm
  split
  · exact State.finishCmd_wf hm
  · extract_lets count
    refine State.cmdRead_wf (fun b t ht => ?_) hm
    exact State.finishCmd_wf (State.tlbiRange_wf (State.mapPages_wf _ ht))

theorem execUnmap_wf {n} (hm : s.mem.wf = true) : WfOut (execUnmap n s) := by
  refine State.cmdRun_wf (fun c => ?_) hm
  split
  · exact State.finishCmd_wf hm
  · extract_lets ctx lo m
    have hc : m.wf = true := wf_clearLeaves _ _ _ _ _ hm
    clear_value m
    exact State.finishCmd_wf (State.tlbiRange_wf (s := { s with mem := m }) hc)

theorem execLeaseGrant_wf {n} (hm : s.mem.wf = true) : WfOut (execLeaseGrant n s) := by
  refine State.cmdRun_wf (fun c => State.cmdRead_wf (fun b t ht => ?_) hm) hm
  split
  · exact State.finishCmd_wf ht
  · exact State.finishCmd_wf (State.grantLease_wf ht)

theorem execLeaseRenew_wf {n} (hm : s.mem.wf = true) : WfOut (execLeaseRenew n s) := by
  refine State.cmdRun_wf (fun c => State.cmdRead_wf (fun b t ht => ?_) hm) hm
  split
  · exact State.finishCmd_wf ht
  · exact State.finishCmd_wf (State.renewLease_wf ht)

theorem execLeaseRelease_wf {n} (hm : s.mem.wf = true) : WfOut (execLeaseRelease n s) := by
  refine State.cmdRun_wf (fun c => State.cmdRead_wf (fun b t ht => ?_) hm) hm
  split
  · exact State.finishCmd_wf ht
  · exact State.finishCmd_wf (State.releaseLease_wf ht)

theorem execKeyLoad_wf {n} (hm : s.mem.wf = true) : WfOut (execKeyLoad n s) := by
  refine State.cmdRun_wf (fun c => ?_) hm
  extract_lets id
  split
  · exact State.finishCmd_wf hm
  · exact State.cmdRead_wf (fun _ _ ht => State.cmdWrite_wf (fun _ hu => State.finishCmd_wf (wf_loadKey _ _ hu)) ht) hm

theorem execKeyUnload_wf {n} (hm : s.mem.wf = true) : WfOut (execKeyUnload n s) := by
  refine State.cmdRun_wf (fun c => ?_) hm
  extract_lets id
  split
  · exact State.finishCmd_wf hm
  · exact State.finishCmd_wf (s := { s with mem := _ }) (wf_unloadKey _ hm)

theorem State.drawMembers_wf (n : Nat) (hm : s.mem.wf = true) : (s.drawMembers n).2.mem.wf = true := by
  induction n generalizing s with
  | zero => exact hm
  | succ n ih => exact ih (State.draw_wf hm)

theorem State.writeGroup_wf {ftag i} (hm : s.mem.wf = true) : (s.writeGroup ftag i).mem.wf = true := by
  unfold State.writeGroup
  split
  · exact hm
  · exact State.drawMembers_wf _ (State.draw_wf hm)

theorem State.ownGroups_wf {old new} (hm : s.mem.wf = true) : (s.ownGroups old new).mem.wf = true :=
    wf_foldlState _ _ hm (fun _ _ hs => State.writeGroup_wf hs)

theorem execContextCreate_wf {n} (hm : s.mem.wf = true) : WfOut (execContextCreate n s) := by
  refine State.cmdRun_wf (fun c => ?_) hm
  split
  · exact State.finishCmd_wf hm
  · exact State.cmdRead_wf (fun _ t ht => State.finishCmd_wf (State.ownGroups_wf (s := t.setContext _ _) ht)) hm

theorem execContextDestroy_wf {n} (hm : s.mem.wf = true) : WfOut (execContextDestroy n s) := by
  refine State.cmdRun_wf (fun c => ?_) hm
  split
  · exact State.finishCmd_wf hm
  · extract_lets id t u others v w
    have ht : t.mem.wf = true := State.ownGroups_wf (State.killContext_wf hm)
    have hv : v.mem.wf = true := wf_foldlState _ _ (State.modContext_wf ht) fun _ _ hs => State.finishCmd_wf hs
    exact State.finishCmd_wf (s := w) hv

theorem execContextUpdate_wf {n} (hm : s.mem.wf = true) : WfOut (execContextUpdate n s) := by
  refine State.cmdRun_wf (fun c => ?_) hm
  split
  · exact State.finishCmd_wf hm
  · refine State.cmdRead_wf (fun b t ht => ?_) hm
    extract_lets id old new moves placed fresh halted u v w x
    have hh : halted.mem.wf = true := wf_foldlState _ _ ht fun _ _ hs => State.haltTeam_wf hs
    have hu : u.mem.wf = true := State.ownGroups_wf (State.setContext_wf ht)
    have hv : v.mem.wf = true := by
      refine wf_foldlState _ _ hu fun s t hs => ?_
      split
      · exact State.modTeam_wf hs
      · exact hs
    have hw : w.mem.wf = true := wf_foldlState _ _ hv fun s t hs => State.pumpTeam_wf (s := s.mapPkts t _) hs
    split
    · exact State.modCmd_wf hh
    · split
      · exact ht
      · exact State.finishCmd_wf (State.wakeJobs_wf hw)

theorem execContextBindQueue_wf {n} (hm : s.mem.wf = true) : WfOut (execContextBindQueue n s) := by
  refine State.cmdRun_wf (fun c => ?_) hm
  split
  · exact State.finishCmd_wf hm
  · refine State.cmdRead_wf (fun b t ht => ?_) hm
    split
    · exact State.finishCmd_wf ht
    · split
      · exact State.finishCmd_wf ht
      · exact State.finishCmd_wf (State.setQueue_wf ht)

theorem execContextUnbindQueue_wf {n} (hm : s.mem.wf = true) : WfOut (execContextUnbindQueue n s) := by
  refine State.cmdRun_wf (fun c => ?_) hm
  extract_lets q
  split
  · exact State.finishCmd_wf hm
  · exact State.finishCmd_wf (s := { s with queues := _ }) hm

theorem execContextQueryContext_wf {n} (hm : s.mem.wf = true) : WfOut (execContextQueryContext n s) := by
  refine State.cmdRun_wf (fun c => ?_) hm
  split
  · exact State.finishCmd_wf hm
  · exact State.cmdWrite_wf (fun _ ht => State.finishCmd_wf ht) hm

theorem execContextQueryQueue_wf {n} (hm : s.mem.wf = true) : WfOut (execContextQueryQueue n s) := by
  refine State.cmdRun_wf (fun c => ?_) hm
  split
  · exact State.finishCmd_wf hm
  · exact State.cmdWrite_wf (fun _ ht => State.finishCmd_wf ht) hm

theorem State.dlaunch_wf {i d q img} (hm : s.mem.wf = true) : (s.dlaunch i d q img).mem.wf = true := by
  have hr := State.engRead_wf (x := s.sacc) (w := .scalar s.curGid) (va := img) (n := 64) hm
  unfold State.dlaunch
  extract_lets put x
  have hp : ∀ t n, t.mem.wf = true → (put t n).mem.wf = true := fun _ _ ht => ht
  clear_value put
  split
  · exact hp _ _ hm
  · split
    all_goals replace hr := wf_of_pair ‹_› hr
    · exact hr
    · exact hp _ _ hr
    · split
      · exact hp _ _ hr
      · split
        · exact hp _ _ hr
        · next b t _ _ _ =>
          have hw := State.engWrite_wf (x := x.acc) (w := .store x.ctx) (va := x.slotVa x.wptr) (b := b) hr
          split
          all_goals replace hw := wf_of_pair ‹_› hw
          · exact hw
          · exact hp _ _ hw
          · exact hp _ _ (State.noteReady_wf (State.setQueue_wf hw))

theorem execDlaunch_wf {a d} (hm : s.mem.wf = true) : WfOut (execDlaunch a d s) := by
  unfold execDlaunch
  split
  · exact hm
  · refine wfOut_next ?_
    split
    · exact State.releaseAt_wf hm
    · exact State.dlaunch_wf (State.releaseAt_wf hm)

/-! ## The host -/

theorem State.wakeWaiter_wf {w va} (hm : s.mem.wf = true) : (s.wakeWaiter w va).mem.wf = true := by
  unfold State.wakeWaiter
  split
  · exact hm
  · exact State.resumeXfer_wf hm
  · exact State.prefetch_wf hm
  · exact hm

theorem State.hostValue_wf {n r val} (hm : s.mem.wf = true) : (s.hostValue n r val).mem.wf = true := by
  unfold State.hostValue
  split
  · exact State.acquired_wf hm
  · split <;> exact hm
  · exact State.wakeWaiter_wf hm

theorem State.hostKeepLine_wf {r near data} (hm : s.mem.wf = true) : (s.hostKeepLine r near data).mem.wf = true := by
  unfold State.hostKeepLine
  extract_lets k t m u
  split
  · exact hm
  · have ht : t.mem.wf = true := wf_install _ _ hm
    have hu : u.mem.wf = true := by
      unfold u
      split <;> exact ht
    split
    · exact State.keepLine_wf hu
    · exact hu

theorem State.hostLine_wf {n r data} (hm : s.mem.wf = true) : (s.hostLine n r data).mem.wf = true := by
  unfold State.hostLine
  split
  · split
    · dsimp only
      split
      · exact State.hostValue_wf (State.hostKeepLine_wf hm)
      · exact State.resumeXfer_wf (State.hostKeepLine_wf hm)
    · dsimp only
      split
      · exact State.hostValue_wf (State.hostKeepLine_wf hm)
      · exact State.hostKeepLine_wf hm
  · split
    · dsimp only
      split
      · exact State.hostValue_wf (State.hostKeepLine_wf hm)
      · exact State.resumeXfer_wf (State.hostKeepLine_wf hm)
    · dsimp only
      split
      · exact State.hostValue_wf (State.hostKeepLine_wf hm)
      · exact State.hostKeepLine_wf hm
  · split
    · dsimp only
      split
      · exact State.hostValue_wf (State.hostKeepLine_wf hm)
      · exact State.resumeXfer_wf (State.hostKeepLine_wf hm)
    · dsimp only
      split
      · exact State.hostValue_wf (State.hostKeepLine_wf hm)
      · exact State.hostKeepLine_wf hm
  · split
    · dsimp only
      split
      · exact State.hostValue_wf (State.hostKeepLine_wf hm)
      · exact State.resumeXfer_wf (State.hostKeepLine_wf hm)
    · dsimp only
      split
      · exact State.hostValue_wf (State.hostKeepLine_wf hm)
      · exact State.hostKeepLine_wf hm

theorem State.wakeJoined_wf {r} (hm : s.mem.wf = true) : (s.wakeJoined r).mem.wf = true :=
    wf_foldlState _ _ hm (fun _ _ hs => State.wakeWaiter_wf hs)

theorem State.hostXlat_wf {n r page bytes g} (hm : s.mem.wf = true) : (s.hostXlat n r page bytes g).mem.wf = true := by
  unfold State.hostXlat
  refine State.wakeJoined_wf ?_
  split <;> exact hm

theorem State.hostRefuse_wf {n r cause all} (hm : s.mem.wf = true) : (s.hostRefuse n r cause all).mem.wf = true := State.wakeJoined_wf hm

theorem State.hostDenied_wf {n r refused} (hm : s.mem.wf = true) : (s.hostDenied n r refused).mem.wf = true := by
  unfold State.hostDenied
  split
  · exact hm
  · exact State.hostRefuse_wf hm

theorem State.hostAck_wf {n r} (hm : s.mem.wf = true) : (s.hostAck n r).mem.wf = true := by
  unfold State.hostAck
  split
  · exact State.unitDone_wf hm
  · exact State.wakeWaiter_wf hm

theorem execHostResponse_wf {tag a} (hm : s.mem.wf = true) : WfOut (execHostResponse tag a s) := by
  unfold execHostResponse
  split
  · exact hm
  · next r _ =>
    split
    · exact hm
    · generalize r.kind = k
      cases k <;> cases a
      case read.line => exact State.hostLine_wf hm
      case write.ack => exact State.hostAck_wf hm
      case atom.value => exact State.hostValue_wf hm
      case ats.grant =>
        refine wfOut_next ?_
        split
        · exact State.hostDenied_wf hm
        · exact State.hostXlat_wf hm
      case ats.noTranslation => exact State.hostDenied_wf hm
      case ats.refused => exact State.hostDenied_wf hm
      all_goals exact hm

theorem execPriResponse_wf {tag x} (hm : s.mem.wf = true) : WfOut (execPriResponse tag x s) := by
  unfold execPriResponse
  split
  · exact hm
  · split
    · exact hm
    · refine wfOut_next ?_
      split
      · exact hm
      · exact State.hostRefuse_wf hm

theorem execHeartbeatTimeout_wf (hm : s.mem.wf = true) : WfOut (execHeartbeatTimeout s) := by
  unfold execHeartbeatTimeout
  dsimp only
  split <;> exact hm

theorem execReplayComplete_wf (hm : s.mem.wf = true) : WfOut (execReplayComplete s) := by
  unfold execReplayComplete
  dsimp only
  split
  · exact hm
  · split <;> exact hm

theorem State.hostExpired_wf {n r} (hm : s.mem.wf = true) : (s.hostExpired n r).mem.wf = true := by
  unfold State.hostExpired
  split
  · exact State.hostRefuse_wf hm
  · split
    · exact State.acquired_wf hm
    · split
      · exact State.scalarTrapIn_wf hm
      · exact hm
    · exact hm
    · exact State.wakeWaiter_wf hm

theorem State.atDeadline_wf (hm : s.mem.wf = true) : (s.atDeadline).mem.wf = true := by
  unfold State.atDeadline
  split
  · exact hm
  · exact wf_foldlState _ _ hm (fun _ _ hs => State.hostExpired_wf hs)

theorem execHostDeadline_wf (hm : s.mem.wf = true) : WfOut (execHostDeadline s) := State.atDeadline_wf hm

theorem execHeartbeat_wf (hm : s.mem.wf = true) : WfOut (execHeartbeat s) := by
  unfold execHeartbeat
  split
  · exact hm
  · exact State.atDeadline_wf hm

theorem execRegisterWrite_wf {off} {z1 : W64} (hm : s.mem.wf = true) : WfOut (execRegisterWrite off z1 s) := by
  unfold execRegisterWrite
  split
  · exact execHeartbeat_wf hm
  · exact hm

/-! ## Power-on, configuration, attestation -/

theorem execPowerOnReset_wf (hm : s.mem.wf = true) : WfOut (execPowerOnReset s) := by
  obtain ⟨hp, -⟩ := wf_mem.1 hm
  exact wf_mem.2 ⟨hp, rfl⟩

theorem State.sysRoot_wf (hm : s.mem.wf = true) : (s.sysRoot).mem.wf = true := by
  unfold State.sysRoot
  split
  · exact hm
  · exact wf_foldl _ _ (wf_setHbmLine _ _ _ (wf_setHbmLine _ _ _ (wf_zeroPage _ (wf_zeroPage _ (wf_zeroPage _ hm))))) (fun _ _ hs =>
      wf_setHbmLine _ _ _ hs)

theorem State.setTokens_wf (hm : s.mem.wf = true) : (s.setTokens).mem.wf = true := wf_foldlState _ _ hm (fun _ _ hs => hs)

theorem State.powerTick_wf {before} (hm : s.mem.wf = true) : (s.powerTick before).mem.wf = true := by
  unfold State.powerTick
  split
  · exact hm
  · exact State.setTokens_wf hm

theorem execReadyBitSet_wf {b} (hm : s.mem.wf = true) : WfOut (execReadyBitSet b s) := by
  unfold execReadyBitSet
  split
  · exact hm
  · refine wfOut_next ?_
    split
    · exact hm
    · split
      · exact State.sysRoot_wf hm
      · exact hm

theorem execHbmStackFailure_wf {b} (hm : s.mem.wf = true) : WfOut (execHbmStackFailure b s) := by
  unfold execHbmStackFailure
  refine wfOut_next ?_
  split <;> exact hm

theorem State.carvePark_wf (n : Nat) (hm : s.mem.wf = true) : (s.carvePark n).mem.wf = true := by
  rw [State.carvePark_eq]
  exact hm

theorem execConfigRecord_wf {r} (hm : s.mem.wf = true) : WfOut (execConfigRecord r s) := by
  unfold execConfigRecord
  split
  · exact hm
  · extract_lets boot fab t u v
    refine wf_foldlState _ _ (wf_foldlState _ _ (wf_foldlState _ _ (State.carvePark_wf _ ?_) ?_) ?_) ?_
    · exact hm
    all_goals exact fun _ _ hs => hs

theorem State.spdmSend_wf {code ws} (hm : s.mem.wf = true) : (s.spdmSend code ws).mem.wf = true := hm

theorem State.spdm_wf {ok} {f : State → State} (hf : (f s).mem.wf = true) (hm : s.mem.wf = true) : WfOut (s.spdm ok f) := by
  unfold State.spdm
  split
  · exact hm
  · split
    · exact hf
    · exact State.spdmSend_wf hm

theorem execGetVersion_wf (hm : s.mem.wf = true) : WfOut (execGetVersion s) :=
  State.spdm_wf (State.spdmSend_wf (s := s.modSpdm _) hm) hm

theorem execGetCapabilities_wf (hm : s.mem.wf = true) : WfOut (execGetCapabilities s) :=
  State.spdm_wf (State.spdmSend_wf (s := s.modSpdm _) hm) hm

theorem execNegotiateAlgorithms_wf {a b c} (hm : s.mem.wf = true) : WfOut (execNegotiateAlgorithms a b c s) := by
  unfold execNegotiateAlgorithms
  split <;> exact State.spdm_wf (State.spdmSend_wf (s := s.modSpdm _) hm) hm

theorem execGetDigests_wf (hm : s.mem.wf = true) : WfOut (execGetDigests s) := State.spdm_wf (State.spdmSend_wf hm) hm

theorem execGetCertificate_wf (hm : s.mem.wf = true) : WfOut (execGetCertificate s) := State.spdm_wf (State.spdmSend_wf hm) hm

theorem execChallenge_wf {nonce} (hm : s.mem.wf = true) : WfOut (execChallenge nonce s) := State.spdm_wf (State.spdmSend_wf hm) hm

theorem execGetMeasurements_wf {i nonce} (hm : s.mem.wf = true) : WfOut (execGetMeasurements i nonce s) :=
  State.spdm_wf (State.spdmSend_wf hm) hm

theorem State.chRespond_wf {cmd status ws} (hm : s.mem.wf = true) : (s.chRespond cmd status ws).mem.wf = true := hm

theorem State.chamois_wf {want r} {k : State → State} (hk : ∀ t, t.mem.wf = true → (k t).mem.wf = true) (hm : s.mem.wf = true) :
    WfOut (s.chamois want r k) := by
  unfold State.chamois
  split
  · exact hm
  · split
    · exact hm
    · extract_lets q boot t
      have ht : t.mem.wf = true := by
        unfold t
        split <;> exact hm
      split
      · exact State.chRespond_wf ht
      · exact hk _ ht

theorem execStatus_wf {r} (hm : s.mem.wf = true) : WfOut (execStatus r s) :=
  State.chamois_wf (fun _ ht => State.chRespond_wf (State.draw_wf ht)) hm

theorem execTake_wf {r} (hm : s.mem.wf = true) : WfOut (execTake r s) :=
  State.chamois_wf (fun t ht => State.chRespond_wf (s := { t with boot := _ }) ht) hm

theorem execHandback_wf {r} (hm : s.mem.wf = true) : WfOut (execHandback r s) :=
  State.chamois_wf (fun t ht => State.chRespond_wf (s := { t with boot := _ }) ht) hm

theorem execKill_wf {r} (hm : s.mem.wf = true) : WfOut (execKill r s) :=
  State.chamois_wf (fun _ ht => State.chRespond_wf (State.killContext_wf ht)) hm

theorem execDiscard_wf {r} (hm : s.mem.wf = true) : WfOut (execDiscard r s) :=
  State.chamois_wf (fun t ht => State.chRespond_wf (s := { t with host := _ }) ht) hm

theorem execPrivcmd_wf {r} (hm : s.mem.wf = true) : WfOut (execPrivcmd r s) := State.chamois_wf (fun _ ht => State.enterCmd_wf ht) hm

theorem execPower_wf {r} (hm : s.mem.wf = true) : WfOut (execPower r s) :=
  State.chamois_wf (fun t ht => State.chRespond_wf (State.setTokens_wf (s := { t with boot := _ }) ht)) hm

/-! ## Exchanges between threads -/

theorem State.exchange_wf {i l wide quad} {r : State → W32 → Nat → W32 → Nat} (hm : s.mem.wf = true) :
    WfOut (s.exchange i l wide quad r) := by
  have hb := State.laneBegin_wf (i := i) (l := l) hm
  unfold State.exchange
  split
  all_goals
    rename_i t e
    rw [e] at hb
  · exact hb
  · extract_lets part f
    have hf : ∀ k t, t.mem.wf = true → WfThread (f k t) := by
      intro k t ht
      unfold f
      extract_lets mem u
      have hu : u.mem.wf = true := by
        unfold u
        split <;> exact ht
      split
      · exact ht
      · exact hu
    clear_value f
    have hp : WfFlow (if l.u then laneUniform l wide f t.active t else laneThreads l wide f t.toPass t) := by
      split
      · exact laneUniform_wf hf hb
      · exact laneThreads_wf hf _ hb
    split
    all_goals
      rename_i e
      rw [e] at hp
    · exact hp
    · exact State.laneEnd_wf hp

theorem execXscan_wf {l o t excl} (hm : s.mem.wf = true) : WfOut (execXscan l o t excl s) := State.exchange_wf hm

theorem execXred_wf {l o t} (hm : s.mem.wf = true) : WfOut (execXred l o t s) := State.exchange_wf hm

theorem execQred_wf {l o t} (hm : s.mem.wf = true) : WfOut (execQred l o t s) := State.exchange_wf hm

theorem execXshf_wf {l m' ty} (hm : s.mem.wf = true) : WfOut (execXshf l m' ty s) := State.exchange_wf hm

theorem execXbal_wf {l p neg} (hm : s.mem.wf = true) : WfOut (execXbal l p neg s) := State.exchange_wf hm

theorem execXmatch_wf {l ty} (hm : s.mem.wf = true) : WfOut (execXmatch l ty s) := State.exchange_wf hm

theorem execXfirst_wf {l ty} (hm : s.mem.wf = true) : WfOut (execXfirst l ty s) := State.exchange_wf hm

theorem execXbcst_wf {l ty} (hm : s.mem.wf = true) : WfOut (execXbcst l ty s) := State.exchange_wf hm

theorem execQswp_wf {l q ty} (hm : s.mem.wf = true) : WfOut (execQswp l q ty s) := State.exchange_wf hm

theorem execQbcst_wf {l ty} (hm : s.mem.wf = true) : WfOut (execQbcst l ty s) := State.exchange_wf hm

theorem execMbxw_wf {l n ty} (hm : s.mem.wf = true) : WfOut (execMbxw l n ty s) := by
  unfold execMbxw
  refine State.lane_wf ?_ hm
  intro _ _ hs
  split <;> exact hs

/-! ## Lane floating point -/

theorem State.flane_wf {i l wide} {f : Nat → State → (Nat × FFlags) × State} (hf : ∀ k t, t.mem.wf = true → (f k t).2.mem.wf = true)
    (hm : s.mem.wf = true) : WfOut (s.flane i l wide f) :=
  State.lane_wf (fun k t ht => State.withFlags_wf (hf k t ht)) hm

theorem State.fop_wf {i l f r na nb nc g} (hm : s.mem.wf = true) : WfOut (s.fop i l f r na nb nc g) :=
    State.flane_wf (fun _ _ hs => State.drawFor_wf hs) hm

theorem State.fop2_wf {i l f r na nb nc g} (hm : s.mem.wf = true) : WfOut (s.fop2 i l f r na nb nc g) :=
    State.flane_wf (fun _ _ hs => State.drawFor_wf (State.drawFor_wf hs)) hm

theorem State.fminmax_wf {i l f big na nb} (hm : s.mem.wf = true) : WfOut (s.fminmax i l f big na nb) :=
    State.flane_wf (fun _ _ hs => hs) hm

theorem State.fminmax2_wf {i l f big na nb} (hm : s.mem.wf = true) : WfOut (s.fminmax2 i l f big na nb) :=
    State.flane_wf (fun _ _ hs => hs) hm

theorem State.fappr_wf {i l a} (hm : s.mem.wf = true) : WfOut (s.fappr i l a) := State.flane_wf (fun _ _ hs => hs) hm

theorem execFadd_wf {l ty r na nb} (hm : s.mem.wf = true) : WfOut (execFadd l ty r na nb s) := State.fop_wf hm

theorem execFsub_wf {l ty r na nb} (hm : s.mem.wf = true) : WfOut (execFsub l ty r na nb s) := State.fop_wf hm

theorem execFmul_wf {l ty r na nb} (hm : s.mem.wf = true) : WfOut (execFmul l ty r na nb s) := State.fop_wf hm

theorem execFfma_wf {l ty r na nb nc} (hm : s.mem.wf = true) : WfOut (execFfma l ty r na nb nc s) := State.fop_wf hm

theorem execFmin_wf {l ty na nb} (hm : s.mem.wf = true) : WfOut (execFmin l ty na nb s) := State.fminmax_wf hm

theorem execFmax_wf {l ty na nb} (hm : s.mem.wf = true) : WfOut (execFmax l ty na nb s) := State.fminmax_wf hm

theorem execFset_wf {l ty c} (hm : s.mem.wf = true) : WfOut (execFset l ty c s) := State.flane_wf (fun _ _ hs => hs) hm

theorem execFdiv_wf {l ty r} (hm : s.mem.wf = true) : WfOut (execFdiv l ty r s) := State.fop_wf hm

theorem execFsqrt_wf {l ty r} (hm : s.mem.wf = true) : WfOut (execFsqrt l ty r s) := State.fop_wf hm

theorem execFrcp_wf {l ty r} (hm : s.mem.wf = true) : WfOut (execFrcp l ty r s) := State.fop_wf hm

theorem execFrsq_wf {l} (hm : s.mem.wf = true) : WfOut (execFrsq l s) := State.fappr_wf hm

theorem execFexp2_wf {l} (hm : s.mem.wf = true) : WfOut (execFexp2 l s) := State.fappr_wf hm

theorem execFlog2_wf {l} (hm : s.mem.wf = true) : WfOut (execFlog2 l s) := State.fappr_wf hm

theorem execFsin_wf {l} (hm : s.mem.wf = true) : WfOut (execFsin l s) := State.fappr_wf hm

theorem execFcos_wf {l} (hm : s.mem.wf = true) : WfOut (execFcos l s) := State.fappr_wf hm

theorem execFrnd_wf {l ty r} (hm : s.mem.wf = true) : WfOut (execFrnd l ty r s) := State.flane_wf (fun _ _ hs => State.drawFor_wf hs) hm

theorem execFcvti_wf {l dt st r} (hm : s.mem.wf = true) : WfOut (execFcvti l dt st r s) :=
    State.flane_wf (fun _ _ hs => State.drawFor_wf hs) hm

theorem execIcvtf_wf {l dt st r} (hm : s.mem.wf = true) : WfOut (execIcvtf l dt st r s) :=
    State.flane_wf (fun _ _ hs => State.drawFor_wf hs) hm

theorem execFclass_wf {l ty} (hm : s.mem.wf = true) : WfOut (execFclass l ty s) := by
  unfold execFclass
  refine State.lane_wf ?_ hm
  intro _ _ hs
  split <;> exact hs

theorem execFscale_wf {l ty r} (hm : s.mem.wf = true) : WfOut (execFscale l ty r s) := State.flane_wf (fun _ _ hs => State.drawFor_wf hs) hm

theorem execFdot2_wf {l ty r} (hm : s.mem.wf = true) : WfOut (execFdot2 l ty r s) := State.flane_wf (fun _ _ hs => State.drawFor_wf hs) hm

theorem execHadd2_wf {l ty r na nb} (hm : s.mem.wf = true) : WfOut (execHadd2 l ty r na nb s) := State.fop2_wf hm

theorem execHmul2_wf {l ty r na nb} (hm : s.mem.wf = true) : WfOut (execHmul2 l ty r na nb s) := State.fop2_wf hm

theorem execHfma2_wf {l ty r na nb nc} (hm : s.mem.wf = true) : WfOut (execHfma2 l ty r na nb nc s) := State.fop2_wf hm

theorem execHmin2_wf {l ty na nb} (hm : s.mem.wf = true) : WfOut (execHmin2 l ty na nb s) := State.fminmax2_wf hm

theorem execHmax2_wf {l ty na nb} (hm : s.mem.wf = true) : WfOut (execHmax2 l ty na nb s) := State.fminmax2_wf hm

theorem execFpack_wf {l f} (hm : s.mem.wf = true) : WfOut (execFpack l f s) := by
  unfold execFpack
  split
  · exact State.flane_wf (fun _ _ hs => State.drawFor_wf (State.drawFor_wf hs)) hm
  · exact State.lane_wf (fun _ _ hs => hs) hm
  · exact State.lane_wf (fun _ _ hs => hs) hm
  · exact State.lane_wf (fun _ _ hs => hs) hm

theorem execFunpk_wf {l f} (hm : s.mem.wf = true) : WfOut (execFunpk l f s) := by
  unfold execFunpk
  split
  · exact State.flane_wf (fun _ _ hs => hs) hm
  · exact State.lane_wf (fun _ _ hs => hs) hm
  · exact State.lane_wf (fun _ _ hs => hs) hm

theorem execNcvt_wf {l fmt r inf} (hm : s.mem.wf = true) : WfOut (execNcvt l fmt r inf s) :=
    State.flane_wf (fun _ _ hs => State.drawFor_wf (State.drawFor_wf hs)) hm

theorem execNcvtFrom_wf {l fmt} (hm : s.mem.wf = true) : WfOut (execNcvtFrom l fmt s) := State.lane_wf (fun _ _ hs => hs) hm

theorem execNexp_wf {l ty} (hm : s.mem.wf = true) : WfOut (execNexp l ty s) := State.lane_wf (fun _ _ hs => hs) hm

theorem execI4xpk_wf {l r half} (hm : s.mem.wf = true) : WfOut (execI4xpk l r half s) :=
    State.flane_wf (fun _ _ hs => State.drawFor_wf hs) hm

theorem execI4xunp_wf {l} (hm : s.mem.wf = true) : WfOut (execI4xunp l s) := State.flane_wf (fun _ _ hs => hs) hm

theorem execMxscl_wf {l fmt} (hm : s.mem.wf = true) : WfOut (execMxscl l fmt s) := State.lane_wf (fun _ _ hs => hs) hm

theorem execRng_wf {l ty} (hm : s.mem.wf = true) : WfOut (execRng l ty s) := State.lane_wf (fun _ _ hs => hs) hm

/-! ## Lane integers -/

theorem State.lane1_wf {i l dw aw f} (hm : s.mem.wf = true) : WfOut (s.lane1 i l dw aw f) := State.lane_wf (fun _ _ hs => hs) hm

theorem State.lane2_wf {i l dw aw bw f} (hm : s.mem.wf = true) : WfOut (s.lane2 i l dw aw bw f) := State.lane_wf (fun _ _ hs => hs) hm

theorem State.lane3_wf {i l dw aw bw cw f} (hm : s.mem.wf = true) : WfOut (s.lane3 i l dw aw bw cw f) := State.lane_wf (fun _ _ hs => hs) hm

theorem State.arith_wf {i l ty f} (hm : s.mem.wf = true) : WfOut (s.arith i l ty f) := State.lane2_wf hm

theorem State.bits2_wf {i l ty f} (hm : s.mem.wf = true) : WfOut (s.bits2 i l ty f) := State.lane2_wf hm

theorem State.shift_wf {i l wide f} (hm : s.mem.wf = true) : WfOut (s.shift i l wide f) := State.lane2_wf hm

theorem execNop_wf {l} (hm : s.mem.wf = true) : WfOut (execNop l s) := State.lane_wf (fun _ _ hs => hs) hm

theorem execIadd_wf {l ty sat} (hm : s.mem.wf = true) : WfOut (execIadd l ty sat s) := State.arith_wf hm

theorem execIsub_wf {l ty sat} (hm : s.mem.wf = true) : WfOut (execIsub l ty sat s) := State.arith_wf hm

theorem execImul_wf {l ty} (hm : s.mem.wf = true) : WfOut (execImul l ty s) := State.arith_wf hm

theorem execImulh_wf {l ty} (hm : s.mem.wf = true) : WfOut (execImulh l ty s) := State.arith_wf hm

theorem execImad_wf {l ty} (hm : s.mem.wf = true) : WfOut (execImad l ty s) := State.lane3_wf hm

theorem execImadw_wf {l ty} (hm : s.mem.wf = true) : WfOut (execImadw l ty s) := State.lane3_wf hm

theorem State.idivide_wf {i l ty f zero} (hm : s.mem.wf = true) : WfOut (s.idivide i l ty f zero) := by
  unfold State.idivide
  refine State.lane_wf ?_ hm
  intro _ _ hs
  split
  · dsimp only
    split <;> exact hs
  · dsimp only
    split <;> exact hs

theorem execIdiv_wf {l ty} (hm : s.mem.wf = true) : WfOut (execIdiv l ty s) := State.idivide_wf hm

theorem execIrem_wf {l ty} (hm : s.mem.wf = true) : WfOut (execIrem l ty s) := State.idivide_wf hm

theorem execIabs_wf {l ty} (hm : s.mem.wf = true) : WfOut (execIabs l ty s) := State.lane1_wf hm

theorem execImin_wf {l ty} (hm : s.mem.wf = true) : WfOut (execImin l ty s) := State.arith_wf hm

theorem execImax_wf {l ty} (hm : s.mem.wf = true) : WfOut (execImax l ty s) := State.arith_wf hm

theorem execAnd_wf {l ty} (hm : s.mem.wf = true) : WfOut (execAnd l ty s) := State.bits2_wf hm

theorem execOr_wf {l ty} (hm : s.mem.wf = true) : WfOut (execOr l ty s) := State.bits2_wf hm

theorem execXor_wf {l ty} (hm : s.mem.wf = true) : WfOut (execXor l ty s) := State.bits2_wf hm

theorem execAndn_wf {l ty} (hm : s.mem.wf = true) : WfOut (execAndn l ty s) := State.bits2_wf hm

theorem execShl_wf {l ty} (hm : s.mem.wf = true) : WfOut (execShl l ty s) := State.shift_wf hm

theorem execShr_wf {l ty} (hm : s.mem.wf = true) : WfOut (execShr l ty s) := State.shift_wf hm

theorem execSar_wf {l ty} (hm : s.mem.wf = true) : WfOut (execSar l ty s) := State.shift_wf hm

theorem execRotl_wf {l ty} (hm : s.mem.wf = true) : WfOut (execRotl l ty s) := State.shift_wf hm

theorem execClz_wf {l ty} (hm : s.mem.wf = true) : WfOut (execClz l ty s) := State.lane1_wf hm

theorem execPopc_wf {l ty} (hm : s.mem.wf = true) : WfOut (execPopc l ty s) := State.lane1_wf hm

theorem execBrev_wf {l ty} (hm : s.mem.wf = true) : WfOut (execBrev l ty s) := State.lane1_wf hm

theorem execBfe_wf {l ty} (hm : s.mem.wf = true) : WfOut (execBfe l ty s) := State.lane2_wf hm

theorem execBfi_wf {l ty} (hm : s.mem.wf = true) : WfOut (execBfi l ty s) := State.lane3_wf hm

theorem execIset_wf {l ty c} (hm : s.mem.wf = true) : WfOut (execIset l ty c s) := State.lane2_wf hm

theorem execSel_wf {l ty p neg} (hm : s.mem.wf = true) : WfOut (execSel l ty p neg s) := State.lane_wf (fun _ _ hs => hs) hm

theorem execMov_wf {l ty} (hm : s.mem.wf = true) : WfOut (execMov l ty s) := State.lane1_wf hm

theorem execMovsp_wf {l x} (hm : s.mem.wf = true) : WfOut (execMovsp l x s) := by
  unfold execMovsp
  refine State.lane_wf ?_ hm
  intro _ _ hs
  split <;> exact hs

theorem execMovspW_wf {l x} (hm : s.mem.wf = true) : WfOut (execMovspW l x s) := State.lane_wf (fun _ _ hs => hs) hm

theorem execCvti_wf {l dt st sat} (hm : s.mem.wf = true) : WfOut (execCvti l dt st sat s) := State.lane1_wf hm

theorem execLea_wf {l ty n} (hm : s.mem.wf = true) : WfOut (execLea l ty n s) := State.lane2_wf hm

theorem execIdot4_wf {l as bs} (hm : s.mem.wf = true) : WfOut (execIdot4 l as bs s) := State.lane3_wf hm

theorem execPlop3_wf {l pa pb pc} (hm : s.mem.wf = true) : WfOut (execPlop3 l pa pb pc s) := State.lane_wf (fun _ _ hs => hs) hm

theorem execPmov_wf {l} (hm : s.mem.wf = true) : WfOut (execPmov l s) := State.lane_wf (fun _ _ hs => hs) hm

theorem execPmovToPreds_wf {l} (hm : s.mem.wf = true) : WfOut (execPmovToPreds l s) := State.lane_wf (fun _ _ hs => hs) hm

/-! ## Pre-emption and context images -/

theorem State.takeLatch_wf {tid} (hm : s.mem.wf = true) : (s.takeLatch tid).mem.wf = true := by
  unfold State.takeLatch
  dsimp only
  split
  · split <;> exact hm
  · exact hm

theorem execPreempt_wf {h} (hm : s.mem.wf = true) : WfOut (execPreempt h s) := by
  unfold execPreempt
  split
  · exact hm
  · split
    · exact hm
    · next t _ _ =>
      extract_lets u
      have hu : (u.takeLatch t).mem.wf = true := State.takeLatch_wf hm
      exact State.shaltEvent_wf (State.modTeam_wf (s := (u.takeLatch t).mapPkts _ _) hu)

theorem State.spillRegion_wf {gid} (hm : s.mem.wf = true) : (s.spillRegion gid).2.mem.wf = true := by
  unfold State.spillRegion
  dsimp only
  split
  · exact State.engRead_wf hm
  · exact hm

theorem State.pumpGroupImage_wf {g} (hm : s.mem.wf = true) : (s.pumpGroupImage g).mem.wf = true := by
  unfold State.pumpGroupImage
  extract_lets x
  split
  · exact hm
  · split
    · exact hm
    · next a _ _ =>
      have hw := State.writeAllAs_wf (x := a.acc) (w := .engine)
        [(a.va + 64, leBytes 32 x.dirty.toNat), (a.va + BitVec.ofNat 64 14080, x.regBytes)] hm
      split
      all_goals
        replace hw := wf_of_pair ‹_› hw
        exact hw

theorem State.pumpTeamImage_wf {t} (hm : s.mem.wf = true) : (s.pumpTeamImage t).mem.wf = true := by
  unfold State.pumpTeamImage
  extract_lets x late
  split
  · exact hm
  · split
    · exact hm
    · next a _ _ =>
      extract_lets puts
      have hw := State.writeAllAs_wf (x := a.acc) (w := .engine)
        (puts ++ [(a.va + BitVec.ofNat 64 (64 + x.kernel.scrb * 65536), x.fullBytes)]) hm
      split
      all_goals
        replace hw := wf_of_pair ‹_› hw
        exact hw

theorem State.pumpImages_wf (hm : s.mem.wf = true) : (s.pumpImages).mem.wf = true :=
    wf_foldlState _ _ (wf_foldlState _ _ hm (fun _ _ hs => State.pumpGroupImage_wf hs)) (fun _ _ hs => State.pumpTeamImage_wf hs)

theorem State.freeTeam_wf {tid} (hm : s.mem.wf = true) : (s.freeTeam tid).mem.wf = true := State.refitL1_wf hm

theorem State.resumeGang_wf {tid} (hm : s.mem.wf = true) : (s.resumeGang tid).mem.wf = true := by
  unfold State.resumeGang
  dsimp only
  split
  · exact State.wakeJobs_wf (wf_foldlState _ _ hm (fun _ _ hs => State.pumpTeam_wf hs))
  · exact hm

theorem State.saveGroup_wf {h a} (hm : s.mem.wf = true) : WfCtx (s.saveGroup h a) := by
  unfold State.saveGroup
  split
  · exact hm
  · extract_lets t
    split
    · exact hm
    · next g _ _ =>
      have hr := State.spillRegion_wf (gid := g) hm
      split
      all_goals replace hr := wf_of_pair ‹_› hr
      · exact hr
      · exact hr
      · next region u _ =>
        have hw := State.engWrite_wf (x := u.privAcc) (w := u.slotWaiter) (va := a) (b := u.groupImage g region) hr
        split
        all_goals
          replace hw := wf_of_pair ‹_› hw
          exact hw

theorem State.saveTeam_wf {h a} (hm : s.mem.wf = true) : WfCtx (s.saveTeam h a) := by
  unfold State.saveTeam
  split
  · exact hm
  · split
    · exact hm
    · next t _ _ =>
      have hw := State.engWrite_wf (x := s.privAcc) (w := s.slotWaiter) (va := a) (b := s.teamImage t) hm
      split
      all_goals replace hw := wf_of_pair ‹_› hw
      · exact State.freeTeam_wf (State.modTeam_wf hw)
      · exact hw
      · exact hw

theorem State.loadGroup_wf {h a} (hm : s.mem.wf = true) : WfCtx (s.loadGroup h a) := by
  unfold State.loadGroup
  split
  · exact hm
  · split
    · exact hm
    · have hr := State.engRead_wf (x := s.privAcc) (w := s.slotWaiter) (va := a) (n := 96) hm
      split
      all_goals replace hr := wf_of_pair ‹_› hr
      · exact hr
      · exact hr
      · next t _ =>
        extract_lets saved n
        have hr := State.engRead_wf (x := t.privAcc) (w := t.slotWaiter) (va := a) (n := n) hr
        split
        all_goals replace hr := wf_of_pair ‹_› hr
        · exact hr
        · exact hr
        · next u _ => exact State.resumeGang_wf (s := u.modGroup _ _) hr

theorem State.loadTeam_wf {h a} (hm : s.mem.wf = true) : WfCtx (s.loadTeam h a) := by
  unfold State.loadTeam
  split
  · exact hm
  · split
    · exact hm
    · next t _ _ =>
      have hr := State.engRead_wf (x := s.privAcc) (w := s.slotWaiter) (va := a) (n := (s.teamImage t).length) hm
      split
      all_goals replace hr := wf_of_pair ‹_› hr
      · exact hr
      · exact hr
      · exact State.resumeGang_wf (State.modTeam_wf hr)

theorem State.ctxOp_wf {i l} {f : Nat → W64 → State → Ctx} (hf : ∀ h a t, t.mem.wf = true → WfCtx (f h a t)) (hm : s.mem.wf = true) :
    WfOut (s.ctxOp i l f) := by
  refine State.lanePrivileged_wf hm (State.laneOnce_wf (fun t ht => ?_) hm)
  extract_lets k u h a
  have hu : u.mem.wf = true := State.markLatch_wf ht
  clear_value u
  split
  · exact State.copyAll_wf ht
  · have hr : WfCtx (if a.toNat % 64 ≠ 0 then .res 2 u else f h a u) := by
      split
      · exact hu
      · exact hf _ _ _ hu
    split
    all_goals
      rename_i e
      rw [e] at hr
    · exact hr
    · exact State.pushFar_wf (State.copyAll_wf hr)

theorem execCtxsv_wf {l team} (hm : s.mem.wf = true) : WfOut (execCtxsv l team s) := by
  refine State.ctxOp_wf (fun h a t ht => ?_) hm
  split
  · exact State.saveTeam_wf ht
  · exact State.saveGroup_wf ht

theorem execCtxrs_wf {l team} (hm : s.mem.wf = true) : WfOut (execCtxrs l team s) := by
  refine State.ctxOp_wf (fun h a t ht => ?_) hm
  split
  · exact State.loadTeam_wf ht
  · exact State.loadGroup_wf ht

/-! ## Every instruction and event -/

theorem exec_wf (i : Instr) (hm : s.mem.wf = true) : WfOut (exec i s) :=
  match i with
  | .sadd _ _ _ => hm
  | .ssub _ _ _ => hm
  | .smul _ _ _ => hm
  | .smulh _ _ _ => hm
  | .smulhn _ _ _ => hm
  | .sdiv _ _ _ => execSdiv_wf hm
  | .sdivn _ _ _ => execSdivn_wf hm
  | .srem _ _ _ => execSrem_wf hm
  | .sremn _ _ _ => execSremn_wf hm
  | .sand _ _ _ => hm
  | .sor _ _ _ => hm
  | .sxor _ _ _ => hm
  | .sandn _ _ _ => hm
  | .sshl _ _ _ => hm
  | .sshr _ _ _ => hm
  | .ssar _ _ _ => hm
  | .smin _ _ _ => hm
  | .smax _ _ _ => hm
  | .sminn _ _ _ => hm
  | .smaxn _ _ _ => hm
  | .sclz _ _ => hm
  | .sctz _ _ => hm
  | .spopc _ _ => hm
  | .ssel _ _ _ _ => hm
  | .smbr _ _ => hm
  | .scmp _ _ _ _ => hm
  | .saddi _ _ _ => hm
  | .sandi _ _ _ => hm
  | .sori _ _ _ => hm
  | .sxori _ _ _ => hm
  | .sshli _ _ _ => hm
  | .sshri _ _ _ => hm
  | .ssari _ _ _ => hm
  | .scmpi _ _ _ _ => hm
  | .sli _ _ => hm
  | .slis _ _ => hm
  | .sld _ _ _ _ => execSld_wf hm
  | .sldx _ _ _ _ => execSldx_wf hm
  | .sst _ _ _ _ => execSst_wf hm
  | .satom _ _ _ _ => execSatom_wf hm
  | .sbr _ _ _ => execSbr_wf hm
  | .sjmp _ => hm
  | .scall _ => hm
  | .sjr _ => execSjr_wf hm
  | .sjrl _ => execSjrl_wf hm
  | .sret => execSret_wf hm
  | .sloop _ _ => execSloop_wf hm
  | .lrun _ _ => execLrun_wf hm
  | .lrunr _ _ => execLrunr_wf hm
  | .lquiet => execLquiet_wf hm
  | .cpyc _ _ => execCpyc_wf hm
  | .cpyclose _ => hm
  | .fput _ _ _ _ _ => execFput_wf hm
  | .fget _ _ _ _ => execFget_wf hm
  | .fatom _ _ _ _ => execFatom_wf hm
  | .fmcast _ _ _ _ => execFmcast_wf hm
  | .fstat _ _ => execFstat_wf hm
  | .reshard _ _ => execReshard_wf hm
  | .rswait _ _ => execRswait_wf hm
  | .pfh _ _ => execPfh_wf hm
  | .pfdrop _ _ => execPfdrop_wf hm
  | .persist _ _ => execPersist_wf hm
  | .persistAll _ => execPersistAll_wf hm
  | .dlaunch _ _ => execDlaunch_wf hm
  | .bara _ _ => execBara_wf hm
  | .barw _ _ _ => execBarw_wf hm
  | .bar _ _ => execBar_wf hm
  | .acset _ _ => execAcset_wf hm
  | .acwait _ _ => execAcwait_wf hm
  | .rinit _ _ => execRinit_wf hm
  | .rawait _ _ => execRawait_wf hm
  | .rrel _ _ => execRrel_wf hm
  | .fence _ _ => execFence_wf hm
  | .sleeps _ _ _ => execSleeps_wf hm
  | .srd _ _ => execSrd_wf hm
  | .swr _ _ => execSwr_wf hm
  | .tlbiVa _ _ => execTlbiVa_wf hm
  | .tlbiCtx _ _ => execTlbiCtx_wf hm
  | .tlbiPasid _ _ => execTlbiPasid_wf hm
  | .tlbiAll a _ => execTlbiAll_wf (z1 := a) hm
  | .pgctlPin _ _ => execPgctlPin_wf hm
  | .pgctlUnpin _ _ => execPgctlUnpin_wf hm
  | .pgctlEvict _ _ => execPgctlEvict_wf hm
  | .pgctlWb _ _ => execPgctlWb_wf hm
  | .pgctlCarve _ _ => execPgctlCarve_wf hm
  | .pgctlUncarve _ _ => execPgctlUncarve_wf hm
  | .leaseopRead _ _ => execLeaseopRead_wf hm
  | .leaseopGrant _ _ => execLeaseopGrant_wf hm
  | .leaseopRenew _ _ => execLeaseopRenew_wf hm
  | .leaseopRelease _ _ => execLeaseopRelease_wf hm
  | .leaseopRevoke _ _ => execLeaseopRevoke_wf hm
  | .leaseopLost _ _ => execLeaseopLost_wf hm
  | .leaseopHint _ _ => execLeaseopHint_wf hm
  | .stret => execStret_wf hm
  | .stretSkip => execStretSkip_wf hm
  | .stretPark => execStretPark_wf hm
  | .shalt _ _ => execShalt_wf hm
  | .keyopLoad _ _ => execKeyopLoad_wf hm
  | .keyopUnload _ _ => execKeyopUnload_wf hm
  | .strap _ => execStrap_wf hm
  | .nop _ => execNop_wf hm
  | .iadd _ _ _ => execIadd_wf hm
  | .isub _ _ _ => execIsub_wf hm
  | .imul _ _ => execImul_wf hm
  | .imulh _ _ => execImulh_wf hm
  | .imad _ _ => execImad_wf hm
  | .imadw _ _ => execImadw_wf hm
  | .idiv _ _ => execIdiv_wf hm
  | .irem _ _ => execIrem_wf hm
  | .iabs _ _ => execIabs_wf hm
  | .imin _ _ => execImin_wf hm
  | .imax _ _ => execImax_wf hm
  | .and _ _ => execAnd_wf hm
  | .or _ _ => execOr_wf hm
  | .xor _ _ => execXor_wf hm
  | .andn _ _ => execAndn_wf hm
  | .shl _ _ => execShl_wf hm
  | .shr _ _ => execShr_wf hm
  | .sar _ _ => execSar_wf hm
  | .rotl _ _ => execRotl_wf hm
  | .clz _ _ => execClz_wf hm
  | .popc _ _ => execPopc_wf hm
  | .brev _ _ => execBrev_wf hm
  | .bfe _ _ => execBfe_wf hm
  | .bfi _ _ => execBfi_wf hm
  | .iset _ _ _ => execIset_wf hm
  | .sel _ _ _ _ => execSel_wf hm
  | .mov _ _ => execMov_wf hm
  | .movsp _ _ => execMovsp_wf hm
  | .movspW _ _ => execMovspW_wf hm
  | .cvti _ _ _ _ => execCvti_wf hm
  | .lea _ _ _ => execLea_wf hm
  | .idot4 _ _ _ => execIdot4_wf hm
  | .fadd _ _ _ _ _ => execFadd_wf hm
  | .fsub _ _ _ _ _ => execFsub_wf hm
  | .fmul _ _ _ _ _ => execFmul_wf hm
  | .ffma _ _ _ _ _ _ => execFfma_wf hm
  | .fmin _ _ _ _ => execFmin_wf hm
  | .fmax _ _ _ _ => execFmax_wf hm
  | .fset _ _ _ => execFset_wf hm
  | .fdiv _ _ _ => execFdiv_wf hm
  | .fsqrt _ _ _ => execFsqrt_wf hm
  | .frcp _ _ _ => execFrcp_wf hm
  | .frsq _ => execFrsq_wf hm
  | .fexp2 _ => execFexp2_wf hm
  | .flog2 _ => execFlog2_wf hm
  | .fsin _ => execFsin_wf hm
  | .fcos _ => execFcos_wf hm
  | .frnd _ _ _ => execFrnd_wf hm
  | .fcvti _ _ _ _ => execFcvti_wf hm
  | .icvtf _ _ _ _ => execIcvtf_wf hm
  | .fclass _ _ => execFclass_wf hm
  | .fscale _ _ _ => execFscale_wf hm
  | .fdot2 _ _ _ => execFdot2_wf hm
  | .hadd2 _ _ _ _ _ => execHadd2_wf hm
  | .hmul2 _ _ _ _ _ => execHmul2_wf hm
  | .hfma2 _ _ _ _ _ _ => execHfma2_wf hm
  | .hmin2 _ _ _ _ => execHmin2_wf hm
  | .hmax2 _ _ _ _ => execHmax2_wf hm
  | .fpack _ _ => execFpack_wf hm
  | .funpk _ _ => execFunpk_wf hm
  | .ncvt _ _ _ _ => execNcvt_wf hm
  | .ncvtFrom _ _ => execNcvtFrom_wf hm
  | .nexp _ _ => execNexp_wf hm
  | .i4xpk _ _ _ => execI4xpk_wf hm
  | .i4xunp _ => execI4xunp_wf hm
  | .mxscl _ _ => execMxscl_wf hm
  | .rng _ _ => execRng_wf hm
  | .plop3 _ _ _ _ => execPlop3_wf hm
  | .pmov _ => execPmov_wf hm
  | .pmovToPreds _ => execPmovToPreds_wf hm
  | .xscan _ _ _ _ => execXscan_wf hm
  | .xred _ _ _ => execXred_wf hm
  | .xshf _ _ _ => execXshf_wf hm
  | .xbal _ _ _ => execXbal_wf hm
  | .xmatch _ _ => execXmatch_wf hm
  | .xfirst _ _ => execXfirst_wf hm
  | .xbcst _ _ => execXbcst_wf hm
  | .qswp _ _ _ => execQswp_wf hm
  | .qred _ _ _ => execQred_wf hm
  | .qbcst _ _ => execQbcst_wf hm
  | .mbxw _ _ _ => execMbxw_wf hm
  | .ld _ _ _ => execLd_wf hm
  | .st _ _ _ => execSt_wf hm
  | .lds _ _ => execLds_wf hm
  | .sts _ _ => execSts_wf hm
  | .ldfeKeep _ _ => execLdfeKeep_wf hm
  | .ldfeClear _ _ => execLdfeClear_wf hm
  | .stfe _ _ => execStfe_wf hm
  | .ldc _ _ => execLdc_wf hm
  | .cstore _ _ _ => execCstore_wf hm
  | .xload _ _ _ => execXload_wf hm
  | .prefl _ _ => execPrefl_wf hm
  | .zline _ _ => execZline_wf hm
  | .atom _ _ _ _ _ => execAtom_wf hm
  | .acas _ _ _ _ => execAcas_wf hm
  | .atoms _ _ _ _ _ => execAtoms_wf hm
  | .acass _ _ _ _ => execAcass_wf hm
  | .red _ _ _ _ => execRed_wf hm
  | .brl _ => execBrl_wf hm
  | .join _ => execJoin_wf hm
  | .call _ _ => execCall_wf hm
  | .callr _ _ => execCallr_wf hm
  | .ret _ => execRet_wf hm
  | .trap _ => execTrap_wf hm
  | .tret _ => execTret_wf hm
  | .tretSkip _ => execTretSkip_wf hm
  | .tretVal _ => execTretVal_wf hm
  | .tretPark _ => execTretPark_wf hm
  | .bpt _ => execBpt_wf hm
  | .sleep _ _ => execSleep_wf hm
  | .yield _ => execYield_wf hm
  | .mxloop _ _ _ _ => execMxloop_wf hm
  | .mxzero _ => execMxzero_wf hm
  | .mxst _ _ _ => execMxst_wf hm
  | .mxld _ _ => execMxld_wf hm
  | .mxwaitSt _ _ _ => execMxwaitSt_wf hm
  | .mxwaitStall _ _ => execMxwaitStall_wf hm
  | .mxrel _ => execMxrel_wf hm
  | .lsrd _ _ _ => execLsrd_wf hm
  | .lswr _ _ _ => execLswr_wf hm
  | .spillwWin _ => execSpillwWin_wf hm
  | .spillwStk _ => execSpillwStk_wf hm
  | .fillwWin _ => execFillwWin_wf hm
  | .fillwStk _ => execFillwStk_wf hm
  | .ctxsv _ _ => execCtxsv_wf hm
  | .ctxrs _ _ => execCtxrs_wf hm
  | .runStart _ _ _ => execRunStart_wf hm
  | .decisionQueuePop _ => execDecisionQueuePop_wf hm
  | .nextMerge _ => execNextMerge_wf hm
  | .farResultArrival _ _ => execFarResultArrival_wf hm
  | .heldTrapEntry _ => execHeldTrapEntry_wf hm
  | .barrierRelease _ => execBarrierRelease_wf hm
  | .ldfeResume _ _ => hm
  | .lquietComplete _ => execLquietComplete_wf hm
  | .lrunEnqueue _ => execLrunEnqueue_wf hm
  | .fenceComplete _ => execFenceComplete_wf hm
  | .rawaitRelease _ => execRawaitRelease_wf hm
  | .acwaitRelease _ => execAcwaitRelease_wf hm
  | .fstatRelease _ => execFstatRelease_wf hm
  | .rswaitRelease _ => execRswaitRelease_wf hm
  | .tagStallEnd _ => execTagStallEnd_wf hm
  | .elandJobSlotFree _ => execElandJobSlotFree_wf hm
  | .sleepsWake _ => execSleepsWake_wf hm
  | .sleepWake _ _ => execSleepWake_wf hm
  | .shaltWake _ => execShaltWake_wf hm
  | .persistComplete _ => execPersistComplete_wf hm
  | .scalarAccessComplete _ => execScalarAccessComplete_wf hm
  | .mxCommandStart _ => execMxCommandStart_wf hm
  | .mxCommandComplete _ => execMxCommandComplete_wf hm
  | .mxQueueReissue _ _ => execMxQueueReissue_wf hm
  | .alatchAcquire _ _ => execAlatchAcquire_wf hm
  | .tokenArrival _ _ => execTokenArrival_wf hm
  | .tokenHoldTimeout _ _ => execTokenHoldTimeout_wf hm
  | .copyUnitMove _ _ _ => execCopyUnitMove_wf hm
  | .copyComplete _ _ => execCopyComplete_wf hm
  | .bankReservationTimeout _ => execBankReservationTimeout_wf hm
  | .springbokFill _ => execSpringbokFill_wf hm
  | .frameFillComplete _ => execFrameFillComplete_wf hm
  | .relayoutComplete _ => execRelayoutComplete_wf hm
  | .counterHalving => execCounterHalving_wf hm
  | .leaseExpiry _ => execLeaseExpiry_wf hm
  | .leaseDue _ => execLeaseDue_wf hm
  | .graceEnd _ => execGraceEnd_wf hm
  | .revocationNotice _ _ => execRevocationNotice_wf hm
  | .revocationWritebackDone _ => execRevocationWritebackDone_wf hm
  | .poolNodeLost _ => execPoolNodeLost_wf hm
  | .leaseValidClear _ _ => execLeaseValidClear_wf hm
  | .storeAccepted => hm
  | .backInvalidationSnoop _ => execBackInvalidationSnoop_wf hm
  | .atsInvalidation _ _ _ => hm
  | .priResponse _ _ => execPriResponse_wf hm
  | .pagerRecordPost _ _ => execPagerRecordPost_wf hm
  | .pgrespResume _ => execPgrespResume_wf hm
  | .pgrespFail _ => execPgrespFail_wf hm
  | .pgrespFatal _ => execPgrespFatal_wf hm
  | .preempt _ => execPreempt_wf hm
  | .kick _ _ _ => execKick_wf hm
  | .heartbeat => execHeartbeat_wf hm
  | .heartbeatTimeout => execHeartbeatTimeout_wf hm
  | .replayComplete => execReplayComplete_wf hm
  | .hostDeadline => execHostDeadline_wf hm
  | .hostResponse _ _ => execHostResponse_wf hm
  | .registerWrite _ v => execRegisterWrite_wf (z1 := v) hm
  | .commandStart => execCommandStart_wf hm
  | .nopCommand _ => execNopCommand_wf hm
  | .launch _ => execLaunch_wf hm
  | .copy _ => execCopy_wf hm
  | .signal _ => execSignal_wf hm
  | .wait _ => execWait_wf hm
  | .waitRelease _ => execWaitRelease_wf hm
  | .map _ => execMap_wf hm
  | .unmap _ => execUnmap_wf hm
  | .leaseGrant _ => execLeaseGrant_wf hm
  | .leaseRenew _ => execLeaseRenew_wf hm
  | .leaseRelease _ => execLeaseRelease_wf hm
  | .keyLoad _ => execKeyLoad_wf hm
  | .keyUnload _ => execKeyUnload_wf hm
  | .contextCreate _ => execContextCreate_wf hm
  | .contextDestroy _ => execContextDestroy_wf hm
  | .contextUpdate _ => execContextUpdate_wf hm
  | .contextBindQueue _ => execContextBindQueue_wf hm
  | .contextUnbindQueue _ => execContextUnbindQueue_wf hm
  | .contextQueryContext _ => execContextQueryContext_wf hm
  | .contextQueryQueue _ => execContextQueryQueue_wf hm
  | .teamPlacement _ => execTeamPlacement_wf hm
  | .reserveState _ => execReserveState_wf hm
  | .groupExchange _ => execGroupExchange_wf hm
  | .teamEnd _ => execTeamEnd_wf hm
  | .launchComplete _ => execLaunchComplete_wf hm
  | .coreFailure _ _ => execCoreFailure_wf hm
  | .thermalThrottle => hm
  | .thermalShutdown => execThermalShutdown_wf hm
  | .flitReceive _ _ => execFlitReceive_wf hm
  | .flitSend _ _ => execFlitSend_wf hm
  | .retryRequest _ _ => hm
  | .linkDown _ => execLinkDown_wf hm
  | .putPacketArrival _ => execPutPacketArrival_wf hm
  | .fgetRequest _ _ _ _ => execFgetRequest_wf hm
  | .fgetResponse _ _ _ _ => execFgetResponse_wf hm
  | .fatomRequest _ _ _ _ _ _ => execFatomRequest_wf hm
  | .remoteAccessRequest _ _ _ _ => execRemoteAccessRequest_wf hm
  | .packetAck _ _ => execPacketAck_wf hm
  | .retryLater _ => execRetryLater_wf hm
  | .resendTimer _ => execResendTimer_wf hm
  | .notPresentTimeout _ => execNotPresentTimeout_wf hm
  | .fabricTimeout _ => execFabricTimeout_wf hm
  | .remoteAccessTimeout _ => execRemoteAccessTimeout_wf hm
  | .reconfigDrain _ => execReconfigDrain_wf hm
  | .linkDark _ => execLinkDark_wf hm
  | .initHeader _ _ => execInitHeader_wf hm
  | .routeTableInstall _ _ => execRouteTableInstall_wf hm
  | .chunkIssue _ => execChunkIssue_wf hm
  | .chunkAck _ _ => execChunkAck_wf hm
  | .powerOnReset => execPowerOnReset_wf hm
  | .configRecord _ => execConfigRecord_wf hm
  | .getVersion => execGetVersion_wf hm
  | .getCapabilities => execGetCapabilities_wf hm
  | .negotiateAlgorithms _ _ _ => execNegotiateAlgorithms_wf hm
  | .getDigests => execGetDigests_wf hm
  | .getCertificate => execGetCertificate_wf hm
  | .challenge _ => execChallenge_wf hm
  | .getMeasurements _ _ => execGetMeasurements_wf hm
  | .status _ => execStatus_wf hm
  | .take _ => execTake_wf hm
  | .handback _ => execHandback_wf hm
  | .kill _ => execKill_wf hm
  | .discard _ => execDiscard_wf hm
  | .privcmd _ => execPrivcmd_wf hm
  | .power _ => execPower_wf hm
  | .readyBitSet _ => execReadyBitSet_wf hm
  | .hbmStackFailure _ => execHbmStackFailure_wf hm
  | .supplyDroop _ _ => execSupplyDroop_wf hm
  | .unusedFeatureMessage _ => hm

/-! ## Turns -/

theorem State.unitsGo_wf {t} (hm : s.mem.wf = true) : (s.unitsGo t).mem.wf = true := by
  have h1 := State.revokeSteps_wf (State.overdueClears_wf (State.reapDying_wf (State.powerTick_wf (before := t) hm)))
  have h2 := State.pumpRptr_wf (State.pumpJobs_wf (State.pumpAll_wf (State.rerouteDown_wf h1)))
  exact State.trackClaims_wf (State.trackPending_wf (State.endTurns_wf (State.pumpImages_wf h2)))

theorem State.advance_wf {dns dcyc} (hm : s.mem.wf = true) : (s.advance dns dcyc).mem.wf = true := by
  have ha := State.accrueStall_wf (n := dcyc) hm
  unfold State.advance
  extract_lets before r t us u v held w
  have hr : r.mem.wf = true := ha
  clear_value r
  have hu : u.mem.wf = true := hr
  have hv : v.mem.wf = true := hu
  have hw : w.mem.wf = true := hv
  exact State.unitsGo_wf hw

/-- A stream that may execute leaves memory in the canonical form before its instruction, and so does what becomes of it instead. -/
def WfReady : Ready → Prop
  | .run _ s | .done s => s.mem.wf = true

theorem State.scalarReady_wf {gid} (hm : s.mem.wf = true) : WfReady (s.scalarReady gid) := by
  unfold State.scalarReady
  split
  · exact hm
  · extract_lets t
    have ht : t.mem.wf = true := hm
    clear_value t
    split
    · exact State.romScalarTurn_wf ht
    · have hf := State.fetchScalar_wf (g := gid) ht
      split
      all_goals replace hf := wf_of_pair ‹_› hf
      · exact hf
      · exact State.scalarTrapIn_wf hf
      · split
        · exact hf
        · split
          · exact State.scalarTrapIn_wf hf
          · exact State.killGroup_wf hf
        · exact State.killGroup_wf hf

theorem State.laneReady_wf {core lp ln} (hm : s.mem.wf = true) : WfReady (s.laneReady core lp ln) := by
  unfold State.laneReady
  extract_lets p
  split
  · exact hm
  · next gid n _ =>
    extract_lets t
    have ht : t.mem.wf = true := hm
    clear_value t
    split
    · exact State.romLaneTurn_wf ht
    · have hf := State.fetchLane_wf (g := gid) (u := t.split.pc) ht
      split
      all_goals replace hf := wf_of_pair ‹_› hf
      · exact hf
      · exact State.laneTrap_wf hf
      · split
        · exact hf
        · extract_lets returns
          split
          · exact State.lanePrivTrap_wf hf
          · exact State.killCur_wf hf
        · exact State.killCur_wf hf

theorem allWf_exec (is_ : List Instr) : AllWf (is_.map exec) := allWf_map fun i _ => exec_wf i

theorem waitEvents_wf {gid g} : AllWf (waitEvents gid g) := by
  unfold waitEvents
  split
  · exact allWf_nil
  · next w _ =>
    generalize w.instr = i
    cases i
    case lrun | lrunr => exact allWf_exec [.lrunEnqueue gid]
    case lquiet => exact allWf_exec [.lquietComplete gid]
    case bara | fence | dlaunch => exact allWf_exec [.fenceComplete gid, .scalarAccessComplete gid]
    case bar | barw => exact allWf_exec [.barrierRelease gid]
    case rawait => exact allWf_exec [.rawaitRelease gid]
    case acwait => exact allWf_exec [.acwaitRelease gid]
    case fstat => exact allWf_exec [.fstatRelease gid]
    case rswait => exact allWf_exec [.rswaitRelease gid]
    case reshard => exact allWf_exec [.elandJobSlotFree gid, .scalarAccessComplete gid]
    case fput | fget | fatom | fmcast => exact allWf_exec [.tagStallEnd gid]
    case sleeps => exact allWf_exec [.sleepsWake gid]
    case shalt => exact allWf_exec [.shaltWake gid]
    case persist | persistAll => exact allWf_exec [.persistComplete gid]
    all_goals exact allWf_exec [.scalarAccessComplete gid]

theorem groupEvents_wf {gid g} : AllWf (groupEvents gid g) := by
  unfold groupEvents
  extract_lets slots
  refine allWf_append (allWf_append (allWf_append (allWf_append (allWf_append waitEvents_wf ?_) ?_) ?_) ?_) ?_
  · exact allWf_exec [.nextMerge gid, .decisionQueuePop gid, .heldTrapEntry gid]
  · exact allWf_exec [.pagerRecordPost gid 4, .pagerRecordPost gid 5]
  · exact allWf_flatMap fun n => allWf_exec [.ldfeResume gid n, .mxQueueReissue gid n, .alatchAcquire gid n, .sleepWake gid n]
  · exact allWf_map fun i _ => exec_wf (.farResultArrival gid i)
  · refine allWf_flatMap fun r => ?_
    split
    · exact allWf_exec [.frameFillComplete _]
    · exact allWf_nil

theorem commandEvents_wf {n} : AllWf (commandEvents n) :=
  allWf_exec [.nopCommand n, .launch n, .copy n, .signal n, .wait n, .map n, .unmap n, .leaseGrant n, .leaseRenew n,
    .leaseRelease n, .keyLoad n, .keyUnload n, .contextCreate n, .contextDestroy n, .contextUpdate n,
    .contextBindQueue n, .contextUnbindQueue n, .contextQueryContext n, .contextQueryQueue n]

theorem timerEvents_wf {r} : AllWf (timerEvents r) := allWf_exec [.resendTimer r, .notPresentTimeout r, .fabricTimeout r]

theorem State.fabricEvents_wf : AllWf s.fabricEvents := by
  unfold State.fabricEvents
  refine allWf_append (allWf_append ?_ ?_) ?_
  · exact allWf_flatMap fun p => allWf_flatMap fun i => allWf_cons (fun _ => exec_wf (.putPacketArrival (.loop p.1 i))) timerEvents_wf
  · refine allWf_flatMap fun p => allWf_cons (fun _ => exec_wf (.chunkIssue p.1)) (allWf_flatMap fun c => ?_)
    exact allWf_cons (fun _ => exec_wf (.chunkAck p.1 c.num)) (allWf_flatMap fun i => timerEvents_wf)
  · exact allWf_flatMap fun p => allWf_exec [.remoteAccessTimeout p.1, .resendTimer (.req p.1), .notPresentTimeout (.req p.1)]

theorem State.unitEvents_wf : AllWf s.unitEvents := by
  unfold State.unitEvents
  iterate 17 refine allWf_append ?_ ?_
  · exact allWf_flatMap fun p => allWf_exec [.runStart (s.coreOf p.1) p.2.lp 0, .runStart (s.coreOf p.1) p.2.lp 1]
  · exact allWf_flatMap fun p => allWf_exec [.mxCommandStart p.1, .mxCommandComplete p.1]
  · exact allWf_flatMap fun p => allWf_flatMap fun c =>
      allWf_append (allWf_map fun x _ => exec_wf (.copyUnitMove p.1 c.num x.grp)) (allWf_exec [.copyComplete p.1 c.num])
  · exact allWf_flatMap fun p => allWf_exec [.frameFillComplete p.1, .relayoutComplete p.1]
  · split
    · exact allWf_nil
    · exact allWf_exec [.storeAccepted]
  · exact allWf_flatMap fun p => allWf_append
      (allWf_exec [.leaseExpiry p.1, .leaseDue p.1, .revocationWritebackDone p.1, .graceEnd p.1])
      (allWf_map fun r _ => exec_wf (.leaseValidClear p.1 r))
  · exact allWf_map fun p _ => exec_wf (.springbokFill p.1)
  · exact allWf_map fun n _ => exec_wf (.bankReservationTimeout n)
  · exact allWf_flatMap fun p => allWf_flatMap fun c => allWf_exec [.tokenArrival p.1 c, .tokenHoldTimeout p.1 c]
  · exact allWf_flatMap fun p => allWf_map fun v _ => exec_wf (.flitSend p.1 (Fin.ofNat 8 v))
  · exact allWf_exec [.counterHalving, .heartbeatTimeout, .replayComplete, .hostDeadline, .pagerRecordPost 0 0]
  · exact allWf_map fun p _ => exec_wf (.teamEnd p.1)
  · exact allWf_flatMap fun p => allWf_exec [.teamPlacement p.1, .launchComplete p.1]
  · exact allWf_flatMap fun c => commandEvents_wf
  · exact allWf_map fun p _ => exec_wf (.waitRelease p.1)
  · exact allWf_exec [.commandStart]
  · exact allWf_flatMap fun p => allWf_exec [.reserveState p.1, .groupExchange p.1]
  · exact State.fabricEvents_wf

theorem State.candidates_wf : AllWf s.candidates := allWf_append (allWf_flatMap fun _ => groupEvents_wf) State.unitEvents_wf

/-! ## A step -/

theorem runReady_wf {r : Ready} (hr : WfReady r) : WfOut (runReady r) := by
  cases r with
  | run i s => exact exec_wf i hr
  | done s => exact hr

theorem takeTurn_wf {w} (hm : s.mem.wf = true) : WfOut (takeTurn w s) := by
  unfold takeTurn
  split
  · exact runReady_wf (State.scalarReady_wf hm)
  · exact runReady_wf (State.laneReady_wf hm)
  · split
    · exact exec_wf _ hm
    · trivial

theorem firstChange_wf {l} (hl : AllWf l) (hm : s.mem.wf = true) : WfOut (firstChange s l) := by
  induction l with
  | nil => exact hm
  | cons e r ih =>
    obtain ⟨he, hr⟩ := List.forall_mem_cons.mp hl
    have ht := he s hm
    unfold firstChange
    split
    · next t e =>
      rw [e] at ht
      split
      · exact ih hr
      · exact ht
    · exact ht

/-- What a turn may do first keeps memory in the canonical form. -/
def WfChoice (c : Choice) : Prop := ∀ s : State, s.mem.wf = true → WfOut (c.take s)

theorem wfChoice_turn {w} : WfChoice (.turn w) := fun _ => takeTurn_wf

theorem wfChoice_event {e} (he : ∀ s : State, s.mem.wf = true → WfOut (e s)) : WfChoice (.event e) := he

theorem State.partyTurns_wf {gid} {c : Choice} (hc : c ∈ s.partyTurns gid) : WfChoice c := by
  unfold State.partyTurns at hc
  simp only [List.mem_append, List.mem_cons, List.not_mem_nil, or_false, List.mem_map] at hc
  obtain (((rfl | ⟨e, he, rfl⟩) | rfl) | ⟨n, _, rfl⟩) | ⟨n, _, rfl⟩ := hc
  · exact wfChoice_turn
  · exact wfChoice_event (groupEvents_wf e he)
  · exact wfChoice_event fun _ => execGroupExchange_wf
  · exact wfChoice_turn
  · exact wfChoice_event fun _ => execRunStart_wf

theorem mem_of_mem_rotateLeft {α : Type} {a : α} {l : List α} {n : Nat} (h : a ∈ l.rotateLeft n) : a ∈ l := by
  unfold List.rotateLeft at h
  extract_lets len k ys zs at h
  split at h
  · exact h
  · obtain h | h := List.mem_append.mp h
    · exact List.mem_of_mem_drop h
    · exact List.mem_of_mem_take h

theorem State.choices_wf {c : Choice} (hc : c ∈ s.choices) : WfChoice c := by
  unfold State.choices at hc
  extract_lets k all at hc
  have ha : c ∈ all → WfChoice c := by
    intro h
    have h := mem_of_mem_rotateLeft h
    rw [List.mem_append, List.mem_map, List.mem_map] at h
    obtain ⟨w, _, rfl⟩ | ⟨e, he, rfl⟩ := h
    · exact wfChoice_turn
    · exact wfChoice_event (State.candidates_wf e he)
  split at hc
  · rw [List.mem_append, List.mem_flatMap] at hc
    obtain ⟨x, _, hx⟩ | h := hc
    · obtain ⟨g, _, hg⟩ := List.mem_flatMap.mp hx
      exact State.partyTurns_wf hg
    · exact ha h
  · exact ha hc

theorem defaultTurn_wf (hm : s.mem.wf = true) : WfOut (defaultTurn s) :=
  firstChange_wf (List.forall_mem_map.mpr fun _ hc => State.choices_wf hc) hm

theorem step_wf (hm : s.mem.wf = true) : WfOut (step s) := by
  unfold step
  split
  · exact takeTurn_wf (State.advance_wf (s := { s with agenda := _ }) hm)
  · exact defaultTurn_wf (State.advance_wf hm)

end

/-- Settles O59: what a step is made of keeps the canonical form, function by function (`step_wf`). -/
theorem memoryStaysCanonical : Obligations.MemoryStaysCanonical := by
  intro s t hs e
  have h := step_wf hs
  rwa [e] at h

end Sys2Proof.Machine
end

section
/-! PROOFS. LEASEOP and the states of a lease (R55, R57, R59, R410). -/

namespace Sys2Proof.SMap

theorem find_put_ne {α : Type} [DecidableEq α] (d : α) (m : SMap α) {x y : Nat} (v : α) (h : y ≠ x) : find (put d m x v) y = find m y := by
  unfold put
  split
  · rw [find_erase, if_neg h]
  · exact find_insert_ne m v h

end Sys2Proof.SMap

namespace Sys2Proof.Machine

@[simp] theorem Mem.lease_setLease_self (m : Mem) (n : Nat) (l : Lease) : (m.setLease n l).lease n = l := SMap.get_put_self _ _ _ _

theorem Mem.leases_setLease_find (m : Mem) {n p : Nat} (l : Lease) (h : p ≠ n) : (m.setLease n l).leases.find p = m.leases.find p :=
  SMap.find_put_ne _ _ _ h

/-- An instruction whose own effects are done in `u` and that answers `sput` there. -/
theorem ScalarAfter.of_sput {i : Instr} {s u : State} {d : BitVec 6} {v : W64} (h : exec i s = .next (u.sput d v)) : ScalarAfter i s u d v :=
  ⟨_, h, scalarPut_sput u d v⟩

theorem privileged_of_priv {s : State} (hp : s.cur.mode = .priv) (o : Out) : privileged s o = o := if_pos hp

section
variable {s : State} {a d : BitVec 6} {n : Nat}

theorem State.leaseSlot_past (hp : s.cur.mode = .priv) (h : 4096 ≤ (s.sread a).toNat) (k : Nat → Out) :
    s.leaseSlot a d k = .next (s.sput d 0x10) := by
  rw [State.leaseSlot, privileged_of_priv hp, if_pos h]
  rfl

theorem State.leaseSlot_of_lt (hp : s.cur.mode = .priv) (h : (s.sread a).toNat < 4096) (k : Nat → Out) :
    s.leaseSlot a d k = k (s.sread a).toNat := by
  rw [State.leaseSlot, privileged_of_priv hp, if_neg (Nat.not_le.mpr h)]

/-! ## What firmware does to a lease -/

theorem State.expireLease_of_not_due (h : ¬((s.mem.lease n).st = .active ∧ (s.mem.lease n).expiry.toNat ≤ s.timeNs.toNat)) :
    s.expireLease n = s := if_neg h

theorem State.renewLease_revoking {e w : W64} (h : ((s.expireLease n).mem.lease n).st = .revoking) :
    s.renewLease n e w = (0x52, s.expireLease n) := if_pos h

theorem State.renewLease_to {e w : W64} (h : ((s.expireLease n).mem.lease n).st = .active ∨ ((s.expireLease n).mem.lease n).st = .expired)
    (he : (s.expireLease n).timeNs.toNat < e.toNat) :
    s.renewLease n e w = (0, { s.expireLease n with
      mem := (s.expireLease n).mem.setLease n
        { (s.expireLease n).mem.lease n with st := .active, expiry := e, warn := w, dueSent := false, stale := [] } }) := by
  have hr : ((s.expireLease n).mem.lease n).st ≠ .revoking := by rcases h with h | h <;> simp [h]
  exact (if_neg hr).trans (if_pos ⟨h, he⟩)

theorem State.renewLease_refused {e w : W64} (hr : ((s.expireLease n).mem.lease n).st ≠ .revoking)
    (h : ¬((((s.expireLease n).mem.lease n).st = .active ∨ ((s.expireLease n).mem.lease n).st = .expired)
      ∧ (s.expireLease n).timeNs.toNat < e.toNat)) : s.renewLease n e w = (0x50, s.expireLease n) :=
  (if_neg hr).trans (if_neg h)

theorem State.revokeLease_other {g : W64} (h : ¬((s.mem.lease n).st = .active ∨ (s.mem.lease n).st = .expired)) : s.revokeLease n g = none :=
  if_neg h

/-- A lease that leaves ACTIVE keeps its range and its times. -/
theorem Mem.leaveActive_lease (m : Mem) (n : Nat) (l : Lease) (now : W64) (st : LeaseState) :
    ∃ stale cleared, (m.leaveActive n l now st).lease n = { l with st := st, stale := stale, cleared := cleared } := by
  unfold Mem.leaveActive
  split <;> exact ⟨_, _, Mem.lease_setLease_self _ _ _⟩

theorem Mem.leaveActive_find (m : Mem) {n p : Nat} (l : Lease) (now : W64) (st : LeaseState) (h : p ≠ n) :
    (m.leaveActive n l now st).leases.find p = m.leases.find p := Mem.leases_setLease_find _ _ h

/-- An ACTIVE or EXPIRED lease that is revoked is REVOKING with the grace end; only its slot changes. -/
theorem State.revokeLease_held {g : W64} (h : (s.mem.lease n).st = .active ∨ (s.mem.lease n).st = .expired) :
    ∃ t : State, s.revokeLease n g = some t ∧ t = { s with mem := { s.mem with leases := t.mem.leases } }
      ∧ (t.mem.lease n).st = .revoking ∧ (t.mem.lease n).graceEnd = g ∧ (t.mem.lease n).base = (s.mem.lease n).base
      ∧ (t.mem.lease n).len = (s.mem.lease n).len ∧ ∀ p, p ≠ n → t.mem.leases.find p = s.mem.leases.find p := by
  obtain ⟨stale, cleared, e⟩ := s.mem.leaveActive_lease n { s.mem.lease n with graceEnd := g } s.timeNs .revoking
  exact ⟨_, if_pos h, rfl, by rw [e], by rw [e], by rw [e], by rw [e], fun p hp => Mem.leaveActive_find _ _ _ _ hp⟩

theorem State.loseLease_free (h : (s.mem.lease n).st = .free) : s.loseLease n = none := if_pos h

/-- A lease that is held and is lost, is LOST. -/
theorem State.loseLease_held (h : (s.mem.lease n).st ≠ .free) :
    ∃ m, s.loseLease n = some { s with mem := m } ∧ (m.lease n).st = .lost := by
  obtain ⟨stale, cleared, e⟩ := Mem.leaveActive_lease
    (((s.mem.framesIn (s.mem.lease n).base.toNat (s.mem.lease n).len.toNat).foldl Mem.poison s.mem)) n { s.mem.lease n with loss := true }
    s.timeNs .lost
  exact ⟨_, if_neg h, by rw [e]⟩

theorem State.releaseLease_refused (h : (s.mem.lease n).st = .free ∨ (s.mem.lease n).st = .revoking) : s.releaseLease n = (0x50, s) := by
  unfold State.releaseLease
  obtain h | h := h <;> simp only [h]

/-- Any other lease that is released leaves its slot free. -/
theorem State.releaseLease_held (hf : (s.mem.lease n).st ≠ .free) (hr : (s.mem.lease n).st ≠ .revoking) :
    ∃ m, s.releaseLease n = (0, { s with mem := m }) ∧ m.lease n = {} := by
  unfold State.releaseLease
  extract_lets l
  split
  · exact absurd ‹_› hf
  · exact absurd ‹_› hr
  · exact ⟨_, rfl, Mem.lease_setLease_self _ _ _⟩

end

/-! ## The clauses of LEASEOP -/

section
variable {s : State} {a d : BitVec 6} (hp : s.cur.mode = .priv)
include hp

theorem leaseop_past (h : 4096 ≤ (s.sread a).toNat) {i : Instr}
    (hi : i ∈ [Instr.leaseopRead a d, .leaseopGrant a d, .leaseopRenew a d, .leaseopRelease a d, .leaseopRevoke a d, .leaseopLost a d]) :
    ScalarGives i s d 0x10 := by
  simp only [List.mem_cons, List.not_mem_nil, or_false] at hi
  have hk (k : Nat → Out) : s.leaseSlot a d k = .next (s.sput d 0x10) := State.leaseSlot_past hp h k
  rcases hi with rfl | rfl | rfl | rfl | rfl | rfl
  · exact .of_sput (show execLeaseopRead a d s = _ from hk _) rfl
  · exact .of_sput (show execLeaseopGrant a d s = _ from hk _) rfl
  · exact .of_sput (show execLeaseopRenew a d s = _ from hk _) rfl
  · exact .of_sput (show execLeaseopRelease a d s = _ from hk _) rfl
  · exact .of_sput (show execLeaseopRevoke a d s = _ from hk _) rfl
  · exact .of_sput (show execLeaseopLost a d s = _ from hk _) rfl

theorem leaseop_hint : ∃ u, ScalarAfter (.leaseopHint a d) s u d
      (BitVec.ofNat 64 ((SMap.get 0 u.mem.hints ((s.sread a).toNat / 65536)).toNat * 256))
    ∧ u = { s with mem := { s.mem with hints := u.mem.hints }, free := s.free + 1 }
    ∧ ∀ p, p ≠ (s.sread a).toNat / 65536 → u.mem.hints.find p = s.mem.hints.find p := by
  refine ⟨{ s with free := s.free + 1, mem := { s.mem with hints := s.mem.hints.put 0 ((s.sread a).toNat / 65536) (s.draw.1.setWidth 2) } },
    ?_, rfl, fun p h => SMap.find_put_ne _ _ _ h⟩
  refine .of_sput ?_
  rw [SMap.get_put_self]
  exact privileged_of_priv hp _

variable (hn : (s.sread a).toNat < 4096)
include hn

theorem leaseop_grant {b : List Byte} {u : State} (hu : s.engRead s.sacc (.scalar s.curGid) (s.sread (a + 1)) 64 = (.ok b, u)) :
    exec (.leaseopGrant a d) s
      = .next ((u.grantLease (s.sread a).toNat b).2.sput d (BitVec.ofNat 64 (u.grantLease (s.sread a).toNat b).1)) := by
  show execLeaseopGrant a d s = _
  rw [execLeaseopGrant, State.leaseSlot_of_lt hp hn]
  unfold State.sysRead
  rw [show s.sreadAt a 1 = s.sread (a + 1) from rfl, hu]
  rfl

theorem leaseop_read {b : List Byte} {u : State}
    (hu : s.engWrite s.sacc (.store s.curTeam.ctx) (s.sread (a + 1)) (wordBytes (s.mem.leaseImage (s.mem.lease (s.sread a).toNat))) = (.ok b, u)) :
    exec (.leaseopRead a d) s = .next (u.sput d 0) := by
  show execLeaseopRead a d s = _
  rw [execLeaseopRead, State.leaseSlot_of_lt hp hn]
  unfold State.sysWrite
  rw [show s.sreadAt a 1 = s.sread (a + 1) from rfl, hu]
  rfl

theorem leaseop_renew {c : Nat} {u : State} (hu : s.renewLease (s.sread a).toNat (s.sread (a + 1)) (s.sread (a + 2)) = (c, u)) :
    exec (.leaseopRenew a d) s = .next (u.sput d (BitVec.ofNat 64 c)) := by
  show execLeaseopRenew a d s = _
  rw [execLeaseopRenew, State.leaseSlot_of_lt hp hn]
  rw [show s.sreadAt a 1 = s.sread (a + 1) from rfl, show s.sreadAt a 2 = s.sread (a + 2) from rfl, hu]
  rfl

theorem leaseop_release {c : Nat} {u : State} (hu : s.releaseLease (s.sread a).toNat = (c, u)) :
    exec (.leaseopRelease a d) s = .next (u.sput d (BitVec.ofNat 64 c)) := by
  show execLeaseopRelease a d s = _
  rw [execLeaseopRelease, State.leaseSlot_of_lt hp hn]
  rw [hu]
  rfl

theorem leaseop_revoke : exec (.leaseopRevoke a d) s = match s.revokeLease (s.sread a).toNat (s.sread (a + 1)) with
    | some u => .next (u.sput d 0)
    | none => .next (s.sput d 0x50) := by
  show execLeaseopRevoke a d s = _
  rw [execLeaseopRevoke, State.leaseSlot_of_lt hp hn]
  rfl

theorem leaseop_lost : exec (.leaseopLost a d) s = match s.loseLease (s.sread a).toNat with
    | some u => .next (u.sput d 0)
    | none => .next (s.sput d 0x50) := by
  show execLeaseopLost a d s = _
  rw [execLeaseopLost, State.leaseSlot_of_lt hp hn]
  rfl

end

/-- Settles O19: each operation of LEASEOP, by what firmware does to the slot. -/
theorem leaseOperations : Obligations.LeaseOperations := by
  unfold Obligations.LeaseOperations
  intro s a d hp n w1 w2 l x due
  refine ⟨fun h i hi => leaseop_past hp h hi, leaseop_hint hp, fun hn => ?_⟩
  have hrenew {c u} (hu : s.renewLease n w1 w2 = (c, u)) := leaseop_renew (d := d) hp hn hu
  have hrelease {c u} (hu : s.releaseLease n = (c, u)) := leaseop_release (d := d) hp hn hu
  have hrevoke := leaseop_revoke (d := d) hp hn
  have hlost := leaseop_lost (d := d) hp hn
  have hstay (h : ¬due l) : s.expireLease n = s := State.expireLease_of_not_due h
  refine ⟨fun b u hu => ?_, fun b u hu => .of_sput (leaseop_read hp hn hu), fun hd h => ?_, fun hd h he => ?_, fun hd h he => ?_,
    fun e hd he h ht => ?_, fun h => ?_, fun h => ?_, fun h => ?_, fun h => ⟨?_, ?_⟩, fun h => ?_, fun h => ?_, fun hf hr => ?_⟩
  · have hg := leaseop_grant (d := d) hp hn hu
    refine ⟨fun h => ?_, fun h hr => ?_, fun h hr => ?_⟩
    · rw [show u.grantLease (s.sread a).toNat b = (0x50, u) from if_pos h] at hg
      exact .of_sput hg
    · rw [show u.grantLease (s.sread a).toNat b = (0x51, u) from (if_neg (not_not.mpr h)).trans (if_pos hr)] at hg
      exact .of_sput hg
    · have he : u.grantLease (s.sread a).toNat b = (0, _) := (if_neg (not_not.mpr h)).trans (if_neg (by rw [hr]; decide))
      rw [he] at hg
      refine ⟨_, _, .of_sput hg, rfl, rfl, ?_, ?_, rfl, rfl, rfl, rfl, rfl, rfl⟩
      · exact (BitVec.toNat_ofNat _ _).trans (Nat.mod_mod _ _)
      · exact (BitVec.toNat_ofNat _ _).trans (Nat.mod_mod _ _)
  · exact ScalarGives.of_sput (hrenew ((State.renewLease_revoking (by rw [hstay hd]; exact h)).trans (by rw [hstay hd]))) rfl
  · have hr := State.renewLease_to (s := s) (n := n) (e := w1) (w := w2) (by rw [hstay hd]; exact h) (by rw [hstay hd]; exact he)
    rw [hstay hd] at hr
    exact .of_sput (hrenew hr)
  · have hr : l.st ≠ .revoking := by rcases h with h | h <;> simp [h]
    have hr := State.renewLease_refused (s := s) (n := n) (e := w1) (w := w2) (by rw [hstay hd]; exact hr)
      (by rw [hstay hd]; exact fun h => Nat.not_lt.mpr he h.2)
    rw [hstay hd] at hr
    exact ScalarGives.of_sput (hrenew hr) rfl
  · subst he
    exact .of_sput (hrenew (State.renewLease_to (.inr h) ht))
  · have hne : l.st ≠ .active ∧ l.st ≠ .expired ∧ l.st ≠ .revoking := by rcases h with h | h | h <;> simp [h]
    obtain ⟨ha, he, hr⟩ := hne
    have hd : s.expireLease n = s := hstay fun hd => ha hd.1
    have hq := State.renewLease_refused (s := s) (n := n) (e := w1) (w := w2) (by rw [hd]; exact hr)
      (by rw [hd]; exact fun h => h.1.elim ha he)
    rw [hd] at hq
    exact ScalarGives.of_sput (hrenew hq) rfl
  · obtain ⟨t, e, ht⟩ := State.revokeLease_held (g := w1) h
    rw [e] at hrevoke
    exact ⟨t, .of_sput hrevoke, ht⟩
  · rw [State.revokeLease_other h] at hrevoke
    exact ScalarGives.of_sput hrevoke rfl
  · rw [State.loseLease_free h] at hlost
    exact ScalarGives.of_sput hlost rfl
  · exact ScalarGives.of_sput (hrelease (State.releaseLease_refused (.inl h))) rfl
  · obtain ⟨m, e, hm⟩ := State.loseLease_held h
    rw [e] at hlost
    exact ⟨_, .of_sput hlost, rfl, hm⟩
  · exact ScalarGives.of_sput (hrelease (State.releaseLease_refused (.inr h))) rfl
  · obtain ⟨m, e, hm⟩ := State.releaseLease_held hf hr
    exact ⟨_, .of_sput (hrelease e), rfl, hm⟩

end Sys2Proof.Machine
end

section
/-! PROOFS. The lease events, the records they post, ATS invalidations (R57, R58, R61, R62, R65, R80). -/

namespace Sys2Proof.SMap
variable {α : Type}

theorem sorted_put [DecidableEq α] {d : α} {m : SMap α} {x : Nat} {v : α} (h : sorted m = true) : sorted (put d m x v) = true := by
  unfold put
  split
  · exact sorted_erase h
  · exact sorted_insert h

theorem find_of_mem {m : SMap α} (h : sorted m = true) {i : Nat} {x : α} (hx : (i, x) ∈ m) : find m i = some x := by
  induction m with
  | nil => cases hx
  | cons p m ih =>
    obtain ⟨ha, hs⟩ := sorted_cons.mp h
    rcases List.mem_cons.mp hx with rfl | hx
    · exact if_pos rfl
    · exact (if_neg (Nat.ne_of_gt (ha _ hx))).trans (ih hs hx)

theorem get_of_mem {m : SMap α} (d : α) (h : sorted m = true) {i : Nat} {x : α} (hx : (i, x) ∈ m) : get d m i = x := by
  simp [get, find_of_mem h hx]

/-- An entry that differs from an unlisted one is listed. -/
theorem mem_of_get_ne {m : SMap α} {d : α} {i : Nat} (h : get d m i ≠ d) : (i, get d m i) ∈ m := by
  unfold get at h ⊢
  cases hf : find m i with
  | none => exact absurd (by rw [hf]; rfl) h
  | some x => exact Machine.mem_of_find hf

end Sys2Proof.SMap

namespace Sys2Proof.Machine

/-! ## What writing lines home leaves alone -/

/-- From `m` to `n` the lease table stays, the frames stay in their order, and no L1 gets a line. -/
structure Mem.Quiet (m n : Mem) : Prop where
  leases : n.leases = m.leases
  frames : SMap.sorted m.frames = true → SMap.sorted n.frames = true
  l1 : ∀ i, m.l1.find i = none → n.l1.find i = none

section
variable {m n p : Mem}

theorem Mem.Quiet.refl (m : Mem) : m.Quiet m := ⟨rfl, id, fun _ => id⟩
theorem Mem.Quiet.trans (h : m.Quiet n) (k : n.Quiet p) : m.Quiet p :=
  ⟨k.leases.trans h.leases, fun hs => k.frames (h.frames hs), fun i hi => k.l1 i (h.l1 i hi)⟩
theorem Mem.Quiet.of_same (hl : n.leases = m.leases) (hf : n.frames = m.frames) (h1 : n.l1 = m.l1) : m.Quiet n :=
  ⟨hl, fun h => hf ▸ h, fun _ h => h1 ▸ h⟩
theorem Mem.Quiet.then_same (h : m.Quiet n) (hl : p.leases = n.leases) (hf : p.frames = n.frames) (h1 : p.l1 = n.l1) : m.Quiet p :=
  h.trans (.of_same hl hf h1)
theorem Mem.Quiet.after_same (h : n.Quiet p) (hl : n.leases = m.leases) (hf : n.frames = m.frames) (h1 : n.l1 = m.l1) : m.Quiet p :=
  .trans (.of_same hl hf h1) h
theorem Mem.Quiet.foldl {α : Type} (l : List α) {f : Mem → α → Mem} (h : m.Quiet n) (hf : ∀ n a, Mem.Quiet n (f n a)) : m.Quiet (l.foldl f n) := by
  induction l generalizing n with
  | nil => exact h
  | cons a l ih => exact ih (h.trans (hf n a))

theorem quiet_setFrame (m : Mem) (f : Nat) (x : Frame) : m.Quiet (m.setFrame f x) := ⟨rfl, SMap.sorted_put, fun _ => id⟩
theorem quiet_modFrame (m : Mem) (f : Nat) (g : Frame → Frame) : m.Quiet (m.modFrame f g) := quiet_setFrame _ _ _

theorem quiet_loss (m : Mem) (k : Nat) (c : Option Nat) : m.Quiet (m.loss k c) := by
  unfold Mem.loss
  split
  · exact .refl m
  · extract_lets i
    split
    · next x hx =>
      refine ⟨rfl, id, fun j hj => ?_⟩
      have hij : j ≠ i := fun e => by rw [e, hx] at hj; cases hj
      exact (SMap.find_insert_ne _ _ hij).trans hj
    · exact .refl m

theorem quiet_lineHome (m : Mem) (k : Nat) (l : L2Line) : m.Quiet (m.lineHome k l) := by
  unfold Mem.lineHome
  extract_lets a
  split
  · split
    · exact .of_same rfl rfl rfl
    · exact .refl m
  · split
    · split
      · split
        · exact .refl m
        · exact (quiet_modFrame _ _ _).after_same rfl rfl rfl
      · split
        · exact .of_same rfl rfl rfl
        · exact .refl m
    · exact .refl m

theorem quiet_evictLine (m : Mem) (k : Nat) : m.Quiet (m.evictLine k) := by
  unfold Mem.evictLine
  split
  · exact .refl m
  · next l _ =>
    extract_lets n p
    have hn : m.Quiet n := by
      unfold n
      split
      · exact quiet_lineHome _ _ _
      · exact .refl m
    exact (hn.trans (quiet_loss _ _ _)).then_same rfl rfl rfl

theorem quiet_evictLines (m : Mem) (f : Nat → L2Line → Bool) : m.Quiet (m.evictLines f) := .foldl _ (.refl m) fun n _ => quiet_evictLine n _

theorem quiet_writeBack (m : Mem) (f : Nat) : m.Quiet (m.writeBack f) := by
  unfold Mem.writeBack
  extract_lets dirty
  exact .trans (.foldl _ (.refl m) fun n u => .of_same (n := n.unitBack f u) rfl rfl rfl) (quiet_modFrame _ _ _)

theorem quiet_flushFrameLines (m : Mem) (f : Nat) : m.Quiet (m.flushFrameLines f) := by
  unfold Mem.flushFrameLines
  extract_lets x
  split <;> exact quiet_evictLines _ _

theorem quiet_evictFrame (m : Mem) (f : Nat) : m.Quiet (m.evictFrame f) := by
  unfold Mem.evictFrame
  extract_lets n x p
  have hp : m.Quiet p := by
    refine (quiet_flushFrameLines m f).trans ?_
    unfold p
    split
    · exact quiet_writeBack _ _
    · exact .refl _
  exact hp.trans ((quiet_setFrame _ _ _).after_same rfl rfl rfl)

theorem quiet_fillBytes (m : Mem) (f : Nat) : m.Quiet (m.fillBytes f) := by
  unfold Mem.fillBytes
  exact (quiet_modFrame _ _ _).after_same rfl rfl rfl

theorem quiet_relaid (m : Mem) (f : Nat) : m.Quiet (m.relaid f) := by
  unfold Mem.relaid
  extract_lets x
  split
  · exact .refl m
  · refine .trans ?_ (quiet_modFrame _ _ _)
    split
    · exact .refl m
    · exact quiet_writeBack _ _

theorem quiet_settle (m : Mem) (f : Nat) : m.Quiet (m.settle f) := by
  unfold Mem.settle
  refine .trans ?_ (quiet_relaid _ _)
  split
  · exact quiet_fillBytes _ _
  · exact .refl m

theorem quiet_homeFrame (m : Mem) (k : Nat) (nc : Bool) : m.Quiet (m.homeFrame k nc) := by
  unfold Mem.homeFrame
  extract_lets a
  split
  · split
    · exact quiet_modFrame _ _ _
    · exact .refl m
  · split
    · exact .refl m
    · split
      · split
        · exact .refl m
        · exact .trans (quiet_modFrame _ _ _) (quiet_settle (m.touch _) _)
      · split
        · exact .refl m
        · split
          · exact .of_same rfl rfl rfl
          · exact ((quiet_evictFrame _ _).trans (quiet_setFrame _ _ _)).trans (quiet_fillBytes _ _)

theorem quiet_roomFor (m : Mem) (k : Nat) (zero : Bool) : m.Quiet (m.roomFor k zero) := by
  have hd : ∀ o : Option Nat, m.Quiet ((o.map m.evictLine).getD m)
    | none => .refl m
    | some j => quiet_evictLine m j
  unfold Mem.roomFor
  split
  · exact .refl m
  · extract_lets set data
    split
    · exact hd _
    · split
      · exact hd _
      · exact .refl m

theorem quiet_install (m : Mem) (k : Nat) (l : L2Line) : m.Quiet (m.install k l) := by
  unfold Mem.install
  extract_lets n
  have hn : m.Quiet n := (quiet_roomFor m k (decide (l.data = 0))).then_same rfl rfl rfl
  exact hn.then_same rfl rfl rfl

theorem quiet_bring (m : Mem) (k key : Nat) (nc : Bool) : m.Quiet (m.bring k key nc) := by
  unfold Mem.bring
  extract_lets n p
  have hn : m.Quiet n := by
    unfold n Mem.rekey
    split
    · split
      · exact .refl m
      · exact quiet_evictLine _ _
    · exact .refl m
  split
  · exact hn
  · exact (hn.trans (quiet_homeFrame _ _ _)).trans (quiet_install _ _ _)

theorem quiet_setLine (m : Mem) (k : Nat) (l : L2Line) : m.Quiet (m.setLine k l) := by
  unfold Mem.setLine
  extract_lets n
  have hn : m.Quiet n := by
    unfold n
    split
    · exact quiet_roomFor _ _ _
    · exact .refl m
  exact hn.then_same rfl rfl rfl

theorem quiet_wordsIn (m : Mem) (core k key : Nat) (nc : Bool) (ws : BitVec 32) (d : BitVec 1024) (reg : Bool) :
    m.Quiet (m.wordsIn core k key nc ws d reg) := by
  unfold Mem.wordsIn
  split
  · exact .refl m
  · extract_lets n
    have hn : m.Quiet n := quiet_bring _ _ _ _
    split
    · exact hn
    · extract_lets mine p ts x y
      have hp : n.Quiet p := by
        unfold p
        split
        · exact .refl n
        · split
          · exact quiet_loss _ _ _
          · exact .refl n
      exact (hn.trans hp).trans (quiet_setLine _ _ _)

theorem quiet_l1Clean (m : Mem) (core k : Nat) (reg : Bool) : m.Quiet (m.l1Clean core k reg) := by
  unfold Mem.l1Clean
  split
  · exact .refl m
  · next x hx =>
    have hw := quiet_wordsIn m core k x.key x.nc x.dirty x.data reg
    refine ⟨hw.leases, hw.frames, fun i hi => ?_⟩
    have hik : i ≠ l1Key core k := fun e => by rw [e, hx] at hi; cases hi
    exact (SMap.find_insert_ne _ _ hik).trans (hw.l1 i hi)

/-- A line taken out of an L1 is gone from it. -/
theorem quiet_l1Evict (m : Mem) (core k : Nat) : m.Quiet (m.l1Evict core k) ∧ (m.l1Evict core k).l1.find (l1Key core k) = none := by
  have hc := quiet_l1Clean m core k false
  refine ⟨⟨hc.leases, hc.frames, fun i hi => ?_⟩, ?_⟩
  · exact (SMap.find_erase _ _ _).trans (by rw [hc.l1 i hi]; exact ite_self _)
  · exact (SMap.find_erase _ _ _).trans (if_pos rfl)

end

/-! ## The frames of a range -/

theorem mem_insertFrame {p q : Nat × Frame} {l : List (Nat × Frame)} : q ∈ insertFrame p l ↔ q = p ∨ q ∈ l := by
  induction l with
  | nil => exact List.mem_cons
  | cons r l ih =>
    unfold insertFrame
    split
    · exact List.mem_cons
    · rw [List.mem_cons, ih, List.mem_cons]
      exact or_left_comm

theorem mem_foldr_insertFrame {q : Nat × Frame} {l : List (Nat × Frame)} : q ∈ l.foldr insertFrame [] ↔ q ∈ l := by
  induction l with
  | nil => rfl
  | cons p l ih => rw [List.foldr_cons, mem_insertFrame, ih, List.mem_cons]

/-- A frame holds a page of a pool range. -/
def Frame.holdsIn (x : Frame) (base len : Nat) : Bool :=
  !x.carved && (x.valid || x.filling) && decide (base ≤ x.pfn * 65536) && decide (x.pfn * 65536 < base + len)

theorem mem_framesIn {m : Mem} {base len f : Nat} : f ∈ m.framesIn base len ↔ ∃ x, (f, x) ∈ m.frames ∧ x.holdsIn base len = true := by
  unfold Mem.framesIn
  rw [List.mem_map]
  constructor
  · rintro ⟨⟨g, x⟩, h, rfl⟩
    rw [mem_foldr_insertFrame, List.mem_filter] at h
    exact ⟨x, h⟩
  · rintro ⟨x, h⟩
    exact ⟨(f, x), by rw [mem_foldr_insertFrame, List.mem_filter]; exact h, rfl⟩

theorem ofLease_iff {m : Mem} {l : Lease} {f : Nat} : ofLease m l f ↔ (m.frame f).holdsIn l.base.toNat l.len.toNat = true := by
  simp [ofLease, Frame.holdsIn, and_assoc]

/-- The frames of a lease are among those of its range. -/
theorem mem_framesIn_of_ofLease {m : Mem} {l : Lease} {f : Nat} (h : ofLease m l f) : f ∈ m.framesIn l.base.toNat l.len.toNat := by
  rw [ofLease_iff] at h
  refine mem_framesIn.mpr ⟨m.frame f, SMap.mem_of_get_ne fun e => ?_, h⟩
  rw [show m.frame f = {} from e] at h
  simp [Frame.holdsIn] at h

/-- Where the frames are in their order, the frames of a range are those of the lease. -/
theorem ofLease_of_mem_framesIn {m : Mem} {l : Lease} {f : Nat} (hs : SMap.sorted m.frames = true)
    (h : f ∈ m.framesIn l.base.toNat l.len.toNat) : ofLease m l f := by
  obtain ⟨x, hx, hr⟩ := mem_framesIn.mp h
  rw [ofLease_iff, show m.frame f = x from SMap.get_of_mem _ hs hx]
  exact hr

/-! ## What writing frames back does -/

/-- From `m` to `n` frames change in their dirty units alone, L2 gets no line, and a frame that is clean and has no line in L2 stays clean. -/
structure Mem.Back (m n : Mem) : Prop where
  tags : ∀ f, n.frame f = { m.frame f with dirty := (n.frame f).dirty }
  lines : ∀ k, m.l2.find k = none → n.l2.find k = none
  clean : ∀ f, (m.frame f).dirty = 0 → (∀ k, lineIn 0 (m.frame f).pfn k = true → m.l2.find k = none) → (n.frame f).dirty = 0

section
variable {m n p : Mem}

theorem Mem.Back.refl (m : Mem) : m.Back m := ⟨fun _ => rfl, fun _ => id, fun _ h _ => h⟩

theorem Mem.Back.pfn (h : m.Back n) (f : Nat) : (n.frame f).pfn = (m.frame f).pfn := by rw [h.tags f]

theorem Mem.Back.trans (h : m.Back n) (k : n.Back p) : m.Back p := by
  refine ⟨fun f => ?_, fun i hi => k.lines i (h.lines i hi), fun f hf hl => k.clean f (h.clean f hf hl) fun i hi => ?_⟩
  · conv_lhs => rw [k.tags f, h.tags f]
  · rw [h.pfn] at hi
    exact h.lines i (hl i hi)

theorem Mem.Back.of_same (hf : n.frames = m.frames) (h2 : n.l2 = m.l2) : m.Back n := by
  have hg (f : Nat) : n.frame f = m.frame f := by rw [Mem.frame, hf]; rfl
  exact ⟨fun f => by rw [hg], fun k hk => by rw [h2]; exact hk, fun f h _ => by rw [hg]; exact h⟩

theorem Mem.Back.foldl {α : Type} (l : List α) {f : Mem → α → Mem} (h : m.Back n) (hf : ∀ n a, Mem.Back n (f n a)) : m.Back (l.foldl f n) := by
  induction l generalizing n with
  | nil => exact h
  | cons a l ih => exact ih (h.trans (hf n a))

theorem Mem.loss_l2 (m : Mem) (k : Nat) (c : Option Nat) : (m.loss k c).l2 = m.l2 := by
  unfold Mem.loss
  split
  · rfl
  · extract_lets i
    split <;> rfl

theorem hit_pfn {m : Mem} {pfn f : Nat} (h : m.hit pfn = some f) : (m.frame f).pfn = pfn := by
  have hp := List.find?_some h
  simp only [Bool.and_eq_true, decide_eq_true_eq] at hp
  exact hp.2

theorem standing_pfn {m : Mem} {pfn f : Nat} (h : m.standing pfn = some f) : (m.frame f).pfn = pfn := by
  unfold Mem.standing at h
  split at h
  · next g hg =>
    split at h
    · cases h
    · cases h
      exact hit_pfn hg
  · cases h

theorem lineIn_pool {k pfn : Nat} : lineIn 0 pfn k = true ↔ lineSpace k = 0 ∧ lineAddr k / 65536 = pfn := by
  simp only [lineIn, Bool.and_eq_true, decide_eq_true_eq, and_assoc]
  refine and_congr_right fun _ => ⟨fun h => ?_, fun h => ?_⟩ <;> omega

/-- A line that is written home makes no frame dirty but the one whose line it is. -/
theorem lineHome_frame (m : Mem) (k : Nat) (l : L2Line) (f : Nat) :
    (m.lineHome k l).frame f = { m.frame f with dirty := ((m.lineHome k l).frame f).dirty }
      ∧ (lineIn 0 (m.frame f).pfn k = false → ((m.lineHome k l).frame f).dirty = (m.frame f).dirty) := by
  unfold Mem.lineHome
  extract_lets a
  split
  · split <;> exact ⟨rfl, fun _ => rfl⟩
  · split
    · split
      · next h0 _ g hg =>
        split
        · exact ⟨rfl, fun _ => rfl⟩
        · unfold Mem.modFrame
          rw [Mem.frame_setFrame]
          split
          · next e =>
            subst e
            refine ⟨rfl, fun hl => ?_⟩
            rw [lineIn_pool.mpr ⟨h0, (standing_pfn hg).symm⟩] at hl
            cases hl
          · exact ⟨rfl, fun _ => rfl⟩
      · split <;> exact ⟨rfl, fun _ => rfl⟩
    · exact ⟨rfl, fun _ => rfl⟩

theorem lineHome_l2 (m : Mem) (k : Nat) (l : L2Line) : (m.lineHome k l).l2 = m.l2 := by
  unfold Mem.lineHome
  extract_lets a
  split
  · split <;> rfl
  · split
    · split
      · split <;> rfl
      · split <;> rfl
    · rfl

theorem evictLine_find (m : Mem) (k j : Nat) : (m.evictLine k).l2.find j = if j = k then none else m.l2.find j := by
  unfold Mem.evictLine
  split
  · next h =>
    split
    · next e => rw [e, h]
    · rfl
  · next l _ =>
    extract_lets n p
    have hp : p.l2 = m.l2 := by
      unfold p
      rw [Mem.loss_l2]
      unfold n
      split
      · exact lineHome_l2 _ _ _
      · rfl
    show (p.l2.erase k).find j = _
    rw [SMap.find_erase, hp]

theorem evictLine_frame (m : Mem) (k f : Nat) : (m.evictLine k).frame f = { m.frame f with dirty := ((m.evictLine k).frame f).dirty }
      ∧ (lineIn 0 (m.frame f).pfn k = false ∨ m.l2.find k = none → ((m.evictLine k).frame f).dirty = (m.frame f).dirty) := by
  unfold Mem.evictLine
  split
  · exact ⟨rfl, fun _ => rfl⟩
  · next l hl =>
    extract_lets n p
    have hp : p.frame f = n.frame f := congrArg (fun t => SMap.get ({} : Frame) t f) (n.loss_frames k l.owner)
    show p.frame f = { m.frame f with dirty := (p.frame f).dirty } ∧ (_ → (p.frame f).dirty = _)
    rw [hp]
    unfold n
    split
    · refine ⟨(lineHome_frame m k l f).1, fun h => (lineHome_frame m k l f).2 (h.resolve_right fun h => ?_)⟩
      rw [hl] at h
      cases h
    · exact ⟨rfl, fun _ => rfl⟩

theorem back_evictLine (m : Mem) (k : Nat) : m.Back (m.evictLine k) := by
  refine ⟨fun f => (evictLine_frame m k f).1, fun j hj => ?_, fun f hf hl => ?_⟩
  · rw [evictLine_find, hj, ite_self]
  · refine ((evictLine_frame m k f).2 ?_).trans hf
    cases h : lineIn 0 (m.frame f).pfn k
    · exact .inl rfl
    · exact .inr (hl k h)

theorem back_evictLines (m : Mem) (f : Nat → L2Line → Bool) : m.Back (m.evictLines f) := .foldl _ (.refl m) fun n _ => back_evictLine n _

/-- What one step of a fold brings about, and every other keeps, holds after it. -/
theorem foldl_gone {α β : Type} {f : β → α → β} {gone : β → Prop} {here : α → Prop} (keep : ∀ b a, gone b → gone (f b a))
    (does : ∀ b a, here a → gone (f b a)) (l : List α) (b : β) (h : gone b ∨ ∃ a ∈ l, here a) : gone (l.foldl f b) := by
  induction l generalizing b with
  | nil => exact h.elim id fun ⟨_, ha, _⟩ => nomatch ha
  | cons a l ih =>
    refine ih _ ?_
    obtain h | ⟨c, hc, hh⟩ := h
    · exact .inl (keep b a h)
    · obtain rfl | hc := List.mem_cons.mp hc
      · exact .inl (does b c hh)
      · exact .inr ⟨c, hc, hh⟩

/-- The lines that are evicted are gone. -/
theorem evictLines_find (m : Mem) {f : Nat → Bool} {k : Nat} (hk : f k = true) : (m.evictLines fun k _ => f k).l2.find k = none := by
  refine foldl_gone (gone := fun n => n.l2.find k = none) (here := fun p : Nat × L2Line => p.1 = k) (fun n p h => ?_) (fun n p h => ?_) _ m ?_
  · rw [evictLine_find, h, ite_self]
  · rw [evictLine_find, h, if_pos rfl]
  · cases h : m.l2.find k with
    | none => exact .inl rfl
    | some x => exact .inr ⟨(k, x), List.mem_filter.mpr ⟨mem_of_find h, hk⟩, rfl⟩

theorem back_writeBack (m : Mem) (f : Nat) : m.Back (m.writeBack f) ∧ ((m.writeBack f).frame f).dirty = 0 := by
  unfold Mem.writeBack
  extract_lets dirty
  have hd : m.Back (dirty.foldl (fun m u => m.unitBack f u) m) := .foldl _ (.refl m) fun n u => .of_same (n := n.unitBack f u) rfl rfl
  generalize dirty.foldl (fun m u => m.unitBack f u) m = n at hd
  have hfr (g : Nat) : (n.modFrame f fun x => { x with dirty := 0 }).frame g = if g = f then { n.frame f with dirty := 0 } else n.frame g :=
    Mem.frame_setFrame _ _ _ _
  refine ⟨hd.trans ⟨fun g => ?_, fun _ => id, fun g hg _ => ?_⟩, ?_⟩
  · rw [hfr]
    split
    · next e => rw [e]
    · rfl
  · rw [hfr]
    split
    · rfl
    · exact hg
  · rw [hfr, if_pos rfl]

/-- A frame that is written back whole is clean, and no line of it stands in L2. -/
theorem back_backWhole (m : Mem) (f : Nat) : m.Back (m.backWhole f) ∧ ((m.backWhole f).frame f).dirty = 0
    ∧ ((m.frame f).carved = false → ∀ k, lineIn 0 (m.frame f).pfn k = true → (m.backWhole f).l2.find k = none) := by
  have hf : m.Back (m.flushFrameLines f) := by
    unfold Mem.flushFrameLines
    extract_lets x
    split <;> exact back_evictLines _ _
  obtain ⟨hw, hd⟩ := back_writeBack (m.flushFrameLines f) f
  refine ⟨hf.trans hw, hd, fun hc k hk => hw.lines k ?_⟩
  unfold Mem.flushFrameLines
  extract_lets x
  rw [if_neg (by rw [show x.carved = false from hc]; decide)]
  exact evictLines_find m hk

/-- After a revocation write-back the frames of the lease are clean, and no line of its range stands in L2. -/
theorem back_revokeBack (m : Mem) (l : Lease) : m.Back (m.revokeBack l) ∧ (∀ f, ofLease m l f → ((m.revokeBack l).frame f).dirty = 0)
    ∧ ∀ k, inLease l k → (m.revokeBack l).l2.find k = none := by
  have key : ∀ (fs : List Nat) (n : Mem), n.Back (fs.foldl Mem.backWhole n)
      ∧ ∀ f, (f ∈ fs ∧ (n.frame f).carved = false
          ∨ (n.frame f).dirty = 0 ∧ ∀ k, lineIn 0 (n.frame f).pfn k = true → n.l2.find k = none) →
        ((fs.foldl Mem.backWhole n).frame f).dirty = 0
          ∧ ∀ k, lineIn 0 (n.frame f).pfn k = true → (fs.foldl Mem.backWhole n).l2.find k = none := by
    intro fs
    induction fs with
    | nil => exact fun n => ⟨.refl n, fun f h => h.elim (fun h => nomatch h.1) id⟩
    | cons g fs ih =>
      intro n
      obtain ⟨hb, hd, hl⟩ := back_backWhole n g
      obtain ⟨hr, hc⟩ := ih (n.backWhole g)
      refine ⟨hb.trans hr, fun f h => ?_⟩
      rw [← hb.pfn f]
      refine hc f ?_
      obtain ⟨h, hcar⟩ | ⟨h0, hk⟩ := h
      · obtain rfl | h := List.mem_cons.mp h
        · exact .inr ⟨hd, fun k hk => hl hcar k (by rwa [hb.pfn] at hk)⟩
        · exact .inl ⟨h, by rw [hb.tags f]; exact hcar⟩
      · exact .inr ⟨hb.clean f h0 hk, fun k hk' => hb.lines k (hk k (by rwa [hb.pfn] at hk'))⟩
  unfold Mem.revokeBack
  extract_lets base len n
  obtain ⟨hb, hc⟩ := key (m.framesIn base len) m
  have he := back_evictLines n fun k _ => decide (lineSpace k = 0) && decide (base ≤ lineAddr k) && decide (lineAddr k < base + len)
  refine ⟨hb.trans he, fun f h => ?_, fun k ⟨h0, hlo, hhi⟩ => evictLines_find n ?_⟩
  · obtain ⟨hd, hl⟩ := hc f (.inl ⟨mem_framesIn_of_ofLease h, h.1⟩)
    exact he.clean f hd fun k hk => hl k (by rwa [hb.pfn] at hk)
  · simp only [h0, decide_true, Bool.true_and, Bool.and_eq_true, decide_eq_true_eq]
    exact ⟨hlo, hhi⟩

theorem quiet_revokeBack (m : Mem) (l : Lease) : m.Quiet (m.revokeBack l) := by
  unfold Mem.revokeBack
  extract_lets base len n
  refine .trans (.foldl _ (.refl m) fun n f => ?_) (quiet_evictLines n _)
  exact (quiet_flushFrameLines n f).trans (quiet_writeBack _ _)

end

/-! ## The lease-valid clear (R58) -/

theorem lease_of_leases {m n : Mem} (h : n.leases = m.leases) (k : Nat) : n.lease k = m.lease k :=
  congrArg (fun t => SMap.get ({} : Lease) t k) h

theorem Mem.lease_setLease_ne (m : Mem) {n k : Nat} (l : Lease) (h : k ≠ n) : (m.setLease n l).lease k = m.lease k := SMap.get_put_ne _ _ _ h

/-- A clear that reaches a receiver takes it off the list, and leaves the rest of memory to the lines it writes home. -/
theorem quiet_clearValid (m : Mem) (n r : Nat) :
    (m.setLease n { m.lease n with stale := (m.lease n).stale.filter fun q => decide (q ≠ r) }).Quiet (m.clearValid n r) := by
  unfold Mem.clearValid
  extract_lets l p mine
  split
  · exact .refl p
  · exact .foldl _ (.refl p) fun q i => (quiet_l1Evict q (r - 4) (i.1 % 2 ^ 90)).1

theorem clearValid_lease (m : Mem) (n r : Nat) :
    (m.clearValid n r).lease n = { m.lease n with stale := (m.lease n).stale.filter fun q => decide (q ≠ r) } := by
  rw [lease_of_leases (quiet_clearValid m n r).leases, Mem.lease_setLease_self]

theorem clearValid_lease_ne (m : Mem) {n k : Nat} (r : Nat) (h : k ≠ n) : (m.clearValid n r).lease k = m.lease k := by
  rw [lease_of_leases (quiet_clearValid m n r).leases, Mem.lease_setLease_ne _ _ h]

/-- A core that the clear reaches has no line of the lease in its L1. -/
theorem clearValid_l1 (m : Mem) {n r k : Nat} (hr : 4 ≤ r) (hk : k < 2 ^ 90) (h : inLease (m.lease n) k) :
    (m.clearValid n r).l1.find (l1Key (r - 4) k) = none := by
  obtain ⟨h0, hlo, hhi⟩ := h
  have hdiv : l1Key (r - 4) k / 2 ^ 90 = r - 4 := by unfold l1Key; omega
  have hmod : l1Key (r - 4) k % 2 ^ 90 = k := by unfold l1Key; omega
  unfold Mem.clearValid
  extract_lets l p mine
  rw [if_neg (Nat.not_lt.mpr hr)]
  refine foldl_gone (gone := fun q : Mem => q.l1.find (l1Key (r - 4) k) = none) (here := fun i : Nat × L1Line => i.1 = l1Key (r - 4) k)
    (fun q i h => (quiet_l1Evict q _ _).1.l1 _ h) (fun q i h => ?_) mine p ?_
  · rw [h, hmod]
    exact (quiet_l1Evict q _ _).2
  · cases hf : p.l1.find (l1Key (r - 4) k) with
    | none => exact .inl rfl
    | some x =>
      refine .inr ⟨(l1Key (r - 4) k, x), List.mem_filter.mpr ⟨List.mem_filter.mpr ⟨mem_of_find hf, decide_eq_true hdiv⟩, ?_⟩, rfl⟩
      simp only [hmod, h0, decide_true, Bool.true_and, Bool.and_eq_true, decide_eq_true_eq]
      exact ⟨hlo, hhi⟩

/-- From `m` to `p` clears of lease `n` have reached receivers. -/
structure Mem.Clears (n : Nat) (m p : Mem) : Prop where
  self : p.lease n = { m.lease n with stale := (p.lease n).stale }
  others : ∀ k, k ≠ n → p.lease k = m.lease k
  frames : SMap.sorted m.frames = true → SMap.sorted p.frames = true
  l1 : ∀ i, m.l1.find i = none → p.l1.find i = none

theorem clears_clearValid (m : Mem) (n r : Nat) : m.Clears n (m.clearValid n r) where
  self := by rw [clearValid_lease]
  others _ := clearValid_lease_ne m r
  frames := (quiet_clearValid m n r).frames
  l1 := (quiet_clearValid m n r).l1

theorem Mem.Clears.trans {n : Nat} {m p q : Mem} (h : m.Clears n p) (k : p.Clears n q) : m.Clears n q where
  self := by conv_lhs => rw [k.self, h.self]
  others i hi := (k.others i hi).trans (h.others i hi)
  frames hs := k.frames (h.frames hs)
  l1 i hi := k.l1 i (h.l1 i hi)

theorem clears_foldl (n : Nat) (rs : List Nat) (m : Mem) : m.Clears n (rs.foldl (fun m r => m.clearValid n r) m)
    ∧ ((rs.foldl (fun m r => m.clearValid n r) m).lease n).stale = (m.lease n).stale.filter fun q => decide (q ∉ rs) := by
  induction rs generalizing m with
  | nil => exact ⟨⟨rfl, fun _ _ => rfl, id, fun _ => id⟩, by simp⟩
  | cons r rs ih =>
    obtain ⟨hc, hs⟩ := ih (m.clearValid n r)
    refine ⟨(clears_clearValid m n r).trans hc, hs.trans ?_⟩
    rw [clearValid_lease, List.filter_filter]
    refine List.filter_congr fun q _ => ?_
    rw [← Bool.decide_and]
    exact decide_eq_decide.mpr (by rw [List.mem_cons, not_or, and_comm])

theorem clears_clearAll (m : Mem) (n : Nat) : m.Clears n (m.clearAll n) := (clears_foldl n _ m).1

/-- A clear that has reached every receiver is still on its way to none. -/
theorem clearAll_lease (m : Mem) (n : Nat) : (m.clearAll n).lease n = { m.lease n with stale := [] } := by
  rw [(clears_clearAll m n).self]
  have h : ((m.clearAll n).lease n).stale = [] := by
    unfold Mem.clearAll
    rw [(clears_foldl n _ m).2, List.filter_eq_nil_iff]
    exact fun q hq => by simpa using hq
  rw [h]

theorem clearAll_l1 (m : Mem) {n r k : Nat} (hm : r ∈ (m.lease n).stale) (hr : 4 ≤ r) (hk : k < 2 ^ 90) (h : inLease (m.lease n) k) :
    (m.clearAll n).l1.find (l1Key (r - 4) k) = none := by
  have hin (p : Mem) (q : Nat) (hp : inLease (p.lease n) k) : inLease ((p.clearValid n q).lease n) k := by rw [clearValid_lease]; exact hp
  have hin' (p : Mem) (q : Nat) (hp : inLease ((p.clearValid n q).lease n) k) : inLease (p.lease n) k := by rw [clearValid_lease] at hp; exact hp
  refine foldl_gone (gone := fun p : Mem => inLease (p.lease n) k → p.l1.find (l1Key (r - 4) k) = none) (here := fun q => q = r)
    (fun p q hp hl => (clears_clearValid p n q).l1 _ (hp (hin' p q hl))) (fun p q hq hl => ?_) _ m (.inr ⟨r, hm, rfl⟩) ?_
  · subst hq
    exact clearValid_l1 p hr hk (hin' p q hl)
  · have hc := clears_clearAll m n
    show inLease ((m.clearAll n).lease n) k
    rw [hc.self]
    exact h

theorem ofLease_congr {m n : Mem} {l : Lease} {f : Nat} (hc : (n.frame f).carved = (m.frame f).carved)
    (hv : ((n.frame f).valid || (n.frame f).filling) = ((m.frame f).valid || (m.frame f).filling)) (hp : (n.frame f).pfn = (m.frame f).pfn) :
    ofLease n l f ↔ ofLease m l f := by
  rw [ofLease_iff, ofLease_iff, Frame.holdsIn, Frame.holdsIn, hc, hv, hp]

theorem Mem.Back.ofLease {m n : Mem} (h : m.Back n) (l : Lease) (f : Nat) : ofLease n l f ↔ ofLease m l f := by
  have e := h.tags f
  exact ofLease_congr (by rw [e]) (by rw [e]) (by rw [e])

/-! ## Poisoned frames -/

/-- From `m` to `n` frames are poisoned, and nothing else of the tags changes but a fill that completes. -/
structure Mem.Poisons (m n : Mem) : Prop where
  leases : n.leases = m.leases
  lost : n.lostNodes = m.lostNodes
  frame : ∀ f, n.frame f = m.frame f ∨ (n.frame f).poisoned = true ∧ (n.frame f).dirty = 0 ∧ (n.frame f).carved = (m.frame f).carved
    ∧ ((n.frame f).valid || (n.frame f).filling) = ((m.frame f).valid || (m.frame f).filling) ∧ (n.frame f).pfn = (m.frame f).pfn

theorem Mem.Poisons.refl (m : Mem) : m.Poisons m := ⟨rfl, rfl, fun _ => .inl rfl⟩

theorem Mem.Poisons.trans {m n p : Mem} (h : m.Poisons n) (k : n.Poisons p) : m.Poisons p := by
  refine ⟨k.leases.trans h.leases, k.lost.trans h.lost, fun f => ?_⟩
  obtain hk | ⟨kp, kd, kc, kv, kpf⟩ := k.frame f
  · rw [hk]
    exact h.frame f
  · obtain hh | ⟨-, -, hc, hv, hpf⟩ := h.frame f
    · rw [hh] at kc kv kpf
      exact .inr ⟨kp, kd, kc, kv, kpf⟩
    · exact .inr ⟨kp, kd, kc.trans hc, kv.trans hv, kpf.trans hpf⟩

theorem Mem.Poisons.ofLease {m n : Mem} (h : m.Poisons n) (l : Lease) (f : Nat) : ofLease n l f ↔ ofLease m l f := by
  obtain e | ⟨-, -, hc, hv, hp⟩ := h.frame f
  · exact ofLease_congr (by rw [e]) (by rw [e]) (by rw [e])
  · exact ofLease_congr hc hv hp

theorem Mem.Poisons.keeps {m n : Mem} (h : m.Poisons n) {f : Nat} (hf : (m.frame f).poisoned = true ∧ (m.frame f).dirty = 0) :
    (n.frame f).poisoned = true ∧ (n.frame f).dirty = 0 := by
  obtain e | ⟨hp, hd, -⟩ := h.frame f
  · rw [e]; exact hf
  · exact ⟨hp, hd⟩

theorem Mem.loss_lostNodes (m : Mem) (k : Nat) (c : Option Nat) : (m.loss k c).lostNodes = m.lostNodes := by
  unfold Mem.loss
  split
  · rfl
  · extract_lets i
    split <;> rfl

theorem Mem.discardLines_same (m : Mem) (f : Nat → Bool) :
    (m.discardLines f).frames = m.frames ∧ (m.discardLines f).leases = m.leases ∧ (m.discardLines f).lostNodes = m.lostNodes := by
  unfold Mem.discardLines
  extract_lets gone n
  suffices h : n.frames = m.frames ∧ n.leases = m.leases ∧ n.lostNodes = m.lostNodes from h
  unfold n
  generalize gone = ps
  induction ps generalizing m with
  | nil => exact ⟨rfl, rfl, rfl⟩
  | cons p ps ih =>
    obtain ⟨hf, hl, hn⟩ := ih (m.loss p.1 p.2.owner)
    exact ⟨hf.trans (m.loss_frames _ _), hl.trans (quiet_loss m _ _).leases, hn.trans (m.loss_lostNodes _ _)⟩

theorem fillBytes_frame (m : Mem) (f g : Nat) :
    (m.fillBytes f).frame g = if g = f then { m.frame f with filling := false, refetch := false, valid := true } else m.frame g :=
  Mem.frame_setFrame _ _ _ _

theorem poisons_poison (m : Mem) (f : Nat) : m.Poisons (m.poison f) ∧ ((m.poison f).frame f).poisoned = true ∧ ((m.poison f).frame f).dirty = 0 := by
  unfold Mem.poison
  extract_lets n
  have hl : n.leases = m.leases ∧ n.lostNodes = m.lostNodes := by
    unfold n
    split <;> exact ⟨rfl, rfl⟩
  have hn (g : Nat) (h : g ≠ f) : n.frame g = m.frame g := by
    unfold n
    split
    · rw [fillBytes_frame, if_neg h]
    · rfl
  have hf : (n.frame f).carved = (m.frame f).carved ∧ ((n.frame f).valid || (n.frame f).filling) = ((m.frame f).valid || (m.frame f).filling)
      ∧ (n.frame f).pfn = (m.frame f).pfn := by
    unfold n
    split
    · next h => simp [fillBytes_frame, h]
    · exact ⟨rfl, rfl, rfl⟩
  obtain ⟨dfr, dle, dlo⟩ := n.discardLines_same (lineIn 0 (n.frame f).pfn)
  generalize n.discardLines (lineIn 0 (n.frame f).pfn) = p at dfr dle dlo
  have hp (g : Nat) : p.frame g = n.frame g := congrArg (fun t => SMap.get ({} : Frame) t g) dfr
  have hq (g : Nat) : (p.modFrame f fun x => { x with poisoned := true, dirty := 0, relaying := none }).frame g
      = if g = f then { n.frame f with poisoned := true, dirty := 0, relaying := none } else n.frame g := by
    rw [Mem.modFrame, Mem.frame_setFrame, hp, hp]
  refine ⟨⟨dle.trans hl.1, dlo.trans hl.2, fun g => ?_⟩, ?_⟩
  · rw [hq]
    split
    · next e =>
      subst e
      exact .inr ⟨rfl, rfl, hf⟩
    · next e => exact .inl (hn g e)
  · rw [hq, if_pos rfl]
    exact ⟨rfl, rfl⟩

theorem poisons_foldl (fs : List Nat) (m : Mem) : m.Poisons (fs.foldl Mem.poison m) := by
  induction fs generalizing m with
  | nil => exact .refl m
  | cons f fs ih => exact (poisons_poison m f).1.trans (ih _)

theorem foldl_poison_of_mem (m : Mem) {fs : List Nat} {f : Nat} (h : f ∈ fs) :
    ((fs.foldl Mem.poison m).frame f).poisoned = true ∧ ((fs.foldl Mem.poison m).frame f).dirty = 0 := by
  refine foldl_gone (gone := fun p : Mem => (p.frame f).poisoned = true ∧ (p.frame f).dirty = 0) (here := fun g => g = f)
    (fun p g hp => (poisons_poison p g).1.keeps hp) (fun p g e => ?_) fs m (.inr ⟨f, h, rfl⟩)
  rw [← e]
  exact (poisons_poison p g).2

theorem dirtyFrame_iff {m : Mem} {f : Nat} : m.dirtyFrame f = true
    ↔ (m.frame f).dirty ≠ 0 ∨ ∃ p ∈ m.l2, p.2.dirty = true ∧ lineSpace p.1 = 0 ∧ lineAddr p.1 / 65536 = (m.frame f).pfn := by
  simp only [Mem.dirtyFrame, Bool.or_eq_true, decide_eq_true_eq, List.any_eq_true, Bool.and_eq_true, lineIn_pool]

/-! ## Leases that are lost with their node (R57) -/

/-- The slot of a lease when its node is lost. -/
def Lease.lostAt (x : Lease) (now : W64) : Lease :=
  if x.st = .free then x
  else
    let y := if x.st = .active then { x with stale := List.range 292, cleared := now } else x
    { y with loss := true, st := .lost }

theorem Lease.lostAt_free (x : Lease) (now : W64) : (x.lostAt now).st = .free ↔ x.st = .free := by
  unfold Lease.lostAt
  split
  · exact Iff.rfl
  · next h => exact iff_of_false (by simp) h

theorem Lease.lostAt_idem (x : Lease) (now : W64) : (x.lostAt now).lostAt now = x.lostAt now := by
  unfold Lease.lostAt
  split <;> simp_all

theorem Lease.lostAt_range (x : Lease) (now : W64) : (x.lostAt now).base = x.base ∧ (x.lostAt now).len = x.len := by
  unfold Lease.lostAt
  split
  · exact ⟨rfl, rfl⟩
  · extract_lets y
    unfold y
    split <;> exact ⟨rfl, rfl⟩

/-- A lease that is lost, if it is held. -/
def State.losing (s : State) (i : Nat) : State := (s.loseLease i).getD s

/-- From `s` to `t` leases are lost. -/
structure State.Loses (s t : State) : Prop where
  rest : t = { s with mem := t.mem }
  lost : t.mem.lostNodes = s.mem.lostNodes
  lease : ∀ k, t.mem.lease k = s.mem.lease k ∨ t.mem.lease k = (s.mem.lease k).lostAt s.timeNs
  ofLease : ∀ l f, ofLease t.mem l f ↔ ofLease s.mem l f
  poisoned : ∀ f, (s.mem.frame f).poisoned = true → (t.mem.frame f).poisoned = true

theorem losing_loses (s : State) (i : Nat) : s.Loses (s.losing i) ∧ (s.losing i).mem.lease i = (s.mem.lease i).lostAt s.timeNs
    ∧ (∀ k, k ≠ i → (s.losing i).mem.lease k = s.mem.lease k)
    ∧ ∀ f, (s.mem.lease i).st ≠ .free → ofLease s.mem (s.mem.lease i) f → ((s.losing i).mem.frame f).poisoned = true := by
  unfold State.losing
  by_cases h : (s.mem.lease i).st = .free
  · rw [State.loseLease_free h]
    have hl : (s.mem.lease i).lostAt s.timeNs = s.mem.lease i := if_pos h
    exact ⟨⟨rfl, rfl, fun _ => .inl rfl, fun _ _ => Iff.rfl, fun _ => id⟩, hl.symm, fun _ _ => rfl, fun _ hn => absurd h hn⟩
  · have hp := poisons_foldl (s.mem.framesIn (s.mem.lease i).base.toNat (s.mem.lease i).len.toNat) s.mem
    have hin := fun f hf => (foldl_poison_of_mem s.mem (mem_framesIn_of_ofLease (m := s.mem) (l := s.mem.lease i) (f := f) hf)).1
    unfold State.loseLease
    extract_lets l p
    rw [if_neg h]
    replace hp : s.mem.Poisons p := hp
    replace hin : ∀ f, ofLease s.mem l f → (p.frame f).poisoned = true := hin
    have hself : (p.leaveActive i { l with loss := true } s.timeNs .lost).lease i = l.lostAt s.timeNs := by
      unfold Mem.leaveActive Lease.lostAt
      rw [Mem.lease_setLease_self, if_neg h]
      extract_lets y
      unfold y
      split <;> rfl
    have hother (k : Nat) (hk : k ≠ i) : (p.leaveActive i { l with loss := true } s.timeNs .lost).lease k = s.mem.lease k :=
      (Mem.lease_setLease_ne _ _ hk).trans (lease_of_leases hp.leases k)
    refine ⟨⟨rfl, hp.lost, fun k => ?_, hp.ofLease, fun f hf => ?_⟩, hself, hother, fun f _ => hin f⟩
    · by_cases e : k = i
      · subst e
        exact .inr hself
      · exact .inl (hother k e)
    · show (p.frame f).poisoned = true
      obtain e | ⟨hpo, -⟩ := hp.frame f
      · rw [e]; exact hf
      · exact hpo

theorem State.Loses.refl (s : State) : s.Loses s := ⟨rfl, rfl, fun _ => .inl rfl, fun _ _ => Iff.rfl, fun _ => id⟩

theorem State.Loses.timeNs {s t : State} (h : s.Loses t) : t.timeNs = s.timeNs := by rw [h.rest]

theorem State.Loses.trans {s t u : State} (h : s.Loses t) (k : t.Loses u) : s.Loses u := by
  refine ⟨?_, k.lost.trans h.lost, fun i => ?_, fun l f => (k.ofLease l f).trans (h.ofLease l f), fun f hf => k.poisoned f (h.poisoned f hf)⟩
  · conv_lhs => rw [k.rest, h.rest]
  · have hk := k.lease i
    rw [h.timeNs] at hk
    obtain e | e := h.lease i <;> obtain e' | e' := hk <;> rw [e'] <;> rw [e]
    · exact .inl rfl
    · exact .inr rfl
    · exact .inr rfl
    · exact .inr (Lease.lostAt_idem _ _)

/-- The leases of the slots are lost, each once. -/
theorem losing_foldl (ns : List Nat) (s : State) : s.Loses (ns.foldl State.losing s)
    ∧ ∀ k, (ns.foldl State.losing s).mem.lease k = if k ∈ ns then (s.mem.lease k).lostAt s.timeNs else s.mem.lease k := by
  induction ns generalizing s with
  | nil => exact ⟨.refl s, fun k => (if_neg List.not_mem_nil).symm⟩
  | cons i ns ih =>
    obtain ⟨hi, hself, hother, -⟩ := losing_loses s i
    obtain ⟨hns, hl⟩ := ih (s.losing i)
    refine ⟨hi.trans hns, fun k => (hl k).trans ?_⟩
    rw [hi.timeNs]
    by_cases e : k = i
    · subst e
      rw [hself, Lease.lostAt_idem, ite_self, if_pos List.mem_cons_self]
    · rw [hother k e]
      simp only [List.mem_cons, e, false_or]

theorem losing_foldl_poisoned (s : State) {ns : List Nat} {k f : Nat} (hk : k ∈ ns) (hf : (s.mem.lease k).st ≠ .free)
    (h : ofLease s.mem (s.mem.lease k) f) : ((ns.foldl State.losing s).mem.frame f).poisoned = true := by
  have hback {t u : State} (hl : t.Loses u) : ((u.mem.lease k).st ≠ .free ∧ ofLease u.mem (u.mem.lease k) f)
      ↔ ((t.mem.lease k).st ≠ .free ∧ ofLease t.mem (t.mem.lease k) f) := by
    obtain ⟨hb, hn⟩ := Lease.lostAt_range (t.mem.lease k) t.timeNs
    obtain e | e := hl.lease k
    · rw [e, hl.ofLease]
    · rw [e, hl.ofLease, Ne, Lease.lostAt_free, ofLease, ofLease, hb, hn]
  refine foldl_gone (gone := fun t : State => (t.mem.lease k).st ≠ .free ∧ ofLease t.mem (t.mem.lease k) f → (t.mem.frame f).poisoned = true)
    (here := fun i => i = k) (fun t i ht hu => ?_) (fun t i e hu => ?_) ns s (.inr ⟨k, hk, rfl⟩) ?_
  · exact (losing_loses t i).1.poisoned f (ht ((hback (losing_loses t i).1).mp hu))
  · subst e
    obtain ⟨hl, -, -, hp⟩ := losing_loses t i
    obtain ⟨h1, h2⟩ := (hback hl).mp hu
    exact hp f h1 h2
  · exact (hback (losing_foldl ns s).1).mpr ⟨hf, h⟩

/-! ## The clauses of the lease events -/

section
variable {s : State} {n : Nat}

theorem leaseExpiry_due (h : (s.mem.lease n).st = .active ∧ (s.mem.lease n).expiry.toNat ≤ s.timeNs.toNat) :
    s.expireLease n = ({ s with mem := s.mem.leaveActive n (s.mem.lease n) s.timeNs .expired } : State).leaseRecord (s.mem.lease n) 0x08 :=
  if_pos h

/-- The slot of an ACTIVE or EXPIRED lease after a revocation notice. -/
def Lease.revokingAt (l : Lease) (grace now : W64) : Lease :=
  { (if l.st = .active then { l with stale := List.range 292, cleared := now } else l) with graceEnd := grace, st := .revoking }

theorem revocationNotice_to {g : W64} (h : (s.mem.lease n).st = .active ∨ (s.mem.lease n).st = .expired) :
    exec (.revocationNotice n g) s = .next (State.shaltEvent { s with mem := s.mem.setLease n ((s.mem.lease n).revokingAt g s.timeNs) } 2) := by
  show Host.Outcome.next (((s.revokeLease n g).getD s).shaltEvent 2) = _
  rw [show s.revokeLease n g = some _ from if_pos h]
  unfold Mem.leaveActive Lease.revokingAt
  by_cases ha : (s.mem.lease n).st = .active
  · rw [if_pos ha, if_pos ha]
    rfl
  · rw [if_neg ha, if_neg ha]
    rfl

theorem revocationWritebackDone_to (hr : (s.mem.lease n).st = .revoking) :
    ∃ u : State, exec (.revocationWritebackDone n) s = .next u ∧ u = { s with mem := u.mem }
      ∧ u.mem.lease n = { s.mem.lease n with st := .revoked, stale := [] }
      ∧ (∀ m, m ≠ n → u.mem.lease m = s.mem.lease m) ∧ (∀ f, ofLease u.mem (s.mem.lease n) f → (u.mem.frame f).dirty = 0)
      ∧ (∀ k, inLease (s.mem.lease n) k → u.mem.l2.find k = none)
      ∧ ∀ r k, r ∈ (s.mem.lease n).stale → 4 ≤ r → k < 2 ^ 90 → inLease (s.mem.lease n) k → u.mem.l1.find (l1Key (r - 4) k) = none := by
  have hc := clears_clearAll s.mem n
  have hl := clearAll_lease s.mem n
  have hq := quiet_revokeBack (s.mem.clearAll n) (s.mem.lease n)
  obtain ⟨hb, hd, hk⟩ := back_revokeBack (s.mem.clearAll n) (s.mem.lease n)
  have he : exec (.revocationWritebackDone n) s = .next { s with
      mem := ((s.mem.clearAll n).revokeBack (s.mem.lease n)).setLease n
        { ((s.mem.clearAll n).revokeBack (s.mem.lease n)).lease n with st := .revoked } } := if_pos hr
  generalize (s.mem.clearAll n).revokeBack (s.mem.lease n) = m at hq hb hd hk he
  have hm : m.lease n = { s.mem.lease n with stale := [] } := (lease_of_leases hq.leases n).trans hl
  refine ⟨_, he, rfl, ?_, fun k hkn => ?_, fun f hf => hd f ((hb.ofLease _ f).mp hf), hk, fun r k hr h4 hk' hin =>
    hq.l1 _ (clearAll_l1 s.mem hr h4 hk' hin)⟩
  · exact (Mem.lease_setLease_self _ _ _).trans (by rw [hm])
  · exact (Mem.lease_setLease_ne _ _ hkn).trans ((lease_of_leases hq.leases k).trans (hc.others k hkn))

/-- At the grace end the frames that are still dirty are poisoned, and the lease has lost data where there are some. -/
theorem graceEnd_to (hs : SMap.sorted s.mem.frames = true) (hr : (s.mem.lease n).st = .revoking)
    (hg : (s.mem.lease n).graceEnd.toNat ≤ s.timeNs.toNat) :
    ∃ u : State, exec (.graceEnd n) s = .next u ∧ u = { s with mem := u.mem }
      ∧ (∀ f, ofLease (s.mem.clearAll n) (s.mem.lease n) f → (s.mem.clearAll n).dirtyFrame f = true →
          (u.mem.frame f).poisoned = true ∧ (u.mem.frame f).dirty = 0)
      ∧ (u.mem.lease n).st = .revoked
      ∧ ((u.mem.lease n).loss = true ↔ (s.mem.lease n).loss = true
          ∨ ∃ f, ofLease (s.mem.clearAll n) (s.mem.lease n) f ∧ (s.mem.clearAll n).dirtyFrame f = true) := by
  have hl := clearAll_lease s.mem n
  let m := s.mem.clearAll n
  have hsm : SMap.sorted m.frames = true := (clears_clearAll s.mem n).frames hs
  have hmem (f : Nat) : f ∈ m.leftOf (s.mem.lease n) ↔ ofLease m (s.mem.lease n) f ∧ m.dirtyFrame f = true := by
    rw [Mem.leftOf, List.mem_filter]
    exact and_congr_left fun _ => ⟨ofLease_of_mem_framesIn hsm, mem_framesIn_of_ofLease⟩
  let p := (m.leftOf (s.mem.lease n)).foldl Mem.poison m
  have hp : m.Poisons p := poisons_foldl _ m
  let x : Lease := { p.lease n with st := .revoked, loss := (p.lease n).loss || decide (m.leftOf (s.mem.lease n) ≠ []) }
  have hx : (p.setLease n x).lease n = x := Mem.lease_setLease_self _ _ _
  refine ⟨{ s with mem := p.setLease n x }, if_pos ⟨hr, hg⟩, rfl, fun f hf hd => foldl_poison_of_mem m ((hmem f).mpr ⟨hf, hd⟩), ?_, ?_⟩
  · exact congrArg Lease.st hx
  · have hloss : (p.lease n).loss = (s.mem.lease n).loss := by rw [lease_of_leases hp.leases, show m.lease n = _ from hl]
    show ((p.setLease n x).lease n).loss = true ↔ _
    rw [hx]
    rw [show x.loss = ((p.lease n).loss || decide (m.leftOf (s.mem.lease n) ≠ [])) from rfl, hloss, Bool.or_eq_true, decide_eq_true_eq]
    exact or_congr_right ⟨fun h => (List.exists_mem_of_ne_nil _ h).imp fun f hf => (hmem f).mp hf,
      fun ⟨f, hf⟩ => List.ne_nil_of_mem ((hmem f).mpr hf)⟩

theorem poolNodeLost_to (hs : SMap.sorted s.mem.leases = true) (node : Nat) :
    ∃ u : State, exec (.poolNodeLost node) s = .next (u.shaltEvent 2) ∧ u = { s with mem := u.mem } ∧ node ∈ u.mem.lostNodes
      ∧ (∀ m f, (s.mem.lease m).node.toNat = node → (s.mem.lease m).st ≠ .free → ofLease s.mem (s.mem.lease m) f → (u.mem.frame f).poisoned = true)
      ∧ ∀ m, u.mem.lease m = if (s.mem.lease m).node.toNat = node ∧ (s.mem.lease m).st ≠ .free then (s.mem.lease m).lostAt s.timeNs else s.mem.lease m := by
  let t : State := { s with mem := { s.mem with lostNodes := if s.mem.lostNodes.contains node then s.mem.lostNodes else s.mem.lostNodes ++ [node] } }
  let slots := (s.mem.leases.filter fun p => decide (p.2.node.toNat = node)).map (·.1)
  have hnode : node ∈ t.mem.lostNodes := by
    show node ∈ if s.mem.lostNodes.contains node then s.mem.lostNodes else s.mem.lostNodes ++ [node]
    split
    · next h => exact List.contains_iff_mem.mp h
    · exact List.mem_append_right _ (List.mem_singleton_self _)
  have hin (k : Nat) (h : (s.mem.lease k).node.toNat = node) (hf : (s.mem.lease k).st ≠ .free) : k ∈ slots := by
    have hm : (k, s.mem.lease k) ∈ s.mem.leases := SMap.mem_of_get_ne fun e => hf (congrArg Lease.st e)
    exact List.mem_map.mpr ⟨_, List.mem_filter.mpr ⟨hm, decide_eq_true h⟩, rfl⟩
  have hout (k : Nat) (h : k ∈ slots) : (s.mem.lease k).node.toNat = node := by
    obtain ⟨⟨i, x⟩, hx, rfl⟩ := List.mem_map.mp h
    obtain ⟨hx, hn⟩ := List.mem_filter.mp hx
    rw [show s.mem.lease i = x from SMap.get_of_mem _ hs hx]
    exact of_decide_eq_true hn
  obtain ⟨hl, hlease⟩ := losing_foldl slots t
  refine ⟨slots.foldl State.losing t, rfl, ?_, ?_, fun k f hn hf ho => losing_foldl_poisoned t (hin k hn hf) hf ho, fun k => (hlease k).trans ?_⟩
  · exact hl.rest
  · rw [hl.lost]
    exact hnode
  · show (if k ∈ slots then (s.mem.lease k).lostAt s.timeNs else s.mem.lease k) = _
    by_cases hf : (s.mem.lease k).st = .free
    · rw [show (s.mem.lease k).lostAt s.timeNs = s.mem.lease k from if_pos hf, ite_self, ite_self]
    · exact if_congr ⟨fun h => ⟨hout k h, hf⟩, fun h => hin k h.1 h.2⟩ rfl rfl

theorem leaseValidClear_to {r : Nat} (h : r ∈ (s.mem.lease n).stale) : exec (.leaseValidClear n r) s = .next { s with mem := s.mem.clearValid n r } :=
  congrArg Host.Outcome.next (if_pos (List.contains_iff_mem.mpr h))

theorem leaseValidClear_done {r : Nat} (h : r ∉ (s.mem.lease n).stale) : exec (.leaseValidClear n r) s = .next s :=
  congrArg Host.Outcome.next (if_neg fun h' => h (List.contains_iff_mem.mp h'))

end

/-! ## ATS invalidations (R80) -/

theorem completeInvals_of_ne (h : HostLink) (hne : h.invals ≠ []) : h.completeInvals =
    { h with invals := h.invals.filter fun i => !i.tags.all h.reached,
             completed := h.completed ++ (h.invals.filter fun i => i.tags.all h.reached).map fun i => (i.pasid, i.page, i.bytes) } := if_neg hne

theorem atsInvalidation_to (s : State) (pasid page bytes : Nat) : ∃ u : State, exec (.atsInvalidation pasid page bytes) s = .next u
    ∧ u = { s with mem := { s.mem with tlb := u.mem.tlb, atc := u.mem.atc }, host := u.host }
    ∧ (∃ tags : List Nat,
        (∀ t, t ∈ tags ↔ ∃ r, (t, r) ∈ s.host.reqs ∧ s.host.reached t = false ∧ r.kind ≠ .ats ∧ r.kind ≠ .pri
          ∧ ∃ e ∈ s.mem.atc, (e.pasid = pasid ∧ e.page * 4096 < page * 4096 + bytes ∧ page * 4096 < e.page * 4096 + e.bytes)
            ∧ e.ans.hpage * 4096 ≤ r.addr ∧ r.addr < e.ans.hpage * 4096 + e.bytes)
        ∧ let all := s.host.invals ++ [{ pasid := pasid, page := page, bytes := bytes, tags := tags }]
          let sent := fun (i : Inval) => i.tags.all s.host.reached
          u.host = { s.host with invals := all.filter (fun i => !sent i),
                                 completed := s.host.completed ++ (all.filter sent).map fun i => (i.pasid, i.page, i.bytes) })
    ∧ (∀ e, e ∈ u.mem.atc ↔ e ∈ s.mem.atc ∧ ¬(e.pasid = pasid ∧ e.page * 4096 < page * 4096 + bytes ∧ page * 4096 < e.page * 4096 + e.bytes))
    ∧ ∀ e, e ∈ u.mem.tlb ↔ e ∈ s.mem.tlb ∧ ¬(e.leaf.space = 1 ∧ (s.context e.ctx).pasid = pasid ∧ e.page < page * 4096 + bytes
        ∧ page * 4096 < e.page + pageBytes e.leaf.size) := by
  refine ⟨_, rfl, rfl, ⟨_, fun t => ?_, completeInvals_of_ne _ (List.append_ne_nil_of_right_ne_nil _ (List.cons_ne_nil _ _))⟩, fun e => ?_, fun e => ?_⟩
  · simp only [List.mem_map, List.mem_filter, Bool.and_eq_true, Bool.not_eq_true', decide_eq_true_eq, List.any_eq_true, Prod.exists, and_assoc]
    constructor
    · rintro ⟨_, r, hr, hn, ha, hp, he, rfl⟩
      exact ⟨r, hr, hn, ha, hp, he⟩
    · rintro ⟨r, hr, hn, ha, hp, he⟩
      exact ⟨t, r, hr, hn, ha, hp, he, rfl⟩
  · simp only [List.mem_filter, Bool.not_eq_true', Bool.and_eq_false_iff, decide_eq_false_iff_not, not_and_or]
  · simp only [List.mem_filter, Bool.not_eq_true', Bool.and_eq_false_iff, decide_eq_false_iff_not, not_and_or, or_assoc]

/-! ## Records and what SHALT sees -/

theorem postRecord_put {s : State} (hw : s.pager.waiting = []) (hu : s.pager.used < 4096) (r : List W64) : s.postRecord r = s.putRecord r :=
  if_pos ⟨hw, hu⟩

theorem putRecord_written {s u : State} {r : List W64} {e : ERes}
    (h : s.engWrite sysAcc .engine (s.pager.base + BitVec.ofNat 64 (32 * (s.pager.put.toNat % 4096))) (wordBytes r) = (e, u)) :
    (e ≠ .wait → s.putRecord r = ({ u with pager := { u.pager with put := u.pager.put + 1 } } : State).shaltEvent 1)
      ∧ (e = .wait → s.putRecord r = { u with pager := { u.pager with waiting := r :: u.pager.waiting } }) := by
  unfold State.putRecord
  extract_lets p
  rw [h]
  cases e with
  | ok b => exact ⟨fun _ => rfl, nofun⟩
  | fault c => exact ⟨fun _ => rfl, nofun⟩
  | wait => exact ⟨fun h => absurd rfl h, fun _ => rfl⟩

theorem find_mapVal {α β : Type} (m : SMap α) (f : α → β) (k : Nat) : SMap.find (m.map fun p => (p.1, f p.2)) k = (m.find k).map f := by
  induction m with
  | nil => rfl
  | cons p m ih =>
    simp only [List.map_cons, SMap.find]
    split
    · rfl
    · exact ih

theorem shaltSee_eq (w : SWait) (now : W64) (bit : Nat) : w.shaltSee now bit = { w with seen := (w.shaltSee now bit).seen } := by
  unfold SWait.shaltSee
  split
  · split <;> rfl
  · rfl

theorem shaltSee_shalt {w : SWait} {now due : W64} {a d : BitVec 6} (bit : Nat) (hi : w.instr = .shalt a d) (ha : w.aux = [due])
    (hd : due = 0 ∨ now.toNat < due.toNat) : (w.shaltSee now bit).seen = w.seen ||| (1#64 <<< bit) := by
  unfold SWait.shaltSee
  rw [hi, ha]
  exact congrArg SWait.seen (if_neg fun h => hd.elim h.1 (Nat.not_lt.mpr h.2))

theorem shaltSee_other {w : SWait} (now : W64) (bit : Nat) (hi : ∀ a d, w.instr ≠ .shalt a d) : w.shaltSee now bit = w := by
  unfold SWait.shaltSee
  split
  · next a d _ h _ => exact absurd h (hi a d)
  · rfl

theorem shaltEvent_find (s : State) (bit g : Nat) : (s.shaltEvent bit).groups.find g
    = (s.groups.find g).map fun x => { x with swait := x.swait.map fun w => w.shaltSee s.timeNs bit } := by
  unfold State.shaltEvent
  extract_lets see
  exact find_mapVal s.groups see g

/-- Settles O39: the clears, write-backs and poisonings of a lease, each by what one step of it does to the tags. -/
theorem leaseEvents : Obligations.LeaseEvents := by
  unfold Obligations.LeaseEvents
  intro s n hls hfs l now put record left only
  refine ⟨fun ha he => ?_, fun h => ?_, fun ha hw he hd => ?_, fun h => ?_, fun g => ⟨fun h => ?_, fun h => ?_⟩, revocationWritebackDone_to,
    fun hr hg => ?_, fun node => ?_, fun r hr => ?_, fun r hr => leaseValidClear_done hr, rfl, fun p q b => atsInvalidation_to s p q b,
    fun r e u hw hu h => ?_, fun r h => ?_, fun bit => ?_⟩
  · show Host.Outcome.next (s.expireLease n) = _
    rw [leaseExpiry_due ⟨ha, he⟩]
    rfl
  · exact congrArg Host.Outcome.next (if_neg h)
  · exact if_pos ⟨ha, hw, he, by rw [show (s.mem.lease n).dueSent = false from hd]; rfl⟩
  · exact if_neg fun ⟨h1, h2, h3, h4⟩ => h ⟨h1, h2, h3, by simpa using h4⟩
  · exact revocationNotice_to h
  · show Host.Outcome.next (((s.revokeLease n g).getD s).shaltEvent 2) = _
    rw [State.revokeLease_other h]
    rfl
  · obtain ⟨u, he, ho, hp, hst, hloss⟩ := graceEnd_to hfs hr hg
    simp only [dirtyFrame_iff] at hp hloss
    exact ⟨u, he, ho, hp, hst, hloss⟩
  · obtain ⟨u, he, ho, hm, hp, hl⟩ := poolNodeLost_to hls node
    refine ⟨u, he, ho, hm, hp, fun m => (hl m).trans ?_⟩
    extract_lets x y
    split
    · next h => exact if_neg h.2
    · rfl
  · refine ⟨_, leaseValidClear_to hr, rfl, ?_, fun h4 k hk hin => clearValid_l1 s.mem h4 hk hin⟩
    show ((s.mem.clearValid n r).lease n).stale = _
    rw [clearValid_lease]
  · rw [postRecord_put hw hu]
    exact putRecord_written h
  · exact if_neg fun ⟨h1, h2⟩ => h.elim (fun h => h h1) fun h => absurd h2 (Nat.not_lt.mpr h)
  · refine ⟨rfl, fun g x hx => ?_⟩
    refine ⟨{ x with swait := x.swait.map fun w => w.shaltSee s.timeNs bit }, ?_, rfl, fun w hw => ⟨w.shaltSee s.timeNs bit, ?_, shaltSee_eq _ _ _,
      fun a d due hi ha hd => shaltSee_shalt bit hi ha hd, fun hi => ?_⟩⟩
    · exact (shaltEvent_find s bit g).trans (congrArg (Option.map _) hx)
    · show Option.map _ x.swait = _
      rw [hw]
      rfl
    · rw [shaltSee_other _ _ hi]

end Sys2Proof.Machine
end

section
/-! PROOFS. The page-cache events (R64, R88, R89, R90, R94, R95, R99). -/

namespace Sys2Proof.SMap

/-- What stands at a place after a paste of entries that are moved together. -/
theorem find_paste {α : Type} {lo hi : Nat} {src : SMap α} (dst : SMap α) (hs : sorted src = true) (hlo : ∀ p ∈ src, lo ≤ p.1) (a : Nat) :
    find (paste (fun k => k - lo + hi) src dst) a = (if hi ≤ a then find src (a - hi + lo) else none).or (find dst a) := by
  induction src generalizing dst with
  | nil => simp [paste, find]
  | cons p src ih =>
    obtain ⟨k, v⟩ := p
    obtain ⟨ha, hs⟩ := sorted_cons.mp hs
    have hk : lo ≤ k := hlo (k, v) List.mem_cons_self
    rw [paste, ih _ hs fun q hq => hlo q (List.mem_cons_of_mem _ hq)]
    by_cases e : a = k - lo + hi
    · have hk' : a - hi + lo = k := by omega
      have hnone : find src k = none := by
        cases hf : find src k with
        | none => rfl
        | some w => exact absurd (ha _ (Machine.mem_of_find hf)) (Nat.lt_irrefl k)
      rw [hk', hnone, ite_self, Option.none_or, if_pos (by omega : hi ≤ a), find, if_pos rfl, Option.some_or, find_insert, if_pos e]
    · rw [find_insert_ne _ _ e]
      congr 1
      refine if_ctx_congr Iff.rfl (fun h => ?_) fun _ => rfl
      rw [find, if_neg (by omega)]

end Sys2Proof.SMap

namespace Sys2Proof.Machine

/-- The bytes of one store after a range of another's has been copied in. -/
theorem get_copyBytes {src : SMap Byte} (dst : SMap Byte) (hs : SMap.sorted src = true) (lo hi n a : Nat) :
    SMap.get 0 (copyBytes src dst lo hi n) a = if hi ≤ a ∧ a < hi + n then SMap.get 0 src (a - hi + lo) else SMap.get 0 dst a := by
  have hsl : ∀ k, (src.slice lo n).find k = if decide (lo ≤ k) && decide (k < lo + n) then src.find k else none :=
    SMap.find_filter (fun k => decide (lo ≤ k) && decide (k < lo + n)) src
  have hdr : ∀ k, (dst.drop hi n).find k = if !(decide (hi ≤ k) && decide (k < hi + n)) then dst.find k else none :=
    SMap.find_filter (fun k => !(decide (hi ≤ k) && decide (k < hi + n))) dst
  have hge (p : Nat × Byte) (hp : p ∈ src.slice lo n) : lo ≤ p.1 :=
    of_decide_eq_true (Bool.and_eq_true_iff.mp (List.mem_filter.mp hp).2).1
  unfold SMap.get copyBytes
  rw [SMap.find_paste (src := src.slice lo n) _ (SMap.sorted_filter hs) hge, hsl, hdr]
  by_cases h : hi ≤ a ∧ a < hi + n
  · have h1 : lo ≤ a - hi + lo ∧ a - hi + lo < lo + n := by omega
    simp [h, h1]
  · rw [if_neg h]
    by_cases h1 : hi ≤ a
    · have h2 : ¬a - hi + lo < lo + n := by omega
      have h3 : ¬a < hi + n := fun h4 => h ⟨h1, h4⟩
      simp [h1, h2, h3]
    · simp [h1]

/-! ## The loads that wait for a frame -/

/-- A far result waits for a frame. -/
def Far.waitsFor (r : Far) (f : Nat) : Prop := ∃ k key off n e p, r.src = .fill f k key off n e p

theorem waitsFrame_iff {g : Group} {f : Nat} : g.waitsFrame f = true ↔ ∃ r ∈ g.far, r.waitsFor f := by
  unfold Group.waitsFrame Far.waitsFor
  rw [List.any_eq_true]
  refine exists_congr fun r => and_congr_right fun _ => ?_
  split
  · next g k key off n e p h =>
    rw [h, decide_eq_true_eq]
    exact ⟨fun e => ⟨_, _, _, _, _, _, by rw [e]⟩, fun ⟨_, _, _, _, _, _, e⟩ => (FarSrc.fill.inj e).1⟩
  · next h => exact iff_of_false nofun fun ⟨k, key, off, n, e, p, he⟩ => h _ _ _ _ _ _ _ he

/-- A load that is served waits for the frame no more; only memory changes. -/
theorem fillDone_done (s : State) (gid f : Nat) (r : Far) :
    ¬(s.fillDone gid f r).1.waitsFor f ∧ (s.fillDone gid f r).2 = { s with mem := (s.fillDone gid f r).2.mem } := by
  unfold State.fillDone
  split
  · next g k key off n e p h =>
    split
    · next hne => exact ⟨fun ⟨_, _, _, _, _, _, he⟩ => hne (FarSrc.fill.inj (h.symm.trans he)).1, rfl⟩
    · extract_lets core m d
      refine ⟨fun ⟨_, _, _, _, _, _, he⟩ => (nomatch he), ?_⟩
      unfold State.keepLine
      split <;> rfl
  · next h => exact ⟨fun ⟨_, _, _, _, _, _, he⟩ => h _ _ _ _ _ _ _ he, rfl⟩

theorem fillGroup_done (s : State) (gid f : Nat) : (∀ r ∈ ((s.fillGroup gid f).group gid).far, ¬r.waitsFor f)
    ∧ (∀ g, g ≠ gid → (s.fillGroup gid f).group g = s.group g) ∧ (SMap.sorted s.groups = true → SMap.sorted (s.fillGroup gid f).groups = true) := by
  have key : ∀ (rs : List Far) (a : List Far × State), (∀ r ∈ a.1, ¬r.waitsFor f) → a.2.groups = s.groups →
      (∀ r ∈ (rs.foldl (fun (a : List Far × State) x => let q := a.2.fillDone gid f x; (a.1 ++ [q.1], q.2)) a).1, ¬r.waitsFor f)
        ∧ (rs.foldl (fun (a : List Far × State) x => let q := a.2.fillDone gid f x; (a.1 ++ [q.1], q.2)) a).2.groups = s.groups := by
    intro rs
    induction rs with
    | nil => exact fun a h hg => ⟨h, hg⟩
    | cons x rs ih =>
      intro a h hg
      obtain ⟨hw, he⟩ := fillDone_done a.2 gid f x
      refine ih _ (fun r hr => ?_) ?_
      · obtain hr | hr := List.mem_append.mp hr
        · exact h r hr
        · rw [List.mem_singleton.mp hr]
          exact hw
      · show (a.2.fillDone gid f x).2.groups = _
        rw [he]
        exact hg
  obtain ⟨hf, hg⟩ := key (s.group gid).far ([], s) nofun rfl
  unfold State.fillGroup
  extract_lets r
  have hr (g : Nat) : r.2.group g = s.group g := congrArg (fun t => SMap.get ({} : Group) t g) hg
  unfold State.modGroup
  refine ⟨?_, fun g hne => ?_, fun hs => ?_⟩
  · rw [State.group_setGroup_self]
    exact hf
  · rw [State.group_setGroup, if_neg hne, hr]
  · exact SMap.sorted_insert (hg ▸ hs)

/-- A frame that nothing waits for. -/
def State.Idle (s : State) (f : Nat) : Prop := ∀ p ∈ s.groups, ∀ r ∈ p.2.far, ¬r.waitsFor f

theorem frameReady_of_idle {s : State} {f : Nat} (h : s.Idle f) : s.frameReady f = s := by
  unfold State.frameReady
  rw [List.filter_eq_nil_iff.mpr fun p hp hw => ?_]
  · rfl
  · obtain ⟨r, hr, hw⟩ := waitsFrame_iff.mp hw
    exact h p hp r hr hw

/-- The loads that wait for a frame are all served. -/
theorem frameReady_idle {s : State} (hs : SMap.sorted s.groups = true) (f : Nat) : (s.frameReady f).Idle f := by
  have hgone (gid : Nat) : ∀ r ∈ ((s.frameReady f).group gid).far, ¬r.waitsFor f := by
    refine foldl_gone (gone := fun t : State => ∀ r ∈ (t.group gid).far, ¬r.waitsFor f) (here := fun p : Nat × Group => p.1 = gid)
      (fun t p ht => ?_) (fun t p e => ?_) _ s ?_
    · by_cases e : gid = p.1
      · rw [e]
        exact (fillGroup_done t p.1 f).1
      · rw [(fillGroup_done t p.1 f).2.1 gid e]
        exact ht
    · rw [← e]
      exact (fillGroup_done t p.1 f).1
    · cases hf : s.groups.find gid with
      | none =>
        rw [show s.group gid = {} from by simp [State.group, SMap.get, hf]]
        exact .inl nofun
      | some g =>
        rw [show s.group gid = g from by simp [State.group, SMap.get, hf]]
        cases hw : g.waitsFrame f
        · exact .inl fun r hr h => by rw [waitsFrame_iff.mpr ⟨r, hr, h⟩] at hw; cases hw
        · exact .inr ⟨(gid, g), List.mem_filter.mpr ⟨mem_of_find hf, hw⟩, rfl⟩
  have hsorted : SMap.sorted (s.frameReady f).groups = true := by
    unfold State.frameReady
    generalize s.groups.filter _ = ps
    clear hgone
    induction ps generalizing s with
    | nil => exact hs
    | cons p ps ih => exact ih ((fillGroup_done s p.1 f).2.2 hs)
  intro p hp
  rw [← show (s.frameReady f).group p.1 = p.2 from SMap.get_of_mem _ hsorted hp]
  exact hgone p.1

/-! ## What the events do to a frame -/

theorem writeBack_frame (m : Mem) (f g : Nat) : (m.writeBack f).frame g = if g = f then { m.frame f with dirty := 0 } else m.frame g := by
  unfold Mem.writeBack
  extract_lets dirty
  have h (g : Nat) : (dirty.foldl (fun m u => m.unitBack f u) m).frame g = m.frame g :=
    congrArg (fun t => SMap.get ({} : Frame) t g) (foldl_frames (fun m u => m.unitBack f u) (fun _ _ => rfl) dirty m)
  rw [Mem.modFrame, Mem.frame_setFrame, h, h]

/-- A frame after its relayout: in the new layout, and clean where the pool takes its writes. -/
theorem relaid_frame {m : Mem} {f lay : Nat} (h : (m.frame f).relaying = some lay) (g : Nat) : (m.relaid f).frame g
    = if g = f then { m.frame f with
        layout := lay, relaying := none
        dirty := if (m.frame f).carved || (m.frame f).poisoned || !m.writable ((m.frame f).pfn * 65536) then (m.frame f).dirty else 0 }
      else m.frame g := by
  unfold Mem.relaid
  extract_lets x
  rw [show x.relaying = some lay from h]
  show (Mem.modFrame _ f _).frame g = _
  rw [Mem.modFrame, Mem.frame_setFrame]
  split
  · split
    · rfl
    · rw [writeBack_frame, if_pos rfl]
  · next hg =>
    split
    · rfl
    · rw [writeBack_frame, if_neg hg]

theorem relaid_none {m : Mem} {f : Nat} (h : (m.frame f).relaying = none) : m.relaid f = m := by
  unfold Mem.relaid
  extract_lets x
  rw [show x.relaying = none from h]

/-- A fill that is not followed by a relayout. -/
theorem settle_filling {m : Mem} {f : Nat} (h : (m.frame f).filling = true) (hr : (m.frame f).relaying = none) : m.settle f = m.fillBytes f := by
  unfold Mem.settle
  rw [if_pos h]
  refine relaid_none ?_
  rw [fillBytes_frame, if_pos rfl]
  exact hr

theorem settle_standing {m : Mem} {f : Nat} (h : (m.frame f).filling = false) : m.settle f = m.relaid f := by
  unfold Mem.settle
  rw [if_neg (by rw [h]; decide)]

/-- The bytes of HBM after a fill. -/
theorem fillBytes_hbm (m : Mem) (f a : Nat) (hs : SMap.sorted m.pool = true) : SMap.get 0 (m.fillBytes f).hbm a
    = if a / 65536 = f then SMap.get 0 m.pool ((m.frame f).pfn * 65536 + a % 65536) else SMap.get 0 m.hbm a := by
  refine (get_copyBytes m.hbm hs _ _ _ a).trans ?_
  by_cases h : a / 65536 = f
  · rw [if_pos h, if_pos (by omega)]
    congr 1
    omega
  · rw [if_neg h, if_neg (by omega)]

section
variable {s : State} {f : Nat}

theorem frameFillComplete_settles (h : (s.mem.frame f).filling = true) :
    exec (.frameFillComplete f) s = .next (({ s with mem := s.mem.settle f } : State).frameReady f) := if_pos h

theorem frameFillComplete_standing (hf : (s.mem.frame f).filling = false) (hr : (s.mem.frame f).relaying = none) :
    exec (.frameFillComplete f) s = .next (s.frameReady f) := (if_neg (by rw [hf]; decide)).trans (if_pos hr)

theorem frameFillComplete_relaying (hf : (s.mem.frame f).filling = false) (hr : (s.mem.frame f).relaying ≠ none) :
    exec (.frameFillComplete f) s = .next s := (if_neg (by rw [hf]; decide)).trans (if_neg hr)

theorem relayoutComplete_settles {lay : Nat} (hr : (s.mem.frame f).relaying = some lay) (hf : (s.mem.frame f).filling = false) :
    exec (.relayoutComplete f) s = .next (({ s with mem := s.mem.relaid f } : State).frameReady f) := by
  rw [← settle_standing hf]
  exact if_pos ⟨by rw [hr]; nofun, by rw [hf]; rfl⟩

theorem relayoutComplete_idle (h : (s.mem.frame f).relaying = none ∨ (s.mem.frame f).filling = true) : exec (.relayoutComplete f) s = .next s :=
  if_neg fun ⟨hr, hf⟩ => h.elim hr fun h => by rw [h] at hf; cases hf

end

/-! ## A halving of the counters (R89) -/

/-- A frame with half its count. -/
def Frame.halved (x : Frame) : Frame := { x with counter := x.counter / 2 }

theorem halved_frame (m : Mem) (n g : Nat) : ({ m with frames := m.frames.map fun p => (p.1, p.2.halved), halvings := n } : Mem).frame g
    = (m.frame g).halved := by
  show ((SMap.find (m.frames.map fun p => (p.1, p.2.halved)) g).getD {}) = _
  rw [find_mapVal]
  unfold Mem.frame SMap.get
  cases m.frames.find g <;> rfl

/-! ## A snoop (R64) -/

theorem l1Key_line {c k : Nat} (hk : k < 2 ^ 90) : l1Key c k % 2 ^ 90 = k := by
  unfold l1Key
  omega

theorem find_filter_none {α : Type} (g : Nat → Bool) (m : SMap α) {k : Nat} (h : g k = true) : SMap.find (m.filter fun p => !g p.1) k = none := by
  rw [SMap.find_filter (fun k => !g k)]
  exact if_neg (by rw [h]; decide)

/-- No line of a pool frame stands in L2 or in an L1. -/
def Mem.NoLines (m : Mem) (pfn : Nat) : Prop :=
  ∀ k, lineSpace k = 0 → lineAddr k / 65536 = pfn → m.l2.find k = none ∧ ∀ c, k < 2 ^ 90 → m.l1.find (l1Key c k) = none

theorem Mem.loss_to (m : Mem) (k : Nat) (c : Option Nat) : ∃ t, m.loss k c = { m with l1 := t } := by
  unfold Mem.loss
  split
  · exact ⟨m.l1, rfl⟩
  · extract_lets i
    split
    · exact ⟨_, rfl⟩
    · exact ⟨m.l1, rfl⟩

/-- Lines that are discarded leave L2, and owned bits leave the L1s. -/
theorem discardLines_to (m : Mem) (f : Nat → Bool) : ∃ t, m.discardLines f = { m with l1 := t, l2 := m.l2.filter fun p => !f p.1 } := by
  have key : ∀ (ps : SMap L2Line) (n : Mem), ∃ t, ps.foldl (fun m p => m.loss p.1 p.2.owner) n = { n with l1 := t } := by
    intro ps
    induction ps with
    | nil => exact fun n => ⟨n.l1, rfl⟩
    | cons p ps ih =>
      intro n
      obtain ⟨t, ht⟩ := n.loss_to p.1 p.2.owner
      obtain ⟨u, hu⟩ := ih { n with l1 := t }
      exact ⟨u, by rw [List.foldl_cons, ht, hu]⟩
  unfold Mem.discardLines
  extract_lets gone n
  obtain ⟨t, ht⟩ := key gone m
  refine ⟨t, ?_⟩
  rw [show n = { m with l1 := t } from ht]

/-- A pool frame's lines that are dropped leave L2 and the L1s, and nothing else changes. -/
theorem dropLines_to (m : Mem) (pfn : Nat) : ∃ t : SMap L1Line, m.dropLines pfn
    = { m with l1 := t.filter fun p => !lineIn 0 pfn (p.1 % 2 ^ 90), l2 := m.l2.filter fun p => !lineIn 0 pfn p.1 } := by
  obtain ⟨t, ht⟩ := discardLines_to m (lineIn 0 pfn)
  refine ⟨t, ?_⟩
  unfold Mem.dropLines
  rw [ht]

theorem dropFrame_eq (m : Mem) (f : Nat) : m.dropFrame f = ((m.dropLines (m.frame f).pfn).wipe f).setFrame f {} := rfl

/-- A frame that is dropped is invalid and its bytes are gone. -/
theorem dropFrame_to (m : Mem) (f : Nat) : ∃ t u, m.dropFrame f = ({ m with l1 := t, l2 := u }.wipe f).setFrame f {} := by
  obtain ⟨t, h⟩ := dropLines_to m (m.frame f).pfn
  exact ⟨_, _, by rw [dropFrame_eq, h]⟩

theorem dropLines_noLines (m : Mem) (pfn : Nat) : (m.dropLines pfn).NoLines pfn := by
  intro k h0 ha
  have hk : lineIn 0 pfn k = true := lineIn_pool.mpr ⟨h0, ha⟩
  obtain ⟨t, ht⟩ := dropLines_to m pfn
  rw [ht]
  refine ⟨find_filter_none (lineIn 0 pfn) m.l2 hk, fun c hc => ?_⟩
  exact find_filter_none (fun i => lineIn 0 pfn (i % 2 ^ 90)) _ (by rw [l1Key_line hc]; exact hk)

theorem dropFrame_noLines (m : Mem) (f : Nat) : (m.dropFrame f).NoLines (m.frame f).pfn := dropLines_noLines m (m.frame f).pfn

theorem backInvalidationSnoop_filling {s : State} {a g : Nat} (h : s.mem.hit (a / 65536) = some g) (hf : (s.mem.frame g).filling = true) :
    exec (.backInvalidationSnoop a) s
      = .next { s with mem := (s.mem.dropLines (a / 65536)).modFrame g fun x => { x with refetch := true } } := by
  show execBackInvalidationSnoop a s = _
  unfold execBackInvalidationSnoop
  extract_lets m
  rw [h]
  exact if_pos hf

theorem backInvalidationSnoop_standing {s : State} {a g : Nat} (h : s.mem.hit (a / 65536) = some g) (hf : (s.mem.frame g).filling = false) :
    exec (.backInvalidationSnoop a) s = .next { s with mem := s.mem.dropFrame g } := by
  show execBackInvalidationSnoop a s = _
  unfold execBackInvalidationSnoop
  extract_lets m
  rw [h]
  exact if_neg (by rw [hf]; decide)

theorem backInvalidationSnoop_miss {s : State} {a : Nat} (h : s.mem.hit (a / 65536) = none) :
    exec (.backInvalidationSnoop a) s = .next { s with mem := s.mem.dropLines (a / 65536) } := by
  show execBackInvalidationSnoop a s = _
  unfold execBackInvalidationSnoop
  extract_lets m
  rw [h]

/-! ## Springbok (R99) -/

/-- A group that is served before another: of a higher priority, or of the same and earlier. -/
theorem springFirst_iff {m : Mem} {slot : Nat} {x : Spring} :
    (m.spring.any fun p => p.2.live && decide (p.2.next < p.2.total) && decide (p.1 ≠ slot)
        && (decide (x.prio < p.2.prio) || (decide (x.prio = p.2.prio) && decide (p.2.order < x.order)))) = false
      ↔ ∀ p ∈ m.spring, p.2.live = true → p.2.next < p.2.total → p.1 ≠ slot → ¬(x.prio < p.2.prio ∨ p.2.prio = x.prio ∧ p.2.order < x.order) := by
  rw [List.any_eq_false]
  refine forall₂_congr fun p _ => ?_
  simp only [Bool.and_eq_true, Bool.or_eq_true, decide_eq_true_eq, not_and, and_imp, eq_comm (a := x.prio)]

theorem springbokFill_waits {s : State} {slot : Nat}
    (h : ¬((SMap.get ({} : Spring) s.mem.spring slot).live = true
      ∧ (SMap.get ({} : Spring) s.mem.spring slot).next < (SMap.get ({} : Spring) s.mem.spring slot).total
      ∧ ∀ p ∈ s.mem.spring, p.2.live = true → p.2.next < p.2.total → p.1 ≠ slot →
        ¬((SMap.get ({} : Spring) s.mem.spring slot).prio < p.2.prio ∨ p.2.prio = (SMap.get ({} : Spring) s.mem.spring slot).prio
          ∧ p.2.order < (SMap.get ({} : Spring) s.mem.spring slot).order))) :
    exec (.springbokFill slot) s = .next s := by
  rw [← springFirst_iff] at h
  refine congrArg Host.Outcome.next (if_pos ?_)
  by_contra hn
  simp only [Bool.or_eq_true, Bool.not_eq_true', decide_eq_true_eq, not_or, Bool.not_eq_false, Nat.not_le, Bool.not_eq_true] at hn
  exact h ⟨hn.1.1, hn.1.2, hn.2⟩

theorem springbokFill_looks {s : State} {slot : Nat} (hl : (SMap.get ({} : Spring) s.mem.spring slot).live = true)
    (hn : (SMap.get ({} : Spring) s.mem.spring slot).next < (SMap.get ({} : Spring) s.mem.spring slot).total)
    (hf : ∀ p ∈ s.mem.spring, p.2.live = true → p.2.next < p.2.total → p.1 ≠ slot →
      ¬((SMap.get ({} : Spring) s.mem.spring slot).prio < p.2.prio ∨ p.2.prio = (SMap.get ({} : Spring) s.mem.spring slot).prio
        ∧ p.2.order < (SMap.get ({} : Spring) s.mem.spring slot).order)) :
    exec (.springbokFill slot) s = .next (s.springFrame slot (SMap.get {} s.mem.spring slot)) := by
  refine congrArg Host.Outcome.next (if_neg ?_)
  rw [springFirst_iff.mpr hf, hl, decide_eq_false (Nat.not_le.mpr hn)]
  decide

section
variable {s v : State} {slot : Nat} {g : Spring}

/-- A group that has looked at one more frame. -/
def Mem.looked (m : Mem) (slot : Nat) (g : Spring) (skip : Nat) : Mem :=
  { m with spring := m.spring.insert slot { g with next := g.next + 1, skipped := g.skipped + skip } }

theorem springFrame_nowhere (h : s.springAt g g.next = (none, v)) : s.springFrame slot g = { v with mem := v.mem.looked slot g 0 } := by
  unfold State.springFrame
  extract_lets init done up
  rw [h]
  rfl

variable {lf : Leaf} {a k : Nat} {le : Lease} (h : s.springAt g g.next = (some (lf, a), v)) (h0 : lf.space = 0) (hnc : lf.nc = false)
  (hl : v.mem.leaseAt a = some (k, le)) (ha : le.st = .active) (ht : v.timeNs.toNat < le.expiry.toNat)
include h h0 hnc hl ha ht

/-- A frame of the pool under an ACTIVE lease: what Springbok does rests on whether it is resident. -/
theorem springFrame_leased : s.springFrame slot g = match v.mem.hit (a / 65536) with
    | some f =>
      if (v.mem.frame f).relaying ≠ none then { v with mem := v.mem.looked slot g 0 }
      else { v with mem := (v.mem.modFrame f fun y => if y.counter.toNat < 16 ^ g.prio then { y with counter := BitVec.ofNat 16 (16 ^ g.prio) } else y).looked slot g 0 }
    | none =>
      if !v.stackReady (a / 65536 % numSets % 8) then v
      else match v.mem.victim (a / 65536 % numSets) with
      | some f =>
        if (v.mem.frame f).isInvalid || decide ((v.mem.frame f).counter.toNat < 16 ^ g.prio) then
          { v with mem := ((v.mem.startFill f (a / 65536) lf.layout).modFrame f fun y => { y with counter := BitVec.ofNat 16 (16 ^ g.prio) }).looked slot g 0 }
        else { v with mem := v.mem.looked slot g 1 }
      | none => { v with mem := v.mem.looked slot g 1 } := by
  have hfault : leaseFault v.timeNs (v.mem.leaseAt a) = none := by
    rw [hl]
    simp only [leaseFault, ha, if_neg (Nat.not_le.mpr ht)]
  unfold State.springFrame
  extract_lets init done up
  rw [h]
  dsimp only
  rw [hnc, hfault, if_neg (by simp)]
  unfold Mem.residentAt
  rw [if_neg (by rw [h0]; decide), if_neg (by rw [h0]; decide)]
  rfl

end

/-! ## The clauses of the page-cache events -/

theorem frameFillComplete_fills {s : State} {f : Nat} (hf : (s.mem.frame f).filling = true) (hi : s.Idle f) (hr : (s.mem.frame f).relaying = none)
    (hp : SMap.sorted s.mem.pool = true) : ∃ u : State, exec (.frameFillComplete f) s = .next u
      ∧ u = { s with mem := { s.mem with hbm := u.mem.hbm, hbmKey := u.mem.hbmKey, frames := u.mem.frames, unaccepted := u.mem.unaccepted } }
      ∧ u.mem.frame f = { s.mem.frame f with filling := false, refetch := false, valid := true } ∧ (∀ g, g ≠ f → u.mem.frame g = s.mem.frame g)
      ∧ (∀ a, a / 65536 = f → SMap.get 0 u.mem.hbm a = SMap.get 0 s.mem.pool ((s.mem.frame f).pfn * 65536 + a % 65536))
      ∧ ∀ a, a / 65536 ≠ f → SMap.get 0 u.mem.hbm a = SMap.get 0 s.mem.hbm a := by
  have he := frameFillComplete_settles hf
  rw [settle_filling hf hr, frameReady_of_idle (s := { s with mem := s.mem.fillBytes f }) hi] at he
  refine ⟨_, he, rfl, (fillBytes_frame s.mem f f).trans (if_pos rfl), fun g hg => (fillBytes_frame s.mem f g).trans (if_neg hg), fun a ha => ?_, fun a ha => ?_⟩
  · exact (fillBytes_hbm s.mem f a hp).trans (if_pos ha)
  · exact (fillBytes_hbm s.mem f a hp).trans (if_neg ha)

theorem relayoutComplete_relays {s : State} {f lay : Nat} (hs : SMap.sorted s.groups = true) (hr : (s.mem.frame f).relaying = some lay)
    (hf : (s.mem.frame f).filling = false) : ∃ u : State, exec (.relayoutComplete f) s = .next u ∧ u.Idle f
      ∧ (s.Idle f → u = { s with mem := u.mem }
        ∧ u.mem.frame f = { s.mem.frame f with
            layout := lay, relaying := none
            dirty := if (s.mem.frame f).carved || (s.mem.frame f).poisoned || !s.mem.writable ((s.mem.frame f).pfn * 65536) then (s.mem.frame f).dirty else 0 }
        ∧ ∀ g, g ≠ f → u.mem.frame g = s.mem.frame g) := by
  refine ⟨_, relayoutComplete_settles hr hf, frameReady_idle (s := { s with mem := s.mem.relaid f }) hs f, fun hi => ?_⟩
  rw [frameReady_of_idle (s := { s with mem := s.mem.relaid f }) hi]
  exact ⟨rfl, (relaid_frame hr f).trans (if_pos rfl), fun g hg => (relaid_frame hr g).trans (if_neg hg)⟩

theorem counterHalving_halves {s : State} (h : s.mem.halvings < s.timeNs.toNat / 65536000) : ∃ u : State, exec .counterHalving s = .next u
    ∧ u = { s with mem := { s.mem with frames := u.mem.frames, halvings := s.mem.halvings + 1 } }
    ∧ ∀ g, u.mem.frame g = { s.mem.frame g with counter := (s.mem.frame g).counter / 2 } :=
  ⟨_, if_pos h, rfl, halved_frame s.mem _⟩

section
variable {s : State} {a g : Nat}

theorem snoop_refetches (h : s.mem.hit (a / 65536) = some g) (hf : (s.mem.frame g).filling = true) :
    ∃ u : State, exec (.backInvalidationSnoop a) s = .next u
      ∧ u = { s with mem := { s.mem with l2 := u.mem.l2, l1 := u.mem.l1, frames := u.mem.frames } }
      ∧ u.mem.frame g = { s.mem.frame g with refetch := true } ∧ (∀ h, h ≠ g → u.mem.frame h = s.mem.frame h) ∧ u.mem.NoLines (a / 65536) := by
  have hl := dropLines_noLines s.mem (a / 65536)
  have he := backInvalidationSnoop_filling h hf
  obtain ⟨t, ht⟩ := dropLines_to s.mem (a / 65536)
  rw [ht] at hl he
  exact ⟨_, he, rfl, (Mem.frame_setFrame _ _ _ _).trans (if_pos rfl), fun i hi => (Mem.frame_setFrame _ _ _ _).trans (if_neg hi), hl⟩

theorem snoop_drops (h : s.mem.hit (a / 65536) = some g) (hf : (s.mem.frame g).filling = false) :
    ∃ u : State, exec (.backInvalidationSnoop a) s = .next u
      ∧ u = { s with mem := { s.mem with l2 := u.mem.l2, l1 := u.mem.l1, hbm := u.mem.hbm, hbmKey := u.mem.hbmKey, frames := u.mem.frames } }
      ∧ u.mem.frame g = {} ∧ (∀ h, h ≠ g → u.mem.frame h = s.mem.frame h) ∧ u.mem.NoLines (a / 65536) := by
  have hl := dropFrame_noLines s.mem g
  rw [hit_pfn h] at hl
  have he := backInvalidationSnoop_standing h hf
  obtain ⟨t, u, ht⟩ := dropFrame_to s.mem g
  rw [ht] at hl he
  exact ⟨_, he, rfl, (Mem.frame_setFrame _ _ _ _).trans (if_pos rfl), fun i hi => (Mem.frame_setFrame _ _ _ _).trans (if_neg hi), hl⟩

theorem snoop_misses (h : s.mem.hit (a / 65536) = none) : ∃ u : State, exec (.backInvalidationSnoop a) s = .next u
    ∧ u = { s with mem := { s.mem with l2 := u.mem.l2, l1 := u.mem.l1 } } ∧ u.mem.NoLines (a / 65536) := by
  have hl := dropLines_noLines s.mem (a / 65536)
  have he := backInvalidationSnoop_miss h
  obtain ⟨t, ht⟩ := dropLines_to s.mem (a / 65536)
  rw [ht] at hl he
  exact ⟨_, he, rfl, hl⟩

end

theorem bankReservationTimeout_of {s : State} {i : Nat} {r : BankRes} (h : s.mem.bankRes[i]? = some r) : exec (.bankReservationTimeout i) s
    = if r.since.toNat + 4000 ≤ s.timeNs.toNat then
        .next { (s.modTeam r.team fun t => { t with copies := t.copies.map fun c => if c.num = r.copy then { c with stream := false } else c }) with
          mem := { s.mem with bankRes := s.mem.bankRes.eraseIdx i } }
      else .next s := by
  show execBankReservationTimeout i s = _
  unfold execBankReservationTimeout
  rw [h]
  rfl

section
variable {s v : State} {slot : Nat} {g : Spring} {lf : Leaf} {a k : Nat} {le : Lease} (h : s.springAt g g.next = (some (lf, a), v))
  (h0 : lf.space = 0) (hnc : lf.nc = false) (hl : v.mem.leaseAt a = some (k, le)) (ha : le.st = .active) (ht : v.timeNs.toNat < le.expiry.toNat)
include h h0 hnc hl ha ht

/-- A resident frame's counter comes to at least the group's first value. -/
theorem springFrame_hit {i : Nat} (hi : v.mem.hit (a / 65536) = some i) (hr : (v.mem.frame i).relaying = none) : s.springFrame slot g
    = { v with mem := (v.mem.modFrame i fun y =>
          if y.counter.toNat < 16 ^ g.prio then { y with counter := BitVec.ofNat 16 (16 ^ g.prio) } else y).looked slot g 0 } := by
  rw [springFrame_leased h h0 hnc hl ha ht, hi]
  exact if_neg (not_not.mpr hr)

theorem springFrame_untrained (hi : v.mem.hit (a / 65536) = none) (hr : v.stackReady (a / 65536 % numSets % 8) = false) :
    s.springFrame slot g = v := by
  rw [springFrame_leased h h0 hnc hl ha ht, hi]
  exact if_pos (by rw [hr]; rfl)

variable (hi : v.mem.hit (a / 65536) = none) (hr : v.stackReady (a / 65536 % numSets % 8) = true)
include hi hr

/-- A frame that no more often used one stands in the way of is filled. -/
theorem springFrame_fills {i : Nat} (hv : v.mem.victim (a / 65536 % numSets) = some i)
    (hc : (v.mem.frame i).isInvalid = true ∨ (v.mem.frame i).counter.toNat < 16 ^ g.prio) : s.springFrame slot g
    = { v with mem := ((v.mem.startFill i (a / 65536) lf.layout).modFrame i fun y => { y with counter := BitVec.ofNat 16 (16 ^ g.prio) }).looked slot g 0 } := by
  rw [springFrame_leased h h0 hnc hl ha ht, hi]
  simp only [hr, Bool.not_true, Bool.false_eq_true, if_false, hv]
  exact if_pos (by simpa using hc)

theorem springFrame_skips (hv : v.mem.victim (a / 65536 % numSets) = none ∨ ∃ i, v.mem.victim (a / 65536 % numSets) = some i
      ∧ (v.mem.frame i).isInvalid = false ∧ 16 ^ g.prio ≤ (v.mem.frame i).counter.toNat) :
    s.springFrame slot g = { v with mem := v.mem.looked slot g 1 } := by
  rw [springFrame_leased h h0 hnc hl ha ht, hi]
  simp only [hr, Bool.not_true, Bool.false_eq_true, if_false]
  obtain hv | ⟨i, hv, hn, hc⟩ := hv
  · rw [hv]
  · rw [hv]
    exact if_neg (by rw [hn, Bool.false_or, decide_eq_true_eq]; exact Nat.not_lt.mpr hc)

end

/-- Settles O40: each event by what it does to one frame's tag and to the loads that wait for it. -/
theorem pageCacheEvents : Obligations.PageCacheEvents := by
  unfold Obligations.PageCacheEvents
  intro s f hs x waits idle
  refine ⟨fun hf h => ?_, fun h => ?_, fun hf hi hr _ hp => frameFillComplete_fills hf hi hr hp, fun lay => relayoutComplete_relays hs,
    relayoutComplete_idle, counterHalving_halves, fun h => if_neg (Nat.not_lt.mpr h), fun a => ⟨fun g => snoop_refetches, fun g => snoop_drops, snoop_misses⟩,
    fun i r h => ⟨fun ht => (bankReservationTimeout_of h).trans (if_neg (Nat.not_le.mpr ht)), fun ht => (bankReservationTimeout_of h).trans (if_pos ht)⟩,
    fun slot => ⟨springbokFill_waits, fun hl hn hf v => ?_⟩⟩
  · by_cases hr : x.relaying = none
    · rw [frameFillComplete_standing hf hr, frameReady_of_idle (h.resolve_right fun h => h hr)]
    · exact frameFillComplete_relaying hf hr
  · cases hf : x.filling
    · exact ⟨_, frameFillComplete_standing hf (h.resolve_left fun h => by rw [hf] at h; cases h), frameReady_idle hs f⟩
    · exact ⟨_, frameFillComplete_settles hf, frameReady_idle (s := { s with mem := s.mem.settle f }) hs f⟩
  · have he := springbokFill_looks hl hn hf
    refine ⟨fun h => by rw [he, springFrame_nowhere h]; rfl, fun lf a k le h h0 hnc hla ha ht => ?_⟩
    refine ⟨fun i hi hr => ?_, fun hi hr => by rw [he, springFrame_untrained h h0 hnc hla ha ht hi hr], fun hi hr => ⟨fun i hv hc => ?_, fun hv => ?_⟩⟩
    · rw [springFrame_hit h h0 hnc hla ha ht hi hr] at he
      refine ⟨_, he, rfl, fun j hj => (Mem.frame_setFrame v.mem i j _).trans (if_neg hj), (Mem.frame_setFrame v.mem i i _).trans ((if_pos rfl).trans ?_)⟩
      by_cases hc : (v.mem.frame i).counter.toNat < 16 ^ (SMap.get ({} : Spring) s.mem.spring slot).prio <;> simp only [hc, if_true, if_false]
    · rw [springFrame_fills h h0 hnc hla ha ht hi hr hv hc] at he
      refine ⟨_, he, (Mem.frame_setFrame _ i i _).trans ((if_pos rfl).trans ?_)⟩
      unfold Mem.startFill
      rw [Mem.frame_setFrame, if_pos rfl]
    · rw [he, springFrame_skips h h0 hnc hla ha ht hi hr hv]
      rfl

end Sys2Proof.Machine
end

section
/-! PROOFS. Pager records and answers (R61, R406, R407). -/

namespace Sys2Proof.Machine

/-! ## What an engine's write leaves of the pager -/

section
variable {s : State}

theorem pager_of_pair {α : Type} {x : α × State} {a : α} {t : State} {p : Pager} (h : x.2.pager = p) (e : x = (a, t)) : t.pager = p := by
  rw [← h, e]

theorem pager_foldl {α : Type} {f : State → α → State} (hf : ∀ s a, (f s a).pager = s.pager) (l : List α) (s : State) :
    (l.foldl f s).pager = s.pager := by
  induction l generalizing s with
  | nil => rfl
  | cons a l ih => exact (ih _).trans (hf s a)

theorem tlbKeep_pager (h c : Nat) (va : W64) (l : Leaf) : (s.tlbKeep h c va l).pager = s.pager := by
  unfold State.tlbKeep
  extract_lets n e
  show (if _ then s else n.2).pager = _
  split <;> rfl

theorem cacheLeaf_pager (x : Acc) (va : W64) (l : Leaf) (f : Source) : (s.cacheLeaf x va l f).pager = s.pager := by
  cases f with
  | core => rfl
  | die => exact tlbKeep_pager _ _ _ _
  | walk w =>
    refine (tlbKeep_pager _ _ _ _).trans ((tlbKeep_pager _ _ _ _).trans ?_)
    show (if _ then s else s.draw.2).pager = _
    split <;> rfl

theorem xlate_pager (x : Acc) (va : W64) (k : AKind) : (s.xlate x va k).2.pager = s.pager := by
  unfold State.xlate
  split
  · rfl
  · split
    · exact cacheLeaf_pager _ _ _ _
    · rfl

theorem l2Find_pager (x : Acc) (l : Leaf) (a : Nat) (write wait : Bool) : (s.l2Find x l a write wait).2.pager = s.pager := by
  unfold State.l2Find
  extract_lets k m
  split
  · rfl
  · split
    · split
      · rfl
      · split <;> rfl
    · split <;> rfl

theorem fillGroup_pager (gid f : Nat) : (s.fillGroup gid f).pager = s.pager := by
  unfold State.fillGroup
  extract_lets r
  have key : ∀ (rs : List Far) (a : List Far × State),
      (rs.foldl (fun (a : List Far × State) x => let q := a.2.fillDone gid f x; (a.1 ++ [q.1], q.2)) a).2.pager = a.2.pager := by
    intro rs
    induction rs with
    | nil => exact fun a => rfl
    | cons x rs ih => exact fun a => (ih _).trans (by rw [(fillDone_done a.2 gid f x).2])
  exact (State.modGroup_pager _ _ _).trans (key _ _)

theorem frameReady_pager (f : Nat) : (s.frameReady f).pager = s.pager := pager_foldl (fun _ _ => fillGroup_pager _ _) _ s

theorem lineReady_pager (k : Nat) : (s.lineReady k).pager = s.pager := by
  unfold State.lineReady
  extract_lets n
  split
  · exact frameReady_pager _
  · rfl

theorem l2Get_pager (x : Acc) (l : Leaf) (a : Nat) (write wait blank : Bool) : (s.l2Get x l a write wait blank).2.pager = s.pager := by
  have hf := l2Find_pager (s := s) x l a write wait
  unfold State.l2Get
  extract_lets k put
  split
  · next f t e =>
    extract_lets u
    have hu : u.pager = s.pager := (frameReady_pager f).trans (pager_of_pair hf e)
    show (if _ then u else put u _).pager = _
    split <;> exact hu
  · next t e => exact (pager_of_pair hf e : t.pager = _)
  · next t e =>
    show (if _ then t.lineReady k else t).pager = _
    split
    · exact (lineReady_pager k).trans (pager_of_pair hf e)
    · exact pager_of_pair hf e
  · exact hf

theorem sendMsg_pager (dst vc n : Nat) (ordered : Bool) (ws : List W64) (body : SMap Byte) : (s.sendMsg dst vc n ordered ws body).pager = s.pager := by
  unfold State.sendMsg
  split
  · rfl
  · extract_lets d
    split
    · rfl
    · show (if ordered = true then s else d.2).pager = _
      split <;> rfl

theorem askPeer_pager (r : Req) : (s.askPeer r).2.pager = s.pager := sendMsg_pager _ _ _ _ _ _

theorem homeStore_pager (x : Acc) (w : Waiter) (va : W64) (bytes : List Byte) : (s.homeStore x w va bytes).2.pager = s.pager := by
  have hx := xlate_pager (s := s) x va .write
  unfold State.homeStore
  split
  · next e => exact pager_of_pair hx e
  · next e => exact pager_of_pair hx e
  · next l a t e =>
    replace hx := pager_of_pair hx e
    extract_lets k n
    split
    · exact hx
    · split
      · exact hx
      · split
        · split
          · exact hx
          · exact (askPeer_pager _).trans hx
        · split
          · exact hx
          · have hg := (l2Get_pager (s := t) x l a true false false).trans hx
            split
            · next u e => exact (pager_of_pair hg e : u.pager = _)
            · next e => exact pager_of_pair hg e
            · next e => exact pager_of_pair hg e

theorem askXlat_pager (w : Waiter) (x : Acc) (va : W64) (write : Bool) : (s.askXlat w x va write).2.pager = s.pager := by
  unfold State.askXlat
  split
  · rfl
  · extract_lets j pasid die same mine full
    split
    · split
      · rfl
      · split <;> rfl
    · split <;> rfl

theorem engAsk_pager (w : Waiter) (x : Acc) (va : W64) (write : Bool) : (s.engAsk w x va write).2.pager = s.pager := by
  have h := askXlat_pager (s := s) w x va write
  unfold State.engAsk
  split
  · next e => exact pager_of_pair h e
  · next e => exact pager_of_pair h e

theorem engWriteParts_pager (x : Acc) (w : Waiter) (ps : List (W64 × Nat)) (b : List Byte) (s : State) :
    (s.engWriteParts x w ps b).2.pager = s.pager := by
  induction ps generalizing s b with
  | nil => rfl
  | cons p ps ih =>
    obtain ⟨va, n⟩ := p
    have h := homeStore_pager (s := s) x w va (b.take n)
    rw [State.engWriteParts]
    split
    · next e => exact pager_of_pair h e
    · next e => exact (engAsk_pager _ _ _ _).trans (pager_of_pair h e)
    · next e => exact pager_of_pair h e
    · next e => exact (ih _ _).trans (pager_of_pair h e)

theorem engWrite_pager (x : Acc) (w : Waiter) (va : W64) (b : List Byte) : (s.engWrite x w va b).2.pager = s.pager := engWriteParts_pager _ _ _ _ _

end

/-! ## The records of the ROM handlers (R61, R406) -/

theorem pagerCause_iff {c : Nat} : pagerCause c = true ↔ c ∈ [0x02, 0x06, 0x07, 0x08, 0x09, 0x0A, 0x0B, 0x0F, 0x11, 0x12, 0x13, 0x16] := by
  simp only [pagerCause, decide_eq_true_eq, List.mem_cons, List.not_mem_nil, or_false]
  omega

section
variable {s : State} {g : Nat}

theorem pagerRecordPost_lane {ts : TSlot} {lv : Split} {rest : List Split} (ht : (s.group g).tslot = some ts) (hl : ts.levels = lv :: rest)
    (hr : lv.inRom = true) : exec (.pagerRecordPost g 4) s
      = .next (if pagerCause (((s.group g).thread ts.thr).bank.cause.toNat % 64) = true then
          (s.postFault g 0 (((s.group g).thread ts.thr).bank.cause.toNat % 64) ((s.group g).thread ts.thr).bank.val
            (((s.group g).thread ts.thr).bank.cause.toNat / 256 % 32)).laneReturn g .park
        else s) := by
  have hb : (s.group g).slotBank = ((s.group g).thread ts.thr).bank := by rw [Group.slotBank, ht]; rfl
  have hrom : (s.group g).romLane = true := by
    show (((s.group g).tslot.bind fun t => t.levels.head?).map (·.inRom)).getD false = true
    rw [ht, Option.bind_some, hl]
    exact hr
  show Host.Outcome.next (if ((s.group g).romLane && pagerCause ((s.group g).slotBank.cause.toNat % 64)) = true then s.romPark g else s) = _
  rw [hrom, Bool.true_and, State.romPark, hb]

theorem pagerRecordPost_scalar (hr : (s.group g).srom = true)
    (hc : pagerCause ((if (s.group g).stlevel = 1 then (s.group g).st1 else (s.group g).st2).cause.toNat % 64) = true) :
    exec (.pagerRecordPost g 5) s = .next (s.romScalarPark g) := by
  show Host.Outcome.next (if ((s.group g).srom
    && pagerCause ((if (s.group g).stlevel = 1 then (s.group g).st1 else (s.group g).st2).cause.toNat % 64)) = true then s.romScalarPark g else s) = _
  rw [hr, hc]
  rfl

theorem postWaiting_cons {r : List W64} {rest : List (List W64)} (h : s.pager.waiting = r :: rest) :
    s.postWaiting = if s.pager.used < 4096 then ({ s with pager := { s.pager with waiting := rest } } : State).putRecord r else s := by
  rw [State.postWaiting, h]

/-- The words of a record (Table 3-4). -/
theorem wbits_pagerWord {a b c : Nat} (ha : a < 2 ^ 32) (hb : b < 2 ^ 16) (hc : c < 2 ^ 16) :
    wbits (BitVec.ofNat 64 (a * 2 ^ 32 + b * 65536 + c)) 32 32 = a ∧ wbits (BitVec.ofNat 64 (a * 2 ^ 32 + b * 65536 + c)) 16 16 = b
      ∧ wbits (BitVec.ofNat 64 (a * 2 ^ 32 + b * 65536 + c)) 0 16 = c := by
  simp only [wbits, BitVec.toNat_ofNat]
  omega

theorem wbits_pagerPlace {a b c d : Nat} (ha : a < 2 ^ 32) (hb : b < 2 ^ 16) (hc : c < 256) (hd : d < 256) :
    wbits (BitVec.ofNat 64 (a * 2 ^ 32 + b * 65536 + c * 256 + d)) 32 32 = a ∧ wbits (BitVec.ofNat 64 (a * 2 ^ 32 + b * 65536 + c * 256 + d)) 16 16 = b
      ∧ wbits (BitVec.ofNat 64 (a * 2 ^ 32 + b * 65536 + c * 256 + d)) 8 8 = c ∧ wbits (BitVec.ofNat 64 (a * 2 ^ 32 + b * 65536 + c * 256 + d)) 0 8 = d := by
  simp only [wbits, BitVec.toNat_ofNat]
  omega

theorem postFault_fields {src cause thr : Nat} (va : W64) (hs : src < 256) (hc : cause < 64) (ht : thr < 32) (hp : (s.group g).place < 256)
    (hk : s.coreOf g < 2 ^ 16) : ∃ w0 w3 : W64, let pool := s.poolOf g va
      s.postFault g src cause va thr = s.postRecord [w0, va, BitVec.ofNat 64 (pool.getD 0), w3]
      ∧ wbits w0 32 32 = ((pool.map s.mem.leaseIdAt).getD 0).toNat ∧ wbits w0 16 16 = src ∧ wbits w0 0 16 = cause
      ∧ wbits w3 32 32 = s.ctxOf g % 2 ^ 32 ∧ wbits w3 16 16 = s.coreOf g ∧ wbits w3 8 8 = (s.group g).place ∧ wbits w3 0 8 = thr := by
  obtain ⟨h1, h2, h3⟩ := wbits_pagerWord (a := (((s.poolOf g va).map s.mem.leaseIdAt).getD 0).toNat) (b := src) (c := cause)
    (BitVec.isLt _) (by omega) (by omega)
  obtain ⟨h4, h5, h6, h7⟩ := wbits_pagerPlace (a := s.ctxOf g % 2 ^ 32) (b := s.coreOf g) (c := (s.group g).place) (d := thr)
    (Nat.mod_lt _ (by decide)) hk hp (by omega)
  exact ⟨_, _, rfl, h1, h2, h3, h4, h5, h6, h7⟩

end

/-! ## What an answer names (R407) -/

theorem pgrespGroup_some {s : State} {w : W64} {g : Nat} (hs : SMap.sorted s.groups = true) (h : s.pgrespGroup w = some g) :
    s.groups.find g = some (s.group g) ∧ ((s.group g).ended = false ∨ wbits w 5 2 = 2) ∧ (s.group g).slot.isSome = true
      ∧ (s.team (s.group g).team).saved = false ∧ (s.team (s.group g).team).ctx = wbits w 32 32
      ∧ (s.team (s.group g).team).core = wbits w 20 12 ∧ (s.group g).place = wbits w 12 8 := by
  obtain ⟨⟨i, x⟩, hf, rfl⟩ := Option.map_eq_some_iff.mp h
  have hx : s.groups.find i = some x := SMap.find_of_mem hs (List.mem_of_find?_eq_some hf)
  have he : s.group i = x := by simp [State.group, SMap.get, hx]
  have hp := List.find?_some hf
  simp only [Bool.and_eq_true, Bool.or_eq_true, Bool.not_eq_true', decide_eq_true_eq, and_assoc] at hp
  obtain ⟨hctx, hcore, hpl, hsl, hsv, hen⟩ := hp
  dsimp only
  rw [he]
  exact ⟨hx, hen.symm, hsl, hsv, hctx, hcore, hpl⟩

/-- The splits of a group and its trap slot, as `split?` numbers them. -/
theorem mem_allSplits {g : Group} (hs : SMap.sorted g.splits = true) (h4 : ∀ q ∈ g.splits, q.1 < 4) {p : Nat × Split} :
    p ∈ g.splits ++ ((g.split? 4).map fun x => (4, x)).toList ↔ p.1 ≤ 4 ∧ g.split? p.1 = some p.2 := by
  obtain ⟨n, y⟩ := p
  simp only [List.mem_append, Option.mem_toList, Option.map_eq_some_iff, Prod.mk.injEq]
  constructor
  · rintro (h | ⟨x, hx, rfl, rfl⟩)
    · have hn := h4 _ h
      exact ⟨by omega, (if_pos hn).trans (SMap.find_of_mem hs h)⟩
    · exact ⟨Nat.le_refl 4, hx⟩
  · rintro ⟨hn, hy⟩
    by_cases h : n < 4
    · exact .inl (mem_of_find ((if_pos h).symm.trans hy))
    · obtain rfl : n = 4 := by omega
      exact .inr ⟨y, hy, rfl, rfl⟩

section
variable {g : Group} (hs : SMap.sorted g.splits = true) (h4 : ∀ q ∈ g.splits, q.1 < 4) {k : Nat}
include hs h4

/-- A split that is found parked with a resume index, is. -/
theorem parkedAt_sound {n c : Nat} (h : g.parkedAt k = some (n, c)) : ∃ y, n ≤ 4 ∧ g.split? n = some y ∧ y.mode = .parked c ∧ y.rix = k := by
  unfold Group.parkedAt at h
  extract_lets top at h
  rw [List.head?_filterMap] at h
  obtain ⟨p, hp, hf⟩ := List.exists_of_findSome?_eq_some h
  obtain ⟨hn, hy⟩ := (mem_allSplits hs h4).mp hp
  split at hf
  · next e he =>
    split at hf
    · next hr =>
      cases hf
      exact ⟨p.2, hn, hy, he, hr⟩
    · cases hf
  · cases hf

/-- One that is parked with the index is found. -/
theorem parkedAt_complete {n c : Nat} {y : Split} (hn : n ≤ 4) (hy : g.split? n = some y) (hc : y.mode = .parked c) (hr : y.rix = k) :
    g.parkedAt k ≠ none := by
  unfold Group.parkedAt
  extract_lets top
  rw [List.head?_filterMap, Ne, List.findSome?_eq_none_iff]
  intro h
  have := h (n, y) ((mem_allSplits hs h4).mpr ⟨hn, hy⟩)
  simp [hc, hr] at this

theorem parkedAt_none (h : ∀ m (z : Split) e, m ≤ 4 → g.split? m = some z → z.mode = .parked e → z.rix ≠ k) : g.parkedAt k = none := by
  cases hp : g.parkedAt k with
  | none => rfl
  | some q =>
    obtain ⟨y, hn, hy, hc, hr⟩ := parkedAt_sound hs h4 (n := q.1) (c := q.2) hp
    exact absurd hr (h _ y _ hn hy hc)

/-- The only split that is parked with an index is the one found. -/
theorem parkedAt_only {n c : Nat} {y : Split} (hn : n ≤ 4) (hy : g.split? n = some y) (hc : y.mode = .parked c) (hr : y.rix = k)
    (hu : ∀ m (z : Split) e, m ≤ 4 → g.split? m = some z → z.mode = .parked e → z.rix = k → m = n) : g.parkedAt k = some (n, c) := by
  cases hp : g.parkedAt k with
  | none => exact absurd hp (parkedAt_complete hs h4 hn hy hc hr)
  | some q =>
    obtain ⟨m, e⟩ := q
    obtain ⟨z, hm, hz, he, hq⟩ := parkedAt_sound hs h4 hp
    obtain rfl := hu m z e hm hz he hq
    obtain rfl := Option.some.inj (hy.symm.trans hz)
    cases hc.symm.trans he
    rfl

end

/-- The first place of a list at which something is found decides. -/
theorem findSome?_zipIdx {α β : Type} {l : List α} {f : α × Nat → Option β} {i : Nat} {a : α} {b : β} (ha : l[i]? = some a)
    (hb : f (a, i) = some b) (hn : ∀ k a', k < i → l[k]? = some a' → f (a', k) = none) : l.zipIdx.findSome? f = some b := by
  obtain ⟨hi, rfl⟩ := List.getElem?_eq_some_iff.mp ha
  have hlen : i < l.zipIdx.length := by rw [List.length_zipIdx]; exact hi
  rw [List.findSome?_eq_some_iff]
  refine ⟨l.zipIdx.take i, (l[i], i), l.zipIdx.drop (i + 1), ?_, hb, fun p hp => ?_⟩
  · conv_lhs => rw [← List.take_append_drop i l.zipIdx, List.drop_eq_getElem_cons hlen, List.getElem_zipIdx, Nat.zero_add]
  · obtain ⟨k, hk, rfl⟩ := List.getElem_of_mem hp
    simp only [List.length_take, lt_min_iff] at hk
    simp only [List.getElem_take, List.getElem_zipIdx, Nat.zero_add]
    exact hn k _ hk.1 (List.getElem?_eq_getElem _)

/-- The oldest parked slice of a group. -/
theorem parkedSlice_first {s : State} {g i j c : Nat} {cp : Copy} {sl : Slice} (hi : (s.team (s.group g).team).copies[i]? = some cp)
    (hj : cp.slices[j]? = some sl) (hg : sl.grp = g) (hc : sl.parked = some c)
    (hfirst : ∀ (a b : Nat) (ca : Copy) (sb : Slice), (s.team (s.group g).team).copies[a]? = some ca → ca.slices[b]? = some sb → sb.grp = g →
      sb.parked ≠ none → i < a ∨ i = a ∧ j ≤ b) : s.parkedSlice g = some ((s.group g).team, i, j, c) := by
  unfold State.parkedSlice
  extract_lets t
  rw [List.head?_flatMap]
  refine findSome?_zipIdx hi ?_ fun a ca ha hca => ?_
  · rw [List.head?_filterMap]
    refine findSome?_zipIdx hj ?_ fun b sb hb hsb => ?_
    · simp [hg, hc, t]
    · by_contra hne
      by_cases hgr : sb.grp = g
      · have := hfirst i b cp sb hi hsb hgr fun h => hne (by simp [h])
        omega
      · exact hne (if_neg hgr)
  · rw [List.head?_filterMap, List.findSome?_eq_none_iff]
    rintro ⟨sb, b⟩ hsb
    by_contra hne
    by_cases hgr : sb.grp = g
    · have := hfirst a b ca sb hca (List.mem_zipIdx_iff_getElem?.mp hsb) hgr fun h => hne (by simp [h])
      omega
    · exact hne (if_neg hgr)

/-! ## A slice that is no longer parked (R143) -/

theorem modSlice_modSlice (t : Team) (i j : Nat) (f g : Slice → Slice) : (t.modSlice i j f).modSlice i j g = t.modSlice i j fun x => g (f x) := by
  unfold Team.modSlice
  dsimp only
  rw [List.mapIdx_mapIdx]
  congr 2
  funext a c
  by_cases ha : a = i
  · simp only [ha, Function.comp_apply, if_true, List.mapIdx_mapIdx]
    congr 2
    funext b x
    by_cases hb : b = j <;> simp [hb]
  · simp [ha]

theorem modSlice_copies_congr {t u : Team} (h : t.copies = u.copies) (i j : Nat) (f : Slice → Slice) :
    (t.modSlice i j f).copies = (u.modSlice i j f).copies := by
  unfold Team.modSlice
  rw [h]

/-- Some other slice of a copy is still parked. -/
def Copy.parkedBut (c : Copy) (j : Nat) : Prop := ∃ (b : Nat) (x : Slice), c.slices[b]? = some x ∧ b ≠ j ∧ x.parked ≠ none

/-- A slice goes on; the ring slot of its copy is issued again when no other slice of it is parked. -/
theorem unpark_of {t : Team} {i : Nat} {cp : Copy} (hi : t.copies[i]? = some cp) (j : Nat) :
    (t.unpark i j).copies = (t.modSlice i j fun x => { x with parked := none }).copies
      ∧ (∀ h, t.ring? cp.ring = some h → ¬cp.parkedBut j → (t.unpark i j).scratch = wrNat t.scratch (h + 32 + 4 * cp.slot + 1) 1 1)
      ∧ (cp.parkedBut j → (t.unpark i j).scratch = t.scratch) := by
  have hget : (t.modSlice i j fun x => { x with parked := none }).copies[i]?
      = some { cp with slices := cp.slices.mapIdx fun b x => if b = j then { x with parked := none } else x } := by
    simp [Team.modSlice, List.getElem?_mapIdx, hi]
  have hany : (cp.slices.mapIdx fun b x => if b = j then ({ x with parked := none } : Slice) else x).any (fun x => decide (x.parked ≠ none)) = true
      ↔ cp.parkedBut j := by
    simp only [List.any_eq_true, List.mem_mapIdx, decide_eq_true_eq, Copy.parkedBut]
    constructor
    · rintro ⟨x, ⟨b, hb, rfl⟩, hp⟩
      by_cases e : b = j
      · simp [e] at hp
      · exact ⟨b, cp.slices[b], List.getElem?_eq_getElem hb, e, by simpa [e] using hp⟩
    · rintro ⟨b, x, hx, e, hp⟩
      obtain ⟨hb, rfl⟩ := List.getElem?_eq_some_iff.mp hx
      exact ⟨_, ⟨b, hb, if_neg e⟩, hp⟩
  unfold Team.unpark
  extract_lets u
  rw [hget]
  dsimp only
  by_cases hp : cp.parkedBut j
  · rw [if_pos (hany.mpr hp)]
    exact ⟨rfl, fun _ _ h => absurd hp h, fun _ => rfl⟩
  · rw [if_neg (mt hany.mp hp)]
    refine ⟨?_, fun h hr _ => ?_, fun h => absurd h hp⟩
    · split <;> rfl
    · rw [show u.ring? cp.ring = some h from hr]
      rfl

/-- What a slice that goes on leaves of its team, as the obligation has it. -/
theorem unpark_ring {t u : Team} {i : Nat} {cp : Copy} (hi : t.copies[i]? = some cp) (j : Nat) (hu : u.scratch = (t.unpark i j).scratch) :
    ∀ h, t.ring? cp.ring = some h →
      ((∀ (b : Nat) (sb : Slice), cp.slices[b]? = some sb → b ≠ j → sb.parked = none) →
        u.rd (h + 32 + 4 * cp.slot + 1) 1 = 1 ∧ ScratchKept t u (h + 32 + 4 * cp.slot + 1) 1)
      ∧ ((∃ (b : Nat) (sb : Slice), cp.slices[b]? = some sb ∧ b ≠ j ∧ sb.parked ≠ none) → u.scratch = t.scratch) := by
  obtain ⟨-, hone, hmore⟩ := unpark_of hi j
  refine fun h hr => ⟨fun hall => ?_, fun hp => hu.trans (hmore hp)⟩
  have hs := hu.trans (hone h hr fun ⟨b, x, hx, hb, hp⟩ => hp (hall b x hx hb))
  refine ⟨?_, fun a ha => ?_⟩
  · rw [Team.rd, hs]
    exact rdNat_wrNat _ _ 1 1
  · rw [hs]
    exact get_wrBytes_of_outside _ _ _ (by rw [length_leBytes]; omega)

theorem onlyTeam_modTeam (s : State) (t : Nat) (f : Team → Team) : OnlyTeam t s (s.modTeam t f) :=
  ⟨rfl, fun _ h => SMap.find_insert_ne _ _ h⟩

theorem team_modTeam_self (s : State) (t : Nat) (f : Team → Team) : (s.modTeam t f).team t = f (s.team t) := by
  rw [State.modTeam, State.team_setTeam, if_pos rfl]

/-- No unit of a team's copies has still to set a granule full. -/
theorem settleFe_none {s : State} {t : Nat} (h : ∀ y ∈ (s.team t).copies, y.due = []) : s.settleFe t = s := by
  unfold State.settleFe
  extract_lets later now
  refine if_pos (List.flatMap_eq_nil_iff.mpr fun c hc => ?_)
  rw [h c hc]
  rfl

theorem modSlice_due {t : Team} (h : ∀ y ∈ t.copies, y.due = []) (i j : Nat) (f : Slice → Slice) : ∀ y ∈ (t.modSlice i j f).copies, y.due = [] := by
  intro y hy
  obtain ⟨a, ha, rfl⟩ := List.mem_mapIdx.mp hy
  have := h _ (List.getElem_mem ha)
  split
  · exact this
  · exact this

/-! ## The answers -/

section
variable {s : State} {w : W64} {g : Nat} (hg : s.pgrespGroup w = some g)
include hg

theorem pgrespResume_split (h0 : wbits w 5 2 = 0) : exec (.pgrespResume w) s = .next (match (s.group g).parkedAt (wbits w 7 5) with
    | some (n, _) => s.setGroup g ((s.group g).modSplit n fun y => { y with mode := .ready, age := s.cycle })
    | none => s) := by
  show execPgrespResume w s = _
  rw [execPgrespResume, hg]
  dsimp only
  rw [h0]
  rfl

theorem pgrespResume_scalar (h1 : wbits w 5 2 = 1) {c : Nat} (hp : (s.group g).sparked = some c) :
    exec (.pgrespResume w) s = .next (s.setGroup g { s.group g with sparked := none }) := by
  show execPgrespResume w s = _
  rw [execPgrespResume, hg]
  dsimp only
  rw [h1]
  exact congrArg Host.Outcome.next (if_neg (by rw [hp]; nofun))

theorem pgrespResume_slice (h2 : wbits w 5 2 = 2) {t i j c : Nat} (hp : s.parkedSlice g = some (t, i, j, c)) :
    exec (.pgrespResume w) s = .next ((s.modTeam t fun z => z.unpark i j).teamEvent t) := by
  show execPgrespResume w s = _
  rw [execPgrespResume, hg]
  dsimp only
  rw [h2, hp]
  rfl

theorem pgrespFail_other (h2 : wbits w 5 2 ≠ 2) : exec (.pgrespFail w) s = .next s := by
  show execPgrespFail w s = _
  rw [execPgrespFail, hg]
  exact if_pos h2

theorem pgrespFail_slice (h2 : wbits w 5 2 = 2) {t i j c : Nat} (hp : s.parkedSlice g = some (t, i, j, c)) :
    exec (.pgrespFail w) s = .next (((s.modTeam t fun z =>
      (z.unpark i j).modSlice i j fun x => { x with ended := true, code := copyCode c }).settleFe t).teamEvent t) := by
  show execPgrespFail w s = _
  rw [execPgrespFail, hg]
  dsimp only
  rw [if_neg (not_not.mpr h2), hp]

theorem pgrespFatal_split (h0 : wbits w 5 2 = 0) : exec (.pgrespFatal w) s = .next (match ((s.group g).parkedAt (wbits w 7 5)).map (·.2) with
    | some c => s.killContext (wbits w 32 32) c
    | none => s) := by
  show execPgrespFatal w s = _
  rw [execPgrespFatal, hg]
  dsimp only
  rw [h0]
  rfl

theorem pgrespFatal_scalar (h1 : wbits w 5 2 = 1) {c : Nat} (hp : (s.group g).sparked = some c) :
    exec (.pgrespFatal w) s = .next (s.killContext (wbits w 32 32) c) := by
  show execPgrespFatal w s = _
  rw [execPgrespFatal, hg]
  dsimp only
  rw [h1, hp]
  rfl

theorem pgrespFatal_slice (h2 : wbits w 5 2 = 2) {t i j c : Nat} (hp : s.parkedSlice g = some (t, i, j, c)) :
    exec (.pgrespFatal w) s = .next (s.killContext (wbits w 32 32) c) := by
  show execPgrespFatal w s = _
  rw [execPgrespFatal, hg]
  dsimp only
  rw [h2, hp]
  rfl

end

theorem pgresp_nothing {s : State} {w : W64} (h : s.pgrespGroup w = none) :
    exec (.pgrespResume w) s = .next s ∧ exec (.pgrespFail w) s = .next s ∧ exec (.pgrespFatal w) s = .next s := by
  refine ⟨?_, ?_, ?_⟩
  · show execPgrespResume w s = _
    rw [execPgrespResume, h]
  · show execPgrespFail w s = _
    rw [execPgrespFail, h]
  · show execPgrespFatal w s = _
    rw [execPgrespFatal, h]

theorem onlyGroup_setGroup (s : State) (g : Nat) (x : Group) : OnlyGroup g s (s.setGroup g x) := ⟨rfl, fun _ h => SMap.find_insert_ne _ _ h⟩

theorem modSplit_of {g : Group} {n : Nat} {x : Split} (h : g.split? n = some x) (f : Split → Split) : g.modSplit n f = g.setSplit n (f x) := by
  rw [Group.modSplit, h]

theorem pagerEvents : PagerEvents := by
  unfold PagerEvents
  intro s ⟨hs, hsplits⟩ posts
  refine ⟨fun g ts lv rest ht hl hr => ?_, fun g hr hc => ?_, fun g r rest hw => ?_,
    fun g src cause thr va h1 h2 h3 h4 h5 => postFault_fields va h1 h2 h3 h4 h5, fun w g hg => ?_, fun w h => pgresp_nothing h⟩
  · have h := pagerRecordPost_lane (s := s) (g := g) ht hl hr
    exact ⟨fun hc => h.trans (congrArg _ (if_pos (pagerCause_iff.mpr hc))), fun hc => h.trans (congrArg _ (if_neg (mt pagerCause_iff.mp hc)))⟩
  · exact pagerRecordPost_scalar hr (pagerCause_iff.mpr hc)
  · have hp : exec (.pagerRecordPost g 0) s = .next s.postWaiting := rfl
    rw [hp, postWaiting_cons hw]
    refine ⟨fun e v he hu => ?_, fun hu => congrArg _ (if_neg (Nat.not_lt.mpr hu))⟩
    obtain ⟨h1, h2⟩ := putRecord_written (s := { s with pager := { s.pager with waiting := rest } }) he
    rw [if_pos hu]
    exact ⟨pager_of_pair (engWrite_pager _ _ _ _) he, fun h => congrArg _ (h1 h), fun h => congrArg _ (h2 h)⟩
  · extract_lets x t src
    obtain ⟨hx, hen, hsl, hsv, hctx, hcore, hpl⟩ := pgrespGroup_some hs hg
    obtain ⟨hss, h4⟩ := hsplits _ (mem_of_find hx)
    refine ⟨hx, hen, hsl, hsv, hctx, hcore, hpl, fun n y c h0 hn hy hc hr hu => ?_, fun h0 hu => ?_, fun c h1 hc => ?_, fun h => pgrespFail_other hg h,
      fun i j cp sl c h2 hdue _ hi hj hgr hc hfirst => ?_⟩
    · have hp := parkedAt_only hss h4 hn hy hc hr hu
      have hres := pgrespResume_split hg h0
      have hfat := pgrespFatal_split hg h0
      rw [hp] at hres hfat
      dsimp only at hres
      rw [modSplit_of hy] at hres
      exact ⟨⟨_, hres, onlyGroup_setGroup _ _ _, State.group_setGroup_self _ _ _⟩, hfat⟩
    · have hp := parkedAt_none hss h4 hu
      have hres := pgrespResume_split hg h0
      have hfat := pgrespFatal_split hg h0
      rw [hp] at hres hfat
      exact ⟨hres, hfat⟩
    · exact ⟨⟨_, pgrespResume_scalar hg h1 hc, onlyGroup_setGroup _ _ _, State.group_setGroup_self _ _ _⟩, pgrespFatal_scalar hg h1 hc⟩
    · have hp := parkedSlice_first hi hj hgr hc hfirst
      have hcopies := (unpark_of hi j).1
      intro freed
      refine ⟨⟨_, pgrespResume_slice hg h2 hp, onlyTeam_modTeam _ _ _, ?_, unpark_ring hi j ?_⟩, ⟨s.modTeam x.team fun z =>
        (z.unpark i j).modSlice i j fun x => { x with ended := true, code := copyCode c }, ?_, onlyTeam_modTeam _ _ _, ?_, unpark_ring hi j ?_⟩,
        pgrespFatal_slice hg h2 hp⟩
      · rw [team_modTeam_self]
        exact hcopies
      · rw [team_modTeam_self]
      · rw [pgrespFail_slice hg h2 hp, settleFe_none]
        rw [team_modTeam_self, modSlice_copies_congr hcopies]
        exact modSlice_due (modSlice_due hdue _ _ _) _ _ _
      · rw [team_modTeam_self, modSlice_copies_congr hcopies, modSlice_modSlice]
      · rw [team_modTeam_self]
        rfl

/-! ## Pre-emption (R414, R415) -/

/-- An entry of a table in which some entries have changed in place. -/
theorem find_mapIf {α : Type} {c : Nat → α → Prop} [∀ k x, Decidable (c k x)] (m : SMap α) (f : α → α) (k : Nat) :
    SMap.find (m.map fun p => if c p.1 p.2 then (p.1, f p.2) else p) k = (m.find k).map fun x => if c k x then f x else x := by
  induction m with
  | nil => rfl
  | cons p m ih =>
    obtain ⟨j, y⟩ := p
    have he : (if c j y then (j, f y) else (j, y)) = (j, if c j y then f y else y) := by split <;> rfl
    rw [List.map_cons, he]
    simp only [SMap.find]
    split
    · next e => rw [e]; rfl
    · exact ih

theorem haltTeam_jobs (s : State) (t n : Nat) : (s.haltTeam t).jobs.find n
    = (s.jobs.find n).map fun j => if j.team = t ∧ j.st = 1 ∧ j.closed = false then ({ j with st := 4 } : Job).note else j := by
  refine (find_mapVal s.jobs (fun j => if j.team = t ∧ j.st = 1 ∧ !j.closed then ({ j with st := 4 } : Job).note else j) n).trans ?_
  simp only [Bool.not_eq_true']

/-- A wait of a scalar stream that is kept: of a BAR that has arrived. -/
def SWait.kept (w : SWait) : Bool := w.arrived && (match w.instr with
  | .bar _ _ => true
  | _ => false)

theorem kept_bar {w : SWait} {d : BitVec 6} {b : Fin 16} (h : w.instr = .bar d b) : w.kept = w.arrived := by
  unfold SWait.kept
  rw [h]
  exact Bool.and_true _

theorem kept_other {w : SWait} (h : ∀ d b, w.instr ≠ .bar d b) : w.kept = false := by
  unfold SWait.kept
  split
  · next d b e => exact absurd e (h d b)
  · exact Bool.and_false _

/-- A scalar stream that is taken back keeps the wait of a BAR that has arrived. -/
theorem abandon_eq (g : Group) : g.abandon = { g with swait := g.swait.filter SWait.kept } := by
  unfold Group.abandon
  split
  · next w hw =>
    rw [hw, Option.filter_some]
    split
    · next e =>
      rw [kept_bar e, ← hw]
      split <;> rfl
    · next h =>
      rw [kept_other h]
      rfl
  · next hw =>
    rw [hw, Option.filter_none, ← hw]

section
variable (s : State) (t : Nat)

/-- No lane runs a team's split. -/
def State.lanesOff : Prop := ∀ p ∈ s.lanePairs, ∀ r : Nat × Nat, p.2.lane0 = some r ∨ p.2.lane1 = some r → (s.group r.1).team ≠ t

/-- No scalar instruction of a team has to complete, and its engines have drained. -/
def State.drained : Prop :=
  (∀ p ∈ s.groups, p.2.team = t → ∀ w, p.2.swait = some w → w.finishes = false)
    ∧ (∀ c ∈ (s.team t).copies, c.opened = false ∨ s.counted t c.num c = false
        ∨ (∃ x ∈ c.slices, x.parked ≠ none) ∧ ∀ x ∈ c.slices, x.ended = true ∨ x.parked ≠ none)
    ∧ (∀ q ∈ (s.core (s.team t).core).mxq, q.team ≠ t)
    ∧ (∀ p ∈ s.fabric.xfers, p.2.team = t → (∀ k ∈ p.2.pkts, k.st.flying = false) ∧ s.sideOut (.xfer p.1) = false)
    ∧ (∀ p ∈ s.jobs, p.2.team = t → (∀ c ∈ p.2.chunks, ∀ k ∈ c.pkts, k.st.flying = false) ∧ p.2.pend = [] ∧ s.sideOut (.eland p.1) = false)

theorem copyRests_iff (c : Copy) : s.copyRests t c = true ↔ c.opened = false ∨ s.counted t c.num c = false
    ∨ (∃ x ∈ c.slices, x.parked ≠ none) ∧ ∀ x ∈ c.slices, x.ended = true ∨ x.parked ≠ none := by
  simp only [State.copyRests, Bool.or_eq_true, Bool.and_eq_true, Bool.not_eq_true', List.any_eq_true, List.all_eq_true, decide_eq_true_eq, or_assoc]

theorem runs_off_iff (r : Option (Nat × Nat)) : (r.map fun x => decide ((s.group x.1).team = t)).getD false = false
    ↔ ∀ x, r = some x → (s.group x.1).team ≠ t := by
  cases r with
  | none => simp
  | some x => simp

theorem swait_done_iff (o : Option SWait) : (o.map SWait.finishes).getD false = false ↔ ∀ w, o = some w → w.finishes = false := by
  cases o with
  | none => simp
  | some w => simp

theorem quiescent_iff : s.quiescent t = true ↔ s.lanesOff t ∧ s.drained t := by
  unfold State.quiescent State.lanesOff State.drained
  extract_lets tm inLane
  simp only [inLane, Bool.and_eq_true, List.all_eq_true, runs_off_iff, Bool.or_eq_true, decide_eq_true_eq, swait_done_iff, copyRests_iff,
    Bool.not_eq_true', List.any_eq_false, and_assoc]
  refine and_congr ?_ (and_congr ?_ (and_congr Iff.rfl (and_congr Iff.rfl (and_congr ?_ ?_))))
  · exact forall₂_congr fun p _ => ⟨fun ⟨h0, h1⟩ r hr => hr.elim (h0 r) (h1 r), fun h => ⟨fun r hr => h r (.inl hr), fun r hr => h r (.inr hr)⟩⟩
  · exact forall₂_congr fun p _ => Decidable.imp_iff_not_or.symm
  · exact forall₂_congr fun p _ => Decidable.imp_iff_not_or.symm
  · exact forall₂_congr fun p _ => Decidable.imp_iff_not_or.symm

/-- The latched rows of a team's group go with the team. -/
theorem takeLatch_to : ∃ ts cs, s.takeLatch t = { s with teams := ts, cores := cs }
    ∧ (∀ w, w ≠ t → ts.find w = s.teams.find w) ∧ (∀ c, c ≠ (s.team t).core → cs.find c = s.cores.find c)
    ∧ ((∀ a, (s.core (s.team t).core).alatch = some a → (s.group a.gid).team ≠ t) → ts = s.teams ∧ cs = s.cores)
    ∧ ∀ a, (s.core (s.team t).core).alatch = some a → (s.group a.gid).team = t →
      SMap.get {} ts t = { s.team t with rows := some (a.gid, a.rows) }
        ∧ SMap.get {} cs (s.team t).core = { s.core (s.team t).core with alatch := none } := by
  unfold State.takeLatch
  extract_lets c
  cases hl : (s.core c).alatch with
  | none => exact ⟨s.teams, s.cores, rfl, fun _ _ => rfl, fun _ _ => rfl, fun _ => ⟨rfl, rfl⟩, fun a ha => nomatch ha⟩
  | some a =>
    by_cases ht : (s.group a.gid).team = t
    · refine ⟨_, _, if_pos ht, fun w hw => SMap.find_insert_ne _ _ hw, fun k hk => SMap.find_insert_ne _ _ hk, fun h => absurd ht (h a rfl), fun b hb _ => ?_⟩
      cases hb
      exact ⟨SMap.get_insert_self _ _ _ _, SMap.get_insert_self _ _ _ _⟩
    · refine ⟨s.teams, s.cores, if_neg ht, fun _ _ => rfl, fun _ _ => rfl, fun _ => ⟨rfl, rfl⟩, fun b hb h => ?_⟩
      cases hb
      exact absurd h ht

end

/-- A packet with its place changed. -/
def Pkt.withSt (f : PktState → PktState) (p : Pkt) : Pkt := { p with st := f p.st }

theorem mapPkts_eq (s : State) (t : Nat) (f : PktState → PktState) : s.mapPkts t f
    = { s with
        fabric := { s.fabric with xfers := s.fabric.xfers.map fun p => if p.2.team = t then (p.1, { p.2 with pkts := p.2.pkts.map (Pkt.withSt f) }) else p }
        jobs := s.jobs.map fun p => if p.2.team = t then
          (p.1, { p.2 with chunks := p.2.chunks.map fun c => { c with pkts := c.pkts.map (Pkt.withSt f) } }) else p } := rfl

theorem mapPkts_xfers (s : State) (t n : Nat) (f : PktState → PktState) : (s.mapPkts t f).fabric.xfers.find n
    = (s.fabric.xfers.find n).map fun q => if q.team = t then { q with pkts := q.pkts.map (Pkt.withSt f) } else q := by
  rw [mapPkts_eq]
  exact find_mapIf (c := fun _ q => q.team = t) s.fabric.xfers (fun q => { q with pkts := q.pkts.map (Pkt.withSt f) }) n

theorem mapPkts_jobs (s : State) (t n : Nat) (f : PktState → PktState) : (s.mapPkts t f).jobs.find n
    = (s.jobs.find n).map fun j => if j.team = t then
        { j with chunks := j.chunks.map fun c => { c with pkts := c.pkts.map (Pkt.withSt f) } } else j := by
  rw [mapPkts_eq]
  exact find_mapIf (c := fun _ j => j.team = t) s.jobs
    (fun j => { j with chunks := j.chunks.map fun c => { c with pkts := c.pkts.map (Pkt.withSt f) } }) n

theorem map_unless {α : Type} {c : α → Prop} [DecidablePred c] {f : α → α} {l : List α} (h : ∀ a ∈ l, ¬c a) :
    (l.map fun a => if c a then f a else a) = l :=
  (List.map_congr_left fun a ha => if_neg (h a ha)).trans (List.map_id'' (fun _ => rfl) l)

/-- A team with no transfer and no job has no packets. -/
theorem mapPkts_none {s : State} {t : Nat} (f : PktState → PktState) (hx : ∀ p ∈ s.fabric.xfers, p.2.team ≠ t) (hj : ∀ p ∈ s.jobs, p.2.team ≠ t) :
    s.mapPkts t f = s := by
  rw [mapPkts_eq, map_unless hx, map_unless hj]

theorem pumpTeam_none {s : State} {t : Nat} (hx : ∀ p ∈ s.fabric.xfers, p.2.team ≠ t) : s.pumpTeam t = s := by
  unfold State.pumpTeam
  rw [List.filter_eq_nil_iff.mpr fun p hp h => hx p hp (of_decide_eq_true h)]
  rfl

theorem wakeJobs_none {s : State} {ts : List Nat} (hj : ∀ p ∈ s.jobs, p.2.team ∉ ts) : s.wakeJobs ts = s := by
  unfold State.wakeJobs
  rw [List.filter_eq_nil_iff.mpr fun p hp h => hj p hp (List.contains_iff_mem.mp (Bool.and_eq_true_iff.mp h).1)]
  rfl

/-- The state of a team's groups when it has stopped: their scalar streams are taken back. -/
def State.takenBack (s : State) (t : Nat) : State := { s with groups := s.groups.map fun p => if p.2.team = t then (p.1, p.2.abandon) else p }

theorem takenBack_find (s : State) (t g : Nat) : (s.takenBack t).groups.find g
    = (s.groups.find g).map fun x => if x.team = t then { x with swait := x.swait.filter SWait.kept } else x := by
  refine (find_mapIf (c := fun _ x => x.team = t) s.groups Group.abandon g).trans ?_
  simp only [abandon_eq]

theorem takenBack_team (s : State) (t g : Nat) : ((s.takenBack t).group g).team = (s.group g).team := by
  unfold State.group SMap.get
  rw [takenBack_find]
  cases s.groups.find g with
  | none => rfl
  | some x =>
    show (if x.team = t then _ else x).team = x.team
    split <;> rfl

theorem preempt_stays {s : State} {h : W64} {t : Nat} (ht : s.teamOf h = some t)
    (hn : (s.team t).stopping = false ∨ (s.team t).stopped = true ∨ ¬s.lanesOff t ∨ ¬s.drained t) : exec (.preempt h) s = .next s := by
  have hq : ¬s.lanesOff t ∨ ¬s.drained t → s.quiescent t = false := fun hn =>
    Bool.not_eq_true _ ▸ fun hq => hn.elim (fun hn => hn ((quiescent_iff s t).mp hq).1) fun hn => hn ((quiescent_iff s t).mp hq).2
  show execPreempt h s = _
  rw [execPreempt, ht]
  refine if_pos ?_
  obtain hn | hn | hn := hn
  · rw [hn]; rfl
  · rw [hn, Bool.or_true, Bool.true_or]
  · rw [hq hn, Bool.not_false, Bool.or_true]

theorem preempt_stops {s : State} {h : W64} {t : Nat} (ht : s.teamOf h = some t) (hg : (s.team t).stopping = true) (hs : (s.team t).stopped = false)
    (hl : s.lanesOff t) (hd : s.drained t) : exec (.preempt h) s
      = .next (((((s.takenBack t).takeLatch t).mapPkts t (PktState.hold s.timeNs)).modTeam t fun x => { x with stopped := true }).shaltEvent 4) := by
  show execPreempt h s = _
  rw [execPreempt, ht]
  exact if_neg (by rw [hg, hs, (quiescent_iff s t).mpr ⟨hl, hd⟩]; decide)

/-- A team that has stopped. -/
theorem preempted_to (s : State) (t : Nat) : ∃ u : State,
    (((s.takenBack t).takeLatch t).mapPkts t (PktState.hold s.timeNs)).modTeam t (fun x => { x with stopped := true }) = u
      ∧ u = { s with teams := u.teams, groups := u.groups, cores := u.cores, jobs := u.jobs, fabric := { s.fabric with xfers := u.fabric.xfers } }
      ∧ (∀ n, u.fabric.xfers.find n = (s.fabric.xfers.find n).map fun q =>
          if q.team = t then { q with pkts := q.pkts.map (Pkt.withSt (PktState.hold s.timeNs)) } else q)
      ∧ (∀ n, u.jobs.find n = (s.jobs.find n).map fun j =>
          if j.team = t then { j with chunks := j.chunks.map fun c => { c with pkts := c.pkts.map (Pkt.withSt (PktState.hold s.timeNs)) } } else j)
      ∧ (∀ w, w ≠ t → u.teams.find w = s.teams.find w) ∧ (∀ c, c ≠ (s.team t).core → u.cores.find c = s.cores.find c)
      ∧ (∀ g, u.groups.find g = (s.groups.find g).map fun x => if x.team = t then { x with swait := x.swait.filter SWait.kept } else x)
      ∧ ((∀ a, (s.core (s.team t).core).alatch = some a → (s.group a.gid).team ≠ t) → u.team t = { s.team t with stopped := true } ∧ u.cores = s.cores)
      ∧ ∀ a, (s.core (s.team t).core).alatch = some a → (s.group a.gid).team = t →
        u.team t = { s.team t with stopped := true, rows := some (a.gid, a.rows) }
          ∧ u.core (s.team t).core = { s.core (s.team t).core with alatch := none } := by
  obtain ⟨ts, cs, he, hts, hcs, hno, hla⟩ := takeLatch_to (s.takenBack t) t
  rw [he]
  refine ⟨_, rfl, rfl, fun n => mapPkts_xfers _ t n _, fun n => mapPkts_jobs _ t n _,
    fun w hw => (SMap.find_insert_ne _ _ hw).trans (hts w hw), hcs, takenBack_find s t, fun h => ?_, fun a ha hat => ?_⟩
  · obtain ⟨rfl, hc⟩ := hno fun a ha => by rw [takenBack_team]; exact h a ha
    exact ⟨team_modTeam_self _ _ _, hc⟩
  · obtain ⟨h1, h2⟩ := hla a ha (by rw [takenBack_team]; exact hat)
    refine ⟨(team_modTeam_self _ _ _).trans ?_, h2⟩
    show ({ SMap.get ({} : Team) ts t with stopped := true } : Team) = _
    rw [h1]
    rfl

/-! ## A gang that goes on (R415) -/

section
variable (s : State) (t : Nat)

/-- A team of the gang of a team, that was saved. -/
def State.ofGang (x : Team) : Prop := x.launch = (s.team t).launch ∧ x.gang = (s.team t).gang ∧ (x.saved = true ∨ x.again = true)

/-- Every team of the gang that was saved has been loaded whole. -/
def State.gangWhole : Prop := ∀ p ∈ s.teams, s.ofGang t p.2 → p.2.again = true ∧ p.2.loaded = true
  ∧ ∀ q ∈ s.groups, q.2.team = p.1 → q.2.ended = false → (s.group q.1).loaded = true

/-- The numbers of the gang's teams. -/
def State.gangIds : List Nat :=
  (s.teams.filter fun p => decide (p.2.launch = (s.team t).launch) && decide (p.2.gang = (s.team t).gang) && (p.2.saved || p.2.again)).map (·.1)

theorem mem_gang {p : Nat × Team} : p ∈ (s.teams.filter fun p =>
      decide (p.2.launch = (s.team t).launch) && decide (p.2.gang = (s.team t).gang) && (p.2.saved || p.2.again))
    ↔ p ∈ s.teams ∧ s.ofGang t p.2 := by
  simp only [List.mem_filter, Bool.and_eq_true, Bool.or_eq_true, decide_eq_true_eq, State.ofGang, and_assoc]

theorem mem_gangIds {i : Nat} : i ∈ s.gangIds t ↔ ∃ p ∈ s.teams, p.1 = i ∧ s.ofGang t p.2 := by
  simp only [State.gangIds, List.mem_map, mem_gang]
  exact exists_congr fun p => ⟨fun ⟨⟨h1, h2⟩, h3⟩ => ⟨h1, h3, h2⟩, fun ⟨h1, h3, h2⟩ => ⟨⟨h1, h2⟩, h3⟩⟩

theorem gangWhole_iff : ((s.teams.filter fun p =>
      decide (p.2.launch = (s.team t).launch) && decide (p.2.gang = (s.team t).gang) && (p.2.saved || p.2.again)).all fun p =>
        p.2.again && p.2.loaded && (s.liveGroups p.1).all fun g => (s.group g).loaded) = true ↔ s.gangWhole t := by
  rw [List.all_eq_true]
  constructor
  · intro h p hp hg
    have := h p ((mem_gang s t).mpr ⟨hp, hg⟩)
    simp only [Bool.and_eq_true, List.all_eq_true] at this
    exact ⟨this.1.1, this.1.2, fun q hq ht he => this.2 q.1 (List.mem_map.mpr ⟨q, List.mem_filter.mpr ⟨hq, by rw [ht, he, decide_eq_true rfl]; rfl⟩, rfl⟩)⟩
  · intro h p hp
    obtain ⟨hm, hg⟩ := (mem_gang s t).mp hp
    obtain ⟨ha, hl, hq⟩ := h p hm hg
    simp only [ha, hl, Bool.true_and, List.all_eq_true]
    intro g hgm
    obtain ⟨q, hqm, rfl⟩ := List.mem_map.mp hgm
    obtain ⟨hqm, hc⟩ := List.mem_filter.mp hqm
    simp only [Bool.and_eq_true, decide_eq_true_eq, Bool.not_eq_true'] at hc
    exact hq q hqm hc.1 hc.2

/-- A team that goes on. -/
def Team.woken (x : Team) : Team := { x with stopping := false, stopped := false, again := false, loaded := false }

/-- The machine when the gang goes on, before its packets and jobs do. -/
def State.gangOn : State := { s with
  teams := s.teams.map fun p => if (s.gangIds t).contains p.1 then (p.1, p.2.woken) else p
  groups := s.groups.map fun p => if (s.gangIds t).contains p.2.team then (p.1, { p.2 with loaded := false }) else p }

theorem resumeGang_waits (h : ¬s.gangWhole t) : s.resumeGang t = s := by
  unfold State.resumeGang
  exact if_neg fun hw => h ((gangWhole_iff s t).mp hw)

theorem resumeGang_goes (h : s.gangWhole t) : s.resumeGang t
    = ((s.gangIds t).foldl (fun u i => (u.mapPkts i (PktState.rise u.timeNs)).pumpTeam i) (s.gangOn t)).wakeJobs (s.gangIds t) := by
  unfold State.resumeGang
  exact (if_pos ((gangWhole_iff s t).mpr h)).trans rfl

/-- With no transfer and no job of the gang, its teams and groups go on, and nothing else changes. -/
theorem resumeGang_quiet (h : s.gangWhole t) (hx : ∀ p ∈ s.fabric.xfers, p.2.team ∉ s.gangIds t) (hj : ∀ p ∈ s.jobs, p.2.team ∉ s.gangIds t) :
    s.resumeGang t = s.gangOn t := by
  have key : ∀ ids : List Nat, (∀ i ∈ ids, i ∈ s.gangIds t) →
      ids.foldl (fun u i => (u.mapPkts i (PktState.rise u.timeNs)).pumpTeam i) (s.gangOn t) = s.gangOn t := by
    intro ids
    induction ids with
    | nil => exact fun _ => rfl
    | cons i ids ih =>
      intro hi
      have hxi (p) (hp : p ∈ (s.gangOn t).fabric.xfers) : p.2.team ≠ i := fun e => hx p hp (e ▸ hi i List.mem_cons_self)
      have hji (p) (hp : p ∈ (s.gangOn t).jobs) : p.2.team ≠ i := fun e => hj p hp (e ▸ hi i List.mem_cons_self)
      rw [List.foldl_cons, mapPkts_none _ hxi hji, pumpTeam_none hxi]
      exact ih fun j hm => hi j (List.mem_cons_of_mem _ hm)
  rw [resumeGang_goes s t h, key _ fun _ => id, wakeJobs_none (s := s.gangOn t) hj]

theorem gangOn_team {i : Nat} {x : Team} (h : s.teams.find i = some x) : (s.gangOn t).team i = if i ∈ s.gangIds t then x.woken else x := by
  have hf := find_mapIf (c := fun i _ => (s.gangIds t).contains i = true) s.teams Team.woken i
  rw [h] at hf
  show (SMap.find (s.gangOn t).teams i).getD {} = _
  rw [show SMap.find (s.gangOn t).teams i = _ from hf]
  exact if_congr List.contains_iff_mem rfl rfl

theorem gangOn_group {g : Nat} {x : Group} (h : s.groups.find g = some x) :
    (s.gangOn t).group g = if x.team ∈ s.gangIds t then { x with loaded := false } else x := by
  have hf := find_mapIf (c := fun _ x => (s.gangIds t).contains x.team = true) s.groups (fun x => { x with loaded := false }) g
  rw [h] at hf
  show (SMap.find (s.gangOn t).groups g).getD {} = _
  rw [show SMap.find (s.gangOn t).groups g = _ from hf]
  exact if_congr List.contains_iff_mem rfl rfl

end

theorem preemption : Preemption := by
  unfold Preemption
  intro s h t ht _ tm still idle back
  refine ⟨⟨rfl, team_modTeam_self s t fun x => { x with stopping := true }, fun w hw => SMap.find_insert_ne _ _ hw, haltTeam_jobs s t⟩, preempt_stays ht, fun hg hs hl hd => ?_, ?_⟩
  · intro now kept pkts
    have hk : kept = PktState.hold s.timeNs := by
      funext o
      cases o <;> rfl
    have hp (ks : List Pkt) : pkts ks = ks.map (Pkt.withSt (PktState.hold s.timeNs)) := by
      rw [← hk]
      rfl
    obtain ⟨u, hu, ho, hx, hj, hts, hcs, hgr, hno, hla⟩ := preempted_to s t
    simp only [hp]
    exact ⟨u, by rw [preempt_stops ht hg hs hl hd, hu], ho, hx, hj, hts, hcs, hgr, hno, hla⟩
  · intro gang whole mine
    have hm (i : Nat) : mine i ↔ i ∈ s.gangIds t := (mem_gangIds s t).symm
    refine ⟨resumeGang_waits s t, fun hw _ hx hj => ⟨s.gangOn t, ?_, rfl, fun i x hi => ?_, fun g x hi => ?_⟩⟩
    · exact resumeGang_quiet s t hw (fun p hp h => hx p hp ((hm _).mpr h)) fun p hp h => hj p hp ((hm _).mpr h)
    · rw [gangOn_team s t hi]
      exact ⟨fun h => if_pos ((hm i).mp h), fun h => if_neg (mt (hm i).mpr h)⟩
    · rw [gangOn_group s t hi]
      exact ⟨fun h => if_pos ((hm _).mp h), fun h => if_neg (mt (hm _).mpr h)⟩

/-- Settles O42: the pager's records and answers by what they name; a stopping team by what of it still runs. -/
theorem pagerAndPreemption : Obligations.PagerAndPreemption := ⟨pagerEvents, preemption⟩

end Sys2Proof.Machine
end

section
/-! PROOFS. TLBI and KEYOP (R83, R84, R86, R410). -/

namespace Sys2Proof.Machine

@[simp] theorem State.sreadAt_zero (s : State) (a : BitVec 6) : s.sreadAt a 0 = s.sread a :=
  congrArg s.cur.sread (BitVec.add_zero a)

/-! ## TLBI (R83) -/

/-- The state without the translations, pointing entries and ATC entries that do not stay. -/
def State.keepsXlates (s : State) (stayT : TlbEntry → Bool) (stayW : WalkEntry → Bool) (stayA : AtcEntry → Bool) : State :=
  { s with mem := { s.mem with tlb := s.mem.tlb.filter stayT, walks := s.mem.walks.filter stayW, atc := s.mem.atc.filter stayA } }

theorem State.tlbiAll_eq (s : State) : s.tlbiAll = s.keepsXlates (fun _ => false) (fun _ => false) (fun _ => false) := by
  simp only [State.keepsXlates, List.filter_false]
  rfl

/-- A form of TLBI completes with status 0 and removes what it does not keep, and nothing else. -/
theorem tlbi_leaves {i : Instr} {s : State} {d : BitVec 6} {stayT : TlbEntry → Bool} {stayW : WalkEntry → Bool} {stayA : AtcEntry → Bool}
    {goT : TlbEntry → Prop} {goW : WalkEntry → Prop} {goA : AtcEntry → Prop}
    (h : exec i s = .next ((s.keepsXlates stayT stayW stayA).sput d 0))
    (hT : ∀ e, stayT e = true ↔ ¬goT e) (hW : ∀ e, stayW e = true ↔ ¬goW e) (hA : ∀ e, stayA e = true ↔ ¬goA e) :
    ∃ u, ScalarAfter i s u d 0 ∧ u = { s with mem := { s.mem with tlb := u.mem.tlb, walks := u.mem.walks, atc := u.mem.atc } }
      ∧ (∀ e, e ∈ u.mem.tlb ↔ e ∈ s.mem.tlb ∧ ¬goT e) ∧ (∀ e, e ∈ u.mem.walks ↔ e ∈ s.mem.walks ∧ ¬goW e)
      ∧ ∀ e, e ∈ u.mem.atc ↔ e ∈ s.mem.atc ∧ ¬goA e :=
  ⟨_, .of_sput h, rfl, fun e => List.mem_filter.trans (and_congr_right' (hT e)), fun e => List.mem_filter.trans (and_congr_right' (hW e)),
    fun e => List.mem_filter.trans (and_congr_right' (hA e))⟩

theorem TlbEntry.covers_iff (e : TlbEntry) (va : W64) :
    e.covers va = true ↔ e.page ≤ va.toNat ∧ va.toNat < e.page + pageBytes e.leaf.size := by simp [TlbEntry.covers]

theorem AtcEntry.covers_iff (e : AtcEntry) (va : W64) :
    e.covers va = true ↔ e.page * 4096 ≤ va.toNat ∧ va.toNat < e.page * 4096 + e.bytes := by simp [AtcEntry.covers]

/-- What stays but for a named group of translations that are not G. -/
theorem glob_or_not_iff (g : Bool) (p : Prop) [Decidable p] : (g || decide ¬p) = true ↔ ¬(g = false ∧ p) := by
  cases g <;> simp

theorem tlbiVa_exec {s : State} {a d : BitVec 6} (hp : s.cur.mode = .priv) : exec (.tlbiVa a d) s
    = if canonical (s.sread a) then .next ((s.tlbiVa ((s.sread (a + 1)).toNat % 2 ^ 32) (s.sread a)).sput d 0) else .next (s.sput d 0x10) := by
  show execTlbiVa a d s = _
  rw [execTlbiVa, privileged_of_priv hp, State.sreadAt_zero]
  cases canonical (s.sread a) <;> rfl

theorem translationInvalidation : TranslationInvalidation := by
  unfold TranslationInvalidation
  intro s a d hp va ctx one pasid inTlb inAtc leaves
  have hva := tlbiVa_exec (a := a) (d := d) hp
  refine ⟨fun h => .of_sput (hva.trans (if_neg (by rw [h]; decide))) rfl, fun h => ?_, ?_, ?_, ?_⟩
  · have ht (e : TlbEntry) : (!(e.covers va && (e.leaf.glob || decide (e.ctx = ctx)))) = true ↔ ¬(inTlb e ∧ (e.leaf.glob = true ∨ e.ctx = ctx)) := by
      simp only [Bool.not_eq_true', ← Bool.not_eq_true, Bool.and_eq_true, Bool.or_eq_true, decide_eq_true_eq, e.covers_iff va]
      rfl
    have hw (e : WalkEntry) : (!(decide (e.ctx = ctx) && decide (e.tag = walkTag e.level va))) = true
        ↔ ¬(e.ctx = ctx ∧ e.tag = va.toNat % 2 ^ 57 / 2 ^ (3 + 9 * e.level)) := by
      simp only [Bool.not_eq_true', ← Bool.not_eq_true, Bool.and_eq_true, decide_eq_true_eq]
      rfl
    have ha (e : AtcEntry) : (!(e.covers va && decide (e.pasid = (s.context ctx).pasid))) = true ↔ ¬(inAtc e ∧ e.pasid = (s.context ctx).pasid) := by
      simp only [Bool.not_eq_true', ← Bool.not_eq_true, Bool.and_eq_true, decide_eq_true_eq, e.covers_iff va]
      rfl
    exact tlbi_leaves (hva.trans (if_pos h)) ht hw ha
  · exact tlbi_leaves (show execTlbiCtx a d s = _ from privileged_of_priv hp _) (fun _ => glob_or_not_iff _ _) (fun _ => decide_eq_true_iff)
      fun _ => decide_eq_true_iff
  · exact tlbi_leaves (show execTlbiPasid a d s = _ from privileged_of_priv hp _) (fun _ => glob_or_not_iff _ _) (fun _ => decide_eq_true_iff)
      fun _ => decide_eq_true_iff
  · exact tlbi_leaves (show execTlbiAll a d s = _ from (privileged_of_priv hp _).trans (by rw [State.tlbiAll_eq]; rfl))
      (fun _ => by decide) (fun _ => by decide) fun _ => by decide

/-! ## KEYOP (R84, R86) -/

theorem badKey_iff (w : W64) : badKey w = true ↔ w.toNat = 0 ∨ 255 < w.toNat := by
  simp only [badKey, Bool.or_eq_true, decide_eq_true_eq]
  exact or_congr_left ⟨fun h => by rw [h]; rfl, fun h => BitVec.eq_of_toNat_eq h⟩

section
variable {s : State} {a d : BitVec 6} (hp : s.cur.mode = .priv)
include hp

theorem keyop_badKey (h : (s.sread a).toNat = 0 ∨ 255 < (s.sread a).toNat) :
    ScalarGives (.keyopLoad a d) s d 0x10 ∧ ScalarGives (.keyopUnload a d) s d 0x10 := by
  have hb := (badKey_iff (s.sread a)).mpr h
  exact ⟨.of_sput (show execKeyopLoad a d s = _ from (privileged_of_priv hp _).trans (if_pos hb)) rfl,
    .of_sput (show execKeyopUnload a d s = _ from (privileged_of_priv hp _).trans (if_pos hb)) rfl⟩

variable (hb : badKey (s.sread a) ≠ true)
include hb

theorem keyopLoad_loaded (h : (s.mem.keys.find (s.sread a).toNat).isSome = true) : ScalarGives (.keyopLoad a d) s d 0x55 :=
  .of_sput (show execKeyopLoad a d s = _ from (privileged_of_priv hp _).trans ((if_neg hb).trans (if_pos h))) rfl

theorem keyopUnload_absent (h : s.mem.keys.find (s.sread a).toNat = none) : ScalarGives (.keyopUnload a d) s d 0x56 :=
  .of_sput (show execKeyopUnload a d s = _ from (privileged_of_priv hp _).trans ((if_neg hb).trans (if_pos (by rw [h]; rfl)))) rfl

theorem keyopUnload_loaded (h : (s.mem.keys.find (s.sread a).toNat).isSome = true) : ScalarAfter (.keyopUnload a d) s
    { s with mem := s.mem.unloadKey (s.sread a).toNat } d 0 :=
  .of_sput (show execKeyopUnload a d s = _ from (privileged_of_priv hp _).trans ((if_neg hb).trans (if_neg (by simpa [Option.isSome_iff_ne_none] using h))))

theorem keyopLoad_loads {b e : List Byte} {u v : State} (h : s.mem.keys.find (s.sread a).toNat = none)
    (hu : s.engRead s.sacc (.scalar s.curGid) (s.sread (a + 1)) 64 = (.ok b, u))
    (hv : u.engWrite u.sacc (.store u.curTeam.ctx) (s.sread (a + 1)) (List.replicate 64 0) = (.ok e, v)) :
    ScalarAfter (.keyopLoad a d) s { v with mem := v.mem.loadKey (s.sread a).toNat (BitVec.ofNat 512 (ofLeBytes b)) } d 0 := by
  refine .of_sput (?_ : execKeyopLoad a d s = _)
  rw [execKeyopLoad, privileged_of_priv hp, if_neg hb, if_neg (by rw [h]; decide)]
  unfold State.sysRead State.sysWrite
  rw [show s.sreadAt a 1 = s.sread (a + 1) from rfl, hu]
  dsimp only
  rw [hv]
  rfl

end

theorem Mem.unloadKey_absent (m : Mem) (id : Nat) : (m.unloadKey id).keys.find id = none :=
  (SMap.find_erase _ _ _).trans (if_pos rfl)

theorem keyOperations : KeyOperations := by
  unfold KeyOperations
  intro s a d hp n va x
  refine ⟨keyop_badKey hp, fun h1 h255 => ?_⟩
  have hb : badKey (s.sread a) ≠ true := fun h => by rcases (badKey_iff _).mp h with h | h <;> omega
  refine ⟨fun k hk => ?_, keyopUnload_absent hp hb, fun b u e v hn hu hv => keyopLoad_loads hp hb hn hu hv⟩
  have hl : (s.mem.keys.find (s.sread a).toNat).isSome = true := Option.isSome_of_mem hk
  exact ⟨keyopLoad_loaded hp hb hl, _, keyopUnload_loaded hp hb hl, rfl, Mem.unloadKey_absent _ _⟩

/-- Settles O20: each form of TLBI by what it keeps, each operation of KEYOP by the branch its key id takes. -/
theorem translationAndKeys : Obligations.TranslationAndKeys := ⟨translationInvalidation, keyOperations⟩

end Sys2Proof.Machine
end

section
/-! PROOFS. Prefetch groups and persistent flushes (R67, R97, R98, R99). -/

namespace Sys2Proof.Machine

/-! ## What a translation changes -/

/-- `t` differs from `s` in memory and in the count of free values alone. -/
def State.MemOnly (s t : State) : Prop := t = { s with mem := t.mem, free := t.free }

section
variable {s t u : State}

theorem State.MemOnly.refl (s : State) : s.MemOnly s := rfl

theorem State.MemOnly.trans (h : s.MemOnly t) (k : t.MemOnly u) : s.MemOnly u := by
  unfold State.MemOnly at *
  rw [k, h]

theorem State.MemOnly.of_pair {α : Type} {x : α × State} {a : α} (h : s.MemOnly x.2) (e : x = (a, t)) : s.MemOnly t := by
  rw [e] at h
  exact h

theorem State.MemOnly.foldl {α : Type} {f : State → α → State} (hf : ∀ s a, State.MemOnly s (f s a)) (l : List α) (s : State) :
    s.MemOnly (l.foldl f s) := by
  induction l generalizing s with
  | nil => exact .refl s
  | cons a l ih => exact (hf s a).trans (ih _)

theorem memOnly_draw (s : State) : s.MemOnly s.draw.2 := rfl

theorem State.MemOnly.setMem (h : s.MemOnly t) (m : Mem) : s.MemOnly { t with mem := m } := by
  unfold State.MemOnly at *
  rw [h]

theorem State.MemOnly.ite {c : Prop} [Decidable c] (h : s.MemOnly t) (k : s.MemOnly u) : s.MemOnly (if c then t else u) := by
  split
  · exact h
  · exact k

theorem memOnly_tlbKeep (s : State) (h c : Nat) (va : W64) (l : Leaf) : s.MemOnly (s.tlbKeep h c va l) :=
  ((State.MemOnly.refl s).ite (memOnly_draw s)).setMem _

theorem memOnly_cacheLeaf (s : State) (x : Acc) (va : W64) (l : Leaf) (f : Source) : s.MemOnly (s.cacheLeaf x va l f) := by
  cases f with
  | core => exact .refl s
  | die => exact memOnly_tlbKeep s _ _ _ _
  | walk w =>
    exact (((State.MemOnly.refl s).ite (memOnly_draw s)).setMem _).trans ((memOnly_tlbKeep _ _ _ _ _).trans (memOnly_tlbKeep _ _ _ _ _))

theorem memOnly_xlate (s : State) (x : Acc) (va : W64) (k : AKind) : s.MemOnly (s.xlate x va k).2 := by
  unfold State.xlate
  split
  · exact .refl s
  · split
    · exact memOnly_cacheLeaf s _ _ _ _
    · exact .refl s

theorem memOnly_springAt (s : State) (x : Spring) (n : Nat) : s.MemOnly (s.springAt x n).2 := by
  have h := memOnly_xlate s { core := x.core, ctx := x.ctx, mode := if x.priv then .priv else .user, gid := 2 ^ 40 } (x.va n) .read
  rw [State.springAt]
  generalize s.xlate _ _ _ = q at h ⊢
  obtain ⟨r, t⟩ := q
  cases r with
  | ok => exact h
  | fault => exact h
  | ats => exact h

end

/-! ## PFH (R97, R98, R99) -/

section
variable (s : State) (a : BitVec 6)

/-- The operands of PFH are in range: page size, base and pitch. -/
def State.pfhOk : Prop :=
  (s.sread (a + 2)).toNat < 2 ^ 12 ∧ 2 ≤ (s.sread (a + 2)).toNat / 64 % 16 ∧ (s.sread (a + 2)).toNat / 64 % 16 ≤ 9
    ∧ (s.sread a).toNat % pageBytes ((s.sread (a + 2)).toNat / 64 % 16) = 0 ∧ s.sread (a + 1) ≠ 0
    ∧ (s.sread (a + 1)).toNat % pageBytes ((s.sread (a + 2)).toNat / 64 % 16) = 0

/-- A slot of the prefetch unit. -/
def Mem.springSlot (m : Mem) (n : Nat) : Spring := SMap.get ({} : Spring) m.spring n

/-- Prefetch groups that a context holds. -/
def Mem.springHeld (m : Mem) (ctx : Nat) : Nat := m.spring.countP fun p => p.2.live && decide (p.2.ctx = ctx)

/-- The group that PFH puts into slot n. -/
def State.pfhEntry (n : Nat) : Spring :=
  let w := s.sread (a + 2)
  { live := true, priv := decide (s.cur.mode = .priv), gen := (s.mem.springSlot n).gen % 255 + 1, ctx := s.curTeam.ctx, base := s.sread a,
    pitch := s.sread (a + 1), rows := wbits w 0 3 + 1, cols := wbits w 3 3 + 1, size := wbits w 6 4, core := s.curTeam.core,
    prio := wbits w 10 2, order := s.mem.springOrder }

/-- The state once PFH has taken slot n. -/
def State.pfhTaken (n : Nat) : State :=
  { s with mem := { s.mem with spring := s.mem.spring.insert n (s.pfhEntry a n), springOrder := s.mem.springOrder + 1 } }

theorem State.pfhOk_iff : ¬s.pfhOk a ↔ wbits (s.sreadAt a 2) 12 52 ≠ 0 ∨ wbits (s.sreadAt a 2) 6 4 < 2 ∨ 9 < wbits (s.sreadAt a 2) 6 4
    ∨ (s.sreadAt a 0).toNat % pageBytes (wbits (s.sreadAt a 2) 6 4) ≠ 0 ∨ s.sreadAt a 1 = 0
    ∨ (s.sreadAt a 1).toNat % pageBytes (wbits (s.sreadAt a 2) 6 4) ≠ 0 := by
  have h12 : (s.sread (a + 2)).toNat < 2 ^ 12 ↔ wbits (s.sreadAt a 2) 12 52 = 0 := by
    have hlt := (s.sread (a + 2)).isLt
    show _ ↔ (s.sread (a + 2)).toNat / 2 ^ 12 % 2 ^ 52 = 0
    omega
  have h6 : wbits (s.sreadAt a 2) 6 4 = (s.sread (a + 2)).toNat / 64 % 16 := rfl
  rw [State.pfhOk, h12, h6, State.sreadAt_zero, show s.sreadAt a 1 = s.sread (a + 1) from rfl]
  simp only [not_and_or, not_le, ne_eq, not_not]

variable {s a} {d : BitVec 6} {n : Nat}

theorem pfh_refused (h : ¬s.pfhOk a) : exec (.pfh a d) s = .next (s.sput d 1) := if_pos ((s.pfhOk_iff a).mp h)

/-- The lowest free slot of the prefetch unit. -/
def Mem.springFree (m : Mem) : Option Nat := (List.range 256).find? fun n => !(m.springSlot n).live

theorem Mem.springFree_eq_none {m : Mem} (h : ∀ n, n < 256 → (m.springSlot n).live = true) : m.springFree = none := by
  simpa [Mem.springFree] using h

theorem Mem.springFree_eq_some {m : Mem} (hn : n < 256) (h : (m.springSlot n).live = false) (hl : ∀ i, i < n → (m.springSlot i).live = true) :
    m.springFree = some n := by
  refine List.find?_range_eq_some.mpr ⟨by rw [h]; rfl, List.mem_range.mpr hn, fun i hi => by rw [hl i hi]; rfl⟩

/-- What PFH does with the lowest free slot, once its operands are in range. -/
theorem pfh_ok (h : s.pfhOk a) : exec (.pfh a d) s = (s.mem.springFree).elim (.next (s.sput d 2)) fun n =>
    if 64 ≤ s.mem.springHeld s.curTeam.ctx then .next (s.sput d 2)
    else .next ((s.pfhTaken a n).sput d (BitVec.ofNat 64 ((((s.mem.springSlot n).gen % 255 + 1) * 256 + n) * 65536))) := by
  have hc : s.mem.springHeld s.curTeam.ctx = (s.mem.spring.filter fun p => p.2.live && decide (p.2.ctx = s.curTeam.ctx)).length :=
    List.countP_eq_length_filter
  refine (if_neg (mt (s.pfhOk_iff a).mpr (not_not.mpr h)) : execPfh a d s = _).trans ?_
  rw [hc]
  unfold State.pfhTaken State.pfhEntry
  rw [← State.sreadAt_zero s a]
  show _ = Option.elim ((List.range 256).find? fun n => !(SMap.get ({} : Spring) s.mem.spring n).live) _ _
  cases (List.range 256).find? fun n => !(SMap.get ({} : Spring) s.mem.spring n).live with
  | none => rfl
  | some n => rfl

end

/-! ## PFDROP (R99) -/

/-- What PFDROP does to the frame that frame i of a group stands in: an unpinned one loses its count. -/
def State.springZero (x : Spring) (s : State) (i : Nat) : State :=
  match s.springAt x i with
  | (some (l, p), s) => match s.mem.residentAt l p with
    | some f => if (s.mem.frame f).pinned then s else { s with mem := s.mem.modFrame f fun y => { y with counter := 0 } }
    | none => s
  | (none, s) => s

theorem memOnly_springZero (x : Spring) (s : State) (i : Nat) : s.MemOnly (State.springZero x s i) := by
  have h := memOnly_springAt s x i
  rw [State.springZero]
  generalize s.springAt x i = q at h ⊢
  obtain ⟨o, t⟩ := q
  cases o with
  | none => exact h
  | some la =>
    dsimp only
    cases t.mem.residentAt la.1 la.2 with
    | none => exact h
    | some f => exact .ite h (h.setMem _)

section
variable {s : State} {a d : BitVec 6}

theorem pfdrop_refused (h : 65536 ≤ (s.sread a).toNat ∨ (s.mem.springSlot ((s.sread a).toNat % 256)).live = false
    ∨ (s.mem.springSlot ((s.sread a).toNat % 256)).gen ≠ (s.sread a).toNat / 256
    ∨ (s.mem.springSlot ((s.sread a).toNat % 256)).ctx ≠ s.curTeam.ctx) : exec (.pfdrop a d) s = .next (s.sput d 3) := by
  rw [← Bool.not_eq_true'] at h
  exact if_pos h

theorem pfdrop_drops (h : (s.sread a).toNat < 65536) (hl : (s.mem.springSlot ((s.sread a).toNat % 256)).live = true)
    (hg : (s.mem.springSlot ((s.sread a).toNat % 256)).gen = (s.sread a).toNat / 256)
    (hc : (s.mem.springSlot ((s.sread a).toNat % 256)).ctx = s.curTeam.ctx) :
    ∃ u, exec (.pfdrop a d) s = .next (u.sput d (BitVec.ofNat 64 ((s.mem.springSlot ((s.sread a).toNat % 256)).skipped % 2 ^ 48 * 65536)))
      ∧ s.MemOnly u ∧ (u.mem.springSlot ((s.sread a).toNat % 256)).live = false := by
  have hn : ¬(65536 ≤ (s.sread a).toNat ∨ (!(s.mem.springSlot ((s.sread a).toNat % 256)).live) = true
      ∨ (s.mem.springSlot ((s.sread a).toNat % 256)).gen ≠ (s.sread a).toNat / 256
      ∨ (s.mem.springSlot ((s.sread a).toNat % 256)).ctx ≠ s.curTeam.ctx) := by simp [hl, hg, hc, h]
  refine ⟨_, if_neg hn, (State.MemOnly.foldl (memOnly_springZero _) _ s).setMem _, ?_⟩
  exact congrArg Spring.live (SMap.get_insert_self _ _ _ _)

end

theorem prefetchGroups : PrefetchGroups := by
  unfold PrefetchGroups
  intro s a d n base pitch w code ctx good slot held gen entry h
  have hentry : s.pfhEntry a n = entry := by
    have h0 : wbits (s.sread (a + 2)) 0 3 = w % 8 := by simp [wbits, w]
    rw [State.pfhEntry, h0]
    rfl
  refine ⟨fun hg => .of_sput (pfh_refused hg) rfl, fun hg hf => ?_, fun hg hh hn hf hl => ?_, fun hr => .of_sput (pfdrop_refused hr) rfl,
    fun h16 hl hg hc => ?_⟩
  · have hp := pfh_ok (d := d) (s := s) (a := a) hg
    rcases hf with hf | hf
    · cases e : s.mem.springFree with
      | none => exact .of_sput (hp.trans (by rw [e]; rfl)) rfl
      | some m => exact .of_sput (hp.trans (by rw [e]; exact if_pos hf)) rfl
    · exact .of_sput (hp.trans (by rw [Mem.springFree_eq_none hf]; rfl)) rfl
  · have hp := pfh_ok (d := d) (s := s) (a := a) hg
    rw [Mem.springFree_eq_some hn hf hl] at hp
    refine ⟨s.pfhTaken a n, .of_sput (hp.trans (if_neg (Nat.not_le.mpr hh))), rfl, fun m hm => SMap.find_insert_ne _ _ hm, ?_⟩
    exact (SMap.get_insert_self _ _ _ _).trans hentry
  · obtain ⟨u, hu, ho, hd⟩ := pfdrop_drops (d := d) (s := s) (a := a) h16 hl hg hc
    exact ⟨u, .of_sput hu, ho, hd⟩

/-! ## PERSIST (R67) -/

theorem ScalarWaitsIn.of_swaitOn {i : Instr} {s u : State} {w : SWait} (h : exec i s = .next (u.swaitOn w)) (hi : w.instr = i) :
    ScalarWaitsIn i s u :=
  ⟨_, w, h, onlyGroup_modCur u _, State.cur_modCur u _, hi⟩

section
variable {s : State} {i : Instr} {d : BitVec 6} {v start : W64} {nodes : List W64}

/-- Once every write is accepted, a flush that all its nodes acknowledge gives its status. -/
theorem persistEnd_done (hu : s.mem.unaccepted = []) (hn : ∀ n ∈ nodes, s.mem.answers n.toNat = true) :
    s.persistEnd i d v start nodes = s.sput d v := by
  have hd : (nodes.any fun n => !s.mem.answers n.toNat) = false := by simpa using hn
  unfold State.persistEnd
  rw [hd]
  exact if_pos ⟨hu, .inl rfl⟩

theorem persistEnd_waits (hu : s.mem.unaccepted ≠ []) :
    s.persistEnd i d v start nodes = s.swaitOn { instr := i, aux := v :: start :: nodes } := if_neg fun h => hu h.1

end

section
variable {s : State} {a d : BitVec 6}

/-- The last byte of a range that does not wrap. -/
theorem toNat_last {base len : W64} (h0 : len ≠ 0) (hl : len.toNat ≤ 2 ^ 46) : (base + len - 1).toNat < base.toNat ↔ 2 ^ 64 < base.toNat + len.toNat := by
  have h1 : len.toNat ≠ 0 := fun h => h0 (BitVec.eq_of_toNat_eq h)
  bv_omega

theorem persist_empty (h : s.sread (a + 1) = 0) : exec (.persist a d) s = .next (s.sput d 0) := if_pos h

/-- The range of PERSIST is not one of canonical addresses. -/
def State.persistBad (s : State) (a : BitVec 6) : Prop :=
  2 ^ 46 < (s.sread (a + 1)).toNat ∨ 2 ^ 64 < (s.sread a).toNat + (s.sread (a + 1)).toNat ∨ canonical (s.sread a + s.sread (a + 1) - 1) = false

theorem persistBad_iff (h0 : s.sread (a + 1) ≠ 0) : s.persistBad a ↔ 2 ^ 46 < (s.sread (a + 1)).toNat
    ∨ (!canonical (s.sread a + s.sread (a + 1) - 1)) = true ∨ (s.sread a + s.sread (a + 1) - 1).toNat < (s.sread a).toNat := by
  rw [Bool.not_eq_true', State.persistBad]
  refine ⟨fun h => ?_, fun h => ?_⟩
  · by_cases hl : (s.sread (a + 1)).toNat ≤ 2 ^ 46
    · rcases h with h | h | h
      · exact .inl h
      · exact .inr (.inr ((toNat_last h0 hl).mpr h))
      · exact .inr (.inl h)
    · exact .inl (Nat.not_le.mp hl)
  · by_cases hl : (s.sread (a + 1)).toNat ≤ 2 ^ 46
    · rcases h with h | h | h
      · exact .inl h
      · exact .inr (.inr h)
      · exact .inr (.inl ((toNat_last h0 hl).mp h))
    · exact .inl (Nat.not_le.mp hl)

theorem persist_badRange (h0 : s.sread (a + 1) ≠ 0) (h : s.persistBad a) : exec (.persist a d) s = .next (s.sput d 0x07) := by
  have hc := (persistBad_iff h0).mp h
  rw [← State.sreadAt_zero s a] at hc
  exact (if_neg h0).trans (if_pos hc)

/-- PERSIST of a range ends as the walk over its pages says. -/
theorem persist_pages (h0 : s.sread (a + 1) ≠ 0) (h : ¬s.persistBad a) {v : W64} {nodes : List Nat} {u : State}
    (hp : s.persistPages (s.sread a).toNat (s.sread (a + 1)).toNat 0 [] ((s.sread (a + 1)).toNat / 4096 + 2) = (v, nodes, u)) :
    exec (.persist a d) s = .next (u.persistEnd (.persist a d) d v s.timeNs (nodes.map (BitVec.ofNat 64))) := by
  have hc := mt (persistBad_iff h0).mpr h
  rw [← State.sreadAt_zero s a] at hc hp
  refine ((if_neg h0).trans (if_neg hc)).trans ?_
  rw [show s.sread (a + 1) = s.sreadAt a 1 from rfl] at hp
  rw [hp]

end

theorem persistCommands : PersistCommands := by
  unfold PersistCommands
  intro s a d base len
  refine ⟨fun h => .of_sput (persist_empty h) rfl, fun h0 h => .of_sput (persist_badRange h0 h) rfl, fun v nodes u h0 hl hw hc hp => ?_,
    fun hu hn => ?_, fun hu => .of_swaitOn (congrArg Host.Outcome.next (persistEnd_waits hu)) rfl⟩
  · have hgood : ¬s.persistBad a := by
      rintro (h | h | h)
      · exact Nat.not_lt.mpr hl h
      · exact Nat.not_lt.mpr hw h
      · exact absurd (hc.symm.trans h) (by decide)
    have he := persist_pages (d := d) h0 hgood hp
    refine ⟨fun hu hn => .of_sput (he.trans (congrArg _ (persistEnd_done hu ?_))), fun hu => .of_swaitOn (he.trans (congrArg _ (persistEnd_waits hu))) rfl⟩
    intro w hw
    obtain ⟨n, hm, rfl⟩ := List.mem_map.mp hw
    rw [BitVec.toNat_ofNat, Nat.mod_eq_of_lt (hn n hm).1]
    exact (hn n hm).2
  · refine .of_sput (congrArg Host.Outcome.next (persistEnd_done hu ?_)) rfl
    intro w hw
    obtain ⟨x, hm, rfl⟩ := List.mem_map.mp hw
    rw [BitVec.toNat_setWidth_of_le (by decide)]
    exact hn x hm

/-- Settles O14: PFH by what it does with the lowest free slot, PFDROP by what a translation changes, PERSIST by its range and its end. -/
theorem prefetchAndPersist : Obligations.PrefetchAndPersist := ⟨prefetchGroups, persistCommands⟩

end Sys2Proof.Machine
end

section
/-! PROOFS. What arrives from a peer (R74, R107, R113, R296 to R299, R308, R456). -/

namespace Sys2Proof.Machine

/-! ## Replies (R285, R287, R289, R290) -/

theorem get_filterMap_zipIdx (b : List Byte) (n a : Nat) :
    SMap.get 0 ((b.zipIdx n).filterMap fun p => if p.1 = 0 then none else some (p.2, p.1)) a = if n ≤ a then b.getD (a - n) 0 else 0 := by
  induction b generalizing n with
  | nil => simp [SMap.get]
  | cons x b ih =>
    have hr := ih (n + 1)
    have hstep (h : a ≠ n) : (if n + 1 ≤ a then b.getD (a - (n + 1)) 0 else 0) = if n ≤ a then (x :: b).getD (a - n) 0 else 0 := by
      by_cases hn : n + 1 ≤ a
      · rw [if_pos hn, if_pos (by omega), show a - n = a - (n + 1) + 1 by omega, List.getD_cons_succ]
      · rw [if_neg hn, if_neg (by omega)]
    rw [List.zipIdx_cons, List.filterMap_cons]
    by_cases hx : x = 0
    · rw [if_pos hx, hr]
      by_cases ha : a = n
      · rw [ha, if_neg (by omega), if_pos (Nat.le_refl n), Nat.sub_self, hx]
        rfl
      · exact hstep ha
    · rw [if_neg hx]
      by_cases ha : a = n
      · rw [ha, if_pos (Nat.le_refl n), Nat.sub_self]
        simp [SMap.get, SMap.find]
      · rw [← hstep ha, ← hr]
        simp [SMap.get, SMap.find, ha]

/-- The bytes of a message read back as they were handed over. -/
theorem get_bodyMap (b : List Byte) (a : Nat) : SMap.get 0 (bodyMap b) a = b.getD a 0 :=
  (get_filterMap_zipIdx b 0 a).trans (if_pos (Nat.zero_le a))

theorem Fabric.hashed_nil (f : Fabric) (src dst : Nat) (o : Bool) : f.hashed src dst o [] = none := by
  simp [Fabric.hashed, Fabric.open_]

/-- Where every link is up and carries nothing of the same source and target, the fixed hash picks the link. -/
theorem Fabric.hashed_quiet {f : Fabric} {src dst : Nat} {ls : List Nat}
    (h : ∀ l ∈ ls, (f.link l).phase = .up ∧ ∀ m ∈ (f.link l).queue, ¬(m.src = src ∧ m.dst = dst)) :
    f.hashed src dst true ls = ls[Config.routeHash src dst % ls.length]? := by
  have hb : (ls.find? fun l => (f.link l).queue.any fun m => decide (m.src = src) && decide (m.dst = dst)) = none := by
    simp only [List.find?_eq_none, List.any_eq_true, Bool.and_eq_true, decide_eq_true_eq]
    exact fun l hl ⟨m, hm, e⟩ => (h l hl).2 m hm e
  have hu : (ls.filter fun l => decide ((f.link l).phase = .up)) = ls :=
    List.filter_eq_self.mpr fun l hl => decide_eq_true (h l hl).1
  have ho : f.open_ ls = ls := by
    unfold Fabric.open_
    rw [hu]
    cases ls with
    | nil => rfl
    | cons l ls => rfl
  unfold Fabric.hashed
  rw [hb, ho]
  rfl

theorem Fabric.pick_ordered (f : Fabric) (dst n : Nat) :
    f.pick dst true n = (f.hashed f.devid dst true (f.minimal dst)).map fun l => (l, none) := by
  unfold Fabric.pick
  cases f.hashed f.devid dst true (f.minimal dst) with
  | none => rfl
  | some l => rfl

/-- The message of a reply, before a link has numbered it. -/
def State.replyMsg (u : State) (dst code off : Nat) (wts rts : W48) (bytes : List Byte) : OutMsg :=
  { num := 0, dst := dst, vc := 4, flits := (64 + bytes.length + 223) / 224, src := u.fabric.devid, body := bodyMap bytes,
    words := [0, BitVec.ofNat 64 code, BitVec.ofNat 64 off, wts.setWidth 64, rts.setWidth 64] }

/-- A reply to another device joins the queue of the link that the fixed hash picks, if there is one. -/
theorem reply_other {u : State} {dst : Nat} (h : dst ≠ u.fabric.devid) (code off : Nat) (wts rts : W48) (bytes : List Byte) :
    u.reply dst code off wts rts bytes = (u.fabric.hashed u.fabric.devid dst true (u.fabric.minimal dst)).elim u fun l =>
      { u with fabric := u.fabric.enqueue l (u.replyMsg dst code off wts rts bytes) } := by
  have hp := u.fabric.pick_ordered dst u.draw.1.toNat
  refine (if_neg h).trans ?_
  rw [hp]
  cases u.fabric.hashed u.fabric.devid dst true (u.fabric.minimal dst) with
  | none => rfl
  | some l => rfl

theorem replies_reply (u : State) (dst code off : Nat) (wts rts : W48) (bytes : List Byte) :
    Replies u (u.reply dst code off wts rts bytes) dst code off wts rts bytes := by
  unfold Replies
  intro ls way
  have hown (h : dst = u.fabric.devid) : u.reply dst code off wts rts bytes = u := if_pos h
  refine ⟨fun h => ?_, fun h => Fabric.hashed_quiet h, fun l hd hl => ?_⟩
  · by_cases hd : dst = u.fabric.devid
    · exact hown hd
    · have hn : way = none := by
        show u.fabric.hashed _ _ _ ls = none
        rw [h.resolve_left hd, Fabric.hashed_nil]
      rw [reply_other hd, show u.fabric.hashed _ _ _ _ = none from hn]
      rfl
  · rw [reply_other hd, show u.fabric.hashed _ _ _ _ = some l from hl]
    exact ⟨_, rfl, fun k hk => SMap.find_insert_ne _ _ hk, SMap.get_insert_self _ _ _ _, rfl, rfl, rfl, rfl, rfl, rfl, rfl, get_bodyMap bytes⟩

theorem answers_of_reply {e : Instr} {s u : State} {dst code off : Nat} {wts rts : W48} {bytes : List Byte}
    (h : exec e s = .next (u.reply dst code off wts rts bytes)) : Answers e s u dst code off wts rts bytes :=
  ⟨_, h, replies_reply u dst code off wts rts bytes⟩

/-! ## One update of a team's scratchpad (R304, R347) -/

/-- What a group sees of an update that leaves its team as `y`. -/
def Group.sees (now : W64) (c : Bool) (y : Team) (x : Group) : Group := if c then wakeGroup now (x.takes y) else x

theorem Group.sees_team (now : W64) (c : Bool) (y : Team) (x : Group) : (x.sees now c y).team = x.team := by
  cases c <;> rfl

/-- `u` is `s` with team i replaced by `t` and the groups of the team changed by `f`, which leaves them in the team. -/
structure State.Updates (s u : State) (i : Nat) (t : Team) (f : Group → Group) : Prop where
  rest : u = { s with teams := u.teams, groups := u.groups }
  self : u.team i = t
  others : ∀ j, j ≠ i → u.teams.find j = s.teams.find j
  keeps : ∀ x, (f x).team = x.team
  seen : ∀ g, u.groups.find g = (s.groups.find g).map fun x => if x.team = i then f x else x

section
variable {s u v : State} {i : Nat} {t y : Team} {f h : Group → Group}

/-- Updates one after another: a group sees each. -/
theorem State.Updates.trans (hu : s.Updates u i t f) (hv : u.Updates v i y h) : s.Updates v i y fun x => h (f x) where
  rest := by rw [hv.rest]; rw [hu.rest]
  self := hv.self
  others j hj := (hv.others j hj).trans (hu.others j hj)
  keeps x := (hv.keeps _).trans (hu.keeps x)
  seen g := by
    rw [hv.seen, hu.seen, Option.map_map]
    congr 1
    funext x
    show (if (if x.team = i then f x else x).team = i then h (if x.team = i then f x else x) else if x.team = i then f x else x) = _
    by_cases hx : x.team = i
    · rw [if_pos hx, if_pos ((hu.keeps x).trans hx), if_pos hx]
    · rw [if_neg hx, if_neg hx, if_neg hx]

theorem State.Updates.timeNs (hu : s.Updates u i t f) : u.timeNs = s.timeNs := by rw [hu.rest]

theorem updates_quiet (hr : u = { s with teams := u.teams }) (hs : u.team i = t) (ho : ∀ j, j ≠ i → u.teams.find j = s.teams.find j) :
    s.Updates u i t fun x => x.sees s.timeNs false t where
  rest := by rw [hr]
  self := hs
  others := ho
  keeps x := x.sees_team _ _ _
  seen g := by
    have hid (x : Group) : (if x.team = i then x.sees s.timeNs false t else x) = x := by
      split <;> rfl
    rw [hr]
    simp only [hid]
    exact Option.map_id'.symm

theorem updates_refl : s.Updates s i (s.team i) fun x => x.sees s.timeNs false (s.team i) := updates_quiet rfl rfl fun _ _ => rfl

theorem updates_setTeam : s.Updates (s.setTeam i t) i t fun x => x.sees s.timeNs false t :=
  updates_quiet rfl (SMap.get_insert_self _ _ _ _) fun _ hj => SMap.find_insert_ne _ _ hj

theorem updates_event : s.Updates ((s.setTeam i t).teamEvent i) i t fun x => x.sees s.timeNs true t where
  rest := rfl
  self := SMap.get_insert_self _ _ _ _
  others _ hj := SMap.find_insert_ne _ _ hj
  keeps x := x.sees_team _ _ _
  seen g := by
    have ht : (s.setTeam i t).team i = t := SMap.get_insert_self _ _ _ _
    have hg : ((s.setTeam i t).teamEvent i).groups
      = s.groups.map fun p => if p.2.team = i then (p.1, wakeGroup s.timeNs (p.2.takes ((s.setTeam i t).team i))) else p := rfl
    rw [hg, ht]
    exact find_mapIf (c := fun _ x => x.team = i) s.groups (fun x => wakeGroup s.timeNs (x.takes t)) g

theorem updates_setTeamFe : s.Updates (s.setTeamFe i t) i t fun x => x.sees s.timeNs (decide (t.full ≠ (s.team i).full)) t := by
  unfold State.setTeamFe
  by_cases h : t.full = (s.team i).full
  · rw [if_pos h, decide_eq_false (not_not.mpr h)]
    exact updates_setTeam
  · rw [if_neg h, decide_eq_true h]
    exact updates_event

/-- A team with an arrival counter's ERR set, where bytes passed the window's end (R296). -/
def Team.errSet (t : Team) (c : Nat) (past : Prop) [Decidable past] : Team := if past then t.wr (c + 16) 8 1 else t

/-- A team with bytes counted at an arrival counter (R296). -/
def Team.counted (t : Team) (c k : Nat) : Team := if k = 0 then t else t.wr c 8 ((t.rd c 8 + k) % 2 ^ 64)

/-- The machine with ERR set, where bytes passed the window's end. -/
def State.errSet (s : State) (i c : Nat) (past : Prop) [Decidable past] : State :=
  if past then (s.modTeam i fun t => t.wr (c + 16) 8 1).teamEvent i else s

theorem updates_errSet (c : Nat) (past : Prop) [Decidable past] :
    s.Updates (s.errSet i c past) i ((s.team i).errSet c past) fun x => x.sees s.timeNs (decide past) ((s.team i).errSet c past) := by
  unfold State.errSet Team.errSet
  by_cases h : past
  · rw [if_pos h, if_pos h, decide_eq_true h]
    exact updates_event
  · rw [if_neg h, if_neg h, decide_eq_false h]
    exact updates_refl

theorem updates_countBytes (c k : Nat) :
    s.Updates (s.countBytes i c k) i ((s.team i).counted c k) fun x => x.sees s.timeNs (decide (k ≠ 0)) ((s.team i).counted c k) := by
  unfold State.countBytes Team.counted
  by_cases h : k = 0
  · rw [if_pos h, if_pos h, decide_eq_false (not_not.mpr h)]
    exact updates_refl
  · rw [if_neg h, if_neg h, decide_eq_true h]
    exact updates_event

end

/-! ## A window put (R107, R113, R296, R304) -/

section
variable {t : Team}

theorem Team.wr_eq (t : Team) (off n v : Nat) : t.wr off n v = { t with scratch := (t.wr off n v).scratch } := rfl

theorem not_watched {off n i : Nat} (h : t.touches off n = false) (hi : i < n) : t.watched (off + i) = false := by
  simp only [Team.touches, Team.watched, List.any_eq_false, Bool.and_eq_true, decide_eq_true_eq] at *
  exact fun w hw hb => h w hw ⟨by omega, by omega⟩

theorem mem_granules {off n g : Nat} : g ∈ granules off n ↔ 0 < n ∧ off / 16 ≤ g ∧ g ≤ (off + n - 1) / 16 := by
  unfold granules
  by_cases h : n = 0
  · simp [h]
  · rw [if_neg h]
    simp only [List.mem_map, List.mem_range]
    constructor
    · rintro ⟨i, hi, rfl⟩
      have := Nat.div_le_div_right (c := 16) (show off ≤ off + n - 1 by omega)
      omega
    · rintro ⟨-, h1, h2⟩
      exact ⟨g - off / 16, by omega, by omega⟩

/-- What filling some granules does: the full/empty bits of those that are not watched are set. -/
theorem foldl_setFull (gs : List Nat) (t : Team) :
    gs.foldl (fun t g => if t.touches (16 * g) 16 then t else t.setFull g true) t
        = { t with full := (gs.foldl (fun t g => if t.touches (16 * g) 16 then t else t.setFull g true) t).full }
      ∧ ∀ g, (gs.foldl (fun t g => if t.touches (16 * g) 16 then t else t.setFull g true) t).isFull g
        = (t.isFull g || (decide (g ∈ gs) && !t.touches (16 * g) 16)) := by
  induction gs generalizing t with
  | nil => exact ⟨rfl, fun g => by simp⟩
  | cons k gs ih =>
    rw [List.foldl_cons]
    by_cases h : t.touches (16 * k) 16 = true
    · rw [if_pos h]
      refine ⟨(ih t).1, fun g => ?_⟩
      rw [(ih t).2]
      by_cases hg : g = k
      · simp [hg, h]
      · simp [hg]
    · rw [if_neg h]
      obtain ⟨he, hf⟩ := ih (t.setFull k true)
      refine ⟨he.trans rfl, fun g => ?_⟩
      rw [hf, show (t.setFull k true).touches (16 * g) 16 = t.touches (16 * g) 16 from rfl]
      have hk : (t.setFull k true).isFull g = if g = k then true else t.isFull g := SMap.get_put false t.full k g true
      rw [hk]
      by_cases hg : g = k
      · simp [hg, h]
      · simp [hg]

/-- A team with the bytes of a window put (R107, R296). -/
def Team.windowed (t : Team) (base : Nat) (b : List Byte) : Team :=
  if b = [] then t else (t.putBytes base b).1.fillGranules base b.length

/-- Bytes that touch no watched object land whole, and the granules they touch are full. -/
theorem windowed_clear {base : Nat} {b : List Byte} (h : t.touches base b.length = false) :
    t.windowed base b = { t with scratch := wrBytes t.scratch base b, full := (t.windowed base b).full }
      ∧ ∀ g, (t.windowed base b).isFull g
        = (t.isFull g || (decide (0 < b.length ∧ base / 16 ≤ g ∧ g ≤ (base + b.length - 1) / 16) && !t.touches (16 * g) 16)) := by
  unfold Team.windowed
  by_cases hb : b = []
  · subst hb
    exact ⟨rfl, fun g => by simp⟩
  · have hp : t.putBytes base b = ({ t with scratch := wrBytes t.scratch base b }, false) := if_neg (by rw [h]; decide)
    obtain ⟨he, hf⟩ := foldl_setFull (granules base b.length) { t with scratch := wrBytes t.scratch base b }
    rw [if_neg hb, hp]
    refine ⟨he, fun g => (hf g).trans ?_⟩
    simp only [mem_granules]
    rfl

/-- The team after a window put: its data, then ERR where they passed the window's end, then COUNT. -/
def Team.put (t : Team) (base : Nat) (b : List Byte) (c : Nat) (past : Prop) [Decidable past] : Team :=
  ((t.windowed base b).errSet c past).counted c b.length

/-- The bytes of the arrival counter that a window put writes. -/
def counterByte (c : Nat) (past : Prop) (a : Nat) : Prop := c ≤ a ∧ a < c + 8 ∨ past ∧ c + 16 ≤ a ∧ a < c + 24

theorem get_wrNat_of_outside (m : SMap Byte) {a n v x : Nat} (h : x < a ∨ a + n ≤ x) : SMap.get 0 (wrNat m a n v) x = SMap.get 0 m x :=
  get_wrBytes_of_outside m a (leBytes n v) (by rw [length_leBytes]; exact h)

theorem rdNat_congr {m m' : SMap Byte} {a n : Nat} (h : ∀ x, a ≤ x → x < a + n → SMap.get 0 m x = SMap.get 0 m' x) : rdNat m a n = rdNat m' a n := by
  have hb : rdBytes m a n = rdBytes m' a n := by
    refine List.ext_getElem (by simp) fun i h1 h2 => ?_
    rw [length_rdBytes] at h1
    rw [getElem_rdBytes, getElem_rdBytes, h _ (by omega) (by omega)]
  rw [rdNat, hb, rdNat]

theorem rdNat_lt (m : SMap Byte) (a n : Nat) : rdNat m a n < 256 ^ n := by
  have h := ofLeBytes_lt (rdBytes m a n)
  rwa [length_rdBytes] at h

section
variable {base c : Nat} {b : List Byte} {past : Prop} [Decidable past]

theorem errSet_eq : t.errSet c past = { t with scratch := (t.errSet c past).scratch } := by
  unfold Team.errSet
  split <;> rfl

theorem counted_eq (k : Nat) : t.counted c k = { t with scratch := (t.counted c k).scratch } := by
  unfold Team.counted
  split <;> rfl

theorem get_errSet {a : Nat} (h : ¬(past ∧ c + 16 ≤ a ∧ a < c + 24)) : SMap.get 0 (t.errSet c past).scratch a = SMap.get 0 t.scratch a := by
  unfold Team.errSet
  by_cases hp : past
  · rw [if_pos hp]
    have hc : ¬(c + 16 ≤ a ∧ a < c + 24) := fun hh => h ⟨hp, hh⟩
    exact get_wrNat_of_outside _ (by omega)
  · rw [if_neg hp]

theorem get_counted {a : Nat} (h : ¬(c ≤ a ∧ a < c + 8)) (k : Nat) : SMap.get 0 (t.counted c k).scratch a = SMap.get 0 t.scratch a := by
  unfold Team.counted
  by_cases hk : k = 0
  · rw [if_pos hk]
  · rw [if_neg hk]
    exact get_wrNat_of_outside _ (by omega)

theorem Team.rd_wr_self (off n v : Nat) : (t.wr off n v).rd off n = v % 256 ^ n := rdNat_wrNat t.scratch off n v

theorem Team.rd_lt (off n : Nat) : t.rd off n < 256 ^ n := rdNat_lt t.scratch off n

theorem rd_counted (k : Nat) : (t.counted c k).rd c 8 = (t.rd c 8 + k) % 2 ^ 64 := by
  have hp : 256 ^ 8 = 2 ^ 64 := by decide
  unfold Team.counted
  by_cases hk : k = 0
  · have hlt := t.rd_lt c 8
    rw [hp] at hlt
    rw [if_pos hk, hk, Nat.add_zero, Nat.mod_eq_of_lt hlt]
  · rw [if_neg hk, Team.rd_wr_self, hp, Nat.mod_mod]

section
variable (h : t.touches base b.length = false) (hw : ∀ a, counterByte c past a → ¬(base ≤ a ∧ a < base + b.length))
include h

theorem put_eq : t.put base b c past = { t with scratch := (t.put base b c past).scratch, full := (t.windowed base b).full } := by
  obtain ⟨he, -⟩ := windowed_clear h
  have hs : (t.windowed base b).errSet c past = { t.windowed base b with scratch := ((t.windowed base b).errSet c past).scratch } := errSet_eq
  have hc := counted_eq (t := (t.windowed base b).errSet c past) (c := c) b.length
  unfold Team.put
  generalize ((t.windowed base b).errSet c past).counted c b.length = z at hc ⊢
  generalize (t.windowed base b).errSet c past = x at hc hs
  generalize t.windowed base b = y at he hs ⊢
  rw [hc, hs, he]

/-- Outside the counter's words the team holds the data where they landed, and what it held elsewhere. -/
theorem get_put_scratch {a : Nat} (ha : ¬counterByte c past a) : SMap.get 0 (t.put base b c past).scratch a
    = if base ≤ a ∧ a < base + b.length then b.getD (a - base) 0 else SMap.get 0 t.scratch a := by
  unfold counterByte at ha
  rw [Team.put, get_counted (fun e => ha (.inl e)), get_errSet (fun e => ha (.inr e)), (windowed_clear h).1]
  refine (get_wrBytes _ _ _ _).trans ?_
  by_cases hb : base ≤ a ∧ a < base + b.length
  · rw [dif_pos hb, if_pos hb, List.getD_eq_getElem]
  · rw [dif_neg hb, if_neg hb]

include hw

/-- COUNT gains the bytes that landed (R296). -/
theorem rd_put : (t.put base b c past).rd c 8 = (t.rd c 8 + b.length) % 2 ^ 64 := by
  have hr : ((t.windowed base b).errSet c past).rd c 8 = t.rd c 8 := by
    refine rdNat_congr fun x h1 h2 => ?_
    rw [get_errSet (by omega), (windowed_clear h).1]
    exact (get_wrBytes _ _ _ _).trans (dif_neg (hw x (.inl ⟨h1, h2⟩)))
  rw [Team.put, rd_counted, hr]

omit h hw in
/-- ERR is set where bytes passed the window's end (R296). -/
theorem rd_put_err (hp : past) : (t.put base b c past).rd (c + 16) 8 = 1 := by
  have hr : (t.put base b c past).rd (c + 16) 8 = ((t.windowed base b).errSet c past).rd (c + 16) 8 :=
    rdNat_congr fun x h1 h2 => get_counted (by omega) _
  rw [hr, Team.errSet, if_pos hp, Team.rd_wr_self]
  decide

end

end

end

/-- A window put to a window of the device whose data touch no watched object. -/
theorem windowPut_clear {s : State} {ftag wtag offset o : Nat} {bytes : List Byte} {w : Window}
    (hf : (s.fabric.windows.find? fun w => decide (w.ftag = ftag) && decide (w.wtag = wtag)) = some w)
    (h : (s.team w.team).touches (w.base + (offset + o)) (bytes.take (w.len - (offset + o))).length = false) :
    s.windowPut ftag wtag offset o bytes = (if w.len < offset + o + bytes.length then 0x20 else 0,
      if w.len < offset + o + bytes.length then w.len - offset else o,
      ((s.setTeamFe w.team ((s.team w.team).windowed (w.base + (offset + o)) (bytes.take (w.len - (offset + o))))).errSet
        w.team w.counter (w.len < offset + o + bytes.length)).countBytes w.team w.counter (bytes.take (w.len - (offset + o))).length) := by
  have hd : ((List.range (bytes.take (w.len - (offset + o))).length).filter fun i => (s.team w.team).watched (w.base + (offset + o) + i)) = [] :=
    List.filter_eq_nil_iff.mpr fun i hi => by rw [not_watched h (List.mem_range.mp hi)]; decide
  unfold State.windowPut
  rw [hf]
  dsimp only
  rw [hd, List.length_nil, Nat.sub_zero, if_neg (Nat.lt_irrefl 0)]
  unfold State.errSet Team.windowed
  by_cases hp : w.len < offset + o + bytes.length
  · rw [if_pos hp, if_pos hp, if_pos hp, decide_eq_true hp]
    rfl
  · rw [if_neg hp, if_neg hp, if_neg hp, decide_eq_false hp]
    rfl

/-- The machine after a window put whose data are b: one update for the data, one for ERR, one for COUNT. -/
def State.windowed (s : State) (w : Window) (base : Nat) (b : List Byte) (past : Prop) [Decidable past] : State :=
  ((s.setTeamFe w.team ((s.team w.team).windowed base b)).errSet w.team w.counter past).countBytes w.team w.counter b.length

theorem updates_windowed (s : State) (w : Window) (base : Nat) (b : List Byte) (past : Prop) [Decidable past] :
    let t1 := (s.team w.team).windowed base b
    let t2 := t1.errSet w.counter past
    let t3 := (s.team w.team).put base b w.counter past
    s.Updates (s.windowed w base b past) w.team t3 fun x =>
      Group.sees s.timeNs (decide (b.length ≠ 0)) t3 (Group.sees s.timeNs (decide past) t2
        (Group.sees s.timeNs (decide (t1.full ≠ (s.team w.team).full)) t1 x)) := by
  intro t1 t2 t3
  have h1 : s.Updates (s.setTeamFe w.team t1) w.team t1 _ := updates_setTeamFe
  have h2 := updates_errSet (s := s.setTeamFe w.team t1) (i := w.team) w.counter past
  rw [h1.self, h1.timeNs] at h2
  have h12 := h1.trans h2
  have h3 := updates_countBytes (s := (s.setTeamFe w.team t1).errSet w.team w.counter past) (i := w.team) w.counter b.length
  rw [h12.self, h12.timeNs] at h3
  exact h12.trans h3

/-- A packet to a window the device has no window for. -/
theorem windowPut_absent {s : State} {ftag wtag : Nat} (h : ∀ w ∈ s.fabric.windows, ¬(w.ftag = ftag ∧ w.wtag = wtag)) (offset o : Nat)
    (bytes : List Byte) : s.windowPut ftag wtag offset o bytes = (0x22, o, s) := by
  have hf : (s.fabric.windows.find? fun w => decide (w.ftag = ftag) && decide (w.wtag = wtag)) = none := by
    simp only [List.find?_eq_none, Bool.and_eq_true, decide_eq_true_eq]
    exact h
  unfold State.windowPut
  rw [hf]

/-- The window a packet names is found where no other answers to the name. -/
theorem find_window {ws : List Window} {p q : Nat} {w : Window} (hm : w ∈ ws) (h1 : w.ftag = p) (h2 : w.wtag = q)
    (hu : ∀ z ∈ ws, z.ftag = p → z.wtag = q → z = w) : (ws.find? fun w => decide (w.ftag = p) && decide (w.wtag = q)) = some w := by
  cases hf : ws.find? fun w => decide (w.ftag = p) && decide (w.wtag = q) with
  | none =>
    have hn := List.find?_eq_none.mp hf w hm
    rw [decide_eq_true h1, decide_eq_true h2] at hn
    exact absurd rfl hn
  | some z =>
    have hz := List.find?_some hf
    simp only [Bool.and_eq_true, decide_eq_true_eq] at hz
    rw [hu z (List.mem_of_find?_eq_some hf) hz.1 hz.2]

/-! ## The address form (R297) -/

/-- Every piece that has bytes lies in frames carved out of HBM. -/
def State.hasPieces (s : State) (pieces : List (Nat × List Byte)) : Prop := ∀ p ∈ pieces, p.2 ≠ [] → s.mem.present p.1 p.2.length = true

theorem addrPut_of_here {s : State} {pieces : List (Nat × List Byte)} (h : s.hasPieces pieces) (rt : W48) :
    ∃ m wts, s.addrPut rt pieces = some (wts, { s with mem := m }) := by
  refine ⟨_, _, if_pos ?_⟩
  simp only [List.all_eq_true, Bool.or_eq_true, decide_eq_true_eq]
  exact fun p hp => or_iff_not_imp_left.mpr (h p hp)

theorem addrPut_of_not_here {s : State} {pieces : List (Nat × List Byte)} (h : ¬s.hasPieces pieces) (rt : W48) : s.addrPut rt pieces = none := by
  refine if_neg fun ha => h ?_
  simp only [List.all_eq_true, Bool.or_eq_true, decide_eq_true_eq] at ha
  exact fun p hp hb => (ha p hp).resolve_left hb

theorem foldl_length (pieces : List (Nat × List Byte)) (n : Nat) :
    pieces.foldl (fun n q => n + q.2.length) n = n + (pieces.map fun q => q.2.length).sum := by
  induction pieces generalizing n with
  | nil => rfl
  | cons p pieces ih => rw [List.foldl_cons, ih, List.map_cons, List.sum_cons, Nat.add_assoc]

/-- The window that counts the bytes of an address-form packet. -/
def Fabric.countAt (f : Fabric) (count : Option (Nat × Nat)) : Option Window :=
  count.bind fun c => f.windows.find? fun x => decide (x.ftag = c.1) && decide (x.wtag = c.2)

section
variable {s : State} {src : Nat} {rt : W48} {pieces : List (Nat × List Byte)} {count : Option (Nat × Nat)}

theorem countAt_none {f : Fabric} {c : Nat × Nat} : f.countAt (some c) = none ↔ ∀ w ∈ f.windows, ¬(w.ftag = c.1 ∧ w.wtag = c.2) := by
  simp only [Fabric.countAt, Option.bind_some, List.find?_eq_none, Bool.and_eq_true, decide_eq_true_eq]

theorem addr_unknown (hc : count ≠ none) (hw : s.fabric.countAt count = none) :
    exec (.putPacketArrival (.addr src rt pieces count)) s = .next (s.reply src 0x22 0 0 0 []) := if_pos ⟨hc, hw⟩

theorem addr_absent (hk : ¬(count ≠ none ∧ s.fabric.countAt count = none)) (hh : s.addrPut rt pieces = none) :
    exec (.putPacketArrival (.addr src rt pieces count)) s = .next (s.reply src 0x100 0 0 0 []) := by
  refine (if_neg hk).trans ?_
  rw [hh]
  rfl

theorem addr_counted {m : Mem} {wts : W48} {w : Window} (hw : s.fabric.countAt count = some w)
    (hh : s.addrPut rt pieces = some (wts, { s with mem := m })) : exec (.putPacketArrival (.addr src rt pieces count)) s
      = .next ((({ s with mem := m } : State).countBytes w.team w.counter ((pieces.map fun q => q.2.length).sum)).reply src 0 0 wts 0 []) := by
  refine (if_neg (by rw [show count.bind _ = s.fabric.countAt count from rfl, hw]; simp)).trans ?_
  rw [hh, show (count.bind fun c => s.fabric.windows.find? fun x => decide (x.ftag = c.1) && decide (x.wtag = c.2)) = s.fabric.countAt count from rfl,
    hw, foldl_length, Nat.zero_add]

theorem addr_uncounted {m : Mem} {wts : W48} (hh : s.addrPut rt pieces = some (wts, { s with mem := m })) :
    exec (.putPacketArrival (.addr src rt pieces none)) s = .next (({ s with mem := m } : State).reply src 0 0 wts 0 []) := by
  show execPutPacketArrival (.addr src rt pieces none) s = _
  unfold execPutPacketArrival
  dsimp only
  rw [if_neg fun h => h.1 rfl, hh]
  rfl

end

/-! ## A range carved out of HBM (R92) -/

theorem Mem.present_iff (m : Mem) {a n : Nat} (hn : 0 < n) :
    m.present a n = true ↔ ∀ b, a ≤ b → b < a + n → (m.frame (b / 65536)).carved = true := by
  unfold Mem.present
  simp only [List.all_eq_true, List.mem_range]
  constructor
  · intro h b h1 h2
    have hd : a / 65536 ≤ b / 65536 := Nat.div_le_div_right h1
    have he : b / 65536 ≤ (a + n - 1) / 65536 := Nat.div_le_div_right (by omega)
    have hb := h (b / 65536 - a / 65536) (by omega)
    rwa [Nat.add_sub_cancel' hd] at hb
  · intro h i hi
    by_cases h0 : i = 0
    · rw [h0, Nat.add_zero]
      exact h a (Nat.le_refl a) (by omega)
    · have hb := h (65536 * (a / 65536 + i)) (by omega) (by omega)
      rwa [Nat.mul_div_cancel_left _ (by decide)] at hb

theorem Mem.present_of_le (m : Mem) {a n k : Nat} (hk : 0 < k) (hn : k ≤ n) (h : m.present a n = true) : m.present a k = true :=
  (m.present_iff hk).mpr fun b h1 h2 => (m.present_iff (by omega)).mp h b h1 (by omega)

/-! ## Accesses at the home (R298, R299, R308) -/

/-- An extent inside one line is one part. -/
theorem lineParts_one {a n : Nat} (ha : a < 2 ^ 48) (h0 : 1 ≤ n) (hn : a % 128 + n ≤ 128) :
    lineParts (BitVec.ofNat 64 a) n (n / 64 + 2) = [(BitVec.ofNat 64 a, n)] := by
  have hv : (BitVec.ofNat 64 a).toNat = a := by rw [BitVec.toNat_ofNat, Nat.mod_eq_of_lt (by omega)]
  have hr : min n (128 - a % 128) = n := Nat.min_eq_left (by omega)
  have hz (va : W64) (fuel : Nat) : lineParts va 0 (fuel + 1) = [] := rfl
  rw [show n / 64 + 2 = n / 64 + 1 + 1 from rfl, lineParts, if_neg (by omega)]
  dsimp only
  rw [hv, hr, Nat.sub_self, hz]

/-- The larger of no timestamp and one is that one. -/
theorem ts_max_zero (t : W48) : (if (0 : W48).toNat < t.toNat then t else 0) = t := by
  by_cases h : (0 : W48).toNat < t.toNat
  · exact if_pos h
  · rw [if_neg h]
    exact (BitVec.eq_of_toNat_eq (by rw [Nat.eq_zero_of_not_pos h]; rfl)).symm

theorem bring_same {m : Mem} {k key : Nat} {x : L2Line} (hx : m.l2.find k = some x) (hk : x.key = key) : m.bring k key = m := by
  have hr : m.rekey k key = m := by
    unfold Mem.rekey
    rw [hx]
    exact if_pos hk
  unfold Mem.bring
  rw [hr]
  dsimp only
  rw [hx]

theorem l2Data_of_find {m : Mem} {k : Nat} {x : L2Line} (hx : m.l2.find k = some x) : m.l2Data k = x.data := by
  rw [Mem.l2Data, hx]
  rfl

theorem wtsOf_of_find {m : Mem} {k : Nat} {x : L2Line} (hx : m.l2.find k = some x) : m.wtsOf k = x.wts := by
  rw [Mem.wtsOf, hx]
  rfl

theorem lget_lt (d : BitVec 1024) (off n : Nat) : lget d off n < 2 ^ (8 * n) := Nat.mod_lt _ (Nat.two_pow_pos _)

/-- A line whose lease a read at the home with this RT has renewed (R308). -/
def L2Line.leased (x : L2Line) (rt : W48) : L2Line := { x with rts := BitVec.ofNat 48 (max x.rts.toNat (max x.wts.toNat rt.toNat + 64)) }

theorem homeRead_of_find {m : Mem} {k : Nat} {x : L2Line} (hx : m.l2.find k = some x) (rt : W48) :
    m.homeRead k rt = { m with l2 := m.l2.insert k (x.leased rt) } := by
  unfold Mem.homeRead
  rw [hx]
  rfl

/-- The timestamp that a write at the home gives a line (R308). -/
def writeTs (rt : W48) (x : L2Line) : W48 := BitVec.ofNat 48 (max rt.toNat (x.rts.toNat + 1))

/-- In `m` line k holds the number v (its low 8n bits) in n bytes and the timestamps of a write. -/
def Mem.Wrote (m : Mem) (k off n v : Nat) (ts : W48) : Prop :=
  ∃ y, m.l2.find k = some y ∧ y.wts = ts ∧ y.rts = ts ∧ y.dirty = true ∧ lget (m.l2Data k) off n = v % 2 ^ (8 * n)

theorem homeWrite_wrote {m : Mem} {k off n : Nat} {x : L2Line} (hx : m.l2.find k = some x) (hn : off + n ≤ 128) (v : Nat) (rt : W48) :
    (m.homeWrite k off n v rt).Wrote k off n v (writeTs rt x) := by
  unfold Mem.homeWrite
  rw [hx]
  have hy (w : Mem) (l : L2Line) : (w.setLine k l).l2.find k = some l.zeroed := SMap.find_insert_self _ _ _
  refine ⟨_, hy _ _, rfl, rfl, rfl, ?_⟩
  rw [l2Data_of_find (hy _ _)]
  exact lget_lset _ _ _ _ hn

section
variable {m : Mem} {a n : Nat} {x : L2Line} (hx : m.l2.find (lineKey 3 0 a) = some x) (hk : x.key = 0)
include hx hk

/-- An atomic at the home (R299): the old value, the new timestamp, and the memory with the new value. -/
theorem fatomAt_home (f : AtomF) (rt : W48) (hn : a % 128 + f.bytes ≤ 128) : let v := lget (m.l2Data (lineKey 3 0 a)) (a % 128) f.bytes
    ∃ u, m.fatomAt a f rt = (BitVec.ofNat 64 v, writeTs rt x, u) ∧ u.Wrote (lineKey 3 0 a) (a % 128) f.bytes (f.new v) (writeTs rt x) := by
  intro v
  have hw := homeWrite_wrote hx hn (f.new v) rt
  refine ⟨_, ?_, hw⟩
  obtain ⟨y, hy, ht, -⟩ := hw
  unfold Mem.fatomAt
  dsimp only
  rw [bring_same hx hk, wtsOf_of_find hy, ht]

variable (ha : a < 2 ^ 48) (h0 : 1 ≤ n) (hn : a % 128 + n ≤ 128)
include ha h0 hn

/-- A read at the home of bytes of one line. -/
theorem devRead_one (rt : W48) : m.devRead rt (lineParts (BitVec.ofNat 64 a) n (n / 64 + 2))
    = (leBytes n (lget (m.l2Data (lineKey 3 0 a)) (a % 128) n), x.wts, { m with l2 := m.l2.insert (lineKey 3 0 a) (x.leased rt) }) := by
  have hv : (BitVec.ofNat 64 a).toNat = a := by rw [BitVec.toNat_ofNat, Nat.mod_eq_of_lt (by omega)]
  have hi : ({ m with l2 := m.l2.insert (lineKey 3 0 a) (x.leased rt) } : Mem).l2.find (lineKey 3 0 a) = some (x.leased rt) := SMap.find_insert_self _ _ _
  rw [lineParts_one ha h0 hn]
  unfold Mem.devRead
  dsimp only
  rw [hv, bring_same hx hk, homeRead_of_find hx]
  unfold Mem.devRead
  dsimp only
  rw [wtsOf_of_find hi, l2Data_of_find hi, l2Data_of_find hx, List.append_nil]
  exact congrArg _ (congrArg (·, _) (ts_max_zero _))

/-- A write at the home of bytes of one line. -/
theorem devWrite_one (rt : W48) {b : List Byte} (hb : b.length = n) :
    ∃ u, m.devWrite rt (lineParts (BitVec.ofNat 64 a) b.length (b.length / 64 + 2)) b 0 = (u, writeTs rt x)
      ∧ u.Wrote (lineKey 3 0 a) (a % 128) n (ofLeBytes b) (writeTs rt x) := by
  have hv : (BitVec.ofNat 64 a).toNat = a := by rw [BitVec.toNat_ofNat, Nat.mod_eq_of_lt (by omega)]
  have hw := homeWrite_wrote hx hn (ofLeBytes b) rt
  refine ⟨_, ?_, hw⟩
  obtain ⟨y, hy, ht, -⟩ := hw
  rw [hb, lineParts_one ha h0 hn]
  unfold Mem.devWrite
  dsimp only
  rw [hv, bring_same hx hk, ← hb, List.take_length]
  unfold Mem.devWrite
  rw [hb, wtsOf_of_find hy, ht, ts_max_zero]

end

/-! ### The operations of Table 6-4 on 64-bit words -/

theorem atomVal_i64 (v : W64) : atomVal .i64 v.toNat = v.toInt := by
  show ITy.val .i64 v.toNat = v.toInt
  have hv := v.isLt
  rw [BitVec.toInt_eq_toNat_cond]
  unfold ITy.val
  simp only [ITy.width, ITy.signed, Bool.true_and, decide_eq_true_eq, Nat.mod_eq_of_lt hv]
  split <;> split <;> omega

theorem atomic64_eq (o : AOp) (old b : W64) : (atomic64 o old b).toNat = aopNew o .i64 old.toNat b.toNat % 2 ^ 64 := by
  have hm (w : W64) : w.toNat % 2 ^ 64 = w.toNat := Nat.mod_eq_of_lt w.isLt
  have hz : old = 0 ↔ old.toNat = 0 := BitVec.toNat_inj.symm
  have hw : (if ATy.i64.wide then 64 else 32) = 64 := rfl
  unfold aopNew atomic64
  dsimp only
  rw [hw, if_neg (show ATy.i64 ≠ ATy.f32 by decide)]
  cases o with
  | add => exact (BitVec.toNat_ofNat _ _).trans (Nat.mod_mod _ _).symm
  | min =>
    simp only [atomVal_i64]
    split <;> exact (hm _).symm
  | max =>
    simp only [atomVal_i64]
    split <;> exact (hm _).symm
  | and => exact (hm (old &&& b)).symm.trans (by rw [BitVec.toNat_and])
  | or => exact (hm (old ||| b)).symm.trans (by rw [BitVec.toNat_or])
  | xor => exact (hm (old ^^^ b)).symm.trans (by rw [BitVec.toNat_xor])
  | exch => exact (hm b).symm
  | inc =>
    dsimp only
    split
    · rfl
    · exact BitVec.toNat_add old 1
  | dec =>
    simp only [hz]
    split
    · exact (hm b).symm
    · have := old.isLt
      rw [BitVec.toNat_sub]
      show (2 ^ 64 - 1 + old.toNat) % 2 ^ 64 = _
      omega

theorem aopNew_i64 (o : AOp) {v : Nat} (hv : v < 2 ^ 64) (b : W64) :
    (AtomF.op o .i64 b.toNat).new v % 2 ^ 64 = (atomic64 o (BitVec.ofNat 64 v) b).toNat := by
  have hn : (BitVec.ofNat 64 v).toNat = v := Nat.mod_eq_of_lt hv
  rw [atomic64_eq, hn]
  rfl

theorem cas_new {v : Nat} (hv : v < 2 ^ 64) (b c : W64) :
    (fopOf (fopCode .cas) b c).new v % 2 ^ 64 = if v = c.toNat then b.toNat else v := by
  show (if v = c.toNat then b.toNat else v) % 2 ^ 64 = _
  split
  · exact Nat.mod_eq_of_lt b.isLt
  · exact Nat.mod_eq_of_lt hv

theorem fopOf_op (o : AOp) (b c : W64) : fopOf (fopCode (.op o)) b c = .op o .i64 b.toNat := by
  cases o <;> rfl

section
variable {s : State} {src a n : Nat} {rt : W48}

/-- A peer's atomic at the home. -/
def State.fatomHere (s : State) (src a : Nat) (f : AtomF) (rt : W48) : State :=
  ({ s with mem := (s.mem.fatomAt a f rt).2.2 } : State).reply src 0 0 (s.mem.fatomAt a f rt).2.1 0 (leBytes 8 (s.mem.fatomAt a f rt).1.toNat)

theorem exec_fgetRequest (hp : s.mem.present a n = true) :
    let r := s.mem.devRead rt (lineParts (BitVec.ofNat 64 a) n (n / 64 + 2))
    exec (.fgetRequest src a n rt) s = .next (({ s with mem := r.2.2 } : State).reply src 0 0 r.2.1 0 r.1) := if_pos (.inr hp)

theorem exec_fatomRequest (hp : s.mem.present a 8 = true) (op : FOp) (b c : W64) :
    exec (.fatomRequest src a op b c rt) s = .next (s.fatomHere src a (fopOf (fopCode op) b c) rt) := if_pos hp

theorem exec_peerRead (hp : s.mem.present a 1 = true) :
    let m := (s.mem.bring (lineKey 3 0 a) 0).homeRead (lineKey 3 0 a) rt
    let l := m.l2.get {} (lineKey 3 0 a)
    exec (.remoteAccessRequest src a .read rt) s = .next (({ s with mem := m } : State).reply src 0 0 l.wts l.rts (leBytes 128 l.data.toNat)) :=
  if_neg (by rw [hp]; decide)

theorem exec_peerWrite (hp : s.mem.present a 1 = true) (b : List Byte) :
    let r := s.mem.devWrite rt (lineParts (BitVec.ofNat 64 a) b.length (b.length / 64 + 2)) b 0
    exec (.remoteAccessRequest src a (.write b) rt) s = .next (({ s with mem := r.1 } : State).reply src 0 0 r.2 0 []) :=
  if_neg (by rw [hp]; decide)

theorem exec_peerAtom (hp : s.mem.present a 1 = true) (o : AOp) (ty : ATy) (b : W64) :
    exec (.remoteAccessRequest src a (.atom o ty b) rt) s = .next (s.fatomHere src a (.op o ty b.toNat) rt) := if_neg (by rw [hp]; decide)

/-! ### What is not there is refused with retry-later -/

theorem fgetRequest_refused (hn : 0 < n) (hp : s.mem.present a n = false) : Answers (.fgetRequest src a n rt) s s src 0x100 0 0 0 [] :=
  answers_of_reply (if_neg (by rw [hp]; simpa using hn.ne'))

theorem fatomRequest_refused (hp : s.mem.present a 8 = false) (op : FOp) (b c : W64) :
    Answers (.fatomRequest src a op b c rt) s s src 0x100 0 0 0 [] := answers_of_reply (if_neg (by rw [hp]; decide))

theorem remoteAccess_refused (hp : s.mem.present a 1 = false) (o : PeerOp) : Answers (.remoteAccessRequest src a o rt) s s src 0x100 0 0 0 [] :=
  answers_of_reply (if_pos (by rw [hp]; rfl))

/-! ### A line that stands at its home -/

variable {x : L2Line} (hx : s.mem.l2.find (lineKey 3 0 a) = some x) (hk : x.key = 0)
include hx hk

/-- An atomic of a peer at a line that stands at its home. -/
theorem answers_fatomHere {e : Instr} {f : AtomF} (he : exec e s = .next (s.fatomHere src a f rt)) (hf : f.bytes = 8) (hn : a % 128 + 8 ≤ 128) :
    let v := lget (s.mem.l2Data (lineKey 3 0 a)) (a % 128) 8
    ∃ u y, Answers e s u src 0 0 (writeTs rt x) 0 (leBytes 8 v) ∧ u = { s with mem := u.mem } ∧ u.mem.l2.find (lineKey 3 0 a) = some y
      ∧ y.wts = writeTs rt x ∧ y.rts = writeTs rt x ∧ y.dirty = true
      ∧ lget (u.mem.l2Data (lineKey 3 0 a)) (a % 128) 8 = f.new v % 2 ^ 64 := by
  intro v
  obtain ⟨m, hm, y, hy⟩ := fatomAt_home hx hk f rt (by rw [hf]; exact hn)
  rw [hf] at hm hy
  have hv : (BitVec.ofNat 64 v).toNat = v := Nat.mod_eq_of_lt (lget_lt _ _ _)
  refine ⟨{ s with mem := m }, y, answers_of_reply (he.trans ?_), rfl, hy⟩
  unfold State.fatomHere
  rw [hm]
  dsimp only
  rw [hv]

end

/-- The window clause: the data, ERR and COUNT land as one update each. -/
theorem window_arrival {s : State} {src ftag wtag offset o : Nat} {bytes : List Byte} {w : Window}
    (hf : (s.fabric.windows.find? fun w => decide (w.ftag = ftag) && decide (w.wtag = wtag)) = some w)
    (h : (s.team w.team).touches (w.base + (offset + o)) (bytes.take (w.len - (offset + o))).length = false) :
    Answers (.putPacketArrival (.window src ftag wtag offset o bytes)) s
      (s.windowed w (w.base + (offset + o)) (bytes.take (w.len - (offset + o))) (w.len < offset + o + bytes.length)) src
      (if w.len < offset + o + bytes.length then 0x20 else 0) (if w.len < offset + o + bytes.length then w.len - offset else o) 0 0 [] :=
  answers_of_reply (congrArg (fun r => (.next (ackPut src r) : Out)) (windowPut_clear hf h))

/-- The bytes of a window put that lie in the window. -/
theorem getD_take {b : List Byte} {k i : Nat} (h : i < k) : (b.take k).getD i 0 = b.getD i 0 := by
  rw [List.getD_eq_getElem?_getD, List.getElem?_take_of_lt h, List.getD_eq_getElem?_getD]

/-- Settles O51: replies go through the hashed link, a window put is three updates of its team, and the home's answers are those of its line. -/
theorem fabricArrivals : Obligations.FabricArrivals := by
  intro s src rt
  refine ⟨fun ftag wtag offset o bytes => ⟨fun h => ?_, fun w hm h1 h2 hu => ?_⟩, fun pieces count => ⟨?_, ?_, ?_, ?_⟩, ?_, ?_,
    fun a n op b c hn hp => ⟨fgetRequest_refused hn hp, fun h8 => ?_⟩, fun a o hp => remoteAccess_refused hp o⟩
  · exact answers_of_reply (congrArg (fun r => (.next (ackPut src r) : Out)) (windowPut_absent h offset o bytes))
  · intro t k past base words ht hw
    have hl : (bytes.take (w.len - (offset + o))).length = k := by rw [List.length_take, Nat.min_comm]
    have hb : t.touches base (bytes.take (w.len - (offset + o))).length = false := by rw [hl]; exact ht
    have hu := updates_windowed s w base (bytes.take (w.len - (offset + o))) past
    have hw' (a : Nat) (ha : counterByte w.counter past a) : ¬(base ≤ a ∧ a < base + (bytes.take (w.len - (offset + o))).length) := by
      rw [hl]; exact hw a ha
    have he := put_eq (c := w.counter) (past := past) hb
    have hg := fun a => get_put_scratch (c := w.counter) (past := past) (a := a) hb
    obtain ⟨hw1, hfull⟩ := windowed_clear hb
    refine ⟨_, t.windowed base (bytes.take (w.len - (offset + o))), window_arrival (find_window hm h1 h2 ‹_›) hb, hu.rest, hu.others, by rw [hw1], ?_⟩
    rw [hu.self]
    refine ⟨he, fun a ha1 ha2 => ?_, fun a ha1 ha2 => ?_, ?_, fun hp => rd_put_err hp, ?_, ?_, ?_⟩
    · rw [hg a fun hc => hw a hc ⟨ha1, ha2⟩, hl, if_pos ⟨ha1, ha2⟩, getD_take (by omega)]
    · rw [hg a ha2, hl, if_neg ha1]
    · rw [← hl]
      exact rd_put hb hw'
    · rw [← hl]
      exact hfull
    · rw [← hl]
      rfl
    · rw [← hl]
      exact hu.seen
  · rintro ⟨c, rfl, hc⟩
    exact answers_of_reply (addr_unknown (by simp) (countAt_none.mpr hc))
  · intro hc hh
    refine answers_of_reply (addr_absent (fun ⟨hs, hn⟩ => ?_) (addrPut_of_not_here hh rt))
    obtain ⟨c, rfl, w, hw, hk⟩ := hc.resolve_left hs
    exact countAt_none.mp hn w hw hk
  · rintro rfl hh
    obtain ⟨m, wts, hm⟩ := addrPut_of_here hh rt
    exact ⟨m, wts, hm, answers_of_reply (addr_uncounted hm)⟩
  · rintro c w rfl hw hk hu hh
    obtain ⟨m, wts, hm⟩ := addrPut_of_here hh rt
    exact ⟨m, wts, hm, answers_of_reply (addr_counted (find_window hw hk.1 hk.2 fun z hz e1 e2 => hu z hz ⟨e1, e2⟩) hm)⟩
  · exact fun a n hn => s.mem.present_iff hn
  · intro a n b k v hn h0 h8 ha hp x hx hk hr h1 h2 h3 h4 rts wts
    have hp1 := s.mem.present_of_le Nat.one_pos h0 hp
    have hi (m : Mem) (y : L2Line) : ({ m with l2 := m.l2.insert k y } : Mem).l2.find k = some y := SMap.find_insert_self _ _ _
    refine ⟨⟨{ s with mem := { s.mem with l2 := s.mem.l2.insert k (x.leased rt) } }, x.leased rt, ?_, rfl, hi _ _, rfl,
        fun j hj => SMap.find_insert_ne _ _ hj⟩,
      ⟨{ s with mem := { s.mem with l2 := s.mem.l2.insert k (x.leased rt) } }, x.leased rt, ?_, rfl, hi _ _, rfl⟩, ?_, ?_, ?_, ?_⟩
    · refine answers_of_reply ((exec_fgetRequest hp).trans ?_)
      rw [devRead_one hx hk ha h0 hn]
    · refine answers_of_reply ((exec_peerRead hp1).trans ?_)
      rw [bring_same hx hk, homeRead_of_find hx, SMap.get_insert_self]
      rfl
    · rintro o rfl -
      have he := (exec_fatomRequest (rt := rt) (src := src) hp (.op o) b 0).trans (by rw [fopOf_op])
      obtain ⟨u, y, hans, hu, hy, hyw, hyr, hyd, hv⟩ := answers_fatomHere hx hk he rfl hn
      exact ⟨u, y, hans, hu, hy, hyw, hyr, hyd, hv.trans (aopNew_i64 o (lget_lt _ _ _) b)⟩
    · rintro c rfl -
      obtain ⟨u, y, hans, hu, hy, -, -, -, hv⟩ := answers_fatomHere hx hk (exec_fatomRequest (rt := rt) (src := src) hp .cas b c) rfl hn
      exact ⟨u, y, hans, hu, hy, hv.trans (cas_new (lget_lt _ _ _) b c)⟩
    · intro data hd
      obtain ⟨m, hm, y, hy, hyw, hyr, -, hv⟩ := devWrite_one hx hk ha h0 hn rt hd
      refine ⟨{ s with mem := m }, y, answers_of_reply ((exec_peerWrite hp1 data).trans ?_), rfl, hy, hyw, hyr, hv.trans (Nat.mod_eq_of_lt ?_)⟩
      · rw [hm]
        rfl
      · have hlt := ofLeBytes_lt data
        rwa [hd, show (256 : Nat) = 2 ^ 8 from rfl, ← Nat.pow_mul] at hlt
    · rintro o rfl -
      obtain ⟨u, y, hans, hu, hy, -, -, -, hv⟩ := answers_fatomHere hx hk (exec_peerAtom (rt := rt) (src := src) hp1 o .i64 b) rfl hn
      exact ⟨u, y, hans, hu, hy, hv.trans (aopNew_i64 o (lget_lt _ _ _) b)⟩
  · rw [h8] at hp
    exact fatomRequest_refused hp op b c

end Sys2Proof.Machine
end

section
/-! PROOFS. The host tether (R78, R79, R134, R421 to R425). -/

namespace Sys2Proof.Machine

/-! ## Requests on the tether (R421, R424) -/

theorem find_filter_single {α : Type} {m : SMap α} (hs : SMap.sorted m = true) {P : Nat × α → Bool} {n : Nat} {x : α} (hx : m.find n = some x)
    (hp : P (n, x) = true) (hu : ∀ p ∈ m, P p = true → p.1 = n) : m.filter P = [(n, x)] := by
  induction m with
  | nil => exact absurd hx (by simp [SMap.find])
  | cons p m ih =>
    obtain ⟨k, y⟩ := p
    obtain ⟨ha, hm⟩ := SMap.sorted_cons.mp hs
    have hu' : ∀ p ∈ m, P p = true → p.1 = n := fun p hq => hu p (List.mem_cons_of_mem _ hq)
    by_cases hk : n = k
    · subst hk
      have hy : y = x := by simpa [SMap.find] using hx
      subst hy
      have hz : m.filter P = [] := List.filter_eq_nil_iff.mpr fun q hq he => (ha q hq).ne' (hu' q hq he)
      rw [List.filter_cons_of_pos hp, hz]
    · have hn : ¬P (k, y) = true := fun he => hk (hu (k, y) List.mem_cons_self he).symm
      rw [List.filter_cons_of_neg hn]
      exact ih hm (by simpa [SMap.find, hk] using hx) hu'

theorem release_nil {h : HostLink} (hw : h.waiting = []) (n : Nat) : h.release n = h := by
  cases n with
  | zero => rfl
  | succ n =>
    unfold HostLink.release
    rw [hw]

/-- What one request that leaves the link die, or stays there, does to the tether. -/
def HostLink.Leaves (h x : HostLink) : Prop :=
  x = { h with waiting := x.waiting, reqs := x.reqs, parked := x.parked }
    ∧ (∀ t, t ∉ h.waiting → x.reqs.find t = h.reqs.find t)
    ∧ ((∀ p ∈ h.reqs, p.2.kind = .pri → p.2.parked = false) → ∀ p ∈ x.reqs, p.2.kind = .pri → p.2.parked = false)
    ∧ ∀ t ∈ x.waiting, t ∈ h.waiting

theorem leaves_refl (h : HostLink) : h.Leaves h := ⟨rfl, fun _ _ => rfl, id, fun _ => id⟩

theorem HostLink.Leaves.trans {h x y : HostLink} (hx : h.Leaves x) (hy : x.Leaves y) : h.Leaves y := by
  obtain ⟨a1, a2, a3, a4⟩ := hx
  obtain ⟨b1, b2, b3, b4⟩ := hy
  refine ⟨?_, fun t ht => (b2 t fun e => ht (a4 t e)).trans (a2 t ht), fun p => b3 (a3 p), fun t ht => a4 t (b4 t ht)⟩
  rw [b1]; rw [a1]

theorem isWrite_not_pri {r : Req} (h : r.isWrite = true) : r.kind ≠ .pri := by
  intro hk
  unfold Req.isWrite at h
  rw [hk] at h
  exact Bool.noConfusion h

theorem leaves_release (h : HostLink) (n : Nat) : h.Leaves (h.release n) := by
  induction n generalizing h with
  | zero => exact leaves_refl h
  | succ n ih =>
    unfold HostLink.release
    split
    · exact leaves_refl h
    · next t rest hw =>
      have hsub : ∀ t' ∈ rest, t' ∈ h.waiting := fun t' h' => hw ▸ List.mem_cons_of_mem _ h'
      extract_lets r
      split
      · next hc =>
        split
        · refine HostLink.Leaves.trans ⟨rfl, fun t' ht => ?_, fun hp p hq hk => ?_, hsub⟩ (ih _)
          · exact SMap.find_insert_ne _ _ fun e => ht (by rw [e, hw]; exact List.mem_cons_self)
          · obtain e | e := SMap.mem_insert hq
            · rw [e] at hk
              exact absurd hk (isWrite_not_pri (Bool.and_eq_true_iff.mp hc).1)
            · exact hp p e hk
        · exact leaves_refl h
      · split
        · have hx : h.Leaves { h with waiting := rest } := ⟨rfl, fun _ _ => rfl, fun hp => hp, hsub⟩
          exact hx.trans (ih _)
        · exact leaves_refl h

/-- With no Page Request that waits for a free one, none leaves. -/
theorem nextPri_none {h : HostLink} (hp : ∀ p ∈ h.reqs, p.2.kind = .pri → p.2.parked = false) : h.nextPri = h := by
  have hf : (h.reqs.find? fun p => decide (p.2.kind = .pri) && p.2.parked) = none := by
    simp only [List.find?_eq_none, Bool.and_eq_true, decide_eq_true_eq]
    exact fun p hq ⟨hk, he⟩ => by rw [hp p hq hk] at he; exact Bool.noConfusion he
  unfold HostLink.nextPri
  rw [hf]

/-- The tether as request n leaves the list, before others that waited leave. -/
def HostLink.without (h : HostLink) (n : Nat) : HostLink :=
  { h with reqs := h.reqs.erase n, parked := h.parked.filter (fun p => decide (p.req ≠ n)) }

section
variable (s : State) (n : Nat)

theorem leaves_dropHost : (s.host.without n).Leaves (s.dropHost n).host := leaves_release (s.host.without n) s.host.waiting.length

theorem dropHost_denials : (s.dropHost n).host.denials = s.host.denials := by
  rw [(leaves_dropHost s n).1]
  rfl

theorem dropHost_pris (hp : ∀ p ∈ s.host.reqs, p.2.kind = .pri → p.2.parked = false) :
    ∀ p ∈ (s.dropHost n).host.reqs, p.2.kind = .pri → p.2.parked = false := by
  obtain ⟨-, -, h, -⟩ := leaves_dropHost s n
  exact h fun p hq => hp p (SMap.mem_erase hq)

theorem hostGone_iff : s.hostGone = true ↔ s.host.tether = .lost ∧ s.host.deadline.toNat ≤ s.timeNs.toNat := by
  simp only [State.hostGone, Bool.and_eq_true, decide_eq_true_eq]

end

/-! ## Who goes on (R79, R82) -/

/-- A split that waited for a translation is ready again. -/
def Split.woken (now : Nat) (x : Split) : Split := if x.mode = .suspended .translation then { x with mode := .ready, age := now } else x

theorem woken_woken (now : Nat) (x : Split) : (x.woken now).woken now = x.woken now := by
  unfold Split.woken
  by_cases h : x.mode = .suspended .translation
  · rw [if_pos h, if_neg (by simp)]
  · rw [if_neg h, if_neg h]

theorem modSplit_self (g : Group) (n : Nat) (f : Split → Split) : (g.modSplit n f).split? n = (g.split? n).map f := by
  unfold Group.modSplit
  cases h : g.split? n with
  | none => exact h
  | some x => exact Group.split_setSplit _ _ (by rw [h]; rfl)

/-- A change of one split leaves another as it was, or changes it too, where both are the trap slot's. -/
theorem modSplit_split (g : Group) (n k : Nat) (f : Split → Split) :
    (g.modSplit n f).split? k = g.split? k ∨ (g.modSplit n f).split? k = (g.split? k).map f := by
  by_cases h4 : n < 4
  · by_cases hk : k = n
    · rw [hk]
      exact .inr (modSplit_self g n f)
    · refine .inl ?_
      unfold Group.modSplit
      cases g.split? n with
      | none => rfl
      | some x =>
        unfold Group.split? Group.setSplit
        by_cases hk4 : k < 4
        · simp [h4, hk4, SMap.find_insert, hk]
        · simp [h4, hk4]
  · by_cases hk4 : k < 4
    · refine .inl ?_
      unfold Group.modSplit
      cases g.split? n with
      | none => rfl
      | some x => simp [Group.split?, Group.setSplit, h4, hk4]
    · have he (x : Group) : x.split? k = x.split? n := by simp [Group.split?, h4, hk4]
      rw [he, he]
      exact .inr (modSplit_self g n f)

/-- From s to u some splits that waited for a translation are ready again; nothing else changes. -/
def State.Wakes (s u : State) : Prop :=
  u = { s with groups := u.groups }
    ∧ ∀ g k, (u.group g).split? k = (s.group g).split? k ∨ (u.group g).split? k = ((s.group g).split? k).map (Split.woken s.cycle)

theorem wakes_refl (s : State) : s.Wakes s := ⟨rfl, fun _ _ => .inl rfl⟩

theorem map_woken_woken (now : Nat) (x : Option Split) : (x.map (Split.woken now)).map (Split.woken now) = x.map (Split.woken now) := by
  rw [Option.map_map]
  congr 1
  funext y
  exact woken_woken now y

theorem State.Wakes.cycle {s u : State} (h : s.Wakes u) : u.cycle = s.cycle := by rw [h.1]

theorem State.Wakes.trans {s u v : State} (hu : s.Wakes u) (hv : u.Wakes v) : s.Wakes v := by
  refine ⟨by rw [hv.1]; rw [hu.1], fun g k => ?_⟩
  have h2 := hv.2 g k
  rw [hu.cycle] at h2
  obtain h1 | h1 := hu.2 g k <;> rw [h1] at h2
  · exact h2
  · rw [map_woken_woken, or_self] at h2
    exact .inr h2

/-- A split once ready stays so. -/
theorem State.Wakes.stays {s u v : State} (hs : s.Wakes u) (hv : u.Wakes v) {g k : Nat} {x : Option Split}
    (h : (u.group g).split? k = x.map (Split.woken s.cycle)) : (v.group g).split? k = x.map (Split.woken s.cycle) := by
  have h2 := hv.2 g k
  rw [hs.cycle, h, map_woken_woken, or_self] at h2
  exact h2

theorem wakeWaiter_xlat (s : State) (gid slot : Nat) (va : W64) :
    s.wakeWaiter (.xlat gid slot) va = s.modGroup gid fun g => g.modSplit slot (Split.woken s.cycle) := rfl

theorem wakes_xlat (s : State) (gid slot : Nat) (va : W64) : s.Wakes (s.wakeWaiter (.xlat gid slot) va)
    ∧ ((s.wakeWaiter (.xlat gid slot) va).group gid).split? slot = ((s.group gid).split? slot).map (Split.woken s.cycle) := by
  have hself : (s.wakeWaiter (.xlat gid slot) va).group gid = (s.group gid).modSplit slot (Split.woken s.cycle) := SMap.get_insert_self _ _ _ _
  refine ⟨⟨rfl, fun g k => ?_⟩, by rw [hself]; exact modSplit_self _ _ _⟩
  by_cases hg : g = gid
  · rw [hg, hself]
    exact modSplit_split _ _ _ _
  · exact .inl (congrArg (Group.split? · k) (SMap.get_insert_ne _ _ _ hg))

/-- Every access that waits for a translation request is a split's. -/
def Req.ofSplits (r : Req) : Prop := ∀ j ∈ r.joined, ∃ gid slot, j.waiter = .xlat gid slot

theorem wakes_joined (l : List Joined) (hl : ∀ j ∈ l, ∃ gid slot, j.waiter = .xlat gid slot) (s : State) :
    s.Wakes (l.foldl (fun s j => s.wakeWaiter j.waiter j.va) s)
      ∧ ∀ j ∈ l, ∀ gid slot, j.waiter = .xlat gid slot →
        ((l.foldl (fun s j => s.wakeWaiter j.waiter j.va) s).group gid).split? slot = ((s.group gid).split? slot).map (Split.woken s.cycle) := by
  induction l generalizing s with
  | nil => exact ⟨wakes_refl s, fun _ h => absurd h List.not_mem_nil⟩
  | cons i l ih =>
    obtain ⟨gid, slot, hi⟩ := hl i List.mem_cons_self
    obtain ⟨h1, h2⟩ := wakes_xlat s gid slot i.va
    rw [← hi] at h1 h2
    obtain ⟨h3, h4⟩ := ih (fun j hj => hl j (List.mem_cons_of_mem _ hj)) (s.wakeWaiter i.waiter i.va)
    refine ⟨h1.trans h3, fun j hj g k hw => ?_⟩
    obtain rfl | hj := List.mem_cons.mp hj
    · obtain ⟨rfl, rfl⟩ : gid = g ∧ slot = k := by simpa [hi] using hw
      exact h1.stays h3 h2
    · have h5 := h4 j hj g k hw
      rw [h1.cycle] at h5
      obtain h6 | h6 := h1.2 g k <;> rw [h6] at h5
      · exact h5
      · rw [map_woken_woken] at h5
        exact h5

/-- The splits that wait for a translation request are ready. -/
def State.Readied (s u : State) (r : Req) : Prop :=
  ∀ j ∈ r.joined, ∀ gid slot, j.waiter = .xlat gid slot → ∀ x, (s.group gid).split? slot = some x → slot ≤ 4 →
    x.mode = .suspended .translation → (u.group gid).split? slot = some { x with mode := .ready, age := s.cycle }

theorem wakeJoined_rest {r : Req} (hr : r.ofSplits) (s : State) : s.wakeJoined r = { s with groups := (s.wakeJoined r).groups } :=
  (wakes_joined r.joined hr s).1.1

theorem wakeJoined_readied {r : Req} (hr : r.ofSplits) (s : State) : s.Readied (s.wakeJoined r) r := by
  intro j hj gid slot hw x hx _ hm
  refine ((wakes_joined r.joined hr s).2 j hj gid slot hw).trans ?_
  rw [hx]
  exact congrArg some (if_pos hm)

/-! ## The ends of a translation request (R79, R423) -/

/-- What the accesses that wait for a denied translation have still to see; `all`: those of every kind. -/
def Req.told (r : Req) (cause : Nat) (all : Bool) : List Denial :=
  (r.joined.filter fun j => all || decide (j.write = decide (r.data = 1))).map fun j =>
    { waiter := j.waiter, ctx := j.ctx, page := j.va.toNat / 4096, write := j.write, cause := cause }

/-- The machine without request n and with denials to see. -/
def State.refused (s : State) (n : Nat) (ds : List Denial) : State :=
  { s.dropHost n with host := { (s.dropHost n).host with denials := (s.dropHost n).host.denials ++ ds } }

theorem hostRefuse_eq {r : Req} (hr : r.ofSplits) (s : State) (n cause : Nat) (all : Bool) :
    s.hostRefuse n r cause all = (s.refused n (r.told cause all)).wakeJoined r := by
  unfold State.hostRefuse
  extract_lets hit ds again
  have ha : again = r.joined := by
    refine List.filter_eq_self.mpr fun j hj => ?_
    obtain ⟨gid, slot, hw⟩ := hr j hj
    rw [hw]
  have hh : hit = r.joined.filter fun j => all || decide (j.write = decide (r.data = 1)) := by
    refine List.filter_congr fun j hj => ?_
    obtain ⟨gid, slot, hw⟩ := hr j hj
    rw [hw, Bool.and_true]
  have hd : ds = r.told cause all := congrArg _ hh
  show (s.refused n ds).wakeJoined { r with joined := again } = _
  rw [hd, ha]

theorem hostRefuse_of_splits {r : Req} (hr : r.ofSplits) (s : State) (n cause : Nat) (all : Bool) :
    s.Readied (s.hostRefuse n r cause all) r ∧ (s.hostRefuse n r cause all).mem = s.mem
      ∧ (s.hostRefuse n r cause all).host = { (s.dropHost n).host with denials := s.host.denials ++ r.told cause all } := by
  rw [hostRefuse_eq hr]
  refine ⟨wakeJoined_readied hr (s.refused n (r.told cause all)), ?_, ?_⟩
  · rw [wakeJoined_rest hr]
    rfl
  · rw [wakeJoined_rest hr, ← dropHost_denials s n]
    rfl

/-! ## A far result and the acquire after it (R134, R421) -/

/-- A far result of host request n has its value. -/
def Far.landed (n : Nat) (val : Nat → Ext → W64) (f : Far) : Far :=
  match f.src with
  | .host t b e => if t = n then { f with src := .value (val b e) } else f
  | _ => f

/-- Request n of the host is off the list, and the far results of group gid that waited for it have their values. -/
def State.Lands (s u : State) (gid n : Nat) (val : Nat → Ext → W64) : Prop :=
  u.host = (s.dropHost n).host ∧ (∀ g, g ≠ gid → u.groups.find g = s.groups.find g)
    ∧ (u.group gid).far = (s.group gid).far.map (Far.landed n val)

section
variable {s u : State} {gid n : Nat} {val : Nat → Ext → W64} {r : Req}

theorem hostFar_group : ((s.hostFar gid n val).group gid) = { s.group gid with far := (s.group gid).far.map (Far.landed n val) } :=
  SMap.get_insert_self _ _ _ _

theorem hostFar_coreOf : (s.hostFar gid n val).coreOf gid = s.coreOf gid := by
  rw [State.coreOf, hostFar_group]
  rfl

theorem lands_of_rest (hh : u.host = (s.dropHost n).host) (hg : u.groups = (s.hostFar gid n val).groups) : s.Lands u gid n val := by
  have hu : u.group gid = (s.hostFar gid n val).group gid := by rw [State.group, hg, State.group]
  refine ⟨hh, fun g h => ?_, ?_⟩
  · rw [hg]
    exact SMap.find_insert_ne _ _ h
  · rw [hu, hostFar_group]

theorem acquired_rest (s : State) (r : Req) : s.acquired r = { s with mem := (s.acquired r).mem, contexts := (s.acquired r).contexts } := by
  unfold State.acquired
  split <;> rfl

theorem acquired_none (h : r.acq = none) (s : State) : s.acquired r = s := by
  unfold State.acquired
  rw [h]

theorem acquired_far (hw : r.waiter = .far gid) (h : r.acq ≠ none) (s : State) : s.acquired r = s.acquireAt (s.coreOf gid) r.ctx .sys := by
  obtain ⟨t, ht⟩ := Option.ne_none_iff_exists'.mp h
  unfold State.acquired
  rw [ht, hw]

/-- An acquire leaves the sticky FABRIC bit. -/
theorem acquired_fabric (hw : r.waiter = .far gid) (h : (s.context r.ctx).fabric = true) : ((s.acquired r).context r.ctx).fabric = true := by
  by_cases ha : r.acq = none
  · rwa [acquired_none ha]
  · rw [acquired_far hw ha]
    exact (congrArg Context.fabric (SMap.get_insert_self _ _ _ _)).trans h

theorem hostValue_far (hw : r.waiter = .far gid) (s : State) (n : Nat) (val : Nat → Ext → W64) :
    s.hostValue n r val = ((s.hostFar gid n val).dropHost n).acquired r := by
  unfold State.hostValue
  rw [hw]

theorem hostValue_lands (hw : r.waiter = .far gid) (s : State) (n : Nat) (val : Nat → Ext → W64) : s.Lands (s.hostValue n r val) gid n val := by
  rw [hostValue_far hw, acquired_rest]
  exact lands_of_rest rfl rfl

/-- What a lane access's answer does to memory and contexts: the acquire at .sys, where the access is one (R134). -/
theorem hostValue_after (hw : r.waiter = .far gid) (s : State) (n : Nat) (val : Nat → Ext → W64) :
    let after := if r.acq = none then s else s.acquireAt (s.coreOf gid) r.ctx .sys
    (s.hostValue n r val).mem = after.mem ∧ (s.hostValue n r val).contexts = after.contexts := by
  rw [hostValue_far hw]
  by_cases ha : r.acq = none
  · rw [acquired_none ha, if_pos ha]
    exact ⟨rfl, rfl⟩
  · have hc : ((s.hostFar gid n val).dropHost n).coreOf gid = s.coreOf gid := hostFar_coreOf (s := s) (n := n) (val := val)
    rw [acquired_far hw ha, if_neg ha, hc]
    exact ⟨rfl, rfl⟩

end

/-! ## A line comes back (R120, R421) -/

section
variable {s : State} {r : Req} {near : Bool} {d : BitVec 1024}

theorem hostKeepLine_rest (s : State) (r : Req) (near : Bool) (d : BitVec 1024) :
    s.hostKeepLine r near d = { s with mem := (s.hostKeepLine r near d).mem } := by
  unfold State.hostKeepLine
  dsimp only
  split
  · rfl
  · split
    · unfold State.keepLine
      split <;> split <;> rfl
    · split <;> rfl

/-- A line that a later store has overtaken, or that an engine asked for past the caches, is not kept. -/
theorem hostKeepLine_dropped (h : r.stale = true ∨ near = false ∧ r.pol = 1) : s.hostKeepLine r near d = s := by
  refine if_pos ?_
  simpa using h

theorem hostKeepLine_kept (hs : r.stale = false) (hl : r.l1 = none) (s : State) (d : BitVec 1024) :
    ∃ x, (s.hostKeepLine r true d).mem.l2.find (lineKey 1 0 r.addr) = some x ∧ x.data = d := by
  have hi : (s.mem.install (lineKey 1 0 r.addr) { data := d, use := 0 }).l2.find (lineKey 1 0 r.addr)
      = some { ({ data := d, use := 0 } : L2Line).zeroed with use := (s.mem.roomFor (lineKey 1 0 r.addr) (decide (d = 0))).tock.tick } :=
    SMap.find_insert_self _ _ _
  unfold State.hostKeepLine
  rw [hs, hl, Bool.false_or, if_neg (by simp)]
  dsimp only
  split
  · rw [hi]
    exact ⟨_, SMap.find_insert_self _ _ _, rfl⟩
  · exact ⟨_, hi, rfl⟩

end

/-- A scalar stream waits for the answer of request n of the host in an access of its own. -/
def State.WaitsFor (s : State) (gid n : Nat) : Prop := ∃ w, (s.group gid).swait = some w ∧ w.tok = n ∧ w.aux = [onHost]

section
variable {s : State} {gid n : Nat} {r : Req} {d : BitVec 1024}

theorem ownWait_of (h : s.WaitsFor gid n) : s.ownWait gid onHost n = true := by
  obtain ⟨w, hw, ht, ha⟩ := h
  unfold State.ownWait
  rw [hw]
  simp [ht, ha]

theorem hostValue_scalar (hw : r.waiter = .scalar gid) (h : s.WaitsFor gid n) (val : Nat → Ext → W64) :
    s.hostValue n r val = s.hostKeep n { r with ans := some (val r.bytes .zero) } := by
  unfold State.hostValue
  rw [hw]
  exact if_pos (ownWait_of h)

/-- A kept answer stands under its tag. -/
theorem hostKeep_find (h : n ∉ s.host.waiting) (q : Req) : (s.hostKeep n q).host.reqs.find n = some q := by
  obtain ⟨-, hf, -⟩ := leaves_release { s.host with reqs := s.host.reqs.insert n q } s.host.waiting.length
  exact (hf n h).trans (SMap.find_insert_self _ _ _)

theorem hostLine_far (hw : r.waiter = .far gid) : s.hostLine n r d
    = (s.hostKeepLine r true d).hostValue n r fun b e => BitVec.ofNat 64 (widen e b (lget d (r.addr % 128) b)) := by
  unfold State.hostLine
  rw [hw]
  rfl

theorem hostLine_scalar (hw : r.waiter = .scalar gid) (h : s.WaitsFor gid n) : s.hostLine n r d
    = (s.hostKeepLine r true d).hostKeep n { r with ans := some (BitVec.ofNat 64 (lget d (r.addr % 128) r.bytes)) } := by
  have hk : (s.hostKeepLine r true d).WaitsFor gid n := by
    rw [hostKeepLine_rest]
    exact h
  refine Eq.trans ?_ (hostValue_scalar hw hk fun b e => BitVec.ofNat 64 (widen e b (lget d (r.addr % 128) b)))
  unfold State.hostLine
  rw [hw]
  dsimp only
  rw [ownWait_of h]
  rfl

theorem hostLine_copy {t c g : Nat} (hw : r.waiter = .copy t c g) :
    s.hostLine n r d = (s.hostKeepLine r false d).hostKeep n { r with line := some d } := by
  unfold State.hostLine
  rw [hw]
  rfl

theorem hostAck_copy {t c g : Nat} (hw : r.waiter = .copy t c g) : s.hostAck n r = (s.dropHost n).unitDone t c g false := by
  unfold State.hostAck
  rw [hw]

theorem hostAck_store {c : Nat} (hw : r.waiter = .store c) : s.hostAck n r = s.dropHost n := by
  unfold State.hostAck
  rw [hw]
  rfl

end

/-! ## Translations (R78, R79) -/

theorem hostXlat_eq (s : State) (n : Nat) (r : Req) (page bytes : Nat) (g : AtsGrant) :
    ∃ m f, s.hostXlat n r page bytes g = (({ s with mem := m, free := f } : State).dropHost n).wakeJoined r
      ∧ m.atc.head? = some { pasid := r.pasid, page := page, bytes := bytes, ans := g } := by
  unfold State.hostXlat
  dsimp only
  by_cases h : s.mem.atc.length < 8192
  · rw [if_pos h]
    exact ⟨_, s.free, rfl, rfl⟩
  · rw [if_neg h]
    exact ⟨_, s.free + 1, rfl, rfl⟩

theorem hostXlat_of_splits {r : Req} (hr : r.ofSplits) (s : State) (n page bytes : Nat) (g : AtsGrant) :
    (s.hostXlat n r page bytes g).host = (s.dropHost n).host ∧ s.Readied (s.hostXlat n r page bytes g) r
      ∧ (s.hostXlat n r page bytes g).mem.atc.head? = some { pasid := r.pasid, page := page, bytes := bytes, ans := g } := by
  obtain ⟨m, f, he, hm⟩ := hostXlat_eq s n r page bytes g
  have hk := wakeJoined_readied hr (({ s with mem := m, free := f } : State).dropHost n)
  rw [he]
  refine ⟨?_, hk, ?_⟩ <;> rw [wakeJoined_rest hr]
  · rfl
  · exact hm

/-! ## The watch on the host (R422) -/

/-- A heartbeat at a machine whose requests without a response have ended. -/
def State.beat (t : State) : State :=
  let x := { t.host with lastBeat := t.timeNs }
  { t with host := if t.host.tether ≠ .lost then x
      else if t.host.deadline = t.timeNs + 1000000 ∧ t.host.parked = [] then HostLink.release { x with tether := .attached } x.waiting.length
      else { x with tether := .replay, parked := x.parked.map fun p => { p with sent := true } } }

theorem heartbeat_up {s : State} (h : s.boot.ready.getLsbD 0 = true) : exec .heartbeat s = .next s.atDeadline.beat := by
  refine (if_neg (by rw [h]; decide)).trans ?_
  dsimp only
  simp only [Bool.and_eq_true, decide_eq_true_eq]
  rfl

/-! ## The deadline (R423) -/

/-- The machine in which request n no longer waits at the link die. -/
def State.ending (s : State) (n : Nat) : State := { s with host := { s.host with waiting := s.host.waiting.filter fun t => decide (t ≠ n) } }

section
variable {s : State} {n : Nat} {r : Req}

theorem atDeadline_early (h : s.hostGone ≠ true) : s.atDeadline = s := if_pos (by rw [eq_false_of_ne_true h]; rfl)

/-- Where one request has no response at the deadline, it ends. -/
theorem atDeadline_one (hs : SMap.sorted s.host.reqs = true) (hg : s.hostGone = true) (hf : s.host.reqs.find n = some r) (hw : r.isWrite = false)
    (ha : r.answered = false) (hu : ∀ p ∈ s.host.reqs, p.2.isWrite = false → p.2.answered = false → p.1 = n) :
    s.atDeadline = (s.ending n).hostExpired n r := by
  have he : (s.host.reqs.filter fun p => !p.2.isWrite && !p.2.answered) = [(n, r)] := by
    refine find_filter_single hs hf (by rw [hw, ha]; rfl) fun p hp hq => ?_
    simp only [Bool.and_eq_true, Bool.not_eq_true'] at hq
    exact hu p hp hq.1 hq.2
  refine (if_neg (by rw [hg]; decide)).trans ?_
  dsimp only
  rw [he]
  rfl

theorem not_isXlat (h : r.kind ≠ .ats ∧ r.kind ≠ .pri) : ¬r.isXlat = true := by
  simp [Req.isXlat, h]

theorem hostExpired_xlat (h : ¬(r.kind ≠ .ats ∧ r.kind ≠ .pri)) (s : State) : s.hostExpired n r = s.hostRefuse n r 0x13 true :=
  if_pos (decide_eq_true (or_iff_not_and_not.mpr h))

theorem hostExpired_scalar {gid : Nat} (h : r.kind ≠ .ats ∧ r.kind ≠ .pri) (hw : r.waiter = .scalar gid) (hs : s.WaitsFor gid n) :
    s.hostExpired n r = (s.dropHost n).scalarTrapIn gid 0x13 r.va := by
  refine (if_neg (not_isXlat h)).trans ?_
  rw [hw]
  exact if_pos (ownWait_of hs)

theorem hostExpired_far {gid : Nat} (h : r.kind ≠ .ats ∧ r.kind ≠ .pri) (hw : r.waiter = .far gid) (s : State) :
    s.hostExpired n r = (((s.hostFar gid n fun _ _ => 0).stickyFabric r.ctx).dropHost n).acquired r := by
  refine (if_neg (not_isXlat h)).trans ?_
  rw [hw]

theorem hostExpired_engine (h : r.kind ≠ .ats ∧ r.kind ≠ .pri) {t c g m : Nat}
    (hw : r.waiter = .copy t c g ∨ r.waiter = .cmd m ∨ r.waiter = .eland m) (s : State) : s.hostExpired n r = (s.dropHost n).deny r 0x13 := by
  refine (if_neg (not_isXlat h)).trans ?_
  obtain hw | hw | hw := hw <;> rw [hw] <;> rfl

/-- The end of a lane's access: its registers get 0, and the context's sticky FABRIC bit is set. -/
theorem hostExpired_lands {gid : Nat} (h : r.kind ≠ .ats ∧ r.kind ≠ .pri) (hw : r.waiter = .far gid) (s : State) :
    s.Lands (s.hostExpired n r) gid n (fun _ _ => 0) ∧ ((s.hostExpired n r).context r.ctx).fabric = true := by
  have hc : ((((s.hostFar gid n fun _ _ => 0).stickyFabric r.ctx).dropHost n).context r.ctx).fabric = true :=
    congrArg Context.fabric (SMap.get_insert_self _ _ _ _)
  rw [hostExpired_far h hw]
  refine ⟨?_, acquired_fabric hw hc⟩
  rw [acquired_rest]
  exact lands_of_rest rfl rfl

end

/-! ## HOST_RESPONSE (R421) -/

/-- A response of this tag completes request r: it has reached the tether and has no answer, and is not one the deadline has ended. -/
def State.Awaits (s : State) (tag : Nat) (r : Req) : Prop :=
  s.host.reqs.find tag = some r ∧ r.answered = false ∧ tag ∉ s.host.waiting ∧ (∀ p ∈ s.host.parked, p.req = tag → p.sent = true)
    ∧ (s.hostGone = true → r.isWrite = true)

section
variable {s : State} {tag : Nat} {r : Req}

theorem hostResponse_unknown (h : s.host.reqs.find tag = none) (a : HostAns) : exec (.hostResponse tag a) s = .next s := by
  show execHostResponse tag a s = _
  unfold execHostResponse
  rw [h]

theorem hostResponse_late (hf : s.host.reqs.find tag = some r) (hg : s.hostGone = true) (hw : r.isWrite = false) (a : HostAns) :
    exec (.hostResponse tag a) s = .next s := by
  show execHostResponse tag a s = _
  unfold execHostResponse
  rw [hf]
  exact if_pos (by rw [hg, hw]; simp)

theorem onTether_of (h : s.Awaits tag r) (hk : r.kind ≠ .pri) : s.onTether tag r = true := by
  obtain ⟨-, -, hw, hp, -⟩ := h
  have hu : (s.host.parked.any fun p => decide (p.req = tag) && !p.sent) = false := by
    simp only [List.any_eq_false, Bool.and_eq_true, decide_eq_true_eq, Bool.not_eq_true']
    exact fun p hq ⟨he, hn⟩ => by rw [hp p hq he] at hn; exact Bool.noConfusion hn
  simp [State.onTether, hu, hw, hk]

section
variable (h : s.Awaits tag r)
include h

/-- None of the checks that drop a response holds. -/
theorem awaits_checks (hk : r.kind ≠ .pri) : (!s.onTether tag r || r.answered || (s.hostGone && !r.isWrite)) = false := by
  rw [onTether_of h hk]
  obtain ⟨-, ha, -, -, hg⟩ := h
  rw [ha]
  cases hd : s.hostGone with
  | false => simp
  | true => simp [hg hd]

theorem response_line (hk : r.kind = .read) (d : BitVec 1024) : exec (.hostResponse tag (.line d)) s = .next (s.hostLine tag r d) := by
  have hc := awaits_checks h (by rw [hk]; simp)
  show execHostResponse tag _ s = _
  simp only [execHostResponse, h.1, hc, hk, Bool.false_eq_true, if_false]

theorem response_value {o : Nat} {ty : ATy} (hk : r.kind = .atom o ty) (v : W64) : exec (.hostResponse tag (.value v)) s
    = .next (s.hostValue tag r fun b _ => BitVec.ofNat 64 (v.toNat % 2 ^ (8 * b))) := by
  have hc := awaits_checks h (by rw [hk]; simp)
  show execHostResponse tag _ s = _
  simp only [execHostResponse, h.1, hc, hk, Bool.false_eq_true, if_false]

theorem response_ack (hk : r.kind = .write) : exec (.hostResponse tag .ack) s = .next (s.hostAck tag r) := by
  have hc := awaits_checks h (by rw [hk]; simp)
  show execHostResponse tag _ s = _
  simp only [execHostResponse, h.1, hc, hk, Bool.false_eq_true, if_false]

section
variable (hk : r.kind = .ats)
include hk

theorem response_grant (hp n : Nat) (w : Bool) : exec (.hostResponse tag (.grant hp n w)) s
    = .next (if r.data = 1 ∧ !w then s.hostDenied tag r true
        else s.hostXlat tag r (r.va.toNat / max 1 n * max 1 n / 4096) n { hpage := hp, write := w }) := by
  have hc := awaits_checks h (by rw [hk]; simp)
  show execHostResponse tag _ s = _
  simp only [execHostResponse, h.1, hc, hk, Bool.false_eq_true, if_false]

/-- A page that has no translation, or that the host refuses, a grant that does not let the write through included. -/
theorem response_denied {a : HostAns} (ha : a = .noTranslation ∨ a = .refused ∨ (r.data = 1 ∧ ∃ hp n, a = .grant hp n false)) :
    exec (.hostResponse tag a) s = .next (s.hostDenied tag r (decide (a ≠ .noTranslation))) := by
  have hc := awaits_checks h (by rw [hk]; simp)
  obtain rfl | rfl | ⟨hd, hp, n, rfl⟩ := ha
  · show execHostResponse tag _ s = _
    simp only [execHostResponse, h.1, hc, hk, Bool.false_eq_true, if_false]
    rfl
  · show execHostResponse tag _ s = _
    simp only [execHostResponse, h.1, hc, hk, Bool.false_eq_true, if_false]
    rfl
  · rw [response_grant h hk, if_pos ⟨hd, rfl⟩]
    rfl

end

end

/-- The Page Request that a denied translation becomes (R79). -/
def State.pageRequest (s : State) (r : Req) (cmp : W64) : Req :=
  { r with kind := .pri, tries := 1, cmp := cmp, parked := decide (512 ≤ s.host.pris), sent := s.timeNs }

theorem hostDenied_first (h : r.tries = 0) (s : State) (n : Nat) (refused : Bool) : s.hostDenied n r refused
    = { s with host := { s.host with reqs := s.host.reqs.insert n (s.pageRequest r (if refused then 1 else 0)) } } := if_pos h

theorem hostDenied_again (h : r.tries ≠ 0) (s : State) (n : Nat) (refused : Bool) :
    s.hostDenied n r refused = s.hostRefuse n r (if refused then 0x07 else 0x06) false := if_neg h

end

/-! ## PRI_RESPONSE (R79) -/

/-- The machine in which a Page Request that succeeded is a translation request again. -/
def State.triedAgain (s : State) (n : Nat) (r : Req) : State :=
  { s with host := { s.host with reqs := s.host.reqs.insert n { r with kind := .ats, sent := s.timeNs } } }

section
variable {s : State} {tag : Nat} {r : Req} (hf : s.host.reqs.find tag = some r) (hk : r.kind = .pri) (hp : r.parked = false) (hg : s.hostGone ≠ true)
  (hn : ∀ p ∈ s.host.reqs, p.2.kind = .pri → p.2.parked = false)
include hf hk hp hg hn

theorem priResponse_success : exec (.priResponse tag .success) s = .next (s.triedAgain tag r) := by
  have hq : (s.triedAgain tag r).host.nextPri = (s.triedAgain tag r).host := nextPri_none fun p hm hc => by
    obtain e | e := SMap.mem_insert hm
    · rw [e] at hc
      exact ReqKind.noConfusion hc
    · exact hn p e hc
  show execPriResponse tag .success s = _
  unfold execPriResponse
  rw [hf]
  refine (if_neg (by simp [hk, hp, hg])).trans ?_
  show Host.Outcome.next { s.triedAgain tag r with host := (s.triedAgain tag r).host.nextPri } = _
  rw [hq]

theorem priResponse_failure {a : PriResp} (ha : a ≠ .success) (hr : r.ofSplits) :
    exec (.priResponse tag a) s = .next (s.hostRefuse tag r (if r.cmp = 1 then 0x07 else 0x06) false) := by
  have hq : (s.hostRefuse tag r (if r.cmp = 1 then 0x07 else 0x06) false).host.nextPri
      = (s.hostRefuse tag r (if r.cmp = 1 then 0x07 else 0x06) false).host := nextPri_none fun p hm hc => by
    rw [(hostRefuse_of_splits hr s tag _ false).2.2] at hm
    exact dropHost_pris s tag hn p hm hc
  have he : execPriResponse tag a s = .next { s.hostRefuse tag r (if r.cmp = 1 then 0x07 else 0x06) false with
      host := (s.hostRefuse tag r (if r.cmp = 1 then 0x07 else 0x06) false).host.nextPri } := by
    unfold execPriResponse
    rw [hf]
    refine (if_neg (by simp [hk, hp, hg])).trans ?_
    cases a with
    | success => exact absurd rfl ha
    | failure => rfl
    | invalid => rfl
  rw [hq] at he
  exact he

end

theorem lands_of_mem {s t u : State} {gid n : Nat} {val : Nat → Ext → W64} (ht : t = { s with mem := t.mem }) (h : t.Lands u gid n val) :
    s.Lands u gid n val := by
  rw [ht] at h
  exact h

section
variable {s : State} {tag : Nat} {r : Req} {d : BitVec 1024} (h : s.Awaits tag r)
include h

/-- A lane's read: its registers have the bytes, and memory the line, as it may be kept (R120). -/
theorem line_far {gid : Nat} (hk : r.kind = .read) (hw : r.waiter = .far gid) : ∃ u : State, exec (.hostResponse tag (.line d)) s = .next u
    ∧ s.Lands u gid tag (fun b e => BitVec.ofNat 64 (widen e b (lget d (r.addr % 128) b)))
    ∧ (r.acq = none → u.mem = (s.hostKeepLine r true d).mem) := by
  refine ⟨_, (response_line h hk d).trans (congrArg _ (hostLine_far hw)),
    lands_of_mem (hostKeepLine_rest s r true d) (hostValue_lands hw _ _ _), fun ha => ?_⟩
  obtain ⟨hm, -⟩ := hostValue_after hw (s.hostKeepLine r true d) tag fun b e => BitVec.ofNat 64 (widen e b (lget d (r.addr % 128) b))
  rw [if_pos ha] at hm
  exact hm

theorem line_scalar {gid : Nat} (hk : r.kind = .read) (hw : r.waiter = .scalar gid) (hs : s.WaitsFor gid tag) :
    ∃ u : State, exec (.hostResponse tag (.line d)) s = .next u ∧ u = { s with mem := u.mem, host := u.host }
      ∧ u.host.reqs.find tag = some { r with ans := some (BitVec.ofNat 64 (lget d (r.addr % 128) r.bytes)) } := by
  have hm : tag ∉ (s.hostKeepLine r true d).host.waiting := by
    rw [hostKeepLine_rest]
    exact h.2.2.1
  refine ⟨_, (response_line h hk d).trans (congrArg _ (hostLine_scalar hw hs)), ?_, hostKeep_find hm _⟩
  rw [hostKeepLine_rest]
  rfl

theorem line_copy {t c g : Nat} (hk : r.kind = .read) (hw : r.waiter = .copy t c g) :
    ∃ u : State, exec (.hostResponse tag (.line d)) s = .next u
      ∧ u = { s with mem := u.mem, host := (s.hostKeep tag { r with line := some d }).host } ∧ (r.stale = true ∨ r.pol = 1 → u.mem = s.mem) := by
  refine ⟨_, (response_line h hk d).trans (congrArg _ (hostLine_copy hw)), ?_, fun hs => ?_⟩
  · rw [hostKeepLine_rest]
    rfl
  · rw [hostKeepLine_dropped (hs.imp_right fun hp => ⟨rfl, hp⟩)]
    rfl

end

/-! ## REPLAY_COMPLETE (R422) -/

section
variable {s : State} (ht : s.host.tether = .replay)
include ht

theorem replayComplete_done (hp : s.host.parked = []) (hw : s.host.waiting = []) :
    exec .replayComplete s = .next { s with host := { s.host with tether := .attached } } := by
  show execReplayComplete s = _
  unfold execReplayComplete
  dsimp only
  rw [if_neg (not_not.mpr ht), if_pos hp, release_nil (h := { s.host with tether := .attached }) hw]

/-- Writes parked since the heartbeat are sent first. -/
theorem replayComplete_more (hp : s.host.parked ≠ []) : exec .replayComplete s
    = .next { s with host := { s.host with tether := .replay, parked := s.host.parked.map fun p => { p with sent := true } } } := by
  show execReplayComplete s = _
  unfold execReplayComplete
  dsimp only
  rw [if_neg (not_not.mpr ht), if_neg hp, ht]

end

/-- Settles O48: each event of the tether by its own lemma; a request that leaves the list lets others leave the link die, which changes nothing
that the statement names beside what waits, stands and is parked there. -/
theorem hostTether : Obligations.HostTether := by
  intro s hsort _ h now dead up replay beat
  have hdead : s.hostGone = true ↔ dead := hostGone_iff s
  refine ⟨fun hu => if_pos ?_, fun hu => ⟨s.atDeadline, rfl, heartbeat_up hu⟩, fun v => ⟨rfl, fun off ho => if_neg ho⟩,
    ⟨fun hl => if_pos hl, fun hl => if_neg hl⟩, fun ht => if_pos ht, fun ht hp hw => replayComplete_done ht hp hw, fun ht hp => replayComplete_more ht hp,
    fun hd => congrArg _ (atDeadline_early (mt hdead.mp hd)), fun tag r a hd hf hw => hostResponse_late hf (hdead.mpr hd) hw a, ?_⟩
  · rw [eq_false_of_ne_true hu]
    rfl
  intro ready told splits
  refine ⟨?_, fun tag a hf => hostResponse_unknown hf a, ?_, ?_⟩
  · intro n r hd hf hw ha hu z gone access
    have he : exec .hostDeadline s = .next (z.hostExpired n r) := congrArg _ (atDeadline_one hsort (hdead.mpr hd) hf hw ha hu)
    have hden : gone.host.denials = h.denials := dropHost_denials z n
    refine ⟨fun gid hacc hr hs => he.trans (congrArg _ (hostExpired_scalar hacc hr hs)), fun gid hacc hr => ?_, fun t c g m hacc hr => ?_,
      fun hacc hr => ?_⟩
    · obtain ⟨⟨h1, h2, h3⟩, h4⟩ := hostExpired_lands (n := n) hacc hr z
      exact ⟨_, he, h1, h4, h2, h3⟩
    · rw [he, hostExpired_engine hacc hr, ← hden]
      rfl
    · obtain ⟨h1, -, h2⟩ := hostRefuse_of_splits hr z n 0x13 true
      rw [hostExpired_xlat hacc] at he
      exact ⟨_, he, h1, h2⟩
  · intro tag r hf ha hw hp hd gone kept lands waits low asked asks
    have hA : s.Awaits tag r := ⟨hf, ha, hw, hp, fun hg => hd (hdead.mp hg)⟩
    refine ⟨fun d hk => ⟨fun gid hr => ?_, fun gid hr hs => line_scalar hA hk hr hs, fun t c g hr => line_copy hA hk hr⟩,
      fun v o ty hk => ⟨fun gid hr => ⟨_, (response_value hA hk v), hostValue_lands hr _ _ _, hostValue_after hr _ _ _⟩,
        fun gid hr hs => (response_value hA hk v).trans (congrArg _ (hostValue_scalar hr hs _))⟩,
      fun hk => ⟨fun c hr => (response_ack hA hk).trans (congrArg _ (hostAck_store hr)),
        fun t c g hr => (response_ack hA hk).trans (congrArg _ (hostAck_copy hr))⟩,
      fun hk => ⟨fun hp n w hc h1 hr => ?_, fun a ha => ⟨fun h0 => ?_, fun h0 hr => ?_⟩⟩⟩
    · obtain ⟨u, hu, hl, hm⟩ := line_far (d := d) hA hk hr
      refine ⟨u, hu, hl, fun hq hst => (hm hq).trans ?_, fun hq hst hl1 => ?_⟩
      · rw [hostKeepLine_dropped (.inl hst)]
      · rw [hm hq]
        exact hostKeepLine_kept hst hl1 s d
    · have hb : ¬(r.data = 1 ∧ (!w) = true) := fun ⟨hd1, hw1⟩ => by
        obtain hn | hn := hc
        · exact hn hd1
        · rw [hn] at hw1
          exact Bool.noConfusion hw1
      have he := response_grant hA hk hp n w
      rw [if_neg hb, Nat.max_eq_right h1] at he
      exact ⟨_, he, hostXlat_of_splits hr _ _ _ _ _⟩
    · rw [response_denied hA hk ha, hostDenied_first h0]
      simp only [decide_eq_true_eq, ne_eq, ite_not]
      rfl
    · have he := response_denied hA hk ha
      rw [hostDenied_again h0] at he
      simp only [decide_eq_true_eq, ne_eq, ite_not] at he
      obtain ⟨h1, h2, h3⟩ := hostRefuse_of_splits hr s tag (if a = .noTranslation then 0x06 else 0x07) false
      exact ⟨_, he, h1, h2, h3⟩
  · intro tag r hf hk hp hd hn
    have hg : s.hostGone ≠ true := mt hdead.mp hd
    exact ⟨priResponse_success hf hk hp hg hn, fun a ha hr => ⟨_, priResponse_failure hf hk hp hg hn ha hr, hostRefuse_of_splits hr _ _ _ _⟩⟩

end Sys2Proof.Machine
end

section
/-! PROOFS. Completion rings: RINIT, RAWAIT and RREL (R110, R144, R146 to R148). -/

namespace Sys2Proof.Machine

/-! ## Numbers in a scratchpad -/

section
variable {m m' : SMap Byte} {a n : Nat} {v : W64}

/-- A number that some bytes spell stands in every memory with the same bytes there. -/
theorem Spells.congr (hs : Spells m a n v) (h : ∀ x, a ≤ x → x < a + n → SMap.get 0 m' x = SMap.get 0 m x) : Spells m' a n v :=
  ⟨hs.1, fun j hj => (hs.2 j hj).trans (h (a + j) (by omega) (by omega)).symm⟩

theorem spells_zero (h : ∀ x, a ≤ x → x < a + n → SMap.get 0 m x = 0) : Spells m a n 0 := by
  refine ⟨Nat.two_pow_pos _, fun j hj => ?_⟩
  rw [h (a + j) (by omega) (by omega)]
  simp [byteOf]

theorem getElem_leBytes (n v j : Nat) (h : j < (leBytes n v).length) : (leBytes n v)[j] = BitVec.ofNat 8 (v / 256 ^ j) := by
  induction n generalizing v j with
  | zero => simp [leBytes] at h
  | succ n ih =>
    cases j with
    | zero => simp [leBytes]
    | succ j => simp only [leBytes, List.getElem_cons_succ, ih, Nat.div_div_eq_div_mul, pow_succ']

theorem byteOf_eq (v : W64) (j : Nat) : byteOf v j = BitVec.ofNat 8 (v.toNat / 256 ^ j) := by
  apply BitVec.eq_of_toNat_eq
  rw [byteOf, BitVec.extractLsb'_toNat, BitVec.toNat_ofNat, Nat.shiftRight_eq_div_pow, Nat.pow_mul]

/-- A word that is written stands where it was written. -/
theorem spells_wrNat (m : SMap Byte) (a : Nat) (v : W64) : Spells (wrNat m a 8 v.toNat) a 8 v := by
  refine ⟨v.isLt, fun j hj => ?_⟩
  rw [wrNat, get_wrBytes, dif_pos (by rw [length_leBytes]; omega), getElem_leBytes, byteOf_eq, Nat.add_sub_cancel_left]

theorem get_wrNat_zero (m : SMap Byte) {a n x : Nat} (h1 : a ≤ x) (h2 : x < a + n) : SMap.get 0 (wrNat m a n 0) x = 0 := by
  rw [wrNat, get_wrBytes, dif_pos ⟨h1, by rwa [length_leBytes]⟩, getElem_leBytes, Nat.zero_div]
  rfl

theorem wrBytes_append (m : SMap Byte) (a : Nat) (b c : List Byte) : wrBytes m a (b ++ c) = wrBytes (wrBytes m a b) (a + b.length) c := by
  induction b generalizing m a with
  | nil => rfl
  | cons x b ih => rw [List.cons_append, wrBytes, ih, List.length_cons, Nat.add_right_comm, Nat.add_assoc]; rfl

theorem length_wordBytes (ws : List W64) : (wordBytes ws).length = 8 * ws.length := by
  simp [wordBytes, List.length_flatMap, Nat.mul_comm]

/-- Words that are written stand one after another, whatever is written behind them. -/
theorem spells_wrBytes (m : SMap Byte) (a : Nat) (ws : List W64) (rest : List Byte) {i : Nat} (hi : i < ws.length) :
    Spells (wrBytes m a (wordBytes ws ++ rest)) (a + 8 * i) 8 ws[i] := by
  induction ws generalizing m a i with
  | nil => exact absurd hi (Nat.not_lt_zero i)
  | cons v ws ih =>
    have hb : wrBytes m a (wordBytes (v :: ws) ++ rest) = wrBytes (wrNat m a 8 v.toNat) (a + 8) (wordBytes ws ++ rest) := by
      rw [show wordBytes (v :: ws) = leBytes 8 v.toNat ++ wordBytes ws from rfl, List.append_assoc, wrBytes_append, length_leBytes]
      rfl
    rw [hb]
    cases i with
    | zero => exact (spells_wrNat m a v).congr fun x _ h2 => get_wrBytes_of_outside _ _ _ (by omega)
    | succ i =>
      rw [show a + 8 * (i + 1) = a + 8 + 8 * i by omega]
      exact ih _ _ (by simpa using hi)

end

/-! ## The team of the current group -/

theorem curTeam_modTeam (s : State) (f : Team → Team) : (s.modTeam s.cur.team f).curTeam = f s.curTeam := team_modTeam_self s s.cur.team f

theorem woken_teamEvent (s : State) (t : Nat) : Woken s (s.teamEvent t) t :=
  ⟨rfl, fun g => find_mapIf (c := fun _ (x : Group) => x.team = t) s.groups (fun x => wakeGroup s.timeNs (x.takes (s.team t))) g⟩

/-! ## What writes leave of a ring (Table 5-3) -/

theorem le_ringLen (n : Nat) : 32 + 4 * n ≤ ringLen n := by
  unfold ringLen
  omega

section
variable {t u : Team} {h k : Nat}

theorem Team.rd_congr {a n : Nat} (he : ∀ x, a ≤ x → x < a + n → SMap.get 0 u.scratch x = SMap.get 0 t.scratch x) : u.rd a n = t.rd a n :=
  rdNat_congr he

theorem Team.slots_pos (t : Team) (h : Nat) : 0 < t.slots h := Nat.succ_pos _

/-- `u` differs from `t` in scratchpad bytes alone. -/
def Team.ScratchOnly (t u : Team) : Prop := u = { t with scratch := u.scratch }

theorem Team.ScratchOnly.trans {v : Team} (hu : t.ScratchOnly u) (hv : u.ScratchOnly v) : t.ScratchOnly v := by
  unfold Team.ScratchOnly at *
  rw [hv, hu]

theorem scratchOnly_wr (t : Team) (a n v : Nat) : t.ScratchOnly (t.wr a n v) := rfl

/-- `u` is `t` with WPTR moved past k slots, all in STATE 2 (R144). -/
structure Team.Advanced (t u : Team) (h k : Nat) : Prop where
  rest : t.ScratchOnly u
  kept : ∀ x, ¬(h + 4 ≤ x ∧ x < h + 8) → SMap.get 0 u.scratch x = SMap.get 0 t.scratch x
  wptr : u.wptr h = (t.wptr h + k) % 2 ^ 32
  passed : ∀ i, i < k → t.slotState h ((t.wptr h + i) % 2 ^ 32 % t.slots h) = 2

theorem Team.wptr_lt (t : Team) (h : Nat) : t.wptr h < 2 ^ 32 := t.rd_lt (h + 4) 4

section
variable (hu : t.Advanced u h k)
include hu

theorem Team.Advanced.rd {a n : Nat} (ha : a + n ≤ h + 4 ∨ h + 8 ≤ a) : u.rd a n = t.rd a n :=
  Team.rd_congr fun x h1 h2 => hu.kept x (by omega)

theorem Team.Advanced.rptr : u.rptr h = t.rptr h := hu.rd (by omega)

theorem Team.Advanced.slots : u.slots h = t.slots h := congrArg (· + 1) (hu.rd (by omega))

theorem Team.Advanced.slotState (i : Nat) : u.slotState h i = t.slotState h i := hu.rd (by omega)

theorem Team.Advanced.slotStatus (i : Nat) : u.slotStatus h i = t.slotStatus h i := hu.rd (by omega)

end

theorem Team.Advanced.refl (t : Team) (h : Nat) : t.Advanced t h 0 where
  rest := rfl
  kept _ _ := rfl
  wptr := (Nat.mod_eq_of_lt (t.wptr_lt h)).symm
  passed _ hi := absurd hi (Nat.not_lt_zero _)

/-- One slot passed, and then k more. -/
theorem Team.Advanced.step (hs : t.slotState h (t.wptr h % t.slots h) = 2)
    (hu : (t.wr (h + 4) 4 ((t.wptr h + 1) % 2 ^ 32)).Advanced u h k) : t.Advanced u h (k + 1) := by
  have hk (x : Nat) (hx : ¬(h + 4 ≤ x ∧ x < h + 8)) :
      SMap.get 0 (t.wr (h + 4) 4 ((t.wptr h + 1) % 2 ^ 32)).scratch x = SMap.get 0 t.scratch x := get_wrNat_of_outside _ (by omega)
  have hw : (t.wr (h + 4) 4 ((t.wptr h + 1) % 2 ^ 32)).wptr h = (t.wptr h + 1) % 2 ^ 32 :=
    (t.rd_wr_self (h + 4) 4 _).trans (Nat.mod_mod _ _)
  have hr (a n : Nat) (ha : a + n ≤ h + 4 ∨ h + 8 ≤ a) : (t.wr (h + 4) 4 ((t.wptr h + 1) % 2 ^ 32)).rd a n = t.rd a n :=
    Team.rd_congr fun x h1 h2 => hk x (by omega)
  refine ⟨(scratchOnly_wr _ _ _ _).trans hu.rest, fun x hx => (hu.kept x hx).trans (hk x hx), ?_, fun i hi => ?_⟩
  · rw [hu.wptr, hw]
    omega
  · cases i with
    | zero => rwa [Nat.add_zero, Nat.mod_eq_of_lt (t.wptr_lt h)]
    | succ i =>
      have hp := hu.passed i (by omega)
      rw [hw, Team.slotState, hr _ _ (by omega), Team.slots, hr _ _ (by omega)] at hp
      rw [show (t.wptr h + (i + 1)) % 2 ^ 32 = ((t.wptr h + 1) % 2 ^ 32 + i) % 2 ^ 32 by omega]
      exact hp

/-- What step 2 of R144 does: it passes slots in STATE 2, until it finds another, or none is left. -/
theorem advanceWptr_advanced (t : Team) (h n : Nat) : ∃ k, t.Advanced (t.advanceWptr h n) h k ∧ (k < n →
    (t.advanceWptr h n).ringUsed h < t.slots h → (t.advanceWptr h n).slotState h ((t.advanceWptr h n).wptr h % t.slots h) ≠ 2) := by
  induction n generalizing t with
  | zero => exact ⟨0, .refl t h, fun h => absurd h (Nat.not_lt_zero _)⟩
  | succ n ih =>
    rw [Team.advanceWptr]
    by_cases hc : t.ringUsed h < t.slots h ∧ t.slotState h (t.wptr h % t.slots h) = 2
    · rw [if_pos hc]
      obtain ⟨k, hk, hstop⟩ := ih (t.wr (h + 4) 4 ((t.wptr h + 1) % 2 ^ 32))
      have hall := hk.step hc.2
      rw [← hk.slots, hall.slots] at hstop
      exact ⟨k + 1, hall, fun hn => hstop (by omega)⟩
    · rw [if_neg hc]
      exact ⟨0, .refl t h, fun _ h1 h2 => hc ⟨h1, h2⟩⟩

end

/-! ## RREL (R148) -/

section
variable (t : Team) (h c : Nat)

/-- The first c slots from RPTR on, made free. -/
def Team.freeSlots : Team := (List.range c).foldl (fun t j => t.wr (h + 32 + 4 * ((t.rptr h + j) % t.slots h)) 4 0) t

theorem rrel_eq : t.rrel h c = ((t.freeSlots h c).wr h 4 (((t.freeSlots h c).rptr h + c) % 2 ^ 32)).advanceWptr h 256 := rfl

theorem Team.freeSlots_succ : t.freeSlots h (c + 1)
    = (t.freeSlots h c).wr (h + 32 + 4 * (((t.freeSlots h c).rptr h + c) % (t.freeSlots h c).slots h)) 4 0 := by
  rw [Team.freeSlots, List.range_succ, List.foldl_append]
  rfl

theorem Team.scratchOnly_freeSlots : t.ScratchOnly (t.freeSlots h c) := by
  induction c with
  | zero => rfl
  | succ c ih => exact ih.trans (by rw [Team.freeSlots_succ]; rfl)

/-- Freeing writes the slots' words, whose number no write to them changes. -/
theorem Team.freeSlots_kept : ∀ x, ¬(h + 32 ≤ x ∧ x < h + 32 + 4 * t.slots h) → SMap.get 0 (t.freeSlots h c).scratch x = SMap.get 0 t.scratch x := by
  induction c with
  | zero => exact fun _ _ => rfl
  | succ c ih =>
    have hs : (t.freeSlots h c).slots h = t.slots h := congrArg (· + 1) (Team.rd_congr fun x h1 h2 => ih x (by omega))
    intro x hx
    have hlt := Nat.mod_lt ((t.freeSlots h c).rptr h + c) (t.slots_pos h)
    rw [Team.freeSlots_succ, hs]
    exact (get_wrNat_of_outside _ (by omega)).trans (ih x hx)

theorem Team.freeSlots_slots : (t.freeSlots h c).slots h = t.slots h :=
  congrArg (· + 1) (Team.rd_congr fun x h1 h2 => t.freeSlots_kept h c x (by omega))

theorem Team.freeSlots_rptr : (t.freeSlots h c).rptr h = t.rptr h := Team.rd_congr fun x h1 h2 => t.freeSlots_kept h c x (by omega)

theorem Team.freeSlots_zero {j x : Nat} (hj : j < c) (h1 : h + 32 + 4 * ((t.rptr h + j) % t.slots h) ≤ x)
    (h2 : x < h + 32 + 4 * ((t.rptr h + j) % t.slots h) + 4) : SMap.get 0 (t.freeSlots h c).scratch x = 0 := by
  induction c with
  | zero => exact absurd hj (Nat.not_lt_zero j)
  | succ c ih =>
    rw [Team.freeSlots_succ, Team.freeSlots_slots, Team.freeSlots_rptr]
    by_cases hx : h + 32 + 4 * ((t.rptr h + c) % t.slots h) ≤ x ∧ x < h + 32 + 4 * ((t.rptr h + c) % t.slots h) + 4
    · exact get_wrNat_zero _ hx.1 hx.2
    · refine (get_wrNat_of_outside _ (by omega)).trans (ih ?_)
      by_contra hc
      obtain rfl : j = c := by omega
      exact hx ⟨h1, h2⟩

/-- What RREL leaves: the header and the slots it has freed; WPTR may pass slots too. -/
theorem rrel_spec : t.ScratchOnly (t.rrel h c) ∧ ScratchKept t (t.rrel h c) h (ringLen (t.slots h))
    ∧ (t.rrel h c).rptr h = (t.rptr h + c) % 2 ^ 32
    ∧ ∀ j, j < c → Spells (t.rrel h c).scratch (h + 32 + 4 * ((t.rptr h + j) % t.slots h)) 4 0 := by
  have hlen := le_ringLen (t.slots h)
  obtain ⟨k, hk, -⟩ := advanceWptr_advanced ((t.freeSlots h c).wr h 4 (((t.freeSlots h c).rptr h + c) % 2 ^ 32)) h 256
  rw [← rrel_eq] at hk
  have hw (x : Nat) (hx : ¬(h ≤ x ∧ x < h + 8)) : SMap.get 0 (t.rrel h c).scratch x = SMap.get 0 (t.freeSlots h c).scratch x :=
    (hk.kept x (by omega)).trans (get_wrNat_of_outside _ (by omega))
  refine ⟨((t.scratchOnly_freeSlots h c).trans (scratchOnly_wr _ _ _ _)).trans hk.rest, fun x hx => (hw x (by omega)).trans (t.freeSlots_kept h c x (by omega)), ?_, fun j hj => spells_zero fun x h1 h2 => ?_⟩
  · rw [hk.rptr, Team.freeSlots_rptr]
    exact (Team.rd_wr_self h 4 _).trans (Nat.mod_mod _ _)
  · exact (hw x (by omega)).trans (t.freeSlots_zero h c hj h1 h2)

end

/-! ## The checks of RAWAIT and RREL (R138, Table 7-3) -/

section
variable {t : Team} {w : W64}

theorem ringOp_malformed (h : 2 ^ 16 ≤ w.toNat ∨ w.toNat / 16 % 16 ≠ 0) : t.ringOp w = .error 0x10 := if_pos (by omega)

variable (h16 : w.toNat < 2 ^ 16) (h0 : w.toNat / 16 % 16 = 0)
include h16 h0

theorem ringOp_absent (h : t.kernel.rings ≤ w.toNat % 16 ∨ t.ring? (w.toNat % 16) = none) : t.ringOp w = .error 0x11 := by
  have hn : wbits w 0 4 = w.toNat % 16 := by simp [wbits]
  rw [Team.ringOp, if_neg (by omega), hn]
  by_cases hr : t.kernel.rings ≤ w.toNat % 16
  · rw [if_pos hr]
  · rw [if_neg hr, h.resolve_left hr]

/-- A ring that is there: its header, unless the lookahead is past its slots. -/
theorem ringOp_present {h : Nat} (hr : w.toNat % 16 < t.kernel.rings) (hs : t.ring? (w.toNat % 16) = some h) :
    t.ringOp w = if t.slots h ≤ w.toNat / 256 then .error 0x10 else .ok h := by
  have hn : wbits w 0 4 = w.toNat % 16 := by simp [wbits]
  have hl : wbits w 8 8 = w.toNat / 256 := Nat.mod_eq_of_lt (by omega)
  rw [Team.ringOp, if_neg (by omega), hn, if_neg (Nat.not_le.mpr hr), hs, hl]

end

section
variable {s : State} {a d : BitVec 6}

/-- RAWAIT and RREL that fail a check. -/
theorem ring_refused {e : Nat} (h : s.curTeam.ringOp (s.sread a) = .error e) :
    ScalarGives (.rawait a d) s d (BitVec.ofNat 64 e) ∧ ScalarGives (.rrel a d) s d (BitVec.ofNat 64 e) := by
  refine ⟨.of_sput (?_ : execRawait a d s = _) rfl, .of_sput (?_ : execRrel a d s = _) rfl⟩
  · rw [execRawait, h]
  · rw [execRrel, h]

theorem ringCommandChecks : RingCommandChecks := by
  unfold RingCommandChecks
  intro s a d w t both
  refine ⟨fun h => ring_refused (ringOp_malformed h), fun h16 h0 h => ring_refused (ringOp_absent h16 h0 h), fun h h16 h0 hr hs hp => ?_⟩
  exact ring_refused ((ringOp_present h16 h0 hr hs).trans (if_pos hp))

theorem rawait_ok {h : Nat} (ho : s.curTeam.ringOp (s.sread a) = .ok h) :
    exec (.rawait a d) s = .next (s.rawait a d (wbits (s.sread a) 0 4) (wbits (s.sread a) 8 8)) := by
  show execRawait a d s = _
  rw [execRawait, ho]

theorem rrel_ok {h : Nat} (ho : s.curTeam.ringOp (s.sread a) = .ok h) :
    exec (.rrel a d) s = if s.curTeam.ringUsed h < wbits (s.sread a) 8 8 + 1 then .next (s.sput d 0x16)
      else .next (((s.modTeam s.cur.team fun t => t.rrel h (wbits (s.sread a) 8 8 + 1)).teamEvent s.cur.team).sput d 0) := by
  show execRrel a d s = _
  rw [execRrel, ho]

end

theorem ringWaitAndRelease : RingWaitAndRelease := by
  unfold RingWaitAndRelease
  intro s a d h w ring n t r p used pos h16 h0 hr hs hn
  have ho : t.ringOp (s.sread a) = .ok h := (ringOp_present h16 h0 hr hs).trans (if_neg (Nat.not_le.mpr hn))
  have h4 : wbits (s.sread a) 0 4 = ring := by simp [wbits, ring, w]
  have h8 : wbits (s.sread a) 8 8 = n := Nat.mod_eq_of_lt (by omega)
  have hwait := rawait_ok (d := d) ho
  have hrel := rrel_ok (d := d) ho
  rw [h4, h8, State.rawait, hs, Option.bind_some] at hwait
  rw [h8] at hrel
  refine ⟨fun hu => .of_sput (hwait.trans ?_) rfl, fun hu => .of_swaitOn (w := { instr := .rawait a d, tok := ring, aux := [BitVec.ofNat 64 n] }) (hwait.trans ?_) rfl, fun hu => .of_sput (hrel.trans (if_pos ?_)) rfl, fun hu => ?_⟩
  · rw [show s.curTeam.rawait h n = some _ from if_pos hu]
    rfl
  · rw [show s.curTeam.rawait h n = none from if_neg (Nat.not_lt.mpr hu)]
  · exact Nat.lt_succ_of_le hu
  · obtain ⟨hrest, hkept, hptr, hfree⟩ := rrel_spec t h (n + 1)
    refine ⟨_, _, .of_sput (hrel.trans (if_neg (Nat.not_lt.mpr hu))), woken_teamEvent _ _, onlyTeam_modTeam _ _ _, ?_⟩
    rw [curTeam_modTeam]
    exact ⟨hrest, hkept, hptr, fun j hj => hfree j (by omega)⟩

/-! ## RINIT (R146) -/

theorem Watch.reinit_iff {w : Watch} {n off : Nat} : w.reinit n off = true ↔ ∃ r, w.kind = .ring r ∧ (r = n ∨ w.off = off) := by
  unfold Watch.reinit
  split
  · next m hk => simp [hk]
  · next hk => simpa using fun r hr => absurd hr (hk r)

theorem ringBusy_iff {t : Team} {h : Nat} : t.ringBusy h = true ↔ ∃ i, i < t.slots h ∧ (t.slotState h i = 1 ∨ t.slotState h i = 3) := by
  simp [Team.ringBusy]

/-- The operands of RINIT are in range (R146). -/
def rinitGood (w0 w1 : W64) : Prop :=
  w0.toNat < 2 ^ 24 ∧ w0.toNat % 2 ^ 20 % 16 = 0 ∧ 256 ≤ w0.toNat % 2 ^ 20 ∧ w1.toNat % 2 ^ 24 ≠ 0 ∧ w1.toNat / 2 ^ 32 % 2 ^ 8 = 0 ∧ w1.toNat < 2 ^ 41

section
variable {t : Team} {w0 w1 : W64}

theorem rinitStatus_bad (h : ¬rinitGood w0 w1) : t.rinitStatus w0 w1 = 0x10 := by
  have h0 := w0.isLt
  have h1 := w1.isLt
  refine if_pos ?_
  simp only [Bool.or_eq_true, decide_eq_true_eq]
  simp only [wbits, Nat.reducePow, Nat.div_one]
  simp only [rinitGood, Nat.reducePow] at h
  omega

variable (hg : rinitGood w0 w1)
include hg

/-- RINIT past its operands (Table 7-3): the ring's number, then a ring in use, then the extent, which only a ring at its offset may overlap (R112). -/
theorem rinitStatus_good : ∃ e, t.rinitStatus w0 w1 = (if t.kernel.rings ≤ wbits w0 20 4 then 0x11
      else if (t.watch.any fun w => w.reinit (wbits w0 20 4) (wbits w0 0 20) && t.ringBusy w.off) = true then 0x17 else e)
    ∧ (wbits w0 0 20 + ringLen (wbits w1 24 8 + 1) ≤ t.size' →
      (∀ w ∈ t.watch, ((∃ r, w.kind = .ring r) ∧ w.off = wbits w0 0 20) ∨ w.off + w.len ≤ wbits w0 0 20
        ∨ wbits w0 0 20 + ringLen (wbits w1 24 8 + 1) ≤ w.off) → e = 0) := by
  refine ⟨_, if_neg ?_, fun hin hfree => (if_neg (Nat.not_lt.mpr hin)).trans (if_neg ?_)⟩
  · simp only [Bool.or_eq_true, decide_eq_true_eq]
    simp only [wbits, Nat.reducePow, Nat.div_one]
    simp only [rinitGood, Nat.reducePow] at hg
    omega
  · simp only [Team.clashes, List.any_eq_true, Bool.and_eq_true, Bool.not_eq_true', decide_eq_true_eq]
    rintro ⟨w, hw, ⟨hm, h1⟩, h2⟩
    rcases hfree w hw with ⟨⟨r, hk⟩, ho⟩ | h | h
    · simp [hk, ho] at hm
    · omega
    · omega

end

section
variable (t : Team) (w0 w1 w2 : W64)

/-- The slots of the ring that RINIT makes. -/
def rinitSlots (w1 : W64) : Nat := wbits w1 24 8 + 1

theorem rinit_scratch : (t.rinit w0 w1 w2).scratch
    = wrBytes t.scratch (wbits w0 0 20) (wordBytes [0, w1, w2, 0] ++ List.replicate (4 * rinitSlots w1) 0) := by
  simp only [Team.rinit, rinitSlots]

theorem rinit_rest : t.rinit w0 w1 w2
    = { t with watch := (t.rinit w0 w1 w2).watch, ringsFree := (t.rinit w0 w1 w2).ringsFree, scratch := (t.rinit w0 w1 w2).scratch } := by
  simp only [Team.rinit]

theorem rinit_scratchKept : ScratchKept t (t.rinit w0 w1 w2) (wbits w0 0 20) (ringLen (rinitSlots w1)) := by
  intro x hx
  have hl := le_ringLen (rinitSlots w1)
  rw [rinit_scratch]
  refine get_wrBytes_of_outside _ _ _ ?_
  rw [List.length_append, length_wordBytes, List.length_replicate, show [0, w1, w2, 0].length = 4 from rfl]
  omega

theorem rinit_header {i : Nat} (hi : i < 4) : Spells (t.rinit w0 w1 w2).scratch (wbits w0 0 20 + 8 * i) 8 ([0, w1, w2, 0][i]'hi) := by
  rw [rinit_scratch]
  exact spells_wrBytes _ _ _ _ _

theorem rinit_slot {j : Nat} (hj : j < rinitSlots w1) : Spells (t.rinit w0 w1 w2).scratch (wbits w0 0 20 + 32 + 4 * j) 4 0 := by
  refine spells_zero fun x h1 h2 => ?_
  have hb : (wordBytes [0, w1, w2, 0]).length = 32 := length_wordBytes _
  rw [rinit_scratch, wrBytes_append, hb, get_wrBytes, dif_pos (by rw [List.length_replicate]; omega), List.getElem_replicate]

/-- The watch entry of the ring that RINIT makes. -/
def rinitWatch (w0 w1 : W64) : Watch := { kind := .ring (wbits w0 20 4), off := wbits w0 0 20, len := ringLen (rinitSlots w1) }

theorem rinit_watch : (t.rinit w0 w1 w2).watch
    = (t.watch.filter fun w => !w.reinit (wbits w0 20 4) (wbits w0 0 20)) ++ [rinitWatch w0 w1] := rfl

theorem mem_rinit_watch (w : Watch) : w ∈ (t.rinit w0 w1 w2).watch ↔
    (w ∈ t.watch ∧ ¬∃ r, w.kind = .ring r ∧ (r = wbits w0 20 4 ∨ w.off = wbits w0 0 20)) ∨ w = rinitWatch w0 w1 := by
  rw [rinit_watch, List.mem_append, List.mem_filter, List.mem_singleton, Bool.not_eq_true', ← Bool.not_eq_true, Watch.reinit_iff]

/-- What has a property and is found first is found first of what has another property too, if it has that. -/
theorem find?_and_of_first {α : Type} {p q : α → Bool} {l : List α} (h : ∀ w, l.find? p = some w → q w = true) :
    (l.filter q).find? p = l.find? p := by
  rw [List.find?_filter]
  cases hf : l.find? p with
  | none =>
    rw [List.find?_eq_none] at hf ⊢
    exact fun w hw hc => hf w hw (by simp_all)
  | some w =>
    have hq := h w hf
    rw [List.find?_eq_some_iff_append] at hf ⊢
    obtain ⟨hp, as, bs, hl, hn⟩ := hf
    exact ⟨by simp [hp, hq], as, bs, hl, fun a ha => by simp [hn a ha]⟩

theorem rinit_ring_self : (t.rinit w0 w1 w2).ring? (wbits w0 20 4) = some (wbits w0 0 20) := by
  have hn : (t.watch.filter fun w => !w.reinit (wbits w0 20 4) (wbits w0 0 20)).find? (fun w => decide (w.kind = .ring (wbits w0 20 4))) = none := by
    refine List.find?_eq_none.mpr fun w hw hk => ?_
    have hr := (List.mem_filter.mp hw).2
    rw [Watch.reinit_iff.mpr ⟨_, of_decide_eq_true hk, .inl rfl⟩] at hr
    exact Bool.noConfusion hr
  rw [Team.ring?, rinit_watch, List.find?_append, hn, Option.none_or, List.find?_singleton]
  simp [rinitWatch]

theorem rinit_ring_other {r : Nat} (hr : r ≠ wbits w0 20 4) : (t.rinit w0 w1 w2).ring? r
    = ((t.watch.filter fun w => !w.reinit (wbits w0 20 4) (wbits w0 0 20)).find? fun w => decide (w.kind = .ring r)).map (·.off) := by
  have hn : ¬decide ((rinitWatch w0 w1).kind = .ring r) = true := fun h => hr (WatchKind.ring.inj (of_decide_eq_true h)).symm
  rw [Team.ring?, rinit_watch, List.find?_append, List.find?_singleton, if_neg hn, Option.or_none]

/-- Of the other rings, RINIT takes the one at its offset, and no more. -/
theorem rinit_ring_ne {r : Nat} (hr : r ≠ wbits w0 20 4) : (t.rinit w0 w1 w2).ring? r ≠ some (wbits w0 0 20)
    ∧ (t.ring? r ≠ some (wbits w0 0 20) → (t.rinit w0 w1 w2).ring? r = t.ring? r) := by
  rw [rinit_ring_other t w0 w1 w2 hr]
  refine ⟨fun h => ?_, fun h => congrArg _ (find?_and_of_first fun w hw => ?_)⟩
  · obtain ⟨w, hw, ho⟩ := Option.map_eq_some_iff.mp h
    have hq := (List.mem_filter.mp (List.mem_of_find?_eq_some hw)).2
    have hk := List.find?_some hw
    rw [Watch.reinit_iff.mpr ⟨r, of_decide_eq_true hk, .inr ho⟩] at hq
    exact Bool.noConfusion hq
  · rw [Bool.not_eq_true', ← Bool.not_eq_true, Watch.reinit_iff]
    rintro ⟨m, hm, he⟩
    have hk := List.find?_some hw
    obtain rfl := WatchKind.ring.inj ((of_decide_eq_true hk).symm.trans hm)
    exact h (by rw [Team.ring?, hw, Option.map_some, he.resolve_left hr])

end

section
variable {s : State} {a d : BitVec 6}

theorem rinit_exec : exec (.rinit a d) s = if s.curTeam.rinitStatus (s.sread a) (s.sread (a + 1)) ≠ 0 then
      .next (s.sput d (BitVec.ofNat 64 (s.curTeam.rinitStatus (s.sread a) (s.sread (a + 1)))))
    else .next (((s.modTeam s.cur.team fun x => x.rinit (s.sread a) (s.sread (a + 1)) (s.sread (a + 2))).teamEvent s.cur.team).sput d 0) := by
  show execRinit a d s = _
  rw [execRinit, State.sreadAt_zero]
  rfl

theorem rinit_refused {e : Nat} (h : s.curTeam.rinitStatus (s.sread a) (s.sread (a + 1)) = e) (he : e ≠ 0) :
    ScalarGives (.rinit a d) s d (BitVec.ofNat 64 e) := by
  refine .of_sput (rinit_exec.trans (if_pos ?_)) (by rw [h])
  rwa [h]

theorem ringInit : RingInit := by
  unfold RingInit
  intro s a d w0 w1 w2 t off ring len good taken busy
  have h0 : wbits (s.sread a) 0 20 = off := by simp [wbits, off, w0]
  have hbusy : (t.watch.any fun w => w.reinit (wbits (s.sread a) 20 4) (wbits (s.sread a) 0 20) && t.ringBusy w.off) = true ↔ busy := by
    simp only [List.any_eq_true, Bool.and_eq_true, Watch.reinit_iff, ringBusy_iff, h0]
    rfl
  refine ⟨fun h => rinit_refused (rinitStatus_bad h) (by decide), fun hg hr => ?_, fun hg hr hb => ?_, fun hg hr hb hin hfree => ?_⟩
  all_goals obtain ⟨e, hst, he⟩ := rinitStatus_good (t := t) hg
  · exact rinit_refused (hst.trans (if_pos hr)) (by decide)
  · exact rinit_refused (hst.trans ((if_neg (Nat.not_le.mpr hr)).trans (if_pos (hbusy.mpr hb)))) (by decide)
  rw [h0] at he
  replace hst : t.rinitStatus (s.sread a) (s.sread (a + 1)) = 0 :=
    hst.trans ((if_neg (Nat.not_le.mpr hr)).trans ((if_neg (mt hbusy.mp hb)).trans (he hin hfree)))
  refine ⟨_, _, .of_sput (rinit_exec.trans (if_neg (not_not.mpr hst))), woken_teamEvent _ _, onlyTeam_modTeam _ _ _, ?_⟩
  rw [curTeam_modTeam]
  have hkept := rinit_scratchKept t (s.sread a) w1 w2
  have hzero : Spells (t.rinit (s.sread a) w1 w2).scratch (wbits (s.sread a) 0 20) 8 0 := rinit_header t (s.sread a) w1 w2 (i := 0) (by decide)
  have hw1 := rinit_header t (s.sread a) w1 w2 (i := 1) (by decide)
  have hw2 := rinit_header t (s.sread a) w1 w2 (i := 2) (by decide)
  have hslot {j : Nat} (hj : j < rinitSlots w1) := rinit_slot t (s.sread a) w1 w2 hj
  have hself := rinit_ring_self t (s.sread a) w1 w2
  have hother {r : Nat} (hr : r ≠ ring) := rinit_ring_ne t (s.sread a) w1 w2 hr
  have hwatch := mem_rinit_watch t (s.sread a) w1 w2
  rw [rinitWatch] at hwatch
  simp only [h0] at hkept hzero hw1 hw2 hslot hself hother hwatch
  refine ⟨?_, hself, fun r hr => ⟨fun _ => (hother hr).1, (hother hr).2⟩, ?_, ?_, ?_, ?_, ?_, ?_⟩
  · exact rinit_rest _ _ _ _
  · exact hwatch
  · exact hkept
  · exact hzero
  · exact hw1
  · exact hw2
  · exact fun j hj => hslot hj

end

/-- Settles O12: RAWAIT and RREL by what their checks answer and by what each write leaves of the ring, RINIT by its status and the team it makes. -/
theorem ringCommands : Obligations.RingCommands := ⟨ringWaitAndRelease, ringCommandChecks, ringInit⟩

end Sys2Proof.Machine
end

section
/-! PROOFS. The copy unit: what a unit moves, and how a copy completes (R107, R135, R137, R141, R142, R144, R151). -/

namespace Sys2Proof.Machine

/-- A byte after bytes were written from `a` up. -/
theorem get_wrBytes_getD (m : SMap Byte) (a : Nat) (b : List Byte) (x : Nat) :
    SMap.get 0 (wrBytes m a b) x = if a ≤ x ∧ x < a + b.length then b.getD (x - a) 0 else SMap.get 0 m x := by
  rw [get_wrBytes]
  split
  · rw [List.getD_eq_getElem _ _ (by omega)]
  · rfl

/-! ## Events that nobody waits for (R347) -/

/-- Where no group waits for an event, telling the groups of one changes nothing. -/
theorem teamEvent_quiet {s u : State} (h : NoEventWait s) (hg : u.groups = s.groups) (ht : u.timeNs = s.timeNs) (t : Nat) : u.teamEvent t = u := by
  have hm : (u.groups.map fun p => if p.2.team = t then (p.1, wakeGroup u.timeNs (p.2.takes (u.team t))) else p) = u.groups := by
    refine (List.map_congr_left fun p hp => ?_).trans (List.map_id' _)
    obtain ⟨hw, hk⟩ := h p (hg ▸ hp)
    rw [ht, hk, hw]
    split <;> rfl
  exact congrArg (fun g => ({ u with groups := g } : State)) hm

/-! ## An engine reads as many bytes as it asked for -/

section
variable {s t : State} {x : Acc} {w : Waiter} {va : W64} {n a pol : Nat} {b : List Byte}

theorem engAsk_ne_ok (write : Bool) : s.engAsk w x va write ≠ (.ok b, t) := by
  unfold State.engAsk
  split <;> nofun

theorem engFetch_length {reqs : SMap Req} {ask : State → State} (h : s.engFetch w x va n a reqs ask = (.ok b, t)) : b.length = n := by
  unfold State.engFetch at h
  split at h
  · cases h
  · split at h
    · cases h
    · split at h
      · cases h
        exact length_leBytes _ _
      · cases h

theorem engPart_length (h : s.engPart x w va n pol = (.ok b, t)) : b.length = n := by
  unfold State.engPart at h
  split at h
  · cases h
  · exact absurd h (engAsk_ne_ok _)
  · next l a u e =>
    extract_lets k bytes at h
    have hb (v : State) : (bytes v).length = n := length_leBytes _ _
    split at h
    · cases h
    · split at h
      · split at h
        · cases h
        · split at h
          · cases h
            exact hb _
          · exact engFetch_length h
      · split at h
        · split at h
          · cases h
            exact hb _
          · split at h
            · cases h
            · exact engFetch_length h
        · split at h
          · cases h
            exact hb _
          · cases h
          · cases h

theorem engLine_length (h : s.engLine x w va n pol = (.ok b, t)) : b.length = n := by
  unfold State.engLine at h
  split at h
  · cases h
  · next r u _ e =>
    cases h
    exact engPart_length e

end

/-! ## Addresses of a unit (R137) -/

section
variable (b : List W64) (base : W64) (pitched : Bool) (u : Nat)

/-- How far unit u of a slice lies from the side's base: on the side PITCH names, its row's start and its place in the row. -/
def unitDelta : Int := if pitched then (u / blkRowUnits b : Nat) * blkPitch b + (u % blkRowUnits b * 16 : Nat) else (u * 16 : Nat)

/-- The offset in its megabyte of a unit in scratchpad. -/
def unitOffset : Int := (base.toNat % 2 ^ 20 : Nat) + unitDelta b pitched u

theorem unitAddr_global : unitAddr b base pitched false u = base + BitVec.ofInt 64 (unitDelta b pitched u) := rfl

theorem unitAddr_scratch : unitAddr b base pitched true u = if unitOffset b base pitched u < 0 ∨ 2 ^ 20 ≤ unitOffset b base pitched u then 2 ^ 63
    else BitVec.ofNat 64 (base.toNat / 2 ^ 20 * 2 ^ 20 + (unitOffset b base pitched u).toNat) := by
  simp only [unitAddr, if_true]
  rw [← unitDelta, ← unitOffset]

theorem blkPitch_eq : blkPitch b = ((b.getD 2 0).extractLsb' 40 24).toInt * 16 := by
  rw [blkPitch, sext, BitVec.toInt_eq_toNat_cond, BitVec.extractLsb'_toNat, BitVec.toNat_ushiftRight]
  rfl

variable {b base pitched u}

theorem unitAddr_inside (h0 : 0 ≤ unitOffset b base pitched u) (h1 : unitOffset b base pitched u < 2 ^ 20) :
    (unitAddr b base pitched true u).toNat = base.toNat / 2 ^ 20 * 2 ^ 20 + (unitOffset b base pitched u).toNat := by
  have hb := base.isLt
  rw [unitAddr_scratch, if_neg (by omega), BitVec.toNat_ofNat, Nat.mod_eq_of_lt (by omega)]

end

/-- No scratch address lies that high (R118). -/
theorem scratchAt_high (s : State) (t : Nat) {a : Nat} (h : 2 ^ 29 ≤ a) : s.scratchAt t a = none :=
  if_pos (Nat.ne_of_gt (Nat.div_pos h (by decide)))

theorem unitAddr_outside {s : State} {t : Nat} {b : List W64} {base : W64} {pitched : Bool} {u : Nat}
    (h : (unitOffset b base pitched u < 0 ∨ 2 ^ 20 ≤ unitOffset b base pitched u)
      ∨ s.scratchAt t (base.toNat / 2 ^ 20 * 2 ^ 20 + (unitOffset b base pitched u).toNat) = none) :
    s.scratchAt t (unitAddr b base pitched true u).toNat = none := by
  by_cases ho : unitOffset b base pitched u < 0 ∨ 2 ^ 20 ≤ unitOffset b base pitched u
  · rw [unitAddr_scratch, if_pos ho]
    exact scratchAt_high s t (by simp)
  · rw [unitAddr_inside (by omega) (by omega)]
    exact h.resolve_left ho

/-- Where a scratch address lies is told by the teams alone. -/
theorem scratchAt_congr {s v : State} (h : v.teams = s.teams) (t a : Nat) : v.scratchAt t a = s.scratchAt t a := by
  unfold State.scratchAt State.gangTeam State.team
  rw [h]

/-! ## A slice of a copy -/

section
variable {t : Team} {n g i j : Nat} {c : Copy} {x : Slice}

theorem sliceAt_congr {u : Team} (h : u.copies = t.copies) (n g : Nat) : u.sliceAt n g = t.sliceAt n g := by
  unfold Team.sliceAt
  rw [h]

theorem sliceAt_num (h : t.sliceAt n g = some (i, j, c, x)) : c.num = n := by
  have hm := List.mem_of_mem_head? h
  obtain ⟨⟨d, k⟩, -, hd⟩ := List.mem_flatMap.mp hm
  dsimp only at hd
  split at hd
  · next hn =>
    obtain ⟨⟨y, l⟩, -, hy⟩ := List.mem_filterMap.mp hd
    dsimp only at hy
    split at hy
    · cases hy
      exact hn
    · cases hy
  · cases hd

theorem modSlice_congr (hc : t.copies[i]? = some c) (hx : c.slices[j]? = some x) {f f' : Slice → Slice} (h : f x = f' x) :
    t.modSlice i j f = t.modSlice i j f' := by
  unfold Team.modSlice
  congr 1
  refine List.ext_getElem? fun a => ?_
  rw [List.getElem?_mapIdx, List.getElem?_mapIdx]
  by_cases ha : a = i
  · subst ha
    rw [hc, Option.map_some, Option.map_some, if_pos rfl, if_pos rfl]
    congr 2
    refine List.ext_getElem? fun b => ?_
    rw [List.getElem?_mapIdx, List.getElem?_mapIdx]
    by_cases hb : b = j
    · subst hb
      rw [hx, Option.map_some, Option.map_some, if_pos rfl, if_pos rfl, h]
    · simp only [if_neg hb]
  · simp only [if_neg ha]

theorem modSliceOf_of {s : State} {k : Nat} (h : (s.team k).sliceAt n g = some (i, j, c, x)) (f : Slice → Slice) :
    s.modSliceOf k n g f = s.modTeam k fun y => y.modSlice i j f := by
  rw [State.modSliceOf, h]

end

/-! ## Writing a unit (R107, R141, R142) -/

theorem enginePolicy_zero (s : State) (a : Acc) (va : W64) (was : Bool) : s.enginePolicy a va 0 was = s := if_pos (Bool.or_true was)

/-- A unit of a slice has been written and none of its bytes dropped: the slice goes on, or ends after its last. -/
def Slice.moved (y : Slice) : Slice :=
  { y with unit := y.unit + 1, pend := none, ended := decide (blkRows y.blk * blkRowUnits y.blk ≤ y.unit + 1) }

/-- A slice has ended with a code (R142). -/
def Slice.failed (code : Nat) (y : Slice) : Slice := { y with ended := true, code := code, pend := none }

section
variable {v : State} {team copy grp i j : Nat} {c : Copy} {x : Slice} {a : Acc} {b : List W64} {u : Nat} {bytes : List Byte}
variable (hs : (v.team team).sliceAt copy grp = some (i, j, c, x)) (hc : (v.team team).copies[i]? = some c) (hx : c.slices[j]? = some x)
include hs hc hx

theorem unitDone_of : v.unitDone team copy grp false = v.modTeam team fun t => t.modSlice i j Slice.moved := by
  refine (modSliceOf_of hs _).trans (congrArg (v.setTeam team) (modSlice_congr hc hx ?_))
  rw [Bool.or_false]
  rfl

/-- A unit that memory has taken at once. -/
theorem unitWrite_stored {e : Nat} {y : State} (hb : blkBit b 19 = false) (hp : wbits (b.getD 3 0) 16 2 = 0)
    (hy : v.homeStore a (.copy team copy grp) (unitDst b u) bytes = (.val e, y)) (ht : y.teams = v.teams) :
    v.unitWrite a team copy grp b u bytes = y.modTeam team fun t => t.modSlice i j Slice.moved := by
  have hyt : y.team team = v.team team := congrArg (SMap.get ({} : Team) · team) ht
  rw [← hyt] at hs hc
  unfold State.unitWrite
  rw [hb, if_neg Bool.false_ne_true, hy]
  dsimp only
  rw [hp, enginePolicy_zero]
  exact unitDone_of hs hc hx

omit hc hx in
theorem endSlice_of {code : Nat} (hd : ∀ y ∈ (v.team team).copies, y.due = []) :
    v.endSlice team copy grp code = v.modTeam team fun t => t.modSlice i j (Slice.failed code) := by
  rw [State.endSlice, modSliceOf_of hs]
  refine settleFe_none ?_
  rw [team_modTeam_self]
  exact modSlice_due hd _ _ _

end

/-- The team after bytes of a unit have landed where nothing is watched. -/
def Team.landed (t : Team) (off : Nat) (bytes : List Byte) : Team := { t with scratch := wrBytes t.scratch off bytes }

/-- The machine after unit bytes have landed at a place of team tt and the slice has gone on. -/
def State.unitLanded (v : State) (team i j tt off : Nat) (bytes : List Byte) : State :=
  (v.setTeam tt ((v.team tt).landed off bytes)).modTeam team fun t => t.modSlice i j Slice.moved

section
variable {v : State} {team copy grp i j : Nat} {c : Copy} {x : Slice} {a : Acc} {b : List W64} {u tt off : Nat} {bytes : List Byte}

theorem unitLanded_team (n : Nat) : (v.unitLanded team i j tt off bytes).team n
    = { v.team n with scratch := if n = tt then wrBytes (v.team tt).scratch off bytes else (v.team n).scratch,
                      copies := if n = team then ((v.team team).modSlice i j Slice.moved).copies else (v.team n).copies } := by
  rw [State.unitLanded, State.modTeam, State.team_setTeam, State.team_setTeam, State.team_setTeam]
  by_cases h1 : n = team
  · subst h1
    by_cases h2 : n = tt
    · subst h2
      simp [Team.landed, Team.modSlice]
    · simp [h2, Team.modSlice]
  · by_cases h2 : n = tt
    · subst h2
      simp [h1, Team.landed]
    · simp [h1, h2]

theorem unitLanded_others {n : Nat} (h1 : n ≠ tt) (h2 : n ≠ team) : (v.unitLanded team i j tt off bytes).teams.find n = v.teams.find n :=
  (SMap.find_insert_ne _ _ h2).trans (SMap.find_insert_ne _ _ h1)

variable (hs : (v.team team).sliceAt copy grp = some (i, j, c, x)) (hc : (v.team team).copies[i]? = some c) (hx : c.slices[j]? = some x)
include hs hc hx

/-- A unit that lands in scratchpad: where the copy has FE, its granule is due too. -/
theorem unitWrite_landed (hb : blkBit b 19 = true) (hat : v.scratchAt team (unitDst b u).toNat = some (tt, off)) (hl : bytes.length = 16)
    (hw : (v.team tt).touches off 16 = false) : v.unitWrite a team copy grp b u bytes
      = if blkBit b 13 = true then (v.unitLanded team i j tt off bytes).granuleDue team copy tt (off / 16)
        else (v.unitLanded team i j tt off bytes).settleFe team := by
  have hput : (v.team tt).putBytes off bytes = ((v.team tt).landed off bytes, false) := if_neg (by rw [hl, hw]; decide)
  have hcopies : ((v.setTeam tt ((v.team tt).landed off bytes)).team team).copies = (v.team team).copies := by
    rw [State.team_setTeam]
    split
    · next h => rw [h]; rfl
    · rfl
  have hd := unitDone_of (v := v.setTeam tt ((v.team tt).landed off bytes)) ((sliceAt_congr hcopies _ _).trans hs) ((congrArg (·[i]?) hcopies).trans hc) hx
  unfold State.unitWrite
  rw [hb, if_pos rfl, hat]
  dsimp only
  rw [hput, hd]
  rfl

end

/-! ## The granule of a copy's last unit is full (R107) -/

theorem fillGranules_one {t : Team} {q : Nat} (h : t.touches (16 * q) 16 = false) : t.fillGranules (16 * q) 16 = t.setFull q true := by
  have hg : granules (16 * q) 16 = [q] := by
    rw [granules, if_neg (by decide), show (16 * q + 16 - 1) / 16 - 16 * q / 16 + 1 = 1 by omega]
    simp
  rw [Team.fillGranules, hg, List.foldl_cons, List.foldl_nil, h, if_neg Bool.false_ne_true]

theorem writesAgain_ended {s : State} {x : Slice} (h : x.ended = true) (t tt q : Nat) : s.writesAgain t x tt q = false := by
  simp [State.writesAgain, h]

/-- A list that a function leaves alone. -/
theorem map_eq_self {α : Type} {f : α → α} {l : List α} (h : ∀ a ∈ l, f a = a) : l.map f = l := (List.map_congr_left h).trans (List.map_id' l)

section
variable {y : State} {team tt q : Nat} {c : Copy} {as bs : List Copy}

/-- A copy whose slices have all ended, and which alone has its number, settles the granule it has just written: the granule is set full, and
nothing is due any more. -/
theorem granuleDue_last (hl : (y.team team).copies = as ++ c :: bs) (hd : ∀ d ∈ (y.team team).copies, d.due = [])
    (hn : ∀ d ∈ as ++ bs, d.num ≠ c.num) (he : ∀ x ∈ c.slices, x.ended = true) (ht : (y.team tt).touches (16 * q) 16 = false) :
    ∃ z : State, y.granuleDue team c.num tt q = z.setTeamFe tt ((z.team tt).setFull q true) ∧ (∀ n, z.team n = y.team n)
      ∧ z = { y with teams := z.teams } ∧ ∀ n, n ≠ team → z.teams.find n = y.teams.find n := by
  rw [hl] at hd
  have hdc : c.due = [] := hd c (by simp)
  have hda : ∀ d ∈ as, d.due = [] := fun d h => hd d (by simp [h])
  have hdb : ∀ d ∈ bs, d.due = [] := fun d h => hd d (by simp [h])
  unfold State.granuleDue
  extract_lets add
  have hadd : (y.team team).copies.map add = as ++ { c with due := [(tt, q)] } :: bs := by
    have hc : add c = { c with due := [(tt, q)] } := by simp [add, hdc]
    rw [hl, List.map_append, List.map_cons, hc, map_eq_self fun d h => if_neg fun e => hn d (by simp [h]) e.1,
      map_eq_self fun d h => if_neg fun e => hn d (by simp [h]) e.1]
  have hcopies : ((y.modTeam team fun x => { x with copies := x.copies.map add }).team team).copies = as ++ { c with due := [(tt, q)] } :: bs := by
    rw [team_modTeam_self]
    exact hadd
  unfold State.settleFe
  extract_lets later now z
  have hlater : later { c with due := [(tt, q)] } (tt, q) = false := List.any_eq_false.mpr fun x hx => by
    rw [writesAgain_ended (he x hx)]
    exact Bool.false_ne_true
  have hnow : now = [(tt, q)] := by
    have hnone {l : List Copy} (h : ∀ d ∈ l, d.due = []) : (l.flatMap fun d => d.due.filter fun g => !later d g) = [] :=
      List.flatMap_eq_nil_iff.mpr fun d hd => by rw [h d hd]; rfl
    show ((y.modTeam team fun x => { x with copies := x.copies.map add }).team team).copies.flatMap _ = _
    rw [hcopies, List.flatMap_append, List.flatMap_cons, hnone hda, hnone hdb]
    simp [hlater]
  have hclear : (as ++ { c with due := [(tt, q)] } :: bs).map (fun d => { d with due := d.due.filter (later d) }) = as ++ c :: bs := by
    have hkeep {l : List Copy} (h : ∀ d ∈ l, d.due = []) : l.map (fun d => { d with due := d.due.filter (later d) }) = l :=
      map_eq_self fun d hd => by rw [h d hd, List.filter_nil, ← h d hd]
    have hcc : ({ c with due := [(tt, q)].filter (later { c with due := [(tt, q)] }) } : Copy) = c := by
      rw [List.filter_cons_of_neg (by rw [hlater]; decide), List.filter_nil, ← hdc]
    rw [List.map_append, List.map_cons, hkeep hda, hkeep hdb]
    exact congrArg (as ++ · :: bs) hcc
  have hteam (n : Nat) : z.team n = y.team n := by
    show State.team (State.modTeam _ team _) n = _
    by_cases h : n = team
    · rw [h, team_modTeam_self, team_modTeam_self]
      show ({ y.team team with copies := ((y.team team).copies.map add).map _ } : Team) = y.team team
      rw [hadd, hclear, ← hl]
    · rw [State.modTeam, State.team_setTeam, if_neg h, State.modTeam, State.team_setTeam, if_neg h]
  refine ⟨z, ?_, hteam, rfl, fun n h => (SMap.find_insert_ne _ _ h).trans (SMap.find_insert_ne _ _ h)⟩
  rw [hnow, if_neg (List.cons_ne_nil _ _), List.foldl_cons, List.foldl_nil, fillGranules_one]
  rw [hteam]
  exact ht

end

/-- Where no group waits for an event, a full/empty bit that changes is a change of its team alone. -/
theorem setTeamFe_quiet {s u : State} (h : NoEventWait s) (hg : u.groups = s.groups) (ht : u.timeNs = s.timeNs) (k : Nat) (t : Team) :
    u.setTeamFe k t = u.setTeam k t := by
  unfold State.setTeamFe
  split
  · rfl
  · exact teamEvent_quiet (u := u.setTeam k t) h hg ht k

/-! ## COPY_UNIT_MOVE (R141) -/

/-- The unit's access: the copy engine of a team, for a group. -/
def State.copyAcc (s : State) (team copy grp : Nat) : Acc :=
  { s.accOf grp with core := (s.team team).core, ctx := (s.team team).ctx, copy := some (team, copy) }

/-- A unit's place in scratchpad, on a side of a slice (R106, R137). -/
def State.unitAt (s : State) (team : Nat) (b : List W64) (base : W64) (pitched : Bool) (u t off : Nat) : Prop :=
  0 ≤ unitOffset b base pitched u ∧ unitOffset b base pitched u < 2 ^ 20
    ∧ s.scratchAt team (base.toNat / 2 ^ 20 * 2 ^ 20 + (unitOffset b base pitched u).toNat) = some (t, off)

/-- The read of a unit gives some bytes, from scratchpad or global memory, and leaves the machine `v`. -/
def State.unitReads (s : State) (team copy grp : Nat) (b : List W64) (u : Nat) (v : State) (bytes : List Byte) : Prop :=
  (blkBit b 18 = true → ∃ t off, s.unitAt team b (b.getD 0 0) (!blkBit b 20) u t off ∧ v = s ∧ bytes = rdBytes (s.team t).scratch off 16)
    ∧ (blkBit b 18 = false → wbits (b.getD 3 0) 16 2 = 0 ∧ s.engLine (s.copyAcc team copy grp) (.copy team copy grp) (unitSrc b u) 16 0 = (.ok bytes, v))

section
variable {s : State} {team copy grp : Nat} {b : List W64} {u : Nat}

theorem unitAt_addr {base : W64} {p : Bool} {t off : Nat} (h : s.unitAt team b base p u t off) :
    s.scratchAt team (unitAddr b base p true u).toNat = some (t, off) := by
  obtain ⟨h0, h1, ht⟩ := h
  rw [unitAddr_inside h0 h1]
  exact ht

theorem unitReads_length {v : State} {bytes : List Byte} (h : s.unitReads team copy grp b u v bytes) : bytes.length = 16 := by
  cases hb : blkBit b 18 with
  | true =>
    obtain ⟨t, off, -, -, rfl⟩ := h.1 hb
    exact length_rdBytes _ _ _
  | false => exact engLine_length (h.2 hb).2

theorem unitMove_reads {v : State} {bytes : List Byte} (h : s.unitReads team copy grp b u v bytes) :
    s.unitMove team copy grp (s.copyAcc team copy grp) b u = v.unitWrite (s.copyAcc team copy grp) team copy grp b u bytes := by
  unfold State.unitMove
  cases hb : blkBit b 18 with
  | true =>
    obtain ⟨t, off, hat, rfl, rfl⟩ := h.1 hb
    rw [if_pos rfl, unitSrc, hb, unitAt_addr hat]
  | false =>
    obtain ⟨hp, hr⟩ := h.2 hb
    rw [if_neg Bool.false_ne_true, hp, hr]
    dsimp only
    rw [enginePolicy_zero]

/-- A unit of a source outside the scratchpad. -/
theorem unitMove_outside (hb : blkBit b 18 = true) (h : s.scratchAt team (unitSrc b u).toNat = none) (a : Acc) :
    s.unitMove team copy grp a b u = s.endSlice team copy grp 0x01 := by
  unfold State.unitMove
  rw [hb, if_pos rfl, h]

theorem unitMove_fault {cause : Nat} {v : State} {a : Acc} (hb : blkBit b 18 = false)
    (h : s.engLine a (.copy team copy grp) (unitSrc b u) 16 (wbits (b.getD 3 0) 16 2) = (.fault cause, v)) :
    s.unitMove team copy grp a b u = v.sliceFault team copy grp cause (unitSrc b u) := by
  unfold State.unitMove
  rw [hb, if_neg Bool.false_ne_true, h]

end

theorem pagerMends_iff {c : Nat} : pagerMends c = true ↔ c = 0x06 ∨ c = 0x08 ∨ c = 0x09 ∨ c = 0x16 := decide_eq_true_iff

/-- A failure that parks nothing ends the slice. -/
theorem sliceFault_ends {s : State} {team copy grp i j h : Nat} {c : Copy} {x : Slice} {cause : Nat}
    (hs : (s.team team).sliceAt copy grp = some (i, j, c, x)) (hr : (s.team team).ring? c.ring = some h)
    (hp : (s.team team).parks h = false ∨ ¬(cause = 0x06 ∨ cause = 0x08 ∨ cause = 0x09 ∨ cause = 0x16)) (va : W64) :
    s.sliceFault team copy grp cause va = s.endSlice team copy grp (copyCode cause) := by
  unfold State.sliceFault
  rw [hs]
  dsimp only
  rw [hr]
  refine if_neg fun hm => ?_
  obtain ⟨h1, h2⟩ := Bool.and_eq_true_iff.mp hm
  rcases hp with hp | hp
  · exact Bool.noConfusion (hp.symm.trans h1)
  · exact hp (pagerMends_iff.mp h2)

section
variable {s : State} {team copy grp i j : Nat} {c : Copy} {x : Slice}

theorem copyUnitMove_moves (hm : Moving s team copy grp i j c x) (hs : c.stream = false) :
    exec (.copyUnitMove team copy grp) s = .next (s.unitMove team copy grp (s.copyAcc team copy grp) x.blk x.unit) := by
  obtain ⟨hat, ho, hc, he, hp, hd, ht⟩ := hm
  show execCopyUnitMove team copy grp s = _
  unfold execCopyUnitMove
  rw [hat]
  dsimp only
  rw [if_neg (by simp [ho, hc, he, hp, hd, ht]), hs]
  rfl

theorem copyUnitMove_stopped (h : (s.team team).stopped = true) : exec (.copyUnitMove team copy grp) s = .next s := by
  show execCopyUnitMove team copy grp s = _
  unfold execCopyUnitMove
  split
  · rfl
  · exact if_pos (by rw [h, Bool.or_true])

end

/-- The unit is the last that its copy writes: of its slice, of the slices and of the copies of that number. -/
def Team.lastUnit (t : Team) (i j : Nat) (c : Copy) (x : Slice) : Prop :=
  x.unit + 1 = blkRows x.blk * blkRowUnits x.blk ∧ (∀ (b : Nat) (y : Slice), c.slices[b]? = some y → b ≠ j → y.ended = true)
    ∧ ∀ (a : Nat) (y : Copy), t.copies[a]? = some y → a ≠ i → y.num ≠ c.num

section
variable {t : Team} {i j : Nat} {c : Copy} {x : Slice} (hc : t.copies[i]? = some c) (hx : c.slices[j]? = some x)
include hc

theorem modSlice_at (f : Slice → Slice) : (t.modSlice i j f).copies[i]? = some { c with slices := c.slices.mapIdx fun b y => if b = j then f y else y } := by
  rw [Team.modSlice, List.getElem?_mapIdx, hc, Option.map_some, if_pos rfl]

/-- Around the copy of a slice that has changed, the others are as they were. -/
theorem modSlice_split (f : Slice → Slice) : ∃ as bs, (t.modSlice i j f).copies
      = as ++ { c with slices := c.slices.mapIdx fun b y => if b = j then f y else y } :: bs
    ∧ ∀ d ∈ as ++ bs, ∃ a, a ≠ i ∧ t.copies[a]? = some d := by
  obtain ⟨hi, he⟩ := List.getElem?_eq_some_iff.mp (modSlice_at hc f)
  refine ⟨(t.modSlice i j f).copies.take i, (t.modSlice i j f).copies.drop (i + 1), ?_, fun d hd => ?_⟩
  · rw [← he, ← List.drop_eq_getElem_cons, List.take_append_drop]
  · rw [← List.eraseIdx_eq_take_drop_succ, List.mem_eraseIdx_iff_getElem?] at hd
    obtain ⟨a, ha, hd⟩ := hd
    rw [Team.modSlice, List.getElem?_mapIdx] at hd
    simp only [if_neg ha, Option.map_id'] at hd
    exact ⟨a, ha, hd⟩

omit hc in
include hx in
theorem lastUnit_ended (hl : t.lastUnit i j c x) : ∀ y ∈ c.slices.mapIdx fun b y => if b = j then Slice.moved y else y, y.ended = true := by
  intro y hy
  obtain ⟨b, hb, rfl⟩ := List.mem_mapIdx.mp hy
  have hg := List.getElem?_eq_getElem hb
  by_cases h : b = j
  · subst h
    rw [if_pos rfl, Option.some.inj (hg.symm.trans hx)]
    exact decide_eq_true hl.1.ge
  · rw [if_neg h]
    exact hl.2.1 b _ hg h

end

section
variable {s v : State} {team copy grp i j t off : Nat} {c : Copy} {x : Slice} {bytes : List Byte}

/-- A unit moves to scratchpad: the bytes land, the slice goes on, and under FE the last unit of the copy sets its granule full. -/
theorem copyUnitMove_lands (hm : Moving s team copy grp i j c x) (hs : c.stream = false) (hq : NoEventWait s)
    (hc : (s.team team).copies[i]? = some c) (hx : c.slices[j]? = some x) (hd : ∀ y ∈ (s.team team).copies, y.due = [])
    (hr : s.unitReads team copy grp x.blk x.unit v bytes) (hvt : v.teams = s.teams) (hvg : v.groups = s.groups) (hvn : v.timeNs = s.timeNs)
    (hb : blkBit x.blk 19 = true) (hat : s.unitAt team x.blk (x.blk.getD 1 0) (blkBit x.blk 20) x.unit t off) (hw : (s.team t).touches off 16 = false)
    (hf : blkBit x.blk 13 = false ∨ off % 16 = 0 ∧ (s.team team).lastUnit i j c x) :
    ∃ z : State, exec (.copyUnitMove team copy grp) s = .next z ∧ z = { v with teams := z.teams }
      ∧ (∀ n, n ≠ t → n ≠ team → z.teams.find n = s.teams.find n)
      ∧ ∀ n, z.team n = { s.team n with
          scratch := if n = t then wrBytes (s.team t).scratch off bytes else (s.team n).scratch,
          full := if n = t ∧ blkBit x.blk 13 = true then ((s.team n).setFull (off / 16) true).full else (s.team n).full,
          copies := if n = team then ((s.team team).modSlice i j Slice.moved).copies else (s.team n).copies } := by
  have hslice := hm.1
  obtain rfl := sliceAt_num hslice
  have hteam (n : Nat) : v.team n = s.team n := congrArg (SMap.get ({} : Team) · n) hvt
  have hexec := (copyUnitMove_moves hm hs).trans (congrArg _ (unitMove_reads hr))
  have hdst : v.scratchAt team (unitDst x.blk x.unit).toNat = some (t, off) := by
    rw [scratchAt_congr hvt, unitDst, hb, unitAt_addr hat]
  have hland (n : Nat) := unitLanded_team (v := v) (team := team) (i := i) (j := j) (tt := t) (off := off) (bytes := bytes) n
  simp only [hteam] at hland
  have hdue : ∀ y ∈ ((v.unitLanded team i j t off bytes).team team).copies, y.due = [] := by
    rw [hland, if_pos rfl]
    exact modSlice_due hd _ _ _
  rw [unitWrite_landed ((hteam team).symm ▸ hslice) ((hteam team).symm ▸ hc) hx hb hdst (unitReads_length hr) ((hteam t).symm ▸ hw)] at hexec
  have hothers {n : Nat} (h1 : n ≠ t) (h2 : n ≠ team) : (v.unitLanded team i j t off bytes).teams.find n = s.teams.find n :=
    (unitLanded_others h1 h2).trans (by rw [hvt])
  cases h13 : blkBit x.blk 13 with
  | false =>
    rw [h13, if_neg Bool.false_ne_true, settleFe_none hdue] at hexec
    refine ⟨_, hexec, rfl, fun n => hothers, fun n => (hland n).trans ?_⟩
    simp
  | true =>
    obtain ⟨h16, hlast⟩ := hf.resolve_left (by rw [h13]; decide)
    obtain ⟨as, bs, hsplit, hrest⟩ := modSlice_split hc (j := j) Slice.moved
    have hnum : ∀ d ∈ as ++ bs, d.num ≠ c.num := fun d hd => by
      obtain ⟨a, ha, hd⟩ := hrest d hd
      exact hlast.2.2 a d hd ha
    have htouch : ((v.unitLanded team i j t off bytes).team t).touches (16 * (off / 16)) 16 = false := by
      rw [hland, show 16 * (off / 16) = off by omega]
      exact hw
    have hcopies : ((v.unitLanded team i j t off bytes).team team).copies = _ := (congrArg Team.copies (hland team)).trans ((if_pos rfl).trans hsplit)
    obtain ⟨z, hz, hzt, hzr, hzo⟩ := granuleDue_last hcopies hdue hnum (lastUnit_ended hx hlast) htouch
    rw [h13, if_pos rfl] at hexec
    replace hexec := hexec.trans (congrArg _ hz)
    have hzg : z.groups = s.groups := by rw [hzr]; exact hvg
    have hzn : z.timeNs = s.timeNs := by rw [hzr]; exact hvn
    rw [setTeamFe_quiet hq hzg hzn] at hexec
    refine ⟨_, hexec, ?_, fun n h1 h2 => ?_, fun n => ?_⟩
    · rw [hzr]
      rfl
    · exact (SMap.find_insert_ne _ _ h1).trans ((hzo n h2).trans (hothers h1 h2))
    · rw [State.team_setTeam]
      by_cases hn : n = t
      · subst hn
        rw [if_pos rfl, hzt, hland]
        simp [Team.setFull]
      · rw [if_neg hn, hzt, hland]
        simp [hn]

end

section
variable {s v : State} {team copy grp i j : Nat} {c : Copy} {x : Slice} {bytes : List Byte}

/-- A unit moves to global memory, which takes it at once. -/
theorem copyUnitMove_stores (hm : Moving s team copy grp i j c x) (hs : c.stream = false)
    (hc : (s.team team).copies[i]? = some c) (hx : c.slices[j]? = some x) (hr : s.unitReads team copy grp x.blk x.unit v bytes)
    (hvt : v.teams = s.teams) (hb : blkBit x.blk 19 = false) (hp : wbits (x.blk.getD 3 0) 16 2 = 0) {e : Nat} {y : State}
    (hy : v.homeStore (s.copyAcc team copy grp) (.copy team copy grp) (unitDst x.blk x.unit) bytes = (.val e, y)) (hyt : y.teams = s.teams) :
    exec (.copyUnitMove team copy grp) s = .next (y.modTeam team fun t => t.modSlice i j Slice.moved) := by
  have hteam : v.team team = s.team team := congrArg (SMap.get ({} : Team) · team) hvt
  rw [copyUnitMove_moves hm hs, unitMove_reads hr,
    unitWrite_stored (hteam.symm ▸ hm.1) (hteam.symm ▸ hc) hx hb hp hy (hyt.trans hvt.symm)]

/-- A unit outside the scratchpad ends its slice with code 1. -/
theorem copyUnitMove_outside (hm : Moving s team copy grp i j c x) (hs : c.stream = false) (hd : ∀ y ∈ (s.team team).copies, y.due = [])
    (hb : blkBit x.blk 18 = true) (h : s.scratchAt team (unitSrc x.blk x.unit).toNat = none) :
    exec (.copyUnitMove team copy grp) s = .next (s.modTeam team fun t => t.modSlice i j (Slice.failed 1)) := by
  rw [copyUnitMove_moves hm hs, unitMove_outside hb h, endSlice_of hm.1 hd]

/-- A global read that fails, and that the pager does not mend, ends the slice with the failure's code. -/
theorem copyUnitMove_fails (hm : Moving s team copy grp i j c x) (hs : c.stream = false) (hd : ∀ y ∈ (s.team team).copies, y.due = [])
    (hb : blkBit x.blk 18 = false) {cause h : Nat} (hr : s.engLine (s.copyAcc team copy grp) (.copy team copy grp) (unitSrc x.blk x.unit) 16
      (wbits (x.blk.getD 3 0) 16 2) = (.fault cause, v)) (hvt : v.teams = s.teams) (hh : (s.team team).ring? c.ring = some h)
    (hp : (s.team team).parks h = false ∨ ¬(cause = 0x06 ∨ cause = 0x08 ∨ cause = 0x09 ∨ cause = 0x16)) :
    exec (.copyUnitMove team copy grp) s = .next (v.modTeam team fun t => t.modSlice i j (Slice.failed (copyCode cause))) := by
  have hteam : v.team team = s.team team := congrArg (SMap.get ({} : Team) · team) hvt
  rw [copyUnitMove_moves hm hs, unitMove_fault hb hr]
  have hsl := hm.1
  rw [← hteam] at hsl hd hh hp
  rw [sliceFault_ends hsl hh hp, endSlice_of hsl hd]

end

theorem copyUnits : CopyUnits := by
  unfold CopyUnits
  intro s team copy grp i j c x hm hs hq hc hx hd w bit rows ru pitch u delta scr spot glob acc ev done reads last hne
  have hscr (b : W64) (on : Bool) : unitOffset x.blk b on u = scr b on := by
    rw [unitOffset, unitDelta, blkPitch_eq]
    rfl
  have hglob (b : W64) (on : Bool) : unitAddr x.blk b on false u = glob b on := by
    have h0 : delta 0 on = unitDelta x.blk on u := by
      rw [unitDelta, blkPitch_eq]
      exact zero_add _
    rw [unitAddr_global, ← h0]
  have hrows : blkRows x.blk = rows := by simp [blkRows, wbits, rows, w]
  have hspot {b : W64} {on : Bool} {t off : Nat} (h : spot b on t off) : s.unitAt team x.blk b on u t off := by
    unfold State.unitAt
    rw [hscr]
    exact h
  have hreads {v : State} {bytes : List Byte} (h : reads v bytes) : s.unitReads team copy grp x.blk u v bytes := by
    refine ⟨fun hb => ?_, fun hb => ?_⟩
    · obtain ⟨t, off, ht, hv⟩ := h.1 hb
      exact ⟨t, off, hspot ht, hv⟩
    · rw [unitSrc, hb, hglob]
      exact h.2 hb
  have hdone : (s.team team).modSlice i j Slice.moved = (s.team team).modSlice i j done := by
    refine modSlice_congr hc hx ?_
    rw [Slice.moved, hrows]
    rfl
  refine ⟨fun v bytes t off hr hvt hvg hvn h19 hat hw hf => ?_, fun v bytes e y hr hvt h19 hp hy hyt => ?_, fun h18 ho _ => ?_,
    fun cause v h h18 hr hvt _ hh hp => ?_, fun z hz => copyUnitMove_stopped hz⟩
  · have hlast : last → (s.team team).lastUnit i j c x := fun ⟨h1, h2, h3⟩ =>
      ⟨by rw [hrows]; exact h1, h2, fun a y hy ha => by rw [sliceAt_num hm.1]; exact h3 a y hy ha⟩
    obtain ⟨z, he, hz, ho, ht⟩ := copyUnitMove_lands hm hs hq hc hx hd (hreads hr) hvt hvg hvn h19 (hspot hat) hw (hf.imp_right (And.imp_right hlast))
    refine ⟨z, he, hz, ho, fun n => ?_, fun n hn => ?_, fun n hn => ?_, fun q => ?_, fun a => ?_, ?_⟩
    · rw [ht n]
    · rw [ht n]
      exact ⟨if_neg hn, if_neg fun h => hn h.1⟩
    · rw [ht n]
      exact if_neg hn
    · have hfull : (z.team t).isFull q = SMap.get false (if t = t ∧ bit 13 = true then ((s.team t).setFull (off / 16) true).full else (s.team t).full) q :=
        congrArg (fun y : Team => y.isFull q) (ht t)
      rw [hfull]
      by_cases h13 : bit 13 = true
      · rw [if_pos ⟨rfl, h13⟩, Team.setFull, SMap.get_put]
        simp only [h13, true_and]
        rfl
      · rw [if_neg fun h => h13 h.2, if_neg fun h => h13 h.1]
        rfl
    · have hl := unitReads_length (hreads hr)
      rw [ht t]
      show SMap.get 0 (if t = t then wrBytes (s.team t).scratch off bytes else _) a = _
      rw [if_pos rfl, get_wrBytes_getD, hl]
    · rw [ht team, ← hdone]
      exact if_pos rfl
  · rw [← hglob] at hy
    have h := copyUnitMove_stores hm hs hc hx (hreads hr) hvt h19 hp (by rw [unitDst, show blkBit x.blk 19 = false from h19]; exact hy) hyt
    have hteam : y.team team = s.team team := congrArg (SMap.get ({} : Team) · team) hyt
    rw [State.modTeam, hteam, hdone] at h
    rw [State.modTeam, hteam]
    exact h
  · refine copyUnitMove_outside hm hs hd h18 ?_
    rw [unitSrc, show blkBit x.blk 18 = true from h18]
    refine unitAddr_outside ?_
    rw [hscr]
    exact ho
  · refine copyUnitMove_fails hm hs hd h18 ?_ hvt hh hp
    rw [unitSrc, show blkBit x.blk 18 = false from h18, hglob]
    exact hr

/-! ## COPY_COMPLETE (R144) -/

/-- The failed slice of the lowest group index so far, and its code. -/
def State.worst (s : State) (b : Option (Nat × Nat)) (x : Slice) : Option (Nat × Nat) :=
  match b with
  | some (j, _) => if (s.group x.grp).idx < j then some ((s.group x.grp).idx, x.code) else b
  | none => some ((s.group x.grp).idx, x.code)

section
variable {s : State} {c : Copy}

theorem copyStatus_eq (s : State) (c : Copy) : s.copyStatus c = (((c.slices.filter fun x => x.ended && decide (x.code ≠ 0)).foldl s.worst none).map (·.2)).getD
    (if c.slices.any (·.rejected) then 5 else if c.slices.any (·.dropped) then 4 else 0) := by
  unfold State.copyStatus
  extract_lets bad
  have h : bad = (c.slices.filter fun x => x.ended && decide (x.code ≠ 0)).foldl s.worst none := rfl
  rw [← h]
  cases bad <;> rfl

/-- What has been found so far stands behind slice x, or is it. -/
def State.behind (s : State) (x : Slice) (b : Option (Nat × Nat)) : Prop :=
  ∀ p, b = some p → (s.group x.grp).idx < p.1 ∨ p = ((s.group x.grp).idx, x.code)

section
variable {x : Slice}

theorem behind_worst {b : Option (Nat × Nat)} {y : Slice} (hb : s.behind x b) (hy : (s.group x.grp).idx < (s.group y.grp).idx ∨ x = y) :
    s.behind x (s.worst b y) := by
  have hown : s.behind x (some ((s.group y.grp).idx, y.code)) := by
    rintro p ⟨⟩
    exact hy.imp id fun h => by rw [h]
  unfold State.worst
  split
  · split
    · exact hown
    · exact hb
  · exact hown

theorem worst_self {b : Option (Nat × Nat)} (hb : s.behind x b) : s.worst b x = some ((s.group x.grp).idx, x.code) := by
  unfold State.worst
  split
  · next j k =>
    split
    · rfl
    · next h => rw [(hb _ rfl).resolve_left h]
  · rfl

theorem foldl_worst_keeps {l : List Slice} (h : ∀ y ∈ l, (s.group x.grp).idx ≤ (s.group y.grp).idx) :
    l.foldl s.worst (some ((s.group x.grp).idx, x.code)) = some ((s.group x.grp).idx, x.code) := by
  induction l with
  | nil => rfl
  | cons y l ih =>
    have hy : s.worst (some ((s.group x.grp).idx, x.code)) y = some ((s.group x.grp).idx, x.code) := if_neg (Nat.not_lt.mpr (h y (by simp)))
    rw [List.foldl_cons, hy]
    exact ih fun z hz => h z (by simp [hz])

theorem foldl_behind {l : List Slice} (h : ∀ y ∈ l, (s.group x.grp).idx < (s.group y.grp).idx ∨ x = y) {b : Option (Nat × Nat)} (hb : s.behind x b) :
    s.behind x (l.foldl s.worst b) := by
  induction l generalizing b with
  | nil => exact hb
  | cons y l ih => exact ih (fun z hz => h z (by simp [hz])) (behind_worst hb (h y (by simp)))

/-- The slice of the lowest group index is the one whose code is found, where no other slice has that index. -/
theorem foldl_worst {l : List Slice} (hx : x ∈ l) (h : ∀ y ∈ l, (s.group x.grp).idx < (s.group y.grp).idx ∨ x = y) :
    l.foldl s.worst none = some ((s.group x.grp).idx, x.code) := by
  obtain ⟨as, bs, rfl⟩ := List.append_of_mem hx
  rw [List.foldl_append, List.foldl_cons, worst_self (foldl_behind (b := none) (fun y hy => h y (by simp [hy])) nofun)]
  exact foldl_worst_keeps fun y hy => (h y (by simp [hy])).elim Nat.le_of_lt fun e => by rw [e]

end

section
variable (he : ∀ x ∈ c.slices, x.ended = true)
include he

/-- The status is the code of the failed slice of the lowest group index (R144). -/
theorem copyStatus_failed {x : Slice} (hx : x ∈ c.slices) (h0 : x.code ≠ 0)
    (h : ∀ y ∈ c.slices, y.code ≠ 0 → (s.group x.grp).idx < (s.group y.grp).idx ∨ x = y) : s.copyStatus c = x.code := by
  rw [copyStatus_eq, foldl_worst (x := x)]
  · rfl
  · exact List.mem_filter.mpr ⟨hx, by simp [he x hx, h0]⟩
  · intro y hy
    obtain ⟨hm, hc⟩ := List.mem_filter.mp hy
    exact h y hm (by simpa [he y hm] using hc)

omit he in
theorem copyStatus_clean (h : ∀ x ∈ c.slices, x.code = 0) :
    s.copyStatus c = if c.slices.any (·.rejected) then 5 else if c.slices.any (·.dropped) then 4 else 0 := by
  have hf : (c.slices.filter fun x => x.ended && decide (x.code ≠ 0)) = [] := List.filter_eq_nil_iff.mpr fun x hx => by simp [h x hx]
  rw [copyStatus_eq, hf]
  rfl

end

/-- A status that is stored fits its byte, where the codes of the slices do. -/
theorem copyStatus_lt (h : ∀ x ∈ c.slices, x.code < 256) : s.copyStatus c < 256 := by
  have hinv : ∀ (l : List Slice) (b : Option (Nat × Nat)), (∀ x ∈ l, x.code < 256) → (∀ p, b = some p → p.2 < 256) →
      ∀ p, l.foldl s.worst b = some p → p.2 < 256 := by
    intro l
    induction l with
    | nil => exact fun b _ hb => hb
    | cons y l ih =>
      refine fun b hl hb => ih _ (fun x hx => hl x (by simp [hx])) fun p hp => ?_
      unfold State.worst at hp
      split at hp
      · split at hp
        · cases hp
          exact hl y (by simp)
        · exact hb p hp
      · cases hp
        exact hl y (by simp)
  rw [copyStatus_eq]
  cases hf : (c.slices.filter fun x => x.ended && decide (x.code ≠ 0)).foldl s.worst none with
  | none =>
    show (if _ then 5 else if _ then 4 else 0) < 256
    split_ifs <;> decide
  | some p => exact hinv _ none (fun x hx => h x (List.mem_filter.mp hx).1) nofun p hf

end

/-- A slot with its status and STATE 2 written (R144). -/
def Team.slotDone (t : Team) (h slot st : Nat) : Team := (t.wr (h + 32 + 4 * slot) 1 st).setSlotState h slot 2

/-- The team once a copy has completed with a status: its entry free, its slot in STATE 2, and WPTR past the slots in STATE 2 (R144). -/
def Team.completed (t : Team) (copy h slot st : Nat) : Team :=
  (({ t with copies := t.copies.filter fun x => decide (x.num ≠ copy) } : Team).slotDone h slot st).advanceWptr h 256

theorem rd_wr_of_apart (t : Team) {a n v b k : Nat} (h : b + k ≤ a ∨ a + n ≤ b) : (t.wr a n v).rd b k = t.rd b k :=
  rdNat_wrNat_of_apart t.scratch a n v b k h

section
variable (t : Team) (h slot st : Nat)

theorem slotDone_rd {b k : Nat} (hb : b + k ≤ h + 32 + 4 * slot ∨ h + 32 + 4 * slot + 2 ≤ b) : (t.slotDone h slot st).rd b k = t.rd b k :=
  (rd_wr_of_apart _ (by omega)).trans (rd_wr_of_apart _ (by omega))

theorem slotDone_kept {x : Nat} (hx : x < h + 32 + 4 * slot ∨ h + 32 + 4 * slot + 2 ≤ x) :
    SMap.get 0 (t.slotDone h slot st).scratch x = SMap.get 0 t.scratch x :=
  (get_wrNat_of_outside _ (by omega)).trans (get_wrNat_of_outside _ (by omega))

theorem slotDone_slotState : (t.slotDone h slot st).slotState h slot = 2 := Team.rd_wr_self _ _ _

theorem slotDone_slotStatus (hst : st < 256) : (t.slotDone h slot st).slotStatus h slot = st :=
  (rd_wr_of_apart _ (by omega)).trans ((Team.rd_wr_self _ _ _).trans (Nat.mod_eq_of_lt hst))

theorem slotDone_slotState_ne {k : Nat} (hk : k ≠ slot) : (t.slotDone h slot st).slotState h k = t.slotState h k :=
  slotDone_rd t h slot st (by omega)

theorem slotDone_wptr : (t.slotDone h slot st).wptr h = t.wptr h := slotDone_rd t h slot st (by omega)

theorem slotDone_rptr : (t.slotDone h slot st).rptr h = t.rptr h := slotDone_rd t h slot st (by omega)

theorem slotDone_slots : (t.slotDone h slot st).slots h = t.slots h := congrArg (· + 1) (slotDone_rd t h slot st (by omega))

end

section
variable (t : Team) (copy h slot st : Nat)

/-- What a completion leaves of its team (R144). -/
theorem completed_spec (hs : slot < t.slots h) (hst : st < 256) : ∃ n, t.completed copy h slot st
      = { t with scratch := (t.completed copy h slot st).scratch, copies := t.copies.filter fun x => decide (x.num ≠ copy) }
    ∧ ScratchKept t (t.completed copy h slot st) h (ringLen (t.slots h))
    ∧ (t.completed copy h slot st).slotState h slot = 2 ∧ (t.completed copy h slot st).slotStatus h slot = st
    ∧ (∀ k, k < t.slots h → k ≠ slot → (t.completed copy h slot st).slotState h k = t.slotState h k)
    ∧ (t.completed copy h slot st).wptr h = (t.wptr h + n) % 2 ^ 32 ∧ (t.completed copy h slot st).rptr h = t.rptr h
    ∧ (∀ k, k < n → (t.completed copy h slot st).slotState h ((t.wptr h + k) % 2 ^ 32 % t.slots h) = 2)
    ∧ ((t.completed copy h slot st).ringUsed h < t.slots h → n < 256 →
      (t.completed copy h slot st).slotState h ((t.completed copy h slot st).wptr h % t.slots h) ≠ 2) := by
  have hlen := le_ringLen (t.slots h)
  obtain ⟨n, hn, hstop⟩ := advanceWptr_advanced
    (({ t with copies := t.copies.filter fun x => decide (x.num ≠ copy) } : Team).slotDone h slot st) h 256
  change Team.Advanced _ (t.completed copy h slot st) h n at hn
  have hpassed := hn.passed
  rw [slotDone_slots, slotDone_wptr] at hpassed
  rw [slotDone_slots] at hstop
  refine ⟨n, hn.rest, fun x hx => (hn.kept x (by omega)).trans (slotDone_kept _ _ _ _ (by omega)), (hn.slotState _).trans (slotDone_slotState _ _ _ _),
    (hn.slotStatus _).trans (slotDone_slotStatus _ _ _ _ hst), fun k _ hk => (hn.slotState _).trans (slotDone_slotState_ne _ _ _ _ hk), ?_,
    hn.rptr.trans (slotDone_rptr _ _ _ _), fun k hk => (hn.slotState _).trans (hpassed k hk), fun hu hlt => hstop hlt hu⟩
  rw [hn.wptr, slotDone_wptr]
  rfl

end

/-- No CPYC waits for an entry (R135). -/
theorem cpycAdmit_none {s : State} (h : ∀ p ∈ s.groups, ∀ w a d, p.2.swait = some w → w.instr ≠ .cpyc a d) (t : Nat) : s.cpycAdmit t = s := by
  have hn : s.cpycWaiters t = [] := by
    refine List.filterMap_eq_nil_iff.mpr fun p hp => ?_
    split
    · next e => exact absurd rfl (h p hp _ _ _ e)
    · rfl
  rw [State.cpycAdmit, hn]
  rfl

section
variable {s : State} {team copy : Nat} {c : Copy} (hc : (s.team team).copy? copy = some c)
include hc

theorem copyComplete_early (h : c.opened = false ∨ s.counted team copy c = false ∨ (∃ x ∈ c.slices, x.ended = false) ∨ (s.team team).stopped = true) :
    exec (.copyComplete team copy) s = .next s := by
  show execCopyComplete team copy s = _
  unfold execCopyComplete
  rw [hc]
  refine if_pos ?_
  rcases h with h | h | ⟨x, hx, h⟩ | h
  · rw [h]; rfl
  · rw [h, Bool.not_false, Bool.or_true]; rfl
  · have ha : c.slices.all (·.ended) = false := List.all_eq_false.mpr ⟨x, hx, by rw [h]; decide⟩
    rw [ha, Bool.not_false, Bool.or_true]; rfl
  · rw [h, Bool.or_true]

/-- Where no group waits for an event nor for an entry, all that is left of the completion is what it writes. -/
theorem copyComplete_done {h : Nat} (hr : (s.team team).ring? c.ring = some h) (hq : NoEventWait s)
    (hw : ∀ p ∈ s.groups, ∀ w a d, p.2.swait = some w → w.instr ≠ .cpyc a d) (ht : (s.team team).stopped = false) (ho : c.opened = true)
    (hn : s.counted team copy c = true) (he : ∀ x ∈ c.slices, x.ended = true) : exec (.copyComplete team copy) s
      = .next (if c.close = true then (s.modTeam team fun t => t.completed copy h c.slot (s.copyStatus c)).endReservations team
          else s.modTeam team fun t => t.completed copy h c.slot (s.copyStatus c)) := by
  have ha : c.slices.all (·.ended) = true := List.all_eq_true.mpr he
  have hteam {f : Team → Team} (hf : f (s.team team) = (s.team team).completed copy h c.slot (s.copyStatus c)) :
      s.modTeam team f = s.modTeam team fun t => t.completed copy h c.slot (s.copyStatus c) := congrArg (s.setTeam team) hf
  have hquiet {u : State} (hg : u.groups = s.groups) (hu : u.timeNs = s.timeNs) : (u.teamEvent team).cpycAdmit team = u := by
    rw [teamEvent_quiet hq hg hu, cpycAdmit_none]
    rwa [hg]
  show execCopyComplete team copy s = _
  unfold execCopyComplete
  rw [hc]
  dsimp only
  rw [ha, hn, ho, ht, if_neg (by decide), hteam]
  · cases c.close
    · exact congrArg _ (hquiet rfl rfl)
    · exact congrArg _ (hquiet rfl rfl)
  · split
    · next k e =>
      obtain rfl := Option.some.inj (e.symm.trans hr)
      rfl
    · next e => cases e.symm.trans hr

end

theorem copyCompletion : CopyCompletion := by
  unfold CopyCompletion
  intro s team copy h c hc hr hq hw t idx
  refine ⟨copyComplete_early hc, fun ht ho hn he hslot hclose hcodes => ?_, fun ht ho hn he hclose => ?_⟩
  · have hexec := copyComplete_done hc hr hq hw ht ho hn he
    rw [hclose, if_neg Bool.false_ne_true] at hexec
    obtain ⟨n, hspec⟩ := completed_spec t copy h c.slot (s.copyStatus c) hslot (copyStatus_lt hcodes)
    refine ⟨_, s.copyStatus c, n, hexec, rfl, onlyTeam_modTeam _ _ _, ?_⟩
    rw [team_modTeam_self]
    obtain ⟨hrest, hkept, h2, hst, hother, hwptr, hrptr, hpast, hstop⟩ := hspec
    exact ⟨hrest, hkept, h2, hst, hother, hwptr, hrptr, hpast, hstop, fun x hx h0 hmin => copyStatus_failed he hx h0 hmin, copyStatus_clean⟩
  · have hexec := copyComplete_done hc hr hq hw ht ho hn he
    rw [hclose, if_pos rfl] at hexec
    exact ⟨_, hexec, fun r => List.mem_filter.trans (and_congr_right fun _ => decide_eq_true_iff)⟩

/-- Settles O41: a unit by where it is read and where it is written, a completion by what its writes leave of the team's ring. -/
theorem copyEvents : Obligations.CopyEvents := ⟨copyUnits, copyCompletion⟩

end Sys2Proof.Machine
end

section
/-! PROOFS. What ends the wait of a scalar stream (R108, R147, R160, R161, R167, R168, R292, R302, R304, R323, R325, R339, R342, R343, R347,
R67, R410). An event looks at the instruction that the stream waits in and at what that instruction captured; one rule for each says
which of the model's operations it then does, and the statement's clauses compare that with the instruction at issue. -/

namespace Sys2Proof.Machine

/-- A group that executes and waits, as the events see it. -/
theorem waiting_asGroup {s : State} {g : Nat} {w : SWait} (hw : (s.asGroup g).cur.swait = some w) (he : (s.asGroup g).executes g = true) :
    (s.asGroup g).waiting = some w := (if_pos he).trans hw

/-- The wait, with the instruction and the operands that are known of it. -/
theorem waiting_of {s : State} {w : SWait} {i : Instr} {l : List W64} (hw : s.waiting = some w) (hi : w.instr = i) (ha : w.aux = l) :
    s.waiting = some { w with instr := i, aux := l } := by
  cases hi
  cases ha
  exact hw

theorem performs_of {e i : Instr} {s t : State} {g : Nat} (he : exec e s = .next t) (hi : exec i (s.asGroup g) = .next t) : Performs e i s g :=
  ⟨t, he, hi⟩

theorem laneIdle_iff (g : Group) : g.laneIdle = true ↔ LaneIdle g := by
  simp [Group.laneIdle, LaneIdle]

theorem runsDone_iff (s : State) : s.runsDone = true ↔ RunsOver s := by
  simp [State.runsDone, RunsOver, laneIdle_iff, and_assoc]

/-! ## Barriers and fences (R339, R342, R343) -/

section
variable {s : State} {w : SWait} {a d : BitVec 6} {b : Fin 16} (hw : s.waiting = some w)
include hw

theorem syncAgain_barw (hi : w.instr = .barw a d b) : s.syncAgain = s.barwTry (.barw a d b) d b.val w.tok false := by
  rw [State.syncAgain, waiting_of hw hi rfl]

theorem syncAgain_bara (hi : w.instr = .bara d b) : s.syncAgain = s.bara d b w.aux.head? := by
  rw [State.syncAgain, waiting_of hw hi rfl]

theorem syncAgain_bar (hi : w.instr = .bar d b) :
    s.syncAgain = if w.arrived then s.barwTry (.bar d b) d b.val w.tok true else s.bar d b w.aux.head? := by
  rw [State.syncAgain, waiting_of hw hi rfl]

theorem syncAgain_fence {sc : Scope} {k : FKind} (hi : w.instr = .fence sc k) :
    s.syncAgain = if w.aux = [] then s.fenceRel sc k else s.fenceAck sc k := by
  rw [State.syncAgain, waiting_of hw hi rfl]

theorem syncAgain_dlaunch (hi : w.instr = .dlaunch a d) (ha : w.aux = []) :
    s.syncAgain = if s.runsDone then s.modCur fun g => { g with swait := none } else s := by
  rw [State.syncAgain, waiting_of hw hi ha]

end

theorem barrierRelease_next {s t : State} {g : Nat} (h : (s.asGroup g).syncAgain = t) : exec (.barrierRelease g) s = .next t := h ▸ rfl

theorem fenceComplete_next {s t : State} {g : Nat} (h : (s.asGroup g).syncAgain = t) : exec (.fenceComplete g) s = .next t := h ▸ rfl

/-- Once the phase it waited for has changed and its own arrival is gone, the re-check of an arrival is the arrival at issue. -/
theorem baraTry_turned {s : State} {b : Nat} {held : Option W64} (i : Instr) (after : Nat → State → State)
    (h : ∀ p, held = some p → p.toNat ≠ s.curTeam.phase b ∧ (s.curTeam.bmask b).getLsbD s.cur.idx = false) :
    s.baraTry i b held after = s.baraTry i b none after := by
  cases held with
  | none => rfl
  | some p =>
    obtain ⟨hp, hm⟩ := h p rfl
    simp [State.baraTry, hp, hm]

theorem barwTry_past {s : State} {b tok : Nat} (i : Instr) (d : BitVec 6) (bar : Bool) (h1 : 1 ≤ (s.curTeam.phase b + 2 ^ 32 - tok) % 2 ^ 32)
    (h2 : (s.curTeam.phase b + 2 ^ 32 - tok) % 2 ^ 32 < 2 ^ 31) : s.barwTry i d b tok bar = s.sput d (BitVec.ofNat 64 (s.curTeam.phase b)) :=
  if_pos ⟨h1, h2⟩

section
variable {s : State} {g : Nat} {w : SWait} {a d : BitVec 6} (hw : (s.asGroup g).waiting = some w)
include hw

section
variable {b : Fin 16} (hb : b.val < (s.asGroup g).curTeam.kernel.bars)
include hb

theorem performs_barw (hi : w.instr = .barw a d b) (ht : w.tok = ((s.asGroup g).sread a).toNat % 2 ^ 32) :
    Performs (.barrierRelease g) (.barw a d b) s g :=
  performs_of (barrierRelease_next ((syncAgain_barw hw hi).trans (by rw [ht]))) (if_pos hb)

section
variable (ht : ∀ p, w.aux.head? = some p → p.toNat ≠ (s.asGroup g).curTeam.phase b
  ∧ ((s.asGroup g).curTeam.bmask b).getLsbD (s.asGroup g).cur.idx = false)
include ht

theorem performs_bara (hi : w.instr = .bara d b) :
    Performs (.barrierRelease g) (.bara d b) s g ∧ Performs (.fenceComplete g) (.bara d b) s g := by
  have h : (s.asGroup g).syncAgain = (s.asGroup g).bara d b none := (syncAgain_bara hw hi).trans (baraTry_turned _ _ ht)
  exact ⟨performs_of (barrierRelease_next h) (if_pos hb), performs_of (fenceComplete_next h) (if_pos hb)⟩

theorem performs_bar (hi : w.instr = .bar d b) (ha : w.arrived = false) :
    Performs (.barrierRelease g) (.bar d b) s g ∧ Performs (.fenceComplete g) (.bar d b) s g := by
  have h : (s.asGroup g).syncAgain = (s.asGroup g).bar d b none := by
    rw [syncAgain_bar hw hi, ha, if_neg Bool.false_ne_true]
    exact baraTry_turned _ _ ht
  exact ⟨performs_of (barrierRelease_next h) (if_pos hb), performs_of (fenceComplete_next h) (if_pos hb)⟩

end

end

theorem barrierRelease_arrived {b : Fin 16} (hi : w.instr = .bar d b) (ha : w.arrived = true)
    (h1 : 1 ≤ ((s.asGroup g).curTeam.phase b + 2 ^ 32 - w.tok) % 2 ^ 32)
    (h2 : ((s.asGroup g).curTeam.phase b + 2 ^ 32 - w.tok) % 2 ^ 32 < 2 ^ 31) :
    EventPuts (.barrierRelease g) s (s.asGroup g) d (BitVec.ofNat 64 ((s.asGroup g).curTeam.phase b)) := by
  have h : (s.asGroup g).syncAgain = (s.asGroup g).sput d (BitVec.ofNat 64 ((s.asGroup g).curTeam.phase b)) := by
    rw [syncAgain_bar hw hi, if_pos ha]
    exact barwTry_past _ _ _ h1 h2
  exact ⟨_, barrierRelease_next h, scalarPut_sput _ _ _⟩

theorem performs_fence {sc : Scope} {k : FKind} (hi : w.instr = .fence sc k) (ha : w.aux = []) (hk : k ≠ .acq) :
    Performs (.fenceComplete g) (.fence sc k) s g :=
  performs_of (fenceComplete_next ((syncAgain_fence hw hi).trans (if_pos ha))) (congrArg Host.Outcome.next (if_neg hk))

theorem fenceComplete_acknowledged (hi : w.instr = .fence .sys .rel) (ha : w.aux = [1])
    (hd : (s.asGroup g).releaseDone (s.asGroup g).curTeam.ctx .sys = true) :
    EventPasses (.fenceComplete g) s ((s.asGroup g).raiseRt (s.asGroup g).curTeam.ctx) := by
  have h : (s.asGroup g).syncAgain = ((s.asGroup g).raiseRt (s.asGroup g).curTeam.ctx).bump := by
    rw [syncAgain_fence hw hi, ha, if_neg (by simp)]
    exact if_pos hd
  exact ⟨_, fenceComplete_next h, scalarJump_bump _⟩

theorem fenceComplete_dlaunch (hi : w.instr = .dlaunch a d) (ha : w.aux = []) (hr : RunsOver (s.asGroup g)) :
    exec (.fenceComplete g) s = .next ((s.asGroup g).modCur fun x => { x with swait := none }) :=
  fenceComplete_next ((syncAgain_dlaunch hw hi ha).trans (if_pos ((runsDone_iff _).mpr hr)))

end

/-! ## The decision queue (R160, R161) -/

theorem runCommand_enqueues {s : State} {start : W64} (i : Instr) (d : BitVec 6) (h : start.toNat < s.curTeam.kernel.lunits)
    (hl : s.cur.anyLive = true ∨ ¬LaneIdle s.cur) : s.runCommand i d start = .next (s.enqueue i
      { start := start.setWidth 32, args := if d = 0 then [0, 0, 0, 0] else (List.range 4).map fun j => s.sread (d + BitVec.ofNat 6 j) }) := by
  have hq : ¬((!s.cur.anyLive && s.cur.laneIdle) = true) := by
    rw [← laneIdle_iff] at hl
    rcases hl with hl | hl <;> simp [hl]
  rw [State.runCommand, if_neg (by omega), if_neg hq]
  rfl

section
variable {s : State} {g : Nat} {w : SWait} {a d : BitVec 6} (hw : (s.asGroup g).waiting = some w)
include hw

theorem performs_lquiet (hi : w.instr = .lquiet) : Performs (.lquietComplete g) .lquiet s g := by
  cases w
  cases hi
  refine performs_of ?_ rfl
  show execLquietComplete g s = _
  rw [execLquietComplete, hw]

theorem lrunEnqueue_lrun {i : BitVec 20} (hi : w.instr = .lrun d i) :
    exec (.lrunEnqueue g) s = .next ((s.asGroup g).enqueue (.lrun d i) { start := BitVec.ofNat 32 w.tok, args := w.aux }) := by
  show execLrunEnqueue g s = _
  rw [execLrunEnqueue, waiting_of hw hi rfl]

theorem lrunEnqueue_lrunr (hi : w.instr = .lrunr d a) :
    exec (.lrunEnqueue g) s = .next ((s.asGroup g).enqueue (.lrunr d a) { start := BitVec.ofNat 32 w.tok, args := w.aux }) := by
  show execLrunEnqueue g s = _
  rw [execLrunEnqueue, waiting_of hw hi rfl]

section
variable (ha : w.aux = if d = 0 then [0, 0, 0, 0] else (List.range 4).map fun j => (s.asGroup g).sread (d + BitVec.ofNat 6 j))
  (hl : (s.asGroup g).cur.anyLive = true ∨ ¬LaneIdle (s.asGroup g).cur)
include ha hl

theorem performs_lrun {i : BitVec 20} (hi : w.instr = .lrun d i) (ht : w.tok = i.toNat)
    (hn : i.toNat < (s.asGroup g).curTeam.kernel.lunits) : Performs (.lrunEnqueue g) (.lrun d i) s g := by
  refine performs_of (lrunEnqueue_lrun hw hi) ?_
  have h := runCommand_enqueues (start := i.setWidth 64) (.lrun d i) d (by rwa [BitVec.toNat_setWidth_of_le (by decide)]) hl
  rw [ha, ht, BitVec.ofNat_toNat]
  rw [BitVec.setWidth_setWidth_of_le _ (by decide)] at h
  exact h

theorem performs_lrunr (hi : w.instr = .lrunr d a) (ht : w.tok = ((s.asGroup g).sread a).toNat) (hs : ((s.asGroup g).sread a).toNat < 2 ^ 20)
    (hn : ((s.asGroup g).sread a).toNat < (s.asGroup g).curTeam.kernel.lunits) : Performs (.lrunEnqueue g) (.lrunr d a) s g := by
  refine performs_of (lrunEnqueue_lrunr hw hi) ?_
  rw [ha, ht, BitVec.ofNat_toNat]
  exact (if_neg (by rw [Nat.div_eq_of_lt hs]; simp)).trans (runCommand_enqueues _ _ hn hl)

end

end

/-! ## Rings, counters, transfers and jobs (R147, R292, R302, R304, R325) -/

/-- A group with one of its sixteen tags free takes a tag (R292). -/
theorem freeTag_ne_none {g : Group} (h : ∃ n, n < 16 ∧ g.tags.find n = none) : g.freeTag ≠ none := by
  obtain ⟨n, hn, hf⟩ := h
  intro he
  exact absurd hf (by simpa using List.find?_eq_none.mp he n (List.mem_range.mpr hn))

section
variable {s : State} {g : Nat} {w : SWait} {a d : BitVec 6} (hw : (s.asGroup g).waiting = some w)
include hw

theorem rawaitRelease_puts {n v : W64} (hi : w.instr = .rawait a d) (ha : w.aux = [n, v]) : EventPuts (.rawaitRelease g) s (s.asGroup g) d v := by
  refine ⟨_, ?_, scalarPut_sput _ _ _⟩
  show execRawaitRelease g s = _
  rw [execRawaitRelease, waiting_of hw hi ha]

theorem rawaitRelease_early {n : W64} (hi : w.instr = .rawait a d) (ha : w.aux = [n]) : exec (.rawaitRelease g) s = .next (s.asGroup g) := by
  show execRawaitRelease g s = _
  rw [execRawaitRelease, waiting_of hw hi ha]

theorem acwaitRelease_puts {v : W64} (hi : w.instr = .acwait a d) (ha : w.aux = [v]) : EventPuts (.acwaitRelease g) s (s.asGroup g) d v := by
  refine ⟨_, ?_, scalarPut_sput _ _ _⟩
  show execAcwaitRelease g s = _
  rw [execAcwaitRelease, waiting_of hw hi ha]

theorem acwaitRelease_early (hi : w.instr = .acwait a d) (ha : w.aux = []) : exec (.acwaitRelease g) s = .next (s.asGroup g) := by
  show execAcwaitRelease g s = _
  rw [execAcwaitRelease, waiting_of hw hi ha]

theorem performs_fstat (hi : w.instr = .fstat a d) (h1 : ((s.asGroup g).sread a).toNat < 512) (h2 : ((s.asGroup g).sread a).toNat / 16 % 16 = 0)
    (ha : w.aux = [(s.asGroup g).sread a]) : Performs (.fstatRelease g) (.fstat a d) s g := by
  refine performs_of (t := (s.asGroup g).fstat a d ((s.asGroup g).sread a)) ?_ ?_
  · show execFstatRelease g s = _
    rw [execFstatRelease, waiting_of hw hi ha]
  · show execFstat a d (s.asGroup g) = _
    rw [execFstat, if_neg (by omega)]

theorem performs_rswait (hi : w.instr = .rswait a d) (h : ((s.asGroup g).sread a).toNat < 2 ^ 17) (ha : w.aux = [(s.asGroup g).sread a]) :
    Performs (.rswaitRelease g) (.rswait a d) s g := by
  refine performs_of (t := (s.asGroup g).rswait a d ((s.asGroup g).sread a)) ?_ ?_
  · show execRswaitRelease g s = _
    rw [execRswaitRelease, waiting_of hw hi ha]
  · show execRswait a d (s.asGroup g) = _
    rw [execRswait, if_neg (by omega)]

section
variable (ht : ∃ n, n < 16 ∧ (s.asGroup g).cur.tags.find n = none)
include ht

theorem performs_fput {p : BPol} {f n : Bool} (hi : w.instr = .fput a d p f n) (ha : w.aux = (List.range 3).map fun j => (s.asGroup g).sreadAt a j) :
    Performs (.tagStallEnd g) (.fput a d p f n) s g := by
  refine performs_of ?_ rfl
  show execTagStallEnd g s = _
  rw [execTagStallEnd, if_neg (freeTag_ne_none ht), waiting_of hw hi ha]

theorem performs_fget {p : BPol} {n : Bool} (hi : w.instr = .fget a d p n) (ha : w.aux = (List.range 3).map fun j => (s.asGroup g).sreadAt a j) :
    Performs (.tagStallEnd g) (.fget a d p n) s g := by
  refine performs_of ?_ rfl
  show execTagStallEnd g s = _
  rw [execTagStallEnd, if_neg (freeTag_ne_none ht), waiting_of hw hi ha]

theorem performs_fatom {n : Bool} {o : FOp} (hi : w.instr = .fatom a d n o) (ha : w.aux = (List.range 4).map fun j => (s.asGroup g).sreadAt a j) :
    Performs (.tagStallEnd g) (.fatom a d n o) s g := by
  refine performs_of ?_ rfl
  show execTagStallEnd g s = _
  rw [execTagStallEnd, if_neg (freeTag_ne_none ht), waiting_of hw hi ha]

theorem performs_fmcast {p : BPol} {n : Bool} (hi : w.instr = .fmcast a d p n) (ha : w.aux = (List.range 4).map fun j => (s.asGroup g).sreadAt a j) :
    Performs (.tagStallEnd g) (.fmcast a d p n) s g := by
  refine performs_of ?_ rfl
  show execTagStallEnd g s = _
  rw [execTagStallEnd, if_neg (freeTag_ne_none ht), waiting_of hw hi ha]

end

end

/-! ## Deadlines and flushes (R67, R347, R410) -/

section
variable {s : State} {due seen : W64}

theorem sleeps_seen (a d : BitVec 6) (due : W64) (h : seen ≠ 0) : s.sleeps a d true due seen = s.sput d 1 := if_pos ⟨rfl, h⟩

theorem sleeps_due (a d : BitVec 6) {e : Bool} (h : e = false ∨ seen = 0) (h0 : due ≠ 0) (ht : due.toNat ≤ s.timeNs.toNat) :
    s.sleeps a d e due seen = s.sput d 0 := by
  rw [State.sleeps, if_neg, if_pos ⟨h0, ht⟩]
  rintro ⟨he, hs⟩
  rcases h with h | h
  · exact Bool.false_ne_true (h.symm.trans he)
  · exact hs h

theorem shalt_seen (a d : BitVec 6) (due : W64) (h : seen ≠ 0) : s.shalt a d due seen = s.sput d seen := if_pos h

theorem shalt_due (a d : BitVec 6) (h0 : due ≠ 0) (ht : due.toNat ≤ s.timeNs.toNat) : s.shalt a d due 0 = s.sput d 0 :=
  (if_neg (not_not_intro rfl)).trans (if_pos ⟨h0, ht⟩)

end

/-- A flush that a node does not acknowledge ends after 10 ms (R67). -/
theorem persistEnd_late {s : State} {i : Instr} {d : BitVec 6} {status start : W64} {nodes : List W64} (hu : s.mem.unaccepted = [])
    (hn : ∃ n ∈ nodes, s.mem.answers n.toNat = false) (ht : start.toNat + 10000000 ≤ s.timeNs.toNat) :
    s.persistEnd i d status start nodes = s.sput d 0x06 := by
  have hd : (nodes.any fun n => !s.mem.answers n.toNat) = true := by simpa using hn
  unfold State.persistEnd
  rw [hd]
  exact if_pos ⟨hu, .inr ht⟩

section
variable {s : State} {g : Nat} {w : SWait} {a d : BitVec 6} (hw : (s.asGroup g).waiting = some w)
include hw

theorem sleepsWake_exec {e : Bool} {due : W64} (hi : w.instr = .sleeps a d e) (ha : w.aux = [due]) :
    exec (.sleepsWake g) s = .next ((s.asGroup g).sleeps a d e due w.seen) := by
  show execSleepsWake g s = _
  rw [execSleepsWake, waiting_of hw hi ha]

theorem shaltWake_exec {due : W64} (hi : w.instr = .shalt a d) (ha : w.aux = [due]) :
    exec (.shaltWake g) s = .next ((s.asGroup g).shalt a d due w.seen) := by
  show execShaltWake g s = _
  rw [execShaltWake, waiting_of hw hi ha]

theorem persistComplete_exec {status start : W64} {nodes : List W64} (hi : w.instr = .persist a d ∨ w.instr = .persistAll d)
    (ha : w.aux = status :: start :: nodes) : exec (.persistComplete g) s = .next ((s.asGroup g).persistEnd w.instr d status start nodes) := by
  cases w
  cases ha
  show execPersistComplete g s = _
  rw [execPersistComplete, hw]
  rcases hi with hi | hi <;> cases hi <;> rfl

theorem sleepsWake_puts {e : Bool} {due : W64} (hi : w.instr = .sleeps a d e) (ha : w.aux = [due]) :
    (e = true → w.seen ≠ 0 → EventPuts (.sleepsWake g) s (s.asGroup g) d 1)
    ∧ (e = false ∨ w.seen = 0 → due ≠ 0 → due.toNat ≤ s.timeNs.toNat → EventPuts (.sleepsWake g) s (s.asGroup g) d 0) := by
  refine ⟨fun he hs => ?_, fun h h0 ht => ?_⟩
  · subst he
    exact ⟨_, (sleepsWake_exec hw hi ha).trans (by rw [sleeps_seen a d due hs]), scalarPut_sput _ _ _⟩
  · exact ⟨_, (sleepsWake_exec hw hi ha).trans (by rw [sleeps_due (s := s.asGroup g) a d h h0 ht]), scalarPut_sput _ _ _⟩

theorem shaltWake_puts {due : W64} (hi : w.instr = .shalt a d) (ha : w.aux = [due]) :
    (w.seen ≠ 0 → EventPuts (.shaltWake g) s (s.asGroup g) d w.seen)
    ∧ (w.seen = 0 → due ≠ 0 → due.toNat ≤ s.timeNs.toNat → EventPuts (.shaltWake g) s (s.asGroup g) d 0) := by
  refine ⟨fun hs => ?_, fun hs h0 ht => ?_⟩
  · exact ⟨_, (shaltWake_exec hw hi ha).trans (by rw [shalt_seen a d due hs]), scalarPut_sput _ _ _⟩
  · exact ⟨_, (shaltWake_exec hw hi ha).trans (by rw [hs, shalt_due (s := s.asGroup g) a d h0 ht]), scalarPut_sput _ _ _⟩

theorem persistComplete_puts {status start : W64} {nodes : List W64} (hi : w.instr = .persist a d ∨ w.instr = .persistAll d)
    (ha : w.aux = status :: start :: nodes) (hu : s.mem.unaccepted = []) :
    ((∀ n ∈ nodes, s.mem.answers n.toNat = true) → EventPuts (.persistComplete g) s (s.asGroup g) d status)
    ∧ ((∃ n ∈ nodes, s.mem.answers n.toNat = false) → start.toNat + 10000000 ≤ s.timeNs.toNat →
      EventPuts (.persistComplete g) s (s.asGroup g) d 0x06) := by
  refine ⟨fun hn => ?_, fun hn ht => ?_⟩
  · exact ⟨_, (persistComplete_exec hw hi ha).trans (by rw [persistEnd_done (s := s.asGroup g) hu hn]), scalarPut_sput _ _ _⟩
  · exact ⟨_, (persistComplete_exec hw hi ha).trans (by rw [persistEnd_late (s := s.asGroup g) hu hn ht]), scalarPut_sput _ _ _⟩

end

/-! ## Scalar accesses (R167, R168) -/

/-- The sign extension of the low bytes of a word (R178). -/
theorem sext64_eq (z : Size) (v : W64) : sext64 (Size.bytes' z) v.toNat = (v.setWidth (8 * Size.bytes' z)).signExtend 64 := by
  rw [sext64, BitVec.signExtend, BitVec.toInt_eq_toNat_cond, BitVec.toNat_setWidth, BitVec.ofNat_toNat, BitVec.setWidth_eq]
  rfl

section
variable {s : State} {g : Nat} {w : SWait} (hw : (s.asGroup g).waiting = some w)
include hw

/-- The answer of the host or of a peer, and what the waiting access makes of it. -/
theorem scalarAccessComplete_answered {v : W64} (hv : (w.aux = [onHost] ∧ (s.host.reqs.find w.tok).bind (·.ans) = some v)
      ∨ (w.aux = [onPeer] ∧ (s.fabric.reqs.find w.tok).bind (·.ans) = some v)) : exec (.scalarAccessComplete g) s
      = .next ((if w.aux = [onHost] then (s.asGroup g).dropHost w.tok else (s.asGroup g).dropPeer w.tok).finishAccess w.instr v.toNat) := by
  show execScalarAccessComplete g s = _
  rw [execScalarAccessComplete]
  rcases hv with ⟨ha, hv⟩ | ⟨ha, hv⟩
  · have hv' : ((s.asGroup g).host.reqs.find w.tok).bind (·.ans) = some v := hv
    rw [waiting_of hw rfl ha, ha]
    refine (if_neg (by decide)).trans ?_
    simp only [if_true, hv']
  · have hv' : ((s.asGroup g).fabric.reqs.find w.tok).bind (·.ans) = some v := hv
    rw [waiting_of hw rfl ha, ha]
    refine (if_neg (by decide)).trans ?_
    simp only [show ¬onPeer = onHost by decide, show ¬[onPeer] = [onHost] by decide, if_false, hv']

/-- A translation has come: the access is made again. -/
theorem scalarAccessComplete_again (ha : w.aux = [onXlat]) (hr : s.host.reqs.find w.tok = none) :
    exec (.scalarAccessComplete g) s = (s.asGroup g).redo w.instr := by
  show execScalarAccessComplete g s = _
  rw [execScalarAccessComplete, waiting_of hw rfl ha]
  refine (if_pos rfl).trans (if_neg ?_)
  rw [show (s.asGroup g).host.reqs.find w.tok = none from hr]
  decide

end

/-- The instructions whose access waits for a translation are done again from their beginning. -/
theorem redo_exec (s : State) {a d b : BitVec 6} {sz : Size} {o : BitVec 12} {f : AOp} : ∀ i ∈ [Instr.sld d a sz o, .sldx d a sz o, .sst d a sz o,
    .satom d a b f, .leaseopRead a d, .leaseopGrant a d, .keyopLoad a d], s.redo i = exec i (s.modCur fun x => { x with swait := none }) := by
  intro i hi
  fin_cases hi <;> rfl

section
variable {s : State} {g : Nat} {w : SWait} {a d : BitVec 6} {v : W64} (hw : (s.asGroup g).waiting = some w)
  (hv : (w.aux = [onHost] ∧ (s.host.reqs.find w.tok).bind (·.ans) = some v) ∨ (w.aux = [onPeer] ∧ (s.fabric.reqs.find w.tok).bind (·.ans) = some v))
include hw hv

/-- An answer that a load or an atomic turns into the word x. -/
theorem scalarAccessComplete_puts {x : W64} (h : ∀ u : State, u.finishAccess w.instr v.toNat = u.sput d x) :
    EventPuts (.scalarAccessComplete g) s (if w.aux = [onHost] then (s.asGroup g).dropHost w.tok else (s.asGroup g).dropPeer w.tok) d x :=
  ⟨_, (scalarAccessComplete_answered hw hv).trans (by rw [h]), scalarPut_sput _ _ _⟩

theorem scalarAccessComplete_passes (h : ∀ u : State, u.finishAccess w.instr v.toNat = u.bump) :
    EventPasses (.scalarAccessComplete g) s (if w.aux = [onHost] then (s.asGroup g).dropHost w.tok else (s.asGroup g).dropPeer w.tok) :=
  ⟨_, (scalarAccessComplete_answered hw hv).trans (by rw [h]), scalarJump_bump _⟩

end

/-! ## RESHARD (R323) -/

theorem wbits_zero (x : W64) (n : Nat) : wbits x 0 n = x.toNat % 2 ^ n := by
  rw [wbits, pow_zero, Nat.div_one]

/-- A group has named a job number, and the next job's number moves on. -/
def State.jobNamed (v : State) (num n : Nat) : State :=
  { v.modCur fun g => { g with jobs := g.jobs.insert num n } with nextJob := n + 1 }

theorem jobNamed_rest (v : State) (num n : Nat) : v.jobNamed num n = { v with groups := (v.jobNamed num n).groups, nextJob := n + 1 } := rfl

theorem jobNamed_cur (v : State) (num n : Nat) : (v.jobNamed num n).cur = { v.cur with jobs := v.cur.jobs.insert num n } :=
  State.cur_modCur v fun g => { g with jobs := g.jobs.insert num n }

theorem jobNamed_others (v : State) (num n : Nat) : ∀ g, g ≠ v.curGid → (v.jobNamed num n).groups.find g = v.groups.find g :=
  (onlyGroup_modCur v fun g => { g with jobs := g.jobs.insert num n }).2

section
variable {s : State} {i : Instr} {d : BitVec 6} {o : List W64} {src dst : List Byte} {old : Option (List Byte)} {placed : Bool}

theorem reshardGo_starts (ho : old = none ↔ (o.getD 3 0).getLsbD 16 = false) (hp : placed = true ∨ s.liveJobs < 64) :
    ReshardStarts (.next (s.reshardGo i d o src dst (old.getD []) placed)) s d (o.getD 2 0) ((o.getD 3 0).toNat % 2 ^ 16) src dst old := by
  rw [← wbits_zero]
  have hwait : ¬((!placed && decide (64 ≤ s.liveJobs)) = true) := by
    rcases hp with hp | hp
    · simp [hp]
    · simp [hp]
  unfold State.reshardGo
  rw [if_neg hwait]
  extract_lets ls ld total resume done acked above j marks j' n start
  have hnone : old = none → resume = false := ho.mp
  have hsome (b : List Byte) (h : old = some b) : resume = true := by
    by_contra hr
    rw [ho.mpr (Bool.eq_false_of_not_eq_true hr)] at h
    cases h
  have hdone (b : List Byte) (h : old = some b) : done = true ↔ (wordAt b 3).toNat / 256 % 256 = 2 := by
    simp [done, hsome b h, h, wbits]
  refine ⟨acked, above, j'.bytes, fun h => ?_, ?_, fun b h hb => ?_, fun b h => ?_, fun h r v hwr => ?_⟩
  · have hr := hnone h
    have hm : marks = [] := by simp [marks, acked, above, done, hr]
    refine ⟨by simp [acked, done, hr], by simp [above, hr], ?_⟩
    show BitVec.ofNat 64 (marks.foldl _ 0) = 0
    rw [hm]
    rfl
  · rintro ⟨b, h, hb⟩
    have hd := (hdone b h).mpr hb
    exact ⟨if_pos hd, if_neg (by simp [hd])⟩
  · have hd : ¬done = true := fun hd => hb ⟨b, h, (hdone b h).mp hd⟩
    have ha : acked = min (wbits (wordAt (old.getD []) 1) 0 32) total := (if_neg hd).trans (if_pos (hsome b h))
    have hu : above = wordAt (old.getD []) 2 := if_pos (by simp [hsome b h, hd])
    rw [ha, hu, h, wbits_zero]
    exact ⟨rfl, rfl⟩
  · rw [if_pos (hsome b h)]
    exact ⟨s.jobNamed _ n, _, rfl, scalarPut_sput _ _ _, jobNamed_rest _ _ _, jobNamed_others _ _ _, jobNamed_cur _ _ _⟩
  · rw [if_neg (by rw [hnone h]; decide), show s.writeBlock j' (.store j'.ctx) j'.image = (r, v) from hwr]
    refine ⟨fun e he => ?_, fun c he => ?_, fun he => ?_⟩
    · subst he
      exact ⟨v.jobNamed _ n, _, rfl, scalarPut_sput _ _ _, jobNamed_rest _ _ _, jobNamed_others _ _ _, jobNamed_cur _ _ _⟩
    · subst he
      exact ⟨_, rfl, scalarPut_sput _ _ _⟩
    · subst he
      obtain ⟨x, hx⟩ : ∃ x, v.reshardWait i o src dst (old.getD []) true = v.swaitOn x := ⟨_, rfl⟩
      exact ⟨v.swaitOn x, x, congrArg Host.Outcome.next hx, onlyGroup_modCur v _, State.cur_modCur v _⟩

/-- The bytes a RESHARD has captured fall into its block, where there is one, and its two records. -/
theorem captured_split {b : List Byte} {k n : Nat} (hb : b = old.getD [] ++ src ++ dst) (hk : k = (old.getD []).length) (hn : n = src.length) :
    (b.drop k).take n = src ∧ b.drop (k + n) = dst ∧ b.take k = old.getD [] := by
  subst hb hk hn
  rw [List.append_assoc]
  refine ⟨?_, ?_, List.take_left⟩
  · rw [List.drop_left, List.take_left]
  · rw [← List.drop_drop, List.drop_left, List.drop_left]

theorem elandJobSlotFree_exec {g : Nat} {w : SWait} {a : BitVec 6} (hw : (s.asGroup g).waiting = some w) (hi : w.instr = .reshard a d)
    (harr : w.arrived = true) (htok : w.tok = src.length) (ho : old = none ↔ (o.getD 3 0).getLsbD 16 = false)
    (hold : ∀ b, old = some b → b.length = 64) (hb : wordBytes (w.aux.drop 4) = old.getD [] ++ src ++ dst) (ht : w.aux.take 4 = o)
    (hp : w.seen = 1 ∨ s.liveJobs < 64) :
    exec (.elandJobSlotFree g) s = .next ((s.asGroup g).reshardGo (.reshard a d) d o src dst (old.getD []) (decide (w.seen = 1))) := by
  have hflag : w.aux.getD 3 0 = o.getD 3 0 := by
    rw [← ht, List.getD_eq_getElem?_getD, List.getD_eq_getElem?_getD, List.getElem?_take_of_lt (by decide)]
  have hk : (if (w.aux.getD 3 0).getLsbD 16 then 64 else 0) = (old.getD []).length := by
    rw [hflag]
    cases old with
    | none => rw [ho.mp rfl]; rfl
    | some b =>
      rw [if_pos (by by_contra h; cases ho.mpr (Bool.eq_false_of_not_eq_true h))]
      exact (hold b rfl).symm
  obtain ⟨hsrc, hdst, hblk⟩ := captured_split hb hk htok
  have hplace : ¬((!decide (w.seen = 1) && decide (64 ≤ (s.asGroup g).liveJobs)) = true) := by
    rcases hp with hp | hp
    · simp [hp]
    · have hl : (s.asGroup g).liveJobs < 64 := hp
      simp [hl]
  show execElandJobSlotFree g s = _
  cases w
  cases hi
  cases harr
  rw [execElandJobSlotFree, hw]
  refine congrArg Host.Outcome.next ((if_neg hplace).trans ?_)
  rw [hsrc, hdst, hblk, ht]

end

/-- Settles O37, event by event: each finds the waiting instruction and what it captured, and does what that instruction does at issue. -/
theorem scalarReleases : Obligations.ScalarReleases := by
  intro s g w a d z hswait hexec t r words
  have hw : (s.asGroup g).waiting = some w := waiting_asGroup hswait hexec
  refine ⟨fun b hb => ⟨performs_barw hw hb, fun hi ht => performs_bara hw hb ht hi, fun hi ha ht => performs_bar hw hb ht hi ha,
      barrierRelease_arrived hw⟩,
    fun sc k => performs_fence hw, fenceComplete_acknowledged hw, fenceComplete_dlaunch hw,
    performs_lquiet hw, fun i hi ht ha hn hl => performs_lrun hw ha hl hi ht hn, fun hi ht hs ha hn hl => performs_lrunr hw ha hl hi ht hs hn,
    fun n v => rawaitRelease_puts hw, fun n => rawaitRelease_early hw, fun v => acwaitRelease_puts hw, acwaitRelease_early hw,
    performs_fstat hw, performs_rswait hw,
    fun ht p f n o => ⟨performs_fput hw ht, performs_fget hw ht, performs_fatom hw ht, performs_fmcast hw ht⟩,
    fun src dst old o hi harr _ htok ho hold hb ht hp => ?_,
    fun e due => sleepsWake_puts hw, fun due => shaltWake_puts hw, fun status start nodes => persistComplete_puts hw,
    fun v hv => ⟨fun sz o hi => scalarAccessComplete_puts hw hv fun u => by rw [hi]; rfl,
      fun sz o hi => scalarAccessComplete_puts hw hv fun u => by rw [hi, ← sext64_eq]; rfl,
      fun b o hi => scalarAccessComplete_puts hw hv fun u => by rw [hi, State.finishAccess, BitVec.ofNat_toNat, BitVec.setWidth_eq],
      fun sz o hi => scalarAccessComplete_passes hw hv fun u => by rw [hi]; rfl⟩,
    fun ha hr sz o b f i hmem hi => ?_⟩
  · rw [elandJobSlotFree_exec hw hi harr htok ho hold hb ht hp]
    exact reshardGo_starts ho (hp.imp_left fun h => decide_eq_true h)
  · rw [scalarAccessComplete_again hw ha hr, hi]
    exact redo_exec _ i hmem

end Sys2Proof.Machine
end
